-- ==== Sys2Proof/Word.lean ====
section
/-!
DEFINITION. Words of the Z940 and their plainest arithmetic.
-/

namespace Sys2Proof

/-- A byte of memory (R3). -/
abbrev Byte := BitVec 8

/-- A 64-bit sequencer register, system register or fabric configuration word. -/
abbrev Word := BitVec 64

/-- A 32-bit lane container (R42) or a sequencer code word (Table 2-12). -/
abbrev Lane := BitVec 32

/-- Index of an s register. -/
abbrev SReg := BitVec 5

/-- Index of a stream port. -/
abbrev QReg := BitVec 3

/-- Index of a pattern register g. -/
abbrev GReg := BitVec 4

/-- Index of a stage register h. -/
abbrev HReg := BitVec 3

/-- Index of a codebook register c. -/
abbrev CReg := BitVec 4

/-- `bits x lo n`: the n bits of x that begin at bit lo. -/
abbrev bits {w : Nat} (x : BitVec w) (lo n : Nat) : BitVec n := x.extractLsb' lo n

/-- Bit i of x. -/
abbrev bitAt {w : Nat} (x : BitVec w) (i : Nat) : Bool := x.getLsbD i

/-- One bit from a Boolean. -/
abbrev bit1 (b : Bool) : BitVec 1 := BitVec.ofBool b

end Sys2Proof
end

