-- ==== Sys2Proof/Syntax.lean ====
section
/-!
DEFINITION. The instructions and events of spec/opcode_table.json, one constructor for each row.
Sequencer instructions carry the fields of Tables 2-12 and 2-14, fabric instructions one record of the fields of
Table 2-4, and events the names of the agents and objects that they concern (log 1).
-/

namespace Sys2Proof

/-- Ordering scopes (R223): .blk, .rgn, .brd, .mod, .dom and .sys. -/
inductive Scope where
  | blk | rgn | brd | mod | dom | sys
  deriving DecidableEq, Repr

/-- The six scopes as their numbers 0 (.blk) to 5 (.sys). -/
def Scope.level : Scope → Nat
  | .blk => 0 | .rgn => 1 | .brd => 2 | .mod => 3 | .dom => 4 | .sys => 5

/-- Kinds of a fence (Table 9-3). -/
inductive FenceKind where
  | acq | rel | ar | sc
  deriving DecidableEq, Repr

/-- Element types of the lanes (Table 2-5). -/
inductive ElemTy where
  | i32 | u32 | i16 | u16 | i8 | u8 | f32 | bf16 | f16 | e4m3 | e5m2 | cb4 | e8m0 | b32
  deriving DecidableEq, Repr

/-- Operand slots of a fabric instruction (Table 2-7). -/
inductive Slot where
  | a | b | p | c
  deriving DecidableEq, Repr

/-- A target of a result (Tables 2-6, 2-7). -/
inductive Target where
  /-- kind 00 -/
  | absent
  /-- kind 01: an operand slot of instruction `index` -/
  | operand (index : BitVec 7) (slot : Slot)
  /-- kind 10: an external port of Table 2-8 -/
  | port (index : BitVec 7)
  /-- kind 11: an accumulator register -/
  | acc (reg : BitVec 6)
  deriving DecidableEq, Repr

/-- Predication (R47): PM = 00, 01 or 10. -/
inductive Pred where
  | always | ifp | ifn
  deriving DecidableEq, Repr

/-- The fields of a fabric instruction word (Table 2-4) but for OPC. -/
structure Fields where
  fn : BitVec 6
  ty : ElemTy
  tga : Target
  tgb : Target
  dpa : BitVec 3
  dpb : BitVec 3
  pm : Pred
  imm : BitVec 16
  deriving DecidableEq, Repr

/-- Branch conditions (Table 2-13). -/
inductive Cond where
  | eq | ne | lt | ge | ltu | geu | al | tpend | tdone | tflt
  deriving DecidableEq, Repr

/-- Marker selector of `qpush` (R340). -/
inductive PushMark where
  | data | eor | eot | scale | cfg | trig
  deriving DecidableEq, Repr

/-- The array operand of the butterfly instructions (R278). -/
inductive ArrSel where
  | ba0 | ba1 | ba01
  deriving DecidableEq, Repr

/-- Atomic operations (Table 12-1). -/
inductive AtomOp where
  | add | min | max | and | or | xor | xchg | cas
  deriving DecidableEq, Repr

/-- Ordering of an atomic (Table 12-2). -/
inductive AtomOrd where
  | none | acq | rel | ar
  deriving DecidableEq, Repr

/-- Type field of `satom` (R315). -/
inductive SatomTy where
  | signed | unsigned | float
  deriving DecidableEq, Repr

/-- One instruction or event: one constructor for each row of the opcode table. -/
inductive Instr where
  -- sequencer arithmetic (R336, R337)
  | add (d a b : SReg)
  | addi (d a : SReg) (i : BitVec 14)
  | sub (d a b : SReg)
  | and (d a b : SReg)
  | andi (d a : SReg) (i : BitVec 14)
  | or (d a b : SReg)
  | ori (d a : SReg) (i : BitVec 14)
  | xor (d a b : SReg)
  | xori (d a : SReg) (i : BitVec 14)
  | shl (d a b : SReg)
  | shli (d a : SReg) (i : BitVec 14)
  | shr (d a b : SReg)
  | shri (d a : SReg) (i : BitVec 14)
  | sra (d a b : SReg)
  | srai (d a : SReg) (i : BitVec 14)
  | mul (d a b : SReg)
  | mulh (d a b : SReg) (u : Bool)
  | div (d a b : SReg) (u : Bool)
  | rem (d a b : SReg) (u : Bool)
  | slt (d a b : SReg)
  | slti (d a : SReg) (i : BitVec 14)
  | sltu (d a b : SReg)
  | lui (d : SReg) (i : BitVec 19)
  | min (d a b : SReg) (u : Bool)
  | max (d a b : SReg) (u : Bool)
  -- sequencer memory, ports and control (R339 to R348)
  | sld (d a : SReg) (i : BitVec 14)
  | sst (d a : SReg) (i : BitVec 14)
  | qpop (d : SReg) (q : QReg) (lane : BitVec 4) (p x sx : Bool)
  | qpush (q : QReg) (a : SReg) (lane : BitVec 4) (p x : Bool) (mk : PushMark)
  | qstat (d : SReg) (q : QReg) (x : Bool)
  | bcc (cond : Cond) (off : BitVec 19) (a b : SReg)
  | jal (d : SReg) (off : BitVec 19)
  | jalr (d a : SReg) (i : BitVec 14)
  | blk (d a : SReg)
  | bar (a b : SReg) (jobs : Bool)
  | bst (d : SReg) (clr : Bool)
  -- streams (R216)
  | lpat (g : GReg) (a : SReg) (i : BitVec 14)
  | spat (g : GReg) (a : SReg) (i : BitVec 14)
  | sbind (q : QReg) (g : GReg) (wr : Bool)
  | sgo (d : SReg) (q : QReg) (wr : Bool) (sc : Scope)
  | acpy (d : SReg) (ga gb : GReg) (c : SReg) (sc : Scope)
  | cbld (n : CReg) (a : SReg) (i : BitVec 14)
  -- ordering (R249)
  | sfence (k : FenceKind) (sc : Scope)
  | wbk (sc : Scope) (a b : SReg)
  | inv (sc : Scope) (a b : SReg)
  -- butterfly arrays (R278)
  | bstg (h : HReg) (a : SReg)
  | bwld (sc : Scope) (d a b : SReg) (arr : ArrSel) (col : BitVec 6) (off : BitVec 10) (n : CReg)
  | bchn (sc : BitVec 3) (d : SReg) (h : HReg) (b : SReg) (arr : ArrSel) (c0 gm1 : BitVec 6)
  | baccClr (b : SReg) (arr : ArrSel)
  | baccRd (a b : SReg) (arr : ArrSel)
  | brate (a b : SReg) (unit : BitVec 4)
  | bdrnSv (a : SReg) (arr : ArrSel) (inc : Bool)
  | bdrnLd (a : SReg) (arr : ArrSel)
  -- steering (R304)
  | steer (g : BitVec 2) (a : SReg) (w : BitVec 13) (batch : Bool) (en jn : BitVec 8)
  | stcnt (d : SReg) (g : BitVec 2) (j : BitVec 3)
  | stcntWr (a : SReg) (g : BitVec 2) (j : BitVec 3)
  | smenu (a b : SReg) (m : BitVec 2)
  -- atomics and barriers (R315, R320, R324, R326)
  | satom (d a b c : SReg) (op : AtomOp) (wide : Bool) (ord : AtomOrd) (sc : Scope) (ty : SatomTy)
  | sarrv (d a b : SReg) (rel : Bool)
  | swaitp (a b : SReg)
  | waita (d a b c : SReg) (cond : Cond) (sc : Scope) (acq : Bool)
  | bnew (a b : SReg)
  -- tasks, contexts and game trees (R368)
  | tenq (d a : SReg)
  | tsig (sc : Scope) (a b : SReg)
  | fork (d a b : SReg)
  | resign (a : SReg)
  | bwait (d a b : SReg)
  | brinfo (d a : SReg) (n : BitVec 2)
  | alloc (d : SReg)
  | allocKv (d a : SReg)
  | free (d a : SReg)
  | amsg (d a b c : SReg) (h : BitVec 8)
  | hbind (d a b : SReg)
  | trigOff (slot : BitVec 4)
  | trigAdr (a b : SReg) (slot : BitVec 4) (h : BitVec 8)
  | trigPort (slot : BitVec 4) (h : BitVec 8) (port : QReg)
  | trigRd (d : SReg) (slot : BitVec 4)
  | yield
  -- system (R385 to R404)
  | trap (n : BitVec 19)
  | eret
  | sysr (d : SReg) (r : BitVec 14)
  | sysw (r : BitVec 14) (a : SReg)
  | frzQ (d : SReg)
  | frzGo
  | frzKill (a : SReg)
  | frzOn
  | ftok (a : SReg)
  | save (d a b : SReg) (inc : Bool)
  | rest (d a b : SReg)
  | wpt (n : BitVec 2) (off : Bool) (a : SReg) (mask : BitVec 16)
  | tlbi (all : Bool) (sc : Scope) (a b : SReg)
  | cfgw (a b : SReg)
  | halt
  -- fabric control (R110)
  | inp (f : Fields) | outp (f : Fields) | fan (f : Fields) | gen (f : Fields) | ext (f : Fields)
  | filt (f : Fields) | sel (f : Fields) | mrg (f : Fields) | loop (f : Fields) | hold (f : Fields)
  | mark (f : Fields) | mtst (f : Fields) | cnt (f : Fields) | exit (f : Fields) | sink (f : Fields)
  -- fabric integers (R135)
  | fabAdd (f : Fields) | fabSub (f : Fields) | adds (f : Fields) | subs (f : Fields)
  | fabMul (f : Fields) | fabMulh (f : Fields) | mad (f : Fields) | fabShl (f : Fields)
  | fabShr (f : Fields) | fabSra (f : Fields) | fabAnd (f : Fields) | fabOr (f : Fields)
  | fabXor (f : Fields) | andn (f : Fields) | fabMin (f : Fields) | fabMax (f : Fields)
  | cmp (f : Fields) | clz (f : Fields) | popc (f : Fields) | brev (f : Fields)
  | addr (f : Fields) | shuf (f : Fields) | bcst (f : Fields) | scan (f : Fields) | lred (f : Fields)
  -- floating point (R151)
  | fadd (f : Fields) | fsub (f : Fields) | fmul (f : Fields) | fma (f : Fields)
  | fmin (f : Fields) | fmax (f : Fields) | fcmp (f : Fields) | fsgn (f : Fields)
  | frcp (f : Fields) | frsq (f : Fields) | fref (f : Fields) | fex2 (f : Fields)
  | flg2 (f : Fields) | ftnh (f : Fields) | fcls (f : Fields) | frnd (f : Fields)
  -- conversion (R168)
  | cvt (f : Fields) | bqnt (f : Fields) | bdq (f : Fields) | cbx (f : Fields)
  | cbq (f : Fields) | hads (f : Fields) | sclx (f : Fields)
  -- memory nodes (R187, R245, R313, R318, R325)
  | ld (f : Fields) | st (f : Fields) | lds (f : Fields) | sts (f : Fields) | ldt (f : Fields)
  | prf (f : Fields) | fence (f : Fields) | atom (f : Fields) | rtree (f : Fields) | arrv (f : Fields)
  -- butterfly ports (R275)
  | bfin (f : Fields) | bfout (f : Fields)
  -- steering and sparse sets (R295), live (R380)
  | sroute (f : Fields) | sret (f : Fields)
  | pipsEnt (f : Fields) | pipsOut (f : Fields) | pipsRd (f : Fields) | pipsSet (f : Fields) | pipsClr (f : Fields)
  | clsc (f : Fields) | isect (f : Fields) | unio (f : Fields) | mrgk (f : Fields) | sjoin (f : Fields)
  | tmenu (f : Fields) | live (f : Fields)
  -- events of the device; each names what it concerns (log 1)
  /-- fetch and check of a region's plane's next block -/
  | successorFetch (region plane : Nat)
  | blockCommit (region plane : Nat)
  | sliceStart (seq : Nat)
  | switchInject (region plane slot : Nat)
  | nodeReconfigure (region plane slot : Nat)
  | blkstReport (seq index : Nat)
  | dispatchDecision (partition seq : Nat)
  | issue (agent index : Nat)
  | commit (agent index : Nat)
  | propagate (index : Nat)
  | rmwPerform (agent index : Nat)
  | loadReturn (agent index : Nat)
  | walkComplete (index : Nat)
  | parkingEntryGrant (board : Nat)
  | copyOnWrite (index : Nat)
  | engineJobStart (region job : Nat)
  | readSideEmit (region port : Nat)
  | writeSideTake (region port : Nat)
  | engineJobComplete (region job : Nat)
  | asyncEvent (seq : Nat)
  | faultTokenEnqueue (board : Nat)
  | triggerMessage (ctx slot : Nat)
  | markingPropagate (ctx index : Nat)
  | resignWalk (ctx branch : Nat)
  | waitWake (seq : Nat)
  | waitTimeout (seq : Nat)
  | routerDispatch (region plane group : Nat)
  | routerReport (region plane : Nat)
  | groupEnd (region plane group : Nat)
  | columnFire (region array col : Nat)
  | arrayDrain (region array : Nat)
  | chainComplete (region array : Nat)
  | rateWindow (region unit : Nat)
  | energyWindow (region : Nat)
  | thermalThrottle (board : Nat)
  | thermalTrip (board : Nat)
  | createVd | destroyVd | pause | resume | evict | restore | setShare | mapWindow | query | attest
  | notifyWrite (vf reg : Nat) (value : Word)
  | hostThreadWrite (thread address : Nat) (bytes : List Byte)
  | hdmAccess (thread address count : Nat) (store : Option (List Byte))
  | registerWrite (address : Nat) (value : Word)
  | rst (value : Word)
  | powerOn
  | powerOff
  | bootstGo (value : Word)
  | firmwareBringup (channels ports : Nat)
  | aknanPortTrain (port : Nat) (up : Bool)
  | illop
  | fetchFault
  | badcmd
  | pfBar2Write (offset : Nat) (bytes : List Byte)
  | sensorReadsBelow95 (board : Nat)
  | contextCreation (vd : Nat)
  deriving DecidableEq, Repr, Inhabited

end Sys2Proof
end

