-- ==== Sys2Proof/WellFormed.lean ====
section
/-!
DEFINITION. Well-formed instructions: the field tables of the spec (R110, R135, R151, R168, R187, R245, R275, R295,
R313, R318, R325, R380 for the fabric; R64 and the entries of the sequencer instructions).
-/

namespace Sys2Proof

/-- Integer element types, TY 0 to 5. -/
def ElemTy.isInt : ElemTy → Bool
  | .i32 | .u32 | .i16 | .u16 | .i8 | .u8 => true
  | _ => false

/-- FP32, BF16 or FP16: TY 6 to 8. -/
def ElemTy.isFloat : ElemTy → Bool
  | .f32 | .bf16 | .f16 => true
  | _ => false

/-- TY 9 or 10. -/
def ElemTy.isFp8 : ElemTy → Bool
  | .e4m3 | .e5m2 => true
  | _ => false

/-- Type code of Table 2-5. -/
def ElemTy.code : ElemTy → BitVec 4
  | .i32 => 0 | .u32 => 1 | .i16 => 2 | .u16 => 3 | .i8 => 4 | .u8 => 5 | .f32 => 6 | .bf16 => 7
  | .f16 => 8 | .e4m3 => 9 | .e5m2 => 10 | .cb4 => 11 | .e8m0 => 12 | .b32 => 13

/-- The element type of a type code; codes 14 and 15 are reserved. -/
def ElemTy.ofCode (c : BitVec 4) : Option ElemTy :=
  match c.toNat with
  | 0 => some .i32 | 1 => some .u32 | 2 => some .i16 | 3 => some .u16 | 4 => some .i8 | 5 => some .u8
  | 6 => some .f32 | 7 => some .bf16 | 8 => some .f16 | 9 => some .e4m3 | 10 => some .e5m2
  | 11 => some .cb4 | 12 => some .e8m0 | 13 => some .b32 | _ => none

/-- Opcode and fields of a fabric instruction (Table 2-9). -/
def Instr.fabric? : Instr → Option (Nat × Fields)
  | .inp f => some (0x01, f) | .outp f => some (0x02, f) | .fan f => some (0x03, f) | .gen f => some (0x04, f)
  | .ext f => some (0x05, f) | .filt f => some (0x06, f) | .sel f => some (0x07, f) | .mrg f => some (0x08, f)
  | .loop f => some (0x09, f) | .hold f => some (0x0A, f) | .mark f => some (0x0B, f) | .mtst f => some (0x0C, f)
  | .cnt f => some (0x0D, f) | .exit f => some (0x0E, f) | .sink f => some (0x0F, f)
  | .fabAdd f => some (0x20, f) | .fabSub f => some (0x21, f) | .adds f => some (0x22, f) | .subs f => some (0x23, f)
  | .fabMul f => some (0x24, f) | .fabMulh f => some (0x25, f) | .mad f => some (0x26, f) | .fabShl f => some (0x27, f)
  | .fabShr f => some (0x28, f) | .fabSra f => some (0x29, f) | .fabAnd f => some (0x2A, f) | .fabOr f => some (0x2B, f)
  | .fabXor f => some (0x2C, f) | .andn f => some (0x2D, f) | .fabMin f => some (0x2E, f) | .fabMax f => some (0x2F, f)
  | .cmp f => some (0x30, f) | .clz f => some (0x31, f) | .popc f => some (0x32, f) | .brev f => some (0x33, f)
  | .addr f => some (0x34, f) | .shuf f => some (0x35, f) | .bcst f => some (0x36, f) | .scan f => some (0x37, f)
  | .lred f => some (0x38, f)
  | .fadd f => some (0x50, f) | .fsub f => some (0x51, f) | .fmul f => some (0x52, f) | .fma f => some (0x53, f)
  | .fmin f => some (0x54, f) | .fmax f => some (0x55, f) | .fcmp f => some (0x56, f) | .fsgn f => some (0x57, f)
  | .frcp f => some (0x58, f) | .frsq f => some (0x59, f) | .fref f => some (0x5A, f) | .fex2 f => some (0x5B, f)
  | .flg2 f => some (0x5C, f) | .ftnh f => some (0x5D, f) | .fcls f => some (0x5E, f) | .frnd f => some (0x5F, f)
  | .cvt f => some (0x70, f) | .bqnt f => some (0x71, f) | .bdq f => some (0x72, f) | .cbx f => some (0x73, f)
  | .cbq f => some (0x74, f) | .hads f => some (0x75, f) | .sclx f => some (0x76, f)
  | .ld f => some (0x80, f) | .st f => some (0x81, f) | .lds f => some (0x82, f) | .sts f => some (0x83, f)
  | .ldt f => some (0x84, f) | .prf f => some (0x85, f) | .fence f => some (0x90, f) | .atom f => some (0x91, f)
  | .rtree f => some (0x92, f) | .arrv f => some (0x93, f)
  | .bfin f => some (0xA0, f) | .bfout f => some (0xA1, f)
  | .sroute f => some (0xB0, f) | .sret f => some (0xB1, f)
  | .pipsEnt f | .pipsOut f | .pipsRd f | .pipsSet f | .pipsClr f => some (0xB2, f)
  | .clsc f => some (0xB3, f) | .isect f => some (0xB4, f) | .unio f => some (0xB5, f) | .mrgk f => some (0xB6, f)
  | .sjoin f => some (0xB7, f) | .tmenu f => some (0xB8, f) | .live f => some (0xC0, f)
  | _ => none

/-- The fabric instruction of an opcode and its fields; `pips` is five instructions told apart by FN (R295). -/
def Instr.ofFabric (opc : Nat) (f : Fields) : Option Instr :=
  match opc with
  | 0x01 => some (.inp f) | 0x02 => some (.outp f) | 0x03 => some (.fan f) | 0x04 => some (.gen f)
  | 0x05 => some (.ext f) | 0x06 => some (.filt f) | 0x07 => some (.sel f) | 0x08 => some (.mrg f)
  | 0x09 => some (.loop f) | 0x0A => some (.hold f) | 0x0B => some (.mark f) | 0x0C => some (.mtst f)
  | 0x0D => some (.cnt f) | 0x0E => some (.exit f) | 0x0F => some (.sink f)
  | 0x20 => some (.fabAdd f) | 0x21 => some (.fabSub f) | 0x22 => some (.adds f) | 0x23 => some (.subs f)
  | 0x24 => some (.fabMul f) | 0x25 => some (.fabMulh f) | 0x26 => some (.mad f) | 0x27 => some (.fabShl f)
  | 0x28 => some (.fabShr f) | 0x29 => some (.fabSra f) | 0x2A => some (.fabAnd f) | 0x2B => some (.fabOr f)
  | 0x2C => some (.fabXor f) | 0x2D => some (.andn f) | 0x2E => some (.fabMin f) | 0x2F => some (.fabMax f)
  | 0x30 => some (.cmp f) | 0x31 => some (.clz f) | 0x32 => some (.popc f) | 0x33 => some (.brev f)
  | 0x34 => some (.addr f) | 0x35 => some (.shuf f) | 0x36 => some (.bcst f) | 0x37 => some (.scan f)
  | 0x38 => some (.lred f)
  | 0x50 => some (.fadd f) | 0x51 => some (.fsub f) | 0x52 => some (.fmul f) | 0x53 => some (.fma f)
  | 0x54 => some (.fmin f) | 0x55 => some (.fmax f) | 0x56 => some (.fcmp f) | 0x57 => some (.fsgn f)
  | 0x58 => some (.frcp f) | 0x59 => some (.frsq f) | 0x5A => some (.fref f) | 0x5B => some (.fex2 f)
  | 0x5C => some (.flg2 f) | 0x5D => some (.ftnh f) | 0x5E => some (.fcls f) | 0x5F => some (.frnd f)
  | 0x70 => some (.cvt f) | 0x71 => some (.bqnt f) | 0x72 => some (.bdq f) | 0x73 => some (.cbx f)
  | 0x74 => some (.cbq f) | 0x75 => some (.hads f) | 0x76 => some (.sclx f)
  | 0x80 => some (.ld f) | 0x81 => some (.st f) | 0x82 => some (.lds f) | 0x83 => some (.sts f)
  | 0x84 => some (.ldt f) | 0x85 => some (.prf f) | 0x90 => some (.fence f) | 0x91 => some (.atom f)
  | 0x92 => some (.rtree f) | 0x93 => some (.arrv f)
  | 0xA0 => some (.bfin f) | 0xA1 => some (.bfout f)
  | 0xB0 => some (.sroute f) | 0xB1 => some (.sret f)
  | 0xB2 =>
    match f.fn.toNat with
    | 0 => some (.pipsEnt f) | 1 => some (.pipsOut f) | 2 => some (.pipsRd f) | 3 => some (.pipsSet f)
    | 4 => some (.pipsClr f) | _ => none
  | 0xB3 => some (.clsc f) | 0xB4 => some (.isect f) | 0xB5 => some (.unio f) | 0xB6 => some (.mrgk f)
  | 0xB7 => some (.sjoin f) | 0xB8 => some (.tmenu f) | 0xC0 => some (.live f)
  | _ => none

/-- Opcodes that Table 2-9 assigns. -/
def opcodeAssigned (opc : Nat) : Bool :=
  (0x01 ≤ opc && opc ≤ 0x0F) || (0x20 ≤ opc && opc ≤ 0x38) || (0x50 ≤ opc && opc ≤ 0x5F) ||
  (0x70 ≤ opc && opc ≤ 0x76) || (0x80 ≤ opc && opc ≤ 0x85) || (0x90 ≤ opc && opc ≤ 0x93) ||
  opc == 0xA0 || opc == 0xA1 || (0xB0 ≤ opc && opc ≤ 0xB8) || opc == 0xC0

/-- A legal rounding selector in FN[2:0] (R86). -/
def selectorOk (fn : BitVec 6) : Bool := bits fn 0 3 == 0 || bitAt fn 2

/-- FN without the immediate bit, and that bit (R130). -/
def fnImm (fn : BitVec 6) : BitVec 5 × Bool := (bits fn 0 5, bitAt fn 5)

/-- IMM16 is zero above its low n bits. -/
def immBelow (imm : BitVec 16) (n : Nat) : Bool := imm.toNat < 2 ^ n

/-- Scope and ordered bit of a memory node (R187): a scope only when FN[2] is set, and at most 5. -/
def orderedOk (fn : BitVec 6) : Bool :=
  if bitAt fn 2 then (bits fn 3 3).toNat ≤ 5 else bits fn 3 3 == 0

/-- The type and operation of `atom` and `rtree` agree (Table 12-2). -/
def atomTyOk (op : BitVec 3) (ty : ElemTy) : Bool :=
  match ty with
  | .i32 | .u32 => true
  | .f32 => op == 0
  | .b32 => 3 ≤ op.toNat
  | _ => false

/-- Types that `sts.tag` accepts (Table 8-3). -/
def tagTyOk : ElemTy → Bool
  | .u32 | .u16 | .e8m0 | .b32 => false
  | _ => true

/-- The source type of a conversion, IMM16[3:0] (R168). -/
def convSrc (imm : BitVec 16) : Option ElemTy := ElemTy.ofCode (bits imm 0 4)

/-- FN, TY and IMM16 are values that the entry of the opcode accepts (cause FNTY otherwise). The model's choice (log 131): E8M0
is a floating-point source for R172's check of a conversion to an integer type. -/
def fnTyImmOk (opc : Nat) (fn : BitVec 6) (ty : ElemTy) (imm : BitVec 16) : Bool :=
  let n := fn.toNat
  let immForm := (bits fn 0 5 == 0) && (bitAt fn 5 || imm == 0)
  match opc with
  | 0x01 => n == 0 && immBelow imm 3
  | 0x02 | 0x07 | 0x0F => n == 0 && imm == 0
  | 0x03 => n == 0 && immBelow imm 14
  | 0x04 => (ty == .i32 || ty == .u32) && (n == 0 || (n == 1 && imm == 0))
  | 0x05 => n ≤ 3 && (ty == .i32 || ty == .u32 || ty == .f32 || ty == .b32)
  | 0x06 => n ≤ 1 && imm == 0
  | 0x08 => n ≤ 2 && imm == 0
  | 0x09 => n == 0
  | 0x0A => n ≤ 1 && imm == 0
  | 0x0B => n == 1 || n == 9
  | 0x0C => (n == 1 || n == 2 || n == 5 || n == 7 || n == 9) && imm == 0
  | 0x0D => n ≤ 1 && (ty == .i32 || ty == .u32) && imm == 0
  | 0x0E => n == 0 && (ty == .i32 || ty == .u32) && immBelow imm 2
  | 0x20 | 0x21 | 0x22 | 0x23 | 0x24 | 0x25 | 0x26 | 0x2E | 0x2F => immForm && ty.isInt
  | 0x27 | 0x28 | 0x29 | 0x2A | 0x2B | 0x2C | 0x2D => immForm && (ty.isInt || ty == .b32)
  | 0x30 => (bits fn 0 5).toNat ≤ 5 && (bitAt fn 5 || imm == 0) && (ty.isInt || ty == .b32)
  | 0x31 | 0x32 | 0x33 => n == 0 && imm == 0 && (ty.isInt || ty == .b32)
  | 0x34 => (bits fn 0 3).toNat ≤ 6 && (bits fn 3 2).toNat ≤ 2 && !bitAt fn 5 && (ty == .i32 || ty == .u32)
  | 0x35 => n ≤ 4 && (if n == 0 then imm == 0 else immBelow imm 4)
  | 0x36 => n ≤ 1 && (if n == 0 then immBelow imm 4 else imm == 0)
  | 0x37 | 0x38 =>
    let op := (bits fn 3 3).toNat
    imm == 0 && op ≤ 6 &&
      (if ty.isInt then bits fn 0 3 == 0
       else ty == .f32 && ((op == 0 && selectorOk fn) || ((op == 2 || op == 3) && bits fn 0 3 == 0)))
  | 0x50 | 0x51 | 0x52 => selectorOk fn && bits fn 3 2 == 0 && (bitAt fn 5 || imm == 0) && ty.isFloat
  | 0x53 => selectorOk fn && (bitAt fn 5 || imm == 0) && ty.isFloat
  | 0x54 | 0x55 => immForm && ty.isFloat
  | 0x56 => bits fn 3 2 == 0 && (bitAt fn 5 || imm == 0) && ty.isFloat
  | 0x57 => n ≤ 4 && imm == 0 && (ty.isFloat || ty.isFp8)
  | 0x58 | 0x59 | 0x5B | 0x5C | 0x5D => n == 0 && imm == 0 && ty == .f32
  | 0x5A => selectorOk fn && bits fn 4 2 == 0 && imm == 0 && ty == .f32
  | 0x5E => n ≤ 1 && (if n == 0 then imm == 0 else immBelow imm 9) && (ty.isFloat || ty.isFp8)
  | 0x5F => selectorOk fn && bits fn 3 3 == 0 && imm == 0 && ty.isFloat
  | 0x70 => selectorOk fn && bits fn 4 2 == 0 && ty != .cb4 && ty != .e8m0 && ty != .b32 && immBelow imm 4 &&
      imm.toNat ≤ 12 && imm.toNat ≠ 11 &&
      (!ty.isInt || (match convSrc imm with
        | some src => if src.isInt then bits fn 0 3 == 0 else !bitAt fn 3
        | none => false))
  | 0x71 => bits fn 3 3 == 0 && immBelow imm 8 && 6 ≤ (bits imm 0 4).toNat && (bits imm 0 4).toNat ≤ 8 &&
      (if ty == .cb4 then n == 0 else selectorOk fn && ty.isFp8 && bits imm 4 4 == 0)
  | 0x72 => selectorOk fn && bits fn 3 3 == 0 && ty.isFloat && immBelow imm 8 && 9 ≤ (bits imm 0 4).toNat &&
      (bits imm 0 4).toNat ≤ 11 && (bits imm 0 4 == 11 || bits imm 4 4 == 0)
  | 0x73 => n == 0 && (ty == .f32 || ty == .bf16) && immBelow imm 8 && bits imm 0 4 == 11
  | 0x74 => n == 0 && ty == .cb4 && immBelow imm 8 && 6 ≤ (bits imm 0 4).toNat && (bits imm 0 4).toNat ≤ 8
  | 0x75 => selectorOk fn && ty.isFloat && imm == 0
  | 0x76 => selectorOk fn && !bitAt fn 5 && ty.isFloat && (bits fn 3 2 == 0 || imm == 0)
  | 0x80 | 0x81 => bits fn 0 2 == 0 && orderedOk fn && ty != .cb4 && immBelow imm 9
  | 0x82 =>
    orderedOk fn && ((bits fn 0 2 == 0 && immBelow imm 9) || (bits fn 0 2 == 2 && ty == .b32 && immBelow imm 15))
  | 0x83 =>
    orderedOk fn && ((bits fn 0 2 == 0 && immBelow imm 9) ||
      (bits fn 0 2 == 1 && tagTyOk ty && immBelow imm 13 && (ty == .cb4 || bits imm 9 4 == 0)) ||
      (bits fn 0 2 == 2 && ty == .b32 && immBelow imm 15))
  | 0x84 => bits fn 0 2 == 0 && orderedOk fn && (ty.isInt || ty.isFloat) && immBelow imm 9
  | 0x85 => n == 0 && immBelow imm 4
  | 0x90 => (bits fn 3 3).toNat ≤ 5 && ty == .b32 && bits imm 0 4 == 0 && immBelow imm 9
  | 0x91 =>
    !bitAt fn 5 && atomTyOk (bits fn 0 3) ty && immBelow imm 12 && (bits imm 9 3).toNat ≤ 5 &&
      (bits fn 3 2 != 0 || bits imm 9 3 == 0)
  | 0x92 =>
    !bitAt fn 5 && (bits fn 0 3).toNat ≤ 5 && (bits fn 3 2).toNat ≤ 2 && atomTyOk (bits fn 0 3) ty &&
      (if bits fn 3 2 == 0 then imm == 0 else immBelow imm 9)
  | 0x93 =>
    bits fn 4 2 == 0 && (bits fn 0 2).toNat ≤ 2 && (bits fn 0 2 != 2 || (bitAt fn 2 && !bitAt fn 3)) &&
      ty == .b32 && immBelow imm 9
  | 0xA0 => n ≤ 1 && (ty == .f32 || ty == .bf16) && imm == 0
  | 0xA1 => selectorOk fn && (bits fn 3 2).toNat ≤ 2 && ty.isFloat && immBelow imm 1
  | 0xB0 => n == 0 && immBelow imm 5
  | 0xB1 => n ≤ 1 && immBelow imm 5
  | 0xB2 => (n ≤ 1 && immBelow imm 2) || (n == 2 && imm == 0) || ((n == 3 || n == 4) && immBelow imm 8)
  | 0xB3 => n == 0 && imm == 0
  | 0xB4 | 0xB5 | 0xB6 => n == 0 && (ty == .i32 || ty == .u32) && imm == 0
  | 0xB7 => ty == .b32 && ((n == 0 && immBelow imm 4) || (n == 1 && immBelow imm 9))
  | 0xB8 => n == 0 && (ty == .i32 || ty == .u32) && immBelow imm 2
  | 0xC0 => n ≤ 1 && imm == 0
  | _ => false

/-- Predication that the entry of the opcode accepts (cause PRED otherwise). -/
def predOk (opc : Nat) (fn : BitVec 6) (pm : Pred) : Bool :=
  pm == .always ||
    !(opc == 0x01 || opc == 0x02 || opc == 0x04 || opc == 0x05 || opc == 0x08 || opc == 0x09 || opc == 0x0B ||
      opc == 0x0C || opc == 0x0D || opc == 0x0E || opc == 0x0F || opc == 0xA1 || opc == 0xB0 || opc == 0xB1 ||
      (opc == 0xB2 && fn.toNat ≤ 1) || opc == 0xB4 || opc == 0xB5 || opc == 0xB6 || opc == 0xB7)

/-- A target of kind 00 with depth code 0. -/
def targetAbsent (t : Target) (dp : BitVec 3) : Bool := t == .absent && dp == 0

/-- A target of kind 00 or 01 (Table 2-7). -/
def targetLink (t : Target) (dp : BitVec 3) : Bool :=
  match t with
  | .absent => dp == 0
  | .operand .. => true
  | _ => false

/-- A target of kind 00, 01 or 11. -/
def targetLinkOrAcc (t : Target) (dp : BitVec 3) : Bool :=
  match t with
  | .absent | .acc _ => dp == 0
  | .operand .. => true
  | .port _ => false

/-- A target of kind 10 in the given index range (Table 2-8), with depth code 1 to 7. -/
def targetPort (lo hi : Nat) (t : Target) (dp : BitVec 3) : Bool :=
  match t with
  | .port i => lo ≤ i.toNat && i.toNat ≤ hi && dp != 0
  | _ => false

/-- A target field of Table 2-6. -/
def decodeTarget (t : BitVec 11) : Option Target :=
  let index := bits t 2 7
  let slot := bits t 0 2
  match (bits t 9 2).toNat with
  | 0 => if index == 0 && slot == 0 then some .absent else none
  | 1 => some (.operand index (match slot.toNat with | 0 => .a | 1 => .b | 2 => .p | _ => .c))
  | 2 => if slot == 0 then some (.port index) else none
  | _ => if slot == 0 && index.toNat < 64 then some (.acc (bits index 0 6)) else none

/-- The targets are those that the entry of the opcode lists (cause TARGET otherwise). -/
def targetsOk (opc : Nat) (f : Fields) : Bool :=
  let links := targetLink f.tga f.dpa && targetLink f.tgb f.dpb
  match opc with
  | 0x02 => targetPort 0 7 f.tga f.dpa && targetAbsent f.tgb f.dpb
  | 0x03 =>
    links && (match decodeTarget (bits f.imm 0 11) with
      | some t => targetLink t (bits f.imm 11 3)
      | none => false)
  | 0x05 =>
    links && (f.tga == .absent || f.dpa == 1) && (f.tgb == .absent || f.dpb == 1)
  | 0x09 => links && f.tga != .absent && f.tgb != .absent
  | 0x0E | 0x0F => targetAbsent f.tga f.dpa && targetAbsent f.tgb f.dpb
  | 0x71 | 0x72 => links
  | 0x92 =>
    if bits f.fn 3 2 == 0 then
      match f.tga, f.tgb with
      | .operand i .a, .operand j .b => i == j
      | _, _ => false
    else targetAbsent f.tga f.dpa && targetAbsent f.tgb f.dpb
  | 0xA0 => targetPort 0x10 0x11 f.tga f.dpa && targetAbsent f.tgb f.dpb
  | 0xB1 => targetPort 0x18 0x18 f.tga f.dpa && targetAbsent f.tgb f.dpb
  | 0xB2 =>
    if f.fn == 0 then targetAbsent f.tga f.dpa && targetAbsent f.tgb f.dpb else links
  | _ =>
    if (0x20 ≤ opc && opc ≤ 0x38) || (0x50 ≤ opc && opc ≤ 0x5F) || (0x70 ≤ opc && opc ≤ 0x76) then
      targetLinkOrAcc f.tga f.dpa && targetLinkOrAcc f.tgb f.dpb
    else links

/-- The fields of a fabric instruction are those of its entry. -/
def Fields.ok (opc : Nat) (f : Fields) : Bool :=
  fnTyImmOk opc f.fn f.ty f.imm && targetsOk opc f && predOk opc f.fn f.pm

/-- FN of a `pips` instruction is that of its form (Table 11-3). -/
def pipsFn : Instr → Bool
  | .pipsEnt f => f.fn == 0
  | .pipsOut f => f.fn == 1
  | .pipsRd f => f.fn == 2
  | .pipsSet f => f.fn == 3
  | .pipsClr f => f.fn == 4
  | _ => true

/-- The scope of an engine job or a sequencer form is .rgn or wider. -/
def Scope.wide (sc : Scope) : Bool := sc != .blk

/-- A condition that compares two registers (COND 0 to 5). -/
def Cond.isCompare : Cond → Bool
  | .eq | .ne | .lt | .ge | .ltu | .geu => true
  | _ => false

/-- Well-formed sequencer instructions: R62, R63, R64 and the entries. -/
def seqOk : Instr → Bool
  | .shli _ _ i | .shri _ _ i | .srai _ _ i => bits i 6 8 == 0
  | .qpush _ _ _ p _ mk => mk == .data || p
  | .bcc cond _ a b => cond.isCompare || ((cond != .al || a == 0) && b == 0)
  | .sgo _ _ _ sc | .acpy _ _ _ _ sc | .sfence _ sc | .wbk sc _ _ | .inv sc _ _ => sc.wide
  | .bwld sc .. => sc.wide
  | .bchn sc .. => sc.toNat ≤ 5
  | .baccRd _ _ arr => arr != .ba01
  | .brate _ _ unit => unit.toNat ≤ 9
  | .satom _ _ _ c op w ord sc ty =>
    (op == .cas || c == 0) && ((ord == .none) == (sc == .blk)) && (ty != .float || (op == .add && !w))
  | .waita _ _ _ _ cond sc _ => cond.isCompare && sc.wide
  | .tsig sc _ _ => sc.wide
  | .wpt _ off a mask => !off || (a == 0 && mask == 0)
  | .tlbi all sc a b => sc.wide && sc != .sys && (!all || (a == 0 && b == 0))
  | _ => true

/-- A well-formed instruction: one that the encoding tables admit. Events are always well formed. -/
def WellFormed (i : Instr) : Bool :=
  seqOk i && pipsFn i && (match i.fabric? with | some (opc, f) => f.ok opc | none => true)

end Sys2Proof
end

