-- ==== Sys2Proof/Decode.lean ====
section
/-!
DEFINITION. The two decoders (Tables 2-4, 2-12, 2-14) and the encoder.
Both are total: a fabric word that is no instruction is rejected with its check cause of Table 2-11, a sequencer word
that is none with `none`, for which the machine raises ILLOP (R66).
-/

namespace Sys2Proof

/-- Check causes of a single fabric word (Table 2-11). -/
inductive WordCause where
  | opc | fnty | target | pred
  deriving DecidableEq, Repr

/-- Cause code of Table 2-11. -/
def WordCause.code : WordCause → BitVec 8
  | .opc => 0x06 | .fnty => 0x07 | .target => 0x08 | .pred => 0x0A

/-- Predication of a PM field; 11 is reserved. -/
def Pred.ofCode (c : BitVec 2) : Option Pred :=
  match c.toNat with
  | 0 => some .always | 1 => some .ifp | 2 => some .ifn | _ => none

def Pred.code : Pred → BitVec 2
  | .always => 0 | .ifp => 1 | .ifn => 2

def Slot.code : Slot → BitVec 2
  | .a => 0 | .b => 1 | .p => 2 | .c => 3

/-- A target as its field of Table 2-6. -/
def encodeTarget : Target → BitVec 11
  | .absent => 0
  | .operand i s => (1 : BitVec 2) ++ i ++ s.code
  | .port i => (2 : BitVec 2) ++ i ++ (0 : BitVec 2)
  | .acc r => (3 : BitVec 2) ++ (0 : BitVec 1) ++ r ++ (0 : BitVec 2)

/-- Opcode of a fabric word. -/
def fabricOpc (w : Word) : Nat := (bits w 56 8).toNat

/-- The fields of a fabric word, where type, targets and predicate are all codes of their tables. -/
def fabricFields (w : Word) : Option Fields := do
  let ty ← ElemTy.ofCode (bits w 46 4)
  let tga ← decodeTarget (bits w 35 11)
  let tgb ← decodeTarget (bits w 24 11)
  let pm ← Pred.ofCode (bits w 16 2)
  pure { fn := bits w 50 6, ty, tga, tgb, dpa := bits w 21 3, dpb := bits w 18 3, pm, imm := bits w 0 16 }

/-- The first check cause of a fabric word by itself, in the order of Table 2-11 (R467). -/
def fabricCause (w : Word) : Option WordCause :=
  let opc := fabricOpc w
  let fn : BitVec 6 := bits w 50 6
  let imm : BitVec 16 := bits w 0 16
  if !opcodeAssigned opc then some .opc
  else
    match ElemTy.ofCode (bits w 46 4) with
    | none => some .fnty
    | some ty =>
      if !fnTyImmOk opc fn ty imm then some .fnty
      else
        match decodeTarget (bits w 35 11), decodeTarget (bits w 24 11) with
        | some tga, some tgb =>
          let f : Fields := { fn, ty, tga, tgb, dpa := bits w 21 3, dpb := bits w 18 3, pm := .always, imm }
          if !targetsOk opc f then some .target
          else
            match Pred.ofCode (bits w 16 2) with
            | none => some .pred
            | some pm => if predOk opc fn pm then none else some .pred
        | _, _ => some .target

/-- The instruction of a fabric word, or the cause of its rejection. -/
def decodeFabric (w : Word) : Except WordCause Instr :=
  match fabricCause w with
  | some c => .error c
  | none =>
    match fabricFields w with
    | none => .error .opc
    | some f =>
      match Instr.ofFabric (fabricOpc w) f with
      | some i => .ok i
      | none => .error .fnty

/-- A fabric word from an opcode and its fields (Table 2-4). -/
def encodeFabric (opc : Nat) (f : Fields) : Word :=
  BitVec.ofNat 8 opc ++ f.fn ++ f.ty.code ++ encodeTarget f.tga ++ encodeTarget f.tgb ++ f.dpa ++ f.dpb ++
    f.pm.code ++ f.imm

/-- Opcodes of the two-word forms (Table 2-14): bcc, acpy, bwld, bchn, steer, satom, waita, amsg, trig, wpt. -/
def twoWords (op : Nat) : Bool :=
  op == 0x30 || op == 0x44 || op == 0x51 || op == 0x52 || op == 0x60 || op == 0x70 || op == 0x73 ||
  op == 0x88 || op == 0x8A || op == 0x98

/-- OP of a sequencer word. -/
def seqOp (w : Lane) : Nat := (bits w 24 8).toNat

/-- Size in bytes of the instruction that begins with this word (R61, R347). -/
def seqSize (w : Lane) : Nat := if twoWords (seqOp w) then 8 else 4

/-- An instruction when its fixed fields hold their values. -/
def accept (c : Bool) (i : Instr) : Option Instr := if c then some i else none

/-- Scope codes 1 .rgn to 5 .sys. -/
def scopeOfCode (c : BitVec 3) : Option Scope :=
  match c.toNat with
  | 1 => some .rgn | 2 => some .brd | 3 => some .mod | 4 => some .dom | 5 => some .sys | _ => none

/-- Scope codes of engine jobs: 0 or 1 .rgn, 2 to 5 .brd to .sys (Tables 8-10, 10-7). -/
def jobScopeOfCode (c : BitVec 3) : Option Scope := if c == 0 then some .rgn else scopeOfCode c

def Scope.code : Scope → BitVec 3
  | .blk => 0 | .rgn => 1 | .brd => 2 | .mod => 3 | .dom => 4 | .sys => 5

def FenceKind.ofCode (c : BitVec 2) : FenceKind :=
  match c.toNat with
  | 0 => .acq | 1 => .rel | 2 => .ar | _ => .sc

def FenceKind.code : FenceKind → BitVec 2
  | .acq => 0 | .rel => 1 | .ar => 2 | .sc => 3

/-- Conditions of Table 2-13; 7 and 11 to 31 are reserved. -/
def Cond.ofCode (c : BitVec 5) : Option Cond :=
  match c.toNat with
  | 0 => some .eq | 1 => some .ne | 2 => some .lt | 3 => some .ge | 4 => some .ltu | 5 => some .geu
  | 6 => some .al | 8 => some .tpend | 9 => some .tdone | 10 => some .tflt | _ => none

def Cond.code : Cond → BitVec 5
  | .eq => 0 | .ne => 1 | .lt => 2 | .ge => 3 | .ltu => 4 | .geu => 5
  | .al => 6 | .tpend => 8 | .tdone => 9 | .tflt => 10

def PushMark.ofCode (c : BitVec 3) : Option PushMark :=
  match c.toNat with
  | 0 => some .data | 1 => some .eor | 2 => some .eot | 3 => some .scale | 4 => some .cfg | 5 => some .trig
  | _ => none

def PushMark.code : PushMark → BitVec 3
  | .data => 0 | .eor => 1 | .eot => 2 | .scale => 3 | .cfg => 4 | .trig => 5

def ArrSel.ofCode (c : BitVec 2) : Option ArrSel :=
  match c.toNat with
  | 0 => some .ba0 | 1 => some .ba1 | 2 => some .ba01 | _ => none

def ArrSel.code : ArrSel → BitVec 2
  | .ba0 => 0 | .ba1 => 1 | .ba01 => 2

def AtomOp.ofCode (c : BitVec 3) : AtomOp :=
  match c.toNat with
  | 0 => .add | 1 => .min | 2 => .max | 3 => .and | 4 => .or | 5 => .xor | 6 => .xchg | _ => .cas

def AtomOp.code : AtomOp → BitVec 3
  | .add => 0 | .min => 1 | .max => 2 | .and => 3 | .or => 4 | .xor => 5 | .xchg => 6 | .cas => 7

def AtomOrd.ofCode (c : BitVec 2) : AtomOrd :=
  match c.toNat with
  | 0 => .none | 1 => .acq | 2 => .rel | _ => .ar

def AtomOrd.code : AtomOrd → BitVec 2
  | .none => 0 | .acq => 1 | .rel => 2 | .ar => 3

def SatomTy.ofCode (c : BitVec 2) : Option SatomTy :=
  match c.toNat with
  | 0 => some .signed | 1 => some .unsigned | 2 => some .float | _ => none

def SatomTy.code : SatomTy → BitVec 2
  | .signed => 0 | .unsigned => 1 | .float => 2

/-- Decodes a sequencer instruction from its first word and the word after it; `none` is an illegal encoding (R66). -/
def decodeRaw (w w2 : Lane) : Option Instr :=
  let d : SReg := bits w 19 5
  let a : SReg := bits w 14 5
  let b : SReg := bits w 9 5
  let f : BitVec 9 := bits w 0 9
  let i : BitVec 14 := bits w 0 14
  let l : BitVec 19 := bits w 0 19
  let q : QReg := bits w 19 3
  let dHi : BitVec 2 := bits w 22 2       -- D above a three-bit class
  let aq : QReg := bits w 14 3
  let ag : GReg := bits w 14 4
  let ah : HReg := bits w 14 3
  let dg : GReg := bits w 19 4
  let g2 : BitVec 2 := bits w 0 2
  match seqOp w with
  | 0x01 => accept (f == 0) (.add d a b)
  | 0x02 => some (.addi d a i)
  | 0x03 => accept (f == 0) (.sub d a b)
  | 0x04 => accept (f == 0) (.and d a b)
  | 0x05 => some (.andi d a i)
  | 0x06 => accept (f == 0) (.or d a b)
  | 0x07 => some (.ori d a i)
  | 0x08 => accept (f == 0) (.xor d a b)
  | 0x09 => some (.xori d a i)
  | 0x0A => accept (f == 0) (.shl d a b)
  | 0x0B => some (.shli d a i)
  | 0x0C => accept (f == 0) (.shr d a b)
  | 0x0D => some (.shri d a i)
  | 0x0E => accept (f == 0) (.sra d a b)
  | 0x0F => some (.srai d a i)
  | 0x10 => accept (f == 0) (.mul d a b)
  | 0x11 => accept (bits f 1 8 == 0) (.mulh d a b (bitAt f 0))
  | 0x12 => accept (bits f 1 8 == 0) (.div d a b (bitAt f 0))
  | 0x13 => accept (bits f 1 8 == 0) (.rem d a b (bitAt f 0))
  | 0x14 => accept (f == 0) (.slt d a b)
  | 0x15 => some (.slti d a i)
  | 0x16 => accept (f == 0) (.sltu d a b)
  | 0x17 => some (.lui d l)
  | 0x18 => accept (bits f 1 8 == 0) (.min d a b (bitAt f 0))
  | 0x19 => accept (bits f 1 8 == 0) (.max d a b (bitAt f 0))
  | 0x20 => some (.sld d a i)
  | 0x21 => some (.sst d a i)
  | 0x22 =>
    accept (bits a 3 2 == 0 && b == 0 && bits f 7 2 == 0)
      (.qpop d aq (bits f 0 4) (bitAt f 4) (bitAt f 5) (bitAt f 6))
  | 0x23 =>
    (PushMark.ofCode (bits f 6 3)).bind fun mk =>
      accept (dHi == 0 && b == 0) (.qpush q a (bits f 0 4) (bitAt f 4) (bitAt f 5) mk)
  | 0x24 => accept (bits a 3 2 == 0 && b == 0 && bits f 0 5 == 0 && bits f 6 3 == 0) (.qstat d aq (bitAt f 5))
  | 0x30 =>
    (Cond.ofCode d).bind fun c => accept (bits w2 0 22 == 0) (.bcc c l (bits w2 27 5) (bits w2 22 5))
  | 0x31 => some (.jal d l)
  | 0x32 => some (.jalr d a i)
  | 0x33 => accept (b == 0 && f == 0) (.blk d a)
  | 0x34 => accept (d == 0 && bits f 1 8 == 0) (.bar a b (bitAt f 0))
  | 0x35 => accept (a == 0 && b == 0 && bits f 1 8 == 0) (.bst d (bitAt f 0))
  | 0x40 => accept (bitAt d 4 == false) (.lpat dg a i)
  | 0x41 => accept (bitAt d 4 == false) (.spat dg a i)
  | 0x42 => accept (dHi == 0 && bitAt a 4 == false && b == 0 && bits f 1 8 == 0) (.sbind q ag (bitAt f 0))
  | 0x43 =>
    (jobScopeOfCode (bits f 1 3)).bind fun sc =>
      accept (bits a 3 2 == 0 && b == 0 && bits f 4 5 == 0) (.sgo d aq (bitAt f 0) sc)
  | 0x44 =>
    (jobScopeOfCode (bits w2 24 3)).bind fun sc =>
      accept (bitAt a 4 == false && bitAt b 4 == false && f == 0 && bits w2 0 24 == 0)
        (.acpy d ag (bits w 9 4) (bits w2 27 5) sc)
  | 0x45 => accept (bitAt d 4 == false) (.cbld dg a i)
  | 0x46 =>
    (scopeOfCode (bits f 2 3)).bind fun sc =>
      accept (d == 0 && a == 0 && b == 0 && bits f 5 4 == 0) (.sfence (FenceKind.ofCode (bits f 0 2)) sc)
  | 0x47 =>
    (scopeOfCode (bits f 2 3)).bind fun sc => accept (d == 0 && bits f 5 4 == 0 && bits f 0 2 == 0) (.wbk sc a b)
  | 0x48 =>
    (scopeOfCode (bits f 2 3)).bind fun sc => accept (d == 0 && bits f 5 4 == 0 && bits f 0 2 == 0) (.inv sc a b)
  | 0x50 => accept (dHi == 0 && b == 0 && f == 0) (.bstg q a)
  | 0x51 =>
    (jobScopeOfCode (bits f 1 3)).bind fun sc =>
      (ArrSel.ofCode (bits w2 24 2)).bind fun arr =>
        accept (bitAt f 0 == false && bits f 4 5 == 0 && bits w2 0 10 == 0)
          (.bwld sc d a b arr (bits w2 26 6) (bits w2 14 10) (bits w2 10 4))
  | 0x52 =>
    (jobScopeOfCode (bits f 2 3)).bind fun _ =>
      (ArrSel.ofCode (bits f 0 2)).bind fun arr =>
        accept (bits a 3 2 == 0 && bits f 5 4 == 0 && bits w2 0 20 == 0)
          (.bchn (bits f 2 3) d ah b arr (bits w2 26 6) (bits w2 20 6))
  | 0x53 =>
    (ArrSel.ofCode (bits f 1 2)).bind fun arr =>
      if bitAt f 0 then accept (d == 0 && bits f 3 6 == 0 && arr != .ba01) (.baccRd a b arr)
      else accept (d == 0 && a == 0 && bits f 3 6 == 0) (.baccClr b arr)
  | 0x54 => accept (d == 0 && bits f 4 5 == 0 && (bits f 0 4).toNat ≤ 9) (.brate a b (bits f 0 4))
  | 0x55 =>
    (ArrSel.ofCode (bits f 0 2)).bind fun arr =>
      if bitAt f 2 then accept (d == 0 && b == 0 && bits f 3 6 == 0) (.bdrnLd a arr)
      else accept (d == 0 && b == 0 && bits f 4 5 == 0) (.bdrnSv a arr (bitAt f 3))
  | 0x60 =>
    accept (d == 0 && b == 0 && bits f 2 7 == 0 && bits w2 0 2 == 0)
      (.steer g2 a (bits w2 19 13) (bitAt w2 18) (bits w2 10 8) (bits w2 2 8))
  | 0x61 =>
    if bitAt f 5 then accept (d == 0 && b == 0 && bits f 6 3 == 0) (.stcntWr a g2 (bits f 2 3))
    else accept (a == 0 && b == 0 && bits f 6 3 == 0) (.stcnt d g2 (bits f 2 3))
  | 0x62 => accept (d == 0 && bits f 2 7 == 0) (.smenu a b g2)
  | 0x70 =>
    (SatomTy.ofCode (bits w2 16 2)).bind fun ty =>
      let ord := AtomOrd.ofCode (bits w2 21 2)
      let sc? := if ord == .none then (if bits w2 18 3 == 0 then some Scope.blk else none)
        else scopeOfCode (bits w2 18 3)
      sc?.bind fun sc =>
        accept (f == 0 && bits w2 0 16 == 0)
          (.satom d a b (bits w2 27 5) (AtomOp.ofCode (bits w2 24 3)) (bitAt w2 23) ord sc ty)
  | 0x71 => accept (bits f 1 8 == 0) (.sarrv d a b (bitAt f 0))
  | 0x72 => accept (d == 0 && f == 0) (.swaitp a b)
  | 0x73 =>
    (Cond.ofCode ((0 : BitVec 1) ++ bits w2 23 4)).bind fun c =>
      (scopeOfCode (bits w2 20 3)).bind fun sc =>
        accept (f == 0 && bits w2 0 19 == 0) (.waita d a b (bits w2 27 5) c sc (bitAt w2 19))
  | 0x74 => accept (d == 0 && f == 0) (.bnew a b)
  | 0x80 => accept (b == 0 && f == 0) (.tenq d a)
  | 0x81 =>
    (scopeOfCode (bits f 2 3)).bind fun sc => accept (d == 0 && bits f 5 4 == 0 && bits f 0 2 == 0) (.tsig sc a b)
  | 0x82 => accept (f == 0) (.fork d a b)
  | 0x83 => accept (d == 0 && b == 0 && f == 0) (.resign a)
  | 0x84 => accept (f == 0) (.bwait d a b)
  | 0x85 => accept (b == 0 && bits f 2 7 == 0) (.brinfo d a g2)
  | 0x86 =>
    if bitAt f 0 then accept (b == 0 && bits f 1 8 == 0) (.allocKv d a)
    else accept (a == 0 && b == 0 && bits f 1 8 == 0) (.alloc d)
  | 0x87 => accept (b == 0 && f == 0) (.free d a)
  | 0x88 => accept (f == 0 && bits w2 0 19 == 0) (.amsg d a b (bits w2 27 5) (bits w2 19 8))
  | 0x89 => accept (f == 0) (.hbind d a b)
  | 0x8A =>
    let slot : BitVec 4 := bits f 2 4
    let h : BitVec 8 := bits w2 24 8
    let port : QReg := bits w2 21 3
    let rest := bits f 6 3 == 0 && bits w2 0 21 == 0
    match g2.toNat with
    | 0 => accept (rest && d == 0 && a == 0 && b == 0 && h == 0 && port == 0) (.trigOff slot)
    | 1 => accept (rest && d == 0 && port == 0) (.trigAdr a b slot h)
    | 2 => accept (rest && d == 0 && a == 0 && b == 0) (.trigPort slot h port)
    | _ => accept (rest && a == 0 && b == 0 && h == 0 && port == 0) (.trigRd d slot)
  | 0x8B => accept (d == 0 && a == 0 && b == 0 && f == 0) .yield
  | 0x90 => accept (d == 0) (.trap l)
  | 0x91 => accept (d == 0 && a == 0 && b == 0 && f == 0) .eret
  | 0x92 => accept (a == 0) (.sysr d i)
  | 0x93 => accept (d == 0) (.sysw i a)
  | 0x94 =>
    match g2.toNat with
    | 0 => accept (a == 0 && b == 0 && bits f 2 7 == 0) (.frzQ d)
    | 1 => accept (d == 0 && a == 0 && b == 0 && bits f 2 7 == 0) .frzGo
    | 2 => accept (d == 0 && b == 0 && bits f 2 7 == 0) (.frzKill a)
    | _ => accept (d == 0 && a == 0 && b == 0 && bits f 2 7 == 0) .frzOn
  | 0x95 => accept (d == 0 && b == 0 && f == 0) (.ftok a)
  | 0x96 => accept (bits f 1 8 == 0) (.save d a b (bitAt f 0))
  | 0x97 => accept (f == 0) (.rest d a b)
  | 0x98 => accept (d == 0 && b == 0 && bits f 3 6 == 0 && bits w2 0 16 == 0) (.wpt g2 (bitAt f 2) a (bits w2 16 16))
  | 0x99 =>
    (scopeOfCode (bits f 2 3)).bind fun sc =>
      accept (d == 0 && bits f 0 2 == 0 && bits f 6 3 == 0) (.tlbi (bitAt f 5) sc a b)
  | 0x9A => accept (d == 0 && f == 0) (.cfgw a b)
  | 0x9B => accept (d == 0 && a == 0 && b == 0 && f == 0) .halt
  | _ => none

/-- Decodes a sequencer instruction: an encoding of Table 2-14 whose operands are well formed. -/
def decodeSeq (w w2 : Lane) : Option Instr :=
  (decodeRaw w w2).bind fun i => if seqOk i then some i else none

/-- An SR word (Table 2-12). -/
def srWord (op : Nat) (d a b : BitVec 5) (f : BitVec 9) : Lane := BitVec.ofNat 8 op ++ d ++ a ++ b ++ f

/-- An SI word. -/
def siWord (op : Nat) (d a : BitVec 5) (i : BitVec 14) : Lane := BitVec.ofNat 8 op ++ d ++ a ++ i

/-- An SL word, or an SB word with its condition in D. -/
def slWord (op : Nat) (d : BitVec 5) (l : BitVec 19) : Lane := BitVec.ofNat 8 op ++ d ++ l

/-- A three-bit register class in a five-bit field. -/
def q5 (q : BitVec 3) : BitVec 5 := (0 : BitVec 2) ++ q

/-- A four-bit register class in a five-bit field. -/
def g5 (g : BitVec 4) : BitVec 5 := (0 : BitVec 1) ++ g

/-- The unsigned bit as the F field. -/
def uF (u : Bool) : BitVec 9 := (0 : BitVec 8) ++ bit1 u

/-- A scope in F[4:2], other bits zero but F[1:0]. -/
def scF (sc : Scope) (k : BitVec 2) : BitVec 9 := (0 : BitVec 4) ++ sc.code ++ k

/-- The words of a sequencer instruction: its first word and, for an SX form, its second; events have none. -/
def encodeSeq : Instr → Option (Lane × Option Lane)
  | .add d a b => some (srWord 0x01 d a b 0, none)
  | .addi d a i => some (siWord 0x02 d a i, none)
  | .sub d a b => some (srWord 0x03 d a b 0, none)
  | .and d a b => some (srWord 0x04 d a b 0, none)
  | .andi d a i => some (siWord 0x05 d a i, none)
  | .or d a b => some (srWord 0x06 d a b 0, none)
  | .ori d a i => some (siWord 0x07 d a i, none)
  | .xor d a b => some (srWord 0x08 d a b 0, none)
  | .xori d a i => some (siWord 0x09 d a i, none)
  | .shl d a b => some (srWord 0x0A d a b 0, none)
  | .shli d a i => some (siWord 0x0B d a i, none)
  | .shr d a b => some (srWord 0x0C d a b 0, none)
  | .shri d a i => some (siWord 0x0D d a i, none)
  | .sra d a b => some (srWord 0x0E d a b 0, none)
  | .srai d a i => some (siWord 0x0F d a i, none)
  | .mul d a b => some (srWord 0x10 d a b 0, none)
  | .mulh d a b u => some (srWord 0x11 d a b (uF u), none)
  | .div d a b u => some (srWord 0x12 d a b (uF u), none)
  | .rem d a b u => some (srWord 0x13 d a b (uF u), none)
  | .slt d a b => some (srWord 0x14 d a b 0, none)
  | .slti d a i => some (siWord 0x15 d a i, none)
  | .sltu d a b => some (srWord 0x16 d a b 0, none)
  | .lui d i => some (slWord 0x17 d i, none)
  | .min d a b u => some (srWord 0x18 d a b (uF u), none)
  | .max d a b u => some (srWord 0x19 d a b (uF u), none)
  | .sld d a i => some (siWord 0x20 d a i, none)
  | .sst d a i => some (siWord 0x21 d a i, none)
  | .qpop d q lane p x sx => some (srWord 0x22 d (q5 q) 0 ((0 : BitVec 2) ++ bit1 sx ++ bit1 x ++ bit1 p ++ lane), none)
  | .qpush q a lane p x mk => some (srWord 0x23 (q5 q) a 0 (mk.code ++ bit1 x ++ bit1 p ++ lane), none)
  | .qstat d q x => some (srWord 0x24 d (q5 q) 0 ((0 : BitVec 3) ++ bit1 x ++ (0 : BitVec 5)), none)
  | .bcc cond off a b => some (slWord 0x30 cond.code off, some (a ++ b ++ (0 : BitVec 22)))
  | .jal d off => some (slWord 0x31 d off, none)
  | .jalr d a i => some (siWord 0x32 d a i, none)
  | .blk d a => some (srWord 0x33 d a 0 0, none)
  | .bar a b jobs => some (srWord 0x34 0 a b (uF jobs), none)
  | .bst d clr => some (srWord 0x35 d 0 0 (uF clr), none)
  | .lpat g a i => some (siWord 0x40 (g5 g) a i, none)
  | .spat g a i => some (siWord 0x41 (g5 g) a i, none)
  | .sbind q g wr => some (srWord 0x42 (q5 q) (g5 g) 0 (uF wr), none)
  | .sgo d q wr sc => some (srWord 0x43 d (q5 q) 0 ((0 : BitVec 5) ++ sc.code ++ bit1 wr), none)
  | .acpy d ga gb c sc => some (srWord 0x44 d (g5 ga) (g5 gb) 0, some (c ++ sc.code ++ (0 : BitVec 24)))
  | .cbld n a i => some (siWord 0x45 (g5 n) a i, none)
  | .sfence k sc => some (srWord 0x46 0 0 0 (scF sc k.code), none)
  | .wbk sc a b => some (srWord 0x47 0 a b (scF sc 0), none)
  | .inv sc a b => some (srWord 0x48 0 a b (scF sc 0), none)
  | .bstg h a => some (srWord 0x50 (q5 h) a 0 0, none)
  | .bwld sc d a b arr col off n =>
    some (srWord 0x51 d a b ((0 : BitVec 5) ++ sc.code ++ (0 : BitVec 1)),
      some (col ++ arr.code ++ off ++ n ++ (0 : BitVec 10)))
  | .bchn sc d h b arr c0 gm1 => some (srWord 0x52 d (q5 h) b ((0 : BitVec 4) ++ sc ++ arr.code), some (c0 ++ gm1 ++ (0 : BitVec 20)))
  | .baccClr b arr => some (srWord 0x53 0 0 b ((0 : BitVec 6) ++ arr.code ++ (0 : BitVec 1)), none)
  | .baccRd a b arr => some (srWord 0x53 0 a b ((0 : BitVec 6) ++ arr.code ++ (1 : BitVec 1)), none)
  | .brate a b unit => some (srWord 0x54 0 a b ((0 : BitVec 5) ++ unit), none)
  | .bdrnSv a arr inc => some (srWord 0x55 0 a 0 ((0 : BitVec 5) ++ bit1 inc ++ (0 : BitVec 1) ++ arr.code), none)
  | .bdrnLd a arr => some (srWord 0x55 0 a 0 ((0 : BitVec 6) ++ (1 : BitVec 1) ++ arr.code), none)
  | .steer g a w batch en jn =>
    some (srWord 0x60 0 a 0 ((0 : BitVec 7) ++ g), some (w ++ bit1 batch ++ en ++ jn ++ (0 : BitVec 2)))
  | .stcnt d g j => some (srWord 0x61 d 0 0 ((0 : BitVec 4) ++ j ++ g), none)
  | .stcntWr a g j => some (srWord 0x61 0 a 0 ((0 : BitVec 3) ++ (1 : BitVec 1) ++ j ++ g), none)
  | .smenu a b m => some (srWord 0x62 0 a b ((0 : BitVec 7) ++ m), none)
  | .satom d a b c op wide ord sc ty =>
    some (srWord 0x70 d a b 0,
      some (c ++ op.code ++ bit1 wide ++ ord.code ++ sc.code ++ ty.code ++ (0 : BitVec 16)))
  | .sarrv d a b rel => some (srWord 0x71 d a b (uF rel), none)
  | .swaitp a b => some (srWord 0x72 0 a b 0, none)
  | .waita d a b c cond sc acq =>
    some (srWord 0x73 d a b 0, some (c ++ bits cond.code 0 4 ++ sc.code ++ bit1 acq ++ (0 : BitVec 19)))
  | .bnew a b => some (srWord 0x74 0 a b 0, none)
  | .tenq d a => some (srWord 0x80 d a 0 0, none)
  | .tsig sc a b => some (srWord 0x81 0 a b (scF sc 0), none)
  | .fork d a b => some (srWord 0x82 d a b 0, none)
  | .resign a => some (srWord 0x83 0 a 0 0, none)
  | .bwait d a b => some (srWord 0x84 d a b 0, none)
  | .brinfo d a n => some (srWord 0x85 d a 0 ((0 : BitVec 7) ++ n), none)
  | .alloc d => some (srWord 0x86 d 0 0 0, none)
  | .allocKv d a => some (srWord 0x86 d a 0 1, none)
  | .free d a => some (srWord 0x87 d a 0 0, none)
  | .amsg d a b c h => some (srWord 0x88 d a b 0, some (c ++ h ++ (0 : BitVec 19)))
  | .hbind d a b => some (srWord 0x89 d a b 0, none)
  | .trigOff slot => some (srWord 0x8A 0 0 0 ((0 : BitVec 3) ++ slot ++ (0 : BitVec 2)), some 0)
  | .trigAdr a b slot h => some (srWord 0x8A 0 a b ((0 : BitVec 3) ++ slot ++ (1 : BitVec 2)), some (h ++ (0 : BitVec 24)))
  | .trigPort slot h port =>
    some (srWord 0x8A 0 0 0 ((0 : BitVec 3) ++ slot ++ (2 : BitVec 2)), some (h ++ port ++ (0 : BitVec 21)))
  | .trigRd d slot => some (srWord 0x8A d 0 0 ((0 : BitVec 3) ++ slot ++ (3 : BitVec 2)), some 0)
  | .yield => some (srWord 0x8B 0 0 0 0, none)
  | .trap n => some (slWord 0x90 0 n, none)
  | .eret => some (srWord 0x91 0 0 0 0, none)
  | .sysr d r => some (siWord 0x92 d 0 r, none)
  | .sysw r a => some (siWord 0x93 0 a r, none)
  | .frzQ d => some (srWord 0x94 d 0 0 0, none)
  | .frzGo => some (srWord 0x94 0 0 0 1, none)
  | .frzKill a => some (srWord 0x94 0 a 0 2, none)
  | .frzOn => some (srWord 0x94 0 0 0 3, none)
  | .ftok a => some (srWord 0x95 0 a 0 0, none)
  | .save d a b inc => some (srWord 0x96 d a b (uF inc), none)
  | .rest d a b => some (srWord 0x97 d a b 0, none)
  | .wpt n off a mask => some (srWord 0x98 0 a 0 ((0 : BitVec 6) ++ bit1 off ++ n), some (mask ++ (0 : BitVec 16)))
  | .tlbi all sc a b => some (srWord 0x99 0 a b ((0 : BitVec 3) ++ bit1 all ++ sc.code ++ (0 : BitVec 2)), none)
  | .cfgw a b => some (srWord 0x9A 0 a b 0, none)
  | .halt => some (srWord 0x9B 0 0 0 0, none)
  | _ => none

/-- The words of a coded instruction, first word first: one or two of 32 bits for sequencer code, and the low half
first of the 64-bit fabric word. Events have no words. -/
def encode (i : Instr) : List Lane :=
  match i.fabric? with
  | some (opc, f) => let w := encodeFabric opc f; [bits w 0 32, bits w 32 32]
  | none =>
    match encodeSeq i with
    | some (w, some w2) => [w, w2]
    | some (w, none) => [w]
    | none => []

/-- Decodes the words that `encode` lays out. -/
def decodeFabricWords (lo hi : Lane) : Option Instr :=
  match decodeFabric (hi ++ lo) with
  | .ok i => some i
  | .error _ => none

/-- The instruction that the decoder reads from a table word: at most 32 bits are sequencer code with the rest of its
words zero, more are a fabric word. -/
def decodeTableWord (nbits w : Nat) : Option Instr :=
  if nbits ≤ 32 then decodeSeq (BitVec.ofNat 32 w) (BitVec.ofNat 32 (w / 2 ^ 32))
  else decodeFabricWords (BitVec.ofNat 32 w) (BitVec.ofNat 32 (w / 2 ^ 32))

end Sys2Proof
end

