-- ==== Sys2Proof/Machine/Numbers.lean ====
section
/-!
DEFINITION. Number formats, Round and Flush (R71 to R87), and the exact functions that the floating instructions
round (R163 to R167). An exact finite value is a signed dyadic m * 2^e with the sign of zero kept.
-/

namespace Sys2Proof.Machine

/-- Sticky exception flags, in the bit order of FPC[4:0] (Table 3-6). -/
abbrev FFlags := BitVec 5

namespace Fl
def iv : FFlags := 0b00001
def dz : FFlags := 0b00010
def ovf : FFlags := 0b00100
def unf : FFlags := 0b01000
def ix : FFlags := 0b10000
end Fl

/-- Rounding modes (Table 3-6). -/
inductive RMode where
  | rne | rz | rd | ru
  deriving DecidableEq, Repr

/-- A floating format (Table 3-2): fraction bits, exponent bits and bias. `noInf` is E4M3's (R72). -/
structure Fmt where
  frac : Nat
  ebits : Nat
  bias : Nat
  noInf : Bool
  deriving DecidableEq, Repr

def fp32 : Fmt := { frac := 23, ebits := 8, bias := 127, noInf := false }
def bf16 : Fmt := { frac := 7, ebits := 8, bias := 127, noInf := false }
def fp16 : Fmt := { frac := 10, ebits := 5, bias := 15, noInf := false }
def e4m3 : Fmt := { frac := 3, ebits := 4, bias := 7, noInf := true }
def e5m2 : Fmt := { frac := 2, ebits := 5, bias := 15, noInf := false }

/-- The floating format of an element type. -/
def ElemTy.fmt? : ElemTy → Option Fmt
  | .f32 => some fp32 | .bf16 => some bf16 | .f16 => some fp16 | .e4m3 => some e4m3 | .e5m2 => some e5m2
  | _ => none

def Fmt.width (f : Fmt) : Nat := 1 + f.ebits + f.frac

/-- An exact value: a signed dyadic `± m * 2^e`, an infinity or NaN. -/
inductive Num where
  | nan
  | inf (neg : Bool)
  | fin (neg : Bool) (m : Nat) (e : Int)
  deriving DecidableEq, Repr

def Num.zero (neg : Bool) : Num := .fin neg 0 0

def Num.isNan : Num → Bool
  | .nan => true
  | _ => false

def Num.isInf : Num → Bool
  | .inf _ => true
  | _ => false

def Num.isZero : Num → Bool
  | .fin _ 0 _ => true
  | _ => false

def Num.isNeg : Num → Bool
  | .fin n .. => n
  | .inf n => n
  | .nan => false

def Num.negate : Num → Num
  | .fin n m e => .fin (!n) m e
  | .inf n => .inf (!n)
  | .nan => .nan

/-- The value times 2^k. -/
def Num.scale : Num → Int → Num
  | .fin n m e, k => .fin n m (e + k)
  | x, _ => x

def Num.ofInt (i : Int) : Num := .fin (decide (i < 0)) i.natAbs 0

/-- Integers m * 2^(e - lo) of two dyadics over their common exponent. -/
def alignPair (n1 : Bool) (m1 : Nat) (e1 : Int) (n2 : Bool) (m2 : Nat) (e2 : Int) : Int × Int × Int :=
  let lo := min e1 e2
  let a : Int := (m1 * 2 ^ (e1 - lo).toNat : Nat)
  let b : Int := (m2 * 2 ^ (e2 - lo).toNat : Nat)
  (if n1 then -a else a, if n2 then -b else b, lo)

/-- Order of two finite or infinite values; zeros compare equal. NaN is the caller's. -/
def Num.lt : Num → Num → Bool
  | .fin n1 m1 e1, .fin n2 m2 e2 =>
    let (a, b, _) := alignPair n1 m1 e1 n2 m2 e2
    decide (a < b)
  | .inf true, .inf true => false
  | .inf true, .fin .. => true
  | .inf true, .inf false => true
  | .fin .., .inf false => true
  | _, _ => false

def Num.eqv (a b : Num) : Bool := !a.isNan && !b.isNan && !a.lt b && !b.lt a

/-- The exact sum. A zero sum takes its sign under R85: -0 of two -0 addends, else -0 under RD and +0 otherwise.
Infinities of opposite sign give NaN; the caller raises IV (R153). -/
def Num.add (rm : RMode) : Num → Num → Num
  | .nan, _ => .nan
  | _, .nan => .nan
  | .inf a, .inf b => if a = b then .inf a else .nan
  | .inf a, _ => .inf a
  | _, .inf b => .inf b
  | .fin n1 m1 e1, .fin n2 m2 e2 =>
    let (a, b, lo) := alignPair n1 m1 e1 n2 m2 e2
    let s := a + b
    if s = 0 then
      if m1 = 0 && m2 = 0 && n1 && n2 then .fin true 0 0 else .fin (rm == .rd) 0 0
    else .fin (decide (s < 0)) s.natAbs lo

/-- The exact product; zero times infinity is NaN, and the caller raises IV (R153). -/
def Num.mul : Num → Num → Num
  | .nan, _ => .nan
  | _, .nan => .nan
  | .inf a, .inf b => .inf (a != b)
  | .inf a, .fin b m _ => if m = 0 then .nan else .inf (a != b)
  | .fin a m _, .inf b => if m = 0 then .nan else .inf (a != b)
  | .fin n1 m1 e1, .fin n2 m2 e2 => .fin (n1 != n2) (m1 * m2) (e1 + e2)


/-- The value of a code (R72). -/
def Fmt.decode (f : Fmt) (x : Lane) : Num :=
  let c := x.toNat
  let neg := x.getLsbD (f.width - 1)
  let e := c / 2 ^ f.frac % 2 ^ f.ebits
  let m := c % 2 ^ f.frac
  if f.noInf && e = 2 ^ f.ebits - 1 && m = 2 ^ f.frac - 1 then .nan
  else if !f.noInf && e = 2 ^ f.ebits - 1 then (if m = 0 then .inf neg else .nan)
  else if e = 0 then .fin neg m (1 - (f.bias : Int) - f.frac)
  else .fin neg (2 ^ f.frac + m) ((e : Int) - f.bias - f.frac)

/-- The canonical NaN of a format (Table 3-3). -/
def Fmt.nan (f : Fmt) : Lane :=
  if f.noInf then 0x7F
  else BitVec.ofNat 32 ((2 ^ f.ebits - 1) * 2 ^ f.frac + 2 ^ (f.frac - 1))

/-- A code with the sign bit set or clear. -/
def Fmt.signed (f : Fmt) (neg : Bool) (magnitude : Nat) : Lane :=
  BitVec.ofNat 32 (magnitude + (if neg then 2 ^ (f.width - 1) else 0))

/-- Infinity of a sign; E4M3, which has none, gives its canonical NaN. -/
def Fmt.inf (f : Fmt) (neg : Bool) : Lane :=
  if f.noInf then f.nan else f.signed neg ((2 ^ f.ebits - 1) * 2 ^ f.frac)

/-- Magnitude code of the largest finite value (Table 3-3). -/
def Fmt.maxCode (f : Fmt) : Nat :=
  if f.noInf then 2 ^ (f.width - 1) - 2 else (2 ^ f.ebits - 1) * 2 ^ f.frac - 1

def Fmt.emin (f : Fmt) : Int := 1 - (f.bias : Int)

/-- A zero or subnormal code other than zero: exponent field 0 and fraction not 0 (R72). -/
def Fmt.isSubnormal (f : Fmt) (x : Lane) : Bool :=
  x.toNat / 2 ^ f.frac % 2 ^ f.ebits = 0 && x.toNat % 2 ^ f.frac != 0

/-- Flush of R82 on a code. -/
def Fmt.flush (f : Fmt) (x : Lane) : Lane :=
  if f.isSubnormal x then f.signed (x.getLsbD (f.width - 1)) 0 else x

/-- A positive real as (M + d) * 2^E with 0 <= d < 1, d not 0 exactly when `sticky`. -/
structure Appr where
  m : Nat
  e : Int
  sticky : Bool
  deriving DecidableEq, Repr

/-- floor((M + d) * 2^E / 2^qe), and how the rest compares with one half: (n, rest is zero, compare to half). -/
def Appr.quot (a : Appr) (qe : Int) : Nat × Bool × Ordering :=
  let k := a.e - qe
  if 0 ≤ k then (a.m * 2 ^ k.toNat, !a.sticky, .lt)
  else
    let d := 2 ^ (-k).toNat
    let n := a.m / d
    let r := a.m % d
    (n, r = 0 && !a.sticky,
      if 2 * r < d then .lt else if 2 * r = d && !a.sticky then .eq else .gt)

/-- Whether the magnitude goes up to n + 1, for a rest that is not zero (R83). -/
def roundsUp (rm : RMode) (neg : Bool) (n : Nat) (half : Ordering) : Bool :=
  match rm with
  | .rne => half == .gt || (half == .eq && n % 2 = 1)
  | .rz => false
  | .rd => neg
  | .ru => !neg

/-- Code of the magnitude n * 2^qe, which the format represents exactly. -/
def Fmt.encodeMag (f : Fmt) (n : Nat) (qe : Int) : Nat :=
  if n = 0 then 0
  else
    let l := n.log2
    let e : Int := l + qe
    if e < f.emin then n * 2 ^ (qe - (f.emin - f.frac)).toNat
    else
      let sig := if l ≤ f.frac then n * 2 ^ (f.frac - l) else n / 2 ^ (l - f.frac)
      (e - f.emin + 1).toNat * 2 ^ f.frac + (sig - 2 ^ f.frac)

/-- Round of R83 for a non-zero real, with precision p bits (p = frac + 1 for the format itself; R163 uses 13). -/
def roundApprP (f : Fmt) (p : Nat) (rm : RMode) (neg : Bool) (a : Appr) : Lane × FFlags :=
  let tiny := (a.m.log2 : Int) + a.e < f.emin
  let e := max ((a.m.log2 : Int) + a.e) f.emin
  let qe := e - p + 1
  let (n, exact, half) := a.quot qe
  let n' := if !exact && roundsUp rm neg n half then n + 1 else n
  let maxMag : Nat := f.maxCode
  let mag := f.encodeMag n' qe
  if maxMag < mag then
    let toInf := match rm with
      | .rne => true
      | .rz => false
      | .rd => neg
      | .ru => !neg
    let code := if toInf && !f.noInf then f.inf neg else f.signed neg maxMag
    (code, Fl.ovf ||| Fl.ix)
  else
    (f.signed neg mag, if exact then 0 else (if tiny then Fl.unf ||| Fl.ix else Fl.ix))

/-- Round(x, fmt, rm) for a floating format (R83, R84). -/
def roundNum (f : Fmt) (rm : RMode) : Num → Lane × FFlags
  | .nan => (f.nan, 0)
  | .inf neg => if f.noInf then (f.nan, Fl.iv) else (f.inf neg, 0)
  | .fin neg m e =>
    if m = 0 then (f.signed neg 0, 0)
    else roundApprP f (f.frac + 1) rm neg { m, e, sticky := false }

/-- Result flush of R82: the code and the flags it sets. -/
def resultFlush (f : Fmt) (rfl : Bool) (r : Lane × FFlags) : Lane × FFlags :=
  if rfl && f.isSubnormal r.1 then (f.flush r.1, r.2 ||| Fl.unf ||| Fl.ix) else r

/-- An integer format (R71, R126): width and signedness. -/
structure IFmt where
  width : Nat
  signed : Bool
  deriving DecidableEq, Repr

def ElemTy.ifmt : ElemTy → IFmt
  | .i32 => ⟨32, true⟩ | .u32 => ⟨32, false⟩ | .i16 => ⟨16, true⟩ | .u16 => ⟨16, false⟩
  | .i8 => ⟨8, true⟩ | .u8 => ⟨8, false⟩ | _ => ⟨32, false⟩

def IFmt.min (f : IFmt) : Int := if f.signed then -(2 ^ (f.width - 1) : Nat) else 0
def IFmt.max (f : IFmt) : Int := if f.signed then (2 ^ (f.width - 1) : Nat) - 1 else (2 ^ f.width : Nat) - 1

/-- Wrap(v): v modulo 2^w, placed in the container as R42 lays out (R127). -/
def IFmt.wrap (f : IFmt) (v : Int) : Lane :=
  let p := (v % (2 ^ f.width : Nat)).toNat
  if f.signed && 2 ^ (f.width - 1) ≤ p then BitVec.ofInt 32 ((p : Int) - (2 ^ f.width : Nat)) else BitVec.ofNat 32 p

/-- Sat(v): v clamped to the range of the type (R127). -/
def IFmt.sat (f : IFmt) (v : Int) : Lane := f.wrap (if v < f.min then f.min else if f.max < v then f.max else v)

/-- Pat(x): bits [w-1:0] (R127). -/
def IFmt.pat (f : IFmt) (x : Lane) : Nat := x.toNat % 2 ^ f.width

/-- Int(x) (R127). -/
def IFmt.int (f : IFmt) (x : Lane) : Int :=
  let p := f.pat x
  if f.signed && 2 ^ (f.width - 1) ≤ p then (p : Int) - (2 ^ f.width : Nat) else p

/-- Round(x, fmt, rm) for an integer format (R83): clamp with IV, IX when inexact. -/
def roundInt (f : IFmt) (rm : RMode) : Num → Lane × FFlags
  | .nan => (0, Fl.iv)
  | .inf neg => (f.wrap (if neg then f.min else f.max), Fl.iv)
  | .fin neg m e =>
    let (n, exact, half) := Appr.quot { m, e, sticky := false } 0
    let n' := if !exact && roundsUp rm neg n half then n + 1 else n
    let y : Int := if neg then -(n' : Int) else n'
    if y < f.min then (f.wrap f.min, Fl.iv)
    else if f.max < y then (f.wrap f.max, Fl.iv)
    else (f.wrap y, if exact then 0 else Fl.ix)

/-- Value of an E8M0 code (R74). -/
def e8m0Value (c : Byte) : Num := if c == 0xFF then .nan else .fin false 1 ((c.toNat : Int) - 127)

/-- Integer square root by bits, for numbers below 2^(2 * k). -/
def isqrtBits : Nat → Nat → Nat → Nat
  | 0, _, r => r
  | k + 1, n, r => let r' := r + 2 ^ k; isqrtBits k n (if r' * r' ≤ n then r' else r)

/-- 1 / (m * 2^e) to 80 bits and a sticky bit. -/
def recipAppr (m : Nat) (e : Int) : Appr :=
  let k := 80 + m.log2
  { m := 2 ^ k / m, e := -e - k, sticky := 2 ^ k % m != 0 }

/-- 1 / sqrt(m * 2^e) to 60 bits and a sticky bit. -/
def rsqrtAppr (m : Nat) (e : Int) : Appr :=
  -- make the exponent even: m * 2^e = m' * 2^(2 h)
  let odd := e % 2 != 0
  let m' := if odd then 2 * m else m
  let h := (if odd then e - 1 else e) / 2
  -- 1 / sqrt(m') = sqrt(2^(2 k) / m') / 2^k
  let k := 64 + m'.log2
  let q := 2 ^ (2 * k) / m'
  let r := isqrtBits (k + 1) q 0
  { m := r, e := -h - k, sticky := !(r * r * m' == 2 ^ (2 * k)) }

/-- Fraction bits of the fixed-point numbers below. -/
def fx : Nat := 200

/-- floor(ln 2 * 2^200). -/
def ln2Fx : Nat := 1113844574712631719546256151097547306333272293549090750737802

/-- Terms of the exponential series of t (in units of 2^-200): sum of t^k / k!. -/
def expSeries : Nat → Nat → Nat → Nat → Nat → Nat
  | 0, _, _, _, acc => acc
  | fuel + 1, t, k, term, acc =>
    let term' := term * t / 2 ^ fx / k
    expSeries fuel t (k + 1) term' (acc + term')

/-- e^t for 0 <= t < 1, in units of 2^-200. -/
def expFx (t : Nat) : Nat := expSeries 60 t 1 (2 ^ fx) (2 ^ fx)

/-- Terms of 2 * atanh z: sum of z^(2k+1) / (2k+1). -/
def atanhSeries : Nat → Nat → Nat → Nat → Nat → Nat
  | 0, _, _, _, acc => acc
  | fuel + 1, z2, k, p, acc => atanhSeries fuel z2 (k + 2) (p * z2 / 2 ^ fx) (acc + p / k)

/-- ln m for 1 <= m < 2, both in units of 2^-200. -/
def lnFx (m : Nat) : Nat :=
  let z := (m - 2 ^ fx) * 2 ^ fx / (m + 2 ^ fx)
  2 * atanhSeries 64 (z * z / 2 ^ fx) 1 z 0

/-- 2^x for a finite x that is no integer, as a real to 200 bits (R166). -/
def exp2Appr (neg : Bool) (m : Nat) (e : Int) : Appr :=
  let (i, a, _) := Appr.quot { m, e, sticky := false } 0      -- integer part of |x|
  let fracFx : Nat :=                                          -- fraction of |x| in units of 2^-200
    if e < 0 then (m % 2 ^ (-e).toNat) * 2 ^ fx / 2 ^ (-e).toNat else 0
  let _ := a
  -- x = -i - f = -(i + 1) + (1 - f) for a negative x
  let (n, f) : Int × Nat := if neg then (-(i : Int) - 1, 2 ^ fx - fracFx) else ((i : Int), fracFx)
  { m := expFx (f * ln2Fx / 2 ^ fx), e := n - fx, sticky := true }

/-- log2 of m * 2^e, not a power of two: its sign and a real to 200 bits (R166). -/
def log2Appr (m : Nat) (e : Int) : Bool × Appr :=
  let l := m.log2
  let i : Int := l + e
  let sig := m * 2 ^ fx / 2 ^ l                       -- in [1, 2), units of 2^-200
  let frac := lnFx sig * 2 ^ fx / ln2Fx
  let v : Int := i * (2 ^ fx : Nat) + frac
  (decide (v < 0), { m := v.natAbs, e := -(fx : Int), sticky := true })

/-- tanh |x| for 2^-12 <= |x| < 9, as a real to 200 bits (R166). -/
def tanhAppr (m : Nat) (e : Int) : Appr :=
  let x2 := if 0 ≤ e then m * 2 ^ (e.toNat + 1 + fx) else m * 2 ^ (fx + 1) / 2 ^ (-e).toNat   -- 2|x|
  let n := x2 / ln2Fx
  let t := x2 - n * ln2Fx
  let ex := expFx t * 2 ^ n                            -- e^(2|x|)
  { m := (ex - 2 ^ fx) * 2 ^ fx / (ex + 2 ^ fx), e := -(fx : Int), sticky := true }

end Sys2Proof.Machine
end

