-- ==== Sys2Proof/Machine/Flags.lean ====
section
/-!
DEFINITION. FPC (R80, R81): rounding mode, flushes and sticky flags, and the order of work of a floating operation
(R82, R86, R87).
-/

namespace Sys2Proof.Machine

/-- What a floating operation takes from FPC (R81). -/
structure FpEnv where
  rm : RMode
  sfl : Bool
  rfl : Bool
  deriving DecidableEq, Repr

/-- A rounding mode of FPC.RM (Table 3-6). -/
def RMode.ofCode (c : BitVec 2) : RMode :=
  match c.toNat with
  | 0 => .rne | 1 => .rz | 2 => .rd | _ => .ru

/-- RM, SFL and RFL of an FPC value. -/
def FpEnv.ofFpc (fpc : BitVec 32) : FpEnv :=
  { rm := RMode.ofCode (fpc.extractLsb' 10 2), sfl := fpc.getLsbD 9, rfl := fpc.getLsbD 8 }

/-- The mode of a rounding selector (R86): codes 4 to 7 name it, 0 takes FPC.RM. -/
def FpEnv.select (e : FpEnv) (sel : BitVec 3) : RMode :=
  if sel.getLsbD 2 then RMode.ofCode (sel.extractLsb' 0 2) else e.rm

/-- SrcFlush on a code (R82). -/
def FpEnv.src (e : FpEnv) (f : Fmt) (x : BitVec 32) : BitVec 32 :=
  let c := BitVec.ofNat 32 (x.toNat % 2 ^ f.width)
  if e.sfl then f.flush c else c

/-- The exact value of an operand after source flush (R87). -/
def FpEnv.value (e : FpEnv) (f : Fmt) (x : BitVec 32) : Num := f.decode (e.src f x)

/-- Round and result flush of an exact value (R87). -/
def FpEnv.finish (e : FpEnv) (f : Fmt) (rm : RMode) (v : Num) : BitVec 32 × FFlags :=
  resultFlush f e.rfl (roundNum f rm v)

/-- FPC with sticky flags raised (R81). -/
def fpcRaise (fpc : BitVec 32) (fl : FFlags) : BitVec 32 := fpc ||| fl.setWidth 32

/-- FPC after a `sysw` (R80): RM, SFL and RFL written, and the flags written 1 cleared. -/
def fpcWrite (fpc x : BitVec 32) : BitVec 32 := (x &&& 0xF00) ||| (fpc &&& 0x1F &&& ~~~x)

end Sys2Proof.Machine
end

