-- ==== Sys2Proof/Machine/Tables.lean ====
section
/-!
DEFINITION. Sparse tables: lists of (key, value) pairs with rising keys. A key that no entry names reads as a default
that the reader gives.
-/

namespace Sys2Proof.Machine

/-- A table from numbers to values, keys strictly rising. -/
abbrev Tab (β : Type) := List (Nat × β)

/-- The value of key k, if the table has one. -/
def Tab.find? {β : Type} (t : Tab β) (k : Nat) : Option β :=
  match t with
  | [] => none
  | (j, v) :: rest => if j = k then some v else Tab.find? rest k

/-- The value of key k, or the default. -/
def Tab.getD {β : Type} (t : Tab β) (k : Nat) (dflt : β) : β := (Tab.find? t k).getD dflt

/-- The table with key k set to v. -/
def Tab.put {β : Type} (t : Tab β) (k : Nat) (v : β) : Tab β :=
  match t with
  | [] => [(k, v)]
  | (j, w) :: rest =>
    if j = k then (k, v) :: rest
    else if k < j then (k, v) :: (j, w) :: rest
    else (j, w) :: Tab.put rest k v

/-- The table without key k. -/
def Tab.drop {β : Type} (t : Tab β) (k : Nat) : Tab β := t.filter fun e => e.1 != k

/-- The list with the element at index n removed. -/
def dropAt {β : Type} (l : List β) (n : Nat) : List β := l.eraseIdx n

/-- The list with the element at index n replaced. -/
def putAt {β : Type} (l : List β) (n : Nat) (v : β) : List β := l.set n v

/-- A vector with entry i replaced, or the vector itself when it has no entry i. -/
def vput {β : Type} {n : Nat} (v : Vector β n) (i : Nat) (x : β) : Vector β n := v.setIfInBounds i x

/-- Entry i of a vector, or the default when it has no entry i. -/
def vget {β : Type} {n : Nat} (v : Vector β n) (i : Nat) (dflt : β) : β := v[i]?.getD dflt

end Sys2Proof.Machine
end

