-- ==== Sys2Proof/Machine/Parts.lean ====
section
/-!
DEFINITION. The parts of the machine's state: fault causes, tokens, memory events, translation, sequencers, nodes and
planes. Every part is plain data with the spec's own names.
Numbers name things: a region is 0 to 127, a plane is region * 4 + (0 to 3), a sequencer is its region's number or
128 + board for a root core.
-/

namespace Sys2Proof.Machine

/-- FLTCAUSE codes (Table 15-9). -/
inductive Cause where
  | illop | priv | svc | varange | align | page | pteres | prot | tagfmt | hostatom | patbad | idxrng
  | sporder | kvpool | mkalign | loopcnt | exitidx | streamflt | portty | addrrng | blocked | baval
  | bavec | bacfg | stval | stgrp | splen | joinfull | barval | barrange | barcnt | bartree | rtfull
  | qport | sliceop | brval | nohandler | watch | sysval | double | ftokin | engflt
  deriving DecidableEq, Repr

/-- Code of a cause (Table 15-9). -/
def Cause.code : Cause → BitVec 8
  | .illop => 0x01 | .priv => 0x02 | .svc => 0x03 | .varange => 0x04 | .align => 0x05 | .page => 0x06
  | .pteres => 0x07 | .prot => 0x08 | .tagfmt => 0x09 | .hostatom => 0x0A | .patbad => 0x0B | .idxrng => 0x0C
  | .sporder => 0x0D | .kvpool => 0x0E | .mkalign => 0x10 | .loopcnt => 0x11 | .exitidx => 0x12
  | .streamflt => 0x13 | .portty => 0x14 | .addrrng => 0x15 | .blocked => 0x16 | .baval => 0x18
  | .bavec => 0x19 | .bacfg => 0x1A | .stval => 0x1C | .stgrp => 0x1D | .splen => 0x1E | .joinfull => 0x1F
  | .barval => 0x20 | .barrange => 0x21 | .barcnt => 0x22 | .bartree => 0x23 | .rtfull => 0x24
  | .qport => 0x28 | .sliceop => 0x29 | .brval => 0x2A | .nohandler => 0x2B | .watch => 0x2C
  | .sysval => 0x2D | .double => 0x2E | .ftokin => 0x2F | .engflt => 0x30

/-- Marker codes of a token (Table 4-1). -/
abbrev Marker := BitVec 4

namespace Mk
def data : Marker := 0
def eor : Marker := 1
def eot : Marker := 2
def drain : Marker := 3
def switch : Marker := 4
def fence : Marker := 5
def fault : Marker := 6
def scale : Marker := 7
def cfg : Marker := 8
def trig : Marker := 9
end Mk

/-- A token (R21, R98, R285): 16 lanes with valid bits, a marker code and pips. The context field is the plane that
holds the token. `rids` names each lane's record for the program order of R186 (model's own, log 5). -/
structure Token where
  marker : Marker
  payload : Vector Lane 16
  valid : BitVec 16
  pips : Vector Byte 16
  rids : Vector Nat 16
  deriving DecidableEq, Repr

/-- A token with no record and zero payload. -/
def Token.empty : Token :=
  { marker := Mk.data, payload := Vector.replicate 16 0, valid := 0, pips := Vector.replicate 16 0,
    rids := Vector.replicate 16 0 }

/-- A marker with zero payload (Table 4-1). -/
def Token.mark (m : Marker) : Token := { Token.empty with marker := m }

/-- The agents of the memory model (Table 9-1). The running block instance is named by its region and plane, an engine
job by its region and scoreboard entry, a root core by its sequencer number. An instance or a job that has ended is
`gone`: its writes that still spread keep an agent of their own, with its region, its narrowest level and a number that
no other has. -/
inductive Agent where
  | seq (q : Nat)
  | block (region plane : Nat)
  | job (region entry : Nat)
  | host (thread : Nat)
  | gone (region level serial : Nat)
  deriving DecidableEq, Repr

/-- The number that names an agent in tables and in event rows. -/
def Agent.key : Agent → Nat
  | .seq q => q
  | .block r p => 0x1000 + 4 * r + p
  | .job r e => 0x2000 + 16 * r + e
  | .host t => 0x4000 + 2 * t
  | .gone r l n => 0x4001 + 2 * (256 * n + 128 * l + r)

/-- The agent of a key. -/
def Agent.ofKey (k : Nat) : Agent :=
  if k < 0x1000 then .seq k
  else if k < 0x2000 then .block ((k - 0x1000) / 4) ((k - 0x1000) % 4)
  else if k < 0x4000 then .job ((k - 0x2000) / 16) ((k - 0x2000) % 16)
  else
    let n := (k - 0x4000) / 2
    if k % 2 = 0 then .host n else .gone (n % 128) (n / 128 % 2) (n / 256)

/-- Ordering kinds of a page (Table 8-5). -/
inductive PageOrd where
  | so | rc | un
  deriving DecidableEq, Repr

/-- One byte of an event: its physical key and, for a write, its value under a mask (R226). -/
structure Piece where
  key : Nat
  value : Byte
  mask : Byte
  deriving DecidableEq, Repr

/-- What the value of a read or RMW does when it returns (R330, R195, R241). -/
inductive Dest where
  | none
  /-- an s register of a bank of a sequencer; `sx` sign-extends the bytes read -/
  | sreg (q : Nat) (priv : Bool) (d : SReg) (sx : Bool)
  | greg (plane : Nat) (g : GReg)
  | creg (plane : Nat) (c : CReg)
  /-- a lane, or a whole span, of a memory node's token in flight -/
  | lane (plane slot entry : Nat) (i : Nat)
  | span (plane slot entry : Nat)
  /-- accumulator register aN (R192) -/
  | acc (plane : Nat) (n : Nat) (slot entry : Nat)
  /-- the old value of the `rtree` entry of an offset (R316) -/
  | entry (plane slot : Nat) (key : Lane)
  /-- the instruction at which a sequencer waits -/
  | wait (q : Nat)
  /-- an arrival of a sequencer that has gone on past it (R324) -/
  | arrival (q : Nat) (va : Word)
  /-- an element run of an engine job -/
  | job (region entry : Nat) (index : Nat)
  deriving DecidableEq, Repr

/-- Operations of an RMW at a home unit (Table 12-1, R320, R321). -/
inductive RmwOp where
  | atomic (op : AtomOp) (float signed : Bool) (x c : Word)
  | arrive (phase : Option (BitVec 16)) (count : Nat) (ctx : Nat) (branch : Option Nat)
  | create (object : BitVec 256)
  deriving DecidableEq, Repr

/-- Kinds of memory events (R226). -/
inductive EvKind where
  | read | write | rmw (op : RmwOp) | fence (k : FenceKind) | wbk | inv
  deriving DecidableEq, Repr

/-- A memory event in a program-order queue (R69, R225, R226). -/
structure Ev where
  /-- identity, rising in the order of creation (log 5) -/
  id : Nat
  kind : EvKind
  va : Nat
  size : Nat
  /-- the bytes covered, as keys from `base` on, which stands for `va`: the address itself before the first translation (R240) -/
  pieces : List Piece
  base : Nat
  parked : Bool
  ord : PageOrd
  /-- memory kind of the page (Table 8-5) -/
  mkind : BitVec 3
  /-- the translation is that of a 2 MiB page (R200, R401) -/
  large : Bool
  acq : Bool
  rel : Bool
  scope : Scope
  /-- the block's tag is read, or written, in the same event (R68) -/
  tagRead : Bool
  tagWrite : Option (BitVec 16)
  dest : Dest
  ctx : Nat
  /-- the access can hit watchpoints (R393) -/
  watched : Bool
  /-- the M-square or other requester whose cache translates it -/
  req : Nat
  /-- for a block instance: the node's slot, its SEQ, the records (R186) and the record's stream position -/
  slot : Nat
  seqNo : Nat
  rids : List Nat
  pos : Nat
  /-- a fence of a marker: it follows the events of the records before the marker, and precedes those of the records after
  it (R246, R247) -/
  mark : Bool
  /-- events earlier in the partial program order of a block instance (R186); other agents order by id -/
  preds : List Nat
  deriving DecidableEq, Repr

/-- A value that has been read and has not yet reached its destination (R330, R195). -/
structure Ret where
  dest : Dest
  bytes : List Byte
  tag : BitVec 16
  /-- the RMW has raised a fault and changed nothing (R321) -/
  bad : Option Cause
  deriving DecidableEq, Repr

/-- The order facts of an event of a block instance, kept until the instance commits (R186). -/
structure Past where
  id : Nat
  slot : Nat
  seqNo : Nat
  rids : List Nat
  mark : Bool
  preds : List Nat
  deriving DecidableEq, Repr

/-- One agent of the abstract machine (R225): Q(a), B(a), the RMWs issued and not yet performed, and the values on
their way back. -/
structure AgentSt where
  q : List Ev
  buf : List Ev
  rmws : List Ev
  rets : List Ret
  past : List Past
  deriving DecidableEq, Repr

def AgentSt.empty : AgentSt := { q := [], buf := [], rmws := [], rets := [], past := [] }

/-- A committed write that is not yet in V(I_.sys) of its origin (R225, R231). -/
structure MWrite where
  id : Nat
  org : Nat
  cells : List (Nat × Byte)
  tag : Option (Nat × BitVec 16)
  /-- the widest scope level whose visibility set holds it, 0 .blk to 5 .sys -/
  level : Nat
  ord : PageOrd
  /-- a plain write on a UN page, which releases and fences do not wait for (R235) -/
  plain : Bool
  deriving DecidableEq, Repr

/-- Memory: bytes whose writes are visible to every agent, block tags, and the writes still spreading, in
coherence order. -/
structure Memory where
  cells : List Host.Cell
  tags : Tab (BitVec 16)
  recent : List MWrite
  deriving DecidableEq, Repr

/-- A cached translation of one 64 KiB page (R197); of a 2 MiB page it holds the group's first leaf (R200). -/
structure Cached where
  ctx : Nat
  page : Nat
  leaf : Word
  /-- the walk ended in this fault; the entry serves one access and is dropped -/
  bad : Option Cause
  deriving DecidableEq, Repr

/-- A miss (R197, R198): waiting for a parking entry or walking. -/
structure Walk where
  board : Nat
  ctx : Nat
  page : Nat
  granted : Bool
  /-- the level of the next entry to read, from 1; 4 for the first of the page's group of 32, 5 for its own (R199, R200) -/
  level : Nat
  /-- the table that holds that entry -/
  table : Nat
  /-- the leaf that has been read, of a 2 MiB page: misses to other addresses of it join the walk -/
  found : Option Word
  /-- caches to fill at completion -/
  requesters : List Nat
  /-- a `tlbi` covers it, so that its result is dropped (R401) -/
  dropped : Bool
  /-- a write that must first make its branch's path private (R361) -/
  copy : Bool
  /-- key of the agent whose write parked (R452) -/
  agent : Nat
  deriving DecidableEq, Repr

/-- A run-ahead slice (R40, R335): address of its first word and number of words. -/
structure SliceRef where
  base : Nat
  len : Nat
  block : Nat
  deriving DecidableEq, Repr

/-- What the instruction at an address waits for (R326, R373, R384). -/
inductive Wait where
  | none
  /-- `waita` or `bwait`: cycles left (none: no limit), the value of `waita`'s last read, and whether it sleeps -/
  | timed (ip : Word) (left : Option Nat) (seen : Option Word) (asleep : Bool)
  /-- an instruction of n bytes whose event must still be performed, the watchpoint and address it has hit (R394), and
  the bytes that the event has returned or the fault that it has raised; n is 0 for an event that is not its last -/
  | event (ip : Word) (n : Nat) (id : Nat) (hit : Option (Nat × Word)) (got : Option (List Byte × Option Cause))
  /-- `wbk` or `inv`: the next event's address (R251) -/
  | range (ip : Word) (next : Nat)
  /-- `resign`: the marking has still to reach the region's liveness copy (R451) -/
  | marking (ip : Word)
  deriving DecidableEq, Repr

/-- The 64-byte pieces of a block image that have been read so far, by address (R58). -/
abbrev Pieces := List (Nat × List Byte)

/-- A `blk` whose chain runs, or has ended with a result (R346). -/
structure BlkWait where
  ip : Word
  priv : Bool
  /-- ESTAT.INH at the launch: the chain is a handler's own -/
  inh : Bool
  d : SReg
  result : Option Word
  deriving DecidableEq, Repr

inductive RunState where
  | free | running | halted
  deriving DecidableEq, Repr

/-- A task on a sequencer (R24, R352). -/
structure TaskRef where
  /-- serial number of the task -/
  serial : Nat
  ctx : Nat
  deriving DecidableEq, Repr

/-- A job the sequencer has issued (R347, R379): its scoreboard entry's serial number and its final token value. -/
structure IssuedJob where
  serial : Nat
  result : Option Word
  deriving DecidableEq, Repr

/-- One sequencer: a region's or a root core (R329, R382, R404). -/
structure Seq where
  run : RunState
  ip : Word
  priv : Bool
  user : Vector Word 32
  bank : Vector Word 32
  /-- armed token registers of the two banks (R331) -/
  armedU : BitVec 32
  armedP : BitVec 32
  /-- destinations whose value has not been written (R330): the two banks, g and c registers -/
  outU : BitVec 32
  outP : BitVec 32
  outG : BitVec 16
  outC : BitVec 16
  staging : Vector Token 8
  /-- plane of the current user context in this region (0 to 3), if any -/
  plane : Option Nat
  task : Option TaskRef
  /-- the `blk` in progress (R346) -/
  chain : Option BlkWait
  /-- a `blk` whose chain has ended, with its result, while a handler that has interrupted it runs one of its own (R346,
  R388) -/
  parked : Option BlkWait
  /-- the image that the `blk` at an IP, in a mode, is fetching (R58) -/
  fetching : Option (Word × Bool × Pieces)
  /-- the waiting instruction of each mode, and that of a handler, which runs with INH = 1 (R384) -/
  waitU : Wait
  waitP : Wait
  waitH : Wait
  /-- bytes that the instruction at IP has read so far (R369) -/
  got : List Byte
  slice : Option SliceRef
  slices : List SliceRef
  jobs : List IssuedJob
  /-- words fetched ahead of their use (R67, R239) -/
  fetched : Tab Lane
  blkst : Word
  /-- failures on their way to BLKST (R59) -/
  reports : List Word
  fltcause : Word
  fltaddr : Word
  fltpos : Word
  fltbpc : Word
  fltaux : Word
  epc : Word
  estat : Word
  tvec : Word
  sctl : Word
  eflt : Word
  eflta : Word
  tstat : Word
  fqbase : Word
  fqhead : Word
  fqtail : Word
  /-- fault tokens accepted for this root core's ring and not yet written (R390, R392) -/
  ftoks : List (List Word)
  /-- a fabric fault of the chain waits for the sequencer (R384) -/
  pendFault : Option (Cause × Word)
  deriving DecidableEq, Repr

/-- The reset value of sequencer q: user mode for a region's, privileged for a root core (R382). -/
def Seq.reset (q : Nat) : Seq :=
  { run := .free, ip := 0, priv := decide (128 ≤ q), user := Vector.replicate 32 0, bank := Vector.replicate 32 0,
    armedU := 0, armedP := 0, outU := 0, outP := 0, outG := 0, outC := 0,
    staging := Vector.replicate 8 Token.empty, plane := none, task := none, chain := none, parked := none,
    fetching := none, waitU := .none, waitP := .none, waitH := .none, got := [], slice := none, slices := [], jobs := [], fetched := [], blkst := 0, reports := [], fltcause := 0, fltaddr := 0, fltpos := 0,
    fltbpc := 0, fltaux := 0, epc := 0, estat := 0, tvec := 0, sctl := 0, eflt := 0, eflta := 0, tstat := 0,
    fqbase := 0, fqhead := 0, fqtail := 0, ftoks := [], pendFault := none }

/-- The registers of the SYS group that a sequencer holds while it runs the context, and the context's plane keeps while no
sequencer does (R386, Table 15-5). -/
structure SysRegs where
  tstat : Word
  fltcause : Word
  fltaddr : Word
  fltpos : Word
  fltbpc : Word
  fltaux : Word
  eflt : Word
  eflta : Word
  deriving DecidableEq, Repr

def SysRegs.zero : SysRegs :=
  { tstat := 0, fltcause := 0, fltaddr := 0, fltpos := 0, fltbpc := 0, fltaux := 0, eflt := 0, eflta := 0 }

/-- The SYS registers on a sequencer, and a sequencer with them loaded. -/
def Seq.sysRegs (v : Seq) : SysRegs :=
  { tstat := v.tstat, fltcause := v.fltcause, fltaddr := v.fltaddr, fltpos := v.fltpos, fltbpc := v.fltbpc,
    fltaux := v.fltaux, eflt := v.eflt, eflta := v.eflta }
def Seq.withSys (v : Seq) (x : SysRegs) : Seq :=
  { v with
    tstat := x.tstat, fltcause := x.fltcause, fltaddr := x.fltaddr, fltpos := x.fltpos, fltbpc := x.fltbpc
    fltaux := x.fltaux, eflt := x.eflt, eflta := x.eflta }

/-- A link between two nodes of a plane (R45, R93 to R97, R108). Node slots are placement bytes, 256 added for a
memory node and 512 for the fused partner's. -/
structure Link where
  src : Nat
  /-- which target of the producer: 0 TGA, 1 TGB, 2 the third of `fan` -/
  out : Nat
  dst : Nat
  opd : Slot
  cap : Nat
  toks : List Token
  sticky : Bool
  /-- number of the block instance whose consumer reads it -/
  era : Nat
  /-- a producer of the next instance has reused it (R108): that instance, its target number, the new slot count and
  whether it is sticky; in force once the consumer has taken SWITCH -/
  renew : Option (Nat × Nat × Nat × Bool)
  deriving DecidableEq, Repr

/-- Reconfiguration states of a node (Table 4-2). A node without an entry is IDLE, and JOIN is RUN with a wavefront
marker at the head of some input, where it stays until the node leaves JOIN (R106). -/
inductive NPhase where
  | run | held | emit | reconf | blocked
  deriving DecidableEq, Repr

/-- A fault that a memory node raises once the lanes below its record have left: cause, address, FLTAUX, stream
position, and the event that must have been performed first (R189, R240, R394). -/
structure NodeFault where
  cause : Cause
  addr : Word
  aux : Word
  pos : Nat
  after : Option Nat
  deriving DecidableEq, Repr

/-- A token in a memory node or in a stream port's read side (R189, R195): what leaves when its values have returned. -/
structure Flight where
  id : Nat
  /-- the token to emit; lanes are filled as values return -/
  tok : Token
  /-- the input tokens at slots a, b and c, and the lanes that are live -/
  src : Token
  srcB : Token
  srcC : Token
  live : BitVec 16
  /-- the next lane, or step, that it has still to perform -/
  lane : Nat
  /-- lanes whose value has not returned -/
  waiting : BitVec 16
  /-- the event that must be performed before the token leaves -/
  hold : Option Nat
  /-- the bytes and tag of a span that has returned -/
  got : Option (List Byte × BitVec 16)
  fault : Option NodeFault
  deriving DecidableEq, Repr

/-- An entry of an `rtree` combining table (R316). -/
structure RtEntry where
  key : Lane
  v : Lane
  old : Option Lane
  pos : Nat
  rid : Nat
  deriving DecidableEq, Repr

/-- An entry of an `sjoin` table (R302): the left table's when `left`. -/
structure JoinEntry where
  left : Bool
  key : BitVec 16
  payload : BitVec 16
  stamp : Nat
  pips : Byte
  deriving DecidableEq, Repr

/-- The fibres of a set instruction in the current row (R301): for each lane and side, the records in tokens that have left
the link, the last record passed, the number of records passed, and the lanes that have finished. The records still to pass
are in the links' slots (R20). -/
structure Fibres where
  takenA : Vector Nat 16
  takenB : Vector Nat 16
  lastA : Vector Lane 16
  lastB : Vector Lane 16
  passedA : Vector Nat 16
  passedB : Vector Nat 16
  finished : BitVec 16
  deriving DecidableEq, Repr

def Fibres.empty : Fibres :=
  { takenA := Vector.replicate 16 0, takenB := Vector.replicate 16 0, lastA := Vector.replicate 16 0,
    lastB := Vector.replicate 16 0, passedA := Vector.replicate 16 0, passedB := Vector.replicate 16 0, finished := 0 }

/-- One stage slot or memory node in one plane (R105 and the entries). The last fields are the node state that the
instructions' entries give. -/
structure Node where
  word : Word
  /-- a word of `cfgw` that waits until no token is under way (R57) -/
  config : Option Word
  shadow : Option Word
  phase : NPhase
  /-- index of the instruction in its block (FLTPOS.NODE) -/
  index : Nat
  /-- number of the block instance that the word belongs to, counted in the chain -/
  era : Nat
  /-- records taken so far: the next record's stream position (R96) -/
  pos : Nat
  /-- owed DRAIN counts of slots a and b (R468) -/
  owedA : Nat
  owedB : Nat
  /-- targets that have received the SWITCH or DRAIN of EMIT -/
  sent : List Nat
  /-- tokens that the node's next firings place into TGA and TGB, in order -/
  pend : List (Token × Token)
  emitting : Marker
  /-- EOT has been taken at every non-sticky input (R100) -/
  ended : Bool
  /-- `ext` has fired; `gen` has begun its sequence -/
  fired : Bool
  count : Nat
  limit : Nat
  held : Option Token
  turn : Bool
  scale : Byte
  buf : List Token
  bufB : List Token
  tab : List RtEntry
  /-- entries that a full `.acc` table has evicted, whose writes stand at the position of EOT (R316) -/
  late : List RtEntry
  join : List JoinEntry
  /-- `sjoin`: the physical ranges of its tables, as start and length, once they have been reached; whether an agent has
  written into them (R302) -/
  range : List (Nat × Nat)
  spoiled : Bool
  fibres : Fibres
  /-- records that a memory node has taken, for the place of its marker fences (R246, R247) -/
  seen : List Nat
  cur : Option Flight
  fly : List Flight
  /-- tokens that a memory node has taken behind `cur`, whose access is parked (R195) -/
  wait : List Flight
  decision : Option Nat
  /-- the DRAIN of the pre-emption at hand has left the node, which got it from no input of its own (R109) -/
  passed : Bool
  deriving DecidableEq, Repr

def Node.fresh (w : Word) : Node :=
  { word := w, config := none, shadow := none, phase := .run, index := 0, era := 0, pos := 0, owedA := 0, owedB := 0,
    sent := [], pend := [], emitting := 0, ended := false, fired := false, count := 0, limit := 0,
    held := none, turn := false, scale := 0x7F, buf := [], bufB := [], tab := [], late := [], join := [],
    range := [], spoiled := false, fibres := .empty, seen := [], cur := none, fly := [], wait := [], decision := none
    passed := false }

/-- What a block instance took at its launch (R469). -/
structure Snapshot where
  pats : Vector (BitVec 256) 16
  fpc : Lane
  cbs : Vector (BitVec 256) 16
  menus : Vector (BitVec 48 × Word) 4
  deriving DecidableEq, Repr

/-- A block instance of a chain (R22, R100 to R103). -/
structure Inst where
  header : Nat
  head : BitVec 128
  words : List Word
  place : List Byte
  snap : Snapshot
  /-- its slice has ended, or it has none (R335) -/
  sliceDone : Bool
  deriving DecidableEq, Repr

/-- The chain of a plane (R346): the running instance, the successor that has been checked, and the outcome that
returns control. -/
structure Chain where
  seq : Nat
  /-- events of the sequencer with smaller identities precede the `blk` (R224) -/
  before : Nat
  /-- number of the running instance in the chain -/
  era : Nat
  cur : Inst
  next : Option Inst
  /-- pieces of the successor's image that have been read (R58) -/
  pieces : Pieces
  /-- control returns with this result when the running instance has committed -/
  ret : Option Word
  deriving DecidableEq, Repr

end Sys2Proof.Machine
end

