-- ==== Sys2Proof/Machine/Units.lean ====
section
/-!
DEFINITION. The parts of the state around the core: stream ports and jobs, butterfly arrays, steering groups, planes,
regions, contexts, tasks and dispatchers, virtual devices and the host's registers.
-/

namespace Sys2Proof.Machine

/-- One side of a stream port (R202, R206, R215). -/
structure Side where
  toks : List Token
  bind : Option (BitVec 256)
  /-- the port whose binding holds this side as its second side (R218) -/
  heldBy : Option Nat
  /-- serial number of the job that runs on the side -/
  job : Option Nat
  /-- plane (0 to 3) whose context owns the binding or the job -/
  plane : Nat
  /-- address generator: the next element to read, or to write, and the next to be delivered -/
  pos : Nat
  epos : Nat
  scale : Byte
  /-- block of the last element delivered, for SCALE (R206) -/
  block : Option Nat
  /-- the side has faulted and discards its input up to EOT, or has filled its pattern (R206, R214) -/
  discard : Bool
  long : Bool
  /-- an EOR, or the EOT, or a FAULT with a cause is due at the read side (R204, R214) -/
  eorDue : Bool
  eotDue : Bool
  fltDue : Option Cause
  /-- runs, or a gather's tokens, whose values have not all been delivered, oldest first (R195, R207, R470) -/
  fly : List Flight
  /-- elements that wait to be packed or written: element index and value -/
  vals : List (Nat × Lane)
  /-- bytes of the run being gathered by a write side: address, value, mask; and its first element's scale (R470) -/
  run : List (Nat × Byte × Byte)
  runScale : Byte
  /-- the run's last element ended an innermost row -/
  runEnd : Bool
  /-- EOT has been taken -/
  closed : Bool
  /-- a pattern that a CFG token has bound as the next job (R221) -/
  next : Option (BitVec 256)
  /-- the last index that DENSIFY took (R208) -/
  last : Option Nat
  deriving DecidableEq, Repr

def Side.empty : Side :=
  { toks := [], bind := none, heldBy := none, job := none, plane := 0, pos := 0, epos := 0, scale := 0x7F, block := none,
    discard := false, long := false, eorDue := false, eotDue := false, fltDue := none, fly := [], vals := [], run := [],
    runScale := 0x7F, runEnd := false, closed := false, next := none, last := none }

structure Port where
  rd : Side
  wr : Side
  deriving DecidableEq, Repr

def Port.empty : Port := { rd := .empty, wr := .empty }

/-- A range of a job card (R212). -/
structure JobRange where
  lo : Nat
  hi : Nat
  wr : Bool
  deriving DecidableEq, Repr

/-- What an engine job does (R212, R219, R220, R280, R281). -/
inductive JobKind where
  | sgo (port : Nat) (wr : Bool) (pat : BitVec 256)
  | acpy (dst src : BitVec 256) (bar : Option Nat)
  | bwld (src len : Nat) (arr : ArrSel) (col off : Nat) (slot : Nat) (cb : BitVec 256)
  | bchn (arr : ArrSel)
  deriving DecidableEq, Repr

/-- A job of the scoreboard (R211 to R213). -/
structure Job where
  serial : Nat
  card : BitVec 16
  kind : JobKind
  ranges : List JobRange
  /-- serial numbers of the earlier jobs it depends on -/
  deps : List Nat
  started : Bool
  seq : Nat
  /-- token register, with the bank it is in -/
  token : Option (Bool × SReg)
  scope : Scope
  ctx : Nat
  plane : Nat
  sfl : Bool
  rfl : Bool
  flags : BitVec 5
  /-- source elements handed to reading, and their runs that have not been consumed, oldest first (R470) -/
  fetched : Nat
  fly : List Flight
  /-- source bytes not yet decoded, decoded bytes, and elements ready for the destination -/
  bytes : List Byte
  zbytes : List Byte
  vals : List Nat
  /-- the next destination element, and the run being gathered -/
  wpos : Nat
  run : List (Nat × Byte × Byte)
  runEnd : Bool
  /-- ZEXPAND: units begun, mask of the unit and its next word, 8 when a mask byte is due (R210) -/
  zunits : Nat
  zmask : Byte
  zword : Nat
  zcut : Bool
  /-- the kind of the first source block (R280) -/
  kindSeen : Option (BitVec 4)
  /-- the outcome of the data: done, LENLONG or LENSHORT; or the fault and its address -/
  outcome : Option Word
  fault : Option (Cause × Nat)
  /-- the barrier arrival has been placed (R220) -/
  arrived : Bool
  deriving DecidableEq, Repr

/-- One butterfly column (R252, R272, R273). -/
structure Column where
  word : Word
  kind : BitVec 4
  loaded : Bool
  scales : Tab Byte
  cb : BitVec 256
  acc : Vector (Vector Lane 16) 64
  /-- operands that wait or are still needed, by their place in the row group, and the places whose operand is in the
  spill range (R264, R265) -/
  pairs : Tab Token
  spilled : List Nat
  /-- markers that wait to leave before the token of a place (R266) -/
  marks : List (Nat × Token)
  /-- tokens of the row group received and emitted -/
  recv : Nat
  sent : Nat
  inq : List Token
  dirty : Bool
  dirtyAcc : BitVec 64
  dirtyPair : BitVec 64
  deriving DecidableEq, Repr

def Column.empty : Column :=
  { word := 0, kind := 0, loaded := false, scales := [], cb := 0, acc := Vector.replicate 64 (Vector.replicate 16 0),
    pairs := [], spilled := [], marks := [], recv := 0, sent := 0, inq := [], dirty := false, dirtyAcc := 0,
    dirtyPair := 0 }

/-- The binding of a chain of stages (R272, R281). -/
structure BaBind where
  w1 : Lane
  w2 : Lane
  c0 : Nat
  n : Nat
  g : Nat
  spill : Option Nat
  z : Nat
  both : Bool
  sfl : Bool
  rfl : Bool
  job : Nat
  plane : Nat
  scope : Scope
  deriving DecidableEq, Repr

/-- An exact sum that is still to be rounded; `mixed`: a zero whose sign the rounding mode decides (R85). -/
structure ExactSum where
  v : Num
  mixed : Bool
  deriving DecidableEq, Repr

/-- A token at the output port: the last column's results are rounded by `bfout` (R257). -/
structure OutTok where
  tok : Token
  sums : Vector ExactSum 16
  deriving DecidableEq, Repr

/-- One butterfly array (R252, R270 to R273). -/
structure BArray where
  cols : Tab Column
  bind : Option BaBind
  inq : List Token
  outq : List OutTok
  stopped : Bool
  /-- `bdrn.sv` has injected its DRAIN, which leaves at the output port, and it has left (R284) -/
  draining : Bool
  drained : Bool
  /-- the chain's EOT has been taken at the input, and has left the output port -/
  eotIn : Bool
  eotOut : Bool
  /-- tokens of the row group so far, at the input and at the output (R253) -/
  groupIn : Nat
  groupOut : Nat
  /-- nothing but CFG tokens has come since the stream began, or since an EOR (R267) -/
  cfgOpen : Bool
  /-- row groups so far at the two ports: under ba01 even ones belong to BA0 (R281) -/
  turnIn : Nat
  turnOut : Nat
  /-- the chain has faulted and discards its input up to EOT (R274) -/
  faulted : Bool
  flags : BitVec 5
  images : Nat
  /-- IMGID of the image last written, or read, at an address (R273) -/
  imageIds : Tab Nat
  deriving DecidableEq, Repr

def BArray.empty : BArray :=
  { cols := [], bind := none, inq := [], outq := [], stopped := false, draining := false, drained := false,
    eotIn := false, eotOut := false, groupIn := 0, groupOut := 0, cfgOpen := true, turnIn := 0, turnOut := 0,
    faulted := false, flags := 0, images := 0, imageIds := [] }

/-- Where a record has entered its group (R287): the node's instruction index, its block's header, and the record's stream
position there. -/
structure Entry where
  node : Nat
  bpc : Nat
  pos : Nat
  deriving DecidableEq, Repr

/-- A record in a steering group's queue (R286, R362), with where it last entered the group (R287). -/
structure StRec where
  value : Lane
  pips : Byte
  branch : Option Nat
  entry : Entry
  rid : Nat
  deriving DecidableEq, Repr

/-- A steering group (R286). -/
structure StGroup where
  en : BitVec 8
  jn : BitVec 8
  w : Nat
  batch : Bool
  cost : Vector Nat 8
  aft : Vector (BitVec 8) 8
  seen : Vector Nat 8
  drop : Vector Nat 8
  out : Vector Nat 8
  queue : List StRec
  /-- finished records that wait for `pips.out` -/
  done : List StRec
  /-- tokens on their way to the operators' `sroute` nodes, by operator -/
  routed : Tab (List Token)
  /-- markers that `pips.out` must still emit -/
  outMarks : List Token
  entEot : Bool
  /-- joined records that `sjoin.op` has reported less those that the router has received -/
  joined : Int
  ended : Bool
  draining : Bool
  /-- number in its chain of the instance whose `pips.ent` opened the group last (R290, R449) -/
  era : Nat
  /-- records at operators: identity, and where each last entered the group (R287) -/
  away : List (Nat × Entry)
  deriving DecidableEq, Repr

def StGroup.empty : StGroup :=
  { en := 0xFF, jn := 0, w := 4, batch := false, cost := Vector.replicate 8 1,
    aft := Vector.replicate 8 0, seen := Vector.replicate 8 2, drop := Vector.replicate 8 1,
    out := Vector.replicate 8 0, queue := [], done := [], routed := [], outMarks := [], entEot := false,
    joined := 0, ended := true, draining := false, era := 0, away := [] }

/-- A report on its way to the router (R288, R294). -/
structure StReport where
  group : Nat
  op : Nat
  /-- 0: a plain `sret`; 1: `sret.new`; 2: `sjoin.op` -/
  kind : Nat
  tok : Token
  keep : BitVec 16
  slot : Nat
  /-- the reporting node, its block and the stream position of the token's first record there -/
  entry : Entry
  branch : Option Nat
  /-- `sjoin.op`: the matches of the record -/
  count : Nat
  deriving DecidableEq, Repr

/-- What froze a plane (R386, R388, R416). -/
inductive FrozenBy where
  | none | fault | frzOn | pause
  deriving DecidableEq, Repr

/-- Groups of an image's dirty bits (Table 15-5): SEQ, SYS, REGS, ACC, CFG, LINK, PORT, STEER, BA0, BA1. -/
abbrev Dirty := BitVec 10

/-- One configuration plane of a region (R25, R203, R258, R75, R131, R307, R393). -/
structure Plane where
  ctx : Option Nat
  frozen : FrozenBy
  g : Vector (BitVec 256) 16
  h : Vector Word 8
  c : Vector (BitVec 256) 16
  a : Vector (Vector Lane 16) 64
  menus : Vector (BitVec 48 × Word) 4
  wpt : Vector Word 4
  nodes : Tab Node
  links : List Link
  chain : Option Chain
  /-- flags raised since the last commit (R81) -/
  flags : BitVec 5
  resd : Nat
  resm : Nat
  dirty : Dirty
  groups : Vector StGroup 4
  reports : List StReport
  /-- a pre-emption has injected DRAIN, and the plane is at rest until it is restored (R109) -/
  draining : Bool
  /-- the DRAIN has left, or the plane is frozen, and its image is being written: its stream jobs have stopped (R215,
  R396) -/
  atRest : Bool
  /-- the context's SYS registers, while no sequencer runs it (R386, R397) -/
  sys : SysRegs
  /-- the sequencer whose `save`, or the Arbiter (1000) whose command, has stopped the plane's sequencer for an image -/
  saver : Option Nat
  /-- slots of elements without a configuration that are blocked (R56) -/
  jammed : List Nat
  deriving DecidableEq, Repr

def Plane.empty : Plane :=
  { ctx := none, frozen := .none, g := Vector.replicate 16 0, h := Vector.replicate 8 0, c := Vector.replicate 16 0,
    a := Vector.replicate 64 (Vector.replicate 16 0), menus := Vector.replicate 4 (0, 0), wpt := Vector.replicate 4 0,
    nodes := [], links := [], chain := none, flags := 0, resd := 0, resm := 0, dirty := 0,
    groups := Vector.replicate 4 StGroup.empty, reports := [], draining := false, atRest := false, sys := .zero,
    saver := none, jammed := [] }

/-- A rate limiter (R269): the values in force and the value `brate` last set. -/
structure Limiter where
  a : Nat
  w : Nat
  admitted : Nat
  set : Nat × Nat
  deriving DecidableEq, Repr

def Limiter.empty : Limiter := { a := 0, w := 256, admitted := 0, set := (0, 256) }

/-- A node that waits for shared entries of a square's token pool (R31): the square, the launching plane and the node's
slot, and the cycle in which it asked. -/
structure PoolAsk where
  square : Nat
  plane : Nat
  slot : Nat
  cycle : Nat
  deriving DecidableEq, Repr

/-- One region (R17, R202, R213, R252, R269, R460 to R462). -/
structure Region where
  ports : Vector Port 8
  jobs : Tab Job
  serial : Nat
  arrays : Vector BArray 2
  limits : Vector Limiter 10
  wwin : Word
  allow : Nat
  used : Nat
  /-- fraction of a nanojoule, in picojoules -/
  picos : Nat
  /-- energy since reset, in nanojoules -/
  total : Nat
  held : Bool
  /-- number of the window whose allowance and energy these are (R454, R460) -/
  window : Nat
  /-- branches that the region's liveness copy knows to be dead: context and branch (R362, R363) -/
  dead : List (Nat × Nat)
  /-- plane that fired last on each stage or was served last on each M-square (R30, R195), by slot -/
  served : Tab Nat
  /-- nodes that wait for shared pool entries, and by square the plane granted last, 3 before any (R31) -/
  asks : List PoolAsk
  granted : Tab Nat
  deriving DecidableEq, Repr

def Region.empty : Region :=
  { ports := Vector.replicate 8 Port.empty, jobs := [], serial := 0, arrays := Vector.replicate 2 BArray.empty,
    limits := Vector.replicate 10 Limiter.empty, wwin := 0, allow := 0, used := 0, picos := 0, total := 0,
    held := false, window := 0, dead := [], served := [], asks := [], granted := [] }

/-- A branch table entry (Table 14-4). -/
structure Branch where
  st : Nat
  ran : Bool
  parent : Nat
  nch : Nat
  act : Nat
  barph : BitVec 16
  /-- address of the tree-bound barrier the branch is a member of (BV, BARO) -/
  bar : Option Nat
  len : Nat
  head : Nat
  depth : Nat
  /-- the branch roots this tree-bound barrier (R320) -/
  rootOf : Option Nat
  deriving DecidableEq, Repr

def Branch.free : Branch :=
  { st := 0, ran := false, parent := 0, nch := 0, act := 0, barph := 0, bar := none, len := 0, head := 0, depth := 0,
    rootOf := none }

/-- A chunk of a page list (Table 14-5), by its address. -/
structure Chunk where
  ref : Nat
  prev : Nat
  ptrs : List Nat
  deriving DecidableEq, Repr

/-- A frame of the page pool (R359). `held` is plain `alloc`'s claim. -/
structure Frame where
  fref : Nat
  held : Bool
  deriving DecidableEq, Repr

/-- A handler entry (R366). -/
structure Handler where
  ip : Word
  prio : Nat
  valid : Bool
  version : BitVec 16
  deriving DecidableEq, Repr

def Handler.empty : Handler := { ip := 0, prio := 0, valid := false, version := 0 }

/-- A trigger slot (R367, R378): kind 0 address, 1 port. -/
structure Trig where
  arm : Bool
  port : Option (Nat × Nat)
  lo : Nat
  hi : Nat
  handler : Nat
  pend : Bool
  count : Nat
  /-- mailbox entry of the message that is waiting -/
  mail : Option Nat
  deriving DecidableEq, Repr

def Trig.empty : Trig :=
  { arm := false, port := none, lo := 0, hi := 0, handler := 0, pend := false, count := 0, mail := none }

/-- A mailbox entry in use (R365, R366): a message held without a handler, or one whose task is queued. -/
structure Mail where
  entry : Nat
  handler : Nat
  sender : Nat
  w0 : Word
  w1 : Word
  held : Bool
  deriving DecidableEq, Repr

/-- States of a context (Table 14-3). -/
inductive CtxState where
  | resident | swapped | suspended | dying
  deriving DecidableEq, Repr

/-- A home watch entry (R393): physical 16-byte line, mask, region and plane. -/
structure HomeWatch where
  line : Nat
  mask : BitVec 16
  plane : Nat
  n : Nat
  deriving DecidableEq, Repr

/-- The record of a slot's last image (R398). -/
structure SlotRec where
  imgid : Nat
  addr : Nat
  deriving DecidableEq, Repr

/-- One context (R25, R355 to R367, R398, R405). -/
structure Ctx where
  /-- the model's own: no two contexts since reset have the same -/
  uid : Nat
  vf : Nat
  key : Nat
  state : CtxState
  ptRoot : Nat
  fpc : Lane
  kvw : Word
  pwin : Word
  ctxres : Word
  nbr : Nat
  area : Nat
  areaKind : BitVec 3
  chunkCount : Nat
  poolFrames : Nat
  /-- physical frame of page pool frame 0 and the pool's memory kind -/
  poolBase : Nat
  poolKind : BitVec 3
  branches : Tab Branch
  chunks : Tab Chunk
  frames : Tab Frame
  handlers : Tab Handler
  mail : List Mail
  mailClosed : Bool
  trigs : Vector Trig 16
  sealid : Nat
  slots : Tab SlotRec
  partition : Nat
  /-- marked branches whose resources the walker has not freed (R362) -/
  marked : List Nat
  deriving DecidableEq, Repr

/-- What a pre-emption image seals (R396 to R399): its header's fields, the SEALID of each sector, and the state of
the context on the region, which the model keeps beside the bytes in memory (log 39). -/
structure SavedImage where
  uid : Nat
  imgid : Nat
  baseid : Nat
  ctx : Nat
  key : Nat
  plane : Nat
  slot : Nat
  frozen : Bool
  inc : Bool
  seals : List Nat
  region : Nat
  pl : Plane
  /-- the plane's block instance, whose events have not issued when it is frozen -/
  agent : AgentSt
  sides : List (Nat × Bool × Side)
  jobs : List Job
  arrays : List (Nat × BArray)
  /-- FPC and CTXRES of the SYS group (R80, R405) -/
  fpc : Lane
  ctxres : Word
  seq : Option Seq
  deriving DecidableEq, Repr

/-- A queued task descriptor (R351, R369). -/
structure Desc where
  ip : Word
  lrec : Word
  cword : Word
  branch : Option Nat
  prio : Nat
  ctx : Nat
  /-- levels at region domain or wider, innermost first: domain and count -/
  levels : List (Nat × Nat)
  time : Nat
  mail : Option Nat
  /-- the task whose first instances have started, while others still wait (R28) -/
  task : Option Nat
  deriving DecidableEq, Repr

structure TaskQueue where
  enabled : Bool
  plo : Nat
  phi : Nat
  descs : List Desc
  /-- tasks of messages that wait in their mailbox for room in the queue (R350, R365) -/
  late : List Desc
  deriving DecidableEq, Repr

def TaskQueue.empty : TaskQueue := { enabled := false, plo := 0, phi := 0, descs := [], late := [] }

/-- A task that has started (R352, R353). -/
structure Task where
  desc : Desc
  /-- the number of its instances that have started, and of those that run -/
  started : Nat
  live : Nat
  /-- the task has no instance left to start: all have started, or the others were dropped -/
  closed : Bool
  deriving DecidableEq, Repr

/-- The dispatcher of a partition (R32, R33). -/
structure Dispatcher where
  decisions : Nat
  lastVf : Vector Nat 8
  /-- branches whose marking has reached the dispatcher (R362) -/
  dead : List (Nat × Nat)
  deriving DecidableEq, Repr

def Dispatcher.empty : Dispatcher := { decisions := 0, lastVf := Vector.replicate 8 255, dead := [] }

inductive VdState where
  | running | paused | evicted
  deriving DecidableEq, Repr

/-- A window of a policy (Table 16-6). -/
structure PolWin where
  va : Nat
  size : Nat
  kind : Nat
  r : Bool
  w : Bool
  mapped : Bool
  /-- ARG1 of the MAP_WINDOW that has mapped it -/
  start : Nat
  deriving DecidableEq, Repr

/-- A virtual device (R411, R417 to R430). -/
structure Vd where
  state : VdState
  handle : Word
  policy : List Byte
  cmdmask : Word
  plo : Nat
  phi : Nat
  rmin : Nat
  rmax : Nat
  chmax : Nat
  nctx : Nat
  nnot : Nat
  nrate : Nat
  nva : Nat
  nhash : Nat
  wins : List PolWin
  regions : List Nat
  channels : List Nat
  /-- counts that RESTORE will grant (R422) -/
  share : Nat × Nat
  partition : Nat
  firstCtx : Nat
  ctxs : List Nat
  cnt : Vector (BitVec 16) 8
  admitted : Nat
  rejected : Nat
  /-- the 1 µs window of the last admitted write, and the writes admitted in it (R428) -/
  window : Nat
  inWindow : Nat
  /-- physical frames of its channels that the Arbiter has taken for it, and those that hold CODE windows (R421, R423) -/
  frames : List Nat
  codeFrames : List Nat
  /-- images that RESTORE loads: region, plane, place in `saved`, address -/
  images : List (Nat × Nat × Nat × Nat)
  /-- regions that EVICT or SET_SHARE is vacating, and contexts whose branch area lay in base SRAM before EVICT (R421) -/
  leaving : List Nat
  moved : List Nat
  /-- frames taken for the images that EVICT or SET_SHARE has still to write, and the number of the free choices by which it
  moves the pages at its end (log 46) -/
  reserve : List Nat
  plan : Nat
  ss : List Byte
  deriving DecidableEq, Repr

/-- PF BAR0, PF BAR2 and the boot state (Table 16-3, R464, R465). -/
structure HostRegs where
  crbase : Word
  crcfg : Word
  crtail : Word
  crhead : Word
  cpbase : Word
  cptail : Word
  cphead : Word
  bootst : Word
  rst : Word
  caprg0 : Word
  caprg1 : Word
  capch : Word
  capak : Word
  image : Tab Byte
  fwhash : List Byte
  /-- what the last HDM read has returned -/
  hdm : List Byte
  /-- the packet of the command that the Arbiter has begun and not completed (R414) -/
  command : Option (List Byte)
  deriving DecidableEq, Repr

def HostRegs.reset : HostRegs :=
  { crbase := 0, crcfg := 0, crtail := 0, crhead := 0, cpbase := 0, cptail := 0, cphead := 0, bootst := 0, rst := 1,
    caprg0 := 0, caprg1 := 0, capch := 0, capak := 0, image := [], fwhash := [], hdm := [], command := none }

/-- Whose turn it is (log 1). -/
inductive Turn where
  | sequencer (q : Nat)
  /-- a sequencer fetches the word at an address ahead of its use (R239) -/
  | prefetch (q address : Nat)
  | node (region plane slot : Nat)
  | happening (i : Instr)
  /-- the service code of a board's root core maps, at a 64 KiB page of its own, the page of a context that holds an address,
  or lets a page go (R458, log 9) -/
  | rootMap (board page ctx va : Nat)
  | rootUnmap (board page : Nat)
  /-- n cycles pass -/
  | elapse (n : Nat)
  deriving DecidableEq, Repr, Inhabited

/-- The agent whose instruction is being executed. -/
inductive Actor where
  | sequencer (q : Nat)
  | node (region plane slot : Nat)
  | device
  deriving DecidableEq, Repr

end Sys2Proof.Machine
end

