-- ==== Sys2Proof/Machine/Graph.lean ====
section
/-!
DEFINITION. The header of a block and its graph: the links that its words name, the slots of its instructions, and the slots
that tokens can pass between (R38, R43, R50 to R52).
-/

namespace Sys2Proof.Machine

/-! ### The header (Table 2-1, Table 2-2) -/

namespace Head128
def hver (h : BitVec 128) : BitVec 4 := bits h 124 4
/-- The number of instructions, NINS + 1. -/
def count (h : BitVec 128) : Nat := (bits h 117 7).toNat + 1
def nin (h : BitVec 128) : Nat := (bits h 113 4).toNat
def nout (h : BitVec 128) : Nat := (bits h 109 4).toNat
def shape (h : BitVec 128) : Nat := (bits h 105 4).toNat
def pool (h : BitVec 128) : Nat := (bits h 97 8).toNat
def priv (h : BitVec 128) : Bool := bitAt h 96
def ras (h : BitVec 128) : Bool := bitAt h 95
def memn (h : BitVec 128) : Bool := bitAt h 94
def bap (h : BitVec 128) : Bool := bitAt h 93
def strg (h : BitVec 128) : Bool := bitAt h 92
/-- A reserved bit is set, of the header or of FLAGS. -/
def reserved (h : BitVec 128) : Bool := bits h 80 9 != 0 || bits h 89 3 != 0
/-- Successor i, in units of 16 bytes (R39). -/
def succ (h : BitVec 128) (i : Nat) : Int := (bits h (20 * i) 20).toInt
end Head128

/-! ### The graph of a block (R43, R51) -/

/-- A memory instruction (R50). -/
def isMemoryWord (w : Word) : Bool := 0x80 ≤ fabricOpc w && fabricOpc w ≤ 0x9F

/-- A link of a block's graph, by the indices of its ends. -/
structure GLink where
  src : Nat
  out : Nat
  dst : Nat
  opd : Slot
  depth : BitVec 3
  deriving DecidableEq, Repr

/-- The kind-01 links that a word names, whatever else is wrong with it (log 21). -/
def wordLinks (n : Nat) (i : Nat) (w : Word) : List GLink :=
  let mk (out : Nat) (t : BitVec 11) (d : BitVec 3) : List GLink :=
    match decodeTarget t with
    | some (.operand j o) => if j.toNat < n then [{ src := i, out, dst := j.toNat, opd := o, depth := d }] else []
    | _ => []
  mk 0 (bits w 35 11) (bits w 21 3) ++ mk 1 (bits w 24 11) (bits w 18 3) ++
    (if fabricOpc w = 0x03 then mk 2 (bits w 0 11) (bits w 11 3) else [])

/-- The words with their indices. -/
def indexed {β : Type} (l : List β) : List (Nat × β) := (List.range l.length).zip l

/-- Slot of instruction i: its placement byte, 256 more on an M-square, and 512 more in the fused partner (R51, R52). -/
def slotOf (head : BitVec 128) (i : Nat) (w : Word) (p : Byte) : Nat :=
  p.toNat + (if isMemoryWord w then 256 else 0) + (if Head128.shape head = 1 && 64 ≤ i then 512 else 0)

/-- Slots of a block's instructions, by index. -/
def blockSlots (head : BitVec 128) (ws : List Word) (place : List Byte) : List Nat :=
  (indexed (ws.zip place)).map fun e => slotOf head e.1 e.2.1 e.2.2

/-- A memory slot. -/
def isMemorySlot (slot : Nat) : Bool := 256 ≤ slot % 512

/-- Pairs of slots of an instance between which tokens can pass: over a link, or through the steering router, where what
enters a group at `pips.ent` or `sret` can leave it at `sroute` and `pips.out` (R287). -/
def Inst.edges (i : Inst) : List (Nat × Nat) :=
  let slots := blockSlots i.head i.words i.place
  let at_ (opcs : List Nat) : List Nat := ((slots.zip i.words).filter fun x => opcs.contains (fabricOpc x.2)).map Prod.fst
  let links := (indexed i.words).flatMap fun e => (wordLinks i.words.length e.1 e.2).filterMap fun g =>
    match slots[g.src]?, slots[g.dst]? with
    | some x, some y => some (x, y)
    | _, _ => none
  links ++ (at_ [0xB1, 0xB2]).flatMap fun x => (at_ [0xB0, 0xB2]).map fun y => (x, y)

/-- Slots from which some slots of a list can be reached over pairs. -/
def upstream (edges : List (Nat × Nat)) : Nat → List Nat → List Nat
  | 0, l => l
  | fuel + 1, l =>
    let more := edges.foldl (fun l e => if l.contains e.2 && !l.contains e.1 then l ++ [e.1] else l) l
    if more.length = l.length then l else upstream edges fuel more

/-- Slots of an instance from which tokens can reach a slot, and those that they can reach from it; the slot among them. -/
def Inst.reaching (i : Inst) (slot : Nat) : List Nat := upstream i.edges i.edges.length [slot]
def Inst.reached (i : Inst) (slot : Nat) : List Nat :=
  upstream (i.edges.map fun e => (e.2, e.1)) i.edges.length [slot]

end Sys2Proof.Machine
end

