-- ==== Sys2Proof/Config.lean ====
section
/-!
DEFINITION. What an implementation fixes and what the spec leaves open. Every constant here is opaque: it has no body,
so nothing can be proved of its values, and a theorem about the machine holds whatever they are.
-/

namespace Sys2Proof.Config

open Sys2Proof.Machine

/-- The agent that moves next when the agenda is empty, for the n-th such turn (log 1). -/
opaque choice : Nat → Turn

/-- A value that the spec leaves open, for the n-th such value (log 3). -/
opaque freeWord : Nat → Word

/-- A byte that the spec leaves open, for the n-th such byte (log 3). -/
opaque freeByte : Nat → Byte

/-- A choice among equals that the spec leaves open: which free chunk, frame, cached entry or resource is taken
(R356, R375, R197), as a number to be reduced modulo the number of candidates (log 3). -/
opaque freeIndex : Nat → Nat

/-- Which of the two inputs `mrg.any` takes when both hold a token (R118, R91). -/
opaque mergeFirst : Nat → Bool

/-- The cipher of handles under the Arbiter's key (R412). -/
opaque handleCipher : Equiv.Perm Word

/-- First-level page table, branch area, pool and queue placement that the operating service code gives the n-th
context (R356, R358, log 8): the field f of context n. -/
opaque ctxField : Nat → Nat → Nat

/-- Where a context's mailbox stands in its virtual addresses, in units of its 524,288 bytes: R365 gives a message's task the
virtual address of its entry, and no rule says where that is (log 32). -/
opaque mailPlace : Nat → Nat

/-- Where the operating service code of a board's root core begins once bring-up is complete (R464, log 51). -/
opaque serviceEntry : Nat → Word

/-- Regions whose silicon works, a bit each (R465). -/
opaque regionsPresent : BitVec 128

/-- Where the HDM window lies in GDDR7, as a number of 64 KiB frames (R409). -/
opaque hdmFrame : Nat

/-- The Aknan port by which a 64 KiB frame of another module's memory is reached, modulo 24 (R244, log 127). -/
opaque aknanPort : Nat → Nat

/-- SHA3-512 digest. -/
opaque sha3 : List Byte → List Byte

/-- ML-DSA-87: whether a signature verifies for a message under a public key. -/
opaque mldsaVerify : List Byte → List Byte → List Byte → Bool

/-- ML-DSA-87 signature by the device identity key (R425). -/
opaque mldsaSign : List Byte → List Byte

/-- ML-KEM-1024 decapsulation by the device key (R425). -/
opaque mlkemDecap : List Byte → List Byte

/-- 96 bytes of SHAKE256 (R425). -/
opaque shake256 : List Byte → List Byte

/-- The device's public keys: identity (R425) and ML-KEM. -/
opaque idpk : List Byte
opaque kempk : List Byte

/-- AES-256-XTS of one 64-byte block under a key and a tweak (R427); its inverse deciphers. -/
opaque xts : List Byte → Nat → Equiv.Perm (BitVec 512)

/-- AES-256-GCM opened: key, nonce, additional data, text and tag (R423). -/
opaque gcmOpen : List Byte → List Byte → List Byte → List Byte → List Byte → Option (List Byte)

/-- The vendor's key in ROM (R464). -/
opaque vendorKey : List Byte

/-- The ordering kind that MAP_WINDOW gives its leaves, modulo 3 (R423, log 49). -/
opaque windowOrd : Nat

/-- The allowance that the power manager grants a region for window n (R460): a number of nanojoules above the
minimum of 8,192. -/
opaque grant : Nat → Nat → Nat

/-- Ciphertext byte i of sector k of a pre-emption image of a context under a SEALID, and byte i of the sector's GCM tag;
the header's is that of k = 0xFFFF (R397, R398, log 39). -/
opaque sealedByte : Nat → Nat → Nat → Nat → Byte
opaque sealTag : Nat → Nat → Nat → Nat → Byte

/-- Whether sector k of a dirty group holds a dirty line, for the image of a context under a SEALID: the layout within
the group is private (R397, R399, log 40). -/
opaque sectorDirty : Nat → Nat → Nat → Bool

end Sys2Proof.Config
end

