-- ==== Sys2Proof/Machine/Space.lean ====
section
/-!
DEFINITION. The physical space (Table 1-1, R11, R16, R35, log 6): which memory holds a byte, the M-square that owns it and
the home unit that performs its atomic updates (R309).
-/

namespace Sys2Proof.Machine

/-! Sizes of the memories (Table 1-1), and where each begins in the model's one space of keys (log 6). -/

/-- SRAM of one M-square, and its base SRAM slice. -/
def squareBytes : Nat := 2 ^ 17
def sliceBytes : Nat := 2 ^ 20
/-- One of a board's eight GDDR7 channels. -/
def channelBytes : Nat := 2 ^ 33
/-- M-squares and GDDR7 channels of the module. -/
def squareCount : Nat := 4096
def channelCount : Nat := 32
/-- The weight SRAM of one region: 2 arrays of 64 columns of 64 KiB. -/
def weightBytes : Nat := 2 ^ 23

def sliceStart : Nat := 2 ^ 32
def gddrStart : Nat := 2 ^ 38
def weightStart : Nat := 2 ^ 49
def remoteStart : Nat := 2 ^ 50
def hostStart : Nat := 2 ^ 64

/-- The memory that holds a byte: an M-square's SRAM or its slice (by the module-wide number of the square, 32 × region +
square index), a GDDR7 channel, a region's weight SRAM, another module's memory or the host's. -/
inductive Store where
  | square (m : Nat)
  | slice (m : Nat)
  | gddr (channel : Nat)
  | weight (region : Nat)
  | remote
  | host
  deriving DecidableEq, Repr

/-- The memory that holds a key; none where no memory does. -/
def storeOf (key : Nat) : Option Store :=
  if key < squareCount * squareBytes then some (.square (key / squareBytes))
  else if key < sliceStart then none
  else if key < sliceStart + squareCount * sliceBytes then some (.slice ((key - sliceStart) / sliceBytes))
  else if key < gddrStart then none
  else if key < gddrStart + channelCount * channelBytes then some (.gddr ((key - gddrStart) / channelBytes))
  else if key < weightStart then none
  else if key < weightStart + 128 * weightBytes then some (.weight ((key - weightStart) / weightBytes))
  else if key < remoteStart then none
  else if key < remoteStart + 2 ^ 48 then some .remote
  else if key < hostStart then none
  else if key < hostStart + 2 ^ 64 then some .host
  else none

/-- The M-square that owns a byte of M-square SRAM or base SRAM: exactly one (R11). -/
def ownerOf (key : Nat) : Option Nat :=
  match storeOf key with
  | some (.square m) => some m
  | some (.slice m) => some m
  | _ => none

/-- The region of an M-square. -/
def squareRegion (m : Nat) : Nat := m / 32

/-- The GDDR7 channel of a byte. -/
def channelOf (key : Nat) : Option Nat :=
  match storeOf key with
  | some (.gddr c) => some c
  | _ => none

/-- A home unit (R309): an M-square's, a channel's, or one of another module. -/
inductive Home where
  | square (m : Nat)
  | channel (c : Nat)
  | remote
  deriving DecidableEq, Repr

/-- The home unit of a byte (R309): none in host memory and in weight SRAM. -/
def homeOf (key : Nat) : Option Home :=
  match storeOf key with
  | some (.square m) => some (.square m)
  | some (.slice m) => some (.square m)
  | some (.gddr c) => some (.channel c)
  | some .remote => some .remote
  | _ => none

/-- The board on which a home unit stands. -/
def Home.board : Home → Option Nat
  | .square m => some (m / 1024)
  | .channel c => some (c / 8)
  | .remote => none

/-- The region whose M-square SRAM holds a byte, or whose slices do. -/
def squareRegionOf (key : Nat) : Option Nat :=
  match storeOf key with
  | some (.square m) => some (squareRegion m)
  | _ => none
def sliceRegionOf (key : Nat) : Option Nat :=
  match storeOf key with
  | some (.slice m) => some (squareRegion m)
  | _ => none

/-- Device physical address of the HDM window (R408, R409): 64 GiB of GDDR7 at a multiple of 64 KiB, fixed at boot. -/
def hdmBase : Nat := gddrStart + 2 ^ 16 * (Config.hdmFrame % (3 * 2 ^ 20 + 1))

/-- The handle of VD k with generation count n (R412): the pair enciphered, and never 0. -/
def handleOf (k n : Nat) : Word :=
  let x := Config.handleCipher (BitVec.ofNat 32 n ++ (0 : BitVec 24) ++ BitVec.ofNat 8 k)
  if x = 0 then Config.handleCipher 0 else x

end Sys2Proof.Machine
end

