-- ==== Sys2Proof/Machine/State.lean ====
section
/-!
DEFINITION. The state of the module, the reasons for which a step can stop, and the state after reset.
-/

namespace Sys2Proof.Machine

/-- The state of the module: all that the spec gives it, and five fields of the model's own at the end. -/
structure State where
  /-- sequencers: 0 to 127 the regions', 128 + b the root core of board b (R329, R382) -/
  seqs : Tab Seq
  regions : Tab Region
  /-- planes, by region * 4 + plane (R25) -/
  planes : Tab Plane
  /-- contexts, by CTXID (R355) -/
  ctxs : Tab Ctx
  /-- memory, by physical key: the device's physical address, weight slices from 2^49, other modules' memory from 2^50, host
  memory from 2^64 (log 6) -/
  mem : Memory
  /-- agents of the abstract machine, by key (R225) -/
  agents : Tab AgentSt
  /-- translation caches, by requester, and the boards' translation units (R197) -/
  tlbs : Tab (List Cached)
  units : Tab (List Cached)
  /-- pages that the service code of a root core has mapped into its own address space, by root core, then by 64 KiB page: the
  leaf of each (R458, log 9) -/
  rootPages : Tab (Tab Word)
  walks : List Walk
  watches : List HomeWatch
  /-- task queues, by virtual function (R350) -/
  queues : Tab TaskQueue
  /-- dispatchers, by partition (R32) -/
  disps : Tab Dispatcher
  tasks : Tab Task
  taskSerial : Nat
  /-- contexts for which a swap-in request has gone to the module root core (R352) -/
  swapReqs : List Nat
  /-- pre-emption images written since reset (log 39), and those that a `save` is writing, by plane (R399) -/
  saved : List SavedImage
  imaging : Tab SavedImage
  vds : Tab Vd
  vdGen : Nat
  host : HostRegs
  powered : Bool
  /-- throttled boards (R463) -/
  hot : List Nat
  /-- Aknan ports that are up (R464) -/
  aknan : List Nat
  /-- cycles since reset (R404, R454) -/
  cycle : Nat
  /-- the model's own: turns still to be taken, and the agent whose turn it is (log 1) -/
  agenda : List Turn
  actor : Actor
  /-- counters of the free choices and the free values, and the next event or record identity (logs 3, 5) -/
  turns : Nat
  frees : Nat
  nextId : Nat
  deriving DecidableEq, Repr

/-- Reasons for which the machine stops with a fault. -/
inductive Fault where
  /-- raised by a host access outside the 64 GiB HDM window (R408, R409), and by an access of an agent to a physical
  address that no memory holds (Table 1-1, log 6): no such byte exists. Safe: the spec gives such an access no effect. -/
  | absent (address : Nat)
  deriving DecidableEq, Repr

/-- Reasons for which an instruction is given no meaning. -/
inductive Refusal where
  /-- raised by an instruction whose meaning has not been written yet. Safe: nothing can be proved of it. -/
  | notModelled (mnemonic : String)
  /-- raised by an instruction handed to `exec` in a state whose actor is no agent of its kind (a fabric instruction
  outside a node's turn, a sequencer instruction outside a sequencer's). `step` never does so. Safe. -/
  | notItsAgent
  deriving DecidableEq, Repr

/-- Memory as it is before anything is written: no byte listed, every tag 0x0000 (R76, log 4). -/
def Memory.reset : Memory := { cells := [], tags := [], recent := [] }

/-- The machine right after reset: every register at its reset value, no context, no task, no virtual device. -/
def State.reset : State :=
  { seqs := [], regions := [], planes := [], ctxs := [], mem := Memory.reset, agents := [], tlbs := [], units := [],
    rootPages := [], walks := [], watches := [], queues := [], disps := [], tasks := [], taskSerial := 0,
    swapReqs := [], saved := [], imaging := [], vds := [], vdGen := 0, host := HostRegs.reset, powered := true, hot := [], aknan := [], cycle := 0,
    agenda := [], actor := .sequencer 128, turns := 0, frees := 0, nextId := 1 }

end Sys2Proof.Machine
end

