-- ==== Sys2Proof/Machine/Ops.lean ====
section
/-!
DEFINITION. The named operations over the state: accessors, registers, memory bytes, the abstract machine of R225 to
R235, translation (R197 to R201, R360), taking a trap and returning from one (R383, R385), fault tokens and energy.
-/

namespace Sys2Proof.Machine

/-! ### Accessors -/

def State.seq (s : State) (q : Nat) : Seq := Tab.getD s.seqs q (Seq.reset q)
def State.setSeq (s : State) (q : Nat) (v : Seq) : State := { s with seqs := Tab.put s.seqs q v }
def State.region (s : State) (r : Nat) : Region := Tab.getD s.regions r Region.empty
def State.setRegion (s : State) (r : Nat) (v : Region) : State := { s with regions := Tab.put s.regions r v }
def State.plane (s : State) (k : Nat) : Plane := Tab.getD s.planes k Plane.empty
def State.setPlane (s : State) (k : Nat) (v : Plane) : State := { s with planes := Tab.put s.planes k v }
def State.agent (s : State) (a : Nat) : AgentSt := Tab.getD s.agents a AgentSt.empty
def State.setAgent (s : State) (a : Nat) (v : AgentSt) : State := { s with agents := Tab.put s.agents a v }
def State.ctx? (s : State) (c : Nat) : Option Ctx := Tab.find? s.ctxs c
def State.setCtx (s : State) (c : Nat) (v : Ctx) : State := { s with ctxs := Tab.put s.ctxs c v }

/-- A plane fires nothing: it is frozen (R386), or at rest while its image is written (R396). -/
def Plane.stopped (pl : Plane) : Bool := pl.frozen != .none || pl.atRest

/-- The number of a plane of a region. -/
def planeKey (region plane : Nat) : Nat := 4 * region + plane

/-- Board of a sequencer: of its region, or of its root core. -/
def boardOfSeq (q : Nat) : Nat := if q < 128 then q / 32 else q - 128

/-- A board's root core; board 0's is the module root core (R10). -/
def rootOf (board : Nat) : Nat := 128 + board

/-- Whether a sequencer is a root core (R382). -/
def isRoot (q : Nat) : Bool := 128 ≤ q

/-- The plane in which the sequencer's current user context sits, as a plane number. -/
def State.planeOf (s : State) (q : Nat) : Option Nat := (s.seq q).plane.map (planeKey q)

/-- The sequencer's current user context. -/
def State.ctxOf (s : State) (q : Nat) : Option Nat := (s.planeOf q).bind fun k => (s.plane k).ctx

/-- A context's SYS registers on a plane: its sequencer's while it runs the context, else the plane's own (R386). -/
def State.sysOf (s : State) (k : Nat) : SysRegs :=
  if s.planeOf (k / 4) = some k then (s.seq (k / 4)).sysRegs else (s.plane k).sys

/-! ### Sequencer registers (R329, R330, R331, R382) -/

/-- The register bank in force: user, or privileged (R382). -/
def Seq.regs (v : Seq) : Vector Word 32 := if v.priv then v.bank else v.user

/-- Register r; s0 reads 0 in both banks (R329, R382). -/
def Seq.read (v : Seq) (r : SReg) : Word := if r = 0 then 0 else vget v.regs r.toNat 0

/-- Register r of a named bank written; a write to s0 has no effect (R329). -/
def Seq.writeBank (v : Seq) (priv : Bool) (r : SReg) (x : Word) : Seq :=
  if r = 0 then v
  else if priv then { v with bank := vput v.bank r.toNat x } else { v with user := vput v.user r.toNat x }

/-- Register r of the bank in force written. -/
def Seq.write (v : Seq) (r : SReg) (x : Word) : Seq := v.writeBank v.priv r x

/-- Armed registers of the bank in force (R331). -/
def Seq.armed (v : Seq) (r : SReg) : Bool := r != 0 && bitAt (if v.priv then v.armedP else v.armedU) r.toNat

/-- Outstanding destinations of the bank in force (R330). -/
def Seq.outstanding (v : Seq) (r : SReg) : Bool := r != 0 && bitAt (if v.priv then v.outP else v.outU) r.toNat

/-- A register that an instruction can read or write now: neither outstanding nor armed (R330, R331). -/
def Seq.ready (v : Seq) (r : SReg) : Bool := !v.armed r && !v.outstanding r

def setBit {n : Nat} (x : BitVec n) (i : Nat) (b : Bool) : BitVec n :=
  if b then x ||| (1#n <<< i) else x &&& ~~~(1#n <<< i)

/-- Marks register r of a bank outstanding, or no longer so. -/
def Seq.setOut (v : Seq) (priv : Bool) (r : SReg) (b : Bool) : Seq :=
  if r = 0 then v
  else if priv then { v with outP := setBit v.outP r.toNat b } else { v with outU := setBit v.outU r.toNat b }

/-- Arms or disarms register r of a bank (R331). -/
def Seq.setArmed (v : Seq) (priv : Bool) (r : SReg) (b : Bool) : Seq :=
  if r = 0 then v
  else if priv then { v with armedP := setBit v.armedP r.toNat b }
  else { v with armedU := setBit v.armedU r.toNat b }

/-! ### Memory bytes in canonical form -/

/-- What a byte reads as that nothing has written (R419, R464; elsewhere log 4). -/
def blankByte : Byte := 0

/-- The byte at a key. -/
def cellRead : List Host.Cell → Nat → Byte
  | [], _ => blankByte
  | (k, v) :: rest, a => if k = a then v else if a < k then blankByte else cellRead rest a

/-- The cells with the byte at a key written; an entry that would read as an unlisted byte is removed. -/
def cellWrite : List Host.Cell → Nat → Byte → List Host.Cell
  | [], a, v => if v = blankByte then [] else [(a, v)]
  | (k, w) :: rest, a, v =>
    if k = a then (if v = blankByte then rest else (a, v) :: rest)
    else if a < k then (if v = blankByte then (k, w) :: rest else (a, v) :: (k, w) :: rest)
    else (k, w) :: cellWrite rest a v

/-- Keys strictly rising above a bound, and no entry equal to what an unlisted byte reads as. -/
def cellsOk : Option Nat → List Host.Cell → Bool
  | _, [] => true
  | none, (k, v) :: rest => v != blankByte && cellsOk (some k) rest
  | some b, (k, v) :: rest => decide (b < k) && v != blankByte && cellsOk (some k) rest

/-- Memory is in canonical form. -/
def Memory.wf (m : Memory) : Bool := cellsOk none m.cells

/-- The cells with a list of bytes written. -/
def cellsWrite (c : List Host.Cell) (l : List (Nat × Byte)) : List Host.Cell :=
  l.foldl (fun acc e => cellWrite acc e.1 e.2) c

/-! ### Scopes and visibility (R222, R223, R229) -/

/-- Narrowest scope level N(a) of an agent (Table 9-1). -/
def narrowest : Agent → Nat
  | .block .. => 0
  | .seq q => if q < 128 then 1 else 2
  | .job .. => 1
  | .host _ => 5
  | .gone _ l _ => l

/-- Region of an agent, if it has one. -/
def agentRegion : Agent → Option Nat
  | .seq q => if q < 128 then some q else none
  | .block r _ => some r
  | .job r _ => some r
  | .host _ => none
  | .gone r _ _ => some r

/-- Board of an agent, if it has one. -/
def agentBoard : Agent → Option Nat
  | .seq q => some (boardOfSeq q)
  | .block r _ => some (r / 32)
  | .job r _ => some (r / 32)
  | .host _ => none
  | .gone r _ _ => some (r / 32)

/-- Level of Join(a, b): the narrowest instance that contains both (R223). -/
def joinLevel (a b : Agent) : Nat :=
  if a = b then narrowest a
  else
    match agentBoard a, agentBoard b with
    | some x, some y =>
      if x = y then
        match agentRegion a, agentRegion b with
        | some r, some t => if r = t then 1 else 2
        | _, _ => 2
      else 3
    | _, _ => 5

/-- A committed write is visible to an agent when it is in V(Join) (R229). -/
def visibleTo (a : Agent) (w : MWrite) : Bool := joinLevel (Agent.ofKey w.org) a ≤ w.level

/-- The value that a write gives a key, if it covers it. -/
def MWrite.at? (w : MWrite) (key : Nat) : Option Byte :=
  match w.cells with
  | [] => none
  | cs => (cs.find? fun e => e.1 = key).map Prod.snd

/-- The last write in co of a key, whoever can see it: what an RMW or a nibble write reads (R226, R232). -/
def Memory.coLast (m : Memory) (key : Nat) : Byte :=
  m.recent.foldl (fun v w => (w.at? key).getD v) (cellRead m.cells key)

/-- The last write in co of a key that is visible to an agent (R229). -/
def Memory.coVisible (m : Memory) (a : Agent) (key : Nat) : Byte :=
  m.recent.foldl (fun v w => if visibleTo a w then (w.at? key).getD v else v) (cellRead m.cells key)

/-- A byte under a masked write. -/
def maskByte (old new mask : Byte) : Byte := (old &&& ~~~mask) ||| (new &&& mask)

/-- S2: the byte that a read by an agent takes now: of its newest buffered write, else of the last visible write. -/
def State.readByte (s : State) (a : Agent) (key : Nat) : Byte :=
  (s.agent a.key).buf.foldl
    (fun v e => match e.pieces.find? fun p => p.key = key with
      | some p => maskByte v p.value p.mask
      | none => v)
    (s.mem.coVisible a key)

/-- The tag of a block as an agent reads it (R68, R76). -/
def State.readTag (s : State) (a : Agent) (block : Nat) : BitVec 16 :=
  let base := s.mem.recent.foldl
    (fun v w => match w.tag with
      | some (b, t) => if b = block && visibleTo a w then t else v
      | none => v)
    (Tab.getD s.mem.tags block 0)
  (s.agent a.key).buf.foldl
    (fun v e => match e.tagWrite, e.pieces with
      | some t, p :: _ => if p.key / 64 = block then t else v
      | _, _ => v)
    base

/-- A number from bytes, lowest address first (R3). -/
def leNat : List Byte → Nat
  | [] => 0
  | b :: rest => b.toNat + 256 * leNat rest

/-- The n low bytes of a number, lowest first (R3). -/
def leBytes : Nat → Nat → List Byte
  | 0, _ => []
  | n + 1, v => BitVec.ofNat 8 v :: leBytes n (v / 256)

/-- Consecutive keys. -/
def keysFrom : Nat → Nat → List Nat
  | _, 0 => []
  | k, n + 1 => k :: keysFrom (k + 1) n

/-- The bytes that an agent reads now at n consecutive keys. -/
def State.readBytes (s : State) (a : Agent) (key n : Nat) : List Byte :=
  (keysFrom key n).map (s.readByte a)

/-- Writes that every agent can see leave the list of spreading writes, oldest first (R231). -/
def Memory.settle (cells : List Host.Cell) (tags : Tab (BitVec 16)) : List MWrite → Memory
  | [] => { cells, tags, recent := [] }
  | w :: rest =>
    if 5 ≤ w.level then
      Memory.settle (cellsWrite cells w.cells) (match w.tag with | some (b, t) => Tab.put tags b t | none => tags) rest
    else { cells, tags, recent := w :: rest }

/-- A write appended to co (R230, R232, R243). -/
def Memory.append (m : Memory) (w : MWrite) : Memory := Memory.settle m.cells m.tags (m.recent ++ [w])

/-- The settled form of memory after a change of the spreading writes. -/
def Memory.resettle (m : Memory) : Memory := Memory.settle m.cells m.tags m.recent

/-- Bytes written so that every agent sees them at once: what the device's own logic writes (R243, R272, R397). -/
def Memory.poke (m : Memory) (id : Nat) (l : List (Nat × Byte)) : Memory :=
  m.append { id, org := (Agent.host 0).key, cells := l, tag := none, level := 5, ord := .rc, plain := false }

/-- n bytes at consecutive keys, paired with their keys. -/
def keyed (key : Nat) (bs : List Byte) : List (Nat × Byte) := (keysFrom key bs.length).zip bs

/-! ### Program order and issue (R228, R234 to R240) -/

/-- Whether x comes before e in the program order of their agent (R186, R222). -/
def precedes (blk : Bool) (x e : Ev) : Bool := if blk then e.preds.contains x.id else x.id < e.id

def Ev.isRead (e : Ev) : Bool := e.kind == .read
def Ev.isWrite (e : Ev) : Bool := e.kind == .write
def Ev.isRmw (e : Ev) : Bool := match e.kind with | .rmw _ => true | _ => false
def Ev.isAccess (e : Ev) : Bool := e.isRead || e.isWrite || e.isRmw
/-- A plain read or write on a UN page (R235). -/
def Ev.isPlainUn (e : Ev) : Bool := (e.isRead || e.isWrite) && e.ord == .un && !e.acq && !e.rel

/-- Two events cover a common byte. The bytes of a parked access are known by their place in the page only. -/
def overlaps (x e : Ev) : Bool :=
  x.pieces.any fun p => e.pieces.any fun q =>
    if x.parked || e.parked then p.key % 2 ^ 16 = q.key % 2 ^ 16 else p.key = q.key

/-- An event meets the range of a `wbk` or `inv` (Table 9-2): at its addresses, or at the bytes under another address. -/
def rangesMeet (x e : Ev) : Bool := (x.ctx = e.ctx && x.va < e.va + e.size && e.va < x.va + x.size) || overlaps x e

/-- A fence of kind k holds a later event (Table 9-3, R235). -/
def fenceHolds (k : FenceKind) (e : Ev) : Bool :=
  !e.isPlainUn && match k with
    | .rel => e.isWrite || e.isRmw || e.kind == .wbk
    | _ => true

/-- An earlier event x that has not issued keeps e from issuing (Tables 9-2, 9-3, R240). -/
def unissuedBlocks (x e : Ev) : Bool :=
  let un := e.isPlainUn || x.isPlainUn
  (x.isAccess && e.isAccess && overlaps x e) ||
  ((x.isRead || x.isWrite) && (e.isRead || e.isWrite) && x.ord == .so && e.ord == .so) ||
  (x.acq && (x.isRead || x.isRmw) && !e.isPlainUn) ||
  (e.rel && (e.isWrite || e.isRmw) && !un) ||
  (x.isWrite && e.kind == .wbk && rangesMeet x e) ||
  (x.kind == .inv && e.isRead && e.ord == .un && rangesMeet x e) ||
  (match x.kind with | .fence k => fenceHolds k e | _ => false) ||
  (match e.kind with
    | .fence k =>
      x.isAccess || (match k with
        | .acq => false
        | _ => true)
    | _ => false)

/-- An earlier fence that itself still waits for an access to issue keeps later SO and RC accesses back (R240). -/
def fenceWaits (blk : Bool) (q : List Ev) (f e : Ev) : Bool :=
  (match f.kind with | .fence _ => true | _ => false) && e.isAccess && e.ord != .un &&
    q.any fun x => x.isAccess && precedes blk x f

/-- An earlier write x that has issued and not committed keeps e from issuing. -/
def bufferedBlocks (x e : Ev) : Bool :=
  ((e.isRead || e.isWrite) && x.ord == .so && e.ord == .so) ||
  (e.rel && (e.isWrite || e.isRmw) && !x.isPlainUn) ||
  (e.kind == .wbk && rangesMeet x e) ||
  (match e.kind with
    | .fence .acq => false
    | .fence _ => !x.isPlainUn
    | _ => false)

/-- An earlier RMW that has issued and not been performed keeps e from issuing. -/
def rmwBlocks (x e : Ev) : Bool :=
  (x.acq && !e.isPlainUn) || (e.rel && (e.isWrite || e.isRmw)) ||
  (match e.kind with | .fence _ => true | _ => false)

/-- An earlier write of the agent that is committed, but not yet in V(I_σ), keeps e from issuing. -/
def spreadingBlocks (w : MWrite) (e : Ev) : Bool :=
  w.level < e.scope.level &&
    ((e.rel && (e.isWrite || e.isRmw) && !w.plain) ||
     (e.kind == .wbk && (w.cells.any fun c => e.pieces.any fun p => p.key = c.1)) ||
     (match e.kind with
       | .fence .acq => false
       | .fence _ => !w.plain
       | _ => false))

/-- A block instance or a job ends: its writes that still spread, and what it has issued, belong to an agent of their own,
which orders nothing of the next instance or job in its place (R222). -/
def State.retire (s : State) (a : Nat) : State :=
  let g := s.agent a
  let k := (Agent.gone ((agentRegion (Agent.ofKey a)).getD 0) (narrowest (Agent.ofKey a)) s.nextId).key
  let rest := Tab.drop s.agents a
  { s with
    agents := if g.buf.isEmpty && g.rmws.isEmpty then rest
      else Tab.put rest k { AgentSt.empty with buf := g.buf, rmws := g.rmws }
    mem := { s.mem with recent := s.mem.recent.map fun w => if w.org = a then { w with org := k } else w }
    nextId := s.nextId + 1 }

def isBlockKey (a : Nat) : Bool := 0x1000 ≤ a && a < 0x2000

/-- The events that Tables 9-2 and 9-3 make e wait for are done (S1). -/
def State.orderAllows (s : State) (a : Nat) (e : Ev) : Bool :=
  let blk := isBlockKey a
  let g := s.agent a
  let before (id : Nat) : Bool := if blk then e.preds.contains id else id < e.id
  !(g.q.any fun x => precedes blk x e && (unissuedBlocks x e || fenceWaits blk g.q x e)) &&
  !(g.buf.any fun x => precedes blk x e && bufferedBlocks x e) &&
  !(g.rmws.any fun x => precedes blk x e && rmwBlocks x e) &&
  !(s.mem.recent.any fun w => w.org = a && before w.id && spreadingBlocks w e)

/-! ### Placing events (R69, R186) -/

/-- An event with the fields that most accesses leave at rest. -/
def Ev.blank : Ev :=
  { id := 0, kind := .read, va := 0, size := 0, pieces := [], base := 0, parked := false, ord := .rc, mkind := 0, large := false, acq := false,
    rel := false, scope := .blk, tagRead := false, tagWrite := none, dest := .none, ctx := 0, watched := false,
    req := 0,
    slot := 0, seqNo := 0, rids := [], pos := 0, mark := false, preds := [] }

/-- Whether event facts x precede an event directly under R186: the same record at a smaller SEQ, or an earlier
event of the same node. -/
def directly (x e : Past) : Bool :=
  x.id != e.id &&
    ((x.slot = e.slot && x.id < e.id) || (!x.mark && x.seqNo < e.seqNo && x.slot != e.slot && x.rids.any e.rids.contains))

def unionIds (a b : List Nat) : List Nat := b.foldl (fun l x => if l.contains x then l else l ++ [x]) a

/-- A record has come to a memory node, or can still come there from another node of the instance. -/
def Plane.comesTo (pl : Plane) (slot from_ rid : Nat) : Bool :=
  (match Tab.find? pl.nodes slot with | some n => n.seen.contains rid | none => false) ||
    (match pl.chain with | some c => (c.cur.reaching slot).contains from_ | none => false)

/-- A marker's fence comes before an event of another node whose record comes to the fence's node behind the marker
(R247, log 106). -/
def Plane.fenceBefore (pl : Plane) (f e : Past) : Bool :=
  f.mark && !e.mark && f.slot != e.slot && e.rids.any fun r => !f.rids.contains r && pl.comesTo f.slot e.slot r

/-- A FENCE marker's event at a node follows the events, at every node, of the records that came before it (R247); the
event of `fence.mk` those at nodes up to its own (R246). -/
def Plane.markerAfter (pl : Plane) (x f : Past) : Bool :=
  let atFence := match Tab.find? pl.nodes f.slot with | some n => bits n.word 56 8 == (0x90 : BitVec 8) | none => false
  f.mark && !x.mark && !atFence && x.id != f.id && x.rids.any f.rids.contains

/-- The order facts with a new event's added: its predecessors, and itself among those of the events it precedes.
`before` tells which events precede which directly. -/
def addPast (before : Past → Past → Bool) (past : List Past) (e : Past) : List Past × List Nat :=
  let preds := past.foldl (fun l x => if before x e then unionIds l (x.id :: x.preds) else l) []
  let me := { e with preds }
  let mine := e.id :: preds
  let follows (y : Past) : Bool := !preds.contains y.id && before me y
  let later := past.map fun x =>
    if follows x || (!preds.contains x.id && past.any fun y => follows y && x.preds.contains y.id)
    then { x with preds := unionIds x.preds mine } else x
  (later ++ [me], preds)

/-- The plane of a block instance's key. -/
def planeOfKey (a : Nat) : Nat := a - 0x1000

/-- Perform's first half: the event is placed in its agent's queue with a new identity (R69). -/
def State.place (s : State) (a : Nat) (e : Ev) : State :=
  let g := s.agent a
  let id := s.nextId
  if isBlockKey a then
    let pl := s.plane (planeOfKey a)
    let before (x y : Past) : Bool := directly x y || pl.markerAfter x y || pl.fenceBefore x y
    let (past, preds) := addPast before g.past { id, slot := e.slot, seqNo := e.seqNo, rids := e.rids, mark := e.mark, preds := [] }
    let fix (l : List Ev) : List Ev := l.map fun x =>
      match past.find? fun p => p.id = x.id with
      | some p => { x with preds := p.preds }
      | none => x
    { s.setAgent a { g with q := fix g.q ++ [{ e with id, preds }], buf := fix g.buf, rmws := fix g.rmws, past } with
      nextId := id + 1 }
  else { s.setAgent a { g with q := g.q ++ [{ e with id }] } with nextId := id + 1 }

/-! ### Translation (R197 to R201) -/

/-- The use an access makes of a page (R196, R201). -/
inductive Use where
  | read | write | fetch
  /-- `acpy` reads, `bwld` writes of weight SRAM (Table 8-6) -/
  | copyRead
  /-- an RMW at a home unit (R309) -/
  | atomic
  deriving DecidableEq, Repr

/-- A translation that has succeeded. -/
structure Phys where
  key : Nat
  leaf : Word
  deriving DecidableEq, Repr

inductive Xlat where
  | ok (p : Phys)
  | fault (c : Cause)
  /-- the access reads zeros and writes nothing (R360) -/
  | void
  /-- in no cache: a walk must complete first -/
  | miss
  /-- a write that must wait for its branch's path to be made private (R361) -/
  | copy
  deriving DecidableEq, Repr

namespace Leaf
def key (l : Word) : BitVec 8 := bits l 56 8
def mkind (l : Word) : BitVec 3 := bits l 53 3
def bsh (l : Word) : Bool := bitAt l 52
def cow (l : Word) : Bool := bitAt l 51
def ordc (l : Word) : BitVec 2 := bits l 49 2
def lg (l : Word) : Bool := bitAt l 48
def frame (l : Word) : Nat := (bits l 16 32).toNat
def x (l : Word) : Bool := bitAt l 3
def w (l : Word) : Bool := bitAt l 2
def r (l : Word) : Bool := bitAt l 1
def v (l : Word) : Bool := bitAt l 0
def ord (l : Word) : PageOrd := if ordc l = 0 then .so else if ordc l = 1 then .rc else .un
/-- A leaf from its fields (Table 8-5); the permissions are X, W, R, V. -/
def make (key : Nat) (mkind : BitVec 3) (bsh cow : Bool) (ord : BitVec 2) (lg : Bool) (frame : Nat)
    (perm : BitVec 4) : Word :=
  BitVec.ofNat 8 key ++ mkind ++ bit1 bsh ++ bit1 cow ++ ord ++ bit1 lg ++ BitVec.ofNat 32 frame ++ (0 : BitVec 12) ++
    perm
/-- A reserved bit or code is set (Table 8-5). -/
def reserved (l : Word) : Bool := bits l 4 12 != 0 || 6 ≤ (mkind l).toNat || ordc l == 3
end Leaf

/-- Physical key of an address: host memory and other modules' memory are apart from the device's own (log 6). -/
def physKey (mkind : BitVec 3) (pa : Nat) : Nat :=
  if mkind = 4 then hostStart + pa else if mkind = 5 then remoteStart + pa else pa

/-- Physical key of an entry of the mailbox, which follows the branch table (R356, R365). -/
def Ctx.mailKey (c : Ctx) (entry : Nat) : Nat := physKey c.areaKind (c.area + 32 * c.nbr + 128 * entry)

/-- Virtual address of an entry of a context's mailbox (R24, R365; log 32). -/
def mailVa (ctx entry : Nat) : Nat := Config.mailPlace ctx % 2 ^ 33 * 2 ^ 19 + 128 * entry

/-- An address in the mailbox of a context that holds a message. -/
def Ctx.inMail (c : Ctx) (ctx va : Nat) : Bool :=
  !c.mail.isEmpty && decide (mailVa ctx 0 ≤ va) && decide (va < mailVa ctx 0 + 2 ^ 19)

/-- Physical key of weight slice bytes: region, array, column and offset (R252, log 6). -/
def weightKey (region array col off : Nat) : Nat :=
  weightStart + region * weightBytes + array * 2 ^ 22 + col * 2 ^ 16 + off

/-- The faults of an access on a leaf that a walk has found valid (Table 8-4, Table 8-6, R309). -/
def leafFault (ctxKey : Nat) (use : Use) (l : Word) : Option Cause :=
  let k := Leaf.mkind l
  if (Leaf.key l).toNat != ctxKey then some .prot
  else
    match use with
    | .fetch => if Leaf.x l && k != 2 then none else some .prot
    | .read => if Leaf.r l && k != 2 then none else some .prot
    | .copyRead => if Leaf.r l then none else some .prot
    | .write => if Leaf.w l && k != 2 then none else some .prot
    | .atomic =>
      if k = 2 || !Leaf.r l || !Leaf.w l then some .prot else if k = 4 then some .hostatom else none

/-- The physical address of a virtual address under a leaf (R199, R200). -/
def leafKey (l : Word) (va : Nat) : Nat :=
  if Leaf.lg l then physKey (Leaf.mkind l) (Leaf.frame l / 32 * 2 ^ 21 + va % 2 ^ 21)
  else physKey (Leaf.mkind l) (Leaf.frame l * 2 ^ 16 + va % 2 ^ 16)

/-- KVBASE and KVSPAN of a context (R358): base and span, or none without a window. -/
def Ctx.kvWindow (c : Ctx) : Option (Nat × Nat) :=
  let lspan := (bits c.kvw 0 5).toNat
  if lspan < 16 then none else some ((bits c.kvw 44 8).toNat * 2 ^ 44, 2 ^ lspan)

def Ctx.branch (c : Ctx) (b : Nat) : Branch := Tab.getD c.branches b Branch.free
def Ctx.chunk? (c : Ctx) (a : Nat) : Option Chunk := Tab.find? c.chunks a
def Ctx.frame (c : Ctx) (f : Nat) : Frame := Tab.getD c.frames f { fref := 0, held := false }

/-- A branch number that names a live branch (R356, R357). -/
def Ctx.isLive (c : Ctx) (b : Nat) : Bool := decide (b < c.nbr) && (c.branch b).st == 1

/-- The chunks of a page list from its head towards the oldest, with their addresses. -/
def Ctx.chunkPath (c : Ctx) : Nat → Nat → List (Nat × Chunk)
  | 0, _ => []
  | fuel + 1, a => if a = 0 then [] else match c.chunk? a with
    | some k => (a, k) :: c.chunkPath fuel k.prev
    | none => []

/-- The path from a branch's head to the chunk that holds page k, that chunk last (R359, R361). -/
def Ctx.pathTo (c : Ctx) (b k : Nat) : List (Nat × Chunk) :=
  let e := c.branch b
  let all := c.chunkPath (e.len / 16 + 2) e.head
  -- chunk i from the head holds the 16 pages of group (groups - 1 - i)
  let groups := (e.len + 15) / 16
  all.take (groups - k / 16)

/-- Frame index of page k of a branch. -/
def Ctx.pageFrame (c : Ctx) (b k : Nat) : Option Nat :=
  match (c.pathTo b k).getLast? with
  | some (_, ch) => ch.ptrs[k % 16]?
  | none => none

/-- A branch as a translation unit, a dispatcher or a region sees it: a marked one counts as live until the marking has
reached it or the walker has freed the branch (R362). -/
def Ctx.seemsLive (c : Ctx) (b : Nat) (told : Bool) : Bool :=
  decide (b < c.nbr) && ((c.branch b).st == 1 || ((c.branch b).st == 2 && c.marked.contains b && !told))

/-- An address in the KV window of a branch that is not live, `told` as the translation unit knows it: an access there performs
no event (R360). -/
def Ctx.branchVoid (c : Ctx) (va : Nat) (told : Nat → Bool) : Bool :=
  match c.kvWindow with
  | some (base, span) =>
    decide (base ≤ va) && decide (va < base + 65536 * span) && !c.seemsLive ((va - base) / span) (told ((va - base) / span))
  | none => false

/-- The leaf of an address in the KV window, formed from the branch table and the page list (R360); `told`: the marking
of which branches has reached the translation unit. -/
def kvTranslate (c : Ctx) (base span va : Nat) (use : Use) (told : Nat → Bool) : Xlat :=
  let b := (va - base) / span
  let o := (va - base) % span
  let k := o / 2 ^ 16
  let e := c.branch b
  if !c.seemsLive b (told b) then .void
  else if e.len ≤ k then .fault .page
  else
    match c.pageFrame b k with
    | none => .fault .page
    | some f =>
      let shared := 1 < (c.frame f).fref
      let pathShared := (c.pathTo b k).any fun p => 1 < p.2.ref
      let l := Leaf.make c.key c.poolKind shared (shared || pathShared) 1 false (c.poolBase + f) 0b0111
      match leafFault c.key use l with
      | some x => .fault x
      | none =>
        if (use == .write || use == .atomic) && Leaf.cow l then .copy
        else .ok { key := leafKey l va, leaf := l }

/-- An entry gives the translation of a page: its own, or that of the 2 MiB page around it (R197, R200). -/
def Cached.covers (e : Cached) (ctx page : Nat) : Bool :=
  e.ctx = ctx && (e.page = page || (e.bad.isNone && Leaf.lg e.leaf && e.page / 32 = page / 32))

/-- The entry of a list for a page: its own entry before that of the 2 MiB page around it (log 15). -/
def entryFor (l : List Cached) (ctx page : Nat) : Option Cached :=
  match l.find? fun e => e.ctx = ctx && e.page = page with
  | some e => some e
  | none => l.find? fun e => e.covers ctx page

/-- Cached entries of a requester and then of its board's unit (R197). -/
def State.lookup (s : State) (req board ctx page : Nat) : Option Cached :=
  match entryFor (Tab.getD s.tlbs req []) ctx page with
  | some e => some e
  | none => entryFor (Tab.getD s.units board []) ctx page

/-- Fetch from a frame outside the CODE windows of a VD whose policy lists code digests raises PROT (R423). -/
def State.codeBarred (s : State) (c : Ctx) (key : Nat) : Bool :=
  match Tab.find? s.vds c.vf with
  | some v => v.nhash != 0 && !v.codeFrames.contains (key / 2 ^ 16)
  | none => false

/-- Translates an address for a context (R197 to R201, R360). The weight window is translated by its base (R252).
The model's choice (log 136): at WWIN = 0 there is no weight window. -/
def State.translate (s : State) (req board region ctx va : Nat) (use : Use) : Xlat :=
  match s.ctx? ctx with
  | none => .fault .page
  | some c =>
    let ww := (s.region region).wwin.toNat
    match c.kvWindow with
    | some (base, span) =>
      if base ≤ va && va < base + 65536 * span then
        match (s.lookup req board ctx (va / 2 ^ 16)).bind Cached.bad with
        | some x => .fault x
        | none => kvTranslate c base span va use fun b => (s.region region).dead.contains (ctx, b)
      else byTables c ww
    | none => byTables c ww
where
  byTables (c : Ctx) (ww : Nat) : Xlat :=
    if ww != 0 && ww ≤ va && va < ww + 2 ^ 23 then
      if use == .copyRead then
        .ok { key := weightStart + region * weightBytes + (va - ww), leaf := Leaf.make c.key 2 false false 1 false 0 0b0011 }
      else .fault .prot
    else if c.inMail ctx va then
      let l := Leaf.make c.key c.areaKind false false 1 false (c.area / 2 ^ 16) 0b0011
      match leafFault c.key use l with
      | some x => .fault x
      | none => .ok { key := c.mailKey 0 + (va - mailVa ctx 0), leaf := l }
    else
      match s.lookup req board ctx (va / 2 ^ 16) with
      | none => .miss
      | some e =>
        match e.bad with
        | some x => .fault x
        | none =>
          match leafFault c.key use e.leaf with
          | some x => .fault x
          | none =>
            if (use == .write || use == .atomic) && Leaf.cow e.leaf then .copy
            else if use == .fetch && s.codeBarred c (leafKey e.leaf va) then .fault .prot
            else .ok { key := leafKey e.leaf va, leaf := e.leaf }

/-- Requester numbers of the translation caches (R197): load and fetch caches of the sequencers, M-square ports,
stream port AGs, and the copy and weight engines of a region. -/
def reqLoad (q : Nat) : Nat := q
def reqFetch (q : Nat) : Nat := 0x200 + q
def reqMsq (region square : Nat) : Nat := 0x1000 + 32 * region + square
def reqAg (region port : Nat) : Nat := 0x4000 + 8 * region + port
def reqEngine (region : Nat) : Nat := 0x8000 + region

/-- Entries of a cache after one more, the oldest choice made where the cache is full (R197, log 3). -/
def cacheAdd (limit pick : Nat) (l : List Cached) (e : Cached) : List Cached :=
  let l' := l.filter fun x => !(x.ctx = e.ctx && x.page = e.page)
  let l'' := if limit ≤ l'.length then dropAt l' (pick % l'.length) else l'
  l'' ++ [e]

/-- A fault entry has served its access. -/
def State.dropBad (s : State) (req ctx page : Nat) : State :=
  { s with tlbs := Tab.put s.tlbs req ((Tab.getD s.tlbs req []).filter fun e =>
      !(e.ctx = ctx && e.page = page && e.bad.isSome)) }

/-- A miss can share a walk: the walk is of its page, or of the 2 MiB page around it, whose first entry has been read
(R197). -/
def Walk.serves (w : Walk) (board ctx page : Nat) (copy : Bool) : Bool :=
  w.board = board && w.ctx = ctx && w.copy = copy &&
    (w.page = page || (w.found.isSome && w.page / 32 = page / 32))

/-- The parking entries of a board that are in use. -/
def State.parkedOn (s : State) (board : Nat) : Nat := (s.walks.filter fun w => w.board = board && w.granted).length

/-- The miss of a requester: it joins a walk, or starts one, which waits when all 256 parking entries of the board are in
use, or when an older miss waits for one (R197, R198). A walk for a copy keeps the agent whose write parked. -/
def State.startWalk (s : State) (req board ctx va : Nat) (copy : Bool) (agent : Nat := 0) : State :=
  let page := va / 2 ^ 16
  if s.walks.any fun w => w.serves board ctx page copy then
    { s with walks := s.walks.map fun w =>
        if w.serves board ctx page copy && !w.requesters.contains req then { w with requesters := w.requesters ++ [req] }
        else w }
  else
    let free := decide (s.parkedOn board < 256) && !s.walks.any fun w => w.board = board && !w.granted
    let w : Walk :=
      { board, ctx, page, granted := free, level := 1, table := ((s.ctx? ctx).map Ctx.ptRoot).getD 0, found := none
        requesters := [req], dropped := false, copy, agent }
    { s with walks := s.walks ++ [w] }

/-! ### Links to other modules (R244) -/

/-- A byte can be reached: one of another module while the Aknan port that leads to it is up (R464, R466, log 127). -/
def State.linkUp (s : State) (key : Nat) : Bool :=
  match storeOf key with
  | some .remote => s.aknan.contains (Config.aknanPort (key / 2 ^ 16) % 24)
  | _ => true

/-- The request of an access can be made: until its port is up it waits in its slot (R244, R466). -/
def State.linked (s : State) (e : Ev) : Bool := e.pieces.all fun p => s.linkUp p.key

/-! ### Energy (R460, R461) -/

/-- The limiters of a region that has used its allowance let one token in in 256 cycles (R460). -/
def Region.hold (r : Region) : Region :=
  if r.allow ≤ r.used && !r.held then
    let cut (i : Nat) : Limiter :=
      { a := 1, w := 256, admitted := 0, set := (vget r.limits i Limiter.empty).set }
    { r with held := true, limits := #v[cut 0, cut 1, cut 2, cut 3, cut 4, cut 5, cut 6, cut 7, cut 8, cut 9] }
  else r

/-- A charge of dynamic energy in picojoules (R461). -/
def State.charge (s : State) (region pj : Nat) : State :=
  let r := s.region region
  let p := r.picos + pj
  s.setRegion region (Region.hold { r with picos := p % 1000, used := r.used + p / 1000, total := r.total + p / 1000 })

/-- The charge of n accesses of up to 64 bytes at a key (Table 23-2): to the region of the bank or slice, or else to the
region that asks, where there is one (log 114). -/
def State.chargeAt (s : State) (requester : Option Nat) (key n : Nat) : State :=
  let ask (pj : Nat) : State := match requester with | some r => s.charge r (pj * n) | none => s
  match storeOf key with
  | some (.square m) => s.charge (squareRegion m) (96 * n)
  | some (.slice m) => s.charge (squareRegion m) (96 * n)
  | some (.gddr _) => ask 160
  | some .remote => ask 300
  | _ => s

/-! ### Traps (R383, R384, R385) and fault tokens (R390, R391) -/

namespace EStat
def pmode (e : Word) : Bool := bitAt e 0
def inh (e : Word) : Bool := bitAt e 1
def pendf (e : Word) : Bool := bitAt e 2
end EStat

/-- Region number that a fault token of a sequencer names. -/
def tokenRegion (q : Nat) : Nat := if q < 128 then q else 0

/-- The eight words of a fault token (Table 15-3). -/
def faultToken (cause engine : BitVec 8) (card ctx : BitVec 16) (region : Nat) (imprecise : Bool)
    (addr pos bpc aux epc req : Word) : List Word :=
  [(0 : BitVec 8) ++ bit1 imprecise ++ BitVec.ofNat 7 region ++ ctx ++ card ++ engine ++ cause,
    addr, pos, bpc, aux, epc, req, 0]

/-- Root core that receives the fault tokens of a sequencer: its board's, or the module's (R10, R391). -/
def ftokTarget (q : Nat) : Nat := if q < 128 then rootOf (q / 32) else rootOf 0

/-- A fault token is accepted for a root core's ring, which has room for it whenever its sender's turn takes place (R390). -/
def State.sendToken (s : State) (root : Nat) (t : List Word) : State :=
  let v := s.seq root
  s.setSeq root { v with ftoks := v.ftoks ++ [t] }

/-- CTXID of a sequencer's context as a token field. -/
def State.ctxField (s : State) (q : Nat) : BitVec 16 := BitVec.ofNat 16 ((s.ctxOf q).getD 0)

/-- The fault token that a sequencer's fault registers and EPC make (R391). -/
def State.ownToken (s : State) (q : Nat) (cause : BitVec 8) (aux : Word) : List Word :=
  let v := s.seq q
  faultToken cause 0xFF 0 (s.ctxField q) (tokenRegion q) false v.fltaddr v.fltpos v.fltbpc aux v.epc 0

/-- An address as EPC [51:0] holds it: the reserved bits above read 0 (R8, Table 15-8). -/
def epcOf (ip : Word) : Word := (bits ip 0 52).setWidth 64

/-- TakeTrap(cause, addr, resume) of R383: saves IP and mode, inhibits further traps, enters privileged mode at TVEC;
inside a handler it reports DOUBLE and halts. -/
def State.takeTrap (s : State) (q : Nat) (cause : Cause) (addr resume : Word) : State :=
  let v := s.seq q
  if EStat.inh v.estat then
    let aux : Word := (0 : BitVec 56) ++ cause.code
    let s := s.setSeq q { v with run := .halted, fetching := none }
    s.sendToken (ftokTarget q) (s.ownToken q Cause.double.code aux)
  else
    s.setSeq q { v with
      epc := epcOf resume
      waitH := .none
      estat := (bits v.estat 2 62) ++ (1 : BitVec 1) ++ bit1 v.priv
      priv := true
      fetching := none
      fltcause := (0 : BitVec 56) ++ cause.code
      fltaddr := addr
      ip := v.tvec }

/-- Raise(cause) in sequencer code: a precise trap whose resume address is the instruction's IP (R70, R383). -/
def State.raise (s : State) (q : Nat) (cause : Cause) (addr : Word) : State := s.takeTrap q cause addr (s.seq q).ip

/-- The waiting instruction at the IP's level: a handler's, or that of the mode in force. What a handler has interrupted
keeps its own (R384). -/
def Seq.wait (v : Seq) : Wait := if EStat.inh v.estat then v.waitH else if v.priv then v.waitP else v.waitU

/-- The waiting instruction at the IP's level replaced. -/
def Seq.setWait (v : Seq) (w : Wait) : Seq :=
  if EStat.inh v.estat then { v with waitH := w } else if v.priv then { v with waitP := w } else { v with waitU := w }

/-- `eret` of R385: IP and mode return and traps are allowed again; on a root core the mode stays privileged (R382). -/
def State.returnFromTrap (s : State) (q : Nat) : State :=
  let v := s.seq q
  s.setSeq q { v with
    ip := v.epc
    priv := isRoot q || EStat.pmode v.estat
    estat := v.estat &&& ~~~(2 : Word) }

/-- The sequencer of the running turn; `none` outside a sequencer's turn. -/
def State.me (s : State) : Option Nat :=
  match s.actor with
  | .sequencer q => some q
  | _ => none

/-- A sequencer instruction's meaning, given the number of the sequencer that executes it. -/
def asSeq (s : State) (f : Nat → Host.Outcome State Fault Refusal) : Host.Outcome State Fault Refusal :=
  match s.me with
  | some q => f q
  | none => .refused .notItsAgent

/-- The turn passes and nothing changes: the instruction stalls, the node does not fire, the event does not take
place (R30, R330, log 2). -/
def stall (s : State) : Host.Outcome State Fault Refusal := .next s

/-- The IP moved past an instruction of n bytes. -/
def State.advance (s : State) (q n : Nat) : State :=
  let v := s.seq q
  s.setSeq q { v with ip := v.ip + BitVec.ofNat 64 n }

/-- Register d written and the IP moved past the instruction. -/
def State.finish (s : State) (q : Nat) (d : SReg) (x : Word) (n : Nat) : State :=
  let v := (s.seq q).write d x
  s.setSeq q { v with ip := v.ip + BitVec.ofNat 64 n }

/-- The next free value of the model's counter (log 3). -/
def State.freeWord (s : State) : Word × State := (Config.freeWord s.frees, { s with frees := s.frees + 1 })

/-- The next free choice among n candidates (log 3). -/
def State.freePick (s : State) (n : Nat) : Nat × State :=
  (Config.freeIndex s.frees % n, { s with frees := s.frees + 1 })

end Sys2Proof.Machine
end

