-- ==== Sys2Proof/Machine/Operands.lean ====
section
/-!
DEFINITION. What every sequencer instruction shares: who may issue it (R65, R66, R335), its immediates (R62), its
register operands (R330, R331), branch conditions (R63), its memory accesses (R339, R217), and the system register
numbers (R404).
-/

namespace Sys2Proof.Machine

/-- Outcomes of the model's machine. -/
abbrev Res := Host.Outcome State Fault Refusal

/-- Privilege marks of Table 2-14: U, P and K. -/
inductive Mark where
  | user | privileged | rootOnly
  deriving DecidableEq, Repr

/-- The sequencer stands at the level that launched its chain: no handler has interrupted it (R335, R383). -/
def Seq.atChain (v : Seq) : Bool :=
  match v.chain with
  | some c => v.priv == c.priv && EStat.inh v.estat == c.inh
  | none => false

/-- The sequencer executes its run-ahead slice (R335). -/
def Seq.inSlice (v : Seq) : Bool := v.slice.isSome && v.atChain

/-- Issues a sequencer instruction: K marks raise ILLOP off the root cores, P marks PRIV in user mode (R65, R66), and
an instruction that a slice may not hold raises SLICEOP in one (R335). -/
def issueAs (s : State) (mark : Mark) (sliceOk : Bool) (f : Nat → Res) : Res :=
  match s.me with
  | none => .refused .notItsAgent
  | some q =>
    let v := s.seq q
    if mark == .rootOnly && !isRoot q then .next (s.raise q .illop 0)
    else if mark != .user && !v.priv then .next (s.raise q .priv 0)
    else if v.inSlice && !sliceOk then .next (s.raise q .sliceop v.ip)
    else f q

/-- imm14 sign-extended (R62). -/
def sext14 (i : BitVec 14) : Word := i.signExtend 64

/-- imm14 zero-extended: `andi`, `ori` and `xori` (R62). -/
def zext14 (i : BitVec 14) : Word := i.setWidth 64

/-- The byte offset of a signed word offset of 19 bits (R62). -/
def wordOffset (l : BitVec 19) : Word := 4 * l.signExtend 64

/-- `lui`: the immediate in bits [31:13], sign-extended from bit 31 (R62). -/
def luiValue (l : BitVec 19) : Word := (l ++ (0 : BitVec 13) : BitVec 32).signExtend 64

/-- Every register of a list is neither armed nor outstanding, so an instruction that names it may issue. -/
def Seq.allReady (v : Seq) (l : List SReg) : Bool := l.all v.ready

/-- An instruction that reads some registers, writes d with a value computed from them, and takes n bytes. -/
def issueValue (s : State) (mark : Mark) (sliceOk : Bool) (d : SReg) (srcs : List SReg) (n : Nat)
    (f : Nat → Seq → Word) : Res :=
  issueAs s mark sliceOk fun q =>
    let v := s.seq q
    if v.allReady (d :: srcs) then .next (s.finish q d (f q v) n) else stall s

/-- An integer condition of Table 2-13. -/
def compareHolds (c : Cond) (x y : Word) : Bool :=
  match c with
  | .eq => x == y
  | .ne => x != y
  | .lt => x.slt y
  | .ge => !x.slt y
  | .ltu => x.ult y
  | .geu => !x.ult y
  | _ => true

/-- The state of a token register (R331, R332): 0 while armed, its final value afterwards. -/
def Seq.token (v : Seq) (r : SReg) : Word := if v.armed r then 0 else v.read r

/-- A token condition of Table 2-13. -/
def tokenHolds (c : Cond) (x : Word) : Bool :=
  match c with
  | .tpend => x == 0
  | .tdone => x == 1
  | .tflt => 2 ≤ x.toNat
  | _ => true

/-- A fence event placed; ACQREL is an ACQ fence followed at once by a REL fence (Table 9-3). -/
def State.placeFence (s : State) (a : Nat) (e : Ev) : State :=
  if e.kind == .fence .ar then (s.place a { e with kind := .fence .acq }).place a { e with kind := .fence .rel }
  else s.place a e

/-- Identity of the event placed last. -/
def State.lastId (s : State) : Nat := s.nextId - 1

/-- Context that a sequencer's accesses are translated for, and its region for the weight window. -/
def regionOfSeq (q : Nat) : Nat := q

/-- Translation of a root core's access, in its own address space (R458): a page that its service code has mapped has the
leaf it was mapped with, the key id of its context among it; any other address is a physical one (log 9). -/
def State.rootTranslate (s : State) (q va : Nat) (use : Use) : Xlat :=
  match Tab.find? (Tab.getD s.rootPages q []) (va / 2 ^ 16) with
  | none => .ok { key := va, leaf := Leaf.make 0 3 false false 1 false 0 0b1111 }
  | some l =>
    match leafFault (Leaf.key l).toNat use l with
    | some x => .fault x
    | none => if (use == .write || use == .atomic) && Leaf.cow l then .fault .prot else .ok { key := leafKey l va, leaf := l }

/-- Translation of a sequencer's access. -/
def State.seqTranslate (s : State) (q req va : Nat) (use : Use) : Xlat :=
  match s.ctxOf q with
  | some c => s.translate req (boardOfSeq q) (regionOfSeq q) c va use
  | none =>
    if isRoot q then s.rootTranslate q va use
    else .fault .page

/-- The number of the agent's context in its events; 65,536 for a root core without one. -/
def State.ctxNo (s : State) (q : Nat) : Nat := (s.ctxOf q).getD 65536

/-- What comes of translating an operand's address: the access, a trap taken, a stall, or an access to a dead
branch's slot, which reads zeros and writes nothing (R360). -/
inductive Reach where
  | to (p : Phys)
  | void
  | out (s : State)
  deriving DecidableEq, Repr

/-- Address checks and translation of a sequencer access of n bytes, aligned to n (R339, R217, R240). -/
def State.reach (s : State) (q req : Nat) (va : Word) (n : Nat) (use : Use) : Reach :=
  if 2 ^ 52 ≤ va.toNat then .out (s.raise q .varange va)
  else if va.toNat % n != 0 then .out (s.raise q .align va)
  else
    match s.seqTranslate q req va.toNat use with
    | .ok p => .to p
    | .void => .void
    | .fault c => .out ((s.dropBad req (s.ctxNo q) (va.toNat / 2 ^ 16)).raise q c va)
    | .miss => .out (s.startWalk req (boardOfSeq q) (s.ctxNo q) va.toNat false)
    | .copy => .out (s.startWalk req (boardOfSeq q) (s.ctxNo q) va.toNat true q)

/-- An event of a sequencer: its bytes, page kind and memory kind (R226). -/
def State.seqEvent (s : State) (q : Nat) (va : Word) (n : Nat) (p : Phys) (kind : EvKind) : Ev :=
  { Ev.blank with
    kind, va := va.toNat, size := n, pieces := (keysFrom p.key n).map fun k => { key := k, value := 0, mask := 0xFF }
    ord := Leaf.ord p.leaf, mkind := Leaf.mkind p.leaf, large := Leaf.lg p.leaf, ctx := s.ctxNo q, watched := !(s.seq q).priv }

/-- The event with the bytes it writes. -/
def Ev.withBytes (e : Ev) (bs : List Byte) : Ev :=
  { e with pieces := (e.pieces.zip bs).map fun (p, b) => { p with value := b } }

/-- Writes of a sequencer that have not committed (R330's store buffer of 16). -/
def State.storesHeld (s : State) (q : Nat) : Nat :=
  ((s.agent q).q.filter (·.isWrite)).length + ((s.agent q).buf.filter (·.isWrite)).length

/-- Loads of a sequencer whose value has not been written (R330's eight). -/
def State.loadsHeld (s : State) (q : Nat) : Nat :=
  ((s.agent q).q.filter (·.isRead)).length + (s.agent q).rets.length

/-- The event with this identity has been performed: it stands in no queue of its agent (R226). -/
def State.performed (s : State) (a id : Nat) : Bool :=
  let g := s.agent a
  !(g.q.any (·.id = id) || g.buf.any (·.id = id) || g.rmws.any (·.id = id))

/-- The lowest watchpoint that a write of n bytes at an address hits (R393). -/
def watchHit (wpt : Vector Word 4) (va n : Nat) : Option Nat :=
  (List.range 4).find? fun i =>
    let w := vget wpt i 0
    let base := (bits w 16 48).toNat * 16
    (List.range 16).any fun b => bitAt w b && va ≤ base + b && base + b < va + n

/-- Watchpoint hit by a write of a user-mode sequencer of the plane's context. -/
def State.seqHit (s : State) (q : Nat) (va : Word) (n : Nat) : Option (Nat × Word) :=
  if (s.seq q).priv then none
  else match s.planeOf q with
    | some k => (watchHit (s.plane k).wpt va.toNat n).map fun i => (i, va)
    | none => none

/-- The sequencer waits at this instruction until an event has been performed (R250, R394). -/
def State.await (s : State) (q n id : Nat) (hit : Option (Nat × Word)) : State :=
  let v := s.seq q
  s.setSeq q (v.setWait (.event v.ip n id hit none))

/-- What follows a store that has been placed: the next instruction, or at a watchpoint the wait for its performance
and the trap WATCH (R394). -/
def State.afterStore (s : State) (q n id : Nat) (hit : Option (Nat × Word)) : State :=
  match hit with
  | none => s.advance q n
  | some _ => s.await q n id hit

/-! ### System register numbers (Table 15-7) -/

/-- The registers of Table 15-7. -/
inductive SysReg where
  | fpc | tstat | ctxid | blkst | energy | cycle
  | fltcause | fltaddr | fltpos | fltbpc | fltaux
  | epc | estat | tvec | eflt | eflta
  | wpt (n : Nat)
  | wwin | kvw | pwin | sctl | ctxres | fqbase | fqhead | fqtail
  | ureg (n : Nat)
  deriving DecidableEq, Repr

/-- The register with a number of Table 15-7. -/
def sysRegOf (n : Nat) : Option SysReg :=
  match n with
  | 0x000 => some .fpc | 0x001 => some .tstat | 0x002 => some .ctxid | 0x003 => some .blkst
  | 0x004 => some .energy | 0x005 => some .cycle
  | 0x008 => some .fltcause | 0x009 => some .fltaddr | 0x00A => some .fltpos | 0x00B => some .fltbpc
  | 0x00C => some .fltaux | 0x00D => some .epc | 0x00E => some .estat | 0x00F => some .tvec
  | 0x010 => some .eflt | 0x011 => some .eflta
  | 0x014 => some (.wpt 0) | 0x015 => some (.wpt 1) | 0x016 => some (.wpt 2) | 0x017 => some (.wpt 3)
  | 0x018 => some .wwin | 0x019 => some .kvw | 0x01A => some .pwin | 0x020 => some .sctl | 0x021 => some .ctxres
  | 0x030 => some .fqbase | 0x031 => some .fqhead | 0x032 => some .fqtail
  | _ => if 0x100 ≤ n && n < 0x120 then some (.ureg (n - 0x100)) else none

/-- Registers that only root cores have. -/
def SysReg.rootOnly : SysReg → Bool
  | .fqbase | .fqhead | .fqtail => true
  | _ => false

/-- Registers that user mode may read. -/
def SysReg.userReads : SysReg → Bool
  | .fpc | .tstat | .ctxid | .energy | .cycle | .wwin | .kvw | .pwin | .ctxres => true
  | _ => false

/-- Registers that user mode may write. -/
def SysReg.userWrites : SysReg → Bool
  | .fpc | .tstat => true
  | _ => false

/-- Registers with a RW or W1C field. -/
def SysReg.writable : SysReg → Bool
  | .fpc | .tstat | .blkst | .epc | .estat | .tvec | .eflt | .wwin | .kvw | .pwin | .sctl | .ctxres | .fqbase | .fqhead
  | .ureg _ => true
  | _ => false

/-- `sysr` or `sysw` of a register number does not raise ILLOP on a region sequencer (R66, R404). -/
def sysNumberOk (n : Nat) (write : Bool) : Bool :=
  match sysRegOf n with
  | some x => !x.rootOnly && (!write || x.writable)
  | none => false

end Sys2Proof.Machine
end

