-- ==== Sys2Proof/Machine/Nodes.lean ====
section
/-!
DEFINITION. What every fabric node shares: its links and targets (R43 to R46, R93 to R95, R131), its inputs and the
marker rules (R99, R106), reconfiguration (R105), fabric faults and the freeze (R386, R387), and the blocked state (R56).
-/

namespace Sys2Proof.Machine

/-- A node in its turn: the region of its slot, the launching plane, the slot and the node. -/
structure At where
  region : Nat
  plane : Nat
  slot : Nat
  node : Node
  pl : Plane
  deriving DecidableEq, Repr

/-- Region of a slot: slots from 512 lie in the fused partner at rx + 1 (R52). -/
def regionOfSlot (planeKey slot : Nat) : Nat := planeKey / 4 + (if slot < 512 then 0 else 1)

/-! ### Nodes -/

/-- What only one node of a block may name: a side of a stream port (R112), an array's port (R275), a group's or an
operator's place in the router (R295). The model's choice (log 75): a port number counts as one port in both halves of a fused
block, though each half's nodes use the ports of the region that they stand in. -/
def soleName (w : Word) : Option (Nat × Nat) :=
  let opc := fabricOpc w
  let fn : BitVec 6 := bits w 50 6
  let port := (bits w 37 7).toNat
  match opc with
  | 0x01 => some (opc, (bits w 0 3).toNat)
  | 0x02 | 0xA0 => some (opc, port)
  | 0xA1 => some (opc, (bits w 0 1).toNat)
  | 0xB0 | 0xB1 => some (opc, (bits w 0 5).toNat)
  | 0xB2 => if fn.toNat ≤ 1 then some (0x1B2 + fn.toNat, (bits w 0 2).toNat) else none
  | 0xB7 => if fn = 1 then some (opc, (bits w 4 5).toNat) else none
  | _ => none

/-- A node's word in the instance of a number: its own, or the one that it takes up with that instance (R103). -/
def Node.wordIn (n : Node) (era : Nat) : Option Word := if n.era = era then some n.word else if n.era < era then n.shadow else none

/-- A node of an older instance names the same port, array or operator and has not taken EOT there: what is there still
belongs to that instance (log 23). -/
def Plane.elderOpen (pl : Plane) (n : Node) : Bool :=
  match soleName n.word with
  | some k => pl.nodes.any fun e => e.2.era < n.era && soleName e.2.word == some k && !e.2.ended
  | none => false

/-- The configurations that a slot of a region can hold, as region, plane and slot: those of its own planes, and those of fused
blocks launched in the region before it (R15, R52). -/
def elementSlots (home low : Nat) : List (Nat × Nat × Nat) :=
  ([0, 1, 2, 3].map fun k => (home, k, low)) ++
    (if home % 2 = 1 then [0, 1, 2, 3].map fun k => (home - 1, k, low + 512) else [])

/-- The node has some non-sticky input. -/
def Plane.hasMoving (pl : Plane) (slot : Nat) (n : Node) : Bool :=
  pl.links.any fun l => l.dst = slot && l.era = n.era && !l.sticky

/-- The node is a source of R104: `inp`, or a node without a non-sticky input. The model's reading (log 105): a `gen.c`
whose slot c is not sticky is none, and forwards the SWITCH or DRAIN that reaches its slot c. -/
def Plane.isSource (pl : Plane) (slot : Nat) (n : Node) : Bool := fabricOpc n.word = 0x01 || !pl.hasMoving slot n

/-- A node all of whose inputs are sticky: it fires on as long as its targets take its tokens (R95), so that its last token
is the one before its SWITCH or DRAIN. -/
def Plane.endless (pl : Plane) (slot : Nat) (n : Node) : Bool :=
  let opc := fabricOpc n.word
  opc != 0x04 && opc != 0x05 && !pl.hasMoving slot n && pl.links.any fun l => l.dst = slot && l.era = n.era

/-- A source at which a pre-emption injects DRAIN (R109): it takes nothing more until the plane is restored (R457). -/
def Plane.takesDrain (pl : Plane) (slot : Nat) (n : Node) : Bool :=
  let opc := fabricOpc n.word
  pl.isSource slot n && opc != 0x05 && opc != 0xA1 && opc != 0xB0 && !(opc = 0xB2 && bits n.word 50 6 == (1 : BitVec 6))

/-- In a pre-emption, a node that waits for an older instance stands before DRAIN at all its inputs: it passes the DRAIN on
its links alone, since what it names still belongs to the older instance (R105, R109). -/
def Plane.standsAtDrain (pl : Plane) (slot : Nat) (n : Node) : Bool :=
  pl.draining && n.phase == .run && pl.hasMoving slot n &&
    pl.links.all fun l => l.dst != slot || l.era != n.era || l.sticky || (l.toks.head?.map Token.marker == some Mk.drain)

/-- The head token of a link taken by its consumer; a SWITCH puts a renewal into force (R95, R108). -/
def Link.take (l : Link) : Link :=
  if l.sticky then l
  else
    match l.toks with
    | [] => l
    | t :: rest =>
      match l.renew with
      | some (era, out, cap, sticky) =>
        if t.marker = Mk.switch then { l with toks := rest, era, out, cap, sticky, renew := none }
        else { l with toks := rest }
      | none => { l with toks := rest }

/-- A node has taken DRAIN at every input that moves, and begins to emit it. -/
def Plane.passDrain (pl : Plane) (slot : Nat) (n : Node) : Plane :=
  { pl with
    links := pl.links.map fun l => if l.dst = slot && l.era = n.era then l.take else l
    nodes := Tab.put pl.nodes slot { n with phase := .emit, emitting := Mk.drain, sent := [], passed := true } }

/-- The node whose turn it is, unless its plane is frozen or it has no configuration (R105, R386). -/
def asNode (s : State) (f : At → Res) : Res :=
  match s.actor with
  | .node r p slot =>
    let pl := s.plane (planeKey r p)
    match Tab.find? pl.nodes slot with
    | none => stall s
    | some node =>
      if pl.stopped then stall s
      else if pl.elderOpen node && !(node.phase == .emit && node.emitting = Mk.drain) then
        if pl.standsAtDrain slot node then .next (s.setPlane (planeKey r p) (pl.passDrain slot node)) else stall s
      else if pl.draining && node.phase == .run && pl.takesDrain slot node then stall s
      else f { region := regionOfSlot (planeKey r p) slot, plane := planeKey r p, slot, node, pl }
  | _ => .refused .notItsAgent

/-- The block instance that a node belongs to. -/
def At.inst (a : At) : Option Inst :=
  a.pl.chain.bind fun c => if a.node.era = c.era then some c.cur else c.next

/-- The node belongs to a successor whose predecessor has not committed (R102). -/
def At.ahead (a : At) : Bool :=
  match a.pl.chain with
  | some c => c.era < a.node.era
  | none => false

/-- RM, SFL and RFL of the node's instance (R81). -/
def At.env (a : At) : FpEnv :=
  match a.inst with
  | some i => FpEnv.ofFpc i.snap.fpc
  | none => FpEnv.ofFpc 0

/-- The node written back. -/
def State.setNode (s : State) (a : At) (n : Node) : State :=
  let pl := s.plane a.plane
  s.setPlane a.plane { pl with nodes := Tab.put pl.nodes a.slot n }

/-! ### Links -/

/-- The link that feeds an operand slot. -/
def inLink (pl : Plane) (n : Node) (slot : Nat) (o : Slot) : Option Link :=
  pl.links.find? fun l => l.dst = slot && l.opd == o && l.era = n.era

/-- A link is the node's target number `out`: by its own era, or by a renewal (R108). -/
def Link.isOut (l : Link) (n : Node) (slot out : Nat) : Bool :=
  l.src = slot &&
    (match l.renew with
      | some (era, o, _, _) => era = n.era && o = out
      | none => l.era = n.era && l.out = out)

/-- The link of target number `out`. -/
def outLink (pl : Plane) (n : Node) (slot out : Nat) : Option Link := pl.links.find? fun l => l.isOut n slot out

/-- A free slot; a zero-slot link is free while its consumer has still to fire with its producer (R46, log 10). -/
def Link.hasRoom (l : Link) : Bool := l.toks.length < max l.cap 1

/-- The links with the first one that satisfies a test changed. -/
def updateFirst {β : Type} (test : β → Bool) (g : β → β) : List β → List β
  | [] => []
  | x :: rest => if test x then g x :: rest else x :: updateFirst test g rest

/-- The third target of `fan` (R113). -/
def thirdTarget (w : Word) : Target :=
  if fabricOpc w = 0x03 then (decodeTarget (bits w 0 11)).getD .absent else .absent

/-- Target number `out` of a node's word. -/
def outTarget (f : Fields) (w : Word) (out : Nat) : Target :=
  if out = 0 then f.tga else if out = 1 then f.tgb else thirdTarget w

/-- A target can take a token now. Kind-10 targets are their instructions' own. -/
def At.ready (a : At) (f : Fields) (out : Nat) : Bool :=
  match outTarget f a.node.word out with
  | .operand .. => (match outLink a.pl a.node a.slot out with | some l => l.hasRoom | none => false)
  | _ => true

/-- The lanes of an accumulator register that a token's records replace (R131). -/
def accReplace (old : Vector Lane 16) (t : Token) : Vector Lane 16 :=
  (List.range 16).foldl (fun v i => if bitAt t.valid i then vput v i (vget t.payload i 0) else v) old

/-- A token placed into target number `out`: a link, or an accumulator register for its records (R131). -/
def placeOut (pl : Plane) (n : Node) (slot : Nat) (f : Fields) (out : Nat) (t : Token) : Plane :=
  match outTarget f n.word out with
  | .operand .. =>
    { pl with links := updateFirst (fun l => l.isOut n slot out) (fun l => { l with toks := l.toks ++ [t] }) pl.links }
  | .acc r =>
    if t.marker = Mk.data then { pl with a := vput pl.a r.toNat (accReplace (vget pl.a r.toNat (Vector.replicate 16 0)) t) }
    else pl
  | _ => pl

/-- The plane after a node has taken the head token of some operand slots. -/
def takeSlots (pl : Plane) (n : Node) (slot : Nat) (os : List Slot) : Plane :=
  os.foldl
    (fun pl o => { pl with
      links := updateFirst (fun l => l.dst = slot && l.opd == o && l.era = n.era) Link.take pl.links })
    pl

/-! ### Faults, the blocked state -/

/-- Stream positions of the records of a token, counted among its valid lanes: the position of lane i (R96). -/
def lanePos (valid : BitVec 16) (base i : Nat) : Nat :=
  base + ((List.range i).filter fun j => bitAt valid j).length

/-- Number of records of a token. -/
def records (valid : BitVec 16) : Nat := lanePos valid 0 16

/-- FLTPOS or FLTAUX of a node and a position (Table 15-1). -/
def positionWord (node plane pos : Nat) : Word :=
  (1 : BitVec 1) ++ BitVec.ofNat 7 node ++ BitVec.ofNat 2 plane ++ (0 : BitVec 6) ++ BitVec.ofNat 48 pos

/-- The sequencer that launched a plane's chain. -/
def launcher (planeKey : Nat) (pl : Plane) : Nat :=
  match pl.chain with
  | some c => c.seq
  | none => planeKey / 4

/-- The fault registers of a fabric fault (R386, R387). -/
def SysRegs.fabric (x : SysRegs) (plane bpc node pos : Nat) (cause : Cause) (addr aux : Word) : SysRegs :=
  { x with
    fltcause := (0 : BitVec 56) ++ cause.code, fltaddr := addr, fltpos := positionWord node (plane % 4) pos
    fltbpc := BitVec.ofNat 64 bpc, fltaux := aux }

/-- The freeze protocol of R386: the plane stops, the context's fault registers are written, and the sequencer that runs
the context has a pending event; while a handler runs ESTAT.PENDF holds it (R384). -/
def State.fabricFault (s : State) (plane : Nat) (bpc : Nat) (node pos : Nat) (cause : Cause) (addr aux : Word) : State :=
  let pl := s.plane plane
  let q := plane / 4
  let v := s.seq q
  let x := (s.sysOf plane).fabric plane bpc node pos cause addr aux
  if s.planeOf q = some plane then
    (s.setPlane plane { pl with frozen := .fault }).setSeq q { v.withSys x with
      estat := if EStat.inh v.estat then v.estat ||| 4 else v.estat
      pendFault := some (cause, addr) }
  else s.setPlane plane { pl with frozen := .fault, sys := x }

/-- A node's fabric fault at a stream position (R70, R387). -/
def At.fault (a : At) (s : State) (cause : Cause) (addr : Word) (pos : Nat) : State :=
  s.fabricFault a.plane ((a.inst.map Inst.header).getD 0) a.node.index pos cause addr 0

/-- Board-local coordinates of a slot's square (R13, R14). -/
def squareXY (region slot : Nat) : Nat × Nat :=
  let r := region % 32
  let idx := slot % 256 / 8
  let v := idx / 4
  let odd := if isMemorySlot slot then 1 else 0
  let u := 2 * (idx % 4) + (v + odd) % 2
  (r % 8 * 8 + u, r / 8 * 8 + v)

/-- A BLKST record (Table 2-10). -/
def blkstWord (cause : BitVec 8) (node plane : Nat) (sq : Option (Nat × Nat × Nat)) : Word :=
  let (x, y, st) := sq.getD (0, 0, 0)
  (1 : BitVec 1) ++ bit1 sq.isSome ++ (0 : BitVec 6) ++ cause ++ BitVec.ofNat 8 node ++ BitVec.ofNat 2 plane ++
    BitVec.ofNat 6 x ++ BitVec.ofNat 5 y ++ BitVec.ofNat 3 st ++ (0 : BitVec 24)

/-- The element of a slot for BLKST: x, y and stage (R60). -/
def slotElement (region slot : Nat) : Nat × Nat × Nat :=
  let (x, y) := squareXY region slot
  (x, y, if isMemorySlot slot then 0 else slot % 8)

/-- A failure on its way to a sequencer's BLKST (R59). -/
def State.report (s : State) (q : Nat) (w : Word) : State :=
  let v := s.seq q
  s.setSeq q { v with reports := v.reports ++ [w] }

/-- The blocked state (R56): the element accepts no tokens any more, BLKST records it, and a block instance's element
raises BLOCKED at the first record that it did not accept. -/
def At.block (a : At) (s : State) (cause : BitVec 8) : State :=
  let s := s.setNode a { a.node with phase := .blocked }
  let s := s.report (launcher a.plane a.pl)
    (blkstWord cause a.node.index (a.plane % 4) (some (slotElement a.region a.slot)))
  match a.inst with
  | some _ => a.fault s .blocked 0 a.node.pos
  | none => s

/-! ### Inputs -/

/-- A free marker (Table 4-1): FENCE, FAULT, SCALE, CFG or TRIG. -/
def isFree (m : Marker) : Bool := 5 ≤ m.toNat && m.toNat ≤ 9
/-- A positional marker: EOR or EOT. -/
def isPositional (m : Marker) : Bool := m = Mk.eor || m = Mk.eot
/-- A wavefront marker: DRAIN or SWITCH. -/
def isWave (m : Marker) : Bool := m = Mk.drain || m = Mk.switch

/-- One named input: its slot, whether it is sticky, and the token at its head. -/
structure Head where
  slot : Slot
  sticky : Bool
  tok : Option Token
  deriving DecidableEq, Repr

/-- The heads of a node's named inputs. -/
def At.heads (a : At) (ins : List Slot) : List Head :=
  ins.map fun o =>
    match inLink a.pl a.node a.slot o with
    | some l => { slot := o, sticky := l.sticky, tok := l.toks.head? }
    | none => { slot := o, sticky := false, tok := none }

/-- What a paired or single-input node meets at its inputs (R93, R99, R106). -/
inductive Meets where
  | nothing
  | reserved (o : Slot)
  | free (o : Slot) (t : Token)
  | positional (t : Token)
  | wave (m : Marker)
  | misaligned
  | data
  deriving DecidableEq, Repr

/-- The first head whose marker satisfies a test. -/
def firstMark (hs : List Head) (test : Marker → Bool) : Option (Slot × Token) :=
  hs.findSome? fun h => h.tok.bind fun t => if test t.marker then some (h.slot, t) else none

/-- The order of R99: a reserved marker blocks; then a free marker at the lowest slot; positional markers join; the
wavefront joins; data fires when every input has a token. -/
def meets (hs : List Head) : Meets :=
  let ns := hs.filter fun h => !h.sticky
  match firstMark ns (fun m => 10 ≤ m.toNat) with
  | some (o, _) => .reserved o
  | none =>
    match firstMark ns isFree with
    | some (o, t) => .free o t
    | none =>
      match firstMark ns (fun m => isPositional m || isWave m) with
      | some (_, t) =>
        if ns.any fun h => match h.tok with | some x => x.marker != t.marker | none => false then .misaligned
        else if ns.any fun h => h.tok.isNone then .nothing
        else if isPositional t.marker then .positional t else .wave t.marker
      | none => if hs.all fun h => h.tok.isSome then .data else .nothing

/-- The token at the head of a slot. -/
def headOf (hs : List Head) (o : Slot) : Token :=
  match hs.find? fun h => h.slot == o with
  | some h => h.tok.getD Token.empty
  | none => Token.empty

/-- The non-sticky slots of some heads. -/
def movingSlots (hs : List Head) : List Slot := (hs.filter fun h => !h.sticky).map Head.slot

/-- The operand slots of an instruction with its predicate's (R47). -/
def withPred (f : Fields) (ins : List Slot) : List Slot :=
  if f.pm == .always then ins
  else ins.filter (fun o => o != .c) ++ [.p] ++ ins.filter (fun o => o == .c)

/-- PredOK(i) of R47: the container at slot p alone decides. -/
def predOk (f : Fields) (p : Token) (i : Nat) : Bool :=
  match f.pm with
  | .always => true
  | .ifp => vget p.payload i 0 != 0
  | .ifn => vget p.payload i 0 == 0

/-! ### Firing -/

/-- One firing (R93): some head tokens taken, some tokens placed, the node's state, flags (R81) and the charge of a
stage's firing (R461). Without room at a target the node waits (R30). -/
def fire (s : State) (a : At) (f : Fields) (taken : List Slot) (outs : List (Nat × Token)) (n : Node)
    (fl : FFlags) : Res :=
  if outs.all fun o => a.ready f o.1 then
    let pl := takeSlots a.pl a.node a.slot taken
    let pl := outs.foldl (fun pl o => placeOut pl a.node a.slot f o.1 o.2) pl
    let s := s.setPlane a.plane { pl with nodes := Tab.put pl.nodes a.slot n, flags := pl.flags ||| fl }
    .next (if isMemorySlot a.slot then s else s.charge a.region 19)
  else stall s

/-- A token to every target. -/
def toAll (t : Token) : List (Nat × Token) := [(0, t), (1, t), (2, t)]

/-- The depth code that a node's next word gives the link to an operand of a slot, whichever of its targets names it; 0
where none does: R98 gives such a SWITCH no code (log 105). -/
def At.newCode (a : At) (dst : Nat) (o : Slot) : BitVec 3 :=
  let next : Option Inst := a.pl.chain.bind fun c => match c.next with | some i => some i | none => some c.cur
  match a.node.shadow, next with
  | some w, some i =>
    let slots := blockSlots i.head i.words i.place
    ((wordLinks i.words.length 0 w).findSome? fun g =>
      if slots[g.dst]? == some dst && g.opd == o then some g.depth else none).getD 0
  | _, _ => 0

/-- Payload of the SWITCH on a link: the link's new depth code (Table 4-1, R108). -/
def switchToken (a : At) (out : Nat) : Token :=
  let code : BitVec 3 :=
    match outLink a.pl a.node a.slot out with
    | some l => a.newCode l.dst l.opd
    | none => 0
  { Token.empty with marker := Mk.switch, payload := vput Token.empty.payload 0 (code.setWidth 32) }

/-- EMIT (Table 4-2): the wavefront marker goes into each target that has room; when every target has it, the node goes
on to `done`. -/
def emitTo (s : State) (a : At) (f : Fields) (done : NPhase) : Res :=
  let todo := [0, 1, 2].filter fun o => !a.node.sent.contains o
  let now := todo.filter fun o => a.ready f o
  let tok (o : Nat) : Token := if a.node.emitting = Mk.switch then switchToken a o else Token.mark a.node.emitting
  let pl := now.foldl (fun pl o => placeOut pl a.node a.slot f o (tok o)) a.pl
  let sent := a.node.sent ++ now
  let n := if sent.length < 3 then { a.node with sent } else { a.node with sent := [], phase := done }
  .next (s.setPlane a.plane { pl with nodes := Tab.put pl.nodes a.slot n })

/-- What follows a wavefront marker: RECONF after SWITCH, RUN after DRAIN (R105). -/
def Node.afterWave (n : Node) : NPhase := if n.emitting = Mk.switch then .reconf else .run

/-- EMIT of a node without a rule of its own. -/
def emitStep (s : State) (a : At) (f : Fields) : Res := emitTo s a f a.node.afterWave

/-- The node begins to emit a wavefront marker that it has taken, or first waits in HELD (R105, R107). -/
def wave (s : State) (a : At) (taken : List Slot) (m : Marker) : Res :=
  let pl := takeSlots a.pl a.node a.slot taken
  let n := { a.node with phase := if isMemorySlot a.slot then .held else .emit, emitting := m, sent := [] }
  .next (s.setPlane a.plane { pl with nodes := Tab.put pl.nodes a.slot n })

/-- Accumulator registers that a word names (R132). -/
def accNames (w : Word) : List Nat :=
  let t (x : BitVec 11) : List Nat := match decodeTarget x with | some (.acc r) => [r.toNat] | _ => []
  if fabricOpc w = 0x82 || fabricOpc w = 0x83 then (if bits w 50 2 == 2 then [(bits w 9 6).toNat] else [])
  else t (bits w 35 11) ++ t (bits w 24 11)

/-- A successor's instruction that names an accumulator of its predecessor waits for the commit (R132). -/
def At.accWaits (a : At) : Bool :=
  a.ahead &&
    (match a.pl.chain with
      | some c => c.cur.words.any fun w => (accNames w).any (accNames a.node.word).contains
      | none => false)

/-- A node with the inputs `ins`, its data rule, and a rule for markers that its entry treats apart. -/
def stdNode (s : State) (f : Fields) (ins : List Slot) (onMark : At → List Head → Slot → Token → Option Res)
    (data : At → List Head → Res) : Res :=
  asNode s fun a =>
    match a.node.phase with
    | .emit => emitStep s a f
    | .run =>
      if a.accWaits then stall s
      else
        match a.node.pend with
        | (t, u) :: rest => fire s a f [] [(0, t), (1, u), (2, t)] { a.node with pend := rest } 0
        | [] =>
          let hs := a.heads (withPred f ins)
          match meets hs with
          | .nothing => stall s
          | .reserved _ => .next (a.block s 0x10)
          | .misaligned => .next (a.fault s .mkalign 0 a.node.pos)
          | .free o t =>
            (match onMark a hs o t with
              | some r => r
              | none => fire s a f [o] (toAll t) a.node 0)
          | .positional t =>
            let n := { a.node with ended := a.node.ended || t.marker = Mk.eot }
            (match onMark { a with node := n } hs .a t with
              | some r => r
              | none => fire s a f (movingSlots hs) (toAll t) n 0)
          | .wave m => wave s a (movingSlots hs) m
          | .data => data a hs
    | _ => stall s

/-- No marker is treated apart. -/
def plainMarks : At → List Head → Slot → Token → Option Res := fun _ _ _ _ => none

/-! ### Lanes -/

/-- A vector of sixteen lanes. -/
def lanes {β : Type} (g : Nat → β) : Vector β 16 :=
  #v[g 0, g 1, g 2, g 3, g 4, g 5, g 6, g 7, g 8, g 9, g 10, g 11, g 12, g 13, g 14, g 15]

/-- Sixteen valid bits. -/
def validBits (g : Nat → Bool) : BitVec 16 :=
  (List.range 16).foldl (fun v i => if g i then v ||| (1#16 <<< i) else v) 0

/-- A data token: each lane holds a value or no record; lanes take pips and record of the token `t` (R128, R285). -/
def laneToken (t : Token) (g : Nat → Option Lane) : Token :=
  { marker := Mk.data
    payload := lanes fun i => (g i).getD 0
    valid := validBits fun i => (g i).isSome
    pips := lanes fun i => if (g i).isSome then vget t.pips i 0 else 0
    rids := lanes fun i => if (g i).isSome then vget t.rids i 0 else 0 }

/-- A token with its records limited to the lanes of a test; other lanes keep their payload but carry no record. -/
def Token.restrict (t : Token) (g : Nat → Bool) : Token :=
  let keep (i : Nat) : Bool := bitAt t.valid i && g i
  { t with valid := validBits keep
           pips := lanes fun i => if keep i then vget t.pips i 0 else 0
           rids := lanes fun i => if keep i then vget t.rids i 0 else 0 }

/-- Lane i carries a record. -/
def Token.has (t : Token) (i : Nat) : Bool := bitAt t.valid i

/-- Value of lane i. -/
def Token.at (t : Token) (i : Nat) : Lane := vget t.payload i 0

/-- Flags of the lanes that carry records, ORed (R81). -/
def orFlags (g : Nat → FFlags) : FFlags := (List.range 16).foldl (fun v i => v ||| g i) 0

/-- The node after it has taken a token at slot a: its records have stream positions now (R96). -/
def Node.took (n : Node) (t : Token) : Node := { n with pos := n.pos + records t.valid }

/-- A lane-by-lane instruction (R128): g gives the value and flags of a live lane. -/
def laneNode (s : State) (f : Fields) (ins : List Slot)
    (g : At → (Slot → Lane) → Lane × FFlags) : Res :=
  stdNode s f ins plainMarks fun a hs =>
    let p := headOf hs .p
    let live (i : Nat) : Bool := predOk f p i && ins.all fun o => (headOf hs o).has i
    let r (i : Nat) : Lane × FFlags := g a fun o => (headOf hs o).at i
    let t := laneToken (headOf hs .a) fun i => if live i then some (r i).1 else none
    fire s a f (movingSlots hs) [(0, t), (1, t)] (a.node.took (headOf hs .a))
      (orFlags fun i => if live i then (r i).2 else 0)

end Sys2Proof.Machine
end

