-- ==== Sys2Proof/Machine/Fetch.lean ====
section
/-!
DEFINITION. Sequencer fetch (R61, R67, R239) and the exceptions of fetching and decoding (R66).
-/

namespace Sys2Proof.Machine

/-- What comes of fetching a word: the word, or the state in which the fetch has faulted or waits. -/
inductive Fetched where
  | word (w : Lane)
  | out (s : State)
  deriving DecidableEq, Repr

/-- The keys of n bytes of code, where their page translates. -/
def State.codeKeys (s : State) (q addr n : Nat) : List Nat :=
  match s.seqTranslate q (reqFetch q) addr .fetch with
  | .ok p => keysFrom p.key n
  | _ => []

/-- The range of an `inv` meets n bytes of code: at their addresses, or at the bytes under another address (Table 9-2). -/
def State.invMeets (s : State) (q addr n : Nat) (e : Ev) : Bool :=
  (e.va < addr + n && addr < e.va + e.size) || (s.codeKeys q addr n).any fun k => e.pieces.any fun p => p.key = k

/-- An unissued `inv` of a range stands before the fetch of n bytes in it (Table 9-2). -/
def State.invBefore (s : State) (q addr n : Nat) : Bool :=
  (s.agent q).q.any fun e => e.kind == .inv && s.invMeets q addr n e

/-- The word at an address: a word fetched ahead of its use, else read now on a page with X (R67, R239). A fault is
precise at the instruction's IP, with the word's address (R61, R347). -/
def State.fetchWord (s : State) (q : Nat) (addr : Word) : Fetched :=
  if 2 ^ 52 ≤ addr.toNat then .out (s.raise q .varange addr)
  else if s.invBefore q addr.toNat 4 then .out s
  else
    match Tab.find? (s.seq q).fetched addr.toNat with
    | some w => .word w
    | none =>
        match s.seqTranslate q (reqFetch q) addr.toNat .fetch with
        | .ok p => if s.linkUp p.key then .word (BitVec.ofNat 32 (leNat (s.readBytes (.seq q) p.key 4))) else .out s
        | .void => .word 0
        | .fault c => .out ((s.dropBad (reqFetch q) (s.ctxNo q) (addr.toNat / 2 ^ 16)).raise q c addr)
        | _ => .out (s.startWalk (reqFetch q) (boardOfSeq q) (s.ctxNo q) addr.toNat false)

/-- The two words of the instruction at IP; the second is 0 for a one-word form (R61). -/
inductive FetchedInstr where
  | words (w w2 : Lane)
  | out (s : State)
  deriving DecidableEq, Repr

def State.fetchInstr (s : State) (q : Nat) : FetchedInstr :=
  let v := s.seq q
  match s.fetchWord q v.ip with
  | .out t => .out t
  | .word w =>
    if twoWords (seqOp w) then
      match s.fetchWord q (v.ip + 4) with
      | .out t => .out t
      | .word w2 => .words w w2
    else .words w 0

/-- The words of the instruction at IP that have not been fetched ahead of their use charge their reads (R239, R461). -/
def State.chargeFetch (s t : State) (q : Nat) : State :=
  let v := s.seq q
  let two := match s.fetchWord q v.ip with | .word w => twoWords (seqOp w) | .out _ => false
  let read (t : State) (a : Word) : State :=
    if (Tab.find? v.fetched a.toNat).isSome then t
    else match s.codeKeys q a.toNat 4 with
      | k :: _ => t.chargeAt (agentRegion (.seq q)) k 1
      | [] => t
  if two then read (read t v.ip) (v.ip + 4) else read t v.ip

/-- A word fetched ahead of its use (R67, R239): it may be used until a fence or an `inv` lets it go. No fetch passes an
`inv` of its range that has not issued. -/
def State.fetchAhead (s : State) (q addr : Nat) : State :=
  if addr % 4 != 0 || 2 ^ 52 ≤ addr || s.invBefore q addr 4 then s
  else
    match s.seqTranslate q (reqFetch q) addr .fetch with
    | .ok p =>
      if !s.linkUp p.key then s
      else
        let v := s.seq q
        let w := BitVec.ofNat 32 (leNat (s.readBytes (.seq q) p.key 4))
        (s.setSeq q { v with fetched := Tab.put v.fetched addr w }).chargeAt (agentRegion (.seq q)) p.key 1
    | _ => s

/-- The fetch that has failed takes its trap; without one the turn passes (R61, R66). -/
def execFetchFault (s : State) : Res :=
  match s.me with
  | none => .refused .notItsAgent
  | some q =>
    match s.fetchInstr q with
    | .out t => .next t
    | .words .. => stall s

/-- ILLOP of R66: an illegal word has no effect but the trap. -/
def execIllop (s : State) : Res :=
  match s.me with
  | none => .refused .notItsAgent
  | some q => .next (s.raise q .illop 0)

end Sys2Proof.Machine
end

