-- ==== Sys2Proof/Machine/SeqMemory.lean ====
section
/-!
DEFINITION. The sequencer's loads, stores, jumps and port accesses (R334, R339 to R345, R347, R348).
-/

namespace Sys2Proof.Machine

/-- `sld` (R339): a plain read of 8 bytes; its destination is outstanding until the value returns (R330). -/
def execSld (d a : SReg) (i : BitVec 14) (s : State) : Res :=
  issueAs s .user true fun q =>
    let v := s.seq q
    if !v.allReady [d, a] || 8 ≤ s.loadsHeld q then stall s
    else
      let va := v.read a + sext14 i
      match s.reach q (reqLoad q) va 8 .read with
      | .out t => .next t
      | .void => .next (s.finish q d 0 4)
      | .to p =>
        let e := { s.seqEvent q va 8 p .read with dest := .sreg q v.priv d false }
        let t := s.setSeq q (v.setOut v.priv d true)
        .next ((t.place q e).advance q 4)

/-- `sst` (R339): a plain write of 8 bytes; the D field names the register stored. -/
def execSst (d a : SReg) (i : BitVec 14) (s : State) : Res :=
  issueAs s .user false fun q =>
    let v := s.seq q
    if !v.allReady [d, a] || 16 ≤ s.storesHeld q then stall s
    else
      let va := v.read a + sext14 i
      match s.reach q (reqLoad q) va 8 .write with
      | .out t => .next t
      | .void => .next (s.advance q 4)
      | .to p =>
        let e := (s.seqEvent q va 8 p .write).withBytes (leBytes 8 (v.read d).toNat)
        .next ((s.place q e).afterStore q 4 s.nextId (s.seqHit q va 8))

/-! ### Ports (R334, R340 to R343) -/

/-- One side of a port. -/
def State.side (s : State) (r p : Nat) (wr : Bool) : Side :=
  let port := vget (s.region r).ports p Port.empty
  if wr then port.wr else port.rd

def State.setSide (s : State) (r p : Nat) (wr : Bool) (v : Side) : State :=
  let g := s.region r
  let port := vget g.ports p Port.empty
  s.setRegion r { g with ports := vput g.ports p (if wr then { port with wr := v } else { port with rd := v }) }

/-- A job is bound to the side: its own binding, a binding that holds it, or a job that runs (R334). -/
def Side.hasJob (v : Side) : Bool := v.bind.isSome || v.job.isSome || v.heldBy.isSome

/-- The port that a configured `inp` or `outp` word names. -/
def portOfWord (w : Word) : Option (Nat × Bool) :=
  if fabricOpc w = 0x01 then some ((bits w 0 3).toNat, false)
  else if fabricOpc w = 0x02 then some ((bits w 37 7).toNat, true)
  else none

/-- A block of the context that is configured in a plane's region has an `inp` (or an `outp`) on the port there: a node of
the plane, or one of the partner half of a fused block that the context launched in the region before it (R52, R334, R343). -/
def State.usesPort (s : State) (k p : Nat) (outp : Bool) : Bool :=
  let names (n : Nat × Node) : Bool := portOfWord n.2.word == some (p, outp)
  ((s.plane k).nodes.any fun n => n.1 < 512 && names n) ||
    (4 ≤ k && [0, 1, 2, 3].any fun j =>
      let before := s.plane (planeKey (k / 4 - 1) j)
      before.ctx == (s.plane k).ctx && before.nodes.any fun n => 512 ≤ n.1 && names n)

/-- A block has an `inp` (or an `outp`) on a port of the region that launched it (R52). -/
def Inst.usesPort (i : Inst) (p : Nat) (outp : Bool) : Bool :=
  (indexed i.words).any fun w => portOfWord w.2 == some (p, outp) && !(Head128.shape i.head = 1 && 64 ≤ w.1)

/-- A block of the running chain, its checked successor included, has an `inp` (or an `outp`) on the port (R334). -/
def Plane.chainUses (k : Plane) (p : Nat) (outp : Bool) : Bool :=
  match k.chain with
  | some c => c.cur.usesPort p outp || (match c.next with | some i => i.usesPort p outp | none => false)
  | none => false

/-- What R334 checks before an access of a plane's sequencer to a side of its port p; false raises QPORT. `wr` names the
side. -/
def State.portOk (s : State) (v : Side) (k p : Nat) (x push wr : Bool) : Bool :=
  let stuck := if push then 16 ≤ v.toks.length else v.toks.isEmpty
  if x then !v.hasJob && !(stuck && !(s.plane k).chainUses p wr)
  else !s.usesPort k p wr && !(stuck && !v.hasJob)

/-- The plane that a sequencer's context holds, or `none`: a root core has no ports and no plane. -/
def withPlane (s : State) (q : Nat) (f : Nat → Res) : Res :=
  if isRoot q then .next (s.raise q .sysval 0)
  else match s.planeOf q with
    | some k => f k
    | none => .next (s.raise q .sysval 0)

/-- `qpop` (R341): one lane of the head token; .p removes the token. -/
def execQpop (d : SReg) (p : QReg) (lane : BitVec 4) (pop x sx : Bool) (s : State) : Res :=
  issueAs s .user true fun q =>
    let v := s.seq q
    if !v.ready d then stall s
    else withPlane s q fun k =>
      let side := s.side q p.toNat x
      if !s.portOk side k p.toNat x false x then .next (s.raise q .qport 0)
      else
        match side.toks with
        | [] => stall s
        | t :: rest =>
          let l := vget t.payload lane.toNat 0
          let y : Word := if sx then l.signExtend 64 else l.setWidth 64
          let s := if pop then s.setSide q p.toNat x { side with toks := rest } else s
          .next (s.finish q d y 4)

/-- The token that a `qpush` with .p pushes (R342). -/
def pushedToken (mk : PushMark) (t : Token) : Token :=
  match mk with
  | .data => t
  | .eor => Token.mark Mk.eor
  | .eot => Token.mark Mk.eot
  | .trig => Token.mark Mk.trig
  | .scale => { t with marker := Mk.scale, valid := 0 }
  | .cfg => { t with marker := Mk.cfg, valid := 0 }

/-- `qpush` (R342): one lane of the staging token; .p pushes the token. -/
def execQpush (p : QReg) (a : SReg) (lane : BitVec 4) (push x : Bool) (mk : PushMark) (s : State) : Res :=
  issueAs s .user true fun q =>
    let v := s.seq q
    if !v.ready a then stall s
    else withPlane s q fun k =>
      let side := s.side q p.toNat (!x)
      if !s.portOk side k p.toNat x true (!x) then .next (s.raise q .qport 0)
      else
        let st := vget v.staging p.toNat Token.empty
        let st := { st with payload := vput st.payload lane.toNat (bits (v.read a) 0 32)
                            valid := setBit st.valid lane.toNat true }
        if !push then .next ((s.setSeq q { v with staging := vput v.staging p.toNat st }).advance q 4)
        else if 16 ≤ side.toks.length then stall s
        else
          let s := s.setSide q p.toNat (!x) { side with toks := side.toks ++ [pushedToken mk st], plane := k % 4 }
          .next ((s.setSeq q { v with staging := vput v.staging p.toNat Token.empty }).advance q 4)

/-- The `qstat` value (Table 13-6). -/
def qstatValue (popSide pushSide rd wr : Side) (rfab wfab : Bool) : Word :=
  let head := popSide.toks.head?
  let hmk : BitVec 4 := match head with | some t => t.marker | none => 0
  let hval : BitVec 16 := match head with | some t => t.valid | none => 0
  (0 : BitVec 24) ++ hmk ++ hval ++ BitVec.ofNat 5 popSide.toks.length ++ BitVec.ofNat 5 (16 - pushSide.toks.length) ++
    bit1 rd.bind.isSome ++ bit1 rd.job.isSome ++ bit1 wr.bind.isSome ++ bit1 wr.job.isSome ++
    bit1 rfab ++ bit1 wfab ++ (0 : BitVec 4)

/-- `qstat` (R343): the port's state in one snapshot. -/
def execQstat (d : SReg) (p : QReg) (x : Bool) (s : State) : Res :=
  issueAs s .user true fun q =>
    let v := s.seq q
    if !v.ready d then stall s
    else withPlane s q fun k =>
      let rd := s.side q p.toNat false
      let wr := s.side q p.toNat true
      let fab (outp : Bool) : Bool := s.usesPort k p.toNat outp
      let y := if x then qstatValue wr rd rd wr (fab false) (fab true) else qstatValue rd wr rd wr (fab false) (fab true)
      .next (s.finish q d y 4)

/-! ### Jumps (R344, R345) -/

/-- The IP set. -/
def State.jump (s : State) (q : Nat) (target : Word) : State := s.setSeq q { s.seq q with ip := target }

/-- A `bcc` target that a slice allows (R335): past both words, and at most one past the slice's end. -/
def sliceTargetOk (v : Seq) (target : Word) : Bool :=
  match v.slice with
  | some c => (v.ip + 8).toNat ≤ target.toNat && target.toNat ≤ c.base + 4 * c.len
  | none => true

/-- `bcc` (R63, R344). -/
def execBcc (c : Cond) (off : BitVec 19) (a b : SReg) (s : State) : Res :=
  issueAs s .user true fun q =>
    let v := s.seq q
    let target := v.ip + wordOffset off
    let go (taken : Bool) : Res :=
      if !taken then .next (s.jump q (v.ip + 8))
      else if v.inSlice && !sliceTargetOk v target then .next (s.raise q .sliceop v.ip)
      else .next (s.jump q target)
    if c.isCompare then if !v.allReady [a, b] then stall s else go (compareHolds c (v.read a) (v.read b))
    else if v.outstanding a then stall s
    else go (tokenHolds c (v.token a))

/-- `jal` (R345): its target is always a multiple of 4. -/
def execJal (d : SReg) (off : BitVec 19) (s : State) : Res :=
  issueAs s .user false fun q =>
    let v := s.seq q
    if !v.ready d then stall s
    else
      let t := v.ip + wordOffset off
      if t.toNat % 4 != 0 then .next (s.raise q .align t)
      else .next ((s.setSeq q (v.write d (v.ip + 4))).jump q t)

/-- `jalr` (R345). -/
def execJalr (d a : SReg) (i : BitVec 14) (s : State) : Res :=
  issueAs s .user false fun q =>
    let v := s.seq q
    if !v.allReady [d, a] then stall s
    else
      let t := v.read a + sext14 i
      if t.toNat % 4 != 0 then .next (s.raise q .align t)
      else .next ((s.setSeq q (v.write d (v.ip + 4))).jump q t)

/-! ### bar and bst (R347, R348) -/

/-- A token operand of `bar` is final: s0, or disarmed with no write outstanding. -/
def Seq.tokenFinal (v : Seq) (r : SReg) : Bool := !v.armed r && !v.outstanding r

/-- A token operand of `bar` reads done. -/
def Seq.tokenDone (v : Seq) (r : SReg) : Bool := r == 0 || v.read r == 1

/-- Every job that the sequencer has issued has ended, and whether each ended done. -/
def Seq.jobsEnded (v : Seq) : Bool := v.jobs.all fun j => j.result.isSome
def Seq.jobsDone (v : Seq) : Bool := v.jobs.all fun j => j.result == some 1

/-- `bar` (R347): waits for the tokens, and with .jobs for every job; when all ended done it skips the next
instruction, whose size its OP field alone gives. -/
def execBar (a b : SReg) (jobs : Bool) (s : State) : Res :=
  issueAs s .user false fun q =>
    let v := s.seq q
    if !(v.tokenFinal a && v.tokenFinal b && (!jobs || v.jobsEnded)) then stall s
    else if v.tokenDone a && v.tokenDone b && (!jobs || v.jobsDone) then
      match s.fetchWord q (v.ip + 4) with
      | .out t => .next t
      | .word w => .next (s.jump q (v.ip + 4 + BitVec.ofNat 64 (seqSize w)))
    else .next (s.advance q 4)

/-- `bst` (R348): BLKST read, and with .clr its V cleared in the same step. -/
def execBst (d : SReg) (clr : Bool) (s : State) : Res :=
  issueAs s .user false fun q =>
    let v := s.seq q
    if !v.ready d then stall s
    else
      let s := if clr then s.setSeq q { v with blkst := v.blkst &&& ~~~((1 : Word) <<< 63) } else s
      .next (s.finish q d v.blkst 4)

end Sys2Proof.Machine
end

