-- ==== Sys2Proof/Machine/FabControl.lean ====
section
/-!
DEFINITION. The fabric control instructions (R110 to R125).
-/

namespace Sys2Proof.Machine

/-- Slots of a depth code (R45). -/
def slotsOfCode (c : BitVec 3) : Nat :=
  match c.toNat with
  | 5 => 6 | 6 => 8 | 7 => 12 | n => n

/-- The element type of the pattern that a side's binding or running job has, if any. -/
def State.sideType (s : State) (r p : Nat) (wr : Bool) : Option (BitVec 4) :=
  let v := s.side r p wr
  let pat : Option (BitVec 256) :=
    match v.bind with
    | some b => some b
    | none =>
      v.job.bind fun n => (s.region r).jobs.findSome? fun e =>
        match e.2.kind with
        | .sgo _ _ b => if e.2.serial = n then some b else none
        | _ => none
  pat.map fun b => bits b 184 4

/-- PORTTY (Table 4-5): TY is not .b32 and differs from the bound pattern's element type. -/
def portTypeBad (s : State) (r p : Nat) (wr : Bool) (ty : ElemTy) : Bool :=
  match s.sideType r p wr with
  | some t => ty != .b32 && t != ty.code
  | none => false

/-- A token whose records are new: each lane has a record identity of its own and no pips (R20, R285, log 5). -/
def Token.fresh (t : Token) (base : Nat) : Token :=
  { t with rids := lanes (fun i => if bitAt t.valid i then base + i else 0), pips := Vector.replicate 16 0 }

/-- Identities for the sixteen lanes of one token taken from the counter. -/
def State.tookIds (s : State) : State := { s with nextId := s.nextId + 16 }

/-- `inp` (R112): the head token of the port's read side to both targets, up to the port's EOT. -/
def execInp (f : Fields) (s : State) : Res :=
  asNode s fun a =>
    match a.node.phase with
    | .emit => emitStep s a f
    | .run =>
      let p := (bits f.imm 0 3).toNat
      let side := s.side a.region p false
      if a.node.ended || side.plane != a.plane % 4 then stall s
      else
        match side.toks with
        | [] => stall s
        | t :: rest =>
          if portTypeBad s a.region p false f.ty then .next (a.fault s .portty 0 0)
          else if 10 ≤ t.marker.toNat then .next (a.block s 0x10)
          else if a.ready f 0 && a.ready f 1 then
            let n := { a.node.took t with ended := t.marker = Mk.eot }
            fire (s.setSide a.region p false { side with toks := rest }).tookIds a f [] (toAll (t.fresh s.nextId)) n 0
          else stall s
    | _ => stall s

/-- `outp` (R112): each token into the port's write side; not before the predecessor's commit (R102). -/
def execOutp (f : Fields) (s : State) : Res :=
  let p : Nat := match f.tga with | .port i => i.toNat | _ => 0
  let send (a : At) (t : Token) (n : Node) : Res :=
    let side := s.side a.region p true
    if a.ahead || min 16 (slotsOfCode f.dpa) ≤ side.toks.length then stall s
    else if portTypeBad s a.region p true f.ty then .next (a.fault s .portty 0 0)
    else
      let side := { side with toks := side.toks ++ [{ t with pips := Token.empty.pips, rids := Token.empty.rids }]
                              plane := a.plane % 4 }
      fire (s.setSide a.region p true side) a f [.a] [] n 0
  stdNode s f [.a]
    (fun a _ _ t =>
      if t.marker = Mk.fault then some (.next (a.fault s .streamflt 0 a.node.pos)) else some (send a t a.node))
    fun a hs => send a (headOf hs .a) (a.node.took (headOf hs .a))

/-- `fan` (R113): each token to three targets; PM clears lanes. -/
def execFan (f : Fields) (s : State) : Res :=
  stdNode s f [.a] plainMarks fun a hs =>
    let t := headOf hs .a
    fire s a f (movingSlots hs) (toAll (t.restrict (predOk f (headOf hs .p)))) (a.node.took t) 0

/-- The token of Sequence (R114) that begins with index k of N. -/
def sequenceToken (k n : Nat) : Token :=
  { Token.empty with
    payload := lanes fun i => if k + i < n then BitVec.ofNat 32 (k + i) else 0
    valid := validBits fun i => decide (k + i < n) }

/-- One token of a running sequence, or what closes it. -/
def genStep (s : State) (a : At) (f : Fields) (limit : Nat) (close : Marker) (closed : Node) : Res :=
  if a.node.count < limit then
    let t := (sequenceToken a.node.count limit).fresh s.nextId
    if a.ready f 0 && a.ready f 1 then
      fire s.tookIds a f [] (toAll t) { a.node.took t with count := a.node.count + 16 } 0
    else stall s
  else fire s a f [] (toAll (Token.mark close)) closed 0

/-- The lowest lane that carries a record. -/
def Token.lowest (t : Token) : Option Nat := (List.range 16).find? fun i => bitAt t.valid i

/-- The highest lane that carries a record. -/
def Token.highest (t : Token) : Option Nat := (List.range 16).reverse.find? fun i => bitAt t.valid i

/-- `gen` and `gen.c` (R114). -/
def execGen (f : Fields) (s : State) : Res :=
  asNode s fun a =>
    match a.node.phase with
    | .emit => emitStep s a f
    | .run =>
      let idle := { a.node with fired := false, count := 0 }
      let closed := { idle with ended := true }
      if a.node.ended && f.fn == 0 then stall s
      else if f.fn == 0 then genStep s a f f.imm.toNat Mk.eot closed
      else
        let hs := a.heads [.c]
        let sticky := hs.any fun h => h.sticky
        if a.node.fired then
          genStep s a f a.node.limit (if sticky then Mk.eot else Mk.eor) (if sticky then closed else idle)
        else if sticky && a.node.ended then stall s
        else
          match meets hs with
          | .reserved _ => .next (a.block s 0x10)
          | .free o t => fire s a f [o] (toAll t) a.node 0
          | .positional t =>
            if t.marker = Mk.eot then fire s a f [.c] (toAll t) closed 0 else fire s a f [.c] [] a.node 0
          | .wave m => wave s a [.c] m
          | .data =>
            let t := headOf hs .c
            (match t.lowest with
              | some i => fire s a f (movingSlots hs) [] { a.node with fired := true, count := 0, limit := (t.at i).toNat } 0
              | none => fire s a f (movingSlots hs) [] a.node 0)
          | _ => stall s
    | _ => stall s

/-- `ext` (R115): one sticky token with the value in every lane. -/
def execExt (f : Fields) (s : State) : Res :=
  asNode s fun a =>
    match a.node.phase with
    | .run =>
      if a.node.fired then stall s
      else
        let hs := a.heads (if f.fn == 2 then [.a] else [])
        if hs.any fun h => h.tok.isNone then stall s
        else
          let low := (headOf hs .a).at 0
          let v : Lane :=
            match f.fn.toNat with
            | 0 => f.imm.setWidth 32
            | 1 => f.imm.signExtend 32
            | 2 => f.imm ++ bits low 0 16
            | _ => f.imm ++ (0 : BitVec 16)
          let t := { Token.empty with payload := Vector.replicate 16 v, valid := 0xFFFF }
          fire s a f [] (toAll t) { a.node with fired := true } 0
    | _ => stall s

/-- `filt` (R116): records split by the condition at slot b; `.nz` suppresses empty tokens. -/
def execFilt (f : Fields) (s : State) : Res :=
  stdNode s f [.a, .b] plainMarks fun a hs =>
    let t := headOf hs .a
    let c := headOf hs .b
    let r (i : Nat) : Bool := predOk f (headOf hs .p) i
    let yes := t.restrict fun i => r i && c.has i && c.at i != 0
    let no := t.restrict fun i => r i && !(c.has i && c.at i != 0)
    let keep (x : Token) : Bool := f.fn == 0 || x.valid != 0
    fire s a f (movingSlots hs) ((if keep yes then [(0, yes)] else []) ++ (if keep no then [(1, no)] else []))
      (a.node.took t) 0

/-- `sel` (R117): each lane from a or b by c. -/
def execSel (f : Fields) (s : State) : Res :=
  stdNode s f [.a, .b, .c] plainMarks fun a hs =>
    let x := headOf hs .a
    let y := headOf hs .b
    let c := headOf hs .c
    let from_ (i : Nat) : Token := if c.has i && c.at i != 0 then x else y
    let live (i : Nat) : Bool := (from_ i).has i && predOk f (headOf hs .p) i
    let t : Token :=
      { marker := Mk.data
        payload := lanes fun i => (from_ i).at i
        valid := validBits live
        pips := lanes fun i => if live i then vget (from_ i).pips i 0 else 0
        rids := lanes fun i => if live i then vget (from_ i).rids i 0 else 0 }
    fire s a f (movingSlots hs) [(0, t), (1, t)] (a.node.took x) 0

/-! ### mrg, loop and hold -/

/-- R468: a DRAIN at the head of one of the two inputs, its owed count, and the other's: consumed when owed, else
forwarded, the other input owing one. -/
def owedDrain (s : State) (a : At) (taken : List Slot) (atB : Bool) : Res :=
  let n := a.node
  let owed := if atB then n.owedB else n.owedA
  let pl := takeSlots a.pl n a.slot taken
  let n' :=
    if 0 < owed then (if atB then { n with owedB := owed - 1 } else { n with owedA := owed - 1 })
    else
      let m := { n with phase := .emit, emitting := Mk.drain, sent := [] }
      if atB then { m with owedA := n.owedA + 1 } else { m with owedB := n.owedB + 1 }
  .next (s.setPlane a.plane { pl with nodes := Tab.put pl.nodes a.slot n' })

/-- The marker at an optional head. -/
def markOf (t : Option Token) : Option Marker := t.map Token.marker

/-- The token can be taken by `mrg`: data or a free marker. -/
def takable (t : Option Token) : Bool :=
  match t with
  | some x => x.marker = Mk.data || isFree x.marker
  | none => false

/-- The node after a token of `mrg` has been taken from one input. -/
def mrgTake (s : State) (a : At) (f : Fields) (o : Slot) (t : Option Token) (turn : Bool) : Res :=
  match t with
  | some x =>
    let n := { (if x.marker = Mk.data then a.node.took x else a.node) with turn }
    fire s a f [o] (toAll x) n 0
  | none => stall s

/-- `mrg` (R118). `turn` is b's turn in `.alt`, and a's stream being closed in `.cat`. -/
def execMrg (f : Fields) (s : State) : Res :=
  asNode s fun a =>
    match a.node.phase with
    | .emit => emitStep s a f
    | .run =>
      let hs := a.heads [.a, .b]
      let ta := (hs.find? fun h => h.slot == .a).bind Head.tok
      let tb := (hs.find? fun h => h.slot == .b).bind Head.tok
      let is (t : Option Token) (m : Marker) : Bool := markOf t == some m
      let pos (t : Option Token) : Bool := match t with | some x => isPositional x.marker | none => false
      let stuck (o : Slot) : Bool := hs.any fun h => h.slot == o && h.sticky
      let turn := a.node.turn
      if hs.any fun h => match h.tok with | some x => 10 ≤ x.marker.toNat | none => false then .next (a.block s 0x10)
      else if is ta Mk.drain then owedDrain s a [.a] false
      else if is tb Mk.drain then owedDrain s a [.b] true
      else if (is ta Mk.switch && (is tb Mk.switch || stuck .b)) || (is tb Mk.switch && stuck .a) then
        wave s a (movingSlots hs) Mk.switch
      else if f.fn == 2 then
        if !turn then
          if is ta Mk.eot then fire s a f [.a] [] { a.node with turn := true } 0
          else if pos ta || takable ta then mrgTake s a f .a ta false
          else stall s
        else if is tb Mk.eot then fire s a f [.b] (toAll (Token.mark Mk.eot)) { a.node with ended := true } 0
        else if pos tb || takable tb then mrgTake s a f .b tb true
        else stall s
      else if (pos ta && stuck .b) || (pos tb && stuck .a) then
        let t := if pos ta then ta else tb
        fire s a f (movingSlots hs) (toAll (t.getD Token.empty))
          { a.node with turn := false, ended := a.node.ended || is t Mk.eot } 0
      else if pos ta && pos tb then
        if markOf ta == markOf tb then
          let n := { a.node with turn := false, ended := a.node.ended || is ta Mk.eot }
          fire s a f [.a, .b] (toAll (ta.getD Token.empty)) n 0
        else .next (a.fault s .mkalign 0 a.node.pos)
      else if f.fn == 1 then
        let x := if turn then tb else ta
        let y := if turn then ta else tb
        let ox : Slot := if turn then .b else .a
        let oy : Slot := if turn then .a else .b
        if takable x then mrgTake s a f ox x (if is x Mk.data then !turn else turn)
        else if x.isSome && takable y then mrgTake s a f oy y turn
        else stall s
      else if takable ta && takable tb then
        let s' := { s with frees := s.frees + 1 }
        if a.ready f 0 && a.ready f 1 then
          if Config.mergeFirst s.frees then mrgTake s' a f .a ta turn else mrgTake s' a f .b tb turn
        else stall s
      else if takable ta then mrgTake s a f .a ta turn
      else if takable tb then mrgTake s a f .b tb turn
      else stall s
    | _ => stall s

/-- `loop` (R119). `count` is F; HELD waits for the wavefront marker to come round the body, at the inputs that are not
sticky (R95). A returning marker at slot b leaves by the second target alone and lowers F, a free one too; a free one at
slot c, which is paired with b, goes to every target (R99, log 70). -/
def execLoop (f : Fields) (s : State) : Res :=
  asNode s fun a =>
    match a.node.phase with
    | .emit => emitTo s a f .held
    | .held =>
      let m := some a.node.emitting
      let hs := a.heads [.b, .c]
      if hs.all fun h => h.sticky || markOf h.tok == m then
        let pl := takeSlots a.pl a.node a.slot (movingSlots hs)
        .next (s.setPlane a.plane
          { pl with nodes := Tab.put pl.nodes a.slot { a.node with phase := a.node.afterWave } })
      else stall s
    | .run =>
      let back := a.heads [.b, .c]
      let entry := (a.heads [.a]).findSome? Head.tok
      let n := a.node
      let enter : Res :=
        match entry with
        | none => stall s
        | some t =>
          if 10 ≤ t.marker.toNat then .next (a.block s 0x10)
          else if t.marker = Mk.data then
            if n.count ≤ f.imm.toNat then fire s a f [.a] [(0, t)] { n.took t with count := n.count + 1 } 0 else stall s
          else if n.count != 0 then stall s
          else if isWave t.marker then wave s a [.a] t.marker
          else fire s a f [.a] [(1, t)] { n with ended := n.ended || t.marker = Mk.eot } 0
      match meets back with
      | .reserved _ => .next (a.block s 0x10)
      | .misaligned => .next (a.fault s .mkalign 0 n.pos)
      | .free o t =>
        if o == .c then fire s a f [o] (toAll t) n 0
        else if back.any fun h => h.tok.isNone then enter
        else if n.count = 0 then .next (a.fault s .loopcnt 0 n.pos)
        else fire s a f [o] [(1, t)] { n with count := n.count - 1 } 0
      | .positional t =>
        if n.count = 0 then .next (a.fault s .loopcnt 0 n.pos)
        else fire s a f (movingSlots back) [(1, t)] { n with count := n.count - 1 } 0
      | .data =>
        if n.count = 0 then .next (a.fault s .loopcnt 0 n.pos)
        else
          let t := headOf back .b
          let c := headOf back .c
          let again := t.restrict fun i => c.has i && c.at i != 0
          let done := t.restrict fun i => !(c.has i && c.at i != 0)
          fire s a f (movingSlots back)
            ((if again.valid != 0 then [(0, again)] else []) ++ (if done.valid != 0 then [(1, done)] else []))
            (if again.valid != 0 then n else { n with count := n.count - 1 }) 0
      | _ => enter
    | _ => stall s

/-- `hold` (R120). A sticky slot takes no part in the marker rules (R95). The model's reading (log 105): slot p of a
predicated `hold` is paired with slot a, whose markers it joins; MKALIGN is raised where their markers differ. Where slot a
is sticky, its token is at hand at every firing, and slot p, or slot b where p does not move either, ends the stream. -/
def execHold (f : Fields) (s : State) : Res :=
  asNode s fun a =>
    match a.node.phase with
    | .emit => emitStep s a f
    | .run =>
      let hs := a.heads (withPred f [.a, .b])
      let tok (o : Slot) : Option Token := (hs.find? fun h => h.slot == o).bind Head.tok
      let tb := tok .b
      let leads := hs.filter fun h => h.slot != .b && !h.sticky
      let led := leads.map Head.slot
      let stuckB := hs.any fun h => h.slot == .b && h.sticky
      let n := a.node
      let bad : Res := .next (a.fault s .mkalign 0 n.pos)
      let data : Res :=
        if hs.any fun h => h.slot != .b && h.tok.isNone then stall s
        else
          let t := headOf hs .a
          match n.held with
          | some h =>
            let out := laneToken t fun i => if t.has i && predOk f (headOf hs .p) i then some (h.at i) else none
            fire s a f led (toAll { out with payload := h.payload }) (n.took t) 0
          | none =>
            match tb with
            | none => stall s
            | some b =>
              if b.marker = Mk.data then
                let h := { b with payload := lanes fun i => if b.has i then b.at i else 0 }
                fire s a f [.b] [] { n with held := some h } 0
              else bad
      let ends (m : Marker) (taken : List Slot) : Res :=
        if m = Mk.eot then fire s a f taken (toAll (Token.mark m)) { n with ended := true } 0 else wave s a taken m
      if hs.any fun h => match h.tok with | some x => 10 ≤ x.marker.toNat | none => false then .next (a.block s 0x10)
      else
        match firstMark (hs.filter fun h => !h.sticky) isFree with
        | some (o, t) => fire s a f [o] (toAll t) n 0
        | none =>
          if markOf tb == some Mk.drain then owedDrain s a [.b] true
          else if markOf tb == some Mk.eor then fire s a f [.b] [] n 0
          else
            match leads with
            | [] =>
              (match tb with
                | none => if n.ended then stall s else data
                | some b =>
                  if b.marker = Mk.data then (if n.ended then stall s else data)
                  else if b.marker = Mk.eot && n.held.isNone then bad
                  else ends b.marker [.b])
            | x :: rest =>
              match x.tok with
              | none => stall s
              | some t =>
                if rest.any fun h => h.tok.isNone then stall s
                else if rest.any fun h => markOf h.tok != some t.marker then bad
                else if t.marker = Mk.data then data
                else if t.marker = Mk.drain then owedDrain s a led false
                else if t.marker = Mk.eor then
                  fire s a f led (toAll t) { n with held := if f.fn == 0 then none else n.held } 0
                else if stuckB then ends t.marker led
                else
                  match tb with
                  | none => stall s
                  | some b =>
                    if b.marker = Mk.data then bad
                    else if b.marker != t.marker then stall s
                    else ends t.marker (led ++ [.b])
    | _ => stall s

/-! ### mark, mtst, cnt, exit and sink -/

/-- The marker that FN names. -/
def fnMarker (f : Fields) : Marker := bits f.fn 0 4

/-- `mark` (R121): a marker after every K-th data token, or with K = 0 once, before the input's EOT. -/
def execMark (f : Fields) (s : State) : Res :=
  stdNode s f [.a]
    (fun a hs _ t =>
      if t.marker = Mk.eor then some (fire s a f (movingSlots hs) (toAll t) { a.node with count := 0 } 0)
      else if t.marker = Mk.eot && f.imm = 0 then
        some (fire s a f (movingSlots hs) (toAll (Token.mark (fnMarker f))) { a.node with pend := [(t, t)], count := 0 } 0)
      else none)
    fun a hs =>
      let t := headOf hs .a
      let n := a.node.took t
      let k := n.count + 1
      let m := Token.mark (fnMarker f)
      let n := if f.imm.toNat = k then { n with count := 0, pend := [(m, m)] } else { n with count := k }
      fire s a f (movingSlots hs) (toAll t) n 0

/-- A token with one new record in lane 0. -/
def oneRecord (x : Lane) (rid : Nat) : Token :=
  { Token.empty with payload := vput Token.empty.payload 0 x, valid := 1, rids := vput Token.empty.rids 0 rid }

/-- `mtst` (R122): every token to TGA, a tick to TGB for the marker that FN names; EOT goes to both after its tick. -/
def execMtst (f : Fields) (s : State) : Res :=
  let tick := oneRecord 1 s.nextId
  stdNode s f [.a]
    (fun a hs _ t =>
      let hit := t.marker = fnMarker f
      if !(a.ready f 0 && a.ready f 1) then some (stall s)
      else if t.marker = Mk.eot then
        if hit && !a.node.turn then some (fire s.tookIds a f [] [(1, tick)] { a.node with turn := true } 0)
        else some (fire s a f (movingSlots hs) (toAll t) { a.node with turn := false } 0)
      else if hit then some (fire s.tookIds a f (movingSlots hs) [(0, t), (1, tick)] a.node 0)
      else some (fire s a f (movingSlots hs) [(0, t)] a.node 0))
    fun a hs => fire s a f (movingSlots hs) [(0, headOf hs .a)] (a.node.took (headOf hs .a)) 0

/-- `cnt` (R123): the count of records, or of tokens, before each positional marker. -/
def execCnt (f : Fields) (s : State) : Res :=
  stdNode s f [.a]
    (fun a hs _ t =>
      if isPositional t.marker then
        if a.ready f 0 && a.ready f 1 then
          let c := oneRecord (BitVec.ofNat 32 a.node.count) s.nextId
          some (fire s.tookIds a f (movingSlots hs) [(0, c), (1, c)] { a.node with count := 0, pend := [(t, t)] } 0)
        else some (stall s)
      else none)
    fun a hs =>
      let t := headOf hs .a
      let k := if f.fn == 1 then 1 else records t.valid
      fire s a f (movingSlots hs) [] { a.node.took t with count := min (a.node.count + k) 0xFFFFFFFF } 0

/-- Markers at `exit` and `sink` (R124, R125): FAULT raises STREAMFLT, the others are consumed. -/
def endMarks (s : State) (f : Fields) : At → List Head → Slot → Token → Option Res := fun a hs o t =>
  if t.marker = Mk.fault then some (.next (a.fault s .streamflt 0 a.node.pos))
  else some (fire s a f (if isFree t.marker then [o] else movingSlots hs) [] a.node 0)

/-- `exit` (R124): the decision is the value of the highest record of the last token that has one. -/
def execExit (f : Fields) (s : State) : Res :=
  stdNode s f [.a] (endMarks s f) fun a hs =>
    let t := headOf hs .a
    match t.highest with
    | none => fire s a f (movingSlots hs) [] a.node 0
    | some i =>
      let v := (t.at i).toNat
      if 3 < v then .next (a.fault s .exitidx 0 (lanePos t.valid a.node.pos i))
      else fire s a f (movingSlots hs) [] { a.node.took t with decision := some v } 0

/-- `sink` (R125): consumes every token and retires its records. -/
def execSink (f : Fields) (s : State) : Res :=
  stdNode s f [.a] (endMarks s f) fun a hs =>
    fire s a f (movingSlots hs) [] (a.node.took (headOf hs .a)) 0

end Sys2Proof.Machine
end

