-- ==== Sys2Proof/Machine/FloatOps.lean ====
section
/-!
DEFINITION. Floating-point results of one lane (R152 to R167), conversions (R172 to R184), widening (R79) and the
combinations of `scan` and `lred` (R142).
-/

namespace Sys2Proof.Machine

/-- The sum of two values with IV for infinities of opposite sign (R153). -/
def sumIv (rm : RMode) (a b : Num) : Num × FFlags :=
  let v := Num.add rm a b
  (v, if !a.isNan && !b.isNan && v.isNan then Fl.iv else 0)

/-- The product with IV for zero times infinity (R153). -/
def productIv (a b : Num) : Num × FFlags :=
  let v := Num.mul a b
  (v, if !a.isNan && !b.isNan && v.isNan then Fl.iv else 0)

/-- Round and result flush of a value that has raised some flags. -/
def FpEnv.done (e : FpEnv) (f : Fmt) (rm : RMode) (v : Num × FFlags) : BitVec 32 × FFlags :=
  let r := e.finish f rm v.1
  (r.1, r.2 ||| v.2)

/-- `fma` on exact values (Table 6-2): negate the product, negate the addend. -/
def fmaValue (rm : RMode) (negP negC : Bool) (a b c : Num) : Num × FFlags :=
  let (p, fp) := productIv a b
  let p := if negP then p.negate else p
  let c := if negC then c.negate else c
  let (v, fs) := sumIv rm p c
  (if fp != 0 then Num.nan else v, fp ||| fs)

/-- a below b, with −0 below +0 (R158). -/
def below (a b : Num) : Bool := a.lt b || (a.isZero && b.isZero && a.isNeg && !b.isNeg)

/-- `fmin` or `fmax` on values (R158). -/
def selectValue (isMax : Bool) (a b : Num) : Num :=
  if a.isNan then b
  else if b.isNan then a
  else if isMax then (if below a b then b else a) else (if below b a then b else a)

/-- `fcmp` (Table 6-4). -/
def fcmpValue (cond : Nat) (a b : Num) : BitVec 32 × FFlags :=
  let bit (x : Bool) : BitVec 32 := if x then 1 else 0
  if a.isNan || b.isNan then
    match cond with
    | 0 => (0, 0) | 1 => (1, 0) | 6 => (1, 0) | 7 => (0, 0) | _ => (0, Fl.iv)
  else
    match cond with
    | 0 => (bit (a.eqv b), 0) | 1 => (bit (!a.eqv b), 0) | 2 => (bit (a.lt b), 0) | 3 => (bit (!b.lt a), 0)
    | 4 => (bit (b.lt a), 0) | 5 => (bit (!a.lt b), 0) | 6 => (0, 0) | _ => (1, 0)

/-- `fsgn` (R160): the sign bit of the element rewritten. -/
def fsgnValue (f : Fmt) (form : Nat) (a b : BitVec 32) : BitVec 32 :=
  let w := f.width
  let sa := a.getLsbD (w - 1)
  let sb := b.getLsbD (w - 1)
  let neg := match form with
    | 0 => sb | 1 => !sb | 2 => sa != sb | 3 => false | _ => !sa
  f.signed neg (a.toNat % 2 ^ (w - 1))

/-- Class number of an element (Table 6-5). -/
def classOf (f : Fmt) (a : BitVec 32) : Nat :=
  let c := BitVec.ofNat 32 (a.toNat % 2 ^ f.width)
  match f.decode c with
  | .nan => 8
  | .inf neg => if neg then 0 else 7
  | .fin neg m _ =>
    if m = 0 then (if neg then 3 else 4)
    else if f.isSubnormal c then (if neg then 2 else 5)
    else (if neg then 1 else 6)

/-- A finite value rounded to an integer, sign kept (R162). -/
def roundIntegral (rm : RMode) (neg : Bool) (m : Nat) (e : Int) : Num :=
  let (n, exact, half) := Appr.quot { m, e, sticky := false } 0
  .fin neg (if !exact && roundsUp rm neg n half then n + 1 else n) 0

/-- `frnd` (R162). -/
def frndValue (f : Fmt) (rm : RMode) (a : Num) : BitVec 32 :=
  match a with
  | .fin neg m e => (roundNum f rm (if m = 0 then a else roundIntegral rm neg m e)).1
  | _ => (roundNum f rm a).1

/-- `frcp` (R163, Table 6-6). -/
def frcpValue (x : Num) : BitVec 32 × FFlags :=
  match x with
  | .nan => (fp32.nan, 0)
  | .inf neg => (fp32.signed neg 0, 0)
  | .fin neg m e => if m = 0 then (fp32.inf neg, Fl.dz) else roundApprP fp32 13 .rne neg (recipAppr m e)

/-- `frsq` (R163, Table 6-6). -/
def frsqValue (x : Num) : BitVec 32 × FFlags :=
  match x with
  | .nan => (fp32.nan, 0)
  | .inf neg => if neg then (fp32.nan, Fl.iv) else (0, 0)
  | .fin neg m e =>
    if m = 0 then (fp32.inf neg, Fl.dz)
    else if neg then (fp32.nan, Fl.iv)
    else roundApprP fp32 13 .rne false (rsqrtAppr m e)

/-- `fref` (R165): one Newton step; specials pass their codes, without result flush. -/
def frefValue (e : FpEnv) (rm : RMode) (rsq : Bool) (a b : BitVec 32) : BitVec 32 × FFlags :=
  let xc := e.src fp32 a
  let yc := e.src fp32 b
  let x := fp32.decode xc
  let y := fp32.decode yc
  if y.isNan || y.isZero || y.isInf then (yc, 0)
  else if x.isNan then (xc, 0)
  else if x.isZero || x.isInf then (yc, 0)
  else if rsq && x.isNeg then (fp32.nan, Fl.iv)
  else if rsq then
    let v := Num.mul y (Num.add rm (.fin false 3 0) (Num.mul (Num.mul x y) y).negate)
    e.finish fp32 rm (v.scale (-1))
  else e.finish fp32 rm (Num.mul y (Num.add rm (.fin false 2 0) (Num.mul x y).negate))

/-- The integer value of an exact number, if it is one. -/
def integerOf (neg : Bool) (m : Nat) (e : Int) : Option Int :=
  let (n, exact, _) := Appr.quot { m, e, sticky := false } 0
  if exact then some (if neg then -(n : Int) else n) else none

/-- `fex2` (R166, Table 6-7). -/
def fex2Value (x : Num) : BitVec 32 × FFlags :=
  match x with
  | .nan => (fp32.nan, 0)
  | .inf neg => (if neg then 0 else fp32.inf false, 0)
  | .fin neg m e =>
    if m = 0 then (roundNum fp32 .rne (.fin false 1 0)).1 |> fun c => (c, 0)
    else if !neg && !(Num.lt x (.fin false 128 0)) then (fp32.inf false, Fl.ovf ||| Fl.ix)
    else if Num.lt x (.fin true 150 0) then (0, Fl.unf ||| Fl.ix)
    else match integerOf neg m e with
      | some n => roundNum fp32 .rne (.fin false 1 n)
      | none => roundApprP fp32 24 .rne false (exp2Appr neg m e)

/-- The exponent n of 2^n, if the magnitude is a power of two. -/
def powerOf (m : Nat) (e : Int) : Option Int := if 2 ^ m.log2 = m then some (m.log2 + e) else none

/-- `flg2` (R166, Table 6-7). -/
def flg2Value (x : Num) : BitVec 32 × FFlags :=
  match x with
  | .nan => (fp32.nan, 0)
  | .inf neg => if neg then (fp32.nan, Fl.iv) else (fp32.inf false, 0)
  | .fin neg m e =>
    if m = 0 then (fp32.inf true, Fl.dz)
    else if neg then (fp32.nan, Fl.iv)
    else match powerOf m e with
      | some n => roundNum fp32 .rne (Num.ofInt n)
      | none =>
        let (sg, a) := log2Appr m e
        roundApprP fp32 24 .rne sg a

/-- `ftnh` (R166, Table 6-7). -/
def ftnhValue (x : Num) : BitVec 32 × FFlags :=
  let one (neg : Bool) : BitVec 32 := (roundNum fp32 .rne (.fin neg 1 0)).1
  match x with
  | .nan => (fp32.nan, 0)
  | .inf neg => (one neg, 0)
  | .fin neg m e =>
    if m = 0 then (fp32.signed neg 0, 0)
    else if Num.lt (.fin false m e) (.fin false 1 (-12)) then ((roundNum fp32 .rne x).1, Fl.ix)
    else if !(Num.lt (.fin false m e) (.fin false 9 0)) then (one neg, Fl.ix)
    else roundApprP fp32 24 .rne neg (tanhAppr m e)

/-! ### Codebooks, widening and conversion -/

/-- Entry j of a codebook register (R75). -/
def codebookEntry (cb : BitVec 256) (j : Nat) : BitVec 16 := cb.extractLsb' (16 * (j % 16)) 16

/-- The value of a CB4 code, its entry flushed under SFL (R170). -/
def codebookValue (e : FpEnv) (cb : BitVec 256) (j : Nat) : Num := e.value bf16 ((codebookEntry cb j).setWidth 32)

/-- v times 2^(scale − 127), or NaN for the scale code 0xFF (R77, R74). -/
def scaled (v : Num) (scale : Nat) : Num := if scale = 0xFF then .nan else v.scale ((scale : Int) - 127)

/-- Size in bits of an element of a format kind (Tables 3-4, 3-5); 0 for kinds 0 and 11 to 15. -/
def kindBits (k : Nat) : Nat :=
  match k with
  | 1 => 32 | 2 => 16 | 3 => 16 | 4 => 8 | 5 => 8 | 6 => 4 | 7 => 8 | 8 => 16 | 9 => 32 | 10 => 8 | _ => 0

/-- The value of an element of a kind under a tag (R77, R79). -/
def kindValue (e : FpEnv) (k : Nat) (scale : Nat) (cb : BitVec 256) (x : BitVec 32) : Num :=
  match k with
  | 1 => e.value fp32 x
  | 2 => e.value bf16 x
  | 3 => e.value fp16 x
  | 4 => scaled (e.value e4m3 x) scale
  | 5 => scaled (e.value e5m2 x) scale
  | 6 => scaled (codebookValue e cb (x.toNat % 16)) scale
  | 7 => Num.ofInt (IFmt.int ⟨8, true⟩ x)
  | 8 => Num.ofInt (IFmt.int ⟨16, true⟩ x)
  | 9 => Num.ofInt (IFmt.int ⟨32, true⟩ x)
  | _ => Num.ofInt (IFmt.int ⟨8, false⟩ x)

/-- A value rounded to a lane type (R83, R82): floating with result flush, integers clamped. -/
def toType (e : FpEnv) (rm : RMode) (ty : ElemTy) (v : Num) : BitVec 32 × FFlags :=
  match ElemTy.fmt? ty with
  | some f => e.finish f rm v
  | none => roundInt (ElemTy.ifmt ty) rm v

/-- Widen (R193, R79): one rounding with RNE to the lane type. -/
def widen (e : FpEnv) (k scale : Nat) (cb : BitVec 256) (ty : ElemTy) (x : BitVec 32) : BitVec 32 × FFlags :=
  toType e .rne ty (kindValue e k scale cb x)

/-- `cvt` (R172). -/
def cvtValue (e : FpEnv) (rm : RMode) (sat : Bool) (src dst : ElemTy) (x : BitVec 32) : BitVec 32 × FFlags :=
  if ElemTy.isInt src && ElemTy.isInt dst then
    let v := IFmt.int (ElemTy.ifmt src) x
    (if sat then IFmt.sat (ElemTy.ifmt dst) v else IFmt.wrap (ElemTy.ifmt dst) v, 0)
  else
    let v : Num :=
      if ElemTy.isInt src then Num.ofInt (IFmt.int (ElemTy.ifmt src) x)
      else if src == .e8m0 then e8m0Value (x.extractLsb' 0 8)
      else match ElemTy.fmt? src with
        | some f => e.value f x
        | none => .nan
    match ElemTy.fmt? dst with
    | none => roundInt (ElemTy.ifmt dst) rm v
    | some f =>
      let big (neg : Bool) : BitVec 32 := f.signed neg f.maxCode
      if sat && v.isInf then resultFlush f e.rfl (big v.isNeg, 0)
      else
        let y := roundNum f rm v
        let y := if sat && (f.decode y.1).isInf then (big v.isNeg, y.2) else y
        resultFlush f e.rfl y

/-- Distance of two finite values. -/
def distance (a b : Num) : Num :=
  match Num.add .rne a b.negate with
  | .fin _ m e => .fin false m e
  | x => x

/-- Codes 0 to 15 whose entry satisfies a test. -/
def codesWith (g : Nat → Bool) : List Nat := (List.range 16).filter g

/-- The first code of a list for which no other is strictly better. -/
def firstBest (better : Nat → Nat → Bool) : List Nat → Option Nat
  | [] => none
  | j :: rest => some (rest.foldl (fun b k => if better k b then k else b) j)

/-- NearestCode (R180): the code and its flags. -/
def nearestCode (e : FpEnv) (cb : BitVec 256) (x : Num) : BitVec 32 × FFlags :=
  let v (j : Nat) : Num := codebookValue e cb j
  let finite := codesWith fun j => match v j with | .fin .. => true | _ => false
  let answer (j : Nat) : BitVec 32 × FFlags :=
    (BitVec.ofNat 32 j, if (x.isNan && (v j).isNan) || x.eqv (v j) then 0 else Fl.ix)
  match x with
  | .nan =>
    match codesWith fun j => (v j).isNan with
    | j :: _ => answer j
    | [] => (0, Fl.iv)
  | .inf neg =>
    match codesWith fun j => match v j with | .inf n => n == neg | _ => false with
    | j :: _ => answer j
    | [] =>
      match firstBest (fun k b => if neg then (v k).lt (v b) else (v b).lt (v k)) finite with
      | some j => answer j
      | none => (0, Fl.iv)
  | .fin .. =>
    match firstBest (fun k b => (distance x (v k)).lt (distance x (v b))) finite with
    | some j => answer j
    | none => (0, Fl.iv)

/-- The larger of the magnitudes of finite values. -/
def maxMagnitude (l : List Num) : Num :=
  l.foldl (fun b x => match x with
    | .fin _ m e => if Num.lt b (.fin false m e) then .fin false m e else b
    | _ => b) (.fin false 0 0)

/-- floor(log2) of a positive value. -/
def floorLog2 (x : Num) : Int :=
  match x with
  | .fin _ m e => m.log2 + e
  | _ => 0

/-- Scale code of a `bqnt` group (R175). -/
def groupScale (e : FpEnv) (ty : ElemTy) (cb : BitVec 256) (xs : List Num) : Nat :=
  if xs.any fun x => x.isNan || x.isInf then 0xFF
  else
    let m := maxMagnitude xs
    if m.isZero then 0
    else
      let emax : Int :=
        match ty with
        | .e4m3 => 8
        | .e5m2 => 15
        | _ =>
          let big := maxMagnitude ((List.range 16).map (codebookValue e cb))
          if big.isZero then 0 else floorLog2 big
      let s := floorLog2 m - emax + 127
      if s < 0 then 0 else if 254 < s then 254 else s.toNat

/-- A record narrowed under the scale code (R176). -/
def narrowValue (e : FpEnv) (rm : RMode) (ty : ElemTy) (cb : BitVec 256) (scale : Nat) (x : Num) : BitVec 32 × FFlags :=
  if scale = 0xFF then (0, 0)
  else
    let y := x.scale (127 - (scale : Int))
    match ElemTy.fmt? ty with
    | some f =>
      let r := roundNum f rm y
      let fl := r.2 &&& ~~~Fl.ovf
      let top := f.decode (f.signed false f.maxCode)
      let tooBig := (f.decode r.1).isInf || Num.lt top (if y.isNeg then y.negate else y)
      resultFlush f e.rfl (if tooBig then (f.signed y.isNeg f.maxCode, fl ||| Fl.ix) else (r.1, fl))
    | none => nearestCode e cb y

/-! ### scan and lred (R142, R143) -/

/-- Combination of two values: operation FN[5:3], integer types by their range and .f32 by rounding. -/
def combine (e : FpEnv) (fn : BitVec 6) (ty : ElemTy) (x y : BitVec 32) : BitVec 32 × FFlags :=
  let op := (fn.extractLsb' 3 3).toNat
  if ty == .f32 then
    let a := e.value fp32 x
    let b := e.value fp32 y
    if op = 0 then
      let rm := e.select (fn.extractLsb' 0 3)
      e.done fp32 rm (sumIv rm a b)
    else e.finish fp32 e.rm (selectValue (op = 3) a b)
  else
    let f := ElemTy.ifmt ty
    let a := f.int x
    let b := f.int y
    let p := f.pat x
    let q := f.pat y
    let r : BitVec 32 :=
      match op with
      | 0 => f.wrap (a + b)
      | 1 => f.sat (a + b)
      | 2 => f.wrap (if b < a then b else a)
      | 3 => f.wrap (if a < b then b else a)
      | 4 => f.wrap ((p &&& q : Nat) : Int)
      | 5 => f.wrap ((p ||| q : Nat) : Int)
      | _ => f.wrap ((p ^^^ q : Nat) : Int)
    (r, 0)

/-- A value of the tree, or ∅, with the flags of its combinations. -/
abbrev TreeVal := Option (BitVec 32) × FFlags

/-- Combination in the tree: ∅ is the identity (R143). -/
def joinVal (g : BitVec 32 → BitVec 32 → BitVec 32 × FFlags) (l r : TreeVal) : TreeVal :=
  match l.1, r.1 with
  | some x, some y => let z := g x y; (some z.1, l.2 ||| r.2 ||| z.2)
  | some x, none => (some x, l.2 ||| r.2)
  | none, y => (y, l.2 ||| r.2)

/-- The tree node of 2^k lanes that begins at a lane (R89). -/
def treeNode (g : BitVec 32 → BitVec 32 → BitVec 32 × FFlags) (xs : Nat → Option (BitVec 32)) : Nat → Nat → TreeVal
  | 0, lo => (xs lo, 0)
  | k + 1, lo => joinVal g (treeNode g xs k lo) (treeNode g xs k (lo + 2 ^ k))

/-- The combination of lanes 0 to i: tree nodes of the powers of two in i + 1, from the largest down (R90). -/
def prefixVal (g : BitVec 32 → BitVec 32 → BitVec 32 × FFlags) (xs : Nat → Option (BitVec 32)) (i : Nat) : TreeVal :=
  ([4, 3, 2, 1, 0].foldl
    (fun (acc : TreeVal × Nat) k =>
      if (i + 1).testBit k then (joinVal g acc.1 (treeNode g xs k acc.2), acc.2 + 2 ^ k) else acc)
    ((none, 0), 0)).1

end Sys2Proof.Machine
end

