-- ==== Sys2Proof/Machine/Kv.lean ====
section
/-!
DEFINITION. KV page lists: chunks and frames, their reference counts, and the private copy of a branch's path
(R356, R358, R359, R361).
-/

namespace Sys2Proof.Machine

def Ctx.setChunk (c : Ctx) (a : Nat) (k : Chunk) : Ctx := { c with chunks := Tab.put c.chunks a k }
def Ctx.setFrame (c : Ctx) (f : Nat) (x : Frame) : Ctx := { c with frames := Tab.put c.frames f x }
/-- A branch entry of a context changed. -/
def Ctx.setBranch (c : Ctx) (b : Nat) (e : Branch) : Ctx := { c with branches := Tab.put c.branches b e }

/-- Address of chunk i of the chunk region, which follows the branch table and the mailbox (R356). -/
def Ctx.chunkAddr (c : Ctx) (i : Nat) : Nat := c.area + 32 * c.nbr + 524288 + 256 * i

/-- Free chunks of the chunk region and free frames of the page pool. -/
def Ctx.freeChunks (c : Ctx) : List Nat :=
  ((List.range c.chunkCount).map c.chunkAddr).filter fun a => (c.chunk? a).isNone
def Ctx.freeFrames (c : Ctx) : List Nat := (List.range c.poolFrames).filter fun f => (c.frame f).fref = 0

/-- One element of a list, chosen by a number: which one is not defined (R356, R375, log 3). -/
def pickOf (l : List Nat) (n : Nat) : Option Nat := l[n % l.length]?

/-- A frame loses one reference; at 0 it is free (R359). -/
def Ctx.unrefFrame (c : Ctx) (f : Nat) : Ctx := c.setFrame f { c.frame f with fref := (c.frame f).fref - 1 }

/-- A frame gains one reference. -/
def Ctx.refFrame (c : Ctx) (f : Nat) : Ctx := c.setFrame f { c.frame f with fref := (c.frame f).fref + 1 }

/-- A chunk loses one reference; at 0 it is freed, and its pages and its PREV lose one each (R359). -/
def Ctx.unrefChunk (c : Ctx) : Nat → Nat → Ctx
  | 0, _ => c
  | fuel + 1, a =>
    match c.chunk? a with
    | none => c
    | some k =>
      if 1 < k.ref then c.setChunk a { k with ref := k.ref - 1 }
      else
        let c := { c with chunks := Tab.drop c.chunks a }
        let c := k.ptrs.foldl Ctx.unrefFrame c
        Ctx.unrefChunk c fuel k.prev

/-- Chunks of a page list. -/
def chunksOf (len : Nat) : Nat := (len + 15) / 16

/-- The first chunk of a path whose REF is above 1, with the address of the chunk before it. -/
def firstShared : Option Nat → List (Nat × Chunk) → Option (Option Nat × Nat × Chunk)
  | _, [] => none
  | before, (a, k) :: rest => if 1 < k.ref then some (before, a, k) else firstShared (some a) rest

/-- One chunk of a path made private (R361, step 1): the copy has REF 1, its pages and its PREV gain a reference, and the
reference that named the original names the copy. -/
def Ctx.copyChunk (c : Ctx) (b : Nat) (before : Option Nat) (a : Nat) (k : Chunk) (new : Nat) : Ctx :=
  let c := c.setChunk new { k with ref := 1 }
  let c := k.ptrs.foldl Ctx.refFrame c
  let c := match c.chunk? k.prev with
    | some p => c.setChunk k.prev { p with ref := p.ref + 1 }
    | none => c
  let c := c.setChunk a { k with ref := k.ref - 1 }
  match before with
  | none => c.setBranch b { c.branch b with head := new }
  | some p => match c.chunk? p with
    | some x => c.setChunk p { x with prev := new }
    | none => c

/-- The path of a branch to page k made private, chunk by chunk from the head: the context after, the free choices
made, and whether the chunk region ran out (R361; the chunks already copied stay). -/
def Ctx.privatize (c : Ctx) (b k : Nat) : Nat → Nat → Ctx × Nat × Bool
  | 0, n => (c, n, true)
  | fuel + 1, n =>
    match firstShared none (c.pathTo b k) with
    | none => (c, n, true)
    | some (before, a, x) =>
      match pickOf c.freeChunks (Config.freeIndex n) with
      | none => (c, n, false)
      | some new => Ctx.privatize (c.copyChunk b before a x new) b k fuel (n + 1)

/-- The pointer of page k of a branch replaced, where its path is private. -/
def Ctx.setPointer (c : Ctx) (b k f : Nat) : Ctx :=
  match (c.pathTo b k).getLast? with
  | some (a, x) => c.setChunk a { x with ptrs := x.ptrs.set (k % 16) f }
  | none => c

/-- Tag of a block, the last write in co (R68). -/
def Memory.tagLast (m : Memory) (block : Nat) : BitVec 16 :=
  m.recent.foldl (fun v w => match w.tag with | some (b, t) => if b = block then t else v | none => v)
    (Tab.getD m.tags block 0)

/-- A 64 KiB page copied block by block, with its tags, as the bytes and the tags are read. -/
def Memory.copyRead (m : Memory) (byte : Nat → Byte) (tag : Nat → BitVec 16) (id src dst : Nat) : Memory :=
  (List.range 1024).foldl
    (fun m i =>
      let from_ := src + 64 * i
      let onto := dst + 64 * i
      m.append
        { id, org := (Agent.host 0).key, cells := (List.range 64).map fun o => (onto + o, byte (from_ + o))
          tag := some (onto / 64, tag (from_ / 64)), level := 5, ord := .rc, plain := false })
    m

/-- A page copied from the last writes in co. -/
def Memory.copyPage (m : Memory) (id src dst : Nat) : Memory := m.copyRead m.coLast m.tagLast id src dst

/-- A page copied from what an agent reads (R452). -/
def State.copyPage (s : State) (a : Agent) (src dst : Nat) : Memory :=
  s.mem.copyRead (s.readByte a) (s.readTag a) 0 src dst

/-- Physical key of a frame of a context's pool. -/
def Ctx.frameKey (c : Ctx) (f : Nat) : Nat := physKey c.poolKind ((c.poolBase + f) * 2 ^ 16)

end Sys2Proof.Machine
end

