-- ==== Sys2Proof/Machine/Atoms.lean ====
section
/-!
DEFINITION. What a home unit does in one RMW: the atomic operations (R311, R312) and the barrier objects (R319 to R322).
-/

namespace Sys2Proof.Machine

/-- AddF (R312): one rounding to nearest even, no flush. -/
def addF (m x : Lane) : Lane :=
  let e : FpEnv := { rm := .rne, sfl := false, rfl := false }
  (e.done fp32 .rne (sumIv .rne (fp32.decode m) (fp32.decode x))).1

/-- Op(m, x, c) of Table 12-1 on the n low bits. -/
def atomValue (op : AtomOp) (float signed : Bool) (n : Nat) (m x c : Word) : Word :=
  let lo (v : Word) : Nat := v.toNat % 2 ^ n
  let int (v : Word) : Int := if signed && 2 ^ (n - 1) ≤ lo v then (lo v : Int) - (2 ^ n : Nat) else lo v
  match op with
  | .add => if float then (addF (bits m 0 32) (bits x 0 32)).setWidth 64 else BitVec.ofNat 64 ((lo m + lo x) % 2 ^ n)
  | .min => if int x < int m then x else m
  | .max => if int m < int x then x else m
  | .and => m &&& x
  | .or => m ||| x
  | .xor => m ^^^ x
  | .xchg => x
  | .cas => if lo m = lo c then x else m

/-! ### Barrier objects (R319 to R322) -/

/-- A barrier object (Table 12-3). -/
structure BarObj where
  rem : Vector Nat 4
  root : Nat
  exp : Nat
  exh : Bool
  scope : Nat
  tree : Bool
  last : BitVec 16
  deriving DecidableEq, Repr

/-- The fields of 32 bytes; none when a reserved bit is set or SCOPE is outside 1 to 5 (R319). -/
def BarObj.ofBytes (bs : List Byte) : Option BarObj :=
  let x : BitVec 256 := BitVec.ofNat 256 (leNat bs)
  let scope := (bits x 20 3).toNat
  if bits x 112 16 != 0 || bits x 24 40 != 0 || bits x 16 3 != 0 || scope = 0 || 5 < scope then none
  else some
    { rem := #v[(bits x 128 32).toNat, (bits x 160 32).toNat, (bits x 192 32).toNat, (bits x 224 32).toNat]
      root := (bits x 96 16).toNat, exp := (bits x 64 32).toNat, exh := bitAt x 23, scope, tree := bitAt x 19
      last := bits x 0 16 }

/-- The 32 bytes of a barrier object. -/
def BarObj.toBytes (o : BarObj) : List Byte :=
  let w0 : Word := (0 : BitVec 40) ++ bit1 o.exh ++ BitVec.ofNat 3 o.scope ++ bit1 o.tree ++ (0 : BitVec 3) ++ o.last
  let w1 : Word := (0 : BitVec 16) ++ BitVec.ofNat 16 o.root ++ BitVec.ofNat 32 o.exp
  let r (i : Nat) : List Byte := leBytes 4 (vget o.rem i 0)
  leBytes 8 w0.toNat ++ leBytes 8 w1.toNat ++ r 0 ++ r 1 ++ r 2 ++ r 3

/-- SignedDiff16(u, v) (R319). -/
def signedDiff16 (u v : BitVec 16) : Int := (u - v).toInt

/-- The entry of a phase in REM0 to REM3. -/
def BarObj.remOf (o : BarObj) (q : BitVec 16) : Nat := vget o.rem (q.toNat % 4) 0

/-- The entry of a phase replaced; the field has 32 bits. -/
def BarObj.setRem (o : BarObj) (q : BitVec 16) (x : Nat) : BarObj :=
  { o with rem := vput o.rem (q.toNat % 4) (x % 2 ^ 32) }

/-- Complete(o) of R321 for up to `fuel` phases: four suffice where EXP is not 0. -/
def BarObj.complete (o : BarObj) : Nat → BarObj
  | 0 => o
  | fuel + 1 =>
    let q := o.last + 1
    if o.remOf q != 0 then o
    else if o.tree && o.exp = 0 then { o with last := q + 3, exh := true }
    else BarObj.complete ({ o with last := q }.setRem q o.exp) fuel

/-- Complete(o) would never stop: an object without members whose EXP a plain write has made 0. -/
def BarObj.endless (o : BarObj) : Bool := !o.tree && o.exp = 0 && o.remOf (o.last + 1) = 0

/-- ST of a branch number as every instruction reads it: a number from NBR names no entry (R356). -/
def Ctx.isDead (c : Ctx) (b : Nat) : Bool := decide (b < c.nbr) && (c.branch b).st == 2

/-- Arrive(o, v, c, B) of R321 on the object at a virtual address: the fault, or the object and the context after. -/
def arrive (o : BarObj) (at_ : Nat) (ctx : Ctx) (v : Option (BitVec 16)) (c : Nat) (b : Option Nat) :
    Except Cause (BarObj × Ctx) :=
  if o.tree && (match b with | some n => ctx.isDead n | none => false) then .ok (o, ctx)
  else if o.exh then .error .barrange
  else
    let p := o.last + 1
    let member := match b with | some n => (ctx.branch n).bar == some at_ | none => false
    let ph := match b with | some n => (ctx.branch n).barph | none => 0
    let v' := v.getD (if o.tree then ph else p)
    if o.tree && !member then .error .bartree
    else if o.tree && (v' != ph || c != 1) then .error .bartree
    else
      let d := signedDiff16 v' p
      if d < 0 || 3 < d then .error .barrange
      else if o.remOf v' < c then .error .barcnt
      else
        let o := o.setRem v' (o.remOf v' - c)
        let ctx := match b with
          | some n => if o.tree then ctx.setBranch n { ctx.branch n with barph := v' + 1 } else ctx
          | none => ctx
        .ok (o.complete 4, ctx)

/-- The open phases that a branch at phase ph has not reached. -/
def BarObj.unreached (o : BarObj) (ph : BitVec 16) : List (BitVec 16) :=
  [o.last + 1, o.last + 2, o.last + 3, o.last + 4].filter fun q => 0 ≤ signedDiff16 q ph

/-- One member more, or one less, at phase ph (R322); an exhausted object gains none. -/
def BarObj.member (o : BarObj) (ph : BitVec 16) (join : Bool) : BarObj :=
  if join then
    if o.exh then o
    else { (o.unreached ph).foldl (fun o q => o.setRem q (o.remOf q + 1)) o with exp := (o.exp + 1) % 2 ^ 32 }
  else { (o.unreached ph).foldl (fun o q => o.setRem q (o.remOf q - 1)) o with exp := o.exp - 1 }

end Sys2Proof.Machine
end

