-- ==== Sys2Proof/Machine/FabInteger.lean ====
section
/-!
DEFINITION. The integer, logic, address and lane instructions (R126 to R147).
-/

namespace Sys2Proof.Machine

/-- The immediate form of R130. -/
def Fields.isImm (f : Fields) : Bool := bitAt f.fn 5

/-- Imm of R127: IMM16 extended by the type's signedness and taken in the type. -/
def immInt (f : Fields) : Int :=
  let t := ElemTy.ifmt f.ty
  t.int (t.wrap (if t.signed then f.imm.toInt else f.imm.toNat))

/-- A two-operand lane-wise instruction (R136): g takes the exact integers A and B. -/
def binaryNode (s : State) (f : Fields) (g : IFmt → Int → Int → Lane) : Res :=
  let t := ElemTy.ifmt f.ty
  laneNode s f (if Fields.isImm f then [.a] else [.a, .b]) fun _ v =>
    (g t (t.int (v .a)) (if Fields.isImm f then immInt f else t.int (v .b)), 0)

/-- A bitwise result on patterns, placed under Wrap (R136). -/
def bitwise (t : IFmt) (g : Nat → Nat → Nat) (a b : Int) : Lane :=
  t.wrap (g (t.pat (t.wrap a)) (t.pat (t.wrap b)) : Nat)

/-- `add` (R136). -/
def execFabAdd (f : Fields) (s : State) : Res := binaryNode s f fun t a b => t.wrap (a + b)
/-- `sub` (R136). -/
def execFabSub (f : Fields) (s : State) : Res := binaryNode s f fun t a b => t.wrap (a - b)
/-- `adds` (R136). -/
def execAdds (f : Fields) (s : State) : Res := binaryNode s f fun t a b => t.sat (a + b)
/-- `subs` (R136). -/
def execSubs (f : Fields) (s : State) : Res := binaryNode s f fun t a b => t.sat (a - b)
/-- `mul` (R136). -/
def execFabMul (f : Fields) (s : State) : Res := binaryNode s f fun t a b => t.wrap (a * b)
/-- `mulh` (R136). -/
def execFabMulh (f : Fields) (s : State) : Res := binaryNode s f fun t a b => t.wrap (a * b / (2 ^ t.width : Nat))
/-- `mad` (R136). -/
def execMad (f : Fields) (s : State) : Res :=
  let t := ElemTy.ifmt f.ty
  laneNode s f (if Fields.isImm f then [.a, .c] else [.a, .b, .c]) fun _ v =>
    (t.wrap (t.int (v .a) * (if Fields.isImm f then immInt f else t.int (v .b)) + t.int (v .c)), 0)

/-- The shift count N of R137: an operand's pattern, or IMM16, read as unsigned. -/
def shiftCount (t : IFmt) (f : Fields) (b : Lane) : Nat := if Fields.isImm f then f.imm.toNat else t.pat b

/-- A shift (R137): g takes the width, the pattern and the count, and gives the result pattern. -/
def shiftNode (s : State) (f : Fields) (g : Nat → Nat → Nat → Nat) : Res :=
  let t := ElemTy.ifmt f.ty
  laneNode s f (if Fields.isImm f then [.a] else [.a, .b]) fun _ v =>
    (t.wrap (g t.width (t.pat (v .a)) (shiftCount t f (v .b)) : Nat), 0)

/-- A pattern of w bits shifted right with copies of its top bit (R137). -/
def sraPattern (w p n : Nat) : Nat :=
  let fill := if 2 ^ (w - 1) ≤ p then 2 ^ w - 1 else 0
  if w ≤ n then fill else p / 2 ^ n + (if fill = 0 then 0 else 2 ^ w - 2 ^ (w - n))

/-- `shl` (R137). -/
def execFabShl (f : Fields) (s : State) : Res :=
  shiftNode s f fun w p n => if w ≤ n then 0 else p * 2 ^ n % 2 ^ w
/-- `shr` (R137). -/
def execFabShr (f : Fields) (s : State) : Res := shiftNode s f fun w p n => if w ≤ n then 0 else p / 2 ^ n
/-- `sra` (R137). -/
def execFabSra (f : Fields) (s : State) : Res := shiftNode s f sraPattern

/-- `and` (R136). -/
def execFabAnd (f : Fields) (s : State) : Res := binaryNode s f fun t a b => bitwise t (· &&& ·) a b
/-- `or` (R136). -/
def execFabOr (f : Fields) (s : State) : Res := binaryNode s f fun t a b => bitwise t (· ||| ·) a b
/-- `xor` (R136). -/
def execFabXor (f : Fields) (s : State) : Res := binaryNode s f fun t a b => bitwise t (· ^^^ ·) a b
/-- `andn` (R136). -/
def execAndn (f : Fields) (s : State) : Res :=
  binaryNode s f fun t a b => bitwise t (fun x y => x &&& (2 ^ t.width - 1 - y)) a b
/-- `min` (R136). -/
def execFabMin (f : Fields) (s : State) : Res := binaryNode s f fun t a b => t.wrap (if b < a then b else a)
/-- `max` (R136). -/
def execFabMax (f : Fields) (s : State) : Res := binaryNode s f fun t a b => t.wrap (if a < b then b else a)

/-- `cmp` (R136): the 32-bit value 1 or 0. -/
def execCmp (f : Fields) (s : State) : Res :=
  binaryNode s f fun _ a b =>
    let r : Bool :=
      match (bits f.fn 0 5).toNat with
      | 0 => decide (a = b) | 1 => decide (a ≠ b) | 2 => decide (a < b) | 3 => decide (a ≤ b) | 4 => decide (b < a)
      | _ => decide (b ≤ a)
    if r then 1 else 0

/-- A one-operand instruction on the pattern (R138). -/
def patternNode (s : State) (f : Fields) (g : Nat → Nat → Nat) : Res :=
  let t := ElemTy.ifmt f.ty
  laneNode s f [.a] fun _ v => (t.wrap (g t.width (t.pat (v .a)) : Nat), 0)

/-- Leading zeros, one bits and the reversal of a pattern of w bits (R138). -/
def leadingZeros (w p : Nat) : Nat := if p = 0 then w else w - 1 - p.log2
def oneBits (w p : Nat) : Nat := ((List.range w).filter p.testBit).length
def reversed (w p : Nat) : Nat := (List.range w).foldl (fun v k => if p.testBit k then v + 2 ^ (w - 1 - k) else v) 0

/-- `clz` (R138). -/
def execClz (f : Fields) (s : State) : Res := patternNode s f leadingZeros
/-- `popc` (R138). -/
def execPopc (f : Fields) (s : State) : Res := patternNode s f oneBits
/-- `brev` (R138). -/
def execBrev (f : Fields) (s : State) : Res := patternNode s f reversed

/-- A link whose head token is limited to some lanes; a sticky token stays whole (R95). -/
def Link.keepLanes (l : Link) (g : Nat → Bool) : Link :=
  if l.sticky then l
  else match l.toks with
    | t :: rest => { l with toks := t.restrict g :: rest }
    | [] => l

/-- The head token of a slot limited to some lanes: what stays there when a node faults in the middle of it (R70). -/
def keepHead (pl : Plane) (n : Node) (slot : Nat) (o : Slot) (g : Nat → Bool) : Plane :=
  let links := updateFirst (fun l => l.dst = slot && l.opd == o && l.era = n.era) (fun l => l.keepLanes g) pl.links
  { pl with links }

/-- A fault at lane k of a firing (R70): the partial result leaves, the records below k have completed the node, and the
token of every moving slot keeps lane k and the lanes above it. The model's choices (log 128): a sticky token at slot a
counts its lanes once for each whole firing, so that a firing that is cut short leaves its records' positions as they were;
and a firing that faults again at its first lane emits an empty token. -/
def faultAtLane (s : State) (a : At) (f : Fields) (taken : List Slot) (t out : Token) (k : Nat) (cause : Cause) (addr : Word) :
    Res :=
  if a.ready f 0 && a.ready f 1 then
    let pos := lanePos t.valid a.node.pos k
    let n := if taken.contains .a then { a.node with pos } else a.node
    let pl := placeOut (placeOut a.pl a.node a.slot f 0 out) a.node a.slot f 1 out
    let pl := taken.foldl (fun pl o => keepHead pl a.node a.slot o fun i => k ≤ i) pl
    let s := s.setPlane a.plane { pl with nodes := Tab.put pl.nodes a.slot n }
    .next (a.fault s cause addr pos)
  else stall s

/-- `addr` (R139). -/
def execAddr (f : Fields) (s : State) : Res :=
  let mode := (bits f.fn 3 2).toNat
  let sh := (bits f.fn 0 3).toNat
  let ins : List Slot := if mode = 0 then [.a, .b] else [.a, .b, .c]
  stdNode s f ins plainMarks fun a hs =>
    let t := headOf hs .a
    let b := headOf hs .b
    let c := headOf hs .c
    let live (i : Nat) : Bool := predOk f (headOf hs .p) i && ins.all fun o => (headOf hs o).has i
    let v (i : Nat) : Int :=
      (t.at i).toNat + (if f.ty == .i32 then (b.at i).toInt else (b.at i).toNat) * (2 ^ sh : Nat) + f.imm.toInt
    let inside (i : Nat) : Bool := mode = 0 || (decide (0 ≤ v i) && decide (v i < (c.at i).toNat))
    let res (i : Nat) : Option Lane := if live i && inside i then some (BitVec.ofInt 32 (v i)) else none
    match (List.range 16).find? fun i => live i && mode = 2 && !inside i with
    | some k => faultAtLane s a f (movingSlots hs) t (laneToken t fun i => if i < k then res i else none) k .addrrng 0
    | none => fire s a f (movingSlots hs) [(0, laneToken t res), (1, laneToken t res)] (a.node.took t) 0

/-- `shuf` (R140). -/
def execShuf (f : Fields) (s : State) : Res :=
  let idx := f.fn == 0
  let k := (bits f.imm 0 4).toNat
  stdNode s f (if idx then [.a, .b] else [.a]) plainMarks fun a hs =>
    let t := headOf hs .a
    let b := headOf hs .b
    let src (i : Nat) : Nat :=
      match f.fn.toNat with
      | 0 => (b.at i).toNat % 16
      | 1 => i ^^^ k
      | 2 => if i < k then i else i - k
      | 3 => if 15 < i + k then i else i + k
      | _ => (i + k) % 16
    let out := laneToken t fun i =>
      if predOk f (headOf hs .p) i && t.has i && (!idx || b.has i) then
        some (if t.has (src i) then t.at (src i) else 0)
      else none
    fire s a f (movingSlots hs) [(0, out), (1, out)] (a.node.took t) 0

/-- `bcst` (R141). -/
def execBcst (f : Fields) (s : State) : Res :=
  stdNode s f [.a] plainMarks fun a hs =>
    let t := headOf hs .a
    let v : Lane :=
      if f.fn == 0 then
        let k := (bits f.imm 0 4).toNat
        if t.has k then t.at k else 0
      else match (List.range 16).find? fun i => t.has i with
        | some i => t.at i
        | none => 0
    let out := laneToken t fun i => if t.has i && predOk f (headOf hs .p) i then some v else none
    fire s a f (movingSlots hs) [(0, out), (1, out)] (a.node.took t) 0

/-- Targets of `scan` and `lred` that are no accumulator register (R146). -/
def linkOuts (f : Fields) (t : Token) : List (Nat × Token) :=
  (match f.tga with | .acc _ => [] | _ => [(0, t)]) ++ (match f.tgb with | .acc _ => [] | _ => [(1, t)])

/-- The accumulator registers that are targets. -/
def accTargets (f : Fields) : List Nat :=
  (match f.tga with | .acc r => [r.toNat] | _ => []) ++ (match f.tgb with | .acc r => [r.toNat] | _ => [])

/-- Lane 0 of the named accumulator registers combined with a total (R146). -/
def combineAcc (e : FpEnv) (f : Fields) (pl : Plane) (total : Option Lane) : Plane × FFlags :=
  match total with
  | none => (pl, 0)
  | some x =>
    (accTargets f).foldl
      (fun (acc : Plane × FFlags) r =>
        let old := vget acc.1.a r (Vector.replicate 16 0)
        let z := combine e f.fn f.ty (vget old 0 0) x
        ({ acc.1 with a := vput acc.1.a r (vput old 0 z.1) }, acc.2 ||| z.2))
      (pl, 0)

/-- A lane's container read as its element and written as R42 lays it out: its unused bits count for nothing. -/
def asElement (ty : ElemTy) (x : Lane) : Lane := (ElemTy.ifmt ty).wrap ((ElemTy.ifmt ty).int x)

/-- `scan` (R144, R146, R147). The Rounds of the whole token's total raise their flags only where an accumulator register
takes the total: R147 has flags from lanes that carry a record, and no lane's value holds the Rounds that only the total
uses (DESIGN CHOICE, log 122). -/
def execScan (f : Fields) (s : State) : Res :=
  stdNode s f [.a] plainMarks fun a hs =>
    let t := headOf hs .a
    let g := combine a.env f.fn f.ty
    let live (i : Nat) : Bool := t.has i && predOk f (headOf hs .p) i
    let xs (i : Nat) : Option Lane := if live i then some (asElement f.ty (t.at i)) else none
    let r (i : Nat) : TreeVal := prefixVal g xs i
    let out := laneToken t fun i => if live i then (r i).1 else none
    let total := treeNode g xs 4 0
    let (pl, fl) := combineAcc a.env f a.pl total.1
    let flags := (orFlags fun i => if live i then (r i).2 else 0) ||| fl |||
      (if (accTargets f).isEmpty then 0 else total.2)
    fire s { a with pl } f (movingSlots hs) (linkOuts f out) (a.node.took t) flags

/-- `lred` (R145 to R147). -/
def execLred (f : Fields) (s : State) : Res :=
  stdNode s f [.a] plainMarks fun a hs =>
    let t := headOf hs .a
    let g := combine a.env f.fn f.ty
    let xs (i : Nat) : Option Lane := if t.has i && predOk f (headOf hs .p) i then some (asElement f.ty (t.at i)) else none
    let root := treeNode g xs 4 0
    let first := ((List.range 16).find? fun i => (xs i).isSome).getD 0
    let out : Token :=
      match root.1 with
      | none => Token.empty
      | some x =>
        { Token.empty with
          payload := vput Token.empty.payload 0 x, valid := 1
          pips := vput Token.empty.pips 0 (vget t.pips first 0), rids := vput Token.empty.rids 0 (vget t.rids first 0) }
    let (pl, fl) := combineAcc a.env f a.pl root.1
    fire s { a with pl } f (movingSlots hs) (linkOuts f out) (a.node.took t) (root.2 ||| fl)

end Sys2Proof.Machine
end

