-- ==== Sys2Proof/Machine/FabFloat.lean ====
section
/-!
DEFINITION. The floating-point and special-function instructions (R148 to R167).
-/

namespace Sys2Proof.Machine

/-- The floating format of TY; FP32 for a type that has none. -/
def fmtOf (ty : ElemTy) : Fmt := (ElemTy.fmt? ty).getD fp32

/-- Operand b: a lane, or the BF16 immediate, flushed under SFL (R150). -/
def operandB (e : FpEnv) (f : Fields) (b : Lane) : Num :=
  if Fields.isImm f then e.value bf16 (f.imm.setWidth 32) else e.value (fmtOf f.ty) b

/-- The rounding mode that FN[2:0] selects (R86). -/
def modeOf (e : FpEnv) (f : Fields) : RMode := e.select (bits f.fn 0 3)

/-- A two-operand arithmetic instruction (R156). -/
def floatNode (s : State) (f : Fields) (g : RMode → Num → Num → Num × FFlags) : Res :=
  laneNode s f (if Fields.isImm f then [.a] else [.a, .b]) fun a v =>
    let e := a.env
    let rm := modeOf e f
    e.done (fmtOf f.ty) rm (g rm (e.value (fmtOf f.ty) (v .a)) (operandB e f (v .b)))

/-- `fadd` (R156). -/
def execFadd (f : Fields) (s : State) : Res := floatNode s f fun rm x y => sumIv rm x y
/-- `fsub` (R156): A + (−B). -/
def execFsub (f : Fields) (s : State) : Res := floatNode s f fun rm x y => sumIv rm x y.negate
/-- `fmul` (R156). -/
def execFmul (f : Fields) (s : State) : Res := floatNode s f fun _ x y => productIv x y

/-- `fma` and its negated forms (R156, R157, Table 6-2). -/
def execFma (f : Fields) (s : State) : Res :=
  laneNode s f (if Fields.isImm f then [.a, .c] else [.a, .b, .c]) fun a v =>
    let e := a.env
    let t := fmtOf f.ty
    let rm := modeOf e f
    e.done t rm (fmaValue rm (bitAt f.fn 4) (bitAt f.fn 3) (e.value t (v .a)) (operandB e f (v .b)) (e.value t (v .c)))

/-- `fmin` and `fmax` (R158). -/
def selectNode (s : State) (f : Fields) (isMax : Bool) : Res :=
  laneNode s f (if Fields.isImm f then [.a] else [.a, .b]) fun a v =>
    let e := a.env
    e.finish (fmtOf f.ty) e.rm (selectValue isMax (e.value (fmtOf f.ty) (v .a)) (operandB e f (v .b)))

/-- `fmin` (R158). -/
def execFmin (f : Fields) (s : State) : Res := selectNode s f false
/-- `fmax` (R158). -/
def execFmax (f : Fields) (s : State) : Res := selectNode s f true

/-- `fcmp` (R159). -/
def execFcmp (f : Fields) (s : State) : Res :=
  laneNode s f (if Fields.isImm f then [.a] else [.a, .b]) fun a v =>
    fcmpValue (bits f.fn 0 3).toNat (a.env.value (fmtOf f.ty) (v .a)) (operandB a.env f (v .b))

/-- `fsgn` (R160). -/
def execFsgn (f : Fields) (s : State) : Res :=
  laneNode s f (if f.fn.toNat ≤ 2 then [.a, .b] else [.a]) fun _ v =>
    (fsgnValue (fmtOf f.ty) f.fn.toNat (v .a) (v .b), 0)

/-- A one-operand FP32 function, with result flush (R163, R166). Where RFL flushes a subnormal 2^n of `fex2`, UF and IX are
set, as R82 says of every flush; Table 6-7 names UF alone, and does not say that IX stays clear (DESIGN CHOICE, log 123). -/
def functionNode (s : State) (f : Fields) (g : Num → Lane × FFlags) : Res :=
  laneNode s f [.a] fun a v => resultFlush fp32 a.env.rfl (g (a.env.value fp32 (v .a)))

/-- `frcp` (R163, R164). -/
def execFrcp (f : Fields) (s : State) : Res := functionNode s f frcpValue
/-- `frsq` (R163, R164). -/
def execFrsq (f : Fields) (s : State) : Res := functionNode s f frsqValue
/-- `fref` (R165). -/
def execFref (f : Fields) (s : State) : Res :=
  laneNode s f [.a, .b] fun a v => frefValue a.env (modeOf a.env f) (bitAt f.fn 3) (v .a) (v .b)
/-- `fex2` (R166, R167). -/
def execFex2 (f : Fields) (s : State) : Res := functionNode s f fex2Value
/-- `flg2` (R166, R167). -/
def execFlg2 (f : Fields) (s : State) : Res := functionNode s f flg2Value
/-- `ftnh` (R166, R167). -/
def execFtnh (f : Fields) (s : State) : Res := functionNode s f ftnhValue

/-- `fcls` (R161). -/
def execFcls (f : Fields) (s : State) : Res :=
  laneNode s f [.a] fun _ v =>
    let k := classOf (fmtOf f.ty) (v .a)
    (if f.fn == 0 then BitVec.ofNat 32 (2 ^ k) else if bitAt f.imm k then 1 else 0, 0)

/-- `frnd` (R162): no flag. -/
def execFrnd (f : Fields) (s : State) : Res :=
  laneNode s f [.a] fun a v => (frndValue (fmtOf f.ty) (modeOf a.env f) (a.env.value (fmtOf f.ty) (v .a)), 0)

end Sys2Proof.Machine
end

