-- ==== Sys2Proof/Machine/FabConvert.lean ====
section
/-!
DEFINITION. The conversion, quantisation and transform instructions (R168 to R184).
-/

namespace Sys2Proof.Machine

/-- Source type of a conversion (R168). -/
def sourceTy (f : Fields) : ElemTy := (ElemTy.ofCode (bits f.imm 0 4)).getD .f32

/-- Codebook register IMM16[7:4] as the instance took it at its launch (R170, R469). -/
def At.codebook (a : At) (f : Fields) : BitVec 256 :=
  match a.inst with
  | some i => vget i.snap.cbs (bits f.imm 4 4).toNat 0
  | none => 0

/-- `cvt` (R172). -/
def execCvt (f : Fields) (s : State) : Res :=
  laneNode s f [.a] fun a v => cvtValue a.env (modeOf a.env f) (bitAt f.fn 3) (sourceTy f) f.ty (v .a)

/-- Tokens of one 64-byte block of a narrow type: 4, or 8 for CB4 (R174, Table 3-5). -/
def groupLength (ty : ElemTy) : Nat := if ty == .cb4 then 8 else 4

/-- A SCALE token with a code in lane 0 (Table 4-1). -/
def scaleToken (code : Nat) : Token :=
  { Token.empty with marker := Mk.scale, payload := vput Token.empty.payload 0 (BitVec.ofNat 32 code) }

/-- The lanes of a token that carry records, as values. -/
def recordValues (g : Lane → Num) (t : Token) : List Num :=
  ((List.range 16).filter fun i => t.has i).map fun i => g (t.at i)

/-- Data tokens of a group that is filling: a marker of slot p can stand between them. -/
def groupTokens (l : List Token) : Nat := (l.filter fun t => t.marker = Mk.data).length

/-- A closed group: SCALE, the narrowed tokens, and the flags (R174 to R176). -/
def quantGroup (e : FpEnv) (f : Fields) (cb : BitVec 256) (group : List Token) : List Token × FFlags :=
  let val (x : Lane) : Num := e.value (fmtOf (sourceTy f)) x
  let sc := groupScale e f.ty cb (group.flatMap (recordValues val))
  let one (x : Lane) : Lane × FFlags := narrowValue e (modeOf e f) f.ty cb sc (val x)
  let narrow (t : Token) : Token :=
    if t.marker = Mk.data then laneToken t fun i => if t.has i then some (one (t.at i)).1 else none else t
  let fl := group.foldl (fun v t => v ||| orFlags fun i => if t.has i then (one (t.at i)).2 else 0) 0
  (scaleToken sc :: group.map narrow ++ List.replicate (groupLength f.ty - groupTokens group) Token.empty, fl)

/-- The group that fills is closed: its SCALE, the node with what then follows in `pend`, and the flags. -/
def At.closeGroup (a : At) (f : Fields) (last : List Token) (n : Node) : Token × Node × FFlags :=
  let (toks, fl) := quantGroup a.env f (a.codebook f) n.buf
  (toks.headD Token.empty, { n with buf := [], pend := (toks.drop 1 ++ last).map fun t => (t, t) }, fl)

/-- What the node's next firing emits, if anything: the next token of a closed group, or the SCALE of a full one. -/
def At.groupDue (a : At) (f : Fields) : Option (Token × Node × FFlags) :=
  let n := a.node
  match n.pend with
  | (t, _) :: rest => some (t, { n with pend := rest }, 0)
  | [] => if groupLength f.ty ≤ groupTokens n.buf then some (a.closeGroup f [] n) else none

/-- `bqnt` (R174 to R177): `buf` holds the group that is filling or full, `pend` what the group before it still has to
emit, so that two groups are held at most; a firing takes a token and emits one where both can be. SCALE at slot a is consumed
and the closing markers close a group at slot a only; a free marker at slot p keeps its place among the tokens of an open group
(DESIGN CHOICE, log 125). -/
def execBqnt (f : Fields) (s : State) : Res :=
  asNode s fun a =>
    match a.node.phase with
    | .emit => emitStep s a f
    | .run =>
      let n := a.node
      let hs := a.heads (withPred f [.a])
      let due := a.groupDue f
      let emit (x : Token × Node × FFlags) (taken : List Slot) : Res := fire s a f taken (toAll x.1) x.2.1 x.2.2
      match meets hs with
      | .nothing => (match due with | some x => emit x [] | none => stall s)
      | .reserved _ => .next (a.block s 0x10)
      | .misaligned => .next (a.fault s .mkalign 0 n.pos)
      | .wave m => if n.pend.isEmpty then wave s a (movingSlots hs) m else match due with | some x => emit x [] | none => stall s
      | .free o t =>
        if o == .a && t.marker = Mk.scale then fire s a f [o] [] n 0
        else
          (match due with
            | some x => emit x []
            | none =>
              if n.buf.isEmpty then fire s a f [o] (toAll t) n 0
              else if o == .a then emit (a.closeGroup f [t] n) [o]
              else fire s a f [o] [] { n with buf := n.buf ++ [t] } 0)
      | .positional t =>
        let m := { n with ended := n.ended || t.marker = Mk.eot }
        (match due with
          | some x => emit x []
          | none =>
            if n.buf.isEmpty then fire s a f (movingSlots hs) (toAll t) m 0
            else emit (a.closeGroup f [t] m) (movingSlots hs))
      | .data =>
        let t := headOf hs .a
        let r := laneToken t fun i => if t.has i && predOk f (headOf hs .p) i then some (t.at i) else none
        let take (m : Node) : Node := { m.took t with buf := m.buf ++ [r] }
        match due with
        | some x =>
          if groupLength f.ty ≤ groupTokens x.2.1.buf then emit x []
          else fire s a f (movingSlots hs) (toAll x.1) (take x.2.1) x.2.2
        | none => fire s a f (movingSlots hs) [] (take n) 0
    | _ => stall s

/-- The current scale of `bdq` and `sclx.scl` (R178): SCALE at slot a sets it and is consumed, EOT resets it. -/
def scaleMarks (s : State) (f : Fields) : At → List Head → Slot → Token → Option Res := fun a hs o t =>
  if o == .a && t.marker = Mk.scale then some (fire s a f [o] [] { a.node with scale := bits (t.at 0) 0 8 } 0)
  else if t.marker = Mk.eot then some (fire s a f (movingSlots hs) (toAll t) { a.node with scale := 0x7F } 0)
  else none

/-- A one-input node with a current scale. -/
def scaledNode (s : State) (f : Fields) (g : At → Lane → Lane × FFlags) : Res :=
  stdNode s f [.a] (scaleMarks s f) fun a hs =>
    let t := headOf hs .a
    let live (i : Nat) : Bool := t.has i && predOk f (headOf hs .p) i
    let out := laneToken t fun i => if live i then some (g a (t.at i)).1 else none
    fire s a f (movingSlots hs) [(0, out), (1, out)] (a.node.took t)
      (orFlags fun i => if live i then (g a (t.at i)).2 else 0)

/-- `bdq` (R179). -/
def execBdq (f : Fields) (s : State) : Res :=
  scaledNode s f fun a x =>
    let e := a.env
    let v : Num :=
      match ElemTy.fmt? (sourceTy f) with
      | some t => e.value t x
      | none => codebookValue e (a.codebook f) (x.toNat % 16)
    e.finish (fmtOf f.ty) (modeOf e f) (scaled v a.node.scale.toNat)

/-- `cbx` (R181): the entry itself, a NaN made canonical; no flush of the result and no flag. -/
def execCbx (f : Fields) (s : State) : Res :=
  laneNode s f [.a] fun a v =>
    ((roundNum (fmtOf f.ty) .rne (codebookValue a.env (a.codebook f) ((v .a).toNat % 16))).1, 0)

/-- `cbq` (R182). -/
def execCbq (f : Fields) (s : State) : Res :=
  laneNode s f [.a] fun a v => nearestCode a.env (a.codebook f) (a.env.value (fmtOf (sourceTy f)) (v .a))

/-- `hads` (R183): one add-subtract stage over the lanes. -/
def execHads (f : Fields) (s : State) : Res :=
  stdNode s f [.a] plainMarks fun a hs =>
    let e := a.env
    let fm := fmtOf f.ty
    let rm := modeOf e f
    let st := 2 ^ (bits f.fn 3 2).toNat
    let t := headOf hs .a
    let live (i : Nat) : Bool := t.has i && predOk f (headOf hs .p) i
    let x (i : Nat) : Num := if live i then e.value fm (t.at i) else Num.zero false
    let r (i : Nat) : Lane × FFlags :=
      let j := i ^^^ st
      let v := if (i &&& st) = 0 then sumIv rm (x i) (x j) else sumIv rm (x j) (x i).negate
      e.done fm rm (if bitAt f.fn 5 then v.1.scale (-1) else v.1, v.2)
    let out := laneToken t fun i => if live i then some (r i).1 else none
    fire s a f (movingSlots hs) [(0, out), (1, out)] (a.node.took t) (orFlags fun i => if live i then (r i).2 else 0)

/-- A value times 2^k, rounded once (R184). Beyond 2^±4096 every value of a lane rounds as it does there. -/
def scaleBy (e : FpEnv) (f : Fields) (x : Lane) (k : Option Int) : Lane × FFlags :=
  match k with
  | none => e.finish (fmtOf f.ty) (modeOf e f) .nan
  | some k => e.finish (fmtOf f.ty) (modeOf e f) ((e.value (fmtOf f.ty) x).scale (max (-4096) (min 4096 k)))

/-- The exponent of an E8M0 code, or none for its NaN (R74). -/
def e8m0Exponent (c : Byte) : Option Int := if c == 0xFF then none else some ((c.toNat : Int) - 127)

/-- `sclx` (R184): by an immediate, an integer lane, an E8M0 lane or the current scale. -/
def execSclx (f : Fields) (s : State) : Res :=
  match (bits f.fn 3 2).toNat with
  | 0 => laneNode s f [.a] fun a v => scaleBy a.env f (v .a) (some f.imm.toInt)
  | 1 => laneNode s f [.a, .b] fun a v => scaleBy a.env f (v .a) (some (v .b).toInt)
  | 2 => laneNode s f [.a, .b] fun a v => scaleBy a.env f (v .a) (e8m0Exponent (bits (v .b) 0 8))
  | _ => scaledNode s f fun a x => scaleBy a.env f x (e8m0Exponent a.node.scale)

end Sys2Proof.Machine
end

