-- ==== Sys2Proof/Machine/FabMemory.lean ====
section
/-!
DEFINITION. The memory nodes (R185 to R196, R245 to R248, R313, R314, R316 to R318, R325).
A token that a memory node has taken is a flight: it performs its lanes in order, and leaves in input order when its
values have returned.
-/

namespace Sys2Proof.Machine

/-! ### Elements in memory -/

/-- Bytes of an element in memory; a CB4 element is a nibble. -/
def elemBytes (ty : ElemTy) : Nat :=
  match ty with
  | .i32 | .u32 | .f32 | .b32 => 4
  | .i16 | .u16 | .bf16 | .f16 => 2
  | _ => 1

/-- Bytes of a span (R190). -/
def spanBytes (ty : ElemTy) : Nat := if ty == .cb4 then 8 else 16 * elemBytes ty

/-- An element's bits placed in its container (R42). -/
def containerOf (ty : ElemTy) (x : Nat) : Lane :=
  match ty with
  | .i16 => (BitVec.ofNat 16 x).signExtend 32
  | .i8 => (BitVec.ofNat 8 x).signExtend 32
  | .cb4 => BitVec.ofNat 32 (x % 16)
  | _ => BitVec.ofNat 32 (x % 2 ^ (8 * elemBytes ty))

/-- Element i of the bytes of a span, raw. -/
def elemAt (ty : ElemTy) (bs : List Byte) (i : Nat) : Nat :=
  if ty == .cb4 then ((bs[i / 2]?).getD 0).toNat / 16 ^ (i % 2) % 16
  else leNat ((bs.drop (i * elemBytes ty)).take (elemBytes ty))

/-- A byte of an access: its offset, its value and the mask of the bits written. -/
structure CellAt where
  off : Nat
  value : Byte
  mask : Byte
  deriving DecidableEq, Repr

/-- Whole bytes at offsets from 0. -/
def wholeCells (bs : List Byte) : List CellAt :=
  ((List.range bs.length).zip bs).map fun (o, b) => { off := o, value := b, mask := 0xFF }

/-- Bytes read at offsets from 0. -/
def readCells (n : Nat) : List CellAt := (List.range n).map fun o => { off := o, value := 0, mask := 0xFF }

/-- The bytes that hold the live elements of a span (R190): a nibble alone for CB4 (R226). -/
def spanCells (ty : ElemTy) (live : Nat → Bool) (x : Nat → Lane) : List CellAt :=
  if ty == .cb4 then
    (List.range 8).filterMap fun o =>
      let nib (i : Nat) : Nat := if live i then (x i).toNat % 16 else 0
      let m (i : Nat) : Nat := if live i then 15 else 0
      let mask := m (2 * o) + 16 * m (2 * o + 1)
      if mask = 0 then none
      else some { off := o, value := BitVec.ofNat 8 (nib (2 * o) + 16 * nib (2 * o + 1)), mask := BitVec.ofNat 8 mask }
  else
    ((List.range 16).filter live).flatMap fun i =>
      (wholeCells (leBytes (elemBytes ty) (x i).toNat)).map fun c => { c with off := c.off + i * elemBytes ty }

/-! ### One access -/

/-- The block instance's key as an agent. -/
def At.agent (a : At) : Nat := (Agent.block (a.plane / 4) (a.plane % 4)).key
/-- The translation cache of the node's M-square port. -/
def At.req (a : At) : Nat := reqMsq a.region (a.slot % 256 / 8)
/-- The node's context. -/
def At.ctx (a : At) : Nat := a.pl.ctx.getD 65536
/-- BASE of pattern register gN as it stood at the launch (R185). -/
def At.base (a : At) (f : Fields) : Nat :=
  match a.inst with
  | some i => (bits (vget i.snap.pats (bits f.imm 0 4).toNat 0) 0 52).toNat
  | none => 0
/-- SEQ of a memory instruction (R186). -/
def seqOf (f : Fields) : Nat := (bits f.imm 4 5).toNat
/-- The scope in FN[5:3]. -/
def fnScope (f : Fields) : Scope := (scopeOfCode (bits f.fn 3 3)).getD .blk

/-- What comes of handing an access to the memory interface. -/
inductive Landed where
  | placed (s : State) (id : Nat)
  | parked (s : State)
  | void
  | fault (s : State) (c : Cause)
  deriving DecidableEq, Repr

/-- An access translated and placed: a miss or a copy-on-write parks it (R240, R198). A parked access counts as SO
until its page's kind is known (log 11). -/
def At.land (a : At) (s : State) (va : Nat) (cells : List CellAt) (use : Use) (e : Ev) : Landed :=
  let at_ (k : Nat) : List Piece := cells.map fun c => { key := k + c.off, value := c.value, mask := c.mask }
  let e := { e with va, ctx := a.ctx, req := a.req, slot := a.slot, watched := use == Use.write || use == Use.atomic }
  let park (copy : Bool) : Landed :=
    .parked ((s.startWalk a.req (a.region / 32) a.ctx va copy a.agent).place a.agent
      { e with pieces := at_ va, base := va, parked := true, ord := .so })
  match s.translate a.req (a.region / 32) a.region a.ctx va use with
  | .fault c => .fault (s.dropBad a.req a.ctx (va / 2 ^ 16)) c
  | .void => .void
  | .miss => park false
  | .copy => park true
  | .ok p =>
    .placed (s.place a.agent
      { e with pieces := at_ p.key, base := p.key, ord := Leaf.ord p.leaf, mkind := Leaf.mkind p.leaf, large := Leaf.lg p.leaf })
      s.nextId

/-- A write or RMW of a memory node covers a byte that a watchpoint of its context masks (R393). -/
def At.hit (a : At) (va : Nat) (cells : List CellAt) (use : Use) : Bool :=
  (use == Use.write || use == Use.atomic) && cells.any fun c => (watchHit a.pl.wpt (va + c.off) 1).isSome

/-! ### Lanes of a flight -/

/-- What a memory node does at a lane: nothing, or one access of `size` bytes aligned to `align`, which a
fault names by `addr`; `fill` when a value
returns to the flight, and `next` the lane that follows; or a fault of the instruction's own, or a fence event. -/
inductive LaneStep where
  | skip
  | bad (c : Cause) (va : Nat)
  | order (e : Ev)
  | access (addr va size align : Nat) (cells : List CellAt) (use : Use) (e : Ev) (fill : Bool) (next : Nat)
  deriving DecidableEq, Repr

/-- Why the lanes of a flight stopped. -/
inductive Stop where
  | done | parked
  | fault (x : NodeFault)
  deriving DecidableEq, Repr

/-- Identities of the records at a lane of a flight's inputs: the paired inputs' lanes together are the record at the
node (R186, log 5). -/
def Flight.laneIds (c : Flight) (i : Nat) : List Nat :=
  ([c.src, c.srcB, c.srcC].map fun t => vget t.rids i 0).filter (· != 0)

/-- Those of all live lanes: a span event is an event of each. -/
def Flight.liveIds (c : Flight) : List Nat := ((List.range 16).filter fun i => bitAt c.live i).flatMap c.laneIds

/-- A read of a dead branch's slot that goes to an accumulator register gives it zeros (R192, R360). -/
def State.zeroAcc (s : State) (d : Dest) : State :=
  match d with
  | .acc k reg _ _ => s.setPlane k { s.plane k with a := vput (s.plane k).a reg (Vector.replicate 16 0) }
  | _ => s

/-- The flight's lanes performed in ascending order, up to a parked access, a fault or a watchpoint's hit (R189, R240,
R394). An access to a dead branch's slot reads zeros or writes nothing (R360). -/
def At.runLanes (a : At) (serial : Bool) (g : Flight → Nat → LaneStep) : Nat → State → Flight → State × Flight × Stop
  | 0, s, c => (s, c, .done)
  | fuel + 1, s, c =>
    if 16 ≤ c.lane then (s, c, .done)
    else
      match g c c.lane with
      | .skip => At.runLanes a serial g fuel s { c with lane := c.lane + 1 }
      | .order e =>
        let s := s.placeFence a.agent e
        (s, { c with lane := 16, hold := some s.lastId }, .done)
      | .bad x va =>
        (s, c, .fault
          { cause := x, addr := BitVec.ofNat 64 va, aux := 0, pos := lanePos c.src.valid a.node.pos c.lane, after := none })
      | .access addr va size align cells use e fill next =>
        let pos := lanePos c.src.valid a.node.pos c.lane
        let bad (s : State) (x : Cause) : State × Flight × Stop :=
          (s, c, .fault { cause := x, addr := BitVec.ofNat 64 addr, aux := 0, pos, after := none })
        let e := { e with size, pos, rids := if e.rids.isEmpty then c.laneIds c.lane else e.rids }
        let c' := { c with lane := next, waiting := if fill then setBit c.waiting c.lane true else c.waiting }
        if 2 ^ 52 ≤ va then bad s .varange
        else if va % align != 0 then bad s .align
        else
          match a.land s va cells use e with
          | .fault s x => bad s x
          | .void =>
            At.runLanes a serial g fuel (s.zeroAcc e.dest)
              { c with lane := next, got := if fill then some ([], 0) else c.got }
          | .parked s =>
            -- the hit of a parked access is raised once the access has its translation (R394)
            let c' := if !serial && a.hit va cells use then
                { c' with fault := some { cause := .watch, addr := BitVec.ofNat 64 addr, aux := 0, pos, after := some s.lastId } }
              else c'
            (s, c', .parked)
          | .placed s id =>
            if !serial && a.hit va cells use then
              (s, c', .fault { cause := .watch, addr := BitVec.ofNat 64 addr, aux := 0, pos, after := some id })
            else At.runLanes a serial g fuel s c'

/-- The lanes of the token below a lane, or from it on. -/
def Flight.part (c : Flight) (low : Bool) : Token :=
  c.tok.restrict fun i => if low then decide (i < c.lane) else decide (c.lane ≤ i)

/-- The lowest live lane of a flight. -/
def Flight.low (c : Flight) : Nat := ((List.range 16).find? fun i => bitAt c.live i).getD 16

/-- A flight that still has records to process. -/
def Flight.unfinished (c : Flight) : Bool := (List.range 16).any fun i => decide (c.lane ≤ i) && bitAt c.src.valid i

/-- An event of this node is in a queue of its agent and has not been performed; or only such as are parked. -/
def At.busy (a : At) (s : State) (parkedOnly : Bool) : Bool :=
  let g := s.agent a.agent
  let mine (e : Ev) : Bool := e.slot = a.slot && (!parkedOnly || e.parked)
  g.q.any mine || g.buf.any mine || g.rmws.any mine

/-- The node after the token of `cur` is complete: its records have positions and count as taken. -/
def Node.closed (n : Node) (c : Flight) : Node :=
  { n.took c.src with seen := n.seen ++ ((List.range 16).map fun i => vget c.src.rids i 0).filter (· != 0) }

/-- What a memory instruction adds to the common work of a memory node. -/
structure MemRule where
  /-- the access at a lane -/
  step : Flight → Nat → LaneStep
  /-- a value must return, and be judged, before the token is complete -/
  serial : Bool
  /-- the verdict on a serial flight whose lanes have run and whose value has returned: complete, or what comes next -/
  judge : Flight → Option (NodeFault ⊕ Flight)
  /-- the token that leaves, with its flags -/
  leave : Flight → Token × FFlags

/-- The part of a faulted flight that leaves, and the part that stays for the record named (R189, R388). -/
def Node.split (n : Node) (c : Flight) (id : Nat) (x : NodeFault) : Node :=
  let rest : Flight := { c with id, tok := c.part false, waiting := 0, got := none, hold := none, fault := none }
  let n := { n with fly := n.fly ++ [{ c with tok := c.part true, fault := some x }] }
  if c.unfinished then { n with cur := some rest } else { n.closed c with cur := none }

/-- The lanes of `cur` go on. A serial flight is judged when its value has returned; a fault names its lowest live
lane, which it keeps, but for WATCH. -/
def At.goOn (a : At) (s : State) (r : MemRule) (c : Flight) : Res :=
  let finish (s : State) (c : Flight) : Res :=
    .next (s.setNode a { a.node.closed c with cur := none, fly := a.node.fly ++ [c] })
  let keep (s : State) (c : Flight) : Res := .next (s.setNode a { a.node with cur := some c })
  let split (s : State) (c : Flight) (x : NodeFault) : Res :=
    .next ({ s with nextId := s.nextId + 1 }.setNode a (a.node.split c s.nextId x))
  match c.fault with
  | some x => split s { c with fault := none } x
  | none =>
  if 16 ≤ c.lane then
    if c.waiting != 0 then stall s
    else match r.judge c with
      | none => finish s c
      | some (.inl x) => split s { c with lane := if x.cause == .watch then c.lane else c.low } x
      | some (.inr c) => keep s c
  else
    match a.runLanes r.serial r.step 16 s c with
    | (s, c, .parked) => keep s c
    | (s, c, .fault x) => split s c x
    | (s, c, .done) => if r.serial && (c.waiting != 0 || c.got.isSome) then keep s c else finish s c

/-- What a node's M-square holds, of all planes (R195): the tokens in its memory nodes, and each parked miss. -/
def At.load (a : At) (s : State) : Nat :=
  let tokens (n : Node) : Nat := n.fly.length + n.wait.length + (if n.cur.isSome then 1 else 0)
  (elementSlots a.region (a.slot % 512)).foldl
      (fun k (r, p, slot) => k + ((Tab.find? (s.plane (planeKey r p)).nodes slot).map tokens).getD 0) 0 +
    (s.walks.filter fun w => w.requesters.contains a.req).length

/-- While an access of a flight is parked, the misses of its later lanes park too, as far as the square holds them: their
walks start (R195, R197, log 110). Their events wait, since the parked one may fault (R70). -/
def At.parkAhead (a : At) (s : State) (r : MemRule) (c : Flight) : State :=
  (List.range 16).foldl
    (fun s i =>
      if i < c.lane || 32 ≤ a.load s then s
      else
        match r.step c i with
        | .access _ va _ _ _ use _ _ _ =>
          if 2 ^ 52 ≤ va then s
          else
            (match s.translate a.req (a.region / 32) a.region a.ctx va use with
              | .miss => s.startWalk a.req (a.region / 32) a.ctx va false
              | _ => s)
        | _ => s)
    s

/-- The oldest flight may leave: its values have returned and the event it waits for has been performed. -/
def At.canLeave (a : At) (s : State) (c : Flight) : Bool :=
  let ok (id : Option Nat) : Bool := match id with | some i => s.performed a.agent i | none => true
  c.waiting == 0 && ok c.hold && (match c.fault with | some x => ok x.after | none => true)

/-- The oldest flight leaves, and raises the fault it carries. The model's reading (log 109): where the fault stands at a
token's first record, no token without records goes before it. -/
def At.leave (a : At) (s : State) (f : Fields) (r : MemRule) (c : Flight) (rest : List Flight) : Res :=
  let n := { a.node with fly := rest }
  let (t, fl) := if c.tok.marker = Mk.data then r.leave c else (c.tok, 0)
  match c.fault with
  | none => fire s a f [] [(0, t), (1, t)] n fl
  | some x =>
    let outs := if t.valid = 0 then [] else [(0, t), (1, t)]
    match fire s a f [] outs n fl with
    | .next u =>
      if outs.all fun o => a.ready f o.1 then
        .next (u.fabricFault a.plane ((a.inst.map Inst.header).getD 0) n.index x.pos x.cause x.addr x.aux)
      else .next u
    | y => y

/-- A flight that carries a marker. -/
def markFlight (id : Nat) (t : Token) (hold : Option Nat) : Flight :=
  { id, tok := t, src := t, srcB := Token.empty, srcC := Token.empty, live := 0, lane := 16, waiting := 0, hold,
    got := none, fault := none }

/-- The fence event of a FENCE marker, or of `fence` itself (R246, R247). -/
def fenceEvent (a : At) (f : Fields) (kind : FenceKind) (sc : Scope) (rids : List Nat) (mark : Bool) : Ev :=
  { Ev.blank with
    kind := .fence kind, scope := sc, ctx := a.ctx, slot := a.slot, seqNo := seqOf f, rids, mark, pos := a.node.pos }

/-- A marker taken at a memory node: it follows the tokens in flight; a FENCE is performed as a fence event first. -/
def At.takeMark (a : At) (s : State) (f : Fields) (taken : List Slot) (t : Token) (n : Node) : Res :=
  let pl := takeSlots a.pl a.node a.slot taken
  let id := s.nextId
  let s := { s with nextId := id + 1 }
  let s := s.setPlane a.plane { pl with nodes := Tab.put pl.nodes a.slot n }
  if t.marker = Mk.fence then
    let x := t.at 0
    let e := fenceEvent a f (FenceKind.ofCode (bits x 0 2)) ((scopeOfCode (bits x 2 3)).getD .blk) n.seen true
    let s := s.placeFence a.agent e
    .next (s.setNode a { n with fly := n.fly ++ [markFlight id t (some s.lastId)] })
  else .next (s.setNode a { n with fly := n.fly ++ [markFlight id t none] })

/-- The oldest token that waits behind a parked access is the next one processed. -/
def At.startWaiting (a : At) (s : State) (r : MemRule) (c : Flight) (rest : List Flight) : Res :=
  let n := { a.node with cur := some c, wait := rest }
  let s := s.setNode a n
  { a with node := n, pl := s.plane a.plane }.goOn s r c

/-- A memory node's turn (R188, R195): the oldest flight leaves; else the token being processed goes on; else the next
token or marker is taken. -/
def memNode (s : State) (f : Fields) (ins : List Slot) (rule : At → MemRule)
    (onMark : At → List Head → Slot → Token → Option Res)
    (begin_ : At → List Head → Flight) (hold : At → State → Bool) : Res :=
  asNode s fun a =>
    let n := a.node
    let r := rule a
    -- behind a parked access the node takes tokens of data only; a flight that waits goes on before another is taken
    let behind : Res :=
      let hs := a.heads (withPred f ins)
      if n.phase != .run || n.config.isSome || a.ahead || hold a s || 32 ≤ a.load s || meets hs != .data then stall s
      else
        let pl := takeSlots a.pl n a.slot (movingSlots hs)
        let n := { n with wait := n.wait ++ [{ begin_ a hs with id := s.nextId }] }
        .next { s.setPlane a.plane { pl with nodes := Tab.put pl.nodes a.slot n } with nextId := s.nextId + 1 }
    let take : Res :=
      if n.phase != .run || n.config.isSome || a.ahead || hold a s || 32 ≤ a.load s then stall s
      else
        let hs := a.heads (withPred f ins)
        match meets hs with
        | .nothing => stall s
        | .reserved _ => .next (a.block s 0x10)
        | .misaligned => .next (a.fault s .mkalign 0 n.pos)
        | .wave m => wave s a (movingSlots hs) m
        | .free o t => (match onMark a hs o t with
            | some x => x
            | none => a.takeMark s f [o] t n)
        | .positional t =>
          let n := { n with ended := n.ended || t.marker = Mk.eot }
          (match onMark { a with node := n } hs .a t with
            | some x => x
            | none => a.takeMark s f (movingSlots hs) t n)
        | .data =>
          let c := { begin_ a hs with id := s.nextId }
          let pl := takeSlots a.pl n a.slot (movingSlots hs)
          let n := { n with cur := some c }
          let s := { s with nextId := s.nextId + 1 }
          let s := s.setPlane a.plane { pl with nodes := Tab.put pl.nodes a.slot n }
          At.goOn { a with node := n, pl := s.plane a.plane } s r c
    let work : Res :=
      match n.cur with
      | some c =>
        if n.fly.any (·.fault.isSome) then stall s
        else if a.busy s true then
          let t := (c :: n.wait).foldl (fun s c => a.parkAhead s r c) s
          if t.walks != s.walks then .next t else behind
        else a.goOn s r c
      | none =>
        match n.wait with
        | c :: rest => if n.fly.any (·.fault.isSome) then stall s else a.startWaiting s r c rest
        | [] =>
        if n.phase == .held then
          if n.fly.isEmpty && !a.busy s false then .next (s.setNode a { n with phase := .emit }) else stall s
        else take
    match n.phase with
    | .emit => emitStep s a f
    | .run | .held =>
      (match n.fly with
        | c :: rest =>
          if a.canLeave s c && (a.ready f 0 && a.ready f 1) then a.leave s f r c rest else work
        | [] => work)
    | _ => stall s

/-- A flight begun from the heads: the live lanes, and the token that will leave. -/
def beginFlight (hs : List Head) (live : Nat → Bool) (tok : Token) : Flight :=
  { id := 0, tok, src := headOf hs .a, srcB := headOf hs .b, srcC := headOf hs .c, live := validBits live, lane := 0,
    waiting := 0, hold := none, got := none, fault := none }

/-- Live lanes of a node (R47): those whose predicate holds and whose inputs all carry records. -/
def liveLane (f : Fields) (ins : List Slot) (hs : List Head) (i : Nat) : Bool :=
  predOk f (headOf hs .p) i && ins.all fun o => (headOf hs o).has i

/-- Nothing to judge, and the token leaves as it stands. -/
def plainRule (step : Flight → Nat → LaneStep) : MemRule :=
  { step, serial := false, judge := fun _ => none, leave := fun c => (c.tok, 0) }

/-- The node never waits before its next token. -/
def noHold : At → State → Bool := fun _ _ => false

/-! ### ld and st -/

/-- `ld` (R189). -/
def execLd (f : Fields) (s : State) : Res :=
  memNode s f [.a]
    (fun a => plainRule fun c i =>
      if bitAt c.live i then
        let n := elemBytes f.ty
        let va := a.base f + (c.src.at i).toNat
        .access va va n n (readCells n) .read
          { Ev.blank with
            kind := .read, acq := bitAt f.fn 2, scope := fnScope f, seqNo := seqOf f, dest := .lane a.plane a.slot c.id i }
          true (i + 1)
      else .skip)
    plainMarks
    (fun _ hs => beginFlight hs (liveLane f [.a] hs)
      (laneToken (headOf hs .a) fun i => if liveLane f [.a] hs i then some 0 else none))
    noHold

/-- `st` (R189): the low bytes of slot b's container; it forwards token b. -/
def execSt (f : Fields) (s : State) : Res :=
  memNode s f [.a, .b]
    (fun a => plainRule fun c i =>
      if bitAt c.live i then
        let n := elemBytes f.ty
        let va := a.base f + (c.src.at i).toNat
        .access va va n n (wholeCells (leBytes n (c.srcB.at i).toNat)) .write
          { Ev.blank with kind := .write, rel := bitAt f.fn 2, scope := fnScope f, seqNo := seqOf f } false (i + 1)
      else .skip)
    plainMarks
    (fun _ hs => beginFlight hs (liveLane f [.a, .b] hs)
      (laneToken (headOf hs .b) fun i => if liveLane f [.a, .b] hs i then some ((headOf hs .b).at i) else none))
    noHold

/-! ### lds, sts and ldt -/

/-- Accumulator register of the .acc forms (R192). -/
def accReg (f : Fields) : Nat := (bits f.imm 9 6).toNat

/-- The token of `lds` when its span has returned: element i in each lane that carries a record. -/
def spanToken (ty : ElemTy) (c : Flight) : Token :=
  match c.got with
  | some (bs, _) => laneToken c.tok fun i => if c.tok.has i then some (containerOf ty (elemAt ty bs i)) else none
  | none => c.tok

/-- `lds` and `lds.acc` (R190, R192). -/
def execLds (f : Fields) (s : State) : Res :=
  let acc := bits f.fn 0 2 == 2
  let n := spanBytes f.ty
  memNode s f [.a]
    (fun a =>
      { step := fun c i =>
          let va := a.base f + (c.src.at i).toNat
          if i = c.low then
            .access va va n n (readCells n) .read
              { Ev.blank with
                kind := .read, acq := bitAt f.fn 2, scope := fnScope f, seqNo := seqOf f, rids := c.liveIds
                dest := if acc then .acc a.plane (accReg f) a.slot c.id else .span a.plane a.slot c.id }
              true 16
          else .skip
        serial := false
        judge := fun _ => none
        leave := fun c => (if acc then c.tok else spanToken f.ty c, 0) })
    plainMarks
    (fun _ hs =>
      let t := headOf hs .a
      beginFlight hs (liveLane f [.a] hs)
        (if acc then t.restrict (liveLane f [.a] hs)
         else laneToken t fun i => if liveLane f [.a] hs i then some 0 else none))
    noHold

/-- Kind of a tag that an element type writes (Table 8-3). -/
def tagKind (ty : ElemTy) : Nat :=
  match ty with
  | .f32 => 1 | .bf16 => 2 | .f16 => 3 | .e4m3 => 4 | .e5m2 => 5 | .cb4 => 6 | .i8 => 7 | .i16 => 8 | .i32 => 9
  | .u8 => 10 | _ => 0

/-- The tag of a kind, scale and slot: the scale is 0x7F but for kinds 4 to 6, the slot 0 but for kind 6 (R191). -/
def tagOf (kind : Nat) (scale : Byte) (slot : Nat) : BitVec 16 :=
  (if 4 ≤ kind && kind ≤ 6 then scale else 0x7F) ++ BitVec.ofNat 4 kind ++ BitVec.ofNat 4 (if kind = 6 then slot else 0)

/-- Another node of the instance names the accumulator and has not taken its last EOT, or its span is still outstanding; or
its slot has still to take the word that names it (R192). -/
def At.accOpen (a : At) (reg : Nat) : Bool :=
  a.pl.nodes.any fun e => e.1 != a.slot && ((e.2.wordIn a.node.era).any fun w => (accNames w).contains reg) &&
    !(e.2.era = a.node.era && e.2.ended && e.2.cur.isNone && e.2.fly.isEmpty && e.2.wait.isEmpty)

/-- `sts`, `sts.tag` and `sts.acc` (R190 to R192). The model's reading (log 109): a token whose span writes no element
performs no event, and its address is not checked. -/
def execSts (f : Fields) (s : State) : Res :=
  let form := (bits f.fn 0 2).toNat
  let n := spanBytes f.ty
  let ins : List Slot := if form = 2 then [.a] else [.a, .b]
  memNode s f ins
    (fun a => plainRule fun c i =>
      let put (j : Nat) : Bool := bitAt c.live j && c.srcB.has j
      if i = c.low && (form = 2 || (List.range 16).any put) then
        let cells :=
          if form = 2 then
            wholeCells ((List.range 16).flatMap fun j =>
              leBytes 4 (vget (vget a.pl.a (accReg f) Token.empty.payload) j 0).toNat)
          else spanCells f.ty put fun j => c.srcB.at j
        let va := a.base f + (c.src.at i).toNat
        .access va va n n cells .write
          { Ev.blank with
            kind := .write, rel := bitAt f.fn 2, scope := fnScope f, seqNo := seqOf f, rids := c.liveIds
            tagWrite := if form = 1 then some (tagOf (tagKind f.ty) a.node.scale (bits f.imm 9 4).toNat) else none }
          false 16
      else .skip)
    (fun a hs o t =>
      if form = 1 && t.marker = Mk.scale && o == .b then
        some (fire s a f [o] [] { a.node with scale := bits (t.at 0) 0 8 } 0)
      else if form = 1 && t.marker = Mk.eot then
        some (a.takeMark s f (movingSlots hs) t { a.node with scale := 0x7F })
      else none)
    (fun _ hs =>
      let live := liveLane f [.a] hs
      if form = 2 then beginFlight hs live ((headOf hs .a).restrict live)
      else
        beginFlight hs live
          ((headOf hs .b).restrict (predOk f (headOf hs .p))))
    (fun a _ => form = 2 && a.accOpen (accReg f))

/-- The fault that a tagged block gives `ldt`, if any (R193). -/
def ldtFault (va : Nat) (tag : BitVec 16) : Option Cause :=
  let k := (bits tag 4 4).toNat
  if k = 0 || 11 ≤ k then some .tagfmt else if va % (2 * kindBits k) != 0 then some .align else none

/-- `ldt` (R193): one event reads the block that holds the span, with its tag. -/
def execLdt (f : Fields) (s : State) : Res :=
  memNode s f [.a]
    (fun a =>
      let va (c : Flight) : Nat := a.base f + (c.src.at c.low).toNat
      { step := fun c i =>
          if i = c.low then
            .access (va c) (va c / 64 * 64) 64 1 (readCells 64) .read
              { Ev.blank with
                kind := .read, acq := bitAt f.fn 2, scope := fnScope f, seqNo := seqOf f, rids := c.liveIds
                tagRead := true, dest := .span a.plane a.slot c.id }
              true 16
          else .skip
        serial := true
        judge := fun c =>
          match c.got with
          | none => none
          | some ([], _) => none
          | some (_, tag) => (ldtFault (va c) tag).map fun x =>
              .inl { cause := x, addr := BitVec.ofNat 64 (va c), aux := 0, pos := lanePos c.src.valid a.node.pos c.low
                     after := none }
        leave := fun c =>
          match c.got with
          | none => (c.tok, 0)
          | some ([], _) => (c.tok, 0)
          | some (bs, tag) =>
            let k := (bits tag 4 4).toNat
            let w := kindBits k
            let first := va c % 64 * 8 / w
            let scale := (bits tag 8 8).toNat
            let cb := match a.inst with | some x => vget x.snap.cbs (bits tag 0 4).toNat 0 | none => 0
            let raw (i : Nat) : Lane := BitVec.ofNat 32 (leNat bs / 2 ^ (w * (first + i)) % 2 ^ w)
            let r (i : Nat) : Lane × FFlags := widen a.env k scale cb f.ty (raw i)
            (laneToken c.tok fun i => if c.tok.has i then some (r i).1 else none,
              orFlags fun i => if c.tok.has i then (r i).2 else 0) })
    plainMarks
    (fun _ hs => beginFlight hs (liveLane f [.a] hs)
      (laneToken (headOf hs .a) fun i => if liveLane f [.a] hs i then some 0 else none))
    noHold

/-! ### prf -/

/-- `prf` (R194): it starts the walks of addresses in no cache, and forwards its token; it raises no fault. A FENCE that
reaches it is performed as at any memory node, and leaves when its event has been performed (R188, R247). -/
def execPrf (f : Fields) (s : State) : Res :=
  asNode s fun a =>
    let s' : State :=
      match a.node.phase, meets (a.heads (withPred f [.a])) with
      | .run, .data =>
        let hs := a.heads (withPred f [.a])
        if a.ready f 0 && a.ready f 1 then
          (List.range 16).foldl
            (fun s i =>
              let va := a.base f + ((headOf hs .a).at i).toNat
              if liveLane f [.a] hs i && decide (va < 2 ^ 52) then
                match s.translate a.req (a.region / 32) a.region a.ctx va .read with
                | .miss => s.startWalk a.req (a.region / 32) a.ctx va false
                | _ => s
              else s)
            s
        else s
      | _, _ => s
    match a.node.fly with
    | c :: rest =>
      if a.canLeave s c then fire s a f [] [(0, c.tok), (1, c.tok)] { a.node with fly := rest } 0 else stall s
    | [] =>
      if a.node.phase == .held then
        if a.busy s false then stall s else .next (s.setNode a { a.node with phase := .emit })
      else
        stdNode s' f [.a]
          (fun a _ o t =>
            if t.marker != Mk.fence then none
            else if a.ahead then some (stall s)
            else some (a.takeMark s f [o] t a.node))
          fun a hs =>
            let t := (headOf hs .a).restrict (predOk f (headOf hs .p))
            let ids := ((List.range 16).map fun i => vget (headOf hs .a).rids i 0).filter (· != 0)
            let n := a.node.took (headOf hs .a)
            fire s' a f (movingSlots hs) [(0, t), (1, t)] { n with seen := n.seen ++ ids } 0

/-! ### fence -/

/-- The FENCE marker of `fence` (R247). -/
def fenceMarker (f : Fields) : Token :=
  { Token.empty with
    marker := Mk.fence, payload := vput Token.empty.payload 0 ((bits f.fn 0 2).setWidth 32 ||| ((bits f.fn 3 3).setWidth 32 <<< 2)) }

/-- `fence` (R246): the record form fences once for each token with a record, the marker form at EOR and EOT; a fence
event that waits holds the node. -/
def execFence (f : Fields) (s : State) : Res :=
  let kind := FenceKind.ofCode (bits f.fn 0 2)
  memNode s f [.a]
    (fun a => plainRule fun c i =>
      if !bitAt f.fn 2 && i = c.low then .order (fenceEvent a f kind (fnScope f) c.liveIds false) else .skip)
    (fun a hs _ t =>
      if bitAt f.fn 2 && isPositional t.marker then
        let pl := takeSlots a.pl a.node a.slot (movingSlots hs)
        let s := s.setPlane a.plane { pl with nodes := Tab.put pl.nodes a.slot a.node }
        let s := s.placeFence a.agent (fenceEvent a f kind (fnScope f) a.node.seen true)
        let hold := s.lastId
        let id := s.nextId
        let s := { s with nextId := id + 2 }
        some (.next (s.setNode a
          { a.node with fly := a.node.fly ++ [markFlight id (fenceMarker f) (some hold), markFlight (id + 1) t none] }))
      else none)
    (fun _ hs => beginFlight hs (liveLane f [.a] hs) ((headOf hs .a).restrict (liveLane f [.a] hs)))
    (fun a s => a.busy s false)

/-! ### atom (R313, R314) -/

/-- Whether an order code of Table 12-2 acquires, or releases. -/
def orderAcq (o : BitVec 2) : Bool := bitAt o 0
def orderRel (o : BitVec 2) : Bool := bitAt o 1

/-- `atom` (R314): one RMW for each record; the token that leaves holds the old values. -/
def execAtom (f : Fields) (s : State) : Res :=
  let op := AtomOp.ofCode (bits f.fn 0 3)
  let ins : List Slot := if op == .cas then [.a, .b, .c] else [.a, .b]
  memNode s f ins
    (fun a => plainRule fun c i =>
      if bitAt c.live i then
        let va := a.base f + (c.src.at i).toNat
        .access va va 4 4 (readCells 4) .atomic
          { Ev.blank with
            kind := .rmw (.atomic op (f.ty == .f32) (f.ty == .i32) ((c.srcB.at i).setWidth 64) ((c.srcC.at i).setWidth 64))
            acq := orderAcq (bits f.fn 3 2), rel := orderRel (bits f.fn 3 2)
            scope := (scopeOfCode (bits f.imm 9 3)).getD .blk, seqNo := seqOf f, dest := .lane a.plane a.slot c.id i }
          true (i + 1)
      else .skip)
    plainMarks
    (fun _ hs => beginFlight hs (liveLane f ins hs)
      (laneToken (headOf hs .a) fun i => if liveLane f ins hs i then some 0 else none))
    noHold

/-! ### arrv (R325) -/

/-- The branch of a task, from its TSTAT (Table 14-2). -/
def Seq.branch (v : Seq) : Option Nat := if bitAt v.tstat 47 then some (bits v.tstat 48 16).toNat else none

/-- The branch of the block's task (R325). -/
def At.branch (a : At) (s : State) : Option Nat := (s.seq (launcher a.plane a.pl)).branch

/-- The object that a read returned completes a wait for phase v (R324). -/
def waitOver (bs : List Byte) (v : BitVec 16) : Bool :=
  let x := leNat bs
  0 ≤ signedDiff16 (BitVec.ofNat 16 x) v || x / 2 ^ 23 % 2 = 1

/-- The SCOPE that a read of an object returned, for a release arrival to wait at (R323, log 12). -/
def scopeRead (bs : List Byte) : Scope :=
  match scopeOfCode (BitVec.ofNat 3 (leNat bs / 2 ^ 20)) with
  | some .blk => .rgn
  | some x => x
  | none => .rgn

/-- `arrv` (R325). A release arrival reads the object's SCOPE first (R323), then makes its RMW: its flight stands at
lane 16 after a read and at lane 17 after the RMW. A wait reads until its phase is complete. -/
def execArrv (f : Fields) (s : State) : Res :=
  let wt := bits f.fn 0 2 == 2
  let rel := bits f.fn 0 2 == 1
  let ph := bitAt f.fn 2
  let ins : List Slot := if ph then [.a, .b] else [.a]
  memNode s f ins
    (fun a =>
      let va (c : Flight) : Nat := a.base f + (c.src.at c.low).toNat
      let v (c : Flight) : BitVec 16 := bits (c.srcB.at c.low) 0 16
      let count (c : Flight) : Nat := if bitAt f.fn 3 then 1 else records c.live
      { step := fun c i =>
          if i != c.low then .skip
          else if va c % 32 != 0 && va c < 2 ^ 52 then .bad .barval (va c)
          else
            let read := wt || (rel && c.got.isNone)
            let e : Ev := { Ev.blank with seqNo := seqOf f, rids := c.liveIds, dest := .span a.plane a.slot c.id }
            if read then .access (va c) (va c) 32 32 (readCells 32) .read { e with kind := .read, acq := wt } true 16
            else
              .access (va c) (va c) 32 32 (readCells 32) .atomic
                { e with
                  kind := .rmw (.arrive (if ph then some (v c) else none) (count c) a.ctx (a.branch s)), rel
                  scope := match c.got with | some (bs, _) => scopeRead bs | none => .rgn }
                true 17
        serial := true
        judge := fun c =>
          match c.got with
          | none => none
          | some (bs, _) =>
            if wt then if waitOver bs (v c) then none else some (.inr { c with lane := c.low, got := none })
            else if rel && c.lane = 16 then some (.inr { c with lane := c.low })
            else if a.hit (va c) (readCells 32) .atomic then
              some (.inl { cause := .watch, addr := BitVec.ofNat 64 (va c), aux := 0
                           pos := lanePos c.src.valid a.node.pos c.low, after := none })
            else none
        leave := fun c => (c.tok, 0) })
    plainMarks
    (fun _ hs => beginFlight hs (liveLane f [.a] hs) ((headOf hs .a).restrict (predOk f (headOf hs .p))))
    noHold

/-! ### rtree (R316 to R318) -/

/-- Combine (R316): Table 12-1 for codes 0 to 5, the .f32 sum rounded under the instance's FPC. -/
def rtCombine (a : At) (f : Fields) (x y : Lane) : Lane × FFlags :=
  let op := AtomOp.ofCode (bits f.fn 0 3)
  if f.ty == .f32 then
    let e := a.env
    e.done fp32 e.rm (sumIv e.rm (e.value fp32 x) (e.value fp32 y))
  else (bits (atomValue op false (f.ty == .i32) 32 (x.setWidth 64) (y.setWidth 64) 0) 0 32, 0)

/-- The table with a value combined into the entry of its offset. -/
def rtUpdate (a : At) (f : Fields) (k v : Lane) : List RtEntry → List RtEntry × FFlags
  | [] => ([], 0)
  | e :: rest =>
    if e.key = k then let r := rtCombine a f e.v v; ({ e with v := r.1 } :: rest, r.2)
    else let r := rtUpdate a f k v rest; (e :: r.1, r.2)

/-- An evicted entry of `.fwd` joins the token pair being filled, which leaves when it holds 16 (R316). -/
def rtEmit (n : Node) (e : RtEntry) : Node :=
  let x := n.buf.head?.getD Token.empty
  let y := n.bufB.head?.getD Token.empty
  let i := records x.valid
  let add (t : Token) (v : Lane) : Token :=
    { t with payload := vput t.payload i v, valid := setBit t.valid i true, rids := vput t.rids i e.rid }
  let p := (add x e.key, add y e.v)
  if i = 15 then { n with buf := [], bufB := [], pend := n.pend ++ [p] } else { n with buf := [p.1], bufB := [p.2] }

/-- One record entered by `.fwd` (R316). -/
def rtEnter (a : At) (f : Fields) (n : Node) (k v : Lane) (rid : Nat) : Node × FFlags :=
  if n.tab.any fun e => e.key = k then
    let r := rtUpdate a f k v n.tab
    ({ n with tab := r.1 }, r.2)
  else
    let n := match n.tab with
      | e :: rest => if 64 ≤ n.tab.length then { rtEmit n e with tab := rest } else n
      | [] => n
    ({ n with tab := n.tab ++ [{ key := k, v, old := none, pos := 0, rid }] }, 0)

/-- `rtree.fwd`: no event (R316). -/
def rtForward (s : State) (f : Fields) : Res :=
  stdNode s f [.a, .b]
    (fun a hs _ t =>
      if t.marker = Mk.eot then
        let n := a.node.tab.foldl rtEmit { a.node with tab := [] }
        let last := match n.buf, n.bufB with
          | x :: _, y :: _ => [(x, y)]
          | _, _ => []
        some (fire s a f (movingSlots hs) [] { n with buf := [], bufB := [], pend := n.pend ++ last ++ [(t, t)] } 0)
      else none)
    fun a hs =>
      let t := headOf hs .a
      let r := (List.range 16).foldl
        (fun (x : Node × FFlags) i =>
          if liveLane f [.a, .b] hs i then
            let y := rtEnter a f x.1 (t.at i) ((headOf hs .b).at i) (vget t.rids i 0)
            (y.1, x.2 ||| y.2)
          else x)
        (a.node, 0)
      fire s a f (movingSlots hs) [] (r.1.took t) r.2

/-- A fault at an entry or a record of an `rtree` root, raised at once: nothing of the node is in flight. -/
def At.rtFault (a : At) (s : State) (cause : Cause) (addr pos : Nat) : Res :=
  .next (s.fabricFault a.plane ((a.inst.map Inst.header).getD 0) a.node.index pos cause (BitVec.ofNat 64 addr) 0)

/-- The oldest entry of a full `.acc` table makes room, once the value it has read has returned; its write stands at the
position of the node's EOT, and so is performed there (R186, R316, log 111). -/
def At.rtMakeRoom (a : At) (s : State) : Res :=
  match a.node.tab with
  | e :: rest => if e.old.isNone then stall s else .next (s.setNode a { a.node with tab := rest, late := a.node.late ++ [e] })
  | [] => stall s

/-- Evict of the oldest entry by a root at EOT (R316): the write of its value, combined in `.acc` with the value read. -/
def At.rtEvict (a : At) (s : State) (f : Fields) (rids : List Nat) (mark : Bool) : Res :=
  match a.node.late ++ a.node.tab with
  | [] => stall s
  | e :: rest =>
    let acc := bits f.fn 3 2 == 1
    if acc && e.old.isNone then stall s
    else
      let r := match e.old with
        | some o => rtCombine a f o e.v
        | none => (e.v, 0)
      let va := a.base f + e.key.toNat
      if 2 ^ 52 ≤ va then a.rtFault s .varange va e.pos
      else if va % 4 != 0 then a.rtFault s .align va e.pos
      else
        let ev : Ev := { Ev.blank with kind := .write, size := 4, seqNo := seqOf f, rids, mark, pos := e.pos }
        let cells := wholeCells (leBytes 4 r.1.toNat)
        let n := { a.node with late := [], tab := rest }
        let done (s : State) : State :=
          let pl := s.plane a.plane
          s.setPlane a.plane { pl with nodes := Tab.put pl.nodes a.slot n, flags := pl.flags ||| r.2 }
        match s.translate a.req (a.region / 32) a.region a.ctx va .write with
        | .miss => .next (s.startWalk a.req (a.region / 32) a.ctx va false)
        | .copy => .next (s.startWalk a.req (a.region / 32) a.ctx va true a.agent)
        | _ =>
          match a.land s va cells .write ev with
          | .fault s x => a.rtFault s x va e.pos
          | .placed s id =>
            if a.hit va cells .write then
              let c := { markFlight id Token.empty none with
                         fault := some { cause := .watch, addr := BitVec.ofNat 64 va, aux := 0, pos := e.pos, after := some id } }
              .next ((done s).setNode a { n with fly := [c] })
            else .next (done s)
          | _ => .next (done s)

/-- One record of a root's token (R316). -/
def At.rtRecord (a : At) (s : State) (f : Fields) (c : Flight) : Res :=
  let acc := bits f.fn 3 2 == 1
  let n := a.node
  let i := c.lane
  let k := c.src.at i
  let pos := lanePos c.src.valid n.pos i
  let next := { c with lane := i + 1 }
  let ids := c.laneIds i
  if n.tab.any fun e => e.key = k then
    let r := rtUpdate a f k (c.srcB.at i) n.tab
    let pl := a.pl
    .next (s.setPlane a.plane
      { pl with nodes := Tab.put pl.nodes a.slot { n with tab := r.1, cur := some next }, flags := pl.flags ||| r.2 })
  else if 64 ≤ n.tab.length then
    if acc then a.rtMakeRoom s else a.rtFault s .rtfull (a.base f + k.toNat) pos
  else
    let entry : RtEntry := { key := k, v := c.srcB.at i, old := none, pos, rid := vget c.src.rids i 0 }
    let put (s : State) (old : Option Lane) : Res :=
      .next (s.setNode a { n with tab := n.tab ++ [{ entry with old }], cur := some next })
    let va := a.base f + k.toNat
    if !acc then put s none
    else if 2 ^ 52 ≤ va then a.rtFault s .varange va pos
    else if va % 4 != 0 then a.rtFault s .align va pos
    else
      match a.land s va (readCells 4) .read
        { Ev.blank with kind := .read, size := 4, seqNo := seqOf f, rids := ids, pos, dest := .entry a.plane a.slot k } with
      | .fault s x => a.rtFault s x va pos
      | .void => put s (some 0)
      | .parked s => put s none
      | .placed s _ => put s none

/-- A root's turn: one record, one eviction or one marker. -/
def rtRoot (s : State) (f : Fields) : Res :=
  asNode s fun a =>
    let n := a.node
    match n.phase with
    | .emit => emitStep s a f
    | .held =>
      if n.fly.isEmpty && !a.busy s false then .next (s.setNode a { n with phase := .emit }) else stall s
    | .run =>
      (match n.fly, n.cur with
        | c :: rest, _ =>
          if !a.canLeave s c then stall s
          else
            let s := s.setNode a { n with fly := rest }
            match c.fault with
            | some x =>
              .next (s.fabricFault a.plane ((a.inst.map Inst.header).getD 0) n.index x.pos x.cause x.addr x.aux)
            | none => .next s
        | [], some c =>
          if a.busy s true then stall s
          else if c.tok.marker = Mk.eot then
            if n.tab.isEmpty && n.late.isEmpty then .next (s.setNode a { n with cur := none, ended := true })
            else a.rtEvict s f n.seen true
          else if 16 ≤ c.lane then .next (s.setNode a { n.closed c with cur := none })
          else if !bitAt c.live c.lane then .next (s.setNode a { n with cur := some { c with lane := c.lane + 1 } })
          else a.rtRecord s f c
        | [], none =>
          if n.config.isSome || a.ahead then stall s
          else
            let hs := a.heads (withPred f [.a, .b])
            match meets hs with
            | .nothing => stall s
            | .reserved _ => .next (a.block s 0x10)
            | .misaligned => .next (a.fault s .mkalign 0 n.pos)
            | .wave m => wave s a (movingSlots hs) m
            | .free o t => a.takeMark s f [o] t n
            | .positional t =>
              if t.marker = Mk.eot then
                fire s a f (movingSlots hs) [] { n with cur := some (markFlight s.nextId t none) } 0
              else fire s a f (movingSlots hs) [] n 0
            | .data =>
              let c := beginFlight hs (liveLane f [.a, .b] hs) (headOf hs .a)
              fire s a f (movingSlots hs) [] { n with cur := some { c with id := s.nextId } } 0)
    | _ => stall s

/-- `rtree` (R316): .fwd, or a root of form .acc or .set. -/
def execRtree (f : Fields) (s : State) : Res :=
  if bits f.fn 3 2 == 0 then
    asNode s fun a =>
      if a.node.phase == .held then .next (s.setNode a { a.node with phase := .emit }) else rtForward s f
  else rtRoot s f

/-! ### A parked access that faults (R240) -/

/-- The lane of a flight whose record has a stream position. -/
def Flight.laneAt (c : Flight) (base pos : Nat) : Nat :=
  ((List.range 16).find? fun i => bitAt c.src.valid i && lanePos c.src.valid base i = pos).getD 0

/-- The node whose parked access at a stream position has faulted: the flight stops there, and an `rtree` entry made
for it is given up. -/
def Node.parkedFault (n : Node) (id pos : Nat) (x : NodeFault) : Node :=
  match n.cur with
  | some c =>
    if fabricOpc n.word = 0x92 then
      { n with
        tab := n.tab.take (n.tab.length - 1)
        cur := some { c with lane := c.laneAt n.pos pos }
        fly := [{ markFlight id Token.empty none with fault := some x }] }
    else
      let c := { c with lane := c.laneAt n.pos pos }
      n.split { c with waiting := setBit c.waiting c.lane false } id x
  | none => n

end Sys2Proof.Machine
end

