-- ==== Sys2Proof/Machine/Jobs.lean ====
section
/-!
DEFINITION. Engine jobs: pattern registers (R203 to R205, R212), the job scoreboard (R211 to R213), events of a job
(R470), engine faults (R389) and triggers (R367).
-/

namespace Sys2Proof.Machine

/-! ### Patterns -/

/-- The fields of a pattern register (Table 8-7). -/
structure Pat where
  base : Nat
  str0 : Int
  str1 : Int
  str2 : Int
  cnt0 : Nat
  cnt1 : Nat
  cnt2 : Nat
  tyCode : BitVec 4
  kind : Nat
  xform : Nat
  cbs : Nat
  reserved : Bool
  deriving DecidableEq, Repr

def Pat.of (x : BitVec 256) : Pat :=
  { base := (bits x 0 52).toNat
    str0 := (bits x 64 32).toInt, str1 := (bits x 96 32).toInt, str2 := (bits x 128 32).toInt
    cnt0 := (bits x 160 24).toNat, cnt1 := (bits x 192 24).toNat, cnt2 := (bits x 216 24).toNat
    tyCode := bits x 184 4, kind := (bits x 188 2).toNat, xform := (bits x 240 3).toNat, cbs := (bits x 243 4).toNat
    reserved := bits x 52 12 != 0 || bits x 190 2 != 0 || bits x 247 9 != 0 }

/-- The element type; reserved codes never pass R205. -/
def Pat.ty (p : Pat) : ElemTy := (ElemTy.ofCode p.tyCode).getD .b32
def Pat.isCb4 (p : Pat) : Bool := p.ty == .cb4
def Pat.converts (p : Pat) : Bool := p.xform = 1
def Pat.isGather (p : Pat) : Bool := p.kind = 1
def Pat.isScatter (p : Pat) : Bool := p.kind = 2

/-- Bytes of an element: the 64-byte block with TAGCVT (R204), and one byte that holds a CB4 nibble. -/
def Pat.size (p : Pat) : Nat := if p.converts then 64 else elemBytes p.ty

/-- Elements of the pattern. -/
def Pat.count (p : Pat) : Nat := p.cnt0 * p.cnt1 * p.cnt2

/-- Bytes from the start of a CB4 row to an element, or STR0 times its index. -/
def Pat.inRow (p : Pat) (k : Nat) : Int := if p.isCb4 && !p.converts && p.kind = 0 then ((k / 2 : Nat) : Int) else p.str0 * k

/-- Address of element e in pattern order (R204). -/
def Pat.addr (p : Pat) (e : Nat) : Int :=
  let row := e / p.cnt0
  (p.base : Int) + p.str2 * ((row / p.cnt1 : Nat) : Int) + p.str1 * ((row % p.cnt1 : Nat) : Int) + p.inRow (e % p.cnt0)

/-- Nibble of CB4 element e; a gather or scatter takes the low one of the byte it addresses (R207, log 14). -/
def Pat.nibble (p : Pat) (e : Nat) : Nat := if p.kind = 0 then e % p.cnt0 % 2 else 0

/-- Element e is the last of an innermost row. -/
def Pat.rowEnd (p : Pat) (e : Nat) : Bool := (e + 1) % p.cnt0 = 0

/-- The 64-byte block of an address. -/
def blockOf (a : Int) : Int := a / 64

/-- Footprint of an affine pattern, gather or scatter (R212): first address and one past the last, or none. -/
def Pat.range? (p : Pat) : Option (Int × Int) :=
  let span (c : Nat) (s : Int) : Int := ((c : Int) - 1) * s
  if p.kind != 0 then some (p.base, (p.base : Int) + p.cnt0 * p.str0)
  else if p.count = 0 then none
  else if p.xform = 4 then some (p.base, (p.base : Int) + p.count)
  else
    let ds := [p.inRow (p.cnt0 - 1), span p.cnt1 p.str1, span p.cnt2 p.str2]
    some (ds.foldl (fun a d => a + min 0 d) (p.base : Int), ds.foldl (fun a d => a + max 0 d) (p.base : Int) + p.size)

/-- Where a pattern is used (Table 8-8). -/
inductive PatUse where
  | rd | wr | source | dest
  deriving DecidableEq, Repr

/-- Table 8-8; the port's parity is `sbind`'s own check. -/
def Pat.legal (p : Pat) (u : PatUse) : Bool :=
  match p.kind, p.xform with
  | 0, 0 => true
  | 0, 1 => u == .rd || u == .source
  | 0, 2 => u == .rd
  | 0, 3 => u == .wr
  | 0, 4 => u == .source && p.ty == .u8 && p.str0 = 1
  | 1, 0 => u == .rd
  | 2, 0 => u == .wr
  | _, _ => false

/-- The checks of R205; false is PATBAD. A footprint below address 0 fails like one that reaches 2^52 (log 13). -/
def Pat.ok (p : Pat) (u : PatUse) : Bool :=
  let a : Int := if p.converts then 64 else if p.isCb4 then 1 else p.size
  !p.reserved && p.tyCode.toNat < 14 && p.legal u &&
    (p.base : Int) % a = 0 && p.str0 % a = 0 && p.str1 % a = 0 && p.str2 % a = 0 &&
    !(p.isCb4 && p.cnt0 % 2 = 1) &&
    (match p.range? with | some (lo, hi) => 0 ≤ lo && hi ≤ 2 ^ 52 | none => true) &&
    (p.kind = 0 || (0 < p.str0 && p.cnt0 != 0 && p.cnt1 = 0 && p.cnt2 = 0 && p.str1 = 0 && p.str2 = 0))

/-- Elements after e, at most `fuel`, that lie in the same 64-byte block (R470). -/
def Pat.more (p : Pat) (blk : Int) : Nat → Nat → Nat
  | 0, _ => 0
  | fuel + 1, e => if blockOf (p.addr e) = blk then p.more blk fuel (e + 1) + 1 else 0

/-- Elements of the run that begins at element e: it ends with the row, or before another block (R470). -/
def Pat.runLen (p : Pat) (e : Nat) : Nat :=
  if p.converts then 1 else p.more (blockOf (p.addr e)) (p.cnt0 - e % p.cnt0) e

/-- Byte addresses of element e. -/
def Pat.bytesOf (p : Pat) (e : Nat) : List Int := (List.range p.size).map fun o => p.addr e + o

/-- Byte addresses of a run, each once, in the order of its elements. -/
def Pat.runBytes (p : Pat) (e : Nat) : Nat → List Int
  | 0 => []
  | n + 1 =>
    let rest := p.runBytes e n
    (p.bytesOf (e + n)).foldl (fun l a => if l.contains a then l else l ++ [a]) rest

/-- Raw value of element e from the bytes that its run's event returned. -/
def Pat.value (p : Pat) (first n : Nat) (got : List Byte) (e : Nat) : Nat :=
  let keys := p.runBytes first n
  let at_ (a : Int) : Nat :=
    match keys.findIdx? (· = a) with
    | some i => ((got[i]?).getD 0).toNat
    | none => 0
  if p.isCb4 then at_ (p.addr e) / 16 ^ p.nibble e % 16
  else (p.bytesOf e).foldr (fun a v => at_ a + 256 * v) 0

/-! ### The scoreboard (R211 to R213, R331) -/

/-- The entry and the job with a serial number. -/
def Region.jobOf (r : Region) (serial : Nat) : Option (Nat × Job) :=
  List.find? (fun e => e.2.serial = serial) r.jobs

/-- A job replaced. -/
def State.setJob (s : State) (r e : Nat) (j : Job) : State :=
  let g := s.region r
  s.setRegion r { g with jobs := Tab.put g.jobs e j }

/-- The ranges of two jobs overlap, and one of the two ranges is written (R213). -/
def rangesClash (a b : List JobRange) : Bool :=
  a.any fun x => b.any fun y => (x.wr || y.wr) && decide (x.lo < y.hi) && decide (y.lo < x.hi)

/-- The card range of a pattern (R212). -/
def Pat.card (p : Pat) (wr : Bool) : List JobRange :=
  match p.range? with
  | some (lo, hi) => [{ lo := lo.toNat, hi := hi.toNat, wr }]
  | none => []

/-- The lowest free entry of a scoreboard. -/
def Region.freeEntry (g : Region) : Option Nat := (List.range 16).find? fun e => (Tab.find? g.jobs e).isNone

/-- A job with the state in which it begins. -/
def Job.fresh (kind : JobKind) (ranges : List JobRange) (q : Nat) (token : Option (Bool × SReg)) (scope : Scope)
    (ctx plane : Nat) (env : FpEnv) : Job :=
  { serial := 0, card := 0, kind, ranges, deps := [], started := false, seq := q, token, scope, ctx, plane,
    sfl := env.sfl, rfl := env.rfl, flags := 0, fetched := 0, fly := [], bytes := [], zbytes := [], vals := [], wpos := 0,
    run := [], runEnd := false, zunits := 0, zmask := 0, zword := 8, zcut := false, kindSeen := none, outcome := none,
    fault := none, arrived := false }

/-- FPC of a context as an environment. -/
def State.envOf (s : State) (ctx : Nat) : FpEnv :=
  match s.ctx? ctx with
  | some c => FpEnv.ofFpc c.fpc
  | none => FpEnv.ofFpc 0

/-- A job entered at a scoreboard entry: its card, its dependences, and its token register armed (R212, R213, R331). -/
def State.enterJob (s : State) (r e : Nat) (j : Job) (ip : Word) : State :=
  let g := s.region r
  let serial := g.serial + 1
  let deps := (g.jobs.filter fun x => rangesClash x.2.ranges j.ranges).map fun x => x.2.serial
  let j := { j with serial, card := bits ip 2 12 ++ BitVec.ofNat 4 e, deps }
  let s := s.setRegion r { g with jobs := Tab.put g.jobs e j, serial }
  let v := s.seq j.seq
  let v := { v with jobs := v.jobs ++ [{ serial, result := none }] }
  match j.token with
  | some (p, d) => s.setSeq j.seq ((v.writeBank p d 0).setArmed p d true)
  | none => s.setSeq j.seq v

/-- The token register of an instruction: the bank in force, or none for s0. -/
def tokenReg (v : Seq) (d : SReg) : Option (Bool × SReg) := if d = 0 then none else some (v.priv, d)

/-! ### Events of a job -/

def jobAgent (r e : Nat) : Nat := (Agent.job r e).key

/-- An access of a job to bytes of one page, translated and placed (R227, R240, R470). -/
def State.jobLand (s : State) (r e : Nat) (j : Job) (req : Nat) (cells : List (Nat × Byte × Byte)) (use : Use) (ev : Ev) :
    Landed :=
  let va := (cells.map fun c => c.1).foldl min ((cells.head?.map fun c => c.1).getD 0)
  let at_ (k : Nat) : List Piece := cells.map fun c => { key := k + (c.1 - va), value := c.2.1, mask := c.2.2 }
  let ev := { ev with va, size := cells.length, ctx := j.ctx, req, scope := j.scope,
                       watched := use == Use.write || use == Use.atomic }
  let park (copy : Bool) : Landed :=
    .parked ((s.startWalk req (r / 32) j.ctx va copy (jobAgent r e)).place (jobAgent r e)
      { ev with pieces := at_ va, base := va, parked := true, ord := .so })
  match s.translate req (r / 32) r j.ctx va use with
  | .fault c => .fault (s.dropBad req j.ctx (va / 2 ^ 16)) c
  | .void => .void
  | .miss => park false
  | .copy => park true
  | .ok p =>
    .placed (s.place (jobAgent r e)
      { ev with pieces := at_ p.key, base := p.key, ord := Leaf.ord p.leaf, mkind := Leaf.mkind p.leaf, large := Leaf.lg p.leaf })
      s.nextId

/-- A job has an access that waits for a translation. -/
def State.jobParked (s : State) (r e : Nat) : Bool := (s.agent (jobAgent r e)).q.any (·.parked)

/-- Whether every address of a list lies in the 52-bit space. -/
def inSpace (l : List Int) : Bool := l.all fun a => 0 ≤ a && a < 2 ^ 52

/-- A run of bytes with one more element's bytes; a later element's byte replaces an earlier one's, bit by bit. -/
def runAdd (run : List (Nat × Byte × Byte)) (a : Nat) (v m : Byte) : List (Nat × Byte × Byte) :=
  if run.any fun x => x.1 = a then
    run.map fun x => if x.1 = a then (a, maskByte x.2.1 v m, x.2.2 ||| m) else x
  else run ++ [(a, v &&& m, m)]

/-- An element of a pattern added to the run being gathered. -/
def Pat.addTo (p : Pat) (run : List (Nat × Byte × Byte)) (e : Nat) (x : Nat) : List (Nat × Byte × Byte) :=
  let a := (p.addr e).toNat
  if p.isCb4 then
    let sh := 16 ^ p.nibble e
    runAdd run a (BitVec.ofNat 8 (x % 16 * sh)) (BitVec.ofNat 8 (15 * sh))
  else ((List.range p.size).zip (leBytes p.size x)).foldl (fun r (o, b) => runAdd r (a + o) b 0xFF) run

/-- The run covers a whole 64-byte block, so that its tag is written in the same event (R206). -/
def wholeBlock (run : List (Nat × Byte × Byte)) : Bool := run.length = 64 && run.all fun x => x.2.2 == 0xFF

/-- The tag that a whole block gets, or none. -/
def Pat.tagFor (p : Pat) (run : List (Nat × Byte × Byte)) (scale : Byte) : Option (BitVec 16) :=
  if wholeBlock run then some (tagOf (tagKind p.ty) scale p.cbs) else none

/-- An element lies outside the run's block, so that the run must be written first. -/
def Pat.breaks (p : Pat) (run : List (Nat × Byte × Byte)) (e : Nat) : Bool :=
  match run with
  | (a, _, _) :: _ => blockOf (p.addr e) != blockOf a
  | [] => false

/-! ### Engine faults (R214, R389) and triggers (R367) -/

/-- EFLT and EFLTA after an engine fault (Table 15-2). -/
def Seq.engineFault (v : Seq) (engine : Nat) (card : BitVec 16) (cause : Cause) (addr : Nat) : Seq :=
  if bitAt v.eflt 63 then
    let more := (bits v.eflt 48 15).toNat
    { v with eflt := (1 : BitVec 1) ++ BitVec.ofNat 15 (min (more + 1) 0x7FFF) ++ bits v.eflt 0 48 }
  else
    { v with
      eflt := (1 : BitVec 1) ++ (0 : BitVec 15) ++ (0 : BitVec 8) ++ BitVec.ofNat 8 engine ++ card ++ (0 : BitVec 8) ++
        cause.code
      eflta := BitVec.ofNat 64 addr }

/-- Engine code of a job (R389). -/
def JobKind.engine : JobKind → Nat
  | .sgo p _ _ => p
  | .bchn .ba1 => 9
  | .bchn _ => 8
  | .acpy .. => 11
  | .bwld .. => 12

/-- A fault of a job: EFLT records it at once, and the token gets its code at completion (R211, R389). -/
def State.jobFault (s : State) (r e : Nat) (j : Job) (cause : Cause) (addr : Nat) (engine : Nat := j.kind.engine) : State :=
  let s := s.setJob r e { j with fault := some (cause, addr) }
  s.setSeq j.seq ((s.seq j.seq).engineFault engine j.card cause addr)

/-- A firing of a trigger slot (R367). -/
def Trig.fire (t : Trig) : Trig := { t with pend := true, count := min (t.count + 1) 0xFFFFFFFF }

/-- The slots of a context that a test selects fire. -/
def Ctx.fire (c : Ctx) (test : Trig → Bool) : Ctx :=
  { c with trigs := lanes fun i => let t := vget c.trigs i Trig.empty; if t.arm && test t then t.fire else t }

/-- A TRIG token reaches the write side of a port (R206, R367). -/
def State.firePort (s : State) (ctx r p : Nat) : State :=
  match s.ctx? ctx with
  | some c => s.setCtx ctx (c.fire fun t => t.port == some (r, p))
  | none => s

/-- A `sjoin` whose tables an agent has written into gives undefined outputs from then on (R302). -/
def Node.spoil (n : Node) (keys : List Nat) : Node :=
  if n.range.any fun r => keys.any fun k => decide (r.1 ≤ k) && decide (k < r.1 + r.2) then { n with spoiled := true } else n

/-- A write or RMW that covers some physical bytes has been committed at their home: address triggers fire (R367), and
tables of `sjoin` are spoiled. -/
def State.written (s : State) (keys : List Nat) : State :=
  { s with
    ctxs := s.ctxs.map fun (n, c) =>
      (n, c.fire fun t => t.port.isNone && keys.any fun k => decide (t.lo ≤ k) && decide (k < t.hi))
    planes := s.planes.map fun (k, p) => (k, { p with nodes := p.nodes.map fun (i, n) => (i, n.spoil keys) }) }

/-- What a data token or marker costs at a port's rate limiter: none when the window is full (R269). -/
def Limiter.letIn (l : Limiter) : Option Limiter :=
  if l.a = 0 then some l else if l.admitted < l.a then some { l with admitted := l.admitted + 1 } else none

/-- One token through the limiter of a unit: ports 0 to 7, BA0 8, BA1 9. -/
def State.letIn (s : State) (r unit : Nat) : Option State :=
  let g := s.region r
  (vget g.limits unit Limiter.empty).letIn.map fun l => s.setRegion r { g with limits := vput g.limits unit l }

end Sys2Proof.Machine
end

