-- ==== Sys2Proof/Machine/Copies.lean ====
section
/-!
DEFINITION. The data of `acpy` and `bwld` jobs (R209, R210, R214, R220, R280): source runs are read, decoded, and
written in destination order, until the job can do no more without a value or a translation.
-/

namespace Sys2Proof.Machine

/-- Environment of a job's conversions. -/
def Job.env (j : Job) : FpEnv := { rm := .rne, sfl := j.sfl, rfl := j.rfl }

/-- Kind field of a tag, and whether R193 accepts it. -/
def tagKindOf (tag : BitVec 16) : Nat := (bits tag 4 4).toNat
def tagAccepted (tag : BitVec 16) : Bool := tagKindOf tag != 0 && tagKindOf tag ≤ 10

/-- Elements of a tagged block (Table 3-5). -/
def blockElems (tag : BitVec 16) : Nat := 512 / kindBits (tagKindOf tag)

/-- Element i of a tagged block, widened (R193, R209). -/
def widenElem (e : FpEnv) (cb : BitVec 256) (ty : ElemTy) (bs : List Byte) (tag : BitVec 16) (i : Nat) : Lane × FFlags :=
  let w := kindBits (tagKindOf tag)
  widen e (tagKindOf tag) (bits tag 8 8).toNat cb ty (BitVec.ofNat 32 (leNat bs / 2 ^ (w * i) % 2 ^ w))

/-- Codebook register that a tag names, in a plane. -/
def State.tagCodebook (s : State) (plane : Nat) (tag : BitVec 16) : BitVec 256 :=
  vget (s.plane plane).c (bits tag 0 4).toNat 0

/-- The plane of a job as a plane number. -/
def Job.planeKey (r : Nat) (j : Job) : Nat := 4 * r + j.plane

/-- A flight that stands for one source run: its first element, and its number of elements. -/
def runFlight (first n : Nat) (waiting : Bool) (got : Option (List Byte × BitVec 16)) (fault : Option NodeFault) : Flight :=
  { id := first, tok := Token.empty, src := Token.empty, srcB := Token.empty, srcC := Token.empty, live := 0, lane := n,
    waiting := if waiting then 1 else 0, hold := none, got, fault }

/-- A run's fault: cause and address of its first element. -/
def runFault (c : Cause) (addr : Nat) : NodeFault := { cause := c, addr := BitVec.ofNat 64 addr, aux := 0, pos := 0, after := none }

/-- The read event of the run that begins at element e of a pattern. -/
def readRun (s : State) (r e : Nat) (j : Job) (req : Nat) (p : Pat) (use : Use) (tagged : Bool) (first : Nat) :
    State × Flight :=
  let n := p.runLen first
  let keys := p.runBytes first n
  let a := (p.addr first).toNat
  if !inSpace keys then (s, runFlight first n false none (some (runFault .varange a)))
  else
    let cells := keys.map fun k => (k.toNat, (0 : Byte), (0xFF : Byte))
    match s.jobLand r e j req cells use { Ev.blank with kind := .read, tagRead := tagged, dest := .job r e first } with
    | .placed s _ => (s, runFlight first n true none none)
    | .parked s => (s, runFlight first n true none none)
    | .void => (s, runFlight first n false (some ([], 0)) none)
    | .fault s c => (s, runFlight first n false none (some (runFault c a)))

/-- The write event of a gathered run (R470, R206). -/
def writeRun (s : State) (r e : Nat) (j : Job) (req : Nat) (run : List (Nat × Byte × Byte)) (tag : Option (BitVec 16)) :
    State × Option (Cause × Nat) :=
  let a := (run.head?.map fun c => c.1).getD 0
  if run.any fun c => decide (2 ^ 52 ≤ c.1) then (s, some (.varange, a))
  else
    match s.jobLand r e j req run .write { Ev.blank with kind := .write, tagWrite := tag } with
    | .placed s _ => (s, none)
    | .parked s => (s, none)
    | .void => (s, none)
    | .fault s c => (s, some (c, a))

/-- A job has a write, or any access, that waits for a translation. -/
def State.jobWriteParked (s : State) (r e : Nat) : Bool := (s.agent (jobAgent r e)).q.any fun x => x.parked && x.isWrite

/-- A ZEXPAND source decoded by one byte or one word (R210); none when it needs more bytes. `ended` says that no byte
will follow: a word that is cut short is missing. -/
def Job.zstep (j : Job) (ended : Bool) : Option Job :=
  if j.zword = 8 then
    match j.bytes with
    | m :: rest => some { j with bytes := rest, zmask := m, zunits := j.zunits + 1, zword := 0 }
    | [] => none
  else if bitAt j.zmask j.zword then
    if 8 ≤ j.bytes.length then
      some { j with bytes := j.bytes.drop 8, zbytes := j.zbytes ++ j.bytes.take 8, zword := j.zword + 1 }
    else if ended then some { j with bytes := [], zmask := 0, zcut := true }
    else none
  else some { j with zbytes := j.zbytes ++ List.replicate 8 0, zword := j.zword + 1 }

/-- Decoded bytes as destination elements: a CB4 element is a nibble. -/
def Job.zpack (j : Job) (d : Pat) : Job :=
  if d.isCb4 then { j with zbytes := [], vals := j.vals ++ j.zbytes.flatMap fun b => [b.toNat % 16, b.toNat / 16] }
  else
    { j with
      zbytes := j.zbytes.drop (j.zbytes.length / d.size * d.size)
      vals := j.vals ++ (List.range (j.zbytes.length / d.size)).map fun k => leNat ((j.zbytes.drop (k * d.size)).take d.size) }

/-- Destination bytes of a pattern: the declared length L (R210). -/
def Pat.length (p : Pat) : Nat := if p.isCb4 then p.count / 2 else p.count * p.size

/-- The elements that a returned source run gives (R209, R210, R220). -/
def consumeRun (s : State) (r : Nat) (j : Job) (p : Pat) (d : Pat) (c : Flight) (bs : List Byte) (tag : BitVec 16) :
    Job × Option Cause :=
  let j := { j with fly := j.fly.drop 1 }
  if p.xform = 4 then
    ({ j with bytes := j.bytes ++ (List.range c.lane).map fun k => BitVec.ofNat 8 (p.value c.id c.lane bs (c.id + k)) }, none)
  else if p.converts then
    if bs.isEmpty then ({ j with vals := j.vals ++ List.replicate 16 0 }, none)
    else if !tagAccepted tag then (j, some .tagfmt)
    else
      let cb := s.tagCodebook (j.planeKey r) tag
      let xs := (List.range (blockElems tag)).map fun i => widenElem j.env cb d.ty bs tag i
      ({ j with vals := j.vals ++ xs.map fun x => x.1.toNat, flags := xs.foldl (fun f x => f ||| x.2) j.flags }, none)
  else ({ j with vals := j.vals ++ (List.range c.lane).map fun k => p.value c.id c.lane bs (c.id + k) }, none)

/-- The copy's outcome (R210, R220). -/
def Job.copyOutcome (j : Job) (p d : Pat) : Word :=
  if p.xform = 4 then
    let n := 64 * j.zunits
    if d.length < n then 2 else if n = d.length && !j.zcut then 1 else 3
  else if j.zcut then 3
  else if !j.vals.isEmpty || j.fetched < p.count then 2
  else 1

/-- A source run of a copy has failed: no later run is read (R214). -/
def Job.runFaulted (j : Job) : Bool := j.fly.any fun c => c.fault.isSome

/-- One step of an `acpy` job's data, or none when it must wait. -/
def acpyStep (s : State) (r e : Nat) (j : Job) (dst src : BitVec 256) (bar : Option Nat) : Option State :=
  let p := Pat.of src
  let d := Pat.of dst
  let req := reqEngine r
  let ended := decide (p.count ≤ j.fetched) && j.fly.isEmpty
  if j.fault.isSome then none
  else if !j.run.isEmpty && (j.runEnd || decide (d.count ≤ j.wpos) || d.breaks j.run j.wpos ||
      (j.vals.isEmpty && (j.fly.head?.any fun c => c.fault.isSome))) then
    if s.jobWriteParked r e then none
    else
      let (s, bad) := writeRun s r e j req j.run (d.tagFor j.run 0x7F)
      let j := { j with run := [], runEnd := false }
      match bad with
      | none => some (s.setJob r e j)
      | some (c, a) => some (s.jobFault r e j c a)
  else
    match j.vals with
    | x :: rest =>
      if j.wpos < d.count then
        some (s.setJob r e { j with vals := rest, run := d.addTo j.run j.wpos x, runEnd := d.rowEnd j.wpos, wpos := j.wpos + 1 })
      else if p.xform = 4 then some (s.setJob r e { j with vals := [] })
      else if j.outcome.isNone then some (s.setJob r e { j with outcome := some (j.copyOutcome p d) })
      else arrival s j
    | [] =>
      if 0 < j.zbytes.length then some (s.setJob r e (j.zpack d))
      else if p.xform = 4 && (j.zstep ended).isSome then some (s.setJob r e ((j.zstep ended).getD j))
      else
        match j.fly with
        | c :: _ =>
          (match c.fault, c.got with
            | some x, _ => some (s.jobFault r e j x.cause x.addr.toNat)
            | none, some (bs, tag) =>
              let (j', bad) := consumeRun s r j p d c bs tag
              (match bad with
                | none => some (s.setJob r e j')
                | some x =>
                  let c := { c with fault := some (runFault x (p.addr c.id).toNat) }
                  some (s.setJob r e { j with fly := c :: j'.fly }))
            | none, none =>
              if !p.converts && wants p d j && !s.jobParked r e && !j.runFaulted then fetch s j p else none)
        | [] =>
          if wants p d j && !s.jobParked r e then fetch s j p
          else if wants p d j then none
          else if j.wpos < d.count then some (s.setJob r e { j with vals := [0], zcut := true })
          else if j.outcome.isNone then some (s.setJob r e { j with outcome := some (j.copyOutcome p d) })
          else arrival s j
where
  /-- more source elements are to be read -/
  wants (p d : Pat) (j : Job) : Bool :=
    decide (j.fetched < p.count) && (p.xform = 4 || (if p.converts then decide (j.wpos < d.count) else decide (j.fetched < d.count)))
  fetch (s : State) (j : Job) (p : Pat) : Option State :=
    let (s, c) := readRun s r e j (reqEngine r) p .copyRead p.converts j.fetched
    some (s.setJob r e { j with fetched := j.fetched + c.lane, fly := j.fly ++ [c] })
  /-- the release arrival at the oldest open phase (R220) -/
  arrival (s : State) (j : Job) : Option State :=
    match bar with
    | none => none
    | some va =>
      if j.arrived || s.jobParked r e then none
      else
        let s := s.setJob r e { j with arrived := true }
        let j := { j with arrived := true }
        if 2 ^ 52 ≤ va then some (s.jobFault r e j .varange va)
        else if va % 32 != 0 then some (s.jobFault r e j .barval va)
        else
          let cells := (List.range 32).map fun o => (va + o, (0 : Byte), (0xFF : Byte))
          match s.jobLand r e j (reqEngine r) cells .atomic
            { Ev.blank with
              kind := .rmw (.arrive none (Pat.of dst).length j.ctx (s.seq j.seq).branch), rel := true
              dest := .job r e (2 ^ 60) } with
          | .placed s _ => some s
          | .parked s => some s
          | .void => some s
          | .fault s c => some (s.jobFault r e j c va)

/-- The arrays that an operand names. -/
def ArrSel.list : ArrSel → List Nat
  | .ba0 => [0] | .ba1 => [1] | .ba01 => [0, 1]

/-- One column of an array of a region. -/
def State.column (s : State) (r a c : Nat) : Column :=
  Tab.getD (vget (s.region r).arrays a BArray.empty).cols c Column.empty

def State.setColumn (s : State) (r a c : Nat) (x : Column) : State :=
  let g := s.region r
  let b := vget g.arrays a BArray.empty
  s.setRegion r { g with arrays := vput g.arrays a { b with cols := Tab.put b.cols c x } }

/-- A source block of `bwld` written to a column's slice (R280). -/
def loadBlock (s : State) (r e : Nat) (j : Job) (a col off : Nat) (cb : BitVec 256) (k : Nat) (bs : List Byte)
    (tag : BitVec 16) : State :=
  let key := weightKey r a col (64 * (off + k))
  let bs := if bs.isEmpty then List.replicate 64 (0 : Byte) else bs
  let ev : Ev :=
    { Ev.blank with
      kind := .write, size := 64, scope := j.scope, ctx := j.ctx, mkind := 2
      pieces := (keyed key bs).map fun (x, b) => { key := x, value := b, mask := 0xFF } }
  let s := s.place (jobAgent r e) ev
  let x := s.column r a col
  let x := { x with scales := Tab.put x.scales (off + k) (if tagKindOf tag = 2 then 0x7F else bits tag 8 8) }
  let x := if k = 0 then { x with kind := bits tag 4 4, cb := if tagKindOf tag = 6 then cb else x.cb } else x
  s.setColumn r a col x

/-- One step of a `bwld` job's data, or none when it must wait. -/
def bwldStep (s : State) (r e : Nat) (j : Job) (src len : Nat) (arr : ArrSel) (col off slot : Nat) (cb : BitVec 256) :
    Option State :=
  if j.fault.isSome then none
  else
    let fetch : Option State :=
      if 64 * j.fetched < len && !s.jobParked r e && !j.runFaulted then
        let a := src + 64 * j.fetched
        if 2 ^ 52 < a + 64 then
          some (s.setJob r e
            { j with fetched := len / 64, fly := j.fly ++ [runFlight j.fetched 1 false none (some (runFault .varange a))] })
        else
          let cells := (List.range 64).map fun o => (a + o, (0 : Byte), (0xFF : Byte))
          let next (s : State) (c : Flight) : Option State :=
            some (s.setJob r e { j with fetched := j.fetched + 1, fly := j.fly ++ [c] })
          match s.jobLand r e j (reqEngine r) cells .read
            { Ev.blank with kind := .read, tagRead := true, dest := .job r e j.fetched } with
          | .placed s _ => next s (runFlight j.fetched 1 true none none)
          | .parked s => next s (runFlight j.fetched 1 true none none)
          | .void => next s (runFlight j.fetched 1 false (some ([], 0)) none)
          | .fault s c => next s (runFlight j.fetched 1 false none (some (runFault c a)))
      else none
    match j.fly with
    | c :: rest =>
      (match c.fault, c.got with
        | some x, _ => some (s.jobFault r e j x.cause x.addr.toNat)
        | none, some (bs, tag) =>
          let k := tagKindOf tag
          if !(k = 2 || k = 4 || k = 6) || (match j.kindSeen with | some x => x != bits tag 4 4 | none => false) ||
              (k = 6 && (bits tag 0 4).toNat != slot) then
            some (s.jobFault r e j .tagfmt (src + 64 * c.id))
          else
            let s := (ArrSel.list arr).foldl (fun s a => loadBlock s r e j a col off cb c.id bs tag) s
            some (s.setJob r e { j with fly := rest, kindSeen := some (bits tag 4 4) })
        | none, none => fetch)
    | [] =>
      if 64 * j.fetched < len then fetch
      else if j.outcome.isNone then some (s.setJob r e { j with outcome := some 1 })
      else none

/-- One step of a copy job's data. -/
def copyStep (s : State) (r e : Nat) : Option State :=
  match Tab.find? (s.region r).jobs e with
  | none => none
  | some j =>
    if !j.started then none
    else
      match j.kind with
      | .acpy d p b => acpyStep s r e j d p b
      | .bwld a n arr col off slot cb => bwldStep s r e j a n arr col off slot cb
      | _ => none

/-- Copy steps until the job must wait. -/
def copyRun (r e : Nat) : Nat → State → State
  | 0, s => s
  | fuel + 1, s =>
    match copyStep s r e with
    | some t => copyRun r e fuel t
    | none => s

/-- More steps than a job's data can take. -/
def copyFuel (j : Job) : Nat :=
  match j.kind with
  | .acpy d p _ => 16 * (Pat.of d).count + 300 * (Pat.of p).count + 64
  | .bwld _ n _ _ _ _ _ => 4 * n + 64
  | _ => 0

/-- A copy job goes on as far as it can. -/
def State.copyOn (s : State) (r e : Nat) : State :=
  match Tab.find? (s.region r).jobs e with
  | some j => copyRun r e (copyFuel j) s
  | none => s

end Sys2Proof.Machine
end

