-- ==== Sys2Proof/Machine/Streams.lean ====
section
/-!
DEFINITION. Stream ports and the sequencer's stream instructions (R202 to R221): `lpat`, `spat`, `cbld`, `sbind`, `sgo`,
`acpy`, the start and the completion of an engine job, and the turns of a port's two sides.
-/

namespace Sys2Proof.Machine

/-! ### lpat, spat and cbld (R217) -/

/-- The 32-byte access of R217: an event of the sequencer. -/
def State.wideReach (s : State) (q : Nat) (va : Word) (use : Use) : Reach := s.reach q (reqLoad q) va 32 use

/-- A pattern or codebook register whose value has not returned. -/
def Seq.regBusy (v : Seq) (g : Bool) (n : Nat) : Bool := if g then bitAt v.outG n else bitAt v.outC n

/-- `lpat` (R217): gD from 32 bytes; it is outstanding until the value returns. -/
def execLpat (g : GReg) (a : SReg) (i : BitVec 14) (s : State) : Res :=
  issueAs s .user false fun q =>
    let v := s.seq q
    if !v.ready a || v.regBusy true g.toNat || 8 ≤ s.loadsHeld q then stall s
    else withPlane s q fun k =>
      let va := v.read a + sext14 i
      match s.wideReach q va .read with
      | .out t => .next t
      | .void => .next ((s.setPlane k { s.plane k with g := vput (s.plane k).g g.toNat 0 }).advance q 4)
      | .to p =>
        let e := { s.seqEvent q va 32 p .read with dest := .greg k g }
        .next (((s.setSeq q { v with outG := setBit v.outG g.toNat true }).place q e).advance q 4)

/-- `spat` (R217). -/
def execSpat (g : GReg) (a : SReg) (i : BitVec 14) (s : State) : Res :=
  issueAs s .user false fun q =>
    let v := s.seq q
    if !v.ready a || v.regBusy true g.toNat || 16 ≤ s.storesHeld q then stall s
    else withPlane s q fun k =>
      let va := v.read a + sext14 i
      match s.wideReach q va .write with
      | .out t => .next t
      | .void => .next (s.advance q 4)
      | .to p =>
        let e := (s.seqEvent q va 32 p .write).withBytes (leBytes 32 (vget (s.plane k).g g.toNat 0).toNat)
        .next ((s.place q e).afterStore q 4 s.nextId (s.seqHit q va 32))

/-- `cbld` (R217): cD from 32 bytes. -/
def execCbld (n : CReg) (a : SReg) (i : BitVec 14) (s : State) : Res :=
  issueAs s .user false fun q =>
    let v := s.seq q
    if !v.ready a || v.regBusy false n.toNat || 8 ≤ s.loadsHeld q then stall s
    else withPlane s q fun k =>
      let va := v.read a + sext14 i
      match s.wideReach q va .read with
      | .out t => .next t
      | .void => .next ((s.setPlane k { s.plane k with c := vput (s.plane k).c n.toNat 0 }).advance q 4)
      | .to p =>
        let e := { s.seqEvent q va 32 p .read with dest := .creg k n }
        .next (((s.setSeq q { v with outC := setBit v.outC n.toNat true }).place q e).advance q 4)

/-! ### sbind and sgo (R218, R219) -/

/-- The second side that a pattern's binding takes: its port and whether it is a write side. -/
def Pat.second (p : Pat) (port : Nat) : Option (Nat × Bool) :=
  if p.isGather then some (port, true)
  else if p.isScatter || p.xform = 3 then some (port + 1, true)
  else if p.xform = 2 then some (port + 1, false)
  else none

/-- Side `wr` of port `p` is held by the binding of side `w` of port `o`: a gather holds the write side of its own
port, the others the matching side of the next port. -/
def holds (o : Nat) (w : Bool) (p : Nat) (wr : Bool) : Bool := (o = p && !w && wr) || (o + 1 = p && w = wr)

/-- The side released by the binding that held it. -/
def State.release (s : State) (r o : Nat) (w : Bool) : State :=
  let free (s : State) (p : Nat) (wr : Bool) : State :=
    let v := s.side r p wr
    if v.heldBy == some o && holds o w p wr then s.setSide r p wr { v with heldBy := none, job := none } else s
  free (if o < 7 then free s (o + 1) w else s) o true

/-- `sbind` (R218). -/
def execSbind (p : QReg) (g : GReg) (wr : Bool) (s : State) : Res :=
  issueAs s .user false fun q =>
    let v := s.seq q
    if v.regBusy true g.toNat then stall s
    else withPlane s q fun k =>
      let pat := vget (s.plane k).g g.toNat 0
      let f := Pat.of pat
      let d := p.toNat
      let own := s.side q d wr
      let snd := f.second d
      let bad : Res := .next (s.raise q .patbad 0)
      if !f.ok (if wr then .wr else .rd) then bad
      else if !f.isGather && snd.isSome && d % 2 = 1 then bad
      else if own.heldBy.isSome then bad
      else
        let other : Side := match snd with | some (p2, w2) => s.side q p2 w2 | none => Side.empty
        let foreign := match snd with
          | some (p2, w2) => other.bind.isSome || (other.heldBy.isSome && !(other.heldBy == some d && holds d wr p2 w2))
          | none => false
        if foreign then bad
        else if own.job.isSome || other.job.isSome then stall s
        else
          let s := s.release q d wr
          let s := s.setSide q d wr { s.side q d wr with bind := some pat, plane := k % 4 }
          let s := match snd with
            | some (p2, w2) => s.setSide q p2 w2 { s.side q p2 w2 with heldBy := some d, plane := k % 4 }
            | none => s
          .next (s.advance q 4)

/-- A side at the start of a job: its address generator at the pattern's first element (R206). -/
def Side.begin_ (v : Side) (serial : Nat) : Side :=
  { v with
    bind := none, job := some serial, pos := 0, epos := 0, scale := 0x7F, block := none, discard := false, long := false
    eorDue := false, eotDue := false, fltDue := none, fly := [], vals := [], run := [], runScale := 0x7F, runEnd := false
    closed := false, last := none }

/-- The sides of a stream job begin with it. -/
def State.beginSides (s : State) (r p : Nat) (wr : Bool) (pat : BitVec 256) (serial : Nat) : State :=
  let s := s.setSide r p wr ((s.side r p wr).begin_ serial)
  match (Pat.of pat).second p with
  | some (p2, w2) => s.setSide r p2 w2 ((s.side r p2 w2).begin_ serial)
  | none => s

/-- `sgo` (R219). -/
def execSgo (d : SReg) (p : QReg) (wr : Bool) (sc : Scope) (s : State) : Res :=
  issueAs s .user false fun q =>
    let v := s.seq q
    if !v.ready d then stall s
    else withPlane s q fun k =>
      match (s.side q p.toNat wr).bind with
      | none => .next (s.raise q .patbad 0)
      | some pat =>
        match (s.region q).freeEntry with
        | none => stall s
        | some e =>
          let ctx := s.ctxNo q
          let j := Job.fresh (.sgo p.toNat wr pat) ((Pat.of pat).card wr) q (tokenReg v d) sc ctx (k % 4) (s.envOf ctx)
          let s := s.enterJob q e j v.ip
          let s := s.beginSides q p.toNat wr pat (s.region q).serial
          .next (s.advance q 4)

/-- The checks of `acpy` (R220); false is PATBAD. -/
def acpyOk (src dst : Pat) : Bool :=
  src.ok .source && dst.ok .dest &&
    (if src.xform = 0 then src.isCb4 == dst.isCb4 && src.size = dst.size
     else if src.converts then src.ty == dst.ty
     else true)

/-- `acpy` (R220). -/
def execAcpy (d : SReg) (ga gb : GReg) (c : SReg) (sc : Scope) (s : State) : Res :=
  issueAs s .user false fun q =>
    let v := s.seq q
    if !v.allReady [d, c] || v.regBusy true ga.toNat || v.regBusy true gb.toNat then stall s
    else withPlane s q fun k =>
      let dst := vget (s.plane k).g ga.toNat 0
      let src := vget (s.plane k).g gb.toNat 0
      if !acpyOk (Pat.of src) (Pat.of dst) then .next (s.raise q .patbad 0)
      else
        match (s.region q).freeEntry with
        | none => stall s
        | some e =>
          let ctx := s.ctxNo q
          let bar := if c = 0 then none else some (v.read c).toNat
          let j := Job.fresh (.acpy dst src bar) ((Pat.of src).card false ++ (Pat.of dst).card true) q (tokenReg v d) sc ctx
            (k % 4) (s.envOf ctx)
          .next ((s.enterJob q e j v.ip).advance q 8)

/-! ### Start and completion of a job (R213, R219, R241) -/

/-- ENGINE_JOB_START (R213): the jobs that it depends on have completed. -/
def execEngineJobStart (region job : Nat) (s : State) : Res :=
  let g := s.region region
  match Tab.find? g.jobs job with
  | none => stall s
  | some j =>
    if j.started || g.jobs.any fun x => j.deps.contains x.2.serial then stall s
    else .next ((s.setJob region job { j with started := true }).copyOn region job)

/-- The data of a stream job have all been moved: its sides have taken or delivered EOT. -/
def State.sideDone (s : State) (r : Nat) (j : Job) : Bool :=
  match j.kind with
  | .sgo p wr pat =>
    let v := s.side r p wr
    v.closed && v.run.isEmpty && (match (Pat.of pat).second p with
      | some (p2, w2) => (s.side r p2 w2).closed
      | none => true)
  | .acpy _ _ bar => j.fault.isSome || (j.outcome.isSome && j.run.isEmpty && (bar.isNone || j.arrived))
  | .bwld .. => j.fault.isSome || j.outcome.isSome
  | .bchn _ => j.outcome.isSome || j.fault.isSome

/-- Every event of the job has been performed, and every write is in V(I_σ) (R241). -/
def State.jobReleased (s : State) (r e : Nat) (sc : Scope) : Bool :=
  let g := s.agent (jobAgent r e)
  g.q.isEmpty && g.buf.isEmpty && g.rmws.isEmpty && g.rets.isEmpty &&
    !(s.mem.recent.any fun w => w.org = jobAgent r e && w.level < max 1 sc.level)

/-- The final token value (Table 8-9). -/
def Job.result (j : Job) : Word :=
  match j.fault with
  | some (c, _) => 0x100 + c.code.setWidth 64
  | none => j.outcome.getD 1

/-- The token of a job takes its final value, and `bar.jobs` sees how it ended (R211, R331, R347). -/
def State.writeToken (s : State) (j : Job) : State :=
  let v := s.seq j.seq
  let v := { v with jobs := v.jobs.map fun x => if x.serial = j.serial then { x with result := some j.result } else x }
  match j.token with
  | some (p, d) => s.setSeq j.seq ((v.writeBank p d j.result).setArmed p d false)
  | none => s.setSeq j.seq v

/-- Flags of a job's conversions reach FPC (R81). -/
def State.raiseFlags (s : State) (ctx : Nat) (fl : FFlags) : State :=
  match s.ctx? ctx with
  | some c => s.setCtx ctx { c with fpc := fpcRaise c.fpc fl }
  | none => s

/-- A weight load has completed: its columns hold weights (R450). -/
def State.weightsLoaded (s : State) (r : Nat) (j : Job) : State :=
  match j.kind with
  | .bwld _ n arr col .. =>
    if j.fault.isSome && j.kindSeen.isNone || n = 0 then s
    else (ArrSel.list arr).foldl (fun s a => s.setColumn r a col { s.column r a col with loaded := true }) s
  | _ => s

/-- The second side that a job's next pattern takes is free, or its own: bound or held by no other binding (R218, R221,
log 129). -/
def State.nextFree (s : State) (r : Nat) (j : Job) : Bool :=
  match j.kind with
  | .sgo p wr _ =>
    (match (s.side r p wr).next.bind fun pat => (Pat.of pat).second p with
      | some (p2, w2) =>
        let v := s.side r p2 w2
        v.heldBy == some p || (v.bind.isNone && v.heldBy.isNone && v.job.isNone)
      | none => true)
  | _ => true

/-- The sides of a stream job are unbound; a pattern from a CFG token becomes the next job, with the token register and
scope of this one and a new entry (R219, R221). -/
def State.endSides (s : State) (r : Nat) (j : Job) : State :=
  match j.kind with
  | .sgo p wr _ =>
    let v := s.side r p wr
    let s := s.setSide r p wr { v with job := none, bind := none, next := none }
    let s := s.release r p wr
    match v.next, (s.region r).freeEntry with
    | some pat, some e =>
      let s := match (Pat.of pat).second p with
        | some (p2, w2) => s.setSide r p2 w2 { s.side r p2 w2 with heldBy := some p, plane := j.plane }
        | none => s
      let n := Job.fresh (.sgo p wr pat) ((Pat.of pat).card wr) j.seq j.token j.scope j.ctx j.plane (s.envOf j.ctx)
      let s := s.enterJob r e n 0
      let ip : BitVec 12 := bits j.card 4 12
      let s := match Tab.find? (s.region r).jobs e with
        | some x => s.setJob r e { x with card := ip ++ BitVec.ofNat 4 e }
        | none => s
      s.beginSides r p wr pat (s.region r).serial
    | _, _ => s
  | .bchn arr =>
    let free (s : State) (a : Nat) : State :=
      let g := s.region r
      let b := vget g.arrays a BArray.empty
      s.setRegion r { g with arrays := vput g.arrays a { b with
          bind := none, inq := [], outq := [], eotIn := false, eotOut := false, groupIn := 0, groupOut := 0, turnIn := 0
          turnOut := 0, faulted := false, flags := 0, drained := false } }
    (ArrSel.list arr).foldl free s
  | _ => s

/-- A job leaves the scoreboard. -/
def State.endJob (s : State) (r e : Nat) (j : Job) : State :=
  let s := s.raiseFlags j.ctx j.flags
  let s := s.weightsLoaded r j
  let s := s.writeToken j
  let g := s.region r
  let s := s.setRegion r { g with jobs := Tab.drop g.jobs e }
  let s := s.retire (jobAgent r e)
  s.endSides r j

/-- ENGINE_JOB_COMPLETE (R241): a release at the job's scope; the token takes its final value. -/
def execEngineJobComplete (region job : Nat) (s : State) : Res :=
  match Tab.find? (s.region region).jobs job with
  | none => stall s
  | some j =>
    if !j.started || !s.sideDone region j || !s.jobReleased region job j.scope then stall s
    else
      match j.kind with
      | .bchn _ => stall s
      | .sgo .. => if (s.plane (planeKey region j.plane)).atRest || !s.nextFree region j then stall s else .next (s.endJob region job j)
      | _ => .next (s.endJob region job j)

/-! ### Read sides (R204, R206 to R209, R214) -/

/-- A token delivered at a read side. -/
def State.deliver (s : State) (r p : Nat) (t : Token) : State :=
  let v := s.side r p false
  s.setSide r p false { v with toks := v.toks ++ [t] }

/-- Room for one more token at a side (R202). -/
def Side.room (v : Side) : Bool := v.toks.length < 16

/-- A data token of some values from lane 0 on. -/
def packToken (xs : List Lane) : Token :=
  { Token.empty with payload := lanes fun i => (xs[i]?).getD 0, valid := validBits fun i => decide (i < xs.length) }

/-- The FAULT token of an engine: cause in lane 0, card id in lane 1 (R214). -/
def faultMark (c : Cause) (card : BitVec 16) : Token :=
  { Token.empty with
    marker := Mk.fault, payload := lanes fun i => if i = 0 then c.code.setWidth 32 else if i = 1 then card.setWidth 32 else 0 }

/-- The run that holds element e. -/
def runOf (fly : List Flight) (e : Nat) : Option Flight := fly.find? fun c => c.id ≤ e && e < c.id + c.lane

/-- Runs that still hold an element from e on. -/
def runsFrom (fly : List Flight) (e : Nat) : List Flight := fly.filter fun c => e < c.id + c.lane

/-- Elements of the next token: to the row's end, 16, or the block's end for narrow types (R204). -/
def Pat.tokenLen (p : Pat) (e : Nat) : Nat :=
  let n := min 16 (p.cnt0 - e % p.cnt0)
  if p.ty == .e4m3 || p.ty == .e5m2 || p.isCb4 then p.more (blockOf (p.addr e)) n e else n

/-- Elements of the next token that stand before a faulted run, and whether all of them have returned. -/
def returned (p : Pat) (fly : List Flight) (e : Nat) : Nat → List (Option Nat)
  | 0 => []
  | n + 1 =>
    match runOf fly e with
    | some c =>
      (match c.fault, c.got with
        | some _, _ => []
        | none, some (bs, _) => some (p.value c.id c.lane bs e) :: returned p fly (e + 1) n
        | none, none => none :: returned p fly (e + 1) n)
    | none => none :: returned p fly (e + 1) n

/-- An element is zero (R208). The rule names floating types and integers only: of the types that are neither, the model
takes code 0 as zero, CB4 entry 0 and E8M0 code 0 among them (DESIGN CHOICE, log 121). -/
def isZeroElem (ty : ElemTy) (x : Nat) : Bool :=
  match ty with
  | .f32 => x % 2 ^ 31 = 0
  | .bf16 | .f16 => x % 2 ^ 15 = 0
  | .e4m3 | .e5m2 => x % 2 ^ 7 = 0
  | _ => x = 0

/-- A stream job's port, pattern and entry, when it runs on a side. -/
def State.sideJob (s : State) (r p : Nat) (wr : Bool) : Option (Nat × Job × Nat × Bool × BitVec 256) :=
  (s.side r p wr).job.bind fun n =>
    ((s.region r).jobOf n).bind fun (e, j) =>
      match j.kind with
      | .sgo p' w pat =>
        if j.started && !(s.plane (planeKey r j.plane)).atRest then some (e, j, p', w, pat) else none
      | _ => none

/-- The next token of an affine read without transform, when its elements have returned. A narrow pattern that comes back
to a block it has left emits that block's SCALE again: R206 has one before the first element taken from each block, and
does not say whether a second visit counts (DESIGN CHOICE, log 120). -/
def plainEmit (s : State) (r e : Nat) (j : Job) (q : Nat) (p : Pat) : Option State :=
  let v := s.side r q false
  let n := p.tokenLen v.epos
  let xs := returned p v.fly v.epos n
  match runOf v.fly v.epos with
  | none => none
  | some c =>
    match c.fault with
    | some x => some ((s.jobFault r e j x.cause x.addr.toNat).setSide r q false { v with fltDue := some x.cause })
    | none =>
      if xs.any (·.isNone) then none
      else
        let narrow := p.ty == .e4m3 || p.ty == .e5m2 || p.isCb4
        let blk := blockOf (p.addr v.epos)
        if narrow && v.block != some blk.toNat then
          let tag : BitVec 16 := match c.got with | some (_, t) => t | none => 0
          some ((s.setSide r q false { v with block := some blk.toNat }).deliver r q (scaleToken (bits tag 8 8).toNat))
        else
          let last := v.epos + xs.length
          let v := { v with epos := last, fly := runsFrom v.fly last, eorDue := p.rowEnd (last - 1) }
          some ((s.setSide r q false v).deliver r q (packToken (xs.map fun x => containerOf p.ty (x.getD 0))))

/-- The next token of a TAGCVT read (R209): `block` counts the tokens of the block that have left. -/
def taggedEmit (s : State) (r e : Nat) (j : Job) (q : Nat) (p : Pat) : Option State :=
  let v := s.side r q false
  match runOf v.fly v.epos with
  | none => none
  | some c =>
    match c.fault, c.got with
    | some x, _ => some ((s.jobFault r e j x.cause x.addr.toNat).setSide r q false { v with fltDue := some x.cause })
    | none, none => none
    | none, some (bs, tag) =>
      if !bs.isEmpty && !tagAccepted tag then
        some ((s.jobFault r e j .tagfmt (p.addr v.epos).toNat).setSide r q false { v with fltDue := some .tagfmt })
      else
        let sub := v.block.getD 0
        let cb := s.tagCodebook (j.planeKey r) tag
        let total := if bs.isEmpty then 1 else blockElems tag / 16
        let x (i : Nat) : Lane × FFlags :=
          if bs.isEmpty then (0, 0) else widenElem j.env cb p.ty bs tag (16 * sub + i)
        let fl := orFlags fun i => (x i).2
        let last := decide (sub + 1 = total)
        let v := { v with
          block := if last then none else some (sub + 1)
          epos := if last then v.epos + 1 else v.epos
          fly := if last then runsFrom v.fly (v.epos + 1) else v.fly
          eorDue := last && p.rowEnd v.epos }
        let s := s.setJob r e { j with flags := j.flags ||| fl }
        some ((s.setSide r q false v).deliver r q (packToken ((List.range 16).map fun i => (x i).1)))

/-- SPARSIFY (R208): one element scanned, or the gathered records delivered at the port pair. -/
def sparseEmit (s : State) (r e : Nat) (j : Job) (q : Nat) (p : Pat) : Option State :=
  let v := s.side r q false
  let c := runOf v.fly v.epos
  let faulted := c.any fun c => c.fault.isSome
  if v.vals.length = 16 || (!v.vals.isEmpty && (v.runEnd || faulted)) then
    let s := s.setSide r q false { v with vals := [] }
    let s := s.deliver r q (packToken (v.vals.map fun x => x.2))
    some (s.deliver r (q + 1) (packToken (v.vals.map fun x => BitVec.ofNat 32 x.1)))
  else if v.runEnd then some (s.setSide r q false { v with runEnd := false, eorDue := true })
  else
    match c with
    | none => none
    | some c =>
      match c.fault, c.got with
      | some x, _ => some ((s.jobFault r e j x.cause x.addr.toNat).setSide r q false { v with fltDue := some x.cause })
      | none, none => none
      | none, some (bs, _) =>
        let x := p.value c.id c.lane bs v.epos
        let vals := if isZeroElem p.ty x then v.vals else v.vals ++ [(v.epos, containerOf p.ty x)]
        some (s.setSide r q false
          { v with vals, runEnd := p.rowEnd v.epos, fly := runsFrom v.fly (v.epos + 1), epos := v.epos + 1 })

/-- The oldest token of a gather that has returned (R207); a faulted flight ends the delivery (R214). -/
def gatherEmit (s : State) (r e : Nat) (j : Job) (q : Nat) : Option State :=
  let v := s.side r q false
  match v.fly with
  | [] => none
  | c :: rest =>
    if c.waiting != 0 || (c.lane < 16 && c.fault.isNone) then none
    else
      let s := s.setSide r q false { v with fly := rest, closed := v.closed || c.tok.marker = Mk.eot }
      let s := if c.fault.isSome && c.tok.valid = 0 then s else s.deliver r q c.tok
      match c.fault with
      | some x =>
        some ((s.jobFault r e j x.cause x.addr.toNat).setSide r q false
          { s.side r q false with fltDue := some x.cause, fly := [] })
      | none => some s

/-- Every TAGCVT block read so far has come with a tag that R193 accepts, so that the next one may be read: a bad tag is a
fault, and no later event follows it (R209, R214). -/
def tagsKnown (fly : List Flight) : Bool :=
  fly.all fun c => match c.got with | some (bs, tag) => bs.isEmpty || tagAccepted tag | none => false

/-- A read side fetches its next run: up to sixteen in flight, none past a fault or a parked access (R214, R470). -/
def fetchNext (s : State) (r e : Nat) (j : Job) (q : Nat) (p : Pat) : Option State :=
  let v := s.side r q false
  if v.pos < p.count && v.fly.length < 16 && !s.jobParked r e && !(v.fly.any fun c => c.fault.isSome) &&
      (!p.converts || tagsKnown v.fly) then
    let tagged := p.converts || p.ty == .e4m3 || p.ty == .e5m2 || p.isCb4
    let (s, c) := readRun s r e j (reqAg r q) p .read tagged v.pos
    some (s.setSide r q false { v with pos := v.pos + c.lane, fly := v.fly ++ [c] })
  else none

/-- READ_SIDE_EMIT: a read side delivers its next token or marker, or fetches its next run. -/
def execReadSideEmit (region port : Nat) (s : State) : Res :=
  match s.sideJob region port false with
  | none => stall s
  | some (e, j, q, _, pat) =>
    let p := Pat.of pat
    let v := s.side region port false
    let pair := p.xform = 2
    let both (s : State) (t : Token) : State :=
      let s := s.deliver region q t
      if pair then s.deliver region (q + 1) t else s
    let room := v.room && (!pair || (s.side region (q + 1) false).room)
    let counts (s : State) : Option State :=
      if room then (s.letIn region port).bind fun s => if pair then s.letIn region (q + 1) else some s else none
    let counted : Option State := counts s
    let orElse (a b : Option State) : Res := match a, b with | some t, _ => .next t | none, some t => .next t | _, _ => stall s
    if q != port || v.closed then stall s
    else
      match v.fltDue with
      | some c =>
        (match counted with
          | some s => .next (both (s.setSide region q false { v with fltDue := none, eotDue := true }) (faultMark c j.card))
          | none => stall s)
      | none =>
        if v.eorDue then
          (match counted with
            | some s => .next (both (s.setSide region q false { v with eorDue := false }) (Token.mark Mk.eor))
            | none => stall s)
        else if v.eotDue || (!p.isGather && p.count ≤ v.epos && v.vals.isEmpty && !v.runEnd) then
          (match counted with
            | some s =>
              let s := s.setSide region q false { v with eotDue := false, closed := true }
              let s := if pair then s.setSide region (q + 1) false { s.side region (q + 1) false with closed := true } else s
              .next (both s (Token.mark Mk.eot))
            | none => stall s)
        else
          let step : Option State :=
            if p.isGather then gatherEmit s region e j q
            else if p.converts then taggedEmit s region e j q p
            else if pair then sparseEmit s region e j q p
            else plainEmit s region e j q p
          -- only a token that is delivered needs room and counts at the limiter (R202, R269)
          let emit := step.bind fun t => if (t.side region q false).toks.length = v.toks.length then some t else counts t
          orElse emit (if p.isGather then none else fetchNext s region e j q p)

/-! ### Write sides (R206 to R208, R214, R221, R247) -/

/-- A write side's job ends at EOT with an outcome. -/
def State.closeWrite (s : State) (r e p : Nat) (out : Word) : State :=
  let v := s.side r p true
  let s := s.setSide r p true { v with closed := true }
  match Tab.find? (s.region r).jobs e with
  | some j => s.setJob r e { j with outcome := some out }
  | none => s

/-- A write side faults: it performs no further event and discards its input up to EOT (R214). -/
def State.writeFault (s : State) (r e : Nat) (j : Job) (p : Nat) (c : Cause) (addr : Nat) : State :=
  let v := s.side r p true
  (s.jobFault r e j c addr).setSide r p true { v with discard := true, vals := [], run := [], runEnd := false }

/-- The gathered run is written (R470). -/
def State.flushSide (s : State) (r e : Nat) (j : Job) (q : Nat) (p : Pat) : State :=
  let v := s.side r q true
  let (s, bad) := writeRun s r e j (reqAg r q) v.run (p.tagFor v.run v.runScale)
  let s := s.setSide r q true { v with run := [], runEnd := false }
  match bad with
  | none => s
  | some (c, a) => s.writeFault r e j q c a

/-- One element written at the side's position. -/
def Side.putElem (v : Side) (p : Pat) (x : Lane) : Side :=
  { v with
    run := p.addTo v.run v.pos x.toNat, runScale := if v.run.isEmpty then v.scale else v.runScale
    runEnd := p.rowEnd v.pos, pos := v.pos + 1 }

/-- A token taken from a write side. -/
def State.popWrite (s : State) (r p : Nat) : State :=
  let v := s.side r p true
  s.setSide r p true { v with toks := v.toks.drop 1 }

/-- Records of a token in ascending lane order, each with a number. -/
def recordsOf (t : Token) (g : Nat → Nat) : List (Nat × Lane) :=
  ((List.range 16).filter fun i => t.has i).map fun i => (g i, t.at i)

/-- The pattern in lanes 0 to 7 of a CFG token (R221). -/
def cfgPattern (t : Token) : BitVec 256 :=
  t.at 7 ++ t.at 6 ++ t.at 5 ++ t.at 4 ++ t.at 3 ++ t.at 2 ++ t.at 1 ++ t.at 0

/-- A CFG token whose pattern fails R205, which ends the side's job (R221); so does one that would take the side of a next
port from an odd one, which R218 refuses (log 129). -/
def cfgRefused (q : Nat) (f : Pat) (t : Token) : Bool :=
  let pat := Pat.of (cfgPattern t)
  let odd : Bool := q % 2 = 1 && (match pat.second q with | some (p2, _) => p2 != q | none => false)
  t.marker = Mk.cfg && (!pat.ok (if f.isGather then .rd else .wr) || odd)

/-- A marker that the elements taken before it must precede into memory: FENCE, and a CFG that ends the job (R214, R247). -/
def afterRun (q : Nat) (f : Pat) (t : Token) : Bool := t.marker = Mk.fence || cfgRefused q f t

/-- Markers of a write side other than EOT: EOR is consumed, SCALE kept, TRIG reaches the trigger slots, CFG binds the
next job, FENCE is a fence event of the job (R206, R221, R247). A reserved code is never accepted (R56). -/
def State.sideMark (s : State) (r e : Nat) (j : Job) (q p : Nat) (f : Pat) (t : Token) : Option State :=
  if 10 ≤ t.marker.toNat then none
  else
    let s := s.popWrite r p
    if t.marker = Mk.scale then some (s.setSide r p true { s.side r p true with scale := bits (t.at 0) 0 8 })
    else if t.marker = Mk.trig then some (s.firePort j.ctx r p)
    else if t.marker = Mk.cfg then
      if cfgRefused q f t then some (s.writeFault r e j q .patbad 0)
      else some (s.setSide r q (!f.isGather) { s.side r q (!f.isGather) with next := some (cfgPattern t) })
    else if t.marker = Mk.fence then
      let x := t.at 0
      let sc := (scopeOfCode (bits x 2 3)).getD .blk
      let ev (k : FenceKind) : Ev := { Ev.blank with kind := .fence k, scope := sc, ctx := j.ctx }
      let put (s : State) (k : FenceKind) : State := s.place (jobAgent r e) (ev k)
      some (match FenceKind.ofCode (bits x 0 2) with
        | .ar => put (put s .acq) .rel
        | k => put s k)
    else some s

/-- A side that discards takes its input up to and including EOT (R214). -/
def State.discardToken (s : State) (r e p : Nat) : Option State :=
  match (s.side r p true).toks with
  | [] => none
  | t :: _ =>
    (s.letIn r p).map fun s =>
      let s := s.popWrite r p
      if t.marker = Mk.eot then s.closeWrite r e p 1 else s

/-- The turn of a plain write side: an element, a run, or a token. -/
def plainTake (s : State) (r e : Nat) (j : Job) (q : Nat) (p : Pat) : Option State :=
  let v := s.side r q true
  let full := decide (p.count ≤ v.pos)
  let mustFlush := !v.run.isEmpty && (v.runEnd || full || p.breaks v.run v.pos || v.closed)
  if mustFlush then if s.jobParked r e then none else some (s.flushSide r e j q p)
  else
    match v.vals with
    | (_, x) :: rest =>
      if full then some (s.setSide r q true { v with vals := [], long := true })
      else some (s.setSide r q true ({ v with vals := rest }.putElem p x))
    | [] =>
      if v.closed then none
      else
        match v.toks with
        | [] => none
        | t :: _ =>
          if (t.marker = Mk.eot || afterRun q p t) && !v.run.isEmpty then
            if s.jobParked r e then none else some (s.flushSide r e j q p)
          else (s.letIn r q).bind fun s =>
            if t.marker = Mk.data then
              let s := s.popWrite r q
              some (s.setSide r q true { s.side r q true with vals := recordsOf t fun i => i })
            else if t.marker = Mk.eot then
              some ((s.popWrite r q).closeWrite r e q (if v.long then 2 else if v.pos < p.count then 3 else 1))
            else s.sideMark r e j q q p t

/-- A second write side closes with its job's. -/
def State.closeSecond (s : State) (r p : Nat) : State :=
  s.setSide r p true { s.side r p true with closed := true }

/-- What two paired write sides hold at their heads (R93, R207, R208). -/
inductive PairTake where
  | wait
  | mark (second : Bool) (t : Token)
  | both (x y : Token)
  | bad
  deriving DecidableEq, Repr

def pairHeads (x y : Option Token) : PairTake :=
  let other (t : Token) : Bool := t.marker != Mk.data && !isPositional t.marker
  match x, y with
  | some t, some u =>
    if other t then .mark false t
    else if other u then .mark true u
    else if t.marker = u.marker then .both t u
    else .bad
  | some t, none => if other t then .mark false t else .wait
  | none, some u => if other u then .mark true u else .wait
  | none, none => .wait

/-- A pair of write sides takes its next tokens: `data` says what two data tokens leave to be written, and `flush` writes
the elements that a marker or a fault must follow. -/
def pairTake (s : State) (r e : Nat) (j : Job) (q : Nat) (p : Pat) (flush : Option State)
    (data : Token → Token → List (Nat × Lane)) (eot : State → State) : Option State :=
  let v := s.side r q true
  let w := s.side r (q + 1) true
  match pairHeads v.toks.head? w.toks.head? with
  | .wait => none
  | .bad => if v.run.isEmpty then some (s.writeFault r e j q .mkalign 0) else flush
  | .mark second t =>
    let own := if second then q + 1 else q
    if !v.run.isEmpty && afterRun q p t then flush else (s.letIn r own).bind fun s => s.sideMark r e j q own p t
  | .both x y =>
    (s.letIn r q).bind fun s => (s.letIn r (q + 1)).bind fun s =>
      let s := (s.popWrite r q).popWrite r (q + 1)
      some (if x.marker = Mk.data then s.setSide r q true { s.side r q true with vals := data x y }
        else if x.marker = Mk.eot then eot s
        else s)

/-- The turn of a DENSIFY pair (R208): every element is written, 0 where no index names it. `eotDue` says that EOT has
been taken. -/
def densifyTake (s : State) (r e : Nat) (j : Job) (q : Nat) (p : Pat) : Option State :=
  let v := s.side r q true
  let full := decide (p.count ≤ v.pos)
  let zero : Option State := some (s.setSide r q true (v.putElem p 0))
  let flush : Option State := if s.jobParked r e then none else some (s.flushSide r e j q p)
  if !v.run.isEmpty && (v.runEnd || full || p.breaks v.run v.pos) then flush
  else
    match v.vals with
    | (i, x) :: rest =>
      if p.count ≤ i || (match v.last with | some l => decide (i ≤ l) | none => false) then
        if v.run.isEmpty then some (s.writeFault r e j q .sporder 0) else flush
      else if v.pos < i then zero
      else some (s.setSide r q true { { v with vals := rest }.putElem p x with last := some i })
    | [] =>
      if v.closed then none
      else if v.eotDue then if full then some ((s.closeWrite r e q 1).closeSecond r (q + 1)) else zero
      else
        pairTake s r e j q p flush
          (fun x y => ((List.range 16).filter fun k => x.has k && y.has k).map fun k => ((y.at k).toNat, x.at k))
          (fun s => s.setSide r q true { s.side r q true with eotDue := true })

/-- The turn of a scatter pair (R207): one event for each element. -/
def scatterTake (s : State) (r e : Nat) (j : Job) (q : Nat) (p : Pat) : Option State :=
  let v := s.side r q true
  match v.vals with
  | (c, x) :: rest =>
    if s.jobParked r e then none
    else if p.cnt0 ≤ c then some (s.writeFault r e j q .idxrng 0)
    else
      let (s, bad) := writeRun s r e j (reqAg r q) (p.addTo [] c x.toNat) none
      match bad with
      | none => some (s.setSide r q true { v with vals := rest })
      | some (c, a) => some (s.writeFault r e j q c a)
  | [] =>
    if v.closed then none
    else
      pairTake s r e j q p none
        (fun x y => ((List.range 16).filter fun k => x.has k && y.has k).map fun k => ((x.at k).toNat, y.at k))
        (fun s => (s.closeWrite r e q 1).closeSecond r (q + 1))

/-- One lane of a gather's newest token: its read event (R207, R470). -/
def gatherLane (s : State) (r e : Nat) (j : Job) (q : Nat) (p : Pat) (fly : List Flight) (c : Flight) : State :=
  let i := c.lane
  let put (s : State) (c : Flight) : State := s.setSide r q false { s.side r q false with fly := fly ++ [c] }
  let next := { c with lane := i + 1 }
  let took := { next with tok := { c.tok with valid := setBit c.tok.valid i true } }
  if !c.src.has i then put s next
  else
    let k := (c.src.at i).toNat
    let bad (s : State) (x : Cause) (a : Nat) : State := put s { c with fault := some (runFault x a) }
    if p.cnt0 ≤ k then bad s .idxrng 0
    else
      let keys := p.bytesOf k
      let a := (p.addr k).toNat
      if !inSpace keys then bad s .varange a
      else
        let cells := keys.map fun x => (x.toNat, (0 : Byte), (0xFF : Byte))
        let waits := { took with waiting := setBit c.waiting i true }
        match s.jobLand r e j (reqAg r q) cells .read { Ev.blank with kind := .read, dest := .job r e (16 * c.id + i) } with
        | .placed s _ => put s waits
        | .parked s => put s waits
        | .void => put s took
        | .fault s x => bad s x a

/-- The turn of a gather's coordinate side (R207, R214): up to 64 tokens in flight. -/
def gatherTake (s : State) (r e : Nat) (j : Job) (q : Nat) (p : Pat) : Option State :=
  let v := s.side r q false
  let w := s.side r q true
  let faulted := j.fault.isSome || v.fly.any fun c => c.fault.isSome
  if w.closed then none
  else if faulted || w.discard then
    match w.toks with
    | [] => none
    | t :: _ => (s.letIn r q).map fun s => let s := s.popWrite r q; if t.marker = Mk.eot then s.closeSecond r q else s
  else
    let fresh (s : State) (t : Token) (lane : Nat) (tok : Token) (fault : Option NodeFault) : State :=
      let c : Flight := { runFlight s.nextId lane false none fault with tok, src := t }
      let s := { s with nextId := s.nextId + 1 }
      s.setSide r q false { s.side r q false with fly := (s.side r q false).fly ++ [c] }
    match v.fly.getLast? with
    | some c =>
      if c.lane < 16 then if s.jobParked r e then none else some (gatherLane s r e j q p (v.fly.take (v.fly.length - 1)) c)
      else newToken s v w fresh
    | none => newToken s v w fresh
where
  newToken (s : State) (v w : Side) (fresh : State → Token → Nat → Token → Option NodeFault → State) : Option State :=
    match w.toks with
    | [] => none
    | t :: _ =>
      if 64 ≤ v.fly.length then none
      else
        (s.letIn r q).bind fun s =>
          if t.marker = Mk.data then some (fresh (s.popWrite r q) t 0 Token.empty none)
          else if cfgRefused q p t then some (fresh (s.popWrite r q) t 16 Token.empty (some (runFault .patbad 0)))
          else if isPositional t.marker then
            let s := fresh (s.popWrite r q) t 16 t none
            some (if t.marker = Mk.eot then s.closeSecond r q else s)
          else s.sideMark r e j q q p t

/-- WRITE_SIDE_TAKE: a write side takes its next token, or writes what it has taken. -/
def execWriteSideTake (region port : Nat) (s : State) : Res :=
  match s.sideJob region port true with
  | none => stall s
  | some (e, j, q, w, pat) =>
    let p := Pat.of pat
    let v := s.side region port true
    let r : Option State :=
      if !w then gatherTake s region e j q p
      else if (s.side region q true).discard then if v.closed then none else s.discardToken region e port
      else if p.xform = 3 then densifyTake s region e j q p
      else if p.isScatter then scatterTake s region e j q p
      else plainTake s region e j q p
    match r with
    | some t => .next t
    | none => stall s

end Sys2Proof.Machine
end

