-- ==== Sys2Proof/Machine/Arrays.lean ====
section
/-!
DEFINITION. Butterfly arrays: stage words and weights (R254 to R262), the columns of a chain and their markers
(R253, R263 to R267), the two ports (R276, R277) and a faulted chain (R274).
-/

namespace Sys2Proof.Machine

/-! ### Stage words (R258, R259) -/

namespace Stage
def nb (w : Word) : Nat := (bits w 40 13).toNat + 1
def run (w : Word) : Nat := (bits w 34 6).toNat + 1
def last (w : Word) : Bool := bitAt w 33
def next (w : Word) : Nat := (bits w 30 3).toNat
def acc (w : Word) : Bool := bitAt w 29
/-- the stride counts tokens -/
def unit (w : Word) : Bool := bitAt w 28
def stride (w : Word) : Nat := (bits w 16 12).toNat + 1
/-- entry code E[o][j]: 0 zero, 1 I, 2 W -/
def entry (w : Word) (o j : Nat) : Nat := (bits w (14 - 4 * o - 2 * j) 2).toNat
def tile (w : Word) : Bool := bitAt w 7
def carry (w : Word) : Fmt := if bitAt w 6 then bf16 else fp32
def rm (w : Word) : RMode := RMode.ofCode (bits w 4 2)
/-- the largest power of two not above the stride -/
def half (w : Word) : Nat := 2 ^ (stride w).log2
/-- W entries of the mask -/
def weights (w : Word) : Nat :=
  ([(0, 0), (0, 1), (1, 0), (1, 1)].filter fun (o, j) => entry w o j = 2).length
/-- weight elements of a block: E × w -/
def blockElems (w : Word) : Nat := weights w * (if tile w then 256 else 1)
/-- tokens of a stage's group of 2h positions under batch G -/
def span (w : Word) (g : Nat) : Nat := 2 * half w * g
/-- A legal stage word (R259). -/
def legal (w : Word) : Bool :=
  bits w 53 11 == 0 && bits w 0 4 == 0 && [(0, 0), (0, 1), (1, 0), (1, 1)].all (fun (o, j) => entry w o j != 3) &&
    (unit w || [1, 2, 4, 8].contains (stride w)) && (unit w || !tile w) && (tile w || !acc w)
end Stage

/-- Bits of a weight element of a format kind (R261). -/
def weightBits (kind : BitVec 4) : Nat := if kind = 2 then 16 else if kind = 4 then 8 else 4

/-- A column's blocks fit in its slice (R281). -/
def blocksFit (w : Word) (kind : BitVec 4) : Bool := Stage.nb w * Stage.blockElems w * weightBits kind ≤ 65536 * 8

/-- A column can hold a stage word: it has weights where the mask needs them, and they fit (R281). -/
def Column.accepts (c : Column) (w : Word) : Bool :=
  Stage.weights w = 0 || (c.loaded && blocksFit w c.kind)

/-- Weight element n of a column's slice, expanded with result flush, and the flags of its expansion (R79, R261, R262); as an
operand it passes source flush. -/
def State.weight (s : State) (r a col : Nat) (c : Column) (e : FpEnv) (n : Nat) : Num × FFlags :=
  let w := weightBits c.kind
  let byte := n * w / 8
  let raw := leNat ((keysFrom (weightKey r a col byte) (if w = 16 then 2 else 1)).map s.mem.coLast)
  let x := if w = 4 then raw / 16 ^ (n % 2) % 16 else raw
  let scale := (Tab.getD c.scales (byte / 64) 0x7F).toNat
  let y := e.finish bf16 .rne (kindValue e c.kind.toNat scale c.cb (BitVec.ofNat 32 x))
  (e.value bf16 y.1, y.2)

/-! ### Exact sums (R255, R256, R85) -/

/-- Terms of a sum gathered so far: the terms, and IV for a product of zero and infinity. -/
structure Terms where
  l : List Num
  fl : FFlags
  deriving DecidableEq, Repr

def Terms.add (t : Terms) (x : Num) : Terms := { t with l := t.l ++ [x] }

/-- The product of an expanded weight and an operand added (R256), with the weight's flags (R268). -/
def Terms.mul (t : Terms) (w : Num × FFlags) (x : Num) : Terms :=
  let p := productIv w.1 x
  { l := t.l ++ [p.1], fl := t.fl ||| p.2 ||| w.2 }

/-- The terms, or the +0 that a sum without terms is (R255). -/
def Terms.filled (t : Terms) : Terms := if t.l.isEmpty then t.add (Num.zero false) else t

/-- The exact sum of all terms, +0 without terms; infinities of opposite sign make NaN and set IV (R255, R256). -/
def Terms.sum (t : Terms) : ExactSum × FFlags :=
  match t.l with
  | [] => ({ v := Num.zero false, mixed := false }, t.fl)
  | [x] => ({ v := x, mixed := false }, t.fl)
  | l =>
    if l.any Num.isNan then ({ v := .nan, mixed := false }, t.fl)
    else if l.contains (.inf true) && l.contains (.inf false) then ({ v := .nan, mixed := false }, t.fl ||| Fl.iv)
    else
      let v := l.foldl (Num.add .rne) (Num.zero true)
      if v.isZero && !(l.all fun x => x.isZero && x.isNeg) then ({ v := Num.zero false, mixed := true }, t.fl)
      else ({ v, mixed := false }, t.fl)

/-- The value that a rounding mode sees. -/
def ExactSum.at (x : ExactSum) (rm : RMode) : Num := if x.mixed then .fin (rm == .rd) 0 0 else x.v

/-- A sum rounded with result flush (R257, R82). -/
def ExactSum.round (x : ExactSum) (e : FpEnv) (f : Fmt) (rm : RMode) : Lane × FFlags := e.finish f rm (x.at rm)

/-! ### Parts of an array -/

def State.arr (s : State) (r a : Nat) : BArray := vget (s.region r).arrays a BArray.empty

def State.setArr (s : State) (r a : Nat) (b : BArray) : State :=
  let g := s.region r
  s.setRegion r { g with arrays := vput g.arrays a b }

def BArray.col (b : BArray) (c : Nat) : Column := Tab.getD b.cols c Column.empty
def BArray.setCol (b : BArray) (c : Nat) (x : Column) : BArray := { b with cols := Tab.put b.cols c x }

/-- The array that holds the ports of a binding: BA0 under ba01. -/
def BaBind.port (b : BaBind) (a : Nat) : Nat := if b.both then 0 else a

/-- Flushes that a chain took at `bchn` (R81). -/
def BaBind.env (b : BaBind) : FpEnv := { rm := .rne, sfl := b.sfl, rfl := b.rfl }

/-- The buffer lines that two lists of tokens differ in (R273). -/
def changedLines (x y : List Token) : BitVec 64 :=
  (List.range 64).foldl (fun v i => if x[i]? != y[i]? then setBit v i true else v) 0

/-- The tokens of the pair buffer, in the order of their places. -/
def Column.buffer (c : Column) : List Token := c.pairs.map Prod.snd

/-- A column changed, with the dirty bits of what changed (R273). -/
def BArray.touch (b : BArray) (i : Nat) (new : Column) : BArray :=
  let old := b.col i
  let accBits := (List.range 64).foldl
    (fun v k => if vget old.acc k Token.empty.payload != vget new.acc k Token.empty.payload then setBit v k true else v)
    old.dirtyAcc
  b.setCol i { new with
    dirty := old.dirty || new.dirty || old.word != new.word || old.recv != new.recv || old.sent != new.sent ||
      old.pairs.length != new.pairs.length
    dirtyAcc := accBits
    dirtyPair := old.dirtyPair ||| changedLines old.buffer new.buffer }

/-- A column whose row group is over, or that holds nothing. -/
def Column.rest (c : Column) : Column := { c with pairs := [], spilled := [], recv := 0, sent := 0 }

/-- A column with nothing of the stream in it. -/
def Column.empties (c : Column) : Column := { c.rest with marks := [], inq := [] }

/-- A marker at the output port. -/
def OutTok.mark (t : Token) : OutTok := { tok := t, sums := lanes fun _ => { v := Num.zero false, mixed := false } }

/-- Tokens handed on by column j of a chain: to the next column, or to the output port. -/
def BArray.pass (b : BArray) (k : BaBind) (j : Nat) (ts : List Token) : BArray :=
  if j + 1 < k.n then
    let c := k.c0 + j + 1
    let x := b.col c
    b.setCol c { x with inq := x.inq ++ ts }
  else { b with outq := b.outq ++ ts.map OutTok.mark }

/-! ### A faulted chain (R274) -/

/-- The job of a binding. -/
def State.chainJob (s : State) (r : Nat) (k : BaBind) : Option (Nat × Job) := (s.region r).jobOf k.job

/-- The columns of a chain up to and with column j emptied. -/
def BArray.clearTo (b : BArray) (k : BaBind) (j : Nat) : BArray :=
  (List.range (j + 1)).foldl (fun b i => b.touch (k.c0 + i) (b.col (k.c0 + i)).empties) b

/-- A chain faults at column j: what stands ahead of it goes on to `bfout`, then FAULT and EOT follow, and the input is
discarded up to EOT; EFLT records the fault at once (R274, R389). -/
def State.chainFault (s : State) (r a j : Nat) (cause : Cause) (addr : Nat) : State :=
  let b := s.arr r a
  match b.bind with
  | none => s
  | some k =>
    match s.chainJob r k with
    | none => s
    | some (e, job) =>
      if job.fault.isSome then s
      else
        let marks := [faultMark cause job.card, Token.mark Mk.eot]
        let s := s.jobFault r e { job with fly := [] } cause addr (8 + a)
        let b := (b.clearTo k j).pass k j marks
        let s := s.setArr r a b
        let p := k.port a
        s.setArr r p { s.arr r p with faulted := true }

/-- The output port finds a group that its `bfout` cannot take (R277): the chain faults there. A chain that has faulted
before keeps its FAULT and what follows it, and loses the tokens of the group that the fault cut short (R274). -/
def State.outputFault (s : State) (r a : Nat) : State :=
  let b := s.arr r a
  match b.bind with
  | none => s
  | some k =>
    let before := match s.chainJob r k with | some (_, j) => j.fault.isSome | none => false
    let drop (s : State) (x : Nat) : State :=
      let y := s.arr r x
      s.setArr r x { y with outq := if before then y.outq.dropWhile fun t => t.tok.marker != Mk.fault else [] }
    let s := if k.both then drop (drop s 0) 1 else drop s a
    let t := if k.both then b.turnOut % 2 else a
    s.chainFault r t (k.n - 1) .bavec 0

/-! ### A column's work -/

/-- Place of the partner of place n: token t with t XOR s, in the same vector (R254). -/
def partner (w : Word) (g n : Nat) : Nat := ((n / g) ^^^ Stage.stride w) * g + n % g

/-- Place n holds the lower member of its pair. -/
def isLower (w : Word) (g n : Nat) : Bool := (n / g) / Stage.half w % 2 = 0

/-- Pair index of a pair whose lower member is q (R254). -/
def pairIndex (h q : Nat) : Nat := q / (2 * h) * h + q % h

/-- Ordinal of a W entry in its block (R261). -/
def entryOrdinal (w : Word) (o j : Nat) : Nat :=
  ([(0, 0), (0, 1), (1, 0), (1, 1)].filter fun (x, y) =>
    Stage.entry w x y = 2 && (decide (x < o) || (x = o && decide (y < j)))).length

/-- y[o] of a SCAL pair with weight block b (R255). -/
def scalSum (wt : Nat → Num × FFlags) (w : Word) (b o : Nat) (u v : Num) : Terms :=
  [0, 1].foldl
    (fun t j =>
      let x := if j = 0 then u else v
      match Stage.entry w o j with
      | 1 => t.add x
      | 2 => t.mul (wt (b * Stage.blockElems w + entryOrdinal w o j)) x
      | _ => t)
    { l := [], fl := 0 }

/-- Lane i of y[o] of a TILE pair with weight block b (R255). -/
def tileSum (wt : Nat → Num × FFlags) (w : Word) (b o i : Nat) (u v : Nat → Num) : Terms :=
  [0, 1].foldl
    (fun t j =>
      let x := if j = 0 then u else v
      match Stage.entry w o j with
      | 1 => t.add (x i)
      | 2 =>
        (List.range 16).foldl
          (fun t k => t.mul (wt (b * Stage.blockElems w + 256 * entryOrdinal w o j + 16 * i + k)) (x k)) t
      | _ => t)
    { l := [], fl := 0 }

/-- What a column makes of place n: the sixteen exact sums, IV flags, and the accumulator's new token (R255, R282). -/
structure Made where
  sums : Vector ExactSum 16
  fl : FFlags
  acc : Option (Nat × Vector Lane 16)
  cycles : Nat
  deriving DecidableEq, Repr

/-- The operands of place n as values, after source flush (R255). -/
def laneValue (e : FpEnv) (w : Word) (t : Token) (i : Nat) : Num := e.value (Stage.carry w) (t.at i)

/-- An element-unit stage: pairs within the token of place n (R254). -/
def makeElements (wt : Nat → Num × FFlags) (e : FpEnv) (w : Word) (t : Nat) (x : Token) : Made :=
  let h := Stage.half w
  let lane (i : Nat) : ExactSum × FFlags :=
    let lower := i / h % 2 = 0
    let o := if lower then 0 else 1
    let q := if lower then i else i ^^^ Stage.stride w
    let u := laneValue e w x q
    let v := laneValue e w x (q ^^^ Stage.stride w)
    (scalSum wt w (pairIndex h (16 * t + q) % Stage.nb w) o u v).sum
  { sums := lanes fun i => (lane i).1, fl := orFlags fun i => (lane i).2, acc := none, cycles := 1 }

/-- A token-unit stage at a place: lower operand U, upper V, pair index p of their tokens (R254, R255). -/
def makeTokens (wt : Nat → Num × FFlags) (e : FpEnv) (w : Word) (acc : Vector (Vector Lane 16) 64) (p : Nat)
    (lower : Bool) (u v : Token) :
    Made :=
  let o := if lower then 0 else 1
  let uv := laneValue e w u
  let vv := laneValue e w v
  let terms (i : Nat) : Terms :=
    if Stage.tile w then tileSum wt w (p % Stage.nb w) o i uv vv
    else scalSum wt w ((16 * p + i) % Stage.nb w) o (uv i) (vv i)
  let cycles := if lower then (if Stage.tile w then max 1 (Stage.weights w) else 1) else 0
  if Stage.acc w && lower then
    let old := vget acc (p % 64) Token.empty.payload
    let lane (i : Nat) : Lane × FFlags :=
      let s := ((terms i).filled.add (e.value fp32 (vget old i 0))).sum
      let r := s.1.round e fp32 (Stage.rm w)
      (r.1, r.2 ||| s.2)
    { sums := lanes fun i => { v := uv i, mixed := false }, fl := orFlags fun i => (lane i).2
      acc := some (p % 64, lanes fun i => (lane i).1), cycles }
  else { sums := lanes fun i => (terms i).sum.1, fl := orFlags fun i => (terms i).sum.2, acc := none, cycles }

/-- An operand of a column: in the buffer, or in the spill range, whence it must be read (R265). -/
inductive Operand where
  | here (t : Token)
  | wait
  | ask
  | bad (c : Cause) (addr : Nat)
  deriving DecidableEq, Repr

/-- First address of column j's spill range: BA1's ranges follow BA0's under ba01 (R265, log 19). -/
def BaBind.spillAt (k : BaBind) (a j : Nat) : Nat :=
  k.spill.getD 0 + (j + (if k.both && a = 1 then k.n else 0)) * k.z

/-- Address of a spilled place. The model's choice (log 134): the places of a group that lie from 64 on spill, each at its
number within the group times 64 bytes. -/
def spillAddr (k : BaBind) (w : Word) (a j n : Nat) : Nat := k.spillAt a j + 64 * (n % Stage.span w k.g)

/-- Identity of a spilled place among the job's runs. -/
def spillId (a c n : Nat) : Nat := a * 2 ^ 58 + c * 2 ^ 50 + n

/-- A token from the 64 bytes of its lanes. -/
def tokenOfBytes (bs : List Byte) : Token :=
  { Token.empty with payload := lanes fun i => BitVec.ofNat 32 (leNat ((bs.drop (4 * i)).take 4)), valid := 0xFFFF }

/-- The 64 bytes of a token's lanes. -/
def laneBytes (v : Vector Lane 16) : List Byte := (List.range 16).flatMap fun i => leBytes 4 (vget v i 0).toNat

def Column.operand (c : Column) (j : Job) (a col n : Nat) : Operand :=
  match Tab.find? c.pairs n with
  | some t => .here t
  | none =>
    match j.fly.find? fun x => x.id = spillId a col n with
    | none => .ask
    | some x =>
      match x.fault, x.got with
      | some y, _ => .bad y.cause y.addr.toNat
      | none, some (bs, _) => .here (tokenOfBytes bs)
      | none, none => .wait

/-- A spilled operand's read event (R265). -/
def State.askSpill (s : State) (r e : Nat) (j : Job) (va id : Nat) : State :=
  let cells := (List.range 64).map fun o => (va + o, (0 : Byte), (0xFF : Byte))
  let put (s : State) (c : Flight) : State :=
    match Tab.find? (s.region r).jobs e with
    | some j => s.setJob r e { j with fly := j.fly ++ [c] }
    | none => s
  if 2 ^ 52 < va + 64 then put s (runFlight id 1 false none (some (runFault .varange va)))
  else
    match s.jobLand r e j (reqEngine r) cells .read { Ev.blank with kind := .read, dest := .job r e id } with
    | .placed s _ => put s (runFlight id 1 true none none)
    | .parked s => put s (runFlight id 1 true none none)
    | .void => put s (runFlight id 1 false (some ([], 0)) none)
    | .fault s c => put s (runFlight id 1 false none (some (runFault c va)))

/-- A column in its chain: region, array, place in the chain, binding and job. -/
structure AtCol where
  r : Nat
  a : Nat
  j : Nat
  k : BaBind
  e : Nat
  job : Job
  deriving DecidableEq, Repr

def AtCol.col (x : AtCol) : Nat := x.k.c0 + x.j

/-- The chain's flags raised. -/
def State.chainFlags (s : State) (x : AtCol) (fl : FFlags) : State :=
  let p := x.k.port x.a
  let b := s.arr x.r p
  s.setArr x.r p { b with flags := b.flags ||| fl }

/-- The token of place n rounded for the receiving column, or kept exact for the output port (R257). -/
def State.emitSums (s : State) (x : AtCol) (m : Made) : State :=
  let b := s.arr x.r x.a
  if x.j + 1 < x.k.n then
    let w := (b.col (x.col + 1)).word
    let y (i : Nat) : Lane × FFlags := (vget m.sums i { v := .nan, mixed := false }).round x.k.env (Stage.carry w) (Stage.rm w)
    let t : Token := { Token.empty with payload := lanes fun i => (y i).1, valid := 0xFFFF }
    (s.setArr x.r x.a (b.pass x.k x.j [t])).chainFlags x (m.fl ||| orFlags fun i => (y i).2)
  else
    (s.setArr x.r x.a { b with outq := b.outq ++ [{ tok := { Token.empty with valid := 0xFFFF }, sums := m.sums }] }).chainFlags x m.fl

/-- A place is still needed: it, or its partner, has not been emitted. -/
def stillNeeded (w : Word) (g sent n : Nat) : Bool :=
  if Stage.unit w then decide (sent ≤ n) || decide (sent ≤ partner w g n) else decide (sent ≤ n)

/-- Place `sent` emitted: the column moves on, and operands that nothing needs any more go. -/
def State.emitPlace (s : State) (x : AtCol) (m : Made) : State :=
  let s := s.emitSums x m
  let b := s.arr x.r x.a
  let c := b.col x.col
  let sent := c.sent + 1
  let c := { c with
    sent
    pairs := c.pairs.filter fun p => stillNeeded c.word x.k.g sent p.1
    spilled := c.spilled.filter (stillNeeded c.word x.k.g sent)
    acc := match m.acc with | some (i, v) => vput c.acc i v | none => c.acc }
  let s := s.setArr x.r x.a (b.touch x.col c)
  let s := s.charge x.r (76 * m.cycles)
  match Tab.find? (s.region x.r).jobs x.e with
  | some j =>
    s.setJob x.r x.e { j with fly := j.fly.filter fun f =>
      !(f.id / 2 ^ 50 = spillId x.a x.col 0 / 2 ^ 50 && !stillNeeded c.word x.k.g sent (f.id % 2 ^ 50)) }
  | none => s

/-- The next CFG of a stage word reaches the next column before this token does: the token waits for it. -/
def AtCol.nextHasCfg (x : AtCol) (b : BArray) : Bool :=
  decide (x.j + 1 < x.k.n) && (b.col (x.col + 1)).inq.any fun t => t.marker = Mk.cfg

/-- The emission of the next place, when its operands are there. -/
def State.tryEmit (s : State) (x : AtCol) : Option State :=
  let b := s.arr x.r x.a
  let c := b.col x.col
  let w := c.word
  let g := x.k.g
  let n := c.sent
  let wt := s.weight x.r x.a x.col c x.k.env
  let fail (cause : Cause) (addr : Nat) : Option State := some (s.chainFault x.r x.a x.j cause addr)
  let ask (n : Nat) : Option State :=
    if s.jobParked x.r x.e then none
    else some (s.askSpill x.r x.e x.job (spillAddr x.k w x.a x.j n) (spillId x.a x.col n))
  if c.recv ≤ n || x.nextHasCfg b then none
  else if !Stage.unit w then
    match c.operand x.job x.a x.col n with
    | .here t => some (s.emitPlace x (makeElements wt x.k.env w (n / g) t))
    | .bad z a => fail z a
    | .ask => ask n
    | .wait => none
  else
    let m := partner w g n
    if c.recv ≤ m then none
    else
      match c.operand x.job x.a x.col n, c.operand x.job x.a x.col m with
      | .bad z a, _ => fail z a
      | _, .bad z a => fail z a
      | .ask, _ => ask n
      | _, .ask => ask m
      | .here t, .here u =>
        let lower := isLower w g n
        let q := if lower then n / g else m / g
        let p := pairIndex (Stage.half w) q
        some (s.emitPlace x
          (if lower then makeTokens wt x.k.env w c.acc p true t u else makeTokens wt x.k.env w c.acc p false u t))
      | _, _ => none

/-- A data token received at place `recv`: into the pair buffer, or the spill range for places past its first 64
(R264, R265). -/
def State.receive (s : State) (x : AtCol) (t : Token) : Option State :=
  let b := s.arr x.r x.a
  let c := b.col x.col
  let w := c.word
  let n := c.recv
  let hold (s : State) : State :=
    let b := s.arr x.r x.a
    let c := b.col x.col
    s.setArr x.r x.a (b.touch x.col { c with recv := n + 1, pairs := Tab.put c.pairs n t })
  if !Stage.unit w || n % Stage.span w x.k.g < 64 then some (hold s)
  else if s.jobParked x.r x.e then none
  else
    let va := spillAddr x.k w x.a x.j n
    let cells := (List.range 64).zip (laneBytes t.payload) |>.map fun (o, v) => (va + o, v, (0xFF : Byte))
    let kept (s : State) : State :=
      let b := s.arr x.r x.a
      let c := b.col x.col
      s.setArr x.r x.a (b.touch x.col { c with recv := n + 1, spilled := c.spilled ++ [n] })
    if 2 ^ 52 < va + 64 then some (s.chainFault x.r x.a x.j .varange va)
    else
      match s.jobLand x.r x.e x.job (reqEngine x.r) cells .write { Ev.blank with kind := .write } with
      | .placed s _ => some (kept s)
      | .parked s => some (kept s)
      | .void => some (kept s)
      | .fault s z => some (s.chainFault x.r x.a x.j z va)

/-- A word that a CFG token brings is one the chain can take (R267). -/
def cfgFits (k : BaBind) (c : Column) (w : Word) : Bool :=
  Stage.legal w && (Stage.weights w = 0 || blocksFit w c.kind && c.loaded) &&
    (!Stage.unit w || (Stage.span w k.g ≤ 8192 && (Stage.span w k.g ≤ 64 || (k.spill.isSome && 64 * Stage.span w k.g ≤ k.z))))

/-- Column and word of a CFG token (R267). -/
def cfgOf (t : Token) : Nat × Word := ((t.at 0).toNat, (t.at 3) ++ (t.at 2))

/-- The row group that ends at a column has a length that its stage cannot take (R253, R254). -/
def badLength (w : Word) (g n : Nat) : Bool :=
  n = 0 || n % g != 0 || (Stage.unit w && n / g % (2 * Stage.half w) != 0)

/-- What a column does with the token at its head, once nothing can be emitted first. A CFG is consumed at the column it
names; RUN, END and NXT stay as they were (R267). -/
def State.takeAt (s : State) (x : AtCol) (t : Token) (s' : State) : Option State :=
  let b := s'.arr x.r x.a
  let c := b.col x.col
  let mark (m : Token) : State := s'.setArr x.r x.a (b.touch x.col { c with marks := c.marks ++ [(c.recv, m)] })
  if t.marker = Mk.data then s'.receive x t
  else if t.marker = Mk.cfg then
    let (col, w) := cfgOf t
    if col = x.col then
      let build : Word := 0x3FF <<< 30
      let w := (w &&& ~~~build) ||| (c.word &&& build)
      some (s'.setArr x.r x.a (b.touch x.col { c with word := w }))
    else some (s'.setArr x.r x.a (b.pass x.k x.j [t]))
  else if t.marker = Mk.drain then some (s'.setArr x.r x.a (b.pass x.k x.j [t]))
  else if isPositional t.marker then
    if t.marker = Mk.eot && x.job.fault.isSome then
      -- the EOT that follows the chain's own FAULT: what waits for partners goes
      let ms := c.marks.map Prod.snd
      some (s'.setArr x.r x.a ((b.touch x.col { c.rest with marks := [] }).pass x.k x.j (ms ++ [t])))
    else if t.marker = Mk.eot && c.recv = 0 then
      some (s'.setArr x.r x.a (b.pass x.k x.j [t]))
    else if badLength c.word x.k.g c.recv then some (s.chainFault x.r x.a x.j .bavec 0)
    else some (mark t)
  else some (mark t)

/-- The next column, or the output port, has room (R263, log 67): a column's input holds two tokens; the port takes a whole
row group, and then two tokens more. -/
def AtCol.room (x : AtCol) (b : BArray) : Bool :=
  if x.j + 1 < x.k.n then (b.col (x.col + 1)).inq.length < 2
  else b.outq.length < 2 || !(b.outq.any fun t => isPositional t.tok.marker)

/-- One unit of a column's work: a marker or a place leaves, or a token is taken (R263, R266). -/
def State.columnStep (s : State) (x : AtCol) (head : Option (Token × State)) : Option State :=
  let b := s.arr x.r x.a
  let c := b.col x.col
  if !x.room b then none
  else match c.marks with
  | (n, m) :: rest =>
    if n = c.sent then
      let c := if isPositional m.marker then { c.rest with marks := rest } else { c with marks := rest }
      some (s.setArr x.r x.a ((b.touch x.col c).pass x.k x.j [m]))
    else go s b c
  | [] => go s b c
where
  go (s : State) (_b : BArray) (c : Column) : Option State :=
    match s.tryEmit x with
    | some t => some t
    | none =>
      -- a place whose operands are all there is emitted before the head is taken
      if c.sent < c.recv && (!Stage.unit c.word || partner c.word x.k.g c.sent < c.recv) then none
      else if c.marks.any fun m => isPositional m.2.marker then none
      else
        match head with
        | some (t, s') => s.takeAt x t s'
        | none => none

/-! ### The input port (R253, R267, R281) -/

/-- The token that column 0 of array a's chain takes next from the input port, with the state after: under ba01 the row
groups go to the two arrays in turn, and a CFG or DRAIN goes to both. Behind the EOT, and in a chain that has faulted, only
a DRAIN still passes (R270). -/
def State.portHead (s : State) (r a : Nat) (k : BaBind) : Option (Token × State) :=
  let p := k.port a
  let b := s.arr r p
  if b.stopped then none
  else
    match b.inq with
    | [] => none
    | t :: rest =>
      if ((b.faulted || b.eotIn) && t.marker != Mk.drain) || (k.both && b.turnIn % 2 != a) then none
      else
        let b := { b with inq := rest }
        let b :=
          if t.marker = Mk.data then { b with groupIn := b.groupIn + 1, cfgOpen := false }
          else if t.marker = Mk.eor then { b with groupIn := 0, cfgOpen := true, turnIn := b.turnIn + 1 }
          else if t.marker = Mk.eot then { b with groupIn := 0, eotIn := true }
          else if t.marker = Mk.cfg || t.marker = Mk.drain then b
          else { b with cfgOpen := false }
        let s := s.setArr r p b
        if k.both && (t.marker = Mk.cfg || t.marker = Mk.drain) then
          let o := s.arr r (1 - a)
          let c := o.col k.c0
          some (t, s.setArr r (1 - a) (o.setCol k.c0 { c with inq := c.inq ++ [t] }))
        else some (t, s)

/-- A CFG token at the input port that the chain does not accept (R267). The model's reading (log 117): CFG tokens in a row
stand where the first of them stands. -/
def State.cfgBad (s : State) (r a : Nat) (k : BaBind) (t : Token) : Bool :=
  let (col, w) := cfgOf t
  let b := s.arr r (k.port a)
  let fits (x : Nat) : Bool := cfgFits k ((s.arr r x).col col) w
  !b.cfgOpen || col < k.c0 || k.c0 + k.n ≤ col || !(if k.both then fits 0 && fits 1 else fits a)

/-- A faulted chain discards its input up to EOT (R274), but for a DRAIN (R270). -/
def State.discardInput (s : State) (r a : Nat) (k : BaBind) : Option State :=
  let p := k.port a
  let b := s.arr r p
  if !b.faulted || b.eotIn then none
  else
    match b.inq with
    | [] => none
    | t :: rest => if t.marker = Mk.drain then none else some (s.setArr r p { b with inq := rest, eotIn := t.marker = Mk.eot })

/-- COLUMN_FIRE (R263): a column of a chain whose job has started does one unit of its work; an array that `bdrn.sv`
has stopped, or whose plane is being saved, does none. -/
def State.columnFire (s : State) (r a c : Nat) : Option State :=
  let b := s.arr r a
  b.bind.bind fun k =>
    if b.stopped || c < k.c0 || k.c0 + k.n ≤ c || (s.plane (planeKey r k.plane)).atRest then none
    else
      (s.chainJob r k).bind fun (e, job) =>
        if !job.started then none
        else
          let x : AtCol := { r, a, j := c - k.c0, k, e, job }
          let own := (b.col c).inq
          match own with
          | t :: rest =>
            let s' := s.setArr r a (b.setCol c { b.col c with inq := rest })
            s.columnStep x (some (t, s'))
          | [] =>
            if x.j != 0 then s.columnStep x none
            else
              match s.discardInput r a k with
              | some t => some t
              | none =>
                match s.portHead r a k with
                | none => s.columnStep x none
                | some (t, s') =>
                  if t.marker = Mk.cfg && s.cfgBad r a k t then
                    match s.columnStep x none with
                    | some u => some u
                    | none => some (s'.chainFault r a 0 .bacfg 0)
                  else s.columnStep x (some (t, s'))

end Sys2Proof.Machine
end

