-- ==== Sys2Proof/Machine/Ordering.lean ====
section
/-!
DEFINITION. The steps of the abstract machine (R228 to R232, R330): issue, commit, propagation, RMW and return of a
value; translation walks and copy on write (R197 to R200, R361); and `sfence`, `wbk` and `inv` (R249 to R251).
-/

namespace Sys2Proof.Machine

/-! ### sfence, wbk and inv -/

/-- `sfence` (R250): no further instruction issues until the event has issued. The model's choice (log 132): `sfence.ar` waits for
both of its halves, where Scenario 9-2 lets a read pass the REL half. -/
def execSfence (k : FenceKind) (sc : Scope) (s : State) : Res :=
  issueAs s .user false fun q =>
    let s := s.placeFence q { Ev.blank with kind := .fence k, scope := sc, ctx := s.ctxNo q }
    .next (s.await q 4 s.lastId none)

/-- One event of `wbk` or `inv`: the part of the range in one page, or nothing where the page does not translate
(R227, R251). The model's choice (log 133): the page is translated as for a read, so that one without R, or of the weight
window, is skipped. -/
def State.rangeEvent (s : State) (q : Nat) (kind : EvKind) (sc : Scope) (lo hi : Nat) : Option State :=
  let e (pieces : List Piece) (ord : PageOrd) : Ev :=
    { Ev.blank with kind, scope := sc, ctx := s.ctxNo q, va := lo, size := hi - lo, pieces, ord }
  match s.seqTranslate q (reqLoad q) lo .read with
  | .ok p => some (s.place q (e ((keysFrom p.key (hi - lo)).map fun k => { key := k, value := 0, mask := 0 }) .rc))
  | .miss => none
  | .copy => none
  | .void => some s
  | .fault _ => some (s.dropBad (reqLoad q) (s.ctxNo q) (lo / 2 ^ 16))

/-- `wbk` and `inv` (R251): every 64-byte block that overlaps [sA, sA + sB), one event for each page. -/
def rangeOp (s : State) (kind : EvKind) (sc : Scope) (a b : SReg) : Res :=
  issueAs s .user false fun q =>
    let v := s.seq q
    if !v.allReady [a, b] then stall s
    else
      let start := (v.read a).toNat
      let n := (v.read b).toNat
      if 2 ^ 52 < start + n then .next (s.raise q .varange (v.read a))
      else if n = 0 then .next (s.advance q 4)
      else
        let first := start / 64 * 64
        let last := (start + n + 63) / 64 * 64
        let lo := match v.wait with | .range ip next => if ip = v.ip then next else first | _ => first
        let hi := min last ((lo / 2 ^ 16 + 1) * 2 ^ 16)
        match s.rangeEvent q kind sc lo hi with
        | none => .next (s.startWalk (reqLoad q) (boardOfSeq q) (s.ctxNo q) lo false)
        | some s =>
          if hi < last then .next (s.setSeq q ((s.seq q).setWait (.range v.ip hi)))
          else .next ((s.setSeq q ((s.seq q).setWait .none)).advance q 4)

/-- `wbk` (R251). -/
def execWbk (sc : Scope) (a b : SReg) (s : State) : Res := rangeOp s .wbk sc a b

/-- `inv` (R251): words that the sequencer has fetched ahead from the range are dropped with the copies (R238, R239). -/
def execInv (sc : Scope) (a b : SReg) (s : State) : Res := rangeOp s .inv sc a b

/-! ### ISSUE (S1, S2) -/

/-- The energy of an access at its issue (Table 23-2); other events have no charge. -/
def State.chargeEvent (s : State) (a : Nat) (e : Ev) : State :=
  match e.pieces with
  | p :: _ => if e.isAccess then s.chargeAt (agentRegion (Agent.ofKey a)) p.key 1 else s
  | [] => s

/-- The plane of a block agent. -/
def blockPlane (a : Nat) : Option Nat :=
  match Agent.ofKey a with
  | .block r p => some (planeKey r p)
  | _ => none

/-- A token carries a record of a list in a lane from `lo` on. -/
def Token.carries (t : Token) (rids : List Nat) (lo : Nat) : Bool :=
  (List.range 16).any fun i => decide (lo ≤ i) && t.has i && rids.contains (vget t.rids i 0)

/-- A node holds a record of a list that it has still to pass on; `own`: the memory node whose events are asked for. -/
def Node.holds (n : Node) (rids : List Nat) (own : Bool) : Bool :=
  (match n.cur with | some c => c.src.carries rids c.lane || c.srcB.carries rids c.lane | none => false) ||
  n.wait.any (fun c => c.src.carries rids 0 || c.srcB.carries rids 0) ||
  (!own && (n.pend.any (fun x => x.1.carries rids 0 || x.2.carries rids 0) ||
    (match n.held with | some t => t.carries rids 0 | none => false) ||
    n.buf.any (fun t => t.carries rids 0) || n.bufB.any (fun t => t.carries rids 0) ||
    n.tab.any (fun e => rids.contains e.rid) || n.fly.any (fun c => c.tok.carries rids 0)))

/-- A word is a memory instruction that takes part in the program order (R186). -/
def inOrder (w : Word) : Bool :=
  let o := fabricOpc w
  (0x80 ≤ o && o ≤ 0x84) || o = 0x90 || o = 0x91 || o = 0x93 || (o = 0x92 && bits w 53 2 != 0)

/-- A steering group holds a record of a list. -/
def StGroup.holds (g : StGroup) (rids : List Nat) : Bool :=
  g.queue.any (fun x => rids.contains x.rid) || g.done.any (fun x => rids.contains x.rid) ||
    g.routed.any (fun x => x.2.any fun t => t.carries rids 0)

/-- A record of event e can still reach a memory node with a smaller SEQ, where it may have an earlier event (R186); for the
fence of a FENCE marker, any other memory node (R247). The event's own node does not hold it back. The way there is that of
the instance's words, whether or not their slots hold them yet. -/
def Plane.earlierMayCome (pl : Plane) (e : Ev) : Bool :=
  match pl.chain with
  | none => false
  | some c =>
    let i := c.cur
    let everywhere : Bool := e.mark &&
      (match Tab.find? pl.nodes e.slot with | some n => fabricOpc n.word != 0x90 | none => true)
    ((blockSlots i.head i.words i.place).zip i.words).any fun (slot, w) =>
      if slot = e.slot || !inOrder w || (!everywhere && e.seqNo ≤ (bits w 4 5).toNat) then false
      else
        let up := i.reaching slot
        (pl.links.any fun l => l.era = c.era && up.contains l.dst && l.toks.any fun t => t.carries e.rids 0) ||
        (pl.nodes.any fun (k, m) => m.era = c.era && (k = slot || k != e.slot) && up.contains k && m.holds e.rids (k = slot)) ||
        ((pl.nodes.any fun (k, m) => m.era = c.era && up.contains k && (fabricOpc m.word = 0xB0 || fabricOpc m.word = 0xB2)) &&
          (pl.reports.any (fun x => x.tok.carries e.rids 0) ||
            (List.range 4).any fun g => (vget pl.groups g StGroup.empty).holds e.rids))

/-- A node holds a FENCE marker that it has still to pass on. -/
def Node.holdsFence (n : Node) : Bool :=
  let is (t : Token) : Bool := t.marker = Mk.fence
  n.pend.any (fun x => is x.1 || is x.2) || n.fly.any fun c => is c.tok

/-- A FENCE marker stands between an event's node and a memory node that the event's records come to behind it: the marker's
fence there comes first (R247, log 106). -/
def Plane.fenceAhead (pl : Plane) (e : Ev) : Bool :=
  match pl.chain with
  | none => false
  | some c =>
    let i := c.cur
    let below := i.reached e.slot
    !e.mark && ((blockSlots i.head i.words i.place).zip i.words).any fun (slot, w) =>
      if slot = e.slot || !isMemoryWord w || !below.contains slot then false
      else
        let between := (i.reaching slot).filter below.contains
        (pl.links.any fun l =>
          l.era = c.era && between.contains l.dst && l.dst != e.slot && l.toks.any fun t => t.marker = Mk.fence) ||
        pl.nodes.any fun (k, m) => m.era = c.era && k != slot && between.contains k && m.holdsFence

/-- What keeps a block instance's event back besides Tables 9-2 and 9-3: a frozen plane (R386), the launching
sequencer's earlier events (R224), and earlier events that have not been placed (R186, R247). -/
def State.blockAllows (s : State) (a : Nat) (e : Ev) : Bool :=
  match blockPlane a with
  | none => true
  | some k =>
    let pl := s.plane k
    !pl.stopped && !pl.earlierMayCome e && !pl.fenceAhead e &&
      (match pl.chain with
        | some c =>
          let g := s.agent c.seq
          !((g.q ++ g.buf ++ g.rmws).any fun x => x.id < c.before)
        | none => true)

/-- The queue without the event at an index. -/
def State.unqueue (s : State) (a index : Nat) : State :=
  let g := s.agent a
  s.setAgent a { g with q := dropAt g.q index }

/-- Code that a sequencer has read before its use, or for an image, goes where an address and size meet a test: behind
an `inv` of the range, or behind an `sfence` at .rgn or wider (R67, R239). -/
def State.dropFetched (s : State) (a : Nat) (test : Nat → Nat → Bool) : State :=
  match Agent.ofKey a with
  | .seq q =>
    let v := s.seq q
    let keep (p : Pieces) : Pieces := p.filter fun x => !test x.1 64
    let s := s.setSeq q { v with
      fetched := v.fetched.filter fun w => !test w.1 4
      fetching := v.fetching.map fun x => (x.1, x.2.1, keep x.2.2) }
    match s.planeOf q with
    | some k =>
      let pl := s.plane k
      s.setPlane k { pl with chain := pl.chain.map fun c => { c with pieces := if c.seq = q then keep c.pieces else c.pieces } }
    | none => s
  | _ => s

/-- An event that has met its conditions is issued (R228). -/
def State.issueNow (s : State) (a index : Nat) (e : Ev) : State :=
  let s := (s.chargeEvent a e).unqueue a index
  let g := s.agent a
  match e.kind with
  | .read =>
    if e.dest == .none then s
    else
      let ag := Agent.ofKey a
      let bytes := e.pieces.map fun p => s.readByte ag p.key
      let tag := match e.pieces with
        | p :: _ => if e.tagRead then s.readTag ag (p.key / 64) else 0
        | [] => 0
      s.setAgent a { g with rets := g.rets ++ [{ dest := e.dest, bytes, tag, bad := none }] }
  | .write => s.setAgent a { g with buf := g.buf ++ [e] }
  | .rmw _ => s.setAgent a { g with rmws := g.rmws ++ [e] }
  | .fence _ => if 1 ≤ e.scope.level then s.dropFetched a fun _ _ => true else s
  | .wbk => s
  | .inv => s.dropFetched a fun lo n => match Agent.ofKey a with | .seq q => s.invMeets q lo n e | _ => false

/-- The use of an event's page: a read by `acpy` may be of weight SRAM (Table 8-6). -/
def State.evUse (s : State) (e : Ev) : Use :=
  match e.kind, e.dest with
  | .write, _ => .write
  | .rmw _, _ => .atomic
  | _, .job r j _ =>
    (match (Tab.find? (s.region r).jobs j).map Job.kind with
      | some (.acpy ..) => .copyRead
      | _ => .read)
  | _, _ => .read

/-- FLTAUX of a failed fence: its node and stream position (R240, R387). -/
def fenceAux (pl : Plane) (plane : Nat) (f : Ev) : Word :=
  positionWord (match Tab.find? pl.nodes f.slot with | some n => n.index | none => 0) (plane % 4) f.pos

/-- Fences that wait for an event fail: they never issue (R240). -/
def failFences (q : List Ev) (id : Nat) : List Ev :=
  q.map fun x => match x.kind with
    | .fence _ => if x.preds.contains id then { x with parked := true } else x
    | _ => x

/-- A parked access of a block instance has faulted (R240): its node stops at the record. -/
def State.parkedNodeFault (s : State) (a index plane : Nat) (e : Ev) (c : Cause) : State :=
  let g := s.agent a
  let first := g.q.find? fun x => match x.kind with | .fence _ => x.preds.contains e.id | _ => false
  let pl := s.plane plane
  let aux := match first with | some f => fenceAux pl plane f | none => 0
  let s := s.setAgent a { g with q := failFences (dropAt g.q index) e.id, past := g.past.filter fun p => p.id != e.id }
  match Tab.find? pl.nodes e.slot with
  | none => s
  | some n =>
    let x : NodeFault := { cause := c, addr := BitVec.ofNat 64 e.va, aux, pos := e.pos, after := none }
    let n := n.parkedFault s.nextId e.pos x
    { s.setPlane plane { pl with nodes := Tab.put pl.nodes e.slot n } with nextId := s.nextId + 1 }

/-- A flight of a list changed. -/
def mapFlight (test : Flight → Bool) (g : Flight → Flight) (l : List Flight) : List Flight :=
  l.map fun c => if test c then g c else c

/-- The flight of a job to which an element index belongs, changed. -/
def State.jobFlight (s : State) (r e index : Nat) (g : Pat → Flight → Flight) : State :=
  match Tab.find? (s.region r).jobs e with
  | none => s
  | some j =>
    match j.kind with
    | .sgo p w pat =>
      let f := Pat.of pat
      let v := s.side r p false
      let mine (c : Flight) : Bool := if f.isGather then c.id = index / 16 else c.id = index
      if w then s else s.setSide r p false { v with fly := mapFlight mine (g f) v.fly }
    | _ =>
      let f := match j.kind with | .acpy _ p _ => Pat.of p | _ => Pat.of 0
      s.setJob r e { j with fly := mapFlight (fun c => c.id = index) (g f) j.fly }

/-- A parked spill write has faulted: at the column whose range holds its address (R265, R274). -/
def State.spillFault (s : State) (r : Nat) (arrs : List Nat) (va : Nat) (c : Cause) : State :=
  arrs.foldl
    (fun s a =>
      match (s.arr r a).bind with
      | some k =>
        let lo := k.spillAt a 0
        if lo ≤ va && va < lo + k.n * k.z then s.chainFault r a ((va - lo) / k.z) c va else s
      | none => s)
    s

/-- A parked access of a job has faulted (R214). -/
def State.parkedJobFault (s : State) (a index r e : Nat) (ev : Ev) (c : Cause) : State :=
  let s := s.unqueue a index
  match ev.dest with
  | .job _ _ i =>
    if 2 ^ 60 ≤ i then
      match Tab.find? (s.region r).jobs e with
      | some j => s.jobFault r e j c ev.va
      | none => s
    else
      let s := s.jobFlight r e i fun f x =>
        if f.isGather then
          { x with lane := i % 16, waiting := setBit x.waiting (i % 16) false
                   tok := { x.tok with valid := setBit x.tok.valid (i % 16) false }, fault := some (runFault c ev.va) }
        else { x with waiting := 0, fault := some (runFault c ev.va) }
      s.copyOn r e
  | _ =>
    match Tab.find? (s.region r).jobs e with
    | none => s
    | some j =>
      match j.kind with
      | .sgo p _ _ => s.writeFault r e j p c ev.va
      | .bchn arr => s.spillFault r (ArrSel.list arr) ev.va c
      | _ => s.jobFault r e j c ev.va

/-- A queued access to a dead branch's slot performs no event: a read returns zeros (R360). -/
def State.voidParked (s : State) (a index : Nat) (e : Ev) : State :=
  let s := s.unqueue a index
  let g := s.agent a
  if e.dest == .none then s
  else s.setAgent a { g with rets := g.rets ++ [{ dest := e.dest, bytes := [], tag := 0, bad := none }] }

/-- The first address of an event's bytes: an access's pieces may begin past its address (R190). -/
def Ev.unparked (e : Ev) (p : Phys) : Ev :=
  { e with
    pieces := e.pieces.map fun x => { x with key := p.key + (x.key - e.base) }
    base := p.key, parked := false, ord := Leaf.ord p.leaf, mkind := Leaf.mkind p.leaf, large := Leaf.lg p.leaf }

/-- The region number that a translation of an agent's access uses for the weight window. -/
def agentHome (a : Nat) : Nat := (agentRegion (Agent.ofKey a)).getD 0

/-- A parked access translated again: it leaves the parked state, faults, or waits for its walk (R240). -/
def State.unpark (s : State) (a index : Nat) (e : Ev) : State :=
  let r := agentHome a
  match s.translate e.req (r / 32) r e.ctx e.va (s.evUse e) with
  | .ok p =>
    let g := s.agent a
    let s := s.setAgent a { g with q := putAt g.q index (e.unparked p) }
    (match Agent.ofKey a with
      | .job r e => s.copyOn r e
      | _ => s)
  | .void => s.voidParked a index e
  | .miss => s.startWalk e.req (r / 32) e.ctx e.va false
  | .copy => s.startWalk e.req (r / 32) e.ctx e.va true a
  | .fault c =>
    let s := s.dropBad e.req e.ctx (e.va / 2 ^ 16)
    match Agent.ofKey a with
    | .block r p => s.parkedNodeFault a index (planeKey r p) e c
    | .job r j => s.parkedJobFault a index r j e c
    | _ => s.unqueue a index

/-- The first byte of an access that no memory holds (Table 1-1). -/
def Ev.absent (e : Ev) : Option Nat :=
  if e.isAccess && !e.parked then (e.pieces.map Piece.key).find? fun k => (storeOf k).isNone else none

/-- An access of the KV window whose branch is dead where it was translated: it performs no event, though it had its
translation before (R360, R363). -/
def State.kvVoid (s : State) (a : Nat) (e : Ev) : Bool :=
  e.isAccess && e.mkind != 2 && (match s.ctx? e.ctx with
    | some c => c.branchVoid e.va fun b => (s.region (agentHome a)).dead.contains (e.ctx, b)
    | none => false)

/-- ISSUE (S1): the event at an index of Q(a) issues when its translation is complete and the order allows it; a read of
another module's memory when its port is up (R244). An access to an address that no memory holds stops the module. -/
def execIssue (agent index : Nat) (s : State) : Res :=
  match (s.agent agent).q[index]? with
  | none => stall s
  | some e =>
    let frozen : Bool := match blockPlane agent with | some k => (s.plane k).stopped | none => false
    if frozen then stall s
    else if e.parked then if e.isAccess then .next (s.unpark agent index e) else stall s
    else if s.kvVoid agent e then .next (s.voidParked agent index e)
    else if s.orderAllows agent e && s.blockAllows agent e && (!e.isRead || s.linked e) then
      match e.absent with
      | some k => .fault (.absent k)
      | none => .next (s.issueNow agent index e)
    else stall s

/-! ### COMMIT and PROPAGATE (S3, S4) -/

/-- The committed form of a buffered write: a masked byte takes its other bits from the last write in co (R226). -/
def State.committed (s : State) (a : Nat) (w : Ev) : MWrite :=
  { id := w.id, org := a
    cells := w.pieces.map fun p => (p.key, maskByte (s.mem.coLast p.key) p.value p.mask)
    tag := match w.tagWrite, w.pieces with
      | some t, p :: _ => some (p.key / 64, t)
      | _, _ => none
    level := narrowest (Agent.ofKey a), ord := w.ord, plain := w.isPlainUn }

/-- The lowest watchpoint of a context's plane in a region that a job's write covers (R393). -/
def State.jobHit (s : State) (r ctx : Nat) (e : Ev) : Bool :=
  let low := (e.pieces.map fun p => p.key).foldl min ((e.pieces.head?.map fun p => p.key).getD 0)
  (List.range 4).any fun p =>
    let pl := s.plane (planeKey r p)
    pl.ctx == some ctx && e.pieces.any fun x => (watchHit pl.wpt (e.va + (x.key - low)) 1).isSome

/-- The engine code of a job's access (R389): under ba01 BA1's spill ranges follow BA0's. -/
def State.engineAt (s : State) (r : Nat) (j : Job) (va : Nat) : Nat :=
  match j.kind, (s.arr r 0).bind with
  | .bchn .ba01, some k => if k.spillAt 1 0 ≤ va then 9 else 8
  | x, _ => x.engine

/-- A job's write hits a watchpoint (R394): EFLT records WATCH, and an imprecise fault token goes to the root core. -/
def State.jobWatch (s : State) (r e : Nat) (w : Ev) : State :=
  if !w.watched || !s.jobHit r w.ctx w then s
  else
    match Tab.find? (s.region r).jobs e with
    | none => s
    | some j =>
      let engine := s.engineAt r j w.va
      let s := s.setSeq j.seq ((s.seq j.seq).engineFault engine j.card .watch w.va)
      s.sendToken (rootOf (r / 32))
        (faultToken Cause.watch.code (BitVec.ofNat 8 engine) j.card (BitVec.ofNat 16 w.ctx) r true
          (BitVec.ofNat 64 w.va) 0 0 0 0 0)

/-- COMMIT (S3): a buffered write joins co and V(N(a)); a hit and a trigger are reported (R367, R394). A write into a dead
branch's slot is discarded (R360, R363). -/
def execCommit (agent index : Nat) (s : State) : Res :=
  let g := s.agent agent
  match g.buf[index]? with
  | none => stall s
  | some w =>
    let older := g.buf.take index
    if s.kvVoid agent w then .next (s.setAgent agent { g with buf := dropAt g.buf index })
    else if older.any (fun x => overlaps x w) || (w.ord == .so && older.any fun x => x.ord == .so) || !s.linked w then stall s
    else
      let s := s.setAgent agent { g with buf := dropAt g.buf index }
      let s := { s with mem := s.mem.append (s.committed agent w) }
      let s := s.written (w.pieces.map fun p => p.key)
      .next (match Agent.ofKey agent with
        | .job r e => s.jobWatch r e w
        | _ => s)

/-- Two committed writes cover a common byte. -/
def MWrite.meets (x w : MWrite) : Bool := x.cells.any fun c => w.cells.any fun d => c.1 = d.1

/-- PROPAGATE (S4): a committed write enters V of its origin's next wider instance. -/
def execPropagate (index : Nat) (s : State) : Res :=
  match s.mem.recent[index]? with
  | none => stall s
  | some w =>
    let older := s.mem.recent.take index
    let holdsBack (x : MWrite) : Bool :=
      x.org = w.org && x.level ≤ w.level && (x.meets w || (w.ord == .so && x.ord == .so))
    if 5 ≤ w.level || older.any holdsBack then stall s
    else
      let recent := putAt s.mem.recent index { w with level := w.level + 1 }
      .next { s with mem := { s.mem with recent }.resettle }

end Sys2Proof.Machine
end

