-- ==== Sys2Proof/Machine/Homes.lean ====
section
/-!
DEFINITION. What home units and translation units do: an RMW performed (R232, R310, R319 to R322), a value returned
(R330, R195), a walk completed (R197 to R200), a parking entry granted (R198) and a page copied (R198, R361).
-/

namespace Sys2Proof.Machine

/-! ### Page table walks -/

/-- Eight bytes of a table, the last write in co. -/
def State.tableEntry (s : State) (table index : Nat) : Word :=
  BitVec.ofNat 64 (leNat ((keysFrom (table + 8 * index) 8).map s.mem.coLast))

/-- Index of a level, first to fourth (R199). -/
def levelIndex (va level : Nat) : Nat := va / 2 ^ (16 + 9 * (4 - level)) % 512

/-- The table of the next level, or the fault of an upper entry: other bits than V and [47:12] are reserved (R199). -/
def upperEntry (x : Word) : Except Cause Nat :=
  if !bitAt x 0 then .error .page
  else if bits x 48 16 != 0 || bits x 1 11 != 0 then .error .pteres
  else .ok ((bits x 12 36).toNat * 4096)

/-- The leaf that decides a page, with its address: the first of its group where that has LG, else its own, whose LG is
then ignored (R200). -/
def State.leafOf (s : State) (table va : Nat) : Nat × Word :=
  let i := levelIndex va 4
  let first := s.tableEntry table (i / 32 * 32)
  if Leaf.lg first then (table + 8 * (i / 32 * 32), first)
  else (table + 8 * i, s.tableEntry table i &&& ~~~((1 : Word) <<< 48))

/-- The walk of an address of a context: its leaf and where that stands, or the fault (R197, R199). -/
def State.walkTables (s : State) (c : Ctx) (va : Nat) : Except Cause (Nat × Word) :=
  let step (t : Except Cause Nat) (level : Nat) : Except Cause Nat :=
    match t with
    | .error x => .error x
    | .ok table => upperEntry (s.tableEntry table (levelIndex va level))
  match step (step (step (.ok c.ptRoot) 1) 2) 3 with
  | .error x => .error x
  | .ok table =>
    let (a, l) := s.leafOf table va
    if !Leaf.v l then .error .page else if Leaf.reserved l then .error .pteres else .ok (a, l)

/-- The leaf of a virtual address as the walkers reach it, where it has one: the page list's in the KV window (R360), else the
tables'. -/
def State.homeLeaf (s : State) (c : Ctx) (va : Nat) : Option Word :=
  let byTables : Option Word :=
    match s.walkTables c va with
    | .ok (_, l) => some l
    | .error _ => none
  match c.kvWindow with
  | some (base, span) =>
    if base ≤ va && va < base + 65536 * span then
      match kvTranslate c base span va .read fun _ => true with
      | .ok p => some p.leaf
      | _ => none
    else byTables
  | none => byTables

/-- A translation entered into some requesters' caches (R197). -/
def State.fill (s : State) (requesters : List Nat) (e : Cached) : State :=
  requesters.foldl
    (fun s q => { s with tlbs := Tab.put s.tlbs q (cacheAdd 64 (Config.freeIndex s.frees) (Tab.getD s.tlbs q []) e)
                         frees := s.frees + 1 })
    s

/-- The region next to which the requester of a walk stands. -/
def reqRegion (req : Nat) : Option Nat :=
  if req < 0x200 then agentRegion (.seq req)
  else if req < 0x1000 then agentRegion (.seq (req - 0x200))
  else if req < 0x4000 then some ((req - 0x1000) / 32)
  else if req < 0x8000 then some ((req - 0x4000) / 8)
  else some (req - 0x8000)

/-- The energy of the next read of a walk (R461). -/
def State.chargeWalk (s : State) (w : Walk) : State :=
  match w.found with
  | some _ => s
  | none => s.chargeAt (w.requesters.head?.bind reqRegion) w.table 1

/-- What one read of a walk gives: the walk after it, or its end, with the leaf or a fault. -/
inductive WalkRead where
  | on (w : Walk)
  | done (leaf : Except Cause Word)
  deriving Repr

/-- A leaf that decides a page (Table 8-5). -/
def leafEnd (l : Word) : Except Cause Word :=
  if !Leaf.v l then .error .page else if Leaf.reserved l then .error .pteres else .ok l

/-- The next read of a walk, of one entry (R197, R199): three upper levels; the first leaf of the page's group of 32, which
decides where it has LG (R200); else the page's own leaf, whose LG is ignored. -/
def State.walkRead (s : State) (w : Walk) : WalkRead :=
  let va := w.page * 2 ^ 16
  match w.found with
  | some l => .done (leafEnd l)
  | none =>
    if w.level < 4 then
      match upperEntry (s.tableEntry w.table (levelIndex va w.level)) with
      | .error x => .done (.error x)
      | .ok table => .on { w with level := w.level + 1, table }
    else
      let i := levelIndex va 4
      if w.level = 4 then
        let first := s.tableEntry w.table (i / 32 * 32)
        if Leaf.lg first then .on { w with found := some first }
        else if i % 32 = 0 then .done (leafEnd first)
        else .on { w with level := 5 }
      else .done (leafEnd (s.tableEntry w.table i &&& ~~~((1 : Word) <<< 48)))

/-- A walk ends: the translation enters the caches of its requesters and the board's unit; a fault is kept for the
accesses that wait, which take it themselves (R197). -/
def State.walkEnd (s : State) (w : Walk) (leaf : Except Cause Word) : State :=
  let entry (leaf : Word) (bad : Option Cause) : Cached := { ctx := w.ctx, page := w.page, leaf, bad }
  match leaf with
  | .error x => s.fill w.requesters (entry 0 (some x))
  | .ok l =>
    let s := s.fill w.requesters (entry l none)
    { s with
      units := Tab.put s.units w.board
        (cacheAdd 4096 (Config.freeIndex s.frees) (Tab.getD s.units w.board []) (entry l none))
      frees := s.frees + 1 }

/-- WALK_COMPLETE (R197): a walk reads one entry, a single-copy-atomic read, and ends with its last. A walk that `tlbi`
covers leaves nothing (R401). -/
def execWalkComplete (index : Nat) (s : State) : Res :=
  match s.walks[index]? with
  | none => stall s
  | some w =>
    if w.copy || !w.granted then stall s
    else
      let t := { s with walks := dropAt s.walks index }
      if w.dropped then .next t
      else if (s.ctx? w.ctx).isNone then .next (t.walkEnd w (.error .page))
      else
        match s.walkRead w with
        | .on x => .next ({ s with walks := putAt s.walks index x }.chargeWalk w)
        | .done leaf => .next ((t.walkEnd w leaf).chargeWalk w)

/-- PARKING_ENTRY_GRANT (R198): the miss of a board that has waited longest takes a free parking entry. -/
def execParkingEntryGrant (board : Nat) (s : State) : Res :=
  if 256 ≤ (s.walks.filter fun w => w.board = board && w.granted).length then stall s
  else
    .next { s with walks := updateFirst (fun w => w.board = board && !w.granted) (fun w => { w with granted := true }) s.walks }

/-! ### Copy on write -/

/-- The fault of a copy that found no chunk or frame, kept for the accesses that wait. -/
def State.poolFault (s : State) (w : Walk) : State :=
  s.fill w.requesters { ctx := w.ctx, page := w.page, leaf := 0, bad := some .kvpool }

/-- A frame of the pool, chosen freely (R359, R375). -/
def State.takeFrame (s : State) (n : Nat) (c : Ctx) : Option (Nat × Ctx × State) :=
  match pickOf c.freeFrames (Config.freeIndex s.frees) with
  | none => none
  | some f =>
    let s := { s with frees := s.frees + 1 }
    let c := c.setFrame f { fref := 1, held := false }
    some (f, c, s.setCtx n c)

/-- A page copied as the agent of a key reads it (R452), with the energy of its reads and writes (R461). -/
def State.copyFor (s : State) (agent src dst : Nat) : State :=
  let r := agentRegion (Agent.ofKey agent)
  let s := { s with mem := s.copyPage (Agent.ofKey agent) src dst }
  (s.chargeAt r src 1024).chargeAt r dst 1024

/-- The path and the page of a branch made private (R361, steps 1 to 3). -/
def State.copyBranchPage (s : State) (w : Walk) (c : Ctx) (b k : Nat) : State :=
  if !c.isLive b then s
  else
    let (c, n, ok) := c.privatize b k (c.branch b).len s.frees
    let s := { s.setCtx w.ctx c with frees := n }
    if !ok then s.poolFault w
    else
      match c.pageFrame b k with
      | none => s
      | some f =>
        if (c.frame f).fref ≤ 1 then s
        else
          match s.takeFrame w.ctx c with
          | none => s.poolFault w
          | some (g, c, s) =>
            let c := (c.setPointer b k g).unrefFrame f
            (s.copyFor w.agent (c.frameKey f) (c.frameKey g)).setCtx w.ctx c

/-- Cached translations that cover a page dropped everywhere. -/
def State.forget (s : State) (ctx page : Nat) : State :=
  let keep (l : List Cached) : List Cached := l.filter fun e => !(e.covers ctx page || (e.ctx = ctx && e.page = page))
  { s with tlbs := s.tlbs.map fun (q, l) => (q, keep l), units := s.units.map fun (b, l) => (b, keep l) }

/-- The leaves of a 2 MiB page whose page i has been copied, as leaves of their own: leaf i names the copy, the others
the frames that they had (log 15). -/
def splitLeaves (l new : Word) (i : Nat) : List Byte :=
  (List.range 32).flatMap fun k =>
    leBytes 8 (if k = i then new
      else Leaf.make (Leaf.key l).toNat (Leaf.mkind l) (Leaf.bsh l) (Leaf.cow l) (Leaf.ordc l) false
        (Leaf.frame l / 32 * 32 + k) (bits l 0 4)).toNat

/-- A page whose leaf has COW copied to a frame of the pool (R198): the leaf then names the copy, without COW; a 2 MiB
page is split, so that its other pages stay as they are (log 15). -/
def State.copyTablePage (s : State) (w : Walk) (c : Ctx) : State :=
  match s.walkTables c (w.page * 2 ^ 16) with
  | .error x => s.fill w.requesters { ctx := w.ctx, page := w.page, leaf := 0, bad := some x }
  | .ok (a, l) =>
    if !Leaf.cow l then s.forget w.ctx w.page
    else
      match s.takeFrame w.ctx c with
      | none => s.poolFault w
      | some (f, c, s) =>
        let new := Leaf.make (Leaf.key l).toNat c.poolKind false false (Leaf.ordc l) false (c.poolBase + f) (bits l 0 4)
        let s := s.copyFor w.agent (leafKey l (w.page * 2 ^ 16)) (c.frameKey f)
        let s := s.forget w.ctx w.page
        let leaves := if Leaf.lg l then splitLeaves l new (w.page % 32) else leBytes 8 new.toNat
        { s with mem := s.mem.poke 0 (keyed a leaves) }.chargeAt (agentRegion (Agent.ofKey w.agent)) a 1

/-- Every earlier event of the agent whose write parked has issued, so that the copy may read as that agent (R452): a write of
the page stands parked that follows no event of the queue and none still to come (R186). -/
def State.copyReady (s : State) (w : Walk) : Bool :=
  let q := (s.agent w.agent).q
  match Agent.ofKey w.agent with
  | .seq _ => q.isEmpty
  | _ =>
    let mine := q.filter fun e => e.parked && !e.isRead && e.ctx = w.ctx && e.va / 2 ^ 16 = w.page
    let first (e : Ev) : Bool := !(q.any fun x => precedes (isBlockKey w.agent) x e) &&
      (match blockPlane w.agent with
        | some k => !(s.plane k).earlierMayCome e && !(s.plane k).fenceAhead e
        | none => true)
    mine.isEmpty || mine.any first

/-- COPY_ON_WRITE (R198, R361, R452). -/
def execCopyOnWrite (index : Nat) (s : State) : Res :=
  match s.walks[index]? with
  | none => stall s
  | some w =>
    if !w.copy || !w.granted || !s.copyReady w then stall s
    else
      let s := { s with walks := dropAt s.walks index }
      match s.ctx? w.ctx with
      | none => .next s
      | some c =>
        let va := w.page * 2 ^ 16
        match c.kvWindow with
        | some (base, span) =>
          if base ≤ va && va < base + 65536 * span then
            .next (s.copyBranchPage w c ((va - base) / span) ((va - base) % span / 2 ^ 16))
          else .next (s.copyTablePage w c)
        | none => .next (s.copyTablePage w c)

/-! ### Barriers at their home (R319 to R322) -/

/-- Branch b is `root`, or comes down from it through at most `fuel` parents. -/
def Ctx.within (c : Ctx) (root : Nat) : Nat → Nat → Bool
  | 0, b => b = root
  | fuel + 1, b => b = root || (b != 0 && Ctx.within c root fuel (c.branch b).parent)

/-- Branch b is `root` or a descendant of it. -/
def Ctx.below (c : Ctx) (root b : Nat) : Bool := c.within root (c.branch b).depth b

/-- Live branches of a context. -/
def Ctx.liveBranches (c : Ctx) : List Nat := (c.branches.map fun e => e.1).filter c.isLive

/-- The object that `bnew` writes, from its descriptor: P, SCOPE, TREE and EXP or ROOT, still without the members of a
tree (R320). -/
def BarObj.ofDescriptor (w : Word) : BarObj :=
  let tree := bitAt w 19
  let exp := if tree then 0 else (bits w 32 32).toNat
  { rem := #v[exp, exp, exp, exp], root := if tree then (bits w 32 16).toNat else 0, exp, exh := false
    scope := (bits w 16 3).toNat, tree, last := bits w 0 16 - 1 }

/-- Physical key of a virtual address as the walkers reach it, where it has one. -/
def State.homeKey (s : State) (c : Ctx) (va : Nat) : Option Nat := (s.homeLeaf c va).map fun l => leafKey l va

/-- The object that a branch's entry records has EXH = 1 (R320); one that cannot be reached counts as not exhausted. -/
def State.exhaustedAt (s : State) (c : Ctx) (va : Nat) : Bool :=
  match s.homeKey c va with
  | some key => bitAt (s.mem.coLast (key + 2)) 7
  | none => false

/-- The RMW of `bnew`: a tree's members are recorded, and counted (R320). -/
def State.createObject (s : State) (e : Ev) (w : Word) : Except Cause (List Byte × State) :=
  let o := BarObj.ofDescriptor w
  if !o.tree then .ok (o.toBytes, s)
  else
    match s.ctx? e.ctx with
    | none => .error .barval
    | some c =>
      let live := c.liveBranches
      let line := live.filter fun b => c.below o.root b || c.below b o.root
      if !c.isLive o.root || line.any fun b => (match (c.branch b).bar with | some va => !s.exhaustedAt c va | none => false) then
        .error .barval
      else
        let members := live.filter fun b => b != o.root && c.below o.root b
        let n := members.length
        let c := members.foldl
          (fun c b => c.setBranch b { c.branch b with bar := some e.va, barph := o.last + 1 }) c
        let c := c.setBranch o.root { c.branch o.root with rootOf := some e.va }
        let o := if n = 0 then { o with exh := true, last := o.last + 4 } else { o with exp := n, rem := #v[n, n, n, n] }
        .ok (o.toBytes, s.setCtx e.ctx c)

/-- A child of ROOT or of a member joins (R322): an exhausted object gains no members. -/
def joinMember (o : BarObj) (c : Ctx) (va b : Nat) : BarObj × Ctx :=
  let parent := c.branch (c.branch b).parent
  if o.exh || !o.tree then (o, c)
  else
    let inherits := parent.bar == some va
    if !inherits && o.root != (c.branch b).parent then (o, c)
    else
      let ph := if inherits then parent.barph else o.last + 1
      (o.member ph true, c.setBranch b { c.branch b with bar := some va, barph := ph })

/-- A member that a resign has killed leaves a tree-bound object, and the phases that it held back complete; an object
that has since been made flat is left alone (R322). -/
def leaveMember (o : BarObj) (c : Ctx) (b : Nat) : BarObj × Ctx :=
  let x := c.branch b
  (if o.tree then (o.member x.barph false).complete 4 else o, c.setBranch b { x with bar := none })

/-- A change of a barrier's members, in one RMW at its home (R322), which charges an access (R461): branches of a context join
or leave; `who` is the region that asks. -/
def State.changeMembers (s : State) (who : Option Nat) (n va : Nat) (join : Bool) (bs : List Nat) : State :=
  match s.ctx? n with
  | none => s
  | some c =>
    let clear : Ctx := if join then c else bs.foldl (fun c b => c.setBranch b { c.branch b with bar := none }) c
    match s.homeKey c va with
    | none => s.setCtx n clear
    | some key =>
      let keys := keysFrom key 32
      match BarObj.ofBytes (keys.map s.mem.coLast) with
      | none => s.setCtx n clear
      | some o =>
        let (o, c) := bs.foldl (fun p b => if join then joinMember p.1 p.2 va b else leaveMember p.1 p.2 b) (o, c)
        let s := s.setCtx n c
        (({ s with mem := s.mem.poke 0 (keys.zip o.toBytes) }).written keys).chargeAt who key 1

/-! ### RMW_PERFORM (S5) -/

/-- A context that holds nothing, for an agent without one. -/
def Ctx.blank : Ctx :=
  { uid := 0, vf := 0, key := 0, state := .resident, ptRoot := 0, fpc := 0, kvw := 0, pwin := 0, ctxres := 0, nbr := 0, area := 0,
    areaKind := 0, chunkCount := 0, poolFrames := 0, poolBase := 0, poolKind := 0, branches := [], chunks := [],
    frames := [], handlers := [], mail := [], mailClosed := true, trigs := lanes fun _ => Trig.empty, sealid := 0,
    slots := [], partition := 0, marked := [] }

/-- What an RMW makes of the bytes that it reads: the new bytes, or a fault (R311, R321). A phase loop that would never
end leaves DONE open (log 16). -/
def State.rmwResult (s : State) (e : Ev) (op : RmwOp) (old : List Byte) : Except Cause (List Byte × State) :=
  match op with
  | .atomic o fl sg x c =>
    .ok (leBytes e.size (atomValue o fl sg (8 * e.size) (BitVec.ofNat 64 (leNat old)) x c).toNat, s)
  | .arrive v n ctx b =>
    match BarObj.ofBytes old with
    | none => .error .barval
    | some o =>
      match arrive o e.va ((s.ctx? ctx).getD Ctx.blank) v n b with
      | .error x => .error x
      | .ok (o', c) =>
        let s := match s.ctx? ctx with | some _ => s.setCtx ctx c | none => s
        if o'.endless then
          let (w, s) := s.freeWord
          .ok ({ o' with last := bits w 0 16 }.toBytes, s)
        else .ok (o'.toBytes, s)
  | .create x => s.createObject e (bits x 0 64)

/-- The REQ field of a home unit's report (Table 15-3). -/
def requester (a ctx : Nat) : Word :=
  let kind : Nat := match Agent.ofKey a with
    | .block .. => 0
    | .seq q => if q < 128 then 1 else 3
    | .job .. => 2
    | .host _ => 4
    | .gone _ l _ => if l = 0 then 0 else 2
  (0 : BitVec 32) ++ BitVec.ofNat 16 ctx ++ BitVec.ofNat 8 kind ++ (0 : BitVec 1) ++ BitVec.ofNat 7 (agentHome a)

/-- An RMW at a home unit that covers a watched byte is reported to the home's root core (R393, R394). -/
def State.homeWatch (s : State) (a : Nat) (e : Ev) : State :=
  let hit := e.pieces.any fun p => s.watches.any fun w => w.line = p.key / 16 && bitAt w.mask (p.key % 16)
  if !hit then s
  else
    let key := (e.pieces.head?.map fun p => p.key).getD 0
    match (homeOf key).bind Home.board with
    | none => s
    | some board =>
    s.sendToken (rootOf board)
      (faultToken Cause.watch.code 0xFF 0 (BitVec.ofNat 16 e.ctx) (agentHome a) false (BitVec.ofNat 64 e.va) 0 0 0 0
        (requester a e.ctx))

/-- A value on its way back to an agent's destination. -/
def State.answer (s : State) (a : Nat) (r : Ret) : State :=
  let g := s.agent a
  if r.dest == .none then s else s.setAgent a { g with rets := g.rets ++ [r] }

/-- RMW_PERFORM (S5): the last write in co is read, and the new bytes are appended, visible to every agent. -/
def execRmwPerform (agent index : Nat) (s : State) : Res :=
  let g := s.agent agent
  match g.rmws[index]? with
  | none => stall s
  | some e =>
    match e.kind with
    | .rmw op =>
      -- RMWs that name a common byte are performed in the order of their issue (R314)
      if s.kvVoid agent e then
        .next ((s.setAgent agent { g with rmws := dropAt g.rmws index }).answer agent { dest := e.dest, bytes := [], tag := 0, bad := none })
      else if g.buf.any (fun w => overlaps w e) || (g.rmws.take index).any (fun x => overlaps x e) || !s.linked e then stall s
      else
        let keys := e.pieces.map fun p => p.key
        let old := keys.map s.mem.coLast
        let s := s.setAgent agent { g with rmws := dropAt g.rmws index }
        (match s.rmwResult e op old with
          | .error c => .next (s.answer agent { dest := e.dest, bytes := old, tag := 0, bad := some c })
          | .ok (new, s) =>
            let w : MWrite := { id := e.id, org := agent, cells := keys.zip new, tag := none, level := 5, ord := e.ord, plain := false }
            let s := { s with mem := s.mem.append w }
            let s := (s.written keys).homeWatch agent e
            let s := match Agent.ofKey agent with
              | .job r j => s.jobWatch r j e
              | _ => s
            .next (s.answer agent { dest := e.dest, bytes := old, tag := 0, bad := none }))
    | _ => stall s

/-! ### LOAD_RETURN (R330, R195) -/

/-- A returned value extended from its own width. -/
def returned64 (sx : Bool) (bs : List Byte) : Word :=
  let n := 8 * bs.length
  let v := leNat bs
  if sx && n < 64 && 2 ^ n ≤ 2 * v then BitVec.ofInt 64 ((v : Int) - (2 ^ n : Nat)) else BitVec.ofNat 64 v

/-- A node's flight with an identity changed, whether it is being processed or waits to leave. -/
def Node.mapFlight (n : Node) (id : Nat) (g : Flight → Flight) : Node :=
  { n with cur := n.cur.map (fun c => if c.id = id then g c else c)
           fly := n.fly.map fun c => if c.id = id then g c else c }

/-- A node of a plane changed. -/
def State.mapNode (s : State) (plane slot : Nat) (g : Node → Node) : State :=
  let pl := s.plane plane
  match Tab.find? pl.nodes slot with
  | some n => s.setPlane plane { pl with nodes := Tab.put pl.nodes slot (g n) }
  | none => s

/-- Element type of a node's word. -/
def Node.ty (n : Node) : ElemTy := (ElemTy.ofCode (((fabricFields n.word).map fun f => f.ty.code).getD 0)).getD .b32

/-- A lane's value has returned: for an `atom` or `ld` its container; a fault of an RMW stops the node at the lane. -/
def Node.laneReturn (n : Node) (id i : Nat) (r : Ret) : Node :=
  n.mapFlight id fun c =>
    { c with tok := { c.tok with payload := vput c.tok.payload i (containerOf n.ty (leNat r.bytes)) }
             waiting := setBit c.waiting i false }

/-- A whole span, or a barrier object, has returned. -/
def Flight.spanReturn (r : Ret) (c : Flight) : Flight := { c with got := some (r.bytes, r.tag), waiting := 0 }

/-- An arrival of a node has raised a fault and changed nothing: the node stops at the record (R325). -/
def Node.spanBad (n : Node) (newId id : Nat) (cause : Cause) (va : Nat) : Node :=
  match n.cur with
  | some c =>
    if c.id = id then
      let c := { c with lane := c.low, waiting := 0 }
      n.split c newId
        { cause, addr := BitVec.ofNat 64 va, aux := 0, pos := lanePos c.src.valid n.pos c.low, after := none }
    else n
  | none => n

/-- The address of a node's flight: BASE of its pattern at the launch, and the offset of its lowest live lane. -/
def State.flightAddr (s : State) (plane : Nat) (n : Node) : Nat :=
  let pl := s.plane plane
  let a : At := { region := plane / 4, plane, slot := 0, node := n, pl }
  match fabricFields n.word, n.cur with
  | some f, some c => a.base f + (c.src.at c.low).toNat
  | _, _ => 0

/-- A value that a job's run, gather lane or arrival has awaited. -/
def State.jobReturn (s : State) (r e index : Nat) (x : Ret) : State :=
  if 2 ^ 60 ≤ index then
    match x.bad, Tab.find? (s.region r).jobs e with
    | some c, some j =>
      let va := match j.kind with | .acpy _ _ (some a) => a | _ => 0
      s.jobFault r e j c va
    | _, _ => s
  else
    let s := s.jobFlight r e index fun p c =>
      if p.isGather then
        let i := index % 16
        { c with tok := { c.tok with payload := vput c.tok.payload i (containerOf p.ty (leNat x.bytes)) }
                 waiting := setBit c.waiting i false }
      else { c with got := some (x.bytes, x.tag), waiting := 0 }
    s.copyOn r e

/-- The instruction at which a sequencer waits gets its value or its fault. -/
def Seq.waitReturn (v : Seq) (r : Ret) : Seq :=
  match v.wait with
  | .event ip n id hit _ => v.setWait (.event ip n id hit (some (r.bytes, r.bad)))
  | .timed ip left _ asleep => v.setWait (.timed ip left (some (BitVec.ofNat 64 (leNat r.bytes))) asleep)
  | _ => v

/-- An arrival whose sequencer has gone on is refused at the home, which another agent has changed since: the fault is a
pending event of the sequencer (DESIGN CHOICE, log 17). -/
def State.lateFault (s : State) (q : Nat) (c : Cause) (va : Word) : State :=
  let v := s.seq q
  s.setSeq q { v with
    estat := if EStat.inh v.estat then v.estat ||| 4 else v.estat
    pendFault := match v.pendFault with | some x => some x | none => some (c, va) }

/-- A value reaches its destination. -/
def State.giveTo (s : State) (r : Ret) : State :=
  match r.dest with
  | .none => s
  | .sreg q priv d sx =>
    let v := s.seq q
    s.setSeq q ((v.writeBank priv d (returned64 sx r.bytes)).setOut priv d false)
  | .greg k g =>
    let pl := s.plane k
    let v := s.seq (k / 4)
    let s := s.setPlane k { pl with g := vput pl.g g.toNat (BitVec.ofNat 256 (leNat r.bytes)) }
    s.setSeq (k / 4) { v with outG := setBit v.outG g.toNat false }
  | .creg k c =>
    let pl := s.plane k
    let v := s.seq (k / 4)
    let s := s.setPlane k { pl with c := vput pl.c c.toNat (BitVec.ofNat 256 (leNat r.bytes)) }
    s.setSeq (k / 4) { v with outC := setBit v.outC c.toNat false }
  | .lane k slot id i => s.mapNode k slot fun n => n.laneReturn id i r
  | .span k slot id =>
    match r.bad, Tab.find? (s.plane k).nodes slot with
    | some c, some m =>
      { s.mapNode k slot fun n => n.spanBad s.nextId id c (s.flightAddr k m) with nextId := s.nextId + 1 }
    | _, _ => s.mapNode k slot fun m => m.mapFlight id (Flight.spanReturn r)
  | .acc k reg slot id =>
    let pl := s.plane k
    let x : Vector Lane 16 := lanes fun i => BitVec.ofNat 32 (leNat ((r.bytes.drop (4 * i)).take 4))
    let s := s.setPlane k { pl with a := vput pl.a reg x }
    s.mapNode k slot fun n => n.mapFlight id (Flight.spanReturn r)
  | .entry k slot key =>
    s.mapNode k slot fun n =>
      { n with tab := n.tab.map fun e => if e.key = key then { e with old := some (BitVec.ofNat 32 (leNat r.bytes)) } else e }
  | .wait q => s.setSeq q ((s.seq q).waitReturn r)
  | .arrival q va =>
    (match r.bad with
      | some c => s.lateFault q c va
      | none => s)
  | .job rg e i => s.jobReturn rg e i r

/-- LOAD_RETURN (R330): a value that has been read reaches its destination; values may return in any order. -/
def execLoadReturn (agent index : Nat) (s : State) : Res :=
  let g := s.agent agent
  match g.rets[index]? with
  | none => stall s
  | some r => .next ((s.setAgent agent { g with rets := dropAt g.rets index }).giveTo r)

end Sys2Proof.Machine
end

