-- ==== Sys2Proof/Machine/SeqSync.lean ====
section
/-!
DEFINITION. The sequencer's atomics, barriers and waits (R315, R320, R323, R324, R326).
An instruction whose event must be performed, or return a value, stands at its IP until it has (R250, R315, R320); its
turn then completes it.
-/

namespace Sys2Proof.Machine

/-! ### The instruction at IP and its event -/

/-- Where the instruction at IP stands with its event. -/
inductive Stage where
  | fresh
  | pending
  /-- the event has returned; `n` is 0 when it was not the instruction's last -/
  | back (n : Nat) (bs : List Byte) (bad : Option Cause) (hit : Option (Nat × Word))
  deriving DecidableEq, Repr

def Seq.stage (v : Seq) : Stage :=
  match v.wait with
  | .event ip n _ hit got =>
    if ip != v.ip then .fresh
    else match got with
      | none => .pending
      | some (bs, bad) => .back n bs bad hit
  | _ => .fresh

/-- The precise trap WATCH of a sequencer's store of n bytes of code, whose IP has moved past it (R383, R394). -/
def State.watchTrap (s : State) (q n i : Nat) (addr : Word) : State :=
  let v := s.seq q
  let aux : Word := BitVec.ofNat 2 i ++ (0 : BitVec 10) ++ bits (v.ip - BitVec.ofNat 64 n) 0 52
  (s.setSeq q { v with fltaux := aux }).takeTrap q .watch addr v.ip

/-- The event has been performed: the wait ends, the IP moves on, and a watchpoint that was hit is reported (R394). -/
def State.doneWait (s : State) (q n : Nat) (hit : Option (Nat × Word)) : State :=
  let v := s.seq q
  let s := (s.setSeq q (v.setWait .none)).advance q n
  match hit with
  | some (i, a) => s.watchTrap q n i a
  | none => s

/-- The RMW has raised a fault and changed nothing: a precise trap (R321, R328). -/
def State.rmwTrap (s : State) (q : Nat) (c : Cause) (addr : Word) : State :=
  (s.setSeq q ((s.seq q).setWait .none)).raise q c addr

/-- An RMW placed, at which the instruction of n bytes waits. -/
def State.callHome (s : State) (q n : Nat) (va : Word) (size : Nat) (p : Phys) (op : RmwOp) (acq rel : Bool) (sc : Scope) :
    State :=
  let e := { s.seqEvent q va size p (.rmw op) with acq, rel, scope := sc, dest := .wait q }
  (s.place q e).await q n s.nextId (s.seqHit q va size)

/-! ### satom (R315) -/

/-- `satom` (R315): no further instruction issues until m has returned. -/
def execSatom (d a b c : SReg) (op : AtomOp) (wide : Bool) (ord : AtomOrd) (sc : Scope) (ty : SatomTy) (s : State) : Res :=
  issueAs s .user false fun q =>
    let v := s.seq q
    let n := if wide then 8 else 4
    let va := v.read a
    match v.stage with
    | .pending => stall s
    | .back _ bs _ hit =>
      let s := s.setSeq q (v.write d (returned (ty == .signed) bs))
      .next (s.doneWait q 8 hit)
    | .fresh =>
      if !v.allReady [d, a, b, c] then stall s
      else
        match s.reach q (reqLoad q) va n .atomic with
        | .out t => .next t
        | .void => .next (s.finish q d 0 8)
        | .to p =>
          .next (s.callHome q 8 va n p (.atomic op (ty == .float) (ty == .signed) (v.read b) (v.read c))
            (ord == .acq || ord == .ar) (ord == .rel || ord == .ar) sc)
where
  /-- a returned value extended from its own width -/
  returned (sx : Bool) (bs : List Byte) : Word :=
    if bs.length = 4 then
      let x : Lane := BitVec.ofNat 32 (leNat bs)
      if sx then x.signExtend 64 else x.setWidth 64
    else BitVec.ofNat 64 (leNat bs)

/-! ### Barriers (R320, R323, R324) -/

/-- Address checks of a barrier operation: VARANGE, then BARVAL unless 32-aligned, then the translation. -/
def State.reachObject (s : State) (q : Nat) (va : Word) (use : Use) : Reach :=
  if va.toNat < 2 ^ 52 && va.toNat % 32 != 0 then .out (s.raise q .barval va) else s.reach q (reqLoad q) va 32 use

/-- The arrival at which a sequencer waits has issued, and the object as its home holds it takes it: the sequencer goes on
(R324). Where the home would refuse it, the sequencer waits, and the fault is a precise trap. -/
def State.arrivalIssued (s : State) (q : Nat) (va : Word) : Option State :=
  let g := s.agent q
  (g.rmws.findIdx? fun e => e.dest == .wait q).bind fun i => (g.rmws[i]?).bind fun e =>
    match e.kind with
    | .rmw op =>
      if (g.rmws.take i).any fun x => overlaps x e then none
      else match s.rmwResult e op (e.pieces.map fun p => s.mem.coLast p.key) with
        | .ok _ => some (s.setAgent q { g with rmws := g.rmws.set i { e with dest := .arrival q va } })
        | .error _ => none
    | _ => none

/-- `sarrv` (R324): a release arrival first reads the object's SCOPE, and waits at that scope (R323). The sequencer goes
on once the RMW has issued, unless the home would refuse it (log 17); at a watchpoint it waits for its performance (R394). -/
def execSarrv (d a b : SReg) (rel : Bool) (s : State) : Res :=
  issueAs s .user false fun q =>
    let v := s.seq q
    let va := v.read a
    let count := if d = 0 then 1 else (v.read d).toNat
    let phase : Option (BitVec 16) := if b = 0 then none else some (bits (v.read b) 0 16)
    let arriveAt (s : State) (sc : Scope) : Res :=
      match s.reachObject q va .atomic with
      | .out t => .next t
      | .void => .next (s.doneWait q 4 none)
      | .to p => .next (s.callHome q 4 va 32 p (.arrive phase count (s.ctxNo q) v.branch) false rel sc)
    match v.stage with
    | .pending =>
      (match s.arrivalIssued q va, v.wait with
        | some t, .event _ _ _ none _ => .next (t.doneWait q 4 none)
        | _, _ => stall s)
    | .back n bs bad hit =>
      (match bad with
        | some c => .next (s.rmwTrap q c va)
        | none => if n = 0 then arriveAt s (scopeRead bs) else .next (s.doneWait q 4 hit))
    | .fresh =>
      if !v.allReady [d, a, b] then stall s
      else if !rel then
        if 2 ^ 32 ≤ count then .next (s.raise q .barcnt va) else arriveAt s .rgn
      else
        match s.reachObject q va .read with
        | .out t => .next t
        | .void => .next (s.advance q 4)
        | .to p =>
          if 2 ^ 32 ≤ count then .next (s.raise q .barcnt va)
          else
            let e := { s.seqEvent q va 32 p .read with dest := .wait q, watched := false }
            .next ((s.place q e).await q 0 s.nextId none)

/-- A read that a wait has placed and whose value has not come back. -/
def State.waitReads (s : State) (q : Nat) : Bool :=
  (s.agent q).q.any (fun e => e.dest == .wait q) || (s.agent q).rets.any fun r => r.dest == .wait q

/-- A wait that reads: it places its read, sleeps after a read that does not end it, and reads again after a wake
(R324, R326). `left`: the cycles that it may still wait; `ends` the verdict on the value read. -/
def waitRead (s : State) (q : Nat) (va : Word) (n : Nat) (acq : Bool) (sc : Scope) (limit : Option Nat) (reach : Reach)
    (ends : Word → Bool) (done : State → Bool → Res) : Res :=
  let v := s.seq q
  let place (left : Option Nat) : Res :=
    match reach with
    | .out t => .next t
    | .void => .next (s.setSeq q (v.setWait (.timed v.ip left (some 0) false)))
    | .to p =>
      let e := { s.seqEvent q va n p .read with acq, scope := sc, dest := .wait q, watched := false }
      .next ((s.setSeq q (v.setWait (.timed v.ip left none false))).place q e)
  match v.wait with
  | .timed ip left seen asleep =>
    if ip != v.ip then place limit
    else if asleep || s.waitReads q then stall s
    else
      match seen with
      | none => place left
      | some m =>
        let stop (b : Bool) : Res := done (s.setSeq q (v.setWait .none)) b
        if ends m then stop true
        else if left = some 0 then stop false
        else .next (s.setSeq q (v.setWait (.timed ip left none true)))
  | _ => if s.waitReads q then stall s else place limit

/-- `swaitp` (R324): an acquire that reads the object until the phase is complete. -/
def execSwaitp (a b : SReg) (s : State) : Res :=
  issueAs s .user false fun q =>
    let v := s.seq q
    if !v.allReady [a, b] then stall s
    else
      let va := v.read a
      waitRead s q va 32 true .sys none (s.reachObject q va .read)
        (fun m => waitOver (leBytes 8 m.toNat) (bits (v.read b) 0 16))
        (fun s _ => .next (s.advance q 4))

/-- `waita` (R326): it reads until the condition holds, or until its cycles have passed and one more read has failed. -/
def execWaita (d a b c : SReg) (cond : Cond) (sc : Scope) (acq : Bool) (s : State) : Res :=
  issueAs s .user false fun q =>
    let v := s.seq q
    if !v.allReady [d, a, b, c] then stall s
    else
      let va := v.read a
      let limit : Option Nat := if v.read c = BitVec.allOnes 64 then none else some (v.read c).toNat
      if va.toNat % 8 != 0 then .next (s.raise q .align va)
      else
        waitRead s q va 8 acq sc limit (s.reach q (reqLoad q) va 8 .read)
          (fun m => compareHolds cond m (v.read b))
          (fun s ok => .next (s.finish q d (if ok then 1 else 0) 8))

/-- A descriptor that `bnew` accepts, but for its tree (R320). -/
def descriptorOk (w : Word) : Bool :=
  let sc := (bits w 16 3).toNat
  1 ≤ sc && sc ≤ 5 && bits w 20 12 == 0 && (if bitAt w 19 then bits w 48 16 == 0 else bits w 32 32 != 0)

/-- `bnew` (R320): the sequencer stalls until the RMW has been performed. -/
def execBnew (a b : SReg) (s : State) : Res :=
  issueAs s .user false fun q =>
    let v := s.seq q
    let va := v.read a
    match v.stage with
    | .pending => stall s
    | .back _ _ bad hit =>
      (match bad with
        | some c => .next (s.rmwTrap q c va)
        | none => .next (s.doneWait q 4 hit))
    | .fresh =>
      if !v.allReady [a, b] then stall s
      else if va.toNat < 2 ^ 52 && (va.toNat % 32 != 0 || !descriptorOk (v.read b)) then .next (s.raise q .barval va)
      else
        match s.reach q (reqLoad q) va 32 .atomic with
        | .out t => .next t
        | .void => .next (s.advance q 4)
        | .to p => .next (s.callHome q 4 va 32 p (.create ((v.read b).setWidth 256)) false false .rgn)

/-! ### WAIT_WAKE and WAIT_TIMEOUT -/

/-- A sleeping wait is awake: it reads or looks again. -/
def Seq.wake (v : Seq) : Seq :=
  match v.wait with
  | .timed ip left seen true => v.setWait (.timed ip left seen false)
  | _ => v

/-- WAIT_WAKE (R324, R326, R373): a completion, a write, a notify or the end of a child wakes the waiter, which looks
again; a wake without a cause changes nothing that a program sees (log 18). -/
def execWaitWake (q : Nat) (s : State) : Res := .next (s.setSeq q (s.seq q).wake)

/-- WAIT_TIMEOUT (R326, R373): the limit, or the 2,048 cycles between reads, have passed. -/
def execWaitTimeout (q : Nat) (s : State) : Res := .next (s.setSeq q (s.seq q).wake)

end Sys2Proof.Machine
end

