-- ==== Sys2Proof/Machine/Butterfly.lean ====
section
/-!
DEFINITION. The butterfly instructions (R258 to R284): stage registers, weight loads, chains, accumulators, rate limits,
array images, `bfin` and `bfout`; and the events COLUMN_FIRE, ARRAY_DRAIN, CHAIN_COMPLETE and RATE_WINDOW.
-/

namespace Sys2Proof.Machine

/-! ### bstg, bwld, bchn -/

/-- `bstg` (R279). -/
def execBstg (h : HReg) (a : SReg) (s : State) : Res :=
  issueAs s .user false fun q =>
    let v := s.seq q
    if !v.ready a then stall s
    else withPlane s q fun k =>
      let w := v.read a
      if !Stage.legal w then .next (s.raise q .baval 0)
      else
        let pl := s.plane k
        .next ((s.setPlane k { pl with h := vput pl.h h.toNat w }).advance q 4)

/-- Address of a slice in the weight window of a region (R252). -/
def sliceAddr (wwin : Word) (a col : Nat) : Nat := wwin.toNat + a * 2 ^ 22 + col * 2 ^ 16

/-- `bwld` (R280): the codebook is taken at issue; a job of the scoreboard does the rest. -/
def execBwld (sc : Scope) (d a b : SReg) (arr : ArrSel) (col : BitVec 6) (off : BitVec 10) (n : CReg) (s : State) : Res :=
  issueAs s .user false fun q =>
    let v := s.seq q
    if !v.allReady [d, a, b] || v.regBusy false n.toNat then stall s
    else withPlane s q fun k =>
      let src := (v.read a).toNat
      let len := (v.read b).toNat
      if src % 64 != 0 || len % 64 != 0 || 65536 < 64 * off.toNat + len then .next (s.raise q .baval 0)
      else
        match (s.region q).freeEntry with
        | none => stall s
        | some e =>
          let ctx := s.ctxNo q
          let at_ (x : Nat) : Nat := sliceAddr (s.region q).wwin x col.toNat + 64 * off.toNat
          let w := (ArrSel.list arr).map fun x => ({ lo := at_ x, hi := at_ x + len, wr := true } : JobRange)
          let card := if len = 0 then [] else { lo := src, hi := src + len, wr := false } :: w
          let kind := JobKind.bwld src len arr col.toNat off.toNat n.toNat (vget (s.plane k).c n.toNat 0)
          let j := Job.fresh kind card q (tokenReg v d) sc ctx (k % 4) (s.envOf ctx)
          .next ((s.enterJob q e j v.ip).advance q 8)

/-- Stage words of a chain (R260), from a register and a column: none where the runs would pass column 63. -/
def buildChain (h : Vector Word 8) : Nat → Nat → Nat → Option (List Word)
  | 0, _, _ => none
  | fuel + 1, reg, col =>
    let w := vget h reg 0
    let n := Stage.run w
    if 64 < col + n then none
    else
      let run := List.replicate n w
      if Stage.last w then some run else (buildChain h fuel (Stage.next w) (col + n)).map fun rest => run ++ rest

/-- Bytes of a column's spill range (R265): 64 bytes times the largest 2h × G, rounded up to a power of two. The model's choice
(log 134): only columns of token unit count, since those of lane unit hold no pair. -/
def spillSize (ws : List Word) (g : Nat) : Nat :=
  let m := (ws.filter Stage.unit).foldl (fun m w => max m (Stage.span w g)) 1
  64 * (if 2 ^ m.log2 = m then m else 2 ^ (m.log2 + 1))

/-- The checks of `bchn` on an array's columns (R281). -/
def chainFits (b : BArray) (c0 : Nat) (ws : List Word) : Bool :=
  ((List.range ws.length).zip ws).all fun (j, w) => (b.col (c0 + j)).accepts w

/-- The columns of a chain with their words, empty (R260). -/
def BArray.bindTo (b : BArray) (k : BaBind) (ws : List Word) : BArray :=
  let b := ((List.range ws.length).zip ws).foldl
    (fun b (j, w) => b.touch (k.c0 + j) { (b.col (k.c0 + j)).empties with word := w }) b
  { b with bind := some k, inq := [], outq := [], eotIn := false, eotOut := false, groupIn := 0, groupOut := 0
           cfgOpen := true, turnIn := 0, turnOut := 0, faulted := false, flags := 0 }

/-- The two words of a `bchn` (Table 10-7). -/
def bchnWords (sc : BitVec 3) (d : SReg) (h : HReg) (b : SReg) (arr : ArrSel) (c0 gm1 : BitVec 6) : Lane × Lane :=
  (srWord 0x52 d (q5 h) b ((0 : BitVec 4) ++ sc ++ arr.code), c0 ++ gm1 ++ (0 : BitVec 20))

/-- The ranges of a chain's card (R281): R over its slices in each array, W over its spill range. -/
def chainRanges (wwin : Word) (arr : ArrSel) (c0 g z : Nat) (spill : Option Nat) (ws : List Word) : List JobRange :=
  let n := ws.length
  let reads := (ArrSel.list arr).map fun x =>
    let lo := sliceAddr wwin x c0
    ({ lo, hi := lo + n * 65536, wr := false } : JobRange)
  let writes : List JobRange := match spill with
    | some a => if ws.any fun w => Stage.unit w && 64 < Stage.span w g
      then [{ lo := a, hi := a + n * z * (if arr == .ba01 then 2 else 1), wr := true }] else []
    | none => []
  reads ++ writes

/-- The state after a chain has been bound: its job, its card (R over the slices, W over the spill range), its columns. -/
def State.bindChain (s : State) (q e : Nat) (k : Nat) (token : Option (Bool × SReg)) (words : Lane × Lane)
    (arr : ArrSel) (sc : Scope) (c0 g : Nat) (spill : Option Nat) (ws : List Word) : State :=
  let v := s.seq q
  let ctx := s.ctxNo q
  let env := s.envOf ctx
  let n := ws.length
  let both := arr == .ba01
  let z := spillSize ws g
  let j := Job.fresh (.bchn arr) (chainRanges (s.region q).wwin arr c0 g z spill ws) q token sc ctx (k % 4) env
  let s := s.enterJob q e j v.ip
  let b : BaBind :=
    { w1 := words.1, w2 := words.2, c0, n, g, spill, z, both, sfl := env.sfl, rfl := env.rfl
      job := (s.region q).serial, plane := k % 4, scope := sc }
  (ArrSel.list arr).foldl (fun s x => s.setArr q x ((s.arr q x).bindTo b ws)) s

/-- `bchn` (R281). -/
def execBchn (sc : BitVec 3) (d : SReg) (h : HReg) (b : SReg) (arr : ArrSel) (c0 gm1 : BitVec 6) (s : State) : Res :=
  issueAs s .user false fun q =>
    let v := s.seq q
    if !v.allReady [d, b] then stall s
    else withPlane s q fun k =>
      let arrs := (ArrSel.list arr).map (s.arr q)
      let g := gm1.toNat + 1
      let spill : Option Nat := if b = 0 then none else some (v.read b).toNat
      if arrs.any (·.stopped) then .next (s.raise q .baval 0)
      else if arrs.any (·.bind.isSome) then stall s
      else
        match buildChain (s.plane k).h 65 h.toNat c0.toNat with
        | none => .next (s.raise q .baval 0)
        | some ws =>
          let spans := (ws.filter Stage.unit).map fun w => Stage.span w g
          let needs := spans.any fun n => 64 < n
          let spillBad := match spill with | some a => a % 64 != 0 | none => true
          if spans.any (fun n => 8192 < n) || (needs && spillBad) || arrs.any (fun x => !chainFits x c0.toNat ws) then
            .next (s.raise q .baval 0)
          else
            match (s.region q).freeEntry with
            | none => stall s
            | some e =>
              .next ((s.bindChain q e k (tokenReg v d) (bchnWords sc d h b arr c0 gm1) arr
                ((jobScopeOfCode sc).getD .rgn) c0.toNat g spill ws).advance q 8)

/-! ### bacc and brate -/

/-- What `bacc` and `bdrn.sv` check of their arrays: stopped is BAVAL, a chain in flight stalls (R271). -/
def withArrays (s : State) (q : Nat) (arr : ArrSel) (f : Res) : Res :=
  let arrs := (ArrSel.list arr).map (s.arr q)
  if arrs.any (·.stopped) then .next (s.raise q .baval 0)
  else if arrs.any (·.bind.isSome) then stall s
  else f

/-- `bacc.clr` (R282). -/
def execBaccClr (b : SReg) (arr : ArrSel) (s : State) : Res :=
  issueAs s .user false fun q =>
    let v := s.seq q
    if !v.ready b then stall s
    else withPlane s q fun _ =>
      let col := (v.read b).toNat
      if 64 ≤ col then .next (s.raise q .baval 0)
      else
        withArrays s q arr <|
          .next (((ArrSel.list arr).foldl
            (fun s a =>
              let x := s.arr q a
              s.setArr q a (x.touch col { x.col col with acc := Vector.replicate 64 (Vector.replicate 16 0) }))
            s).advance q 4)

/-- The place at which a long write or read of a sequencer goes on: `start` when it is new (R251, R272, R282). -/
def Seq.rangeAt (v : Seq) (start : Nat) : Nat :=
  match v.wait with
  | .range ip next => if ip = v.ip then next else start
  | _ => start

/-- One 64-byte write of a sequencer, or the state in which it traps or waits. -/
def State.writeLine (s : State) (q : Nat) (va : Nat) (bs : List Byte) : State ⊕ State :=
  if 16 ≤ s.storesHeld q then .inr s
  else
    match s.reach q (reqLoad q) (BitVec.ofNat 64 va) 64 .write with
    | .out t => .inr t
    | .void => .inl s
    | .to p => .inl (s.place q ((s.seqEvent q (BitVec.ofNat 64 va) 64 p .write).withBytes bs))

/-- `bacc.rd` (R282): 64 writes of 64 bytes in ascending order. -/
def execBaccRd (a b : SReg) (arr : ArrSel) (s : State) : Res :=
  issueAs s .user false fun q =>
    let v := s.seq q
    if !v.allReady [a, b] then stall s
    else withPlane s q fun _ =>
      let col := (v.read b).toNat
      let base := (v.read a).toNat
      if base % 64 != 0 || 64 ≤ col then .next (s.raise q .baval 0)
      else
        withArrays s q arr <|
          let i := v.rangeAt 0
          let acc := ((s.arr q (((ArrSel.list arr).head?).getD 0)).col col).acc
          match s.writeLine q (base + 64 * i) (laneBytes (vget acc i Token.empty.payload)) with
          | .inr t => .next t
          | .inl s =>
            if i < 63 then .next (s.setSeq q ((s.seq q).setWait (.range v.ip (i + 1))))
            else .next ((s.setSeq q ((s.seq q).setWait .none)).advance q 4)

/-- `brate` (R283, R460): while the power manager holds the region, the value is recorded as the one to write back. -/
def execBrate (a b : SReg) (unit : BitVec 4) (s : State) : Res :=
  issueAs s .privileged false fun q =>
    let v := s.seq q
    if !v.allReady [a, b] then stall s
    else
      let n := (v.read a).toNat
      let w := (v.read b).toNat
      if 65535 < n || w < 256 || 65536 < w then .next (s.raise q .baval 0)
      else
        let g := s.region q
        let old := vget g.limits unit.toNat Limiter.empty
        let l : Limiter := if g.held then { old with set := (n, w) } else { a := n, w, admitted := 0, set := (n, w) }
        .next ((s.setRegion q { g with limits := vput g.limits unit.toNat l }).advance q 4)

/-! ### Array images (R272, R273, R284) -/

/-- Bytes of an array image, and its lines of 64 bytes. -/
def imageLines : Nat := 8256

/-- A line's place in the image: 0 the header, 1 to 16 the column table, or a token of an accumulator or pair buffer. -/
inductive ImageLine where
  | header | columns (first : Nat) | zero
  | acc (col token : Nat)
  | pair (col token : Nat)
  deriving DecidableEq, Repr

def imageLine (i : Nat) : ImageLine :=
  if i = 0 then .header
  else if i ≤ 16 then .columns (4 * (i - 1))
  else if i < 64 then .zero
  else
    let c := (i - 64) / 128
    let t := (i - 64) % 128
    if t < 64 then .acc c t else .pair c (t - 64)

/-- A column has a dirty line. -/
def Column.anyDirty (c : Column) : Bool := c.dirty || c.dirtyAcc != 0 || c.dirtyPair != 0

/-- SPILL of the image header (Table 10-4). The model's choice (log 135): its four bits for the token register hold the low four
of the register's number. -/
def spillWord (s : State) (r : Nat) (k : BaBind) : Word :=
  let flying := (s.chainJob r k).isSome
  (0 : BitVec 4) ++ bit1 flying ++ bits k.w1 2 3 ++ bits k.w1 19 4 ++ BitVec.ofNat 52 (k.spill.getD 0)

/-- The 16 bytes of a column in the column table (Table 10-4). -/
def columnBytes (c : Column) : List Byte :=
  let counters : Word := (0 : BitVec 9) ++ BitVec.ofNat 7 c.pairs.length ++ BitVec.ofNat 24 c.sent ++ BitVec.ofNat 24 c.recv
  leBytes 8 c.word.toNat ++ leBytes 8 counters.toNat

/-- The bytes of a line of an array's image. -/
def State.imageBytes (s : State) (r a : Nat) (imgid baseid : Nat) (dirty : BitVec 64) (i : Nat) : List Byte :=
  let b := s.arr r a
  match imageLine i with
  | .header =>
    let (bind, spill) : Word × Word := match b.bind with
      | some k => (k.w2 ++ k.w1, spillWord s r k)
      | none => (0, 0)
    leBytes 8 imgid ++ leBytes 8 baseid ++ leBytes 8 bind.toNat ++ leBytes 8 spill.toNat ++ leBytes 8 dirty.toNat ++
      List.replicate 24 0
  | .columns c => (List.range 4).flatMap fun j => columnBytes (b.col (c + j))
  | .zero => List.replicate 64 0
  | .acc c t => laneBytes (vget (b.col c).acc t Token.empty.payload)
  | .pair c t => laneBytes (((b.col c).buffer[t]?).map (·.payload) |>.getD Token.empty.payload)

/-- Whether an `.inc` image writes a line (R273). -/
def BArray.writesLine (b : BArray) (i : Nat) : Bool :=
  match imageLine i with
  | .header => true
  | .columns _ => true
  | .zero => false
  | .acc c t => bitAt (b.col c).dirtyAcc t
  | .pair c t => bitAt (b.col c).dirtyPair t

/-- DIRTY of an image: the columns whose lines are written (Table 10-4). The model's choice (log 135): a column of which only
the stage word or the counters have changed counts. -/
def BArray.dirtyMask (b : BArray) (inc : Bool) : BitVec 64 :=
  (List.range 64).foldl (fun v c => if !inc || (b.col c).anyDirty then setBit v c true else v) 0

/-- Every dirty bit of an array cleared (R273). -/
def BArray.clean (b : BArray) : BArray :=
  { b with cols := b.cols.map fun (i, c) => (i, { c with dirty := false, dirtyAcc := 0, dirtyPair := 0 }) }

/-- A line of an array image as the array holds it after a restore (R284). The places of the buffered tokens follow from
the counters: the operands that are still needed. -/
def Column.needed (c : Column) (g : Nat) : List Nat :=
  let span := if Stage.unit c.word then Stage.span c.word g else 1
  ((List.range (2 * span)).map fun i => c.recv - min c.recv (2 * span) + i).filter fun n =>
    n < c.recv && stillNeeded c.word g c.sent n

/-- The column table's 16 bytes restored. -/
def Column.ofBytes (c : Column) (g : Nat) (bs : List Byte) : Column :=
  let w : Word := BitVec.ofNat 64 (leNat (bs.take 8))
  let x : Word := BitVec.ofNat 64 (leNat (bs.drop 8))
  let c := { c with word := w, recv := (bits x 0 24).toNat, sent := (bits x 24 24).toNat }
  let need := c.needed g
  let buffered (n : Nat) : Bool := !Stage.unit w || n % Stage.span w g < 64
  { c with pairs := (need.filter buffered).map fun n => (n, { Token.empty with valid := 0xFFFF })
           spilled := need.filter fun n => !buffered n }

/-- Columns of a chain from the stage words that its columns hold (R260). -/
def chainLength (b : BArray) : Nat → Nat → Nat
  | 0, _ => 0
  | fuel + 1, c =>
    let w := (b.col c).word
    if Stage.last w then Stage.run w else Stage.run w + chainLength b fuel (c + Stage.run w)

/-- The binding of an image's BIND and SPILL words, for the context of a plane. -/
def bindOf (bind spill : Word) (plane job : Nat) (old : Option BaBind) : Option BaBind :=
  if bind = 0 then none
  else
    let w1 : Lane := bits bind 0 32
    let w2 : Lane := bits bind 32 32
    some
      { w1, w2, c0 := (bits w2 26 6).toNat, n := (old.map (·.n)).getD 0, g := (bits w2 20 6).toNat + 1
        spill := if bits w1 9 5 == 0 then none else some (bits spill 0 52).toNat
        z := (old.map (·.z)).getD 0, both := bits w1 0 2 == 2, sfl := (old.map (·.sfl)).getD false
        rfl := (old.map (·.rfl)).getD false, job := (old.map (·.job)).getD job, plane
        scope := (jobScopeOfCode (bits w1 2 3)).getD .rgn }

/-- A line read back into an array (R284). The header comes first, the columns' words after it; the array is stopped until all
its lines have come, so that a `bdrn.ld` that has trapped can be executed again. -/
def BArray.loadLine (b : BArray) (plane job : Nat) (i : Nat) (bs : List Byte) : BArray :=
  let word (o : Nat) : Word := BitVec.ofNat 64 (leNat ((bs.drop o).take 8))
  let g := (b.bind.map (·.g)).getD 1
  match imageLine i with
  | .header => { b with bind := bindOf (word 16) (word 24) plane job b.bind, stopped := true }
  | .zero => b
  | .columns c =>
    (List.range 4).foldl
      (fun b j => b.setCol (c + j) ((b.col (c + j)).ofBytes g ((bs.drop (16 * j)).take 16))) b
  | .acc c t => b.setCol c { b.col c with acc := vput (b.col c).acc t (tokenOfBytes bs).payload }
  | .pair c t =>
    let x := b.col c
    match x.pairs[t]? with
    | some (n, _) => b.setCol c { x with pairs := Tab.put x.pairs n (tokenOfBytes bs) }
    | none => b

/-- The place of the image of the m-th array that a `bdrn` names: BA1's lies at sA + 0x10_0000 under ba01 (R284). -/
def imageAt (base m : Nat) : Nat := base + 0x100000 * m

/-- DRAIN injected at the input of each array that has a chain, ahead of tokens not yet delivered (R284): once for the two
arrays of a chain under ba01. -/
def State.injectDrain (s : State) (q : Nat) (arrs : List Nat) : State :=
  arrs.foldl
    (fun s a =>
      let b := s.arr q a
      match b.bind with
      | none => s.setArr q a { b with draining := true, drained := true }
      | some k =>
        let p := s.arr q (k.port a)
        let s :=
          if p.draining then s
          else s.setArr q (k.port a) { p with draining := true, drained := false, inq := p.inq ++ [Token.mark Mk.drain] }
        if k.port a = a then s else s.setArr q a { b with draining := true, drained := false })
    s

/-- A `bdrn.sv` no longer waits for the array: its DRAIN has left, or the chain has completed before it. -/
def BArray.atDrain (b : BArray) : Bool := b.drained || b.bind.isNone

/-- An array is stopped when its image has been written (R284), and the port of its chain takes no DRAIN any more. -/
def State.stopArray (s : State) (q base : Nat) (y : Nat × Nat) : State :=
  let b := (s.arr q y.2).clean
  let id := b.images + 1
  let s := s.setArr q y.2
    { b with
      stopped := true, draining := false, drained := false, images := id, imageIds := Tab.put b.imageIds (imageAt base y.1) id }
  match b.bind with
  | some k =>
    if k.port y.2 = y.2 then s
    else s.setArr q (k.port y.2) { s.arr q (k.port y.2) with draining := false, drained := false }
  | none => s

/-- `bdrn.sv` (R284): DRAIN through the arrays, then the image, line by line; then the arrays are stopped. -/
def execBdrnSv (a : SReg) (arr : ArrSel) (inc : Bool) (s : State) : Res :=
  issueAs s .user false fun q =>
    let v := s.seq q
    if !v.ready a then stall s
    else withPlane s q fun _ =>
      let base := (v.read a).toNat
      let arrs := ArrSel.list arr
      match v.stage with
      | .pending => stall s
      | .back _ _ _ _ => stall s
      | .fresh =>
        if base % 4096 != 0 || arrs.any (fun x => (s.arr q x).stopped) then .next (s.raise q .baval 0)
        else if arrs.any (fun x => !(s.arr q x).draining) then .next (s.injectDrain q arrs)
        else if arrs.any (fun x => !(s.arr q x).atDrain) then stall s
        else
          let i := v.rangeAt 0
          let m := i / imageLines
          let x := (arrs[m]?).getD 0
          let b := s.arr q x
          let go (s : State) : Res :=
            if i + 1 < imageLines * arrs.length then .next (s.setSeq q ((s.seq q).setWait (.range v.ip (i + 1))))
            else
              let s := ((List.range arrs.length).zip arrs).foldl (fun s y => s.stopArray q base y) s
              .next ((s.setSeq q ((s.seq q).setWait .none)).await q 4 s.lastId none)
          if inc && !b.writesLine (i % imageLines) then go s
          else
            let baseid := if inc then Tab.getD b.imageIds (imageAt base m) 0 else 0
            let bs := s.imageBytes q x (b.images + 1) baseid (b.dirtyMask inc) (i % imageLines)
            match s.writeLine q (imageAt base m + 64 * (i % imageLines)) bs with
            | .inr t => .next t
            | .inl s => go s

/-- An array that a restore has filled runs again: its chain's length and spill size follow from its columns (R260). The
tokens of the row group at the two ports are those that its first column has received and its last has emitted, but for those
that still stand at the output port, since none is in flight (R270); between groups, the turn of ba01 stays as it was (log 118). -/
def State.restartArray (s : State) (q : Nat) (a : Nat) : State :=
  let b := (s.arr q a).clean
  match b.bind with
  | none => s.setArr q a { b with stopped := false, draining := false, drained := false }
  | some k =>
    let n := min (chainLength b 65 k.c0) (64 - k.c0)
    let ws := (List.range n).map fun j => (b.col (k.c0 + j)).word
    let s := s.setArr q a
      { b with bind := some { k with n, z := spillSize ws k.g }, stopped := false, draining := false, drained := false }
    let p := s.arr q (k.port a)
    let took := (b.col k.c0).recv
    let gave := (b.col (k.c0 + n - 1)).sent - (b.outq.filter fun t => t.tok.marker = Mk.data).length
    let turn (t : Nat) : Nat := if k.both && t % 2 != a then t + 1 else t
    let p := if took = 0 && k.both then p else { p with groupIn := took, cfgOpen := took = 0, turnIn := turn p.turnIn }
    let p := if gave = 0 && k.both then p else { p with groupOut := gave, turnOut := turn p.turnOut }
    s.setArr q (k.port a) p

/-- A chain job made again for an image whose job is in flight, where the array has none (R272, R284). The model's choice
(log 119): the image holds neither SFL nor RFL, which come from FPC at `bdrn.ld`, as at a `bchn` (R81). -/
def State.revive (s : State) (q k : Nat) (a : Nat) : State :=
  let b := s.arr q a
  match b.bind, (s.region q).freeEntry with
  | some x, some e =>
    if (s.chainJob q x).isSome then s
    else
      let other := (s.arr q (1 - a)).bind
      let set (y : BaBind) : State := s.setArr q a { b with bind := some { x with job := y.job, sfl := y.sfl, rfl := y.rfl } }
      match (if x.both then other.filter fun y => y.both && (s.chainJob q y).isSome else none) with
      | some y => set y
      | none =>
        let ctx := s.ctxNo q
        let d : SReg := bits x.w1 19 5
        let token : Option (Bool × SReg) := if d = 0 then none else some (false, d)
        let env := s.envOf ctx
        let arr : ArrSel := if x.both then .ba01 else if a = 0 then .ba0 else .ba1
        let ws := (List.range x.n).map fun j => (b.col (x.c0 + j)).word
        let card := chainRanges (s.region q).wwin arr x.c0 x.g x.z x.spill ws
        let s := s.enterJob q e (Job.fresh (.bchn arr) card q token x.scope ctx (k % 4) env) (s.seq q).ip
        s.setArr q a { s.arr q a with bind := some { x with job := (s.region q).serial, sfl := env.sfl, rfl := env.rfl } }
  | _, _ => s

/-- The scoreboard has an entry for each chain job that an image in flight needs (R272). -/
def State.roomToRevive (s : State) (q : Nat) (arrs : List Nat) (f : Nat) : Bool :=
  let lacks := (((List.range arrs.length).zip arrs).filter fun (m, x) => f / 2 ^ m % 2 = 1 &&
    match (s.arr q x).bind with | some k => (s.chainJob q k).isNone | none => false).map Prod.snd
  let n := if lacks.any fun x => match (s.arr q x).bind with | some k => k.both | none => false then 1 else lacks.length
  (s.region q).jobs.length + n ≤ 16

/-- `bdrn.ld` (R284): the image is read line by line; the lines before a fault have been restored. Line i is number
i + 16,512 × f, where bit m of f says that the job of image m was in flight (Table 10-4). -/
def execBdrnLd (a : SReg) (arr : ArrSel) (s : State) : Res :=
  issueAs s .user false fun q =>
    let v := s.seq q
    if !v.ready a then stall s
    else withPlane s q fun k =>
      let base := (v.read a).toNat
      let arrs := ArrSel.list arr
      let at_ (i : Nat) : Nat := imageAt base (i / imageLines) + 64 * (i % imageLines)
      let ask (s : State) (i f : Nat) : Res :=
        let hit : Option (Nat × Word) := some (i, BitVec.ofNat 64 f)
        match s.reach q (reqLoad q) (BitVec.ofNat 64 (at_ i)) 64 .read with
        | .out t => .next t
        | .void => .next (s.setSeq q ((s.seq q).setWait (.event v.ip 0 0 hit (some (List.replicate 64 0, none)))))
        | .to p =>
          let e := { s.seqEvent q (BitVec.ofNat 64 (at_ i)) 64 p .read with dest := .wait q, watched := false }
          .next ((s.place q e).await q 0 s.nextId hit)
      match v.stage with
      | .pending => stall s
      | .fresh =>
        if base % 4096 != 0 || arrs.any (fun x => !(s.arr q x).stopped && (s.arr q x).bind.isSome) then
          .next (s.raise q .baval 0)
        else
          let n := v.rangeAt 0
          ask s (n % (2 * imageLines)) (n / (2 * imageLines))
      | .back _ bs _ hit =>
        let i := (hit.map Prod.fst).getD 0
        let f := ((hit.map Prod.snd).getD 0).toNat
        let m := i / imageLines
        let x := (arrs[m]?).getD 0
        let b := (s.arr q x).loadLine (k % 4) 0 (i % imageLines) bs
        let b := if i % imageLines = 0 then { b with imageIds := Tab.put b.imageIds (imageAt base m) (leNat (bs.take 8)) } else b
        let before := s
        let s := s.setArr q x b
        let f := if i % imageLines = 0 && leNat (bs.drop 24) / 2 ^ 59 % 2 = 1 then f ||| 2 ^ m else f
        let s := s.setSeq q ((s.seq q).setWait (.range v.ip (i + 1 + 2 * imageLines * f)))
        if i + 1 < imageLines * arrs.length then ask s (i + 1) f
        else if !s.roomToRevive q arrs f then stall before
        else
          let s := arrs.foldl (fun s x => s.restartArray q x) s
          let s := ((List.range arrs.length).zip arrs).foldl (fun s (m, x) => if f / 2 ^ m % 2 = 1 then s.revive q k x else s) s
          .next ((s.setSeq q ((s.seq q).setWait .none)).advance q 4)

/-! ### bfin and bfout (R275 to R277) -/

/-- The array of a `bfin`'s target (R276). -/
def bfinArray (f : Fields) : Nat := match f.tga with | .port i => i.toNat - 0x10 | _ => 0

/-- A token delivered to the array input, its records' values rounded to the first column's carry after source flush (R87,
with the chain's SFL), and its flags. -/
def bfinToken (k : BaBind) (w : Word) (ty : ElemTy) (t : Token) : Token × FFlags :=
  let f := (ElemTy.fmt? ty).getD fp32
  let y (i : Nat) : Lane × FFlags := if t.has i then k.env.finish (Stage.carry w) (Stage.rm w) (k.env.value f (t.at i)) else (0, 0)
  ({ Token.empty with payload := lanes fun i => (y i).1, valid := 0xFFFF }, orFlags fun i => (y i).2)

/-- Tokens placed at the input of an array for a plane's chain, or none while they must wait: no chain, a full input, a
limiter whose window is full, or the end of the stream, behind which only a DRAIN goes (R269, R270, R276). -/
def State.feedArray (s : State) (r a plane depth : Nat) (ty : ElemTy) (ts : List Token) : Option State :=
  match (s.arr r a).bind with
  | none => none
  | some k =>
    let p := k.port a
    let b := s.arr r p
    let w := (b.col k.c0).word
    let cfg (l : List Token) : Bool := l.any fun t => t.marker = Mk.cfg
    let last := (b.eotIn || b.inq.any fun t => t.marker = Mk.eot) && ts.any fun t => t.marker != Mk.drain
    let busy := (b.inq.length + ts.length > max depth ts.length) || last || cfg b.inq || cfg (b.col k.c0).inq
    if k.plane != plane || b.stopped || b.draining || busy then none
    else
      ts.foldl
        (fun s t => s.bind fun s =>
          (s.letIn r (8 + p)).map fun s =>
            let b := s.arr r p
            let (t, fl) := if t.marker = Mk.data then bfinToken k w ty t else (t, 0)
            s.setArr r p { b with inq := b.inq ++ [{ t with rids := Token.empty.rids, pips := Token.empty.pips }]
                                  flags := b.flags ||| fl })
        (some s)

/-- `bfin` (R276): records and markers enter the array; SWITCH does not. A DRAIN at an array without a chain is taken:
the array is at rest (log 20). Where the limiter admits only the first token of `.two`, the second waits at its head for a
later window, and the node remembers that the first is through (R269). -/
def execBfin (f : Fields) (s : State) : Res :=
  let ins : List Slot := if f.fn == 0 then [.a] else [.a, .b]
  let arr := bfinArray f
  let send (a : At) (taken : List Slot) (ts : List Token) (n : Node) : Res :=
    match s.feedArray a.region arr (a.plane % 4) (slotsOfCode f.dpa) f.ty ts with
    | some s => fire s a f taken [] n 0
    | none => stall s
  asNode s fun a =>
    let hs := a.heads (withPred f ins)
    match a.node.phase, meets hs with
    | .run, .wave m =>
      if m = Mk.drain then
        if (s.arr a.region arr).bind.isNone then fire s a f (movingSlots hs) [] a.node 0
        else send a (movingSlots hs) [Token.mark Mk.drain] a.node
      else wave s a (movingSlots hs) m
    | _, _ =>
      stdNode s f ins
        (fun a hs o t => some (send a (if isPositional t.marker then movingSlots hs else [o]) [t] a.node))
        fun a hs =>
          let one (o : Slot) : Token := (headOf hs o).restrict fun i => predOk f (headOf hs .p) i && ins.all fun x => (headOf hs x).has i
          let feed (ts : List Token) : Option State := s.feedArray a.region arr (a.plane % 4) (slotsOfCode f.dpa) f.ty ts
          let left := if a.node.turn then [one .b] else ins.map one
          match feed left with
          | some t => fire t a f (movingSlots hs) [] { a.node.took (headOf hs .a) with turn := false } 0
          | none =>
            if f.fn == 0 || a.node.turn then stall s
            else
              match feed [one .a] with
              | some t => .next (t.setNode a { a.node with turn := true })
              | none => stall s

/-- The array from which a `bfout` takes: under ba01, BA0's port, which merges both; BA1's gives nothing (R277). -/
def State.outSource (s : State) (r a : Nat) : Option (Nat × BaBind) :=
  match (s.arr r a).bind with
  | none => none
  | some k => if !k.both then some (a, k) else if a = 1 then none else some ((s.arr r 0).turnOut % 2, k)

/-- Tokens of the row group at the port that has begun, when its end is there. -/
def portGroup (b : BArray) (sofar : Nat) : Option Nat :=
  match b.outq.findIdx? fun t => isPositional t.tok.marker with
  | some i => some (sofar + ((b.outq.take i).filter fun t => t.tok.marker = Mk.data).length)
  | none => none

/-- The token of a place as `bfout` emits it: the last rounding is its own (R257, R277). -/
def bfoutToken (k : BaBind) (rm : RMode) (ty : ElemTy) (x : OutTok) : Token × FFlags :=
  let f := (ElemTy.fmt? ty).getD fp32
  let y (i : Nat) : Lane × FFlags := (vget x.sums i { v := .nan, mixed := false }).round k.env f rm
  ({ Token.empty with payload := lanes fun i => (y i).1, valid := 0xFFFF }, orFlags fun i => (y i).2)

/-- Another `bfout` of the plane still has to pass the DRAIN of an array on. -/
def Plane.drainOwed (pl : Plane) (slot arr : Nat) : Bool :=
  pl.nodes.any fun e => e.1 != slot && fabricOpc e.2.word = 0xA1 && (bits e.2.word 0 1).toNat = arr && !e.2.passed

/-- The output port gives up a DRAIN: at its head, or behind data whose row group has not ended, where the `bfout` keeps half of
each group and so takes none of them yet, or where the plane has no `bfout`. The data stay at the port (R270, log 20). -/
def BArray.givesDrain (b : BArray) (halves none_ : Bool) : Bool :=
  match b.outq.findIdx? fun t => t.tok.marker = Mk.drain with
  | some i => i = 0 || none_ || (halves && (b.outq.take i).all fun t => t.tok.marker = Mk.data)
  | none => false

/-- The first DRAIN of an output port taken. -/
def State.popDrain (s : State) (r a : Nat) : State :=
  let b := s.arr r a
  s.setArr r a { b with outq := match b.outq.findIdx? fun t => t.tok.marker = Mk.drain with
    | some i => dropAt b.outq i
    | none => b.outq }

/-- The head of the output port taken. -/
def State.popOut (s : State) (r a : Nat) : State :=
  let b := s.arr r a
  s.setArr r a { b with outq := b.outq.drop 1 }

/-- `bfout` (R277): a source node. `.lo` and `.hi` keep half of a row group, `.two` sends the kept tokens to the two
targets in turn. -/
def execBfout (f : Fields) (s : State) : Res :=
  let form := (bits f.fn 3 2).toNat
  let two := bitAt f.fn 5
  let arr := (bits f.imm 0 1).toNat
  asNode s fun a =>
    let r := a.region
    let n := a.node
    match n.phase with
    | .emit => emitStep s a f
    | .run =>
        match s.outSource r arr with
        | none => stall s
        | some (x, k) =>
          let b := s.arr r x
          let port := s.arr r (k.port arr)
          let drain := b.givesDrain (form != 0) false
          if k.plane != a.plane % 4 || (n.ended && !drain) then stall s
          else
            match b.outq with
            | [] => stall s
            | t :: _ =>
              let m := if drain then Mk.drain else t.tok.marker
              if m = Mk.data then
                let place := port.groupOut / k.g
                let total := portGroup b port.groupOut
                let s' := s.popOut r x
                let count (s : State) : State :=
                  let p := s.arr r (k.port arr)
                  s.setArr r (k.port arr) { p with groupOut := p.groupOut + 1 }
                if form != 0 && total.isNone then stall s
                else
                  let l := total.getD 0 / k.g
                  if form != 0 && l % 2 = 1 then .next ((s.outputFault r arr).setNode a { n with turn := false })
                  else if (form = 1 && l / 2 ≤ place) || (form = 2 && place < l / 2) then .next (count s')
                  else
                    let (y, fl) := bfoutToken k (a.env.select (bits f.fn 0 3)) f.ty t
                    let y := y.fresh s.nextId
                    let outs := if two then [(if n.turn then 1 else 0, y)] else [(0, y), (1, y)]
                    if outs.all fun o => a.ready f o.1 then
                      let s' := count s'.tookIds
                      let p := s'.arr r (k.port arr)
                      fire (s'.setArr r (k.port arr) { p with flags := p.flags ||| fl }) a f [] outs
                        { n.took y with turn := two && !n.turn } 0
                    else stall s
              else if m = Mk.drain then
                if port.draining || (n.passed && a.pl.drainOwed a.slot arr) then stall s
                else
                  let s := s.popDrain r x
                  let s := if k.both then s.popDrain r (1 - x) else s
                  if n.passed then .next s
                  else .next (s.setNode a { n with phase := .emit, emitting := Mk.drain, sent := [], passed := true })
              else if isPositional m && two && n.turn then .next ((s.outputFault r arr).setNode a { n with turn := false })
              else if a.ready f 0 && a.ready f 1 then
                let s := s.popOut r x
                let p := s.arr r (k.port arr)
                let p :=
                  if m = Mk.eor then { p with groupOut := 0, turnOut := p.turnOut + 1 }
                  else if m = Mk.eot then { p with groupOut := 0, eotOut := true }
                  else p
                fire (s.setArr r (k.port arr) p) a f [] (toAll t.tok)
                  { n with ended := m = Mk.eot, turn := if isPositional m || m = Mk.fault then false else n.turn } 0
              else stall s
    | _ => stall s

/-! ### Events -/

/-- COLUMN_FIRE (R263). -/
def execColumnFire (region array col : Nat) (s : State) : Res :=
  match s.columnFire region array col with
  | some t => .next t
  | none => stall s

/-- A `bfout` of the plane takes the array's port. -/
def Plane.hasBfout (pl : Plane) (a : Nat) : Bool :=
  pl.nodes.any fun n => fabricOpc n.2.word = 0xA1 && (bits n.2.word 0 1).toNat = a

/-- The plane's `bfout` on the array keeps half of each row group. -/
def Plane.halvesAt (pl : Plane) (a : Nat) : Bool :=
  pl.nodes.any fun n => fabricOpc n.2.word = 0xA1 && (bits n.2.word 0 1).toNat = a && bits n.2.word 53 2 != 0

/-- ARRAY_DRAIN (R270, R284): a DRAIN is consumed at the output port, of `bdrn`, or of a pre-emption where no `bfout`
takes it. Under ba01 it leaves both arrays. -/
def execArrayDrain (region array : Nat) (s : State) : Res :=
  match s.outSource region array with
  | none => stall s
  | some (x, k) =>
    let port := s.arr region (k.port array)
    let pl := s.plane (4 * region + k.plane)
    let isDrain (a : Nat) : Bool := (s.arr region a).givesDrain (pl.halvesAt array) (!pl.hasBfout array)
    let ready := isDrain x && (!k.both || isDrain (1 - x))
    if !ready || !(port.draining || !pl.hasBfout array) then stall s
    else
      let s := s.popDrain region x
      let s := if k.both then s.popDrain region (1 - x) else s
      let left (s : State) (y : Nat) : State := s.setArr region y { s.arr region y with drained := (s.arr region y).draining }
      .next (if k.both then left (left s 0) 1 else left s (k.port array))

/-- CHAIN_COMPLETE (R266, R268, R281): EOT has left the output port, every spill event has been performed and released at
the chain's scope; the flags reach FPC and the array is unbound. -/
def execChainComplete (region array : Nat) (s : State) : Res :=
  match (s.arr region array).bind with
  | none => stall s
  | some k =>
    let port := s.arr region (k.port array)
    if !port.eotOut || !port.eotIn || port.stopped || (s.plane (planeKey region k.plane)).atRest then stall s
    else
      match s.chainJob region k with
      | none => stall s
      | some (e, j) =>
        if s.jobReleased region e j.scope then .next (s.endJob region e { j with flags := j.flags ||| port.flags })
        else stall s

/-- RATE_WINDOW (R269): a window ends and admission begins again. -/
def execRateWindow (region unit : Nat) (s : State) : Res :=
  let g := s.region region
  let l := vget g.limits unit Limiter.empty
  .next (s.setRegion region { g with limits := vput g.limits unit { l with admitted := 0 } })

end Sys2Proof.Machine
end

