-- ==== Sys2Proof/Machine/BlockCheck.lean ====
section
/-!
DEFINITION. Block images: their fetch (R37, R40, R58) and the check of R55, with its failures and the choice among
them (R467, Tables 2-11 and 2-15).
-/

namespace Sys2Proof.Machine

/-! ### Fetch of code (R58, R61) -/

/-- What comes of reading one piece of an image: its bytes, and the key that they were read at; a fault, a translation that
is in no cache yet, or the wait for an `inv` of its range (R239) or for a port (R244). -/
inductive PieceRead where
  | got (l : List Byte) (key : Option Nat)
  | fault
  | miss
  | held
  deriving DecidableEq, Repr

/-- One 64-byte piece of an image, in one read by the sequencer's fetch (R58, R239). -/
def State.codePiece (s : State) (q ctx va : Nat) : PieceRead :=
  if 2 ^ 52 ≤ va then .fault
  else if s.invBefore q va 64 then .held
  else
    match s.translate (reqFetch q) (boardOfSeq q) q ctx va .fetch with
    | .ok p => if s.linkUp p.key then .got (s.readBytes (.seq q) p.key 64) (some p.key) else .held
    | .void => .got (List.replicate 64 0) none
    | .fault _ => .fault
    | _ => .miss

/-- The energy of the read of a piece (R461). -/
def State.chargePiece (s : State) (q : Nat) (key : Option Nat) : State :=
  match key with
  | some k => s.chargeAt (agentRegion (.seq q)) k 1
  | none => s

/-- Code from the pieces that have been read: its bytes, or the pieces that must be read first. -/
inductive Code where
  | bytes (l : List Byte)
  | need (l : List Nat)
  deriving DecidableEq, Repr

/-- n bytes of code at an address. -/
def codeAt (got : Pieces) (va n : Nat) : Code :=
  let first := va / 64
  let all := (List.range ((va + n + 63) / 64 - first)).map fun i => 64 * (first + i)
  let missing := all.filter fun a => !got.any fun p => p.1 = a
  if missing.isEmpty then .bytes (((all.flatMap fun a => Tab.getD got a []).drop (va % 64)).take n) else .need missing

/-- A block image as fetched. -/
structure Image where
  header : Nat
  head : BitVec 128
  words : List Word
  place : List Byte
  /-- address of the slice's first word, and the slice's words; none without RAS or with an illegal length word -/
  slice : Option (Nat × List Lane)
  deriving DecidableEq, Repr

/-- What comes of putting an image together. -/
inductive Fetch where
  | image (i : Image)
  | need (l : List Nat)
  deriving DecidableEq, Repr

/-- The bytes in groups of k, each a little-endian number (R3). -/
def leGroups (k : Nat) : Nat → List Byte → List Nat
  | 0, _ => []
  | n + 1, l => leNat (l.take k) :: leGroups k n (l.drop k)

/-- The image at an address, from its pieces: header, instructions, placement, and with RAS the slice (R37, R40). -/
def fetchImage (got : Pieces) (va : Nat) : Fetch :=
  match codeAt got va 16 with
  | .need l => .need l
  | .bytes hb =>
    let head : BitVec 128 := BitVec.ofNat 128 (leNat hb)
    let n := Head128.count head
    match codeAt got (va + 16) (9 * n) with
    | .need l => .need l
    | .bytes body =>
      let words := (leGroups 8 n body).map (BitVec.ofNat 64)
      let place := body.drop (8 * n)
      let i : Image := { header := va, head, words, place, slice := none }
      if !Head128.ras head then .image i
      else
        let top := va + (16 + 9 * n + 15) / 16 * 16
        match codeAt got top 4 with
        | .need l => .need l
        | .bytes lb =>
          let w := leNat lb
          let len := w % 65536
          if 65536 ≤ w || len = 0 || 4096 < len then .image i
          else
            match codeAt got (top + 4) (4 * len) with
            | .need l => .need l
            | .bytes sl => .image { i with slice := some (top + 4, (leGroups 4 len sl).map (BitVec.ofNat 32)) }

/-- Every instruction of a slice is whole and would not raise ILLOP on a region sequencer (R40, R65, R66, R404). -/
def sliceOk : Nat → List Lane → Bool
  | 0, _ => false
  | _ + 1, [] => true
  | fuel + 1, w :: rest =>
    let legal (w2 : Lane) : Bool :=
      match decodeSeq w w2 with
      | some (.cfgw ..) => false
      | some (.sysr _ r) => sysNumberOk r.toNat false
      | some (.sysw r _) => sysNumberOk r.toNat true
      | some _ => true
      | none => false
    if twoWords (seqOp w) then
      match rest with
      | [] => false
      | w2 :: rest' => legal w2 && sliceOk fuel rest'
    else legal 0 && sliceOk fuel rest

/-! ### The graph of a block -/

/-- Operand slots that an instruction's entry names as inputs, without p (R48). -/
def fabricInputs (opc : Nat) (fn : BitVec 6) : List Slot :=
  let imm := bitAt fn 5
  let two : List Slot := if imm then [.a] else [.a, .b]
  let three : List Slot := if imm then [.a, .c] else [.a, .b, .c]
  let pick (c : Bool) (x y : List Slot) : List Slot := if c then x else y
  match opc with
  | 0x02 | 0x03 => [.a]
  | 0x04 => pick (fn == 1) [.c] []
  | 0x05 => pick (fn == 2) [.a] []
  | 0x06 | 0x08 | 0x0A => [.a, .b]
  | 0x07 | 0x09 => [.a, .b, .c]
  | 0x0B | 0x0C | 0x0D | 0x0E | 0x0F => [.a]
  | 0x20 | 0x21 | 0x22 | 0x23 | 0x24 | 0x25 | 0x27 | 0x28 | 0x29 | 0x2A | 0x2B | 0x2C | 0x2D | 0x2E | 0x2F | 0x30 => two
  | 0x26 => three
  | 0x31 | 0x32 | 0x33 => [.a]
  | 0x34 => pick (bits fn 3 2 == 0) [.a, .b] [.a, .b, .c]
  | 0x35 => pick (fn == 0) [.a, .b] [.a]
  | 0x36 | 0x37 | 0x38 => [.a]
  | 0x50 | 0x51 | 0x52 | 0x54 | 0x55 | 0x56 => two
  | 0x53 => three
  | 0x57 => pick (fn.toNat ≤ 2) [.a, .b] [.a]
  | 0x5A => [.a, .b]
  | 0x58 | 0x59 | 0x5B | 0x5C | 0x5D | 0x5E | 0x5F => [.a]
  | 0x70 | 0x71 | 0x72 | 0x73 | 0x74 | 0x75 => [.a]
  | 0x76 => pick (bits fn 3 2 == 1 || bits fn 3 2 == 2) [.a, .b] [.a]
  | 0x80 | 0x82 | 0x84 | 0x85 | 0x90 => [.a]
  | 0x81 | 0x92 => [.a, .b]
  | 0x83 => pick (bits fn 0 2 == 2) [.a] [.a, .b]
  | 0x91 => pick (bits fn 0 3 == 7) [.a, .b, .c] [.a, .b]
  | 0x93 => pick (bitAt fn 2) [.a, .b] [.a]
  | 0xA0 => pick (bitAt fn 0) [.a, .b] [.a]
  | 0xB1 => pick (fn == 1) [.a] [.a, .b]
  | 0xB2 => pick (fn == 1) [] [.a]
  | 0xB3 | 0xB8 => [.a]
  | 0xB4 | 0xB5 | 0xB6 | 0xB7 => [.a, .b]
  | 0xC0 => pick (bitAt fn 0) [.a] [.a, .b]
  | _ => []

def wordFn (w : Word) : BitVec 6 := bits w 50 6
def wordImm (w : Word) : BitVec 16 := bits w 0 16

/-- Inputs of a word, with slot p when PM ≠ 00 (R48). -/
def wordInputs (w : Word) : List Slot :=
  fabricInputs (fabricOpc w) (wordFn w) ++ (if bits w 16 2 == 0 then [] else [.p])

/-- The links of a block. -/
def blockLinks (ws : List Word) : List GLink := (indexed ws).flatMap fun e => wordLinks ws.length e.1 e.2

/-- Nodes reached from a set of nodes over some links, in at most `fuel` rounds. -/
def reachFrom (links : List GLink) : Nat → List Nat → List Nat
  | 0, met => met
  | fuel + 1, met =>
    let more := links.foldl (fun l e => if l.contains e.src && !l.contains e.dst then l ++ [e.dst] else l) met
    if more.length = met.length then met else reachFrom links fuel more

/-- A legal placement byte (R51). -/
def placeOk (w : Word) (p : Byte) : Bool := if isMemoryWord w then bits p 0 3 == 0 else (bits p 0 3).toNat ≤ 5

/-- Square of a slot: its number with the stage cleared. -/
def squareOf (slot : Nat) : Nat := slot / 8 * 8

/-- Entries of a square's token pool (R31). -/
def poolSize (slot : Nat) : Nat := if isMemorySlot slot then 256 else 512

/-! ### The check (R55, R467) -/

/-- A failure: its cause, the node it is reported at (255: header level), and the element (R60). -/
structure CheckFail where
  cause : BitVec 8
  node : Nat
  element : Option (Nat × Nat × Nat)
  deriving DecidableEq, Repr

namespace Fail
def hver : BitVec 8 := 0x01
def hres : BitVec 8 := 0x02
def ports : BitVec 8 := 0x03
def shape : BitVec 8 := 0x04
def pool : BitVec 8 := 0x05
def fnty : BitVec 8 := 0x07
def target : BitVec 8 := 0x08
def feed : BitVec 8 := 0x09
def place : BitVec 8 := 0x0B
def collide : BitVec 8 := 0x0C
def zlink : BitVec 8 := 0x0D
def privblk : BitVec 8 := 0x0E
def fetch : BitVec 8 := 0x0F
end Fail

/-- Partition that a region belongs to (R36), by the virtual device that holds it. -/
def State.partitionOf (s : State) (r : Nat) : Option Nat :=
  (List.find? (fun e => e.2.regions.contains r) s.vds).map fun e => e.2.partition

/-- A SHAPE = 1 block cannot be launched in this plane (R52). The model's reading (log 75): the partner's plane of the same
number may hold no other context, but a block that the partner region's own sequencer runs there for the same context
does not stand in the way, and the two then hold a word each in one stage slot. -/
def State.pairUnavailable (s : State) (plane : Nat) : Bool :=
  let r := plane / 4
  r % 2 = 1 || s.partitionOf r != s.partitionOf (r + 1) ||
    (match (s.plane (plane + 4)).ctx with
      | some c => (s.plane plane).ctx != some c
      | none => false)

/-- The cause with which a second naming fails (R112, R275, R295). -/
def soleCause (w : Word) : BitVec 8 := if fabricOpc w ≤ 0x02 then Fail.ports else Fail.target

/-- A memory node that carries a sequence number of its own (R186). -/
def hasSeqNo (w : Word) : Bool :=
  let opc := fabricOpc w
  isMemoryWord w && opcodeAssigned opc && opc != 0x85 && !(opc == 0x92 && bits (wordFn w) 3 2 == 0)

def seqNoOf (w : Word) : Nat := (bits w 4 5).toNat

/-- Accumulator registers that a word names under R132: kind-11 targets, and the register of `lds.acc` (R192). -/
def accOwned (w : Word) : List Nat := if fabricOpc w = 0x83 then [] else accNames w

/-- Names that the words before index i have used, and that the word itself uses twice. -/
def usedTwice {β : Type} [DecidableEq β] (names : Word → List β) (before : List Word) (w : Word) : Bool :=
  let mine := names w
  let twice (l : List β) : Bool := match l with | [x, y] => x == y | _ => false
  twice mine || mine.any fun k => before.any fun v => (names v).contains k

/-- The target fields of a word name instructions outside the block (R43), or `rtree.fwd`'s name no further `rtree`
(R318). -/
def targetsAway (ws : List Word) (i : Nat) (w : Word) : Bool :=
  let away (t : BitVec 11) : Bool :=
    match decodeTarget t with
    | some (.operand j _) => ws.length ≤ j.toNat
    | _ => false
  let notTree (t : BitVec 11) : Bool :=
    match decodeTarget t with
    | some (.operand j _) => j.toNat = i || fabricOpc ((ws[j.toNat]?).getD 0) != 0x92
    | _ => false
  away (bits w 35 11) || away (bits w 24 11) || (fabricOpc w = 0x03 && away (bits w 0 11)) ||
    (fabricOpc w = 0x92 && bits (wordFn w) 3 2 == 0 && (notTree (bits w 35 11) || notTree (bits w 24 11)))

/-- The slots of instruction i are not fed as R48 asks, or an `ext.hi` is not fed by an `ext` (R115). -/
def feedBad (ws : List Word) (links : List GLink) (i : Nat) (w : Word) : Bool :=
  let ins := wordInputs w
  let feeds (o : Slot) : List GLink := links.filter fun l => l.dst = i && l.opd == o
  ([Slot.a, .b, .p, .c].any fun o => (feeds o).length != (if ins.contains o then 1 else 0)) ||
    (fabricOpc w = 0x05 && wordFn w == 2 && (feeds .a).any fun l => fabricOpc ((ws[l.src]?).getD 0) != 0x05)

/-- A zero-slot link that R46 does not allow. -/
def zlinkBad (links : List GLink) (ws : List Word) (place : List Byte) (slots : List Nat) (l : GLink) : Bool :=
  let ok (i : Nat) : Bool :=
    match ws[i]?, place[i]? with
    | some w, some p => !isMemoryWord w && placeOk w p
    | _, _ => false
  l.depth == 0 &&
    (match slots[l.src]?, slots[l.dst]? with
      | some x, some y =>
        !(ok l.src && ok l.dst && squareOf x = squareOf y && y = x + 1) ||
          (reachFrom links ws.length [l.dst]).contains l.src
      | _, _ => true)

/-- Causes of the failures at one instruction. -/
def nodeCauses (img : Image) (links : List GLink) (slots : List Nat) (i : Nat) (w : Word) (p : Byte) :
    List (BitVec 8) :=
  let ws := img.words
  let before := ws.take i
  let when_ (b : Bool) (c : BitVec 8) : List (BitVec 8) := if b then [c] else []
  let m := (ws.filter hasSeqNo).length
  (match fabricCause w with | some c => [c.code] | none => []) ++
  when_ ((soleName w).isSome && before.any fun v => soleName v == soleName w) (soleCause w) ++
  when_ (hasSeqNo w && (m ≤ seqNoOf w || before.any fun v => hasSeqNo v && seqNoOf v = seqNoOf w)) Fail.fnty ++
  when_ (targetsAway ws i w || usedTwice accOwned before w) Fail.target ++
  when_ (feedBad ws links i w) Fail.feed ++
  when_ (!placeOk w p) Fail.place ++
  when_ (placeOk w p && (List.range i).any fun j =>
    match ws[j]?, img.place[j]? with
    | some v, some o => placeOk v o && slots[j]? == slots[i]?
    | _, _ => false) Fail.collide ++
  when_ (links.any fun l => l.src = i && zlinkBad links ws img.place slots l) Fail.zlink

/-- The least of some cause codes. -/
def leastCause (l : List (BitVec 8)) : Option (BitVec 8) :=
  l.foldl (fun m c => match m with | some x => if c < x then some c else some x | none => some c) none

/-- Demand of some links on each square, by the square's number. -/
def squareDemand (links : List GLink) (slots : List Nat) : Tab Nat :=
  links.foldl (fun t l => match slots[l.dst]? with
    | some y => Tab.put t (squareOf y) (Tab.getD t (squareOf y) 0 + slotsOfCode l.depth)
    | none => t) []

/-- Reservations on a square of the other contexts resident in its region (R31). -/
def State.otherReservations (s : State) (plane square : Nat) : Nat :=
  let r := regionOfSlot plane square
  ((List.range 4).filter fun k => k != plane % 4).foldl
    (fun n k =>
      let x := s.plane (planeKey r k)
      n + (if x.ctx.isSome then (if isMemorySlot square then x.resm else x.resd) else 0)) 0

/-- Squares whose pool a block's demand exceeds (R53), as x and y. -/
def State.fullSquares (s : State) (plane : Nat) (links : List GLink) (slots : List Nat) : List (Nat × Nat) :=
  (squareDemand links slots).filterMap fun (sq, d) =>
    if poolSize sq < d + s.otherReservations plane sq then some (squareXY (regionOfSlot plane sq) sq) else none

/-- The square with the lowest y, and on a tie the lowest x (Table 2-15). -/
def lowestSquare (l : List (Nat × Nat)) : Option (Nat × Nat) :=
  l.foldl (fun m e => match m with
    | some x => if e.2 < x.2 || (e.2 = x.2 && e.1 < x.1) then some e else some x
    | none => some e) none

/-- Header-level failures, in the order of their cause codes. The model's reading (log 107): where the demand against
POOL x 4 fails and a square's pool is exceeded too, POOL is reported with SQV = 0. -/
def State.headerFails (s : State) (plane : Nat) (userMode : Bool) (img : Image) (links : List GLink) (slots : List Nat) :
    List CheckFail :=
  let h := img.head
  let ws := img.words
  let has (lo hi : Nat) : Bool := ws.any fun w => lo ≤ fabricOpc w && fabricOpc w ≤ hi
  let count (o : Nat) : Nat := (ws.filter fun w => fabricOpc w = o).length
  let plain (b : Bool) (c : BitVec 8) : List CheckFail := if b then [{ cause := c, node := 255, element := none }] else []
  let demand := links.foldl (fun n l => n + slotsOfCode l.depth) 0
  plain (Head128.hver h != 0b1010) Fail.hver ++
  plain (Head128.reserved h || Head128.memn h != has 0x80 0x9F || Head128.bap h != has 0xA0 0xA1 ||
    Head128.strg h != has 0xB0 0xBF ||
    (Head128.ras h && (match img.slice with | some (_, sl) => !sliceOk (sl.length + 1) sl | none => true))) Fail.hres ++
  plain (8 < Head128.nin h || 8 < Head128.nout h || Head128.nin h != count 0x01 || Head128.nout h != count 0x02)
    Fail.ports ++
  plain (1 < Head128.shape h || (Head128.shape h = 1 && s.pairUnavailable plane)) Fail.shape ++
  plain (4 * Head128.pool h < demand) Fail.pool ++
  (match lowestSquare (s.fullSquares plane links slots) with
    | some (x, y) => [{ cause := Fail.pool, node := 255, element := some (x, y, 0) }]
    | none => []) ++
  plain (Head128.priv h && userMode) Fail.privblk

/-- The failure that the check of R55 reports, if there is one (R467). -/
def State.checkImage (s : State) (plane : Nat) (userMode : Bool) (img : Image) : Option CheckFail :=
  let links := blockLinks img.words
  let slots := blockSlots img.head img.words img.place
  match s.headerFails plane userMode img links slots with
  | f :: _ => some f
  | [] =>
    (indexed (img.words.zip img.place)).findSome? fun (i, w, p) =>
      (leastCause (nodeCauses img links slots i w p)).map fun c =>
        let slot := slotOf img.head i w p
        { cause := c, node := i
          element := if !placeOk w p then none else some (slotElement (regionOfSlot plane slot) slot) }

/-- What comes of fetching and checking the block at an address. -/
inductive Checked where
  | block (i : Image)
  | bad (f : CheckFail)
  /-- some of these pieces must be read first -/
  | need (l : List Nat)
  deriving DecidableEq, Repr

/-- The failure of a fetch: FETCH and nothing else (R467). -/
def fetchFail : CheckFail := { cause := Fail.fetch, node := 255, element := none }

/-- Fetch and check (R55), from the pieces read so far: an image off its 16-byte boundary is no image (R37, R346). -/
def State.fetchAndCheck (s : State) (plane : Nat) (userMode : Bool) (header : Int) (got : Pieces) : Checked :=
  if (s.plane plane).ctx.isNone || header < 0 || header % 16 != 0 then .bad fetchFail
  else
    match fetchImage got header.toNat with
    | .need l => .need l
    | .image i =>
      match s.checkImage plane userMode i with
      | some f => .bad f
      | none => .block i

/-- Status of a failed check (R346). -/
def CheckFail.status (f : CheckFail) : Word := (0 : BitVec 48) ++ BitVec.ofNat 8 f.node ++ f.cause

/-- The failure's BLKST record (R59, R60). -/
def CheckFail.record (f : CheckFail) (plane : Nat) : Word := blkstWord f.cause f.node (plane % 4) f.element

end Sys2Proof.Machine
end

