-- ==== Sys2Proof/Machine/Blocks.lean ====
section
/-!
DEFINITION. Chains of block instances: launch (R346, R469), successors (R39, R101, R102), commit (R22, R100, R103), the
reconfiguration wavefront (R104, R105, R108), run-ahead slices (R335) and BLKST reports (R59).
-/

namespace Sys2Proof.Machine

/-! ### Launch (R469) -/

/-- What an instance takes at its launch (R469). -/
def State.snapshot (s : State) (plane ctx : Nat) : Snapshot :=
  let pl := s.plane plane
  { pats := pl.g
    fpc := ((s.ctx? ctx).map Ctx.fpc).getD 0
    cbs := lanes fun i => vget pl.c i 0
    menus := pl.menus }

/-- The instance of a checked image. -/
def State.instanceOf (s : State) (plane : Nat) (i : Image) : Inst :=
  { header := i.header, head := i.head, words := i.words, place := i.place
    snap := s.snapshot plane (((s.plane plane).ctx).getD 0), sliceDone := i.slice.isNone }

def Inst.slots (i : Inst) : List Nat := blockSlots i.head i.words i.place

/-- Index and word of the instruction that an instance has in a slot. -/
def Inst.at? (i : Inst) (slot : Nat) : Option (Nat × Word) :=
  (indexed (i.slots.zip i.words)).findSome? fun e => if e.2.1 = slot then some (e.1, e.2.2) else none

/-- Each word goes to its slot's shadow word; a slot that holds no node enters RECONF (R104, R105). -/
def Inst.shadows (i : Inst) (era : Nat) (nodes : Tab Node) : Tab Node :=
  (i.slots.zip i.words).foldl
    (fun t e => match Tab.find? t e.1 with
      | some n => Tab.put t e.1 { n with shadow := some e.2 }
      | none => Tab.put t e.1 { Node.fresh e.2 with shadow := some e.2, phase := .reconf, era })
    nodes

/-- The slice of a block joins its sequencer's (R335). -/
def Seq.addSlice (v : Seq) (i : Image) (era : Nat) : Seq :=
  match i.slice with
  | some (base, ws) => { v with slices := v.slices ++ [{ base, len := ws.length, block := era }] }
  | none => v

/-- A failed check: BLKST's record is on its way (R55, R59). -/
def State.failCheck (s : State) (q plane : Nat) (f : CheckFail) : State := s.report q (f.record plane)

/-- The miss of a code fetch starts a walk. -/
def State.codeMiss (s : State) (q plane va : Nat) : State :=
  s.startWalk (reqFetch q) (boardOfSeq q) (((s.plane plane).ctx).getD 65536) va false

/-- A fetch fault has been served. -/
def State.codeFault (s : State) (q plane va : Nat) : State :=
  s.dropBad (reqFetch q) (((s.plane plane).ctx).getD 65536) (va / 2 ^ 16)

/-- Pieces of the image that the `blk` at IP has read so far; a `blk` that is interrupted reads anew (R58). -/
def Seq.pieces (v : Seq) : Pieces :=
  match v.fetching with
  | some (ip, priv, p) => if ip = v.ip && priv == v.priv then p else []
  | none => []

/-- One of the pieces that an image still needs, chosen freely: pieces are read in any order (R58, log 3). -/
def State.nextPiece (s : State) (l : List Nat) : Nat := (l[Config.freeIndex s.frees % l.length]?).getD 0

/-- The chain of a first block that has passed its check. -/
def State.launch (s : State) (q plane : Nat) (d : SReg) (i : Image) : State :=
  let v := s.seq q
  let inst := s.instanceOf plane i
  let pl := s.plane plane
  let c : Chain := { seq := q, before := s.nextId, era := 0, cur := inst, next := none, pieces := [], ret := none }
  let s := s.setPlane plane { pl with chain := some c, nodes := inst.shadows 0 pl.nodes }
  s.setSeq q ({ v with
    fetching := none
    chain := some { ip := v.ip, priv := v.priv, inh := EStat.inh v.estat, d, result := none } }.addSlice i 0)

/-- The `blk` at IP, at this level of the sequencer, is the one whose chain a record names (R346). -/
def BlkWait.here (c : BlkWait) (v : Seq) : Bool := c.ip = v.ip && c.priv == v.priv && c.inh == EStat.inh v.estat

/-- The `blk` completes with its chain's result, once its register can be written (R330, R346). -/
def State.blkDone (s : State) (q : Nat) (d : SReg) (r : Word) (v : Seq) : Res :=
  if v.ready d then .next ((s.setSeq q v).finish q d r 4) else stall s

/-- `blk` with no chain of the sequencer's in the way: pieces of the image are read one at a time, then the block is
checked and launched. It is held while the plane drains (R109) or holds a chain of another `blk`, and while a g or c
register that the launch reads is outstanding (R330, R469). -/
def State.blkStart (s : State) (q k : Nat) (d a : SReg) : Res :=
  let v := s.seq q
  let pl := s.plane k
  if !v.allReady [d, a] || v.outG != 0 || v.outC != 0 || pl.draining || pl.atRest || pl.chain.isSome then stall s
  else
    let fail (s : State) (f : CheckFail) : Res :=
      let s := s.setSeq q { s.seq q with fetching := none }
      .next ((s.failCheck q k f).finish q d f.status 4)
    match s.fetchAndCheck k (!v.priv) (v.read a).toNat v.pieces with
    | .bad f => fail s f
    | .block i => .next (s.launch q k d i)
    | .need l =>
      let va := s.nextPiece l
      match s.codePiece q (pl.ctx.getD 65536) va with
      | .got b key =>
        let s := s.setSeq q { v with fetching := some (v.ip, v.priv, (va, b) :: v.pieces) }
        .next { s.chargePiece q key with frees := s.frees + 1 }
      | .miss => .next (s.codeMiss q k va)
      | .fault => fail (s.codeFault q k va) fetchFail
      | .held => stall s

/-- `blk` (R346): the launch, the wait, and the result. A chain that has ended leaves its result for its own `blk`, which
may issue again only after a handler that runs a `blk` of its own (R388). -/
def execBlk (d a : SReg) (s : State) : Res :=
  issueAs s .user false fun q =>
    withPlane s q fun k =>
      let v := s.seq q
      match v.chain with
      | some c =>
        (match c.result with
          | some r =>
            if c.here v then s.blkDone q d r { v with chain := none }
            else (s.setSeq q { v with chain := none, parked := some c }).blkStart q k d a
          | none => stall s)
      | none =>
        match v.parked with
        | some c =>
          if c.here v then s.blkDone q d (c.result.getD 0) { v with parked := none } else s.blkStart q k d a
        | none => s.blkStart q k d a

/-! ### Successors (R39, R101) -/

/-- The chain's newest nodes are not all in place yet: some slot still holds an older word or waits to take its new
one. -/
def Plane.settling (pl : Plane) (era : Nat) : Bool :=
  pl.nodes.any fun e => e.2.era != era || e.2.phase == .reconf || e.2.shadow.isSome

/-- The `exit` nodes of an instance. -/
def Plane.exits (pl : Plane) (era : Nat) : List Node :=
  (pl.nodes.map Prod.snd).filter fun n => n.era = era && fabricOpc n.word = 0x0E

/-- The lowest-numbered node of a list. -/
def lowestNode : List Node → Option Node
  | [] => none
  | n :: rest => match lowestNode rest with
    | some m => if m.index < n.index then some m else some n
    | none => some n

/-- The successor index, when it is final (R101): of the lowest-numbered `exit` that received a record, else the default
of the lowest-numbered one; 3 without an `exit` (R39). -/
def Plane.decision (pl : Plane) (era : Nat) : Option Nat :=
  let xs := pl.exits era
  if xs.any fun n => !n.ended then none
  else
    match (lowestNode (xs.filter fun n => n.decision.isSome)).bind Node.decision, lowestNode xs with
    | some i, _ => some i
    | none, some n => some (bits n.word 0 2).toNat
    | none, none => some 3

/-- Whether the chain's `blk` was issued in user mode. -/
def State.chainUser (s : State) (q : Nat) : Bool := match (s.seq q).chain with | some c => !c.priv | none => true

/-- SUCCESSOR_FETCH: with the index final, the successor is fetched and checked, and its words go to the shadow words
(R39, R101, R104); or the chain will return to the sequencer. -/
def execSuccessorFetch (region plane : Nat) (s : State) : Res :=
  let k := planeKey region plane
  let pl := s.plane k
  match pl.chain with
  | none => stall s
  | some c =>
    if pl.draining || pl.atRest || c.next.isSome || c.ret.isSome || pl.settling c.era then stall s
    else
      match pl.decision c.era with
      | none => stall s
      | some i =>
        let off := Head128.succ c.cur.head i
        let ret (s : State) (r : Word) : Res :=
          .next (s.setPlane k { s.plane k with chain := some { c with ret := some r, pieces := [] } })
        if i = 3 && off = 0 then ret s 0
        else
          let fail (s : State) (f : CheckFail) : Res := ret (s.failCheck c.seq k f) f.status
          match s.fetchAndCheck k (s.chainUser c.seq) ((c.cur.header : Int) + 16 * off) c.pieces with
          | .bad f => fail s f
          | .need l =>
            let va := s.nextPiece l
            (match s.codePiece c.seq (pl.ctx.getD 65536) va with
              | .got b key =>
                let s := s.setPlane k { pl with chain := some { c with pieces := (va, b) :: c.pieces } }
                .next { s.chargePiece c.seq key with frees := s.frees + 1 }
              | .miss => .next (s.codeMiss c.seq k va)
              | .fault => fail (s.codeFault c.seq k va) fetchFail
              | .held => stall s)
          | .block img =>
            let inst := s.instanceOf k img
            let s := s.setPlane k { pl with
              chain := some { c with next := some inst, pieces := [] }, nodes := inst.shadows (c.era + 1) pl.nodes }
            .next (s.setSeq c.seq ((s.seq c.seq).addSlice img (c.era + 1)))

/-! ### Commit (R22, R100, R103) -/

/-- Indices of the instructions that EOT reaches: over the links from the sources, but for sticky links and for the
bodies of `loop`, which EOT does not enter (R95, R119). -/
def Inst.eotReaches (i : Inst) : List Nat :=
  let opc (n : Nat) : Nat := fabricOpc ((i.words[n]?).getD 0)
  let moving := (blockLinks i.words).filter fun l => opc l.src != 0x05
  let sources := (List.range i.words.length).filter fun n => !moving.any fun l => l.dst = n
  reachFrom (moving.filter fun l => !(opc l.src = 0x09 && l.out = 0)) i.words.length sources

/-- Every event of a block instance has been performed, its values have returned, and its writes are in V(I_.rgn) of its
region (R224). -/
def State.blockQuiet (s : State) (plane : Nat) : Bool :=
  let a := (Agent.block (plane / 4) (plane % 4)).key
  let g := s.agent a
  g.q.isEmpty && g.buf.isEmpty && g.rmws.isEmpty && g.rets.isEmpty &&
    s.mem.recent.all fun w => w.org != a || decide (1 ≤ w.level)

/-- A node of the running instance no longer holds back the commit: it has taken EOT (R100), and a memory node has
drained (R22). -/
def Plane.nodeDone (pl : Plane) (i : Inst) (slot : Nat) (n : Node) : Bool :=
  n.phase != .reconf && n.phase != .blocked &&
    (n.ended || !pl.hasMoving slot n || (fabricOpc n.word != 0x02 && !i.eotReaches.contains n.index)) &&
    n.cur.isNone && n.fly.isEmpty && n.wait.isEmpty

/-- The running instance can commit. -/
def State.canCommit (s : State) (k : Nat) (c : Chain) : Bool :=
  let pl := s.plane k
  !pl.stopped && (c.next.isSome || c.ret.isSome) && c.cur.sliceDone && s.blockQuiet k &&
    pl.nodes.all fun e => e.2.era != c.era || pl.nodeDone c.cur e.1 e.2

/-- Every node enters IDLE and the links are freed (R103); what the router has still to give an `sroute` or `pips.out` ends with
it, since nothing of the plane takes it any more (R290, R449). -/
def Plane.idled (pl : Plane) : Plane :=
  let leave (g : Nat) : StGroup :=
    let x := vget pl.groups g StGroup.empty
    let out := pl.nodes.any fun e => soleName e.2.word == some (0x1B3, g)
    { x with routed := [], outMarks := [], done := if out then [] else x.done }
  { pl with chain := none, nodes := [], links := [], groups := #v[leave 0, leave 1, leave 2, leave 3] }

/-- BLOCK_COMMIT: the flags reach FPC (R81); the successor becomes the running instance, or every node enters IDLE, the
links are freed and `blk` has its result (R103). -/
def execBlockCommit (region plane : Nat) (s : State) : Res :=
  let k := planeKey region plane
  match (s.plane k).chain with
  | none => stall s
  | some c =>
    if !s.canCommit k c then stall s
    else
      let pl := s.plane k
      let s := (s.raiseFlags (pl.ctx.getD 65536) pl.flags).retire (Agent.block region plane).key
      match c.next, c.ret with
      | some n, _ =>
        .next (s.setPlane k { pl with flags := 0, chain := some { c with era := c.era + 1, cur := n, next := none } })
      | none, some r =>
        let s := s.setPlane k { pl.idled with flags := 0 }
        let v := s.seq c.seq
        .next (s.setSeq c.seq { v with chain := v.chain.map fun w => { w with result := some r } })
      | none, none => stall s

/-! ### The wavefront (R104, R105, R108) -/

/-- SWITCH_INJECT: a source that has emitted its last old-block token emits SWITCH; an `ext` that has fired takes its new
word at once (R104, R111). -/
def execSwitchInject (region plane slot : Nat) (s : State) : Res :=
  let k := planeKey region plane
  let pl := s.plane k
  match pl.chain, Tab.find? pl.nodes slot with
  | some c, some n =>
    let old := match c.next with | some _ => n.era = c.era | none => n.era < c.era
    let go (n : Node) : Res := .next (s.setPlane k { pl with nodes := Tab.put pl.nodes slot n })
    if pl.stopped || pl.draining || !old || n.phase != .run || !pl.isSource slot n then stall s
    else if fabricOpc n.word = 0x05 then if n.fired then go { n with phase := .reconf } else stall s
    else if n.ended || pl.endless slot n then
      go { n with phase := if isMemorySlot slot then .held else .emit, emitting := Mk.switch, sent := [] }
    else stall s
  | _, _ => stall s

/-- Slots that a link holds (R108): the larger of its counts while a renewal is due, and those above its count until
they are empty. -/
def Link.held (l : Link) : Nat :=
  match l.renew with
  | some (_, _, cap, _) => max l.cap cap
  | none => max l.cap l.toks.length

/-- Entries of a square that a context's links hold: the links of its plane in the square's region, and those of a fused
block launched in the region before it (R97). -/
def State.entriesUsed (s : State) (r square k : Nat) : Nat :=
  let sum (p : Plane) (sq : Nat) : Nat := p.links.foldl (fun n l => if squareOf l.dst = sq then n + l.held else n) 0
  sum (s.plane (planeKey r k)) square + (if r % 2 = 1 then sum (s.plane (planeKey (r - 1) k)) (square + 512) else 0)

/-- The square's pool has room for its links: each context takes the larger of its use and its reservation (R31, R97). -/
def State.poolHolds (s : State) (r square : Nat) : Bool :=
  let use (k : Nat) : Nat :=
    let p := s.plane (planeKey r k)
    max (s.entriesUsed r square k) (if p.ctx.isSome then (if isMemorySlot square then p.resm else p.resd) else 0)
  use 0 + use 1 + use 2 + use 3 ≤ poolSize square

/-- The links of a plane with one created, or an old one of the same producer and operand reused (R108): it keeps its slot
count until its consumer takes the SWITCH that it holds, and has the new one at once where the consumer has taken it. -/
def addLink (links : List Link) (oldEra : Nat) (l : Link) : List Link :=
  let same (x : Link) : Bool := x.src = l.src && x.dst = l.dst && x.opd == l.opd && x.era = oldEra && oldEra != l.era &&
    !x.sticky && !l.sticky && x.renew.isNone
  let switching (x : Link) : Bool := x.toks.any fun t => t.marker = Mk.switch
  if links.any fun x => same x && switching x then
    updateFirst (fun x => same x && switching x) (fun x => { x with renew := some (l.era, l.out, l.cap, l.sticky) }) links
  else links.filter (fun x => !same x) ++ [l]

/-- The links that a word of an instance names, for the instruction of an index at a slot. -/
def Inst.linksOf (i : Inst) (slot era index : Nat) (w : Word) : List Link :=
  let slots := i.slots
  (wordLinks i.words.length index w).map fun g : GLink =>
    { src := slot, out := g.out, dst := (slots[g.dst]?).getD 0, opd := g.opd, cap := slotsOfCode g.depth, toks := [],
      sticky := fabricOpc w = 0x05, era, renew := none }

/-- The plane after a slot has taken its instance's word, or has become IDLE (R105). A word of `cfgw` that has come since the
wavefront reached the slot stands after the wavefront's word (R57). -/
def Plane.reconfigured (pl : Plane) (slot era : Nat) (i : Inst) (n : Node) : Plane :=
  let kept := pl.links.filter fun l => !(l.dst = slot && l.era = n.era && n.era != era)
  match n.shadow, i.at? slot with
  | some w, some (index, _) =>
    { pl with links := (i.linksOf slot era index w).foldl (fun ls l => addLink ls n.era l) kept
              nodes := Tab.put pl.nodes slot { Node.fresh w with index, era, config := n.config } }
  | _, _ => { pl with links := kept, nodes := Tab.drop pl.nodes slot }

/-! ### Words of `cfgw` (R57, log 130) -/

/-- A firing, or the passing of a wavefront, is under way: it ends under the word that it began with (R57). -/
def Node.underWay (n : Node) : Bool :=
  n.cur.isSome || !n.fly.isEmpty || !n.wait.isEmpty || !n.pend.isEmpty || n.phase == .held || n.phase == .emit ||
    n.phase == .reconf

/-- The link of an operand slot becomes that of a producer's target, with the tokens that it holds. -/
def Link.feed (l m : Link) : Link :=
  if l.era = m.era then { l with src := m.src, out := m.out, cap := m.cap, sticky := m.sticky }
  else { l with renew := l.renew.map fun _ => (m.era, m.out, m.cap, m.sticky) }

/-- A link feeds the operand slot that another names, in its instance or by a renewal. -/
def Link.feeds (l m : Link) : Bool :=
  l.dst = m.dst && l.opd == m.opd && (l.era = m.era || (match l.renew with | some (e, _) => e = m.era | none => false))

/-- The links after a slot's targets have changed: an operand slot that is fed on keeps its tokens; one that is fed no more
keeps them until its consumer has taken them. -/
def rewire (links : List Link) (n : Node) (slot : Nat) (mine : List Link) : List Link :=
  let mineAlready (l : Link) : Bool := [0, 1, 2].any (l.isOut n slot)
  let left := links.filterMap fun l =>
    if mineAlready l && !mine.any (l.feeds ·) then (if l.toks.isEmpty then none else some { l with out := 3, renew := none })
    else some l
  mine.foldl (fun ls m => if ls.any (·.feeds m) then updateFirst (·.feeds m) (·.feed m) ls else ls ++ [m]) left

/-- An instance with the word of one instruction replaced. -/
def Inst.withWord (i : Inst) (index : Nat) (w : Word) : Inst := { i with words := i.words.set index w }

/-- The plane after a slot has taken a word of `cfgw`: its operation and targets are the new word's from its next firing on
(R57). -/
def Plane.configured (pl : Plane) (slot : Nat) (n : Node) (w : Word) : Plane :=
  let n := { n with word := w, config := none }
  let pl := { pl with nodes := Tab.put pl.nodes slot n }
  match pl.chain with
  | none => pl
  | some c =>
    if n.era = c.era then
      let i := c.cur.withWord n.index w
      { pl with chain := some { c with cur := i }, links := rewire pl.links n slot (i.linksOf slot n.era n.index w) }
    else
      match c.next with
      | none => pl
      | some i =>
        let i := i.withWord n.index w
        { pl with chain := some { c with next := some i }, links := rewire pl.links n slot (i.linksOf slot n.era n.index w) }

/-- Turns until a plane comes after the one served last, in the order 0, 1, 2, 3, 0 (R30). -/
def turnAfter (last plane : Nat) : Nat := (plane + 3 - last) % 4

/-- A plane's links on a square take no shared entries (R31). -/
def State.inReservation (s : State) (r square k : Nat) : Bool :=
  let p := s.plane (planeKey r (k % 4))
  p.ctx.isSome && s.entriesUsed r square (k % 4) ≤ (if isMemorySlot square then p.resm else p.resd)

/-- The node that asked still waits. -/
def State.stillAsks (s : State) (x : PoolAsk) : Bool :=
  let pl := s.plane x.plane
  !pl.stopped && pl.chain.isSome &&
    (match Tab.find? pl.nodes x.slot with | some n => n.phase == .reconf | none => false)

/-- The ask of a node for a square of a region: the one that stands, or a new one. -/
def State.askOf (s : State) (r square k slot : Nat) : PoolAsk :=
  ((s.region r).asks.find? fun x => x.square = square && x.plane = k && x.slot = slot).getD
    { square, plane := k, slot, cycle := s.cycle }

/-- First come, first served; in one cycle, in the plane order after the plane granted last (R31, log 108). -/
def State.askedFirst (s : State) (r : Nat) (x y : PoolAsk) : Bool :=
  let last := Tab.getD (s.region r).granted y.square 3
  x.cycle < y.cycle || (x.cycle = y.cycle && turnAfter last (x.plane % 4) < turnAfter last (y.plane % 4))

/-- A node's ask stands since an earlier cycle: those that came with it have asked too (R31). -/
def State.hasAsked (s : State) (r square k slot : Nat) : Bool := (s.askOf r square k slot).cycle < s.cycle

/-- Another node's ask for the square comes first. -/
def State.outAsked (s : State) (r square k slot : Nat) : Bool :=
  let me := s.askOf r square k slot
  (s.region r).asks.any fun x => x.square = square && x.plane != k && s.stillAsks x && s.askedFirst r x me

/-- A node's asks entered, each in its square's region. -/
def State.ask (s : State) (k slot : Nat) (squares : List (Nat × Nat)) : State :=
  squares.foldl
    (fun s (r, q) =>
      let g := s.region r
      let x := s.askOf r q k slot
      if g.asks.contains x then s else s.setRegion r { g with asks := g.asks ++ [x] })
    s

/-- A node's asks are granted. -/
def State.grant (s : State) (k slot : Nat) (squares : List (Nat × Nat)) : State :=
  squares.foldl
    (fun s (r, q) =>
      let g := s.region r
      s.setRegion r { g with
        asks := g.asks.filter fun x => !(x.square = q && x.plane = k && x.slot = slot)
        granted := Tab.put g.granted q (k % 4) })
    s

/-- An element without a configuration is blocked, as its own plane or a fused block's knows it (R52, R56). -/
def State.isJammed (s : State) (k slot : Nat) : Bool :=
  (s.plane k).jammed.contains slot || (512 ≤ slot && (s.plane (k + 4)).jammed.contains (slot - 512)) ||
    (slot < 512 && k / 4 % 2 = 1 && (s.plane (k - 4)).jammed.contains (slot + 512))

/-- NODE_RECONFIGURE: a node in RECONF takes its shadow word and creates its links, once their slots are granted
(R31, R105, R108); without a word it becomes IDLE. A blocked element faults at the first record (R56). -/
def execNodeReconfigure (region plane slot : Nat) (s : State) : Res :=
  let k := planeKey region plane
  let pl := s.plane k
  match pl.chain, Tab.find? pl.nodes slot with
  | some c, some n =>
    let (era, i) := match c.next with | some i => (c.era + 1, i) | none => (c.era, c.cur)
    if pl.stopped || n.phase != .reconf then stall s
    else if s.isJammed k slot && n.shadow.isSome then
      .next (s.fabricFault k i.header (((i.at? slot).map Prod.fst).getD 255) 0 .blocked 0 0)
    else
      let s' := s.setPlane k (pl.reconfigured slot era i n)
      let links := (s'.plane k).links.filter fun l => l.src = slot
      let squares := links.map fun l => (regionOfSlot k l.dst, squareOf l.dst % 512)
      let shared := squares.filter fun (r, q) => !s'.inReservation r q k
      if (squares.all fun (r, q) => s'.poolHolds r q) && shared.all fun (r, q) => s.hasAsked r q k slot && !s.outAsked r q k slot
      then .next (s'.grant k slot shared)
      else .next (s.ask k slot shared)
  | _, _ => stall s

/-! ### Slices and reports -/

/-- SLICE_START: the next slice of the chain, at the sequencer that waits at its `blk` (R335). -/
def execSliceStart (seq : Nat) (s : State) : Res :=
  let v := s.seq seq
  match v.chain, v.slices with
  | some c, x :: rest =>
    if v.run == .running && v.slice.isNone && v.atChain && c.ip = v.ip && c.result.isNone then
      .next (s.setSeq seq { v with slice := some x, slices := rest, ip := BitVec.ofNat 64 x.base })
    else stall s
  | _, _ => stall s

/-- The result of a chain whose `blk` the sequencer does not resume at its level is dropped (R388). -/
def Seq.dropResult (v : Seq) : Seq :=
  let gone (c : BlkWait) : Bool := c.result.isSome && c.priv == v.priv && c.inh == EStat.inh v.estat && c.ip != v.ip
  { v with chain := v.chain.filter fun c => !gone c, parked := v.parked.filter fun c => !gone c }

/-- The running slice has fallen through past its last word: the sequencer waits at its `blk` again, and the slice no
longer holds back the commit (R335). -/
def State.endSlice (s : State) (q : Nat) : State :=
  let v := (s.seq q).dropResult
  let s := if v = s.seq q then s else s.setSeq q v
  match v.slice, v.chain, s.planeOf q with
  | some x, some c, some k =>
    if v.atChain && v.ip.toNat = x.base + 4 * x.len then
      let pl := s.plane k
      let done (ch : Chain) : Chain :=
        if x.block = ch.era then { ch with cur := { ch.cur with sliceDone := true } }
        else { ch with next := ch.next.map fun i => { i with sliceDone := true } }
      (s.setPlane k { pl with chain := pl.chain.map done }).setSeq q { v with slice := none, ip := c.ip }
    else s
  | _, _, _ => s

/-- BLKST_REPORT: a report reaches BLKST, which holds the first since V was cleared (R59). -/
def execBlkstReport (seq index : Nat) (s : State) : Res :=
  let v := s.seq seq
  match v.reports[index]? with
  | some w => .next (s.setSeq seq { v with
      reports := dropAt v.reports index, blkst := if bitAt v.blkst 63 then v.blkst else w })
  | none => stall s

end Sys2Proof.Machine
end

