-- ==== Sys2Proof/Machine/Steering.lean ====
section
/-!
DEFINITION. Steering: pips (R285), the router and its groups (R286 to R294), the nodes that feed it and that it feeds
(R296 to R299), and the sequencer's steering instructions (R304 to R307).
-/

namespace Sys2Proof.Machine

/-! ### Groups -/

def Plane.group (pl : Plane) (g : Nat) : StGroup := vget pl.groups g StGroup.empty
def Plane.setGroup (pl : Plane) (g : Nat) (x : StGroup) : Plane := { pl with groups := vput pl.groups g x }

/-- Sum of the OUT counts (R291). -/
def StGroup.outSum (g : StGroup) : Nat := g.out.toList.foldl (· + ·) 0

/-- Score_j (R286). -/
def StGroup.score (g : StGroup) (j : Nat) : Nat :=
  vget g.drop j 0 * 65536 / (vget g.seen j 0 * vget g.cost j 0)

/-- A record enters the group: to its output when its pips cover EN, else to the queue (R287). -/
def StGroup.enqueue (g : StGroup) (r : StRec) : StGroup :=
  let en : Byte := g.en
  if r.pips &&& en = en then { g with done := g.done ++ [r] } else { g with queue := g.queue ++ [r] }

/-- Records that reports on their way bring as new ones. -/
def Plane.arriving (pl : Plane) (g : Nat) : Nat :=
  pl.reports.foldl (fun n r => if r.group = g && r.kind = 1 then n + records r.tok.valid else n) 0

/-- The queue has at least 16 + ΣOUT free places (R291). Finished records that wait for `pips.out` are in the queue. -/
def Plane.admits (pl : Plane) (g : Nat) : Bool :=
  let x := pl.group g
  x.queue.length + x.done.length + pl.arriving g + 16 + x.outSum ≤ 512

/-- The entry of a lane's record, given that of its token. -/
def Entry.lane (e : Entry) (t : Token) (i : Nat) : Entry := { e with pos := lanePos t.valid e.pos i }

/-- Where the next record that a node takes enters the router. -/
def At.entry (a : At) : Entry := { node := a.node.index, bpc := (a.inst.map Inst.header).getD 0, pos := a.node.pos }

/-- The records of a token as records of the router. -/
def stRecords (t : Token) (branch : Option Nat) (entry : Entry) (set : Byte) (keep : Nat → Bool) : List StRec :=
  ((List.range 16).filter fun i => t.has i && keep i).map fun i =>
    { value := t.at i, pips := vget t.pips i 0 ||| set, branch, entry := entry.lane t i, rid := vget t.rids i 0 }

/-- Bit j of a pips byte. -/
def pip (j : Nat) : Byte := 1#8 <<< j

def groupOf (f : Fields) : Nat := (bits f.imm 0 2).toNat
def operatorOf (f : Fields) : Nat := (bits f.imm 2 3).toNat

/-- The block that opened a group has an `sroute` for operator j. -/
def Plane.hasOperator (pl : Plane) (g j : Nat) : Bool :=
  pl.nodes.any fun e =>
    (e.2.wordIn (pl.group g).era).any fun w => fabricOpc w = 0xB0 && (bits w 0 5).toNat = g + 4 * j

/-- The block instance of a number has a `pips.out` for the group. -/
def Plane.hasOutlet (pl : Plane) (g era : Nat) : Bool :=
  pl.nodes.any fun e => (e.2.wordIn era).any fun w => soleName w == some (0x1B3, g)

/-- A fault of the router at a record, which it names by the node at which the record last entered the group (R287). -/
def State.routerFault (s : State) (k : Nat) (e : Entry) : State := s.fabricFault k e.bpc e.node e.pos .stgrp 0 0

/-! ### The nodes (R296 to R299) -/

/-- A token leaves the router at a source node: records, or the group's EOT, DRAIN or FAULT. -/
def routerSource (s : State) (f : Fields) (next : StGroup → Option (Token × StGroup)) : Res :=
  asNode s fun a =>
    match a.node.phase with
    | .emit => emitStep s a f
    | .run =>
      match next (a.pl.group (groupOf f)) with
      | none => stall s
      | some (t, g) =>
        let pl := a.pl.setGroup (groupOf f) g
        let a' := { a with pl }
        if t.marker = Mk.drain then
          if a.node.passed then stall s
          else
            let n := { a.node with phase := .emit, emitting := Mk.drain, sent := [], passed := true }
            .next (s.setPlane a.plane { pl with nodes := Tab.put pl.nodes a.slot n })
        else if a.node.ended then stall s
        else fire s a' f [] (toAll t) { a.node.took t with ended := t.marker = Mk.eot } 0
    | _ => stall s

/-- `sroute` (R297): each token that the router packs for its operator, and the group's EOT and DRAIN. -/
def execSroute (f : Fields) (s : State) : Res :=
  routerSource s f fun g =>
    match Tab.getD g.routed (operatorOf f) [] with
    | t :: rest => some (t, { g with routed := Tab.put g.routed (operatorOf f) rest })
    | [] => none

/-- A token of up to sixteen records of the router (R287, R299). -/
def packRecords (l : List StRec) : Token :=
  { marker := Mk.data
    payload := lanes fun i => match l[i]? with | some r => r.value | none => 0
    valid := validBits fun i => decide (i < l.length)
    pips := lanes fun i => match l[i]? with | some r => r.pips | none => 0
    rids := lanes fun i => match l[i]? with | some r => r.rid | none => 0 }

/-- `pips.out` (R299): FAULT at once, then the finished records, and the group's EOT and DRAIN. -/
def execPipsOut (f : Fields) (s : State) : Res :=
  routerSource s f fun g =>
    match g.outMarks, g.done with
    | t :: rest, _ => some (t, { g with outMarks := rest })
    | [], [] => none
    | [], l => if g.draining then none else some (packRecords (l.take 16), { g with done := l.drop 16 })

/-- The group has taken something from the `pips.ent` of an instance: it has not ended. -/
def StGroup.opened (g : StGroup) (era : Nat) : StGroup := { g with ended := false, era }

/-- The group has taken its EOT and has not ended: a `pips.ent` of a later instance waits, since the group ends for each of
them (R290, R449). -/
def StGroup.closing (g : StGroup) : Bool := g.entEot && !g.ended

/-- Operators of a group for which the block that opened it has an `sroute`. -/
def Plane.operators (pl : Plane) (g : Nat) : List Nat := (List.range 8).filter (pl.hasOperator g)

/-- A marker from the router at some `sroute`s. -/
def StGroup.routeMark (g : StGroup) (ops : List Nat) (t : Token) : StGroup :=
  { g with routed := ops.foldl (fun m j => Tab.put m j (Tab.getD m j [] ++ [t])) g.routed }

/-- The place of a node in a group's output: the operator of an `sroute`, or 8 for `pips.out`. -/
def Node.outlet (n : Node) (g : Nat) : Option Nat :=
  match soleName n.word with
  | some (0xB0, k) => if k % 4 = g then some (k / 4) else none
  | some (0x1B3, k) => if k = g then some 8 else none
  | _ => none

/-- The group stops and emits DRAIN at every `sroute` and at `pips.out` (R292): behind what stands there for a node, or at
once at a node that has ended or still waits for an older instance. -/
def Plane.drainGroup (pl : Plane) (g : Nat) : Plane :=
  let d := Token.mark Mk.drain
  let serves (n : Node) : Bool := !n.ended && !pl.elderOpen n
  let put (x : StGroup) (e : Nat × Node) : StGroup :=
    match e.2.outlet g with
    | some j =>
      if !serves e.2 then x
      else if j = 8 then { x with outMarks := x.outMarks ++ [d] }
      else x.routeMark [j] d
    | none => x
  let node (n : Node) : Node :=
    if (n.outlet g).isSome && !serves n && n.phase == .run then
      { n with phase := .emit, emitting := Mk.drain, sent := [], passed := true }
    else n
  if (pl.group g).draining then pl
  else
    let x := { pl.nodes.foldl put (pl.group g) with draining := true }
    let nodes := pl.nodes.map fun (i, n) => (i, node n)
    { pl with nodes }.setGroup g x

/-- `pips.ent` (R290 to R292, R299): every record enters the group; EOR, FENCE, SCALE, TRIG and CFG are consumed, FAULT
goes to `pips.out` at once, and DRAIN stops the group. -/
def execPipsEnt (f : Fields) (s : State) : Res :=
  let g := groupOf f
  let enter (a : At) (taken : List Slot) (x : StGroup) (n : Node) : Res :=
    fire s { a with pl := a.pl.setGroup g x } f taken [] n 0
  asNode s fun a =>
    let hs := a.heads [.a]
    match a.node.phase, meets hs with
    | .run, .wave m =>
      if m = Mk.drain then
        fire s { a with pl := a.pl.drainGroup g } f [.a] [] a.node 0
      else wave s a [.a] m
    | _, _ =>
      stdNode s f [.a]
        (fun a _ _ t =>
          let x := (a.pl.group g).opened a.node.era
          if (a.pl.group g).closing then some (stall s)
          else if t.marker = Mk.eot then some (enter a [.a] { x with entEot := true } a.node)
          else if t.marker = Mk.fault && a.pl.hasOutlet g a.node.era then
            some (enter a [.a] { x with outMarks := x.outMarks ++ [t] } a.node)
          else some (enter a [.a] x a.node))
        fun a hs =>
          let t := headOf hs .a
          if !a.pl.admits g || (a.pl.group g).closing then stall s
          else
            let rs := stRecords t (a.branch s) a.entry 0 fun _ => true
            enter a [.a] (rs.foldl StGroup.enqueue ((a.pl.group g).opened a.node.era)) (a.node.took t)

/-- The link to port 0x18 holds as many report tokens as the depth code gives (R44, R45). -/
def Plane.reportRoom (pl : Plane) (slot : Nat) (d : BitVec 3) : Bool :=
  (pl.reports.filter fun r => r.slot = slot).length < slotsOfCode d

/-- `sret` (R298): each record at slot a is reported, kept when its lane at b carries a non-zero record; `sret.new`
reports joined records, under the condition of R291. -/
def execSret (f : Fields) (s : State) : Res :=
  let isNew := f.fn == 1
  let ins : List Slot := if isNew then [.a] else [.a, .b]
  stdNode s f ins
    (fun a hs o t =>
      if t.marker = Mk.fault then some (.next (a.fault s .streamflt 0 a.node.pos))
      else some (fire s a f (if isPositional t.marker then movingSlots hs else [o]) [] a.node 0))
    fun a hs =>
      let t := headOf hs .a
      let c := headOf hs .b
      if !a.pl.reportRoom a.slot f.dpa || (isNew && !a.pl.admits (groupOf f)) then stall s
      else
        let r : StReport :=
          { group := groupOf f, op := operatorOf f, kind := if isNew then 1 else 0, tok := t
            keep := validBits fun i => c.has i && c.at i != 0, slot := a.slot, entry := a.entry, branch := a.branch s
            count := 0 }
        fire s { a with pl := { a.pl with reports := a.pl.reports ++ [r] } } f (movingSlots hs) [] (a.node.took t) 0

/-- A `pips` form that rewrites its records: lanes whose predicate fails pass unchanged (R299). -/
def pipsForm (s : State) (f : Fields) (value : Lane → Byte → Lane) (set : Byte → Byte) : Res :=
  stdNode s f [.a] plainMarks fun a hs =>
    let t := headOf hs .a
    let on (i : Nat) : Bool := t.has i && predOk f (headOf hs .p) i
    let out := { t with
      payload := lanes fun i => if on i then value (t.at i) (vget t.pips i 0) else t.at i
      pips := lanes fun i => if on i then set (vget t.pips i 0) else vget t.pips i 0 }
    fire s a f (movingSlots hs) [(0, out), (1, out)] (a.node.took t) 0

/-- `pips.rd` (R299). -/
def execPipsRd (f : Fields) (s : State) : Res := pipsForm s f (fun _ p => p.setWidth 32) id

/-- `pips.set` (R299). -/
def execPipsSet (f : Fields) (s : State) : Res := pipsForm s f (fun x _ => x) fun p => p ||| bits f.imm 0 8

/-- `pips.clr` (R299). -/
def execPipsClr (f : Fields) (s : State) : Res := pipsForm s f (fun x _ => x) fun p => p &&& ~~~(bits f.imm 0 8)

/-! ### The router (R287 to R290) -/

/-- The operator that a record goes to: the highest score among its candidates, the lowest number on a tie. -/
def StGroup.pick (g : StGroup) (p : Byte) : Option Nat :=
  let ok (j : Nat) : Bool :=
    let aft : Byte := vget g.aft j 0
    bitAt g.en j && !bitAt p j && p &&& aft == aft
  ((List.range 8).filter ok).foldl
    (fun best j => match best with
      | some b => if g.score b < g.score j then some j else some b
      | none => some j)
    none

/-- Records of one decision cycle, with the operators they go to; it stops before a record whose operator has no
`sroute`. -/
def Plane.decide (pl : Plane) (gi : Nat) (g : StGroup) : List StRec → List (StRec × Nat)
  | [] => []
  | r :: rest =>
    match g.pick r.pips with
    | some j => if pl.hasOperator gi j then (r, j) :: pl.decide gi g rest else []
    | none => []

/-- ROUTER_DISPATCH (R287, R288): up to sixteen records from the head of the queue, or one under batch when every OUT is
0, all with the counters as they stand. -/
def execRouterDispatch (region plane group : Nat) (s : State) : Res :=
  let k := planeKey region plane
  let pl := s.plane k
  let g := pl.group group
  match g.queue with
  | [] => stall s
  | first :: _ =>
    if pl.stopped || g.draining || (g.batch && g.outSum != 0) then stall s
    else
      let sent := pl.decide group g (g.queue.take (if g.batch then 1 else 16))
      if sent.isEmpty then .next (s.routerFault k first.entry)
      else
        let routed := (List.range 8).foldl
          (fun m j =>
            let l := (sent.filter fun x => x.2 = j).map Prod.fst
            if l.isEmpty then m else Tab.put m j (Tab.getD m j [] ++ [packRecords l]))
          g.routed
        let out := sent.foldl (fun v x => vput v x.2 (vget v x.2 0 + 1)) g.out
        let away := g.away ++ sent.map fun x => (x.1.rid, x.1.entry)
        .next (s.setPlane k (pl.setGroup group { g with queue := g.queue.drop sent.length, routed, out, away }))

/-- The halving of R289. -/
def StGroup.halve (g : StGroup) (j : Nat) : StGroup :=
  if vget g.seen j 0 = g.w then
    { g with seen := vput g.seen j (vget g.seen j 0 / 2), drop := vput g.drop j (vget g.drop j 0 / 2) }
  else g

/-- A report counted: OUT falls and SEEN rises, and DROP when the record was dropped (R289, R294). -/
def StGroup.counted (g : StGroup) (j : Nat) (dropped : Bool) : StGroup :=
  { g with
    out := vput g.out j (vget g.out j 0 - 1)
    seen := vput g.seen j (vget g.seen j 0 + 1)
    drop := if dropped then vput g.drop j (vget g.drop j 0 + 1) else g.drop }

/-- One record of a report applied; `none` is STGRP (R289, R294, R308). -/
def StGroup.report (g : StGroup) (r : StReport) (x : StRec) (keep : Bool) : Option StGroup :=
  let j := r.op
  if r.kind = 1 then
    if bitAt g.jn j then some ({ g with joined := g.joined - 1 }.enqueue x) else none
  else if vget g.out j 0 = 0 || (r.kind = 2 && !bitAt g.jn j) then none
  else if r.kind = 2 then
    some ({ g.counted j (r.count = 0) with joined := g.joined + (r.count : Int) }.halve j)
  else
    let h := g.counted j !keep
    some ((if keep then h.enqueue x else h).halve j)

/-- Where a reported record last entered its group (R287): the node and stream position at which it was queued before it
went to the operator; a joined record, or one that the router never sent out, at the reporting node. -/
def StGroup.entered (g : StGroup) (r : StReport) (i : Nat) : Entry :=
  let here := r.entry.lane r.tok i
  if r.kind = 1 then here
  else match g.away.find? fun e => e.1 = vget r.tok.rids i 0 with
    | some e => e.2
    | none => here

/-- A record has come back from its operator. -/
def StGroup.back (g : StGroup) (rid : Nat) : StGroup := { g with away := g.away.filter fun e => e.1 != rid }

/-- The lanes of a report in ascending order; with the lane at which STGRP is raised, if any. -/
def StGroup.reportLanes (g : StGroup) (r : StReport) : List Nat → StGroup × Option Nat
  | [] => (g, none)
  | i :: rest =>
    if !r.tok.has i then g.reportLanes r rest
    else
      let x : StRec :=
        { value := r.tok.at i, pips := vget r.tok.pips i 0 ||| pip r.op, branch := r.branch
          entry := r.entry.lane r.tok i, rid := vget r.tok.rids i 0 }
      match g.report r x (bitAt r.keep i) with
      | some h => (if r.kind = 1 then h else h.back x.rid).reportLanes r rest
      | none => (g, some i)

/-- ROUTER_REPORT (R289, R294): the oldest report. At STGRP the rest of it stays (R70). -/
def execRouterReport (region plane : Nat) (s : State) : Res :=
  let k := planeKey region plane
  let pl := s.plane k
  match pl.reports with
  | [] => stall s
  | r :: rest =>
    if pl.stopped then stall s
    else
      match (pl.group r.group).reportLanes r (List.range 16) with
      | (g, none) => .next (s.setPlane k ({ pl with reports := rest }.setGroup r.group g))
      | (g, some i) =>
        let r' := { r with tok := r.tok.restrict fun x => decide (i ≤ x), entry := r.entry.lane r.tok i }
        .next ((s.setPlane k ({ pl with reports := r' :: rest }.setGroup r.group g)).routerFault k (g.entered r i))

/-- Every `sjoin.op` of the group, in the block that opened it, has taken EOT at slot b. -/
def Plane.joinsEnded (pl : Plane) (g : Nat) : Bool :=
  let era := (pl.group g).era
  pl.nodes.all fun e =>
    match e.2.wordIn era with
    | some w => !(fabricOpc w = 0xB7 && bitAt w 50 && (bits w 4 2).toNat = g) || (e.2.era = era && (e.2.turn || e.2.ended))
    | none => true

/-- The group can end (R290). -/
def Plane.groupOver (pl : Plane) (g : Nat) : Bool :=
  let x := pl.group g
  !x.ended && x.entEot && x.queue.isEmpty && x.done.isEmpty && x.outSum = 0 && x.joined = 0 && pl.joinsEnded g &&
    !(pl.reports.any fun r => r.group = g)

/-- GROUP_END (R290): EOT at `pips.out` and at every `sroute` of the group, in the block that opened it. -/
def execGroupEnd (region plane group : Nat) (s : State) : Res :=
  let k := planeKey region plane
  let pl := s.plane k
  if pl.stopped || (pl.group group).draining || !pl.groupOver group then stall s
  else
    let x := pl.group group
    let t := Token.mark Mk.eot
    let outMarks := if pl.hasOutlet group x.era then x.outMarks ++ [t] else x.outMarks
    .next (s.setPlane k (pl.setGroup group
      { x.routeMark (pl.operators group) t with outMarks, entEot := false, ended := true, away := [] }))

/-- The groups of a plane without the records, reports and markers of a chain that is gone (R388, log 24). -/
def Plane.discardGroups (pl : Plane) : Plane :=
  let clear (g : StGroup) : StGroup :=
    { g with queue := [], done := [], routed := [], outMarks := [], entEot := false, joined := 0, ended := true,
             draining := false, out := Vector.replicate 8 0, away := [] }
  { pl with groups := pl.groups.map clear, reports := [] }

/-! ### Sequencer instructions (R304 to R307) -/

/-- The enabled AFT relation has no cycle: operators are taken away, round by round, once all that they follow have
been (R305). -/
def aftAcyclic (en : BitVec 8) (aft : Nat → BitVec 8) : Nat → BitVec 8 → Bool
  | 0, done => done == en
  | n + 1, done =>
    aftAcyclic en aft n ((List.range 8).foldl
      (fun d j => if bitAt en j && aft j &&& done == aft j then d ||| (1#8 <<< j) else d) done)

/-- A descriptor that `steer` accepts for its masks: byte 2j is COST_j, byte 2j + 1 AFT_j (R305). -/
def steerOk (en : BitVec 8) (bs : List Byte) : Bool :=
  let cost (j : Nat) : Nat := ((bs[2 * j]?).getD 0).toNat
  let aft (j : Nat) : BitVec 8 := (bs[2 * j + 1]?).getD 0
  ((List.range 8).all fun j => !bitAt en j || (cost j != 0 && aft j &&& ~~~en == 0 && !bitAt (aft j) j)) &&
    aftAcyclic en aft 8 0

/-- The group as `steer` leaves it: configured, its counters as at the start and its queue empty; what the group has still to
give `sroute` and `pips.out` stays (R305). -/
def StGroup.steered (g : StGroup) (w : Nat) (batch : Bool) (en jn : BitVec 8) (bs : List Byte) : StGroup :=
  { g with
    en, jn, w, batch, seen := Vector.replicate 8 2, drop := Vector.replicate 8 1, out := Vector.replicate 8 0, queue := []
    cost := #v[((bs[0]?).getD 0).toNat, ((bs[2]?).getD 0).toNat, ((bs[4]?).getD 0).toNat, ((bs[6]?).getD 0).toNat,
      ((bs[8]?).getD 0).toNat, ((bs[10]?).getD 0).toNat, ((bs[12]?).getD 0).toNat, ((bs[14]?).getD 0).toNat]
    aft := #v[(bs[1]?).getD 0, (bs[3]?).getD 0, (bs[5]?).getD 0, (bs[7]?).getD 0, (bs[9]?).getD 0, (bs[11]?).getD 0,
      (bs[13]?).getD 0, (bs[15]?).getD 0] }

/-- `steer` (R305): waits until the group has ended, reads the descriptor as one event, and sets the group. In a dead
branch's KV slot the descriptor reads as zeros (R360). -/
def execSteer (grp : BitVec 2) (a : SReg) (win : BitVec 13) (batch : Bool) (en jn : BitVec 8) (s : State) : Res :=
  issueAs s .user false fun q =>
    withPlane s q fun k =>
      let v := s.seq q
      let va := v.read a
      let bad (s : State) : Res := .next ((s.setSeq q ((s.seq q).setWait .none)).raise q .stval va)
      let set (bs : List Byte) : State :=
        s.setPlane k ((s.plane k).setGroup grp.toNat (((s.plane k).group grp.toNat).steered win.toNat batch en jn bs))
      match v.stage with
      | .pending => stall s
      | .back _ bs _ hit =>
        if steerOk en bs then .next ((set bs).doneWait q 8 hit) else bad s
      | .fresh =>
        if !v.ready a || !((s.plane k).group grp.toNat).ended then stall s
        else if va.toNat % 16 != 0 || win.toNat < 4 || 4096 < win.toNat || jn &&& ~~~en != 0 then bad s
        else
          match s.reach q (reqLoad q) va 16 .read with
          | .out t => .next t
          | .void =>
            let bs := List.replicate 16 (0 : Byte)
            if steerOk en bs then .next ((set bs).advance q 8) else bad s
          | .to p =>
            let e := { s.seqEvent q va 16 p .read with dest := .wait q, watched := false }
            .next ((s.place q e).await q 8 s.nextId none)

/-- `stcnt` (R306): the operator's counters in the layout of Table 11-5. -/
def execStcnt (d : SReg) (grp : BitVec 2) (op : BitVec 3) (s : State) : Res :=
  issueAs s .user false fun q =>
    withPlane s q fun k =>
      let g := (s.plane k).group grp.toNat
      let j := op.toNat
      if !(s.seq q).ready d then stall s
      else
        let score := if bitAt g.en j then g.score j else 0
        .next (s.finish q d
          (BitVec.ofNat 32 score ++ BitVec.ofNat 16 (vget g.seen j 0) ++ BitVec.ofNat 16 (vget g.drop j 0)) 4)

/-- `stcnt.wr` (R306). -/
def execStcntWr (a : SReg) (grp : BitVec 2) (op : BitVec 3) (s : State) : Res :=
  issueAs s .user false fun q =>
    withPlane s q fun k =>
      let v := s.seq q
      let pl := s.plane k
      let g := pl.group grp.toNat
      if !v.ready a then stall s
      else
        let seen := (bits (v.read a) 16 16).toNat
        let drop := (bits (v.read a) 0 16).toNat
        if seen < 1 || g.w ≤ seen || seen < drop then .next (s.raise q .stval 0)
        else
          .next ((s.setPlane k (pl.setGroup grp.toNat
            { g with seen := vput g.seen op.toNat seen, drop := vput g.drop op.toNat drop })).advance q 4)

/-- `smenu` (R307): thresholds and shape codes of a menu. Bits of sA above the thresholds must be zero (log 25). -/
def execSmenu (a b : SReg) (menu : BitVec 2) (s : State) : Res :=
  issueAs s .user false fun q =>
    withPlane s q fun k =>
      let v := s.seq q
      if !v.allReady [a, b] then stall s
      else
        let x := v.read a
        let t (i : Nat) : Nat := (bits x (16 * i) 16).toNat
        if bits x 48 16 != 0 || t 1 < t 0 || t 2 < t 1 then .next (s.raise q .stval 0)
        else
          let pl := s.plane k
          .next ((s.setPlane k { pl with menus := vput pl.menus menu.toNat (bits x 0 48, v.read b) }).advance q 4)

/-- `tmenu` (R303): the shape code of the menu that the instance took at its launch. -/
def execTmenu (f : Fields) (s : State) : Res :=
  laneNode s f [.a] fun a v =>
    let m := match a.inst with | some i => vget i.snap.menus (bits f.imm 0 2).toNat (0, 0) | none => (0, 0)
    let x : Int := if f.ty == .i32 then max 0 (v .a).toInt else (v .a).toNat
    let t (i : Nat) : Int := (bits m.1 (16 * i) 16).toNat
    let k := if x ≤ t 0 then 0 else if x ≤ t 1 then 1 else if x ≤ t 2 then 2 else 3
    ((bits m.2 (16 * k) 16).setWidth 32, 0)

end Sys2Proof.Machine
end

