-- ==== Sys2Proof/Machine/Branches.lean ====
section
/-!
DEFINITION. The game tree: `fork`, `resign` and its walker, `bwait`, `brinfo`, and the page pool's `alloc` and `free`
(R356 to R364, R371 to R375).
-/

namespace Sys2Proof.Machine

/-! ### What the instructions of chapter 14 share -/

/-- The user context that an instruction acts on, with its number; a root core that holds none raises SYSVAL (log 28). -/
def withCtx (s : State) (q : Nat) (f : Nat → Ctx → Res) : Res :=
  match s.ctxOf q with
  | some n => (match s.ctx? n with
    | some c => f n c
    | none => .next (s.raise q .sysval 0))
  | none => .next (s.raise q .sysval 0)

/-- Bits of TSTAT (Table 14-2). -/
def tsigu : Nat := 2
def forkf : Nat := 1
def allocf : Nat := 0

/-- A bit of TSTAT set. -/
def State.setTstat (s : State) (q bit : Nat) : State :=
  let v := s.seq q
  s.setSeq q { v with tstat := setBit v.tstat bit true }

def allOnes : Word := BitVec.allOnes 64

/-- An operand that R371, R372, R373 and R374 take as a branch number. -/
def isBranchNo (x : Word) : Bool := decide (x.toNat < 65536)

/-- A dead entry is free once the walker has finished with it and its ACT is 0 (R357). -/
def Ctx.settleBranch (c : Ctx) (b : Nat) : Ctx :=
  let e := c.branch b
  if e.st = 2 && e.act = 0 && !c.marked.contains b then { c with branches := Tab.drop c.branches b } else c

/-- One task less of a branch queued or running (R353). -/
def Ctx.endTask (c : Ctx) (b : Option Nat) : Ctx :=
  match b with
  | none => c
  | some b => (c.setBranch b { c.branch b with act := (c.branch b).act - 1 }).settleBranch b

/-! ### fork (R371) -/

/-- The lowest run of n free numbers below NBR within one aligned group of 64. -/
def Ctx.freeRun (c : Ctx) (n : Nat) : Option Nat :=
  List.find? (fun b => b % 64 + n ≤ 64 && (List.range n).all fun k => decide (b + k < c.nbr) && (c.branch (b + k)).st = 0)
    (List.range c.nbr)

/-- Live branches of the module. -/
def State.liveBranches (s : State) : Nat := (s.ctxs.map fun e => e.2.liveBranches.length).sum

/-- A branch without children, tasks or barrier, as `fork` makes it from its parent. -/
def Branch.child (p : Nat) (e : Branch) : Branch :=
  { Branch.free with st := 1, parent := p, len := e.len, head := e.head, depth := e.depth + 1 }

/-- Numbers that are used again are dead no longer in any copy of the marking. -/
def State.undead (s : State) (ctx : Nat) (bs : List Nat) : State :=
  let keep (l : List (Nat × Nat)) : List (Nat × Nat) := l.filter fun e => !(e.1 = ctx && bs.contains e.2)
  { s with regions := s.regions.map fun (r, x) => (r, { x with dead := keep x.dead })
           disps := s.disps.map fun (p, x) => (p, { x with dead := keep x.dead }) }

/-- The children c to c + n − 1 of branch p, and their membership of its barriers (R322); `who` is the region of the fork. -/
def State.addChildren (s : State) (who : Option Nat) (ctx : Nat) (x : Ctx) (p c n : Nat) : State :=
  let e := x.branch p
  let bs := (List.range n).map (c + ·)
  let x := bs.foldl (fun x b => x.setBranch b (Branch.child p e)) x
  let x := match x.chunk? e.head with
    | some k => if 0 < e.len then x.setChunk e.head { k with ref := k.ref + n } else x
    | none => x
  let x := x.setBranch p { e with nch := e.nch + n }
  let s := (s.undead ctx bs).setCtx ctx x
  let s := match e.bar with | some va => s.changeMembers who ctx va true bs | none => s
  match e.rootOf with | some va => if e.bar = some va then s else s.changeMembers who ctx va true bs | none => s

/-- `fork` (R371). -/
def execFork (d a b : SReg) (s : State) : Res :=
  issueAs s .user false fun q =>
    let v := s.seq q
    if !v.allReady [d, a, b] then stall s
    else withCtx s q fun ctx x =>
      let p := v.read a
      let n := (v.read b).toNat
      if !isBranchNo p || n < 1 || 64 < n then .next (s.raise q .brval 0)
      else
        let own := match v.branch with | some o => x.isLive o | none => true
        match x.freeRun n with
        | some c =>
          if !x.isLive p.toNat || !own || 1048576 < s.liveBranches + n then
            .next ((s.setTstat q forkf).finish q d allOnes 4)
          else .next ((s.addChildren (agentRegion (.seq q)) ctx x p.toNat c n).finish q d (BitVec.ofNat 64 c) 4)
        | none => .next ((s.setTstat q forkf).finish q d allOnes 4)

/-! ### resign, the marking and the walker (R362, R372) -/

/-- A branch and its live subtree marked dead, as one action (R362). -/
def Ctx.mark (c : Ctx) (b : Nat) : Ctx :=
  let dead := c.liveBranches.filter (c.below b)
  { dead.foldl (fun c x => c.setBranch x { c.branch x with st := 2 }) c with marked := unionIds c.marked dead }

/-- The marking of a branch has reached a region's liveness copy, or the branch's entry is in use for it no longer. -/
def State.markedIn (s : State) (q ctx b : Nat) (c : Ctx) : Bool :=
  (s.region q).dead.contains (ctx, b) || (c.branch b).st != 2

/-- `resign` (R372): a branch that is not live is left alone. One that is live is marked at its home; the sequencer goes
on when the marking has reached the liveness copy of its region (R451). -/
def execResign (a : SReg) (s : State) : Res :=
  issueAs s .user false fun q =>
    let v := s.seq q
    if !v.ready a then stall s
    else withCtx s q fun ctx c =>
      let b := v.read a
      if b = 0 || !isBranchNo b then .next (s.raise q .brval 0)
      else if v.wait = .marking v.ip then
        if s.markedIn q ctx b.toNat c then .next ((s.setSeq q (v.setWait .none)).advance q 4) else stall s
      else if c.isLive b.toNat then .next ((s.setCtx ctx (c.mark b.toNat)).setSeq q (v.setWait (.marking v.ip)))
      else .next (s.advance q 4)

/-- Branches of a context that are marked or dead, with the context. -/
def Ctx.deadPairs (c : Ctx) (ctx : Nat) : List (Nat × Nat) :=
  (c.branches.filter fun e => e.2.st = 2).map fun e => (ctx, e.1)

/-- MARKING_PROPAGATE (R362): the marking reaches the liveness copy of a region and its translation units, 0 to 131, the
root cores' among them; or the dispatcher of partition index − 132. -/
def execMarkingPropagate (ctx index : Nat) (s : State) : Res :=
  match s.ctx? ctx with
  | none => stall s
  | some c =>
    let more (l : List (Nat × Nat)) : List (Nat × Nat) :=
      l ++ (c.deadPairs ctx).filter fun e => !l.contains e
    if index < 132 then
      let r := s.region index
      .next (s.setRegion index { r with dead := more r.dead })
    else
      let d := Tab.getD s.disps (index - 132) Dispatcher.empty
      .next { s with disps := Tab.put s.disps (index - 132) { d with dead := more d.dead } }

/-- The head reference of a branch dropped, with the chunks and frames that reach 0, and its parent's NCH lowered. -/
def Ctx.release (c : Ctx) (b : Nat) : Ctx :=
  let e := c.branch b
  let c := if e.len = 0 then c else c.unrefChunk (chunksOf e.len) e.head
  let c := c.setBranch b { e with len := 0, head := 0 }
  let p := c.branch e.parent
  c.setBranch e.parent { p with nch := p.nch - 1 }

/-- Records of some branches retired from the steering queues of a plane. -/
def Plane.squashQueues (pl : Plane) (bs : List Nat) : Plane :=
  let keep (r : StRec) : Bool := match r.branch with | some b => !bs.contains b | none => true
  { pl with groups := pl.groups.map fun g => { g with queue := g.queue.filter keep, done := g.done.filter keep } }

/-- Addresses of the barriers that some branches record. -/
def Ctx.barriersOf (c : Ctx) (bs : List Nat) : List Nat :=
  bs.foldl (fun l b => match (c.branch b).bar with
    | some va => if l.contains va then l else l ++ [va]
    | none => l) []

/-- What the agents still hold for the slots of branches that the walker frees performs no event there: a write that has not
committed is discarded, and a read or an RMW that has not been performed returns zeros (R360, R363). -/
def State.voidBranches (s : State) (ctx : Nat) (c : Ctx) (bs : List Nat) : State :=
  let mine (e : Ev) : Bool := e.isAccess && !e.parked && e.mkind != 2 && decide (e.ctx = ctx) &&
    (match c.kvWindow with
      | some (base, span) =>
        decide (base ≤ e.va) && decide (e.va < base + 65536 * span) && bs.contains ((e.va - base) / span)
      | none => false)
  s.agents.foldl
    (fun s (a, g) =>
      let rest (l : List Ev) : List Ev := l.filter fun e => !mine e
      let t := s.setAgent a { g with q := rest g.q, buf := rest g.buf, rmws := rest g.rmws }
      ((g.q ++ g.rmws).filter mine).foldl (fun t e => t.answer a { dest := e.dest, bytes := [], tag := 0, bad := none }) t)
    s

/-- The walker's changes for a set of marked branches, in the order of R362 for each of them (R451): the page lists and
the counts, then the barriers, in one RMW for the members of each (R322), then the steering queues. -/
def State.walkBranches (s : State) (ctx : Nat) (c : Ctx) (bs : List Nat) : State :=
  let s := (s.voidBranches ctx c bs).setCtx ctx (bs.foldl Ctx.release c)
  let s := (c.barriersOf bs).foldl
    (fun s va => s.changeMembers none ctx va false (bs.filter fun b => (c.branch b).bar = some va)) s
  match s.ctx? ctx with
  | none => s
  | some c =>
    let c := { c with marked := c.marked.filter fun b => !bs.contains b }
    let c := bs.foldl Ctx.settleBranch c
    { s.setCtx ctx c with
      planes := s.planes.map fun (k, p) => (k, if p.ctx = some ctx then p.squashQueues bs else p) }

/-- RESIGN_WALK (R362): the walk of the subtree that one `resign` has marked, whose root is `branch`. -/
def execResignWalk (ctx branch : Nat) (s : State) : Res :=
  match s.ctx? ctx with
  | none => stall s
  | some c =>
    if !c.marked.contains branch || c.marked.contains (c.branch branch).parent then stall s
    else .next (s.walkBranches ctx c (c.marked.filter (c.below branch)))

/-! ### bwait and brinfo (R373, R374) -/

/-- A child that is dead, or that has run and has no task left. -/
def Branch.finished (e : Branch) : Bool := e.st != 1 || (e.ran && e.act = 0)

/-- Every child of a branch is finished; branch 0 is no child, though its PARENT reads 0. -/
def Ctx.childrenDone (c : Ctx) (b : Nat) : Bool :=
  c.branches.all fun e => e.1 = 0 || e.2.parent != b || e.2.finished

/-- `bwait` (R373): it looks when it starts and after every wake, until the children are finished or its cycles have
passed. -/
def execBwait (d a b : SReg) (s : State) : Res :=
  issueAs s .user false fun q =>
    let v := s.seq q
    if !v.allReady [d, a, b] then stall s
    else withCtx s q fun _ c =>
      let x := v.read a
      if !isBranchNo x then .next (s.raise q .brval 0)
      else
        let limit : Option Nat := if v.read b = allOnes then none else some (v.read b).toNat
        let stop (r : Word) : Res := .next ((s.setSeq q (v.setWait .none)).finish q d r 4)
        let look (left : Option Nat) : Res :=
          if c.childrenDone x.toNat then stop 1
          else if left = some 0 then stop 0
          else .next (s.setSeq q (v.setWait (.timed v.ip left none true)))
        match v.wait with
        | .timed ip left _ asleep => if ip != v.ip then look limit else if asleep then stall s else look left
        | _ => look limit

/-- Word n of a branch table entry (Table 14-4). -/
def Branch.entryWord (e : Branch) (n : Nat) : Word :=
  match n with
  | 0 => BitVec.ofNat 2 e.st ++ bit1 e.ran ++ (0 : BitVec 13) ++ BitVec.ofNat 16 e.parent ++ BitVec.ofNat 16 e.nch ++
      BitVec.ofNat 16 e.act
  | 1 => e.barph ++ bit1 e.bar.isSome ++ BitVec.ofNat 47 (e.bar.getD 0 / 32)
  | 2 => BitVec.ofNat 16 e.len ++ (0 : BitVec 4) ++ BitVec.ofNat 44 (e.head / 256)
  | _ => (0 : BitVec 48) ++ BitVec.ofNat 16 e.depth

/-- The 32 bytes of a branch's entry (Table 14-4). -/
def Branch.bytes (e : Branch) : List Byte := (List.range 4).flatMap fun n => leBytes 8 (e.entryWord n).toNat

/-- The 256 bytes of a chunk (Table 14-5). -/
def Chunk.bytes (k : Chunk) : List Byte :=
  leBytes 8 (k.ref % 2 ^ 32 + 2 ^ 32 * (k.ptrs.length % 32)) ++ leBytes 8 k.prev ++ List.replicate 48 0 ++
    ((List.range 16).flatMap fun i => leBytes 8 ((k.ptrs[i]?).getD 0)) ++ List.replicate 64 0

/-- The bytes of a context's branch area that a turn has changed: the entries of its branch table and its chunks, where
R356 lays them out. -/
def Ctx.areaCells (old c : Ctx) : List (Nat × Byte) :=
  let same := old.area = c.area && old.areaKind == c.areaKind
  let entry (b : Nat) (e : Branch) : List (Nat × Byte) := keyed (physKey c.areaKind (c.area + 32 * b)) e.bytes
  (c.branches.flatMap fun x => if same && Tab.find? old.branches x.1 == some x.2 then [] else entry x.1 x.2) ++
    (old.branches.flatMap fun x => if (Tab.find? c.branches x.1).isSome then [] else entry x.1 Branch.free) ++
    (c.chunks.flatMap fun x => if same && Tab.find? old.chunks x.1 == some x.2 then []
      else keyed (physKey c.areaKind x.1) x.2.bytes)

/-- The bytes of a new context's branch table (R357): its entries, branch 0 among them, and zeros elsewhere. -/
def Memory.freshTable (m : Memory) (c : Ctx) : List (Nat × Byte) :=
  let base := physKey c.areaKind c.area
  let held := (m.cells ++ m.recent.flatMap fun w => w.cells).map fun x => x.1
  let free (k : Nat) : Bool :=
    decide (base ≤ k) && decide (k < base + 32 * c.nbr) && (Tab.find? c.branches ((k - base) / 32)).isNone
  if c.nbr = 0 then []
  else (c.branches.flatMap fun x => keyed (base + 32 * x.1) x.2.bytes) ++ ((held.filter free).eraseDups.map fun k => (k, 0))

/-- The branch areas hold in memory what the contexts' tables and chunks have become in a turn (R356, R357, R359). -/
def State.writeAreas (old new : State) : State :=
  new.ctxs.foldl
    (fun s (n, c) =>
      match (match old.ctx? n with | some o => o.areaCells c | none => new.mem.freshTable c) with
      | x :: rest => { s with mem := s.mem.poke 0 (x :: rest) }
      | [] => s)
    new

/-- `brinfo` (R374): a free entry, and a number from NBR, read as zero. -/
def execBrinfo (d a : SReg) (n : BitVec 2) (s : State) : Res :=
  issueAs s .user false fun q =>
    let v := s.seq q
    if !v.allReady [d, a] then stall s
    else withCtx s q fun _ c =>
      let b := v.read a
      if !isBranchNo b then .next (s.raise q .brval 0)
      else
        let e := c.branch b.toNat
        .next (s.finish q d (if decide (b.toNat < c.nbr) && e.st != 0 then e.entryWord n.toNat else 0) 4)

/-! ### alloc and free (R375) -/

/-- Address of a frame in the pool window. -/
def Ctx.frameVa (c : Ctx) (f : Nat) : Nat := (bits c.pwin 16 36).toNat * 2 ^ 16 + f * 2 ^ 16

/-- `alloc` (R375): a free frame, with the contents it last held. -/
def execAlloc (d : SReg) (s : State) : Res :=
  issueAs s .user false fun q =>
    let v := s.seq q
    if !v.ready d then stall s
    else withCtx s q fun ctx c =>
      match s.takeFrame ctx c with
      | none => .next ((s.setTstat q allocf).finish q d 0 4)
      | some (f, c, s) =>
        .next ((s.setCtx ctx (c.setFrame f { fref := 1, held := true })).finish q d (BitVec.ofNat 64 (c.frameVa f)) 4)

/-- A frame appended to a branch's list, whose head has room or is made private first: the context after and the free
choices made. -/
def Ctx.appendPage (c : Ctx) (b f n : Nat) : Option (Ctx × Nat) :=
  let e := c.branch b
  let grow (c : Ctx) : Ctx := c.setBranch b { c.branch b with len := e.len + 1 }
  if e.len % 16 = 0 then
    match pickOf c.freeChunks (Config.freeIndex n) with
    | none => none
    | some new =>
      let c := c.setChunk new { ref := 1, prev := e.head, ptrs := [f] }
      some (grow (c.setBranch b { e with head := new }), n + 1)
  else
    let (c, n, ok) := c.privatize b (e.len - 1) 1 n
    let head := (c.branch b).head
    match ok, c.chunk? head with
    | true, some k => some (grow (c.setChunk head { k with ptrs := k.ptrs ++ [f] }), n)
    | _, _ => none

/-- `alloc.kv` (R375): a fresh frame becomes page LEN of a branch. It fails in the four cases of R375, the empty chunk
region whether or not a chunk is needed (log 29). -/
def execAllocKv (d a : SReg) (s : State) : Res :=
  issueAs s .user false fun q =>
    let v := s.seq q
    if !v.allReady [d, a] then stall s
    else withCtx s q fun ctx c =>
      let fail : Res := .next ((s.setTstat q allocf).finish q d 0 4)
      let b := (v.read a).toNat
      let len := (c.branch b).len
      match c.kvWindow with
      | none => fail
      | some (base, span) =>
        if !c.isLive b || span / 65536 ≤ len || c.freeChunks.isEmpty then fail
        else
          match s.takeFrame ctx c with
          | none => fail
          | some (f, c, t) =>
            match c.appendPage b f t.frees with
            | none => fail
            | some (c, n) =>
              .next (({ t.setCtx ctx c with frees := n }).finish q d (BitVec.ofNat 64 (base + b * span + len * 65536)) 4)

/-- A frame that a chunk points to. -/
def Ctx.inList (c : Ctx) (f : Nat) : Bool := c.chunks.any fun e => e.2.ptrs.contains f

/-- `free` (R375). -/
def execFree (d a : SReg) (s : State) : Res :=
  issueAs s .user false fun q =>
    let v := s.seq q
    if !v.allReady [d, a] then stall s
    else withCtx s q fun ctx c =>
      let x := (v.read a).toNat
      let base := c.frameVa 0
      let f := (x - base) / 65536
      if base ≤ x && (x - base) % 65536 = 0 && f < c.poolFrames && (c.frame f).fref = 1 && !c.inList f then
        .next ((s.setCtx ctx (c.setFrame f { fref := 0, held := false })).finish q d 0 4)
      else .next (s.finish q d 1 4)

end Sys2Proof.Machine
end

