-- ==== Sys2Proof/Machine/System.lean ====
section
/-!
DEFINITION. Traps and their return (R383 to R385), asynchronous events (R384), fault tokens (R390 to R392), watchpoints
(R393, R395), `tlbi` (R401), `halt` and `cfgw` (R402, R403), and the system registers (R404, R405).
-/

namespace Sys2Proof.Machine

/-! ### trap, eret and asynchronous events -/

/-- `trap` (R385): the service number is the address that the trap records. -/
def execTrap (n : BitVec 19) (s : State) : Res :=
  issueAs s .user false fun q => .next (s.takeTrap q .svc (n.setWidth 64) ((s.seq q).ip + 4))

/-- The wait of the mode to which `eret` has returned: that of the instruction which issues again is kept, and looks
again (R326, R373, R384). -/
def Seq.resumed (v : Seq) : Seq :=
  match v.wait with
  | .timed ip .. => if ip = v.ip then v.wake else v.setWait .none
  | _ => v.setWait .none

/-- `eret` (R385). -/
def execEret (s : State) : Res :=
  issueAs s .privileged false fun q =>
    let s := s.returnFromTrap q
    .next (s.setSeq q (s.seq q).resumed)

/-- The sequencer stands between two instructions, or in one of those that wait there (R384): not in one that waits for
its event, goes through a range or an image, or drains an array. -/
def State.betweenInstrs (s : State) (q : Nat) : Bool :=
  !s.waitReads q && (match (s.seq q).wait with | .none => true | .timed .. => true | _ => false) &&
    !(s.planes.any fun e => e.2.saver == some q) && !(s.arr q 0).draining && !(s.arr q 1).draining

/-- A sequencer is held: an image is being taken of its context by another (R396), or its context is paused (R416); a
handler goes on to its `eret`. -/
def State.seqHeld (s : State) (q : Nat) : Bool :=
  match s.planeOf q with
  | none => false
  | some k =>
    let pl := s.plane k
    let taken := match pl.saver with | some w => w != q | none => false
    let paused := match pl.ctx.bind s.ctx? with | some c => c.state == .suspended | none => false
    (taken || paused) && !EStat.inh (s.seq q).estat

/-- ASYNC_EVENT (R384): a fabric fault of the chain, else ENGFLT, else FTOKIN. A sequencer that is held for an image takes
none: what it has not taken stands in the image (R396, R407). -/
def execAsyncEvent (seq : Nat) (s : State) : Res :=
  if (s.seq seq).run != .running || EStat.inh (s.seq seq).estat || s.seqHeld seq || !s.betweenInstrs seq then stall s
  else
    let s := s.endSlice seq
    let v := s.seq seq
    match v.pendFault with
    | some (c, addr) =>
      let s := s.setSeq seq { v with pendFault := none, estat := v.estat &&& ~~~(4 : Word) }
      .next (s.takeTrap seq c addr v.ip)
    | none =>
      if bitAt v.sctl 0 && bitAt v.eflt 63 then .next (s.takeTrap seq .engflt 0 v.ip)
      else if isRoot seq && bitAt v.sctl 1 && v.fqhead != v.fqtail then .next (s.takeTrap seq .ftokin 0 v.ip)
      else stall s

/-! ### Fault tokens (R390 to R392) -/

/-- Entries of a root core's fault ring, and those that are in use. -/
def Seq.ringSize (v : Seq) : Nat := 2 ^ ((bits v.fqbase 0 4).toNat + 6)
def Seq.ringUsed (v : Seq) : Nat := (bits v.fqtail 0 32 - bits v.fqhead 0 32).toNat

/-- The ring has room for the tokens accepted so far and one more. -/
def Seq.ringRoom (v : Seq) : Bool := v.ringUsed + v.ftoks.length < v.ringSize

/-- FAULT_TOKEN_ENQUEUE (R392): the oldest token is written at FQTAIL mod size, and FQTAIL goes on. -/
def execFaultTokenEnqueue (board : Nat) (s : State) : Res :=
  let q := rootOf board
  let v := s.seq q
  match v.ftoks with
  | [] => stall s
  | t :: rest =>
    if v.ringSize ≤ v.ringUsed then stall s
    else
      let base := (bits v.fqbase 12 40).toNat * 4096
      let at_ := base + 64 * ((bits v.fqtail 0 32).toNat % v.ringSize)
      let s := { s with mem := s.mem.poke 0 (keyed at_ (t.flatMap fun (w : Word) => leBytes 8 w.toNat)) }
      let s := s.chargeAt none at_ 1
      .next (s.setSeq q { v with ftoks := rest, fqtail := (bits v.fqtail 0 32 + 1).setWidth 64 })

/-- Eight words sent one level up (R391). -/
def State.sendUp (s : State) (q : Nat) (t : List Word) : State := (s.sendToken (ftokTarget q) t).advance q 4

/-- `ftok` (R391): the sequencer stalls while the receiving ring is full. -/
def execFtok (a : SReg) (s : State) : Res :=
  issueAs s .privileged false fun q =>
    let v := s.seq q
    if q = rootOf 0 then .next (s.raise q .sysval 0)
    else
      let room := (s.seq (ftokTarget q)).ringRoom
      match v.stage with
      | .pending => stall s
      | .back _ bs _ _ =>
        if !room then stall s else .next ((s.setSeq q (v.setWait .none)).sendUp q (bytesWords 8 bs))
      | .fresh =>
        if !v.ready a then stall s
        else if a = 0 then
          if !room then stall s else .next (s.sendUp q (s.ownToken q (bits v.fltcause 0 8) v.fltaux))
        else
          let va := v.read a
          match s.reach q (reqLoad q) va 64 .read with
          | .out t => .next t
          | .void => if !room then stall s else .next (s.sendUp q (List.replicate 8 0))
          | .to p =>
            let e := { s.seqEvent q va 64 p .read with dest := .wait q, watched := false }
            .next ((s.place q e).await q 0 s.nextId none)
where
  bytesWords : Nat → List Byte → List Word
    | 0, _ => []
    | n + 1, bs => BitVec.ofNat 64 (leNat (bs.take 8)) :: bytesWords n (bs.drop 8)

/-! ### Watchpoints (R393, R395) -/

/-- The home watch entry of a plane's watchpoint removed. -/
def State.unwatch (s : State) (k n : Nat) : State :=
  { s with watches := s.watches.filter fun w => !(w.plane = k && w.n = n) }

/-- A watchpoint register written. -/
def State.setWpt (s : State) (k n : Nat) (x : Word) : State :=
  let pl := s.plane k
  s.setPlane k { pl with wpt := vput pl.wpt n x }

/-- `wpt` (R395). A page of MKIND 0, 1 or 3 is also entered in the home watch table. -/
def execWpt (n : BitVec 2) (off : Bool) (a : SReg) (mask : BitVec 16) (s : State) : Res :=
  issueAs s .privileged false fun q =>
    let v := s.seq q
    if !v.ready a then stall s
    else withPlane s q fun k =>
      if off then .next (((s.setWpt k n.toNat 0).unwatch k n.toNat).advance q 8)
      else
        let va := v.read a
        if va.toNat % 16 != 0 then .next (s.raise q .align va)
        else
          let set (s : State) : State := (s.setWpt k n.toNat (bits va 4 48 ++ mask)).unwatch k n.toNat
          match s.reach q (reqLoad q) va 16 .read with
          | .out t => .next t
          | .void => .next ((set s).advance q 8)
          | .to p =>
            let m := (Leaf.mkind p.leaf).toNat
            let s := set s
            let w : HomeWatch := { line := p.key / 16, mask, plane := k, n := n.toNat }
            let s := if m = 0 || m = 1 || m = 3 then { s with watches := s.watches ++ [w] } else s
            .next (s.advance q 8)

/-! ### tlbi (R401) -/

/-- The sequencer next to which a translation cache stands. -/
def reqSeq (req : Nat) : Nat :=
  if req < 0x200 then req
  else if req < 0x1000 then req - 0x200
  else if req < 0x4000 then (req - 0x1000) / 32
  else if req < 0x8000 then (req - 0x4000) / 8
  else req - 0x8000

/-- A range of addresses of a context within a scope of a sequencer; `none` is the whole context. -/
structure Inval where
  q : Nat
  level : Nat
  ctx : Nat
  range : Option (Nat × Nat)
  deriving DecidableEq, Repr

/-- A page, or the 2 MiB around it, meets the range. -/
def Inval.meets (x : Inval) (ctx page : Nat) (large : Bool) : Bool :=
  ctx = x.ctx && match x.range with
    | none => true
    | some (lo, hi) =>
      let size := if large then 2 ^ 21 else 2 ^ 16
      let base := page * 2 ^ 16 / size * size
      decide (lo < hi) && decide (lo < base + size) && decide (base < hi)

/-- An agent, or the sequencer next to a cache, is within the scope. -/
def Inval.near (x : Inval) (a : Agent) : Bool := joinLevel (.seq x.q) a ≤ x.level

/-- An event uses a translation of the range. -/
def Inval.uses (x : Inval) (e : Ev) : Bool := e.isAccess && !e.parked && x.meets e.ctx (e.va / 2 ^ 16) e.large

/-- The dropped entries: caches and units within the scope, and the results of the walks in flight. -/
def State.dropEntries (s : State) (x : Inval) : State :=
  let keep (l : List Cached) : List Cached := l.filter fun e => !x.meets e.ctx e.page (Leaf.lg e.leaf)
  let walkNear (w : Walk) : Bool :=
    if x.level = 1 then w.requesters.any fun r => x.near (.seq (reqSeq r)) else x.near (.seq (rootOf w.board))
  { s with
    tlbs := s.tlbs.map fun (r, l) => (r, if x.near (.seq (reqSeq r)) then keep l else l)
    units := s.units.map fun (b, l) => (b, if 2 ≤ x.level && x.near (.seq (rootOf b)) then keep l else l)
    walks := s.walks.map fun w =>
      if walkNear w && x.meets w.ctx w.page w.found.isSome && !w.copy then { w with dropped := true } else w }

/-- A frozen plane's events that have not issued take their translations anew (log 36). -/
def State.reparkFrozen (s : State) (x : Inval) : State :=
  { s with agents := s.agents.map fun (a, g) =>
      match Agent.ofKey a with
      | .block r p =>
        if x.near (.block r p) && (s.plane (planeKey r p)).frozen != .none then
          (a, { g with q := g.q.map fun e => if x.uses e then { e with parked := true, ord := .so } else e })
        else (a, g)
      | _ => (a, g) }

/-- A walk over the range is in flight, or an access that used an entry of it has not been performed. -/
def State.invalBusy (s : State) (x : Inval) : Bool :=
  (s.walks.any fun w => x.meets w.ctx w.page w.found.isSome &&
      (if x.level = 1 then w.requesters.any fun r => x.near (.seq (reqSeq r)) else x.near (.seq (rootOf w.board)))) ||
    s.agents.any fun (a, g) => x.near (Agent.ofKey a) && (g.q.any x.uses || g.buf.any x.uses || g.rmws.any x.uses)

/-- `tlbi` (R401): the entries are dropped at once, and it completes when no walk over the range is in flight and every
access that used one has been performed. -/
def execTlbi (all : Bool) (sc : Scope) (a b : SReg) (s : State) : Res :=
  issueAs s .privileged false fun q =>
    let v := s.seq q
    if !v.allReady [a, b] then stall s
    else withCtx s q fun ctx _ =>
      let lo := (v.read a).toNat
      let x : Inval := { q, level := sc.level, ctx, range := if all then none else some (lo, lo + (v.read b).toNat) }
      let s := (s.dropEntries x).reparkFrozen x
      if s.invalBusy x then .next s else .next (s.advance q 4)

/-! ### halt and cfgw (R402, R403) -/

/-- `halt` (R402). -/
def execHalt (s : State) : Res :=
  issueAs s .privileged false fun q =>
    .next ((s.setSeq q { s.seq q with run := .halted }).advance q 4)

/-- A word may configure a slot (R56). -/
def wordFits (w : Word) (slot : Nat) : Bool := (fabricCause w).isNone && isMemoryWord w == isMemorySlot slot

/-- A configuration word reaches a node (R56, R57): it is taken between two firings, or blocks the node. -/
def State.configNode (s : State) (k slot : Nat) (w : Word) : State :=
  let pl := s.plane k
  match Tab.find? pl.nodes slot with
  | some n =>
    if wordFits w slot then
      s.setPlane k (if n.underWay then { pl with nodes := Tab.put pl.nodes slot { n with config := some w } }
        else pl.configured slot n w)
    else At.block { region := regionOfSlot k slot, plane := k, slot, node := n, pl } s 0x11
  | none => s

/-- The nodes that an element of a region has in a plane: its own plane's, and one of a fused block launched in the region
before it (R15, R52). -/
def State.elementNodes (s : State) (k slot : Nat) : List (Nat × Nat) :=
  ((k, slot) :: (if k / 4 % 2 = 1 then [(k - 4, slot + 512)] else [])).filter fun x =>
    (Tab.find? (s.plane x.1).nodes x.2).isSome

/-- A configuration word reaches an element (R56, R57). Its nodes take it as their word; an element without a
configuration keeps nothing of a legal word, since the next block's word replaces it; an illegal word blocks the element
(log 37). -/
def State.applyConfig (s : State) (k slot : Nat) (w : Word) : State :=
  let l := s.elementNodes k slot
  if !l.isEmpty then l.foldl (fun s x => s.configNode x.1 x.2 w) s
  else if wordFits w slot then s
  else
    let pl := s.plane k
    (s.setPlane k { pl with jammed := pl.jammed ++ [slot] }).report (launcher k pl)
      (blkstWord 0x11 0xFF (k % 4) (some (slotElement (regionOfSlot k slot) slot)))

/-- A plane without what a fused block has in the partner region (R52). -/
def Plane.withoutPartner (pl : Plane) : Plane :=
  { pl with
    nodes := pl.nodes.filter fun e => e.1 < 512
    links := pl.links.filter fun l => l.src < 512 && l.dst < 512
    jammed := pl.jammed.filter fun x => x < 512 }

/-- Every plane of a region IDLE, also what a fused block has there, its arrays unbound, BLKST cleared and the sequencer
halted (R403). -/
def State.resetRegion (s : State) (r : Nat) : State :=
  let clear (s : State) (k : Nat) : State :=
    let pl := s.plane (planeKey r k)
    let s := s.retire (Agent.block r k).key
    let s := if r % 2 = 1 then s.setPlane (planeKey (r - 1) k) (s.plane (planeKey (r - 1) k)).withoutPartner else s
    s.setPlane (planeKey r k) { pl with
      nodes := [], links := [], chain := none, frozen := .none, flags := 0, groups := Vector.replicate 4 StGroup.empty
      reports := [], draining := false, atRest := false, saver := none, jammed := [] }
  let s := clear (clear (clear (clear s 0) 1) 2) 3
  let g := s.region r
  let unbound (b : BArray) : BArray := { BArray.empty with cols := b.cols, images := b.images, imageIds := b.imageIds }
  let s := s.setRegion r { g with arrays := g.arrays.map unbound }
  let v := s.seq r
  s.setSeq r { v with
    run := .halted, blkst := 0, reports := [], chain := none, parked := none, fetching := none
    slice := none, slices := [], pendFault := none }

/-- A destination of `cfgw` (R403): bits [63:62] the kind, [14:10] the region, [9:5] the square, [4:2] the stage, [1:0]
the plane. Fields that a kind does not use must be 0 (log 37). -/
def cfgwOk (x y : Word) : Bool :=
  let kind := (bits y 62 2).toNat
  bits y 15 47 == 0 &&
    match kind with
    | 0 => decide ((bits y 2 3).toNat < 6)
    | 1 => bits y 2 3 == 0
    | 2 => bits y 0 10 == 0
    | _ => bits y 0 10 == 0 && x == 0

/-- `cfgw` (R403). -/
def execCfgw (a b : SReg) (s : State) : Res :=
  issueAs s .rootOnly false fun q =>
    let v := s.seq q
    if !v.allReady [a, b] then stall s
    else
      let x := v.read a
      let y := v.read b
      if !cfgwOk x y then .next (s.raise q .sysval 0)
      else
        let r := 32 * boardOfSeq q + (bits y 10 5).toNat
        let k := planeKey r (bits y 0 2).toNat
        let square := (bits y 5 5).toNat
        let t : State := match (bits y 62 2).toNat with
          | 0 => s.applyConfig k (8 * square + (bits y 2 3).toNat) x
          | 1 => s.applyConfig k (256 + 8 * square) x
          | 2 =>
            let w : Seq := s.seq r
            if w.run == RunState.halted then
              s.setSeq r { w with run := .running, priv := true, ip := (bits x 2 50 ++ (0 : BitVec 2)).setWidth 64 }
            else s
          | _ => s.resetRegion r
        .next (t.advance q 4)

/-! ### System registers (R404, R405) -/

/-- ENERGY of a region (Table 23-3). -/
def Region.energy (r : Region) : Word :=
  BitVec.ofNat 24 (r.total / 1000) ++ BitVec.ofNat 20 (min r.used 0xFFFFF) ++ BitVec.ofNat 20 r.allow

/-- CTXID of a sequencer's context (Table 15-8). -/
def State.ctxidWord (s : State) (q : Nat) : Word :=
  match s.planeOf q, s.ctxOf q with
  | some k, some n =>
    (match s.ctx? n with
      | some c => (0 : BitVec 30) ++ BitVec.ofNat 2 (k % 4) ++ BitVec.ofNat 8 c.key ++ BitVec.ofNat 8 c.vf ++ BitVec.ofNat 16 n
      | none => 0)
  | _, _ => 0

/-- The value that `sysr` reads. A register of a context or a plane reads its reset value 0 where the sequencer has none
(log 28). -/
def State.sysValue (s : State) (q : Nat) (x : SysReg) : Word :=
  let v := s.seq q
  let c : Ctx := ((s.ctxOf q).bind s.ctx?).getD Ctx.blank
  match x with
  | .fpc => c.fpc.setWidth 64
  | .tstat => v.tstat
  | .ctxid => s.ctxidWord q
  | .blkst => v.blkst
  | .energy => (s.region q).energy
  | .cycle => BitVec.ofNat 64 s.cycle
  | .fltcause => v.fltcause
  | .fltaddr => v.fltaddr
  | .fltpos => v.fltpos
  | .fltbpc => v.fltbpc
  | .fltaux => v.fltaux
  | .epc => v.epc
  | .estat => v.estat
  | .tvec => v.tvec
  | .eflt => v.eflt
  | .eflta => v.eflta
  | .wpt n => match s.planeOf q with | some k => vget (s.plane k).wpt n 0 | none => 0
  | .wwin => (s.region q).wwin
  | .kvw => c.kvw
  | .pwin => c.pwin
  | .sctl => v.sctl
  | .ctxres => c.ctxres
  | .fqbase => v.fqbase
  | .fqhead => v.fqhead
  | .fqtail => v.fqtail
  | .ureg n => if n = 0 then 0 else vget v.user n 0

/-- A user register that a load or a job has still to write (R330, R331, log 38). -/
def Seq.uregBusy (v : Seq) (x : SysReg) : Bool :=
  match x with
  | .ureg n => n != 0 && (bitAt v.outU n || bitAt v.armedU n)
  | _ => false

/-- `sysr` (R404). -/
def execSysr (d : SReg) (r : BitVec 14) (s : State) : Res :=
  match s.me with
  | none => .refused .notItsAgent
  | some q =>
    match sysRegOf r.toNat with
    | none => .next (s.raise q .illop 0)
    | some x =>
      if x.rootOnly && !isRoot q then .next (s.raise q .illop 0)
      else if !(s.seq q).priv && !x.userReads then .next (s.raise q .priv 0)
      else issueAs s .user false fun q =>
        let v := s.seq q
        if !v.ready d || v.uregBusy x then stall s else .next (s.finish q d (s.sysValue q x) 4)

/-- A register of the sequencer itself written: RW fields take the value, W1C fields are cleared by ones (R7, R404);
none where the value breaks a field's range. -/
def Seq.writeSys (v : Seq) (x : SysReg) (w : Word) : Option Seq :=
  match x with
  | .tstat => some { v with tstat := v.tstat &&& ~~~(w &&& 7) }
  | .blkst => some { v with blkst := v.blkst &&& ~~~(w &&& ((1 : Word) <<< 63)) }
  | .epc => if bits w 0 2 != 0 then none else some { v with epc := (bits w 0 52).setWidth 64 }
  | .estat => some { v with estat := (v.estat &&& ~~~(3 : Word)) ||| (w &&& 3) }
  | .tvec => if bits w 0 2 != 0 then none else some { v with tvec := (bits w 0 52).setWidth 64 }
  | .eflt =>
    if bitAt w 63 then some { v with eflt := (bits v.eflt 0 48).setWidth 64, eflta := 0 } else some v
  | .sctl => some { v with sctl := w &&& 3 }
  | .fqbase =>
    if 10 < (bits w 0 4).toNat || v.fqtail != v.fqhead then none
    else some { v with fqbase := (bits w 12 40 ++ (0 : BitVec 8) ++ bits w 0 4).setWidth 64 }
  | .fqhead => some { v with fqhead := (bits w 0 32).setWidth 64 }
  | .ureg n => some (v.writeBank false (BitVec.ofNat 5 n) w)
  | _ => none

/-- A register of a context written. -/
def Ctx.writeSys (c : Ctx) (x : SysReg) (w : Word) : Option Ctx :=
  match x with
  | .fpc => some { c with fpc := (c.fpc &&& 0x1F &&& ~~~(bits w 0 32)) ||| (bits w 0 32 &&& 0xF00) }
  | .kvw =>
    let l := (bits w 0 5).toNat
    if (1 ≤ l && l ≤ 15) || 29 ≤ l then none
    else some { c with kvw := ((0 : BitVec 12) ++ bits w 44 8 ++ (0 : BitVec 39) ++ bits w 0 5).setWidth 64 }
  | .pwin => some { c with pwin := ((0 : BitVec 12) ++ bits w 16 36 ++ (0 : BitVec 16)).setWidth 64 }
  | .ctxres =>
    let d := (bits w 0 10).toNat
    let m := (bits w 16 9).toNat
    if d % 4 != 0 || m % 4 != 0 || 512 < d || 256 < m || bits w 10 6 != 0 || bits w 25 39 != 0 then none
    else some { c with ctxres := w }
  | _ => none

/-- The state after a `sysw`, or none where it raises SYSVAL (R404, R405). The model's choice (log 28): it does so for a
register of a context where the sequencer has none, and for WWIN on a root core, which has no region. -/
def State.sysWrite (s : State) (q : Nat) (x : SysReg) (w : Word) : Option State :=
  match x with
  | .fpc | .kvw | .pwin | .ctxres =>
    (match s.ctxOf q with
      | none => none
      | some n => (s.ctx? n).bind fun c => (c.writeSys x w).map fun c => s.setCtx n c)
  | .wwin =>
    if isRoot q then none
    else
      let g := s.region q
      some (s.setRegion q { g with wwin := ((0 : BitVec 12) ++ bits w 23 29 ++ (0 : BitVec 23)).setWidth 64 })
  | _ => ((s.seq q).writeSys x w).map fun v => s.setSeq q v

/-- `sysw` (R404). -/
def execSysw (r : BitVec 14) (a : SReg) (s : State) : Res :=
  match s.me with
  | none => .refused .notItsAgent
  | some q =>
    match sysRegOf r.toNat with
    | none => .next (s.raise q .illop 0)
    | some x =>
      if (x.rootOnly && !isRoot q) || !x.writable then .next (s.raise q .illop 0)
      else if !(s.seq q).priv && !x.userWrites then .next (s.raise q .priv 0)
      else issueAs s .user false fun q =>
        let v := s.seq q
        if !v.ready a || v.uregBusy x then stall s
        else
          match s.sysWrite q x (v.read a) with
          | none => .next (s.raise q .sysval 0)
          | some t => .next (t.advance q 4)

end Sys2Proof.Machine
end

