-- ==== Sys2Proof/Machine/Freeze.lean ====
section
/-!
DEFINITION. `frz` (R388): the freeze as software sees it, its release, and the end of a chain by `frz.kill`.
-/

namespace Sys2Proof.Machine

/-- QUIET (R388): every event that the plane has issued has been performed. -/
def State.planeQuiet (s : State) (k : Nat) : Bool :=
  let g := s.agent (Agent.block (k / 4) (k % 4)).key
  g.buf.isEmpty && g.rmws.isEmpty

/-- FLTPOS.V := 0 (R388). -/
def Seq.clearFltpos (v : Seq) : Seq := { v with fltpos := (bits v.fltpos 0 63).setWidth 64 }

/-- `frz.q` (R388). -/
def execFrzQ (d : SReg) (s : State) : Res :=
  issueAs s .privileged false fun q =>
    let v := s.seq q
    if !v.ready d then stall s
    else withPlane s q fun k =>
      let frozen := (s.plane k).frozen != .none
      let x : BitVec 3 := bit1 (bitAt v.fltpos 63) ++ bit1 (s.planeQuiet k) ++ bit1 frozen
      .next (s.finish q d (x.setWidth 64) 4)

/-- `frz.go` (R388). A plane that PAUSE has frozen waits for RESUME (R416). -/
def execFrzGo (s : State) : Res :=
  issueAs s .privileged false fun q =>
    withPlane s q fun k =>
      let pl := s.plane k
      let s :=
        if pl.frozen == .fault || pl.frozen == .frzOn then
          (s.setPlane k { pl with frozen := .none, atRest := false, saver := none }).setSeq q (s.seq q).clearFltpos
        else s
      .next (s.advance q 4)

/-- `frz.on` (R388). -/
def execFrzOn (s : State) : Res :=
  issueAs s .privileged false fun q =>
    withPlane s q fun k =>
      let pl := s.plane k
      let s := if pl.frozen == .none then s.setPlane k { pl with frozen := .frzOn } else s
      .next (s.advance q 4)

/-! ### frz.kill -/

/-- The started stream jobs on ports of a plane's chain: region, entry and job. -/
def State.portJobs (s : State) (k : Nat) : List (Nat × Nat × Job) :=
  let onPort (e : Nat × Node) : Option (Nat × Nat × Job) :=
    (portOfWord e.2.word).bind fun (p, wr) =>
      let r := regionOfSlot k e.1
      (s.side r p wr).job.bind fun n => ((s.region r).jobOf n).bind fun (i, j) => if j.started then some (r, i, j) else none
  ((s.plane k).nodes.filterMap onPort).foldl (fun l x => if l.any fun y => y.1 = x.1 && y.2.1 = x.2.1 then l else l ++ [x]) []

/-- The arrays bound to a plane's chain: region, the array and its binding. -/
def State.chainArrays (s : State) (k : Nat) : List (Nat × Nat × BaBind) :=
  let named (e : Nat × Node) : Option (Nat × Nat) :=
    let w := e.2.word
    if fabricOpc w = 0xA0 then some (regionOfSlot k e.1, (bits w 37 7).toNat - 0x10)
    else if fabricOpc w = 0xA1 then some (regionOfSlot k e.1, (bits w 0 1).toNat)
    else none
  let l := ((s.plane k).nodes.filterMap named).foldl (fun l x => if l.contains x then l else l ++ [x]) []
  let both := l.flatMap fun (r, a) =>
    match (s.arr r a).bind with
    | some b => if b.plane = k % 4 then (if b.both then [(r, 0, b), (r, 1, b)] else [(r, a, b)]) else []
    | none => []
  both.foldl (fun l x => if l.any fun y => y.1 = x.1 && y.2.1 = x.2.1 then l else l ++ [x]) []

/-- Nothing that stands in the array's columns can fire any more, and its spill events are done (R270). -/
def State.arrayIdle (s : State) (r a : Nat) (b : BaBind) : Bool :=
  ((List.range b.n).all fun j => (s.columnFire r a (b.c0 + j)).isNone) &&
    (match s.chainJob r b with
      | some (e, j) => s.jobReleased r e j.scope
      | none => true)

/-- A stream job ends with LENSHORT (R388): the pattern that a CFG token has bound behind it goes too. -/
def State.killStream (s : State) (r e : Nat) (j : Job) : State :=
  let s : State := match j.kind with
    | .sgo p wr _ => s.setSide r p wr { s.side r p wr with next := none }
    | _ => s
  s.endJob r e { j with outcome := some 3, fault := none }

/-- An array's chain ends with LENSHORT, its columns empty (R388). -/
def State.killArray (s : State) (r a : Nat) (b : BaBind) : State :=
  let x := s.arr r a
  let s := s.setArr r a { x.clearTo b (b.n - 1) with draining := false, drained := false }
  match s.chainJob r b with
  | some (e, j) =>
    if b.both && a = 0 then s else s.endJob r e { j with outcome := some 3, fault := none, flags := j.flags ||| x.flags }
  | none => s.setArr r a { s.arr r a with bind := none, inq := [], outq := [] }

/-- Every node of a plane enters IDLE, and its links and their tokens go (R388). A blocked element stays blocked (R56). -/
def Plane.killed (pl : Plane) : Plane :=
  let stuck := (pl.nodes.filter fun e => e.2.phase == .blocked).map Prod.fst
  let pl := pl.discardGroups
  { pl with
    chain := none, nodes := [], links := [], flags := 0, frozen := .none, draining := false, atRest := false
    saver := none, jammed := pl.jammed ++ stuck }

/-- The sequencer's side of the end of a chain: an abandoned slice leaves EPC at the `blk`, which returns x (R335, R388). -/
def Seq.chainKilled (v : Seq) (x : Word) : Seq :=
  let inSlice (a : Nat) : Bool := match v.slice with
    | some y => decide (y.base ≤ a) && decide (a < y.base + 4 * y.len)
    | none => false
  let v := match v.chain with
    | some c => { v with epc := if inSlice v.epc.toNat then c.ip else v.epc, chain := some { c with result := some x } }
    | none => v
  { v with slice := none, slices := [] }.clearFltpos

/-- A plane's chain ends (R388): stream jobs, arrays, nodes, the slice and the `blk`. -/
def State.killChain (s : State) (q k : Nat) (x : Word) : State :=
  let jobs := s.portJobs k
  let arrs := s.chainArrays k
  let s := jobs.foldl (fun s (r, e, j) => s.killStream r e j) s
  let s := arrs.foldl (fun s (r, a, b) => s.killArray r a b) s
  let pl := s.plane k
  let s := s.raiseFlags (pl.ctx.getD 65536) pl.flags
  let s := s.setPlane k pl.killed
  let s := s.retire (Agent.block (k / 4) (k % 4)).key
  s.setSeq q ((s.seq q).chainKilled x)

/-- What a plane and its engines have issued has still to be performed. -/
def State.killBusy (s : State) (k : Nat) : Bool :=
  !s.planeQuiet k || ((s.portJobs k).any fun (r, e, j) => !s.jobReleased r e j.scope) ||
    ((s.chainArrays k).any fun (r, a, b) => !s.arrayIdle r a b)

/-- `frz.kill` (R388): the plane stops, what it and its engines have issued is performed, and the chain ends. -/
def execFrzKill (a : SReg) (s : State) : Res :=
  issueAs s .privileged false fun q =>
    let v := s.seq q
    if !v.ready a then stall s
    else withPlane s q fun k =>
      let pl := s.plane k
      if pl.frozen == .none then .next (s.setPlane k { pl with frozen := .frzOn })
      else
        if s.killBusy k then stall s else .next ((s.killChain q k (v.read a)).advance q 4)

end Sys2Proof.Machine
end

