-- ==== Sys2Proof/Machine/Tasks.lean ====
section
/-!
DEFINITION. Tasks: launch records (R26 to R28), `tenq`, `tsig` and `yield` (R350 to R354, R369, R370, R379) and the board
dispatcher (R32, R33, R352).
-/

namespace Sys2Proof.Machine

/-! ### Launch records (R26 to R28) -/

/-- Fields of a level entry (Table 1-5). -/
def levelCount (w : Word) : Nat := (bits w 0 32).toNat
def levelDom (w : Word) : Nat := (bits w 32 4).toNat
def levelScope (w : Word) : Nat := (bits w 36 3).toNat

/-- Minimum scope of a domain (Table 1-6). -/
def minScope (dom : Nat) : Nat :=
  if dom ≤ 2 then 0 else if dom = 3 then 1 else if dom ≤ 5 then 2 else if dom = 6 then 3 else 4

/-- The largest number of regions that a partition holds on one board. -/
def State.mostOnBoard (s : State) (partition : Nat) : Nat :=
  let held := (s.vds.flatMap fun e => if e.2.partition = partition then e.2.regions else [])
  (List.range 4).foldl (fun m b => max m (held.filter (· / 32 = b)).length) 0

/-- One level passes R28. -/
def levelOk (w : Word) : Bool :=
  bits w 39 25 == 0 && decide (levelScope w ≤ 5) && decide (levelDom w ≤ 7) && levelCount w != 0 &&
    decide (minScope (levelDom w) ≤ levelScope w)

/-- A level and the level directly outside it pass R27 and R28; `most` regions of the partition lie on one board. -/
def levelPairOk (most : Nat) (inner outer : Word) : Bool :=
  decide (levelDom inner ≤ levelDom outer) &&
    !(levelDom inner = 0 && levelDom outer = 1 && 16 < levelCount inner) &&
    !(levelDom outer = 4 && !(levelDom inner = 3 && 2 ≤ levelCount inner && levelCount inner ≤ min 32 most))

/-- Every level passes with the level outside it. -/
def levelsOk (most : Nat) : List Word → Bool
  | [] => true
  | [w] => levelOk w
  | w :: x :: rest => levelOk w && levelPairOk most w x && levelsOk most (x :: rest)

/-- The used levels of a launch record pass R27 and R28. -/
def launchOk (most : Nat) (l : List Word) : Bool :=
  levelsOk most l && (match l with | w :: _ => levelDom w != 4 | [] => false) &&
    decide ((l.map levelCount).foldl (· * ·) 1 ≤ 2 ^ 48)

/-- The header of a launch record passes R28: NLEV, and the reserved bits. -/
def launchHeaderOk (bs : List Byte) : Bool :=
  let x := leNat bs
  decide (1 ≤ x % 16) && decide (x % 16 ≤ 8) && decide (x / 16 = 0)

/-- Little-endian words of a list of bytes. -/
def wordsOf : Nat → List Byte → List Word
  | 0, _ => []
  | n + 1, bs => BitVec.ofNat 64 (leNat (bs.take 8)) :: wordsOf n (bs.drop 8)

/-! ### Queues -/

def State.queue (s : State) (vf : Nat) : TaskQueue := Tab.getD s.queues vf TaskQueue.empty
def State.setQueue (s : State) (vf : Nat) (x : TaskQueue) : State := { s with queues := Tab.put s.queues vf x }

/-- A descriptor written at the end of a queue. -/
def State.enqueue (s : State) (vf : Nat) (d : Desc) : State :=
  let x := s.queue vf
  s.setQueue vf { x with descs := x.descs ++ [d] }

/-- The task of a message: it waits in its mailbox while the queue holds its 65,536 descriptors (R350, R365; log 32). -/
def State.enqueueMail (s : State) (vf : Nat) (d : Desc) : State :=
  let x := s.queue vf
  if x.descs.length < 65536 then s.enqueue vf d else s.setQueue vf { x with late := x.late ++ [d] }

/-- The oldest waiting message's task takes a place that has become free. -/
def TaskQueue.refill (x : TaskQueue) : TaskQueue :=
  match x.late with
  | d :: rest => if x.descs.length < 65536 then { x with descs := x.descs ++ [d], late := rest } else x
  | [] => x

/-- Fields of a descriptor image (Table 14-1). -/
structure DescImage where
  ip : Word
  lrec : Word
  cword : Word
  branch : Nat
  bv : Bool
  prio : Nat
  deriving DecidableEq, Repr

/-- The fields of 64 bytes; none when a reserved bit is set or an address is not a multiple of its unit (DBAD). -/
def DescImage.ofBytes (bs : List Byte) : Option DescImage :=
  let x : BitVec 512 := BitVec.ofNat 512 (leNat bs)
  let ip : Word := bits x 0 64
  let lrec : Word := bits x 64 64
  let cword : Word := bits x 128 64
  if bits ip 52 12 != 0 || bits lrec 52 12 != 0 || bits cword 52 12 != 0 || bits x 209 15 != 0 || bits x 227 285 != 0 ||
      bits ip 0 2 != 0 || bits cword 0 3 != 0 then none
  else some { ip, lrec, cword, branch := (bits x 192 16).toNat, bv := bitAt x 208, prio := (bits x 224 3).toNat }

/-- The status with which `tenq` turns a descriptor away before it reads the launch record (R369). -/
def State.tenqStatus (s : State) (c : Ctx) (d : DescImage) : Option Word :=
  let x := s.queue c.vf
  if !x.enabled then some 6
  else if d.prio < x.plo || x.phi < d.prio then some 4
  else if d.bv && !c.isLive d.branch then some 5
  else none

/-- The descriptor written: ACT counts the task of a branch (R369). -/
def State.writeDesc (s : State) (ctx : Nat) (c : Ctx) (d : DescImage) (levels : List Word) : State :=
  let wide := (levels.filter fun w => decide (3 ≤ levelDom w)).map fun w => (levelDom w, levelCount w)
  let branch := if d.bv then some d.branch else none
  let c := if d.bv then c.setBranch d.branch { c.branch d.branch with act := (c.branch d.branch).act + 1 } else c
  (s.setCtx ctx c).enqueue c.vf
    { ip := d.ip, lrec := d.lrec, cword := d.cword, branch, prio := d.prio, ctx, levels := wide, time := s.cycle
      mail := none, task := none }

/-- The instruction's status written, with its reads forgotten. -/
def State.endTenq (s : State) (q : Nat) (d : SReg) (x : Word) : Res :=
  let v := s.seq q
  .next ((s.setSeq q { v.setWait .none with got := [] }).finish q d x 4)

/-- The next read of `tenq`: n bytes at an address, checked at an alignment; bytes of a dead branch's slot read as zeros
at once. -/
def State.tenqRead (s : State) (q : Nat) (va : Word) (n align : Nat) (got : List Byte) (andThen : State → List Byte → Res) :
    Res :=
  let v := s.seq q
  let keep (t : State) : State := t.setSeq q { t.seq q with got }
  match s.reach q (reqLoad q) va align .read with
  | .out t => .next t
  | .void => andThen (keep (s.setSeq q (v.setWait .none))) (List.replicate n 0)
  | .to p =>
    let e := { s.seqEvent q va n p .read with dest := .wait q, watched := false }
    .next (keep ((s.place q e).await q 0 s.nextId none))

/-- The image and the whole launch record have been read: the checks again, and the descriptor (R369, log 30). -/
def tenqWrite (q : Nat) (d : SReg) (ctx : Nat) (c : Ctx) (s : State) (got levels : List Byte) : Res :=
  match DescImage.ofBytes (got.take 64) with
  | none => s.endTenq q d 3
  | some x =>
    match s.tenqStatus c x with
    | some r => s.endTenq q d r
    | none =>
      let l := wordsOf (levels.length / 8) levels
      if !launchOk (s.mostOnBoard c.partition) l then s.endTenq q d 2
      else if 65536 ≤ (s.queue c.vf).descs.length then s.endTenq q d 1
      else (s.writeDesc ctx c x l).endTenq q d 0

/-- The header of the launch record has been read. -/
def tenqHeader (q : Nat) (d : SReg) (ctx : Nat) (c : Ctx) (s : State) (got header : List Byte) : Res :=
  match DescImage.ofBytes (got.take 64) with
  | none => s.endTenq q d 3
  | some x =>
    if !launchHeaderOk header then s.endTenq q d 2
    else
      let n := 8 * (leNat header % 16)
      s.tenqRead q (x.lrec + 16) n 8 (got ++ header) fun s bs => tenqWrite q d ctx c s (got ++ header) bs

/-- The image has been read. -/
def tenqImage (q : Nat) (d : SReg) (ctx : Nat) (c : Ctx) (s : State) (image : List Byte) : Res :=
  match DescImage.ofBytes image with
  | none => s.endTenq q d 3
  | some x =>
    match s.tenqStatus c x with
    | some r => s.endTenq q d r
    | none =>
      if x.lrec.toNat % 128 != 0 then s.endTenq q d 2
      else s.tenqRead q x.lrec 16 16 image fun s bs => tenqHeader q d ctx c s image bs

/-- `tenq` (R369): it reads the image, the header of the launch record and its used levels, one after the other. -/
def execTenq (d a : SReg) (s : State) : Res :=
  issueAs s .user false fun q =>
    let v := s.seq q
    match v.stage with
    | .pending => stall s
    | .back _ bs _ _ =>
      withCtx s q fun ctx c =>
        if v.got.length < 64 then tenqImage q d ctx c s bs
        else if v.got.length < 80 then tenqHeader q d ctx c s v.got bs
        else tenqWrite q d ctx c s v.got bs
    | .fresh =>
      if !v.allReady [d, a] then stall s
      else withCtx s q fun ctx c =>
        let va := v.read a
        if va.toNat % 64 != 0 then .next (s.raise q .align va)
        else s.tenqRead q va 64 64 [] fun s bs => tenqImage q d ctx c s bs

/-! ### tsig (R370) -/

/-- The completion word has been read: the release write of the lowered count; TSIGU when it was below the count. -/
def State.tsigWrite (s : State) (q : Nat) (sc : Scope) (va count : Word) (m : Nat) : Res :=
  let short := decide (m < count.toNat)
  let n := if short then 0 else m - count.toNat
  let mark (t : State) : State := if short then t.setTstat q tsigu else t
  let rest (t : State) : State := t.setSeq q ((t.seq q).setWait .none)
  if 16 ≤ s.storesHeld q then stall s
  else
    match s.reach q (reqLoad q) va 8 .write with
    | .out t => .next t
    | .void => .next ((mark (rest s)).advance q 4)
    | .to p =>
      let e := { (s.seqEvent q va 8 p .write).withBytes (leBytes 8 n) with rel := true, scope := sc }
      .next ((mark ((rest s).place q e)).afterStore q 4 s.nextId (s.seqHit q va 8))

/-- `tsig` (R370): the read and the release write are separate events. -/
def execTsig (sc : Scope) (a b : SReg) (s : State) : Res :=
  issueAs s .user false fun q =>
    let v := s.seq q
    let va := v.read a
    match v.stage with
    | .pending => stall s
    | .back n bs _ hit => if n = 0 then s.tsigWrite q sc va (v.read b) (leNat bs) else .next (s.doneWait q 4 hit)
    | .fresh =>
      if !v.allReady [a, b] then stall s
      else if va.toNat % 8 != 0 then .next (s.raise q .align va)
      else
        match s.reach q (reqLoad q) va 8 .read with
        | .out t => .next t
        | .void => s.tsigWrite q sc va (v.read b) 0
        | .to p =>
          let e := { s.seqEvent q va 8 p .read with dest := .wait q, watched := false }
          .next ((s.place q e).await q 0 s.nextId none)

/-! ### The end of an instance (R353, R379) -/

/-- An entry of a mailbox is free again (R365), and the trigger slot whose message it held may place another (R367). -/
def Ctx.freeMail (c : Ctx) (entry : Option Nat) : Ctx :=
  match entry with
  | none => c
  | some e =>
    { c with mail := c.mail.filter fun m => m.entry != e
             trigs := c.trigs.map fun t => if t.mail = some e then { t with mail := none } else t }

/-- The end of a task: its branch's ACT falls, and its message's entry is free (R353, R365). -/
def State.taskEnd (s : State) (d : Desc) : State :=
  match s.ctx? d.ctx with
  | none => s
  | some c => s.setCtx d.ctx ((c.endTask d.branch).freeMail d.mail)

/-- One instance of a task less: with the last, the task ends (R353). -/
def State.instanceEnd (s : State) (serial : Nat) : State :=
  match Tab.find? s.tasks serial with
  | none => s
  | some t =>
    if t.closed && t.live ≤ 1 then ({ s with tasks := Tab.drop s.tasks serial }).taskEnd t.desc
    else { s with tasks := Tab.put s.tasks serial { t with live := t.live - 1 } }

/-- A sequencer without a task: the registers of its instance are not kept; what belongs to the sequencer itself is. -/
def Seq.released (q : Nat) (v : Seq) : Seq :=
  { Seq.reset q with
    bank := v.bank, blkst := v.blkst, reports := v.reports, tvec := v.tvec, sctl := v.sctl, epc := v.epc
    fqbase := v.fqbase, fqhead := v.fqhead, fqtail := v.fqtail, ftoks := v.ftoks }

/-- A sequencer leaves its context, whose plane keeps the SYS registers (R386). -/
def State.leaveContext (s : State) (q : Nat) : State :=
  let v := s.seq q
  let s := match s.planeOf q with
    | some k => s.setPlane k { s.plane k with sys := v.sysRegs }
    | none => s
  s.setSeq q (Seq.released q v)

/-- The fabric fault that a frozen plane still has to deliver (R384, R400). -/
def SysRegs.pending (x : SysRegs) (frozen : Bool) : Option (Cause × Word) :=
  if frozen && bitAt x.fltpos 63 then some (causeOf (bits x.fltcause 0 8), x.fltaddr) else none
where
  causeOf (x : BitVec 8) : Cause :=
    ([.page, .pteres, .prot, .align, .tagfmt, .hostatom, .patbad, .idxrng, .mkalign, .loopcnt, .exitidx, .streamflt, .portty,
      .addrrng, .blocked, .stval, .stgrp, .splen, .joinfull, .barval, .barrange, .barcnt, .bartree, .rtfull, .watch, .kvpool,
      .varange, .sporder, .brval, .qport, .baval, .bavec, .bacfg].find? fun c => c.code = x).getD .illop

/-- Every value that the sequencer's loads have asked for has been written. -/
def Seq.settled (v : Seq) : Bool := v.outU == 0 && v.outP == 0 && v.outG == 0 && v.outC == 0

/-- `yield` (R379): it waits for the instance's jobs, and for the values still on their way to registers (log 31). -/
def execYield (s : State) : Res :=
  issueAs s .user false fun q =>
    let v := s.seq q
    if isRoot q then .next (s.raise q .sysval 0)
    else if !v.jobsEnded || !v.settled then stall s
    else
      let s := s.leaveContext q
      .next (match v.task with | some t => s.instanceEnd t.serial | none => s)

/-! ### The dispatcher (R32, R33, R352) -/

/-- Partition's regions, in ascending order. -/
def State.partitionRegions (s : State) (p : Nat) : List Nat :=
  (List.range 128).filter fun r => s.vds.any fun e => e.2.partition = p && e.2.regions.contains r

/-- The plane (0 to 3) that a context holds on a region. -/
def State.planeIn (s : State) (ctx r : Nat) : Option Nat :=
  List.find? (fun k => (s.plane (planeKey r k)).ctx = some ctx) (List.range 4)

/-- Free sequencers of a context's partition on regions where it holds a plane. -/
def State.freeSeqs (s : State) (ctx : Nat) (c : Ctx) : List Nat :=
  (s.partitionRegions c.partition).filter fun r => (s.seq r).run == .free && (s.planeIn ctx r).isSome

/-- The instances of a task: of every level at region domain or wider (R352). -/
def Desc.instances (d : Desc) : Nat := (d.levels.map Prod.snd).foldl (· * ·) 1

/-- Number of regions in each group, when the launch record has a region-group level (R27). -/
def groupSize : List (Nat × Nat) → Option Nat
  | (3, n) :: (4, m) :: _ => if 0 < m then some n else none
  | _ :: rest => groupSize rest
  | [] => none

/-- The regions on which a task's next instance, or group of instances, would start: the lowest free region, or the lowest
of the board with the most (R27, R32); none when the task has to wait. -/
def State.placesFor (s : State) (d : Desc) (c : Ctx) : List Nat :=
  let free := s.freeSeqs d.ctx c
  match groupSize d.levels with
  | none => free.take 1
  | some n =>
    let on (b : Nat) : List Nat := free.filter (· / 32 = b)
    let best := (List.range 4).foldl (fun m b => if (on m).length < (on b).length then b else m) 0
    if (on best).length < n then [] else (on best).take n

/-- The context's virtual device runs, and so does the context (R32, R355). -/
def State.mayRun (s : State) (c : Ctx) : Bool :=
  c.state == .resident && (match Tab.find? s.vds c.vf with | some v => v.state == .running | none => true)

/-- A task is ready (R32): one free sequencer suffices, although a group starts only when enough are free (R27); one of a
context under teardown is, to be dropped (R355). -/
def State.taskReady (s : State) (partition : Nat) (x : TaskQueue) (d : Desc) : Bool :=
  x.enabled && match s.ctx? d.ctx with
    | none => false
    | some c => c.partition = partition && (c.state == .dying || (s.mayRun c && !(s.freeSeqs d.ctx c).isEmpty))

/-- The ready tasks of a partition: queue, place in the queue and descriptor. -/
def State.readyTasks (s : State) (partition : Nat) : List (Nat × Nat × Desc) :=
  s.queues.flatMap fun (vf, x) =>
    ((List.range x.descs.length).zip x.descs).filterMap fun (i, d) =>
      if s.taskReady partition x d then some (vf, i, d) else none

/-- The ready task with the earliest time, the lower queue on a tie (R33). -/
def oldest : List (Nat × Nat × Desc) → Option (Nat × Nat × Desc)
  | [] => none
  | x :: rest => match oldest rest with
    | some y => if y.2.2.time < x.2.2.time then some y else some x
    | none => some x

/-- The task that R32 serves: the highest level, then the queues in turn, then the order of arrival. -/
def nextInTurn (d : Dispatcher) (l : List (Nat × Nat × Desc)) : Option (Nat × Nat × Desc) :=
  match List.find? (fun p => l.any fun x => x.2.2.prio = p) (List.range 8) with
  | none => none
  | some p =>
    let last := vget d.lastVf p 255
    let level := l.filter fun x => x.2.2.prio = p
    (List.range 256).findSome? fun i => level.find? fun x => x.1 = (last + 1 + i) % 256

/-- Swap-in requests of the contexts that hold no plane, whose tasks would otherwise be ready (R352). -/
def State.swapWants (s : State) (partition : Nat) : List Nat :=
  let want (x : TaskQueue) (d : Desc) : List Nat :=
    match s.ctx? d.ctx with
    | none => []
    | some c =>
      let there := (s.partitionRegions partition).any fun r => (s.planeIn d.ctx r).isSome
      let vdRuns := match Tab.find? s.vds c.vf with | some v => v.state == .running | none => true
      if x.enabled && c.partition = partition && vdRuns && !there && (c.state == .resident || c.state == .swapped)
      then [d.ctx] else []
  (s.queues.flatMap fun (_, x) => x.descs.flatMap (want x)).foldl
    (fun l n => if l.contains n || s.swapReqs.contains n then l else l ++ [n]) []

/-- TSTAT of an instance at its start (Table 14-2). -/
def startTstat (vf : Nat) (d : Desc) : Word :=
  BitVec.ofNat 16 (d.branch.getD 0) ++ bit1 d.branch.isSome ++ (0 : BitVec 7) ++ BitVec.ofNat 8 vf ++
    BitVec.ofNat 3 d.prio ++ (0 : BitVec 29)

/-- TASK_START (R24): one instance on a region: s1 names the launch record, s2 the index, the other registers are 0. -/
def State.startInstance (s : State) (serial vf : Nat) (d : Desc) (r index : Nat) : State :=
  let v := s.seq r
  let plane := s.planeIn d.ctx r
  let user : Vector Word 32 := (Vector.replicate 32 0 |>.set 1 d.lrec |>.set 2 (BitVec.ofNat 64 index))
  let task : TaskRef := { serial, ctx := d.ctx }
  let old := plane.map fun k => s.plane (planeKey r k)
  let sys := (old.map Plane.sys).getD SysRegs.zero
  let s := s.setSeq r { (Seq.released r v).withSys sys with
    run := .running, ip := d.ip, user, plane, task := some task, tstat := startTstat vf d
    pendFault := sys.pending ((old.map fun pl => pl.frozen == .fault).getD false) }
  match plane with
  | some k =>
    let pl := s.plane (planeKey r k)
    s.setPlane (planeKey r k) { pl with a := Vector.replicate 64 (Vector.replicate 16 0) }
  | none => s

/-- The place in a queue taken by nothing, or by the descriptor of a task that still has instances to start. -/
def State.setDesc (s : State) (vf i : Nat) (d : Option Desc) : State :=
  let x := s.queue vf
  s.setQueue vf (match d with
    | some d => { x with descs := putAt x.descs i d }
    | none => { x with descs := dropAt x.descs i }.refill)

/-- The decision counted (R32, R33): the queue served last at the level. -/
def State.countDecision (s : State) (partition vf prio : Nat) : State :=
  let d := Tab.getD s.disps partition Dispatcher.empty
  let d' := { d with decisions := d.decisions + 1, lastVf := vput d.lastVf prio vf }
  { s with disps := Tab.put s.disps partition d' }

/-- TASK_DROP (R352): no further instance of the task starts; a task none of whose instances runs ends now. -/
def State.dropTask (s : State) (vf i : Nat) (d : Desc) : State :=
  let s := s.setDesc vf i none
  match d.task.bind fun t => (Tab.find? s.tasks t).map fun x => (t, x) with
  | some (t, x) =>
    if x.live = 0 then ({ s with tasks := Tab.drop s.tasks t }).taskEnd d
    else { s with tasks := Tab.put s.tasks t { x with closed := true } }
  | none => s.taskEnd d

/-- A task's next instances started on some regions: RAN is set at the first (R353). -/
def State.startTask (s : State) (vf i : Nat) (d : Desc) (c : Ctx) (places : List Nat) : State :=
  let serial := d.task.getD s.taskSerial
  let t : Task := (Tab.find? s.tasks serial).getD { desc := d, started := 0, live := 0, closed := false }
  let c := match d.branch with | some b => c.setBranch b { c.branch b with ran := true } | none => c
  let s := s.setCtx d.ctx c
  let s := { s with taskSerial := if d.task.isSome then s.taskSerial else s.taskSerial + 1 }
  let group := groupSize d.levels
  let inner := match d.levels with | (_, n) :: _ => n | [] => 1
  let s := ((List.range places.length).zip places).foldl
    (fun s (j, r) => s.startInstance serial vf d r (if group.isSome then j else t.started % inner)) s
  let started := t.started + places.length
  let closed := decide (d.instances ≤ started)
  let s := { s with tasks := Tab.put s.tasks serial { t with started, live := t.live + places.length, closed } }
  s.setDesc vf i (if closed then none else some { d with task := some serial })

/-- DISPATCH_DECISION (R32): the swap-in requests that are due, and the ready task that R32 or R33 selects; it starts on
the sequencer that the rules name, or is dropped. -/
def execDispatchDecision (partition seq : Nat) (s : State) : Res :=
  let s := { s with swapReqs := s.swapReqs ++ s.swapWants partition }
  let disp := Tab.getD s.disps partition Dispatcher.empty
  let ready := s.readyTasks partition
  let pick := if (disp.decisions + 1) % 64 = 0 then oldest ready else nextInTurn disp ready
  match pick with
  | none => .next s
  | some (vf, i, d) =>
    match s.ctx? d.ctx with
    | none => .next s
    | some c =>
      let told (b : Nat) : Bool := disp.dead.contains (d.ctx, b)
      let counted := s.countDecision partition vf d.prio
      if c.state == .dying || (match d.branch with | some b => !c.seemsLive b (told b) | none => false) then
        .next (counted.dropTask vf i d)
      else
        let places := s.placesFor d c
        if places.head? != some seq then .next s else .next (counted.startTask vf i d c places)

end Sys2Proof.Machine
end

