-- ==== Sys2Proof/Machine/Images.lean ====
section
/-!
DEFINITION. Pre-emption images: bringing a plane to rest (R109, R215, R270, R292, R396), `save` (R396 to R399) and `rest`
(R400). The Arbiter's commands use the same operations.
-/

namespace Sys2Proof.Machine

/-! ### A plane comes to rest (R109, R396) -/

/-- A wavefront marker stands somewhere in a plane: in a link, at a node that has taken it, or in the router. -/
def Plane.holdsWave (pl : Plane) (m : Marker) : Bool :=
  (pl.links.any fun l => l.toks.any fun t => t.marker = m) ||
    (pl.nodes.any fun e => (e.2.phase == .held || e.2.phase == .emit) && e.2.emitting = m) ||
    pl.groups.toList.any fun g => (g.routed.any fun e => e.2.any fun t => t.marker = m) ||
      g.outMarks.any fun t => t.marker = m

/-- A SWITCH of the plane is in flight (R109). -/
def Plane.switching (pl : Plane) : Bool :=
  pl.holdsWave Mk.switch || pl.nodes.any fun e => e.2.phase == .reconf

/-- The sources at which DRAIN is injected can take it behind their last token. -/
def Plane.sourcesReady (pl : Plane) : Bool :=
  pl.nodes.all fun e => !pl.takesDrain e.1 e.2 || e.2.phase == .blocked || (e.2.phase == .run && e.2.pend.isEmpty)

/-- DRAIN injected at every source (R109); a memory node first waits for its events (R107). -/
def Plane.injected (pl : Plane) : Plane :=
  { pl with
    draining := true
    nodes := pl.nodes.map fun (slot, n) =>
      (slot, if pl.takesDrain slot n && n.phase == .run then
        { n with phase := if isMemorySlot slot then .held else .emit, emitting := Mk.drain, sent := [], passed := true }
      else n) }

/-- Every DRAIN of a plane removed, and the nodes that hold one back in RUN (R396, R407). -/
def Plane.undrained (pl : Plane) : Plane :=
  let keep (l : List Token) : List Token := l.filter fun t => t.marker != Mk.drain
  { pl with
    draining := false
    links := pl.links.map fun l => { l with toks := keep l.toks }
    nodes := pl.nodes.map fun (slot, n) =>
      let n := { n with passed := false }
      (slot, if (n.phase == .held || n.phase == .emit) && n.emitting = Mk.drain then { n with phase := .run, sent := [] } else n)
    groups := lanesOf pl.groups fun g =>
      { g with routed := g.routed.map fun (j, l) => (j, keep l), outMarks := keep g.outMarks, draining := false } }
where
  lanesOf (v : Vector StGroup 4) (f : StGroup → StGroup) : Vector StGroup 4 :=
    #v[f (vget v 0 StGroup.empty), f (vget v 1 StGroup.empty), f (vget v 2 StGroup.empty), f (vget v 3 StGroup.empty)]

/-- The arrays of a region bound to a plane. -/
def State.boundArrays (s : State) (r p : Nat) : List (Nat × BaBind) :=
  [0, 1].filterMap fun a => (s.arr r a).bind.bind fun b => if b.plane = p then some (a, b) else none

/-- A `bfin` of the plane feeds the array. -/
def Plane.hasBfin (pl : Plane) (a : Nat) : Bool :=
  pl.nodes.any fun e => fabricOpc e.2.word = 0xA0 && (bits e.2.word 37 7).toNat = 0x10 + a && e.1 < 512

/-- The marker can still move through an array: its chain runs, or discards its input after a fault. -/
def State.arrayRuns (s : State) (r : Nat) (b : BaBind) (x : BArray) : Bool :=
  !x.stopped && match s.chainJob r b with | some (_, j) => j.started | none => false

/-- No DRAIN of an array reaches a `bfout`: it has ended, waits for an older instance, or its array passes none on. -/
def State.bfoutAlone (s : State) (r p slot : Nat) (n : Node) : Bool :=
  let pl := s.plane (planeKey r p)
  n.ended || pl.elderOpen n || regionOfSlot (planeKey r p) slot != r ||
    match s.outSource r (bits n.word 0 1).toNat with
    | some (x, b) => b.plane != p || !s.arrayRuns r b (s.arr r x)
    | none => true

/-- DRAIN at the `bfout` nodes that get none from an array (R109, R270). -/
def State.drainBfouts (s : State) (r p : Nat) : State :=
  let pl := s.plane (planeKey r p)
  s.setPlane (planeKey r p) { pl with
    nodes := pl.nodes.map fun (slot, n) =>
      (slot, if fabricOpc n.word = 0xA1 && n.phase == .run && s.bfoutAlone r p slot n then
        { n with phase := .emit, emitting := Mk.drain, sent := [], passed := true }
      else n) }

/-- A DRAIN stands in an array that can still pass it on. -/
def State.arrayDraining (s : State) (r : Nat) (e : Nat × BaBind) : Bool :=
  let x := s.arr r e.1
  let isDrain (t : Token) : Bool := t.marker = Mk.drain
  s.arrayRuns r e.2 x &&
    (x.inq.any isDrain || (x.outq.any fun t => isDrain t.tok) || x.cols.any fun c =>
      c.2.inq.any isDrain || c.2.marks.any fun m => isDrain m.2)

/-- DRAIN at the inputs of the plane's sources, and of the arrays that no `bfin` of the plane feeds. -/
def State.startDrain (s : State) (r p : Nat) : State :=
  let k := planeKey r p
  let pl := s.plane k
  let s := (s.drainBfouts r p).setPlane k ((s.drainBfouts r p).plane k).injected
  (s.boundArrays r p).foldl
    (fun s (a, b) =>
      let x := s.arr r a
      if pl.hasBfin a || (b.both && a = 1) || !s.arrayRuns r b x then s
      else s.setArr r a { x with inq := x.inq ++ [Token.mark Mk.drain] })
    s

/-- The DRAINs left in arrays that cannot pass them on are removed. -/
def State.cleanArrays (s : State) (r p : Nat) : State :=
  let keep (l : List Token) : List Token := l.filter fun t => t.marker != Mk.drain
  (s.boundArrays r p).foldl
    (fun s (a, _) =>
      let x := s.arr r a
      s.setArr r a { x with
        inq := keep x.inq, outq := x.outq.filter fun t => t.tok.marker != Mk.drain
        cols := x.cols.map fun (c, y) =>
          (c, { y with inq := keep y.inq, marks := y.marks.filter fun m => m.2.marker != Mk.drain }) })
    s

/-- An agent has nothing in flight, and its writes are visible to a module (log 41). -/
def State.agentQuiet (s : State) (a : Nat) : Bool :=
  let g := s.agent a
  g.q.isEmpty && g.buf.isEmpty && g.rmws.isEmpty && g.rets.isEmpty && !(s.mem.recent.any fun w => w.org = a && w.level < 3)

/-- The DRAIN has left the plane, its arrays, its steering groups and its reports (R109, R270, R292). -/
def State.drained (s : State) (r p : Nat) : Bool :=
  let pl := s.plane (planeKey r p)
  !pl.holdsWave Mk.drain && pl.reports.isEmpty && s.blockQuiet (planeKey r p) &&
    !((s.boundArrays r p).any (s.arrayDraining r)) && [0, 1].all fun a => !(s.arr r a).draining

/-- The jobs of a plane's context in its region. -/
def State.planeJobs (s : State) (r p : Nat) : List (Nat × Job) :=
  (s.region r).jobs.filter fun e => e.2.plane = p && (s.plane (planeKey r p)).ctx == some e.2.ctx

/-- A copy or weight load of the context that runs, or that no other job holds back: it runs to completion (R396). -/
def State.copying (s : State) (r p : Nat) : Bool :=
  (s.planeJobs r p).any fun e => match e.2.kind with
    | .acpy .. | .bwld .. => e.2.started || !(s.region r).jobs.any fun x => e.2.deps.contains x.2.serial
    | _ => false

/-- The region's sequencer has the plane's context. -/
def State.runsPlane (s : State) (r p : Nat) : Bool := (s.seq r).plane == some p

/-- The region's sequencer can be stopped by `who` for an image of its context (R396): its own `save`, a halted one, or one
that stands between two instructions with INH = 0. -/
def State.seqTakeable (s : State) (who r p : Nat) : Bool :=
  let v := s.seq r
  !s.runsPlane r p ||
    (v.settled && (who = r || v.run == .halted || (!EStat.inh v.estat && s.betweenInstrs r)))

/-- One step towards an image of a plane, and whether everything stands still. -/
def State.bringToRest (s : State) (who r p : Nat) : State × Bool :=
  let k := planeKey r p
  let pl := s.plane k
  if pl.saver != some who then
    if s.seqTakeable who r p then (s.setPlane k { pl with saver := some who }, false) else (s, false)
  else if !pl.atRest then
    if pl.frozen != .none then
      if s.planeQuiet k && (s.agent (Agent.block r p).key).rets.isEmpty then
        ((s.setPlane k { pl.undrained with atRest := true }).cleanArrays r p, false)
      else (s, false)
    else if !pl.draining then
      if pl.switching || !pl.sourcesReady then (s, false) else (s.startDrain r p, false)
    else if s.drained r p then ((s.setPlane k { pl.undrained with atRest := true }).cleanArrays r p, false)
    else (s, false)
  else
    (s, !s.copying r p && (s.planeJobs r p).all (fun e => s.agentQuiet (jobAgent r e.1)) &&
      (!s.runsPlane r p || s.agentQuiet (Agent.seq r).key))

/-! ### The image (R397 to R399) -/

/-- Lines of 64 bytes of an image: 256 of the header and 64 of each sector. -/
def regionImageLines : Nat := 20864

/-- The group of a sector (Table 15-5). -/
def sectorGroup (k : Nat) : Nat :=
  if k < 4 then k else if k < 8 then 4 else if k < 40 then 5 else if k < 56 then 6 else if k < 64 then 7
  else if k < 193 then 8 else 9

/-- A line of an array has changed (R273). -/
def BArray.lineDirty (b : BArray) (i : Nat) : Bool :=
  match imageLine i with
  | .header | .zero => false
  | .columns c => [0, 1, 2, 3].any fun j => (b.col (c + j)).dirty
  | .acc c t => bitAt (b.col c).dirtyAcc t
  | .pair c t => bitAt (b.col c).dirtyPair t

/-- An incremental image writes sector k (R399): the registers of a small group are dirty, or a line of the sector is. -/
def State.sectorDirty (s : State) (r p uid sealid k : Nat) : Bool :=
  let pl := s.plane (planeKey r p)
  let g := sectorGroup k
  if g < 4 then bitAt pl.dirty g
  else if g < 8 then
    let sectors := (List.range 64).filter fun i => sectorGroup i = g
    bitAt pl.dirty g && (Config.sectorDirty uid sealid k ||
      (sectors.head? == some k && !sectors.any (Config.sectorDirty uid sealid)))
  else
    let first := if g = 8 then 64 else 193
    (k = first && bitAt pl.dirty g) ||
      (List.range 64).any fun j => (s.arr r (g - 8)).lineDirty (64 * (k - first) + j)

/-- The image that a slot's record names (R398). -/
def State.savedOf (s : State) (uid imgid slot : Nat) : Option SavedImage :=
  s.saved.find? fun x => x.uid = uid && x.imgid = imgid && x.slot = slot

/-- The sequencer's user state as an image keeps it (R396, Table 15-5). -/
def Seq.image (v : Seq) : Seq :=
  { v with
    run := .running, ip := if v.priv then v.epc else v.ip, priv := v.priv && EStat.pmode v.estat, estat := 0, got := []
    fetched := [], fetching := none, reports := [], waitU := sleep v.waitU, waitP := if v.priv then .none else sleep v.waitP
    waitH := .none }
where
  sleep : Wait → Wait
    | .timed ip left _ _ => .timed ip left none false
    | _ => .none

/-- A side holds something of a plane. -/
def Side.used (v : Side) (p : Nat) : Bool := v.plane = p && (!v.toks.isEmpty || v.hasJob)

/-- Every side of a region's ports. -/
def allSides : List (Nat × Bool) := (List.range 8).flatMap fun p => [(p, false), (p, true)]

/-- The image of a plane at rest (R397), as the model keeps it. -/
def State.image (s : State) (r p slot imgid : Nat) (c : Ctx) (ctx : Nat) (prev : Option SavedImage) : SavedImage :=
  let k := planeKey r p
  let pl := s.plane k
  let written (i : Nat) : Bool := prev.isNone || s.sectorDirty r p c.uid imgid i
  let old (i : Nat) : Nat := (prev.bind fun x => x.seals[i]?).getD 0
  { uid := c.uid, imgid, baseid := (prev.map fun x => x.imgid).getD 0, ctx, key := c.key, plane := p, slot
    frozen := pl.frozen != .none, inc := prev.isSome
    seals := (List.range 322).map fun i => if written i then imgid else old i
    region := r, pl := { pl with sys := s.sysOf k, chain := pl.chain.map fun c => { c with pieces := [] } }
    agent := s.agent (Agent.block r p).key
    sides := allSides.filterMap fun (i, w) => if (s.side r i w).used p then some (i, w, s.side r i w) else none
    jobs := (s.planeJobs r p).map Prod.snd
    arrays := [0, 1].filterMap fun a =>
      let b := s.arr r a
      if (match b.bind with | some x => decide (x.plane = p) | none => true) then some (a, b.clean) else none
    fpc := c.fpc, ctxres := c.ctxres
    seq := if s.runsPlane r p then some (s.seq r).image else none }

/-- Bytes of a line of an image (Table 15-6, R397, R398). -/
def SavedImage.line (x : SavedImage) (i : Nat) : List Byte :=
  let zeros (n : Nat) : List Byte := List.replicate n 0
  let tag (k sealid : Nat) : List Byte := (List.range 16).map fun j => Config.sealTag x.uid sealid k j
  if i = 0 then
    leBytes 8 x.imgid ++ leBytes 8 x.baseid ++
      leBytes 8 (x.ctx + 2 ^ 16 * x.key + 2 ^ 24 * x.plane + 2 ^ 32 * x.slot) ++
      leBytes 8 ((if x.frozen then 1 else 0) + (if x.inc then 2 else 0) + (if x.seq.isSome then 4 else 0)) ++
      tag 0xFFFF x.imgid ++ zeros 16
  else if i < 4 then zeros 64
  else if i < 256 then
    let entry (k : Nat) : List Byte := match x.seals[k]? with
      | some n => leBytes 8 n ++ tag k n ++ zeros 8
      | none => zeros 32
    entry (2 * (i - 4)) ++ entry (2 * (i - 4) + 1)
  else
    let k := (i - 256) / 64
    (List.range 64).map fun j => Config.sealedByte x.uid ((x.seals[k]?).getD 0) k (64 * ((i - 256) % 64) + j)

/-- An image writes the line (R399). -/
def SavedImage.writes (x : SavedImage) (i : Nat) : Bool := i < 256 || x.seals[(i - 256) / 64]? == some x.imgid

/-- Sectors that an image writes. -/
def SavedImage.count (x : SavedImage) : Nat := (x.seals.filter (· = x.imgid)).length

/-- The array of a plane that has been saved is unbound; its weights stay. -/
def BArray.vacated (b : BArray) : BArray :=
  { b.clean with
    bind := none, inq := [], outq := [], stopped := false, draining := false, drained := false, eotIn := false
    eotOut := false, groupIn := 0, groupOut := 0, cfgOpen := true, turnIn := 0, turnOut := 0, faulted := false
    flags := 0 }

/-- A context leaves a plane: nothing of it stays on the region, whose plane is IDLE without reservations, and with no
blocked element (R31, R56, R396). -/
def State.vacate (s : State) (r p : Nat) : State :=
  let k := planeKey r p
  let entries := (s.planeJobs r p).map Prod.fst
  let s := allSides.foldl (fun s (i, w) => if (s.side r i w).used p then s.setSide r i w Side.empty else s) s
  let arrs := s.boundArrays r p
  let s := arrs.foldl (fun s (a, _) => s.setArr r a (s.arr r a).vacated) s
  let g := s.region r
  let s := s.setRegion r { g with jobs := g.jobs.filter fun e => !entries.contains e.1 }
  let s := ((Agent.block r p).key :: entries.map (jobAgent r)).foldl State.retire s
  let s := { s with watches := s.watches.filter fun w => w.plane != k }
  let s := if s.runsPlane r p then s.leaveContext r else s
  s.setPlane k Plane.empty

/-- The context is on some plane. -/
def State.placed (s : State) (ctx : Nat) : Bool := s.planes.any fun e => e.2.ctx == some ctx

/-- The image has been written: the slot's record names it, and the plane is free (R396, R398). -/
def State.imageDone (s : State) (x : SavedImage) (addr : Nat) : State :=
  let s := { s with saved := s.saved ++ [x], imaging := Tab.drop s.imaging (planeKey x.region x.plane) }
  let s := s.vacate x.region x.plane
  match s.ctx? x.ctx with
  | some c =>
    let c := { c with slots := Tab.put c.slots x.slot { imgid := x.imgid, addr } }
    s.setCtx x.ctx { c with state := if c.state == .resident && !s.placed x.ctx then .swapped else c.state }
  | none => s

/-! ### save -/

/-- Region, plane and slot of an operand of `save` and `rest` (R396). -/
def imageRegion (x : Word) : Nat := (bits x 0 7).toNat
def imagePlane (x : Word) : Nat := (bits x 8 2).toNat
def imageSlot (x : Word) : Nat := (bits x 16 5).toNat

/-- The limits of `save` and `rest` on sB (R396, R400). -/
def imageWordOk (q : Nat) (x : Word) : Bool :=
  bits x 7 1 == 0 && bits x 10 6 == 0 && bits x 21 43 == 0 &&
    (if isRoot q then imageRegion x / 32 = boardOfSeq q else imageRegion x = q)

/-- The image that an incremental save updates: the slot's last, when it is at the address (R399). -/
def State.baseImage (s : State) (c : Ctx) (slot addr : Nat) (inc : Bool) : Option SavedImage :=
  if inc then
    (Tab.find? c.slots slot).bind fun r => if r.addr = addr then s.savedOf c.uid r.imgid slot else none
  else none

/-- SEALID counts one more save (R398). -/
def State.nextSeal (s : State) (ctx : Nat) (c : Ctx) : State := s.setCtx ctx { c with sealid := c.sealid + 1 }

/-- `save` (R396 to R399): the plane comes to rest, its image is written line by line, and the plane is freed. -/
def execSave (d a b : SReg) (inc : Bool) (s : State) : Res :=
  issueAs s .privileged false fun q =>
    let v := s.seq q
    if !v.allReady [d, a, b] then stall s
    else
      let x := v.read b
      let r := imageRegion x
      let p := imagePlane x
      let slot := imageSlot x
      let addr := (v.read a).toNat
      match (s.plane (planeKey r p)).ctx.bind fun n => (s.ctx? n).map fun c => (n, c) with
      | none => .next (s.raise q .sysval 0)
      | some (n, c) =>
        if !imageWordOk q x then .next (s.raise q .sysval 0)
        else if addr % 4096 != 0 then .next (s.raise q .align (v.read a))
        else
          let (s, still) := s.bringToRest q r p
          if !still then .next s
          else
            let at_ := v.rangeAt 0
            match (Tab.find? s.imaging (planeKey r p)).filter fun x => x.uid = c.uid && x.imgid = at_ / regionImageLines with
            | none =>
              let img := s.image r p slot (c.sealid + 1) c n (s.baseImage c slot addr inc)
              let s := { s.nextSeal n c with imaging := Tab.put s.imaging (planeKey r p) img }
              .next (s.setSeq q (v.setWait (.range v.ip (regionImageLines * (c.sealid + 1)))))
            | some img =>
              let i := at_ % regionImageLines
              let go (s : State) : Res :=
                if i + 1 < regionImageLines then .next (s.setSeq q ((s.seq q).setWait (.range v.ip (at_ + 1))))
                else
                  let w := (s.seq q).setWait .none
                  let res : Word := BitVec.ofNat 64 (img.count + (if img.inc then 0 else 2 ^ 16))
                  .next (((s.setSeq q w).finish q d res 4).imageDone img addr)
              if !img.writes i then go s
              else
                match s.writeLine q (addr + 64 * i) (img.line i) with
                | .inr t => .next t
                | .inl s => go s

/-! ### rest (R400) -/

/-- An event of a plane's agent as another plane's: the caches and the destinations are those of the new region. -/
def Ev.moved (e : Ev) (r k r' k' : Nat) : Ev :=
  let near := 0x1000 + 32 * r ≤ e.req && e.req < 0x1000 + 32 * (r + 2)
  let at_ (p : Nat) : Nat := if p = k then k' else p
  let dest : Dest := match e.dest with
    | .lane p slot i l => .lane (at_ p) slot i l
    | .span p slot i => .span (at_ p) slot i
    | .acc p n slot i => .acc (at_ p) n slot i
    | .entry p slot key => .entry (at_ p) slot key
    | x => x
  let e := { e with req := if near then e.req - 32 * r + 32 * r' else e.req, dest }
  if e.isAccess then { e with parked := true, ord := .so } else e

/-- The reservations of the contexts on a region, and of one more with this CTXRES, stay within R31. -/
def State.reserves (s : State) (r : Nat) (ctxres : Word) : Bool :=
  let sum (f : Plane → Nat) : Nat :=
    ([0, 1, 2, 3].map fun p => let pl := s.plane (planeKey r p); if pl.ctx.isSome then f pl else 0).sum
  decide (sum Plane.resd + (bits ctxres 0 10).toNat ≤ 512) && decide (sum Plane.resm + (bits ctxres 16 9).toNat ≤ 256)

/-- The region's sequencer can take an image's sequencer state: it is free, or it issued `rest` and runs no task. -/
def State.seqFree (s : State) (q r : Nat) : Bool :=
  (s.seq r).run == .free || (q = r && (s.seq r).task.isNone && (s.seq r).plane.isNone)

/-- The status of `rest` for an image whose lines are as they were sealed (R400), lowest first. An image of a context that
has been destroyed fails its check under the key of a new one with its CTXID (R398). -/
def State.restStatus (s : State) (q r p slot : Nat) (x : SavedImage) : Nat :=
  match s.ctx? x.ctx with
  | none => 3
  | some c =>
    if c.uid != x.uid then 1
    else if ((Tab.find? c.slots x.slot).map fun y => y.imgid) != some x.imgid then 2
    else if (s.plane (planeKey r p)).ctx.isSome || x.key != c.key || x.slot != slot then 3
    else if !s.reserves r x.ctxres then 4
    else if x.seq.isSome && !s.seqFree q r then 5
    else 0

/-- Sides, arrays or scoreboard entries that the image needs are in use on the region: the load waits (log 42). -/
def State.restBlocked (s : State) (r : Nat) (x : SavedImage) : Bool :=
  (x.sides.any fun (i, w, _) => let v := s.side r i w; !v.toks.isEmpty || v.hasJob) ||
    (x.arrays.any fun (a, b) => b.bind.isSome && (s.arr r a).bind.isSome) ||
    decide (16 < (s.region r).jobs.length + x.jobs.length)

/-- New serial numbers of an image's jobs: old and new. -/
def newSerials (start : Nat) (jobs : List Job) : List (Nat × Nat) :=
  ((List.range jobs.length).zip jobs).map fun (i, j) => (j.serial, start + i + 1)

def renumber (l : List (Nat × Nat)) (n : Nat) : Nat := ((l.find? fun e => e.1 = n).map Prod.snd).getD 0

/-- A job of an image entered on a region: at its old entry when that is free (R213). -/
def State.putJob (s : State) (r p : Nat) (same : Bool) (l : List (Nat × Nat)) (j : Job) : State :=
  let g := s.region r
  let want := (bits j.card 0 4).toNat
  let e := if (Tab.find? g.jobs want).isNone then want else (g.freeEntry).getD want
  let known (n : Nat) : Bool := l.any fun x => x.1 = n
  let deps := j.deps.filterMap fun n => if known n then some (renumber l n) else if same then some n else none
  let j := { j with
    serial := renumber l j.serial, deps, seq := r, plane := p, card := bits j.card 4 12 ++ BitVec.ofNat 4 e }
  s.setRegion r { g with jobs := Tab.put g.jobs e j, serial := max g.serial j.serial }

/-- The sequencer state of an image placed on a region's sequencer (R400). A job that has ended has no entry there: it keeps
its result under a serial number that no job has. -/
def Seq.placed (v w : Seq) (p : Nat) (frozen : Bool) (l : List (Nat × Nat)) : Seq :=
  { w with
    bank := v.bank, blkst := v.blkst, reports := v.reports, tvec := v.tvec, sctl := v.sctl, epc := v.epc
    plane := some p, estat := if frozen then 4 else 0
    jobs := w.jobs.map fun x => { x with serial := renumber l x.serial }
    pendFault := w.sysRegs.pending frozen }

/-- The home watch entries of an image's watchpoints, under the leaves as they are now (R393). -/
def State.homeWatches (s : State) (k : Nat) (x : SavedImage) : List HomeWatch :=
  [0, 1, 2, 3].filterMap fun n =>
    let w := vget x.pl.wpt n 0
    let va := (bits w 16 48).toNat * 16
    match s.ctx? x.ctx with
    | none => none
    | some c =>
      match s.homeLeaf c va with
      | some l =>
        let m := (Leaf.mkind l).toNat
        if bits w 0 16 != 0 && (m = 0 || m = 1 || m = 3) then
          some { line := leafKey l va / 16, mask := bits w 0 16, plane := k, n }
        else none
      | none => none

/-- An image loaded into a plane (R400), with the context's FPC and CTXRES (R80, R405, log 115); a blocked element is so no
longer (R56). -/
def State.loadImage (s : State) (r p : Nat) (x : SavedImage) : State :=
  let k := planeKey r p
  let k0 := planeKey x.region x.plane
  let l := newSerials (s.region r).serial x.jobs
  let s := x.jobs.foldl (fun s j => s.putJob r p (x.region = r) l j) s
  let side (v : Side) : Side := { v with plane := p, job := v.job.map (renumber l) }
  let s := x.sides.foldl (fun s (i, w, v) => s.setSide r i w (side v)) s
  let arr (s : State) (e : Nat × BArray) : State :=
    let old := s.arr r e.1
    let cols := e.2.cols.map fun (c, y) =>
      let z := old.col c
      (c, { y with kind := z.kind, loaded := z.loaded, scales := z.scales, cb := z.cb })
    match old.bind, e.2.bind with
    | some _, _ => s
    | none, b => s.setArr r e.1 { e.2 with
        cols := cols.foldl (fun t c => Tab.put t c.1 c.2) old.cols
        bind := b.map fun b => { b with plane := p, job := renumber l b.job }
        images := old.images, imageIds := old.imageIds }
  let s := x.arrays.foldl arr s
  let pl := { x.pl with
    ctx := some x.ctx, dirty := 0, draining := false, atRest := false, saver := none, jammed := []
    nodes := x.pl.nodes.map fun (slot, n) => (slot, if n.phase == .blocked then { n with phase := .run } else n)
    chain := x.pl.chain.map fun c => { c with seq := r }
    resd := (bits x.ctxres 0 10).toNat, resm := (bits x.ctxres 16 9).toNat }
  let s := s.setPlane k pl
  let s := s.setAgent (Agent.block r p).key { x.agent with q := x.agent.q.map fun e => e.moved x.region k0 r k }
  let s := { s with watches := s.watches ++ s.homeWatches k x, swapReqs := s.swapReqs.filter fun n => n != x.ctx }
  let s := match x.seq with
    | some w => s.setSeq r ((s.seq r).placed w p x.frozen l)
    | none => s
  match s.ctx? x.ctx with
  | some c => s.setCtx x.ctx { c with
      fpc := x.fpc, ctxres := x.ctxres
      state := if c.state == .swapped then .resident else c.state
      trigs := lanes fun i =>
        let t := vget c.trigs i Trig.empty
        { t with port := t.port.map fun (a, b) => if a = x.region then (r, b) else (a, b) } }
  | none => s

/-- The first image whose first line is that in memory: its place in the list plus 1, or 0. -/
def State.imageFound (s : State) (bs : List Byte) : Nat :=
  match s.saved.findIdx? fun x => x.line 0 = bs with
  | some i => i + 1
  | none => 0

/-- `rest` (R400): the image is read line by line; what it holds is loaded when every line is as it was sealed (log 43). -/
def execRest (d a b : SReg) (s : State) : Res :=
  issueAs s .privileged false fun q =>
    let v := s.seq q
    if !v.allReady [d, a, b] then stall s
    else
      let x := v.read b
      let r := imageRegion x
      let p := imagePlane x
      let addr := (v.read a).toNat
      let ask (s : State) (i found : Nat) : Res :=
        let va : Word := BitVec.ofNat 64 (addr + 64 * i)
        let hit : Option (Nat × Word) := some (i, BitVec.ofNat 64 found)
        match s.reach q (reqLoad q) va 64 .read with
        | .out t => .next t
        | .void => .next (s.setSeq q ((s.seq q).setWait (.event v.ip 0 0 hit (some (List.replicate 64 0, none)))))
        | .to ph =>
          let e := { s.seqEvent q va 64 ph .read with dest := .wait q, watched := false }
          .next ((s.place q e).await q 0 s.nextId hit)
      let done (s : State) (n : Nat) : Res :=
        .next ((s.setSeq q ((s.seq q).setWait .none)).finish q d (BitVec.ofNat 64 n) 4)
      match v.stage with
      | .pending => stall s
      | .fresh =>
        if !imageWordOk q x then .next (s.raise q .sysval 0)
        else if addr % 4096 != 0 then .next (s.raise q .align (v.read a))
        else
          let start := v.rangeAt 0
          ask s (start % regionImageLines) (start / regionImageLines)
      | .back _ bs _ hit =>
        let i := (hit.map Prod.fst).getD 0
        let before := ((hit.map Prod.snd).getD 0).toNat
        let found :=
          if i = 0 then s.imageFound bs
          else match s.saved[before - 1]? with
            | some y => if before != 0 && y.line i = bs then before else 0
            | none => 0
        if i + 1 < regionImageLines then
          ask (s.setSeq q (v.setWait (.range v.ip (i + 1 + regionImageLines * found)))) (i + 1) found
        else
          match (if found = 0 then none else s.saved[found - 1]?) with
          | none => done s 1
          | some y =>
            let n := s.restStatus q r p (imageSlot x) y
            if n != 0 then done s n
            else if s.restBlocked r y then stall s
            else
              let s := (s.setSeq q (v.setWait .none)).finish q d 0 4
              .next (s.loadImage r p y)

end Sys2Proof.Machine
end

