-- ==== Sys2Proof/Machine/Arbiter.lean ====
section
/-!
DEFINITION. The Arbiter: the command ring (R413 to R416), handles (R412), policies (R417, R418), and the commands that
create, stop and destroy a virtual device (R419, R420), QUERY (R424), ATTEST (R426) and the creation of a further context.
-/

namespace Sys2Proof.Machine

/-! ### The rings (R413 to R415) -/

/-- A command packet (Table 16-4). -/
structure Packet where
  cmd : Nat
  tag : Nat
  handle : Word
  arg0 : Word
  arg1 : Word
  arg2 : Word
  buf : Nat
  buflen : Nat
  /-- a bit that every packet leaves zero is set -/
  bad : Bool
  deriving DecidableEq, Repr

/-- Bit 7 of BOOTST: bring-up is complete. -/
def HostRegs.up (h : HostRegs) : Bool := bitAt h.bootst 7

/-- Ring size of CRCFG. -/
def HostRegs.ringSize (h : HostRegs) : Nat := 2 ^ ((bits h.crcfg 0 4).toNat + 4)

/-- Entries between two indices, which count modulo 2^16. -/
def between (tail head : Word) : Nat := (bits tail 0 16 - bits head 0 16).toNat

/-- n bytes of host memory, as the device reads them coherently (R408, R430). -/
def State.hostBytes (s : State) (addr n : Nat) : List Byte := s.readBytes (.host 0) (hostStart + addr) n

/-- Bytes that the Arbiter writes at a physical key: visible to every agent at once (R414, log 44). -/
def State.arbiterWrite (s : State) (key : Nat) (bs : List Byte) : State :=
  { s with mem := s.mem.poke s.nextId (keyed key bs), nextId := s.nextId + 1 }

/-- Number in n bytes of a list from a place on. -/
def numAt (bs : List Byte) (off n : Nat) : Nat := leNat ((bs.drop off).take n)

/-- A packet from its 64 bytes. -/
def Packet.ofBytes (bs : List Byte) : Packet :=
  let w (i : Nat) : Word := BitVec.ofNat 64 (numAt bs (8 * i) 8)
  let hdr := w 0
  { cmd := (bits hdr 0 8).toNat, tag := (bits hdr 16 16).toNat, handle := w 1, arg0 := w 2, arg1 := w 3, arg2 := w 4
    buf := (w 5).toNat, buflen := (w 6).toNat
    bad := bits hdr 8 8 != 0 || bits hdr 32 32 != 0 || w 7 != 0 || (w 5).toNat % 64 != 0 }

/-- The 64 bytes of the command that the Arbiter is at: the one that it has begun, or the next, where the rings are enabled, a
command is there and the completion ring has a free entry (R414). -/
def State.commandBytes (s : State) : Option (List Byte) :=
  let h := s.host
  if !s.powered || !h.up then none
  else match h.command with
    | some bs => some bs
    | none =>
      if bitAt h.crcfg 4 && h.crtail != h.crhead && between h.cptail h.cphead < h.ringSize then
        some (s.hostBytes (h.crbase.toNat + 64 * (h.crhead.toNat % h.ringSize)) 64)
      else none

/-- The command that the Arbiter is at. -/
def State.packet (s : State) : Option Packet := s.commandBytes.map Packet.ofBytes

/-! Completion status codes (Table 16-4). -/
namespace Status
def ok : Nat := 0
def badcmd : Nat := 1
def badhandle : Nat := 2
def denied : Nat := 3
def sig : Nat := 4
def state : Nat := 5
def nores : Nat := 6
def auth : Nat := 7
def stale : Nat := 8
end Status

/-- A command completes (R414): its entry is written, then CPTAIL and CRHEAD advance. -/
def State.complete (s : State) (p : Packet) (status : Nat) (result : Word) : Res :=
  let h := s.host
  let entry := leBytes 2 p.tag ++ leBytes 1 status ++ List.replicate 5 0 ++ leBytes 8 (if status = 0 then result.toNat else 0)
  let s := s.arbiterWrite (hostStart + h.cpbase.toNat + 16 * (h.cptail.toNat % h.ringSize)) entry
  let inc (x : Word) : Word := (bits x 0 16 + 1).setWidth 64
  .next { s with host := { s.host with cptail := inc h.cptail, crhead := inc h.crhead, command := none } }

/-- Host memory holds the n bytes of a packet's buffer; a BUF of 0 names none (Table 16-4, R418). -/
def Packet.readable (p : Packet) (n : Nat) : Bool := p.buf != 0 && decide (p.buf + n ≤ 2 ^ 64)

/-- The operands that a command does not take are zero (R415). -/
def Packet.shapeOk (p : Packet) : Bool :=
  let none1 := p.arg1 == 0
  let none2 := p.arg2 == 0
  let noBuf := p.buf = 0 && p.buflen = 0
  !p.bad && match p.cmd with
    | 1 => p.handle == 0
    | 2 | 3 | 4 | 5 => p.arg0 == 0 && none1 && none2 && noBuf
    | 6 | 7 => none2 && noBuf
    | 8 => noBuf
    | 9 => none1 && none2 && noBuf
    | 10 => p.arg0 == 0 && none1 && none2
    | _ => false

/-- A command that takes more turns keeps its packet, so that no other begins before it has completed, whatever the host
writes to the ring (R414). -/
def State.begun (old : State) (o : Res) : Res :=
  match o with
  | .next t => .next (if t.host.crhead = old.host.crhead then { t with host := { t.host with command := old.commandBytes } } else t)
  | o => o

/-- The command that the Arbiter is at, when it has the code. -/
def asCommand (cmd : Nat) (s : State) (f : Packet → Res) : Res :=
  match s.packet with
  | none => stall s
  | some p => if p.cmd != cmd then stall s else if !p.shapeOk then s.complete p Status.badcmd 0 else s.begun (f p)

/-- The virtual device of a handle (R412). -/
def State.vdOf (s : State) (h : Word) : Option (Nat × Vd) := if h = 0 then none else List.find? (fun e => e.2.handle = h) s.vds

/-- The VD that a command names, once CMDMASK and the states of Table 16-5 allow it. -/
def withVd (s : State) (p : Packet) (states : List VdState) (f : Nat → Vd → Res) : Res :=
  match s.vdOf p.handle with
  | none => s.complete p Status.badhandle 0
  | some (k, v) =>
    if !bitAt v.cmdmask p.cmd then s.complete p Status.denied 0
    else if !states.contains v.state then s.complete p Status.state 0
    else f k v

def State.setVd (s : State) (k : Nat) (v : Vd) : State := { s with vds := Tab.put s.vds k v }

/-- BADCMD: a packet with CMD 0 or 11 to 255 (R416). -/
def execBadcmd (s : State) : Res :=
  match s.packet with
  | none => stall s
  | some p => if 1 ≤ p.cmd && p.cmd ≤ 10 then stall s else s.complete p Status.badcmd 0

/-! ### Resources (R410, R465) -/

/-- The region is present (R465). -/
def State.present (s : State) (r : Nat) : Bool := if r < 64 then bitAt s.host.caprg0 r else bitAt s.host.caprg1 (r - 64)

/-- Even regions of the free pairs. -/
def State.freePairs (s : State) : List Nat :=
  let used (r : Nat) : Bool := s.vds.any fun e => e.2.regions.contains r
  ((List.range 64).map (2 * ·)).filter fun r => s.present r && s.present (r + 1) && !used r && !used (r + 1)

/-- Free channels. -/
def State.freeChannels (s : State) : List Nat :=
  (List.range 32).filter fun c => bitAt s.host.capch c && !s.vds.any fun e => e.2.channels.contains c

/-- n elements of a list in an order that the spec leaves open. -/
def State.pickMany (s : State) (l : List Nat) : Nat → List Nat × State
  | 0 => ([], s)
  | n + 1 =>
    if l.isEmpty then ([], s)
    else
      let (i, t) := s.freePick l.length
      let x := (l[i]?).getD 0
      let (rest, u) := State.pickMany t (l.filter (· != x)) n
      (x :: rest, u)

/-- Both regions of each pair. -/
def pairRegions (pairs : List Nat) : List Nat := pairs.flatMap fun r => [r, r + 1]

/-- Bytes of M-square and weight SRAM of some regions. -/
def inSram (regions : List Nat) (key : Nat) : Bool :=
  match storeOf key with
  | some (.square m) => regions.contains (squareRegion m)
  | some (.weight r) => regions.contains r
  | _ => false

/-- A byte of base SRAM. -/
def inBase (key : Nat) : Bool := (sliceRegionOf key).isSome

/-- Some bytes of memory become zero. -/
def State.zeroWhere (s : State) (gone : Nat → Bool) : State :=
  let m := s.mem
  let keep (k : Nat) : Bool := !gone k
  let mem : Memory := { m with
    cells := m.cells.filter fun c => keep c.1
    tags := m.tags.filter fun t => keep (64 * t.1)
    recent := m.recent.map fun w => { w with
      cells := w.cells.filter fun c => keep c.1
      tag := match w.tag with | some (b, t) => if keep (64 * b) then some (b, t) else none | none => none } }
  { s with mem }

/-- M-square SRAM and weight SRAM of some regions become zero (R419, R420, R427), and the columns hold no weights. -/
def State.zeroSram (s : State) (regions : List Nat) : State :=
  regions.foldl
    (fun s r =>
      let g := s.region r
      let bare (b : BArray) : BArray :=
        { b with cols := b.cols.map fun (i, c) => (i, { c with kind := 0, loaded := false, scales := [], cb := 0 }) }
      s.setRegion r { g with arrays := g.arrays.map bare })
    (s.zeroWhere (inSram regions))

/-! ### Contexts -/

/-- The planes of a VD's regions that hold a context of it. -/
def State.vdPlanes (s : State) (v : Vd) : List (Nat × Nat) :=
  v.regions.flatMap fun r => [0, 1, 2, 3].filterMap fun p =>
    match (s.plane (planeKey r p)).ctx with
    | some n => if v.ctxs.contains n then some (r, p) else none
    | none => none

/-- Frame j of a GDDR7 channel, and of the base SRAM slices or the M-square SRAM of a region: numbers of 64 KiB frames. -/
def channelFrame (channel j : Nat) : Nat := (gddrStart + channel * channelBytes) / 65536 + j
def sliceFrame (region j : Nat) : Nat := (sliceStart + 32 * region * sliceBytes) / 65536 + j
def squareFrame (region j : Nat) : Nat := 32 * region * squareBytes / 65536 + j

/-- An element of a list, by a number that the spec leaves open. -/
def anyOf (l : List Nat) (n : Nat) : Nat := (l[n % l.length]?).getD 0

/-- Bytes of a branch area (R356), and the 64 KiB frames that it takes up. -/
def areaBytes (nbr chunks : Nat) : Nat := 32 * nbr + 524288 + 256 * chunks
def framesFor (bytes : Nat) : Nat := (bytes + 65535) / 65536

/-- A context as the operating service code lays it out on its device's channels and in the SRAM of its regions (R356, R357,
R410, R419, log 8): in a channel the root of its tables lies in the first quarter, its branch area in the second and its
page pool in the third. -/
def Ctx.created (uid k : Nat) (v : Vd) : Ctx :=
  let f (i : Nat) : Nat := Config.ctxField uid i
  let nbr := 2 ^ (6 + f 1 % 11)
  let base := decide (f 3 % 2 = 0)
  let chunkCount := f 4 % (if base then 2 ^ 16 else 2 ^ 20) + 1
  let n := framesFor (areaBytes nbr chunkCount)
  let area :=
    if base then sliceFrame (anyOf v.regions (f 9)) (f 2 % (513 - n))
    else channelFrame (anyOf v.channels (f 9)) (2 ^ 15 + f 2 % (2 ^ 15 + 1 - n))
  let square := decide (f 7 % 2 = 0)
  let poolFrames := f 5 % (if square then 65 else 2 ^ 15 + 1)
  let pool :=
    if square then squareFrame (anyOf v.regions (f 10)) (f 6 % (65 - poolFrames))
    else channelFrame (anyOf v.channels (f 10)) (2 ^ 16 + f 6 % (2 ^ 15 + 1 - poolFrames))
  { Ctx.blank with
    uid, vf := k, key := k, state := .swapped, ptRoot := 65536 * channelFrame (anyOf v.channels (f 8)) (f 0 % 2 ^ 15), nbr
    area := area * 65536, areaKind := if base then 1 else 3, chunkCount, poolFrames, poolBase := pool
    poolKind := if square then 0 else 3, mailClosed := false, partition := v.partition
    branches := [(0, { Branch.free with st := 1 })] }

/-- Ranges of physical memory that a context holds as its own: table root, branch area and page pool. -/
def Ctx.ranges (c : Ctx) : List (Nat × Nat) :=
  [(c.ptRoot, 4096), (c.area, areaBytes c.nbr c.chunkCount), (c.poolBase * 65536, c.poolFrames * 65536)]

/-- Memory that a new context would take is another context's. -/
def State.rangesClash (s : State) (v : Vd) (c : Ctx) : Bool :=
  (v.ctxs.flatMap fun n => match s.ctx? n with | some x => x.ranges | none => []).any fun x =>
    c.ranges.any fun y => decide (x.1 < y.1 + y.2) && decide (y.1 < x.1 + x.2)

/-- Plane of a region on which a new context is loaded, or none. -/
def State.openPlane (s : State) (r : Nat) : Option Nat :=
  [0, 1, 2, 3].find? fun p => (s.plane (planeKey r p)).ctx.isNone

/-- The service code makes a new context resident on the regions of its partition that have a free plane (log 45). -/
def State.makeResident (s : State) (n : Nat) (regions : List Nat) : State :=
  let load (s : State) (r : Nat) : State := match s.openPlane r with
    | some p => s.setPlane (planeKey r p) { Plane.empty with ctx := some n }
    | none => s
  let s := regions.foldl load s
  match s.ctx? n with
  | some c => if s.placed n then s.setCtx n { c with state := .resident } else s
  | none => s

/-- A context created for a VD: its number, or none where its branch area does not fit or the module can hold no further
live branch or context (R356). -/
def State.createCtx (s : State) (k : Nat) (v : Vd) : Option (Nat × State) :=
  let unused := (List.range 65536).filter fun n => (s.ctx? n).isNone
  let (i, s) := s.freePick unused.length
  let uid := s.nextId
  let s := { s with nextId := s.nextId + 1 }
  match unused[i]? with
  | none => none
  | some n =>
    let c := Ctx.created uid k v
    if s.rangesClash v c || 1048576 ≤ s.liveBranches then none
    else some (n, (s.setCtx n c).makeResident n v.regions)

/-- CONTEXT_CREATION: a further context of a running VD, up to NCTX (R411, R417). -/
def execContextCreation (vd : Nat) (s : State) : Res :=
  match Tab.find? s.vds vd with
  | none => stall s
  | some v =>
    if v.state != .running || v.nctx ≤ v.ctxs.length then stall s
    else
      match s.createCtx vd v with
      | none => stall s
      | some (n, s) => .next (s.setVd vd { v with ctxs := v.ctxs ++ [n] })

/-! ### CREATE_VD (R417 to R419) -/

/-- Window i of a policy (Table 16-6). -/
def policyWin (bs : List Byte) (i : Nat) : PolWin :=
  let o := 56 + 32 * i
  let fl := numAt bs (o + 16) 8
  { va := numAt bs o 8, size := numAt bs (o + 8) 8, kind := fl % 4, r := fl / 4 % 2 = 1, w := fl / 8 % 2 = 1, mapped := false
    start := 0 }

/-- The checks of R418's third row; false is DENIED. -/
def policyOk (bs : List Byte) : Bool :=
  let w (o : Nat) : Word := BitVec.ofNat 64 (numAt bs o 8)
  let rmin := (bits (w 24) 0 8).toNat
  let rmax := (bits (w 24) 8 8).toNat
  let chmax := (bits (w 24) 16 8).toNat
  let nnot := (bits (w 32) 0 4).toNat
  let nwin := (bits (w 48) 0 4).toNat
  let wins := (List.range nwin).map (policyWin bs)
  let winBad (i : Nat) : Bool :=
    let x := policyWin bs i
    x.va % 65536 != 0 || x.size % 65536 != 0 || x.size = 0 || x.kind = 3 || bits (w (56 + 32 * i + 16)) 4 60 != 0 ||
      w (56 + 32 * i + 24) != 0
  let clash : Bool := (indexed wins).any fun x => (indexed wins).any fun y =>
    decide (x.1 < y.1) && decide (x.2.va < y.2.va + y.2.size) && decide (y.2.va < x.2.va + x.2.size)
  w 0 == 1 && w 8 &&& 0xFFFFFFFFFFFFFE03 == 0 && w 16 &&& 0xFFFFFFFFFFFFF8F8 == 0 && bits (w 24) 40 24 == 0 &&
    bits (w 32) 20 44 == 0 && bits (w 40) 52 12 == 0 && bits (w 40) 0 6 == 0 && bits (w 48) 9 55 == 0 && w 5496 == 0 &&
    decide ((bits (w 16) 0 3).toNat ≤ (bits (w 16) 8 3).toNat) &&
    decide (4 ≤ rmin) && rmin % 2 = 0 && rmax % 2 = 0 && decide (rmin ≤ rmax) && decide (rmax ≤ 128) &&
    decide (1 ≤ chmax) && decide (chmax ≤ 32) && bits (w 24) 24 16 != 0 && decide (1 ≤ nnot) && decide (nnot ≤ 8) &&
    decide (nwin ≤ 8) && decide ((bits (w 48) 4 5).toNat ≤ 16) && !clash &&
    (List.range 8).all fun i => if i < nwin then !winBad i else (bs.drop (56 + 32 * i)).take 32 == List.replicate 32 0

/-- The VD's keys follow from the secret that KEMCT carries (R425). -/
def vdKeys (ss : List Byte) : List Byte :=
  Config.shake256 (ss ++ [0x5A, 0x39, 0x34, 0x30, 0x2D, 0x56, 0x44])

/-- The virtual device of a policy (R417 to R419). -/
def vdOfPolicy (bs : List Byte) (k : Nat) (handle : Word) (regions channels : List Nat) : Vd :=
  let w (o : Nat) : Word := BitVec.ofNat 64 (numAt bs o 8)
  { state := .running, handle, policy := bs, cmdmask := w 8, plo := (bits (w 16) 0 3).toNat, phi := (bits (w 16) 8 3).toNat
    rmin := (bits (w 24) 0 8).toNat, rmax := (bits (w 24) 8 8).toNat, chmax := (bits (w 24) 16 8).toNat
    nctx := (bits (w 24) 24 16).toNat, nnot := (bits (w 32) 0 4).toNat, nrate := (bits (w 32) 4 16).toNat
    nva := (bits (w 40) 0 52).toNat, nhash := (bits (w 48) 4 5).toNat
    wins := (List.range (bits (w 48) 0 4).toNat).map (policyWin bs), regions, channels, share := (0, 0), partition := k
    firstCtx := 0, ctxs := [], cnt := Vector.replicate 8 0, admitted := 0, rejected := 0, window := 0, inWindow := 0
    frames := [], codeFrames := [], images := [], leaving := [], moved := [], reserve := [], plan := 0
    ss := Config.mlkemDecap ((bs.drop 3928).take 1568) }

/-- CREATE_VD (R418, R419). -/
def execCreateVd (s : State) : Res :=
  asCommand 1 s fun p =>
    let bs := s.hostBytes p.buf 10131
    let k := p.arg0.toNat
    let nr := p.arg1.toNat
    let nc := p.arg2.toNat
    let w24 : Word := BitVec.ofNat 64 (numAt bs 24 8)
    if p.buflen != 10131 || !p.readable 10131 then s.complete p Status.badcmd 0
    else if !Config.mldsaVerify ((bs.drop 1336).take 2592) (Config.sha3 (bs.take 5504)) (bs.drop 5504) then
      s.complete p Status.sig 0
    else if !policyOk bs then s.complete p Status.denied 0
    else if 255 < k || (Tab.find? s.vds k).isSome || nr < (bits w24 0 8).toNat || (bits w24 8 8).toNat < nr || nr % 2 = 1 ||
        nc = 0 || (bits w24 16 8).toNat < nc then s.complete p Status.denied 0
    else if 2 * s.freePairs.length < nr || s.freeChannels.length < nc || 2 ^ 32 - 1 ≤ s.vdGen then
      s.complete p Status.nores 0
    else
      let (pairs, t) := s.pickMany s.freePairs (nr / 2)
      let (channels, t) := t.pickMany t.freeChannels nc
      let handle := handleOf k (t.vdGen + 1)
      let v := vdOfPolicy bs k handle (pairRegions pairs) channels
      let t := { t with vdGen := t.vdGen + 1, disps := Tab.drop t.disps k }
      let t := t.zeroSram v.regions
      match t.createCtx k v with
      | none => s.complete p Status.nores 0
      | some (n, t) =>
        let t := t.setVd k { v with firstCtx := n, ctxs := [n] }
        (t.setQueue k { enabled := true, plo := v.plo, phi := v.phi, descs := [], late := [] }).complete p Status.ok handle

/-! ### PAUSE and RESUME (R416) -/

/-- Every context of a VD suspended, and each of its resident planes frozen as by `frz.on`. -/
def State.suspend (s : State) (v : Vd) : State :=
  let s := v.ctxs.foldl
    (fun s n => match s.ctx? n with
      | some c => s.setCtx n { c with state := .suspended }
      | none => s) s
  (s.vdPlanes v).foldl
    (fun s (r, p) =>
      let pl := s.plane (planeKey r p)
      if pl.frozen == .none then s.setPlane (planeKey r p) { pl with frozen := .pause } else s) s

/-- Every context of a VD is suspended and every resident plane frozen and quiet. -/
def State.suspended (s : State) (v : Vd) : Bool :=
  (v.ctxs.all fun n => match s.ctx? n with | some c => c.state == .suspended | none => true) &&
    (s.vdPlanes v).all fun (r, p) => (s.plane (planeKey r p)).frozen != .none && s.planeQuiet (planeKey r p)

/-- PAUSE: no further dispatch; the planes freeze, and it completes when every plane is quiet. -/
def execPause (s : State) : Res :=
  asCommand 3 s fun p =>
    withVd s p [.running] fun k v =>
      if s.suspended v then (s.setVd k { v with state := .paused }).complete p Status.ok 0 else .next (s.suspend v)

/-- RESUME: the planes that PAUSE froze fire again, and dispatch goes on. -/
def execResume (s : State) : Res :=
  asCommand 4 s fun p =>
    withVd s p [.paused] fun k v =>
      let s := (s.vdPlanes v).foldl
        (fun s (r, q) =>
          let pl := s.plane (planeKey r q)
          if pl.frozen == .pause then
            s.setPlane (planeKey r q) { pl with frozen := .none, atRest := false, saver := none }
          else s) s
      let s := v.ctxs.foldl
        (fun s n => match s.ctx? n with
          | some c => if c.state == .suspended then s.setCtx n { c with state := if s.placed n then .resident else .swapped } else s
          | none => s) s
      (s.setVd k { v with state := .running }).complete p Status.ok 0

/-! ### DESTROY_VD (R420) -/

/-- The valid leaves below a table, with their addresses: n levels lie between it and the leaf tables. A 2 MiB group counts
once (R199, R200). -/
def State.leavesBelow (s : State) : Nat → Nat → List (Nat × Word)
  | 0, table => (List.range 512).filterMap fun i =>
    let first := s.tableEntry table (i / 32 * 32)
    let l := s.tableEntry table i
    if Leaf.lg first && i % 32 != 0 then none else if Leaf.v l then some (table + 8 * i, l) else none
  | n + 1, table => (List.range 512).flatMap fun i =>
    match upperEntry (s.tableEntry table i) with
    | .ok t => s.leavesBelow n t
    | .error _ => []

/-- The tables of a context from one on, n levels above the leaf tables (R199). -/
def State.tablesBelow (s : State) : Nat → Nat → List Nat
  | 0, table => [table]
  | n + 1, table => table :: (List.range 512).flatMap fun i =>
    match upperEntry (s.tableEntry table i) with
    | .ok t => s.tablesBelow n t
    | .error _ => []

/-- The leaves of a context. -/
def State.ctxLeaves (s : State) (c : Ctx) : List (Nat × Word) := s.leavesBelow 3 c.ptRoot

/-- Physical key of the first byte of a leaf's page, and its number of 64 KiB frames. -/
def leafPages (l : Word) : Nat × Nat := (leafKey l 0, if Leaf.lg l then 32 else 1)

/-- Memory of a context in GDDR7 and base SRAM, as its leaves, its tables, its pool and its branch area name it. -/
def State.ctxMemory (s : State) (c : Ctx) : List (Nat × Nat) :=
  let pages := ((s.ctxLeaves c).filter fun l => Leaf.key l.2 = BitVec.ofNat 8 c.key && (Leaf.mkind l.2 == 1 || Leaf.mkind l.2 == 3)).map
    fun l => let (k, n) := leafPages l.2; (k, n * 65536)
  pages ++ (s.tablesBelow 3 c.ptRoot).map (fun t => (t, 4096)) ++ c.ranges

/-- A byte of the memory that a VD's keys encipher: its channels and the base SRAM of its regions (R410, R427). -/
def Vd.holds (v : Vd) (key : Nat) : Bool :=
  (match channelOf key with | some c => v.channels.contains c | none => false) ||
    (match sliceRegionOf key with | some r => v.regions.contains r | none => false)

/-- 64-byte blocks of which memory lists a byte. -/
def Memory.blocks (m : Memory) : List Nat :=
  (m.cells.map Prod.fst ++ m.recent.flatMap fun w => w.cells.map Prod.fst).foldl
    (fun l k => if l.contains (k / 64) then l else l ++ [k / 64]) []

/-- The blocks that a VD's keys have enciphered hold open values once the keys are gone: no key deciphers them (R420,
R427, log 50). -/
def State.scramble (s : State) (v : Vd) : State :=
  let blocks := s.mem.blocks.filter fun b => v.holds (64 * b)
  let cells := (indexed blocks).flatMap fun x => (List.range 64).map fun i => (64 * x.2 + i, Config.freeByte (s.frees + 64 * x.1 + i))
  { s with mem := s.mem.poke s.nextId cells, nextId := s.nextId + 1, frees := s.frees + 64 * blocks.length }

/-- Channels and regions leave a VD: the next holder's keys decipher nothing there (R427), and M-square and weight SRAM are
zero (R421, R422). -/
def State.giveBack (s : State) (v : Vd) (regions channels : List Nat) : State :=
  (s.scramble { v with regions, channels }).zeroSram regions

/-- The contexts of a VD are under teardown, their mailboxes closed first (R355), their planes and sequencers stopped. -/
def State.condemn (s : State) (v : Vd) : State :=
  let s := v.ctxs.foldl
    (fun s n => match s.ctx? n with
      | some c => s.setCtx n { c with state := .dying, mailClosed := true }
      | none => s) s
  (s.vdPlanes v).foldl
    (fun s (r, p) =>
      let pl := s.plane (planeKey r p)
      s.setPlane (planeKey r p) { pl with frozen := if pl.frozen == .none then .frzOn else pl.frozen, saver := some 1000 }) s

/-- A resident plane ended as by `frz.kill`, without an image (R420), once what it and its sequencer have issued is
performed. -/
def State.tearDown (s : State) (r p : Nat) : State :=
  let k := planeKey r p
  let g := s.agent r
  if s.killBusy k || (s.runsPlane r p && !(g.q.isEmpty && g.buf.isEmpty && g.rmws.isEmpty && g.rets.isEmpty)) then s
  else (s.killChain (launcher k (s.plane k)) k 0).vacate r p

/-- Everything of a VD is gone (R420, steps 3 to 7). -/
def State.removeVd (s : State) (k : Nat) (v : Vd) : State :=
  let s := s.scramble v
  let s := s.zeroSram v.regions
  let s := s.setQueue k TaskQueue.empty
  let mine (n : Nat) : Bool := v.ctxs.contains n
  { s with
    ctxs := s.ctxs.filter fun e => !mine e.1
    tasks := s.tasks.filter fun e => !mine e.2.desc.ctx
    swapReqs := s.swapReqs.filter fun n => !mine n
    tlbs := s.tlbs.map fun (r, l) => (r, l.filter fun e => !mine e.ctx)
    units := s.units.map fun (b, l) => (b, l.filter fun e => !mine e.ctx)
    walks := s.walks.filter fun w => !mine w.ctx
    vds := Tab.drop s.vds k
    disps := Tab.drop s.disps v.partition }

/-- DESTROY_VD (R420): the mailboxes close, each resident plane ends without an image, and the VD goes. -/
def execDestroyVd (s : State) : Res :=
  asCommand 2 s fun p =>
    withVd s p [.running, .paused, .evicted] fun k v =>
      let s := s.condemn v
      match s.vdPlanes v with
      | (r, q) :: _ => .next (s.tearDown r q)
      | [] => (s.removeVd k v).complete p Status.ok 0

/-! ### QUERY and ATTEST (R424, R426) -/

/-- The state code of Table 16-2, in its order from 0. -/
def VdState.code : VdState → Nat
  | .running => 0 | .paused => 1 | .evicted => 2

/-- QUERY (R424). -/
def execQuery (s : State) : Res :=
  asCommand 9 s fun p =>
    match p.arg0.toNat with
    | 2 =>
      if p.handle != 0 then s.complete p Status.badcmd 0
      else
        let vfs := ((List.range 256).filter fun k => (Tab.find? s.vds k).isNone).length
        s.complete p Status.ok (BitVec.ofNat 64 (s.freePairs.length + 2 ^ 8 * s.freeChannels.length + 2 ^ 16 * vfs))
    | 0 | 1 =>
      (match s.vdOf p.handle with
        | none => s.complete p Status.badhandle 0
        | some (k, v) =>
          if p.arg0 == 0 then
            s.complete p Status.ok
              (BitVec.ofNat 64 (v.state.code + 2 ^ 8 * k + 2 ^ 16 * v.regions.length + 2 ^ 24 * v.channels.length))
          else s.complete p Status.ok (BitVec.ofNat 64 (v.rejected % 2 ^ 32 + 2 ^ 32 * (v.admitted % 2 ^ 32))))
    | _ => s.complete p Status.badcmd 0

/-- Bytes 0 to 4,479 of an attestation report (Table 16-8). -/
def State.report0 (s : State) (nonce : List Byte) (vd : Option (Nat × Vd)) : List Byte :=
  let zeros (n : Nat) : List Byte := List.replicate n 0
  let who : List Byte := match vd with
    | some (k, v) =>
      Config.sha3 (v.policy.take 5504) ++ Config.sha3 ((v.policy.drop 1336).take 2592) ++ (Config.sha3 Config.idpk).take 8 ++
        leBytes 8 (k + 2 ^ 8 * k + 2 ^ 16 * v.state.code + 2 ^ 24 * v.regions.length + 2 ^ 32 * v.channels.length)
    | none => zeros 128 ++ (Config.sha3 Config.idpk).take 8 ++ zeros 8
  leBytes 8 1 ++ nonce ++ s.host.fwhash ++ who ++ Config.kempk ++ Config.idpk ++ zeros 40

/-- ATTEST (R426). -/
def execAttest (s : State) : Res :=
  asCommand 10 s fun p =>
    let answer (vd : Option (Nat × Vd)) : Res :=
      if p.buflen < 9107 || !p.readable 9107 then s.complete p Status.badcmd 0
      else
        let body := s.report0 (s.hostBytes p.buf 64) vd
        (s.arbiterWrite (hostStart + p.buf) (body ++ Config.mldsaSign (Config.sha3 body))).complete p Status.ok 9107
    if p.handle = 0 then answer none
    else match s.vdOf p.handle with
      | none => s.complete p Status.badhandle 0
      | some x => answer (some x)

end Sys2Proof.Machine
end

