-- ==== Sys2Proof/Machine/Messages.lean ====
section
/-!
DEFINITION. Active messages, handlers and data triggers (R365 to R367, R376 to R378).
-/

namespace Sys2Proof.Machine

def Ctx.handler (c : Ctx) (h : Nat) : Handler := Tab.getD c.handlers h Handler.empty

/-- The handler that an arrival at an index resolves to: its own, else handler 0 (R366). -/
def Ctx.resolve (c : Ctx) (h : Nat) : Option Handler :=
  if (c.handler h).valid then some (c.handler h)
  else if (c.handler 0).valid then some (c.handler 0) else none

/-- The launch record that a mailbox entry is (R365). -/
def mailBytes (version : Nat) (sender : Nat) (w0 w1 : Word) : List Byte :=
  leBytes 16 1 ++ leBytes 8 0x1300000001 ++ List.replicate 56 0 ++ leBytes 8 version ++ leBytes 8 sender ++
    leBytes 8 w0.toNat ++ leBytes 8 w1.toNat ++ List.replicate 16 0

/-- The task of a message in the target's queue: its IP and priority are the handler's, its launch record the entry
(R365, log 32). -/
def mailDesc (ctx : Nat) (h : Handler) (entry time : Nat) : Desc :=
  { ip := h.ip, lrec := BitVec.ofNat 64 (mailVa ctx entry), cword := 0, branch := none, prio := h.prio, ctx
    levels := [(3, 1)], time, mail := some entry, task := none }

/-- A message whose handler is resolved: its entry written, and its task queued. -/
def State.deliverMail (s : State) (ctx : Nat) (c : Ctx) (m : Mail) (h : Handler) : State :=
  let cells := keyed (c.mailKey m.entry) (mailBytes h.version.toNat m.sender m.w0 m.w1)
  let s := { s with mem := s.mem.poke 0 cells }
  s.enqueueMail c.vf (mailDesc ctx h m.entry s.cycle)

/-- Entries of the mailbox that are free; which one a message takes is not defined. -/
def Ctx.freeMailEntries (c : Ctx) : List Nat := (List.range 4096).filter fun e => !c.mail.any fun m => m.entry = e

/-- The token NOHANDLER to the module root core, with the index in AUX (R366, log 33). -/
def State.noHandler (s : State) (ctx h : Nat) : State :=
  s.sendToken (rootOf 0)
    (faultToken Cause.nohandler.code 0xFF 0 (BitVec.ofNat 16 ctx) 0 false 0 0 0 (BitVec.ofNat 64 h) 0 0)

/-- A message placed in a mailbox that has room (R365, R366): it resolves its handler, or is held. The entry that it has
taken comes back with the state. -/
def State.placeMail (s : State) (ctx : Nat) (c : Ctx) (h sender : Nat) (w0 w1 : Word) : State × Option Nat :=
  match pickOf c.freeMailEntries (Config.freeIndex s.frees) with
  | none => (s, none)
  | some entry =>
    let s := { s with frees := s.frees + 1 }
    match c.resolve h with
    | some x =>
      let m : Mail := { entry, handler := h, sender, w0, w1, held := false }
      let c := { c with mail := c.mail ++ [m] }
      ((s.setCtx ctx c).deliverMail ctx c m x, some entry)
    | none =>
      let m : Mail := { entry, handler := h, sender, w0, w1, held := true }
      ((s.setCtx ctx { c with mail := c.mail ++ [m] }).noHandler ctx h, some entry)

/-- The status of `amsg`, and the message placed where it is QUEUED (R376). -/
def State.sendMail (s : State) (from_ : Nat) (key : Nat) (target h : Nat) (w0 w1 : Word) : Word × State :=
  match s.ctx? target with
  | none => (3, s)
  | some c =>
    if c.key != key then (3, s)
    else if c.state == .dying || c.mailClosed then (2, s)
    else if 4096 ≤ c.mail.length then (1, s)
    else (0, (s.placeMail target c h from_ w0 w1).1)

/-- `amsg` (R376): a release at .mod scope first; the message is placed once it has been performed. -/
def execAmsg (d a b c : SReg) (h : BitVec 8) (s : State) : Res :=
  issueAs s .user false fun q =>
    let v := s.seq q
    match v.stage with
    | .pending => stall s
    | .back .. =>
      withCtx s q fun n x =>
        let s := s.setSeq q (v.setWait .none)
        let (st, s) := s.sendMail n x.key (bits (v.read a) 0 16).toNat h.toNat (v.read b) (v.read c)
        .next (s.finish q d st 8)
    | .fresh =>
      if !v.allReady [d, a, b, c] then stall s
      else if bits (v.read a) 16 48 != 0 then .next (s.raise q .brval 0)
      else withCtx s q fun n _ =>
        let e := { Ev.blank with kind := .fence .rel, scope := .mod, ctx := n }
        .next ((s.place q e).await q 0 s.nextId none)

/-- Held messages that an `hbind` of index h binds now, in the order in which they arrived (R366). -/
def State.bindHeld (s : State) (ctx h : Nat) : State :=
  match s.ctx? ctx with
  | none => s
  | some c =>
    (c.mail.filter fun m => m.held && (m.handler = h || h = 0)).foldl
      (fun s m => match s.ctx? ctx with
        | none => s
        | some c => match c.resolve m.handler with
          | none => s
          | some x =>
            let c := { c with mail := updateFirst (fun y => y.entry = m.entry) (fun y => { y with held := false }) c.mail }
            (s.setCtx ctx c).deliverMail ctx c m x)
      s

/-- An entry value that `hbind` accepts, one that empties the entry among them (R377). -/
def handlerOk (x : TaskQueue) (w : Word) : Bool :=
  let prio := (bits w 52 3).toNat
  bits w 55 9 == 0 && bits w 0 2 == 0 && decide (x.plo ≤ prio) && decide (prio ≤ x.phi)

/-- `hbind` (R377). -/
def execHbind (d a b : SReg) (s : State) : Res :=
  issueAs s .user false fun q =>
    let v := s.seq q
    if !v.allReady [d, a, b] then stall s
    else withCtx s q fun ctx c =>
      let w := v.read b
      let h := (v.read a).toNat
      if 256 ≤ h || !handlerOk (s.queue c.vf) w then .next (s.raise q .brval 0)
      else
        let version := (c.handler h).version + 1
        let x : Handler := { ip := bits w 0 52 |>.setWidth 64, prio := (bits w 52 3).toNat, valid := w != 0, version }
        let s := s.setCtx ctx { c with handlers := Tab.put c.handlers h x }
        let s := if w = 0 then s else s.bindHeld ctx h
        .next (s.finish q d (version.setWidth 64) 4)

/-! ### Triggers (R367, R378) -/

/-- A slot armed: an arming from rest clears PEND and TCOUNT, one that replaces another keeps them (R378, log 35). -/
def Trig.rearm (t : Trig) (port : Option (Nat × Nat)) (lo hi h : Nat) : Trig :=
  if t.arm then { t with port, lo, hi, handler := h }
  else { t with arm := true, port, lo, hi, handler := h, pend := false, count := 0 }

/-- One slot of the context replaced. -/
def State.setTrig (s : State) (ctx : Nat) (c : Ctx) (slot : BitVec 4) (t : Trig) : State :=
  s.setCtx ctx { c with trigs := vput c.trigs slot.toNat t }

/-- `trig.off` (R378). -/
def execTrigOff (slot : BitVec 4) (s : State) : Res :=
  issueAs s .user false fun q =>
    withCtx s q fun ctx c =>
      let t := vget c.trigs slot.toNat Trig.empty
      .next ((s.setTrig ctx c slot { t with arm := false, pend := false, count := 0 }).advance q 8)

/-- A range on a page whose memory has a home unit (R309, R378). -/
def trigRangeOk (leaf : Word) (va n : Nat) : Bool :=
  let page := if Leaf.lg leaf then 2 ^ 21 else 2 ^ 16
  decide (va % page + n ≤ page) && Leaf.mkind leaf != 2 && Leaf.mkind leaf != 4

/-- `trig.adr` (R378). A range in a dead branch's slot has no bytes, so no write meets it (R360). -/
def execTrigAdr (a b : SReg) (slot : BitVec 4) (h : BitVec 8) (s : State) : Res :=
  issueAs s .user false fun q =>
    let v := s.seq q
    if !v.allReady [a, b] then stall s
    else withCtx s q fun ctx c =>
      let va := v.read a
      let n := (v.read b).toNat
      let t := vget c.trigs slot.toNat Trig.empty
      if n = 0 || 2 ^ 20 < n then .next (s.raise q .brval 0)
      else
        match s.reach q (reqLoad q) va 1 .copyRead with
        | .out t => .next t
        | .void => .next ((s.setTrig ctx c slot (t.rearm none 0 0 h.toNat)).advance q 8)
        | .to p =>
          if !trigRangeOk p.leaf va.toNat n then .next (s.raise q .brval 0)
          else .next ((s.setTrig ctx c slot (t.rearm none p.key (p.key + n) h.toNat)).advance q 8)

/-- `trig.port` (R378): a port of the sequencer's region. -/
def execTrigPort (slot : BitVec 4) (h : BitVec 8) (port : QReg) (s : State) : Res :=
  issueAs s .user false fun q =>
    withCtx s q fun ctx c =>
      let t := vget c.trigs slot.toNat Trig.empty
      .next ((s.setTrig ctx c slot (t.rearm (some (q, port.toNat)) 0 0 h.toNat)).advance q 8)

/-- `trig.rd` (R378): ARM, PEND and TCOUNT. -/
def execTrigRd (d : SReg) (slot : BitVec 4) (s : State) : Res :=
  issueAs s .user false fun q =>
    if !(s.seq q).ready d then stall s
    else withCtx s q fun _ c =>
      let t := vget c.trigs slot.toNat Trig.empty
      .next (s.finish q d (bit1 t.arm ++ bit1 t.pend ++ (0 : BitVec 30) ++ BitVec.ofNat 32 t.count) 8)

/-- TRIGGER_MESSAGE (R367): the message of a slot that has fired, when its handler is bound, none of its messages is in
the mailbox, and the mailbox has room. Its sender is the context itself (log 33). -/
def execTriggerMessage (ctx slot : Nat) (s : State) : Res :=
  match s.ctx? ctx with
  | none => stall s
  | some c =>
    let t := vget c.trigs slot Trig.empty
    if slot < 16 && t.pend && (c.handler t.handler).valid && t.mail.isNone && c.mail.length < 4096 && !c.mailClosed &&
        c.state != .dying then
      match s.placeMail ctx c t.handler ctx (BitVec.ofNat 64 slot) (BitVec.ofNat 64 t.count) with
      | (s, entry) =>
        (match s.ctx? ctx with
          | none => .next s
          | some c =>
            .next (s.setCtx ctx { c with trigs := vput c.trigs slot { t with pend := false, count := 0, mail := entry } }))
    else stall s

end Sys2Proof.Machine
end

