-- ==== Sys2Proof/Machine/Moves.lean ====
section
/-!
DEFINITION. Commands that move a virtual device: EVICT, RESTORE (R421), SET_SHARE (R422) and MAP_WINDOW (R423).
-/

namespace Sys2Proof.Machine

/-! ### Pages moved to GDDR7 (R421) -/

/-- A VD of the table changed. -/
def State.mapVd (s : State) (k : Nat) (f : Vd → Vd) : State :=
  match Tab.find? s.vds k with
  | some v => s.setVd k (f v)
  | none => s

/-- DEV windows that are mapped: VD, HDM offset and size. -/
def State.devWindows (s : State) : List (Nat × Nat × Nat) :=
  s.vds.flatMap fun (k, v) => v.wins.filterMap fun x => if x.mapped && x.kind = 1 then some (k, x.start, x.size) else none

/-- A 64 KiB frame that the Arbiter can take on a VD's channels: in the last quarter of a channel, where no frame taken
and no DEV window lies (log 46). -/
def State.frameFree (s : State) (v : Vd) (f : Nat) : Bool :=
  !v.frames.contains f &&
    !s.devWindows.any fun w => decide (hdmBase + w.2.1 < 65536 * (f + 1)) && decide (65536 * f < hdmBase + w.2.1 + w.2.2)

/-- n frames in a row on the channels of a VD taken for it (R410, R421): the first one's number; none where the channels
have no room. Which free ones are taken is open (log 46). -/
def State.takeNew (s : State) (k n : Nat) : Option (Nat × State) :=
  match Tab.find? s.vds k with
  | none => none
  | some v =>
    let all := v.channels.flatMap fun c => (List.range (2 ^ 15 / n)).map fun j => channelFrame c (3 * 2 ^ 15 + n * j)
    let i := Config.freeIndex s.frees % all.length
    match (all.drop i ++ all.take i).find? fun f => (List.range n).all fun d => s.frameFree v (f + d) with
    | none => none
    | some f =>
      some (f, { s with frees := s.frees + 1 }.setVd k { v with frames := v.frames ++ (List.range n).map (f + ·) })

/-- n frames of 64 KiB copied, with their tags. -/
def State.copyFrames (s : State) (src dst n : Nat) : State :=
  (List.range n).foldl
    (fun s i => { s with mem := s.mem.copyPage s.nextId (src + 65536 * i) (dst + 65536 * i), nextId := s.nextId + 1 }) s

/-- A byte lies in the M-square SRAM or base SRAM of some regions. -/
def inRegions (regions : List Nat) (key : Nat) : Bool :=
  match ownerOf key with
  | some m => regions.contains (squareRegion m)
  | none => false

/-- A leaf's page moved into frames of VD k's channels, and the leaf rewritten to MKIND 3; pages that share a frame go on
sharing it. `done` lists the pages moved so far: old and new key. -/
def moveLeaf (k : Nat) (st : State × List (Nat × Nat)) (e : Nat × Word) : Option (State × List (Nat × Nat)) :=
  let (s, done) := st
  let (addr, l) := e
  let (key, n) := leafPages l
  let moved : Option (Nat × State × List (Nat × Nat)) := match done.find? fun d => d.1 = key with
    | some d => some (d.2, s, done)
    | none => (s.takeNew k n).map fun (f, s) => (f * 65536, s.copyFrames key (f * 65536) n, done ++ [(key, f * 65536)])
  moved.map fun (new, s, done) =>
    let l := bits l 56 8 ++ (3 : BitVec 3) ++ bits l 48 5 ++ BitVec.ofNat 32 (new / 65536) ++ bits l 0 16
    (s.arbiterWrite addr (leBytes 8 l.toNat), done)

/-- A table and those below it, n levels above the leaf tables, moved out of the SRAM of some regions: where it then
stands. -/
def State.moveTable (s : State) (k : Nat) (regions : List Nat) : Nat → Nat → Option (Nat × State)
  | n, table =>
    let below : Option State := match n with
      | 0 => some s
      | n + 1 =>
        (List.range 512).foldl
          (fun t i => t.bind fun s =>
            match upperEntry (s.tableEntry table i) with
            | .ok old =>
              (s.moveTable k regions n old).map fun (new, s) =>
                if new = old then s else s.arbiterWrite (table + 8 * i) (leBytes 8 (new + 1))
            | .error _ => some s)
          (some s)
    below.bind fun s =>
      if inRegions regions table then
        (s.takeNew k 1).map fun (f, s) =>
          (f * 65536, s.arbiterWrite (f * 65536) ((keysFrom table 4096).map s.mem.coLast))
      else some (table, s)

/-- A branch area laid out at another base: the chunks' addresses go with it (R356). -/
def Ctx.rebase (c : Ctx) (base : Nat) (kind : BitVec 3) : Ctx :=
  let at_ (a : Nat) : Nat := if a = 0 then 0 else a - c.area + base
  { c with
    area := base, areaKind := kind
    branches := c.branches.map fun (i, b) => (i, { b with head := at_ b.head })
    chunks := c.chunks.map fun (a, x) => (at_ a, { x with prev := at_ x.prev }) }

/-- A context's branch area moved to a frame: its mailbox is copied, and its chunks keep their places in it. -/
def State.moveArea (s : State) (n f : Nat) (kind : BitVec 3) : State :=
  match s.ctx? n with
  | none => s
  | some c =>
    let new := c.rebase (f * 65536) kind
    let s := s.arbiterWrite (new.mailKey 0) ((keysFrom (c.mailKey 0) 524288).map s.mem.coLast)
    s.setCtx n new

/-- A context's tables, branch area and page pool moved from the SRAM of some regions to frames of VD k's channels. -/
def State.moveCtx (s : State) (k : Nat) (regions : List Nat) (n : Nat) : Option State :=
  match s.ctx? n with
  | none => some s
  | some c =>
    (s.moveTable k regions 3 c.ptRoot).bind fun (root, s) =>
      let s := s.setCtx n { c with ptRoot := root }
      let area : Option State :=
        if c.areaKind == 1 && inRegions regions c.area then
          (s.takeNew k (framesFor (areaBytes c.nbr c.chunkCount))).map fun (f, s) => s.moveArea n f 3
        else some s
      area.bind fun s =>
        if c.poolFrames != 0 && inRegions regions (c.frameKey 0) then
          (s.takeNew k c.poolFrames).map fun (f, s) =>
            match s.ctx? n with
            | none => s
            | some c =>
              let new := { c with poolBase := f, poolKind := 3 }
              (s.copyFrames (c.frameKey 0) (new.frameKey 0) c.poolFrames).setCtx n new
        else some s

/-- The pages, tables, branch areas and pools of a VD that lie in M-square SRAM or base SRAM of some regions move to its
channels (R421); none where these cannot hold them. No translation of the VD stays cached. -/
def State.movePages (s : State) (k : Nat) (v : Vd) (regions : List Nat) : Option State :=
  let sram (l : Nat × Word) : Bool :=
    (Leaf.mkind l.2 == 0 || Leaf.mkind l.2 == 1) && inRegions regions (leafPages l.2).1
  let leaves := v.ctxs.flatMap fun n => match s.ctx? n with
    | some c => (s.ctxLeaves c).filter sram
    | none => []
  (leaves.foldl (fun t e => t.bind fun t => moveLeaf k t e) (some (s, []))).bind fun (s, _) =>
    (v.ctxs.foldl (fun t n => t.bind fun s => s.moveCtx k regions n) (some s)).map fun s =>
      let mine (n : Nat) : Bool := v.ctxs.contains n
      { s with
        tlbs := s.tlbs.map fun (r, l) => (r, l.filter fun e => !mine e.ctx)
        units := s.units.map fun (b, l) => (b, l.filter fun e => !mine e.ctx) }

/-- Contexts of a VD whose branch areas lie in base SRAM. -/
def State.baseAreas (s : State) (v : Vd) : List Nat :=
  v.ctxs.filter fun n => match s.ctx? n with | some c => c.areaKind == 1 | none => false

/-- Frames of an image (R397). -/
def imageFrames : Nat := framesFor 1335296

/-- Frames taken for n images on the channels of VD k: the first of each. -/
def State.takeImages (s : State) (k : Nat) : Nat → Option (List Nat × State)
  | 0 => some ([], s)
  | n + 1 => (s.takeNew k imageFrames).bind fun (f, s) => (s.takeImages k n).map fun (l, s) => (f :: l, s)

/-- Room on the channels of VD k for n images and for the pages that the SRAM of some regions holds of it (R421): the frames
of the images are taken, and the free choices by which the pages can be moved are set apart. -/
def State.roomFor (s : State) (k : Nat) (v : Vd) (regions : List Nat) (n : Nat) : Option State :=
  (s.takeImages k n).bind fun (l, t) =>
    (t.movePages k v regions).map fun u =>
      State.mapVd { t with frees := u.frees } k fun v => { v with reserve := l, plan := t.frees }

/-- The pages moved by the free choices set apart for it. -/
def State.movePlanned (s : State) (k : Nat) (v : Vd) (regions : List Nat) : Option State :=
  (State.movePages { s with frees := v.plan } k v regions).map fun t : State => { t with frees := s.frees }

/-! ### Planes saved by the Arbiter -/

/-- A slot for an image: one that no image of the command uses yet, where there is one (log 46). -/
def State.slotFor (s : State) (v : Vd) (ctx : Nat) : Nat × State :=
  let used := v.images.filterMap fun i => (s.saved[i.2.2.1]?).bind fun x => if x.ctx = ctx then some x.slot else none
  let open_ := (List.range 32).filter fun n => !used.contains n
  let l := if open_.isEmpty then List.range 32 else open_
  let (i, s) := s.freePick l.length
  ((l[i]?).getD 0, s)

/-- A plane at rest saved in a full image, as `save` does (R396 to R398, R421). -/
def State.saveFor (s : State) (k : Nat) (v : Vd) (r p : Nat) : State :=
  match (s.plane (planeKey r p)).ctx.bind fun n => (s.ctx? n).map fun c => (n, c) with
  | none => s
  | some (n, c) =>
    let (slot, s) := s.slotFor v n
    match v.reserve with
    | [] => s
    | f :: rest =>
      let addr := f * 65536
      let s := s.nextSeal n c
      let img := s.image r p slot (c.sealid + 1) { c with sealid := c.sealid + 1 } n none
      let s := s.arbiterWrite addr ((List.range regionImageLines).flatMap img.line)
      let place := s.saved.length
      (s.imageDone img addr).mapVd k fun v => { v with images := v.images ++ [(r, p, place, addr)], reserve := rest }

/-- EVICT (R421): the VD is paused, each resident plane is saved, its SRAM pages move, and its regions are free. -/
def execEvict (s : State) : Res :=
  asCommand 5 s fun p =>
    withVd s p [.running, .paused] fun k v =>
      if v.state == .running then
        if s.suspended v then .next (s.setVd k { v with state := .paused }) else .next (s.suspend v)
      else if v.leaving.isEmpty then
        match s.roomFor k v v.regions (s.vdPlanes v).length with
        | some t => .next (t.mapVd k fun v => { v with leaving := v.regions, images := [] })
        | none => s.complete p Status.nores 0
      else
        match s.vdPlanes v with
        | (r, q) :: _ =>
          let (s, still) := s.bringToRest 1000 r q
          if still then .next (s.saveFor k v r q) else .next s
        | [] =>
          let moved := s.baseAreas v
          match s.movePlanned k v v.regions with
          | none => stall s
          | some s =>
          let s := s.giveBack v v.regions []
          let s := v.ctxs.foldl
            (fun s n => match s.ctx? n with
              | some c => s.setCtx n { c with state := .suspended }
              | none => s) s
          (s.mapVd k fun v => { v with state := .evicted, regions := [], leaving := [], moved }).complete p Status.ok
            (BitVec.ofNat 64 v.images.length)

/-! ### RESTORE (R421) -/

/-- An image of the VD fails its checks: its status, if any (R400, R421). -/
def State.imageStatus (s : State) (e : Nat × Nat × Nat × Nat) : Option Nat :=
  match s.saved[e.2.2.1]? with
  | none => some Status.auth
  | some x =>
    let ok := (List.range regionImageLines).all fun i =>
      (keysFrom (e.2.2.2 + 64 * i) 64).map s.mem.coLast == x.line i
    if !ok then some Status.auth
    else
      match s.ctx? x.ctx with
      | none => some Status.stale
      | some c => if ((Tab.find? c.slots x.slot).map fun y => y.imgid) != some x.imgid then some Status.stale else none

/-- Planes of a VD's regions into which an image can be loaded (R400): none of the region's holds the context yet. -/
def State.placesForImage (s : State) (v : Vd) (x : SavedImage) : List (Nat × Nat) :=
  v.regions.flatMap fun r =>
    if (s.planeIn x.ctx r).isSome || s.restBlocked r x then []
    else [0, 1, 2, 3].filterMap fun p => if s.restStatus 1000 r p x.slot x = 0 then some (r, p) else none

/-- The images loaded one after another, on planes that the spec leaves open (log 47); none when one finds no place. -/
def State.loadAll (s : State) (v : Vd) : List (Nat × Nat × Nat × Nat) → Option State
  | [] => some s
  | e :: rest =>
    match s.saved[e.2.2.1]? with
    | none => none
    | some x =>
      let l := s.placesForImage v x
      let (i, s) := s.freePick l.length
      match l[i]? with
      | none => none
      | some (r, p) => State.loadAll (s.loadImage r p x) v rest

/-- Channels of a VD that hold no page of it, no table and no image. -/
def State.emptyChannels (s : State) (v : Vd) : List Nat :=
  let pages := v.ctxs.flatMap fun n => match s.ctx? n with | some c => s.ctxMemory c | none => []
  let taken := v.frames.map fun f => (65536 * f, 65536)
  v.channels.filter fun ch =>
    let lo := gddrStart + ch * channelBytes
    !(pages ++ taken).any fun (key, n) => decide (key < lo + channelBytes) && decide (lo < key + n)

/-- The channels of a VD brought to a count: some added, or empty ones removed; none when that cannot be (R422). -/
def State.channelsTo (s : State) (v : Vd) (n : Nat) : Option (List Nat × State) :=
  let have_ := v.channels.length
  if have_ ≤ n then
    if s.freeChannels.length < n - have_ then none
    else
      let (more, s) := s.pickMany s.freeChannels (n - have_)
      some (v.channels ++ more, s)
  else
    let empty := s.emptyChannels v
    if empty.length < have_ - n then none
    else
      let (gone, s) := s.pickMany empty (have_ - n)
      some (v.channels.filter fun c => !gone.contains c, s)

/-- A context's branch area moved back to base SRAM of a VD's regions, where no other area of the VD lies (R421, log 48);
none where there is no room. -/
def State.areaHome (s : State) (v : Vd) (n : Nat) : Option State :=
  match s.ctx? n with
  | none => some s
  | some c =>
    let size := framesFor (areaBytes c.nbr c.chunkCount)
    let others := v.ctxs.filterMap fun m => if m = n then none else (s.ctx? m).map fun x =>
      (x.area / 65536, framesFor (areaBytes x.nbr x.chunkCount))
    let free (f : Nat) : Bool := !others.any fun x => decide (x.1 < f + size) && decide (f < x.1 + x.2)
    let all := v.regions.flatMap fun r => (List.range (513 - size)).map (sliceFrame r)
    let i := Config.freeIndex s.frees % all.length
    match (all.drop i ++ all.take i).find? free with
    | none => none
    | some f => some ({ s with frees := s.frees + 1 }.moveArea n f 1)

/-- RESTORE (R421): counts that SET_SHARE has recorded stand in for the operands (R422, log 48). -/
def execRestore (s : State) : Res :=
  asCommand 6 s fun p =>
    withVd s p [.evicted] fun k v =>
      let recorded := v.share != (0, 0)
      let nr := if recorded then v.share.1 else p.arg0.toNat
      let nc := if recorded then v.share.2 else v.channels.length + p.arg1.toNat
      if nr < v.rmin || v.rmax < nr || nr % 2 = 1 || v.chmax < nc then s.complete p Status.denied 0
      else if 2 * s.freePairs.length < nr then s.complete p Status.nores 0
      else
        match v.images.findSome? s.imageStatus with
        | some e => s.complete p e 0
        | none =>
          match s.channelsTo v nc with
          | none => s.complete p Status.nores 0
          | some (channels, t) =>
            let (pairs, t) := t.pickMany t.freePairs (nr / 2)
            let areas := v.moved.flatMap fun n => match s.ctx? n with
              | some c => (List.range (framesFor (areaBytes c.nbr c.chunkCount))).map (c.area / 65536 + ·)
              | none => []
            let held := areas ++ v.images.flatMap fun e => (List.range imageFrames).map (e.2.2.2 / 65536 + ·)
            let v' := { v with
              state := .paused, regions := pairRegions pairs, channels, share := (0, 0), images := [], moved := []
              frames := v.frames.filter fun f => !held.contains f }
            let t := ((t.giveBack v [] (v.channels.filter fun c => !channels.contains c)).zeroSram v'.regions).setVd k v'
            match (v.moved.foldl (fun t n => t.bind fun t => t.areaHome v' n) (some t)).bind fun t => t.loadAll v' v.images with
            | none => s.complete p Status.nores 0
            | some t =>
              let stay (t : State) (n : Nat) : State := match t.ctx? n with
                | some c => t.setCtx n { c with state := .suspended }
                | none => t
              (v.ctxs.foldl stay t).complete p Status.ok 0

/-! ### SET_SHARE (R422) -/

/-- SET_SHARE (R422): counts recorded while EVICTED; while PAUSED, regions that leave are vacated first. -/
def execSetShare (s : State) : Res :=
  asCommand 7 s fun p =>
    withVd s p [.paused, .evicted] fun k v =>
      let nr := p.arg0.toNat
      let nc := p.arg1.toNat
      if nr < v.rmin || v.rmax < nr || nr % 2 = 1 || nc = 0 || v.chmax < nc then s.complete p Status.denied 0
      else if v.state == .evicted then (s.setVd k { v with share := (nr, nc) }).complete p Status.ok 0
      else if v.leaving.isEmpty then
        match s.channelsTo v nc with
        | none => s.complete p Status.nores 0
        | some (channels, t) =>
          let here := v.regions.length
          let t := t.giveBack v [] (v.channels.filter fun c => !channels.contains c)
          if here ≤ nr then
            if 2 * s.freePairs.length < nr - here then s.complete p Status.nores 0
            else
              let (pairs, t) := t.pickMany t.freePairs ((nr - here) / 2)
              let t := t.zeroSram (pairRegions pairs)
              (t.setVd k { v with channels, regions := v.regions ++ pairRegions pairs }).complete p Status.ok 0
          else
            let (pairs, t) := t.pickMany (v.regions.filter (· % 2 = 0)) ((here - nr) / 2)
            let v' := { v with channels, leaving := pairRegions pairs }
            let t := t.setVd k v'
            let n := ((s.vdPlanes v).filter fun e => v'.leaving.contains e.1).length
            match t.roomFor k v' v'.leaving n with
            | some t => .next t
            | none => s.complete p Status.nores 0
      else
        match (s.vdPlanes v).filter fun e => v.leaving.contains e.1 with
        | (r, q) :: _ =>
          let (s, still) := s.bringToRest 1000 r q
          if !still then .next s
          else
            let n := (s.plane (planeKey r q)).ctx
            let s := s.saveFor k v r q
            (match n.bind fun n => (s.ctx? n).map fun c => (n, c) with
              | some (n, c) => .next (if s.placed n then s else s.setCtx n { c with state := .swapped })
              | none => .next s)
        | [] =>
          match s.movePlanned k v v.leaving with
          | none => stall s
          | some s =>
            ((s.giveBack v v.leaving []).mapVd k fun v => { v with
              regions := v.regions.filter fun r => !v.leaving.contains r, leaving := [], images := [] }).complete p Status.ok 0

/-! ### MAP_WINDOW (R423) -/

/-- An entry of a table that lies at an upper level, made where it is absent: the next table (R199). -/
def State.nextTable (s : State) (k table i : Nat) : Option (Nat × State) :=
  match upperEntry (s.tableEntry table i) with
  | .ok t => some (t, s)
  | .error _ =>
    (s.takeNew k 1).map fun (f, s) =>
      let t := f * 65536
      let s := s.arbiterWrite t (List.replicate 4096 0)
      (t, s.arbiterWrite (table + 8 * i) (leBytes 8 (t + 1)))

/-- A leaf written for a page of a context of VD k, and its cached translations dropped. -/
def State.mapPage (s : State) (k n : Nat) (c : Ctx) (va : Nat) (l : Word) : Option State :=
  (s.nextTable k c.ptRoot (levelIndex va 1)).bind fun (t1, s) =>
  (s.nextTable k t1 (levelIndex va 2)).bind fun (t2, s) =>
  (s.nextTable k t2 (levelIndex va 3)).map fun (t3, s) =>
    (s.arbiterWrite (t3 + 8 * levelIndex va 4) (leBytes 8 l.toNat)).forget n (va / 2 ^ 16)

/-- The pages of a window mapped onto consecutive frames; their ordering kind is open (log 49). None where a table finds
no frame. -/
def State.mapRange (s : State) (k n : Nat) (c : Ctx) (x : PolWin) (kind : BitVec 3) (base : Nat) (perm : BitVec 4) :
    Option State :=
  (List.range (x.size / 65536)).foldl
    (fun t i => t.bind fun s =>
      s.mapPage k n c (x.va + 65536 * i)
        (Leaf.make c.key kind false false (BitVec.ofNat 2 (Config.windowOrd % 3)) false (base / 65536 + i) perm))
    (some s)

/-- A window of a VD marked mapped. -/
def Vd.mapped (v : Vd) (i start : Nat) : Vd :=
  match v.wins[i]? with
  | some x => { v with wins := putAt v.wins i { x with mapped := true, start } }
  | none => v

/-- The task that ARG2 bit 63 asks for, enqueued as by `tenq`; none where `tenq` would turn it away (R369, R423). -/
def State.startCode (s : State) (n : Nat) (v : Vd) (va off : Nat) (code : List Byte) : Option State :=
  match s.ctx? n with
  | none => none
  | some c =>
    let d : DescImage :=
      { ip := BitVec.ofNat 64 (va + off), lrec := BitVec.ofNat 64 va, cword := 0, branch := 0, bv := false, prio := v.phi }
    let header := code.take 16
    let nlev := (bits (BitVec.ofNat 64 (leNat (code.take 8))) 0 4).toNat
    let levels := wordsOf nlev (code.drop 16)
    if 2 ^ 52 ≤ va + off || off % 4 != 0 || 65536 ≤ (s.queue c.vf).descs.length || (s.tenqStatus c d).isSome ||
        !launchHeaderOk header || !launchOk (s.mostOnBoard c.partition) levels then none
    else some (s.writeDesc n c d levels)

/-- The image key of a VD (R425). -/
def Vd.imageKey (v : Vd) : List Byte := ((vdKeys v.ss).drop 64).take 32

/-- A CODE window (R423): the sealed image is opened, its digest checked, and its pages mapped. -/
def mapCode (s : State) (p : Packet) (k n i : Nat) (v : Vd) (c : Ctx) (x : PolWin) : Res :=
  let sealed := s.hostBytes p.arg1.toNat (x.size + 28)
  match Config.gcmOpen v.imageKey (sealed.take 12) [] ((sealed.drop 12).take x.size) (sealed.drop (12 + x.size)) with
  | none => s.complete p Status.auth 0
  | some code =>
    let digest := Config.sha3 code
    if !(List.range v.nhash).any fun j => (v.policy.drop (312 + 64 * j)).take 64 == digest then s.complete p Status.denied 0
    else
      match (s.takeNew k (x.size / 65536)).bind fun (f, s) =>
          ((s.arbiterWrite (f * 65536) code).mapRange k n c x 3 (f * 65536) 0b1011).map fun s => (f, s) with
      | none => s.complete p Status.nores 0
      | some (f, s) =>
      let frames := (List.range (x.size / 65536)).map (f + ·)
      let s := s.mapVd k fun v => { v.mapped i p.arg1.toNat with codeFrames := v.codeFrames ++ frames }
      if !bitAt p.arg2 63 then s.complete p Status.ok 0
      else
        match s.startCode n v x.va (bits p.arg2 0 32).toNat code with
        | some s => s.complete p Status.ok 0
        | none => s.complete p Status.denied 0

/-- A range of the HDM window lies on a VD's channels alone, as its GDDR7 pages must (R410, log 112). -/
def Vd.ownsRange (v : Vd) (base size : Nat) : Bool :=
  (List.range channelCount).all fun ch =>
    let lo := gddrStart + ch * channelBytes
    v.channels.contains ch || !(decide (hdmBase + base < lo + channelBytes) && decide (lo < hdmBase + base + size))

/-- No memory that a VD's contexts have, no frame taken for it and no DEV window lies in a range of the HDM window: the range is
free (R423). -/
def State.devFree (s : State) (v : Vd) (base size : Nat) : Bool :=
  let own := (v.ctxs.flatMap fun n => match s.ctx? n with | some c => s.ctxMemory c | none => []) ++
    v.frames.map fun f => (65536 * f, 65536)
  !(s.devWindows.any fun w => decide (w.2.1 < base + size) && decide (base < w.2.1 + w.2.2)) &&
    !own.any fun x => decide (x.1 < hdmBase + base + size) && decide (hdmBase + base < x.1 + x.2)

/-- MAP_WINDOW (R423); NORES where a table of the window finds no frame on the VD's channels (log 112). -/
def execMapWindow (s : State) : Res :=
  asCommand 8 s fun p =>
    withVd s p [.running, .paused] fun k v =>
      let i := p.arg0.toNat
      match v.wins[i]?, s.ctx? v.firstCtx with
      | some x, some c =>
        let n := v.firstCtx
        let base := p.arg1.toNat
        let rw : BitVec 4 := (0 : BitVec 1) ++ bit1 x.w ++ bit1 x.r ++ (1 : BitVec 1)
        if x.mapped then s.complete p Status.state 0
        else if x.kind != 2 && p.arg2 != 0 || bits p.arg2 32 31 != 0 then s.complete p Status.badcmd 0
        else if x.kind = 0 then
          if base % 65536 != 0 || 2 ^ 48 < base + x.size then s.complete p Status.denied 0
          else
            match s.mapRange k n c x 4 base rw with
            | none => s.complete p Status.nores 0
            | some t => (t.mapVd k fun v => v.mapped i base).complete p Status.ok 0
        else if x.kind = 1 then
          if base % 65536 != 0 || !s.devFree v base x.size || 2 ^ 36 < base + x.size || !v.ownsRange base x.size then
            s.complete p Status.denied 0
          else
            let pa := hdmBase + base
            match s.mapRange k n c x 3 pa rw with
            | none => s.complete p Status.nores 0
            | some t => (t.mapVd k fun v => v.mapped i base).complete p Status.ok (BitVec.ofNat 64 pa)
        else if v.nhash = 0 then s.complete p Status.denied 0
        else mapCode s p k n i v c x
      | _, _ => s.complete p Status.denied 0

end Sys2Proof.Machine
end

