-- ==== Sys2Proof/Machine/Device.lean ====
section
/-!
DEFINITION. The host's other accesses: notify writes (R428, R429), host threads' writes (R243), the HDM window (R409, R427)
and PF BAR0 (R413); and the module as a whole: energy (R460 to R462), cooling (R463), reset and bring-up (R464, R465).
-/

namespace Sys2Proof.Machine

/-! ### Host writes -/

/-- Bytes written by a host thread: they enter coherence order as they arrive and are visible everywhere (R243). -/
def State.hostWrite (s : State) (key : Nat) (bs : List Byte) : State :=
  (s.arbiterWrite key bs).written (keysFrom key bs.length)

/-- The translation of an address of a context for the Arbiter's own access: a writable leaf of MKIND 0, 1 or 3 (R428). -/
def State.notifyLeaf (s : State) (n va : Nat) : Option Phys :=
  match s.ctx? n with
  | none => none
  | some c =>
    let found : Option Phys :=
      match c.kvWindow with
      | some (base, span) =>
        if base ≤ va && va < base + 65536 * span then
          (match kvTranslate c base span va .read fun _ => true with
            | .ok p => some p
            | _ => none)
        else byTables c
      | none => byTables c
    found.filter fun p =>
      Leaf.w p.leaf && (Leaf.mkind p.leaf == 0 || Leaf.mkind p.leaf == 1 || Leaf.mkind p.leaf == 3) &&
        (leafFault c.key .write p.leaf).isNone
where
  byTables (c : Ctx) : Option Phys := match s.walkTables c va with
    | .ok (_, l) => some { key := leafKey l va, leaf := l }
    | .error _ => none

/-- The page of the mirror word made the context's own where its leaf has COW (R198, R361, R429). -/
def State.notifyCopy (s : State) (n va : Nat) : State :=
  match s.ctx? n with
  | none => s
  | some c =>
    let w : Walk :=
      { board := 0, ctx := n, page := va / 2 ^ 16, granted := true, level := 1, table := 0, found := none, requesters := []
        dropped := false, copy := true, agent := (Agent.host 0).key }
    match c.kvWindow with
    | some (base, span) =>
      if base ≤ va && va < base + 65536 * span then
        s.copyBranchPage w c ((va - base) / span) ((va - base) % span / 2 ^ 16)
      else s.copyTablePage w c
    | none => s.copyTablePage w c

/-- Physical key of the mirror word, and the state in which its page may be written; none where it cannot be (R428, R429,
log 113). -/
def State.notifyKey (s : State) (n va : Nat) : Option (Nat × State) :=
  match s.notifyLeaf n va with
  | none => none
  | some p =>
    if !Leaf.cow p.leaf then some (p.key, s)
    else
      let t := s.notifyCopy n va
      match t.notifyLeaf n va with
      | some p => if Leaf.cow p.leaf then none else some (p.key, t)
      | none => none

/-- A notify event: every wait of a context of the VD looks again (R326, R429). -/
def State.notifyAll (s : State) (v : Vd) : State :=
  { s with seqs := s.seqs.map fun (q, x) =>
      (q, match s.ctxOf q with | some n => if v.ctxs.contains n then x.wake else x | none => x) }

/-- A read of VF BAR0 returns 0 (R428). -/
def vfBar0Read : Word := 0

/-- NOTIFY_WRITE (R428, R429): admitted, it writes the mirror word and wakes the waits; else it is counted as rejected. A
write beyond the eight registers is discarded. -/
def execNotifyWrite (vf reg : Nat) (value : Word) (s : State) : Res :=
  if !s.powered || !s.host.up || 8 ≤ reg then stall s
  else
    match Tab.find? s.vds vf with
    | none => stall s
    | some v =>
      let now := s.cycle / 2000
      let sofar := if v.window = now then v.inWindow else 0
      let refuse : Res := .next (s.setVd vf { v with rejected := v.rejected + 1 })
      if v.state == .evicted || v.nnot ≤ reg || bits value 32 32 != 0 || (v.nrate != 0 && v.nrate ≤ sofar) then refuse
      else
        match s.notifyKey v.firstCtx (v.nva + 8 * reg) with
        | none => refuse
        | some (key, s) =>
          let c := vget v.cnt reg 0 + 1
          let word : Word := (0 : BitVec 16) ++ c ++ bits value 0 32
          let v := { v with cnt := vput v.cnt reg c, admitted := v.admitted + 1, window := now, inWindow := sofar + 1 }
          .next (((s.setVd vf v).hostWrite key (leBytes 8 word.toNat)).notifyAll v)

/-! ### The HDM window (R409, R427) -/

/-- The data key of a VD (R425). -/
def Vd.dataKey (v : Vd) : List Byte := (vdKeys v.ss).take 64

/-- The virtual device whose DEV window holds a byte of the HDM window. -/
def State.devOwner (s : State) (o : Nat) : Option Vd :=
  (s.devWindows.find? fun w => decide (w.2.1 ≤ o) && decide (o < w.2.1 + w.2.2)).bind fun w => Tab.find? s.vds w.1

/-- A 64-byte block enciphered under a VD's data key, and deciphered (R427). -/
def Vd.encipher (v : Vd) (block : Nat) (bs : List Byte) : List Byte :=
  leBytes 64 (Config.xts v.dataKey block (BitVec.ofNat 512 (leNat bs))).toNat
def Vd.decipher (v : Vd) (block : Nat) (bs : List Byte) : List Byte :=
  leBytes 64 ((Config.xts v.dataKey block).symm (BitVec.ofNat 512 (leNat bs))).toNat

/-- The 64 bytes of a block as they are stored: ciphertext under a VD's data key (R427, log 50). -/
def State.cipherBlock (s : State) (v : Vd) (block : Nat) : List Byte :=
  v.encipher block (s.readBytes (.host 0) (64 * block) 64)

/-- Byte o of the HDM window as the host reads it. -/
def State.hdmByte (s : State) (o : Nat) : Byte :=
  match s.devOwner o with
  | none => 0
  | some v =>
    let pa := hdmBase + o
    ((s.cipherBlock v (pa / 64))[pa % 64]?).getD 0

/-- The bytes of one block changed together (R427). -/
def State.hdmBlock (s : State) (o : Nat) (bs : List Byte) : State :=
  match s.devOwner o with
  | none => s
  | some v =>
    let pa := hdmBase + o
    let block := pa / 64
    let old := s.cipherBlock v block
    let new := old.take (pa % 64) ++ bs ++ old.drop (pa % 64 + bs.length)
    s.hostWrite (64 * block) (v.decipher block new)

/-- A host store cut at block boundaries. -/
def State.hdmWrite (s : State) (o : Nat) : Nat → List Byte → State
  | 0, _ => s
  | fuel + 1, bs =>
    if bs.isEmpty then s
    else
      let n := 64 - (hdmBase + o) % 64
      (s.hdmBlock o (bs.take n)).hdmWrite (o + n) fuel (bs.drop n)

/-- HOST_THREAD_WRITE (R243): bytes of host memory, or of the HDM window, whose DEV windows alone it changes (R409). No host
thread reaches any other memory of the device (R432). -/
def execHostThreadWrite (_thread address : Nat) (bytes : List Byte) (s : State) : Res :=
  if !s.powered then stall s
  else if hostStart ≤ address && decide (address + bytes.length ≤ hostStart + 2 ^ 64) then .next (s.hostWrite address bytes)
  else if s.host.up && hdmBase ≤ address && decide (address + bytes.length ≤ hdmBase + 2 ^ 36) then
    .next (s.hdmWrite (address - hdmBase) (bytes.length + 1) bytes)
  else stall s

/-- HDM_ACCESS (R409): bytes in no DEV window read as zero, and writes to them are discarded. -/
def execHdmAccess (_thread address count : Nat) (store : Option (List Byte)) (s : State) : Res :=
  if 2 ^ 36 < address + (match store with | some bs => bs.length | none => count) then .fault (.absent address)
  else
    let ready := s.powered && s.host.up
    match store with
    | some bs => if ready then .next (s.hdmWrite address (bs.length + 1) bs) else .next s
    | none =>
      let got := (List.range count).map fun i => if ready then s.hdmByte (address + i) else 0
      .next { s with host := { s.host with hdm := got } }

/-! ### Reset and power (R464) -/

/-- Host memory keeps what has reached it; the rest of the memory is as at reset. -/
def Memory.hostOnly (m : Memory) : Memory :=
  let here (k : Nat) : Bool := decide (hostStart ≤ k) && decide (k < hostStart + 2 ^ 64)
  let late := (m.recent.filter fun w => w.level = 5).flatMap fun w => w.cells.filter fun c => here c.1
  { cells := cellsWrite (m.cells.filter fun c => here c.1) late, tags := [], recent := [] }

/-- The whole module reset: virtual devices, contexts, keys and slot records are lost (R464). The handles' generation count
goes on, since no destroyed VD's handle is valid again (R412). -/
def State.resetModule (s : State) (powered : Bool) : State :=
  { State.reset with
    mem := s.mem.hostOnly, powered, vdGen := s.vdGen, agenda := s.agenda, actor := s.actor, turns := s.turns
    frees := s.frees, nextId := s.nextId }

/-- BOOTST with new LEN, READY, ERR and GO. -/
def bootstWord (len : BitVec 32) (ready : Bool) (err : BitVec 3) (go : Bool) : Word :=
  len ++ (0 : BitVec 24) ++ bit1 ready ++ err ++ (0 : BitVec 3) ++ bit1 go

/-- GO reads 1. -/
def HostRegs.go (h : HostRegs) : Bool := bitAt h.bootst 0

/-- CXL port 0 has not reached flit mode and stays down: ERR is 3 (Table 23-4, step 2). -/
def HostRegs.linkDown (h : HostRegs) : Bool := bits h.bootst 4 3 == (3 : BitVec 3)

/-- CXL port 0 trains, or fails to: a free choice (Table 23-4, step 2; log 101). -/
def State.trainLink (s : State) : State :=
  let (i, s) := s.freePick 2
  if i = 1 then { s with host := { s.host with bootst := bootstWord 0 false 3 false } } else s

/-- The module starts anew: it is reset, and the first two steps of its bring-up run (R464). -/
def State.restart (s : State) : State := (s.resetModule true).trainLink

/-- RST: a write of 1 to bit 0 resets the module. -/
def execRst (value : Word) (s : State) : Res :=
  if s.powered && bitAt value 0 then .next s.restart else stall s

/-- POWER_ON. -/
def execPowerOn (s : State) : Res := if s.powered then stall s else .next s.restart

/-- POWER_OFF: every state of the module is lost. -/
def execPowerOff (s : State) : Res := .next (s.resetModule false)

/-- THERMAL_TRIP (R463): a sensor at 110 °C removes every rail. -/
def execThermalTrip (_board : Nat) (s : State) : Res := .next (s.resetModule false)

/-! ### Bring-up (R464, R465) -/

/-- A write of BOOTST: LEN, and GO, which starts the ROM's check (Table 23-5). No write comes over a port that is down. -/
def State.writeBootst (s : State) (value : Word) : State :=
  let h := s.host
  if h.up || h.go || h.linkDown then s
  else { s with host := { h with bootst := bootstWord (bits value 32 32) false (bits h.bootst 4 3) (bitAt value 0) } }

/-- BOOTST_GO. -/
def execBootstGo (value : Word) (s : State) : Res :=
  if !s.powered || !bitAt value 0 then stall s else .next (s.writeBootst value)

/-- PF_BAR2_WRITE: bytes of the firmware image (R464). -/
def execPfBar2Write (offset : Nat) (bytes : List Byte) (s : State) : Res :=
  let h := s.host
  if !s.powered || h.up || h.go || h.linkDown || 67108864 < offset + bytes.length then stall s
  else
    let image := ((List.range bytes.length).zip bytes).foldl (fun t (i, b) => Tab.put t (offset + i) b) h.image
    .next { s with host := { h with image } }

/-- A pair of regions is present when both are (R465). -/
def presentRegions (x : BitVec 128) : BitVec 128 :=
  (List.range 64).foldl
    (fun v i => if bitAt x (2 * i) && bitAt x (2 * i + 1) then setBit (setBit v (2 * i) true) (2 * i + 1) true else v) 0

/-- A board's root core begins to run the operating service code (log 51). -/
def State.startService (s : State) (board : Nat) : State :=
  let q := rootOf board
  let ip := (bits (Config.serviceEntry board) 2 50 ++ (0 : BitVec 2)).setWidth 64
  s.setSeq q { s.seq q with run := .running, ip, priv := true }

/-! ### Energy (R460 to R462) -/

/-- A region holds a context in some plane. -/
def State.occupied (s : State) (r : Nat) : Bool := [0, 1, 2, 3].any fun p => (s.plane (planeKey r p)).ctx.isSome

/-- What the other regions of the module take of the 4,400,000 nJ of a window (R460). -/
def State.otherAllowances (s : State) (r : Nat) : Nat :=
  (((List.range 128).filter fun x => x != r && s.present x).map fun x => max (s.region x).allow 8192).sum

/-- The allowance of a region for its next window: the minimum without a resident plane, else what the power manager grants
within the module's total; halved on a throttled board (R460, R463). -/
def State.nextAllowance (s : State) (r : Nat) : Nat :=
  let full :=
    if !s.present r then 0
    else if !s.occupied r then 8192
    else max 8192 (min (min (8192 + Config.grant r s.turns) 0xFFFFF) (4400000 - s.otherAllowances r))
  if s.hot.contains (r / 32) then full / 2 else full

/-- The window of CYCLE begins for a region (R454, R460): its allowance, and for each limiter the value that `brate` last
set. -/
def State.beginWindow (s : State) (region : Nat) : State :=
  let allow := s.nextAllowance region
  let g := s.region region
  let back (i : Nat) : Limiter :=
    let l := vget g.limits i Limiter.empty
    if g.held then { a := l.set.1, w := l.set.2, admitted := 0, set := l.set } else l
  s.setRegion region { g with
    allow, used := 0, held := false, window := s.cycle / 2000
    limits := #v[back 0, back 1, back 2, back 3, back 4, back 5, back 6, back 7, back 8, back 9] }

/-- ENERGY_WINDOW (R460 to R462): the region's next window begins. -/
def execEnergyWindow (region : Nat) (s : State) : Res := .next (s.beginWindow region)

/-! ### Bring-up (R464, R465) -/

/-- FIRMWARE_BRINGUP: the ROM's check ends (step 4), and the firmware brings the module up (steps 5 and 6). `channels` and
`ports` are the units that trained, as CAPCH and CAPAK report them. -/
def execFirmwareBringup (channels ports : Nat) (s : State) : Res :=
  let h := s.host
  if !s.powered || h.up || !h.go then stall s
  else
    let len := (bits h.bootst 32 32).toNat
    let fail (e : BitVec 3) : Res :=
      .next { s with host := { h with bootst := bootstWord (bits h.bootst 32 32) false e false } }
    if len < 4628 || 67108864 < len then fail 1
    else
      let image := (List.range len).map fun i => Tab.getD h.image i 0
      let body := image.take (len - 4627)
      let hash := Config.sha3 body
      if !Config.mldsaVerify Config.vendorKey hash (image.drop (len - 4627)) then fail 2
      else
        let s := (s.zeroSram (List.range 128)).zeroWhere inBase
        let there := presentRegions Config.regionsPresent
        let h : HostRegs := { s.host with
          bootst := bootstWord (bits h.bootst 32 32) true 0 false, rst := 0, fwhash := hash
          caprg0 := bits there 0 64, caprg1 := bits there 64 64
          capch := BitVec.ofNat 64 (channels % 2 ^ 32), capak := BitVec.ofNat 64 (ports % 2 ^ 48) }
        let s := { s with host := h, aknan := (List.range 24).filter fun p => ports / 2 ^ p % 2 = 1 }
        .next ((List.range 128).foldl State.beginWindow ([0, 1, 2, 3].foldl State.startService s))

/-- AKNAN_PORT_TRAIN: a port joins the domain when its training succeeds, and leaves it while it trains again. -/
def execAknanPortTrain (port : Nat) (up : Bool) (s : State) : Res :=
  if !s.powered || !s.host.up || 24 ≤ port then stall s
  else
    let rest := s.aknan.filter fun p => p != port
    .next { s with aknan := if up then rest ++ [port] else rest }

/-! ### PF BAR0 (R413) -/

/-- A write to a PF BAR0 register (Table 16-3); other offsets discard it. While the port is down only RST is reached
(log 101). -/
def State.writeBar0 (s : State) (offset : Nat) (x : Word) : State :=
  let h := s.host
  let en := bitAt h.crcfg 4
  let set (h : HostRegs) : State := { s with host := h }
  if h.linkDown && offset != 0x50 then s
  else match offset with
  | 0x00 => if en then s else set { h with crbase := bits x 12 52 ++ (0 : BitVec 12) }
  | 0x08 =>
    if !h.up || 8 < (bits x 0 4).toNat then s
    else if en then set { h with crcfg := ((bits x 4 1) ++ bits h.crcfg 0 4).setWidth 64 }
    else set { h with crcfg := (bits x 0 5).setWidth 64 }
  | 0x10 => if h.ringSize < between x h.crhead then s else set { h with crtail := (bits x 0 16).setWidth 64 }
  | 0x20 => if en then s else set { h with cpbase := bits x 12 52 ++ (0 : BitVec 12) }
  | 0x30 => set { h with cphead := (bits x 0 16).setWidth 64 }
  | 0x40 => s.writeBootst x
  | 0x50 => if bitAt x 0 then s.restart else s
  | _ => s

/-- What a read of PF BAR0 returns (Table 16-3, R464, R465): 0 at an offset without a register. -/
def State.readBar0 (s : State) (offset : Nat) : Word :=
  let h := s.host
  match offset with
  | 0x00 => h.crbase
  | 0x08 => h.crcfg
  | 0x10 => h.crtail
  | 0x18 => h.crhead
  | 0x20 => h.cpbase
  | 0x28 => h.cptail
  | 0x30 => h.cphead
  | 0x40 => h.bootst
  | 0x50 => h.rst
  | 0x80 => h.caprg0
  | 0x88 => h.caprg1
  | 0x90 => h.capch
  | 0x98 => h.capak
  | _ => 0

/-- REGISTER_WRITE (R413). -/
def execRegisterWrite (address : Nat) (value : Word) (s : State) : Res :=
  if s.powered then .next (s.writeBar0 address value) else stall s

/-! ### Cooling (R463) -/

/-- THERMAL_THROTTLE: a sensor of the board reads 100 °C; the allowances of its next windows are halved. -/
def execThermalThrottle (board : Nat) (s : State) : Res :=
  if s.powered then .next { s with hot := s.hot ++ [board] } else stall s

/-- SENSOR_READS_BELOW_95: a throttling sensor of the board has cooled. -/
def execSensorReadsBelow95 (board : Nat) (s : State) : Res :=
  if s.powered then .next { s with hot := s.hot.erase board } else stall s

end Sys2Proof.Machine
end

