-- ==== Sys2Proof/Machine/Scalar.lean ====
section
/-!
DEFINITION. The sequencer's scalar arithmetic (R336 to R338).
-/

namespace Sys2Proof.Machine

/-- An SR arithmetic form: d from a and b. -/
def alu (s : State) (d a b : SReg) (f : Word → Word → Word) : Res :=
  issueValue s .user true d [a, b] 4 fun _ v => f (v.read a) (v.read b)

/-- An SI arithmetic form: d from a and an immediate. -/
def aluImm (s : State) (d a : SReg) (y : Word) (f : Word → Word → Word) : Res :=
  issueValue s .user true d [a] 4 fun _ v => f (v.read a) y

/-- Shift count Y[5:0] (R337). -/
def shiftBy (y : Word) : Nat := (bits y 0 6).toNat

/-- Signed division truncated toward zero, with the cases of R338. -/
def divS (x y : Word) : Word :=
  if y = 0 then -1 else BitVec.ofInt 64 (x.toInt.tdiv y.toInt)

/-- Signed remainder, with the sign of the dividend (R338). -/
def remS (x y : Word) : Word :=
  if y = 0 then x else BitVec.ofInt 64 (x.toInt.tmod y.toInt)

/-- Unsigned division (R338). -/
def divU (x y : Word) : Word := if y = 0 then -1 else BitVec.ofNat 64 (x.toNat / y.toNat)

/-- Unsigned remainder (R338). -/
def remU (x y : Word) : Word := if y = 0 then x else BitVec.ofNat 64 (x.toNat % y.toNat)

/-- High half of the product (R337). -/
def mulHigh (u : Bool) (x y : Word) : Word :=
  if u then BitVec.ofNat 64 (x.toNat * y.toNat / 2 ^ 64)
  else BitVec.ofInt 64 (x.toInt * y.toInt / 2 ^ 64)

/-- The smaller value (R337). -/
def minWord (u : Bool) (x y : Word) : Word := if (if u then x.ult y else x.slt y) then x else y

/-- The larger value (R337). -/
def maxWord (u : Bool) (x y : Word) : Word := if (if u then x.ult y else x.slt y) then y else x

/-- A Boolean as 0 or 1. -/
def flagWord (b : Bool) : Word := if b then 1 else 0

/-- `add`: X + Y (R337). -/
def execAdd (d a b : SReg) (s : State) : Res := alu s d a b (· + ·)
/-- `addi`: X + Y (R337). -/
def execAddi (d a : SReg) (i : BitVec 14) (s : State) : Res := aluImm s d a (sext14 i) (· + ·)
/-- `sub`: X − Y (R337). -/
def execSub (d a b : SReg) (s : State) : Res := alu s d a b (· - ·)
/-- `and` (R337). -/
def execAnd (d a b : SReg) (s : State) : Res := alu s d a b (· &&& ·)
/-- `andi`, zero-extended (R62, R337). -/
def execAndi (d a : SReg) (i : BitVec 14) (s : State) : Res := aluImm s d a (zext14 i) (· &&& ·)
/-- `or` (R337). -/
def execOr (d a b : SReg) (s : State) : Res := alu s d a b (· ||| ·)
/-- `ori`, zero-extended (R62, R337). -/
def execOri (d a : SReg) (i : BitVec 14) (s : State) : Res := aluImm s d a (zext14 i) (· ||| ·)
/-- `xor` (R337). -/
def execXor (d a b : SReg) (s : State) : Res := alu s d a b (· ^^^ ·)
/-- `xori`, zero-extended (R62, R337). -/
def execXori (d a : SReg) (i : BitVec 14) (s : State) : Res := aluImm s d a (zext14 i) (· ^^^ ·)
/-- `shl` (R337). -/
def execShl (d a b : SReg) (s : State) : Res := alu s d a b fun x y => x <<< shiftBy y
/-- `shli` (R337). -/
def execShli (d a : SReg) (i : BitVec 14) (s : State) : Res := aluImm s d a (zext14 i) fun x y => x <<< shiftBy y
/-- `shr` (R337). -/
def execShr (d a b : SReg) (s : State) : Res := alu s d a b fun x y => x >>> shiftBy y
/-- `shri` (R337). -/
def execShri (d a : SReg) (i : BitVec 14) (s : State) : Res := aluImm s d a (zext14 i) fun x y => x >>> shiftBy y
/-- `sra` (R337). -/
def execSra (d a b : SReg) (s : State) : Res := alu s d a b fun x y => x.sshiftRight (shiftBy y)
/-- `srai` (R337). -/
def execSrai (d a : SReg) (i : BitVec 14) (s : State) : Res :=
  aluImm s d a (zext14 i) fun x y => x.sshiftRight (shiftBy y)
/-- `mul`: the low half (R337). -/
def execMul (d a b : SReg) (s : State) : Res := alu s d a b (· * ·)
/-- `mulh`: the high half (R337). -/
def execMulh (d a b : SReg) (u : Bool) (s : State) : Res := alu s d a b (mulHigh u)
/-- `div` (R337, R338). -/
def execDiv (d a b : SReg) (u : Bool) (s : State) : Res := alu s d a b (if u then divU else divS)
/-- `rem` (R337, R338). -/
def execRem (d a b : SReg) (u : Bool) (s : State) : Res := alu s d a b (if u then remU else remS)
/-- `slt`: signed comparison (R337). -/
def execSlt (d a b : SReg) (s : State) : Res := alu s d a b fun x y => flagWord (x.slt y)
/-- `slti`: signed comparison (R337). -/
def execSlti (d a : SReg) (i : BitVec 14) (s : State) : Res :=
  aluImm s d a (sext14 i) fun x y => flagWord (x.slt y)
/-- `sltu`: unsigned comparison (R337). -/
def execSltu (d a b : SReg) (s : State) : Res := alu s d a b fun x y => flagWord (x.ult y)
/-- `lui` (R62, R337). -/
def execLui (d : SReg) (i : BitVec 19) (s : State) : Res := issueValue s .user true d [] 4 fun _ _ => luiValue i
/-- `min` (R337). -/
def execMin (d a b : SReg) (u : Bool) (s : State) : Res := alu s d a b (minWord u)
/-- `max` (R337). -/
def execMax (d a b : SReg) (u : Bool) (s : State) : Res := alu s d a b (maxWord u)

end Sys2Proof.Machine
end

