-- ==== Sys2Proof/Machine/Sparse.lean ====
section
/-!
DEFINITION. The sparse-set instructions `clsc`, `isect`, `unio`, `mrgk` and `sjoin` (R300 to R302), and `live` (R380).
-/

namespace Sys2Proof.Machine

/-! ### clsc (R300) -/

/-- One record: value, pips and identity. -/
structure Record where
  value : Lane
  pips : Byte
  rid : Nat
  deriving DecidableEq, Repr

/-- The records of a token in ascending lane order. -/
def Token.toRecords (t : Token) : List Record :=
  ((List.range 16).filter t.has).map fun i => { value := t.at i, pips := vget t.pips i 0, rid := vget t.rids i 0 }

/-- A token of up to sixteen records, from lane 0 on. -/
def tokenOf (l : List Record) : Token :=
  { marker := Mk.data
    payload := lanes fun i => match l[i]? with | some r => r.value | none => 0
    valid := validBits fun i => decide (i < l.length)
    pips := lanes fun i => match l[i]? with | some r => r.pips | none => 0
    rids := lanes fun i => match l[i]? with | some r => r.rid | none => 0 }

/-- `clsc` (R300): records repacked into full tokens; a marker is forwarded after what is left of them. -/
def execClsc (f : Fields) (s : State) : Res :=
  let flush (a : At) : Option Token := a.node.buf.head?
  asNode s fun a =>
    let marked := match meets (a.heads (withPred f [.a])) with
      | .free .. | .positional _ | .wave _ => true
      | _ => false
    match a.node.phase, flush a with
    | .run, some t =>
      if marked then fire s a f [] (toAll t) { a.node with buf := [] } 0
      else go s
    | _, _ => go s
where
  go (s : State) : Res :=
    stdNode s f [.a] plainMarks fun a hs =>
      let t := headOf hs .a
      let mine := (t.restrict (predOk f (headOf hs .p))).toRecords
      let all := (a.node.buf.flatMap Token.toRecords) ++ mine
      let n := a.node.took t
      let keep (l : List Record) : List Token := if l.isEmpty then [] else [tokenOf l]
      if 16 ≤ all.length then
        fire s a f (movingSlots hs) (toAll (tokenOf (all.take 16))) { n with buf := keep (all.drop 16) } 0
      else fire s a f (movingSlots hs) [] { n with buf := keep all } 0

/-! ### isect, unio and mrgk (R301) -/

inductive SetOp where
  | isect | unio | mrgk
  deriving DecidableEq, Repr

/-- x < y under the signedness of TY. -/
def setLess (ty : ElemTy) (x y : Lane) : Bool := if ty == .i32 then x.slt y else x.ult y

/-- The data tokens of a row at an input, which wait in the link's slots until every lane has passed their records (R20). -/
def rowOf (l : List Token) : List Token := l.takeWhile fun t => t.marker = Mk.data

/-- The marker that closes the row at an input, if it is there. -/
def rowClosed (l : List Token) : Bool :=
  match (l.drop (rowOf l).length).head? with
  | some t => isPositional t.marker
  | none => false

/-- The k-th token of a row with a record in a lane, as its place and the token. -/
def laneTok (row : List Token) (i k : Nat) : Option (Nat × Token) :=
  ((indexed row).filter fun e => e.2.has i)[k]?

/-- The record of a lane of a token. -/
def Token.record (t : Token) (i : Nat) : Record := { value := t.at i, pips := vget t.pips i 0, rid := vget t.rids i 0 }

/-- A lane passes its record in the k-th token that has one: the token keeps its place, and no longer carries that record to
what the node's outputs lead to (R186). -/
def passLane (i : Nat) : Nat → List Token → List Token
  | _, [] => []
  | k, t :: rest =>
    if t.marker = Mk.data && t.has i then
      (match k with
        | 0 => { t with rids := vput t.rids i 0 } :: rest
        | k + 1 => t :: passLane i k rest)
    else t :: passLane i k rest

/-- What a lane does in one cycle: it waits for a record, finishes the row, or passes records and may emit one: its
value, pips, identity and index word. -/
inductive LaneAct where
  | wait
  | finish
  | step (passA passB : Bool) (out : Option (Record × Lane))
  deriving DecidableEq, Repr

/-- The step of one lane (R301): each side's next record, whether the side is closed, and the positions. -/
def setStep (op : SetOp) (ty : ElemTy) (x y : Option Record) (closedA closedB : Bool) (pa pb : Nat) : LaneAct :=
  let index (i j : Nat) : Lane := BitVec.ofNat 16 i ++ BitVec.ofNat 16 j
  match x, y with
  | none, none => if closedA && closedB then .finish else .wait
  | some r, none =>
    if !closedB then .wait
    else (match op with
      | .isect => .finish
      | _ => .step true false (some (r, index pa 0xFFFF)))
  | none, some r =>
    if !closedA then .wait
    else (match op with
      | .isect => .finish
      | _ => .step false true (some (r, index 0xFFFF pb)))
  | some r, some t =>
    if setLess ty r.value t.value then
      .step true false (match op with | .isect => none | _ => some (r, index pa 0xFFFF))
    else if setLess ty t.value r.value then
      .step false true (match op with | .isect => none | _ => some (t, index 0xFFFF pb))
    else
      match op with
      | .mrgk => .step true false (some (r, index pa 0xFFFF))
      | _ => .step true true (some ({ r with pips := r.pips ||| t.pips }, index pa pb))

/-- The fibres after the lanes have acted: positions, last records and finished lanes. -/
def Fibres.acted (fb : Fibres) (x y : Nat → Option Record) (act : Nat → LaneAct) : Fibres :=
  (List.range 16).foldl
    (fun fb i =>
      match act i with
      | .wait => fb
      | .finish => { fb with finished := setBit fb.finished i true }
      | .step pa pb _ =>
        let fb := if pa then
            { fb with passedA := vput fb.passedA i (vget fb.passedA i 0 + 1)
                      lastA := vput fb.lastA i (match x i with | some r => r.value | none => 0) } else fb
        if pb then
          { fb with passedB := vput fb.passedB i (vget fb.passedB i 0 + 1)
                    lastB := vput fb.lastB i (match y i with | some r => r.value | none => 0) } else fb)
    fb

/-- The tokens of a cycle's outputs: coordinates, and index words. -/
def setTokens (act : Nat → LaneAct) : Token × Token :=
  let out (i : Nat) : Option (Record × Lane) := match act i with | .step _ _ o => o | _ => none
  let t : Token :=
    { marker := Mk.data
      payload := lanes fun i => match out i with | some x => x.1.value | none => 0
      valid := validBits fun i => (out i).isSome
      pips := lanes fun i => match out i with | some x => x.1.pips | none => 0
      rids := lanes fun i => match out i with | some x => x.1.rid | none => 0 }
  (t, { t with payload := lanes fun i => match out i with | some x => x.2 | none => 0 })

/-- The tokens of an operand slot's link changed. -/
def mapInput (pl : Plane) (n : Node) (slot : Nat) (o : Slot) (g : List Token → List Token) : Plane :=
  { pl with
    links := updateFirst (fun l => l.dst = slot && l.opd == o && l.era = n.era) (fun l => { l with toks := g l.toks }) pl.links }

/-- The head token of an input without its records below a lane, which have been taken. -/
def cutHead (pl : Plane) (n : Node) (slot : Nat) (o : Slot) (i : Nat) : Plane :=
  mapInput pl n slot o fun l => match l with
    | t :: rest => t.restrict (fun x => decide (i ≤ x)) :: rest
    | [] => []

/-- One side of a set instruction: the tokens at its input, and where its lanes are in the row. -/
structure FibreSide where
  toks : List Token
  taken : Vector Nat 16
  passed : Vector Nat 16
  last : Vector Lane 16
  deriving DecidableEq, Repr

/-- The record that a lane has to pass next, if it is in a link slot. -/
def FibreSide.next (x : FibreSide) (i : Nat) : Option Record :=
  (laneTok (rowOf x.toks) i (vget x.passed i 0 - vget x.taken i 0)).map fun e => e.2.record i

/-- What is wrong with a lane's next record: it is not above the one before it in its fibre (SPORDER), or it is the 65,535th
(SPLEN). -/
def FibreSide.bad (x : FibreSide) (ty : ElemTy) (i : Nat) : Option Cause :=
  match x.next i with
  | none => none
  | some r =>
    if vget x.passed i 0 != 0 && !setLess ty (vget x.last i 0) r.value then some .sporder
    else if 65535 ≤ vget x.passed i 0 + 1 then some .splen
    else none

/-- Stream position of a lane's next record (R96), given that of the first record at the input. -/
def FibreSide.pos (x : FibreSide) (base i : Nat) : Nat :=
  match laneTok (rowOf x.toks) i (vget x.passed i 0 - vget x.taken i 0) with
  | some (k, t) => lanePos t.valid (((rowOf x.toks).take k).foldl (fun n u => n + records u.valid) base) i
  | none => base

/-- Lanes that still hold a token at the head of an input: they have not passed their record in it. -/
def FibreSide.holdsHead (x : FibreSide) (t : Token) : Bool :=
  (List.range 16).any fun i => t.has i && decide (vget x.passed i 0 ≤ vget x.taken i 0)

/-- The two sides of a set instruction. -/
def At.sideA (a : At) : FibreSide :=
  let fb := a.node.fibres
  { toks := match inLink a.pl a.node a.slot .a with | some l => l.toks | none => []
    taken := fb.takenA, passed := fb.passedA, last := fb.lastA }
def At.sideB (a : At) : FibreSide :=
  let fb := a.node.fibres
  { toks := match inLink a.pl a.node a.slot .b with | some l => l.toks | none => []
    taken := fb.takenB, passed := fb.passedB, last := fb.lastB }

/-- A lane that has finished passes what its fibres still hold of the row. -/
def At.skipAct (a : At) (i : Nat) : LaneAct :=
  let x := (a.sideA.next i).isSome
  let y := (a.sideB.next i).isSome
  if bitAt a.node.fibres.finished i && (x || y) then .step x y none else .wait

/-- A lane's step (R301). -/
def At.setAct (a : At) (op : SetOp) (ty : ElemTy) (i : Nat) : LaneAct :=
  let x := a.sideA
  let y := a.sideB
  if bitAt a.node.fibres.finished i then .wait
  else
    setStep op ty (x.next i) (y.next i) (rowClosed x.toks) (rowClosed y.toks) (vget a.node.fibres.passedA i 0)
      (vget a.node.fibres.passedB i 0)

/-- A node whose lanes have acted: what they have passed is marked in the links. -/
def At.setActed (a : At) (act : Nat → LaneAct) : Plane × Node :=
  let fb := a.node.fibres
  let pass (b : Bool) (taken passed : Vector Nat 16) (l : List Token) : List Token :=
    (List.range 16).foldl
      (fun l i => match act i with
        | .step pa pb _ => if (if b then pb else pa) then passLane i (vget passed i 0 - vget taken i 0) l else l
        | _ => l)
      l
  let pl := mapInput a.pl a.node a.slot .a (pass false fb.takenA fb.passedA)
  let pl := mapInput pl a.node a.slot .b (pass true fb.takenB fb.passedB)
  (pl, { a.node with fibres := fb.acted a.sideA.next a.sideB.next act })

/-- The head token of a side, all of whose records have been passed, leaves its link slot. -/
def At.setTake (a : At) (o : Slot) (t : Token) : Plane × Node :=
  let n := a.node
  let fb := n.fibres
  let add (v : Vector Nat 16) : Vector Nat 16 := lanes fun i => if t.has i then vget v i 0 + 1 else vget v i 0
  let m := if o == .b then { n with fibres := { fb with takenB := add fb.takenB } }
    else { n.took t with fibres := { fb with takenA := add fb.takenA } }
  (takeSlots a.pl n a.slot [o], m)

/-- A set instruction's turn (R301): a token that every lane has passed leaves; a free marker at the head goes on; a record out
of order faults; a cycle of the comparators; the end of the row; the wavefront. The records of both fibres wait in the slots of
the links (R20), so that lanes come apart as far as these hold their tokens (DEDUCED, log 124). -/
def setNode (op : SetOp) (f : Fields) (s : State) : Res :=
  asNode s fun a =>
    match a.node.phase with
    | .emit => emitStep s a f
    | .run =>
      let n := a.node
      let x := a.sideA
      let y := a.sideB
      let ta := x.toks.head?
      let tb := y.toks.head?
      let spent (v : FibreSide) (t : Option Token) : Option Token :=
        t.filter fun t => t.marker = Mk.data && !v.holdsHead t
      let put (z : Plane × Node) : Res :=
        .next (s.setPlane a.plane { z.1 with nodes := Tab.put z.1.nodes a.slot z.2 })
      let act := a.setAct op f.ty
      let wrong (v : FibreSide) : Option (Nat × Cause) := (List.range 16).findSome? fun i => (v.bad f.ty i).map fun c => (i, c)
      let finishes := (List.range 16).any fun i => act i == .finish
      let steps := (List.range 16).any fun i => match act i with | .step .. => true | _ => false
      let free (t : Option Token) : Option Token := t.filter fun t => isFree t.marker
      if [ta, tb].any fun t => match t with | some x => 10 ≤ x.marker.toNat | none => false then .next (a.block s 0x10)
      else
        match spent x ta, spent y tb, free ta, free tb, wrong x, wrong y with
        | some t, _, _, _, _, _ => put (a.setTake .a t)
        | _, some t, _, _, _, _ => put (a.setTake .b t)
        | _, _, some t, _, _, _ => fire s a f [.a] (toAll t) n 0
        | _, _, _, some t, _, _ => fire s a f [.b] (toAll t) n 0
        | _, _, _, _, some (i, c), _ => .next (a.fault s c 0 (x.pos n.pos i))
        | _, _, _, _, _, some (_, c) => .next (a.fault s c 0 n.pos)
        | none, none, none, none, none, none =>
          if (List.range 16).any fun i => a.skipAct i != .wait then put (a.setActed a.skipAct)
          else if finishes then put (a.setActed fun i => if act i == .finish then .finish else .wait)
          else if steps then
            let o := setTokens act
            let z := a.setActed act
            fire s { a with pl := z.1 } f [] [(0, o.1), (1, o.2)] z.2 0
          else
            match ta, tb with
            | some u, some v =>
              if u.marker = v.marker && isPositional u.marker then
                if n.fibres.finished = 0xFFFF then
                  fire s a f [.a, .b] (toAll u) { n with fibres := .empty, ended := n.ended || u.marker = Mk.eot } 0
                else stall s
              else if u.marker = v.marker && isWave u.marker then wave s a [.a, .b] u.marker
              else if u.marker != Mk.data && v.marker != Mk.data then .next (a.fault s .mkalign 0 n.pos)
              else stall s
            | _, _ => stall s
    | _ => stall s

/-- `isect` (R301). -/
def execIsect (f : Fields) (s : State) : Res := setNode .isect f s

/-- `unio` (R301). -/
def execUnio (f : Fields) (s : State) : Res := setNode .unio f s

/-- `mrgk` (R301). -/
def execMrgk (f : Fields) (s : State) : Res := setNode .mrgk f s

/-! ### sjoin (R302) -/

/-- The pattern register that holds a join's tables, as it stood at the launch. -/
def At.joinPat (a : At) (f : Fields) : Pat :=
  match a.inst with
  | some i => Pat.of (vget i.snap.pats (bits f.imm 0 4).toNat 0)
  | none => Pat.of 0

/-- What comes of reaching the tables' range: the physical ranges, a fault, or a state in which a walk has begun. -/
inductive JoinReach where
  | range (l : List (Nat × Nat))
  | fault (s : State) (c : Cause) (addr : Nat)
  | out (s : State)
  deriving DecidableEq, Repr

/-- The pages of the range translated one after another; a dead branch's slot holds nothing (R360). -/
def At.joinPages (a : At) (s : State) : Nat → Nat → Nat → List (Nat × Nat) → JoinReach
  | 0, _, _, l => .range l
  | fuel + 1, va, top, l =>
    if top ≤ va then .range l
    else
      let stop := min top ((va / 65536 + 1) * 65536)
      let board := a.region / 32
      match s.translate a.req board a.region a.ctx va .read with
      | .fault c => .fault (s.dropBad a.req a.ctx (va / 65536)) c va
      | .miss => .out (s.startWalk a.req board a.ctx va false)
      | .copy => .out (s.startWalk a.req board a.ctx va true a.agent)
      | .void => a.joinPages s fuel stop top l
      | .ok _ =>
        match s.translate a.req board a.region a.ctx va .write with
        | .fault c => .fault (s.dropBad a.req a.ctx (va / 65536)) c va
        | .miss => .out (s.startWalk a.req board a.ctx va false)
        | .copy => .out (s.startWalk a.req board a.ctx va true a.agent)
        | .void => a.joinPages s fuel stop top l
        | .ok p => a.joinPages s fuel stop top (l ++ [(p.key, stop - va)])

/-- The range checked and translated at the first access (R302). -/
def At.joinRange (a : At) (s : State) (p : Pat) : JoinReach :=
  let top := p.base + 16 * p.cnt0
  if 2 ^ 52 < top then .fault s .varange p.base
  else if p.base % 8 != 0 then .fault s .align p.base
  else a.joinPages s 18 p.base top []

/-- Physical key of an offset into some ranges. -/
def keyIn : List (Nat × Nat) → Nat → Option Nat
  | [], _ => none
  | (k, n) :: rest, o => if o < n then some (k + o) else keyIn rest (o - n)

/-- The insertion at the home, an access there (R461): 8 bytes of an entry of the side's own table, whose layout and choice are
not given (log 26). -/
def State.joinWrite (s : State) (region : Nat) (l : List (Nat × Nat)) (cnt0 : Nat) (left : Bool) : State :=
  let entry := Config.freeIndex s.frees % max cnt0 1
  let off := 8 * (entry + (if left then 0 else cnt0))
  let bytes := (List.range 8).filterMap fun i => (keyIn l (off + i)).map fun k => (k, Config.freeByte (s.frees + 1 + i))
  let s := match bytes with | b :: _ => s.chargeAt (some region) b.1 1 | [] => s
  { s with mem := s.mem.poke s.nextId bytes, nextId := s.nextId + 1, frees := s.frees + 9 }

/-- Matches of a new entry in the other table, by ascending stamp: the list is kept in the order of its stamps. -/
def joinMatches (tab : List JoinEntry) (e : JoinEntry) : List Record :=
  (tab.filter fun x => x.left != e.left && x.key == e.key).map fun x =>
    let (l, r) := if e.left then (e, x) else (x, e)
    { value := l.payload ++ r.payload, pips := l.pips ||| r.pips, rid := 0 }

/-- Tokens of sixteen matches each. -/
def matchTokens : Nat → List Record → List Token
  | 0, _ => []
  | _ + 1, [] => []
  | n + 1, l => tokenOf (l.take 16) :: matchTokens n (l.drop 16)

/-- New identities for the records of some tokens (log 5). -/
def freshTokens (base : Nat) : List Token → List Token
  | [] => []
  | t :: rest => { t.fresh base with pips := t.pips } :: freshTokens (base + 16) rest

/-- Matches of a record once the tables have been spoiled: their number, values and pips are free (R302). -/
def freeMatches (frees : Nat) : List Record :=
  (List.range (Config.freeIndex frees % 65537)).map fun i =>
    { value := (Config.freeWord (frees + 1 + i)).setWidth 32, pips := Config.freeByte (frees + 1 + i), rid := 0 }

/-- The next record of one side's head token: it is inserted, and its matches are to be emitted (R302); the token's last one
completes the firing. -/
def joinRecord (s : State) (a : At) (f : Fields) (o : Slot) (t : Token) (i : Nat) : Res :=
  let n := a.node
  let p := a.joinPat f
  let left := o == .a
  let pos := n.pos
  let go (s : State) (range : List (Nat × Nat)) : Res :=
    let stamp := n.count + 1
    let mine := (n.join.filter fun e => e.left == left).length
    if 2 ^ 24 ≤ stamp || p.cnt0 ≤ mine then .next (a.fault s .joinfull 0 pos)
    else
      let e : JoinEntry :=
        { left, key := bits (t.at i) 16 16, payload := bits (t.at i) 0 16, stamp, pips := vget t.pips i 0 }
      let ms := if n.spoiled then freeMatches s.frees else joinMatches n.join e
      let s := if n.spoiled then { s with frees := s.frees + 1 + ms.length } else s
      let toks := freshTokens s.nextId (matchTokens ms.length ms)
      let s := ({ s with nextId := s.nextId + 16 * toks.length }).joinWrite a.region range p.cnt0 left
      let last := !((List.range 16).any fun k => decide (i < k) && t.has k)
      let pl := if last then takeSlots a.pl n a.slot [o] else cutHead a.pl n a.slot o (i + 1)
      let r : StReport :=
        { group := (bits f.imm 4 2).toNat, op := (bits f.imm 6 3).toNat, kind := 2, tok := t.restrict fun k => decide (k = i)
          keep := 0, slot := a.slot, entry := a.entry, branch := a.branch s, count := ms.length }
      let pl := if f.fn == 1 && left then { pl with reports := pl.reports ++ [r] } else pl
      let m := { n with
        range, join := n.join ++ [e], count := stamp, pos := if left then pos + 1 else pos
        limit := if last then 0 else if left then 1 else 2
        pend := n.pend ++ toks.map fun t => (t, t) }
      let s := s.setPlane a.plane { pl with nodes := Tab.put pl.nodes a.slot m }
      .next (if last then s.charge a.region 19 else s)
  if n.count != 0 then go s n.range
  else
    match a.joinRange s p with
    | .out t => .next t
    | .fault s c addr => .next (a.fault s c (BitVec.ofNat 64 addr) pos)
    | .range l => go s l

/-- `sjoin` (R302): a firing takes the whole token at the head of a, or of b when a has none, one record a turn; EOR is
consumed, EOT leaves when both slots have taken theirs. `fired` and `turn`: a and b have taken EOT; `limit` is 1 or 2 while
a token of a or of b is half taken. -/
def execSjoin (f : Fields) (s : State) : Res :=
  asNode s fun a =>
    match a.node.phase with
    | .emit => emitStep s a f
    | .run =>
      let n := a.node
      match n.pend with
      | (t, u) :: rest => fire s a f [] [(0, t), (1, u)] { n with pend := rest } 0
      | [] =>
        let hs := a.heads [.a, .b]
        let tok (o : Slot) : Option Token := (hs.find? fun h => h.slot == o).bind Head.tok
        let wave_ (t : Option Token) : Option Marker := t.bind fun x => if isWave x.marker then some x.marker else none
        let take (o : Slot) (t : Token) : Res :=
          if t.marker = Mk.data then
            (match t.lowest with
              | some i => joinRecord s a f o t i
              | none => fire s a f [o] [] n 0)
          else if t.marker = Mk.eor then fire s a f [o] [] n 0
          else if t.marker = Mk.eot then
            let m := if o == .a then { n with fired := true } else { n with turn := true }
            if m.fired && m.turn then fire s a f [o] (toAll t) { m with ended := true } 0 else fire s a f [o] [] m 0
          else fire s a f [o] (toAll t) n 0
        if hs.any fun h => match h.tok with | some x => 10 ≤ x.marker.toNat | none => false then .next (a.block s 0x10)
        else
          match (if n.limit = 2 then none else tok .a), (if n.limit = 1 then none else tok .b) with
          | some x, some y =>
            (match wave_ (some x), wave_ (some y) with
              | some m, some k => if m = k then wave s a [.a, .b] m else stall s
              | none, _ => take .a x
              | some _, none => take .b y)
          | some x, none => if isWave x.marker then stall s else take .a x
          | none, some y => if isWave y.marker then stall s else take .b y
          | none, none => stall s
    | _ => stall s

/-! ### live (R380) -/

/-- A branch is live in a region's copy: a marked one still counts until the marking has reached the region (R362). -/
def State.liveIn (s : State) (region ctx b : Nat) : Bool :=
  match s.ctx? ctx with
  | none => false
  | some c => c.seemsLive b ((s.region region).dead.contains (ctx, b))

/-- The operators whose subgraph a node lies in: those whose `sroute` leads to it; `joined` when a `sjoin.op` lies between
(R289, R294, log 27). -/
def Plane.within (pl : Plane) (era : Nat) : Nat → List (Nat × Bool) → List (Nat × Nat × Bool)
  | 0, _ => []
  | fuel + 1, front =>
    let found := front.filterMap fun (k, j) => (Tab.find? pl.nodes k).bind fun n =>
      if fabricOpc n.word = 0xB0 then some ((bits n.word 0 2).toNat, (bits n.word 2 3).toNat, j) else none
    let back := front.flatMap fun (k, j) =>
      let j' := j || (match Tab.find? pl.nodes k with
        | some n => fabricOpc n.word = 0xB7 && bitAt n.word 50
        | none => false)
      (pl.links.filter fun l => l.era = era && l.dst = k).map fun l => (l.src, j')
    found ++ (if back.isEmpty then [] else pl.within era fuel back.eraseDups)

/-- n records squashed inside an operator: OUT falls, or the joined records that the router waits for (R289). -/
def Plane.squashed (pl : Plane) (era slot n : Nat) : Plane :=
  match pl.within era (pl.nodes.length + 1) [(slot, false)] with
  | (g, j, joined) :: _ =>
    let x := pl.group g
    pl.setGroup g (if joined then { x with joined := x.joined - (n : Int) }
      else { x with out := vput x.out j (vget x.out j 0 - n) })
  | [] => pl

/-- `live` (R380): the records of live branches; the others are squashed. -/
def execLive (f : Fields) (s : State) : Res :=
  let self := f.fn == 1
  stdNode s f (if self then [.a] else [.a, .b]) plainMarks fun a hs =>
    let t := headOf hs .a
    let b := headOf hs .b
    let keep (i : Nat) : Bool :=
      let n : Lane := if self then t.at i &&& 0xFFFF else b.at i
      t.has i && predOk f (headOf hs .p) i && (self || b.has i) && bits n 16 16 == 0 &&
        s.liveIn a.region a.ctx (bits n 0 16).toNat
    let out := laneToken t fun i => if keep i then some (t.at i) else none
    let lost := records t.valid - records out.valid
    let r := fire s a f (movingSlots hs) [(0, out), (1, out)] (a.node.took t) 0
    if lost != 0 && a.ready f 0 && a.ready f 1 then
      match r with
      | .next u => .next (u.setPlane a.plane ((u.plane a.plane).squashed a.node.era a.slot lost))
      | x => x
    else r

end Sys2Proof.Machine
end

