-- ==== Sys2Proof/Machine/Dispatch.lean ====
section
/-!
DEFINITION. One arm for each instruction and event: its meaning.
-/

namespace Sys2Proof.Machine

/-- The effect of an instruction executed by the state's actor, or of an event. -/
def exec (i : Instr) (s : State) : Host.Outcome State Fault Refusal :=
  match i with
  | .add d a b => Sys2Proof.Machine.execAdd d a b s
  | .addi d a imm => Sys2Proof.Machine.execAddi d a imm s
  | .sub d a b => Sys2Proof.Machine.execSub d a b s
  | .and d a b => Sys2Proof.Machine.execAnd d a b s
  | .andi d a imm => Sys2Proof.Machine.execAndi d a imm s
  | .or d a b => Sys2Proof.Machine.execOr d a b s
  | .ori d a imm => Sys2Proof.Machine.execOri d a imm s
  | .xor d a b => Sys2Proof.Machine.execXor d a b s
  | .xori d a imm => Sys2Proof.Machine.execXori d a imm s
  | .shl d a b => Sys2Proof.Machine.execShl d a b s
  | .shli d a imm => Sys2Proof.Machine.execShli d a imm s
  | .shr d a b => Sys2Proof.Machine.execShr d a b s
  | .shri d a imm => Sys2Proof.Machine.execShri d a imm s
  | .sra d a b => Sys2Proof.Machine.execSra d a b s
  | .srai d a imm => Sys2Proof.Machine.execSrai d a imm s
  | .mul d a b => Sys2Proof.Machine.execMul d a b s
  | .mulh d a b u => Sys2Proof.Machine.execMulh d a b u s
  | .div d a b u => Sys2Proof.Machine.execDiv d a b u s
  | .rem d a b u => Sys2Proof.Machine.execRem d a b u s
  | .slt d a b => Sys2Proof.Machine.execSlt d a b s
  | .slti d a imm => Sys2Proof.Machine.execSlti d a imm s
  | .sltu d a b => Sys2Proof.Machine.execSltu d a b s
  | .lui d imm => Sys2Proof.Machine.execLui d imm s
  | .min d a b u => Sys2Proof.Machine.execMin d a b u s
  | .max d a b u => Sys2Proof.Machine.execMax d a b u s
  | .sld d a imm => Sys2Proof.Machine.execSld d a imm s
  | .sst d a imm => Sys2Proof.Machine.execSst d a imm s
  | .qpop d q lane p x sx => Sys2Proof.Machine.execQpop d q lane p x sx s
  | .qpush q a lane p x mk => Sys2Proof.Machine.execQpush q a lane p x mk s
  | .qstat d q x => Sys2Proof.Machine.execQstat d q x s
  | .bcc cond off a b => Sys2Proof.Machine.execBcc cond off a b s
  | .jal d off => Sys2Proof.Machine.execJal d off s
  | .jalr d a imm => Sys2Proof.Machine.execJalr d a imm s
  | .blk d a => Sys2Proof.Machine.execBlk d a s
  | .bar a b jobs => Sys2Proof.Machine.execBar a b jobs s
  | .bst d clr => Sys2Proof.Machine.execBst d clr s
  | .lpat g a imm => Sys2Proof.Machine.execLpat g a imm s
  | .spat g a imm => Sys2Proof.Machine.execSpat g a imm s
  | .sbind q g wr => Sys2Proof.Machine.execSbind q g wr s
  | .sgo d q wr sc => Sys2Proof.Machine.execSgo d q wr sc s
  | .acpy d ga gb c sc => Sys2Proof.Machine.execAcpy d ga gb c sc s
  | .cbld n a imm => Sys2Proof.Machine.execCbld n a imm s
  | .sfence k sc => Sys2Proof.Machine.execSfence k sc s
  | .wbk sc a b => Sys2Proof.Machine.execWbk sc a b s
  | .inv sc a b => Sys2Proof.Machine.execInv sc a b s
  | .bstg h a => Sys2Proof.Machine.execBstg h a s
  | .bwld sc d a b arr col off n => Sys2Proof.Machine.execBwld sc d a b arr col off n s
  | .bchn sc d h b arr c0 gm1 => Sys2Proof.Machine.execBchn sc d h b arr c0 gm1 s
  | .baccClr b arr => Sys2Proof.Machine.execBaccClr b arr s
  | .baccRd a b arr => Sys2Proof.Machine.execBaccRd a b arr s
  | .brate a b unit => Sys2Proof.Machine.execBrate a b unit s
  | .bdrnSv a arr inc => Sys2Proof.Machine.execBdrnSv a arr inc s
  | .bdrnLd a arr => Sys2Proof.Machine.execBdrnLd a arr s
  | .steer g a w batch en jn => Sys2Proof.Machine.execSteer g a w batch en jn s
  | .stcnt d g j => Sys2Proof.Machine.execStcnt d g j s
  | .stcntWr a g j => Sys2Proof.Machine.execStcntWr a g j s
  | .smenu a b m => Sys2Proof.Machine.execSmenu a b m s
  | .satom d a b c op wide ord sc ty => Sys2Proof.Machine.execSatom d a b c op wide ord sc ty s
  | .sarrv d a b rel => Sys2Proof.Machine.execSarrv d a b rel s
  | .swaitp a b => Sys2Proof.Machine.execSwaitp a b s
  | .waita d a b c cond sc acq => Sys2Proof.Machine.execWaita d a b c cond sc acq s
  | .bnew a b => Sys2Proof.Machine.execBnew a b s
  | .tenq d a => Sys2Proof.Machine.execTenq d a s
  | .tsig sc a b => Sys2Proof.Machine.execTsig sc a b s
  | .fork d a b => Sys2Proof.Machine.execFork d a b s
  | .resign a => Sys2Proof.Machine.execResign a s
  | .bwait d a b => Sys2Proof.Machine.execBwait d a b s
  | .brinfo d a n => Sys2Proof.Machine.execBrinfo d a n s
  | .alloc d => Sys2Proof.Machine.execAlloc d s
  | .allocKv d a => Sys2Proof.Machine.execAllocKv d a s
  | .free d a => Sys2Proof.Machine.execFree d a s
  | .amsg d a b c h => Sys2Proof.Machine.execAmsg d a b c h s
  | .hbind d a b => Sys2Proof.Machine.execHbind d a b s
  | .trigOff slot => Sys2Proof.Machine.execTrigOff slot s
  | .trigAdr a b slot h => Sys2Proof.Machine.execTrigAdr a b slot h s
  | .trigPort slot h port => Sys2Proof.Machine.execTrigPort slot h port s
  | .trigRd d slot => Sys2Proof.Machine.execTrigRd d slot s
  | .yield => Sys2Proof.Machine.execYield s
  | .trap n => Sys2Proof.Machine.execTrap n s
  | .eret => Sys2Proof.Machine.execEret s
  | .sysr d r => Sys2Proof.Machine.execSysr d r s
  | .sysw r a => Sys2Proof.Machine.execSysw r a s
  | .frzQ d => Sys2Proof.Machine.execFrzQ d s
  | .frzGo => Sys2Proof.Machine.execFrzGo s
  | .frzKill a => Sys2Proof.Machine.execFrzKill a s
  | .frzOn => Sys2Proof.Machine.execFrzOn s
  | .ftok a => Sys2Proof.Machine.execFtok a s
  | .save d a b inc => Sys2Proof.Machine.execSave d a b inc s
  | .rest d a b => Sys2Proof.Machine.execRest d a b s
  | .wpt n off a mask => Sys2Proof.Machine.execWpt n off a mask s
  | .tlbi all sc a b => Sys2Proof.Machine.execTlbi all sc a b s
  | .cfgw a b => Sys2Proof.Machine.execCfgw a b s
  | .halt => Sys2Proof.Machine.execHalt s
  | .inp f => Sys2Proof.Machine.execInp f s
  | .outp f => Sys2Proof.Machine.execOutp f s
  | .fan f => Sys2Proof.Machine.execFan f s
  | .gen f => Sys2Proof.Machine.execGen f s
  | .ext f => Sys2Proof.Machine.execExt f s
  | .filt f => Sys2Proof.Machine.execFilt f s
  | .sel f => Sys2Proof.Machine.execSel f s
  | .mrg f => Sys2Proof.Machine.execMrg f s
  | .loop f => Sys2Proof.Machine.execLoop f s
  | .hold f => Sys2Proof.Machine.execHold f s
  | .mark f => Sys2Proof.Machine.execMark f s
  | .mtst f => Sys2Proof.Machine.execMtst f s
  | .cnt f => Sys2Proof.Machine.execCnt f s
  | .exit f => Sys2Proof.Machine.execExit f s
  | .sink f => Sys2Proof.Machine.execSink f s
  | .fabAdd f => Sys2Proof.Machine.execFabAdd f s
  | .fabSub f => Sys2Proof.Machine.execFabSub f s
  | .adds f => Sys2Proof.Machine.execAdds f s
  | .subs f => Sys2Proof.Machine.execSubs f s
  | .fabMul f => Sys2Proof.Machine.execFabMul f s
  | .fabMulh f => Sys2Proof.Machine.execFabMulh f s
  | .mad f => Sys2Proof.Machine.execMad f s
  | .fabShl f => Sys2Proof.Machine.execFabShl f s
  | .fabShr f => Sys2Proof.Machine.execFabShr f s
  | .fabSra f => Sys2Proof.Machine.execFabSra f s
  | .fabAnd f => Sys2Proof.Machine.execFabAnd f s
  | .fabOr f => Sys2Proof.Machine.execFabOr f s
  | .fabXor f => Sys2Proof.Machine.execFabXor f s
  | .andn f => Sys2Proof.Machine.execAndn f s
  | .fabMin f => Sys2Proof.Machine.execFabMin f s
  | .fabMax f => Sys2Proof.Machine.execFabMax f s
  | .cmp f => Sys2Proof.Machine.execCmp f s
  | .clz f => Sys2Proof.Machine.execClz f s
  | .popc f => Sys2Proof.Machine.execPopc f s
  | .brev f => Sys2Proof.Machine.execBrev f s
  | .addr f => Sys2Proof.Machine.execAddr f s
  | .shuf f => Sys2Proof.Machine.execShuf f s
  | .bcst f => Sys2Proof.Machine.execBcst f s
  | .scan f => Sys2Proof.Machine.execScan f s
  | .lred f => Sys2Proof.Machine.execLred f s
  | .fadd f => Sys2Proof.Machine.execFadd f s
  | .fsub f => Sys2Proof.Machine.execFsub f s
  | .fmul f => Sys2Proof.Machine.execFmul f s
  | .fma f => Sys2Proof.Machine.execFma f s
  | .fmin f => Sys2Proof.Machine.execFmin f s
  | .fmax f => Sys2Proof.Machine.execFmax f s
  | .fcmp f => Sys2Proof.Machine.execFcmp f s
  | .fsgn f => Sys2Proof.Machine.execFsgn f s
  | .frcp f => Sys2Proof.Machine.execFrcp f s
  | .frsq f => Sys2Proof.Machine.execFrsq f s
  | .fref f => Sys2Proof.Machine.execFref f s
  | .fex2 f => Sys2Proof.Machine.execFex2 f s
  | .flg2 f => Sys2Proof.Machine.execFlg2 f s
  | .ftnh f => Sys2Proof.Machine.execFtnh f s
  | .fcls f => Sys2Proof.Machine.execFcls f s
  | .frnd f => Sys2Proof.Machine.execFrnd f s
  | .cvt f => Sys2Proof.Machine.execCvt f s
  | .bqnt f => Sys2Proof.Machine.execBqnt f s
  | .bdq f => Sys2Proof.Machine.execBdq f s
  | .cbx f => Sys2Proof.Machine.execCbx f s
  | .cbq f => Sys2Proof.Machine.execCbq f s
  | .hads f => Sys2Proof.Machine.execHads f s
  | .sclx f => Sys2Proof.Machine.execSclx f s
  | .ld f => Sys2Proof.Machine.execLd f s
  | .st f => Sys2Proof.Machine.execSt f s
  | .lds f => Sys2Proof.Machine.execLds f s
  | .sts f => Sys2Proof.Machine.execSts f s
  | .ldt f => Sys2Proof.Machine.execLdt f s
  | .prf f => Sys2Proof.Machine.execPrf f s
  | .fence f => Sys2Proof.Machine.execFence f s
  | .atom f => Sys2Proof.Machine.execAtom f s
  | .rtree f => Sys2Proof.Machine.execRtree f s
  | .arrv f => Sys2Proof.Machine.execArrv f s
  | .bfin f => Sys2Proof.Machine.execBfin f s
  | .bfout f => Sys2Proof.Machine.execBfout f s
  | .sroute f => Sys2Proof.Machine.execSroute f s
  | .sret f => Sys2Proof.Machine.execSret f s
  | .pipsEnt f => Sys2Proof.Machine.execPipsEnt f s
  | .pipsOut f => Sys2Proof.Machine.execPipsOut f s
  | .pipsRd f => Sys2Proof.Machine.execPipsRd f s
  | .pipsSet f => Sys2Proof.Machine.execPipsSet f s
  | .pipsClr f => Sys2Proof.Machine.execPipsClr f s
  | .clsc f => Sys2Proof.Machine.execClsc f s
  | .isect f => Sys2Proof.Machine.execIsect f s
  | .unio f => Sys2Proof.Machine.execUnio f s
  | .mrgk f => Sys2Proof.Machine.execMrgk f s
  | .sjoin f => Sys2Proof.Machine.execSjoin f s
  | .tmenu f => Sys2Proof.Machine.execTmenu f s
  | .live f => Sys2Proof.Machine.execLive f s
  | .successorFetch region plane => Sys2Proof.Machine.execSuccessorFetch region plane s
  | .blockCommit region plane => Sys2Proof.Machine.execBlockCommit region plane s
  | .sliceStart seq => Sys2Proof.Machine.execSliceStart seq s
  | .switchInject region plane slot => Sys2Proof.Machine.execSwitchInject region plane slot s
  | .nodeReconfigure region plane slot => Sys2Proof.Machine.execNodeReconfigure region plane slot s
  | .blkstReport seq index => Sys2Proof.Machine.execBlkstReport seq index s
  | .dispatchDecision partition seq => Sys2Proof.Machine.execDispatchDecision partition seq s
  | .issue agent index => Sys2Proof.Machine.execIssue agent index s
  | .commit agent index => Sys2Proof.Machine.execCommit agent index s
  | .propagate index => Sys2Proof.Machine.execPropagate index s
  | .rmwPerform agent index => Sys2Proof.Machine.execRmwPerform agent index s
  | .loadReturn agent index => Sys2Proof.Machine.execLoadReturn agent index s
  | .walkComplete index => Sys2Proof.Machine.execWalkComplete index s
  | .parkingEntryGrant board => Sys2Proof.Machine.execParkingEntryGrant board s
  | .copyOnWrite index => Sys2Proof.Machine.execCopyOnWrite index s
  | .engineJobStart region job => Sys2Proof.Machine.execEngineJobStart region job s
  | .readSideEmit region port => Sys2Proof.Machine.execReadSideEmit region port s
  | .writeSideTake region port => Sys2Proof.Machine.execWriteSideTake region port s
  | .engineJobComplete region job => Sys2Proof.Machine.execEngineJobComplete region job s
  | .asyncEvent seq => Sys2Proof.Machine.execAsyncEvent seq s
  | .faultTokenEnqueue board => Sys2Proof.Machine.execFaultTokenEnqueue board s
  | .triggerMessage ctx slot => Sys2Proof.Machine.execTriggerMessage ctx slot s
  | .markingPropagate ctx index => Sys2Proof.Machine.execMarkingPropagate ctx index s
  | .resignWalk ctx branch => Sys2Proof.Machine.execResignWalk ctx branch s
  | .waitWake seq => Sys2Proof.Machine.execWaitWake seq s
  | .waitTimeout seq => Sys2Proof.Machine.execWaitTimeout seq s
  | .routerDispatch region plane group => Sys2Proof.Machine.execRouterDispatch region plane group s
  | .routerReport region plane => Sys2Proof.Machine.execRouterReport region plane s
  | .groupEnd region plane group => Sys2Proof.Machine.execGroupEnd region plane group s
  | .columnFire region array col => Sys2Proof.Machine.execColumnFire region array col s
  | .arrayDrain region array => Sys2Proof.Machine.execArrayDrain region array s
  | .chainComplete region array => Sys2Proof.Machine.execChainComplete region array s
  | .rateWindow region unit => Sys2Proof.Machine.execRateWindow region unit s
  | .energyWindow region => Sys2Proof.Machine.execEnergyWindow region s
  | .thermalThrottle board => Sys2Proof.Machine.execThermalThrottle board s
  | .thermalTrip board => Sys2Proof.Machine.execThermalTrip board s
  | .createVd => Sys2Proof.Machine.execCreateVd s
  | .destroyVd => Sys2Proof.Machine.execDestroyVd s
  | .pause => Sys2Proof.Machine.execPause s
  | .resume => Sys2Proof.Machine.execResume s
  | .evict => Sys2Proof.Machine.execEvict s
  | .restore => Sys2Proof.Machine.execRestore s
  | .setShare => Sys2Proof.Machine.execSetShare s
  | .mapWindow => Sys2Proof.Machine.execMapWindow s
  | .query => Sys2Proof.Machine.execQuery s
  | .attest => Sys2Proof.Machine.execAttest s
  | .notifyWrite vf reg value => Sys2Proof.Machine.execNotifyWrite vf reg value s
  | .hostThreadWrite thread address bytes => Sys2Proof.Machine.execHostThreadWrite thread address bytes s
  | .hdmAccess thread address count store => Sys2Proof.Machine.execHdmAccess thread address count store s
  | .registerWrite address value => Sys2Proof.Machine.execRegisterWrite address value s
  | .rst value => Sys2Proof.Machine.execRst value s
  | .powerOn => Sys2Proof.Machine.execPowerOn s
  | .powerOff => Sys2Proof.Machine.execPowerOff s
  | .bootstGo value => Sys2Proof.Machine.execBootstGo value s
  | .firmwareBringup channels ports => Sys2Proof.Machine.execFirmwareBringup channels ports s
  | .aknanPortTrain port up => Sys2Proof.Machine.execAknanPortTrain port up s
  | .illop => Sys2Proof.Machine.execIllop s
  | .fetchFault => Sys2Proof.Machine.execFetchFault s
  | .badcmd => Sys2Proof.Machine.execBadcmd s
  | .pfBar2Write offset bytes => Sys2Proof.Machine.execPfBar2Write offset bytes s
  | .sensorReadsBelow95 board => Sys2Proof.Machine.execSensorReadsBelow95 board s
  | .contextCreation vd => Sys2Proof.Machine.execContextCreation vd s

end Sys2Proof.Machine
end

