-- ==== Sys2Proof/Machine/Turns.lean ====
section
/-!
DEFINITION. A turn: one agent of the module does one thing (log 1). A sequencer executes the instruction at its IP, a node
fires, an event happens, or time passes. A turn in which the agent can do nothing passes.
-/

namespace Sys2Proof.Machine

/-! ### Sequencers -/

/-- The event of a waiting instruction has been performed (R394). -/
def State.eventDone (s : State) (q id : Nat) : Bool :=
  let g := s.agent q
  let away (l : List Ev) : Bool := l.all fun e => e.id != id
  away g.q && away g.buf && away g.rmws

/-- What comes of an instruction, with the energy of reading its words once it has been executed: the IP has changed
(R461, log 114). -/
def State.fetchCharged (s : State) (q : Nat) (o : Res) : Res :=
  match o with
  | .next t => .next (if (t.seq q).ip != (s.seq q).ip then s.chargeFetch t q else t)
  | o => o

/-- The instruction at IP, or the trap of fetching or decoding it (R61, R66). -/
def State.issueAt (s : State) (q : Nat) : Res :=
  match s.fetchInstr q with
  | .out _ => exec .fetchFault s
  | .words w w2 =>
    s.fetchCharged q (match decodeSeq w w2 with
      | some i => exec i s
      | none => exec .illop s)

/-- The instruction at IP again, while its event has issued and is not performed: `sarrv` goes on there (R324). Where its
words cannot be read now, it waits. -/
def State.issueAgain (s : State) (q : Nat) : Res :=
  match s.fetchInstr q with
  | .out _ => .next s
  | .words .. => s.issueAt q

/-- A sequencer's turn. An instruction that waits for its event goes on when the event has been performed (R394); one whose
event has returned is executed again with what came back; every other one is executed as it stands. -/
def State.seqTurn (s : State) (q : Nat) : Res :=
  let v := s.seq q
  if v.run != .running || s.seqHeld q then .next s
  else
    match v.wait with
    | .event ip n id hit got =>
      if ip != v.ip then s.issueAt q
      else
        match got with
        | some _ => s.issueAt q
        | none =>
          if (s.agent q).rmws.any fun e => e.id = id then s.issueAgain q
          else if !s.eventDone q id || s.waitReads q then .next s
          else if n = 0 then .next (s.setSeq q (v.setWait (.event ip n id hit (some ([], none)))))
          else .next (s.doneWait q n hit)
    | _ => (s.endSlice q).issueAt q

/-! ### Nodes -/

/-- A node does what its word says (R93). -/
def State.runNode (s : State) (r p slot : Nat) : Res :=
  match Tab.find? (s.plane (planeKey r p)).nodes slot with
  | none => .next s
  | some n =>
    match decodeFabric n.word with
    | .ok i => exec i { s with actor := .node r p slot }
    | .error _ => .next s

/-- The plane that an element has fired last (R30). -/
def State.setServed (s : State) (r p slot : Nat) : State :=
  let home := r + slot / 512
  let g := s.region home
  s.setRegion home { g with served := Tab.put g.served (slot % 512) p }

/-- A node fires, and its element has fired its plane last. -/
def State.nodeFires (s : State) (r p slot : Nat) : Res :=
  match s.runNode r p slot with
  | .next t => .next (if t.plane (planeKey r p) != s.plane (planeKey r p) then t.setServed r p slot else t)
  | o => o

/-- Consumers of a node's zero-slot links that hold a token: they fire in the same cycle (R46, R94, log 10). -/
def State.zeroSlots (s : State) (r p slot : Nat) : List Nat :=
  let pl := s.plane (planeKey r p)
  (pl.links.filter fun l => l.src = slot && l.cap = 0 && !l.sticky && !l.toks.isEmpty).map fun l => l.dst

/-- A node fires, and the consumers of its zero-slot links with it; where one of them cannot, none does. -/
def State.fireTogether : State → Nat → Nat → Nat → Nat → Res
  | s, 0, _, _, _ => .next s
  | s, fuel + 1, r, p, slot =>
    match s.nodeFires r p slot with
    | .next t =>
      let zs := t.zeroSlots r p slot
      if zs.isEmpty then .next t
      else
        let go (x : Option State) (z : Nat) : Option State :=
          x.bind fun x => match x.fireTogether fuel r p z with
            | .next y => some y
            | _ => none
        match zs.foldl go (some t) with
        | some y =>
          if (y.zeroSlots r p slot).isEmpty || (y.plane (planeKey r p)).frozen != .none then .next y else .next s
        | none => .next s
    | o => o

/-- A node is ready: its turn, with the consumers that must fire in it, changes its plane (R30, R46). -/
def State.nodeReady (s : State) (r p slot : Nat) : Bool :=
  match s.fireTogether 8 r p slot with
  | .next t => t.plane (planeKey r p) != s.plane (planeKey r p)
  | _ => false

/-- The configurations of a slot's element besides a plane's own: those of the element's region and of a fused block
launched in the region before it (R15, R52). -/
def elementRivals (r p slot : Nat) : List (Nat × Nat × Nat) :=
  (elementSlots (r + slot / 512) (slot % 512)).filter fun x => x.2.1 != p

/-- Another plane's instruction at the element is ready and comes before this one in the order of R30 and R195. -/
def State.outTurned (s : State) (r p slot : Nat) : Bool :=
  let last := Tab.getD (s.region (r + slot / 512)).served (slot % 512) 3
  (elementRivals r p slot).any fun (r', k, x) =>
    turnAfter last k < turnAfter last p && (Tab.find? (s.plane (planeKey r' k)).nodes x).isSome && s.nodeReady r' k x

/-- A node takes the word of `cfgw` that waits for it, once nothing is under way in it (R57). -/
def State.takesConfig (s : State) (r p slot : Nat) : Option State :=
  let pl := s.plane (planeKey r p)
  match Tab.find? pl.nodes slot with
  | none => none
  | some n => if n.underWay then none else n.config.map fun w => s.setPlane (planeKey r p) (pl.configured slot n w)

/-- The node whose turn it is takes a word of `cfgw`, or fires when its plane's turn at the element has come (R30, R195); its
zero-slot consumers fire with it, whatever plane their elements have fired last (log 10). -/
def State.nodeTurn (s : State) (r p slot : Nat) : Res :=
  match s.takesConfig r p slot with
  | some t => .next t
  | none => if s.outTurned r p slot then .next s else s.fireTogether 8 r p slot

/-! ### Dirty bits (R399, R456) -/

/-- What the image's SEQ group holds of a sequencer (Table 15-5): a handler's own registers are none of it. -/
def Seq.group (v : Seq) : Vector Word 32 × Word × Bool × BitVec 32 × Vector Token 8 :=
  (v.user, if v.priv then v.epc else v.ip, if v.priv then EStat.pmode v.estat else false, v.armedU, v.staging)

/-- What the SYS group of a plane holds: its context's FPC and CTXRES, its SYS registers, watchpoints and jobs. -/
def State.sysGroup (s : State) (r p : Nat) : Option (Lane × Word) × SysRegs × Vector Word 4 × List (Nat × Nat) :=
  let k := planeKey r p
  (((s.plane k).ctx.bind s.ctx?).map fun c => (c.fpc, c.ctxres), s.sysOf k, (s.plane k).wpt,
    (s.planeJobs r p).map fun e => (e.1, e.2.serial))

/-- The tokens in the links of a plane: a link without a token has no contents (R456). -/
def linkTokens (pl : Plane) : List (Nat × Nat × Nat × List Token) :=
  (pl.links.filter fun l => !l.toks.isEmpty).map fun l => (l.src, l.out, l.dst, l.toks)

/-- A node as the image keeps it: the DRAIN of a pre-emption, which takes nothing with it, is no part of it (R396). -/
def Node.kept (n : Node) : Node :=
  let n := { n with passed := false }
  if (n.phase == .held || n.phase == .emit) && n.emitting = Mk.drain then { n with phase := .run, sent := [], emitting := 0 }
  else if n.phase == .run then { n with sent := [], emitting := 0 }
  else n

/-- The sides of a region's ports that hold something of a plane's context. -/
def State.planeSides (s : State) (r p : Nat) : List ((Nat × Bool) × Side) :=
  (allSides.map fun x => (x, s.side r x.1 x.2)).filter fun v => v.2.used p

/-- What the SEQ group of a plane holds: nothing while the sequencer runs another context. -/
def State.seqGroup (s : State) (r p : Nat) : Option (Vector Word 32 × Word × Bool × BitVec 32 × Vector Token 8) :=
  if s.runsPlane r p then some (s.seq r).group else none

/-- The dirty groups of a plane after a turn (R399): the group numbers of Table 15-5 whose contents have changed. -/
def State.dirtied (old new : State) (k : Nat) (a b : Plane) : Dirty :=
  let r := k / 4
  let p := k % 4
  let seq := decide (old.seqGroup r p ≠ new.seqGroup r p)
  let sys := decide (old.sysGroup r p ≠ new.sysGroup r p)
  let regs := decide (a.g ≠ b.g) || decide (a.h ≠ b.h) || decide (a.c ≠ b.c) || decide (a.menus ≠ b.menus)
  let mine (b : Option BaBind) : Option BaBind := b.filter fun b => b.plane = p
  let bound (x : Nat) : Bool := decide (mine (old.arr r x).bind ≠ mine (new.arr r x).bind)
  let kept (x : Plane) : List (Nat × Node) := x.nodes.map fun (slot, n) => (slot, n.kept)
  bit1 (bound 1) ++ bit1 (bound 0) ++ bit1 (decide (a.groups ≠ b.groups)) ++
    bit1 (decide (old.planeSides r p ≠ new.planeSides r p)) ++ bit1 (decide (linkTokens a ≠ linkTokens b)) ++
    bit1 (decide (kept a ≠ kept b) || a.frozen != b.frozen) ++ bit1 (decide (a.a ≠ b.a)) ++ bit1 regs ++ bit1 sys ++
    bit1 seq

/-- The dirty bits set by what a turn has changed; a plane whose context has changed was loaded or freed. -/
def State.marked (old new : State) : State :=
  { new with planes := new.planes.map fun (k, b) =>
      let a := old.plane k
      (k, if b.ctx.isSome && a.ctx == b.ctx then { b with dirty := b.dirty ||| old.dirtied new k a b } else b) }

/-! ### The service code's own pages (R458) -/

/-- The service code of a board's root core maps a page of a context in its own address space: the leaf is the context's,
with its key id (log 9). -/
def State.mapRoot (s : State) (b page n va : Nat) : State :=
  if (s.seq (rootOf b)).run != .running || 4 ≤ b || 2 ^ 36 ≤ page then s
  else
    match s.ctx? n with
    | none => s
    | some c =>
      match s.homeLeaf c va with
      | some l =>
        if (Leaf.key l).toNat = c.key then
          let frame := if Leaf.lg l then Leaf.frame l / 32 * 32 + va / 2 ^ 16 % 32 else Leaf.frame l
          let l := Leaf.make c.key (Leaf.mkind l) (Leaf.bsh l) (Leaf.cow l) (Leaf.ordc l) false frame (bits l 0 4)
          { s with rootPages := Tab.put s.rootPages (rootOf b) (Tab.put (Tab.getD s.rootPages (rootOf b) []) page l) }
        else s
      | none => s

def State.unmapRoot (s : State) (b page : Nat) : State :=
  if (s.seq (rootOf b)).run != .running || 4 ≤ b then s
  else { s with rootPages := Tab.put s.rootPages (rootOf b) (Tab.drop (Tab.getD s.rootPages (rootOf b) []) page) }

/-! ### Time -/

/-- n cycles pass for a sequencer's waiting instruction (R326, R373); a paused context's waits stand (R429). -/
def State.pass (s : State) (n : Nat) : State :=
  let tick (q : Nat) (v : Seq) : Seq := match v.wait with
    | .timed ip (some left) seen asleep =>
      if v.run == .running && !s.seqHeld q then v.setWait (.timed ip (some (left - n)) seen asleep) else v
    | _ => v
  { s with cycle := s.cycle + n, seqs := s.seqs.map fun (q, v) => (q, tick q v) }

/-- n cycles pass: at each boundary of the 2,000-cycle windows of CYCLE, every region's window begins before anything else
happens (R454, R460). -/
def State.elapse (s : State) (n : Nat) : State :=
  let left := 2000 - s.cycle % 2000
  if n < left then s.pass n
  else
    let t := s.pass left
    { t with agenda := ((List.range 128).map fun r => Turn.happening (.energyWindow r)) ++ .elapse (n - left) :: t.agenda }

/-- An event of the device is due: a region's window begins once in each window of CYCLE (R460). -/
def State.isDue (s : State) (i : Instr) : Bool :=
  match i with
  | .energyWindow r => (s.region r).window != s.cycle / 2000
  | _ => true

/-- A turn would take a region's energy past its allowance by more than 8,192 nJ: it waits for the next window (R460). -/
def State.overspends (old new : State) : Bool :=
  new.regions.any fun (r, g) => decide (g.allow + 8192 < g.used) && decide ((old.region r).used < g.used)

/-- A turn would send a hardware fault token to a ring that is full: the sender stalls (R390, R407). -/
def State.overfills (old new : State) : Bool :=
  [0, 1, 2, 3].any fun b =>
    let v := new.seq (rootOf b)
    decide ((old.seq (rootOf b)).ftoks.length < v.ftoks.length) && decide (v.ringSize < v.ringUsed + v.ftoks.length)

/-! ### A turn -/

/-- An event of the device: it has no words, and is not one of a sequencer's own exceptions. -/
def isHappening (i : Instr) : Bool := (encode i).isEmpty && i != .illop && i != .fetchFault

/-- What a turn does; an unpowered module does nothing until it is powered on (R464). -/
def runTurn (t : Turn) (s : State) : Res :=
  let o : Res := match t with
    | .sequencer q => ({ s with actor := .sequencer q }).seqTurn q
    | .prefetch q a => .next (if (s.seq q).run == .running && !s.seqHeld q then s.fetchAhead q a else s)
    | .node r p slot => if p < 4 then s.nodeTurn r p slot else .next s
    | .rootMap b page n va => .next (s.mapRoot b page n va)
    | .rootUnmap b page => .next (s.unmapRoot b page)
    | .happening i => if isHappening i && s.isDue i then exec i { s with actor := .device } else .next s
    | .elapse n => .next (s.elapse n)
  if !s.powered && t != .happening .powerOn then .next s
  else
    match o with
    | .next u => .next (if s.overspends u || s.overfills u then s else s.writeAreas (s.marked u))
    | x => x

/-! ### Fair turns (R29, log 1) -/

/-- The turns of the module's own agents and events that three numbers name, and the passing of a cycle. -/
def fairTurns (a b c : Nat) : List Turn :=
  [.sequencer a, .node a b c, .elapse 1] ++
    [.successorFetch a b, .blockCommit a b, .sliceStart a, .switchInject a b c, .nodeReconfigure a b c, .blkstReport a b,
      .dispatchDecision a b, .issue a b, .commit a b, .propagate a, .rmwPerform a b, .loadReturn a b, .walkComplete a,
      .parkingEntryGrant a, .copyOnWrite a, .engineJobStart a b, .readSideEmit a b, .writeSideTake a b,
      .engineJobComplete a b, .asyncEvent a, .faultTokenEnqueue a, .triggerMessage a b, .markingPropagate a b,
      .resignWalk a b, .waitWake a, .waitTimeout a, .routerDispatch a b c, .routerReport a b, .groupEnd a b c,
      .columnFire a b c, .arrayDrain a b, .chainComplete a b, .rateWindow a b].map .happening

/-- A turn for each number, every turn of `fairTurns` for infinitely many: no agent and no event waits for ever for its
turn (R29). -/
def fairTurn (n : Nat) : Turn :=
  let code := n.unpair.1
  let x := (code / 36).unpair
  let y := x.2.unpair
  ((fairTurns x.1 y.1 y.2)[code % 36]?).getD (.elapse 1)

/-- The turn that comes next when the agenda is empty: every other one is open (log 1), and every other one is fair. -/
def nextTurn (n : Nat) : Turn := if n % 2 = 0 then Config.choice (n / 2) else fairTurn (n / 2)

/-! ### Placing an instruction (log 52) -/

/-- Where `placeWord` puts sequencer code: a page of the context's own. -/
def placedAt : Nat := 0x10000

/-- Region 0's sequencer about to execute the words of a coded instruction, in a context that is resident on its plane 0;
or a node of that plane that holds a fabric word. -/
def State.placeWord (s : State) (nbits w : Nat) : State :=
  let s := { s with powered := true, ctxs := Tab.put s.ctxs 0 { Ctx.blank with state := .resident } }
  if nbits ≤ 32 then
    let leaf := Leaf.make 0 3 false false 1 false 1 0b1111
    let v := { Seq.reset 0 with run := .running, priv := true, ip := BitVec.ofNat 64 placedAt, plane := some 0 }
    { s with
      planes := Tab.put s.planes 0 { Plane.empty with ctx := some 0 }
      seqs := Tab.put s.seqs 0 v
      agents := Tab.drop s.agents (Agent.seq 0).key
      tlbs := Tab.put s.tlbs (reqFetch 0) [{ ctx := 0, page := 1, leaf, bad := none }]
      mem := s.mem.poke 0 (keyed placedAt (leBytes 8 w))
      agenda := [.sequencer 0] }
  else
    let word : Word := BitVec.ofNat 64 w
    let slot := if isMemoryWord word then 256 else 0
    { s with
      planes := Tab.put s.planes 0 { Plane.empty with ctx := some 0, nodes := [(slot, Node.fresh word)] }
      agenda := [.node 0 0 slot] }

end Sys2Proof.Machine
end

