-- ==== Sys2Proof/Safety.lean ====
section
/-!
DEFINITION. The terms of the claims: safe runs, what an instruction leaves alone, and the values that the spec's tables
give, written from the tables and not from the meanings.
-/

namespace Sys2Proof.Machine

/-- A step that goes on. -/
def goesOn (o : Host.Outcome State Fault Refusal) : Prop := ∃ t, o = .next t

/-- The memory's bytes are in canonical form: keys rise, and none is listed that reads as an unlisted one. -/
def State.memOk (s : State) : Prop := s.mem.wf = true

/-- A set of states that the machine does not leave and in which it does not stop. -/
def SafeSet (P : State → Prop) : Prop := ∀ s, P s → ∃ t, step s = .next t ∧ P t

/-- Every byte of memory reads as before, for every agent. -/
def BytesStay (s t : State) : Prop := ∀ ag key, t.readByte ag key = s.readByte ag key

/-- Every byte outside n keys from a first one reads as before, for every agent. -/
def BytesStayBut (s t : State) (key n : Nat) : Prop :=
  ∀ ag k, ¬(key ≤ k ∧ k < key + n) → t.readByte ag k = s.readByte ag k

/-- The agents of Table 9-1: a sequencer, the block instance of a plane, the job of a scoreboard entry, a host thread. -/
def Agent.named : Agent → Prop
  | .seq q => q < 132
  | .block r p => r < 128 ∧ p < 4
  | .job r e => r < 128 ∧ e < 16
  | .host _ => True
  | .gone .. => False

/-- The coherence order of every byte, and every block's tag, are the same. -/
def OrderStays (s t : State) : Prop := t.mem.tags = s.mem.tags ∧ ∀ key, t.mem.coLast key = s.mem.coLast key

/-- From s to t the block instances or jobs that `left` names have ended: the coherence order stays, and every other agent
reads what it read (R222). -/
def Ended (s t : State) (left : Nat → Prop) : Prop :=
  OrderStays s t ∧ ∀ (ag : Agent) (key : Nat), ag.named → ¬left ag.key → t.readByte ag key = s.readByte ag key

/-- Two records of a sequencer that differ in nothing but its registers and its IP. -/
def SameButRegs (v w : Seq) : Prop := { w with ip := v.ip, user := v.user, bank := v.bank } = v

/-- The register bank that is not in force is the same (R382). -/
def OtherBankStays (v w : Seq) : Prop := if v.priv then w.user = v.user else w.bank = v.bank

/-- The instruction, executed by sequencer q in s, writes x to register d, moves the IP by n bytes and turns the rest of
the state into that of u, which holds q's registers as s does: no other register of either bank changes, nothing else of
the sequencer's record than in u, and no byte of memory. A write to s0 has no effect; d = 0 says that no register is
written. -/
def SeqGoesOn (i : Instr) (s u : State) (q : Nat) (d : SReg) (x : Word) (n : Nat) : Prop :=
  ∃ w : Seq,
    exec i s = .next (u.setSeq q w) ∧
    (∀ r, w.read r = if r = d ∧ d ≠ 0 then x else (s.seq q).read r) ∧
    w.ip = (s.seq q).ip + BitVec.ofNat 64 n ∧
    SameButRegs (u.seq q) w ∧ OtherBankStays (s.seq q) w ∧ BytesStay s (u.setSeq q w)

/-- The same where nothing changes but the register and the IP. -/
def SeqWrites (i : Instr) (s : State) (q : Nat) (d : SReg) (x : Word) (n : Nat) : Prop := SeqGoesOn i s s q d x n

/-- Sequencer q executes an instruction that names the registers l; none of them waits for a value, and no slice runs. -/
def Issues (s : State) (q : Nat) (l : List SReg) : Prop :=
  q < 132 ∧ s.actor = .sequencer q ∧ (s.seq q).allReady l = true ∧ (s.seq q).inSlice = false

/-- Sequencer q executes an instruction in privileged mode. -/
def IssuesPriv (s : State) (q : Nat) (l : List SReg) : Prop := Issues s q l ∧ (s.seq q).priv = true

/-- From s to t nothing changes but sequencer q's own record. -/
def OnlySeq (s t : State) (q : Nat) : Prop := t = s.setSeq q (t.seq q) ∧ BytesStay s t

/-- From s to t sequencer q's registers stay, of both banks, but for its IP. -/
def RegsStay (s t : State) (q : Nat) : Prop := (t.seq q).user = (s.seq q).user ∧ (t.seq q).bank = (s.seq q).bank

/-- From s to t one event is placed last in the queue of agent a, under the next identity; memory and every other
agent stay (R69, R225). -/
def Placed (s t : State) (a : Nat) (e : Ev) : Prop :=
  e.id = s.nextId ∧ t.nextId = s.nextId + 1 ∧ t.mem = s.mem ∧
    t.agent a = { s.agent a with q := (s.agent a).q ++ [e] } ∧ (∀ b, b ≠ a → t.agent b = s.agent b) ∧ BytesStay s t

/-- TakeTrap of R383 outside a handler: what sequencer q's registers hold afterwards. -/
def TrapRegs (s t : State) (q : Nat) (cause : Cause) (addr resume : Word) : Prop :=
  let v := s.seq q
  let w := t.seq q
  RegsStay s t q ∧ w.epc = BitVec.ofNat 64 (resume.toNat % 2 ^ 52) ∧ w.fltcause.toNat = cause.code.toNat ∧ w.fltaddr = addr ∧
    w.ip = v.tvec ∧ w.priv = true ∧ EStat.pmode w.estat = v.priv ∧ EStat.inh w.estat = true ∧
    (∀ i, 2 ≤ i → bitAt w.estat i = bitAt v.estat i)

/-- The trap, where nothing else of the machine changes. -/
def Trapped (s t : State) (q : Nat) (cause : Cause) (addr resume : Word) : Prop :=
  OnlySeq s t q ∧ TrapRegs s t q cause addr resume

/-- Table 2-14: the instructions marked P. -/
def markedP : Instr → Bool
  | .brate .. | .eret | .frzQ .. | .frzGo | .frzKill .. | .frzOn | .ftok .. | .save .. | .rest .. | .wpt .. | .tlbi ..
  | .halt => true
  | _ => false

/-- R335: the instructions that a slice may contain, ALU forms apart. -/
def sliceMay : Instr → Bool
  | .sld .. | .qpop .. | .qpush .. | .qstat .. | .bcc .. => true
  | _ => false

/-- Table 2-13: when each condition of `bcc` holds, of the values of its two registers or of its token. -/
def branchTaken (c : Cond) (x y token : Word) : Prop :=
  match c with
  | .eq => x = y
  | .ne => x ≠ y
  | .lt => x.toInt < y.toInt
  | .ge => y.toInt ≤ x.toInt
  | .ltu => x.toNat < y.toNat
  | .geu => y.toNat ≤ x.toNat
  | .al => True
  | .tpend => token = 0
  | .tdone => token = 1
  | .tflt => 2 ≤ token.toNat

/-- Table 13-5 with the cases of R338: the destination, the source registers and the value of an ALU instruction, from
what each register reads as. -/
def aluResult (i : Instr) (x : SReg → Word) : Option (SReg × List SReg × Word) :=
  let n (y : Word) : Nat := y.toNat % 64
  let u (v : Nat) : Word := BitVec.ofNat 64 v
  let z (v : Int) : Word := BitVec.ofInt 64 v
  let one (b : Bool) : Word := if b then 1 else 0
  match i with
  | .add d a b => some (d, [a, b], u ((x a).toNat + (x b).toNat))
  | .addi d a i => some (d, [a], z ((x a).toInt + i.toInt))
  | .sub d a b => some (d, [a, b], z ((x a).toInt - (x b).toInt))
  | .and d a b => some (d, [a, b], x a &&& x b)
  | .andi d a i => some (d, [a], x a &&& u i.toNat)
  | .or d a b => some (d, [a, b], x a ||| x b)
  | .ori d a i => some (d, [a], x a ||| u i.toNat)
  | .xor d a b => some (d, [a, b], x a ^^^ x b)
  | .xori d a i => some (d, [a], x a ^^^ u i.toNat)
  | .shl d a b => some (d, [a, b], u ((x a).toNat * 2 ^ n (x b)))
  | .shli d a i => some (d, [a], u ((x a).toNat * 2 ^ (i.toNat % 64)))
  | .shr d a b => some (d, [a, b], u ((x a).toNat / 2 ^ n (x b)))
  | .shri d a i => some (d, [a], u ((x a).toNat / 2 ^ (i.toNat % 64)))
  | .sra d a b => some (d, [a, b], z ((x a).toInt / (2 ^ n (x b) : Nat)))
  | .srai d a i => some (d, [a], z ((x a).toInt / (2 ^ (i.toNat % 64) : Nat)))
  | .mul d a b => some (d, [a, b], u ((x a).toNat * (x b).toNat))
  | .mulh d a b un =>
    some (d, [a, b], if un then u ((x a).toNat * (x b).toNat / 2 ^ 64) else z ((x a).toInt * (x b).toInt / 2 ^ 64))
  | .div d a b un =>
    some (d, [a, b],
      if x b = 0 then 0xFFFFFFFFFFFFFFFF
      else if un then u ((x a).toNat / (x b).toNat) else z ((x a).toInt.tdiv (x b).toInt))
  | .rem d a b un =>
    some (d, [a, b],
      if x b = 0 then x a
      else if un then u ((x a).toNat - (x b).toNat * ((x a).toNat / (x b).toNat))
      else z ((x a).toInt - (x b).toInt * (x a).toInt.tdiv (x b).toInt))
  | .slt d a b => some (d, [a, b], one (decide ((x a).toInt < (x b).toInt)))
  | .slti d a i => some (d, [a], one (decide ((x a).toInt < i.toInt)))
  | .sltu d a b => some (d, [a, b], one (decide ((x a).toNat < (x b).toNat)))
  | .lui d i => some (d, [], (BitVec.ofNat 32 (i.toNat * 2 ^ 13)).signExtend 64)
  | .min d a b un =>
    some (d, [a, b],
      if un then u (min (x a).toNat (x b).toNat) else z (min (x a).toInt (x b).toInt))
  | .max d a b un =>
    some (d, [a, b],
      if un then u (max (x a).toNat (x b).toNat) else z (max (x a).toInt (x b).toInt))
  | _ => none

/-! ### Nodes -/

/-- Node a takes its turn in s: it runs, in a plane that is neither frozen nor draining, behind no older node of its
port. -/
def NodeTurn (s : State) (a : At) : Prop :=
  (∃ r p, s.actor = .node r p a.slot ∧ a.plane = planeKey r p) ∧ a.region = regionOfSlot a.plane a.slot ∧
    a.pl = s.plane a.plane ∧ Tab.find? a.pl.nodes a.slot = some a.node ∧ a.pl.stopped = false ∧
    a.pl.elderOpen a.node = false ∧ a.pl.draining = false ∧ a.node.phase = .run

/-- Every target has room (R30). -/
def At.room (a : At) (f : Fields) : Prop := a.ready f 0 = true ∧ a.ready f 1 = true ∧ a.ready f 2 = true

/-- It meets data at every one of the inputs named (R93), and nothing of an earlier token is left to emit. -/
def NodeData (s : State) (a : At) (f : Fields) (ins : List Slot) : Prop :=
  NodeTurn s a ∧ a.accWaits = false ∧ a.node.pend = [] ∧ meets (a.heads (withPred f ins)) = .data

/-- The plane after node a has fired: the oldest token of the inputs `taken` is gone, each token of `outs` is the last of
its target, the node stands as n, and flags are raised (R93, R131, R81). -/
def At.fired (a : At) (f : Fields) (taken : List Slot) (outs : List (Nat × Token)) (n : Node) (fl : FFlags) : Plane :=
  let pl := outs.foldl (fun pl o => placeOut pl a.node a.slot f o.1 o.2) (takeSlots a.pl a.node a.slot taken)
  { pl with nodes := Tab.put a.pl.nodes a.slot n, flags := a.pl.flags ||| fl }

/-- The instruction fires: from u, which is s but for what the instruction does outside its plane, it goes to that plane,
and charges a stage's firing (R461); no byte of memory changes. -/
def NodeFires (i : Instr) (s u : State) (a : At) (f : Fields) (taken : List Slot) (outs : List (Nat × Token)) (n : Node)
    (fl : FFlags) : Prop :=
  let v := u.setPlane a.plane (a.fired f taken outs n fl)
  let t := if isMemorySlot a.slot then v else v.charge a.region 19
  exec i s = .next t ∧ BytesStay s t

/-- The token at the head of a named input. -/
def At.at (a : At) (f : Fields) (ins : List Slot) (o : Slot) : Token := headOf (a.heads (withPred f ins)) o

/-- The inputs, the predicate's with them, whose head a firing takes. -/
def At.moving (a : At) (f : Fields) (ins : List Slot) : List Slot := movingSlots (a.heads (withPred f ins))

/-- Lane k of a lane-by-lane instruction is live (R128). -/
def At.live (a : At) (f : Fields) (ins : List Slot) (k : Nat) : Bool :=
  predOk f (a.at f ins .p) k && ins.all fun o => (a.at f ins o).has k

/-- R128: a lane-by-lane instruction fires with, in each live lane, the value that g gives of the lane's operands, and the
flags of the live lanes. -/
def LaneFires (i : Instr) (s : State) (a : At) (f : Fields) (ins : List Slot) (g : (Slot → Lane) → Lane × FFlags) : Prop :=
  let r (k : Nat) : Lane × FFlags := g fun o => (a.at f ins o).at k
  let out := laneToken (a.at f ins .a) fun k => if a.live f ins k then some (r k).1 else none
  NodeFires i s s a f (a.moving f ins) [(0, out), (1, out)] (a.node.took (a.at f ins .a))
    (orFlags fun k => if a.live f ins k then (r k).2 else 0)

/-- Table 3-1: width and signedness of the types of the integer instructions. -/
def laneWidth (ty : ElemTy) : Nat := match ty with | .i16 | .u16 => 16 | .i8 | .u8 => 8 | _ => 32
def laneSigned (ty : ElemTy) : Bool := ty == .i32 || ty == .i16 || ty == .i8

/-- Wrap(v) of R127. -/
def wrapAs (ty : ElemTy) (v : Int) : Lane :=
  match ty with
  | .i16 => (BitVec.ofInt 16 v).signExtend 32
  | .u16 => (BitVec.ofInt 16 v).setWidth 32
  | .i8 => (BitVec.ofInt 8 v).signExtend 32
  | .u8 => (BitVec.ofInt 8 v).setWidth 32
  | _ => BitVec.ofInt 32 v

/-- Int(x) of R127. -/
def intOf (ty : ElemTy) (x : Lane) : Int :=
  match ty with
  | .i32 => x.toInt
  | .i16 => (x.setWidth 16).toInt
  | .u16 => (x.setWidth 16).toNat
  | .i8 => (x.setWidth 8).toInt
  | .u8 => (x.setWidth 8).toNat
  | _ => x.toNat

/-- The least and the greatest value of an integer type (Table 3-1). -/
def lowOf (ty : ElemTy) : Int := if laneSigned ty then -(2 ^ (laneWidth ty - 1) : Nat) else 0
def highOf (ty : ElemTy) : Int := if laneSigned ty then (2 ^ (laneWidth ty - 1) : Nat) - 1 else (2 ^ laneWidth ty : Nat) - 1

/-- Sat(v) of R127, as an integer. -/
def clampTo (ty : ElemTy) (v : Int) : Int := max (lowOf ty) (min (highOf ty) v)

/-- Imm of R127. -/
def immOf (f : Fields) : Int := intOf f.ty (wrapAs f.ty (if laneSigned f.ty then f.imm.toInt else f.imm.toNat))

/-- Tables 5-1 and 5-2, R136 to R138: fields, inputs and the value of a lane for the integer instructions. -/
def intLane (i : Instr) : Option (Fields × List Slot × ((Slot → Lane) → Lane)) :=
  let withB (f : Fields) : List Slot := if bitAt f.fn 5 then [.a] else [.a, .b]
  let opB (f : Fields) (v : Slot → Lane) : Int := if bitAt f.fn 5 then immOf f else intOf f.ty (v .b)
  let two (f : Fields) (g : Int → Int → Int) : Option (Fields × List Slot × ((Slot → Lane) → Lane)) :=
    some (f, withB f, fun v => wrapAs f.ty (g (intOf f.ty (v .a)) (opB f v)))
  let logic (f : Fields) (g : Lane → Lane → Lane) : Option (Fields × List Slot × ((Slot → Lane) → Lane)) :=
    two f fun a b => ((g (BitVec.ofInt 32 a) (BitVec.ofInt 32 b)).toNat : Int)
  let shift (f : Fields) (g : Nat → Nat → Nat → Int) : Option (Fields × List Slot × ((Slot → Lane) → Lane)) :=
    some (f, withB f, fun v =>
      let w := laneWidth f.ty
      wrapAs f.ty (g w ((v .a).toNat % 2 ^ w) (if bitAt f.fn 5 then f.imm.toNat else (v .b).toNat % 2 ^ w)))
  let pattern (f : Fields) (g : Nat → Nat → Nat) : Option (Fields × List Slot × ((Slot → Lane) → Lane)) :=
    some (f, [.a], fun v => wrapAs f.ty (g (laneWidth f.ty) ((v .a).toNat % 2 ^ laneWidth f.ty) : Nat))
  match i with
  | .fabAdd f => two f (· + ·)
  | .fabSub f => two f (· - ·)
  | .adds f => two f fun a b => clampTo f.ty (a + b)
  | .subs f => two f fun a b => clampTo f.ty (a - b)
  | .fabMul f => two f (· * ·)
  | .fabMulh f => two f fun a b => a * b / (2 ^ laneWidth f.ty : Nat)
  | .mad f =>
    some (f, if bitAt f.fn 5 then [.a, .c] else [.a, .b, .c],
      fun v => wrapAs f.ty (intOf f.ty (v .a) * opB f v + intOf f.ty (v .c)))
  | .fabAnd f => logic f (· &&& ·)
  | .fabOr f => logic f (· ||| ·)
  | .fabXor f => logic f (· ^^^ ·)
  | .andn f => logic f fun a b => a &&& ~~~b
  | .fabMin f => two f min
  | .fabMax f => two f max
  | .cmp f =>
    some (f, withB f, fun v =>
      let a := intOf f.ty (v .a)
      let b := opB f v
      let c : Bool :=
        match (bits f.fn 0 5).toNat with
        | 0 => decide (a = b) | 1 => decide (a ≠ b) | 2 => decide (a < b) | 3 => decide (a ≤ b) | 4 => decide (b < a)
        | _ => decide (b ≤ a)
      if c then 1 else 0)
  | .fabShl f => shift f fun w p n => if n < w then ((p * 2 ^ n : Nat) : Int) else 0
  | .fabShr f => shift f fun w p n => if n < w then ((p / 2 ^ n : Nat) : Int) else 0
  | .fabSra f => shift f fun w p n =>
    let x : Int := if p < 2 ^ (w - 1) then p else p - (2 ^ w : Nat)
    if n < w then x / (2 ^ n : Nat) else if x < 0 then -1 else 0
  | .clz f => pattern f fun w p => ((List.range w).takeWhile fun k => !p.testBit (w - 1 - k)).length
  | .popc f => pattern f fun w p => ((List.range w).filter fun k => p.testBit k).length
  | .brev f => pattern f fun w p => ((List.range w).map fun k => if p.testBit k then 2 ^ (w - 1 - k) else 0).sum
  | _ => none

/-- Round of R83 with the result flush of R82, for a value that has raised some flags. -/
def rounded (e : FpEnv) (t : Fmt) (rm : RMode) (v : Num × FFlags) : Lane × FFlags :=
  let r := resultFlush t e.rfl (roundNum t rm v.1)
  (r.1, r.2 ||| v.2)

/-- IV for a NaN that two numbers give (R153). -/
def invalid (x y z : Num) : FFlags := if !x.isNan && !y.isNan && z.isNan then Fl.iv else 0

/-- The real number that a finite value is. -/
def exactQ : Num → ℚ
  | .fin neg m e => (if neg then -1 else 1) * (m : ℚ) * (2 : ℚ) ^ e
  | _ => 0

/-- A real rounded to an integer (R83). -/
def roundRat (rm : RMode) (q : ℚ) : Int :=
  match rm with
  | .rz => if q < 0 then ⌈q⌉ else ⌊q⌋
  | .rd => ⌊q⌋
  | .ru => ⌈q⌉
  | .rne =>
    let rest := q - ⌊q⌋
    if rest < 1 / 2 ∨ rest = 1 / 2 ∧ ⌊q⌋ % 2 = 0 then ⌊q⌋ else ⌊q⌋ + 1

/-- p is below q, as extended reals; a NaN is below nothing. -/
def less : Num → Num → Bool
  | .nan, _ => false
  | _, .nan => false
  | .inf a, .inf b => a && !b
  | .inf a, .fin .. => a
  | .fin .., .inf b => !b
  | p, q => decide (exactQ p < exactQ q)

/-- The smaller or the larger of two values, with -0 below +0; a NaN gives way to the other (R158). -/
def smallerOf (larger : Bool) (p q : Num) : Num :=
  let under (u v : Num) : Bool := less u v || (u.isZero && v.isZero && u.isNeg && !v.isNeg)
  if p.isNan then q else if q.isNan then p
  else if larger then (if under p q then q else p) else (if under q p then q else p)

/-- Table 6-4: what `fcmp` writes, and IV. -/
def comparison (c : Nat) (p q : Num) : Lane × FFlags :=
  let holds : Bool :=
    if p.isNan || q.isNan then c == 1 || c == 6
    else match c with
      | 0 => !less p q && !less q p
      | 1 => less p q || less q p
      | 2 => less p q
      | 3 => !less q p
      | 4 => less q p
      | 5 => !less p q
      | 6 => false
      | _ => true
  (if holds then 1 else 0, if (p.isNan || q.isNan) && 2 ≤ c && c ≤ 5 then Fl.iv else 0)

/-- R160: bit w - 1 of the element rewritten. -/
def resigned (w fn : Nat) (x y : Lane) : Lane :=
  let sign : Bool :=
    match fn with
    | 0 => bitAt y (w - 1)
    | 1 => !bitAt y (w - 1)
    | 2 => bitAt x (w - 1) ^^ bitAt y (w - 1)
    | 3 => false
    | _ => !bitAt x (w - 1)
  let top : Lane := 1 <<< (w - 1)
  (x &&& (top - 1)) ||| (if sign then top else 0)

/-- R162: a value rounded to an integral one, its sign kept. -/
def integral (rm : RMode) (p : Num) : Num :=
  match p with
  | .fin neg m _ => if m = 0 then p else .fin neg (roundRat rm (exactQ p)).natAbs 0
  | _ => p

/-- R172: `cvt`, from its pseudocode. -/
def converted (e : FpEnv) (rm : RMode) (sat : Bool) (src dst : ElemTy) (x : Lane) : Lane × FFlags :=
  let n := intOf src x
  if ElemTy.isInt src && ElemTy.isInt dst then (wrapAs dst (if sat then clampTo dst n else n), 0)
  else
    let p : Num :=
      if ElemTy.isInt src then .fin (decide (n < 0)) n.natAbs 0
      else if src = .e8m0 then
        if x.toNat % 256 = 255 then .nan else .fin false 1 ((x.toNat % 256 : Nat) - 127)
      else match ElemTy.fmt? src with
        | some t => e.value t x
        | none => .nan
    match ElemTy.fmt? dst, p with
    | none, .nan => (0, Fl.iv)
    | none, .inf neg => (wrapAs dst (if neg then lowOf dst else highOf dst), Fl.iv)
    | none, _ =>
      let y := roundRat rm (exactQ p)
      (wrapAs dst (clampTo dst y), if clampTo dst y ≠ y then Fl.iv else if (y : ℚ) = exactQ p then 0 else Fl.ix)
    | some t, _ =>
      let most : Lane := t.signed p.isNeg t.maxCode
      let y := if sat && p.isInf then (most, 0) else roundNum t rm p
      resultFlush t e.rfl (if sat && (t.decode y.1).isInf then (most, y.2) else y)

/-- R156 to R172 and Tables 6-1, 7-1: fields, inputs and the value and flags of a lane for the floating-point instructions,
the conversions and `tmenu`. A is the operand at slot a as a value, flushed under SFL. The estimates and functions of R163 to R167
and the codebook instructions take the model's own functions of one lane (log 54). -/
def floatLane (i : Instr) (a : At) : Option (Fields × List Slot × ((Slot → Lane) → Lane × FFlags)) :=
  let e := a.env
  let ty (f : Fields) : Fmt := (ElemTy.fmt? f.ty).getD fp32
  let rm (f : Fields) : RMode := e.select (bits f.fn 0 3)
  let withB (f : Fields) : List Slot := if bitAt f.fn 5 then [.a] else [.a, .b]
  let x (f : Fields) (v : Slot → Lane) (o : Slot) : Num := e.value (ty f) (v o)
  let y (f : Fields) (v : Slot → Lane) : Num := if bitAt f.fn 5 then e.value bf16 (f.imm.setWidth 32) else x f v .b
  let two (f : Fields) (g : Num → Num → Num) : Option (Fields × List Slot × ((Slot → Lane) → Lane × FFlags)) :=
    some (f, withB f, fun v =>
      let z := g (x f v .a) (y f v)
      rounded e (ty f) (rm f) (z, invalid (x f v .a) (y f v) z))
  let one (f : Fields) (g : Num → Lane × FFlags) : Option (Fields × List Slot × ((Slot → Lane) → Lane × FFlags)) :=
    some (f, [.a], fun v => resultFlush fp32 e.rfl (g (e.value fp32 (v .a))))
  match i with
  | .fadd f => two f fun p q => Num.add (rm f) p q
  | .fsub f => two f fun p q => Num.add (rm f) p q.negate
  | .fmul f => two f Num.mul
  | .fma f =>
    some (f, if bitAt f.fn 5 then [.a, .c] else [.a, .b, .c], fun v =>
      let p := Num.mul (x f v .a) (y f v)
      let p' := if bitAt f.fn 4 then p.negate else p
      let c := if bitAt f.fn 3 then (x f v .c).negate else x f v .c
      let z := Num.add (rm f) p' c
      rounded e (ty f) (rm f) (z, invalid (x f v .a) (y f v) p ||| invalid p' c z))
  | .fmin f => some (f, withB f, fun v => rounded e (ty f) e.rm (smallerOf false (x f v .a) (y f v), 0))
  | .fmax f => some (f, withB f, fun v => rounded e (ty f) e.rm (smallerOf true (x f v .a) (y f v), 0))
  | .fcmp f => some (f, withB f, fun v => comparison (bits f.fn 0 3).toNat (x f v .a) (y f v))
  | .fsgn f =>
    some (f, if f.fn.toNat ≤ 2 then [.a, .b] else [.a], fun v => (resigned (ty f).width f.fn.toNat (v .a) (v .b), 0))
  | .frcp f => one f frcpValue
  | .frsq f => one f frsqValue
  | .fex2 f => one f fex2Value
  | .flg2 f => one f flg2Value
  | .ftnh f => one f ftnhValue
  | .fref f => some (f, [.a, .b], fun v => frefValue e (rm f) (bitAt f.fn 3) (v .a) (v .b))
  | .fcls f =>
    some (f, [.a], fun v =>
      let k := classOf (ty f) (v .a)
      (if f.fn = 0 then BitVec.ofNat 32 (2 ^ k) else if bitAt f.imm k then 1 else 0, 0))
  | .frnd f => some (f, [.a], fun v => ((roundNum (ty f) (rm f) (integral (rm f) (x f v .a))).1, 0))
  | .cvt f => some (f, [.a], fun v => converted e (rm f) (bitAt f.fn 3) (sourceTy f) f.ty (v .a))
  | .cbx f =>
    some (f, [.a], fun v =>
      ((roundNum (ty f) .rne (codebookValue e (a.codebook f) ((v .a).toNat % 16))).1, 0))
  | .cbq f => some (f, [.a], fun v => nearestCode e (a.codebook f) (e.value ((ElemTy.fmt? (sourceTy f)).getD fp32) (v .a)))
  | .tmenu f =>
    some (f, [.a], fun v =>
      let m := match a.inst with | some z => vget z.snap.menus (bits f.imm 0 2).toNat (0, 0) | none => (0, 0)
      let n : Int := if f.ty = .i32 then max 0 (v .a).toInt else (v .a).toNat
      let t (k : Nat) : Int := (bits m.1 (16 * k) 16).toNat
      let k := if n ≤ t 0 then 0 else if n ≤ t 1 then 1 else if n ≤ t 2 then 2 else 3
      ((bits m.2 (16 * k) 16).setWidth 32, 0))
  | .sclx f =>
    if bits f.fn 3 2 = 0 then
      some (f, [.a], fun v => rounded e (ty f) (rm f) ((x f v .a).scale f.imm.toInt, 0))
    else if bits f.fn 3 2 = 1 then
      some (f, [.a, .b], fun v => rounded e (ty f) (rm f) ((x f v .a).scale (v .b).toInt, 0))
    else if bits f.fn 3 2 = 2 then
      some (f, [.a, .b], fun v =>
        rounded e (ty f) (rm f) (if bits (v .b) 0 8 = 0xFF then .nan
          else (x f v .a).scale (((bits (v .b) 0 8).toNat : Int) - 127), 0))
    else none
  | _ => none

/-! ### Memory nodes -/

/-- Memory node a takes its next token of data: none of its is on its way, its square processes fewer than 32 (R195), no word of
`cfgw` waits for it, and its block's predecessor has committed. -/
def MemTurn (s : State) (a : At) (f : Fields) (ins : List Slot) : Prop :=
  NodeTurn s a ∧ a.ahead = false ∧ a.node.config = none ∧ a.node.cur = none ∧ a.node.wait = [] ∧ a.node.fly = [] ∧
    a.load s < 32 ∧ meets (a.heads (withPred f ins)) = .data

/-- It takes the token and places one event e of some bytes at va, translated to p, last in its agent's queue; nothing else
of memory or of another agent changes, and the token is the flight c: on its way, or still in work where its value has to
return first. -/
def MemPlaces (i : Instr) (s : State) (a : At) (f : Fields) (ins : List Slot) (p : Phys) (va : Nat) (cells : List CellAt)
    (inWork : Bool) (ok : Ev → Flight → Prop) : Prop :=
  ∃ t e c m, exec i s = .next t ∧ t.mem = s.mem ∧ BytesStay s t ∧ (∀ b, b ≠ a.agent → t.agent b = s.agent b) ∧
    (t.agent a.agent).q.getLast? = some e ∧ (t.agent a.agent).q.length = (s.agent a.agent).q.length + 1 ∧
    e.id = s.nextId + 1 ∧ e.va = va ∧ e.slot = a.slot ∧ e.ctx = a.ctx ∧ e.seqNo = seqOf f ∧ e.parked = false ∧
    e.pieces = cells.map (fun x => { key := p.key + x.off, value := x.value, mask := x.mask }) ∧
    e.ord = Leaf.ord p.leaf ∧ Tab.find? (t.plane a.plane).nodes a.slot = some m ∧
    (if inWork then m.cur = some c ∧ m.fly = [] else m.cur = none ∧ m.fly = [c]) ∧ c.id = s.nextId ∧ c.fault = none ∧
    (t.plane a.plane).links = (takeSlots a.pl a.node a.slot (a.moving f ins)).links ∧ ok e c

/-- Its access reaches p. -/
def At.reaches (a : At) (s : State) (va : Nat) (use : Use) (p : Phys) : Prop :=
  s.translate a.req (a.region / 32) a.region a.ctx va use = .ok p

/-- Lane k is the only live one, or the lowest. -/
def onlyLane (g : Nat → Bool) (k : Nat) : Prop := k < 16 ∧ ∀ j, j < 16 → g j = decide (j = k)
def lowestLane (g : Nat → Bool) (k : Nat) : Prop := k < 16 ∧ g k = true ∧ ∀ j, j < k → g j = false

/-- The node of a placed instance has faulted: the plane is frozen and the fault registers of its context name the cause and
the position (R386, R387). -/
def NodeFaults (i : Instr) (s : State) (a : At) (cause : Cause) (pos : Nat) : Prop :=
  ∃ t, exec i s = .next t ∧ (t.plane a.plane).frozen = .fault ∧ BytesStay s t ∧
    let v := t.sysOf a.plane
    v.fltcause.toNat = cause.code.toNat ∧ bits v.fltpos 0 48 = BitVec.ofNat 48 pos ∧
      bits v.fltpos 54 2 = BitVec.ofNat 2 (a.plane % 4) ∧ bits v.fltpos 56 7 = BitVec.ofNat 7 a.node.index ∧
      bitAt v.fltpos 63 = true

/-! ### Block checks -/

/-- A square whose pool a block's links into it exceed, at x and y (R53, R31). -/
def squareFull (s : State) (k : Nat) (img : Image) (x y : Nat) : Prop :=
  let links := blockLinks img.words
  let slots := blockSlots img.head img.words img.place
  ∃ l ∈ links, ∃ d, slots[l.dst]? = some d ∧ squareXY (regionOfSlot k (squareOf d)) (squareOf d) = (x, y) ∧
    poolSize (squareOf d) < s.otherReservations k (squareOf d) +
      ((links.filter fun m => (slots[m.dst]?).map squareOf = some (squareOf d)).map fun m => slotsOfCode m.depth).sum

/-- The slots that a block's links demand (R53). -/
def Image.demand (img : Image) : Nat := ((blockLinks img.words).map fun l => slotsOfCode l.depth).sum

/-- Tables 2-11 and 2-15: the block fails at header level with the cause of code c, for a launch in plane k. -/
def headerFault (s : State) (k : Nat) (user : Bool) (img : Image) (c : Nat) : Prop :=
  let h := img.head
  let uses (lo hi : Nat) : Prop := ∃ w ∈ img.words, lo ≤ fabricOpc w ∧ fabricOpc w ≤ hi
  let count (o : Nat) : Nat := (img.words.filter fun w => fabricOpc w = o).length
  (c = 1 ∧ Head128.hver h ≠ 0xA) ∨
  (c = 2 ∧ (Head128.reserved h = true ∨ ¬(Head128.memn h = true ↔ uses 0x80 0x9F) ∨
    ¬(Head128.bap h = true ↔ uses 0xA0 0xA1) ∨ ¬(Head128.strg h = true ↔ uses 0xB0 0xBF) ∨
    (Head128.ras h = true ∧ ∀ a sl, img.slice = some (a, sl) → sliceOk (sl.length + 1) sl = false))) ∨
  (c = 3 ∧ (8 < Head128.nin h ∨ 8 < Head128.nout h ∨ Head128.nin h ≠ count 1 ∨ Head128.nout h ≠ count 2)) ∨
  (c = 4 ∧ (1 < Head128.shape h ∨ (Head128.shape h = 1 ∧ (k / 4 % 2 = 1 ∨
    s.partitionOf (k / 4) ≠ s.partitionOf (k / 4 + 1) ∨ ∃ x, (s.plane (k + 4)).ctx = some x ∧ (s.plane k).ctx ≠ some x)))) ∨
  (c = 5 ∧ (4 * Head128.pool h < img.demand ∨ ∃ x y, squareFull s k img x y)) ∨
  (c = 14 ∧ Head128.priv h = true ∧ user = true)

/-- The target fields of a word (R43). -/
def targetFields (w : Word) : List (BitVec 11) :=
  [bits w 35 11, bits w 24 11] ++ if fabricOpc w = 0x03 then [bits w 0 11] else []

/-- Tables 2-11 and 2-15: the block fails at instruction i with the cause of code c. -/
def nodeFault (img : Image) (i c : Nat) : Prop :=
  let word (j : Nat) : Word := (img.words[j]?).getD 0
  let legal (j : Nat) : Bool := placeOk (word j) ((img.place[j]?).getD 0)
  let links := blockLinks img.words
  let slot (j : Nat) : Nat := ((blockSlots img.head img.words img.place)[j]?).getD 0
  let w := word i
  let opc (j : Nat) : Nat := fabricOpc (word j)
  let again : Prop := soleName w ≠ none ∧ ∃ j, j < i ∧ soleName (word j) = soleName w
  let tree (t : BitVec 11) : Prop := ∃ j o, decodeTarget t = some (.operand j o) ∧ j.toNat ≠ i ∧ opc j.toNat = 0x92
  let square (j : Nat) : Prop := isMemoryWord (word j) = false ∧ legal j = true
  i < img.words.length ∧
  ((∃ x, fabricCause w = some x ∧ x.code.toNat = c) ∨
  (c = 3 ∧ opc i ≤ 2 ∧ again) ∨
  (c = 7 ∧ hasSeqNo w = true ∧ ((img.words.filter hasSeqNo).length ≤ seqNoOf w ∨
    ∃ j, j < i ∧ hasSeqNo (word j) = true ∧ seqNoOf (word j) = seqNoOf w)) ∨
  (c = 8 ∧ ((∃ t ∈ targetFields w, ∃ j o, decodeTarget t = some (.operand j o) ∧ img.words.length ≤ j.toNat) ∨
    (opc i = 0x92 ∧ bits (wordFn w) 3 2 = 0 ∧ ∃ t ∈ targetFields w, (∃ j o, decodeTarget t = some (.operand j o)) ∧ ¬tree t) ∨
    (2 < opc i ∧ again) ∨ (∃ r, accOwned w = [r, r]) ∨ ∃ r ∈ accOwned w, ∃ j, j < i ∧ r ∈ accOwned (word j))) ∨
  (c = 9 ∧ ((∃ o ∈ [Slot.a, .b, .p, .c],
      (links.filter fun l => l.dst = i && l.opd == o).length ≠ if o ∈ wordInputs w then 1 else 0) ∨
    (opc i = 0x05 ∧ wordFn w = 2 ∧ ∃ l ∈ links, l.dst = i ∧ l.opd = .a ∧ opc l.src ≠ 0x05))) ∨
  (c = 11 ∧ legal i = false) ∨
  (c = 12 ∧ legal i = true ∧ ∃ j, j < i ∧ legal j = true ∧ slot j = slot i) ∨
  (c = 13 ∧ ∃ l ∈ links, l.src = i ∧ l.depth = 0 ∧
    (¬(square i ∧ square l.dst ∧ squareOf (slot i) = squareOf (slot l.dst) ∧ slot l.dst = slot i + 1) ∨
      i ∈ reachFrom links img.words.length [l.dst])))

/-! ### The host's commands -/

/-- Table 16-5: CMD of each command. -/
def commandCode : Instr → Option Nat
  | .createVd => some 1 | .destroyVd => some 2 | .pause => some 3 | .resume => some 4 | .evict => some 5
  | .restore => some 6 | .setShare => some 7 | .mapWindow => some 8 | .query => some 9 | .attest => some 10
  | _ => none

/-- Table 16-5: the states of the named virtual device in which each command is allowed. -/
def allowedIn (c : Nat) : List VdState :=
  match c with
  | 2 => [.running, .paused, .evicted]
  | 3 => [.running]
  | 4 => [.paused]
  | 5 | 8 => [.running, .paused]
  | 6 => [.evicted]
  | 7 => [.paused, .evicted]
  | _ => []

/-- R415: what a packet leaves unused, and every operand that its command does not take (Table 16-5), is zero. -/
def Packet.unusedZero (p : Packet) : Bool :=
  let takes (l : List Nat) : Bool := l.contains p.cmd
  !p.bad && (!takes [1] || p.handle == 0) && (takes [1, 6, 7, 8, 9] || p.arg0 == 0) &&
    (takes [1, 6, 7, 8] || p.arg1 == 0) && (takes [1, 8] || p.arg2 == 0) &&
    (takes [1, 10] || (p.buf == 0 && p.buflen == 0))

/-- The Arbiter's next command has code c, keeps to R415, and names a virtual device that its policy and its state let it
act on (R416). -/
def Commands (s : State) (p : Packet) (c k : Nat) (v : Vd) : Prop :=
  s.packet = some p ∧ p.cmd = c ∧ p.unusedZero = true ∧ s.vdOf p.handle = some (k, v) ∧ bitAt v.cmdmask c = true ∧
    v.state ∈ allowedIn c

/-- R414: t is at the command p still, whatever host memory then holds. -/
def State.keeps (t : State) (p : Packet) : Prop := ∀ m : Memory, ({ t with mem := m } : State).packet = some p

/-- R414, Table 16-4: the command has turned s into u, and completes: its entry goes to the completion ring, and CPTAIL and
CRHEAD advance modulo 2^16; nothing else changes. -/
def Ends (i : Instr) (s u : State) (p : Packet) (status : Nat) (result : Word) : Prop :=
  let h := u.host
  let next (x : Word) : Word := (bits x 0 16 + 1).setWidth 64
  ∃ entry : List Byte,
    exec i s = .next { u with
      mem := u.mem.poke u.nextId (keyed (hostStart + h.cpbase.toNat + 16 * (h.cptail.toNat % h.ringSize)) entry)
      nextId := u.nextId + 1
      host := { h with cptail := next h.cptail, crhead := next h.crhead, command := none } } ∧
    entry.length = 16 ∧ leNat (entry.take 2) = p.tag ∧ entry[2]? = some (BitVec.ofNat 8 status) ∧
    (entry.drop 3).take 5 = List.replicate 5 0 ∧ leNat (entry.drop 8) = if status = 0 then result.toNat else 0

/-- M-square SRAM and weight SRAM of some regions read zero (R419, R420). -/
def SramZero (s : State) (regions : List Nat) : Prop := ∀ key, inSram regions key = true → s.mem.coLast key = 0

/-- The module right after a reset (R464): but for host memory (log 103), the generation of the handles (log 93), and the
model's own fields, the state is that of reset; a powered one has trained its CXL port 0, or BOOTST.ERR is 3 (Table 23-4, step 2;
which of the two is open, log 101). -/
def FreshModule (s t : State) (powered : Bool) : Prop :=
  t = { State.reset with
    mem := t.mem, powered, vdGen := s.vdGen, agenda := s.agenda, actor := s.actor, turns := s.turns, frees := t.frees
    nextId := s.nextId, host := { HostRegs.reset with bootst := t.host.bootst } } ∧
  (t.host.bootst = 0 ∨ (powered = true ∧ t.host.bootst = 0x30)) ∧
  t.mem.recent = [] ∧ t.mem.tags = [] ∧ (∀ c ∈ t.mem.cells, hostStart ≤ c.1 ∧ c.1 < hostStart + 2 ^ 64) ∧
  (s.mem.wf = true → s.mem.recent = [] → ∀ k, hostStart ≤ k → k < hostStart + 2 ^ 64 → t.mem.coLast k = s.mem.coLast k)

end Sys2Proof.Machine
end

