-- ==== Sys2Proof/Certificates/Slice0/Obligations.lean ====
section
/-! DEFINITION. The statements for the provers: the rules of the spec, as claims about the machine. -/

open Sys2Proof Sys2Proof.Machine

/-- R337, R338: each of the 25 ALU instructions writes to its destination what Table 13-5 gives, and nothing else. -/
def Obligations.AluResults : Prop :=
  ∀ (i : Instr) (s : State) (q : Nat) (d : SReg) (l : List SReg) (y : Word),
    aluResult i (s.seq q).read = some (d, l, y) → s.actor = .sequencer q → (s.seq q).allReady (d :: l) = true →
      SeqWrites i s q d y 4

/-- R383: a trap outside a handler saves the resume address and the mode, inhibits further traps, enters privileged mode
at TVEC and records cause and address; inside a handler the sequencer halts, its registers as they are, and sends one
DOUBLE token with the cause in FLTAUX.

R385: `trap n` takes SVC with address n and resumes after itself; `eret` returns to EPC in the mode that ESTAT.PMODE
saved, on a root core in privileged mode (R382), and clears INH; neither changes a register of either bank. -/
def Obligations.TrapsAndReturns : Prop :=
  (∀ (s : State) (q : Nat) (cause : Cause) (addr resume : Word),
      let t := s.takeTrap q cause addr resume
      let up := ftokTarget q
      (EStat.inh (s.seq q).estat = false → Trapped s t q cause addr resume) ∧
      (EStat.inh (s.seq q).estat = true →
        (t.seq q).run = .halted ∧ RegsStay s t q ∧ (t.seq q).ip = (s.seq q).ip ∧ (t.seq q).priv = (s.seq q).priv ∧
          (t.seq q).estat = (s.seq q).estat ∧ (∀ j, j ≠ q → j ≠ up → t.seq j = s.seq j) ∧ BytesStay s t ∧
          ∃ tok : List Word, (t.seq up).ftoks = (s.seq up).ftoks ++ [tok] ∧ tok.length = 8 ∧
            (tok.getD 0 0).toNat % 256 = 0x2E ∧ tok.getD 4 0 = cause.code.setWidth 64)) ∧
  (∀ (s : State) (q : Nat),
      (∀ n : BitVec 19, Issues s q [] → EStat.inh (s.seq q).estat = false →
        ∃ t, exec (.trap n) s = .next t ∧ Trapped s t q .svc (n.setWidth 64) ((s.seq q).ip + 4)) ∧
      (IssuesPriv s q [] →
        ∃ t, exec .eret s = .next t ∧ OnlySeq s t q ∧ RegsStay s t q ∧ (t.seq q).ip = (s.seq q).epc ∧
          ((t.seq q).priv = true ↔ 128 ≤ q ∨ EStat.pmode (s.seq q).estat = true) ∧ EStat.inh (t.seq q).estat = false ∧
          (∀ i, i ≠ 1 → bitAt (t.seq q).estat i = bitAt (s.seq q).estat i)))

/-- R339, R330: `sld` places one plain read of the 8 bytes at sA + imm, little-endian, whose value goes to sD; sD is
outstanding until then, and every other register, memory and every other agent stay.

R339: `sst` places one plain write of sD's 8 bytes, lowest byte first, at the address sA + imm; memory reads as before
until the write commits, and no register changes.

R339, R349: an address of 2^52 or more raises VARANGE and one that is no multiple of 8 ALIGN, both precise at the
instruction, with the address; the instruction then makes no access and leaves every register. So does an address whose
translation faults (R197 to R201; which fault that is, `WalksAndCopies` says). -/
def Obligations.LoadsAndStores : Prop :=
  (∀ (s : State) (q : Nat) (d a : SReg) (i : BitVec 14) (p : Phys),
      q < 132 → s.actor = .sequencer q → (s.seq q).allReady [d, a] = true → s.loadsHeld q < 8 →
      s.reach q (reqLoad q) ((s.seq q).read a + i.signExtend 64) 8 .read = .to p →
        ∃ t e, exec (.sld d a i) s = .next t ∧ Placed s t q e ∧ e.kind = .read ∧ e.tagRead = false ∧
          e.va = ((s.seq q).read a + i.signExtend 64).toNat ∧ e.pieces.map Piece.key = keysFrom p.key 8 ∧
          e.ord = Leaf.ord p.leaf ∧ e.acq = false ∧ e.dest = .sreg q (s.seq q).priv d false ∧
          (d ≠ 0 → (t.seq q).outstanding d = true) ∧ (∀ r, r ≠ d → (t.seq q).outstanding r = (s.seq q).outstanding r) ∧
          RegsStay s t q ∧ (t.seq q).ip = (s.seq q).ip + 4 ∧ (∀ j, j ≠ q → t.seq j = s.seq j)) ∧
  (∀ (s : State) (q : Nat) (d a : SReg) (i : BitVec 14) (p : Phys),
      Issues s q [d, a] → s.storesHeld q < 16 →
      s.reach q (reqLoad q) ((s.seq q).read a + i.signExtend 64) 8 .write = .to p →
      s.seqHit q ((s.seq q).read a + i.signExtend 64) 8 = none →
        ∃ t e, exec (.sst d a i) s = .next t ∧ Placed s t q e ∧ e.kind = .write ∧
          e.va = ((s.seq q).read a + i.signExtend 64).toNat ∧ e.pieces.map Piece.key = keysFrom p.key 8 ∧
          e.pieces.map Piece.value = leBytes 8 ((s.seq q).read d).toNat ∧ (∀ x ∈ e.pieces, x.mask = 0xFF) ∧
          e.ord = Leaf.ord p.leaf ∧ e.rel = false ∧
          RegsStay s t q ∧ (t.seq q).ip = (s.seq q).ip + 4 ∧ (∀ j, j ≠ q → t.seq j = s.seq j)) ∧
  (∀ (s : State) (q : Nat) (d a : SReg) (i : BitVec 14) (j : Instr),
      (j = .sld d a i ∧ s.loadsHeld q < 8 ∨ j = .sst d a i ∧ s.storesHeld q < 16) → Issues s q [d, a] →
      EStat.inh (s.seq q).estat = false →
        let va := (s.seq q).read a + i.signExtend 64
        (2 ^ 52 ≤ va.toNat → ∃ t, exec j s = .next t ∧ Trapped s t q .varange va (s.seq q).ip) ∧
        (va.toNat < 2 ^ 52 → va.toNat % 8 ≠ 0 → ∃ t, exec j s = .next t ∧ Trapped s t q .align va (s.seq q).ip) ∧
        (∀ (use : Use) (x : Cause), use = (if j = .sld d a i then .read else .write) → va.toNat < 2 ^ 52 → va.toNat % 8 = 0 →
          s.seqTranslate q (reqLoad q) va.toNat use = .fault x →
            ∃ t, exec j s = .next t ∧ TrapRegs s t q x va (s.seq q).ip ∧ BytesStay s t ∧ t.agents = s.agents ∧
              t.planes = s.planes ∧ ∀ r, r ≠ q → t.seq r = s.seq r))

/-- R345: `jal` and `jalr` write IP + 4 to sD and go to their target, `jalr` reading sA first; a target that is no multiple
of 4 raises ALIGN with the target as its address and leaves sD.

R344, R63, R331: `bcc` goes to IP + 4 × offset when its condition holds and to IP + 8 otherwise; a token condition
reads an armed register as 0 and does not wait; nothing but the IP changes. -/
def Obligations.BranchesAndJumps : Prop :=
  (∀ (s : State) (q : Nat) (d a : SReg) (off : BitVec 19) (i : BitVec 14) (j : Instr) (target : Word),
      (j = .jal d off ∧ target = (s.seq q).ip + 4 * off.signExtend 64 ∨
        j = .jalr d a i ∧ target = (s.seq q).read a + i.signExtend 64) → Issues s q [d, a] →
        (target.toNat % 4 = 0 →
          ∃ w : Seq, exec j s = .next (s.setSeq q w) ∧ w.ip = target ∧
            (∀ r, w.read r = if r = d ∧ d ≠ 0 then (s.seq q).ip + 4 else (s.seq q).read r) ∧
            SameButRegs (s.seq q) w ∧ OtherBankStays (s.seq q) w ∧ BytesStay s (s.setSeq q w)) ∧
        (target.toNat % 4 ≠ 0 → EStat.inh (s.seq q).estat = false →
          ∃ t, exec j s = .next t ∧ Trapped s t q .align target (s.seq q).ip)) ∧
  (∀ (s : State) (q : Nat) (c : Cond) (off : BitVec 19) (a b : SReg) (token : Word),
      s.actor = .sequencer q → (c.isCompare = true → (s.seq q).allReady [a, b] = true) →
      ((s.seq q).inSlice = true → branchTaken c ((s.seq q).read a) ((s.seq q).read b) token →
        sliceTargetOk (s.seq q) ((s.seq q).ip + 4 * off.signExtend 64) = true) →
      (c.isCompare = false → (s.seq q).outstanding a = false) →
      ((s.seq q).armed a = true → token = 0) → ((s.seq q).armed a = false → token = (s.seq q).read a) →
        ∃ w : Seq, exec (.bcc c off a b) s = .next (s.setSeq q w) ∧ w = { s.seq q with ip := w.ip } ∧
          BytesStay s (s.setSeq q w) ∧
          (branchTaken c ((s.seq q).read a) ((s.seq q).read b) token → w.ip = (s.seq q).ip + 4 * off.signExtend 64) ∧
          (¬branchTaken c ((s.seq q).read a) ((s.seq q).read b) token → w.ip = (s.seq q).ip + 8))

/-- R65, R66: an instruction marked P raises PRIV in user mode, and `cfgw` ILLOP on a region's sequencer in any mode.

R335: in a slice every instruction raises SLICEOP that a slice may not contain, if it raises no fault of R65 and R66
first, and so does a `bcc` whose taken target the slice does not allow. -/
def Obligations.WhoMayExecute : Prop :=
  (∀ (i : Instr) (s : State) (q : Nat), s.actor = .sequencer q → EStat.inh (s.seq q).estat = false →
      (markedP i = true → (s.seq q).priv = false →
        ∃ t, exec i s = .next t ∧ Trapped s t q .priv 0 (s.seq q).ip) ∧
      (q < 128 → ∀ a b, ∃ t, exec (.cfgw a b) s = .next t ∧ Trapped s t q .illop 0 (s.seq q).ip)) ∧
  (∀ (i : Instr) (s : State) (q : Nat), s.actor = .sequencer q → (s.seq q).inSlice = true →
      EStat.inh (s.seq q).estat = false →
      (∃ w, encodeSeq i = some w) →
        (sliceMay i = false → (aluResult i fun _ => 0) = none → (∀ a b, i ≠ .cfgw a b) →
          (∀ d r, i ≠ .sysr d r) → (∀ r a, i ≠ .sysw r a) → (markedP i = true → (s.seq q).priv = true) →
            ∃ t, exec i s = .next t ∧ Trapped s t q .sliceop (s.seq q).ip (s.seq q).ip) ∧
        (∀ c off a b token, i = .bcc c off a b → (c.isCompare = true → (s.seq q).allReady [a, b] = true) →
          (c.isCompare = false → (s.seq q).outstanding a = false) →
          ((s.seq q).armed a = true → token = 0) → ((s.seq q).armed a = false → token = (s.seq q).read a) →
          branchTaken c ((s.seq q).read a) ((s.seq q).read b) token →
          sliceTargetOk (s.seq q) ((s.seq q).ip + 4 * off.signExtend 64) = false →
            ∃ t, exec i s = .next t ∧ Trapped s t q .sliceop (s.seq q).ip (s.seq q).ip))

/-- R341: `qpop` writes lane L of the side's head token to sD, sign-extended with .sx and zero-extended without, and
removes the token with .p; nothing else changes.

R342: `qpush` puts sA[31:0] into lane L of the port's staging token and marks the lane valid; with .p it pushes the
token, or the marker that the selector names, and clears the staging token.

R343, Table 13-6: `qstat` writes the port's state to sD and changes nothing else.

R334: an access to a side that the rule does not allow raises QPORT and changes no register, port or memory. -/
def Obligations.PortInstructions : Prop :=
  (∀ (s : State) (q k : Nat) (d : SReg) (p : QReg) (lane : BitVec 4) (pop x sx : Bool) (tok : Token) (rest : List Token),
      q < 128 → s.actor = .sequencer q → s.planeOf q = some k → (s.seq q).ready d = true →
      s.portOk (s.side q p.toNat x) k p.toNat x false x = true → (s.side q p.toNat x).toks = tok :: rest →
        let l := vget tok.payload lane.toNat 0
        SeqGoesOn (.qpop d p lane pop x sx) s
          (if pop then s.setSide q p.toNat x { s.side q p.toNat x with toks := rest } else s)
          q d (if sx then l.signExtend 64 else l.setWidth 64) 4) ∧
  (∀ (s : State) (q k : Nat) (a : SReg) (p : QReg) (lane : BitVec 4) (push x : Bool) (mk : PushMark),
      q < 128 → s.actor = .sequencer q → s.planeOf q = some k → (s.seq q).ready a = true →
      s.portOk (s.side q p.toNat (!x)) k p.toNat x true (!x) = true →
      (push = true → (s.side q p.toNat (!x)).toks.length < 16) →
        let old := vget (s.seq q).staging p.toNat Token.empty
        let new : Token :=
          { old with payload := vput old.payload lane.toNat (bits ((s.seq q).read a) 0 32)
                     valid := old.valid ||| (1#16 <<< lane.toNat) }
        let pushed : Token := match mk with
          | .data => new
          | .eor => { Token.empty with marker := 1 }
          | .eot => { Token.empty with marker := 2 }
          | .trig => { Token.empty with marker := 9 }
          | .scale => { new with marker := 7, valid := 0 }
          | .cfg => { new with marker := 8, valid := 0 }
        let side := s.side q p.toNat (!x)
        let u := if push then s.setSide q p.toNat (!x) { side with toks := side.toks ++ [pushed], plane := k % 4 } else s
        SeqGoesOn (.qpush p a lane push x mk) s
          (u.setSeq q { s.seq q with
            staging := vput (s.seq q).staging p.toNat (if push then Token.empty else new) }) q 0 0 4) ∧
  (∀ (s : State) (q k : Nat) (d : SReg) (p : QReg) (x : Bool),
      q < 128 → s.actor = .sequencer q → s.planeOf q = some k → (s.seq q).ready d = true →
        let pops := s.side q p.toNat x
        let pushes := s.side q p.toNat (!x)
        pops.toks.length ≤ 16 → pushes.toks.length ≤ 16 →
        ∃ y : Word, SeqWrites (.qstat d p x) s q d y 4 ∧
          bits y 40 24 = 0 ∧ (bits y 15 5).toNat = pops.toks.length ∧ (bits y 10 5).toNat = 16 - pushes.toks.length ∧
          bits y 36 4 = (pops.toks.head?.map Token.marker).getD 0 ∧
          bits y 20 16 = (pops.toks.head?.map Token.valid).getD 0 ∧
          bitAt y 9 = (s.side q p.toNat false).bind.isSome ∧ bitAt y 8 = (s.side q p.toNat false).job.isSome ∧
          bitAt y 7 = (s.side q p.toNat true).bind.isSome ∧ bitAt y 6 = (s.side q p.toNat true).job.isSome ∧
          bitAt y 5 = s.usesPort k p.toNat false ∧ bitAt y 4 = s.usesPort k p.toNat true ∧
          bits y 0 4 = 0) ∧
  (∀ (s : State) (q k : Nat) (p : QReg) (lane : BitVec 4) (x : Bool),
      q < 128 → s.actor = .sequencer q → s.planeOf q = some k → EStat.inh (s.seq q).estat = false →
        (∀ d pop sx, (s.seq q).ready d = true →
          s.portOk (s.side q p.toNat x) k p.toNat x false x = false →
            ∃ t, exec (.qpop d p lane pop x sx) s = .next t ∧ Trapped s t q .qport 0 (s.seq q).ip) ∧
        (∀ a push mk, (s.seq q).ready a = true →
          s.portOk (s.side q p.toNat (!x)) k p.toNat x true (!x) = false →
            ∃ t, exec (.qpush p a lane push x mk) s = .next t ∧ Trapped s t q .qport 0 (s.seq q).ip))

/-- R347: when its tokens are final, and with .jobs every job of the sequencer has ended, `bar` skips the next
instruction if all of them ended done, and goes on to it otherwise; it changes nothing but the IP.

R348: `bst` writes BLKST to sD, and with .clr clears its V in the same step.

R335, R59: a slice begins at its first word on the sequencer that waits at its `blk`; a report that reaches BLKST is
recorded when V = 0, and lost otherwise. -/
def Obligations.BarBstAndSlices : Prop :=
  (∀ (s : State) (q : Nat) (a b : SReg) (jobs : Bool) (w : Lane),
      Issues s q [a, b] → (jobs = true → ∀ j ∈ (s.seq q).jobs, j.result ≠ none) →
      s.fetchWord q ((s.seq q).ip + 4) = .word w →
        let ok := (a = 0 ∨ (s.seq q).read a = 1) ∧ (b = 0 ∨ (s.seq q).read b = 1) ∧
          (jobs = true → ∀ j ∈ (s.seq q).jobs, j.result = some 1)
        (ok → SeqWrites (.bar a b jobs) s q 0 0 (4 + seqSize w)) ∧ (¬ok → SeqWrites (.bar a b jobs) s q 0 0 4)) ∧
  (∀ (s : State) (q : Nat) (d : SReg) (clr : Bool), Issues s q [d] →
      SeqGoesOn (.bst d clr) s
        (if clr then s.setSeq q { s.seq q with blkst := (s.seq q).blkst &&& 0x7FFFFFFFFFFFFFFF } else s)
        q d (s.seq q).blkst 4) ∧
  (∀ (s : State) (q : Nat),
      let v := s.seq q
      (∀ c x rest, v.chain = some c → v.slices = x :: rest → v.run = .running → v.slice = none → v.atChain = true →
        c.ip = v.ip → c.result = none →
        exec (.sliceStart q) s =
          .next (s.setSeq q { v with slice := some x, slices := rest, ip := BitVec.ofNat 64 x.base })) ∧
      (∀ n w, v.reports[n]? = some w →
        exec (.blkstReport q n) s = .next (s.setSeq q { v with
          reports := v.reports.eraseIdx n, blkst := if bitAt v.blkst 63 then v.blkst else w })))

/-- R404, Tables 15-7, 15-8 and 23-3: `sysr` reads the sequencer's own registers by their numbers, those of its region and of
its context, in user mode those of the user column, in privileged mode each of them; on a root core also the ring's.

R404, R7: in privileged mode `sysw` writes the RW fields of the sequencer's own registers and clears W1C fields by
ones, EFLT.V with EFLTA (R389); UREG0 keeps 0; EPC and TVEC that are no multiples of 4 and FQBASE.LSZ above 10 raise SYSVAL and
change nothing.

R404: a number that Table 15-7 does not list raises ILLOP, and so does a `sysw` to a register without RW or W1C field
and a ring register on a region's sequencer; user mode outside the user column raises PRIV. -/
def Obligations.SystemRegisters : Prop :=
  (∀ (s : State) (q : Nat) (d : SReg), Issues s q [d] →
      let v := s.seq q
      SeqWrites (.sysr d 0x001) s q d v.tstat 4 ∧
      SeqWrites (.sysr d 0x005) s q d (BitVec.ofNat 64 s.cycle) 4 ∧
      (∃ y : Word, SeqWrites (.sysr d 0x004) s q d y 4 ∧ (bits y 40 24).toNat = (s.region q).total / 1000 % 2 ^ 24 ∧
        (bits y 20 20).toNat = min (s.region q).used 0xFFFFF ∧ (bits y 0 20).toNat = (s.region q).allow % 2 ^ 20) ∧
      SeqWrites (.sysr d 0x018) s q d (s.region q).wwin 4 ∧
      (∀ n c k, s.ctxOf q = some n → s.ctx? n = some c → s.planeOf q = some k →
        SeqWrites (.sysr d 0x000) s q d (c.fpc.setWidth 64) 4 ∧ SeqWrites (.sysr d 0x019) s q d c.kvw 4 ∧
        SeqWrites (.sysr d 0x01A) s q d c.pwin 4 ∧ SeqWrites (.sysr d 0x021) s q d c.ctxres 4 ∧
        (∃ y : Word, SeqWrites (.sysr d 0x002) s q d y 4 ∧ (bits y 0 16).toNat = n % 2 ^ 16 ∧
          (bits y 16 8).toNat = c.vf % 2 ^ 8 ∧ (bits y 24 8).toNat = c.key % 2 ^ 8 ∧ (bits y 32 2).toNat = k % 4 ∧
          bits y 34 30 = 0) ∧
        (v.priv = true → ∀ i, i < 4 →
          SeqWrites (.sysr d (BitVec.ofNat 14 (0x014 + i))) s q d (vget (s.plane k).wpt i 0) 4)) ∧
      (v.priv = true →
        SeqWrites (.sysr d 0x003) s q d v.blkst 4 ∧ SeqWrites (.sysr d 0x008) s q d v.fltcause 4 ∧
        SeqWrites (.sysr d 0x009) s q d v.fltaddr 4 ∧ SeqWrites (.sysr d 0x00A) s q d v.fltpos 4 ∧
        SeqWrites (.sysr d 0x00B) s q d v.fltbpc 4 ∧ SeqWrites (.sysr d 0x00C) s q d v.fltaux 4 ∧
        SeqWrites (.sysr d 0x00D) s q d v.epc 4 ∧ SeqWrites (.sysr d 0x00E) s q d v.estat 4 ∧
        SeqWrites (.sysr d 0x00F) s q d v.tvec 4 ∧ SeqWrites (.sysr d 0x010) s q d v.eflt 4 ∧
        SeqWrites (.sysr d 0x011) s q d v.eflta 4 ∧ SeqWrites (.sysr d 0x020) s q d v.sctl 4 ∧
        SeqWrites (.sysr d 0x100) s q d 0 4 ∧
        (∀ n, 0 < n → n < 32 → bitAt v.outU n = false → bitAt v.armedU n = false →
          SeqWrites (.sysr d (BitVec.ofNat 14 (0x100 + n))) s q d (vget v.user n 0) 4) ∧
        (128 ≤ q → SeqWrites (.sysr d 0x030) s q d v.fqbase 4 ∧ SeqWrites (.sysr d 0x031) s q d v.fqhead 4 ∧
          SeqWrites (.sysr d 0x032) s q d v.fqtail 4))) ∧
  (∀ (s : State) (q : Nat) (a : SReg), IssuesPriv s q [a] →
      let v := s.seq q
      let x := v.read a
      (x.toNat % 4 = 0 →
        SeqGoesOn (.sysw 0x00D a) s (s.setSeq q { v with epc := BitVec.ofNat 64 (x.toNat % 2 ^ 52) }) q 0 0 4 ∧
        SeqGoesOn (.sysw 0x00F a) s (s.setSeq q { v with tvec := BitVec.ofNat 64 (x.toNat % 2 ^ 52) }) q 0 0 4) ∧
      (x.toNat % 4 ≠ 0 → EStat.inh v.estat = false → ∀ r, (r = 0x00D ∨ r = 0x00F) →
        ∃ t, exec (.sysw r a) s = .next t ∧ Trapped s t q .sysval 0 v.ip) ∧
      SeqGoesOn (.sysw 0x001 a) s (s.setSeq q { v with tstat := v.tstat &&& ~~~(x &&& 7) }) q 0 0 4 ∧
      SeqGoesOn (.sysw 0x003 a) s (s.setSeq q { v with blkst := v.blkst &&& ~~~(x &&& 0x8000000000000000) }) q 0 0 4 ∧
      SeqGoesOn (.sysw 0x00E a) s (s.setSeq q { v with estat := (v.estat &&& ~~~3) ||| (x &&& 3) }) q 0 0 4 ∧
      SeqGoesOn (.sysw 0x020 a) s (s.setSeq q { v with sctl := x &&& 3 }) q 0 0 4 ∧
      SeqGoesOn (.sysw 0x010 a) s
        (if bitAt x 63 then s.setSeq q { v with eflt := v.eflt &&& 0xFFFFFFFFFFFF, eflta := 0 } else s) q 0 0 4 ∧
      SeqWrites (.sysw 0x100 a) s q 0 0 4 ∧
      (128 ≤ q →
        SeqGoesOn (.sysw 0x031 a) s (s.setSeq q { v with fqhead := BitVec.ofNat 64 (x.toNat % 2 ^ 32) }) q 0 0 4 ∧
        ((bits x 0 4).toNat ≤ 10 → v.fqtail = v.fqhead →
          SeqGoesOn (.sysw 0x030 a) s
            (s.setSeq q { v with fqbase := x &&& 0xFFFFFFFFFF00F }) q 0 0 4) ∧
        (10 < (bits x 0 4).toNat → EStat.inh v.estat = false →
          ∃ t, exec (.sysw 0x030 a) s = .next t ∧ Trapped s t q .sysval 0 v.ip)) ∧
      (∀ n : SReg, n ≠ 0 → bitAt v.outU n.toNat = false → bitAt v.armedU n.toNat = false →
        ∃ w : Seq, exec (.sysw (BitVec.ofNat 14 (0x100 + n.toNat)) a) s = .next (s.setSeq q w) ∧
          w = { v with ip := v.ip + 4, user := vput v.user n.toNat x })) ∧
  (∀ (s : State) (q : Nat) (d a : SReg), s.actor = .sequencer q → EStat.inh (s.seq q).estat = false →
      (∀ r, sysRegOf r.toNat = none → ∀ i, (i = .sysr d r ∨ i = .sysw r a) →
        ∃ t, exec i s = .next t ∧ Trapped s t q .illop 0 (s.seq q).ip) ∧
      (∀ r, (r = 0x002 ∨ r = 0x004 ∨ r = 0x005 ∨ r = 0x008 ∨ r = 0x009 ∨ r = 0x00A ∨ r = 0x00B ∨ r = 0x00C ∨
          r = 0x011 ∨ r = 0x014 ∨ r = 0x015 ∨ r = 0x016 ∨ r = 0x017) →
        ∃ t, exec (.sysw r a) s = .next t ∧ Trapped s t q .illop 0 (s.seq q).ip) ∧
      (q < 128 → ∀ r, (r = 0x030 ∨ r = 0x031 ∨ r = 0x032) → ∀ i, (i = .sysr d r ∨ i = .sysw r a) →
        ∃ t, exec i s = .next t ∧ Trapped s t q .illop 0 (s.seq q).ip) ∧
      ((s.seq q).priv = false →
        (∀ r, (r = 0x003 ∨ r = 0x008 ∨ r = 0x009 ∨ r = 0x00A ∨ r = 0x00B ∨ r = 0x00C ∨ r = 0x00D ∨ r = 0x00E ∨
            r = 0x00F ∨ r = 0x010 ∨ r = 0x011 ∨ r = 0x014 ∨ r = 0x015 ∨ r = 0x016 ∨ r = 0x017 ∨ r = 0x020 ∨
            (0x100 ≤ r.toNat ∧ r.toNat < 0x120)) →
          ∃ t, exec (.sysr d r) s = .next t ∧ Trapped s t q .priv 0 (s.seq q).ip) ∧
        (∀ r, (r = 0x003 ∨ r = 0x00D ∨ r = 0x00E ∨ r = 0x00F ∨ r = 0x010 ∨ r = 0x018 ∨ r = 0x019 ∨ r = 0x01A ∨
            r = 0x020 ∨ r = 0x021 ∨ (0x100 ≤ r.toNat ∧ r.toNat < 0x120)) →
          ∃ t, exec (.sysw r a) s = .next t ∧ Trapped s t q .priv 0 (s.seq q).ip)))

/-- R402, R388: `halt` stops the sequencer; `frz.on` freezes the plane of its context and `frz.go` lets it fire again with
FLTPOS.V = 0; `frz.q` reads whether it is frozen and quiet and FLTPOS.V.

R388: on a frozen plane whose events, stream jobs and arrays stand, `frz.kill` ends the chain: every node and link
goes, the plane thaws, and the `blk` will return what sA held. -/
def Obligations.HaltAndFreeze : Prop :=
  (∀ (s : State) (q k : Nat), IssuesPriv s q [] →
      SeqGoesOn .halt s (s.setSeq q { s.seq q with run := .halted }) q 0 0 4 ∧
      (q < 128 → s.planeOf q = some k →
        ((s.plane k).frozen = .none →
          SeqGoesOn .frzOn s (s.setPlane k { s.plane k with frozen := .frzOn }) q 0 0 4 ∧ SeqWrites .frzGo s q 0 0 4) ∧
        ((s.plane k).frozen = .fault ∨ (s.plane k).frozen = .frzOn →
          SeqWrites .frzOn s q 0 0 4 ∧
          SeqGoesOn .frzGo s
            ((s.setPlane k { s.plane k with frozen := .none, atRest := false, saver := none }).setSeq q
              { s.seq q with fltpos := (s.seq q).fltpos &&& 0x7FFFFFFFFFFFFFFF }) q 0 0 4) ∧
        (∀ d, (s.seq q).ready d = true →
          ∃ y : Word, SeqWrites (.frzQ d) s q d y 4 ∧ (bitAt y 0 = true ↔ (s.plane k).frozen ≠ .none) ∧
            (bitAt y 1 = true ↔ (s.agent (Agent.block (k / 4) (k % 4)).key).buf = [] ∧
              (s.agent (Agent.block (k / 4) (k % 4)).key).rmws = []) ∧
            bitAt y 2 = bitAt (s.seq q).fltpos 63 ∧ bits y 3 61 = 0))) ∧
  (∀ (s : State) (q k : Nat) (a : SReg), IssuesPriv s q [a] → q < 128 → s.planeOf q = some k → k < 512 →
      (s.plane k).frozen ≠ .none → s.planeQuiet k = true → s.portJobs k = [] → s.chainArrays k = [] →
        ∃ t, exec (.frzKill a) s = .next t ∧ (t.plane k).chain = none ∧ (t.plane k).nodes = [] ∧ (t.plane k).links = [] ∧
          (t.plane k).frozen = .none ∧ RegsStay s t q ∧ (t.seq q).ip = (s.seq q).ip + 4 ∧
          bitAt (t.seq q).fltpos 63 = false ∧ (t.seq q).slice = none ∧
          (∀ c, (s.seq q).chain = some c → (t.seq q).chain = some { c with result := some ((s.seq q).read a) }) ∧
          Ended s t (fun key => key = (Agent.block (k / 4) (k % 4)).key))

/-- R391, R392: `ftok` sends a token of the fault registers one level up, and FAULT_TOKEN_ENQUEUE writes the oldest
accepted token at entry FQTAIL mod size of the root core's ring and then increments FQTAIL.

R384: an asynchronous event is taken between instructions while INH = 0, with the IP as the resume address: a fabric
fault of the chain first, then ENGFLT when SCTL.EFT and EFLT.V are set, then on a root core FTOKIN when SCTL.FQIE is set
and its ring is not empty; a sequencer that a `save` has stopped takes none (R396). -/
def Obligations.FaultTokensAndEvents : Prop :=
  (∀ (s : State) (q : Nat),
      (IssuesPriv s q [] → q ≠ 128 → (s.seq q).stage = .fresh → (s.seq (ftokTarget q)).ringRoom = true →
        ∃ t tok, exec (.ftok 0) s = .next t ∧ (t.seq (ftokTarget q)).ftoks = (s.seq (ftokTarget q)).ftoks ++ [tok] ∧
          tok.getD 1 0 = (s.seq q).fltaddr ∧ tok.getD 2 0 = (s.seq q).fltpos ∧ tok.getD 3 0 = (s.seq q).fltbpc ∧
          tok.getD 4 0 = (s.seq q).fltaux ∧ tok.getD 5 0 = (s.seq q).epc ∧
          (tok.getD 0 0).toNat % 256 = (s.seq q).fltcause.toNat % 256 ∧
          RegsStay s t q ∧ (t.seq q).ip = (s.seq q).ip + 4 ∧ BytesStay s t) ∧
      (∀ (board : Nat) (tok : List Word) (rest : List (List Word)),
        (s.seq (128 + board)).ftoks = tok :: rest → (s.seq (128 + board)).ringUsed < (s.seq (128 + board)).ringSize →
          let v := s.seq (128 + board)
          let at_ := (bits v.fqbase 12 40).toNat * 4096 + 64 * ((bits v.fqtail 0 32).toNat % v.ringSize)
          ∃ t, exec (.faultTokenEnqueue board) s = .next t ∧
            t.mem = s.mem.poke 0 (keyed at_ (tok.flatMap fun (w : Word) => leBytes 8 w.toNat)) ∧
            (t.seq (128 + board)).ftoks = rest ∧
            (t.seq (128 + board)).fqtail.toNat = ((bits v.fqtail 0 32).toNat + 1) % 2 ^ 32)) ∧
  (∀ (s : State) (q : Nat), (s.seq q).run = .running → EStat.inh (s.seq q).estat = false → s.seqHeld q = false →
      s.betweenInstrs q = true → (s.seq q).slice = none →
        let v := s.seq q
        let taken (cause : Cause) (addr : Word) : Prop :=
          ∃ t, exec (.asyncEvent q) s = .next t ∧ (t.seq q).epc = BitVec.ofNat 64 (v.ip.toNat % 2 ^ 52) ∧ (t.seq q).ip = v.tvec ∧
            (t.seq q).priv = true ∧ EStat.inh (t.seq q).estat = true ∧ EStat.pmode (t.seq q).estat = v.priv ∧
            (t.seq q).fltcause.toNat = cause.code.toNat ∧ (t.seq q).fltaddr = addr ∧ RegsStay s t q ∧ OnlySeq s t q
        (∀ c addr, v.pendFault = some (c, addr) → taken c addr) ∧
        (v.pendFault = none → bitAt v.sctl 0 = true → bitAt v.eflt 63 = true → taken .engflt 0) ∧
        (v.pendFault = none → (bitAt v.sctl 0 = false ∨ bitAt v.eflt 63 = false) → 128 ≤ q → bitAt v.sctl 1 = true →
          v.fqhead ≠ v.fqtail → taken .ftokin 0))

/-- R395, R393: `wpt` puts the address and the mask into WPTn, and an entry into the home watch table for a page of MKIND
0, 1 or 3; `wpt.off` clears both; an address that is no multiple of 16 raises ALIGN.

R401: when no walk of the range is in flight and every access that used it has been performed, `tlbi` completes, and
no translation cache within its scope holds an entry of the range. -/
def Obligations.WatchpointsAndTlbi : Prop :=
  (∀ (s : State) (q k : Nat) (n : BitVec 2) (a : SReg) (mask : BitVec 16),
      IssuesPriv s q [a] → q < 128 → s.planeOf q = some k →
        let va := (s.seq q).read a
        let others := s.watches.filter fun w => !(w.plane = k && w.n = n.toNat)
        (∃ t, exec (.wpt n true 0 0) s = .next t ∧ vget (t.plane k).wpt n.toNat 0 = 0 ∧
          t.watches = others ∧ RegsStay s t q ∧ (t.seq q).ip = (s.seq q).ip + 8 ∧ BytesStay s t) ∧
        (∀ p, va.toNat % 16 = 0 → s.reach q (reqLoad q) va 16 .read = .to p →
          ∃ t, exec (.wpt n false a mask) s = .next t ∧
            vget (t.plane k).wpt n.toNat 0 = bits va 4 48 ++ mask ∧
            t.watches = others ++ (if (Leaf.mkind p.leaf).toNat ∈ [0, 1, 3]
              then [{ line := p.key / 16, mask, plane := k, n := n.toNat }] else []) ∧
            RegsStay s t q ∧ (t.seq q).ip = (s.seq q).ip + 8 ∧ BytesStay s t) ∧
        (va.toNat % 16 ≠ 0 → EStat.inh (s.seq q).estat = false →
          ∃ t, exec (.wpt n false a mask) s = .next t ∧ Trapped s t q .align va (s.seq q).ip)) ∧
  (∀ (s : State) (q c : Nat) (cx : Ctx) (all : Bool) (sc : Scope) (a b : SReg),
      IssuesPriv s q [a, b] → s.ctxOf q = some c → s.ctx? c = some cx →
        let lo := ((s.seq q).read a).toNat
        let x : Inval :=
          { q, level := sc.level, ctx := c, range := if all then none else some (lo, lo + ((s.seq q).read b).toNat) }
        ((s.dropEntries x).reparkFrozen x).invalBusy x = false →
          ∃ t, exec (.tlbi all sc a b) s = .next t ∧ RegsStay s t q ∧ (t.seq q).ip = (s.seq q).ip + 4 ∧ t.mem = s.mem ∧
            (∀ e ∈ t.tlbs, x.near (.seq (reqSeq e.1)) = true → ∀ l ∈ e.2, x.meets l.ctx l.page (Leaf.lg l.leaf) = false) ∧
            (∀ e ∈ t.units, 2 ≤ x.level → x.near (.seq (rootOf e.1)) = true →
              ∀ l ∈ e.2, x.meets l.ctx l.page (Leaf.lg l.leaf) = false))

/-- R403, R57, R56: `cfgw` of kind 2 makes a halted sequencer of the root core's board resume in privileged mode at sA[51:0],
whose two low bits the model ignores (its own reading, log 37), and leaves a running one; of kind 3 it puts every plane of the
region into IDLE, clears BLKST and halts the sequencer, and what a fused block has there goes too (log 37); of kinds 0 and 1 it
gives a configured node of the plane a legal word, at once or, while a firing is under way there, for its next one, and the
node that a fused block has at that element; an illegal word blocks the node, which BLKST reports, and raises BLOCKED where it
belongs to the running instance; other destinations raise SYSVAL. -/
def Obligations.CfgwReaches : Prop :=
  ∀ (s : State) (q : Nat) (a b : SReg), Issues s q [a, b] → 128 ≤ q →
    let x := (s.seq q).read a
    let y := (s.seq q).read b
    let r := 32 * (q - 128) + (bits y 10 5).toNat
    let given (n : Node) : Node :=
      if n.cur = none ∧ n.fly = [] ∧ n.wait = [] ∧ n.pend = [] ∧ (n.phase = .run ∨ n.phase = .blocked)
        then { n with word := x, config := none } else { n with config := some x }
    (bits y 15 47 = 0 → bits y 62 2 = 2 → bits y 0 10 = 0 →
      ((s.seq r).run = .halted →
        SeqGoesOn (.cfgw a b) s
          (s.setSeq r { s.seq r with run := .running, priv := true, ip := BitVec.ofNat 64 (x.toNat % 2 ^ 52 / 4 * 4) })
          q 0 0 4) ∧
      ((s.seq r).run ≠ .halted → SeqWrites (.cfgw a b) s q 0 0 4)) ∧
    (bits y 15 47 = 0 → bits y 62 2 = 3 → bits y 0 10 = 0 → x = 0 → r < 128 →
      ∃ t, exec (.cfgw a b) s = .next t ∧ (t.seq r).run = .halted ∧ (t.seq r).blkst = 0 ∧
        (∀ p, p < 4 → (t.plane (planeKey r p)).nodes = [] ∧ (t.plane (planeKey r p)).links = [] ∧
          (t.plane (planeKey r p)).chain = none) ∧
        (r % 2 = 1 → ∀ p, p < 4 → ∀ e ∈ (t.plane (planeKey (r - 1) p)).nodes, e.1 < 512) ∧
        (∀ i, i < 2 → (t.arr r i).bind = none) ∧ RegsStay s t q ∧ (t.seq q).ip = (s.seq q).ip + 4 ∧
        Ended s t (fun key => ∃ p, p < 4 ∧ key = (Agent.block r p).key)) ∧
    (bits y 15 47 = 0 → (bits y 62 2 = 0 ∧ (bits y 2 3).toNat < 6 ∨ bits y 62 2 = 1 ∧ bits y 2 3 = 0) →
      let slot := (if bits y 62 2 = 1 then 256 else (bits y 2 3).toNat) + 8 * (bits y 5 5).toNat
      let k := planeKey r (bits y 0 2).toNat
      ∀ n, Tab.find? (s.plane k).nodes slot = some n → fabricCause x = none → isMemoryWord x = isMemorySlot slot →
        ∃ t, exec (.cfgw a b) s = .next t ∧ Tab.find? (t.plane k).nodes slot = some (given n) ∧
          RegsStay s t q ∧ (t.seq q).ip = (s.seq q).ip + 4 ∧ t.mem = s.mem ∧
          (∀ m, r % 2 = 1 → Tab.find? (s.plane (k - 4)).nodes (slot + 512) = some m →
            Tab.find? (t.plane (k - 4)).nodes (slot + 512) = some (given m))) ∧
    (bits y 15 47 = 0 → (bits y 62 2 = 0 ∧ (bits y 2 3).toNat < 6 ∨ bits y 62 2 = 1 ∧ bits y 2 3 = 0) →
      let slot := (if bits y 62 2 = 1 then 256 else (bits y 2 3).toNat) + 8 * (bits y 5 5).toNat
      let k := planeKey r (bits y 0 2).toNat
      ∀ n, Tab.find? (s.plane k).nodes slot = some n → fabricCause x ≠ none → r % 2 = 0 →
        ∃ t w, exec (.cfgw a b) s = .next t ∧ (t.plane k).links = (s.plane k).links ∧
          Tab.find? (t.plane k).nodes slot = some { n with phase := .blocked } ∧
          w ∈ (t.seq (launcher k (s.plane k))).reports ∧ bitAt w 63 = true ∧ bits w 48 8 = 0x11 ∧
          bits w 40 8 = BitVec.ofNat 8 n.index ∧
          (∀ c, (s.plane k).chain = some c → n.era = c.era → (t.plane k).frozen = .fault ∧
            (t.sysOf k).fltcause.toNat = Cause.blocked.code.toNat) ∧
          RegsStay s t q ∧ (t.seq q).ip = (s.seq q).ip + 4 ∧ t.mem = s.mem) ∧
    (bits y 15 47 ≠ 0 ∨ bits y 62 2 = 0 ∧ 6 ≤ (bits y 2 3).toNat → EStat.inh (s.seq q).estat = false →
      ∃ t, exec (.cfgw a b) s = .next t ∧ Trapped s t q .sysval 0 (s.seq q).ip)

/-- R315, Tables 12-1 and 12-2: `satom` places one RMW of its operation at sA, of 4 or 8 bytes, with acquire and release
as its ordering says, and stands at its IP; when the old value m has returned it goes to sD, sign-extended when the type
is signed and zero-extended otherwise, and the IP moves past both words.

R320, R324: `bnew` places the creation of the object that sB describes, and an arrival that does not release places
its RMW, each at an address that is a multiple of 32; when the RMW has been performed the instruction is over, and a fault
that it has raised is a precise trap. The arrival is over as soon as its RMW has issued and the object as it stands takes
it (log 17). -/
def Obligations.AtomicsAndBarriers : Prop :=
  (∀ (s : State) (q : Nat) (d a b c : SReg) (op : AtomOp) (wide : Bool) (ord : AtomOrd) (sc : Scope) (ty : SatomTy),
      Issues s q [d, a, b, c] →
        (∀ p, (s.seq q).stage = .fresh →
          s.reach q (reqLoad q) ((s.seq q).read a) (if wide then 8 else 4) .atomic = .to p →
          ∃ t e, exec (.satom d a b c op wide ord sc ty) s = .next t ∧ Placed s t q e ∧ RegsStay s t q ∧
            e.kind = .rmw (.atomic op (ty == .float) (ty == .signed) ((s.seq q).read b) ((s.seq q).read c)) ∧
            e.pieces.map Piece.key = keysFrom p.key (if wide then 8 else 4) ∧ e.scope = sc ∧
            (e.acq = true ↔ ord = .acq ∨ ord = .ar) ∧ (e.rel = true ↔ ord = .rel ∨ ord = .ar) ∧
            (t.seq q).ip = (s.seq q).ip ∧ (t.seq q).stage = .pending) ∧
        (∀ bs bad, (s.seq q).stage = .back 8 bs bad none → bs.length = (if wide then 8 else 4) →
          ∃ t, exec (.satom d a b c op wide ord sc ty) s = .next t ∧ OnlySeq s t q ∧
            (∀ r, (t.seq q).read r =
              if r = d ∧ d ≠ 0 then
                (if wide = false ∧ ty = .signed then (BitVec.ofNat 32 (leNat bs)).signExtend 64
                  else BitVec.ofNat 64 (leNat bs))
              else (s.seq q).read r) ∧
            (t.seq q).ip = (s.seq q).ip + 8 ∧ (t.seq q).wait = .none)) ∧
  (∀ (s : State) (q : Nat) (d a b : SReg) (i : Instr),
      (i = .bnew a b ∧ descriptorOk ((s.seq q).read b) = true ∨
        i = .sarrv d a b false ∧ (if d = 0 then 1 else ((s.seq q).read d).toNat) < 2 ^ 32) → Issues s q [d, a, b] →
        (∀ p, (s.seq q).stage = .fresh → ((s.seq q).read a).toNat % 32 = 0 →
          s.reach q (reqLoad q) ((s.seq q).read a) 32 .atomic = .to p →
          ∃ t e op, exec i s = .next t ∧ Placed s t q e ∧ RegsStay s t q ∧ e.kind = .rmw op ∧
            e.pieces.map Piece.key = keysFrom p.key 32 ∧ (t.seq q).ip = (s.seq q).ip ∧ (t.seq q).stage = .pending ∧
            (i = .bnew a b → op = .create (((s.seq q).read b).setWidth 256)) ∧
            (i = .sarrv d a b false → op = .arrive (if b = 0 then none else some (bits ((s.seq q).read b) 0 16))
              (if d = 0 then 1 else ((s.seq q).read d).toNat) (s.ctxNo q) (s.seq q).branch)) ∧
        (∀ n bs, n ≠ 0 → (s.seq q).stage = .back n bs none none →
          ∃ t, exec i s = .next t ∧ OnlySeq s t q ∧ RegsStay s t q ∧ (t.seq q).ip = (s.seq q).ip + 4 ∧
            (t.seq q).wait = .none) ∧
        (∀ e op x id, i = .sarrv d a b false → (s.seq q).wait = .event (s.seq q).ip 4 id none none →
          (s.agent q).rmws = [e] → e.dest = .wait q → e.kind = .rmw op →
          s.rmwResult e op (e.pieces.map fun p => s.mem.coLast p.key) = .ok x →
          ∃ t, exec i s = .next t ∧ RegsStay s t q ∧ (t.seq q).ip = (s.seq q).ip + 4 ∧ (t.seq q).wait = .none ∧
            (t.agent q).rmws = [{ e with dest := .arrival q ((s.seq q).read a) }] ∧ BytesStay s t) ∧
        (∀ n bs c, (s.seq q).stage = .back n bs (some c) none → EStat.inh (s.seq q).estat = false →
          ∃ t, exec i s = .next t ∧ (t.seq q).epc = BitVec.ofNat 64 ((s.seq q).ip.toNat % 2 ^ 52) ∧
            (t.seq q).fltcause.toNat = c.code.toNat ∧
            (t.seq q).fltaddr = (s.seq q).read a ∧ (t.seq q).ip = (s.seq q).tvec ∧ RegsStay s t q ∧ OnlySeq s t q) ∧
        ((s.seq q).stage = .fresh → ((s.seq q).read a).toNat < 2 ^ 52 → ((s.seq q).read a).toNat % 32 ≠ 0 →
          EStat.inh (s.seq q).estat = false →
          ∃ t, exec i s = .next t ∧ Trapped s t q .barval ((s.seq q).read a) (s.seq q).ip))

/-- R326, R324: `waita` and `swaitp` place a read, and look at its value when it has returned. A value that meets the
condition ends the wait, `waita` writing 1; one that does not puts the wait to sleep, or after the last cycle ends
`waita`, which then writes 0.

R324, R326, R373: a wake, or the end of the time between reads, makes a sleeping wait look again, and changes nothing
else. -/
def Obligations.WaitsLookAndWake : Prop :=
  (∀ (s : State) (q : Nat) (d a b c : SReg) (cond : Cond) (sc : Scope) (acq : Bool),
      Issues s q [d, a, b, c] → s.waitReads q = false →
        let v := s.seq q
        let wa : Instr := .waita d a b c cond sc acq
        let sw : Instr := .swaitp a b
        let va := v.read a
        (v.wait = .none →
          (∀ p, va.toNat % 8 = 0 → s.reach q (reqLoad q) va 8 .read = .to p →
            ∃ t e, exec wa s = .next t ∧ Placed s t q e ∧ RegsStay s t q ∧ e.kind = .read ∧ e.acq = acq ∧ e.scope = sc ∧
              e.pieces.map Piece.key = keysFrom p.key 8 ∧ (t.seq q).ip = v.ip) ∧
          (∀ p, va.toNat % 32 = 0 → s.reach q (reqLoad q) va 32 .read = .to p →
            ∃ t e, exec sw s = .next t ∧ Placed s t q e ∧ RegsStay s t q ∧ e.kind = .read ∧ e.acq = true ∧
              e.scope = .sys ∧ e.pieces.map Piece.key = keysFrom p.key 32 ∧ (t.seq q).ip = v.ip)) ∧
        (∀ left m, v.wait = .timed v.ip left (some m) false → va.toNat % 8 = 0 →
          (compareHolds cond m (v.read b) = true → SeqGoesOn wa s (s.setSeq q (v.setWait .none)) q d 1 8) ∧
          (compareHolds cond m (v.read b) = false → left = some 0 →
            SeqGoesOn wa s (s.setSeq q (v.setWait .none)) q d 0 8) ∧
          (compareHolds cond m (v.read b) = false → left ≠ some 0 →
            exec wa s = .next (s.setSeq q (v.setWait (.timed v.ip left (some m) true)))) ∧
          (waitOver (leBytes 8 m.toNat) (bits (v.read b) 0 16) = true →
            SeqGoesOn sw s (s.setSeq q (v.setWait .none)) q 0 0 4))) ∧
  (∀ (s : State) (q : Nat) (ip : Word) (left : Option Nat) (seen : Option Word) (i : Instr),
      (i = .waitWake q ∨ i = .waitTimeout q) → (s.seq q).wait = .timed ip left seen true →
        ∃ t, exec i s = .next t ∧ (t.seq q).wait = .timed ip left seen false ∧ OnlySeq s t q ∧ RegsStay s t q ∧
          (t.seq q).ip = (s.seq q).ip)

/-- R217: `lpat` and `cbld` place a read of the 32 bytes at sA + imm, whose value goes to the pattern or codebook register
of the context's plane; `spat` places a write of the 32 bytes of its pattern register, lowest byte first.

R218: a legal pattern is bound to the side of the port, and with it the second side that a pair, a gather or a scatter
takes; a pattern that the checks of R205 or Table 8-8 refuse raises PATBAD, and nothing is bound. -/
def Obligations.PatternsAndBindings : Prop :=
  (∀ (s : State) (q k : Nat) (g : GReg) (a : SReg) (i : BitVec 14) (p : Phys),
      Issues s q [a] → q < 128 → s.planeOf q = some k →
        let va := (s.seq q).read a + i.signExtend 64
        let goes (ins : Instr) (kind : EvKind) (dest : Dest) : Prop :=
          ∃ t e, exec ins s = .next t ∧ Placed s t q e ∧ e.kind = kind ∧ e.dest = dest ∧ e.va = va.toNat ∧
            e.pieces.map Piece.key = keysFrom p.key 32 ∧ RegsStay s t q ∧ (t.seq q).ip = (s.seq q).ip + 4 ∧
            t.planes = s.planes ∧
            (kind = .write → e.pieces.map Piece.value = leBytes 32 (vget (s.plane k).g g.toNat 0).toNat)
        (s.reach q (reqLoad q) va 32 .read = .to p → s.loadsHeld q < 8 →
          (bitAt (s.seq q).outG g.toNat = false → goes (.lpat g a i) .read (.greg k g)) ∧
          (bitAt (s.seq q).outC g.toNat = false → goes (.cbld g a i) .read (.creg k g))) ∧
        (s.reach q (reqLoad q) va 32 .write = .to p → s.storesHeld q < 16 → s.seqHit q va 32 = none →
          bitAt (s.seq q).outG g.toNat = false → goes (.spat g a i) .write .none)) ∧
  (∀ (s : State) (q k : Nat) (p : QReg) (g : GReg) (wr : Bool),
      Issues s q [] → q < 128 → s.planeOf q = some k → bitAt (s.seq q).outG g.toNat = false →
        let pat := vget (s.plane k).g g.toNat 0
        let f := Pat.of pat
        let d := p.toNat
        (f.ok (if wr then .wr else .rd) = true → (f.isGather = true ∨ f.second d = none ∨ d % 2 = 0) →
          (s.side q d wr).heldBy = none → (s.side q d wr).job = none →
          (∀ p2 w2, f.second d = some (p2, w2) →
            (s.side q p2 w2).bind = none ∧ (s.side q p2 w2).heldBy = none ∧ (s.side q p2 w2).job = none) →
          ∃ t, exec (.sbind p g wr) s = .next t ∧ (t.side q d wr).bind = some pat ∧ (t.side q d wr).plane = k % 4 ∧
            (∀ p2 w2, f.second d = some (p2, w2) → (t.side q p2 w2).heldBy = some d) ∧
            RegsStay s t q ∧ (t.seq q).ip = (s.seq q).ip + 4 ∧ t.mem = s.mem ∧ t.planes = s.planes) ∧
        (f.ok (if wr then .wr else .rd) = false → EStat.inh (s.seq q).estat = false →
          ∃ t, exec (.sbind p g wr) s = .next t ∧ Trapped s t q .patbad 0 (s.seq q).ip))

/-- R219, R220, R212, R213, R331: `sgo` of a bound side and `acpy` of two legal patterns enter a job at a free entry of
the scoreboard, with the earlier jobs whose ranges clash as its dependences; the token register is armed and reads 0 as a
token, every other register stays, and no byte of memory changes.

R213: a job starts when no job that it depends on is left in the scoreboard, and not before.

R211, R241, R331: a started copy job, or stream job without a successor, whose data have moved and whose events have
been performed and released completes: its entry is free and its token register holds the final value and is disarmed. -/
def Obligations.JobsRun : Prop :=
  (∀ (s : State) (q k e : Nat) (d c : SReg) (ga gb : GReg) (p : QReg) (wr : Bool) (sc : Scope) (i : Instr)
      (kind : JobKind) (ranges : List JobRange) (n : Nat),
      Issues s q [d, c] → q < 128 → s.planeOf q = some k → (s.region q).freeEntry = some e →
        let pa := vget (s.plane k).g ga.toNat 0
        let pb := vget (s.plane k).g gb.toNat 0
        ((∃ pat, i = .sgo d p wr sc ∧ (s.side q p.toNat wr).bind = some pat ∧ kind = .sgo p.toNat wr pat ∧
            ranges = (Pat.of pat).card wr ∧ n = 4) ∨
          (i = .acpy d ga gb c sc ∧ bitAt (s.seq q).outG ga.toNat = false ∧ bitAt (s.seq q).outG gb.toNat = false ∧
            acpyOk (Pat.of pb) (Pat.of pa) = true ∧
            kind = .acpy pa pb (if c = 0 then none else some ((s.seq q).read c).toNat) ∧
            ranges = (Pat.of pb).card false ++ (Pat.of pa).card true ∧ n = 8)) →
        ∃ t j, exec i s = .next t ∧ Tab.find? (t.region q).jobs e = some j ∧ j.kind = kind ∧ j.ranges = ranges ∧
          j.started = false ∧ j.seq = q ∧ j.scope = sc ∧ j.serial = (s.region q).serial + 1 ∧
          j.deps = ((s.region q).jobs.filter fun x => rangesClash x.2.ranges ranges).map (fun x => x.2.serial) ∧
          (d ≠ 0 → (t.seq q).armed d = true ∧ (t.seq q).token d = 0) ∧
          (∀ r, r ≠ d → (t.seq q).read r = (s.seq q).read r) ∧ (t.seq q).ip = (s.seq q).ip + BitVec.ofNat 64 n ∧
          t.mem = s.mem ∧ t.planes = s.planes ∧ (kind = .sgo p.toNat wr (((s.side q p.toNat wr).bind).getD 0) →
            (t.side q p.toNat wr).job = some j.serial ∧ (t.side q p.toNat wr).bind = none)) ∧
  (∀ (s : State) (r e : Nat) (j : Job), Tab.find? (s.region r).jobs e = some j → j.started = false →
      ((∀ x ∈ (s.region r).jobs, x.2.serial ∉ j.deps) →
        exec (.engineJobStart r e) s = .next ((s.setJob r e { j with started := true }).copyOn r e) ∧
        ((∃ p w pat, j.kind = .sgo p w pat) →
          exec (.engineJobStart r e) s = .next (s.setJob r e { j with started := true }))) ∧
      ((∃ x ∈ (s.region r).jobs, x.2.serial ∈ j.deps) → exec (.engineJobStart r e) s = .next s)) ∧
  (∀ (s : State) (r e : Nat) (j : Job), r < 128 → e < 16 → Tab.find? (s.region r).jobs e = some j → j.started = true →
      s.sideDone r j = true → s.jobReleased r e j.scope = true → (∀ a, j.kind ≠ .bchn a) →
      (∀ p w pat, j.kind = .sgo p w pat →
        (s.plane (planeKey r j.plane)).atRest = false ∧ (s.side r p w).next = none) →
        ∃ t, exec (.engineJobComplete r e) s = .next t ∧ Tab.find? (t.region r).jobs e = none ∧
          (∀ b d, j.token = some (b, d) → d ≠ 0 →
            vget (if b then (t.seq j.seq).bank else (t.seq j.seq).user) d.toNat 0 = j.result ∧
            bitAt (if b then (t.seq j.seq).armedP else (t.seq j.seq).armedU) d.toNat = false) ∧
          j.result = (match j.fault with
            | some (c, _) => 0x100 + c.code.setWidth 64
            | none => j.outcome.getD 1) ∧
          (t.seq j.seq).ip = (s.seq j.seq).ip ∧ BytesStay s t ∧ OrderStays s t)

/-- R204, R206: the read side of an affine job without transform delivers EOR at the end of an innermost row and EOT after
the last element, and between them its elements, once they have returned, in their containers; limiter off.

R206, R211: the write side of an affine job takes the records of a data token in ascending lane order, and at EOT
closes: done when the pattern has been filled exactly, LENSHORT when elements are left, LENLONG when records were; limiter
off. -/
def Obligations.PortSidesMove : Prop :=
  (∀ (s : State) (r p e : Nat) (j : Job) (pat : BitVec 256),
      s.sideJob r p false = some (e, j, p, false, pat) → p < 8 →
      (Pat.of pat).kind = 0 → (Pat.of pat).xform = 0 → (vget (s.region r).limits p Limiter.empty).a = 0 →
        let v := s.side r p false
        v.closed = false → v.fltDue = none → v.toks.length < 16 →
        (v.eorDue = true →
          ∃ t, exec (.readSideEmit r p) s = .next t ∧ (t.side r p false).toks = v.toks ++ [Token.mark Mk.eor] ∧
            (t.side r p false).eorDue = false ∧ t.mem = s.mem) ∧
        (v.eorDue = false → v.vals = [] → v.runEnd = false → (Pat.of pat).count ≤ v.epos →
          ∃ t, exec (.readSideEmit r p) s = .next t ∧ (t.side r p false).toks = v.toks ++ [Token.mark Mk.eot] ∧
            (t.side r p false).closed = true ∧ t.mem = s.mem) ∧
        (∀ xs : List Nat, v.eorDue = false → v.eotDue = false → v.epos < (Pat.of pat).count → xs ≠ [] →
          (Pat.of pat).ty ≠ .e4m3 → (Pat.of pat).ty ≠ .e5m2 → (Pat.of pat).ty ≠ .cb4 →
          returned (Pat.of pat) v.fly v.epos ((Pat.of pat).tokenLen v.epos) = xs.map some →
          ∃ t, exec (.readSideEmit r p) s = .next t ∧
            (t.side r p false).toks = v.toks ++ [packToken (xs.map (containerOf (Pat.of pat).ty))] ∧
            (t.side r p false).epos = v.epos + xs.length ∧ t.mem = s.mem)) ∧
  (∀ (s : State) (r p e : Nat) (j : Job) (pat : BitVec 256) (tok : Token) (rest : List Token),
      s.sideJob r p true = some (e, j, p, true, pat) → p < 8 → Tab.find? (s.region r).jobs e = some j →
      (Pat.of pat).kind = 0 → (Pat.of pat).xform = 0 → (vget (s.region r).limits p Limiter.empty).a = 0 →
        let v := s.side r p true
        v.closed = false → v.discard = false → v.run = [] → v.vals = [] → v.toks = tok :: rest →
        (tok.marker = 0 →
          ∃ t, exec (.writeSideTake r p) s = .next t ∧ (t.side r p true).toks = rest ∧
            (t.side r p true).vals = ((List.range 16).filter tok.has).map (fun i => (i, tok.at i)) ∧ t.mem = s.mem) ∧
        (tok.marker = 2 →
          ∃ t, exec (.writeSideTake r p) s = .next t ∧ (t.side r p true).toks = rest ∧ (t.side r p true).closed = true ∧
            (∃ j', Tab.find? (t.region r).jobs e = some j' ∧
              j'.outcome = some (if v.long then 2 else if v.pos < (Pat.of pat).count then 3 else 1)) ∧ t.mem = s.mem))

/-- R249, R250, Table 9-3: `sfence` places one fence of its kind and scope, or for ACQREL an ACQ fence and a REL fence
after it, and the sequencer waits for it.

R251: `wbk` and `inv` of a range within one page place one event that covers every 64-byte block which the range
overlaps, and go on; an empty range only goes on; a range that ends past 2^52 raises VARANGE. -/
def Obligations.FencesAndRanges : Prop :=
  (∀ (s : State) (q : Nat) (k : FenceKind) (sc : Scope), Issues s q [] →
      ∃ t, exec (.sfence k sc) s = .next t ∧ RegsStay s t q ∧ (t.seq q).ip = (s.seq q).ip ∧ (t.seq q).stage = .pending ∧
        t.mem = s.mem ∧ (∀ b, b ≠ q → t.agent b = s.agent b) ∧
        (t.agent q).buf = (s.agent q).buf ∧ (t.agent q).q.length = (s.agent q).q.length + (if k = .ar then 2 else 1) ∧
        (t.agent q).q.take (s.agent q).q.length = (s.agent q).q ∧
        ((t.agent q).q.drop (s.agent q).q.length).map (fun e => (e.kind, e.scope)) =
          (if k = .ar then [(.fence .acq, sc), (.fence .rel, sc)] else [(.fence k, sc)])) ∧
  (∀ (s : State) (q : Nat) (sc : Scope) (a b : SReg) (i : Instr) (kind : EvKind),
      (i = .wbk sc a b ∧ kind = .wbk ∨ i = .inv sc a b ∧ kind = .inv) → Issues s q [a, b] → (s.seq q).wait = .none →
        let lo := ((s.seq q).read a).toNat
        let n := ((s.seq q).read b).toNat
        let first := lo / 64 * 64
        let last := (lo + n + 63) / 64 * 64
        (n = 0 → lo ≤ 2 ^ 52 → SeqWrites i s q 0 0 4) ∧
        (∀ p, 0 < n → lo + n ≤ 2 ^ 52 → last ≤ (first / 2 ^ 16 + 1) * 2 ^ 16 →
          s.seqTranslate q (reqLoad q) first .read = .ok p →
          ∃ t e, exec i s = .next t ∧ Placed s t q e ∧ e.kind = kind ∧ e.scope = sc ∧ e.va = first ∧
            e.pieces.map Piece.key = keysFrom p.key (last - first) ∧ RegsStay s t q ∧
            (t.seq q).ip = (s.seq q).ip + 4) ∧
        (2 ^ 52 < lo + n → EStat.inh (s.seq q).estat = false →
          ∃ t, exec i s = .next t ∧ Trapped s t q .varange ((s.seq q).read a) (s.seq q).ip))

/-- R228, Table 9-2 (S1, S2): an event that is not parked and that the order allows issues: a read takes the bytes that
its agent sees now, a write enters the agent's buffer, an RMW waits for its home. R360, R363: an access to a dead branch's slot
of the KV window makes no event, and a write to it that is still buffered is discarded. That a read, or a write that commits, of
another module's memory waits while the port to it is down is the model's choice (log 127) for what R244 and Table 23-6 say of
requests in their slots.

R230 (S3): a buffered write commits when no older one of its agent covers a byte of it, and no older SO one stands
before an SO one: it is appended to the coherence order, visible within the narrowest scope of its agent, with the
bytes it writes, masked ones over the last write in that order; it keeps whether it is a plain write on a UN page, which
releases and fences do not wait for (R235). -/
def Obligations.EventsIssueAndCommit : Prop :=
  (∀ (s : State) (a n : Nat) (e : Ev),
      (s.agent a).q[n]? = some e → e.parked = false → (∀ k, blockPlane a = some k → (s.plane k).stopped = false) →
      (s.kvVoid a e = true → ∃ t, exec (.issue a n) s = .next t ∧ t.mem = s.mem ∧
        (t.agent a).q = (s.agent a).q.eraseIdx n ∧ (t.agent a).buf = (s.agent a).buf ∧ (t.agent a).rmws = (s.agent a).rmws ∧
        (∀ r ∈ (t.agent a).rets, r ∉ (s.agent a).rets → r.bytes = [] ∧ r.bad = none)) ∧
      (s.kvVoid a e = false → s.orderAllows a e = true → s.blockAllows a e = true → e.absent = none →
        (e.kind = .read → s.linked e = false → exec (.issue a n) s = .next s) ∧
        ((e.kind = .read → s.linked e = true) → ∃ t, exec (.issue a n) s = .next t ∧ t.mem = s.mem ∧ (∀ b, b ≠ a → t.agent b = s.agent b) ∧
          (t.agent a).q = (s.agent a).q.eraseIdx n ∧
          (e.kind = .write → (t.agent a).buf = (s.agent a).buf ++ [e] ∧ (t.agent a).rets = (s.agent a).rets) ∧
          (∀ op, e.kind = .rmw op → (t.agent a).rmws = (s.agent a).rmws ++ [e] ∧ (t.agent a).buf = (s.agent a).buf) ∧
          (e.kind = .read → e.dest ≠ .none → e.tagRead = false →
            (t.agent a).rets = (s.agent a).rets ++
              [{ dest := e.dest, bytes := e.pieces.map (fun p => s.readByte (Agent.ofKey a) p.key), tag := 0, bad := none }] ∧
            (t.agent a).buf = (s.agent a).buf)))) ∧
  (∀ (s : State) (a n : Nat) (w : Ev),
      (s.agent a).buf[n]? = some w →
        let older := (s.agent a).buf.take n
        (s.kvVoid a w = true →
          exec (.commit a n) s = .next (s.setAgent a { s.agent a with buf := (s.agent a).buf.eraseIdx n })) ∧
        (s.kvVoid a w = false → (∀ x ∈ older, overlaps x w = false) → (w.ord = .so → ∀ x ∈ older, x.ord ≠ .so) → s.linked w = true →
          ∃ t m, exec (.commit a n) s = .next t ∧ t.mem = s.mem.append m ∧
            t.agent a = { s.agent a with buf := (s.agent a).buf.eraseIdx n } ∧ (∀ b, b ≠ a → t.agent b = s.agent b) ∧
            m.id = w.id ∧ m.org = a ∧ m.level = narrowest (Agent.ofKey a) ∧ m.ord = w.ord ∧
            m.plain = w.isPlainUn ∧ m.cells = w.pieces.map (fun p => (p.key, maskByte (s.mem.coLast p.key) p.value p.mask))) ∧
        (s.kvVoid a w = false → (∃ x ∈ older, overlaps x w = true) ∨ s.linked w = false → exec (.commit a n) s = .next s))

/-- R225, R229, R231: a write appended to the coherence order is what every agent that can see it reads of its bytes, and
what the next RMW reads; the other bytes, and the bytes that other agents see, stay; memory keeps its canonical form.

R231 (S4): a write that no older one of its origin holds back enters the visibility set of its next wider scope: its
level rises by one, and an agent within that scope reads its bytes where no later write that it sees covers them; the
coherence order of every byte stays, and what every agent reads whom the wider scope does not add. -/
def Obligations.CoherenceOrder : Prop :=
  (∀ (m : Memory) (w : MWrite),
      m.wf = true → (∀ x ∈ m.recent ++ [w], (x.cells.map Prod.fst).Nodup) →
        (m.append w).wf = true ∧
        (∀ k, (m.append w).coLast k = (w.at? k).getD (m.coLast k)) ∧
        (∀ ag k, visibleTo ag w = true → (m.append w).coVisible ag k = (w.at? k).getD (m.coVisible ag k)) ∧
        (∀ ag k, visibleTo ag w = false → (m.append w).coVisible ag k = m.coVisible ag k)) ∧
  (∀ (s : State) (n : Nat) (w : MWrite),
      s.mem.wf = true → (∀ x ∈ s.mem.recent, (x.cells.map Prod.fst).Nodup) →
      s.mem.recent[n]? = some w → w.level < 5 →
      (∀ x ∈ s.mem.recent.take n, ¬(x.org = w.org ∧ x.level ≤ w.level ∧
        (x.meets w = true ∨ (w.ord = .so ∧ x.ord = .so)))) →
        ∃ t, exec (.propagate n) s = .next t ∧ t.mem.wf = true ∧ (∀ k, t.mem.coLast k = s.mem.coLast k) ∧
          t = { s with mem := t.mem } ∧
          t.mem = Memory.settle s.mem.cells s.mem.tags (s.mem.recent.set n { w with level := w.level + 1 }) ∧
          (∀ ag k v, joinLevel (Agent.ofKey w.org) ag ≤ w.level + 1 → w.at? k = some v →
            (∀ x ∈ s.mem.recent.drop (n + 1), visibleTo ag x = true → x.at? k = none) → t.mem.coVisible ag k = v) ∧
          (∀ ag k, joinLevel (Agent.ofKey w.org) ag ≠ w.level + 1 → t.mem.coVisible ag k = s.mem.coVisible ag k))

/-- R232, R309 (S5): an RMW reads the last write in the coherence order and appends its result, visible to every agent, in
one step, and its old value returns; it waits while its agent's buffer holds a write to one of its bytes, or while
an RMW of its agent that issued before it has still to update one of them (R314), or, which is the model's choice (log 127) for
what R244 and Table 23-6 say of requests in their slots, while the port to its home is down. An RMW on a dead branch's slot of the
KV window is not performed (R360).

R319 to R321: `bnew`'s RMW writes the object that its descriptor names. An arrival at a flat object lowers the count of its
phase, and completes the oldest phase, which opens again with EXP, when its count is then 0; it faults by BARVAL, BARRANGE and
BARCNT and then changes nothing. At a tree-bound object a member arrives at its own next phase, and an arrival of a dead branch
changes nothing.

R330, R217: a value that returns goes to its destination and nowhere else: an s register of its bank, which is then no
longer outstanding, a pattern register, a codebook register, or the instruction that waits for it. -/
def Obligations.RmwsAndReturns : Prop :=
  (∀ (s : State) (a n : Nat) (e : Ev) (op : AtomOp) (fl sg : Bool) (x c : Word),
      (s.agent a).rmws[n]? = some e → e.kind = .rmw (.atomic op fl sg x c) →
        let keys := e.pieces.map Piece.key
        let old := keys.map s.mem.coLast
        let new := leBytes e.size (atomValue op fl sg (8 * e.size) (BitVec.ofNat 64 (leNat old)) x c).toNat
        (s.kvVoid a e = true → ∃ t, exec (.rmwPerform a n) s = .next t ∧ t.mem = s.mem ∧
          (t.agent a).rmws = (s.agent a).rmws.eraseIdx n) ∧
        (s.kvVoid a e = false → (∀ w ∈ (s.agent a).buf, overlaps w e = false) → (∀ w ∈ (s.agent a).rmws.take n, overlaps w e = false) →
          e.dest ≠ .none → s.linked e = true →
          ∃ t, exec (.rmwPerform a n) s = .next t ∧
            t.mem = s.mem.append
              { id := e.id, org := a, cells := keys.zip new, tag := none, level := 5, ord := e.ord, plain := false } ∧
            (t.agent a).rmws = (s.agent a).rmws.eraseIdx n ∧
            (t.agent a).rets = (s.agent a).rets ++ [{ dest := e.dest, bytes := old, tag := 0, bad := none }] ∧
            (∀ b, b ≠ a → t.agent b = s.agent b)) ∧
        (s.kvVoid a e = false →
          (∃ w ∈ (s.agent a).buf ++ (s.agent a).rmws.take n, overlaps w e = true) ∨ s.linked e = false →
          exec (.rmwPerform a n) s = .next s)) ∧
  (∀ (s : State) (a n : Nat) (e : Ev) (op : RmwOp),
      (s.agent a).rmws[n]? = some e → e.kind = .rmw op → e.pieces.length = 32 → e.dest ≠ .none → s.kvVoid a e = false →
      (∀ w ∈ (s.agent a).buf, overlaps w e = false) → (∀ w ∈ (s.agent a).rmws.take n, overlaps w e = false) →
      s.linked e = true →
        let keys := e.pieces.map Piece.key
        let old := keys.map s.mem.coLast
        let o : BitVec 256 := BitVec.ofNat 256 (leNat old)
        let rem (x : BitVec 256) (q : BitVec 16) : Nat := (bits x (128 + 32 * (q.toNat % 4)) 32).toNat
        let p : BitVec 16 := bits o 0 16 + 1
        let legal := bits o 112 16 = 0 ∧ bits o 24 40 = 0 ∧ bits o 16 3 = 0 ∧ 1 ≤ (bits o 20 3).toNat ∧
          (bits o 20 3).toNat ≤ 5
        let performs (ok : State → BitVec 256 → Prop) : Prop := ∃ t new, exec (.rmwPerform a n) s = .next t ∧
          t.mem = s.mem.append
            { id := e.id, org := a, cells := keys.zip new, tag := none, level := 5, ord := e.ord, plain := false } ∧
          new.length = 32 ∧ ok t (BitVec.ofNat 256 (leNat new)) ∧ (t.agent a).rmws = (s.agent a).rmws.eraseIdx n ∧
          (t.agent a).rets = (s.agent a).rets ++ [{ dest := e.dest, bytes := old, tag := 0, bad := none }]
        let faults (c : Cause) : Prop := ∃ t, exec (.rmwPerform a n) s = .next t ∧ t.mem = s.mem ∧
          (t.agent a).rmws = (s.agent a).rmws.eraseIdx n ∧
          (t.agent a).rets = (s.agent a).rets ++ [{ dest := e.dest, bytes := old, tag := 0, bad := some c }]
        -- only the count of phase q, which becomes m, and DONE, which becomes d
        let counts (z : BitVec 256) (q : BitVec 16) (m : Nat) (d : BitVec 16) : Prop :=
          bits z 16 112 = bits o 16 112 ∧ bits z 0 16 = d ∧
            ∀ r : BitVec 16, rem z r = if r.toNat % 4 = q.toNat % 4 then m else rem o r
        (∀ x, op = .create x → bitAt x 19 = false →
          performs fun t z => bits z 0 16 = bits x 0 16 - 1 ∧ bits z 16 4 = 0 ∧ bits z 20 3 = bits x 16 3 ∧
            bits z 23 41 = 0 ∧ bits z 64 32 = bits x 32 32 ∧ bits z 96 32 = 0 ∧ (∀ k y, s.ctx? k = some y → ∃ y', t.ctx? k = some y' ∧ y'.branches = y.branches) ∧
            ∀ r : BitVec 16, rem z r = (bits x 32 32).toNat) ∧
        (∀ v c who b, op = .arrive v c who b →
          (¬legal → faults .barval) ∧
          (legal → bitAt o 19 = false →
            let q := v.getD p
            (bitAt o 23 = true → faults .barrange) ∧
            (bitAt o 23 = false → 3 < (q - p).toNat → faults .barrange) ∧
            (bitAt o 23 = false → (q - p).toNat ≤ 3 → rem o q < c → faults .barcnt) ∧
            (bitAt o 23 = false → (q - p).toNat ≤ 3 → c ≤ rem o q → ¬(q = p ∧ c = rem o q) → rem o p ≠ 0 →
              performs fun _ z => counts z q (rem o q - c) (bits o 0 16)) ∧
            (bitAt o 23 = false → q = p → c = rem o p → rem o (p + 1) ≠ 0 →
              performs fun _ z => counts z p (bits o 64 32).toNat p)) ∧
          (∀ k x, legal → bitAt o 19 = true → b = some k → s.ctx? who = some x →
            (x.isDead k = true → performs fun _ z => z = o) ∧
            (x.isDead k = false → bitAt o 23 = false → (x.branch k).bar ≠ some e.va → faults .bartree) ∧
            (let q := (x.branch k).barph
             x.isDead k = false → bitAt o 23 = false → (x.branch k).bar = some e.va → c = 1 → v.getD q = q →
             (q - p).toNat ≤ 3 → 1 ≤ rem o q → rem o p ≠ 0 → ¬(q = p ∧ rem o q = 1) →
              performs fun t z => counts z q (rem o q - 1) (bits o 0 16) ∧
                ∃ y, t.ctx? who = some y ∧ (y.branch k).barph = q + 1)))) ∧
  (∀ (s : State) (a n : Nat) (r : Ret), (s.agent a).rets[n]? = some r →
      ∃ t, exec (.loadReturn a n) s = .next t ∧
        (∀ q pv d, r.dest = .sreg q pv d false → d ≠ 0 → r.bytes.length = 8 →
          t.mem = s.mem ∧ t.planes = s.planes ∧ (t.agent a).rets = (s.agent a).rets.eraseIdx n ∧
          vget (if pv then (t.seq q).bank else (t.seq q).user) d.toNat 0 = BitVec.ofNat 64 (leNat r.bytes) ∧
          bitAt (if pv then (t.seq q).outP else (t.seq q).outU) d.toNat = false ∧
          (if pv then (t.seq q).user = (s.seq q).user else (t.seq q).bank = (s.seq q).bank) ∧
          (∀ i, i < 32 → i ≠ d.toNat →
            vget (if pv then (t.seq q).bank else (t.seq q).user) i 0 =
              vget (if pv then (s.seq q).bank else (s.seq q).user) i 0)) ∧
        (∀ k g, r.dest = .greg k g → t.mem = s.mem ∧
          (t.plane k).g = vput (s.plane k).g g.toNat (BitVec.ofNat 256 (leNat r.bytes)) ∧
          bitAt (t.seq (k / 4)).outG g.toNat = false ∧ RegsStay s t (k / 4)) ∧
        (∀ k g, r.dest = .creg k g → t.mem = s.mem ∧
          (t.plane k).c = vput (s.plane k).c g.toNat (BitVec.ofNat 256 (leNat r.bytes)) ∧
          bitAt (t.seq (k / 4)).outC g.toNat = false ∧ RegsStay s t (k / 4)) ∧
        (∀ q ip m id hit got, r.dest = .wait q → (s.seq q).wait = .event ip m id hit got →
          t.mem = s.mem ∧ (t.seq q).wait = .event ip m id hit (some (r.bytes, r.bad)) ∧ RegsStay s t q))

/-- R197, R199, R200: a granted walk that no `tlbi` covers reads one entry at a time: it goes on to the table that a valid
upper entry names; the first leaf of the page's group of 32 decides the page where it has LG, and else the page's own leaf,
whose LG is ignored: that it still names its own frame is the model's reading (log 56). With its last read the leaf, or the fault that the walk ended in, enters the caches of all who wait for
it.

R198: a free parking entry goes to the miss of its board that has waited longest. A write to a page whose leaf has COW
copies the 64 KiB page, as the writing agent reads it, to a frame of the pool; the new leaf names the copy and has no COW;
of a 2 MiB page the other 31 pages keep their frames in leaves of their own (log 15).

R196, R201, R252, R309, Tables 8-4 and 8-6: of an address that no window of the context's branches and no mail slot holds, the entry
decides the access: the fault that its walk ended in; PROT where the key id is not the context's, where the leaf lacks R, W or X
for what the access does, and for weight SRAM but to a copy's read; HOSTATOM for a read-modify-write of host memory; a copy for a
write where COW is set; and else the physical address of R199. An address in the weight window is PROT but to a copy's read, and
WWIN = 0 is no window, the model's choice (log 136). -/
def Obligations.WalksAndCopies : Prop :=
  (∀ (s : State) (req board region ctx va : Nat) (c : Ctx) (use : Use),
      s.ctx? ctx = some c → c.kvWindow = none → c.inMail ctx va = false →
      let answer := s.translate req board region ctx va use
      let ww := (s.region region).wwin.toNat
      let inWindow := ww ≠ 0 ∧ ww ≤ va ∧ va < ww + 2 ^ 23
      (inWindow → use ≠ .copyRead → answer = .fault .prot) ∧
      (inWindow → use = .copyRead → ∃ p, answer = .ok p ∧ p.key = weightStart + region * 2 ^ 23 + (va - ww)) ∧
      (¬inWindow → ∀ e, s.lookup req board ctx (va / 2 ^ 16) = some e →
        let l := e.leaf
        let lacks := (Leaf.key l).toNat ≠ c.key ∨ (Leaf.mkind l = 2 ∧ use ≠ .copyRead) ∨
          (match use with
            | .read | .copyRead => Leaf.r l = false
            | .write => Leaf.w l = false
            | .fetch => Leaf.x l = false
            | .atomic => Leaf.r l = false ∨ Leaf.w l = false)
        (∀ x, e.bad = some x → answer = .fault x) ∧
        (e.bad = none → lacks → answer = .fault .prot) ∧
        (e.bad = none → ¬lacks → use = .atomic → Leaf.mkind l = 4 → answer = .fault .hostatom) ∧
        (e.bad = none → ¬lacks → (use = .write ∨ use = .atomic ∧ Leaf.mkind l ≠ 4) → Leaf.cow l = true → answer = .copy) ∧
        (e.bad = none → ¬lacks → (use = .read ∨ use = .copyRead ∨
            (use = .write ∨ use = .atomic ∧ Leaf.mkind l ≠ 4) ∧ Leaf.cow l = false) →
          ∃ p, answer = .ok p ∧ p.leaf = l ∧ p.key = physKey (Leaf.mkind l)
            (if Leaf.lg l then Leaf.frame l / 32 * 2 ^ 21 + va % 2 ^ 21 else Leaf.frame l * 2 ^ 16 + va % 2 ^ 16)))) ∧
  (∀ (s : State) (n board : Nat) (w : Walk) (c : Ctx),
      (s.walks[n]? = some w → w.copy = false → w.granted = true → w.dropped = false → s.ctx? w.ctx = some c →
        let entry (k : Nat) : Word := s.tableEntry w.table k
        let i := w.page % 512
        let goes (x : Walk) : Prop :=
          ∃ t, exec (.walkComplete n) s = .next t ∧ t.walks = s.walks.set n x ∧ t.mem = s.mem ∧ t.tlbs = s.tlbs ∧
            t.units = s.units
        let ends (l : Word) (bad : Option Cause) : Prop :=
          ∃ t, exec (.walkComplete n) s = .next t ∧ t.walks = s.walks.eraseIdx n ∧ t.mem = s.mem ∧
            ∀ r ∈ w.requesters, t.lookup r w.board w.ctx w.page = some { ctx := w.ctx, page := w.page, leaf := l, bad }
        let decides (l : Word) : Prop :=
          (Leaf.v l = false → ends 0 (some .page)) ∧
          (Leaf.v l = true → Leaf.reserved l = true → ends 0 (some .pteres)) ∧
          (Leaf.v l = true → Leaf.reserved l = false → ends l none)
        (w.found = none → w.level < 4 →
          let x := entry (w.page * 2 ^ 16 / 2 ^ (16 + 9 * (4 - w.level)) % 512)
          (bitAt x 0 = false → ends 0 (some .page)) ∧
          (bitAt x 0 = true → (bits x 1 11 ≠ 0 ∨ bits x 48 16 ≠ 0) → ends 0 (some .pteres)) ∧
          (bitAt x 0 = true → bits x 1 11 = 0 → bits x 48 16 = 0 →
            goes { w with level := w.level + 1, table := (bits x 12 36).toNat * 4096 })) ∧
        (w.found = none → w.level = 4 →
          let first := entry (i / 32 * 32)
          (Leaf.lg first = true → goes { w with found := some first }) ∧
          (Leaf.lg first = false → i % 32 ≠ 0 → goes { w with level := 5 }) ∧
          (Leaf.lg first = false → i % 32 = 0 → decides first)) ∧
        (w.found = none → w.level = 5 → decides (entry i &&& ~~~((1 : Word) <<< 48))) ∧
        (∀ l, w.found = some l → decides l)) ∧
      (∀ pre post : List Walk, s.walks = pre ++ w :: post → w.board = board → w.granted = false →
        (∀ x ∈ pre, x.board = board → x.granted = true) →
        (s.walks.filter fun w => w.board = board && w.granted).length < 256 →
        exec (.parkingEntryGrant board) s = .next { s with walks := pre ++ ({ w with granted := true } :: post) })) ∧
  (∀ (s s' : State) (n f a : Nat) (w : Walk) (c c' : Ctx) (l : Word),
      s.walks[n]? = some w → w.copy = true → w.granted = true → s.copyReady w = true → s.ctx? w.ctx = some c →
      c.kvWindow = none → s.walkTables c (w.page * 2 ^ 16) = .ok (a, l) → Leaf.cow l = true →
      ({ s with walks := s.walks.eraseIdx n }).takeFrame w.ctx c = some (f, c', s') →
        ∃ t new bytes, exec (.copyOnWrite n) s = .next t ∧
          t.mem = (s.copyPage (Agent.ofKey w.agent) (leafKey l (w.page * 2 ^ 16)) (c'.frameKey f)).poke 0 (keyed a bytes) ∧
          Leaf.cow new = false ∧ Leaf.frame new = (c'.poolBase + f) % 2 ^ 32 ∧ bits new 0 4 = bits l 0 4 ∧
          (Leaf.lg l = false → bytes = leBytes 8 new.toNat) ∧
          (Leaf.lg l = true → ∃ leaf : Nat → Word, bytes = (List.range 32).flatMap (fun k => leBytes 8 (leaf k).toNat) ∧
            leaf (w.page % 32) = new ∧
            ∀ k, k < 32 → k ≠ w.page % 32 → Leaf.lg (leaf k) = false ∧ Leaf.cow (leaf k) = true ∧
              Leaf.frame (leaf k) = (Leaf.frame l / 32 * 32 + k) % 2 ^ 32 ∧ bits (leaf k) 0 4 = bits l 0 4) ∧
          (∀ r board, t.lookup r board w.ctx w.page = none))

/-- R371: `fork` with room makes the n children of branch p under the lowest run of n free numbers in one group of 64, each
live with p's page list and the next depth, raises p's NCH by n and writes the first number; without room it writes all
ones and sets TSTAT.FORKF; an operand out of range raises BRVAL. No byte of memory changes where p has no barrier; the
turn then writes the branch table's own bytes (R356, log 116).

R373, R374: `bwait` writes 1 when every child of its branch is finished and 0 when its cycles have passed, and sleeps
otherwise; `brinfo` writes one word of the branch's entry, and 0 for a free entry; numbers from 65,536 raise BRVAL. -/
def Obligations.BranchesForked : Prop :=
  (∀ (s : State) (q ctx : Nat) (x : Ctx) (d a b : SReg),
      Issues s q [d, a, b] → s.ctxOf q = some ctx → s.ctx? ctx = some x →
        let p := (s.seq q).read a
        let n := ((s.seq q).read b).toNat
        let e := x.branch p.toNat
        let own := match (s.seq q).branch with | some o => x.isLive o | none => true
        let ok := x.isLive p.toNat = true ∧ own = true ∧ s.liveBranches + n ≤ 1048576
        (∀ c, p.toNat < 65536 → 1 ≤ n → n ≤ 64 → ok → x.freeRun n = some c → e.bar = none → e.rootOf = none →
          ∃ t y, exec (.fork d a b) s = .next t ∧ t.ctx? ctx = some y ∧
            (∀ k, k < n → y.branch (c + k) = { Branch.free with
              st := 1, parent := p.toNat, len := e.len, head := e.head, depth := e.depth + 1 }) ∧
            y.branch p.toNat = { e with nch := e.nch + n } ∧
            (∀ k, k ≠ p.toNat → ¬(c ≤ k ∧ k < c + n) → y.branch k = x.branch k) ∧
            (∀ r, (t.seq q).read r = if r = d ∧ d ≠ 0 then BitVec.ofNat 64 c else (s.seq q).read r) ∧
            (t.seq q).ip = (s.seq q).ip + 4 ∧ t.mem = s.mem) ∧
        (p.toNat < 65536 → 1 ≤ n → n ≤ 64 → (¬ok ∨ x.freeRun n = none) →
          SeqGoesOn (.fork d a b) s (s.setSeq q { s.seq q with tstat := (s.seq q).tstat ||| 2 }) q d
            0xFFFFFFFFFFFFFFFF 4) ∧
        (65536 ≤ p.toNat ∨ n < 1 ∨ 64 < n → EStat.inh (s.seq q).estat = false →
          ∃ t, exec (.fork d a b) s = .next t ∧ Trapped s t q .brval 0 (s.seq q).ip)) ∧
  (∀ (s : State) (q ctx : Nat) (c : Ctx) (d a b : SReg) (n : BitVec 2),
      Issues s q [d, a, b] → s.ctxOf q = some ctx → s.ctx? ctx = some c →
        let v := s.seq q
        let x := (v.read a).toNat
        let e := c.branch x
        (x < 65536 → v.wait = .none →
          let limit := if v.read b = 0xFFFFFFFFFFFFFFFF then none else some (v.read b).toNat
          (c.childrenDone x = true → SeqGoesOn (.bwait d a b) s (s.setSeq q (v.setWait .none)) q d 1 4) ∧
          (c.childrenDone x = false → limit = some 0 →
            SeqGoesOn (.bwait d a b) s (s.setSeq q (v.setWait .none)) q d 0 4) ∧
          (c.childrenDone x = false → limit ≠ some 0 →
            exec (.bwait d a b) s = .next (s.setSeq q (v.setWait (.timed v.ip limit none true))))) ∧
        (x < 65536 → (x < c.nbr ∧ e.st ≠ 0 →
            (n = 0 → e.st < 4 → e.parent < 65536 → e.nch < 65536 → e.act < 65536 → ∃ y : Word,
              SeqWrites (.brinfo d a n) s q d y 4 ∧ (bits y 62 2).toNat = e.st ∧ bitAt y 61 = e.ran ∧
              (bits y 32 16).toNat = e.parent ∧ (bits y 16 16).toNat = e.nch ∧ (bits y 0 16).toNat = e.act) ∧
            (n = 2 → e.len < 65536 → e.head < 2 ^ 52 → ∃ y : Word, SeqWrites (.brinfo d a n) s q d y 4 ∧
              (bits y 48 16).toNat = e.len ∧ (bits y 0 44).toNat = e.head / 256)) ∧
          (¬(x < c.nbr ∧ e.st ≠ 0) → SeqWrites (.brinfo d a n) s q d 0 4)) ∧
        (65536 ≤ x → EStat.inh v.estat = false → ∀ i, (i = .bwait d a b ∨ i = .brinfo d a n) →
          ∃ t, exec i s = .next t ∧ Trapped s t q .brval 0 v.ip))

/-- R372, R362, R451: `resign` marks a live branch and its live subtree dead as one action, waits until the marking has
reached the liveness copy of its region, and goes on; it leaves a branch that is not live; branch 0 and numbers from 65,536
raise BRVAL. The marking reaches each copy by itself.

R362: the walker of a marked subtree whose branches have no barrier drops their page lists, lowers the counts of their
parents and retires their records from the steering queues of the context; their marks go. -/
def Obligations.BranchesResigned : Prop :=
  (∀ (s : State) (q ctx : Nat) (c : Ctx) (a : SReg), s.ctx? ctx = some c →
      (Issues s q [a] → s.ctxOf q = some ctx →
        let b := ((s.seq q).read a).toNat
        let v := s.seq q
        (0 < b → b < 65536 → v.wait ≠ .marking v.ip → c.isLive b = true →
          ∃ t y, exec (.resign a) s = .next t ∧ t.ctx? ctx = some y ∧ y.isLive b = false ∧
            (∀ k ∈ c.liveBranches, c.below b k = true → y.isLive k = false ∧ k ∈ y.marked) ∧
            (∀ k, c.isLive k = true → c.below b k = false → y.branch k = c.branch k) ∧
            RegsStay s t q ∧ (t.seq q).ip = v.ip ∧ (t.seq q).wait = .marking v.ip ∧ t.mem = s.mem) ∧
        (0 < b → b < 65536 → v.wait = .marking v.ip → ((ctx, b) ∈ (s.region q).dead ∨ (c.branch b).st ≠ 2) →
          SeqGoesOn (.resign a) s (s.setSeq q (v.setWait .none)) q 0 0 4) ∧
        (0 < b → b < 65536 → v.wait ≠ .marking v.ip → c.isLive b = false → SeqWrites (.resign a) s q 0 0 4) ∧
        (b = 0 ∨ 65536 ≤ b → EStat.inh (s.seq q).estat = false →
          ∃ t, exec (.resign a) s = .next t ∧ Trapped s t q .brval 0 (s.seq q).ip)) ∧
      (∀ i, ∃ t, exec (.markingPropagate ctx i) s = .next t ∧
        (∀ e ∈ c.branches, e.2.st = 2 →
          (i < 132 → (ctx, e.1) ∈ (t.region i).dead) ∧
          (132 ≤ i → (ctx, e.1) ∈ (Tab.getD t.disps (i - 132) Dispatcher.empty).dead)) ∧
        t.mem = s.mem ∧ t.ctxs = s.ctxs ∧ t.seqs = s.seqs)) ∧
  (∀ (s : State) (ctx b : Nat) (c : Ctx), s.ctx? ctx = some c → b ∈ c.marked → (c.branch b).parent ∉ c.marked →
      (∀ k ∈ c.marked, (c.branch k).bar = none) →
        ∃ t y, exec (.resignWalk ctx b) s = .next t ∧ t.ctx? ctx = some y ∧
          y.marked = c.marked.filter (fun k => !c.below b k) ∧ t.mem = s.mem ∧ t.seqs = s.seqs ∧
          (∀ k ∈ c.marked, c.below b k = true → (y.branch k).len = 0 ∧ (y.branch k).head = 0) ∧
          (∀ k, ¬(k ∈ c.marked ∧ c.below b k = true) → (y.branch k).nch = (c.branch k).nch -
            (c.marked.filter fun j => c.below b j && decide ((c.branch j).parent = k)).length) ∧
          (∀ k r, (t.plane k).ctx = some ctx → ∀ g : Nat, g < 4 →
            (r ∈ (vget (t.plane k).groups g StGroup.empty).queue ∨ r ∈ (vget (t.plane k).groups g StGroup.empty).done) →
            ∀ n, r.branch = some n →
              n ∉ c.marked.filter (c.below b)))

/-- R375: `alloc` takes a free frame and writes its address in the pool window, or 0 with TSTAT.ALLOCF; `alloc.kv` makes a
fresh frame page LEN of a live branch and writes the page's address in the KV window; `free` returns a frame whose FREF
is 1 and that is in no list and writes 0, and writes 1 otherwise. No byte of memory changes;
the turn then writes the branch table's and the chunks' own bytes (R356, R359, log 116). -/
def Obligations.FramesAllocated : Prop :=
  ∀ (s : State) (q ctx : Nat) (c : Ctx) (d a : SReg),
    Issues s q [d, a] → s.ctxOf q = some ctx → s.ctx? ctx = some c →
      let v := s.seq q
      let failed (i : Instr) : Prop := SeqGoesOn i s (s.setSeq q { v with tstat := v.tstat ||| 1 }) q d 0 4
      let writes (t : State) (y : Word) : Prop :=
        (∀ r, (t.seq q).read r = if r = d ∧ d ≠ 0 then y else v.read r) ∧ (t.seq q).ip = v.ip + 4 ∧ t.mem = s.mem
      let b := (v.read a).toNat
      let pool := (bits c.pwin 16 36).toNat * 65536
      let f := (b - pool) / 65536
      let mine := pool ≤ b ∧ (b - pool) % 65536 = 0 ∧ f < c.poolFrames ∧ (c.frame f).fref = 1 ∧ c.inList f = false
      (s.takeFrame ctx c = none → failed (.alloc d)) ∧
      (∀ f c' s', s.takeFrame ctx c = some (f, c', s') → ∃ t y,
        exec (.alloc d) s = .next t ∧ t.ctx? ctx = some y ∧ y.frame f = { fref := 1, held := true } ∧
          writes t (BitVec.ofNat 64 (pool + f * 65536))) ∧
      (c.kvWindow = none ∨ c.isLive b = false ∨ c.freeChunks = [] ∨ s.takeFrame ctx c = none ∨
          (∃ base span, c.kvWindow = some (base, span) ∧ span / 65536 ≤ (c.branch b).len) → failed (.allocKv d a)) ∧
      (∀ base span f c' s' y n, c.kvWindow = some (base, span) → c.isLive b = true → c.freeChunks ≠ [] →
        (c.branch b).len < span / 65536 → s.takeFrame ctx c = some (f, c', s') →
        c'.appendPage b f s'.frees = some (y, n) →
          (y.branch b).len = (c.branch b).len + 1 ∧ ∃ t, exec (.allocKv d a) s = .next t ∧ t.ctx? ctx = some y ∧
            writes t (BitVec.ofNat 64 (base + b * span + (c.branch b).len * 65536))) ∧
      (mine → ∃ t y, exec (.free d a) s = .next t ∧ t.ctx? ctx = some y ∧ (y.frame f).fref = 0 ∧ writes t 0) ∧
      (¬mine → SeqWrites (.free d a) s q d 1 4)

/-- R369: `tenq` reads the image of 64 bytes at sA first, which must be 64-aligned. When the image, the header and the
levels have been read, it writes the descriptor and status 0, or a status that turns it away: 6 where the queue is
disabled, 4 for a priority outside its limits, 5 for a branch that is not live, 2 for a launch record that R27 and R28
refuse, 1 for a full queue, 3 for an image with a reserved bit or an address that is no multiple of its unit.

R370: `tsig` reads the completion word at sA and then places the release write of what it held less sB, or of 0 with
TSTAT.TSIGU where it held less; an address that is no multiple of 8 raises ALIGN.

R379: once its jobs have ended and its values have arrived, `yield` ends the instance: a region's sequencer is free, in
user mode and without a task. That it raises SYSVAL on a root core, and that it waits for values on their way to registers, is
the model's choice (log 31), since R379 speaks of regions' sequencers and of jobs alone. -/
def Obligations.TasksQueuedAndEnded : Prop :=
  (∀ (s : State) (q ctx : Nat) (c : Ctx) (d a : SReg),
      Issues s q [d, a] → s.ctxOf q = some ctx → s.ctx? ctx = some c →
        let v := s.seq q
        let u : State := s.setSeq q { v.setWait .none with got := [] }
        let Q := s.queue c.vf
        (v.stage = .fresh → (v.read a).toNat % 64 = 0 → ∀ p, s.reach q (reqLoad q) (v.read a) 64 .read = .to p →
          ∃ t e, exec (.tenq d a) s = .next t ∧ Placed s t q e ∧ e.kind = .read ∧ RegsStay s t q ∧
            e.pieces.map Piece.key = keysFrom p.key 64 ∧ (t.seq q).ip = v.ip ∧ (t.seq q).stage = .pending) ∧
        (v.stage = .fresh → (v.read a).toNat % 64 ≠ 0 → EStat.inh v.estat = false →
          ∃ t, exec (.tenq d a) s = .next t ∧ Trapped s t q .align (v.read a) v.ip) ∧
        (∀ n bs bad hit, v.stage = .back n bs bad hit → v.got.length < 64 →
          let x : BitVec 512 := BitVec.ofNat 512 (leNat bs)
          bits x 52 12 ≠ 0 ∨ bits x 116 12 ≠ 0 ∨ bits x 180 12 ≠ 0 ∨ bits x 209 15 ≠ 0 ∨ bits x 227 285 ≠ 0 ∨
            (bits x 0 64).toNat % 4 ≠ 0 ∨ (bits x 128 64).toNat % 8 ≠ 0 →
          SeqGoesOn (.tenq d a) s u q d 3 4) ∧
        (∀ n bs bad hit x, v.stage = .back n bs bad hit → v.got.length = 80 →
          DescImage.ofBytes (v.got.take 64) = some x →
            let l := wordsOf (bs.length / 8) bs
            let live := x.bv = true → c.isLive x.branch = true
            let ends (y : Word) : Prop := SeqGoesOn (.tenq d a) s u q d y 4
            (Q.enabled = false → ends 6) ∧
            (Q.enabled = true → (x.prio < Q.plo ∨ Q.phi < x.prio) → ends 4) ∧
            (Q.enabled = true → Q.plo ≤ x.prio → x.prio ≤ Q.phi → ¬live → ends 5) ∧
            (Q.enabled = true → Q.plo ≤ x.prio → x.prio ≤ Q.phi → live →
              (launchOk (s.mostOnBoard c.partition) l = false → ends 2) ∧
              (launchOk (s.mostOnBoard c.partition) l = true → 65536 ≤ Q.descs.length → ends 1) ∧
              (launchOk (s.mostOnBoard c.partition) l = true → Q.descs.length < 65536 →
                ∃ t e, exec (.tenq d a) s = .next t ∧ (t.queue c.vf).descs = Q.descs ++ [e] ∧ e.ip = x.ip ∧
                  e.lrec = x.lrec ∧ e.cword = x.cword ∧ e.prio = x.prio ∧ e.ctx = ctx ∧
                  e.branch = (if x.bv then some x.branch else none) ∧
                  (∀ r, (t.seq q).read r = if r = d ∧ d ≠ 0 then 0 else v.read r) ∧ (t.seq q).ip = v.ip + 4 ∧
                  t.mem = s.mem)))) ∧
  (∀ (s : State) (q : Nat) (sc : Scope) (a b : SReg), Issues s q [a, b] →
      let v := s.seq q
      let va := v.read a
      (v.stage = .fresh → va.toNat % 8 = 0 → ∀ p, s.reach q (reqLoad q) va 8 .read = .to p →
        ∃ t e, exec (.tsig sc a b) s = .next t ∧ Placed s t q e ∧ e.kind = .read ∧ RegsStay s t q ∧
          e.pieces.map Piece.key = keysFrom p.key 8 ∧ (t.seq q).ip = v.ip) ∧
      (v.stage = .fresh → va.toNat % 8 ≠ 0 → EStat.inh v.estat = false →
        ∃ t, exec (.tsig sc a b) s = .next t ∧ Trapped s t q .align va v.ip) ∧
      (∀ bs hit p, v.stage = .back 0 bs none hit → s.storesHeld q < 16 →
        s.reach q (reqLoad q) va 8 .write = .to p → s.seqHit q va 8 = none →
        let m := leNat bs
        let n := (v.read b).toNat
        ∃ t e, exec (.tsig sc a b) s = .next t ∧ Placed s t q e ∧ e.kind = .write ∧ e.rel = true ∧ e.scope = sc ∧
          e.pieces.map Piece.key = keysFrom p.key 8 ∧ e.pieces.map Piece.value = leBytes 8 (m - n) ∧
          RegsStay s t q ∧ (t.seq q).ip = v.ip + 4 ∧
          (t.seq q).tstat = (if m < n then v.tstat ||| 4 else v.tstat))) ∧
  (∀ (s : State) (q : Nat), Issues s q [] →
      (q < 128 → (∀ j ∈ (s.seq q).jobs, j.result ≠ none) → (s.seq q).outU = 0 → (s.seq q).outP = 0 →
        (s.seq q).outG = 0 → (s.seq q).outC = 0 →
        ∃ t, exec .yield s = .next t ∧ (t.seq q).run = .free ∧ (t.seq q).task = none ∧ (t.seq q).priv = false ∧
          (t.seq q).plane = none ∧ (t.seq q).bank = (s.seq q).bank ∧ (∀ j, j ≠ q → t.seq j = s.seq j) ∧
          t.mem = s.mem ∧
          (∀ x k, (s.seq q).task = some x → Tab.find? s.tasks x.serial = some k → k.closed = false ∨ 2 ≤ k.live →
            Tab.find? t.tasks x.serial = some { k with live := k.live - 1 }) ∧
          (∀ x k, (s.seq q).task = some x → Tab.find? s.tasks x.serial = some k → k.closed = true → k.live ≤ 1 →
            (∀ y ∈ t.tasks, y.1 ≠ x.serial))) ∧
      (128 ≤ q → EStat.inh (s.seq q).estat = false →
        ∃ t, exec .yield s = .next t ∧ Trapped s t q .sysval 0 (s.seq q).ip))

/-- R32, R33, R24, R27, R352 to R354: the dispatcher serves the task that its turn selects, or the oldest in an age slot, and
starts its next instance, or its next group of instances, on the sequencers that the rules name: in user mode at the task's IP,
s1 with the launch record, s2 with the index and every other register 0, TSTAT with the branch, the queue and the priority; the
branch has RAN then. A task whose branch is not live is dropped: no instance starts, and its branch's ACT falls. -/
def Obligations.DispatchStarts : Prop :=
  ∀ (s : State) (p vf i : Nat) (d : Desc) (c : Ctx),
    let disp := Tab.getD s.disps p Dispatcher.empty
    (if (disp.decisions + 1) % 64 = 0 then oldest (s.readyTasks p) else nextInTurn disp (s.readyTasks p)) = some (vf, i, d) →
    s.ctx? d.ctx = some c → c.state ≠ .dying →
      (∀ r rest, s.placesFor d c = r :: rest → (∀ b, d.branch = some b → c.isLive b = true) →
        (d.task = none → Tab.find? s.tasks s.taskSerial = none) →
        let places := r :: rest
        let before := ((d.task.bind fun n => Tab.find? s.tasks n).map Task.started).getD 0
        let inner := match d.levels with | (_, n) :: _ => n | [] => 1
        ∃ t, exec (.dispatchDecision p r) s = .next t ∧ t.mem = s.mem ∧
          (∀ j x, places[j]? = some x →
            (t.seq x).run = .running ∧ (t.seq x).priv = false ∧ (t.seq x).ip = d.ip ∧
            (∃ k, s.planeIn d.ctx x = some k ∧ (t.seq x).plane = some k) ∧ (t.seq x).read 1 = d.lrec ∧
            (t.seq x).read 2 = BitVec.ofNat 64 (if (groupSize d.levels).isSome then j else before % inner) ∧
            (∀ n : SReg, n ≠ 1 → n ≠ 2 → (t.seq x).read n = 0) ∧
            (bits (t.seq x).tstat 48 16).toNat = d.branch.getD 0 % 2 ^ 16 ∧ bitAt (t.seq x).tstat 47 = d.branch.isSome ∧
            (bits (t.seq x).tstat 32 8).toNat = vf % 2 ^ 8 ∧ (bits (t.seq x).tstat 29 3).toNat = d.prio % 8 ∧
            bits (t.seq x).tstat 0 29 = 0) ∧
          (∀ j, j ∉ places → t.seq j = s.seq j) ∧
          (∀ b, d.branch = some b → ∃ y, t.ctx? d.ctx = some y ∧ (y.branch b).ran = true)) ∧
      (∀ r b, d.branch = some b → (c.branch b).st ≠ 1 → b ∉ c.marked → d.task = none →
        ∃ t y, exec (.dispatchDecision p r) s = .next t ∧ t.seqs = s.seqs ∧ t.planes = s.planes ∧ t.mem = s.mem ∧
          t.ctx? d.ctx = some y ∧ (y.branch b).act = (c.branch b).act - 1)

/-- R376, R366: `amsg` places a release fence at .mod first. When it has been performed the message is placed in the target's
mailbox and status 0 written, or a status that turns it away: 3 for a target of another key or none, 2 for a closed
mailbox, 1 for a full one. Where a handler is bound the message's task enters the target's queue, once that has room.

R377: `hbind` writes a handler entry, counts its version and writes that to sD; an index from 256 or an entry out of
range raises BRVAL.

R378, R367: the forms of `trig` disarm a slot, arm it for a range or for a port, and read ARM, PEND and TCOUNT; a slot
that has fired and whose handler is bound places its message, with the slot and the count, and PEND and TCOUNT clear. -/
def Obligations.MessagesAndHandlers : Prop :=
  (∀ (s : State) (q n : Nat) (x : Ctx) (d a b c : SReg) (h : BitVec 8),
      Issues s q [d, a, b, c] → s.ctxOf q = some n → s.ctx? n = some x →
        let v := s.seq q
        let tgt := (bits (v.read a) 0 16).toNat
        let u := s.setSeq q (v.setWait .none)
        let ends (y : Word) : Prop := SeqGoesOn (.amsg d a b c h) s u q d y 8
        (v.stage = .fresh → bits (v.read a) 16 48 = 0 →
          ∃ t e, exec (.amsg d a b c h) s = .next t ∧ Placed s t q e ∧ e.kind = .fence .rel ∧ e.scope = .mod ∧
            RegsStay s t q ∧ (t.seq q).ip = v.ip) ∧
        (v.stage = .fresh → bits (v.read a) 16 48 ≠ 0 → EStat.inh v.estat = false →
          ∃ t, exec (.amsg d a b c h) s = .next t ∧ Trapped s t q .brval 0 v.ip) ∧
        (∀ m bs bad hit, v.stage = .back m bs bad hit →
          (s.ctx? tgt = none → ends 3) ∧
          (∀ y, s.ctx? tgt = some y →
            (y.key ≠ x.key → ends 3) ∧
            (y.key = x.key → y.state = .dying ∨ y.mailClosed = true → ends 2) ∧
            (y.key = x.key → y.state ≠ .dying → y.mailClosed = false → 4096 ≤ y.mail.length → ends 1) ∧
            (y.key = x.key → y.state ≠ .dying → y.mailClosed = false → y.mail.length < 4096 → y.freeMailEntries ≠ [] →
              ∃ t z m, exec (.amsg d a b c h) s = .next t ∧ t.ctx? tgt = some z ∧ z.mail = y.mail ++ [m] ∧
                m.entry ∈ y.freeMailEntries ∧ m.handler = h.toNat ∧ m.sender = n ∧ m.w0 = v.read b ∧ m.w1 = v.read c ∧
                (m.held = true ↔ y.resolve h.toNat = none) ∧
                (∀ x, y.resolve h.toNat = some x → (s.queue y.vf).descs.length < 65536 →
                  ∃ e, (t.queue y.vf).descs = (s.queue y.vf).descs ++ [e] ∧ e.ip = x.ip ∧ e.prio = x.prio ∧ e.ctx = tgt ∧
                    e.mail = some m.entry) ∧
                (∀ r, (t.seq q).read r = if r = d ∧ d ≠ 0 then 0 else v.read r) ∧ (t.seq q).ip = v.ip + 8)))) ∧
  (∀ (s : State) (q ctx : Nat) (c : Ctx) (d a b : SReg),
      Issues s q [d, a, b] → s.ctxOf q = some ctx → s.ctx? ctx = some c →
        let v := s.seq q
        let h := (v.read a).toNat
        let w := v.read b
        let legal := bits w 55 9 = 0 ∧ bits w 0 2 = 0 ∧ (s.queue c.vf).plo ≤ (bits w 52 3).toNat ∧
          (bits w 52 3).toNat ≤ (s.queue c.vf).phi
        (h < 256 → legal → (∀ m ∈ c.mail, m.held = false) →
          ∃ t y, exec (.hbind d a b) s = .next t ∧ t.ctx? ctx = some y ∧ (y.handler h).valid = (w != 0) ∧
            (y.handler h).ip = BitVec.ofNat 64 (w.toNat % 2 ^ 52) ∧ (y.handler h).prio = (bits w 52 3).toNat ∧
            (y.handler h).version = (c.handler h).version + 1 ∧
            (∀ r, (t.seq q).read r = if r = d ∧ d ≠ 0 then ((c.handler h).version + 1).setWidth 64 else v.read r) ∧
            (t.seq q).ip = v.ip + 4 ∧ t.mem = s.mem) ∧
        (256 ≤ h ∨ ¬legal → EStat.inh v.estat = false →
          ∃ t, exec (.hbind d a b) s = .next t ∧ Trapped s t q .brval 0 v.ip)) ∧
  (∀ (s : State) (q ctx : Nat) (c : Ctx) (slot : BitVec 4), s.ctx? ctx = some c →
      let v := s.seq q
      let x := vget c.trigs slot.toNat Trig.empty
      (s.ctxOf q = some ctx →
        (Issues s q [] → ∃ t y, exec (.trigOff slot) s = .next t ∧ t.ctx? ctx = some y ∧
          vget y.trigs slot.toNat Trig.empty = { x with arm := false, pend := false, count := 0 } ∧
          (∀ i, i ≠ slot.toNat → vget y.trigs i Trig.empty = vget c.trigs i Trig.empty) ∧
          RegsStay s t q ∧ (t.seq q).ip = v.ip + 8 ∧ t.mem = s.mem) ∧
        (∀ h port, Issues s q [] → ∃ t y z, exec (.trigPort slot h port) s = .next t ∧ t.ctx? ctx = some y ∧
          vget y.trigs slot.toNat Trig.empty = z ∧ z.arm = true ∧ z.port = some (q, port.toNat) ∧ z.handler = h.toNat ∧
          (x.arm = false → z.pend = false ∧ z.count = 0) ∧ RegsStay s t q ∧ (t.seq q).ip = v.ip + 8 ∧ t.mem = s.mem) ∧
        (∀ a b h p, Issues s q [a, b] → 0 < (v.read b).toNat → (v.read b).toNat ≤ 2 ^ 20 →
          s.reach q (reqLoad q) (v.read a) 1 .copyRead = .to p →
          trigRangeOk p.leaf (v.read a).toNat (v.read b).toNat = true →
          ∃ t y z, exec (.trigAdr a b slot h) s = .next t ∧ t.ctx? ctx = some y ∧
            vget y.trigs slot.toNat Trig.empty = z ∧ z.arm = true ∧ z.port = none ∧ z.lo = p.key ∧
            z.hi = p.key + (v.read b).toNat ∧ z.handler = h.toNat ∧ (x.arm = false → z.pend = false ∧ z.count = 0) ∧
            RegsStay s t q ∧ (t.seq q).ip = v.ip + 8 ∧ t.mem = s.mem) ∧
        (∀ d, Issues s q [d] → x.count < 2 ^ 32 → ∃ y : Word, SeqWrites (.trigRd d slot) s q d y 8 ∧
          bitAt y 63 = x.arm ∧ bitAt y 62 = x.pend ∧ (bits y 0 32).toNat = x.count)) ∧
      (x.pend = true → (c.handler x.handler).valid = true → x.mail = none → c.mail.length < 4096 →
        c.freeMailEntries ≠ [] → c.mailClosed = false → c.state ≠ .dying →
        ∃ t y m, exec (.triggerMessage ctx slot.toNat) s = .next t ∧ t.ctx? ctx = some y ∧ y.mail = c.mail ++ [m] ∧
          m.handler = x.handler ∧ m.w0 = BitVec.ofNat 64 slot.toNat ∧ m.w1 = BitVec.ofNat 64 x.count ∧ m.held = false ∧
          vget y.trigs slot.toNat Trig.empty = { x with pend := false, count := 0, mail := some m.entry }))

/-- R346, R55: `blk` launches the chain of a first block that passes its checks, and stands at its IP while the chain runs;
it writes the status of a block that fails, which is reported; and when the chain has ended it writes the chain's result
and goes on. The pieces of its image are read one at a time, in any order (R58).

R39, R101: once the index is final, the chain takes the successor that passes its checks and lays its words into the
shadow words; index 3 without a successor returns 0, and a successor that fails returns its status.

R55, R467, R60, Tables 2-11 and 2-15: the check finds no failure exactly where no cause of the tables holds; it reports a failure of
the header, at node 255, with the lowest code that holds, and without one the lowest code at the lowest instruction that fails, with
the element where its placement byte is legal. POOL names the lowest full square, where the demand against POOL is met: that it
names none where both fail is the model's reading (log 107), and what a SHAPE = 1 block needs of its partner's plane is log 75's. -/
def Obligations.BlkRunsChains : Prop :=
  (∀ (s : State) (q k : Nat) (d a : SReg),
      Issues s q [d, a] → q < 128 → s.planeOf q = some k →
        let v := s.seq q
        let pl := s.plane k
        (v.chain = none → v.parked = none → v.outG = 0 → v.outC = 0 → pl.draining = false → pl.atRest = false → pl.chain = none →
          (∀ img, s.fetchAndCheck k (!v.priv) (v.read a).toNat v.pieces = .block img →
            ∃ t ch w, exec (.blk d a) s = .next t ∧ (t.plane k).chain = some ch ∧ ch.seq = q ∧ ch.before = s.nextId ∧
              ch.era = 0 ∧ ch.cur = s.instanceOf k img ∧ ch.next = none ∧ ch.ret = none ∧ (t.seq q).chain = some w ∧
              w.ip = v.ip ∧ w.priv = v.priv ∧ w.d = d ∧ w.result = none ∧ RegsStay s t q ∧ (t.seq q).ip = v.ip ∧
              t.mem = s.mem) ∧
          (∀ f, s.fetchAndCheck k (!v.priv) (v.read a).toNat v.pieces = .bad f →
            SeqGoesOn (.blk d a) s (s.setSeq q { v with fetching := none, reports := v.reports ++ [f.record k] }) q d
              f.status 4) ∧
          (∀ l, s.fetchAndCheck k (!v.priv) (v.read a).toNat v.pieces = .need l → l ≠ [] →
            (∀ va ∈ l, ∃ b key, s.codePiece q (pl.ctx.getD 65536) va = .got b key) →
            ∃ t va b key, exec (.blk d a) s = .next t ∧ va ∈ l ∧ s.codePiece q (pl.ctx.getD 65536) va = .got b key ∧
              (t.seq q).fetching = some (v.ip, v.priv, (va, b) :: v.pieces) ∧ RegsStay s t q ∧ (t.seq q).ip = v.ip ∧
              t.mem = s.mem ∧ t.planes = s.planes)) ∧
        (∀ c, v.chain = some c → c.result = none → exec (.blk d a) s = .next s) ∧
        (∀ c r, v.chain = some c → c.ip = v.ip → v.atChain = true → c.result = some r →
          SeqGoesOn (.blk d a) s (s.setSeq q { v with chain := none }) q d r 4) ∧
        (∀ c r, v.chain = none → v.parked = some c → c.here v = true → c.result = some r →
          SeqGoesOn (.blk d a) s (s.setSeq q { v with parked := none }) q d r 4)) ∧
  (∀ (s : State) (r p i : Nat) (c : Chain),
      let k := planeKey r p
      let pl := s.plane k
      pl.chain = some c → pl.draining = false → pl.atRest = false → c.next = none → c.ret = none →
      pl.settling c.era = false → pl.decision c.era = some i →
        let off := Head128.succ c.cur.head i
        let found := s.fetchAndCheck k (s.chainUser c.seq) ((c.cur.header : Int) + 16 * off) c.pieces
        (i = 3 → off = 0 → exec (.successorFetch r p) s =
          .next (s.setPlane k { pl with chain := some { c with ret := some 0, pieces := [] } })) ∧
        (¬(i = 3 ∧ off = 0) →
          (∀ img, found = .block img → ∃ t ch, exec (.successorFetch r p) s = .next t ∧ (t.plane k).chain = some ch ∧
            ch = { c with next := some (s.instanceOf k img), pieces := [] } ∧
            (t.plane k).nodes = (s.instanceOf k img).shadows (c.era + 1) pl.nodes ∧ t.mem = s.mem) ∧
          (∀ f, found = .bad f → ∃ t, exec (.successorFetch r p) s = .next t ∧
            (t.plane k).chain = some { c with ret := some f.status, pieces := [] } ∧
            (t.seq c.seq).reports = (s.seq c.seq).reports ++ [f.record k] ∧ t.mem = s.mem) ∧
          (∀ l, found = .need l → l ≠ [] → (∀ va ∈ l, ∃ b key, s.codePiece c.seq (pl.ctx.getD 65536) va = .got b key) →
            ∃ t va b key, exec (.successorFetch r p) s = .next t ∧ va ∈ l ∧
              s.codePiece c.seq (pl.ctx.getD 65536) va = .got b key ∧
              (t.plane k).chain = some { c with pieces := (va, b) :: c.pieces } ∧ t.mem = s.mem))) ∧
  (∀ (s : State) (k : Nat) (user : Bool) (img : Image), img.place.length = img.words.length →
      let found := s.checkImage k user img
      let header := headerFault s k user img
      (found = none ↔ (∀ c, ¬header c) ∧ ∀ i c, ¬nodeFault img i c) ∧
      ∀ f, found = some f →
        ((∃ c, header c) → f.node = 255 ∧ header f.cause.toNat ∧ (∀ c, header c → f.cause.toNat ≤ c) ∧
          (f.cause.toNat ≠ 5 ∨ 4 * Head128.pool img.head < img.demand → f.element = none) ∧
          (f.cause.toNat = 5 → img.demand ≤ 4 * Head128.pool img.head → ∃ x y, f.element = some (x, y, 0) ∧
            squareFull s k img x y ∧ ∀ u v, squareFull s k img u v → y < v ∨ (y = v ∧ x ≤ u))) ∧
        ((∀ c, ¬header c) → nodeFault img f.node f.cause.toNat ∧ (∀ i c, nodeFault img i c → f.node ≤ i) ∧
          (∀ c, nodeFault img f.node c → f.cause.toNat ≤ c) ∧
          let w := (img.words[f.node]?).getD 0
          let p := (img.place[f.node]?).getD 0
          let slot := slotOf img.head f.node w p
          f.element = if placeOk w p then some (slotElement (regionOfSlot k slot) slot) else none))

/-- R22, R103: an instance that can commit gives way to its successor, or the plane's nodes and links go and the `blk` has
its result.

R104, R105, R31: when a successor is known, a source that has emitted its last token begins to emit SWITCH, and an `ext`
that has fired takes its new word at once; a node in RECONF whose links the pools hold, within its reservations or, once its
ask stands since an earlier cycle (the model's reading, log 108), where no other node has asked first, takes its shadow word and
runs. -/
def Obligations.BlocksCommit : Prop :=
  (∀ (s : State) (r p : Nat) (c : Chain),
      let k := planeKey r p
      let left (key : Nat) : Prop := key = (Agent.block r p).key
      r < 128 → p < 4 → (s.plane k).chain = some c → s.canCommit k c = true →
        (∀ n, c.next = some n → ∃ t, exec (.blockCommit r p) s = .next t ∧ Ended s t left ∧
          (t.plane k).chain = some { c with era := c.era + 1, cur := n, next := none } ∧
          (t.plane k).nodes = (s.plane k).nodes ∧ (t.plane k).links = (s.plane k).links ∧ (t.plane k).flags = 0) ∧
        (∀ x, c.next = none → c.ret = some x → ∃ t, exec (.blockCommit r p) s = .next t ∧ Ended s t left ∧
          (t.plane k).chain = none ∧ (t.plane k).nodes = [] ∧ (t.plane k).links = [] ∧
          (∀ w, (s.seq c.seq).chain = some w → (t.seq c.seq).chain = some { w with result := some x }))) ∧
  (∀ (s : State) (r p slot : Nat) (c : Chain) (i : Inst) (n : Node),
      let k := planeKey r p
      let pl := s.plane k
      pl.chain = some c → c.next = some i → Tab.find? pl.nodes slot = some n → pl.stopped = false →
        (pl.draining = false → n.era = c.era → n.phase = .run → pl.isSource slot n = true →
          (fabricOpc n.word = 0x05 → n.fired = true → ∃ t, exec (.switchInject r p slot) s = .next t ∧
            Tab.find? (t.plane k).nodes slot = some { n with phase := .reconf } ∧ t.mem = s.mem) ∧
          (fabricOpc n.word = 0x05 → n.fired = false → exec (.switchInject r p slot) s = .next s) ∧
          (fabricOpc n.word ≠ 0x05 → (n.ended = true ∨ pl.endless slot n = true) →
            ∃ t, exec (.switchInject r p slot) s = .next t ∧ t.mem = s.mem ∧
              Tab.find? (t.plane k).nodes slot =
                some { n with phase := if isMemorySlot slot then .held else .emit, emitting := 4, sent := [] })) ∧
        (∀ w x, n.phase = .reconf → n.shadow = some w → i.at? slot = some x → s.isJammed k slot = false →
          (let u := s.setPlane k (pl.reconfigured slot (c.era + 1) i n)
           ∀ l ∈ (pl.reconfigured slot (c.era + 1) i n).links, l.src = slot →
            let r := regionOfSlot k l.dst
            let q := squareOf l.dst % 512
            u.poolHolds r q = true ∧
              (u.inReservation r q k = true ∨ (s.hasAsked r q k slot = true ∧ s.outAsked r q k slot = false))) →
          ∃ t m, exec (.nodeReconfigure r p slot) s = .next t ∧ Tab.find? (t.plane k).nodes slot = some m ∧ m.word = w ∧
            m.phase = .run ∧ m.index = x.1 ∧ m.era = c.era + 1 ∧ m.shadow = none ∧ t.mem = s.mem) ∧
        (∀ w l, n.phase = .reconf → n.shadow = some w → s.isJammed k slot = false →
          (let u := s.setPlane k (pl.reconfigured slot (c.era + 1) i n)
           l ∈ (pl.reconfigured slot (c.era + 1) i n).links ∧ l.src = slot ∧
            u.inReservation (regionOfSlot k l.dst) (squareOf l.dst % 512) k = false ∧
            s.hasAsked (regionOfSlot k l.dst) (squareOf l.dst % 512) k slot = false) →
          ∃ t, exec (.nodeReconfigure r p slot) s = .next t ∧ t.planes = s.planes ∧ t.mem = s.mem ∧ t.seqs = s.seqs))

/-- R128, R136 to R138: each of the 20 lane-wise integer instructions fires on data with the results of Table 5-2.

Table 3-1, R127: Wrap, Sat, Pat and Int of the model are those of the rule, in every type. -/
def Obligations.IntegerLanes : Prop :=
  (∀ (i : Instr) (s : State) (a : At) (f : Fields) (ins : List Slot) (g : (Slot → Lane) → Lane),
      intLane i = some (f, ins, g) → NodeData s a f ins → a.room f → LaneFires i s a f ins fun v => (g v, 0)) ∧
  (∀ (ty : ElemTy) (v : Int) (x : Lane),
      (ElemTy.ifmt ty).wrap v = wrapAs ty v ∧ (ElemTy.ifmt ty).int x = intOf ty x ∧
        (ElemTy.ifmt ty).pat x = x.toNat % 2 ^ laneWidth ty ∧ intOf ty (wrapAs ty (intOf ty x)) = intOf ty x)

/-- R152 to R167, R172, R181, R182, R184, R303: each lane-wise floating-point instruction and conversion fires on data with
the value of its entry, rounded once, and its flags: sums, products, `fma`, `fmin`, `fmax`, `fcmp`, `fsgn`, `fcls`, `frnd`, `cvt`
and `sclx` by the spec's tables over the reals; `frcp`, `frsq`, `fref`, `fex2`, `flg2`, `ftnh`, `cbx` and `cbq` by the model's own
functions of one lane, which are its choice where the spec gives a real number (log 54).

R72, R83: Round leaves a value that the format represents as it is, in every mode and without a flag; so does the
value of every code but a NaN go back to its code. -/
def Obligations.FloatLanes : Prop :=
  (∀ (i : Instr) (s : State) (a : At) (f : Fields) (ins : List Slot) (g : (Slot → Lane) → Lane × FFlags),
      floatLane i a = some (f, ins, g) → NodeData s a f ins → a.room f → LaneFires i s a f ins g) ∧
  (∀ (t : Fmt) (rm : RMode) (c : Lane), (t = fp32 ∨ t = bf16 ∨ t = fp16 ∨ t = e4m3 ∨ t = e5m2) →
      c.toNat < 2 ^ t.width → t.decode c ≠ .nan → roundNum t rm (t.decode c) = (c, 0))

/-- R99, R106, R129: at a lane-wise instruction a positional marker at every input goes on to every target; markers that
differ raise MKALIGN; a free marker goes on alone, first; a wavefront marker at every input begins the node's EMIT.

R93, R46, R131: taking removes the oldest token of the input and of nothing else; placing appends to the link of the
target, or replaces the lanes of an accumulator register for which the token has records. -/
def Obligations.MarkersAndLinks : Prop :=
  (∀ (i : Instr) (s : State) (a : At) (f : Fields) (ins : List Slot) (g : (Slot → Lane) → Lane),
      intLane i = some (f, ins, g) → NodeTurn s a → a.accWaits = false → a.node.pend = [] →
      let m := meets (a.heads (withPred f ins))
      (∀ t, m = .positional t → a.room f →
        NodeFires i s s a f (a.moving f ins) (toAll t) { a.node with ended := a.node.ended || t.marker = Mk.eot } 0) ∧
      (∀ o t, m = .free o t → a.room f → NodeFires i s s a f [o] (toAll t) a.node 0) ∧
      (m = .misaligned →
        ∃ t, exec i s = .next t ∧ (t.plane a.plane).frozen = .fault ∧
          (t.sysOf a.plane).fltcause.toNat = Cause.mkalign.code.toNat ∧ BytesStay s t) ∧
      (∀ w, m = .wave w → isMemorySlot a.slot = false →
        ∃ t n, exec i s = .next t ∧ Tab.find? (t.plane a.plane).nodes a.slot = some n ∧ n.phase = .emit ∧ n.emitting = w ∧
          (t.plane a.plane).links = (takeSlots a.pl a.node a.slot (a.moving f ins)).links ∧ BytesStay s t)) ∧
  (∀ (pl : Plane) (n : Node) (slot : Nat) (l : Link) (before after : List Link), pl.links = before ++ l :: after →
      (∀ o, l.dst = slot → l.opd = o → l.era = n.era → l.sticky = false → l.renew = none →
        (∀ k ∈ before, ¬(k.dst = slot ∧ k.opd = o ∧ k.era = n.era)) →
          takeSlots pl n slot [o] = { pl with links := before ++ { l with toks := l.toks.drop 1 } :: after }) ∧
      (∀ f out t i o, outTarget f n.word out = .operand i o → l.isOut n slot out = true →
        (∀ k ∈ before, k.isOut n slot out = false) →
          placeOut pl n slot f out t = { pl with links := before ++ { l with toks := l.toks ++ [t] } :: after }) ∧
      (∀ f out t r, outTarget f n.word out = .acc r → t.marker = Mk.data →
        ∀ k i, k < 64 → i < 16 →
          vget (vget (placeOut pl n slot f out t).a k (Vector.replicate 16 0)) i 0 =
            if k = r.toNat ∧ bitAt t.valid i then vget t.payload i 0 else vget (vget pl.a k (Vector.replicate 16 0)) i 0))

/-- R113, R116, R117, R140, R141, R139: `fan`, `filt`, `sel`, `shuf`, `bcst` and `addr` fire on data: which lanes of which
target carry which value.

R142 to R147, R42: `scan` gives each live lane the combination of the live lanes up to it, `lred` one record with that of
all, for the operations of the integer types but .adds, unused bits of a container counting for nothing; an accumulator
register that is a target combines its lane 0
with that of all instead. -/
def Obligations.LaneMovesAndReductions : Prop :=
  (∀ (s : State) (a : At) (f : Fields) (ins : List Slot), NodeData s a f ins → a.room f →
      let x := a.at f ins .a
      let y := a.at f ins .b
      let c := a.at f ins .c
      let on (k : Nat) : Bool := predOk f (a.at f ins .p) k
      let took := a.node.took x
      (ins = [.a] → NodeFires (.fan f) s s a f (a.moving f ins) (toAll (x.restrict on)) took 0) ∧
      (ins = [.a, .b] → f.fn = 0 →
        NodeFires (.filt f) s s a f (a.moving f ins)
          [(0, x.restrict fun k => on k && y.has k && decide (y.at k ≠ 0)),
            (1, x.restrict fun k => on k && !(y.has k && decide (y.at k ≠ 0)))] took 0) ∧
      (ins = [.a, .b, .c] →
        ∃ out : Token, NodeFires (.sel f) s s a f (a.moving f ins) [(0, out), (1, out)] took 0 ∧
          ∀ k, k < 16 →
            let z := if c.has k = true ∧ c.at k ≠ 0 then x else y
            out.at k = z.at k ∧ out.has k = (z.has k && on k)) ∧
      (ins = (if f.fn = 0 then [.a, .b] else [.a]) → f.fn.toNat ≤ 4 →
        ∃ out : Token, NodeFires (.shuf f) s s a f (a.moving f ins) [(0, out), (1, out)] took 0 ∧
          ∀ k, k < 16 →
            let n := (bits f.imm 0 4).toNat
            let j := match f.fn.toNat with
              | 0 => (y.at k).toNat % 16
              | 1 => k ^^^ n
              | 2 => if k < n then k else k - n
              | 3 => if 15 < k + n then k else k + n
              | _ => (k + n) % 16
            out.has k = (on k && x.has k && (decide (f.fn ≠ 0) || y.has k)) ∧
              out.at k = if out.has k ∧ x.has j then x.at j else 0) ∧
      (ins = [.a] → f.fn.toNat ≤ 1 →
        ∃ out : Token, NodeFires (.bcst f) s s a f (a.moving f ins) [(0, out), (1, out)] took 0 ∧
          ∀ k, k < 16 → out.has k = (on k && x.has k) ∧ (out.has k = true →
            ∀ j, j < 16 → (if f.fn = 0 then j = (bits f.imm 0 4).toNat else ∀ m, m < j → x.has m = false) →
              (f.fn = 1 → x.has j = true) → out.at k = if x.has j then x.at j else 0)) ∧
      (let mode := (bits f.fn 3 2).toNat
       let v (k : Nat) : Int :=
         (x.at k).toNat + (if f.ty = .i32 then (y.at k).toInt else (y.at k).toNat) * (2 ^ (bits f.fn 0 3).toNat : Nat) +
           f.imm.toInt
       let inside (k : Nat) : Bool := mode = 0 || (decide (0 ≤ v k) && decide (v k < (c.at k).toNat))
       ins = (if mode = 0 then [.a, .b] else [.a, .b, .c]) →
        ((∀ k, k < 16 → a.live f ins k = true → mode = 2 → inside k = true) →
          ∃ out : Token, NodeFires (.addr f) s s a f (a.moving f ins) [(0, out), (1, out)] took 0 ∧
            ∀ k, k < 16 → out.has k = (a.live f ins k && inside k) ∧
              out.at k = if out.has k then BitVec.ofInt 32 (v k) else 0) ∧
        (∀ k, k < 16 → a.live f ins k = true → mode = 2 → inside k = false →
          (∀ j, j < k → a.live f ins j = true → inside j = true) →
          ∃ t, exec (.addr f) s = .next t ∧ (t.plane a.plane).frozen = .fault ∧
            (t.sysOf a.plane).fltcause.toNat = Cause.addrrng.code.toNat ∧
            bits (t.sysOf a.plane).fltpos 0 48 = BitVec.ofNat 48 (lanePos x.valid a.node.pos k) ∧
            BytesStay s t))) ∧
  (∀ (s : State) (a : At) (f : Fields), NodeData s a f [.a] → a.room f → f.ty.isInt = true →
      (bits f.fn 3 3).toNat ≠ 1 → (bits f.fn 3 3).toNat ≤ 6 →
      let x := a.at f [.a] .a
      let live (k : Nat) : Bool := x.has k && predOk f (a.at f [.a] .p) k
      let op (u v : Lane) : Lane :=
        match (bits f.fn 3 3).toNat with
        | 0 => wrapAs f.ty (intOf f.ty u + intOf f.ty v)
        | 2 => wrapAs f.ty (min (intOf f.ty u) (intOf f.ty v))
        | 3 => wrapAs f.ty (max (intOf f.ty u) (intOf f.ty v))
        | 4 => wrapAs f.ty (u &&& v).toNat
        | 5 => wrapAs f.ty (u ||| v).toNat
        | _ => wrapAs f.ty (u ^^^ v).toNat
      let upTo (k : Nat) : Option Lane :=
        ((List.range (k + 1)).filter live).foldl
          (fun (r : Option Lane) j => some (match r with | some u => op u (x.at j) | none => wrapAs f.ty (intOf f.ty (x.at j)))) none
      let outs (t : Token) : List (Nat × Token) :=
        (match f.tga with | .acc _ => [] | _ => [(0, t)]) ++ (match f.tgb with | .acc _ => [] | _ => [(1, t)])
      let combined : Plane :=
        ((match f.tga with | .acc r => [r.toNat] | _ => []) ++ (match f.tgb with | .acc r => [r.toNat] | _ => [])).foldl
          (fun pl r =>
            let old := vget pl.a r (Vector.replicate 16 0)
            match upTo 15 with
            | some z => { pl with a := vput pl.a r (vput old 0 (op (vget old 0 0) z)) }
            | none => pl)
          a.pl
      let b : At := { a with pl := combined }
      (∃ out : Token, NodeFires (.scan f) s s b f (a.moving f [.a]) (outs out) (a.node.took x) 0 ∧
        ∀ k, k < 16 → out.has k = live k ∧ out.at k = if live k then (upTo k).getD 0 else 0) ∧
      (∃ out : Token, NodeFires (.lred f) s s b f (a.moving f [.a]) (outs out) (a.node.took x) 0 ∧
        out.valid = (if (upTo 15).isSome then 1 else 0) ∧ out.at 0 = (upTo 15).getD 0 ∧
        ∀ k, 0 < k → k < 16 → out.at k = 0))

/-- R112: `inp` takes the head of its port's read side to both targets, its records new ones; `outp` puts its token last
into the port's write side, where it holds at most 16 and its depth code's count; PORTTY where the types differ.

R114, R115: `gen` emits the indices 0 to N − 1, sixteen a token, and then EOT, with `gen.c` the limit from slot c and
EOR; `ext` emits once one token with its value in all lanes. -/
def Obligations.PortAndSourceNodes : Prop :=
  (∀ (s : State) (a : At) (f : Fields), NodeTurn s a →
      let p := (bits f.imm 0 3).toNat
      let side := s.side a.region p false
      (∀ t rest, a.node.ended = false → side.plane = a.plane % 4 → side.toks = t :: rest →
        (portTypeBad s a.region p false f.ty = true →
          ∃ u, exec (.inp f) s = .next u ∧ (u.plane a.plane).frozen = .fault ∧
            (u.sysOf a.plane).fltcause.toNat = Cause.portty.code.toNat ∧ BytesStay s u) ∧
        (portTypeBad s a.region p false f.ty = false → t.marker.toNat < 10 → a.room f →
          ∃ x : Token, x.marker = t.marker ∧ x.payload = t.payload ∧ x.valid = t.valid ∧ x.pips = Vector.replicate 16 0 ∧
            NodeFires (.inp f) s (s.setSide a.region p false { side with toks := rest }).tookIds a f [] (toAll x)
              { a.node with pos := a.node.pos + records t.valid, ended := t.marker = Mk.eot } 0)) ∧
      (∀ q : QReg, f.tga = .port (q.setWidth 7) → NodeData s a f [.a] → a.ahead = false →
        let out := s.side a.region q.toNat true
        let t := a.at f [.a] .a
        out.toks.length < min 16 (slotsOfCode f.dpa) → portTypeBad s a.region q.toNat true f.ty = false →
          ∃ x : Token, x.marker = t.marker ∧ x.payload = t.payload ∧ x.valid = t.valid ∧
            NodeFires (.outp f) s
              (s.setSide a.region q.toNat true { out with toks := out.toks ++ [x], plane := a.plane % 4 })
              a f [.a] [] (a.node.took t) 0)) ∧
  (∀ (s : State) (a : At) (f : Fields), NodeTurn s a → a.room f →
      let n := a.node
      (f.fn = 0 → n.ended = false → n.count < f.imm.toNat →
        ∃ x : Token, NodeFires (.gen f) s s.tookIds a f [] (toAll x) { n.took x with count := n.count + 16 } 0 ∧
          x.marker = Mk.data ∧
          ∀ k, k < 16 → x.has k = decide (n.count + k < f.imm.toNat) ∧
            x.at k = if n.count + k < f.imm.toNat then BitVec.ofNat 32 (n.count + k) else 0) ∧
      (f.fn = 0 → n.ended = false → f.imm.toNat ≤ n.count →
        NodeFires (.gen f) s s a f [] (toAll (Token.mark Mk.eot)) { n with fired := false, count := 0, ended := true } 0) ∧
      (∀ t k, f.fn ≠ 0 → n.fired = false → a.heads [.c] = [{ slot := .c, sticky := false, tok := some t }] →
        t.marker = Mk.data → k < 16 → t.has k = true → (∀ j, j < k → t.has j = false) →
        NodeFires (.gen f) s s a f [.c] [] { n with fired := true, count := 0, limit := (t.at k).toNat } 0) ∧
      (∀ t, f.fn ≠ 0 → n.fired = true → n.limit ≤ n.count →
        a.heads [.c] = [{ slot := .c, sticky := false, tok := t }] →
        NodeFires (.gen f) s s a f [] (toAll (Token.mark Mk.eor)) { n with fired := false, count := 0 } 0) ∧
      (n.fired = false → f.fn.toNat ≤ 3 → (f.fn = 2 → ∃ h, a.heads [.a] = [h] ∧ h.tok.isSome) →
        let v : Lane := match f.fn.toNat with
          | 0 => f.imm.setWidth 32
          | 1 => f.imm.signExtend 32
          | 2 => f.imm ++ bits ((headOf (a.heads [.a]) .a).at 0) 0 16
          | _ => f.imm ++ (0 : BitVec 16)
        NodeFires (.ext f) s s a f [] (toAll { Token.empty with payload := Vector.replicate 16 v, valid := 0xFFFF })
          { n with fired := true } 0) ∧
      (n.fired = true → exec (.ext f) s = .next s))

/-- R118: `mrg` takes what is there; with data at both inputs `.any` takes either, `.alt` that of its turn; `.cat` takes a's
tokens, then, past a's EOT, b's; equal positional markers of `.any` and `.alt` leave as one.

R119: `loop` admits an entry token while at most IMM16 are in its body, sends what comes back and goes on to the body
again and what is finished to TGB, and counts a token out when none of its records goes on; entry markers wait until the
body is empty; a token that comes back to an empty body raises LOOPCNT.

R120: `hold` takes the data token at b when it holds none and a token waits at a, and then emits the held lanes for
every record of a; EOR empties it in the plain form. -/
def Obligations.MergeLoopHold : Prop :=
  (∀ (s : State) (a : At) (f : Fields), NodeTurn s a → a.room f →
      ∀ (x y : Option Token), a.heads [.a, .b] =
        [{ slot := .a, sticky := false, tok := x }, { slot := .b, sticky := false, tok := y }] →
      let n := a.node
      let data (t : Option Token) (u : Token) : Prop := t = some u ∧ u.marker = Mk.data
      let took (u : Token) (turn : Bool) : Node := { n.took u with turn }
      (f.fn = 0 →
        (∀ t, data x t → y = none → NodeFires (.mrg f) s s a f [.a] (toAll t) (took t n.turn) 0) ∧
        (∀ t, data y t → x = none → NodeFires (.mrg f) s s a f [.b] (toAll t) (took t n.turn) 0) ∧
        (∀ t u, data x t → data y u →
          let s' := { s with frees := s.frees + 1 }
          NodeFires (.mrg f) s s' a f [.a] (toAll t) (took t n.turn) 0 ∨
            NodeFires (.mrg f) s s' a f [.b] (toAll u) (took u n.turn) 0)) ∧
      (f.fn = 1 → ∀ t, (y = none ∨ ∃ u, data y u) → data x t → n.turn = false →
        NodeFires (.mrg f) s s a f [.a] (toAll t) (took t true) 0) ∧
      (f.fn = 1 → ∀ t, (x = none ∨ ∃ u, data x u) → data y t → n.turn = true →
        NodeFires (.mrg f) s s a f [.b] (toAll t) (took t false) 0) ∧
      (f.fn = 2 → ∀ t, (y = none ∨ ∃ u, data y u) → data x t → n.turn = false →
        NodeFires (.mrg f) s s a f [.a] (toAll t) (took t false) 0) ∧
      (f.fn = 2 → ∀ t, (y = none ∨ ∃ u, data y u) → x = some t → t.marker = Mk.eot → n.turn = false →
        NodeFires (.mrg f) s s a f [.a] [] { n with turn := true } 0) ∧
      (f.fn = 2 → ∀ t, x = none → data y t → n.turn = true →
        NodeFires (.mrg f) s s a f [.b] (toAll t) (took t true) 0) ∧
      (f.fn ≠ 2 → ∀ t u, x = some t → y = some u → t.marker = u.marker → (t.marker = Mk.eor ∨ t.marker = Mk.eot) →
        NodeFires (.mrg f) s s a f [.a, .b] (toAll t)
          { n with turn := false, ended := n.ended || decide (t.marker = Mk.eot) } 0) ∧
      (f.fn ≠ 2 → ∀ t u, x = some t → y = some u → t.marker ≠ u.marker →
        (t.marker = Mk.eor ∨ t.marker = Mk.eot) → (u.marker = Mk.eor ∨ u.marker = Mk.eot) →
        ∃ v, exec (.mrg f) s = .next v ∧ (v.plane a.plane).frozen = .fault ∧
          (v.sysOf a.plane).fltcause.toNat = Cause.mkalign.code.toNat ∧ BytesStay s v)) ∧
  (∀ (s : State) (a : At) (f : Fields) (x y z : Option Token), NodeTurn s a → a.room f →
      a.heads [.a] = [{ slot := .a, sticky := false, tok := x }] →
      a.heads [.b, .c] = [{ slot := .b, sticky := false, tok := y }, { slot := .c, sticky := false, tok := z }] →
      let n := a.node
      (∀ t, x = some t → t.marker = Mk.data → y = none → z = none → n.count ≤ f.imm.toNat →
        NodeFires (.loop f) s s a f [.a] [(0, t)] { n.took t with count := n.count + 1 } 0) ∧
      (∀ t, x = some t → t.marker = Mk.data → y = none → z = none → f.imm.toNat < n.count →
        exec (.loop f) s = .next s) ∧
      (∀ t, x = some t → (t.marker = Mk.eor ∨ t.marker = Mk.eot) → y = none → z = none → n.count = 0 →
        NodeFires (.loop f) s s a f [.a] [(1, t)] { n with ended := n.ended || decide (t.marker = Mk.eot) } 0) ∧
      (∀ t c, y = some t → z = some c → t.marker = Mk.data → c.marker = Mk.data → n.count ≠ 0 →
        let go := t.restrict fun k => c.has k && decide (c.at k ≠ 0)
        let out := t.restrict fun k => !(c.has k && decide (c.at k ≠ 0))
        NodeFires (.loop f) s s a f [.b, .c]
          ((if go.valid ≠ 0 then [(0, go)] else []) ++ (if out.valid ≠ 0 then [(1, out)] else []))
          (if go.valid ≠ 0 then n else { n with count := n.count - 1 }) 0) ∧
      (∀ t c, y = some t → z = some c → t.marker = Mk.data → c.marker = Mk.data → n.count = 0 →
        ∃ v, exec (.loop f) s = .next v ∧ (v.plane a.plane).frozen = .fault ∧
          (v.sysOf a.plane).fltcause.toNat = Cause.loopcnt.code.toNat ∧ BytesStay s v)) ∧
  (∀ (s : State) (a : At) (f : Fields) (t : Token) (y : Option Token), NodeTurn s a → a.room f → f.pm = .always →
      a.heads [.a, .b] = [{ slot := .a, sticky := false, tok := some t }, { slot := .b, sticky := false, tok := y }] →
      let n := a.node
      (∀ b, t.marker = Mk.data → n.held = none → y = some b → b.marker = Mk.data →
        ∃ h : Token, NodeFires (.hold f) s s a f [.b] [] { n with held := some h } 0 ∧
          ∀ k, k < 16 → h.at k = if b.has k then b.at k else 0) ∧
      (∀ h, t.marker = Mk.data → n.held = some h → y = none →
        ∃ o : Token, NodeFires (.hold f) s s a f [.a] (toAll o) (n.took t) 0 ∧ o.payload = h.payload ∧
          ∀ k, k < 16 → o.has k = t.has k) ∧
      (t.marker = Mk.eor → y = none →
        NodeFires (.hold f) s s a f [.a] (toAll t) { n with held := if f.fn = 0 then none else n.held } 0))

/-- R121 to R125: `mark` marks every K-th data token, `mtst` sends every token on and a tick for the marker that it tests,
`cnt` counts what passes before each positional marker, `exit` keeps the highest record of its last token as the decision
and faults at a value above 3, and `sink` retires what it takes; at both FAULT raises STREAMFLT. -/
def Obligations.MarkerNodes : Prop :=
  ∀ (s : State) (a : At) (f : Fields), NodeTurn s a → a.accWaits = false → a.node.pend = [] → a.room f → f.pm = .always →
    let n := a.node
    let m := meets (a.heads [.a])
    let t := headOf (a.heads [.a]) .a
    let taken := movingSlots (a.heads [.a])
    let mk := Token.mark (bits f.fn 0 4)
    (m = .data →
      NodeFires (.mark f) s s a f taken (toAll t)
        (if f.imm.toNat = n.count + 1 then { n.took t with count := 0, pend := [(mk, mk)] }
          else { n.took t with count := n.count + 1 }) 0 ∧
      NodeFires (.mtst f) s s a f taken [(0, t)] (n.took t) 0 ∧
      NodeFires (.cnt f) s s a f taken []
        { n.took t with count := min (n.count + if f.fn = 1 then 1 else records t.valid) 0xFFFFFFFF } 0 ∧
      NodeFires (.sink f) s s a f taken [] (n.took t) 0 ∧
      (∀ k, k < 16 → t.has k = true → (∀ j, k < j → j < 16 → t.has j = false) →
        ((t.at k).toNat ≤ 3 →
          NodeFires (.exit f) s s a f taken [] { n.took t with decision := some (t.at k).toNat } 0) ∧
        (3 < (t.at k).toNat →
          ∃ u, exec (.exit f) s = .next u ∧ (u.plane a.plane).frozen = .fault ∧
            (u.sysOf a.plane).fltcause.toNat = Cause.exitidx.code.toNat ∧ BytesStay s u))) ∧
    (∀ x, m = .positional x → x.marker = Mk.eor →
      NodeFires (.cnt f) s s.tookIds a f taken
        (let c := oneRecord (BitVec.ofNat 32 n.count) s.nextId; [(0, c), (1, c)]) { n with count := 0, pend := [(x, x)] } 0 ∧
      NodeFires (.mark f) s s a f taken (toAll x) { n with count := 0 } 0 ∧
      (bits f.fn 0 4 = Mk.eor →
        NodeFires (.mtst f) s s.tookIds a f taken [(0, x), (1, oneRecord 1 s.nextId)] n 0) ∧
      (bits f.fn 0 4 ≠ Mk.eor → NodeFires (.mtst f) s s a f taken [(0, x)] n 0)) ∧
    (∀ o x, m = .free o x → x.marker = Mk.fault → ∀ i, (i = .exit f ∨ i = .sink f) →
      ∃ u, exec i s = .next u ∧ (u.plane a.plane).frozen = .fault ∧
        (u.sysOf a.plane).fltcause.toNat = Cause.streamflt.code.toNat ∧ BytesStay s u)

/-- R174 to R179, R184: `bqnt` gathers a group of 4 tokens, 8 for CB4, one at a firing, and in the same firings emits what the
group before it still has to; it closes a group, a full one or at a marker a shorter one, with its scale and its narrowed
tokens, which it emits in order; it consumes SCALE at slot a. `bdq` and `sclx.scl` take the scale that SCALE at slot a brings, 0x7F after EOT, and apply it; a free marker at slot p
passes.

R183: `hads` gives a lane the sum of it and its partner 2^k away, or the difference at the upper lane, dead lanes
counting as 0, halved when FN[5] is set. -/
def Obligations.ScalesAndHadamard : Prop :=
  (∀ (s : State) (a : At) (f : Fields), NodeTurn s a → a.accWaits = false → a.room f →
      let n := a.node
      let hs := a.heads (withPred f [.a])
      let t := headOf hs .a
      let taken := movingSlots hs
      let e := a.env
      let r := laneToken t fun k => if t.has k && predOk f (headOf hs .p) k then some (t.at k) else none
      let size := if f.ty = .cb4 then 8 else 4
      let value (x : Lane) : Machine.Num := e.value (fmtOf (sourceTy f)) x
      let xs : List Machine.Num := n.buf.flatMap fun u => ((List.range 16).filter fun k => u.has k).map fun k => value (u.at k)
      let scale := groupScale e f.ty (a.codebook f) xs
      let plain := ∀ u ∈ n.buf, u.marker = Mk.data
      let closes (m : Node) (gone : List Slot) (last next : List Token) : Prop :=
        ∃ (toks : List Token) (fl : FFlags),
          NodeFires (.bqnt f) s s a f gone (toAll (scaleToken scale))
            { m with buf := next, pend := (toks ++ last).map fun u => (u, u) } fl ∧
          toks.length = size ∧
          ∀ j k, j < size → k < 16 →
            (toks.getD j Token.empty).has k = (n.buf.getD j Token.empty).has k ∧
              ((n.buf.getD j Token.empty).has k = true → (toks.getD j Token.empty).at k =
                (narrowValue e (modeOf e f) f.ty (a.codebook f) scale (value ((n.buf.getD j Token.empty).at k))).1)
      (plain → meets hs = .data → n.buf.length < size → n.pend = [] →
        NodeFires (.bqnt f) s s a f taken [] { n.took t with buf := n.buf ++ [r] } 0) ∧
      (plain → meets hs = .nothing → n.buf.length = size → n.pend = [] → closes n [] [] []) ∧
      (plain → meets hs = .data → n.buf.length = size → n.pend = [] → closes (n.took t) taken [] [r]) ∧
      (plain → ∀ x, meets hs = .positional x → 0 < n.buf.length → n.buf.length < size → n.pend = [] →
        closes { n with ended := n.ended || decide (x.marker = Mk.eot) } taken [x] []) ∧
      (plain → ∀ x, meets hs = .free .a x → x.marker ≠ Mk.scale → 0 < n.buf.length → n.buf.length < size → n.pend = [] →
        closes n [.a] [x] []) ∧
      (plain → ∀ u v rest, (meets hs = .nothing ∨ (meets hs = .data ∧ n.buf.length = size)) → n.pend = (u, v) :: rest →
        NodeFires (.bqnt f) s s a f [] (toAll u) { n with pend := rest } 0) ∧
      (plain → ∀ u v rest, meets hs = .data → n.buf.length < size → n.pend = (u, v) :: rest →
        NodeFires (.bqnt f) s s a f taken (toAll u) { n.took t with buf := n.buf ++ [r], pend := rest } 0) ∧
      (∀ x, meets hs = .free .a x → x.marker = Mk.scale → NodeFires (.bqnt f) s s a f [.a] [] n 0) ∧
      (∀ i, n.pend = [] → (i = .bdq f ∨ (i = .sclx f ∧ bits f.fn 3 2 = 3)) →
        (∀ x, meets hs = .free .a x → x.marker = Mk.scale →
          NodeFires i s s a f [.a] [] { n with scale := bits (x.at 0) 0 8 } 0) ∧
        (∀ x, meets hs = .free .p x → NodeFires i s s a f [.p] (toAll x) n 0) ∧
        (∀ x, meets hs = .positional x → x.marker = Mk.eot →
          ∃ m : Node, NodeFires i s s a f taken (toAll x) m 0 ∧ m.scale = 0x7F ∧ m.ended = true) ∧
        (meets hs = .data →
          let g (x : Lane) : Lane × FFlags :=
            let v : Machine.Num := if i = .bdq f
              then (match ElemTy.fmt? (sourceTy f) with
                | some z => e.value z x
                | none => codebookValue e (a.codebook f) (x.toNat % 16))
              else e.value (fmtOf f.ty) x
            rounded e (fmtOf f.ty) (modeOf e f)
              (if n.scale = 0xFF then .nan else v.scale ((n.scale.toNat : Int) - 127), 0)
          let out := laneToken t fun k => if t.has k && predOk f (headOf hs .p) k then some (g (t.at k)).1 else none
          NodeFires i s s a f taken [(0, out), (1, out)] (n.took t)
            (orFlags fun k => if t.has k && predOk f (headOf hs .p) k then (g (t.at k)).2 else 0)))) ∧
  (∀ (s : State) (a : At) (f : Fields), NodeData s a f [.a] → a.room f →
      let t := a.at f [.a] .a
      let e := a.env
      let on (k : Nat) : Bool := t.has k && predOk f (a.at f [.a] .p) k
      let x (k : Nat) : Machine.Num := if on k then e.value (fmtOf f.ty) (t.at k) else Machine.Num.zero false
      let d := 2 ^ (bits f.fn 3 2).toNat
      let g (k : Nat) : Lane × FFlags :=
        let p := if k / d % 2 = 0 then x k else x (k - d)
        let q := if k / d % 2 = 0 then x (k + d) else (x k).negate
        let v := Machine.Num.add (modeOf e f) p q
        rounded e (fmtOf f.ty) (modeOf e f) (if bitAt f.fn 5 then v.scale (-1) else v, invalid p q v)
      let out := laneToken t fun k => if on k then some (g k).1 else none
      NodeFires (.hads f) s s a f (a.moving f [.a]) [(0, out), (1, out)] (a.node.took t)
        (orFlags fun k => if on k then (g k).2 else 0))

/-- R189, R185, R186: `ld` and `st` make one event of the element for each live lane, at BASE plus the lane's offset, `atom`
(R313, R314) one RMW of four bytes; the values that are written are the low bytes of slot b's lane.

R190 to R193, R325: `lds` reads the span at the lowest live lane's address as one event, `sts` writes its live elements
as one, `ldt` reads the block of 64 bytes with its tag, and `arrv` makes the barrier's RMW, or reads it for .wait. -/
def Obligations.NodeAccesses : Prop :=
  (∀ (s : State) (a : At) (f : Fields) (ins : List Slot) (k : Nat) (p : Phys), MemTurn s a f ins → onlyLane (a.live f ins) k →
      let va := a.base f + ((a.at f ins .a).at k).toNat
      let n := elemBytes f.ty
      let y := (a.at f ins .b).at k
      let z := (a.at f ins .c).at k
      va < 2 ^ 52 →
      (ins = [.a] → va % n = 0 → a.reaches s va .read p →
        MemPlaces (.ld f) s a f ins p va (readCells n) false fun e c =>
          e.kind = .read ∧ e.size = n ∧ e.acq = bitAt f.fn 2 ∧ e.tagRead = false ∧ e.dest = .lane a.plane a.slot c.id k ∧
            c.waiting = 1#16 <<< k ∧ c.hold = none ∧ c.tok.valid = 1#16 <<< k) ∧
      (ins = [.a, .b] → va % n = 0 → a.reaches s va .write p → a.hit va (wholeCells (leBytes n y.toNat)) .write = false →
        MemPlaces (.st f) s a f ins p va (wholeCells (leBytes n y.toNat)) false fun e c =>
          e.kind = .write ∧ e.size = n ∧ e.rel = bitAt f.fn 2 ∧ e.tagWrite = none ∧ c.waiting = 0 ∧ c.hold = none ∧
            c.tok.valid = 1#16 <<< k ∧ c.tok.at k = y) ∧
      (ins = (if AtomOp.ofCode (bits f.fn 0 3) = .cas then [.a, .b, .c] else [.a, .b]) → va % 4 = 0 →
        a.reaches s va .atomic p → a.hit va (readCells 4) .atomic = false →
        MemPlaces (.atom f) s a f ins p va (readCells 4) false fun e c =>
          e.kind = .rmw (.atomic (AtomOp.ofCode (bits f.fn 0 3)) (f.ty == .f32) (f.ty == .i32) (y.setWidth 64) (z.setWidth 64)) ∧
            e.size = 4 ∧ e.acq = bitAt f.fn 3 ∧ e.rel = bitAt f.fn 4 ∧ e.dest = .lane a.plane a.slot c.id k ∧
            c.waiting = 1#16 <<< k ∧ c.hold = none ∧ c.tok.valid = 1#16 <<< k)) ∧
  (∀ (s : State) (a : At) (f : Fields) (ins : List Slot) (k : Nat) (p : Phys), MemTurn s a f ins →
      let va := a.base f + ((a.at f ins .a).at k).toNat
      let n := spanBytes f.ty
      lowestLane (fun j => predOk f (a.at f ins .p) j && (a.at f ins .a).has j) k → va < 2 ^ 52 →
      (ins = [.a] → bits f.fn 0 2 = 0 → va % n = 0 → a.reaches s va .read p →
        MemPlaces (.lds f) s a f ins p va (readCells n) false fun e c =>
          e.kind = .read ∧ e.size = n ∧ e.dest = .span a.plane a.slot c.id ∧ c.waiting = 1#16 <<< k ∧ c.hold = none) ∧
      (ins = [.a, .b] → bits f.fn 0 2 = 0 → va % n = 0 → a.reaches s va .write p →
        let live (j : Nat) : Bool := predOk f (a.at f ins .p) j && (a.at f ins .a).has j && (a.at f ins .b).has j
        let cells := spanCells f.ty live fun j => (a.at f ins .b).at j
        (∃ j, j < 16 ∧ live j = true) → a.hit va cells .write = false →
        MemPlaces (.sts f) s a f ins p va cells false fun e c =>
          e.kind = .write ∧ e.size = n ∧ e.rel = bitAt f.fn 2 ∧ e.tagWrite = none ∧ c.waiting = 0 ∧ c.hold = none) ∧
      (ins = [.a] → a.reaches s (va / 64 * 64) .read p →
        MemPlaces (.ldt f) s a f ins p (va / 64 * 64) (readCells 64) true fun e c =>
          e.kind = .read ∧ e.size = 64 ∧ e.tagRead = true ∧ e.dest = .span a.plane a.slot c.id ∧ c.waiting = 1#16 <<< k) ∧
      (ins = (if bitAt f.fn 2 then [.a, .b] else [.a]) → va % 32 = 0 →
        let v : BitVec 16 := bits ((a.at f ins .b).at k) 0 16
        (bits f.fn 0 2 = 0 → a.reaches s va .atomic p →
          MemPlaces (.arrv f) s a f ins p va (readCells 32) true fun e c =>
            e.kind = .rmw (.arrive (if bitAt f.fn 2 then some v else none) (if bitAt f.fn 3 then 1 else records c.live) a.ctx
              (s.seq (launcher a.plane a.pl)).branch) ∧ e.size = 32 ∧ e.rel = false ∧ e.dest = .span a.plane a.slot c.id) ∧
        (bits f.fn 0 2 = 2 → a.reaches s va .read p →
          MemPlaces (.arrv f) s a f ins p va (readCells 32) true fun e c =>
            e.kind = .read ∧ e.size = 32 ∧ e.acq = true ∧ e.dest = .span a.plane a.slot c.id)))

/-- R195, R189, R70: a token leaves its memory node when its values have returned, as they stand, and a fault of its is then
raised at its record; `st` and `ld` do not access at 2^52 or more (VARANGE) nor at an address their size does not divide
(ALIGN): the token is held with that fault.

R194, R246, R316: `prf` forwards its token and starts the walks that its addresses miss; `fence` places one fence event
for a token with a record; `rtree.fwd` combines its records by key and a root takes its token into work. -/
def Obligations.FlightsLeave : Prop :=
  (∀ (s : State) (a : At) (f : Fields), NodeTurn s a → a.node.cur = none →
      (∀ (i : Instr) (c : Flight),
        (i = .ld f ∨ i = .st f ∨ i = .atom f ∨ i = .sts f ∨ i = .arrv f ∨ i = .fence f ∨ (i = .lds f ∧ bits f.fn 0 2 = 2)) →
        a.room f → a.node.fly = [c] → c.waiting = 0 → (∀ h, c.hold = some h → s.performed a.agent h = true) →
        (c.fault = none →
          NodeFires i s s a f [] [(0, c.tok), (1, c.tok)] { a.node with fly := [] } 0) ∧
        (∀ x, c.fault = some x → c.tok.marker = Mk.data → (∀ h, x.after = some h → s.performed a.agent h = true) →
          NodeFaults i s a x.cause x.pos)) ∧
      (∀ (c : Flight) (bs : List Byte) (tag : BitVec 16), a.room f → a.node.fly = [c] → c.waiting = 0 → c.hold = none →
        c.fault = none → c.tok.marker = Mk.data → c.got = some (bs, tag) → bits f.fn 0 2 = 0 →
        ∃ out : Token, NodeFires (.lds f) s s a f [] [(0, out), (1, out)] { a.node with fly := [] } 0 ∧
          ∀ k, k < 16 → out.has k = c.tok.has k ∧
            (c.tok.has k = true → out.at k = containerOf f.ty (elemAt f.ty bs k))) ∧
      (∀ (i : Instr) (ins : List Slot) (k : Nat), (i = .ld f ∧ ins = [.a] ∨ i = .st f ∧ ins = [.a, .b]) →
        MemTurn s a f ins → lowestLane (a.live f ins) k →
        let va := a.base f + ((a.at f ins .a).at k).toNat
        let held (cause : Cause) : Prop := ∃ t m c x, exec i s = .next t ∧
          Tab.find? (t.plane a.plane).nodes a.slot = some m ∧ m.fly = [c] ∧ c.fault = some x ∧ x.cause = cause ∧
          x.addr = BitVec.ofNat 64 va ∧ x.pos = lanePos (a.at f ins .a).valid a.node.pos k ∧
          (∀ b, t.agent b = s.agent b) ∧ t.mem = s.mem
        (2 ^ 52 ≤ va → held .varange) ∧ (va < 2 ^ 52 → va % elemBytes f.ty ≠ 0 → held .align) ∧
        ∀ (use : Use) (x : Cause), (use = if i = .ld f then .read else .write) → va < 2 ^ 52 → va % elemBytes f.ty = 0 →
          s.translate a.req (a.region / 32) a.region a.ctx va use = .fault x → held x)) ∧
  (∀ (s : State) (a : At) (f : Fields), a.room f →
      (NodeData s a f [.a] → a.node.fly = [] →
        ∃ (u : State) (t : Token) (ids : List Nat),
          NodeFires (.prf f) s u a f (a.moving f [.a]) [(0, t), (1, t)]
            { a.node.took (a.at f [.a] .a) with seen := a.node.seen ++ ids } 0 ∧
          t = (a.at f [.a] .a).restrict (predOk f (a.at f [.a] .p)) ∧
          (∀ w : List Walk, { u with walks := w } = { s with walks := w }) ∧
          ∀ k, k < 16 → a.live f [.a] k = true →
            let va := a.base f + ((a.at f [.a] .a).at k).toNat
            va < 2 ^ 52 → s.translate a.req (a.region / 32) a.region a.ctx va .read = .miss →
              ∃ w ∈ u.walks, w.ctx = a.ctx ∧ w.page = va / 2 ^ 16 ∧ w.board = a.region / 32) ∧
      (∀ k, MemTurn s a f [.a] → a.busy s false = false → bitAt f.fn 2 = false → bits f.fn 0 2 ≠ 2 →
        lowestLane (a.live f [.a]) k →
        ∃ t e c m, exec (.fence f) s = .next t ∧ t.mem = s.mem ∧ (t.agent a.agent).q.getLast? = some e ∧
          (t.agent a.agent).q.length = (s.agent a.agent).q.length + 1 ∧ e.kind = .fence (FenceKind.ofCode (bits f.fn 0 2)) ∧
          e.scope = fnScope f ∧ e.slot = a.slot ∧ e.mark = false ∧
          Tab.find? (t.plane a.plane).nodes a.slot = some m ∧ m.fly = [c] ∧ c.hold = some e.id ∧ c.waiting = 0) ∧
      (∀ k e, bits f.fn 3 2 = 0 → NodeData s a f [.a, .b] → onlyLane (a.live f [.a, .b]) k →
        let x := (a.at f [.a, .b] .a).at k
        let y := (a.at f [.a, .b] .b).at k
        (a.node.tab = [e] → e.key = x →
          ∃ fl, NodeFires (.rtree f) s s a f (a.moving f [.a, .b]) []
            { a.node.took (a.at f [.a, .b] .a) with tab := [{ e with v := (rtCombine a f e.v y).1 }] } fl) ∧
        (a.node.tab = [] →
          ∃ n : RtEntry, NodeFires (.rtree f) s s a f (a.moving f [.a, .b]) []
            { a.node.took (a.at f [.a, .b] .a) with tab := [n] } 0 ∧ n.key = x ∧ n.v = y)) ∧
      (bits f.fn 3 2 ≠ 0 → MemTurn s a f [.a, .b] →
        ∃ c : Flight, NodeFires (.rtree f) s s a f (a.moving f [.a, .b]) [] { a.node with cur := some c } 0 ∧
          c.src = a.at f [.a, .b] .a ∧ c.srcB = a.at f [.a, .b] .b ∧ c.lane = 0 ∧ c.id = s.nextId))

/-- R279, R282, R283, R259: `bstg` writes a legal stage word to hN and refuses any other by BAVAL; `bacc.clr` zeroes the
accumulators of a column of arrays without a chain, and `bacc.rd` writes them to memory, one token after another; `brate`
sets a limiter of its region, and in user mode raises PRIV.

R280, R281, R260: `bwld` enters a job for a slice or slices of the weight window, with R over its source and W over the
slices; `bchn` binds the columns that its stage registers name to the array or arrays, with a job of its own. -/
def Obligations.ArrayRegisters : Prop :=
  (∀ (s : State) (q k : Nat) (a b : SReg), Issues s q [a, b] → q < 128 → s.planeOf q = some k →
      let v := s.seq q
      let x := v.read a
      let y := v.read b
      (∀ h : HReg, Stage.legal x = true →
        SeqGoesOn (.bstg h a) s (s.setPlane k { s.plane k with h := vput (s.plane k).h h.toNat x }) q 0 0 4) ∧
      (∀ h : HReg, Stage.legal x = false → EStat.inh v.estat = false →
        ∃ t, exec (.bstg h a) s = .next t ∧ Trapped s t q .baval 0 v.ip) ∧
      (∀ arr : ArrSel, (∀ n ∈ ArrSel.list arr, (s.arr q n).stopped = false ∧ (s.arr q n).bind = none) →
        (y.toNat < 64 →
          ∃ u, SeqGoesOn (.baccClr b arr) s u q 0 0 4 ∧ u.planes = s.planes ∧ u.seqs = s.seqs ∧
            ∀ n ∈ ArrSel.list arr,
              (∀ t j, t < 64 → j < 16 →
                vget (vget ((u.arr q n).col y.toNat).acc t (Vector.replicate 16 0)) j 0 = 0) ∧
              ∀ c, c ≠ y.toNat → (u.arr q n).col c = (s.arr q n).col c) ∧
        (∀ i n p, ArrSel.list arr = [n] → y.toNat < 64 → x.toNat % 64 = 0 → v.rangeAt 0 = i → i < 64 →
          s.storesHeld q < 16 → s.reach q (reqLoad q) (BitVec.ofNat 64 (x.toNat + 64 * i)) 64 .write = .to p →
          ∃ t e, exec (.baccRd a b arr) s = .next t ∧ Placed s t q e ∧ e.kind = .write ∧
            e.pieces.map Piece.key = keysFrom p.key 64 ∧
            e.pieces.map Piece.value =
              (List.range 16).flatMap (fun j =>
                leBytes 4 (vget (vget ((s.arr q n).col y.toNat).acc i (Vector.replicate 16 0)) j 0).toNat) ∧
            RegsStay s t q ∧ (if i = 63 then (t.seq q).ip = v.ip + 4 ∧ (t.seq q).wait = .none
              else (t.seq q).ip = v.ip ∧ (t.seq q).wait = .range v.ip (i + 1)))) ∧
      (∀ unit : BitVec 4, v.priv = false → EStat.inh v.estat = false →
        ∃ t, exec (.brate a b unit) s = .next t ∧ Trapped s t q .priv 0 v.ip) ∧
      (∀ unit : BitVec 4, unit.toNat ≤ 9 → x.toNat ≤ 65535 → 256 ≤ y.toNat → y.toNat ≤ 65536 → (s.region q).held = false →
        v.priv = true →
        SeqGoesOn (.brate a b unit) s
          (let l : Limiter := { a := x.toNat, w := y.toNat, admitted := 0, set := (x.toNat, y.toNat) }
           s.setRegion q { s.region q with limits := vput (s.region q).limits unit.toNat l }) q 0 0 4)) ∧
  (∀ (s : State) (q k e : Nat) (d a b : SReg) (arr : ArrSel) (sc : Scope), Issues s q [d, a, b] → q < 128 →
      s.planeOf q = some k → (s.region q).freeEntry = some e →
      let v := s.seq q
      let src := (v.read a).toNat
      let len := (v.read b).toNat
      let entered (t : State) (j : Job) : Prop :=
        Tab.find? (t.region q).jobs e = some j ∧ j.started = false ∧ j.seq = q ∧ j.scope = sc ∧
          j.serial = (s.region q).serial + 1 ∧ (d ≠ 0 → (t.seq q).armed d = true) ∧
          (∀ r, r ≠ d → (t.seq q).read r = v.read r) ∧ (t.seq q).ip = v.ip + 8 ∧ t.mem = s.mem ∧ t.planes = s.planes
      (∀ (col : BitVec 6) (off : BitVec 10) (n : CReg), src % 64 = 0 → len % 64 = 0 → 64 * off.toNat + len ≤ 65536 → 0 < len →
        v.regBusy false n.toNat = false →
        let slice (x : Nat) : Nat := (s.region q).wwin.toNat + x * 2 ^ 22 + col.toNat * 2 ^ 16 + 64 * off.toNat
        ∃ t j, exec (.bwld sc d a b arr col off n) s = .next t ∧ entered t j ∧
          j.kind = .bwld src len arr col.toNat off.toNat n.toNat (vget (s.plane k).c n.toNat 0) ∧
          j.ranges = { lo := src, hi := src + len, wr := false } ::
            (ArrSel.list arr).map fun x => { lo := slice x, hi := slice x + len, wr := true }) ∧
      (∀ (code : BitVec 3) (h : HReg) (c0 gm1 : BitVec 6) (ws : List Word), jobScopeOfCode code = some sc →
        (∀ n ∈ ArrSel.list arr, (s.arr q n).stopped = false ∧ (s.arr q n).bind = none ∧
          chainFits (s.arr q n) c0.toNat ws = true) →
        buildChain (s.plane k).h 65 h.toNat c0.toNat = some ws →
        (∀ w ∈ ws, Stage.unit w = true → Stage.span w (gm1.toNat + 1) ≤ 64) →
        ∃ t j, exec (.bchn code d h b arr c0 gm1) s = .next t ∧ entered t j ∧ j.kind = .bchn arr ∧
          ∀ n ∈ ArrSel.list arr, (∃ x : BaBind, (t.arr q n).bind = some x ∧ x.c0 = c0.toNat ∧ x.n = ws.length ∧
              x.g = gm1.toNat + 1 ∧ x.job = j.serial ∧ x.both = decide (arr = .ba01)) ∧
            (t.arr q n).inq = [] ∧ (t.arr q n).outq = [] ∧
            ∀ i w, ws[i]? = some w → ((t.arr q n).col (c0.toNat + i)).word = w ∧ ((t.arr q n).col (c0.toNat + i)).recv = 0))

/-- R284, R272, R273: `bdrn.sv` first puts DRAIN into its arrays, and waits for it to leave; then it writes the image line
by line (`.inc` only the header, the column table and the lines that are dirty, with BASEID that of the image at that
address), and after the last line stops the arrays, counts the image, and waits for its last write. `bdrn.ld` reads the
image line by line: the header's BIND becomes the array's, which is stopped until the last line; an accumulator's line goes
into that accumulator; and after the last line the arrays run.

R270: of a DRAIN at the output port `bfout` takes nothing but the DRAIN, once it is at the head, and passes it on; where it
keeps one half of each group, a DRAIN behind data whose group has not ended passes them, and they stay at the port (log 20, the
model's choice).

R276, R269, R82, R87: `bfin` puts its token, or its two, last at the input of the array that runs a chain of its plane,
each record's value, after source flush, in the first column's carry format. R277: `bfout` takes the token at the output
port and emits it rounded to its type, to both targets or, with .two, to each in turn; `.lo` and `.hi` emit the tokens of
one half of the row group, and drop those of the other. -/
def Obligations.ArrayImagesAndPorts : Prop :=
  (∀ (s : State) (q k n : Nat) (a : SReg) (arr : ArrSel), Issues s q [a] → q < 128 → s.planeOf q = some k →
      ArrSel.list arr = [n] →
      let v := s.seq q
      let base := (v.read a).toNat
      let b := s.arr q n
      base % 4096 = 0 →
      (∀ inc, v.stage = .fresh → b.stopped = false → b.draining = false →
        (b.bind = none →
          ∃ t, exec (.bdrnSv a arr inc) s = .next t ∧ t = s.setArr q n { b with draining := true, drained := true } ∧
            BytesStay s t) ∧
        (∀ x, b.bind = some x → x.both = false →
          ∃ t, exec (.bdrnSv a arr inc) s = .next t ∧ BytesStay s t ∧
            t = s.setArr q n { b with draining := true, drained := false, inq := b.inq ++ [Token.mark Mk.drain] })) ∧
      (∀ inc i, v.stage = .fresh → b.stopped = false → b.draining = true → b.drained = true →
        v.rangeAt 0 = i → i < 8256 →
        let written := inc = false ∨ i ≤ 16 ∨ ∃ c m, c < 64 ∧ m < 64 ∧
          (i = 64 + 128 * c + m ∧ bitAt (b.col c).dirtyAcc m = true ∨
            i = 128 + 128 * c + m ∧ bitAt (b.col c).dirtyPair m = true)
        let goesOn (t : State) (id : Nat) : Prop := RegsStay s t q ∧ (t.seq q).ip = v.ip ∧
          (if i + 1 < 8256 then (t.seq q).wait = .range v.ip (i + 1) ∧ t.arr q n = b
            else (t.arr q n).stopped = true ∧ (t.arr q n).draining = false ∧ (t.arr q n).images = b.images + 1 ∧
              Tab.find? (t.arr q n).imageIds base = some (b.images + 1) ∧
              (∀ c, ((t.arr q n).col c).anyDirty = false ∧ ((t.arr q n).col c).acc = (b.col c).acc ∧
                ((t.arr q n).col c).pairs = (b.col c).pairs) ∧
              (t.seq q).wait = .event v.ip 4 id none none)
        (∀ p, written → s.storesHeld q < 16 →
          s.reach q (reqLoad q) (BitVec.ofNat 64 (base + 64 * i)) 64 .write = .to p →
          ∃ t e, exec (.bdrnSv a arr inc) s = .next t ∧ Placed s t q e ∧ e.kind = .write ∧
            e.pieces.map Piece.key = keysFrom p.key 64 ∧
            e.pieces.map Piece.value =
              s.imageBytes q n (b.images + 1) (if inc then (Tab.find? b.imageIds base).getD 0 else 0) (b.dirtyMask inc) i ∧
            goesOn t e.id) ∧
        (¬written → ∃ t, exec (.bdrnSv a arr inc) s = .next t ∧ BytesStay s t ∧ goesOn t (s.nextId - 1))) ∧
      (∀ i, v.stage = .fresh → b.stopped = true ∨ b.bind = none → v.rangeAt 0 = i → i < 8256 →
        ∀ p, s.reach q (reqLoad q) (BitVec.ofNat 64 (base + 64 * i)) 64 .read = .to p →
          ∃ t e, exec (.bdrnLd a arr) s = .next t ∧ Placed s t q e ∧ e.kind = .read ∧
            e.pieces.map Piece.key = keysFrom p.key 64 ∧ RegsStay s t q ∧ (t.seq q).ip = v.ip ∧
            (t.seq q).wait = .event v.ip 0 e.id (some (i, 0)) none ∧ t.arr q n = b) ∧
      (∀ m bs bad p, v.stage = .back m bs bad (some (0, 0)) →
        leNat ((bs.drop 24).take 8) / 2 ^ 59 % 2 = 0 → bs.length = 64 →
        s.reach q (reqLoad q) (BitVec.ofNat 64 (base + 64)) 64 .read = .to p →
        let w := leNat ((bs.drop 16).take 8)
        ∃ t e, exec (.bdrnLd a arr) s = .next t ∧ Placed s t q e ∧ e.kind = .read ∧
          e.pieces.map Piece.key = keysFrom p.key 64 ∧ RegsStay s t q ∧ (t.seq q).ip = v.ip ∧
          (t.seq q).wait = .event v.ip 0 e.id (some (1, 0)) none ∧ (t.arr q n).stopped = true ∧
          Tab.find? (t.arr q n).imageIds base = some (leNat (bs.take 8)) ∧ (w = 0 → (t.arr q n).bind = none) ∧
          (w ≠ 0 → ∃ x, (t.arr q n).bind = some x ∧ x.w1 = BitVec.ofNat 32 w ∧ x.w2 = BitVec.ofNat 32 (w / 2 ^ 32)) ∧
          ∀ d, (t.arr q n).col d = b.col d) ∧
      (∀ i m bs bad p, v.stage = .back m bs bad (some (i, 0)) → 64 ≤ i → i + 1 < 8256 → (i - 64) % 128 < 64 →
        s.reach q (reqLoad q) (BitVec.ofNat 64 (base + 64 * (i + 1))) 64 .read = .to p →
        let c := (i - 64) / 128
        let x := (i - 64) % 128
        ∃ t e, exec (.bdrnLd a arr) s = .next t ∧ Placed s t q e ∧ e.kind = .read ∧
          e.pieces.map Piece.key = keysFrom p.key 64 ∧ RegsStay s t q ∧ (t.seq q).ip = v.ip ∧
          (t.seq q).wait = .event v.ip 0 e.id (some (i + 1, 0)) none ∧
          (∀ d, d ≠ c → (t.arr q n).col d = b.col d) ∧
          (∀ l z, l < 64 → z < 16 → vget (vget ((t.arr q n).col c).acc l Token.empty.payload) z 0 =
            if l = x then BitVec.ofNat 32 (leNat ((bs.drop (4 * z)).take 4))
            else vget (vget (b.col c).acc l Token.empty.payload) z 0) ∧
          (t.arr q n).col c = { b.col c with acc := ((t.arr q n).col c).acc }) ∧
      (∀ m bs bad, v.stage = .back m bs bad (some (8255, 0)) → (s.region q).jobs.length ≤ 16 →
        ∃ t, exec (.bdrnLd a arr) s = .next t ∧ (t.arr q n).stopped = false ∧ (t.arr q n).draining = false ∧
          (t.seq q).ip = v.ip + 4 ∧ (t.seq q).wait = .none ∧ RegsStay s t q ∧ BytesStay s t)) ∧
  (∀ (s : State) (a : At) (f : Fields) (k : BaBind), a.room f → k.both = false → k.plane = a.plane % 4 →
      (∀ n ins, n ≤ 1 → f.tga = .port (BitVec.ofNat 7 (0x10 + n)) → ins = (if f.fn = 0 then [Slot.a] else [Slot.a, Slot.b]) →
        NodeData s a f ins → a.node.turn = false →
        let b := s.arr a.region n
        let l := vget (s.region a.region).limits (8 + n) Limiter.empty
        b.bind = some k → b.stopped = false → b.draining = false → b.eotIn = false →
        (∀ x ∈ b.inq, x.marker ≠ Mk.eot ∧ x.marker ≠ Mk.cfg) → (∀ x ∈ (b.col k.c0).inq, x.marker ≠ Mk.cfg) →
        b.inq.length + ins.length ≤ max (slotsOfCode f.dpa) ins.length → (l.a = 0 ∨ l.admitted + ins.length ≤ l.a) →
        ∃ u xs, NodeFires (.bfin f) s u a f (a.moving f ins) [] { a.node.took (a.at f ins .a) with turn := false } 0 ∧
          (u.arr a.region n).inq = b.inq ++ xs ∧ xs.length = ins.length ∧
          ∀ (j : Nat) (o : Slot) (x : Token), ins[j]? = some o → xs[j]? = some x → x.marker = Mk.data ∧ x.valid = 0xFFFF ∧
            ∀ i, i < 16 → x.at i =
              if a.live f ins i = true then
                (rounded k.env (Stage.carry (b.col k.c0).word) (Stage.rm (b.col k.c0).word)
                  (k.env.value ((ElemTy.fmt? f.ty).getD fp32) ((a.at f ins o).at i), 0)).1
              else 0) ∧
      (∀ t rest, let n := (bits f.imm 0 1).toNat
        let b := s.arr a.region n
        let form := bits f.fn 3 2
        let place := b.groupOut / k.g
        NodeTurn s a → a.node.ended = false → b.bind = some k → b.outq = t :: rest → t.tok.marker = Mk.data →
        (form = 0 ∨ ∀ (i : Nat) (x : OutTok), rest[i]? = some x → x.tok.marker = Mk.drain →
          ∃ (j : Nat) (y : OutTok), j < i ∧ rest[j]? = some y ∧ y.tok.marker ≠ Mk.data) →
        (form = 0 ∨ (∃ l, portGroup b b.groupOut = some (2 * l * k.g) ∧ 0 < k.g ∧ (form = 1 ∧ place < l ∨ form = 2 ∧ l ≤ place)) →
          ∃ u y, NodeFires (.bfout f) s u a f []
              (if bitAt f.fn 5 then [(if a.node.turn then 1 else 0, y)] else [(0, y), (1, y)])
              { a.node.took y with turn := bitAt f.fn 5 && !a.node.turn } 0 ∧
            (u.arr a.region n).outq = rest ∧ (u.arr a.region n).groupOut = b.groupOut + 1 ∧
            y.marker = Mk.data ∧ y.valid = 0xFFFF ∧
            ∀ i, i < 16 → y.at i =
              ((vget t.sums i { v := .nan, mixed := false }).round k.env ((ElemTy.fmt? f.ty).getD fp32)
                (a.env.select (bits f.fn 0 3))).1) ∧
        (∀ l, portGroup b b.groupOut = some (2 * l * k.g) → 0 < k.g → (form = 1 ∧ l ≤ place ∨ form = 2 ∧ place < l) →
          ∃ u, exec (.bfout f) s = .next u ∧ u = s.setArr a.region n { b with outq := rest, groupOut := b.groupOut + 1 })) ∧
      (∀ (pre : List OutTok) t rest, let n := (bits f.imm 0 1).toNat
        let b := s.arr a.region n
        NodeTurn s a → b.bind = some k → b.outq = pre ++ t :: rest → t.tok.marker = Mk.drain →
        (pre = [] ∨ bits f.fn 3 2 ≠ 0) → (∀ x ∈ pre, x.tok.marker = Mk.data) → b.draining = false → a.node.passed = false →
          exec (.bfout f) s = .next ((s.setArr a.region n { b with outq := pre ++ rest }).setNode a
            { a.node with phase := .emit, emitting := Mk.drain, sent := [], passed := true })))

/-- R263, R264, R254: COLUMN_FIRE of an element-unit stage takes the token at the column, and emits the token of the next
place once it is there: at the last column of a chain its exact sums go to the output port. R263 says that a column fires
when the next has room; that room is two tokens in front of the next column, and two or an unfinished group at the output port,
is the model's choice (log 67).

R266, R268, R281, R269, R284: CHAIN_COMPLETE unbinds the arrays of a chain whose EOT has left and whose spill events are
released; ARRAY_DRAIN consumes the DRAIN of `bdrn.sv`, or one that no `bfout` takes, at the output port: the DRAIN that no `bfout`
takes, and the data that it passes there, are the model's choice (log 20); RATE_WINDOW starts a limiter's count again. -/
def Obligations.ColumnsFire : Prop :=
  (∀ (s : State) (r a c e : Nat) (k : BaBind) (job : Job) (t : Token) (rest : List Token),
      (s.arr r a).bind = some k → (s.arr r a).stopped = false → k.c0 ≤ c → c < k.c0 + k.n →
      (s.plane (planeKey r k.plane)).atRest = false → s.chainJob r k = some (e, job) → job.started = true →
      let b := s.arr r a
      let x := b.col c
      x.inq = t :: rest → x.marks = [] → Stage.unit x.word = false →
      (if c + 1 < k.c0 + k.n then (b.col (c + 1)).inq.length < 2
        else b.outq.length < 2 ∨ ∀ o ∈ b.outq, isPositional o.tok.marker = false) →
      (x.sent = x.recv → t.marker = Mk.data →
        ∃ u, exec (.columnFire r a c) s = .next u ∧ ((u.arr r a).col c).inq = rest ∧ ((u.arr r a).col c).recv = x.recv + 1 ∧
          Tab.find? ((u.arr r a).col c).pairs x.recv = some t ∧ ((u.arr r a).col c).sent = x.sent ∧
          (∀ d, d ≠ c → (u.arr r a).col d = b.col d) ∧ u.mem = s.mem) ∧
      (∀ y, x.sent < x.recv → c + 1 = k.c0 + k.n → Tab.find? x.pairs x.sent = some y →
        ∃ u o, exec (.columnFire r a c) s = .next u ∧ (u.arr r a).outq = b.outq ++ [o] ∧
          o.sums = (makeElements (s.weight r a c x k.env) k.env x.word (x.sent / k.g) y).sums ∧
          ((u.arr r a).col c).sent = x.sent + 1 ∧ ((u.arr r a).col c).recv = x.recv ∧ ((u.arr r a).col c).inq = x.inq ∧
          (∀ d, d ≠ c → (u.arr r a).col d = b.col d) ∧ u.mem = s.mem)) ∧
  (∀ (s : State) (r a e : Nat) (k : BaBind),
      ((s.arr r a).bind = some k → k.both = false →
        (∀ j, (s.arr r a).eotOut = true → (s.arr r a).eotIn = true → (s.arr r a).stopped = false →
          (s.plane (planeKey r k.plane)).atRest = false → s.chainJob r k = some (e, j) → s.jobReleased r e j.scope = true →
          j.kind = .bchn (if a = 0 then .ba0 else .ba1) → a ≤ 1 → r < 128 → e < 16 →
          ∃ t, exec (.chainComplete r a) s = .next t ∧ (t.arr r a).bind = none ∧ (t.arr r a).inq = [] ∧
            (t.arr r a).outq = [] ∧ Tab.find? (t.region r).jobs e = none ∧ BytesStay s t ∧ OrderStays s t) ∧
        (∀ pre t rest, a ≤ 1 → (s.arr r a).outq = pre ++ t :: rest → t.tok.marker = Mk.drain →
          (∀ x ∈ pre, x.tok.marker ≠ Mk.drain) →
          (pre = [] ∨ (s.plane (planeKey r k.plane)).hasBfout a = false ∨
            ((s.plane (planeKey r k.plane)).halvesAt a = true ∧ ∀ x ∈ pre, x.tok.marker = Mk.data)) →
          ((s.arr r a).draining = true ∨ (s.plane (planeKey r k.plane)).hasBfout a = false) →
          exec (.arrayDrain r a) s =
            .next (s.setArr r a { s.arr r a with outq := pre ++ rest, drained := (s.arr r a).draining }))) ∧
      (∀ unit, unit < 10 →
        ∃ t, exec (.rateWindow r unit) s = .next t ∧
          t = s.setRegion r { s.region r with limits := (t.region r).limits } ∧
          (∀ n, n < 10 → vget (t.region r).limits n Limiter.empty =
            if n = unit then { vget (s.region r).limits n Limiter.empty with admitted := 0 }
            else vget (s.region r).limits n Limiter.empty)))

/-- R304 to R307: `steer` reads its descriptor once its group has ended, and sets the group from it; `stcnt` reads an
operator's counters, `stcnt.wr` writes them within SEEN < W and DROP ≤ SEEN, and `smenu` sets a menu of rising
thresholds; other values raise STVAL, as do a descriptor's address, W and JN that R305 excludes (that bits of `smenu`'s sA above
the thresholds must be zero is the model's, log 25).

R287 to R290, R294: ROUTER_DISPATCH sends the head record of a batch group to the candidate of the highest score and
counts it out; ROUTER_REPORT counts a kept or dropped record in, and halves at W; a report that nothing owes raises STGRP,
naming the node, the block and the position at which the record last entered the group; GROUP_END sends EOT to the block's
`pips.out` and to every `sroute`. -/
def Obligations.SteeringAndRouter : Prop :=
  (∀ (s : State) (q k : Nat) (d a b : SReg) (grp : BitVec 2) (j : BitVec 3), Issues s q [d, a, b] → q < 128 →
      s.planeOf q = some k →
      let v := s.seq q
      let x := v.read a
      let g := (s.plane k).group grp.toNat
      (∀ (win : BitVec 13) (batch : Bool) (en jn : BitVec 8),
        (∀ p, v.stage = .fresh → g.ended = true → x.toNat % 16 = 0 → 4 ≤ win.toNat → win.toNat ≤ 4096 →
          jn &&& ~~~en = 0 → s.reach q (reqLoad q) x 16 .read = .to p →
          ∃ t e, exec (.steer grp a win batch en jn) s = .next t ∧ Placed s t q e ∧ e.kind = .read ∧
            e.pieces.map Piece.key = keysFrom p.key 16 ∧ e.dest = .wait q ∧ (t.seq q).wait = .event v.ip 8 e.id none none) ∧
        (∀ n bs bad, v.stage = .back n bs bad none → steerOk en bs = true →
          ∃ t, exec (.steer grp a win batch en jn) s = .next t ∧ (t.seq q).ip = v.ip + 8 ∧ (t.seq q).wait = .none ∧
            RegsStay s t q ∧ BytesStay s t ∧
            let h := (t.plane k).group grp.toNat
            h.en = en ∧ h.jn = jn ∧ h.w = win.toNat ∧ h.batch = batch ∧
              (∀ n, n < 8 → vget h.cost n 0 = ((bs[2 * n]?).getD 0).toNat ∧ vget h.aft n 0 = (bs[2 * n + 1]?).getD 0 ∧
                vget h.seen n 0 = 2 ∧ vget h.drop n 0 = 1 ∧ vget h.out n 0 = 0) ∧
              h.queue = [] ∧ h.routed = g.routed ∧ h.outMarks = g.outMarks) ∧
        (v.stage = .fresh → g.ended = true → EStat.inh v.estat = false →
          (x.toNat % 16 ≠ 0 ∨ win.toNat < 4 ∨ 4096 < win.toNat ∨ jn &&& ~~~en ≠ 0) →
          ∃ t, exec (.steer grp a win batch en jn) s = .next t ∧ (t.seq q).fltcause.toNat = Cause.stval.code.toNat ∧
            (t.seq q).fltaddr = x ∧ (t.seq q).epc = BitVec.ofNat 64 (v.ip.toNat % 2 ^ 52) ∧ t.planes = s.planes) ∧
        (∀ n bs bad hit, v.stage = .back n bs bad hit → steerOk en bs = false → EStat.inh v.estat = false →
          ∃ t, exec (.steer grp a win batch en jn) s = .next t ∧ (t.seq q).fltcause.toNat = Cause.stval.code.toNat ∧
            (t.seq q).fltaddr = x ∧ (t.seq q).epc = BitVec.ofNat 64 (v.ip.toNat % 2 ^ 52) ∧ t.planes = s.planes)) ∧
      (∃ y, SeqWrites (.stcnt d grp j) s q d y 4 ∧ (bits y 16 16).toNat = vget g.seen j.toNat 0 % 2 ^ 16 ∧
        (bits y 0 16).toNat = vget g.drop j.toNat 0 % 2 ^ 16 ∧
        (bits y 32 32).toNat = (if bitAt g.en j.toNat then
          vget g.drop j.toNat 0 * 65536 / (vget g.seen j.toNat 0 * vget g.cost j.toNat 0) else 0) % 2 ^ 32) ∧
      (let seen := (bits x 16 16).toNat
       let drop := (bits x 0 16).toNat
       (1 ≤ seen → seen < g.w → drop ≤ seen →
          SeqGoesOn (.stcntWr a grp j) s (s.setPlane k ((s.plane k).setGroup grp.toNat
            { g with seen := vput g.seen j.toNat seen, drop := vput g.drop j.toNat drop })) q 0 0 4) ∧
        ((seen = 0 ∨ g.w ≤ seen ∨ seen < drop) → EStat.inh v.estat = false →
          ∃ t, exec (.stcntWr a grp j) s = .next t ∧ Trapped s t q .stval 0 v.ip)) ∧
      (∀ m : BitVec 2, bits x 48 16 = 0 → (bits x 0 16).toNat ≤ (bits x 16 16).toNat →
        (bits x 16 16).toNat ≤ (bits x 32 16).toNat →
          SeqGoesOn (.smenu a b m) s
            (s.setPlane k { s.plane k with menus := vput (s.plane k).menus m.toNat (bits x 0 48, v.read b) }) q 0 0 4) ∧
      (∀ m : BitVec 2, EStat.inh v.estat = false → (bits x 48 16 ≠ 0 ∨ (bits x 16 16).toNat < (bits x 0 16).toNat ∨
          (bits x 32 16).toNat < (bits x 16 16).toNat) →
        ∃ t, exec (.smenu a b m) s = .next t ∧ Trapped s t q .stval 0 v.ip)) ∧
  (∀ (s : State) (r p gi : Nat), gi < 4 → (s.plane (planeKey r p)).stopped = false →
      let k := planeKey r p
      let pl := s.plane k
      let g := pl.group gi
      (∀ x rest j, g.queue = x :: rest → g.draining = false → g.batch = true → g.outSum = 0 → g.pick x.pips = some j →
        j < 8 → pl.hasOperator gi j = true →
        ∃ t h, exec (.routerDispatch r p gi) s = .next t ∧ t = s.setPlane k (pl.setGroup gi h) ∧ h.queue = rest ∧
          h.out = vput g.out j (vget g.out j 0 + 1) ∧ h.seen = g.seen ∧ h.drop = g.drop ∧
          Tab.getD h.routed j [] = Tab.getD g.routed j [] ++ [packRecords [x]] ∧ BytesStay s t) ∧
      (∀ x rest i, pl.reports = x :: rest → x.group = gi → x.kind = 0 → x.op < 8 → onlyLane x.tok.has i →
        (vget g.out x.op 0 ≠ 0 →
          ∃ t h, exec (.routerReport r p) s = .next t ∧ t = s.setPlane k ({ pl with reports := rest }.setGroup gi h) ∧
            h.out = vput g.out x.op (vget g.out x.op 0 - 1) ∧ BytesStay s t ∧
            let seen := vget g.seen x.op 0 + 1
            let drop := vget g.drop x.op 0 + if bitAt x.keep i then 0 else 1
            vget h.seen x.op 0 = (if seen = g.w then seen / 2 else seen) ∧
            vget h.drop x.op 0 = (if seen = g.w then drop / 2 else drop)) ∧
        (vget g.out x.op 0 = 0 →
          ∃ t, exec (.routerReport r p) s = .next t ∧ (t.plane k).frozen = .fault ∧
            (t.sysOf k).fltcause.toNat = Cause.stgrp.code.toNat ∧
            (∀ e, g.away.find? (fun e => e.1 = vget x.tok.rids i 0) = some e →
              (t.sysOf k).fltpos = positionWord e.2.node (k % 4) e.2.pos ∧ (t.sysOf k).fltbpc = BitVec.ofNat 64 e.2.bpc))) ∧
      (g.draining = false → pl.groupOver gi = true →
        ∃ t h, exec (.groupEnd r p gi) s = .next t ∧ t = s.setPlane k (pl.setGroup gi h) ∧ h.ended = true ∧
          h.entEot = false ∧
          h.outMarks = (if pl.hasOutlet gi g.era then g.outMarks ++ [Token.mark Mk.eot] else g.outMarks) ∧
          ∀ j, j < 8 → pl.hasOperator gi j = true →
            Tab.getD h.routed j [] = Tab.getD g.routed j [] ++ [Token.mark Mk.eot]))

/-- R287, R289, R297 to R299: the nodes of steering: `pips.ent` enters its records into the group, `sroute` and `pips.out`
take what the router has for them, `sret` and `sret.new` hand reports to it.

R299, R380, R300: `pips.rd`, `pips.set` and `pips.clr` give each lane its record's pips, or change them; `live` keeps the
records whose branch, the one that slot b or the record itself names, is live as the region knows it, and squashes the others, for
which OUT of the operator that it lies in falls; `clsc` packs records into full tokens. -/
def Obligations.SteeringAndRecordNodes : Prop :=
  (∀ (s : State) (a : At) (f : Fields) (ins : List Slot), a.room f →
      let gi := (bits f.imm 0 2).toNat
      let op := (bits f.imm 2 3).toNat
      let g := a.pl.group gi
      let t := a.at f ins .a
      let withGroup (x : StGroup) : At := { a with pl := a.pl.setGroup gi x }
      (ins = [.a] → f.pm = .always → NodeData s a f ins → a.pl.admits gi = true → g.closing = false →
        ∃ x, NodeFires (.pipsEnt f) s s (withGroup x) f [.a] [] (a.node.took t) 0 ∧
          x.queue.length + x.done.length = g.queue.length + g.done.length + records t.valid ∧ x.out = g.out ∧ x.seen = g.seen ∧
          ∀ k, k < 16 → t.has k = true → ∃ r : StRec, r.value = t.at k ∧ r.pips = vget t.pips k 0 ∧
            (if r.pips &&& g.en = g.en then r ∈ x.done else r ∈ x.queue)) ∧
      (∀ y rest, NodeTurn s a → a.node.ended = false → Tab.getD g.routed op [] = y :: rest → y.marker = Mk.data →
        NodeFires (.sroute f) s s (withGroup { g with routed := Tab.put g.routed op rest }) f [] (toAll y)
          { a.node.took y with ended := false } 0) ∧
      (NodeTurn s a → a.node.ended = false → g.outMarks = [] → g.draining = false → g.done ≠ [] →
        ∃ y, NodeFires (.pipsOut f) s s (withGroup { g with done := g.done.drop 16 }) f [] (toAll y)
            { a.node.took y with ended := false } 0 ∧
          ∀ k, k < 16 → y.has k = decide (k < g.done.length) ∧
            ∀ r, g.done[k]? = some r → y.at k = r.value ∧ vget y.pips k 0 = r.pips) ∧
      (∀ i, NodeData s a f ins → a.pl.reportRoom a.slot f.dpa = true →
        (i = .sret f ∧ f.fn = 0 ∧ ins = [.a, .b] ∨ i = .sret f ∧ f.fn = 1 ∧ ins = [.a] ∧ a.pl.admits gi = true) →
        ∃ r : StReport, NodeFires i s s { a with pl := { a.pl with reports := a.pl.reports ++ [r] } } f (a.moving f ins) []
            (a.node.took t) 0 ∧
          r.group = gi ∧ r.op = op ∧ r.kind = f.fn.toNat ∧ r.tok = t ∧
          ∀ k, k < 16 → bitAt r.keep k = ((a.at f ins .b).has k && decide ((a.at f ins .b).at k ≠ 0)))) ∧
  (∀ (s : State) (a : At) (f : Fields), a.room f →
      let t := a.at f [.a] .a
      let on (k : Nat) : Bool := t.has k && predOk f (a.at f [.a] .p) k
      let taken := a.moving f [.a]
      (NodeData s a f [.a] → ∀ i, (i = .pipsRd f ∨ i = .pipsSet f ∨ i = .pipsClr f) →
        ∃ o : Token, NodeFires i s s a f taken [(0, o), (1, o)] (a.node.took t) 0 ∧ o.valid = t.valid ∧ o.rids = t.rids ∧
          ∀ k, k < 16 →
            let p : Byte := vget t.pips k 0
            let m : Byte := bits f.imm 0 8
            o.at k = (if i = .pipsRd f ∧ on k = true then p.setWidth 32 else t.at k) ∧
            vget o.pips k 0 = (if on k = false then p else if i = .pipsSet f then p ||| m
              else if i = .pipsClr f then p &&& ~~~m else p)) ∧
      (∀ (c : Ctx) (ins : List Slot), NodeData s a f ins → s.ctx? a.ctx = some c →
        (f.fn = 0 ∧ ins = [.a, .b] ∨ f.fn = 1 ∧ ins = [.a]) →
        let x := a.at f ins .a
        let w := a.at f ins .b
        let alive (n : Nat) : Prop := n < c.nbr ∧ n < 2 ^ 16 ∧ ((c.branch n).st = 1 ∨
          ((c.branch n).st = 2 ∧ n ∈ c.marked ∧ (a.ctx, n) ∉ (s.region a.region).dead))
        let keep (k : Nat) : Prop := x.has k = true ∧ predOk f (a.at f ins .p) k = true ∧
          (if f.fn = 1 then alive ((x.at k).toNat % 2 ^ 16) else w.has k = true ∧ alive (w.at k).toNat)
        ∃ t o, exec (.live f) s = .next t ∧ BytesStay s t ∧
          (∀ k, k < 16 → (o.has k = true ↔ keep k) ∧ o.at k = if o.has k then x.at k else 0) ∧
          let v := a.fired f (a.moving f ins) [(0, o), (1, o)] (a.node.took x) 0
          let u := t.plane a.plane
          (∃ gs, u = { v with groups := gs }) ∧ ((∀ k, k < 16 → x.has k = true → keep k) → u = v) ∧
          ∀ g j rest, v.within a.node.era (v.nodes.length + 1) [(a.slot, false)] = (g, j, false) :: rest →
            vget (u.group g).out j 0 =
              vget (v.group g).out j 0 - ((List.range 16).filter fun k => x.has k && !o.has k).length) ∧
      (NodeData s a f [.a] → a.node.buf = [] →
        let mine := ((List.range 16).filter on).map fun k => t.at k
        (mine.length < 16 → mine ≠ [] →
          ∃ o : Token, NodeFires (.clsc f) s s a f taken [] { a.node.took t with buf := [o] } 0 ∧
            ∀ k, k < 16 → o.has k = decide (k < mine.length) ∧ o.at k = mine.getD k 0) ∧
        (mine.length = 16 →
          ∃ o : Token, NodeFires (.clsc f) s s a f taken (toAll o) { a.node.took t with buf := [] } 0 ∧
            ∀ k, k < 16 → o.has k = true ∧ o.at k = mine.getD k 0)))

/-- The order of coordinates under the signedness of a type (R301). -/
def setBelow (ty : ElemTy) (u v : Lane) : Prop := if ty = .i32 then u.toInt < v.toInt else u.toNat < v.toNat

/-- R20, R301: a cycle of the comparators of `isect`, `unio` and `mrgk`: lane 0 has a record of each side at the head of the
links, where their tokens stay until every lane has passed them, and the others have finished: the smaller is passed, by `unio` and `mrgk` with its index word, and of two equal ones `isect` and `unio` pass
both as one with the pips of both, `mrgk` a's alone.

R302: `sjoin` inserts the record at the head of a side under the next stamp, and its matches in the other side's table
are to be emitted in the order of their stamps, left and right payload together; a full table raises JOINFULL. -/
def Obligations.SetAndJoinNodes : Prop :=
  (∀ (s : State) (a : At) (f : Fields) (i : Instr) (x y : Token) (la lb : Link), NodeTurn s a → a.room f →
      (i = .isect f ∨ i = .unio f ∨ i = .mrgk f) → inLink a.pl a.node a.slot .a = some la →
      inLink a.pl a.node a.slot .b = some lb → la.toks = [x] → lb.toks = [y] →
      x.marker = Mk.data → y.marker = Mk.data → x.valid = 1 → y.valid = 1 → a.node.fibres.finished = 0xFFFE →
      vget a.node.fibres.takenA 0 0 = vget a.node.fibres.passedA 0 0 → vget a.node.fibres.passedA 0 0 < 65534 →
      vget a.node.fibres.takenB 0 0 = vget a.node.fibres.passedB 0 0 → vget a.node.fibres.passedB 0 0 < 65534 →
      (vget a.node.fibres.passedA 0 0 = 0 ∨ setBelow f.ty (vget a.node.fibres.lastA 0 0) (x.at 0)) →
      (vget a.node.fibres.passedB 0 0 = 0 ∨ setBelow f.ty (vget a.node.fibres.lastB 0 0) (y.at 0)) →
      let lt := setBelow f.ty
      let p := x.at 0
      let q := y.at 0
      let na := vget a.node.fibres.passedA 0 0
      let nb := vget a.node.fibres.passedB 0 0
      ∃ (o w : Token) (n : Node) (pl : Plane), NodeFires i s s { a with pl } f [] [(0, o), (1, w)] n 0 ∧
        { pl with links := a.pl.links } = a.pl ∧
        pl.links.map (fun l => ({ l with toks := [] }, l.toks.map fun t => { t with rids := Token.empty.rids })) =
          a.pl.links.map (fun l => ({ l with toks := [] }, l.toks.map fun t => { t with rids := Token.empty.rids })) ∧ o.valid = w.valid ∧
        (lt p q → vget n.fibres.passedA 0 0 = na + 1 ∧ vget n.fibres.passedB 0 0 = nb ∧
          (i = .isect f → o.valid = 0) ∧
          (i ≠ .isect f → o.valid = 1 ∧ o.at 0 = p ∧ w.at 0 = BitVec.ofNat 16 na ++ (0xFFFF : BitVec 16))) ∧
        (lt q p → vget n.fibres.passedB 0 0 = nb + 1 ∧ vget n.fibres.passedA 0 0 = na ∧
          (i = .isect f → o.valid = 0) ∧
          (i ≠ .isect f → o.valid = 1 ∧ o.at 0 = q ∧ w.at 0 = (0xFFFF : BitVec 16) ++ BitVec.ofNat 16 nb)) ∧
        (p = q → o.valid = 1 ∧ o.at 0 = p ∧ vget n.fibres.passedA 0 0 = na + 1 ∧
          (i = .mrgk f → vget n.fibres.passedB 0 0 = nb ∧ w.at 0 = BitVec.ofNat 16 na ++ (0xFFFF : BitVec 16) ∧
            vget o.pips 0 0 = vget x.pips 0 0) ∧
          (i ≠ .mrgk f → vget n.fibres.passedB 0 0 = nb + 1 ∧ w.at 0 = BitVec.ofNat 16 na ++ BitVec.ofNat 16 nb ∧
            vget o.pips 0 0 = vget x.pips 0 0 ||| vget y.pips 0 0))) ∧
  (∀ (s : State) (a : At) (f : Fields) (t : Token) (hb : Head), NodeTurn s a → a.node.pend = [] →
      a.heads [.a, .b] = [{ slot := .a, sticky := false, tok := some t }, hb] → hb.tok = none → t.marker = Mk.data →
      t.valid = 1 → f.fn = 0 → a.node.count ≠ 0 → a.node.limit = 0 → a.node.spoiled = false →
      let p := a.joinPat f
      let mine := (a.node.join.filter fun e => e.left).length
      (a.node.count + 1 < 2 ^ 24 → mine < p.cnt0 →
        ∃ u n e, exec (.sjoin f) s = .next u ∧ Tab.find? (u.plane a.plane).nodes a.slot = some n ∧
          n.join = a.node.join ++ [e] ∧ n.count = a.node.count + 1 ∧ e.left = true ∧ e.key = bits (t.at 0) 16 16 ∧
          e.payload = bits (t.at 0) 0 16 ∧ e.stamp = a.node.count + 1 ∧ n.pos = a.node.pos + 1 ∧
          (u.plane a.plane).links = (takeSlots a.pl a.node a.slot [.a]).links ∧
          (let ms := a.node.join.filter fun z => !z.left && z.key == e.key
           ms.length ≤ 16 → ms ≠ [] → ∃ o, n.pend = [(o, o)] ∧ ∀ k z, k < 16 → ms[k]? = some z →
              o.has k = true ∧ o.at k = e.payload ++ z.payload ∧ vget o.pips k 0 = e.pips ||| z.pips)) ∧
      (p.cnt0 ≤ mine → NodeFaults (.sjoin f) s a .joinfull a.node.pos))

/-- R62, R64, Tables 2-4, 2-12 and 2-14: the decoders give every well-formed coded instruction back from its words; a
fabric word decodes to one instruction alone, which is well formed and whose word it is. -/
def Obligations.Encodings : Prop :=
  (∀ (i : Instr) (w : Lane) (w2 : Option Lane), WellFormed i = true → encodeSeq i = some (w, w2) →
    decodeSeq w (w2.getD 0) = some i ∧ (w2 = none → ∀ x, decodeSeq w x = some i) ∧ (w2.isSome = twoWords (seqOp w))) ∧
  (∀ (i : Instr) (opc : Nat) (f : Fields), WellFormed i = true → i.fabric? = some (opc, f) →
    decodeFabric (encodeFabric opc f) = .ok i) ∧
  (∀ (w : Word) (i : Instr), decodeFabric w = .ok i →
    WellFormed i = true ∧ ∃ opc f, i.fabric? = some (opc, f) ∧ encodeFabric opc f = w)

/-- Tables 2-4, 2-9, 2-12, 2-14: words written out from the encodings decode to the instructions that they stand for. -/
def Obligations.DecodesWritten : Prop :=
  decodeFabric 0x208010A000400064 =
    .ok (.fabAdd { fn := 0x20, ty := .i32, tga := .operand 5 .a, tgb := .absent, dpa := 2, dpb := 0, pm := .always,
                   imm := 0x64 }) ∧
  decodeFabric 0xB400512228480000 =
    .ok (.isect { fn := 0, ty := .u32, tga := .operand 9 .a, tgb := .operand 10 .a, dpa := 2, dpb := 2, pm := .always,
                  imm := 0 }) ∧
  decodeFabric 0xFF00000000000000 = .error .opc ∧
  decodeSeq 0x01184400 0 = some (.add 3 1 2) ∧ decodeSeq 0x02087FFF 0 = some (.addi 1 1 0x3FFF) ∧
  decodeSeq 0x210A8000 0 = some (.sst 1 10 0) ∧ decodeSeq 0x9B000000 0 = some .halt ∧ decodeSeq 0x9B000001 0 = none ∧
  decodeSeq 0xFF000000 0 = none

/-- R61, R66, R93, R57, R464: a sequencer's turn executes what its decoder reads at the IP, or takes ILLOP where that is no
instruction, or the trap of the fetch; a node's turn does what its word says, or takes the word of `cfgw` that waits for it when
nothing is under way there; an event of the device happens when it is due; time passes, and a word may be fetched ahead (R67);
an unpowered module does nothing. A turn changes beyond that the energy of the words that were read (R461, once an instruction
has been executed: log 114), the marks that R399 keeps, the last plane that an element has
served (R30, and of the consumers over zero-slot links, log 10) and the bytes of branch areas (R356); one that would spend more
than R460 allows, or send a fault token to a
full ring (R390), waits. R29: each agent's and each event's turn comes again and again. -/
def Obligations.StepRunsDecoded : Prop :=
  (∀ (s : State) (rest : List Turn),
    let r := { s with agenda := rest }
    let after (t : State) : State := if r.overspends t || r.overfills t then r else r.writeAreas (r.marked t)
    (∀ q, s.agenda = .sequencer q :: rest → s.powered = true → (s.seq q).run = .running → s.seqHeld q = false →
      (∀ ip n id hit got, (s.seq q).wait ≠ .event ip n id hit got) →
      let u := ({ r with actor := .sequencer q }).endSlice q
      let read (t : State) : State := if (t.seq q).ip = (u.seq q).ip then t else u.chargeFetch t q
      (∀ w w2 i, u.fetchInstr q = .words w w2 → decodeSeq w w2 = some i →
        (∀ t, exec i u = .next t → step s = .next (after (read t))) ∧ (∀ f, exec i u = .fault f → step s = .fault f)) ∧
      (∀ w w2, u.fetchInstr q = .words w w2 → decodeSeq w w2 = none →
        exec .illop u = .next (u.raise q .illop 0) ∧ step s = .next (after (read (u.raise q .illop 0)))) ∧
      (∀ t, u.fetchInstr q = .out t → exec .fetchFault u = .next t ∧ step s = .next (after t)) ∧
      (2 ^ 52 ≤ (u.seq q).ip.toNat → EStat.inh (u.seq q).estat = false →
        ∃ t, exec .fetchFault u = .next t ∧ Trapped u t q .varange (u.seq q).ip (u.seq q).ip)) ∧
    (∀ q n id hit, s.agenda = .sequencer q :: rest → s.powered = true → (s.seq q).run = .running → s.seqHeld q = false →
      (s.seq q).wait = .event (s.seq q).ip n id hit none → s.eventDone q id = true → s.waitReads q = false → n ≠ 0 →
      step s = .next (after (({ r with actor := .sequencer q }).doneWait q n hit))) ∧
    (∀ q a, s.agenda = .prefetch q a :: rest → s.powered = true → (s.seq q).run = .running → s.seqHeld q = false →
      step s = .next (after (r.fetchAhead q a))) ∧
    (∀ n, s.agenda = .elapse n :: rest → s.powered = true → step s = .next (after (r.elapse n))) ∧
    (∀ x p slot n w, s.agenda = .node x p slot :: rest → s.powered = true → p < 4 →
      Tab.find? (s.plane (planeKey x p)).nodes slot = some n → n.config = some w → n.underWay = false →
      step s = .next (after (r.setPlane (planeKey x p) ((s.plane (planeKey x p)).configured slot n w)))) ∧
    (∀ x p slot n i t, s.agenda = .node x p slot :: rest → s.powered = true → p < 4 →
      Tab.find? (s.plane (planeKey x p)).nodes slot = some n → (n.config = none ∨ n.underWay = true) →
      decodeFabric n.word = .ok i →
      exec i { r with actor := .node x p slot } = .next t → t.zeroSlots x p slot = [] → r.outTurned x p slot = false →
      step s = .next (after (if t.plane (planeKey x p) ≠ s.plane (planeKey x p) then t.setServed x p slot else t))) ∧
    (∀ i t, s.agenda = .happening i :: rest → s.powered = true ∨ i = .powerOn → encode i = [] → i ≠ .illop →
      i ≠ .fetchFault → r.isDue i = true → exec i { r with actor := .device } = .next t → step s = .next (after t)) ∧
    (∀ x, s.agenda = x :: rest → s.powered = false → x ≠ .happening .powerOn → step s = .next r)) ∧
  (∀ (a b c m : Nat) (t : Turn), t ∈ fairTurns a b c → ∃ n, m ≤ n ∧ nextTurn n = t)

/-- R7, R24, R382, R404, R413, R464: what reset leaves: no context, task or virtual device, every sequencer halted or free
with the register values that the tables give, every host register 0 but RST, memory without a written byte, and each
board's root core privileged. The registers for which the spec gives no reset value hold the model's (log 2). -/
def Obligations.ResetState : Prop :=
  let s := State.reset
  s.memOk ∧ s.ctxs = [] ∧ s.tasks = [] ∧ s.vds = [] ∧ s.powered = true ∧ s.cycle = 0 ∧ s.host.rst = 1 ∧ s.host.crcfg = 0 ∧
    s.host.crtail = 0 ∧ s.host.crhead = 0 ∧ s.host.cptail = 0 ∧ s.host.cphead = 0 ∧ s.host.bootst = 0 ∧
    (∀ ag key, s.readByte ag key = 0) ∧ (∀ ag b, s.readTag ag b = 0) ∧
    (∀ q, (s.seq q).outU = 0 ∧ (s.seq q).armedU = 0 ∧ (s.seq q).wait = .none ∧ (s.seq q).blkst = 0 ∧
      (s.seq q).tstat = 0 ∧ (s.seq q).sctl = 0 ∧ EStat.inh (s.seq q).estat = false ∧
      (∀ r, (s.seq q).read r = 0) ∧ ((s.seq q).priv = true ↔ 128 ≤ q)) ∧
    (∀ k, (s.plane k).ctx = none ∧ (s.plane k).nodes = [] ∧ (s.plane k).links = [] ∧ (s.plane k).frozen = .none) ∧
    (∀ r u, u < 10 → vget (s.region r).limits u Limiter.empty = { a := 0, w := 256, admitted := 0, set := (0, 256) })

/-- Memory keeps its canonical form, in which keys rise and none is listed that reads as an unlisted one: a step that
goes on keeps it, and so do the writes of memory by themselves, whoever makes them. -/
def Obligations.MemoryKeepsForm : Prop :=
  (∀ s t : State, s.memOk → step s = .next t → t.memOk) ∧
  (∀ (m : Memory) (w : MWrite), m.wf = true → (m.append w).wf = true) ∧
  (∀ (m : Memory) (id src dst : Nat), m.wf = true → (m.copyPage id src dst).wf = true)

/-- R396 to R400: `save` refuses a plane without a context by SYSVAL and an address that is no multiple of 4,096 by ALIGN;
at rest it counts the context's SEALID and takes the image of what the plane then holds, in the same turn (the moment is the
model's choice, log 88), of `.inc` on the slot's last image at that address only the sectors that are dirty, with BASEID that
image's; it writes the image's lines one after another, and with the last one frees the plane,
records the image under its slot and writes the sectors written and whether the image is full; `rest` reads the lines, and
with the last one loads an image whose checks all hold, with the context's FPC and CTXRES as they were saved (R80, R405),
and writes 0, or writes the status that refuses it. -/
def Obligations.Images : Prop :=
  ∀ (s : State) (q : Nat) (d a b : SReg) (inc : Bool), IssuesPriv s q [d, a, b] →
    let v := s.seq q
    let x := v.read b
    let r := imageRegion x
    let p := imagePlane x
    let k := planeKey r p
    let addr := (v.read a).toNat
    let i := v.rangeAt 0 % 20864
    (EStat.inh v.estat = false → (s.plane k).ctx = none → ∃ t, exec (.save d a b inc) s = .next t ∧ Trapped s t q .sysval 0 v.ip) ∧
    (∀ n c, (s.plane k).ctx = some n → s.ctx? n = some c → imageWordOk q x = true →
      (addr % 4096 ≠ 0 → EStat.inh v.estat = false →
        ∃ t, exec (.save d a b inc) s = .next t ∧ Trapped s t q .align (v.read a) v.ip) ∧
      (addr % 4096 = 0 → s.bringToRest q r p = (s, true) →
        let written := (Tab.find? s.imaging k).filter fun y => y.uid = c.uid && y.imgid = v.rangeAt 0 / 20864
        let lineAt (ph : Phys) : Prop := s.storesHeld q < 16 ∧
          s.reach q (reqLoad q) (BitVec.ofNat 64 (addr + 64 * i)) 64 .write = .to ph
        let base := if inc then (Tab.find? c.slots (imageSlot x)).filter fun z => z.addr = addr else none
        (written = none →
          ∃ t y, exec (.save d a b inc) s = .next t ∧ t.ctx? n = some { c with sealid := c.sealid + 1 } ∧
            (t.seq q).wait = .range v.ip (20864 * (c.sealid + 1)) ∧ (t.seq q).ip = v.ip ∧ BytesStay s t ∧
            Tab.find? t.imaging k = some y ∧ y.ctx = n ∧ y.uid = c.uid ∧ y.region = r ∧ y.plane = p ∧
            y.slot = imageSlot x ∧ y.imgid = c.sealid + 1 ∧ y.fpc = c.fpc ∧ y.ctxres = c.ctxres ∧
            leNat ((y.line 0).take 8) = y.imgid % 2 ^ 64 ∧ leNat (((y.line 0).drop 8).take 8) = y.baseid % 2 ^ 64 ∧
            (base = none → y.inc = false ∧ y.baseid = 0 ∧ ∀ l, l < 20864 → y.writes l = true) ∧
            (∀ z w, base = some z → s.savedOf c.uid z.imgid (imageSlot x) = some w → y.inc = true ∧ y.baseid = w.imgid ∧
              ∀ j, j < 322 →
                (s.sectorDirty r p c.uid (c.sealid + 1) j = true → y.seals[j]? = some y.imgid) ∧
                (s.sectorDirty r p c.uid (c.sealid + 1) j = false → y.seals[j]? = some ((w.seals[j]?).getD 0)) ∧
                (j < 4 → s.sectorDirty r p c.uid (c.sealid + 1) j = bitAt (s.plane k).dirty j))) ∧
        (∀ y, written = some y → i < 20863 →
          (∀ ph, y.writes i = true → lineAt ph →
            ∃ t e, exec (.save d a b inc) s = .next t ∧ Placed s t q e ∧ e.kind = .write ∧
              e.pieces.map Piece.key = keysFrom ph.key 64 ∧ e.pieces.map Piece.value = y.line i ∧
              (t.seq q).wait = .range v.ip (v.rangeAt 0 + 1) ∧ (t.seq q).ip = v.ip ∧ t.imaging = s.imaging) ∧
          (y.writes i = false →
            exec (.save d a b inc) s = .next (s.setSeq q (v.setWait (.range v.ip (v.rangeAt 0 + 1)))))) ∧
        (∀ y, written = some y → y.ctx = n → y.region = r → y.plane = p → i = 20863 →
          (y.writes i = false ∨ ∃ ph, lineAt ph) →
          ∃ t m, exec (.save d a b inc) s = .next t ∧ (t.plane k).ctx = none ∧ t.saved = s.saved ++ [y] ∧
            Tab.find? t.imaging k = none ∧ t.ctx? n = some m ∧ m.fpc = c.fpc ∧
            Tab.find? m.slots y.slot = some { imgid := y.imgid, addr } ∧
            (q ≠ r ∨ v.plane ≠ some p →
              (∀ j, (t.seq q).read j = if j = d ∧ d ≠ 0 then
                BitVec.ofNat 64 ((y.seals.filter fun z => z = y.imgid).length + if y.inc then 0 else 2 ^ 16) else v.read j) ∧
              (t.seq q).ip = v.ip + 4) ∧
            (q = r → v.plane = some p → (t.seq q).run = .free) ∧
            Ended s t (fun key => key = (Agent.block r p).key ∨ ∃ e, Tab.find? (s.region r).jobs e ≠ none ∧ key = jobAgent r e)))) ∧
    (imageWordOk q x = true → addr % 4096 = 0 →
      (∀ ph, v.wait = .none → s.reach q (reqLoad q) (BitVec.ofNat 64 addr) 64 .read = .to ph →
        ∃ t e, exec (.rest d a b) s = .next t ∧ Placed s t q e ∧ e.kind = .read ∧ RegsStay s t q ∧
          e.pieces.map Piece.key = keysFrom ph.key 64 ∧ (t.seq q).ip = v.ip) ∧
      (∀ n bs bad m, v.stage = .back n bs bad (some (20863, BitVec.ofNat 64 m)) → m < 2 ^ 64 →
        (∀ y, 0 < m → s.saved[m - 1]? = some y → y.line 20863 = bs →
          (s.restStatus q r p (imageSlot x) y ≠ 0 →
            SeqGoesOn (.rest d a b) s (s.setSeq q (v.setWait .none)) q d
              (BitVec.ofNat 64 (s.restStatus q r p (imageSlot x) y)) 4) ∧
          (s.restStatus q r p (imageSlot x) y = 0 → s.restBlocked r y = false →
            ∃ t, exec (.rest d a b) s = .next t ∧ (t.plane k).ctx = some y.ctx ∧
              (t.plane k).nodes = y.pl.nodes.map (fun (i, n) => (i, if n.phase = .blocked then { n with phase := .run } else n)) ∧
              (t.plane k).links = y.pl.links ∧ (t.plane k).frozen = y.pl.frozen ∧
              (∃ m, t.ctx? y.ctx = some m ∧ m.uid = y.uid ∧ m.fpc = y.fpc ∧ m.ctxres = y.ctxres) ∧
              (q ≠ r ∨ y.seq = none →
                (∀ j, (t.seq q).read j = if j = d ∧ d ≠ 0 then 0 else v.read j) ∧ (t.seq q).ip = v.ip + 4) ∧
              (∀ w, y.seq = some w →
                (t.seq r).user = w.user ∧ (t.seq r).ip = w.ip ∧ (t.seq r).plane = some p) ∧ t.mem = s.mem)) ∧
        ((m = 0 ∨ ∃ y, s.saved[m - 1]? = some y ∧ y.line 20863 ≠ bs) →
          SeqGoesOn (.rest d a b) s (s.setSeq q (v.setWait .none)) q d 1 4)))

/-- R414 to R416, R424, R426: what the Arbiter answers to a command that fails its checks; what QUERY returns; and that
ATTEST writes the report of Table 16-8 over its buffer. -/
def Obligations.CommandChecks : Prop :=
  ∀ (s : State) (p : Packet), s.packet = some p →
    (∀ i c, commandCode i = some c →
      (p.cmd ≠ c → exec i s = .next s) ∧
      (p.cmd = c → p.unusedZero = false → Ends i s s p 1 0) ∧
      (p.cmd = c → p.unusedZero = true → c ≠ 1 → c ≠ 9 → c ≠ 10 →
        (s.vdOf p.handle = none → Ends i s s p 2 0) ∧
        (∀ k v, s.vdOf p.handle = some (k, v) → bitAt v.cmdmask c = false → Ends i s s p 3 0) ∧
        (∀ k v, s.vdOf p.handle = some (k, v) → bitAt v.cmdmask c = true → v.state ∉ allowedIn c → Ends i s s p 5 0))) ∧
    ((p.cmd = 0 ∨ 10 < p.cmd) → Ends .badcmd s s p 1 0) ∧
    (p.cmd = 9 → p.unusedZero = true →
      (2 < p.arg0.toNat → Ends .query s s p 1 0) ∧
      (p.arg0 = 2 → p.handle ≠ 0 → Ends .query s s p 1 0) ∧
      (p.arg0 = 2 → p.handle = 0 →
        ∃ y : Word, Ends .query s s p 0 y ∧ (bits y 0 8).toNat = s.freePairs.length ∧
          (bits y 8 8).toNat = s.freeChannels.length ∧
          (bits y 16 9).toNat = ((List.range 256).filter fun k => (Tab.find? s.vds k).isNone).length ∧ bits y 25 39 = 0) ∧
      (p.arg0.toNat < 2 → s.vdOf p.handle = none → Ends .query s s p 2 0) ∧
      (∀ k v, p.arg0 = 0 → s.vdOf p.handle = some (k, v) → k < 256 → v.regions.length < 256 → v.channels.length < 256 →
        ∃ y : Word, Ends .query s s p 0 y ∧
          (bits y 0 2).toNat = (match v.state with | .running => 0 | .paused => 1 | .evicted => 2) ∧
          (bits y 8 8).toNat = k ∧ (bits y 16 8).toNat = v.regions.length ∧ (bits y 24 8).toNat = v.channels.length ∧
          bits y 32 32 = 0) ∧
      (∀ k v, p.arg0 = 1 → s.vdOf p.handle = some (k, v) →
        ∃ y : Word, Ends .query s s p 0 y ∧ (bits y 0 32).toNat = v.rejected % 2 ^ 32 ∧
          (bits y 32 32).toNat = v.admitted % 2 ^ 32)) ∧
    (p.cmd = 10 → p.unusedZero = true →
      (p.handle ≠ 0 → s.vdOf p.handle = none → Ends .attest s s p 2 0) ∧
      ((p.handle = 0 ∨ ∃ x, s.vdOf p.handle = some x) → (p.buflen < 9107 ∨ p.buf = 0 ∨ 2 ^ 64 < p.buf + 9107) →
        Ends .attest s s p 1 0) ∧
      (∀ x, (p.handle = 0 ∧ x = none ∨ p.handle ≠ 0 ∧ s.vdOf p.handle = x ∧ x ≠ none) → 9107 ≤ p.buflen → p.buf ≠ 0 →
        p.buf + 9107 ≤ 2 ^ 64 →
        ∃ (who body : List Byte),
          Ends .attest s
            { s with
              mem := s.mem.poke s.nextId (keyed (hostStart + p.buf) (body ++ Config.mldsaSign (Config.sha3 body)))
              nextId := s.nextId + 1 } p 0 9107 ∧
          body = leBytes 8 1 ++ s.hostBytes p.buf 64 ++ s.host.fwhash ++ who ++ Config.kempk ++ Config.idpk ++
            List.replicate 40 0 ∧
          (x = none → who = List.replicate 128 0 ++ (Config.sha3 Config.idpk).take 8 ++ List.replicate 8 0) ∧
          (∀ k v, x = some (k, v) → k < 256 → v.regions.length < 256 → v.channels.length < 256 → ∃ info : List Byte,
            who = Config.sha3 (v.policy.take 5504) ++ Config.sha3 ((v.policy.drop 1336).take 2592) ++
              (Config.sha3 Config.idpk).take 8 ++ info ∧
            info = [BitVec.ofNat 8 k, BitVec.ofNat 8 k,
              (match v.state with | .running => 0 | .paused => 1 | .evicted => 2), BitVec.ofNat 8 v.regions.length,
              BitVec.ofNat 8 v.channels.length, 0, 0, 0])))

/-- R418, R419, R411: CREATE_VD answers BADCMD, SIG, DENIED or NORES in the order of its checks; with the resources and room
for a context's branch area it creates VD k, RUNNING, with its regions and channels, its first context under key k with its
tables on those channels (R410), its queue enabled and its SRAM zero, and returns the handle; a further context is made up to
NCTX. R412: no two pairs of a VD number and a generation count have one handle, and none is 0. -/
def Obligations.VdCreation : Prop :=
  (∀ (s : State) (p : Packet), s.packet = some p → p.cmd = 1 → p.unusedZero = true →
    let bs := s.hostBytes p.buf 10131
    let k := p.arg0.toNat
    let nr := p.arg1.toNat
    let nc := p.arg2.toNat
    let at_ (o : Nat) : Nat := ((bs[o]?).getD 0).toNat
    let signed := Config.mldsaVerify ((bs.drop 1336).take 2592) (Config.sha3 (bs.take 5504)) (bs.drop 5504) = true
    let inRange := k ≤ 255 ∧ Tab.find? s.vds k = none ∧ at_ 24 ≤ nr ∧ nr ≤ at_ 25 ∧ nr % 2 = 0 ∧ 1 ≤ nc ∧ nc ≤ at_ 26
    let there := p.buflen = 10131 ∧ p.buf ≠ 0 ∧ p.buf + 10131 ≤ 2 ^ 64
    (¬there → Ends .createVd s s p 1 0) ∧
    (there → ¬signed → Ends .createVd s s p 4 0) ∧
    (there → signed → (policyOk bs = false ∨ ¬inRange) → Ends .createVd s s p 3 0) ∧
    (there → signed → policyOk bs = true → inRange →
      ((2 * s.freePairs.length < nr ∨ s.freeChannels.length < nc) → Ends .createVd s s p 6 0) ∧
      (nr ≤ 2 * s.freePairs.length → nc ≤ s.freeChannels.length → s.vdGen < 2 ^ 32 - 1 →
        s.liveBranches < 1048576 → (∃ n, n < 65536 ∧ s.ctx? n = none) →
        ∃ u v n c, Ends .createVd s u p 0 v.handle ∧ Tab.find? u.vds k = some v ∧ v.state = .running ∧ v.policy = bs ∧
          v.regions.length = nr ∧ v.channels.length = nc ∧ (∀ r ∈ v.regions, s.present r = true) ∧
          v.handle = handleOf k (s.vdGen + 1) ∧ u.vdGen = s.vdGen + 1 ∧ v.ctxs = [n] ∧ v.firstCtx = n ∧ s.ctx? n = none ∧ u.ctx? n = some c ∧
          c.key = k ∧ c.vf = k ∧ c.isLive 0 = true ∧ (∃ ch ∈ v.channels, channelOf c.ptRoot = some ch) ∧
          (u.queue k).enabled = true ∧ (u.queue k).plo = v.plo ∧
          (u.queue k).phi = v.phi ∧ (∀ i, i < 8 → vget v.cnt i 0 = 0) ∧ SramZero u v.regions))) ∧
  (∀ (s : State) (vd : Nat) (v : Vd), Tab.find? s.vds vd = some v →
    (v.state = .running → v.ctxs.length < v.nctx → s.rangesClash v (Ctx.created s.nextId vd v) = false →
      s.liveBranches < 1048576 → (∃ n, n < 65536 ∧ s.ctx? n = none) →
      ∃ t n c, exec (.contextCreation vd) s = .next t ∧ Tab.find? t.vds vd = some { v with ctxs := v.ctxs ++ [n] } ∧
        s.ctx? n = none ∧ t.ctx? n = some c ∧ c.key = vd ∧ c.vf = vd ∧ c.isLive 0 = true ∧ t.mem = s.mem) ∧
    (v.nctx ≤ v.ctxs.length → exec (.contextCreation vd) s = .next s)) ∧
  (∀ k g k' g' : Nat, k < 256 → k' < 256 → 1 ≤ g → 1 ≤ g' → g < 2 ^ 32 → g' < 2 ^ 32 →
    handleOf k g ≠ 0 ∧ (handleOf k g = handleOf k' g' → k = k' ∧ g = g'))

/-- R416, R420: PAUSE suspends the contexts, freezes their planes, and completes when every plane is quiet; RESUME thaws what
PAUSE froze; DESTROY_VD closes the mailboxes, ends the planes, and then takes away the contexts, the queue, the regions'
SRAM contents and the virtual device. R414: until it completes, no other command begins, whatever the host writes. -/
def Obligations.VdStops : Prop :=
  ∀ (s : State) (p : Packet) (k : Nat) (v : Vd),
    (Commands s p 3 k v →
      (s.suspended v = true → Ends .pause s { s with vds := Tab.put s.vds k { v with state := .paused } } p 0 0) ∧
      (s.suspended v = false → ∃ t, exec .pause s = .next t ∧ t.keeps p ∧ t.mem = s.mem ∧ t.vds = s.vds ∧
        (∀ n ∈ v.ctxs, ∀ c, s.ctx? n = some c → t.ctx? n = some { c with state := .suspended }) ∧
        (∀ e ∈ s.vdPlanes v, (t.plane (planeKey e.1 e.2)).frozen ≠ .none))) ∧
    (Commands s p 4 k v →
      ∃ u, Ends .resume s u p 0 0 ∧ u.mem = s.mem ∧ Tab.find? u.vds k = some { v with state := .running } ∧
        (∀ e ∈ s.vdPlanes v, (s.plane (planeKey e.1 e.2)).frozen = .pause → (u.plane (planeKey e.1 e.2)).frozen = .none) ∧
        (∀ n ∈ v.ctxs, ∀ c, u.ctx? n = some c → c.state ≠ .suspended)) ∧
    (Commands s p 2 k v →
      (s.vdPlanes v ≠ [] → ∃ t, exec .destroyVd s = .next t ∧ t.keeps p ∧ OrderStays s t ∧
        ∀ n ∈ v.ctxs, ∀ c, s.ctx? n = some c → ∃ x, t.ctx? n = some x ∧ x.state = .dying ∧ x.mailClosed = true ∧ x.uid = c.uid) ∧
      (s.vdPlanes v = [] →
        ∃ u, Ends .destroyVd s u p 0 0 ∧ (∀ n ∈ v.ctxs, u.ctx? n = none) ∧ (u.queue k).enabled = false ∧
          (u.queue k).descs = [] ∧ SramZero u v.regions ∧
          (∀ e ∈ u.tlbs, ∀ x ∈ e.2, x.ctx ∉ v.ctxs) ∧ (∀ e ∈ u.units, ∀ x ∈ e.2, x.ctx ∉ v.ctxs) ∧
          (∀ w ∈ u.walks, w.ctx ∉ v.ctxs) ∧ Tab.drop u.vds k = u.vds))

/-- R421, R422: EVICT pauses, saves the resident planes in full images, moves the pages and frees the regions, or answers
NORES where the channels cannot hold the pages; the frames that it needs are found first, and each image of a context has a slot
of its own while there is one (log 46); base SRAM that is given back holds no byte of the device's any more (R427, log 50);
RESTORE grants regions and loads the images, or answers what refuses it;
SET_SHARE records the counts of an evicted device, and changes the share of a paused one. R410: the frames that the Arbiter
takes for a device lie on its channels, and are no others' of its frames. -/
def Obligations.VdMoves : Prop :=
  ∀ (s : State) (p : Packet) (k : Nat) (v : Vd), Tab.find? s.vds k = some v →
    let nr := p.arg0.toNat
    let nc := p.arg1.toNat
    let inRange (n : Nat) : Prop := v.rmin ≤ n ∧ n ≤ v.rmax ∧ n % 2 = 0
    (Commands s p 5 k v →
      (v.state = .running → s.suspended v = true →
        ∃ t, exec .evict s = .next t ∧ t.keeps p ∧ t.mem = s.mem ∧ t.vds = Tab.put s.vds k { v with state := .paused }) ∧
      (v.state = .paused → v.leaving = [] →
        (s.roomFor k v v.regions (s.vdPlanes v).length = none → Ends .evict s s p 6 0) ∧
        ((s.roomFor k v v.regions (s.vdPlanes v).length).isSome = true →
          ∃ t w, exec .evict s = .next t ∧ t.keeps p ∧ t.mem = s.mem ∧ Tab.find? t.vds k = some w ∧ w.state = .paused ∧
            w.leaving = v.regions ∧ w.images = [] ∧ w.reserve.length = (s.vdPlanes v).length ∧ w.regions = v.regions)) ∧
      (∀ r q rest n c f more, v.state = .paused → v.leaving ≠ [] → s.vdPlanes v = (r, q) :: rest →
        s.bringToRest 1000 r q = (s, true) → (s.plane (planeKey r q)).ctx = some n → s.ctx? n = some c →
        v.reserve = f :: more →
        let others (y : SavedImage) : Prop := ∃ i ∈ v.images, s.saved[i.2.2.1]? = some y ∧ y.ctx = n
        ∃ t x w, exec .evict s = .next t ∧ t.keeps p ∧ t.saved = s.saved ++ [x] ∧ x.ctx = n ∧ x.inc = false ∧
          x.imgid = c.sealid + 1 ∧ (t.plane (planeKey r q)).ctx = none ∧ Tab.find? t.vds k = some w ∧
          w.images = v.images ++ [(r, q, s.saved.length, f * 65536)] ∧ w.reserve = more ∧
          ((∃ z, z < 32 ∧ ∀ y, others y → y.slot ≠ z) → ∀ y, others y → y.slot ≠ x.slot)) ∧
      (v.state = .paused → v.leaving ≠ [] → s.vdPlanes v = [] → (s.movePlanned k v v.regions).isSome = true →
        ∃ u w, Ends .evict s u p 0 (BitVec.ofNat 64 v.images.length) ∧ Tab.find? u.vds k = some w ∧ w.state = .evicted ∧
          w.regions = [] ∧ w.channels = v.channels ∧ w.images = v.images ∧ SramZero u v.regions ∧
          (∀ key r, sliceRegionOf key = some r → r ∈ v.regions →
            u.mem.coLast key = 0 ∨ ∃ n, u.mem.coLast key = Config.freeByte n) ∧
          (∀ n ∈ v.ctxs, ∀ c, u.ctx? n = some c → c.state = .suspended))) ∧
    (Commands s p 6 k v → v.share = (0, 0) →
      ((¬inRange nr ∨ v.chmax < v.channels.length + nc) → Ends .restore s s p 3 0) ∧
      (inRange nr → v.channels.length + nc ≤ v.chmax →
        (2 * s.freePairs.length < nr → Ends .restore s s p 6 0) ∧
        (nr ≤ 2 * s.freePairs.length →
          (∀ e, v.images.findSome? s.imageStatus = some e → Ends .restore s s p e 0) ∧
          (v.images = [] → s.freeChannels.length < nc → Ends .restore s s p 6 0) ∧
          (v.images = [] → v.moved = [] → nc ≤ s.freeChannels.length →
            ∃ u w, Ends .restore s u p 0 0 ∧ Tab.find? u.vds k = some w ∧ w.state = .paused ∧ w.regions.length = nr ∧
              w.channels.length = v.channels.length + nc ∧ (∀ r ∈ w.regions, s.present r = true) ∧ SramZero u w.regions ∧
              (∀ n ∈ v.ctxs, ∀ c, u.ctx? n = some c → c.state = .suspended))))) ∧
    (Commands s p 7 k v →
      ((¬inRange nr ∨ nc = 0 ∨ v.chmax < nc) → Ends .setShare s s p 3 0) ∧
      (inRange nr → 1 ≤ nc → nc ≤ v.chmax →
        (v.state = .evicted → Ends .setShare s { s with vds := Tab.put s.vds k { v with share := (nr, nc) } } p 0 0) ∧
        (v.state = .paused → v.leaving = [] → v.regions.length ≤ nr → v.channels.length ≤ nc →
          nr % 2 = v.regions.length % 2 → nr - v.regions.length ≤ 2 * s.freePairs.length →
          nc - v.channels.length ≤ s.freeChannels.length →
          ∃ u w more, Ends .setShare s u p 0 0 ∧ Tab.find? u.vds k = some w ∧ w.regions = v.regions ++ more ∧
            w.regions.length = nr ∧ w.channels.length = nc ∧ SramZero u more) ∧
        (v.state = .paused → v.leaving ≠ [] → (∀ e ∈ s.vdPlanes v, e.1 ∉ v.leaving) →
          (s.movePlanned k v v.leaving).isSome = true →
          ∃ u w, Ends .setShare s u p 0 0 ∧ Tab.find? u.vds k = some w ∧ w.leaving = [] ∧
            w.regions = v.regions.filter (fun r => !v.leaving.contains r) ∧ SramZero u v.leaving))) ∧
    (∀ n f t, 0 < n → n ≤ 2 ^ 15 → (∀ c ∈ v.channels, c < 32) → s.takeNew k n = some (f, t) →
      (∃ c ∈ v.channels, ∀ d, d < n → channelOf (65536 * (f + d)) = some c ∧ f + d ∉ v.frames) ∧
      t.mem = s.mem ∧ t.vds = Tab.put s.vds k { v with frames := v.frames ++ (List.range n).map (f + ·) })

/-- R423, Table 16-7: MAP_WINDOW marks the window mapped and answers 0, the physical address of a DEV window, or what refuses
it: an index beyond the policy, a second mapping, a base that is no multiple of 64 KiB, a range in use or past the window or
past 2^48 bytes of host memory, a sealed image
that does not open, or a digest that the policy does not list. Which status a misaligned base, a range in use and a range past the
end have is the model's choice: DENIED (log 49). Two refusals are the model's own (log 112): DENIED for a DEV
range that is not on the device's channels alone, which R410 requires, and NORES where a table or a CODE window finds no frame. -/
def Obligations.WindowsMapped : Prop :=
  ∀ (s : State) (p : Packet) (k : Nat) (v : Vd) (c : Ctx), Commands s p 8 k v → Tab.find? s.vds k = some v →
    s.ctx? v.firstCtx = some c →
    let i := p.arg0.toNat
    let base := p.arg1.toNat
    let maps (start : Nat) (result : Word) : Prop := ∃ u w y, Ends .mapWindow s u p 0 result ∧ Tab.find? u.vds k = some w ∧
      w.wins[i]? = some y ∧ y.mapped = true ∧ y.start = start ∧ w.state = v.state ∧ w.regions = v.regions ∧
      w.channels = v.channels
    (v.wins[i]? = none → Ends .mapWindow s s p 3 0) ∧
    (∀ x, v.wins[i]? = some x →
      let perm : BitVec 4 := (0 : BitVec 1) ++ bit1 x.w ++ bit1 x.r ++ (1 : BitVec 1)
      (x.mapped = true → Ends .mapWindow s s p 5 0) ∧
      (x.mapped = false → (x.kind ≠ 2 ∧ p.arg2 ≠ 0 ∨ bits p.arg2 32 31 ≠ 0) → Ends .mapWindow s s p 1 0) ∧
      (x.mapped = false → x.kind = 0 → p.arg2 = 0 →
        ((base % 65536 ≠ 0 ∨ 2 ^ 48 < base + x.size) → Ends .mapWindow s s p 3 0) ∧
        (base % 65536 = 0 → base + x.size ≤ 2 ^ 48 →
          (s.mapRange k v.firstCtx c x 4 base perm = none → Ends .mapWindow s s p 6 0) ∧
          ((s.mapRange k v.firstCtx c x 4 base perm).isSome = true → maps base 0))) ∧
      (x.mapped = false → x.kind = 1 → p.arg2 = 0 →
        let meets (key n : Nat) : Prop := key < hdmBase + base + x.size ∧ hdmBase + base < key + n
        let inUse := (∃ w ∈ s.devWindows, meets (hdmBase + w.2.1) w.2.2) ∨ (∃ f ∈ v.frames, meets (65536 * f) 65536) ∨
          (∃ n ∈ v.ctxs, ∃ y, s.ctx? n = some y ∧ ∃ m ∈ s.ctxMemory y, meets m.1 m.2)
        ((base % 65536 ≠ 0 ∨ inUse ∨ 2 ^ 36 < base + x.size) → Ends .mapWindow s s p 3 0) ∧
        (base % 65536 = 0 → ¬inUse → base + x.size ≤ 2 ^ 36 →
          (v.ownsRange base x.size = false → Ends .mapWindow s s p 3 0) ∧
          (v.ownsRange base x.size = true →
            (s.mapRange k v.firstCtx c x 3 (hdmBase + base) perm = none → Ends .mapWindow s s p 6 0) ∧
            ((s.mapRange k v.firstCtx c x 3 (hdmBase + base) perm).isSome = true →
              maps base (BitVec.ofNat 64 (hdmBase + base)))))) ∧
      (x.mapped = false → x.kind = 2 → bits p.arg2 32 31 = 0 →
        let sealed := s.hostBytes base (x.size + 28)
        let opened := Config.gcmOpen v.imageKey (sealed.take 12) [] ((sealed.drop 12).take x.size) (sealed.drop (12 + x.size))
        let listed (code : List Byte) : Prop :=
          ∃ j, j < v.nhash ∧ (v.policy.drop (312 + 64 * j)).take 64 = Config.sha3 code
        (v.nhash = 0 → Ends .mapWindow s s p 3 0) ∧
        (v.nhash ≠ 0 → opened = none → Ends .mapWindow s s p 7 0) ∧
        (∀ code, v.nhash ≠ 0 → opened = some code → ¬listed code → Ends .mapWindow s s p 3 0) ∧
        (∀ code, opened = some code → listed code → s.takeNew k (x.size / 65536) = none → Ends .mapWindow s s p 6 0) ∧
        (∀ code f t, opened = some code → listed code → bitAt p.arg2 63 = false →
          s.takeNew k (x.size / 65536) = some (f, t) →
          ((t.arbiterWrite (f * 65536) code).mapRange k v.firstCtx c x 3 (f * 65536) 0b1011).isSome = true → maps base 0)))

/-- R428, R429, R243, R409, R427: a notify write that is admitted counts, writes its mirror word and makes every wait of the
device's contexts look again, one that is not is counted as rejected, and one beyond the eight registers is discarded; a
host thread's write changes its bytes of host memory, or what the HDM window stores, and nothing else (R432); the HDM
window reads the stored ciphertext of DEV windows, zero elsewhere, and stores through it, so that what is stored reads back;
beyond 64 GiB there is no byte. -/
def Obligations.HostAccesses : Prop :=
  ∀ (s : State),
    (∀ (vf reg : Nat) (value : Word), 8 ≤ reg → exec (.notifyWrite vf reg value) s = .next s) ∧
    (∀ (vf reg : Nat) (value : Word) (v : Vd), s.powered = true → s.host.up = true → Tab.find? s.vds vf = some v → reg < 8 →
      let window := s.cycle / 2000
      let sofar := if v.window = window then v.inWindow else 0
      let ok := v.state ≠ .evicted ∧ reg < v.nnot ∧ bits value 32 32 = 0 ∧ (v.nrate ≠ 0 → sofar < v.nrate)
      ((¬ok ∨ s.notifyKey v.firstCtx (v.nva + 8 * reg) = none) →
        exec (.notifyWrite vf reg value) s = .next { s with vds := Tab.put s.vds vf { v with rejected := v.rejected + 1 } }) ∧
      (∀ key own, ok → s.notifyKey v.firstCtx (v.nva + 8 * reg) = some (key, own) →
        ∃ t w word, exec (.notifyWrite vf reg value) s = .next t ∧ Tab.find? t.vds vf = some w ∧
          w.admitted = v.admitted + 1 ∧ w.rejected = v.rejected ∧ vget w.cnt reg 0 = vget v.cnt reg 0 + 1 ∧
          w.inWindow = sofar + 1 ∧ w.window = window ∧ t.mem = own.mem.poke own.nextId (keyed key word) ∧
          word = leBytes 4 (bits value 0 32).toNat ++ leBytes 2 (vget v.cnt reg 0 + 1).toNat ++ [0, 0] ∧
          (∀ e ∈ s.seqs, ∀ n ip left seen, s.ctxOf e.1 = some n → n ∈ v.ctxs → (s.seq e.1).wait = .timed ip left seen true →
            s.seq e.1 = e.2 → (t.seq e.1).wait = .timed ip left seen false) ∧
          (∀ q, (t.seq q).user = (s.seq q).user ∧ (t.seq q).bank = (s.seq q).bank ∧ (t.seq q).ip = (s.seq q).ip)) ∧
      (∀ ph, s.notifyLeaf v.firstCtx (v.nva + 8 * reg) = some ph → Leaf.cow ph.leaf = false →
        s.notifyKey v.firstCtx (v.nva + 8 * reg) = some (ph.key, s))) ∧
    (∀ (thread address : Nat) (bytes : List Byte), s.powered = true →
      (hostStart ≤ address → address + bytes.length ≤ hostStart + 2 ^ 64 →
        ∃ t, exec (.hostThreadWrite thread address bytes) s = .next t ∧
          t.mem = s.mem.poke s.nextId (keyed address bytes) ∧ t.seqs = s.seqs) ∧
      (s.host.up = true → hdmBase ≤ address → address + bytes.length ≤ hdmBase + 2 ^ 36 →
        exec (.hostThreadWrite thread address bytes) s = exec (.hdmAccess thread (address - hdmBase) 0 (some bytes)) s) ∧
      (address < hostStart → (address < hdmBase ∨ hdmBase + 2 ^ 36 < address + bytes.length) →
        exec (.hostThreadWrite thread address bytes) s = .next s)) ∧
    (∀ (thread address count : Nat), s.powered = true → s.host.up = true → address + count ≤ 2 ^ 36 →
      ∃ got : List Byte, exec (.hdmAccess thread address count none) s = .next { s with host := { s.host with hdm := got } } ∧
        got.length = count ∧
        (∀ i, i < count → s.devOwner (address + i) = none → got[i]? = some 0) ∧
        (∀ i v, i < count → s.devOwner (address + i) = some v →
          let pa := hdmBase + address + i
          got[i]? = some (((v.encipher (pa / 64) (s.readBytes (.host 0) (64 * (pa / 64)) 64))[pa % 64]?).getD 0))) ∧
    (∀ (thread address : Nat) (bs : List Byte), s.powered = true → s.host.up = true → address + bs.length ≤ 2 ^ 36 →
      bs ≠ [] → (hdmBase + address) % 64 + bs.length ≤ 64 →
      (s.devOwner address = none → exec (.hdmAccess thread address 0 (some bs)) s = .next s) ∧
      (∀ v, s.devOwner address = some v →
        let pa := hdmBase + address
        let old := v.encipher (pa / 64) (s.readBytes (.host 0) (64 * (pa / 64)) 64)
        ∃ t new, exec (.hdmAccess thread address 0 (some bs)) s = .next t ∧
          new = old.take (pa % 64) ++ bs ++ old.drop (pa % 64 + bs.length) ∧
          t.mem = s.mem.poke s.nextId (keyed (64 * (pa / 64)) (v.decipher (pa / 64) new)) ∧
          v.encipher (pa / 64) (v.decipher (pa / 64) new) = new)) ∧
    (∀ (thread address count : Nat), 2 ^ 36 < address + count →
      exec (.hdmAccess thread address count none) s = .fault (.absent address))

/-- R413, R464, Tables 16-3, 23-4 and 23-5: what a write of each PF BAR0 register does, and when it is discarded; that a read
at an offset without a register returns 0; that a port that is down (BOOTST.ERR = 3) brings none but RST, and no byte of the image
window, is the model's reading of Table 23-4, step 2 (log 101); the image window; and what bring-up ends in: ERR 1 for a bad length, ERR 2 for a
bad signature, or READY with the capability registers, zero SRAM, every region's first energy window begun (R460) and the
root cores running. -/
def Obligations.HostRegisters : Prop :=
  ∀ (s : State) (x : Word), s.powered = true →
    let h := s.host
    let wr (n : Nat) : Host.Outcome State Fault Refusal := exec (.registerWrite n x) s
    let en := bitAt h.crcfg 4
    (en = true → wr 0x00 = .next s ∧ wr 0x20 = .next s) ∧
    (∀ n, h.linkDown = true → n ≠ 0x50 → wr n = .next s) ∧
    (h.linkDown = false → en = false →
      wr 0x00 = .next { s with host := { h with crbase := x &&& 0xFFFFFFFFFFFFF000 } } ∧
      wr 0x20 = .next { s with host := { h with cpbase := x &&& 0xFFFFFFFFFFFFF000 } }) ∧
    ((h.up = false ∨ 8 < (bits x 0 4).toNat) → wr 0x08 = .next s) ∧
    (h.linkDown = false → h.up = true → (bits x 0 4).toNat ≤ 8 →
      ∃ y, wr 0x08 = .next { s with host := { h with crcfg := y } } ∧ bitAt y 4 = bitAt x 4 ∧
        bits y 0 4 = (if en then bits h.crcfg 0 4 else bits x 0 4)) ∧
    (let room := 2 ^ ((bits h.crcfg 0 4).toNat + 4)
     let ahead := ((bits x 0 16).toNat + 2 ^ 16 - (bits h.crhead 0 16).toNat) % 2 ^ 16
     (room < ahead → wr 0x10 = .next s) ∧
       (h.linkDown = false → ahead ≤ room → wr 0x10 = .next { s with host := { h with crtail := (bits x 0 16).setWidth 64 } })) ∧
    (h.linkDown = false → wr 0x30 = .next { s with host := { h with cphead := (bits x 0 16).setWidth 64 } }) ∧
    wr 0x18 = .next s ∧ wr 0x28 = .next s ∧ wr 0x80 = .next s ∧ wr 0x88 = .next s ∧ wr 0x90 = .next s ∧ wr 0x98 = .next s ∧
    wr 0x60 = .next s ∧
    s.readBar0 0x00 = h.crbase ∧ s.readBar0 0x10 = h.crtail ∧ s.readBar0 0x18 = h.crhead ∧ s.readBar0 0x28 = h.cptail ∧
    (∀ o, o ∉ [0x00, 0x08, 0x10, 0x18, 0x20, 0x28, 0x30, 0x40, 0x50, 0x80, 0x88, 0x90, 0x98] → s.readBar0 o = 0) ∧
    ((h.up = true ∨ h.go = true) → wr 0x40 = .next s) ∧
    (h.linkDown = false → h.up = false → h.go = false →
      ∃ y, wr 0x40 = .next { s with host := { h with bootst := y } } ∧ bits y 32 32 = bits x 32 32 ∧
        bitAt y 0 = bitAt x 0 ∧ bitAt y 7 = false ∧ bits y 4 3 = bits h.bootst 4 3 ∧
        (bitAt x 0 = true → exec (.bootstGo x) s = .next { s with host := { h with bootst := y } })) ∧
    (∀ offset bytes, (h.up = true ∨ h.go = true ∨ h.linkDown = true) → exec (.pfBar2Write offset bytes) s = .next s) ∧
    (∀ offset bytes, h.linkDown = false → h.up = false → h.go = false → offset + bytes.length ≤ 67108864 →
      ∃ image, exec (.pfBar2Write offset bytes) s = .next { s with host := { h with image } } ∧
        ∀ j, Tab.getD image j 0 = if offset ≤ j ∧ j < offset + bytes.length then (bytes[j - offset]?).getD 0
          else Tab.getD h.image j 0) ∧
    (∀ channels ports, h.up = false → h.go = true →
      let len := (bits h.bootst 32 32).toNat
      let image := (List.range len).map fun j => Tab.getD h.image j 0
      let hash := Config.sha3 (image.take (len - 4627))
      let signed := Config.mldsaVerify Config.vendorKey hash (image.drop (len - 4627)) = true
      let fails (e : BitVec 3) : Prop := ∃ y,
        exec (.firmwareBringup channels ports) s = .next { s with host := { h with bootst := y } } ∧ bits y 4 3 = e ∧
          bitAt y 0 = false ∧ bitAt y 7 = false
      ((len < 4628 ∨ 67108864 < len) → fails 1) ∧
      (4628 ≤ len → len ≤ 67108864 → ¬signed → fails 2) ∧
      (4628 ≤ len → len ≤ 67108864 → signed →
        ∃ t, exec (.firmwareBringup channels ports) s = .next t ∧ t.host.up = true ∧ bitAt t.host.bootst 0 = false ∧
          t.host.rst = 0 ∧ t.host.fwhash = hash ∧ (bits t.host.capch 0 32).toNat = channels % 2 ^ 32 ∧
          (bits t.host.capak 0 48).toNat = ports % 2 ^ 48 ∧
          (∀ r, r < 128 → t.present r = (bitAt Config.regionsPresent (r / 2 * 2) && bitAt Config.regionsPresent (r / 2 * 2 + 1))) ∧
          SramZero t (List.range 128) ∧ (∀ r, r < 128 → (t.region r).window = s.cycle / 2000 ∧
            (t.present r = true → r / 32 ∉ s.hot → 8192 ≤ (t.region r).allow)) ∧
          (∀ b, b < 4 → (t.seq (128 + b)).run = .running ∧ (t.seq (128 + b)).priv = true ∧ (t.seq (128 + b)).ip.toNat % 4 = 0)))

/-- R464, R463, R460, R7: RST, POWER_ON, POWER_OFF and a thermal trip reset the module, but for host memory and the generation of
the handles, which the model keeps (logs 103 and 93), and CXL port 0 trains or fails to; an Aknan port joins or leaves the
domain; ENERGY_WINDOW gives a region its next allowance, nothing to an absent one and half on a throttled board (that half of the
minimum is below 8,192 nJ there, and that a grant stays within the 20 bits of ENERGY.ALLOW, are the model's choices, log 92), and
gives back the limiters that it had held. -/
def Obligations.PowerAndEnergy : Prop :=
  ∀ (s : State),
    (∀ value, s.powered = true →
      (bitAt value 0 = true → ∃ t, exec (.rst value) s = .next t ∧ FreshModule s t true) ∧
      (bitAt value 0 = false → exec (.rst value) s = .next s)) ∧
    (s.powered = false → ∃ t, exec .powerOn s = .next t ∧ FreshModule s t true) ∧
    (∃ t, exec .powerOff s = .next t ∧ FreshModule s t false) ∧
    (∀ board, ∃ t, exec (.thermalTrip board) s = .next t ∧ FreshModule s t false) ∧
    (∀ port, s.powered = true → s.host.up = true → port < 24 → ∀ up,
      ∃ l, exec (.aknanPortTrain port up) s = .next { s with aknan := l } ∧ (port ∈ l ↔ up = true) ∧
        ∀ x, x ≠ port → (x ∈ l ↔ x ∈ s.aknan)) ∧
    (∀ board, s.powered = true →
      exec (.thermalThrottle board) s = .next { s with hot := s.hot ++ [board] } ∧
      exec (.sensorReadsBelow95 board) s = .next { s with hot := s.hot.erase board }) ∧
    (∀ r, ∃ t, exec (.energyWindow r) s = .next t ∧ t = s.setRegion r (t.region r) ∧ (t.region r).used = 0 ∧
      (t.region r).held = false ∧ (t.region r).window = s.cycle / 2000 ∧ (t.region r).total = (s.region r).total ∧
      (t.region r).jobs = (s.region r).jobs ∧
      (s.present r = false → (t.region r).allow = 0) ∧
      (s.present r = true → r / 32 ∉ s.hot → 8192 ≤ (t.region r).allow) ∧
      (t.region r).allow ≤ max 8192 (4400000 - s.otherAllowances r) ∧ (t.region r).allow < 2 ^ 20 ∧
      (s.present r = true → r / 32 ∉ s.hot → (∀ p, p < 4 → (s.plane (planeKey r p)).ctx = none) →
        (t.region r).allow = 8192) ∧
      (s.present r = true → r / 32 ∈ s.hot → (∀ p, p < 4 → (s.plane (planeKey r p)).ctx = none) →
        (t.region r).allow = 4096) ∧
      (∀ u, u < 10 → vget (t.region r).limits u Limiter.empty =
        let l := vget (s.region r).limits u Limiter.empty
        if (s.region r).held then { a := l.set.1, w := l.set.2, admitted := 0, set := l.set } else l))
end

