-- ==== Sys2Proof/Laws/Memory.lean ====
section
/-!
SUPPORT. The memory's bytes: the canonical form is kept by every operation that writes them, a written byte reads back,
and every other byte stays.
-/

namespace Sys2Proof.Machine

theorem cellsOk_mono (c : List Host.Cell) {b k : Nat} (hb : b ≤ k) (h : cellsOk (some k) c = true) :
    cellsOk (some b) c = true := by
  cases c with
  | nil => rfl
  | cons e rest =>
    obtain ⟨j, v⟩ := e
    simp only [cellsOk, Bool.and_eq_true, decide_eq_true_eq] at h ⊢
    exact ⟨⟨by omega, h.1.2⟩, h.2⟩

theorem cellsOk_none (c : List Host.Cell) {b : Nat} (h : cellsOk (some b) c = true) : cellsOk none c = true := by
  cases c with
  | nil => rfl
  | cons e rest =>
    obtain ⟨j, v⟩ := e
    simp only [cellsOk, Bool.and_eq_true, decide_eq_true_eq] at h ⊢
    exact ⟨h.1.2, h.2⟩

theorem cellWrite_ok_some (c : List Host.Cell) (b a : Nat) (v : Byte) (hb : b < a) (h : cellsOk (some b) c = true) :
    cellsOk (some b) (cellWrite c a v) = true := by
  induction c generalizing b with
  | nil => by_cases hv : v = blankByte <;> simp [cellWrite, cellsOk, hv, hb]
  | cons e rest ih =>
    obtain ⟨k, w⟩ := e
    simp only [cellsOk, Bool.and_eq_true, decide_eq_true_eq] at h
    obtain ⟨⟨h1, h2⟩, h3⟩ := h
    by_cases hk : k = a
    · subst hk
      by_cases hv : v = blankByte
      · simpa [cellWrite, hv] using cellsOk_mono rest (Nat.le_of_lt h1) h3
      · simp [cellWrite, hv, cellsOk, h1, h3]
    · by_cases hlt : a < k
      · by_cases hv : v = blankByte
        · simpa [cellWrite, hk, hlt, hv, cellsOk, h1, h3] using h2
        · simp only [cellWrite, hk, hlt, hv, if_true, if_false, cellsOk, hb, h3, h2]; simp [hv]
      · have := ih k (by omega) h3
        simp only [cellWrite, hk, hlt, if_false, cellsOk, h1, h2, this]; simp

/-- Writing a byte keeps the canonical form. -/
theorem cellWrite_ok (c : List Host.Cell) (a : Nat) (v : Byte) (h : cellsOk none c = true) :
    cellsOk none (cellWrite c a v) = true := by
  cases c with
  | nil => by_cases hv : v = blankByte <;> simp [cellWrite, cellsOk, hv]
  | cons e rest =>
    obtain ⟨k, w⟩ := e
    simp only [cellsOk, Bool.and_eq_true] at h
    obtain ⟨h2, h3⟩ := h
    by_cases hk : k = a
    · subst hk
      by_cases hv : v = blankByte
      · simpa [cellWrite, hv] using cellsOk_none rest h3
      · simp [cellWrite, hv, cellsOk, h3]
    · by_cases hlt : a < k
      · by_cases hv : v = blankByte
        · simpa [cellWrite, hk, hlt, hv, cellsOk, h3] using h2
        · simp only [cellWrite, hk, hlt, hv, if_true, if_false, cellsOk, h3, h2]; simp [hv]
      · have := cellWrite_ok_some rest k a v (by omega) h3
        simp only [cellWrite, hk, hlt, if_false, cellsOk, h2, this]; simp

theorem cellsWrite_ok (l : List (Nat × Byte)) (c : List Host.Cell) (h : cellsOk none c = true) :
    cellsOk none (cellsWrite c l) = true := by
  induction l generalizing c with
  | nil => exact h
  | cons e rest ih => exact ih _ (cellWrite_ok c e.1 e.2 h)

theorem settle_wf (ws : List MWrite) (c : List Host.Cell) (t : Tab (BitVec 16)) (h : cellsOk none c = true) :
    (Memory.settle c t ws).wf = true := by
  induction ws generalizing c t with
  | nil => exact h
  | cons w rest ih =>
    unfold Memory.settle
    split
    · exact ih _ _ (cellsWrite_ok w.cells c h)
    · exact h

/-- A write appended to the coherence order keeps the canonical form. -/
theorem append_wf (m : Memory) (w : MWrite) (h : m.wf = true) : (m.append w).wf = true := settle_wf _ _ _ h

theorem resettle_wf (m : Memory) (h : m.wf = true) : m.resettle.wf = true := settle_wf _ _ _ h

theorem poke_wf (m : Memory) (id : Nat) (l : List (Nat × Byte)) (h : m.wf = true) : (m.poke id l).wf = true :=
  append_wf m _ h

theorem reset_memory_wf : State.reset.mem.wf = true := rfl

/-- Above the last listed key below it, a byte reads as an unlisted one. -/
theorem cellRead_above (c : List Host.Cell) (a : Nat) (h : cellsOk (some a) c = true) : cellRead c a = blankByte := by
  cases c with
  | nil => rfl
  | cons e rest =>
    obtain ⟨k, w⟩ := e
    simp only [cellsOk, Bool.and_eq_true, decide_eq_true_eq] at h
    have h1 : a < k := h.1.1
    simp [cellRead, h1, Nat.ne_of_gt h1]

/-- A written byte reads back. -/
theorem cellRead_write_self (c : List Host.Cell) (a : Nat) (v : Byte) (h : cellsOk none c = true) :
    cellRead (cellWrite c a v) a = v := by
  suffices ∀ b : Option Nat, cellsOk b c = true → cellRead (cellWrite c a v) a = v from this none h
  clear h
  induction c with
  | nil => intro b _; by_cases hv : v = blankByte <;> simp [cellWrite, cellRead, hv]
  | cons e rest ih =>
    obtain ⟨k, w⟩ := e
    intro b h
    have h3 : cellsOk (some k) rest = true := by
      cases b <;> simp only [cellsOk, Bool.and_eq_true] at h <;> exact h.2
    by_cases hk : k = a
    · subst hk
      by_cases hv : v = blankByte
      · simpa [cellWrite, hv] using cellRead_above rest k h3
      · simp [cellWrite, hv, cellRead]
    · by_cases hlt : a < k
      · by_cases hv : v = blankByte
        · simp [cellWrite, hk, hlt, hv, cellRead]
        · simp [cellWrite, hk, hlt, hv, cellRead]
      · simpa [cellWrite, hk, hlt, cellRead] using ih (some k) h3

/-- A write leaves every other byte alone. -/
theorem cellRead_write_ne (c : List Host.Cell) (a d : Nat) (v : Byte) (hd : d ≠ a) (h : cellsOk none c = true) :
    cellRead (cellWrite c a v) d = cellRead c d := by
  suffices ∀ b : Option Nat, cellsOk b c = true → cellRead (cellWrite c a v) d = cellRead c d from this none h
  clear h
  induction c with
  | nil =>
    intro b _
    by_cases hv : v = blankByte
    · simp [cellWrite, hv]
    · simp [cellWrite, cellRead, hv, Ne.symm hd]
  | cons e rest ih =>
    obtain ⟨k, w⟩ := e
    intro b h
    have h3 : cellsOk (some k) rest = true := by
      cases b <;> simp only [cellsOk, Bool.and_eq_true] at h <;> exact h.2
    by_cases hk : k = a
    · subst hk
      by_cases hv : v = blankByte
      · by_cases hlt : d < k
        · simpa [cellWrite, hv, cellRead, Ne.symm hd, hlt] using
            cellRead_above rest d (cellsOk_mono rest (Nat.le_of_lt hlt) h3)
        · simp [cellWrite, hv, cellRead, Ne.symm hd, hlt]
      · simp [cellWrite, hv, cellRead, Ne.symm hd]
    · by_cases hlt : a < k
      · by_cases hv : v = blankByte
        · simp [cellWrite, hk, hlt, hv]
        · by_cases hda : d < a
          · simp [cellWrite, hk, hlt, hv, cellRead, Ne.symm hd, hda, Nat.lt_trans hda hlt,
              Nat.ne_of_gt (Nat.lt_trans hda hlt)]
          · simp [cellWrite, hk, hlt, hv, cellRead, Ne.symm hd, hda]
      · by_cases hkd : k = d
        · subst hkd; simp [cellWrite, hk, hlt, cellRead]
        · have := ih (some k) h3
          simp [cellWrite, hk, hlt, cellRead, hkd, this]

end Sys2Proof.Machine
end

