-- ==== Sys2Proof/Laws/State.lean ====
section
/-!
SUPPORT. The fields of the state and the accessors after each update: one lemma for each, so that no later proof unfolds
a record update.
-/

namespace Sys2Proof.Machine

/-! ### Tables -/

@[simp] theorem Tab.find?_put_self {β : Type} (t : Tab β) (k : Nat) (v : β) : Tab.find? (Tab.put t k v) k = some v := by
  induction t with
  | nil => simp [Tab.put, Tab.find?]
  | cons e rest ih =>
    obtain ⟨j, w⟩ := e
    by_cases h : j = k
    · simp [Tab.put, Tab.find?, h]
    · by_cases h2 : k < j <;> simp [Tab.put, Tab.find?, h, h2, ih]

theorem Tab.find?_put_ne {β : Type} (t : Tab β) (k j : Nat) (v : β) (h : j ≠ k) :
    Tab.find? (Tab.put t k v) j = Tab.find? t j := by
  induction t with
  | nil => simp [Tab.put, Tab.find?, Ne.symm h]
  | cons e rest ih =>
    obtain ⟨i, w⟩ := e
    by_cases hi : i = k
    · subst hi; simp [Tab.put, Tab.find?, Ne.symm h]
    · by_cases h2 : k < i
      · simp [Tab.put, Tab.find?, hi, h2, Ne.symm h]
      · simp [Tab.put, Tab.find?, hi, h2, ih]

@[simp] theorem Tab.getD_put_self {β : Type} (t : Tab β) (k : Nat) (v d : β) : Tab.getD (Tab.put t k v) k d = v := by
  simp [Tab.getD]

theorem Tab.getD_put_ne {β : Type} (t : Tab β) (k j : Nat) (v d : β) (h : j ≠ k) :
    Tab.getD (Tab.put t k v) j d = Tab.getD t j d := by
  simp [Tab.getD, Tab.find?_put_ne t k j v h]

/-! ### Vectors -/

theorem vget_vput_self {β : Type} {n : Nat} (v : Vector β n) (i : Nat) (x d : β) (h : i < n) :
    vget (vput v i x) i d = x := by
  simp [vget, vput, h]

theorem vget_vput_ne {β : Type} {n : Nat} (v : Vector β n) (i j : Nat) (x d : β) (h : j ≠ i) :
    vget (vput v i x) j d = vget v j d := by
  simp [vget, vput, Ne.symm h]

/-! ### Fields after `setSeq` -/

@[simp] theorem State.setSeq_regions (s : State) (q : Nat) (v : Seq) : (s.setSeq q v).regions = s.regions := rfl
@[simp] theorem State.setSeq_planes (s : State) (q : Nat) (v : Seq) : (s.setSeq q v).planes = s.planes := rfl
@[simp] theorem State.setSeq_ctxs (s : State) (q : Nat) (v : Seq) : (s.setSeq q v).ctxs = s.ctxs := rfl
@[simp] theorem State.setSeq_mem (s : State) (q : Nat) (v : Seq) : (s.setSeq q v).mem = s.mem := rfl
@[simp] theorem State.setSeq_agents (s : State) (q : Nat) (v : Seq) : (s.setSeq q v).agents = s.agents := rfl
@[simp] theorem State.setSeq_tlbs (s : State) (q : Nat) (v : Seq) : (s.setSeq q v).tlbs = s.tlbs := rfl
@[simp] theorem State.setSeq_units (s : State) (q : Nat) (v : Seq) : (s.setSeq q v).units = s.units := rfl
@[simp] theorem State.setSeq_walks (s : State) (q : Nat) (v : Seq) : (s.setSeq q v).walks = s.walks := rfl
@[simp] theorem State.setSeq_watches (s : State) (q : Nat) (v : Seq) : (s.setSeq q v).watches = s.watches := rfl
@[simp] theorem State.setSeq_queues (s : State) (q : Nat) (v : Seq) : (s.setSeq q v).queues = s.queues := rfl
@[simp] theorem State.setSeq_disps (s : State) (q : Nat) (v : Seq) : (s.setSeq q v).disps = s.disps := rfl
@[simp] theorem State.setSeq_tasks (s : State) (q : Nat) (v : Seq) : (s.setSeq q v).tasks = s.tasks := rfl
@[simp] theorem State.setSeq_taskSerial (s : State) (q : Nat) (v : Seq) : (s.setSeq q v).taskSerial = s.taskSerial := rfl
@[simp] theorem State.setSeq_swapReqs (s : State) (q : Nat) (v : Seq) : (s.setSeq q v).swapReqs = s.swapReqs := rfl
@[simp] theorem State.setSeq_saved (s : State) (q : Nat) (v : Seq) : (s.setSeq q v).saved = s.saved := rfl
@[simp] theorem State.setSeq_imaging (s : State) (q : Nat) (v : Seq) : (s.setSeq q v).imaging = s.imaging := rfl
@[simp] theorem State.setSeq_vds (s : State) (q : Nat) (v : Seq) : (s.setSeq q v).vds = s.vds := rfl
@[simp] theorem State.setSeq_vdGen (s : State) (q : Nat) (v : Seq) : (s.setSeq q v).vdGen = s.vdGen := rfl
@[simp] theorem State.setSeq_rootPages (s : State) (q : Nat) (v : Seq) : (s.setSeq q v).rootPages = s.rootPages := rfl
@[simp] theorem State.setSeq_host (s : State) (q : Nat) (v : Seq) : (s.setSeq q v).host = s.host := rfl
@[simp] theorem State.setSeq_powered (s : State) (q : Nat) (v : Seq) : (s.setSeq q v).powered = s.powered := rfl
@[simp] theorem State.setSeq_hot (s : State) (q : Nat) (v : Seq) : (s.setSeq q v).hot = s.hot := rfl
@[simp] theorem State.setSeq_aknan (s : State) (q : Nat) (v : Seq) : (s.setSeq q v).aknan = s.aknan := rfl
@[simp] theorem State.setSeq_cycle (s : State) (q : Nat) (v : Seq) : (s.setSeq q v).cycle = s.cycle := rfl
@[simp] theorem State.setSeq_agenda (s : State) (q : Nat) (v : Seq) : (s.setSeq q v).agenda = s.agenda := rfl
@[simp] theorem State.setSeq_actor (s : State) (q : Nat) (v : Seq) : (s.setSeq q v).actor = s.actor := rfl
@[simp] theorem State.setSeq_turns (s : State) (q : Nat) (v : Seq) : (s.setSeq q v).turns = s.turns := rfl
@[simp] theorem State.setSeq_frees (s : State) (q : Nat) (v : Seq) : (s.setSeq q v).frees = s.frees := rfl
@[simp] theorem State.setSeq_nextId (s : State) (q : Nat) (v : Seq) : (s.setSeq q v).nextId = s.nextId := rfl

/-! ### Fields after `setRegion` -/

@[simp] theorem State.setRegion_seqs (s : State) (r : Nat) (v : Region) : (s.setRegion r v).seqs = s.seqs := rfl
@[simp] theorem State.setRegion_planes (s : State) (r : Nat) (v : Region) : (s.setRegion r v).planes = s.planes := rfl
@[simp] theorem State.setRegion_ctxs (s : State) (r : Nat) (v : Region) : (s.setRegion r v).ctxs = s.ctxs := rfl
@[simp] theorem State.setRegion_mem (s : State) (r : Nat) (v : Region) : (s.setRegion r v).mem = s.mem := rfl
@[simp] theorem State.setRegion_agents (s : State) (r : Nat) (v : Region) : (s.setRegion r v).agents = s.agents := rfl
@[simp] theorem State.setRegion_tlbs (s : State) (r : Nat) (v : Region) : (s.setRegion r v).tlbs = s.tlbs := rfl
@[simp] theorem State.setRegion_units (s : State) (r : Nat) (v : Region) : (s.setRegion r v).units = s.units := rfl
@[simp] theorem State.setRegion_walks (s : State) (r : Nat) (v : Region) : (s.setRegion r v).walks = s.walks := rfl
@[simp] theorem State.setRegion_watches (s : State) (r : Nat) (v : Region) : (s.setRegion r v).watches = s.watches := rfl
@[simp] theorem State.setRegion_queues (s : State) (r : Nat) (v : Region) : (s.setRegion r v).queues = s.queues := rfl
@[simp] theorem State.setRegion_disps (s : State) (r : Nat) (v : Region) : (s.setRegion r v).disps = s.disps := rfl
@[simp] theorem State.setRegion_tasks (s : State) (r : Nat) (v : Region) : (s.setRegion r v).tasks = s.tasks := rfl
@[simp] theorem State.setRegion_taskSerial (s : State) (r : Nat) (v : Region) :
    (s.setRegion r v).taskSerial = s.taskSerial := rfl
@[simp] theorem State.setRegion_swapReqs (s : State) (r : Nat) (v : Region) : (s.setRegion r v).swapReqs = s.swapReqs := rfl
@[simp] theorem State.setRegion_saved (s : State) (r : Nat) (v : Region) : (s.setRegion r v).saved = s.saved := rfl
@[simp] theorem State.setRegion_imaging (s : State) (r : Nat) (v : Region) : (s.setRegion r v).imaging = s.imaging := rfl
@[simp] theorem State.setRegion_vds (s : State) (r : Nat) (v : Region) : (s.setRegion r v).vds = s.vds := rfl
@[simp] theorem State.setRegion_vdGen (s : State) (r : Nat) (v : Region) : (s.setRegion r v).vdGen = s.vdGen := rfl
@[simp] theorem State.setRegion_rootPages (s : State) (r : Nat) (v : Region) :
    (s.setRegion r v).rootPages = s.rootPages := rfl
@[simp] theorem State.setRegion_host (s : State) (r : Nat) (v : Region) : (s.setRegion r v).host = s.host := rfl
@[simp] theorem State.setRegion_powered (s : State) (r : Nat) (v : Region) : (s.setRegion r v).powered = s.powered := rfl
@[simp] theorem State.setRegion_hot (s : State) (r : Nat) (v : Region) : (s.setRegion r v).hot = s.hot := rfl
@[simp] theorem State.setRegion_aknan (s : State) (r : Nat) (v : Region) : (s.setRegion r v).aknan = s.aknan := rfl
@[simp] theorem State.setRegion_cycle (s : State) (r : Nat) (v : Region) : (s.setRegion r v).cycle = s.cycle := rfl
@[simp] theorem State.setRegion_agenda (s : State) (r : Nat) (v : Region) : (s.setRegion r v).agenda = s.agenda := rfl
@[simp] theorem State.setRegion_actor (s : State) (r : Nat) (v : Region) : (s.setRegion r v).actor = s.actor := rfl
@[simp] theorem State.setRegion_turns (s : State) (r : Nat) (v : Region) : (s.setRegion r v).turns = s.turns := rfl
@[simp] theorem State.setRegion_frees (s : State) (r : Nat) (v : Region) : (s.setRegion r v).frees = s.frees := rfl
@[simp] theorem State.setRegion_nextId (s : State) (r : Nat) (v : Region) : (s.setRegion r v).nextId = s.nextId := rfl

/-! ### Fields after `setPlane` -/

@[simp] theorem State.setPlane_seqs (s : State) (k : Nat) (v : Plane) : (s.setPlane k v).seqs = s.seqs := rfl
@[simp] theorem State.setPlane_regions (s : State) (k : Nat) (v : Plane) : (s.setPlane k v).regions = s.regions := rfl
@[simp] theorem State.setPlane_ctxs (s : State) (k : Nat) (v : Plane) : (s.setPlane k v).ctxs = s.ctxs := rfl
@[simp] theorem State.setPlane_mem (s : State) (k : Nat) (v : Plane) : (s.setPlane k v).mem = s.mem := rfl
@[simp] theorem State.setPlane_agents (s : State) (k : Nat) (v : Plane) : (s.setPlane k v).agents = s.agents := rfl
@[simp] theorem State.setPlane_tlbs (s : State) (k : Nat) (v : Plane) : (s.setPlane k v).tlbs = s.tlbs := rfl
@[simp] theorem State.setPlane_units (s : State) (k : Nat) (v : Plane) : (s.setPlane k v).units = s.units := rfl
@[simp] theorem State.setPlane_walks (s : State) (k : Nat) (v : Plane) : (s.setPlane k v).walks = s.walks := rfl
@[simp] theorem State.setPlane_watches (s : State) (k : Nat) (v : Plane) : (s.setPlane k v).watches = s.watches := rfl
@[simp] theorem State.setPlane_queues (s : State) (k : Nat) (v : Plane) : (s.setPlane k v).queues = s.queues := rfl
@[simp] theorem State.setPlane_disps (s : State) (k : Nat) (v : Plane) : (s.setPlane k v).disps = s.disps := rfl
@[simp] theorem State.setPlane_tasks (s : State) (k : Nat) (v : Plane) : (s.setPlane k v).tasks = s.tasks := rfl
@[simp] theorem State.setPlane_taskSerial (s : State) (k : Nat) (v : Plane) :
    (s.setPlane k v).taskSerial = s.taskSerial := rfl
@[simp] theorem State.setPlane_swapReqs (s : State) (k : Nat) (v : Plane) : (s.setPlane k v).swapReqs = s.swapReqs := rfl
@[simp] theorem State.setPlane_saved (s : State) (k : Nat) (v : Plane) : (s.setPlane k v).saved = s.saved := rfl
@[simp] theorem State.setPlane_imaging (s : State) (k : Nat) (v : Plane) : (s.setPlane k v).imaging = s.imaging := rfl
@[simp] theorem State.setPlane_vds (s : State) (k : Nat) (v : Plane) : (s.setPlane k v).vds = s.vds := rfl
@[simp] theorem State.setPlane_vdGen (s : State) (k : Nat) (v : Plane) : (s.setPlane k v).vdGen = s.vdGen := rfl
@[simp] theorem State.setPlane_rootPages (s : State) (k : Nat) (v : Plane) : (s.setPlane k v).rootPages = s.rootPages := rfl
@[simp] theorem State.setPlane_host (s : State) (k : Nat) (v : Plane) : (s.setPlane k v).host = s.host := rfl
@[simp] theorem State.setPlane_powered (s : State) (k : Nat) (v : Plane) : (s.setPlane k v).powered = s.powered := rfl
@[simp] theorem State.setPlane_hot (s : State) (k : Nat) (v : Plane) : (s.setPlane k v).hot = s.hot := rfl
@[simp] theorem State.setPlane_aknan (s : State) (k : Nat) (v : Plane) : (s.setPlane k v).aknan = s.aknan := rfl
@[simp] theorem State.setPlane_cycle (s : State) (k : Nat) (v : Plane) : (s.setPlane k v).cycle = s.cycle := rfl
@[simp] theorem State.setPlane_agenda (s : State) (k : Nat) (v : Plane) : (s.setPlane k v).agenda = s.agenda := rfl
@[simp] theorem State.setPlane_actor (s : State) (k : Nat) (v : Plane) : (s.setPlane k v).actor = s.actor := rfl
@[simp] theorem State.setPlane_turns (s : State) (k : Nat) (v : Plane) : (s.setPlane k v).turns = s.turns := rfl
@[simp] theorem State.setPlane_frees (s : State) (k : Nat) (v : Plane) : (s.setPlane k v).frees = s.frees := rfl
@[simp] theorem State.setPlane_nextId (s : State) (k : Nat) (v : Plane) : (s.setPlane k v).nextId = s.nextId := rfl

/-! ### Fields after `setAgent` -/

@[simp] theorem State.setAgent_seqs (s : State) (a : Nat) (v : AgentSt) : (s.setAgent a v).seqs = s.seqs := rfl
@[simp] theorem State.setAgent_regions (s : State) (a : Nat) (v : AgentSt) : (s.setAgent a v).regions = s.regions := rfl
@[simp] theorem State.setAgent_planes (s : State) (a : Nat) (v : AgentSt) : (s.setAgent a v).planes = s.planes := rfl
@[simp] theorem State.setAgent_ctxs (s : State) (a : Nat) (v : AgentSt) : (s.setAgent a v).ctxs = s.ctxs := rfl
@[simp] theorem State.setAgent_mem (s : State) (a : Nat) (v : AgentSt) : (s.setAgent a v).mem = s.mem := rfl
@[simp] theorem State.setAgent_tlbs (s : State) (a : Nat) (v : AgentSt) : (s.setAgent a v).tlbs = s.tlbs := rfl
@[simp] theorem State.setAgent_units (s : State) (a : Nat) (v : AgentSt) : (s.setAgent a v).units = s.units := rfl
@[simp] theorem State.setAgent_walks (s : State) (a : Nat) (v : AgentSt) : (s.setAgent a v).walks = s.walks := rfl
@[simp] theorem State.setAgent_watches (s : State) (a : Nat) (v : AgentSt) : (s.setAgent a v).watches = s.watches := rfl
@[simp] theorem State.setAgent_queues (s : State) (a : Nat) (v : AgentSt) : (s.setAgent a v).queues = s.queues := rfl
@[simp] theorem State.setAgent_disps (s : State) (a : Nat) (v : AgentSt) : (s.setAgent a v).disps = s.disps := rfl
@[simp] theorem State.setAgent_tasks (s : State) (a : Nat) (v : AgentSt) : (s.setAgent a v).tasks = s.tasks := rfl
@[simp] theorem State.setAgent_taskSerial (s : State) (a : Nat) (v : AgentSt) :
    (s.setAgent a v).taskSerial = s.taskSerial := rfl
@[simp] theorem State.setAgent_swapReqs (s : State) (a : Nat) (v : AgentSt) : (s.setAgent a v).swapReqs = s.swapReqs := rfl
@[simp] theorem State.setAgent_saved (s : State) (a : Nat) (v : AgentSt) : (s.setAgent a v).saved = s.saved := rfl
@[simp] theorem State.setAgent_imaging (s : State) (a : Nat) (v : AgentSt) : (s.setAgent a v).imaging = s.imaging := rfl
@[simp] theorem State.setAgent_vds (s : State) (a : Nat) (v : AgentSt) : (s.setAgent a v).vds = s.vds := rfl
@[simp] theorem State.setAgent_vdGen (s : State) (a : Nat) (v : AgentSt) : (s.setAgent a v).vdGen = s.vdGen := rfl
@[simp] theorem State.setAgent_rootPages (s : State) (a : Nat) (v : AgentSt) :
    (s.setAgent a v).rootPages = s.rootPages := rfl
@[simp] theorem State.setAgent_host (s : State) (a : Nat) (v : AgentSt) : (s.setAgent a v).host = s.host := rfl
@[simp] theorem State.setAgent_powered (s : State) (a : Nat) (v : AgentSt) : (s.setAgent a v).powered = s.powered := rfl
@[simp] theorem State.setAgent_hot (s : State) (a : Nat) (v : AgentSt) : (s.setAgent a v).hot = s.hot := rfl
@[simp] theorem State.setAgent_aknan (s : State) (a : Nat) (v : AgentSt) : (s.setAgent a v).aknan = s.aknan := rfl
@[simp] theorem State.setAgent_cycle (s : State) (a : Nat) (v : AgentSt) : (s.setAgent a v).cycle = s.cycle := rfl
@[simp] theorem State.setAgent_agenda (s : State) (a : Nat) (v : AgentSt) : (s.setAgent a v).agenda = s.agenda := rfl
@[simp] theorem State.setAgent_actor (s : State) (a : Nat) (v : AgentSt) : (s.setAgent a v).actor = s.actor := rfl
@[simp] theorem State.setAgent_turns (s : State) (a : Nat) (v : AgentSt) : (s.setAgent a v).turns = s.turns := rfl
@[simp] theorem State.setAgent_frees (s : State) (a : Nat) (v : AgentSt) : (s.setAgent a v).frees = s.frees := rfl
@[simp] theorem State.setAgent_nextId (s : State) (a : Nat) (v : AgentSt) : (s.setAgent a v).nextId = s.nextId := rfl

/-! ### Fields after `setCtx` -/

@[simp] theorem State.setCtx_seqs (s : State) (c : Nat) (v : Ctx) : (s.setCtx c v).seqs = s.seqs := rfl
@[simp] theorem State.setCtx_regions (s : State) (c : Nat) (v : Ctx) : (s.setCtx c v).regions = s.regions := rfl
@[simp] theorem State.setCtx_planes (s : State) (c : Nat) (v : Ctx) : (s.setCtx c v).planes = s.planes := rfl
@[simp] theorem State.setCtx_mem (s : State) (c : Nat) (v : Ctx) : (s.setCtx c v).mem = s.mem := rfl
@[simp] theorem State.setCtx_agents (s : State) (c : Nat) (v : Ctx) : (s.setCtx c v).agents = s.agents := rfl
@[simp] theorem State.setCtx_tlbs (s : State) (c : Nat) (v : Ctx) : (s.setCtx c v).tlbs = s.tlbs := rfl
@[simp] theorem State.setCtx_units (s : State) (c : Nat) (v : Ctx) : (s.setCtx c v).units = s.units := rfl
@[simp] theorem State.setCtx_walks (s : State) (c : Nat) (v : Ctx) : (s.setCtx c v).walks = s.walks := rfl
@[simp] theorem State.setCtx_watches (s : State) (c : Nat) (v : Ctx) : (s.setCtx c v).watches = s.watches := rfl
@[simp] theorem State.setCtx_queues (s : State) (c : Nat) (v : Ctx) : (s.setCtx c v).queues = s.queues := rfl
@[simp] theorem State.setCtx_disps (s : State) (c : Nat) (v : Ctx) : (s.setCtx c v).disps = s.disps := rfl
@[simp] theorem State.setCtx_tasks (s : State) (c : Nat) (v : Ctx) : (s.setCtx c v).tasks = s.tasks := rfl
@[simp] theorem State.setCtx_taskSerial (s : State) (c : Nat) (v : Ctx) : (s.setCtx c v).taskSerial = s.taskSerial := rfl
@[simp] theorem State.setCtx_swapReqs (s : State) (c : Nat) (v : Ctx) : (s.setCtx c v).swapReqs = s.swapReqs := rfl
@[simp] theorem State.setCtx_saved (s : State) (c : Nat) (v : Ctx) : (s.setCtx c v).saved = s.saved := rfl
@[simp] theorem State.setCtx_imaging (s : State) (c : Nat) (v : Ctx) : (s.setCtx c v).imaging = s.imaging := rfl
@[simp] theorem State.setCtx_vds (s : State) (c : Nat) (v : Ctx) : (s.setCtx c v).vds = s.vds := rfl
@[simp] theorem State.setCtx_vdGen (s : State) (c : Nat) (v : Ctx) : (s.setCtx c v).vdGen = s.vdGen := rfl
@[simp] theorem State.setCtx_rootPages (s : State) (c : Nat) (v : Ctx) : (s.setCtx c v).rootPages = s.rootPages := rfl
@[simp] theorem State.setCtx_host (s : State) (c : Nat) (v : Ctx) : (s.setCtx c v).host = s.host := rfl
@[simp] theorem State.setCtx_powered (s : State) (c : Nat) (v : Ctx) : (s.setCtx c v).powered = s.powered := rfl
@[simp] theorem State.setCtx_hot (s : State) (c : Nat) (v : Ctx) : (s.setCtx c v).hot = s.hot := rfl
@[simp] theorem State.setCtx_aknan (s : State) (c : Nat) (v : Ctx) : (s.setCtx c v).aknan = s.aknan := rfl
@[simp] theorem State.setCtx_cycle (s : State) (c : Nat) (v : Ctx) : (s.setCtx c v).cycle = s.cycle := rfl
@[simp] theorem State.setCtx_agenda (s : State) (c : Nat) (v : Ctx) : (s.setCtx c v).agenda = s.agenda := rfl
@[simp] theorem State.setCtx_actor (s : State) (c : Nat) (v : Ctx) : (s.setCtx c v).actor = s.actor := rfl
@[simp] theorem State.setCtx_turns (s : State) (c : Nat) (v : Ctx) : (s.setCtx c v).turns = s.turns := rfl
@[simp] theorem State.setCtx_frees (s : State) (c : Nat) (v : Ctx) : (s.setCtx c v).frees = s.frees := rfl
@[simp] theorem State.setCtx_nextId (s : State) (c : Nat) (v : Ctx) : (s.setCtx c v).nextId = s.nextId := rfl

/-! ### Accessors after each setter -/

@[simp] theorem State.seq_setSeq_self (s : State) (q : Nat) (v : Seq) : (s.setSeq q v).seq q = v := by
  simp [State.seq, State.setSeq]
theorem State.seq_setSeq_ne (s : State) (q j : Nat) (v : Seq) (h : j ≠ q) : (s.setSeq q v).seq j = s.seq j := by
  simp [State.seq, State.setSeq, Tab.getD_put_ne _ _ _ _ _ h]
@[simp] theorem State.seq_setRegion (s : State) (r : Nat) (v : Region) (i : Nat) : (s.setRegion r v).seq i = s.seq i := rfl
@[simp] theorem State.seq_setPlane (s : State) (k : Nat) (v : Plane) (i : Nat) : (s.setPlane k v).seq i = s.seq i := rfl
@[simp] theorem State.seq_setAgent (s : State) (a : Nat) (v : AgentSt) (i : Nat) : (s.setAgent a v).seq i = s.seq i := rfl
@[simp] theorem State.seq_setCtx (s : State) (c : Nat) (v : Ctx) (i : Nat) : (s.setCtx c v).seq i = s.seq i := rfl

@[simp] theorem State.region_setRegion_self (s : State) (r : Nat) (v : Region) : (s.setRegion r v).region r = v := by
  simp [State.region, State.setRegion]
theorem State.region_setRegion_ne (s : State) (r j : Nat) (v : Region) (h : j ≠ r) : (s.setRegion r v).region j = s.region j := by
  simp [State.region, State.setRegion, Tab.getD_put_ne _ _ _ _ _ h]
@[simp] theorem State.region_setSeq (s : State) (q : Nat) (v : Seq) (i : Nat) : (s.setSeq q v).region i = s.region i := rfl
@[simp] theorem State.region_setPlane (s : State) (k : Nat) (v : Plane) (i : Nat) :
    (s.setPlane k v).region i = s.region i := rfl
@[simp] theorem State.region_setAgent (s : State) (a : Nat) (v : AgentSt) (i : Nat) :
    (s.setAgent a v).region i = s.region i := rfl
@[simp] theorem State.region_setCtx (s : State) (c : Nat) (v : Ctx) (i : Nat) : (s.setCtx c v).region i = s.region i := rfl

@[simp] theorem State.plane_setPlane_self (s : State) (k : Nat) (v : Plane) : (s.setPlane k v).plane k = v := by
  simp [State.plane, State.setPlane]
theorem State.plane_setPlane_ne (s : State) (k j : Nat) (v : Plane) (h : j ≠ k) : (s.setPlane k v).plane j = s.plane j := by
  simp [State.plane, State.setPlane, Tab.getD_put_ne _ _ _ _ _ h]
@[simp] theorem State.plane_setSeq (s : State) (q : Nat) (v : Seq) (i : Nat) : (s.setSeq q v).plane i = s.plane i := rfl
@[simp] theorem State.plane_setRegion (s : State) (r : Nat) (v : Region) (i : Nat) :
    (s.setRegion r v).plane i = s.plane i := rfl
@[simp] theorem State.plane_setAgent (s : State) (a : Nat) (v : AgentSt) (i : Nat) :
    (s.setAgent a v).plane i = s.plane i := rfl
@[simp] theorem State.plane_setCtx (s : State) (c : Nat) (v : Ctx) (i : Nat) : (s.setCtx c v).plane i = s.plane i := rfl

@[simp] theorem State.agent_setAgent_self (s : State) (a : Nat) (v : AgentSt) : (s.setAgent a v).agent a = v := by
  simp [State.agent, State.setAgent]
theorem State.agent_setAgent_ne (s : State) (a j : Nat) (v : AgentSt) (h : j ≠ a) : (s.setAgent a v).agent j = s.agent j := by
  simp [State.agent, State.setAgent, Tab.getD_put_ne _ _ _ _ _ h]
@[simp] theorem State.agent_setSeq (s : State) (q : Nat) (v : Seq) (i : Nat) : (s.setSeq q v).agent i = s.agent i := rfl
@[simp] theorem State.agent_setRegion (s : State) (r : Nat) (v : Region) (i : Nat) :
    (s.setRegion r v).agent i = s.agent i := rfl
@[simp] theorem State.agent_setPlane (s : State) (k : Nat) (v : Plane) (i : Nat) :
    (s.setPlane k v).agent i = s.agent i := rfl
@[simp] theorem State.agent_setCtx (s : State) (c : Nat) (v : Ctx) (i : Nat) : (s.setCtx c v).agent i = s.agent i := rfl

@[simp] theorem State.ctx_setCtx_self (s : State) (c : Nat) (v : Ctx) : (s.setCtx c v).ctx? c = some v := by
  simp [State.ctx?, State.setCtx]
theorem State.ctx_setCtx_ne (s : State) (c d : Nat) (v : Ctx) (h : d ≠ c) : (s.setCtx c v).ctx? d = s.ctx? d := by
  simp [State.ctx?, State.setCtx, Tab.find?_put_ne _ _ _ _ h]
@[simp] theorem State.ctx_setSeq (s : State) (q : Nat) (v : Seq) (i : Nat) : (s.setSeq q v).ctx? i = s.ctx? i := rfl
@[simp] theorem State.ctx_setRegion (s : State) (r : Nat) (v : Region) (i : Nat) :
    (s.setRegion r v).ctx? i = s.ctx? i := rfl
@[simp] theorem State.ctx_setPlane (s : State) (k : Nat) (v : Plane) (i : Nat) : (s.setPlane k v).ctx? i = s.ctx? i := rfl
@[simp] theorem State.ctx_setAgent (s : State) (a : Nat) (v : AgentSt) (i : Nat) : (s.setAgent a v).ctx? i = s.ctx? i := rfl

/-! ### One register -/

@[simp] theorem Seq.writeBank_zero (v : Seq) (p : Bool) (x : Word) : v.writeBank p 0 x = v := by simp [Seq.writeBank]

@[simp] theorem Seq.write_priv (v : Seq) (d : SReg) (x : Word) : (v.write d x).priv = v.priv := by
  unfold Seq.write Seq.writeBank; split_ifs <;> rfl

@[simp] theorem Seq.write_ip (v : Seq) (d : SReg) (x : Word) : (v.write d x).ip = v.ip := by
  unfold Seq.write Seq.writeBank; split_ifs <;> rfl

theorem Seq.read_zero (v : Seq) : v.read 0 = 0 := by simp [Seq.read]

theorem Seq.read_write_self (v : Seq) (d : SReg) (x : Word) (h : d ≠ 0) : (v.write d x).read d = x := by
  have hd : d.toNat < 32 := d.isLt
  have h' : ¬ (d = 0#5) := h
  unfold Seq.read Seq.write Seq.writeBank Seq.regs
  by_cases hp : v.priv = true <;> simp [h', hp, vget_vput_self _ _ _ _ hd]

theorem Seq.read_write_ne (v : Seq) (d r : SReg) (x : Word) (h : r ≠ d) : (v.write d x).read r = v.read r := by
  have hn : r.toNat ≠ d.toNat := fun e => h (BitVec.eq_of_toNat_eq e)
  unfold Seq.read
  split_ifs with h0
  · rfl
  · unfold Seq.write Seq.writeBank Seq.regs
    split_ifs <;> simp_all [vget_vput_ne]

/-! ### What the named operations leave -/

@[simp] theorem State.advance_mem (s : State) (q n : Nat) : (s.advance q n).mem = s.mem := rfl
@[simp] theorem State.finish_mem (s : State) (q : Nat) (d : SReg) (x : Word) (n : Nat) :
    (s.finish q d x n).mem = s.mem := rfl
@[simp] theorem State.finish_agents (s : State) (q : Nat) (d : SReg) (x : Word) (n : Nat) :
    (s.finish q d x n).agents = s.agents := rfl

end Sys2Proof.Machine
end

