-- ==== Sys2Proof/Laws/Ops.lean ====
section
/-!
SUPPORT. What the shared operations can do, once each: issuing a sequencer instruction, finishing one, taking a trap,
placing an event, firing a node and completing a command.
-/

namespace Sys2Proof.Machine

/-! ### Tables and setters, applied twice -/

@[simp] theorem Tab.put_put {β : Type} (t : Tab β) (k : Nat) (v w : β) : Tab.put (Tab.put t k v) k w = Tab.put t k w := by
  induction t with
  | nil => simp [Tab.put]
  | cons e rest ih =>
    obtain ⟨j, u⟩ := e
    by_cases h : j = k
    · simp [Tab.put, h]
    · by_cases h2 : k < j <;> simp [Tab.put, h, h2, ih]

theorem Tab.getD_eq {β : Type} (t : Tab β) (k : Nat) (d : β) : Tab.getD t k d = (Tab.find? t k).getD d := rfl

theorem Tab.find?_drop {β : Type} (t : Tab β) (k j : Nat) :
    Tab.find? (Tab.drop t k) j = if j = k then none else Tab.find? t j := by
  induction t with
  | nil => simp [Tab.drop, Tab.find?]
  | cons e rest ih =>
    obtain ⟨i, u⟩ := e
    unfold Tab.drop at ih ⊢
    by_cases hi : i = k
    · subst hi
      by_cases hj : j = i
      · simpa [hj] using ih
      · simp [Tab.find?, hj, Ne.symm hj, ih]
    · by_cases hij : i = j
      · subst hij
        simp [Tab.find?, hi]
      · by_cases hj : j = k
        · simp [Tab.find?, hi, hj] at ih ⊢
          rw [← hj] at ih ⊢
          simpa [hij] using ih
        · simp [Tab.find?, hi, hij, hj, ih]

@[simp] theorem State.setSeq_setSeq (s : State) (q : Nat) (v w : Seq) : (s.setSeq q v).setSeq q w = s.setSeq q w := by
  simp [State.setSeq]
@[simp] theorem State.setPlane_setPlane (s : State) (k : Nat) (v w : Plane) :
    (s.setPlane k v).setPlane k w = s.setPlane k w := by simp [State.setPlane]
@[simp] theorem State.setRegion_setRegion (s : State) (r : Nat) (v w : Region) :
    (s.setRegion r v).setRegion r w = s.setRegion r w := by simp [State.setRegion]
@[simp] theorem State.setAgent_setAgent (s : State) (a : Nat) (v w : AgentSt) :
    (s.setAgent a v).setAgent a w = s.setAgent a w := by simp [State.setAgent]
@[simp] theorem State.setCtx_setCtx (s : State) (c : Nat) (v w : Ctx) : (s.setCtx c v).setCtx c w = s.setCtx c w := by
  simp [State.setCtx]

/-! ### Bytes -/

/-- What an agent reads depends on memory and on the agents alone. -/
theorem BytesStay.of_eq {s t : State} (hm : t.mem = s.mem) (ha : t.agents = s.agents) : BytesStay s t := by
  intro ag key
  simp [State.readByte, State.agent, hm, ha]

theorem BytesStay.refl (s : State) : BytesStay s s := fun _ _ => rfl

theorem BytesStay.trans {s t u : State} (h : BytesStay s t) (g : BytesStay t u) : BytesStay s u :=
  fun ag key => (g ag key).trans (h ag key)

theorem BytesStay.setSeq (s : State) (q : Nat) (v : Seq) : BytesStay s (s.setSeq q v) := .of_eq rfl rfl

/-! ### Issuing a sequencer instruction -/

/-- All that `issueAs` can answer on a sequencer's turn: a trap of R65, R66 or R335, or what the instruction itself does
(R65, R335). -/
theorem issueAs_cases (s : State) (q : Nat) (m : Mark) (ok : Bool) (f : Nat → Res) (ha : s.actor = .sequencer q) :
    (m = .rootOnly ∧ isRoot q = false ∧ issueAs s m ok f = .next (s.raise q .illop 0)) ∨
    (m ≠ .user ∧ (s.seq q).priv = false ∧ issueAs s m ok f = .next (s.raise q .priv 0)) ∨
    ((s.seq q).inSlice = true ∧ ok = false ∧ issueAs s m ok f = .next (s.raise q .sliceop (s.seq q).ip)) ∨
    issueAs s m ok f = f q := by
  unfold issueAs
  have hme : s.me = some q := by simp [State.me, ha]
  rw [hme]
  cases m <;> cases hp : (s.seq q).priv <;> cases hs : (s.seq q).inSlice <;> cases ok <;> cases hr : isRoot q <;> simp_all

/-- An instruction that its mode and its place may execute does what it says. -/
theorem issueAs_runs (s : State) (q : Nat) (m : Mark) (ok : Bool) (f : Nat → Res) (ha : s.actor = .sequencer q)
    (hr : m = .rootOnly → isRoot q = true) (hp : m ≠ .user → (s.seq q).priv = true)
    (hs : (s.seq q).inSlice = true → ok = true) : issueAs s m ok f = f q := by
  have hme : s.me = some q := by simp [State.me, ha]
  unfold issueAs
  rw [hme]
  cases m <;> cases hq : (s.seq q).priv <;> cases hi : (s.seq q).inSlice <;> cases ok <;> cases hx : isRoot q <;> simp_all

/-! ### Finishing an instruction -/

@[simp] theorem Seq.write_user_priv (v : Seq) (d : SReg) (x : Word) (h : v.priv = true) : (v.write d x).user = v.user := by
  unfold Seq.write Seq.writeBank; split_ifs <;> simp_all
@[simp] theorem Seq.write_bank_user (v : Seq) (d : SReg) (x : Word) (h : v.priv = false) : (v.write d x).bank = v.bank := by
  unfold Seq.write Seq.writeBank; split_ifs <;> simp_all

theorem Seq.write_zero (v : Seq) (x : Word) : v.write 0 x = v := by
  unfold Seq.write Seq.writeBank
  rw [if_pos rfl]

/-- `finish` writes register d, moves the IP and changes nothing else. -/
theorem SeqGoesOn.of_finish {i : Instr} {s u : State} {q : Nat} {d : SReg} {x : Word} {n : Nat}
    (h : exec i s = .next (u.finish q d x n)) (hip : (u.seq q).ip = (s.seq q).ip) (hp : (u.seq q).priv = (s.seq q).priv)
    (hu : (u.seq q).user = (s.seq q).user) (hb : (u.seq q).bank = (s.seq q).bank) (hm : u.mem = s.mem)
    (ha : u.agents = s.agents) : SeqGoesOn i s u q d x n := by
  have hread : ∀ r, (u.seq q).read r = (s.seq q).read r := by
    intro r; simp [Seq.read, Seq.regs, hp, hu, hb]
  refine ⟨{ (u.seq q).write d x with ip := ((u.seq q).write d x).ip + BitVec.ofNat 64 n }, h, ?_, ?_, ?_, ?_, ?_⟩
  · intro r
    have hr : ({ (u.seq q).write d x with ip := ((u.seq q).write d x).ip + BitVec.ofNat 64 n } : Seq).read r =
        ((u.seq q).write d x).read r := rfl
    rw [hr]
    by_cases hd : d = 0
    · subst hd
      rw [Seq.write_zero, hread, if_neg fun e => e.2 rfl]
    · by_cases e : r = d
      · rw [e, Seq.read_write_self _ _ _ hd, if_pos ⟨rfl, hd⟩]
      · rw [Seq.read_write_ne _ _ _ _ e, hread, if_neg fun x => e x.1]
  · simp [hip]
  · unfold SameButRegs Seq.write Seq.writeBank
    split_ifs <;> rfl
  · unfold OtherBankStays
    by_cases e : (s.seq q).priv = true
    · rw [if_pos e]
      simp [Seq.write_user_priv _ _ _ (hp.trans e), hu]
    · have e' : (s.seq q).priv = false := by simpa using e
      rw [if_neg e]
      simp [Seq.write_bank_user _ _ _ (hp.trans e'), hb]
  · exact .of_eq hm ha

/-- `advance` only moves the IP. -/
theorem SeqGoesOn.of_advance {i : Instr} {s u : State} {q n : Nat} (h : exec i s = .next (u.advance q n))
    (hip : (u.seq q).ip = (s.seq q).ip) (hp : (u.seq q).priv = (s.seq q).priv) (hu : (u.seq q).user = (s.seq q).user)
    (hb : (u.seq q).bank = (s.seq q).bank) (hm : u.mem = s.mem) (ha : u.agents = s.agents) :
    SeqGoesOn i s u q 0 0 n := by
  refine .of_finish (x := 0) (h.trans ?_) hip hp hu hb hm ha
  unfold State.finish State.advance
  rw [Seq.write_zero]

/-! ### Traps -/

/-- The bits of ESTAT that a trap leaves: PMODE, INH, and the others as they were. -/
theorem estat_bits (e : Word) (b : Bool) (i : Nat) :
    bitAt ((bits e 2 62) ++ (1 : BitVec 1) ++ bit1 b : Word) i = if i = 0 then b else if i = 1 then true else bitAt e i := by
  unfold bitAt
  rw [BitVec.getLsbD_append, BitVec.getLsbD_append]
  match i with
  | 0 => cases b <;> rfl
  | 1 => rfl
  | j + 2 =>
    rw [if_neg (by omega), if_neg (by omega), if_neg (by omega), if_neg (by omega), BitVec.getLsbD_extractLsb']
    by_cases hj : j < 62
    · simp only [show j + 2 - 1 - 1 = j by omega, hj, decide_true, Bool.true_and, Nat.add_comm]
    · simp only [show ¬ j + 2 - 1 - 1 < 62 by omega, decide_false, Bool.false_and]
      exact (BitVec.getLsbD_of_ge e _ (by omega)).symm
/-- Outside a handler a trap is entered as R383 says. -/
theorem State.takeTrap_trapped (s : State) (q : Nat) (c : Cause) (addr resume : Word)
    (h : EStat.inh (s.seq q).estat = false) : Trapped s (s.takeTrap q c addr resume) q c addr resume := by
  have e : s.takeTrap q c addr resume = s.setSeq q { s.seq q with
      epc := epcOf resume
      waitH := .none
      estat := (bits (s.seq q).estat 2 62) ++ (1 : BitVec 1) ++ bit1 (s.seq q).priv
      priv := true
      fetching := none
      fltcause := (0 : BitVec 56) ++ c.code
      fltaddr := addr
      ip := (s.seq q).tvec } := if_neg (by simp [h])
  have hs : ((0 : BitVec 56) ++ c.code : Word).toNat = c.code.toNat := by
    rw [BitVec.toNat_append]; simp
  have hr : epcOf resume = BitVec.ofNat 64 (resume.toNat % 2 ^ 52) := by
    apply BitVec.eq_of_toNat_eq
    simp [epcOf, bits]
  rw [e]
  refine ⟨⟨by simp, .of_eq rfl rfl⟩, ?_⟩
  simp only [TrapRegs, RegsStay, State.seq_setSeq_self, EStat.pmode, EStat.inh]
  refine ⟨⟨trivial, trivial⟩, hr, hs, trivial, trivial, trivial, ?_, ?_, ?_⟩
  · exact estat_bits _ _ 0
  · exact estat_bits _ _ 1
  · intro i hi
    rw [estat_bits, if_neg (by omega), if_neg (by omega)]

/-- A precise trap resumes at the instruction. -/
theorem State.raise_trapped (s : State) (q : Nat) (c : Cause) (addr : Word) (h : EStat.inh (s.seq q).estat = false) :
    Trapped s (s.raise q c addr) q c addr (s.seq q).ip := s.takeTrap_trapped q c addr _ h

/-! ### Placing an event -/

/-- Outside a block, placing an event appends it to its agent's queue under the next identity. -/
theorem State.place_seq (s : State) (a : Nat) (e : Ev) (h : isBlockKey a = false) :
    s.place a e =
      { s.setAgent a { s.agent a with q := (s.agent a).q ++ [{ e with id := s.nextId }] } with nextId := s.nextId + 1 } := by
  simp [State.place, h]

theorem State.place_placed (s : State) (a : Nat) (e : Ev) (h : isBlockKey a = false) :
    Placed s (s.place a e) a { e with id := s.nextId } := by
  rw [State.place_seq s a e h]
  refine ⟨rfl, rfl, rfl, ?_, ?_, ?_⟩
  · exact State.agent_setAgent_self _ _ _
  · intro b hb; exact State.agent_setAgent_ne _ _ _ _ hb
  · intro ag key
    by_cases hk : ag.key = a
    · subst hk
      have : (s.setAgent ag.key { s.agent ag.key with q := (s.agent ag.key).q ++ [{ e with id := s.nextId }] }).agent ag.key
        = { s.agent ag.key with q := (s.agent ag.key).q ++ [{ e with id := s.nextId }] } := State.agent_setAgent_self _ _ _
      show List.foldl _ _ _ = _
      rw [show ({ s.setAgent ag.key { s.agent ag.key with q := (s.agent ag.key).q ++ [{ e with id := s.nextId }] } with
        nextId := s.nextId + 1 } : State).agent ag.key = _ from this]
      rfl
    · have : (s.setAgent a { s.agent a with q := (s.agent a).q ++ [{ e with id := s.nextId }] }).agent ag.key
        = s.agent ag.key := State.agent_setAgent_ne _ _ _ _ hk
      show List.foldl _ _ _ = _
      rw [show ({ s.setAgent a { s.agent a with q := (s.agent a).q ++ [{ e with id := s.nextId }] } with
        nextId := s.nextId + 1 } : State).agent ag.key = _ from this]
      rfl

/-! ### Firing a node -/

/-- A firing either finds no room, and nothing changes, or changes its plane and charges its region. -/
theorem fire_cases (s : State) (a : At) (f : Fields) (taken : List Slot) (outs : List (Nat × Token)) (n : Node)
    (fl : FFlags) :
    fire s a f taken outs n fl = .next s ∨
    ∃ pl : Plane, pl.nodes = Tab.put (outs.foldl (fun pl o => placeOut pl a.node a.slot f o.1 o.2)
        (takeSlots a.pl a.node a.slot taken)).nodes a.slot n ∧
      fire s a f taken outs n fl =
        .next (if isMemorySlot a.slot then s.setPlane a.plane pl else (s.setPlane a.plane pl).charge a.region 19) := by
  unfold fire
  by_cases h : (outs.all fun o => a.ready f o.1) = true
  · rw [if_pos h]; exact .inr ⟨_, rfl, rfl⟩
  · rw [if_neg h]; exact .inl rfl

/-- No byte of memory changes when a node fires. -/
theorem fire_bytes (s t : State) (a : At) (f : Fields) (taken : List Slot) (outs : List (Nat × Token)) (n : Node)
    (fl : FFlags) (h : fire s a f taken outs n fl = .next t) : BytesStay s t ∧ t.mem = s.mem ∧ t.seqs = s.seqs := by
  rcases fire_cases s a f taken outs n fl with e | ⟨pl, -, e⟩
  · rw [e] at h; cases h; exact ⟨.refl s, rfl, rfl⟩
  · rw [e] at h
    cases h
    split_ifs
    · exact ⟨.of_eq rfl rfl, rfl, rfl⟩
    · exact ⟨.of_eq rfl rfl, rfl, rfl⟩

/-! ### Commands -/

/-- A command completes into its ring and changes nothing else (R414). -/
theorem State.complete_next (s : State) (p : Packet) (status : Nat) (result : Word) :
    ∃ t, s.complete p status result = .next t ∧ t.vds = s.vds ∧ t.ctxs = s.ctxs ∧ t.planes = s.planes ∧ t.seqs = s.seqs ∧
      (s.mem.wf = true → t.mem.wf = true) :=
  ⟨_, rfl, rfl, rfl, rfl, rfl, fun h => poke_wf _ _ _ h⟩

end Sys2Proof.Machine
end

