-- ==== Sys2Proof/Tests/Slice0.lean ====
section
/-!
SUPPORT. Tests. Words written out from the encodings decode to their instructions; a small state meets the hypotheses of
each statement (test_witness_ and the statement's name); single steps on small states with values that the spec's tables
and examples give; and ill-formed terms and reserved words, which the checks refuse.
-/

namespace Sys2Proof.Tests

set_option Elab.async false

open Sys2Proof Sys2Proof.Machine

/-- Fields of a fabric instruction, in the order of Table 2-4. -/
def fld (fn : BitVec 6) (ty : ElemTy) (tga tgb : Target) (dpa dpb : BitVec 3) (pm : Pred) (imm : BitVec 16) : Fields :=
  { fn, ty, tga, tgb, dpa, dpb, pm, imm }

/-! ### Decoding -/

/-- Table 2-14, OP 0x01 to 0x19: SR words D, A, B with F = 0 or F = u, SI words with I, and the SL word of `lui`. -/
theorem test_decode_alu :
    decodeSeq 0x01184400 0 = some (.add 3 1 2) ∧ decodeSeq 0x02087FFF 0 = some (.addi 1 1 0x3FFF) ∧
    decodeSeq 0x03190A00 0 = some (.sub 3 4 5) ∧ decodeSeq 0x04FFBA00 0 = some (.and 31 30 29) ∧
    decodeSeq 0x0508A001 0 = some (.andi 1 2 0x2001) ∧ decodeSeq 0x06088600 0 = some (.or 1 2 3) ∧
    decodeSeq 0x07424001 0 = some (.ori 8 9 1) ∧ decodeSeq 0x08398A00 0 = some (.xor 7 6 5) ∧
    decodeSeq 0x09398005 0 = some (.xori 7 6 5) ∧ decodeSeq 0x0A088800 0 = some (.shl 1 2 4) ∧
    decodeSeq 0x0B08803F 0 = some (.shli 1 2 63) ∧ decodeSeq 0x0C088800 0 = some (.shr 1 2 4) ∧
    decodeSeq 0x0D088001 0 = some (.shri 1 2 1) ∧ decodeSeq 0x0E820800 0 = some (.sra 16 8 4) ∧
    decodeSeq 0x0F294003 0 = some (.srai 5 5 3) ∧ decodeSeq 0x10188200 0 = some (.mul 3 2 1) ∧
    decodeSeq 0x1131D001 0 = some (.mulh 6 7 8 true) ∧ decodeSeq 0x12188200 0 = some (.div 3 2 1 false) ∧
    decodeSeq 0x13188201 0 = some (.rem 3 2 1 true) ∧ decodeSeq 0x14188200 0 = some (.slt 3 2 1) ∧
    decodeSeq 0x1518BFFE 0 = some (.slti 3 2 0x3FFE) ∧ decodeSeq 0x16188200 0 = some (.sltu 3 2 1) ∧
    decodeSeq 0x174891A2 0 = some (.lui 9 0x091A2) ∧ decodeSeq 0x18188201 0 = some (.min 3 2 1 true) ∧
    decodeSeq 0x19188200 0 = some (.max 3 2 1 false) := by decide +kernel

/-- Table 2-14, OP 0x20 to 0x35: memory, ports, branches, blocks. -/
theorem test_decode_sequencer_control :
    decodeSeq 0x20217FF8 0 = some (.sld 4 5 0x3FF8) ∧ decodeSeq 0x210A8000 0 = some (.sst 1 10 0) ∧
    decodeSeq 0x2220C055 0 = some (.qpop 4 3 5 true false true) ∧
    decodeSeq 0x23190020 0 = some (.qpush 3 4 0 false true .data) ∧
    decodeSeq 0x2311809F 0 = some (.qpush 2 6 15 true false .eot) ∧ decodeSeq 0x2438C000 0 = some (.qstat 7 3 false) ∧
    decodeSeq 0x30480005 0x30000000 = some (.bcc .tdone 5 6 0) ∧
    decodeSeq 0x3027FFF7 0x19000000 = some (.bcc .ltu 0x7FFF7 3 4) ∧ decodeSeq 0x31F80040 0 = some (.jal 31 0x40) ∧
    decodeSeq 0x3207C000 0 = some (.jalr 0 31 0) ∧ decodeSeq 0x334A0000 0 = some (.blk 9 8) ∧
    decodeSeq 0x34004401 0 = some (.bar 1 2 true) ∧ decodeSeq 0x35180001 0 = some (.bst 3 true) := by decide +kernel

/-- Table 2-14, OP 0x40 to 0x48. -/
theorem test_decode_streams_ordering :
    decodeSeq 0x40788020 0 = some (.lpat 15 2 32) ∧ decodeSeq 0x41088000 0 = some (.spat 1 2 0) ∧
    decodeSeq 0x423A4001 0 = some (.sbind 7 9 true) ∧ decodeSeq 0x4328C005 0 = some (.sgo 5 3 true .brd) ∧
    decodeSeq 0x44284400 0x35000000 = some (.acpy 5 1 2 6 .sys) ∧ decodeSeq 0x45190040 0 = some (.cbld 3 4 64) ∧
    decodeSeq 0x4600000E 0 = some (.sfence .ar .mod) ∧ decodeSeq 0x47004410 0 = some (.wbk .dom 1 2) ∧
    decodeSeq 0x48004404 0 = some (.inv .rgn 1 2) := by decide +kernel

/-- Table 2-14, OP 0x50 to 0x55, Table 10-7. -/
theorem test_decode_arrays :
    decodeSeq 0x50388000 0 = some (.bstg 7 2) ∧
    decodeSeq 0x51284406 0xFDFFCC00 = some (.bwld .mod 5 1 2 .ba1 63 1023 3) ∧
    decodeSeq 0x5228860A 0x13F00000 = some (.bchn 2 5 2 3 .ba01 4 63) ∧
    decodeSeq 0x53000602 0 = some (.baccClr 3 .ba1) ∧ decodeSeq 0x53010601 0 = some (.baccRd 4 3 .ba0) ∧
    decodeSeq 0x54004409 0 = some (.brate 1 2 9) ∧ decodeSeq 0x5501000A 0 = some (.bdrnSv 4 .ba01 true) ∧
    decodeSeq 0x55010005 0 = some (.bdrnLd 4 .ba1) := by decide +kernel

/-- Table 2-14, OP 0x60 to 0x62 and 0x70 to 0x74, R304, R315. -/
theorem test_decode_steering_atomics :
    decodeSeq 0x60010003 0x80060404 = some (.steer 3 4 4096 true 0x81 0x01) ∧
    decodeSeq 0x6120001D 0 = some (.stcnt 4 1 7) ∧ decodeSeq 0x61010029 0 = some (.stcntWr 4 1 2) ∧
    decodeSeq 0x62004403 0 = some (.smenu 1 2 3) ∧
    decodeSeq 0x70088600 0x27F50000 = some (.satom 1 2 3 4 .cas true .ar .sys .unsigned) ∧
    decodeSeq 0x71088601 0 = some (.sarrv 1 2 3 true) ∧ decodeSeq 0x72008600 0 = some (.swaitp 2 3) ∧
    decodeSeq 0x73088600 0x22C80000 = some (.waita 1 2 3 4 .geu .dom true) ∧ decodeSeq 0x74008600 0 = some (.bnew 2 3) := by decide +kernel

/-- Table 2-14, OP 0x80 to 0x8B, Table 14-7. -/
theorem test_decode_tasks_trees :
    decodeSeq 0x80088000 0 = some (.tenq 1 2) ∧ decodeSeq 0x81008614 0 = some (.tsig .sys 2 3) ∧
    decodeSeq 0x82088600 0 = some (.fork 1 2 3) ∧ decodeSeq 0x83008000 0 = some (.resign 2) ∧
    decodeSeq 0x84088600 0 = some (.bwait 1 2 3) ∧ decodeSeq 0x85194002 0 = some (.brinfo 3 5 2) ∧
    decodeSeq 0x86080000 0 = some (.alloc 1) ∧ decodeSeq 0x86088001 0 = some (.allocKv 1 2) ∧
    decodeSeq 0x87088000 0 = some (.free 1 2) ∧ decodeSeq 0x88088600 0x27F80000 = some (.amsg 1 2 3 4 0xFF) ∧
    decodeSeq 0x89190A00 0 = some (.hbind 3 4 5) ∧ decodeSeq 0x8A00003C 0 = some (.trigOff 15) ∧
    decodeSeq 0x8A008605 0x80000000 = some (.trigAdr 2 3 1 0x80) ∧
    decodeSeq 0x8A000006 0x80E00000 = some (.trigPort 1 0x80 7) ∧ decodeSeq 0x8A280007 0 = some (.trigRd 5 1) ∧
    decodeSeq 0x8B000000 0 = some .yield := by decide +kernel

/-- Table 2-14, OP 0x90 to 0x9B, Table 15-7. -/
theorem test_decode_system :
    decodeSeq 0x90000005 0 = some (.trap 5) ∧ decodeSeq 0x91000000 0 = some .eret ∧
    decodeSeq 0x9220011F 0 = some (.sysr 4 0x11F) ∧ decodeSeq 0x9301000F 0 = some (.sysw 0x00F 4) ∧
    decodeSeq 0x94200000 0 = some (.frzQ 4) ∧ decodeSeq 0x94000001 0 = some .frzGo ∧
    decodeSeq 0x94010002 0 = some (.frzKill 4) ∧ decodeSeq 0x94000003 0 = some .frzOn ∧
    decodeSeq 0x95010000 0 = some (.ftok 4) ∧ decodeSeq 0x96190A00 0 = some (.save 3 4 5 false) ∧
    decodeSeq 0x97190A00 0 = some (.rest 3 4 5) ∧ decodeSeq 0x98010002 0xF00000 = some (.wpt 2 false 4 0x00F0) ∧
    decodeSeq 0x99010A0C 0 = some (.tlbi false .mod 4 5) ∧ decodeSeq 0x9A010A00 0 = some (.cfgw 4 5) ∧
    decodeSeq 0x9B000000 0 = some .halt := by decide +kernel

/-- Tables 2-4 to 2-9, OPC 0x01 to 0x0F. -/
theorem test_decode_fabric_control :
    decodeFabric 0x0101902000400003 = .ok (.inp (fld 0 .f32 (.operand 1 .a) (.absent) 2 0 .always 3)) ∧
    decodeFabric 0x0201A0E000600000 = .ok (.outp (fld 0 .f32 (.port 7) (.absent) 3 0 .always 0)) ∧
    decodeFabric 0x030010220925120F = .ok (.fan (fld 0 .i32 (.operand 1 .a) (.operand 2 .b) 1 1 .ifp 4623)) ∧
    decodeFabric 0x04005FF800E00064 = .ok (.gen (fld 0 .u32 (.operand 127 .c) (.absent) 7 0 .always 100)) ∧
    decodeFabric 0x050F50280020FFFF = .ok (.ext (fld 3 .b32 (.operand 1 .b) (.absent) 1 0 .always 65535)) ∧
    decodeFabric 0x060010A218480000 = .ok (.filt (fld 0 .i32 (.operand 5 .a) (.operand 6 .a) 2 2 .always 0)) ∧
    decodeFabric 0x0702102000420000 = .ok (.sel (fld 0 .f16 (.operand 1 .a) (.absent) 2 0 .ifn 0)) ∧
    decodeFabric 0x0808102000400000 = .ok (.mrg (fld 2 .i32 (.operand 1 .a) (.absent) 2 0 .always 0)) ∧
    decodeFabric 0x0901908224880007 = .ok (.loop (fld 0 .f32 (.operand 4 .a) (.operand 9 .a) 4 2 .always 7)) ∧
    decodeFabric 0x0A05102000410000 = .ok (.hold (fld 1 .i8 (.operand 1 .a) (.absent) 2 0 .ifp 0)) ∧
    decodeFabric 0x0B24102000400010 = .ok (.mark (fld 9 .i32 (.operand 1 .a) (.absent) 2 0 .always 16)) ∧
    decodeFabric 0x0C1D502208480000 = .ok (.mtst (fld 7 .u8 (.operand 1 .a) (.operand 2 .a) 2 2 .always 0)) ∧
    decodeFabric 0x0D04102000400000 = .ok (.cnt (fld 1 .i32 (.operand 1 .a) (.absent) 2 0 .always 0)) ∧
    decodeFabric 0x0E00000000000003 = .ok (.exit (fld 0 .i32 (.absent) (.absent) 0 0 .always 3)) ∧
    decodeFabric 0x0F00000000000000 = .ok (.sink (fld 0 .i32 (.absent) (.absent) 0 0 .always 0)) := by decide +kernel

/-- OPC 0x20 to 0x38. -/
theorem test_decode_fabric_integer :
    decodeFabric 0x208010A000400064 = .ok (.fabAdd (fld 0x20 .i32 (.operand 5 .a) .absent 2 0 .always 0x64)) ∧
    decodeFabric 0x21009026FC400000 = .ok (.fabSub (fld 0 .i16 (.operand 1 .a) (.acc 63) 2 0 .always 0)) ∧
    decodeFabric 0x2200D04800410000 = .ok (.adds (fld 0 .u16 (.operand 2 .b) (.absent) 2 0 .ifp 0)) ∧
    decodeFabric 0x2301107800420000 = .ok (.subs (fld 0 .i8 (.operand 3 .c) (.absent) 2 0 .ifn 0)) ∧
    decodeFabric 0x24015096F0400000 = .ok (.fabMul (fld 0 .u8 (.operand 4 .p) (.acc 60) 2 0 .always 0)) ∧
    decodeFabric 0x250050A000410000 = .ok (.fabMulh (fld 0 .u32 (.operand 5 .a) (.absent) 2 0 .ifp 0)) ∧
    decodeFabric 0x260090C800420000 = .ok (.mad (fld 0 .i16 (.operand 6 .b) (.absent) 2 0 .ifn 0)) ∧
    decodeFabric 0x2700D0FEE4400000 = .ok (.fabShl (fld 0 .u16 (.operand 7 .c) (.acc 57) 2 0 .always 0)) ∧
    decodeFabric 0x2801111000410000 = .ok (.fabShr (fld 0 .i8 (.operand 8 .p) (.absent) 2 0 .ifp 0)) ∧
    decodeFabric 0x2901512000420000 = .ok (.fabSra (fld 0 .u8 (.operand 9 .a) (.absent) 2 0 .ifn 0)) ∧
    decodeFabric 0x2A00514ED8400000 = .ok (.fabAnd (fld 0 .u32 (.operand 10 .b) (.acc 54) 2 0 .always 0)) ∧
    decodeFabric 0x2B00917800410000 = .ok (.fabOr (fld 0 .i16 (.operand 11 .c) (.absent) 2 0 .ifp 0)) ∧
    decodeFabric 0x2C00D19000420000 = .ok (.fabXor (fld 0 .u16 (.operand 12 .p) (.absent) 2 0 .ifn 0)) ∧
    decodeFabric 0x2D0111A6CC400000 = .ok (.andn (fld 0 .i8 (.operand 13 .a) (.acc 51) 2 0 .always 0)) ∧
    decodeFabric 0x2E0151C800410000 = .ok (.fabMin (fld 0 .u8 (.operand 14 .b) (.absent) 2 0 .ifp 0)) ∧
    decodeFabric 0x2F0051F800420000 = .ok (.fabMax (fld 0 .u32 (.operand 15 .c) (.absent) 2 0 .ifn 0)) ∧
    decodeFabric 0x309410300040FFFF = .ok (.cmp (fld 37 .i32 (.operand 1 .p) (.absent) 2 0 .always 65535)) ∧
    decodeFabric 0x3103700000000000 = .ok (.clz (fld 0 .b32 (.acc 0) (.absent) 0 0 .always 0)) ∧
    decodeFabric 0x320040020B0D0000 = .ok (.popc (fld 0 .u32 (.absent) (.operand 2 .c) 0 3 .ifp 0)) ∧
    decodeFabric 0x3303502000400000 = .ok (.brev (fld 0 .b32 (.operand 1 .a) (.absent) 2 0 .always 0)) ∧
    decodeFabric 0x3458502000408000 = .ok (.addr (fld 22 .u32 (.operand 1 .a) (.absent) 2 0 .always 32768)) ∧
    decodeFabric 0x351350200040000F = .ok (.shuf (fld 4 .b32 (.operand 1 .a) (.absent) 2 0 .always 15)) ∧
    decodeFabric 0x3605902000420000 = .ok (.bcst (fld 1 .f32 (.operand 1 .a) (.absent) 2 0 .ifn 0)) ∧
    decodeFabric 0x3700102000400000 = .ok (.scan (fld 0 .i32 (.operand 1 .a) (.absent) 2 0 .always 0)) ∧
    decodeFabric 0x3861B0A000000000 = .ok (.lred (fld 24 .f32 (.acc 5) (.absent) 0 0 .always 0)) := by decide +kernel

/-- OPC 0x50 to 0x5F. -/
theorem test_decode_fabric_float :
    decodeFabric 0x5011902000400000 = .ok (.fadd (fld 4 .f32 (.operand 1 .a) (.absent) 2 0 .always 0)) ∧
    decodeFabric 0x5195D04000413F80 = .ok (.fsub (fld 37 .bf16 (.operand 2 .a) (.absent) 2 0 .ifp 16256)) ∧
    decodeFabric 0x5202106000420000 = .ok (.fmul (fld 0 .f16 (.operand 3 .a) (.absent) 2 0 .ifn 0)) ∧
    decodeFabric 0x537D908000400000 = .ok (.fma (fld 31 .f32 (.operand 4 .a) (.absent) 2 0 .always 0)) ∧
    decodeFabric 0x540210A000410000 = .ok (.fmin (fld 0 .f16 (.operand 5 .a) (.absent) 2 0 .ifp 0)) ∧
    decodeFabric 0x558190C000424000 = .ok (.fmax (fld 32 .f32 (.operand 6 .a) (.absent) 2 0 .ifn 16384)) ∧
    decodeFabric 0x561DD0E000400000 = .ok (.fcmp (fld 7 .bf16 (.operand 7 .a) (.absent) 2 0 .always 0)) ∧
    decodeFabric 0x5712910000410000 = .ok (.fsgn (fld 4 .e5m2 (.operand 8 .a) (.absent) 2 0 .ifp 0)) ∧
    decodeFabric 0x5801912000420000 = .ok (.frcp (fld 0 .f32 (.operand 9 .a) (.absent) 2 0 .ifn 0)) ∧
    decodeFabric 0x5901914000400000 = .ok (.frsq (fld 0 .f32 (.operand 10 .a) (.absent) 2 0 .always 0)) ∧
    decodeFabric 0x5A21916000410000 = .ok (.fref (fld 8 .f32 (.operand 11 .a) (.absent) 2 0 .ifp 0)) ∧
    decodeFabric 0x5B01918000420000 = .ok (.fex2 (fld 0 .f32 (.operand 12 .a) (.absent) 2 0 .ifn 0)) ∧
    decodeFabric 0x5C0191A000400000 = .ok (.flg2 (fld 0 .f32 (.operand 13 .a) (.absent) 2 0 .always 0)) ∧
    decodeFabric 0x5D0191C000410000 = .ok (.ftnh (fld 0 .f32 (.operand 14 .a) (.absent) 2 0 .ifp 0)) ∧
    decodeFabric 0x5E0651E0004201FF = .ok (.fcls (fld 1 .e4m3 (.operand 15 .a) (.absent) 2 0 .ifn 511)) ∧
    decodeFabric 0x5F1A120000400000 = .ok (.frnd (fld 6 .f16 (.operand 16 .a) (.absent) 2 0 .always 0)) := by decide +kernel

/-- OPC 0x70 to 0x76. -/
theorem test_decode_fabric_convert :
    decodeFabric 0x7036502000400006 = .ok (.cvt (fld 13 .e4m3 (.operand 1 .a) (.absent) 2 0 .always 6)) ∧
    decodeFabric 0x7112902000410007 = .ok (.bqnt (fld 4 .e5m2 (.operand 1 .a) (.absent) 2 0 .ifp 7)) ∧
    decodeFabric 0x72019020004000FB = .ok (.bdq (fld 0 .f32 (.operand 1 .a) (.absent) 2 0 .always 251)) ∧
    decodeFabric 0x7301D0200040003B = .ok (.cbx (fld 0 .bf16 (.operand 1 .a) (.absent) 2 0 .always 59)) ∧
    decodeFabric 0x7402D02000400028 = .ok (.cbq (fld 0 .cb4 (.operand 1 .a) (.absent) 2 0 .always 40)) ∧
    decodeFabric 0x75F1902000400000 = .ok (.hads (fld 60 .f32 (.operand 1 .a) (.absent) 2 0 .always 0)) ∧
    decodeFabric 0x760190200040FFFF = .ok (.sclx (fld 0 .f32 (.operand 1 .a) (.absent) 2 0 .always 65535)) := by decide +kernel

/-- OPC 0x80 to 0x93. -/
theorem test_decode_fabric_memory :
    decodeFabric 0x80B19020004001E3 = .ok (.ld (fld 44 .f32 (.operand 1 .a) (.absent) 2 0 .always 483)) ∧
    decodeFabric 0x8103400000020001 = .ok (.st (fld 0 .b32 (.absent) (.absent) 0 0 .ifn 1)) ∧
    decodeFabric 0x820B502000407E01 = .ok (.lds (fld 2 .b32 (.operand 1 .a) (.absent) 2 0 .always 32257)) ∧
    decodeFabric 0x8306C00000001E10 = .ok (.sts (fld 1 .cb4 (.absent) (.absent) 0 0 .always 7696)) ∧
    decodeFabric 0x8402102208480000 = .ok (.ldt (fld 0 .f16 (.operand 1 .a) (.operand 2 .a) 2 2 .always 0)) ∧
    decodeFabric 0x850010200040000F = .ok (.prf (fld 0 .i32 (.operand 1 .a) (.absent) 2 0 .always 15)) ∧
    decodeFabric 0x90775020004001F0 = .ok (.fence (fld 29 .b32 (.operand 1 .a) (.absent) 2 0 .always 496)) ∧
    decodeFabric 0x913B502000400A07 = .ok (.atom (fld 14 .b32 (.operand 1 .a) (.absent) 2 0 .always 2567)) ∧
    decodeFabric 0x9201912225480000 = .ok (.rtree (fld 0 .f32 (.operand 9 .a) (.operand 9 .b) 2 2 .always 0)) ∧
    decodeFabric 0x9337502000400000 = .ok (.arrv (fld 13 .b32 (.operand 1 .a) (.absent) 2 0 .always 0)) := by decide +kernel

/-- OPC 0xA0 to 0xC0. -/
theorem test_decode_fabric_ports_steering :
    decodeFabric 0xA005E22000810000 = .ok (.bfin (fld 1 .bf16 (.port 17) (.absent) 4 0 .ifp 0)) ∧
    decodeFabric 0xA15E102000400001 = .ok (.bfout (fld 23 .f16 (.operand 1 .a) (.absent) 2 0 .always 1)) ∧
    decodeFabric 0xB00350200040001F = .ok (.sroute (fld 0 .b32 (.operand 1 .a) (.absent) 2 0 .always 31)) ∧
    decodeFabric 0xB107630000200004 = .ok (.sret (fld 1 .b32 (.port 24) (.absent) 1 0 .always 4)) ∧
    decodeFabric 0xB203400000000003 = .ok (.pipsEnt (fld 0 .b32 (.absent) (.absent) 0 0 .always 3)) ∧
    decodeFabric 0xB207502000400003 = .ok (.pipsOut (fld 1 .b32 (.operand 1 .a) (.absent) 2 0 .always 3)) ∧
    decodeFabric 0xB20B502000410000 = .ok (.pipsRd (fld 2 .b32 (.operand 1 .a) (.absent) 2 0 .ifp 0)) ∧
    decodeFabric 0xB20F5020004000FF = .ok (.pipsSet (fld 3 .b32 (.operand 1 .a) (.absent) 2 0 .always 255)) ∧
    decodeFabric 0xB213502000400001 = .ok (.pipsClr (fld 4 .b32 (.operand 1 .a) (.absent) 2 0 .always 1)) ∧
    decodeFabric 0xB303502000420000 = .ok (.clsc (fld 0 .b32 (.operand 1 .a) (.absent) 2 0 .ifn 0)) ∧
    decodeFabric 0xB400512228480000 = .ok (.isect (fld 0 .u32 (.operand 9 .a) (.operand 10 .a) 2 2 .always 0)) ∧
    decodeFabric 0xB500102000400000 = .ok (.unio (fld 0 .i32 (.operand 1 .a) (.absent) 2 0 .always 0)) ∧
    decodeFabric 0xB600502000400000 = .ok (.mrgk (fld 0 .u32 (.operand 1 .a) (.absent) 2 0 .always 0)) ∧
    decodeFabric 0xB7075020004001F1 = .ok (.sjoin (fld 1 .b32 (.operand 1 .a) (.absent) 2 0 .always 497)) ∧
    decodeFabric 0xB800102000410003 = .ok (.tmenu (fld 0 .i32 (.operand 1 .a) (.absent) 2 0 .ifp 3)) ∧
    decodeFabric 0xC007502000400000 = .ok (.live (fld 1 .b32 (.operand 1 .a) (.absent) 2 0 .always 0)) := by decide +kernel

/-! ### Small states -/

/-- A register bank with some registers set. -/
def regs (l : List (Nat × Word)) : Vector Word 32 := l.foldl (fun v e => vput v e.1 e.2) (Vector.replicate 32 0)

/-- A running sequencer at 0x1000 with the same values in both banks; a region's runs in plane 0. -/
def seqAt (q : Nat) (priv : Bool) (l : List (Nat × Word)) : Seq :=
  { Seq.reset q with
    run := .running, ip := 0x1000, priv, user := regs l, bank := regs l
    plane := if q < 128 then some 0 else none }

/-- A context with branch 0 alone. -/
def ctx0 : Ctx :=
  { Ctx.blank with nbr := 8, branches := [(0, { Branch.free with st := 1 })], mailClosed := false }

/-- Every cache of the requester holds page 1, mapped to itself, readable, writable and executable. -/
def cached (req : Nat) : Nat × List Cached :=
  (req, [{ ctx := 0, page := 1, leaf := Leaf.make 0 3 false false 1 false 1 0b1111, bad := none }])

/-- Sequencer q's turn. -/
def turnOf (q : Nat) (v : Seq) (c : Ctx) (pl : Plane) : State :=
  { State.reset with
    seqs := [(q, v)], planes := [(planeKey q 0, { pl with ctx := some 0 })], ctxs := [(0, c)]
    tlbs := [cached (reqLoad q)], actor := .sequencer q }

/-- Region 0's sequencer in user mode, and in privileged mode, with some registers. -/
def user0 (l : List (Nat × Word)) : State := turnOf 0 (seqAt 0 false l) ctx0 Plane.empty
def priv0 (l : List (Nat × Word)) : State := turnOf 0 (seqAt 0 true l) ctx0 Plane.empty

/-- The module root core. -/
def root (l : List (Nat × Word)) : State :=
  { State.reset with seqs := [(128, seqAt 128 true l)], actor := .sequencer 128 }

/-- The state after one step of an instruction. -/
def after (i : Instr) (s : State) : State := match exec i s with | .next t => t | _ => State.reset

/-! ### The statements' hypotheses hold somewhere -/

theorem test_witness_AluResults :
    let s := user0 [(1, 7), (2, 9)]
    aluResult (.sub 3 1 2) (s.seq 0).read = some (3, [1, 2], 0xFFFFFFFFFFFFFFFE) ∧ s.actor = .sequencer 0 ∧
      (s.seq 0).allReady [3, 1, 2] = true := by decide

theorem test_witness_TrapsAndReturns :
    let s := priv0 []
    EStat.inh (s.seq 0).estat = false ∧ EStat.inh ({ s.seq 0 with estat := 2 }).estat = true ∧ Issues s 0 [] ∧
      IssuesPriv s 0 [] := by and_intros <;> decide

theorem test_witness_LoadsAndStores :
    let s := user0 [(1, 0x10010)]
    let p : Phys := { key := 0x10018, leaf := Leaf.make 0 3 false false 1 false 1 0b1111 }
    (s.actor = .sequencer 0 ∧ (s.seq 0).allReady [2, 1] = true ∧ s.loadsHeld 0 < 8 ∧
      s.reach 0 (reqLoad 0) ((s.seq 0).read 1 + (8 : BitVec 14).signExtend 64) 8 .read = .to p) ∧
    (Issues s 0 [2, 1] ∧ s.storesHeld 0 < 16 ∧
      s.reach 0 (reqLoad 0) ((s.seq 0).read 1 + (8 : BitVec 14).signExtend 64) 8 .write = .to p ∧
      s.seqHit 0 ((s.seq 0).read 1 + (8 : BitVec 14).signExtend 64) 8 = none) ∧
    EStat.inh (s.seq 0).estat = false ∧
    (let u := user0 [(1, 0x10000000000000)]
     Issues u 0 [2, 1] ∧ EStat.inh (u.seq 0).estat = false ∧ u.loadsHeld 0 < 8 ∧ u.storesHeld 0 < 16 ∧
       2 ^ 52 ≤ ((u.seq 0).read 1 + (0 : BitVec 14).signExtend 64).toNat) ∧
    (let u : State := { user0 [(1, 0x20000)] with
       tlbs := [(0, [{ ctx := 0, page := 2, leaf := 0, bad := some .pteres }])] }
     Issues u 0 [2, 1] ∧ EStat.inh (u.seq 0).estat = false ∧ u.loadsHeld 0 < 8 ∧ u.storesHeld 0 < 16 ∧
       u.seqTranslate 0 (reqLoad 0) ((u.seq 0).read 1 + (0 : BitVec 14).signExtend 64).toNat .read = .fault .pteres ∧
       u.seqTranslate 0 (reqLoad 0) ((u.seq 0).read 1 + (0 : BitVec 14).signExtend 64).toNat .write = .fault .pteres) ∧
    (let u := user0 [(1, 0xFFFFFFFFFFFFC)]
     Issues u 0 [2, 1] ∧ ((u.seq 0).read 1 + (0 : BitVec 14).signExtend 64).toNat < 2 ^ 52 ∧
       ((u.seq 0).read 1 + (0 : BitVec 14).signExtend 64).toNat % 8 ≠ 0) := by and_intros <;> decide

theorem test_witness_BranchesAndJumps :
    let s := user0 [(1, 0x2000), (2, 0x2002), (3, 1)]
    (Issues s 0 [4, 1] ∧ ((s.seq 0).ip + 4 * (0x7FFFF : BitVec 19).signExtend 64).toNat % 4 = 0 ∧
      ((s.seq 0).read 1 + (0 : BitVec 14).signExtend 64).toNat % 4 = 0) ∧
    (Issues s 0 [4, 2] ∧ ((s.seq 0).read 2 + (0 : BitVec 14).signExtend 64).toNat % 4 ≠ 0 ∧
      EStat.inh (s.seq 0).estat = false) ∧
    (s.actor = .sequencer 0 ∧ (s.seq 0).allReady [1, 2] = true ∧ (s.seq 0).inSlice = false ∧
      (s.seq 0).outstanding 3 = false ∧ (s.seq 0).armed 3 = false ∧ branchTaken .tdone 0 0 ((s.seq 0).read 3) ∧
      ¬branchTaken .lt ((s.seq 0).read 2) ((s.seq 0).read 1) 0) := by
  refine ⟨by and_intros <;> decide, by and_intros <;> decide, by decide, by decide, by decide, by decide, by decide, ?_, ?_⟩
  · show ((user0 [(1, 0x2000), (2, 0x2002), (3, 1)]).seq 0).read 3 = 1
    decide
  · show ¬(_ < _)
    decide

/-- A slice at 0x3000 runs on the sequencer that waits at its `blk`. -/
def inSlice0 (priv : Bool) : State :=
  let v := seqAt 0 priv [(3, 1)]
  turnOf 0 { v with
    chain := some { ip := 0x1000, priv, inh := false, d := 9, result := none }
    slice := some { base := 0x3000, len := 4, block := 0x2000 }, ip := 0x3000 } ctx0 Plane.empty

theorem test_witness_WhoMayExecute :
    (let s := user0 []
     s.actor = .sequencer 0 ∧ EStat.inh (s.seq 0).estat = false ∧ markedP .halt = true ∧ (s.seq 0).priv = false) ∧
    (let s := inSlice0 false
     s.actor = .sequencer 0 ∧ (s.seq 0).inSlice = true ∧ EStat.inh (s.seq 0).estat = false ∧
       (∃ w, encodeSeq (.sst 1 2 0) = some w) ∧ sliceMay (.sst 1 2 0) = false ∧
       (aluResult (.sst 1 2 0) fun _ => 0) = none ∧ (markedP (.sst 1 2 0) = true → (s.seq 0).priv = true) ∧
       (∃ w, encodeSeq (.bcc .eq 0 0 0) = some w) ∧ (s.seq 0).allReady [0, 0] = true ∧ (s.seq 0).armed 0 = false ∧
       compareHolds .eq ((s.seq 0).read 0) ((s.seq 0).read 0) = true ∧
       sliceTargetOk (s.seq 0) ((s.seq 0).ip + 4 * (0 : BitVec 19).signExtend 64) = false) := by
  refine ⟨by decide, by decide, by decide, by decide, ⟨_, rfl⟩, by decide, by decide, by decide, ⟨_, rfl⟩, by decide, by decide,
    by decide, by decide⟩

/-- The state with a plane of region 0 changed. -/
def withPlane (s : State) (f : Plane → Plane) : State := s.setPlane 0 (f (s.plane 0))

/-- The state with a sequencer's record changed. -/
def withSeq (s : State) (q : Nat) (f : Seq → Seq) : State := s.setSeq q (f (s.seq q))

/-- A token with a record of value k + 1 in each lane below n. -/
def tok (n : Nat) : Token :=
  { Token.empty with
    payload := lanes fun k => if k < n then BitVec.ofNat 32 (k + 1) else 0
    valid := validBits fun k => decide (k < n) }

theorem test_witness_PortInstructions :
    let s := (user0 [(1, 5)]).setSide 0 3 false { Side.empty with toks := [tok 16], job := some 1 }
    (s.actor = .sequencer 0 ∧ s.planeOf 0 = some 0 ∧ (s.seq 0).ready 2 = true ∧
      s.portOk (s.side 0 3 false) 0 3 false false false = true ∧ (s.side 0 3 false).toks = tok 16 :: []) ∧
    (let u := (user0 [(1, 5)]).setSide 0 3 true { Side.empty with toks := List.replicate 15 (tok 1) }
     u.planeOf 0 = some 0 ∧ (u.seq 0).ready 1 = true ∧ u.portOk (u.side 0 3 true) 0 3 false true true = true ∧
       (u.side 0 3 true).toks.length < 16 ∧ (u.side 0 3 true).toks.length ≤ 16 ∧ (u.side 0 3 false).toks.length ≤ 16) ∧
    (let u := (user0 []).setSide 0 7 true { Side.empty with toks := List.replicate 16 (tok 1) }
     EStat.inh (u.seq 0).estat = false ∧ (u.seq 0).ready 31 = true ∧
       u.portOk (u.side 0 7 false) 0 7 false false false = false ∧
       u.portOk (u.side 0 7 true) 0 7 false true true = false) := by and_intros <;> decide

theorem test_witness_BarBstAndSlices :
    (let s := withSeq (user0 [(1, 1), (2, 1), (3, 2)]) 0 fun v =>
       { v with jobs := [{ serial := 1, result := some 1 }], fetched := [(0x1004, 0x30000002)] }
     Issues s 0 [1, 2] ∧ (∀ j ∈ (s.seq 0).jobs, j.result ≠ none) ∧ (∀ j ∈ (s.seq 0).jobs, j.result = some 1) ∧
       (s.seq 0).read 1 = 1 ∧ (s.seq 0).read 3 ≠ 1 ∧ s.fetchWord 0 ((s.seq 0).ip + 4) = .word 0x30000002) ∧
    (let s := withSeq (user0 []) 0 fun v =>
       { v with
         chain := some { ip := 0x1000, priv := false, inh := false, d := 9, result := none }
         slices := [{ base := 0x3000, len := 4, block := 0x2000 }], reports := [0x8000000000000006] }
     (s.seq 0).slices = { base := 0x3000, len := 4, block := 0x2000 } :: [] ∧ (s.seq 0).run = .running ∧
       (s.seq 0).slice = none ∧ (s.seq 0).atChain = true ∧ (s.seq 0).chain.map BlkWait.ip = some (s.seq 0).ip ∧
       (s.seq 0).reports[0]? = some 0x8000000000000006) := by and_intros <;> decide

theorem test_witness_SystemRegisters :
    let s := priv0 [(1, 0x2000), (2, 0x2002)]
    IssuesPriv s 0 [4, 1] ∧ (bitAt (s.seq 0).outU 31 = false ∧ bitAt (s.seq 0).armedU 31 = false) ∧
      ((s.seq 0).read 1).toNat % 4 = 0 ∧ ((s.seq 0).read 2).toNat % 4 ≠ 0 ∧ EStat.inh (s.seq 0).estat = false ∧
      s.ctxOf 0 = some 0 ∧ s.ctx? 0 = some ctx0 ∧ s.planeOf 0 = some 0 ∧
      (let u := root [(1, 0x800000000004000A), (2, 0xB)]
       IssuesPriv u 128 [1] ∧ IssuesPriv u 128 [2] ∧ (bits ((u.seq 128).read 1) 0 4).toNat ≤ 10 ∧
         (u.seq 128).fqtail = (u.seq 128).fqhead ∧ 10 < (bits ((u.seq 128).read 2) 0 4).toNat ∧
         bitAt ((u.seq 128).read 1) 63 = true ∧ EStat.inh (u.seq 128).estat = false) ∧
      IssuesPriv (root []) 128 [4] ∧ sysRegOf 0x3FFF = none ∧ sysRegOf 0x120 = none ∧
      (user0 []).actor = .sequencer 0 ∧ ((user0 []).seq 0).priv = false ∧
      EStat.inh ((user0 []).seq 0).estat = false := by and_intros <;> decide

theorem test_witness_HaltAndFreeze :
    let s := priv0 [(1, 3)]
    let u := s.setPlane 0 { s.plane 0 with frozen := .fault }
    (IssuesPriv s 0 [] ∧ s.planeOf 0 = some 0 ∧ (s.plane 0).frozen = .none ∧ (s.seq 0).ready 2 = true) ∧
    (IssuesPriv u 0 [1] ∧ u.planeOf 0 = some 0 ∧ (u.plane 0).frozen = .fault ∧ (u.plane 0).frozen ≠ .none ∧
      u.planeQuiet 0 = true ∧ u.portJobs 0 = [] ∧ u.chainArrays 0 = []) := by and_intros <;> decide

theorem test_witness_FaultTokensAndEvents :
    let s := priv0 []
    (IssuesPriv s 0 [] ∧ (s.seq 0).stage = .fresh ∧ (s.seq (ftokTarget 0)).ringRoom = true) ∧
    (let u := withSeq (root []) 128 fun v => { v with ftoks := [List.replicate 8 1] }
     (u.seq (128 + 0)).ftoks = List.replicate 8 1 :: [] ∧ (u.seq (128 + 0)).ringUsed < (u.seq (128 + 0)).ringSize) ∧
    (let u := withSeq s 0 fun v => { v with pendFault := some (.addrrng, 0) }
     (u.seq 0).run = .running ∧ EStat.inh (u.seq 0).estat = false ∧ u.betweenInstrs 0 = true ∧ (u.seq 0).slice = none ∧
       u.seqHeld 0 = false ∧ (u.seq 0).pendFault = some (.addrrng, 0)) ∧
    (let u := withSeq s 0 fun v => { v with sctl := 1, eflt := 0x8000000000000000 }
     (u.seq 0).run = .running ∧ EStat.inh (u.seq 0).estat = false ∧ u.betweenInstrs 0 = true ∧
       (u.seq 0).pendFault = none ∧ bitAt (u.seq 0).sctl 0 = true ∧ bitAt (u.seq 0).eflt 63 = true) ∧
    (let u := withSeq (root []) 128 fun v => { v with sctl := 2, fqtail := 1 }
     (u.seq 128).run = .running ∧ u.betweenInstrs 128 = true ∧ (u.seq 128).pendFault = none ∧
       bitAt (u.seq 128).sctl 0 = false ∧ bitAt (u.seq 128).sctl 1 = true ∧
       (u.seq 128).fqhead ≠ (u.seq 128).fqtail) := by and_intros <;> decide

theorem test_witness_WatchpointsAndTlbi :
    let s := priv0 [(1, 0x10010), (2, 0x10008), (3, 0x10000)]
    (IssuesPriv s 0 [1] ∧ s.planeOf 0 = some 0 ∧ ((s.seq 0).read 1).toNat % 16 = 0 ∧
      s.reach 0 (reqLoad 0) ((s.seq 0).read 1) 16 .read =
        .to { key := 0x10010, leaf := Leaf.make 0 3 false false 1 false 1 0b1111 } ∧
      ((s.seq 0).read 2).toNat % 16 ≠ 0 ∧ EStat.inh (s.seq 0).estat = false) ∧
    (IssuesPriv s 0 [1, 3] ∧ s.ctxOf 0 = some 0 ∧ s.ctx? 0 = some ctx0 ∧
      (let x : Inval := { q := 0, level := Scope.level .sys, ctx := 0, range := some (0x10010, 0x20010) }
       ((s.dropEntries x).reparkFrozen x).invalBusy x = false)) := by and_intros <;> decide

/-- A token in work at a memory node, and a chain in its first era. -/
def flight0 : Flight :=
  { id := 1, tok := tok 16, src := tok 16, srcB := Token.empty, srcC := Token.empty, live := 0xFFFF, lane := 0, waiting := 0
    hold := none, got := none, fault := none }
def chain1 : Chain :=
  { seq := 0, before := 1, era := 0, cur := State.reset.instanceOf 0 { header := 0x10000, head := 0, words := [], place := [], slice := none }
    next := none, pieces := [], ret := none }

theorem test_witness_CfgwReaches :
    let s := root [(1, 0x2000), (2, 0x8000000000000000), (3, 0xC000000000000000), (4, 0x4000000000000000), (5, 0x18),
      (6, 0x8012000000000000)]
    (Issues s 128 [1, 2] ∧ bits ((s.seq 128).read 2) 15 47 = 0 ∧ bits ((s.seq 128).read 2) 62 2 = 2 ∧
      bits ((s.seq 128).read 2) 0 10 = 0 ∧ (s.seq 0).run ≠ .halted ∧
      ((withSeq s 0 fun v => { v with run := .halted }).seq 0).run = .halted) ∧
    (Issues s 128 [0, 3] ∧ bits ((s.seq 128).read 3) 15 47 = 0 ∧ bits ((s.seq 128).read 3) 62 2 = 3 ∧
      bits ((s.seq 128).read 3) 0 10 = 0 ∧ (s.seq 128).read 0 = 0) ∧
    (let u := s.setPlane 0 { Plane.empty with nodes := [(256, Node.fresh 0x8000000000000000)] }
     Issues u 128 [6, 4] ∧ bits ((u.seq 128).read 4) 62 2 = 1 ∧ bits ((u.seq 128).read 4) 2 3 = 0 ∧
       Tab.find? (u.plane 0).nodes 256 = some (Node.fresh 0x8000000000000000) ∧
       fabricCause ((u.seq 128).read 1) ≠ none ∧ Issues u 128 [1, 4] ∧ (32 * (128 - 128) + (bits ((u.seq 128).read 4) 10 5).toNat) % 2 = 0 ∧
       { Node.fresh 0 with fly := [flight0] }.fly ≠ [] ∧
       ((withPlane u fun p => { p with chain := some chain1 }).plane 0).chain = some chain1 ∧ (Node.fresh 0x8000000000000000).era = chain1.era ∧
       (let w := u.setPlane 0 { u.plane 0 with nodes := [(768, Node.fresh 0x8000000000000000)] }
        Tab.find? (w.plane (planeKey 1 0 - 4)).nodes (256 + 512) = some (Node.fresh 0x8000000000000000)) ∧
       fabricCause 0x8000000000000000 = none ∧ isMemoryWord 0x8000000000000000 = isMemorySlot 256) ∧
    (bits ((s.seq 128).read 5) 62 2 = 0 ∧ 6 ≤ (bits ((s.seq 128).read 5) 2 3).toNat ∧
      EStat.inh (s.seq 128).estat = false) := by and_intros <;> decide

theorem test_witness_AtomicsAndBarriers :
    let p : Phys := { key := 0x10020, leaf := Leaf.make 0 3 false false 1 false 1 0b1111 }
    let s := user0 [(1, 0x10020), (2, 0x100010000), (3, 4), (4, 0x10010)]
    (Issues s 0 [5, 1, 2, 3] ∧ (s.seq 0).stage = .fresh ∧ s.reach 0 (reqLoad 0) ((s.seq 0).read 1) 8 .atomic = .to p ∧
      s.reach 0 (reqLoad 0) ((s.seq 0).read 1) 4 .atomic = .to p) ∧
    (let u := withSeq s 0 fun v => v.setWait (.event 0x1000 8 1 none (some (List.replicate 4 0xFF, none)))
     Issues u 0 [5, 1, 2, 3] ∧ (u.seq 0).stage = .back 8 (List.replicate 4 0xFF) none none) ∧
    (descriptorOk ((s.seq 0).read 2) = true ∧ ((s.seq 0).read 3).toNat < 2 ^ 32 ∧ Issues s 0 [3, 1, 2] ∧
      ((s.seq 0).read 1).toNat % 32 = 0 ∧ s.reach 0 (reqLoad 0) ((s.seq 0).read 1) 32 .atomic = .to p) ∧
    (let u := withSeq s 0 fun v => v.setWait (.event 0x1000 4 1 none (some ([], none)))
     (u.seq 0).stage = .back 4 [] none none) ∧
    (let e : Ev := { Ev.blank with
       id := 1, kind := .rmw (.arrive none 1 0 none), va := 0x10020, size := 32
       pieces := (readCells 32).map fun x => { key := 0x10020 + x.1, value := 0, mask := 0xFF }, dest := .wait 0 }
     let u := (withSeq s 0 fun v => v.setWait (.event 0x1000 4 1 none none)).setAgent 0 { AgentSt.empty with rmws := [e] }
     let u := { u with mem := Memory.reset.poke 0 (keyed 0x10020 (BarObj.ofDescriptor 0x100010000).toBytes) }
     (u.seq 0).wait = .event (u.seq 0).ip 4 1 none none ∧ (u.agent 0).rmws = [e] ∧ e.dest = .wait 0 ∧
       (match u.rmwResult e (.arrive none 1 0 none) (e.pieces.map fun p => u.mem.coLast p.key) with
         | .ok _ => true | .error _ => false) = true) ∧
    (let u := withSeq s 0 fun v => v.setWait (.event 0x1000 4 1 none (some ([], some .barcnt)))
     (u.seq 0).stage = .back 4 [] (some .barcnt) none ∧ EStat.inh (u.seq 0).estat = false) ∧
    (((s.seq 0).read 4).toNat < 2 ^ 52 ∧ ((s.seq 0).read 4).toNat % 32 ≠ 0) := by and_intros <;> decide

theorem test_witness_WaitsLookAndWake :
    let p : Phys := { key := 0x10020, leaf := Leaf.make 0 3 false false 1 false 1 0b1111 }
    let s := user0 [(1, 0x10020), (2, 7), (3, 100)]
    let looks (left : Option Nat) (m : Word) := withSeq s 0 fun v => v.setWait (.timed 0x1000 left (some m) false)
    (Issues s 0 [5, 1, 2, 3] ∧ s.waitReads 0 = false ∧ (s.seq 0).wait = .none ∧ ((s.seq 0).read 1).toNat % 32 = 0 ∧
      ((s.seq 0).read 1).toNat % 8 = 0 ∧ s.reach 0 (reqLoad 0) ((s.seq 0).read 1) 8 .read = .to p ∧
      s.reach 0 (reqLoad 0) ((s.seq 0).read 1) 32 .read = .to p) ∧
    (Issues (looks none 7) 0 [5, 1, 2, 3] ∧ ((looks none 7).seq 0).wait = .timed 0x1000 none (some 7) false ∧
      compareHolds .eq 7 (((looks none 7).seq 0).read 2) = true) ∧
    (((looks (some 0) 8).seq 0).wait = .timed 0x1000 (some 0) (some 8) false ∧
      compareHolds .eq 8 (((looks (some 0) 8).seq 0).read 2) = false) ∧
    (((looks (some 1) 8).seq 0).wait = .timed 0x1000 (some 1) (some 8) false ∧
      compareHolds .eq 8 (((looks (some 1) 8).seq 0).read 2) = false) ∧
    waitOver (leBytes 8 (7 : Word).toNat) (bits ((s.seq 0).read 2) 0 16) = true ∧
    ((withSeq s 0 fun v => v.setWait (.timed 0x1000 none none true)).seq 0).wait = .timed 0x1000 none none true := by
  and_intros <;> decide

/-- An affine pattern of n FP32 elements at 0x10000 (R205). -/
def pat (n : Nat) : BitVec 256 :=
  BitVec.ofNat 256 (0x10000 + 4 * 2 ^ 64 + n * 2 ^ 160 + 6 * 2 ^ 184 + 1 * 2 ^ 192 + 1 * 2 ^ 216)

theorem test_witness_PatternsAndBindings :
    let p : Phys := { key := 0x10020, leaf := Leaf.make 0 3 false false 1 false 1 0b1111 }
    let s := turnOf 0 (seqAt 0 false [(1, 0x10020)]) ctx0 { Plane.empty with g := vput Plane.empty.g 5 (pat 16) }
    (Issues s 0 [1] ∧ s.planeOf 0 = some 0 ∧
      s.reach 0 (reqLoad 0) ((s.seq 0).read 1 + (0 : BitVec 14).signExtend 64) 32 .read = .to p ∧
      s.reach 0 (reqLoad 0) ((s.seq 0).read 1 + (0 : BitVec 14).signExtend 64) 32 .write = .to p ∧ s.loadsHeld 0 < 8 ∧
      s.storesHeld 0 < 16 ∧ s.seqHit 0 ((s.seq 0).read 1 + (0 : BitVec 14).signExtend 64) 32 = none ∧
      bitAt (s.seq 0).outG 15 = false ∧ bitAt (s.seq 0).outC 15 = false) ∧
    (Issues s 0 [] ∧ (Pat.of (vget (s.plane 0).g 5 0)).ok .wr = true ∧ (Pat.of (vget (s.plane 0).g 5 0)).ok .rd = true ∧
      (Pat.of (vget (s.plane 0).g 5 0)).second 7 = none ∧ (s.side 0 7 true).heldBy = none ∧ (s.side 0 7 true).job = none ∧
      (Pat.of (vget (s.plane 0).g 4 0)).ok .wr = true) ∧
    (let u := turnOf 0 (seqAt 0 false []) ctx0 { Plane.empty with g := vput Plane.empty.g 5 (pat 16 ||| 0x10000000000000) }
     (Pat.of (vget (u.plane 0).g 5 0)).ok .rd = false ∧ EStat.inh (u.seq 0).estat = false) := by
  and_intros <;> decide

/-- A job of port 3's read side, or a copy. -/
def job (kind : JobKind) (serial : Nat) : Job :=
  { Job.fresh kind [] 0 (some (false, 5)) .rgn 0 0 { sfl := false, rfl := false, rm := .rne } with serial }

theorem test_witness_JobsRun :
    let s := (turnOf 0 (seqAt 0 false []) ctx0
      { Plane.empty with g := vput (vput Plane.empty.g 1 (pat 16)) 2 (pat 16) }).setSide 0 3 false
        { Side.empty with bind := some (pat 16) }
    (Issues s 0 [5, 0] ∧ s.planeOf 0 = some 0 ∧ (s.region 0).freeEntry = some 0 ∧ (s.side 0 3 false).bind = some (pat 16) ∧
      bitAt (s.seq 0).outG 1 = false ∧ bitAt (s.seq 0).outG 2 = false ∧
      acpyOk (Pat.of (vget (s.plane 0).g 2 0)) (Pat.of (vget (s.plane 0).g 1 0)) = true) ∧
    (let j := { job (.acpy (pat 16) (pat 16) none) 2 with deps := [1] }
     let u := s.setRegion 0 { s.region 0 with jobs := [(15, j)] }
     Tab.find? (u.region 0).jobs 15 = some j ∧ j.started = false ∧ (∀ x ∈ (u.region 0).jobs, x.2.serial ∉ j.deps) ∧
       (∃ x ∈ (s.setRegion 0 { s.region 0 with jobs := [(14, job (.bchn .ba0) 1), (15, j)] }).region 0 |>.jobs,
         x.2.serial ∈ j.deps)) ∧
    (let j := { job (.acpy (pat 16) (pat 16) none) 2 with started := true, outcome := some 1 }
     let u := s.setRegion 0 { s.region 0 with jobs := [(15, j)] }
     Tab.find? (u.region 0).jobs 15 = some j ∧ j.started = true ∧ u.sideDone 0 j = true ∧
       u.jobReleased 0 15 j.scope = true) := by
  and_intros <;> decide

/-- A read side of port 3 whose affine job of n FP32 elements runs, and so the write side's. -/
def sided (wr : Bool) (n : Nat) (v : Side) : State :=
  let s := (user0 []).setSide 0 3 wr { v with job := some 1 }
  s.setRegion 0 { s.region 0 with jobs := [(0, { job (.sgo 3 wr (pat n)) 1 with started := true })] }

theorem test_witness_PortSidesMove :
    (let s := sided false 16 { Side.empty with eorDue := true }
     s.sideJob 0 3 false = some (0, { job (.sgo 3 false (pat 16)) 1 with started := true }, 3, false, pat 16) ∧
       (Pat.of (pat 16)).kind = 0 ∧ (Pat.of (pat 16)).xform = 0 ∧ (vget (s.region 0).limits 3 Limiter.empty).a = 0 ∧
       (s.side 0 3 false).closed = false ∧ (s.side 0 3 false).fltDue = none ∧ (s.side 0 3 false).toks.length < 16 ∧
       (s.side 0 3 false).eorDue = true) ∧
    (let s := sided false 16 { Side.empty with epos := 16, toks := List.replicate 15 (tok 16) }
     (s.sideJob 0 3 false).isSome = true ∧ (s.side 0 3 false).toks.length < 16 ∧ (s.side 0 3 false).eorDue = false ∧
       (s.side 0 3 false).vals = [] ∧ (s.side 0 3 false).runEnd = false ∧
       (Pat.of (pat 16)).count ≤ (s.side 0 3 false).epos) ∧
    (let c : Flight := { id := 0, tok := Token.empty, src := Token.empty, srcB := Token.empty, srcC := Token.empty, live := 0, lane := 16,
                         waiting := 0, hold := none, got := some (leBytes 64 0x300000002, 0), fault := none }
     let s := sided false 2 { Side.empty with fly := [c] }
     (s.side 0 3 false).eotDue = false ∧ (s.side 0 3 false).epos < (Pat.of (pat 2)).count ∧ (Pat.of (pat 2)).ty = .f32 ∧
       returned (Pat.of (pat 2)) (s.side 0 3 false).fly 0 ((Pat.of (pat 2)).tokenLen 0) = [2, 3].map some) ∧
    (let s := sided true 16 { Side.empty with toks := [tok 16] }
     s.sideJob 0 3 true = some (0, { job (.sgo 3 true (pat 16)) 1 with started := true }, 3, true, pat 16) ∧
       Tab.find? (s.region 0).jobs 0 = some { job (.sgo 3 true (pat 16)) 1 with started := true } ∧
       (s.side 0 3 true).closed = false ∧ (s.side 0 3 true).discard = false ∧ (s.side 0 3 true).run = [] ∧
       (s.side 0 3 true).vals = [] ∧ (s.side 0 3 true).toks = tok 16 :: [] ∧ (tok 16).marker = 0 ∧
       (Token.mark Mk.eot).marker = 2) := by and_intros <;> decide +kernel

theorem test_witness_FencesAndRanges :
    let s := user0 [(1, 0x10010), (2, 0x40), (3, 0xFFFFFFFFFFFF0)]
    (Issues s 0 [1, 2] ∧ (s.seq 0).wait = .none ∧ ((s.seq 0).read 0).toNat = 0 ∧ ((s.seq 0).read 1).toNat ≤ 2 ^ 52) ∧
    (0 < ((s.seq 0).read 2).toNat ∧ ((s.seq 0).read 1).toNat + ((s.seq 0).read 2).toNat ≤ 2 ^ 52 ∧
      (0x10010 + 0x40 + 63) / 64 * 64 ≤ (0x10010 / 64 * 64 / 2 ^ 16 + 1) * 2 ^ 16 ∧
      s.seqTranslate 0 (reqLoad 0) (0x10010 / 64 * 64) .read =
        .ok { key := 0x10000, leaf := Leaf.make 0 3 false false 1 false 1 0b1111 }) ∧
    (2 ^ 52 < ((s.seq 0).read 3).toNat + ((s.seq 0).read 2).toNat ∧ EStat.inh (s.seq 0).estat = false) := by
  and_intros <;> decide

/-- An event of sequencer 0 on one byte. -/
def evt (id key : Nat) (kind : EvKind) (ord : PageOrd) : Ev :=
  { Ev.blank with id, kind, va := key, size := 1, ord, pieces := [{ key, value := 7, mask := 0xFF }], dest := .wait 0 }

/-- Sequencer 0 with some events. -/
def withAgent (g : AgentSt) : State := (user0 []).setAgent 0 g

/-- A context with a KV window at 2^45, and an address of the slot of branch 1, which is free. -/
def ctxDead : Ctx := { ctx0 with kvw := 0x200000000012 }
def kvAt : Nat := 0x200000000000 + 262144

/-- A committed write of two bytes whose visibility is that of its region. -/
def wrote : MWrite := { id := 1, org := 0, cells := [(0x10000, 1), (0x10001, 2)], tag := none, level := 1, ord := .rc, plain := false }

theorem test_witness_EventsIssueAndCommit :
    (let e := evt 1 0x10000 .write .rc
     let s := withAgent { AgentSt.empty with q := [e] }
     (s.agent 0).q[0]? = some e ∧ e.parked = false ∧ e.absent = none ∧ blockPlane 0 = none ∧ s.orderAllows 0 e = true ∧
       s.blockAllows 0 e = true) ∧
    (let e := { evt 1 0x10000 .read .so with slot := 256 }
     let s := (user0 []).setAgent (Agent.block 0 0).key { AgentSt.empty with q := [e] }
     (s.agent 0x1000).q[0]? = some e ∧ blockPlane 0x1000 = some 0 ∧ (s.plane 0).stopped = false ∧
       s.orderAllows 0x1000 e = true ∧ s.blockAllows 0x1000 e = true ∧ e.dest ≠ .none ∧ e.tagRead = false ∧
       s.linked e = true) ∧
    (let e := { evt 1 0x10000 .write .rc with ctx := 0, va := kvAt, mkind := 0 }
     let s := (withAgent { AgentSt.empty with q := [e], buf := [e], rmws := [e] }).setCtx 0 ctxDead
     (s.agent 0).q[0]? = some e ∧ (s.agent 0).buf[0]? = some e ∧ (s.agent 0).rmws[0]? = some e ∧ s.kvVoid 0 e = true ∧
       blockPlane 0 = none ∧ (user0 []).kvVoid 0 (evt 1 0x10000 .write .rc) = false) ∧
    (let e := evt 1 (2 ^ 50 + 0x10000) .read .so
     let s := withAgent { AgentSt.empty with q := [e] }
     (s.agent 0).q[0]? = some e ∧ s.orderAllows 0 e = true ∧ s.blockAllows 0 e = true ∧ e.absent = none ∧
       s.linked e = false) ∧
    (let s := withAgent { AgentSt.empty with buf := [evt 1 0x10000 .write .rc, evt 2 0x10001 .write .so] }
     (s.agent 0).buf[1]? = some (evt 2 0x10001 .write .so) ∧
       (∀ x ∈ (s.agent 0).buf.take 1, overlaps x (evt 2 0x10001 .write .so) = false) ∧
       (∀ x ∈ (s.agent 0).buf.take 1, x.ord ≠ .so) ∧ s.linked (evt 2 0x10001 .write .so) = true ∧
       s.linked (evt 2 (2 ^ 50) .write .so) = false) ∧
    (let s := withAgent { AgentSt.empty with buf := [evt 1 0x10000 .write .rc, evt 2 0x10000 .write .rc] }
     (s.agent 0).buf[1]? = some (evt 2 0x10000 .write .rc) ∧
       (∃ x ∈ (s.agent 0).buf.take 1, overlaps x (evt 2 0x10000 .write .rc) = true)) := by and_intros <;> decide

theorem test_witness_CoherenceOrder :
    (Memory.reset.wf = true ∧ (∀ x ∈ Memory.reset.recent ++ [wrote], (x.cells.map Prod.fst).Nodup) ∧
      visibleTo (.seq 0) wrote = true ∧ visibleTo (.seq 1) wrote = false) ∧
    (let s : State := { user0 [] with mem := { Memory.reset with recent := [wrote] } }
     s.mem.wf = true ∧ (∀ x ∈ s.mem.recent, (x.cells.map Prod.fst).Nodup) ∧ s.mem.recent[0]? = some wrote ∧
       wrote.level < 5 ∧ (∀ x ∈ s.mem.recent.take 0, ¬(x.org = wrote.org ∧ x.level ≤ wrote.level ∧
         (x.meets wrote = true ∨ (wrote.ord = .so ∧ x.ord = .so)))) ∧
       joinLevel (Agent.ofKey wrote.org) (.seq 33) ≠ wrote.level + 1 ∧
       joinLevel (Agent.ofKey wrote.org) (.seq 1) ≤ wrote.level + 1 ∧ wrote.at? 0x10000 = some 1 ∧
       (∀ x ∈ s.mem.recent.drop 1, visibleTo (.seq 1) x = true → x.at? 0x10000 = none)) := by and_intros <;> decide

/-- Branch 0 live with a child 1 that is a member of the barrier at 0x10000, and a resigned child 2. -/
def ctxTree' : Ctx :=
  { ctx0 with
    branches := [(0, { Branch.free with st := 1, nch := 2 }), (1, { Branch.free with st := 1, parent := 0, depth := 1, bar := some 0x10000 }),
      (2, { Branch.free with st := 2, parent := 0, depth := 1 })]
    marked := [2] }

theorem test_witness_RmwsAndReturns :
    (let e := evt 1 0x10000 (.rmw (.atomic .add false false 1 0)) .rc
     let s := withAgent { AgentSt.empty with rmws := [e] }
     (s.agent 0).rmws[0]? = some e ∧ (∀ w ∈ (s.agent 0).buf, overlaps w e = false) ∧
       (∀ w ∈ (s.agent 0).rmws.take 0, overlaps w e = false) ∧ e.dest ≠ .none ∧ s.linked e = true ∧
       s.linked (evt 1 (2 ^ 50) (.rmw (.atomic .add false false 1 0)) .rc) = false ∧
       (∃ w ∈ ((withAgent { AgentSt.empty with rmws := [e], buf := [evt 2 0x10000 .write .rc] }).agent 0).buf,
         overlaps w e = true)) ∧
    (let e (op : RmwOp) : Ev := { evt 1 0x10000 (.rmw op) .rc with
       pieces := (List.range 32).map fun i => { key := 0x10000 + i, value := 0, mask := 0xFF } }
     let arrive : RmwOp := .arrive none 1 0 none
     let object (o : BitVec 256) : List Byte := leBytes 32 o.toNat
     let s (o : BitVec 256) (op : RmwOp) : State :=
       { withAgent { AgentSt.empty with rmws := [e op] } with mem := Memory.reset.poke 0 (keyed 0x10000 (object o)) }
     -- DONE 0xFFFF, one participant domain, EXP 2, and the four counts of 2
     let flat : BitVec 256 := 0x0000000200000002000000020000000200000000000000020000000000100000 ||| 0xFFFF
     let u := s flat arrive
     let old : BitVec 256 := BitVec.ofNat 256 (leNat (((e arrive).pieces.map Piece.key).map u.mem.coLast))
     (u.agent 0).rmws[0]? = some (e arrive) ∧ (e arrive).pieces.length = 32 ∧ (e arrive).dest ≠ .none ∧
       u.kvVoid 0 (e arrive) = false ∧ u.linked (e arrive) = true ∧ old = flat ∧
       (bits old 112 16 = 0 ∧ bits old 24 40 = 0 ∧ bits old 16 3 = 0 ∧ 1 ≤ (bits old 20 3).toNat ∧ (bits old 20 3).toNat ≤ 5) ∧
       bitAt old 19 = false ∧ bitAt old 23 = false ∧ bits old 0 16 + 1 = (0 : BitVec 16) ∧ (bits old 128 32).toNat = 2 ∧
       bitAt (0 : BitVec 128) 19 = false ∧ bits (flat ||| ((1 : BitVec 256) <<< 16)) 16 3 ≠ 0 ∧ bitAt (flat ||| ((1 : BitVec 256) <<< 19)) 19 = true ∧
       bitAt (flat ||| ((1 : BitVec 256) <<< 23)) 23 = true ∧ ctxTree'.isDead 2 = true ∧ ctxTree'.isDead 1 = false ∧
       (ctxTree'.branch 1).bar = some 0x10000 ∧ (ctxTree'.branch 0).bar ≠ some 0x10000) ∧
    (let r (d : Dest) : Ret := { dest := d, bytes := List.replicate 8 1, tag := 0, bad := none }
     let s := (withAgent { AgentSt.empty with rets := [r (.sreg 0 false 31 false), r (.greg 0 15), r (.creg 0 15), r (.wait 0)] }).setSeq 0
       { (user0 []).seq 0 with waitU := .event 0x1000 4 1 none none }
     (s.agent 0).rets[0]? = some (r (.sreg 0 false 31 false)) ∧ (s.agent 0).rets[1]? = some (r (.greg 0 15)) ∧
       (s.agent 0).rets[2]? = some (r (.creg 0 15)) ∧ (s.agent 0).rets[3]? = some (r (.wait 0)) ∧
       (r (.wait 0)).bytes.length = 8 ∧ (s.seq 0).wait = .event 0x1000 4 1 none none) := by and_intros <;> decide

/-- A context whose page pool is one frame, number 2 of memory, and whose chunk region holds one chunk. -/
def ctxPool : Ctx :=
  { ctx0 with
    poolFrames := 1, poolBase := 2, pwin := 0x40000, kvw := 0x20000, chunkCount := 1, ptRoot := 0x1000 }

/-- One element, whichever number chooses it. -/
theorem pickOf_one (x n : Nat) : pickOf [x] n = some x := by simp [pickOf, Nat.mod_one]

/-- Four tables of one entry each: 0x1000 to 0x4000, and the leaf of page 1. -/
def tablesOn (m : Memory) (leaf : Word) : Memory :=
  m.poke 0 (keyed 0x1000 (leBytes 8 0x2001) ++ keyed 0x2000 (leBytes 8 0x3001) ++
    keyed 0x3000 (leBytes 8 0x4001) ++ keyed 0x4008 (leBytes 8 leaf.toNat))

def tables (leaf : Word) : Memory := tablesOn Memory.reset leaf

def walk (copy granted : Bool) : Walk :=
  { board := 0, ctx := 0, page := 1, granted, requesters := [0], dropped := false, copy, level := 1, table := 0x1000
    found := none, agent := 0 }

theorem test_witness_WalksAndCopies :
    (let s : State := { (user0 []).setCtx 0 ctxPool with
       mem := tables (Leaf.make 0 3 false false 1 false 1 0b0011), walks := [walk false true] }
     s.walks[0]? = some (walk false true) ∧ s.ctx? 0 = some ctxPool ∧
       s.tableEntry 0x1000 (1 * 2 ^ 16 / 2 ^ (16 + 9 * (4 - 1)) % 512) = 0x2001 ∧
       s.tableEntry 0x1000 (1 * 2 ^ 16 / 2 ^ (16 + 9 * (4 - 1)) % 512 + 1) = 0 ∧ Leaf.lg (s.tableEntry 0x4000 (1 / 32 * 32)) = false ∧
       s.tableEntry 0x4000 1 &&& ~~~((1 : Word) <<< 48) = Leaf.make 0 3 false false 1 false 1 0b0011 ∧
       Leaf.v (Leaf.make 0 3 false false 1 false 1 0b0011) = true ∧
       Leaf.reserved (Leaf.make 0 3 false false 1 false 1 0b0011) = false ∧
       (let large := Leaf.make 0 3 false false 1 true 32 0b0011
        Leaf.lg ({ s with mem := s.mem.poke 0 (keyed 0x4000 (leBytes 8 large.toNat)) }.tableEntry 0x4000 0) = true) ∧
       Leaf.v 0 = false ∧ Leaf.reserved 0x11 = true) ∧
    (let l (mkind : BitVec 3) (cow : Bool) (key : Nat) (perm : BitVec 4) : Word := Leaf.make key mkind false cow 1 false 1 perm
     let s (e : Word) (bad : Option Cause) : State := { user0 [] with
       tlbs := [(0, [{ ctx := 0, page := 1, leaf := e, bad }])], regions := [(0, { Region.empty with wwin := 0x20000000 })] }
     let u := s (l 3 false 0 0b1111) none
     u.ctx? 0 = some ctx0 ∧ ctx0.kvWindow = none ∧ ctx0.inMail 0 0x10000 = false ∧ ctx0.inMail 0 0x20000000 = false ∧
       (u.region 0).wwin.toNat = 0x20000000 ∧ (u.lookup 0 0 0 1).map Cached.leaf = some (l 3 false 0 0b1111) ∧
       (Leaf.key (l 3 false 0 0b1111)).toNat = ctx0.key ∧ (Leaf.key (l 3 false 1 0b1111)).toNat ≠ ctx0.key ∧
       Leaf.mkind (l 2 false 0 0b1111) = 2 ∧ Leaf.mkind (l 4 false 0 0b1111) = 4 ∧ Leaf.mkind (l 3 true 0 0b1111) = 3 ∧
       Leaf.r (l 3 false 0 0b1111) = true ∧ Leaf.w (l 3 false 0 0b1111) = true ∧ Leaf.r (l 3 false 0 0b0001) = false ∧
       Leaf.w (l 3 false 0 0b0011) = false ∧ Leaf.x (l 3 false 0 0b0111) = false ∧ Leaf.cow (l 3 true 0 0b1111) = true ∧
       Leaf.cow (l 3 false 0 0b1111) = false ∧ ((s 0 (some .page)).lookup 0 0 0 1).bind Cached.bad = some .page) ∧
    (bits (0x8000000000002001 : Word) 48 16 ≠ 0 ∧ bits (0x2003 : Word) 1 11 ≠ 0 ∧ bits (0x2001 : Word) 1 11 = 0 ∧
      bits (0x2001 : Word) 48 16 = 0) ∧
    (let s : State := { user0 [] with walks := [walk true true, walk false false] }
     s.walks = [walk true true] ++ walk false false :: [] ∧ (∀ x ∈ [walk true true], x.board = 0 → x.granted = true) ∧
       (s.walks.filter fun w => w.board = 0 && w.granted).length < 256) ∧
    (let c := { ctxPool with kvw := 0 }
     let s : State := { (user0 []).setCtx 0 c with
       mem := tables (Leaf.make 0 3 false true 1 false 1 0b0111), walks := [walk true true] }
     s.walks[0]? = some (walk true true) ∧ s.ctx? 0 = some c ∧ c.kvWindow = none ∧
       s.copyReady (walk true true) = true ∧ s.walkTables c (1 * 2 ^ 16) = .ok (0x4008, Leaf.make 0 3 false true 1 false 1 0b0111) ∧
       Leaf.cow (Leaf.make 0 3 false true 1 false 1 0b0111) = true ∧
       Leaf.lg (Leaf.make 0 3 false true 1 false 1 0b0111) = false ∧
       (∃ c' s', ({ s with walks := s.walks.eraseIdx 0 }).takeFrame 0 c = some (0, c', s'))) := by
  refine ⟨by and_intros <;> decide, by and_intros <;> decide +kernel, by decide, by and_intros <;> decide, by decide, by decide,
    by decide, by decide, by decide, by decide, by decide, ?_⟩
  have h : ({ ctxPool with kvw := 0 } : Ctx).freeFrames = [0] := by decide
  simp only [State.takeFrame, h, pickOf_one]
  exact ⟨_, _, rfl⟩

/-- Branch 0 live with a live child 1 and a resigned child 2 that the walker has not reached. -/
def ctxTree : Ctx :=
  { ctx0 with
    branches := [(0, { Branch.free with st := 1, nch := 2 }), (1, { Branch.free with st := 1, parent := 0, depth := 1 }),
      (2, { Branch.free with st := 2, parent := 0, depth := 1 })]
    marked := [2] }

theorem test_witness_BranchesForked :
    let s := turnOf 0 (seqAt 0 false [(1, 64), (2, 65), (3, 0x10000), (4, 1), (5, 8)]) ctx0 Plane.empty
    (Issues s 0 [9, 0, 4] ∧ s.ctxOf 0 = some 0 ∧ s.ctx? 0 = some ctx0 ∧ ctx0.isLive 0 = true ∧
      s.liveBranches + 1 ≤ 1048576 ∧ ctx0.freeRun 1 = some 1 ∧ (ctx0.branch 0).bar = none ∧ (ctx0.branch 0).rootOf = none) ∧
    (((s.seq 0).read 1).toNat = 64 ∧ ctx0.freeRun 64 = none ∧ ctx0.isLive 64 = false) ∧
    (64 < ((s.seq 0).read 2).toNat ∧ 65536 ≤ ((s.seq 0).read 3).toNat ∧ EStat.inh (s.seq 0).estat = false) ∧
    (Issues s 0 [9, 0, 5] ∧ (s.seq 0).wait = .none ∧ ctx0.childrenDone 0 = true) ∧
    (let u := turnOf 0 (seqAt 0 false [(1, 64)]) ctxTree Plane.empty
     u.ctx? 0 = some ctxTree ∧ ctxTree.childrenDone 0 = false ∧ (u.seq 0).read 0 = 0 ∧ (u.seq 0).read 1 ≠ 0 ∧
       (ctxTree.branch 1).st < 4 ∧ (ctxTree.branch 1).parent < 65536 ∧ (ctxTree.branch 1).nch < 65536 ∧
       (ctxTree.branch 1).act < 65536 ∧ (ctxTree.branch 1).len < 65536 ∧ (ctxTree.branch 1).head < 2 ^ 52 ∧
       (1 < ctxTree.nbr ∧ (ctxTree.branch 1).st ≠ 0) ∧ ¬(8 < ctxTree.nbr ∧ (ctxTree.branch 8).st ≠ 0)) := by
  and_intros <;> decide

theorem test_witness_BranchesResigned :
    let s := turnOf 0 (seqAt 0 false [(1, 1), (2, 2), (3, 0x10000)]) ctxTree Plane.empty
    (s.ctx? 0 = some ctxTree ∧ Issues s 0 [1] ∧ s.ctxOf 0 = some 0 ∧ ctxTree.isLive ((s.seq 0).read 1).toNat = true ∧
      ctxTree.isLive ((s.seq 0).read 2).toNat = false ∧ 65536 ≤ ((s.seq 0).read 3).toNat ∧
      EStat.inh (s.seq 0).estat = false ∧ (s.seq 0).wait = .none) ∧
    (let u := (withSeq s 0 fun v => v.setWait (.marking v.ip)).setRegion 0 { s.region 0 with dead := [(0, 2)] }
     Issues u 0 [2] ∧ (u.seq 0).wait = .marking (u.seq 0).ip ∧ (0, ((u.seq 0).read 2).toNat) ∈ (u.region 0).dead) ∧
    ((2, { Branch.free with st := 2, parent := 0, depth := 1 }) ∈ ctxTree.branches) ∧
    (2 ∈ ctxTree.marked ∧ (ctxTree.branch 2).parent ∉ ctxTree.marked ∧
      (∀ k ∈ ctxTree.marked, (ctxTree.branch k).bar = none)) := by and_intros <;> decide

theorem test_witness_FramesAllocated :
    let s := turnOf 0 (seqAt 0 false [(1, 0), (2, 0x40000), (3, 0x40001), (4, 1)]) ctxPool Plane.empty
    let live := { ctxPool with kvw := 0x200000000012 }
    let held := { ctxPool with frames := [(0, { fref := 1, held := true })] }
    (Issues s 0 [9, 1] ∧ s.ctxOf 0 = some 0 ∧ s.ctx? 0 = some ctxPool ∧
      (∃ c' s', s.takeFrame 0 ctxPool = some (0, c', s'))) ∧
    (let u := turnOf 0 (seqAt 0 false []) ctx0 Plane.empty
     u.ctx? 0 = some ctx0 ∧ ctx0.kvWindow = none ∧ u.takeFrame 0 ctx0 = none ∧ ctx0.isLive 1 = false ∧
       ctx0.freeChunks = []) ∧
    (live.kvWindow = some (0x200000000000, 262144) ∧ live.isLive 0 = true ∧ live.freeChunks ≠ [] ∧
      (live.branch 0).len < 262144 / 65536 ∧
      (let full := { live with branches := [(0, { Branch.free with st := 1, len := 4 })] }
       262144 / 65536 ≤ (full.branch 0).len)) ∧
    (let c := live.setFrame 0 { fref := 1, held := false }
     s.takeFrame 0 live = some (0, c, { s with frees := s.frees + 1 }.setCtx 0 c) ∧
       ∃ y n, c.appendPage 0 0 (s.frees + 1) = some (y, n)) ∧
    ((bits held.pwin 16 36).toNat * 65536 ≤ ((s.seq 0).read 2).toNat ∧
      (((s.seq 0).read 2).toNat - (bits held.pwin 16 36).toNat * 65536) % 65536 = 0 ∧ 0 < held.poolFrames ∧
      (held.frame 0).fref = 1 ∧ held.inList 0 = false ∧
      ¬((((s.seq 0).read 3).toNat - (bits held.pwin 16 36).toNat * 65536) % 65536 = 0)) := by
  have h : ctxPool.freeFrames = [0] := by decide
  have h' : ({ ctxPool with kvw := 0x200000000012 } : Ctx).freeFrames = [0] := by decide
  refine ⟨⟨by and_intros <;> decide, by decide, by decide, ?_⟩, by and_intros <;> decide, by and_intros <;> decide, ?_,
    by and_intros <;> decide⟩
  · simp only [State.takeFrame, h, pickOf_one]
    exact ⟨_, _, rfl⟩
  · refine ⟨by simp only [State.takeFrame, h', pickOf_one], ?_⟩
    simp only [Ctx.appendPage]
    rw [if_pos (by decide)]
    rw [show (({ ctxPool with kvw := 0x200000000012 } : Ctx).setFrame 0 { fref := 1, held := false }).freeChunks =
      [ctxPool.chunkAddr 0] by decide, pickOf_one]
    exact ⟨_, _, rfl⟩

/-- A task of one start. -/
def desc0 : Desc :=
  { ip := 0x1000, lrec := 0, cword := 0, branch := none, prio := 2, ctx := 0, levels := [(2, 1)], time := 0, mail := none,
    task := none }

/-- An enabled queue for levels 2 to 5 that holds n tasks. -/
def queue (n : Nat) : TaskQueue := { enabled := true, plo := 2, phi := 5, descs := List.replicate n desc0, late := [] }

/-- The image of a task at 0x1000 with a priority, for branch 0 or none. -/
def descImage (bv : Bool) (prio : Nat) : List Byte :=
  leBytes 64 (0x1000 + (if bv then 2 ^ 208 else 0) + prio * 2 ^ 224)

theorem test_witness_TasksQueuedAndEnded :
    let p : Phys := { key := 0x10040, leaf := Leaf.make 0 3 false false 1 false 1 0b1111 }
    let s := user0 [(1, 0x10040), (2, 1), (3, 0x10044)]
    let back (bv : Bool) (prio : Nat) (x : TaskQueue) : State :=
      withSeq { s with queues := [(0, x)] } 0 fun v =>
        { v with got := descImage bv prio ++ leBytes 16 1, waitU := .event 0x1000 0 9 none (some (leBytes 8 1, none)) }
    (Issues s 0 [9, 1] ∧ s.ctxOf 0 = some 0 ∧ s.ctx? 0 = some ctx0 ∧ (s.seq 0).stage = .fresh ∧
      ((s.seq 0).read 1).toNat % 64 = 0 ∧ s.reach 0 (reqLoad 0) ((s.seq 0).read 1) 64 .read = .to p ∧
      ((s.seq 0).read 3).toNat % 64 ≠ 0 ∧ EStat.inh (s.seq 0).estat = false) ∧
    (let u := back true 2 (queue 0)
     Issues u 0 [9, 1] ∧ (u.seq 0).stage = .back 0 (leBytes 8 1) none none ∧ (u.seq 0).got.length = 80 ∧
       DescImage.ofBytes ((u.seq 0).got.take 64) =
         some { ip := 0x1000, lrec := 0, cword := 0, branch := 0, bv := true, prio := 2 } ∧
       (u.queue 0).enabled = true ∧ (u.queue 0).plo ≤ 2 ∧ 2 ≤ (u.queue 0).phi ∧ ctx0.isLive 0 = true ∧
       launchOk (u.mostOnBoard 0) (wordsOf 1 (leBytes 8 1)) = true ∧ (u.queue 0).descs.length < 65536 ∧
       launchOk (u.mostOnBoard 0) (wordsOf 1 (leBytes 8 0)) = false) ∧
    (let x : BitVec 512 := BitVec.ofNat 512 (leNat (leBytes 64 (2 ^ 227)))
     bits x 227 285 ≠ 0 ∧ bits (BitVec.ofNat 512 (leNat (leBytes 64 2)) : BitVec 512) 0 64 = 2 ∧
       (let u := withSeq s 0 fun v => { v with waitU := .event 0x1000 0 9 none (some (leBytes 64 (2 ^ 227), none)) }
        (u.seq 0).stage = .back 0 (leBytes 64 (2 ^ 227)) none none ∧ (u.seq 0).got.length < 64)) ∧
    ((back true 2 TaskQueue.empty).queue 0 |>.enabled) = false ∧
    (1 < (queue 0).plo ∧ (queue 0).phi < 6 ∧ ctx0.isLive 1 = false) ∧
    65536 ≤ (queue 65536).descs.length ∧
    (let u := withSeq s 0 fun v => v.setWait (.event 0x1000 0 9 none (some (leBytes 8 1, none)))
     Issues u 0 [1, 2] ∧ (u.seq 0).stage = .back 0 (leBytes 8 1) none none ∧ u.storesHeld 0 < 16 ∧
       u.reach 0 (reqLoad 0) ((u.seq 0).read 1) 8 .write = .to p ∧ u.reach 0 (reqLoad 0) ((u.seq 0).read 1) 8 .read = .to p ∧
       u.seqHit 0 ((u.seq 0).read 1) 8 = none ∧ ((u.seq 0).read 3).toNat % 8 ≠ 0 ∧ ((u.seq 0).read 1).toNat % 8 = 0) ∧
    (Issues s 0 [] ∧ (∀ j ∈ (s.seq 0).jobs, j.result ≠ none) ∧ (s.seq 0).outU = 0 ∧ (s.seq 0).outP = 0 ∧
      (s.seq 0).outG = 0 ∧ (s.seq 0).outC = 0 ∧ Issues (root []) 128 [] ∧ EStat.inh ((root []).seq 128).estat = false) := by
  refine ⟨by and_intros <;> decide, by and_intros <;> decide +kernel, by and_intros <;> decide +kernel, by decide, by and_intros <;> decide,
    by simp only [queue, List.length_replicate]; decide, by and_intros <;> decide, by and_intros <;> decide⟩

/-- A running virtual device that holds regions 0 and 1. -/
def vd0 : Vd :=
  { state := .running, handle := 1, policy := [], cmdmask := 0xFFF, plo := 0, phi := 7, rmin := 2, rmax := 4, chmax := 2,
    nctx := 2, nnot := 8, nrate := 0, nva := 0x10000, nhash := 0, wins := [], regions := [0, 1], channels := [0], share := (0, 0),
    partition := 0, firstCtx := 0, ctxs := [0], cnt := Vector.replicate 8 0, admitted := 0, rejected := 0, window := 0,
    inWindow := 0, frames := [], codeFrames := [], images := [], leaving := [], moved := [], reserve := [], plan := 0, ss := [] }

theorem test_witness_DispatchStarts :
    let s : State := { user0 [] with
      seqs := [], vds := [(0, vd0)], queues := [(0, queue 1)] }
    let d := desc0
    ((Tab.getD s.disps 0 Dispatcher.empty).decisions + 1) % 64 ≠ 0 ∧
      nextInTurn (Tab.getD s.disps 0 Dispatcher.empty) (s.readyTasks 0) = some (0, 0, d) ∧ s.ctx? d.ctx = some ctx0 ∧
      ctx0.state ≠ .dying ∧ d.branch = none ∧ d.task = none ∧ Tab.find? s.tasks s.taskSerial = none ∧
      groupSize d.levels = none ∧ s.placesFor d ctx0 = [0] ∧ s.planeIn d.ctx 0 = some 0 ∧
      (let e : Desc := { desc0 with branch := some 0, levels := [(3, 1), (4, 1)] }
       let u : State := { s with
         queues := [(0, { queue 0 with descs := [e] })], disps := [(0, { Dispatcher.empty with decisions := 63 })] }
       ((Tab.getD u.disps 0 Dispatcher.empty).decisions + 1) % 64 = 0 ∧ oldest (u.readyTasks 0) = some (0, 0, e) ∧
         ctx0.isLive 0 = true ∧ groupSize e.levels = some 1 ∧ u.placesFor e ctx0 = [0]) ∧
      (let e : Desc := { desc0 with branch := some 2 }
       let u : State := { s.setCtx 0 ctxTree' with queues := [(0, { queue 0 with descs := [e] })] }
       let dead := { ctxTree' with marked := [] }
       oldest (u.readyTasks 0) = some (0, 0, e) ∧ (dead.branch 2).st ≠ 1 ∧ 2 ∉ dead.marked ∧ e.task = none ∧
         (let w := u.setCtx 0 dead; nextInTurn (Tab.getD w.disps 0 Dispatcher.empty) (w.readyTasks 0) = some (0, 0, e))) := by
  and_intros <;> decide

theorem test_witness_MessagesAndHandlers :
    let target (k : Nat) (closed : Bool) (n : Nat) : Ctx := { ctx0 with
      key := k, mailClosed := closed
      mail := List.replicate n { entry := 0, handler := 3, sender := 0, w0 := 0, w1 := 0, held := true } }
    let s (c : Ctx) : State := { user0 [(1, 1), (2, 7), (3, 0x10000), (4, 255), (5, 256), (6, 0x10000000000000)] with
      ctxs := [(0, ctx0), (1, c)], queues := [(0, { queue 0 with plo := 0 })] }
    let back (c : Ctx) : State := withSeq (s c) 0 fun v => v.setWait (.event 0x1000 0 9 none (some ([], none)))
    (Issues (s ctx0) 0 [9, 1, 2, 3] ∧ (s ctx0).ctxOf 0 = some 0 ∧ (s ctx0).ctx? 0 = some ctx0 ∧
      ((s ctx0).seq 0).stage = .fresh ∧ bits (((s ctx0).seq 0).read 1) 16 48 = 0 ∧
      bits (((s ctx0).seq 0).read 3) 16 48 ≠ 0 ∧ EStat.inh ((s ctx0).seq 0).estat = false) ∧
    (Issues (back ctx0) 0 [9, 1, 2, 3] ∧ ((back ctx0).seq 0).stage = .back 0 [] none none ∧
      (back ctx0).ctx? 1 = some ctx0 ∧ ctx0.freeMailEntries ≠ [] ∧ ctx0.mail.length < 4096 ∧ (s ctx0).ctx? 7 = none ∧
      ctx0.resolve 3 = none ∧ ({ ctx0 with handlers := [(3, { Handler.empty with ip := 0x2000, valid := true })] }.resolve 3).isSome ∧
      ((back ctx0).queue 0).descs.length < 65536) ∧
    ((target 1 false 0).key ≠ ctx0.key ∧ (target 0 true 0).mailClosed = true ∧ 4096 ≤ (target 0 false 4096).mail.length) ∧
    ((((s ctx0).seq 0).read 4).toNat < 256 ∧ bits (0x2000 : Word) 55 9 = 0 ∧ bits (0x2000 : Word) 0 2 = 0 ∧
      ((s ctx0).queue 0).plo ≤ (bits (0x2000 : Word) 52 3).toNat ∧ (bits (0x2000 : Word) 52 3).toNat ≤ ((s ctx0).queue 0).phi ∧
      (∀ m ∈ ctx0.mail, m.held = false) ∧ 256 ≤ (((s ctx0).seq 0).read 5).toNat ∧
      ¬(queue 0).plo ≤ (bits (((s ctx0).seq 0).read 6) 52 3).toNat ∧ ¬(queue 0).plo ≤ (bits (0 : Word) 52 3).toNat) ∧
    (0 < (((s ctx0).seq 0).read 2).toNat ∧
      (s ctx0).reach 0 (reqLoad 0) (((s ctx0).seq 0).read 3) 1 .copyRead =
        .to { key := 0x10000, leaf := Leaf.make 0 3 false false 1 false 1 0b1111 } ∧
      trigRangeOk (Leaf.make 0 3 false false 1 false 1 0b1111) 0x10000 7 = true) ∧
    (let c := { ctx0 with
       handlers := [(3, { Handler.empty with ip := 0x2000, valid := true })]
       trigs := vput ctx0.trigs 15 { Trig.empty with arm := true, pend := true, count := 4294967295, handler := 3 } }
     (vget c.trigs 15 Trig.empty).pend = true ∧ (c.handler 3).valid = true ∧ (vget c.trigs 15 Trig.empty).mail = none ∧
       c.mail.length < 4096 ∧ c.freeMailEntries ≠ [] ∧ c.mailClosed = false ∧ c.state ≠ .dying ∧
       (vget c.trigs 15 Trig.empty).count < 2 ^ 32) := by
  and_intros <;> decide +kernel

/-- A block of two instructions at 0x10000: `gen` of the indices 0 to 99, in stage 0 of its square, and `sink` in stage 1,
over a link of two slots (R37 to R54). -/
def image0 : Image :=
  { header := 0x10000, head := 0xA0200002000000000000000000000000
    words := [0x0400502000400064, 0x0F00000000000000], place := [0, 1], slice := none }

/-- Its bytes. -/
def imageBytes0 : List Byte :=
  leBytes 16 image0.head.toNat ++ leBytes 8 0x0400502000400064 ++ leBytes 8 0x0F00000000000000 ++ [0, 1]

/-- The one piece of 64 bytes that holds them (R58). -/
def pieces0 : Pieces := [(0x10000, imageBytes0 ++ List.replicate 30 0)]

/-- Region 0's sequencer, which can fetch code from page 1. -/
def fetching (bs : List Byte) (v : Seq) (pl : Plane) : State :=
  let s := turnOf 0 v ctx0 pl
  { s with tlbs := [cached (reqLoad 0), cached (reqFetch 0)], mem := Memory.reset.poke 0 (keyed 0x10000 bs) }

/-- The chain that runs image0. -/
def chain0 : Chain :=
  { seq := 0, before := 1, era := 0, cur := (fetching [] (seqAt 0 false []) Plane.empty).instanceOf 0 image0, next := none
    pieces := [], ret := none }

/-- Its two nodes, which have taken all of their input. -/
def nodes0 : Tab Node :=
  [(0, { Node.fresh 0x0400502000400064 with ended := true }),
    (1, { Node.fresh 0x0F00000000000000 with index := 1, ended := true })]

theorem test_witness_BlkRunsChains :
    (let v := seqAt 0 false [(1, 0x10000), (2, 0x10008)]
     let s := fetching imageBytes0 { v with fetching := some (v.ip, false, pieces0) } Plane.empty
     let u := fetching imageBytes0 v Plane.empty
     Issues s 0 [9, 1] ∧ s.planeOf 0 = some 0 ∧ (s.seq 0).chain = none ∧ (s.seq 0).parked = none ∧ (s.seq 0).outG = 0 ∧
       (s.seq 0).outC = 0 ∧ (s.plane 0).draining = false ∧ (s.plane 0).atRest = false ∧ (s.plane 0).chain = none ∧
       s.fetchAndCheck 0 true ((s.seq 0).read 1).toNat (s.seq 0).pieces = .block image0 ∧
       s.fetchAndCheck 0 true ((s.seq 0).read 2).toNat (s.seq 0).pieces = .bad fetchFail ∧
       u.fetchAndCheck 0 true ((u.seq 0).read 1).toNat (u.seq 0).pieces = .need [0x10000] ∧
       (match u.codePiece 0 ((u.plane 0).ctx.getD 65536) 0x10000 with | .got .. => true | _ => false) = true) ∧
    (let c : BlkWait := { ip := 0x1000, priv := false, inh := false, d := 9, result := some 0 }
     let s := fetching [] { seqAt 0 false [] with chain := some c } Plane.empty
     (s.seq 0).chain = some c ∧ c.ip = (s.seq 0).ip ∧ (s.seq 0).atChain = true ∧ c.result = some 0 ∧
       { c with result := none }.result = none ∧ (seqAt 0 false []).chain = none ∧ c.here (seqAt 0 false []) = true) ∧
    (let s := fetching [] (seqAt 0 false []) { Plane.empty with chain := some chain0, nodes := nodes0 }
     (s.plane 0).chain = some chain0 ∧ (s.plane 0).settling 0 = false ∧ (s.plane 0).decision 0 = some 3 ∧
       Head128.succ chain0.cur.head 3 = 0) ∧
    (let i := { chain0.cur with head := 0xA0200002000000000000000000000001 ||| (1 <<< 60) }
     let c := { chain0 with cur := { i with header := 0xFFF0 } }
     let s := fetching imageBytes0 (seqAt 0 false []) { Plane.empty with chain := some c, nodes := nodes0 }
     (s.plane 0).decision 0 = some 3 ∧ Head128.succ c.cur.head 3 = 1 ∧ Head128.succ c.cur.head 0 = 1 ∧
       s.fetchAndCheck 0 true ((0xFFF0 : Int) + 16 * Head128.succ c.cur.head 3) pieces0 = .block image0 ∧
       s.fetchAndCheck 0 true ((0xFFF0 : Int) + 16 * Head128.succ c.cur.head 3) c.pieces = .need [0x10000] ∧
       s.fetchAndCheck 0 true ((0xFFF0 : Int) + 16 * -0x1000) c.pieces = .bad fetchFail) ∧
    (let s := fetching [] (seqAt 0 false []) Plane.empty
     let check (i : Image) : Option (BitVec 8 × Nat) := (s.checkImage 0 true i).map fun f => (f.cause, f.node)
     image0.place.length = image0.words.length ∧ check image0 = none ∧ check { image0 with head := 0 } = some (0x01, 255) ∧
       check { image0 with head := image0.head ||| (1 <<< 80) } = some (0x02, 255) ∧
       check { image0 with head := image0.head ||| (1 <<< 113) } = some (0x03, 255) ∧
       check { image0 with head := image0.head ||| (2 <<< 105) } = some (0x04, 255) ∧
       check { image0 with head := image0.head &&& ~~~((0xFF : BitVec 128) <<< 97) } = some (0x05, 255) ∧
       check { image0 with head := image0.head ||| (1 <<< 96) } = some (0x0E, 255) ∧
       check { image0 with words := [0x0400502000400064, 0] } = some (0x06, 1) ∧
       check { image0 with words := [0x0400506000400064, 0x0F00000000000000] } = some (0x08, 0) ∧
       check { image0 with words := [0x0400000000000064, 0x0F00000000000000] } = some (0x09, 1) ∧
       check { image0 with place := [0, 7] } = some (0x0B, 1) ∧ check { image0 with place := [0, 0] } = some (0x0C, 1) ∧
       check { image0 with words := [0x0400502000000064, 0x0F00000000000000], place := [0, 2] } = some (0x0D, 0) ∧
       (let few := { image0 with head := image0.head &&& ~~~((0xFF : BitVec 128) <<< 97) }
        4 * Head128.pool few.head < few.demand ∧ image0.demand ≤ 4 * Head128.pool image0.head)) := by
  and_intros <;> decide +kernel

theorem test_witness_BlocksCommit :
    (let c := { chain0 with ret := some 0 }
     let s := fetching [] (seqAt 0 false []) { Plane.empty with chain := some c, nodes := nodes0 }
     (s.plane 0).chain = some c ∧ s.canCommit 0 c = true ∧ c.next = none ∧ c.ret = some 0) ∧
    (let c := { chain0 with next := some chain0.cur }
     let s := fetching [] (seqAt 0 false []) { Plane.empty with chain := some c, nodes := nodes0 }
     s.canCommit 0 c = true ∧ c.next = some chain0.cur ∧ Tab.find? (s.plane 0).nodes 0 = nodes0.head?.map Prod.snd ∧
       (s.plane 0).stopped = false ∧ (s.plane 0).draining = false ∧
       ((s.plane 0).isSource 0 { Node.fresh 0x0400502000400064 with ended := true }) = true ∧
       fabricOpc 0x0400502000400064 ≠ 0x05 ∧ isMemorySlot 0 = false ∧ fabricOpc 0x0500102000200000 = 0x05 ∧
       ({ Plane.empty with nodes := [(0, Node.fresh 0x0500102000200000)] }.isSource 0 (Node.fresh 0x0500102000200000)) = true ∧
       (Node.fresh 0x0500102000200000).fired = false ∧ { Node.fresh 0x0500102000200000 with fired := true }.fired = true ∧
       (let l : Link := { src := 9, out := 0, dst := 0, opd := .a, cap := 2, toks := [tok 16], sticky := true, era := 0, renew := none }
        { Plane.empty with links := [l] }.endless 0 (Node.fresh 0x208010A000400064)) = true) ∧
    (let n := { Node.fresh 0x0400502000400064 with phase := .reconf, shadow := some 0x0400502000400064 }
     let c := { chain0 with next := some chain0.cur }
     let pl := { Plane.empty with chain := some c, nodes := [(0, n)] }
     let s := fetching [] (seqAt 0 false []) pl
     let u := s.setPlane 0 ((s.plane 0).reconfigured 0 1 chain0.cur n)
     chain0.cur.at? 0 = some (0, 0x0400502000400064) ∧ s.isJammed 0 0 = false ∧
       (((s.plane 0).reconfigured 0 1 chain0.cur n).links.filter fun l => l.src = 0).map (fun l => squareOf l.dst) = [0] ∧
       ((withPlane u fun p => { p with resd := 64 }).inReservation 0 0 0 = true) ∧
       (withPlane u fun p => { p with resd := 64 }).poolHolds 0 0 = true ∧
       u.poolHolds 0 0 = true ∧ s.outAsked 0 0 0 0 = false ∧
       u.inReservation 0 0 0 = false ∧ s.hasAsked 0 0 0 0 = false ∧
       { s with cycle := 1, regions := [(0, { Region.empty with asks := [{ square := 0, plane := 0, slot := 0, cycle := 0 }] })] }.hasAsked
         0 0 0 0 = true ∧
       { s with cycle := 1, regions := [(0, { Region.empty with asks := [{ square := 0, plane := 0, slot := 0, cycle := 0 }] })] }.outAsked
         0 0 0 0 = false) := by
  and_intros <;> decide +kernel

/-! ### Nodes -/

/-- A link of two slots into operand o of the node at a slot. -/
def into (slot : Nat) (o : Slot) (toks : List Token) : Link :=
  { src := 9, out := 0, dst := slot, opd := o, cap := 2, toks, sticky := false, era := 0, renew := none }

/-- Region 0 with a node n at a slot of plane 0, links into it, and a free link from its first target. -/
def nodeState (slot : Nat) (n : Node) (ins : List (Slot × List Token)) (pl : Plane) : State :=
  let out : Link := { src := slot, out := 0, dst := 11, opd := .a, cap := 2, toks := [], sticky := false, era := 0, renew := none }
  { State.reset with
    planes := [(0, { pl with ctx := some 0, nodes := [(slot, n)], links := ins.map (fun e => into slot e.1 e.2) ++ [out] })]
    ctxs := [(0, ctx0)], tlbs := [cached (reqMsq 0 0)], actor := .node 0 0 slot }

/-- The node as it takes its turn. -/
def atSlot (s : State) (slot : Nat) : At :=
  { region := 0, plane := 0, slot, node := (Tab.find? (s.plane 0).nodes slot).getD (Node.fresh 0), pl := s.plane 0 }

/-- A stage's node with some inputs; what it executes is named beside it. -/
def stageNode (ins : List (Slot × List Token)) : State := nodeState 3 (Node.fresh 0) ins Plane.empty
def memNode (ins : List (Slot × List Token)) : State := nodeState 256 (Node.fresh 0) ins Plane.empty

/-- A token with one record, in lane 0. -/
def one (x : Lane) : Token := { Token.empty with payload := vput Token.empty.payload 0 x, valid := 1 }

/-- Fields with one target, and without one. -/
def toNext (fn : BitVec 6) (ty : ElemTy) (imm : BitVec 16) : Fields := fld fn ty (.operand 5 .a) .absent 2 0 .always imm
def toNone (fn : BitVec 6) (ty : ElemTy) (imm : BitVec 16) : Fields := fld fn ty .absent .absent 0 0 .always imm

theorem test_witness_IntegerLanes :
    let s := stageNode [(.a, [tok 16]), (.b, [tok 15])]
    (∃ g, intLane (.adds (toNext 0 .i8 0)) = some (toNext 0 .i8 0, [.a, .b], g)) ∧
      NodeData s (atSlot s 3) (toNext 0 .i8 0) [.a, .b] ∧ (atSlot s 3).room (toNext 0 .i8 0) := by
  refine ⟨⟨_, rfl⟩, ?_, by and_intros <;> decide +kernel⟩
  and_intros <;> first | exact ⟨0, 0, rfl, rfl⟩ | decide +kernel

theorem test_witness_FloatLanes :
    let s := stageNode [(.a, [tok 16]), (.b, [tok 15])]
    ((∃ g, floatLane (.fadd (toNext 0 .f16 0)) (atSlot s 3) = some (toNext 0 .f16 0, [.a, .b], g)) ∧
      NodeData s (atSlot s 3) (toNext 0 .f16 0) [.a, .b] ∧ (atSlot s 3).room (toNext 0 .f16 0)) ∧
    ((0x7E : Lane).toNat < 2 ^ e4m3.width ∧ e4m3.decode 0x7E ≠ .nan ∧ (0xFF800000 : Lane).toNat < 2 ^ fp32.width ∧
      fp32.decode 0xFF800000 ≠ .nan) := by
  refine ⟨⟨⟨_, rfl⟩, ?_, by and_intros <;> decide +kernel⟩, by and_intros <;> decide⟩
  and_intros <;> first | exact ⟨0, 0, rfl, rfl⟩ | decide +kernel

theorem test_witness_MarkersAndLinks :
    let f := toNext 0 .i32 0
    let eor := Token.mark Mk.eor
    let eot := Token.mark Mk.eot
    (let s := stageNode [(.a, [eor]), (.b, [eor])]
     NodeTurn s (atSlot s 3) ∧ (atSlot s 3).accWaits = false ∧ (atSlot s 3).node.pend = [] ∧ (atSlot s 3).room f ∧
       meets ((atSlot s 3).heads (withPred f [.a, .b])) = .positional eor) ∧
    (let s := stageNode [(.a, [eor]), (.b, [Token.mark Mk.trig])]
     NodeTurn s (atSlot s 3) ∧ meets ((atSlot s 3).heads (withPred f [.a, .b])) = .free .b (Token.mark Mk.trig)) ∧
    (let s := stageNode [(.a, [eor]), (.b, [eot])]
     NodeTurn s (atSlot s 3) ∧ meets ((atSlot s 3).heads (withPred f [.a, .b])) = .misaligned) ∧
    (let s := stageNode [(.a, [Token.mark Mk.switch]), (.b, [Token.mark Mk.switch])]
     NodeTurn s (atSlot s 3) ∧ meets ((atSlot s 3).heads (withPred f [.a, .b])) = .wave Mk.switch ∧
       isMemorySlot 3 = false) ∧
    (let s := stageNode [(.a, [eor]), (.b, [eot])]
     let n := Node.fresh 0
     (s.plane 0).links = [into 3 .a [eor]] ++ into 3 .b [eot] :: (s.plane 0).links.drop 2 ∧
       (∀ k ∈ [into 3 .a [eor]], ¬(k.dst = 3 ∧ k.opd = .b ∧ k.era = n.era)) ∧
       outTarget f n.word 0 = .operand 5 .a ∧ (((s.plane 0).links[2]?).map fun l => l.isOut n 3 0) = some true ∧
       (∀ k ∈ (s.plane 0).links.take 2, k.isOut n 3 0 = false) ∧
       outTarget (fld 0 .i32 (.acc 63) .absent 0 0 .always 0) n.word 0 = .acc 63) := by
  and_intros <;> first | exact ⟨0, 0, rfl, rfl⟩ | decide +kernel

theorem test_witness_LaneMovesAndReductions :
    let s := stageNode [(.a, [tok 16]), (.b, [tok 15]), (.c, [tok 14])]
    (NodeData s (atSlot s 3) (toNext 0 .i32 0) [.a] ∧ (atSlot s 3).room (toNext 0 .i32 0) ∧
      NodeData s (atSlot s 3) (toNext 0 .i32 0) [.a, .b] ∧ NodeData s (atSlot s 3) (toNext 0 .i32 0) [.a, .b, .c] ∧
      NodeData s (atSlot s 3) (toNext 4 .i32 15) [.a]) ∧
    (let f := toNext 0x10 .i32 0
     let z := stageNode [(.a, [one 5]), (.b, [one 3]), (.c, [one 8])]
     NodeData z (atSlot z 3) f [.a, .b, .c] ∧ (atSlot z 3).live f [.a, .b, .c] 0 = true ∧
       ((((atSlot z 3).at f [.a, .b, .c] .a).at 0).toNat : Int) + (((atSlot z 3).at f [.a, .b, .c] .b).at 0).toInt = 8 ∧
       (((atSlot z 3).at f [.a, .b, .c] .c).at 0).toNat = 8) ∧
    ((toNext 0x30 .u8 0).ty.isInt = true ∧ (bits (toNext 0x30 .u8 0).fn 3 3).toNat = 6 ∧
      NodeData s (atSlot s 3) (toNext 0x30 .u8 0) [.a]) := by
  and_intros <;> first | exact ⟨0, 0, rfl, rfl⟩ | decide +kernel

theorem test_witness_PortAndSourceNodes :
    let f := toNext 0 .f32 3
    (let s := (stageNode []).setSide 0 3 false { Side.empty with toks := [tok 16] }
     NodeTurn s (atSlot s 3) ∧ (atSlot s 3).node.ended = false ∧ (s.side 0 3 false).plane = 0 % 4 ∧
       (s.side 0 3 false).toks = tok 16 :: [] ∧ portTypeBad s 0 3 false f.ty = false ∧ (tok 16).marker.toNat < 10 ∧
       (atSlot s 3).room f) ∧
    (let s := (sided false 16 { Side.empty with toks := [tok 16] })
     portTypeBad s 0 3 false .i32 = true) ∧
    (let o := fld 0 .f32 (.port 7) .absent 2 0 .always 0
     let s := (stageNode [(.a, [tok 16])]).setSide 0 7 true { Side.empty with toks := [tok 1] }
     NodeData s (atSlot s 3) o [.a] ∧ (atSlot s 3).ahead = false ∧
       (s.side 0 7 true).toks.length < min 16 (slotsOfCode o.dpa) ∧ portTypeBad s 0 7 true o.ty = false) ∧
    (let g := toNext 0 .u32 100
     let s := nodeState 3 { Node.fresh 0 with count := 96 } [] Plane.empty
     NodeTurn s (atSlot s 3) ∧ (atSlot s 3).room g ∧ (atSlot s 3).node.count < g.imm.toNat ∧
       g.imm.toNat ≤ ({ Node.fresh 0 with count := 112 } : Node).count) ∧
    (let s := stageNode [(.c, [one 20])]
     (atSlot s 3).heads [.c] = [{ slot := .c, sticky := false, tok := some (one 20) }] ∧ (one 20).marker = Mk.data ∧
       (one 20).has 0 = true ∧ (atSlot s 3).node.fired = false) ∧
    (let s := nodeState 3 { Node.fresh 0 with fired := true, limit := 20, count := 32 } [(.c, [])] Plane.empty
     NodeTurn s (atSlot s 3) ∧ (atSlot s 3).node.limit ≤ (atSlot s 3).node.count ∧
       (atSlot s 3).heads [.c] = [{ slot := .c, sticky := false, tok := none }] ∧ (atSlot s 3).node.fired = true) ∧
    (let s := stageNode [(.a, [tok 16])]
     (∃ h, (atSlot s 3).heads [.a] = [h] ∧ h.tok.isSome)) := by
  and_intros <;> first | exact ⟨0, 0, rfl, rfl⟩ | exact ⟨_, rfl, by decide⟩ | decide +kernel

theorem test_witness_MergeLoopHold :
    let f := toNext 0 .i32 0
    let head (o : Slot) (t : Option Token) : Head := { slot := o, sticky := false, tok := t }
    let eor := Token.mark Mk.eor
    let two (x y : List Token) (n : Node) : State := nodeState 3 n [(.a, x), (.b, y), (.c, y)] Plane.empty
    let n := Node.fresh 0
    (NodeTurn (two [tok 16] [] n) (atSlot (two [tok 16] [] n) 3) ∧ (atSlot (two [tok 16] [] n) 3).room f ∧
      (atSlot (two [tok 16] [] n) 3).heads [.a, .b] = [head .a (some (tok 16)), head .b none] ∧ (tok 16).marker = Mk.data) ∧
    ((atSlot (two [tok 16] [tok 3] n) 3).heads [.a, .b] = [head .a (some (tok 16)), head .b (some (tok 3))] ∧ n.turn = false ∧
      ({ n with turn := true } : Node).turn = true) ∧
    ((atSlot (two [Token.mark Mk.eot] [] n) 3).heads [.a, .b] = [head .a (some (Token.mark Mk.eot)), head .b none]) ∧
    ((atSlot (two [] [tok 3] n) 3).heads [.a, .b] = [head .a none, head .b (some (tok 3))]) ∧
    ((atSlot (two [eor] [eor] n) 3).heads [.a, .b] = [head .a (some eor), head .b (some eor)] ∧
      (atSlot (two [eor] [Token.mark Mk.eot] n) 3).heads [.a, .b] = [head .a (some eor), head .b (some (Token.mark Mk.eot))]) ∧
    (let u := two [tok 16] [] { n with count := 7 }
     NodeTurn u (atSlot u 3) ∧ (atSlot u 3).heads [.a] = [head .a (some (tok 16))] ∧
       (atSlot u 3).heads [.b, .c] = [head .b none, head .c none] ∧ (atSlot u 3).node.count ≤ (7 : BitVec 16).toNat ∧
       (6 : BitVec 16).toNat < (atSlot u 3).node.count) ∧
    ((atSlot (two [eor] [] n) 3).node.count = 0) ∧
    (let u := two [] [tok 16] { n with count := 1 }
     (atSlot u 3).heads [.b, .c] = [head .b (some (tok 16)), head .c (some (tok 16))] ∧ (atSlot u 3).node.count ≠ 0) ∧
    (let u := two [tok 16] [] { n with held := some (tok 1) }
     (atSlot u 3).node.held = some (tok 1) ∧ n.held = none ∧ f.pm = .always ∧
       (atSlot u 3).heads [.a, .b] = [head .a (some (tok 16)), head .b none]) := by
  and_intros <;> first | exact ⟨0, 0, rfl, rfl⟩ | decide +kernel

theorem test_witness_MarkerNodes :
    let f := toNext 1 .i32 0
    (let s := stageNode [(.a, [tok 3])]
     NodeTurn s (atSlot s 3) ∧ (atSlot s 3).accWaits = false ∧ (atSlot s 3).node.pend = [] ∧ (atSlot s 3).room f ∧
       f.pm = .always ∧ meets ((atSlot s 3).heads [.a]) = .data ∧ (tok 3).has 2 = true ∧
       (∀ j, j < 16 → 2 < j → (tok 3).has j = false) ∧ ((tok 3).at 2).toNat = 3 ∧ 3 < ((tok 4).at 3).toNat) ∧
    (let s := stageNode [(.a, [Token.mark Mk.eor])]
     NodeTurn s (atSlot s 3) ∧ meets ((atSlot s 3).heads [.a]) = .positional (Token.mark Mk.eor) ∧ bits f.fn 0 4 = Mk.eor ∧
       bits (toNext 2 .i32 0).fn 0 4 ≠ Mk.eor) ∧
    (let s := stageNode [(.a, [Token.mark Mk.fault])]
     NodeTurn s (atSlot s 3) ∧ meets ((atSlot s 3).heads [.a]) = .free .a (Token.mark Mk.fault)) := by
  and_intros <;> first | exact ⟨0, 0, rfl, rfl⟩ | decide +kernel

theorem test_witness_ScalesAndHadamard :
    let f := toNext 4 .e4m3 6
    (let group (l : List Token) (n : Nat) : State := nodeState 3 { Node.fresh 0 with buf := List.replicate n (tok 16) } [(.a, l)] Plane.empty
     let met (s : State) : Meets := meets ((atSlot s 3).heads (withPred f [.a]))
     NodeTurn (group [tok 16] 4) (atSlot (group [tok 16] 4) 3) ∧ (atSlot (group [tok 16] 4) 3).accWaits = false ∧
       (atSlot (group [tok 16] 4) 3).room f ∧ met (group [tok 16] 4) = .data ∧ (atSlot (group [tok 16] 4) 3).node.pend = [] ∧
       (atSlot (group [tok 16] 4) 3).node.buf.length = 4 ∧ met (group [] 4) = .nothing ∧ (atSlot (group [] 3) 3).node.buf.length < 4 ∧
       met (group [Token.mark Mk.eor] 3) = .positional (Token.mark Mk.eor) ∧
       met (group [Token.mark Mk.trig] 3) = .free .a (Token.mark Mk.trig) ∧ (Token.mark Mk.trig).marker ≠ Mk.scale ∧
       (let s := nodeState 3 (Node.fresh 0) [(.a, []), (.p, [Token.mark Mk.trig])] Plane.empty
        meets ((atSlot s 3).heads (withPred { f with pm := .ifp } [.a])) = .free .p (Token.mark Mk.trig))) ∧
    (let s := nodeState 3 { Node.fresh 0 with pend := [(tok 16, tok 16)] } [(.a, [])] Plane.empty
     NodeTurn s (atSlot s 3) ∧ meets ((atSlot s 3).heads (withPred f [.a])) = .nothing ∧
       (atSlot s 3).node.pend = (tok 16, tok 16) :: []) ∧
    (let x := { Token.empty with marker := Mk.scale, payload := vput Token.empty.payload 0 0x80 }
     let s := stageNode [(.a, [x])]
     NodeTurn s (atSlot s 3) ∧ meets ((atSlot s 3).heads (withPred f [.a])) = .free .a x ∧ x.marker = Mk.scale) ∧
    (let s := stageNode [(.a, [Token.mark Mk.eot])]
     meets ((atSlot s 3).heads (withPred f [.a])) = .positional (Token.mark Mk.eot)) ∧
    (let s := stageNode [(.a, [tok 16])]
     NodeData s (atSlot s 3) (toNext 0x38 .f32 0) [.a] ∧ (atSlot s 3).room (toNext 0x38 .f32 0)) := by
  and_intros <;> first | exact ⟨0, 0, rfl, rfl⟩ | decide +kernel

/-- A translated address in page 1. -/
def at1 (key : Nat) : Phys := { key, leaf := Leaf.make 0 3 false false 1 false 1 0b1111 }

theorem test_witness_NodeAccesses :
    let f := toNone 0 .i32 0
    let s := memNode [(.a, [one 0x10040]), (.b, [one 7]), (.c, [one 9])]
    let a := atSlot s 256
    (MemTurn s a f [.a] ∧ onlyLane (a.live f [.a]) 0 ∧ lowestLane (a.live f [.a]) 0 ∧ MemTurn s a f [.a, .b] ∧
      onlyLane (a.live f [.a, .b]) 0 ∧ MemTurn s a f [.a, .b, .c] ∧ onlyLane (a.live f [.a, .b, .c]) 0 ∧
      0x10040 < 2 ^ 52 ∧ a.reaches s 0x10040 .read (at1 0x10040) ∧ a.reaches s 0x10040 .write (at1 0x10040) ∧
      a.reaches s 0x10040 .atomic (at1 0x10040) ∧ a.hit 0x10040 (wholeCells (leBytes 4 7)) .write = false ∧
      a.hit 0x10040 (readCells 4) .atomic = false ∧
      a.base f + ((a.at f [.a] .a).at 0).toNat = 0x10040) ∧
    (0x10040 % spanBytes .i32 = 0 ∧ (∃ j, j < 16 ∧ (Machine.predOk f (a.at f [.a, .b] .p) j && (a.at f [.a, .b] .a).has j &&
        (a.at f [.a, .b] .b).has j) = true) ∧
      a.hit 0x10040 (spanCells .i32 (fun j => (a.at f [.a, .b] .b).has j) fun j => (a.at f [.a, .b] .b).at j) .write = false ∧
      a.reaches s (0x10040 / 64 * 64) .read (at1 0x10040)) := by
  and_intros <;> first | exact ⟨0, 0, rfl, rfl⟩ | exact ⟨0, by decide, by decide⟩ | rfl | decide +kernel

/-- A token on its way out of a memory node. -/
def flight (waiting : BitVec 16) (got : Option (List Byte × BitVec 16)) (fault : Option NodeFault) : Flight :=
  { id := 1, tok := tok 16, src := tok 16, srcB := Token.empty, srcC := Token.empty, live := 0xFFFF, lane := 16, waiting
    hold := none, got, fault }

theorem test_witness_FlightsLeave :
    let f := toNone 0 .i32 0
    let bad : NodeFault := { cause := .align, addr := 0x10001, aux := 0, pos := 0, after := none }
    let leaves (c : Flight) : State := nodeState 256 { Node.fresh 0 with fly := [c] } [] Plane.empty
    (let s := leaves (flight 0 none none)
     NodeTurn s (atSlot s 256) ∧ (atSlot s 256).node.cur = none ∧ (atSlot s 256).room f ∧
       (atSlot s 256).node.fly = [flight 0 none none]) ∧
    (NodeTurn (leaves (flight 0 none (some bad))) (atSlot (leaves (flight 0 none (some bad))) 256) ∧
      (flight 0 none (some bad)).tok.marker = Mk.data ∧ bad.after = none) ∧
    (flight 0 (some (leBytes 8 1, 0)) none).got = some (leBytes 8 1, 0) ∧
    (let s := memNode [(.a, [one 0x10001]), (.b, [one 7])]
     MemTurn s (atSlot s 256) f [.a] ∧ MemTurn s (atSlot s 256) f [.a, .b] ∧
       lowestLane ((atSlot s 256).live f [.a]) 0 ∧ 0x10001 % elemBytes .i32 ≠ 0) ∧
    (let s := { memNode [(.a, [one 0x20000]), (.b, [one 7])] with
       tlbs := [(reqMsq 0 0, [{ ctx := 0, page := 2, leaf := 0, bad := some .page }])] }
     MemTurn s (atSlot s 256) f [.a] ∧ MemTurn s (atSlot s 256) f [.a, .b] ∧ lowestLane ((atSlot s 256).live f [.a]) 0 ∧
       0x20000 % elemBytes .i32 = 0 ∧ s.translate (atSlot s 256).req 0 0 (atSlot s 256).ctx 0x20000 .read = .fault .page ∧
       s.translate (atSlot s 256).req 0 0 (atSlot s 256).ctx 0x20000 .write = .fault .page) ∧
    (let s := memNode [(.a, [one 0x20000])]
     NodeData s (atSlot s 256) f [.a] ∧ (atSlot s 256).node.fly = [] ∧ (atSlot s 256).live f [.a] 0 = true ∧
       s.translate (atSlot s 256).req 0 0 (atSlot s 256).ctx 0x20000 .read = .miss) ∧
    (let s := memNode [(.a, [one 1])]
     MemTurn s (atSlot s 256) (toNone 0x19 .b32 0) [.a] ∧ (atSlot s 256).busy s false = false ∧
       lowestLane ((atSlot s 256).live (toNone 0x19 .b32 0) [.a]) 0 ∧ bitAt (toNone 0x19 .b32 0).fn 2 = false ∧
       bits (toNone 0x19 .b32 0).fn 0 2 ≠ 2) ∧
    (let e : RtEntry := { key := 5, v := 1, old := none, pos := 0, rid := 0 }
     let s := nodeState 256 { Node.fresh 0 with tab := [e] } [(.a, [one 5]), (.b, [one 7])] Plane.empty
     NodeData s (atSlot s 256) f [.a, .b] ∧ onlyLane ((atSlot s 256).live f [.a, .b]) 0 ∧
       (atSlot s 256).node.tab = [e] ∧ e.key = ((atSlot s 256).at f [.a, .b] .a).at 0 ∧ (Node.fresh 0).tab = [] ∧
       MemTurn s (atSlot s 256) (toNone 4 .i32 0) [.a, .b]) := by
  and_intros <;> first | exact ⟨0, 0, rfl, rfl⟩ | decide +kernel

/-- A stage word of stride 1 whose mask has the entries I and I, the last of its chain. -/
def stageWord : Word := 0x200004100

/-- The binding of one column of BA0 to plane 0's chain, whose job has number 1. -/
def bind0 : BaBind :=
  { w1 := 0, w2 := 0, c0 := 0, n := 1, g := 1, spill := none, z := 0, both := false, sfl := false, rfl := false, job := 1
    plane := 0, scope := .rgn }

/-- Region 0 with an array in place of BA0. -/
def withArray (s : State) (b : BArray) : State :=
  s.setRegion 0 { s.region 0 with
    arrays := vput (s.region 0).arrays 0 b, jobs := [(0, { job (.bchn .ba0) 1 with started := true })] }

theorem test_witness_ArrayRegisters :
    let p : Phys := { key := 0x10000, leaf := Leaf.make 0 3 false false 1 false 1 0b1111 }
    let s := priv0 [(1, stageWord), (2, 0x10000), (3, 5), (4, 3), (5, 256)]
    (Issues s 0 [1, 2] ∧ s.planeOf 0 = some 0 ∧ Stage.legal ((s.seq 0).read 1) = true ∧
      Stage.legal ((s.seq 0).read 3) = false ∧ EStat.inh (s.seq 0).estat = false ∧ (s.seq 0).priv = true) ∧
    ((s.arr 0 0).stopped = false ∧ (s.arr 0 0).bind = none ∧ ArrSel.list .ba0 = [0] ∧ ((s.seq 0).read 3).toNat < 64 ∧
      ((s.seq 0).read 2).toNat % 64 = 0 ∧ (s.seq 0).rangeAt 0 = 0 ∧ s.storesHeld 0 < 16 ∧
      s.reach 0 (reqLoad 0) (BitVec.ofNat 64 (((s.seq 0).read 2).toNat + 64 * 0)) 64 .write = .to p ∧
      ((withSeq s 0 fun v => v.setWait (.range v.ip 63)).seq 0).rangeAt 0 = 63) ∧
    (let u := user0 [(4, 3), (5, 256)]
     Issues u 0 [4, 5] ∧ u.planeOf 0 = some 0 ∧ (u.seq 0).priv = false ∧ EStat.inh (u.seq 0).estat = false) ∧
    (((s.seq 0).read 4).toNat ≤ 65535 ∧ 256 ≤ ((s.seq 0).read 5).toNat ∧ (s.region 0).held = false) ∧
    (Issues s 0 [9, 2, 5] ∧ (s.region 0).freeEntry = some 0 ∧ ((s.seq 0).read 5).toNat % 64 = 0 ∧
      64 * (0 : BitVec 10).toNat + ((s.seq 0).read 5).toNat ≤ 65536 ∧ 0 < ((s.seq 0).read 5).toNat ∧
      (s.seq 0).regBusy false 2 = false) ∧
    (let u := withPlane s fun pl => { pl with h := vput pl.h 1 stageWord }
     chainFits (u.arr 0 0) 0 [stageWord] = true ∧ buildChain (u.plane 0).h 65 1 0 = some [stageWord] ∧
       Stage.unit stageWord = false) := by
  and_intros <;> decide +kernel

theorem test_witness_ArrayImages :
    let p : Phys := { key := 0x10000, leaf := Leaf.make 0 3 false false 1 false 1 0b1111 }
    let s := user0 [(1, 0x10000)]
    let line (b : BArray) (i : Nat) : State :=
      withSeq (withArray s { b with draining := true, drained := true }) 0 fun v => v.setWait (.range v.ip i)
    let dirty : BArray := { BArray.empty with cols := [(0, { Column.empty with dirtyAcc := 1 })] }
    let back (i : Nat) (bs : List Byte) : Seq :=
      (withSeq s 0 fun v => v.setWait (.event v.ip 0 1 (some (i, 0)) (some (bs, none)))).seq 0
    (Issues s 0 [1] ∧ s.planeOf 0 = some 0 ∧ (s.seq 0).stage = .fresh ∧ ((s.seq 0).read 1).toNat % 4096 = 0 ∧
      (s.arr 0 0).stopped = false ∧ (s.arr 0 0).draining = false ∧ (s.arr 0 0).bind = none ∧ bind0.both = false ∧
      ((withArray s { BArray.empty with bind := some bind0 }).arr 0 0).bind = some bind0) ∧
    ((line BArray.empty 0).storesHeld 0 < 16 ∧ ((line BArray.empty 0).arr 0 0).drained = true ∧
      ((line BArray.empty 0).seq 0).rangeAt 0 = 0 ∧ ((line BArray.empty 8255).seq 0).rangeAt 0 = 8255 ∧
      ((line BArray.empty 8255).seq 0).stage = .fresh ∧
      (line BArray.empty 0).reach 0 (reqLoad 0) (BitVec.ofNat 64 (((s.seq 0).read 1).toNat + 64 * 0)) 64 .write = .to p ∧
      bitAt (((line dirty 64).arr 0 0).col 0).dirtyAcc 0 = true ∧ bitAt (((line dirty 65).arr 0 0).col 0).dirtyAcc 1 = false) ∧
    ((s.seq 0).rangeAt 0 = 0 ∧ ((withArray s { BArray.empty with stopped := true }).arr 0 0).stopped = true ∧
      s.reach 0 (reqLoad 0) (BitVec.ofNat 64 (((s.seq 0).read 1).toNat + 64 * 0)) 64 .read = .to p) ∧
    ((back 64 (leBytes 64 5)).stage = .back 0 (leBytes 64 5) none (some (64, 0)) ∧
      s.reach 0 (reqLoad 0) (BitVec.ofNat 64 (((s.seq 0).read 1).toNat + 64 * 65)) 64 .read = .to { p with key := 0x11040 } ∧
      (back 8255 []).stage = .back 0 [] none (some (8255, 0)) ∧ (s.region 0).jobs.length ≤ 16 ∧
      (back 0 (leBytes 64 5)).stage = .back 0 (leBytes 64 5) none (some (0, 0)) ∧ (leBytes 64 5).length = 64 ∧
      leNat (((leBytes 64 5).drop 24).take 8) / 2 ^ 59 % 2 = 0 ∧ leNat (((leBytes 64 5).drop 16).take 8) = 0 ∧
      leNat (((leBytes 64 (5 * 2 ^ 128)).drop 16).take 8) ≠ 0 ∧
      s.reach 0 (reqLoad 0) (BitVec.ofNat 64 (((s.seq 0).read 1).toNat + 64)) 64 .read = .to { p with key := 0x10040 }) := by
  and_intros <;> first | exact ⟨0, 0, rfl, rfl⟩ | decide +kernel

theorem test_witness_ArrayImagesAndPorts :
    let f (fn : BitVec 6) : Fields := { toNone fn .f32 0 with tga := .port 0x10, dpa := 2 }
    let u := withArray (nodeState 3 (Node.fresh 0) [(.a, [tok 16]), (.b, [tok 15])] Plane.empty)
      { BArray.empty with bind := some bind0, cols := [(0, { Column.empty with word := stageWord })] }
    let port (l : List OutTok) (m : Nat) : State :=
      withArray (stageNode []) { BArray.empty with bind := some bind0, outq := l, groupOut := m }
    let o (t : Token) : OutTok := { tok := t, sums := Vector.replicate 16 { v := .nan, mixed := false } }
    (bind0.plane = (atSlot u 3).plane % 4 ∧ (atSlot u 3).node.turn = false ∧ (u.arr 0 0).bind = some bind0 ∧
      (u.arr 0 0).eotIn = false ∧ (u.arr 0 0).stopped = false ∧ (u.arr 0 0).draining = false ∧
      (∀ x ∈ (u.arr 0 0).inq, x.marker ≠ Mk.eot ∧ x.marker ≠ Mk.cfg) ∧
      (∀ x ∈ ((u.arr 0 0).col bind0.c0).inq, x.marker ≠ Mk.cfg) ∧ (vget (u.region 0).limits 8 Limiter.empty).a = 0) ∧
    ((atSlot u 3).room (f 0) ∧ (f 0).tga = .port (BitVec.ofNat 7 (0x10 + 0)) ∧ NodeData u (atSlot u 3) (f 0) [.a] ∧
      (u.arr 0 0).inq.length + 1 ≤ max (slotsOfCode (f 0).dpa) 1) ∧
    ((atSlot u 3).room (f 1) ∧ (f 1).fn ≠ 0 ∧ NodeData u (atSlot u 3) (f 1) [.a, .b] ∧
      (u.arr 0 0).inq.length + 2 ≤ max (slotsOfCode (f 1).dpa) 2) ∧
    (let s := port [o (tok 16), o (Token.mark Mk.eor)] 1
     NodeTurn s (atSlot s 3) ∧ (atSlot s 3).node.ended = false ∧ (s.arr 0 0).outq = o (tok 16) :: [o (Token.mark Mk.eor)] ∧
       portGroup (s.arr 0 0) (s.arr 0 0).groupOut = some (2 * 1 * bind0.g) ∧ 0 < bind0.g ∧
       (∀ (i : Nat) (x : OutTok), [o (Token.mark Mk.eor)][i]? = some x → x.tok.marker = Mk.drain →
         ∃ (j : Nat) (y : OutTok), j < i ∧ [o (Token.mark Mk.eor)][j]? = some y ∧ y.tok.marker ≠ Mk.data) ∧
       1 ≤ (s.arr 0 0).groupOut / bind0.g ∧ (port [o (tok 16)] 0 |>.arr 0 0).groupOut / bind0.g < 1) ∧
    (let s := port [o (tok 16), o (Token.mark Mk.drain)] 0
     NodeTurn s (atSlot s 3) ∧ (s.arr 0 0).bind = some bind0 ∧ (s.arr 0 0).outq = [o (tok 16)] ++ o (Token.mark Mk.drain) :: [] ∧
       bits (toNone 8 .f32 0).fn 3 2 ≠ 0 ∧ (∀ x ∈ [o (tok 16)], x.tok.marker = Mk.data) ∧ (s.arr 0 0).draining = false ∧
       (atSlot s 3).node.passed = false) := by
  and_intros <;> first | (intro i x h hd; rcases i with _ | i <;> simp at h; subst h; exact absurd hd (by decide)) | exact ⟨0, 0, rfl, rfl⟩ | decide +kernel

theorem test_witness_ColumnsFire :
    let c : Column := { Column.empty with word := stageWord }
    let s (b : BArray) : State := withArray State.reset b
    let b : BArray := { BArray.empty with bind := some bind0 }
    (let u := s { b with cols := [(0, { c with inq := [tok 16] })] }
     (u.arr 0 0).bind = some bind0 ∧ (u.arr 0 0).stopped = false ∧ (u.plane (planeKey 0 0)).atRest = false ∧
       (u.chainJob 0 bind0).isSome ∧ ((u.arr 0 0).col 0).inq = tok 16 :: [] ∧ ((u.arr 0 0).col 0).marks = [] ∧
       Stage.unit ((u.arr 0 0).col 0).word = false ∧ ((u.arr 0 0).col 0).sent = ((u.arr 0 0).col 0).recv ∧
       (tok 16).marker = Mk.data ∧ (u.arr 0 0).outq.length < 2 ∧ ((u.arr 0 0).col 1).inq.length < 2) ∧
    (let u := s { b with cols := [(0, { c with inq := [tok 16], recv := 1, pairs := [(0, tok 16)] })] }
     ((u.arr 0 0).col 0).sent < ((u.arr 0 0).col 0).recv ∧ 0 + 1 = bind0.c0 + bind0.n ∧
       Tab.find? ((u.arr 0 0).col 0).pairs ((u.arr 0 0).col 0).sent = some (tok 16)) ∧
    (let u := s { b with eotIn := true, eotOut := true }
     (u.arr 0 0).bind = some bind0 ∧ bind0.both = false ∧ (u.arr 0 0).eotOut = true ∧ (u.arr 0 0).eotIn = true ∧
       (u.chainJob 0 bind0) = some (0, { job (.bchn .ba0) 1 with started := true }) ∧ u.jobReleased 0 0 .rgn = true) ∧
    (let t : OutTok := { tok := Token.mark Mk.drain, sums := Vector.replicate 16 { v := .nan, mixed := false } }
     let u := s { b with draining := true, outq := [t] }
     (u.arr 0 0).outq = [] ++ t :: [] ∧ t.tok.marker = Mk.drain ∧ (u.arr 0 0).draining = true ∧
       (u.plane (planeKey 0 bind0.plane)).hasBfout 0 = false ∧
       (let d : OutTok := { t with tok := tok 16 }
        d.tok.marker = Mk.data ∧ ({ Plane.empty with nodes := [(3, Node.fresh (0xA1 <<< 56 ||| 8 <<< 50))] }).halvesAt 0 = true ∧
          ({ Plane.empty with nodes := [(3, Node.fresh (0xA1 <<< 56 ||| 8 <<< 50))] }).hasBfout 0 = true)) := by
  and_intros <;> decide +kernel

/-- A plane whose first steering group is g, with an `sroute` of operator 0. -/
def steered0 (g : StGroup) (reports : List StReport) : Plane :=
  { Plane.empty with groups := vput Plane.empty.groups 0 g, nodes := [(3, Node.fresh 0xB000000000000000)], reports }

theorem test_witness_SteeringAndRouter :
    let p : Phys := { key := 0x10000, leaf := Leaf.make 0 3 false false 1 false 1 0b1111 }
    let x : StRec := { value := 7, pips := 0, branch := none, entry := { node := 3, bpc := 0, pos := 0 }, rid := 0 }
    let costs : List Byte := [1, 0, 1, 0, 1, 0, 1, 0, 1, 0, 1, 0, 1, 0, 1, 0]
    let report (op : Nat) : StReport :=
      { group := 0, op, kind := 0, tok := one 7, keep := 1, slot := 3, entry := { node := 3, bpc := 0, pos := 0 }, branch := none, count := 0 }
    let s := turnOf 0 (seqAt 0 false [(1, 0x10000), (2, 0x20001), (3, 0x300020001)]) ctx0 (steered0 StGroup.empty [])
    (Issues s 0 [9, 1, 2] ∧ s.planeOf 0 = some 0 ∧ (s.seq 0).stage = .fresh ∧ ((s.plane 0).group 0).ended = true ∧
      ((s.seq 0).read 1).toNat % 16 = 0 ∧ s.reach 0 (reqLoad 0) ((s.seq 0).read 1) 16 .read = .to p ∧
      steerOk 0xFF costs = true ∧ steerOk 0xFF [] = false ∧ EStat.inh (s.seq 0).estat = false ∧
      ((withSeq s 0 fun v => v.setWait (.event v.ip 8 1 none (some (costs, none)))).seq 0).stage =
        .back 8 costs none none) ∧
    (let y := (s.seq 0).read 2
     1 ≤ (bits y 16 16).toNat ∧ (bits y 16 16).toNat < ((s.plane 0).group 0).w ∧
       (bits y 0 16).toNat ≤ (bits y 16 16).toNat ∧ (bits ((s.seq 0).read 1) 16 16).toNat ≠ 0 ∧ (bits (1 : Word) 16 16).toNat = 0) ∧
    (let y := (s.seq 0).read 3
     bits y 48 16 = 0 ∧ (bits y 0 16).toNat ≤ (bits y 16 16).toNat ∧ (bits y 16 16).toNat ≤ (bits y 32 16).toNat) ∧
    (let pl := steered0 { StGroup.empty with batch := true, queue := [x], ended := false } []
     (pl.group 0).queue = x :: [] ∧ (pl.group 0).draining = false ∧ (pl.group 0).outSum = 0 ∧
       (pl.group 0).pick x.pips = some 0 ∧ pl.hasOperator 0 0 = true ∧ pl.stopped = false) ∧
    (let pl := steered0 { StGroup.empty with out := vput StGroup.empty.out 0 1 } [report 0]
     pl.reports = report 0 :: [] ∧ onlyLane (report 0).tok.has 0 ∧ vget (pl.group 0).out 0 0 ≠ 0 ∧
       vget (pl.group 0).out 1 0 = 0 ∧ ([(0, ⟨3, 5, 0⟩)] : List (Nat × Entry)).find? (fun e => e.1 = vget (report 0).tok.rids 0 0) =
         some (0, ⟨3, 5, 0⟩)) ∧
    (s.seq 0).read 2 ≠ 0 ∧ ((s.seq 0).read 2).toNat % 16 ≠ 0 ∧ bits ((5 : Word) <<< 48) 48 16 ≠ 0 ∧
    (let pl := steered0 { StGroup.empty with ended := false, entEot := true } []
     (pl.group 0).draining = false ∧ pl.groupOver 0 = true) := by
  and_intros <;> decide +kernel

theorem test_witness_SteeringAndRecordNodes :
    let f := toNext 0 .i32 0
    let x : StRec := { value := 7, pips := 0xFF, branch := none, entry := { node := 3, bpc := 0, pos := 0 }, rid := 0 }
    (let s := stageNode [(.a, [tok 15]), (.b, [tok 15])]
     (atSlot s 3).room f ∧ f.pm = .always ∧ NodeData s (atSlot s 3) f [.a] ∧ NodeData s (atSlot s 3) f [.a, .b] ∧
       (atSlot s 3).pl.admits 0 = true ∧ ((atSlot s 3).pl.group 0).closing = false ∧ (atSlot s 3).pl.reportRoom 3 2 = true ∧ (toNext 1 .i32 0).fn = 1 ∧
       (atSlot s 3).node.buf = []) ∧
    (let g : StGroup := { StGroup.empty with routed := [(0, [tok 16])], done := [x] }
     let s := nodeState 3 (Node.fresh 0) [] (steered0 g [])
     NodeTurn s (atSlot s 3) ∧ (atSlot s 3).node.ended = false ∧ Tab.getD ((atSlot s 3).pl.group 0).routed 0 [] = tok 16 :: [] ∧
       (tok 16).marker = Mk.data ∧ ((atSlot s 3).pl.group 0).outMarks = [] ∧ ((atSlot s 3).pl.group 0).draining = false ∧
       ((atSlot s 3).pl.group 0).done ≠ []) ∧
    (let s := stageNode [(.a, [one 0])]
     NodeData s (atSlot s 3) f [.a] ∧ s.ctx? (atSlot s 3).ctx = some ctx0 ∧ (one 0).has 0 = true ∧
       NodeData (stageNode [(.a, [one 0]), (.b, [one 7])]) (atSlot (stageNode [(.a, [one 0]), (.b, [one 7])]) 3) f [.a, .b] ∧
       0 < ctx0.nbr ∧ (ctx0.branch 0).st = 1 ∧ (ctx0.branch 7).st = 0 ∧ 2 ∈ ctxTree.marked ∧ (ctxTree.branch 2).st = 2 ∧
       (let pl := { Plane.empty with
          nodes := [(3, Node.fresh 0xC000000000000000), (4, Node.fresh 0xB000000000000004)]
          links := [{ src := 4, out := 0, dst := 3, opd := .a, cap := 2, toks := [], sticky := false, era := 0, renew := none }] }
        (pl.within 0 3 [(3, false)]).head? = some (0, 1, false)) ∧
       ((one 0).marker = Mk.data ∧ ((List.range 16).filter fun k => (one 0).has k) = [0])) ∧
    ((List.range 16).filter fun k => (tok 16).has k).length = 16 := by
  and_intros <;> first | exact ⟨0, 0, rfl, rfl⟩ | decide +kernel

theorem test_witness_SetAndJoinNodes :
    let f := toNext 0 .i32 0
    (let s (x y : Lane) : State := nodeState 3 { Node.fresh 0 with fibres := { Fibres.empty with finished := 0xFFFE } }
       [(.a, [one x]), (.b, [one y])] Plane.empty
     let toks (o : Slot) : Option (List Token) := (inLink (atSlot (s 1 2) 3).pl (atSlot (s 1 2) 3).node 3 o).map Link.toks
     NodeTurn (s 1 2) (atSlot (s 1 2) 3) ∧ (atSlot (s 1 2) 3).room f ∧ toks .a = some [one 1] ∧ toks .b = some [one 2] ∧
       vget (atSlot (s 1 2) 3).node.fibres.takenA 0 0 = 0 ∧ vget (atSlot (s 1 2) 3).node.fibres.passedA 0 0 = 0 ∧
       (one 1).marker = Mk.data ∧ (one 1).valid = 1 ∧ (atSlot (s 1 2) 3).node.fibres.finished = 0xFFFE ∧
       ((one 1).at 0).toInt < ((one 2).at 0).toInt ∧ (one 2).at 0 = (one 2).at 0) ∧
    (let e : JoinEntry := { left := false, key := 5, payload := 9, stamp := 1, pips := 0 }
     let p := vput Plane.empty.g 0 (pat 16)
     let c := { chain0 with cur := { chain0.cur with snap := { chain0.cur.snap with pats := p } } }
     let s := nodeState 3 { Node.fresh 0 with count := 1, join := [e] } [(.a, [one 0x50007]), (.b, [])]
       { Plane.empty with chain := some c }
     NodeTurn s (atSlot s 3) ∧ (atSlot s 3).node.pend = [] ∧
       (atSlot s 3).heads [.a, .b] =
         [{ slot := .a, sticky := false, tok := some (one 0x50007) }, { slot := .b, sticky := false, tok := none }] ∧
       (one 0x50007).marker = Mk.data ∧ (one 0x50007).valid = 1 ∧ (atSlot s 3).node.count ≠ 0 ∧
       (atSlot s 3).node.limit = 0 ∧ (atSlot s 3).node.spoiled = false ∧ ((atSlot s 3).node.join.filter fun e => e.left).length < ((atSlot s 3).joinPat f).cnt0 ∧
       (let ms := (atSlot s 3).node.join.filter fun z => !z.left && z.key == bits ((one 0x50007).at 0) 16 16
        ms.length ≤ 16 ∧ ms ≠ []) ∧
       (stageNode []).plane 0 ≠ s.plane 0 ∧ ((atSlot (stageNode []) 3).joinPat f).cnt0 ≤ 65536) := by
  and_intros <;> first | exact ⟨0, 0, rfl, rfl⟩ | decide +kernel

theorem test_witness_Encodings :
    WellFormed (.add 3 1 2) = true ∧ encodeSeq (.add 3 1 2) = some (0x01184400, none) ∧
      WellFormed (.bcc .eq 4 1 2) = true ∧ (encodeSeq (.bcc .eq 4 1 2)).isSome ∧
      (let f := fld 0x20 .i32 (.operand 5 .a) .absent 2 0 .always 0x64
       WellFormed (.fabAdd f) = true ∧ (Instr.fabAdd f).fabric? = some (4 * 8, f) ∧
         decodeFabric 0x208010A000400064 = .ok (.fabAdd f)) := by
  and_intros <;> decide

/-- The turn of sequencer 0, which fetches from page 1. -/
def turning (bs : List Byte) (ip : Word) : State :=
  { fetching bs { seqAt 0 false [] with ip } Plane.empty with agenda := [.sequencer 0] }

theorem test_witness_StepRunsDecoded :
    (let s := turning (leBytes 4 0x01184400) 0x10000
     s.agenda = .sequencer 0 :: [] ∧ s.powered = true ∧ (s.seq 0).run = .running ∧ s.seqHeld 0 = false ∧
       (s.seq 0).wait = .none ∧ s.fetchInstr 0 = .words 0x01184400 0 ∧ decodeSeq 0x01184400 0 = some (.add 3 1 2)) ∧
    (let s := turning (leBytes 4 0xFF000000) 0x10000
     s.fetchInstr 0 = .words 0xFF000000 0 ∧ decodeSeq 0xFF000000 0 = none) ∧
    (match (turning [] 0x50000).fetchInstr 0 with | .out _ => true | _ => false) = true ∧
    (let s := turning [] 0x10000000000000
     2 ^ 52 ≤ (s.seq 0).ip.toNat ∧ EStat.inh (s.seq 0).estat = false) ∧
    (let s := { nodeState 3 (Node.fresh 0x208010A000400064) [(.a, [tok 16])] Plane.empty with agenda := [.node 0 0 3] }
     let f := fld 0x20 .i32 (.operand 5 .a) .absent 2 0 .always 0x64
     s.agenda = .node 0 0 3 :: [] ∧ s.powered = true ∧
       (Tab.find? (s.plane (planeKey 0 0)).nodes 3).map (fun n => n.word) = some 0x208010A000400064 ∧
       decodeFabric 0x208010A000400064 = .ok (.fabAdd f) ∧
       (match exec (.fabAdd f) s with | .next t => t.zeroSlots 0 0 3 == [] | _ => false) = true ∧ s.outTurned 0 0 3 = false ∧
       (Node.fresh 0x208010A000400064).config = none ∧
       { Node.fresh 0x208010A000400064 with config := some 0 }.config = some 0 ∧
       { Node.fresh 0x208010A000400064 with config := some 0 }.underWay = false) ∧
    (let s := withSeq (turning [] 0x1000) 0 fun v => v.setWait (.event v.ip 4 7 none none)
     (s.seq 0).run = .running ∧ s.seqHeld 0 = false ∧ (s.seq 0).wait = .event (s.seq 0).ip 4 7 none none ∧
       s.eventDone 0 7 = true ∧ s.waitReads 0 = false) ∧
    (let s : State := { turning [] 0x10000 with agenda := [.prefetch 0 0x10000, .elapse 5] }
     s.agenda = .prefetch 0 0x10000 :: [.elapse 5] ∧ (s.seq 0).run = .running ∧ s.powered = true ∧ s.seqHeld 0 = false ∧
       { s with agenda := s.agenda.drop 1 }.agenda = .elapse 5 :: []) ∧
    (encode (.energyWindow 0) = [] ∧ encode .powerOff = [] ∧ State.reset.powered = true ∧ State.reset.isDue .powerOff = true ∧
      { State.reset with cycle := 2000 }.isDue (.energyWindow 0) = true ∧ (fairTurns 0 0 0).contains (.sequencer 0) = true ∧
      (match exec (.energyWindow 0) State.reset with | .next _ => true | _ => false) = true) := by
  and_intros <;> decide +kernel

theorem test_witness_MemoryKeepsForm :
    State.reset.mem.wf = true ∧ (Memory.reset.poke 0 [(0x10000, 1)]).wf = true ∧
      (match step { State.reset with agenda := [.happening (.energyWindow 0)] } with | .next _ => true | _ => false) = true := by
  and_intros <;> decide +kernel

/-- An image of plane 0 of context 0. -/
def image1 : SavedImage :=
  { uid := 0, imgid := 1, baseid := 0, ctx := 0, key := 0, plane := 0, slot := 0, frozen := false, inc := false
    seals := List.replicate 322 1, region := 0, fpc := 0, ctxres := 0, pl := { Plane.empty with ctx := some 0 }, agent := AgentSt.empty, sides := []
    jobs := [], arrays := [], seq := none }

theorem test_witness_Images :
    let p : Phys := { key := 0x10000, leaf := Leaf.make 0 3 false false 1 false 1 0b1111 }
    let s := priv0 [(1, 0x10000), (2, 0), (3, 0x10001), (4, 0x100)]
    let resting (w : Wait) : State :=
      withPlane (withSeq s 0 fun v => v.setWait w) fun pl => { pl with saver := some 0, atRest := true }
    (IssuesPriv s 0 [9, 1, 2] ∧ EStat.inh (s.seq 0).estat = false ∧ imageWordOk 0 ((s.seq 0).read 2) = true ∧
      (s.plane 0).ctx = some 0 ∧ s.ctx? 0 = some ctx0 ∧ ((s.seq 0).read 3).toNat % 4096 ≠ 0 ∧
      (s.plane (planeKey 0 (imagePlane ((s.seq 0).read 4)))).ctx = none) ∧
    ((resting .none).bringToRest 0 0 0 = (resting .none, true) ∧ Tab.find? (resting .none).imaging 0 = none ∧
      (let c := { ctx0 with slots := [(0, { imgid := 1, addr := 0x10000 })] }
       let u := { (resting .none).setCtx 0 c with saved := [image1] }
       (Tab.find? c.slots 0).map (fun z => z.addr) = some 0x10000 ∧ u.savedOf c.uid 1 0 = some image1 ∧
         u.sectorDirty 0 0 0 1 0 = false ∧
         (withPlane u fun pl => { pl with dirty := 1 }).sectorDirty 0 0 0 1 0 = true)) ∧
    (let u := { resting (.range 0x1000 20864) with imaging := [(0, image1)] }
     u.bringToRest 0 0 0 = (u, true) ∧ (Tab.find? u.imaging 0).filter (fun y => y.uid = ctx0.uid && y.imgid = (u.seq 0).rangeAt 0 / 20864) =
       some image1 ∧ 20864 % 20864 < 20863 ∧ image1.writes 0 = true ∧ u.storesHeld 0 < 16 ∧
       u.reach 0 (reqLoad 0) (BitVec.ofNat 64 (0x10000 + 64 * 0)) 64 .write = .to p ∧
       { image1 with seals := [] }.writes 256 = false) ∧
    (let u := { resting (.range 0x1000 41727) with
        imaging := [(0, image1)]
        tlbs := [(reqLoad 0, [{ ctx := 0, page := 21, leaf := Leaf.make 0 3 false false 1 false 1 0b1111, bad := none }])] }
     (u.seq 0).rangeAt 0 % 20864 = 20863 ∧ (u.seq 0).rangeAt 0 / 20864 = 1 ∧ u.bringToRest 0 0 0 = (u, true) ∧
       image1.ctx = 0 ∧ image1.region = 0 ∧ image1.plane = 0 ∧
       u.reach 0 (reqLoad 0) (BitVec.ofNat 64 (0x10000 + 64 * 20863)) 64 .write =
         .to { p with key := 0x10000 + (0x10000 + 64 * 20863) % 65536 }) ∧
    ((s.seq 0).wait = .none ∧ s.reach 0 (reqLoad 0) (BitVec.ofNat 64 0x10000) 64 .read = .to p) ∧
    (let bs := List.replicate 64 (0 : Byte)
     let u := withSeq s 0 fun v => v.setWait (.event v.ip 0 1 (some (20863, 1)) (some (bs, none)))
     (u.seq 0).stage = .back 0 bs none (some (20863, BitVec.ofNat 64 1)) ∧
       ((withSeq s 0 fun v => v.setWait (.event v.ip 0 1 (some (20863, 0)) (some (bs, none)))).seq 0).stage =
         .back 0 bs none (some (20863, BitVec.ofNat 64 0))) ∧
    (let empty := withPlane { (user0 []).setCtx 0 { ctx0 with slots := [(0, { imgid := 1, addr := 0x10000 })] } with
        saved := [image1] } fun pl => { pl with ctx := none }
     empty.saved[1 - 1]? = some image1 ∧ empty.restBlocked 0 image1 = false ∧
       (empty.restStatus 0 0 0 0 image1 = 0 ∨ empty.restStatus 0 0 0 0 image1 = 4) ∧ s.restStatus 0 0 0 0 image1 = 2 ∧
       image1.seq = none) := by
  and_intros <;> decide +kernel

/-- A module that is up, with virtual device 0, context 0, 64 regions, 32 channels and a command at the head of its ring. -/
def command (cmd handle arg0 arg1 arg2 buf buflen : Nat) (v : Vd) : State :=
  let packet := cmd + 5 * 2 ^ 16 + handle * 2 ^ 64 + arg0 * 2 ^ 128 + arg1 * 2 ^ 192 + arg2 * 2 ^ 256 + buf * 2 ^ 320 +
    buflen * 2 ^ 384
  let policy : List (Nat × Byte) :=
    [(0, 1), (17, 7), (24, 4), (25, 4), (26, 1), (27, 1), (32, 1)].map fun e => (hostStart + 0x10000 + e.1, e.2)
  { State.reset with
    host := { State.reset.host with
      bootst := 0x80, crcfg := 0x10, crbase := 0x1000, crtail := 1, caprg0 := 0xFFFFFFFFFFFFFFFF, capch := 0xFFFFFFFF }
    vds := [(0, v)], ctxs := [(0, ctx0)]
    mem := (Memory.reset.poke 0 (keyed (hostStart + 0x1000) (leBytes 64 packet))).poke 0 policy }

/-- The packet of a command. -/
def packetOf (cmd handle arg0 arg1 arg2 buf buflen : Nat) : Packet :=
  { cmd, tag := 5, handle := BitVec.ofNat 64 handle, arg0 := BitVec.ofNat 64 arg0, arg1 := BitVec.ofNat 64 arg1
    arg2 := BitVec.ofNat 64 arg2, buf, buflen, bad := false }

theorem test_witness_CommandChecks :
    let at4 := vd0
    let s (cmd handle arg0 : Nat) : State := command cmd handle arg0 0 0 0 0 at4
    ((s 3 1 0).packet = some (packetOf 3 1 0 0 0 0 0) ∧ commandCode .pause = some 3 ∧
      (packetOf 3 1 0 0 0 0 0).unusedZero = true ∧ (packetOf 3 1 7 0 0 0 0).unusedZero = false ∧
      (s 3 1 0).vdOf 9 = none ∧ (s 3 1 0).vdOf 1 = some (0, vd0) ∧ bitAt vd0.cmdmask 3 = true ∧
      bitAt { vd0 with cmdmask := 0 }.cmdmask 3 = false ∧ vd0.state ∉ allowedIn 4) ∧
    ((s 0 0 0).packet = some (packetOf 0 0 0 0 0 0 0) ∧ (s 11 0 0).packet = some (packetOf 11 0 0 0 0 0 0)) ∧
    ((s 9 1 3).packet = some (packetOf 9 1 3 0 0 0 0) ∧ (packetOf 9 1 3 0 0 0 0).unusedZero = true ∧
      (s 9 0 2).packet = some (packetOf 9 0 2 0 0 0 0) ∧ (s 9 1 0).packet = some (packetOf 9 1 0 0 0 0 0) ∧
      (s 9 1 1).packet = some (packetOf 9 1 1 0 0 0 0)) ∧
    ((command 10 1 0 0 0 0x2000 9107 vd0).packet = some (packetOf 10 1 0 0 0 0x2000 9107) ∧
      (packetOf 10 1 0 0 0 0x2000 9107).unusedZero = true ∧
      (command 10 0 0 0 0 0x2000 64 vd0).packet = some (packetOf 10 0 0 0 0 0x2000 64) ∧
      (command 10 0 0 0 0 0 9107 vd0).packet = some (packetOf 10 0 0 0 0 0 9107) ∧ 0x2000 + 9107 ≤ 2 ^ 64) := by
  and_intros <;> decide +kernel

/-- The host's memory holds a policy that passes the checks, and that only the verifier of signatures can refuse. -/
theorem test_witness_VdCreation :
    let s := command 1 0 1 4 1 0x10000 10131 vd0
    let p := packetOf 1 0 1 4 1 0x10000 10131
    let bs := s.hostBytes p.buf 10131
    let at_ (o : Nat) : Nat := ((bs[o]?).getD 0).toNat
    (s.packet = some p ∧ p.unusedZero = true ∧ p.buflen = 10131 ∧ p.buf ≠ 0 ∧ p.buf + 10131 ≤ 2 ^ 64 ∧ s.vdGen < 2 ^ 32 - 1 ∧
      (packetOf 1 0 1 4 1 0 10131).buf = 0 ∧ (packetOf 1 0 1 4 1 0x10000 64).buflen ≠ 10131) ∧
    policyOk bs = true ∧
    (p.arg0.toNat ≤ 255 ∧ Tab.find? s.vds p.arg0.toNat = none ∧ at_ 24 ≤ p.arg1.toNat ∧ p.arg1.toNat ≤ at_ 25 ∧
      p.arg1.toNat % 2 = 0 ∧ 1 ≤ p.arg2.toNat ∧ p.arg2.toNat ≤ at_ 26) ∧
    (p.arg1.toNat ≤ 2 * s.freePairs.length ∧ p.arg2.toNat ≤ s.freeChannels.length ∧ s.liveBranches < 1048576 ∧
      s.ctx? 1 = none) ∧
    (Tab.find? s.vds 0 = some vd0 ∧ vd0.state = .running ∧ vd0.ctxs.length < vd0.nctx ∧
      { s with ctxs := [] }.rangesClash vd0 (Ctx.created s.nextId 0 vd0) = false ∧
      { vd0 with nctx := 1 }.nctx ≤ vd0.ctxs.length) := by
  and_intros <;> decide +kernel

theorem test_witness_VdStops :
    let down (s : State) : State := (s.setCtx 0 { ctx0 with state := .suspended }).setPlane 0
      { Plane.empty with ctx := some 0, frozen := .pause }
    let on (c : Nat) (v : Vd) : Bool :=
      let s := command c 1 0 0 0 0 0 v
      s.packet == some (packetOf c 1 0 0 0 0 0) && s.vdOf 1 == some (0, v) && bitAt v.cmdmask c && (allowedIn c).contains v.state
    (packetOf 3 1 0 0 0 0 0).unusedZero = true ∧ on 3 vd0 = true ∧ on 4 { vd0 with state := .paused } = true ∧ on 2 vd0 = true ∧
      (down (command 3 1 0 0 0 0 0 vd0)).suspended vd0 = true ∧ (command 3 1 0 0 0 0 0 vd0).suspended vd0 = false ∧
      (down (command 2 1 0 0 0 0 0 vd0)).vdPlanes vd0 = [(0, 0)] ∧ (command 2 1 0 0 0 0 0 vd0).vdPlanes vd0 = [] := by
  and_intros <;> decide +kernel

/-- Where no frame is taken and no DEV window is mapped, the first frames that are tried are free. -/
theorem takeNew_isSome (s : State) (k n : Nat) (v : Vd) (h : Tab.find? s.vds k = some v) (hf : v.frames = [])
    (hw : s.devWindows = []) (hc : (v.channels.flatMap fun c => (List.range (2 ^ 15 / n)).map fun j =>
      channelFrame c (3 * 2 ^ 15 + n * j)) ≠ []) : (s.takeNew k n).isSome = true := by
  have free (f : Nat) : s.frameFree v f = true := by simp [State.frameFree, hf, hw]
  unfold State.takeNew
  rw [h]
  simp only [free]
  generalize hl : (v.channels.flatMap fun c => (List.range (2 ^ 15 / n)).map fun j => channelFrame c (3 * 2 ^ 15 + n * j)) = l
  rw [hl] at hc
  generalize Config.freeIndex s.frees % l.length = i
  have : l.drop i ++ l.take i ≠ [] := by
    intro e
    have := congrArg List.length e
    simp only [List.length_append, List.length_drop, List.length_take, List.length_nil] at this
    exact hc (List.length_eq_zero_iff.mp (by omega))
  obtain ⟨a, m, e⟩ := List.exists_cons_of_ne_nil this
  rw [e]
  simp

theorem takeNew_none (s : State) (k n : Nat) (v : Vd) (h : Tab.find? s.vds k = some v) (hc : v.channels = []) :
    s.takeNew k n = none := by
  simp [State.takeNew, h, hc]

theorem test_witness_VdMoves :
    let paused : Vd := { vd0 with state := .paused, cmdmask := 0xFFF }
    let on (c a0 a1 : Nat) (v : Vd) : Bool :=
      let s := command c 1 a0 a1 0 0 0 v
      s.packet == some (packetOf c 1 a0 a1 0 0 0) && s.vdOf 1 == some (0, v) && bitAt v.cmdmask c && (allowedIn c).contains v.state
    (on 5 0 0 vd0 = true ∧ on 5 0 0 paused = true ∧ on 5 0 0 { paused with leaving := [0] } = true) ∧
    (let v : Vd := { paused with leaving := [0], reserve := [98304] }
     let s := (((command 5 1 0 0 0 0 0 v).setCtx 0 { ctx0 with state := .suspended }).setPlane 0
       { Plane.empty with ctx := some 0, frozen := .pause, saver := some 1000, atRest := true })
     s.suspended v = true ∧ s.vdPlanes v = (0, 0) :: [] ∧ s.bringToRest 1000 0 0 = (s, true) ∧
       (s.plane (planeKey 0 0)).ctx = some 0 ∧ (s.ctx? 0).isSome = true ∧ v.reserve = 98304 :: [] ∧ v.images = [] ∧
       (command 5 1 0 0 0 0 0 v).vdPlanes v = [] ∧ Tab.find? s.vds 0 = some v ∧ v.frames = [] ∧ s.devWindows = []) ∧
    (let v : Vd := { paused with ctxs := [] }
     ((command 5 1 0 0 0 0 0 v).roomFor 0 v v.regions ((command 5 1 0 0 0 0 0 v).vdPlanes v).length).isSome = true ∧
       ((command 5 1 0 0 0 0 0 v).movePlanned 0 v v.regions).isSome = true ∧
       ((command 7 1 2 1 0 0 0 { v with leaving := [0, 1] }).movePlanned 0 { v with leaving := [0, 1] } [0, 1]).isSome = true ∧
       (∀ e ∈ (command 7 1 2 1 0 0 0 v).vdPlanes v, e.1 ∉ [0, 1])) ∧
    (let v : Vd := { vd0 with state := .evicted, regions := [], channels := [] }
     let s := command 6 1 2 2 0 0 0 v
     on 6 2 2 v = true ∧ on 6 9 2 v = true ∧ v.share = (0, 0) ∧ v.rmin ≤ 2 ∧ 2 ≤ v.rmax ∧ v.channels.length + 2 ≤ v.chmax ∧
       2 ≤ 2 * s.freePairs.length ∧ 2 ≤ s.freeChannels.length ∧ v.images = [] ∧ v.moved = [] ∧
       [(0, 0, 0, 0)].findSome? s.imageStatus = some 7 ∧ { s with host := { s.host with caprg0 := 0 } }.freePairs = []) ∧
    (on 7 4 2 { vd0 with state := .evicted } = true ∧ on 7 4 2 paused = true ∧ on 7 3 0 paused = true ∧
      paused.regions.length ≤ 4 ∧ paused.channels.length ≤ 2 ∧ 4 - 2 ≤ 2 * (command 7 1 4 2 0 0 0 paused).freePairs.length ∧
      2 - 1 ≤ (command 7 1 4 2 0 0 0 paused).freeChannels.length) := by
  and_intros <;> decide +kernel

/-- The frames of an image are to be had on a channel, and on none they are not. -/
theorem test_witness_frames :
    ((command 5 1 0 0 0 0 0 vd0).takeNew 0 imageFrames).isSome = true ∧
      (let v : Vd := { vd0 with channels := [] }
       (command 5 1 0 0 0 0 0 v).roomFor 0 v v.regions 1 = none) := by
  refine ⟨takeNew_isSome _ _ _ vd0 rfl rfl (by decide +kernel) fun e => ?_, ?_⟩
  · exact absurd (congrArg List.length e) (by decide +kernel)
  · simp only [State.roomFor, State.takeImages,
      takeNew_none (command 5 1 0 0 0 0 0 { vd0 with channels := [] }) 0 imageFrames _ rfl rfl, Option.bind_none]

/-- The windows' last clauses rest on how a sealed image opens, which the model leaves open. -/
theorem test_witness_WindowsMapped :
    let w (kind : Nat) (mapped : Bool) : PolWin := { va := 0x10000, size := 0x10000, kind, r := true, w := false, mapped, start := 0 }
    let v : Vd := { vd0 with wins := [w 0 false, w 1 false, w 2 false, w 1 true], nhash := 1 }
    let on (i base arg2 : Nat) : Bool :=
      let s := command 8 1 i base arg2 0 0 v
      s.packet == some (packetOf 8 1 i base arg2 0 0) && s.vdOf 1 == some (0, v) && bitAt v.cmdmask 8 &&
        (allowedIn 8).contains v.state && s.ctx? v.firstCtx == some ctx0
    let s := command 8 1 1 0 0 0 0 v
    let u := { s.setCtx 0 ctxPool with mem := tablesOn s.mem 0 }
    let maps (kind : BitVec 3) (base : Nat) : Bool := (u.mapRange 0 v.firstCtx ctxPool (w 0 false) kind base 0b0011).isSome
    maps 4 0 = true ∧ maps 3 0 = true ∧ { v with channels := List.range 32 }.ownsRange 0 0x10000 = true ∧
    on 0 (2 ^ 48) 0 = true ∧ on 1 (2 ^ 36) 0 = true ∧ (∃ w ∈ s.devWindows, w.2.1 < 0x10000 ∧ 0 < w.2.1 + w.2.2) ∧
    on 0 0 0 = true ∧ on 1 0x10000 0 = true ∧ on 1 0 0 = true ∧ on 2 0 0 = true ∧ on 9 0 0 = true ∧ v.wins[9]? = none ∧
      on 0 1 0 = true ∧ on 0 0 1 = true ∧ on 2 0 (2 ^ 63) = true ∧ bits (BitVec.ofNat 64 (2 ^ 63) : Word) 32 31 = 0 ∧
      s.devWindows = [(0, 0, 0x10000)] ∧ v.nhash ≠ 0 ∧ vd0.nhash = 0 := by
  and_intros <;> decide +kernel

/-- The HDM window begins at a frame of GDDR7 and ends within it. -/
theorem test_witness_hdm :
    gddrStart ≤ hdmBase ∧ hdmBase + 65536 ≤ gddrStart + 32 * channelBytes ∧ hdmBase % 65536 = 0 := by
  have : Config.hdmFrame % (3 * 2 ^ 20 + 1) < 3 * 2 ^ 20 + 1 := Nat.mod_lt _ (by omega)
  unfold hdmBase gddrStart channelBytes
  generalize Config.hdmFrame % (3 * 2 ^ 20 + 1) = m at *
  omega

theorem test_witness_hdm_write : 0 < hdmBase ∧ (hdmBase + 0x10008) % 64 + 8 ≤ 64 := by
  obtain ⟨h, -, h'⟩ := test_witness_hdm
  exact ⟨Nat.lt_of_lt_of_le (Nat.two_pow_pos _) h, by generalize hdmBase = b at *; omega⟩

theorem onSomeChannel (b g c : Nat) (hc : 0 < c) (h : g ≤ b) (h' : b + 65536 ≤ g + 32 * c) :
    ∃ ch, ch < 32 ∧ b + 0 < g + ch * c + c ∧ g + ch * c < b + 0 + 65536 := by
  refine ⟨(b - g) / c, Nat.div_lt_of_lt_mul (by rw [Nat.mul_comm]; omega), ?_⟩
  have e := Nat.div_add_mod (b - g) c
  have l := Nat.mod_lt (b - g) hc
  rw [Nat.mul_comm] at e
  omega

/-- A range of the HDM window lies on some channel. -/
theorem test_witness_ownsRange (v : Vd) (hv : v.channels = []) : v.ownsRange 0 65536 = false := by
  have h := test_witness_hdm
  obtain ⟨ch, h1, h2, h3⟩ := onSomeChannel hdmBase gddrStart channelBytes (Nat.two_pow_pos _) h.1 h.2.1
  simp only [Vd.ownsRange, List.all_eq_false, List.mem_range, hv]
  exact ⟨ch, h1, by rw [decide_eq_true h2, decide_eq_true h3]; simp⟩

theorem test_witness_HostAccesses :
    let w : PolWin := { va := 0x10000, size := 0x10000, kind := 1, r := true, w := true, mapped := true, start := 0x10000 }
    let v : Vd := { vd0 with wins := [w] }
    let s := { (command 0 0 0 0 0 0 0 v).setCtx 0 ctxPool with
      mem := tables (Leaf.make 0 3 false false 1 false 1 0b0111) }
    (s.powered = true ∧ s.host.up = true ∧ Tab.find? s.vds 0 = some v ∧ v.state ≠ .evicted ∧ 0 < v.nnot ∧
      bits (7 : Word) 32 32 = 0 ∧ v.nrate = 0 ∧ (s.notifyKey v.firstCtx (v.nva + 8 * 0)).isSome ∧
      (command 0 0 0 0 0 0 0 v).notifyKey v.firstCtx (v.nva + 8 * 0) = none ∧ bits (2 ^ 32 : Word) 32 32 ≠ 0) ∧
    ((s.notifyLeaf v.firstCtx (v.nva + 8 * 0)).map (fun p => Leaf.cow p.leaf) = some false) ∧
    (s.devOwner 0 = none ∧ s.devOwner 0x10008 = some v ∧ 0 + 8 ≤ 2 ^ 36) := by
  and_intros <;> decide +kernel

theorem test_witness_HostRegisters :
    let s := State.reset
    let boot (len : Word) : State := { s with host := { s.host with bootst := len <<< 32 ||| 1 } }
    ({ s.host with bootst := 0x30 }.linkDown = true ∧ s.host.linkDown = false ∧ (command 0 0 0 0 0 0 0 vd0).host.linkDown = false) ∧
    (s.powered = true ∧ bitAt s.host.crcfg 4 = false ∧ s.host.up = false ∧ s.host.go = false ∧
      (command 0 0 0 0 0 0 0 vd0).host.up = true ∧ bitAt (command 0 0 0 0 0 0 0 vd0).host.crcfg 4 = true) ∧
    ((boot 4).host.go = true ∧ (boot 4).host.up = false ∧ (bits (boot 4).host.bootst 32 32).toNat < 4628 ∧
      4628 ≤ (bits (boot 8192).host.bootst 32 32).toNat ∧ (bits (boot 8192).host.bootst 32 32).toNat ≤ 67108864) ∧
    ((bits (17 : Word) 0 16).toNat > 2 ^ ((bits s.host.crcfg 0 4).toNat + 4) ∧ 8 < (bits (9 : Word) 0 4).toNat ∧
      (bits (4 : Word) 0 4).toNat ≤ 8) := by
  and_intros <;> decide +kernel

theorem test_witness_PowerAndEnergy :
    let s := command 0 0 0 0 0 0 0 vd0
    s.powered = true ∧ s.host.up = true ∧ bitAt (1 : Word) 0 = true ∧ bitAt (2 : Word) 0 = false ∧
      { s with powered := false }.powered = false ∧ s.present 0 = true ∧ s.present 64 = false ∧ 0 / 32 ∉ s.hot ∧
      0 / 32 ∈ { s with hot := [0] }.hot ∧ (∀ p, p < 4 → (s.plane (planeKey 0 p)).ctx = none) := by
  and_intros <;> decide +kernel

/-! ### One step each, with values that the spec works out -/

/-- Lane 0 of the token that a node with some inputs emits at its first target, and the flags that it raises. -/
def emits (i : Instr) (ins : List (Slot × Lane)) : Lane × FFlags :=
  match exec i (stageNode (ins.map fun e => (e.1, [one e.2]))) with
  | .next t =>
    (((((t.plane 0).links.find? fun l => l.src = 3).bind fun l => l.toks.head?).getD Token.empty).at 0, (t.plane 0).flags)
  | _ => (0xDEAD, 0)

/-- The token that it emits. -/
def emitted (i : Instr) (ins : List (Slot × List Token)) : Option Token :=
  match exec i (stageNode ins) with
  | .next t => ((t.plane 0).links.find? fun l => l.src = 3).bind fun l => l.toks.head?
  | _ => none

/-- Table 5-3. -/
theorem test_integer_borders :
    let on (x y : Lane) : List (Slot × Lane) := [(.a, x), (.b, y)]
    let f (ty : ElemTy) : Fields := toNext 0 ty 0
    (emits (.fabAdd (f .i32)) (on 0x7FFFFFFF 1)).1 = 0x80000000 ∧ (emits (.adds (f .i32)) (on 0x7FFFFFFF 1)).1 = 0x7FFFFFFF ∧
    (emits (.fabAdd (f .i8)) (on 100 50)).1 = 0xFFFFFF96 ∧ (emits (.adds (f .i8)) (on 100 50)).1 = 0x7F ∧
    (emits (.subs (f .u16)) (on 3 5)).1 = 0 ∧ (emits (.fabMul (f .i32)) (on 0x80000000 0xFFFFFFFF)).1 = 0x80000000 ∧
    (emits (.fabMulh (f .i32)) (on 0x80000000 0xFFFFFFFF)).1 = 0 ∧ (emits (.fabMulh (f .i32)) (on 0xFFFFFFFF 1)).1 = 0xFFFFFFFF ∧
    (emits (.fabMulh (f .u32)) (on 0xFFFFFFFF 0xFFFFFFFF)).1 = 0xFFFFFFFE := by
  and_intros <;> decide +kernel

theorem test_integer_patterns :
    let on (x y : Lane) : List (Slot × Lane) := [(.a, x), (.b, y)]
    let f (ty : ElemTy) : Fields := toNext 0 ty 0
    (emits (.fabShl (f .i32)) (on 5 32)).1 = 0 ∧ (emits (.fabShr (f .u32)) (on 5 0xFFFFFFFF)).1 = 0 ∧
    (emits (.fabSra (f .i32)) (on 0x80000000 40)).1 = 0xFFFFFFFF ∧ (emits (.fabShr (f .i8)) (on 0xFFFFFF80 1)).1 = 0x40 ∧
    (emits (.fabSra (f .u8)) (on 0xFFFFFF80 1)).1 = 0xC0 ∧ (emits (.clz (f .i16)) [(.a, 0)]).1 = 16 ∧
    (emits (.popc (f .i8)) [(.a, 0xFFFFFFFF)]).1 = 8 ∧ (emits (.brev (f .i8)) [(.a, 1)]).1 = 0xFFFFFF80 ∧
    (emits (.fabMin (f .i32)) (on 0xFFFFFFFF 1)).1 = 0xFFFFFFFF ∧ (emits (.fabMin (f .u32)) (on 0xFFFFFFFF 1)).1 = 1 ∧
    (emits (.cmp (toNext 2 .b32 0)) (on 0xFFFFFFFF 1)).1 = 0 ∧ (emits (.cmp (toNext 2 .i32 0)) (on 0xFFFFFFFF 1)).1 = 1 := by
  and_intros <;> decide +kernel

/-- The values of R139. -/
theorem test_addr :
    let on (i : Lane) : List (Slot × Lane) := [(.a, 0x100), (.b, i), (.c, 0x200)]
    (emits (.addr (toNext 0x0A .u32 16)) (on 5)).1 = 0x124 ∧
    (emitted (.addr (toNext 0x0A .u32 16)) [(.a, [one 0x100]), (.b, [one 200]), (.c, [one 0x200])]).map (fun t => t.valid) =
      some 0 ∧
    (emitted (.addr (toNext 0x0A .i32 16)) [(.a, [one 0x100]), (.b, [one (-68)]), (.c, [one 0x200])]).map (fun t => t.valid) =
      some 1 := by
  and_intros <;> decide +kernel

/-- The token of Table 5-5. -/
def table5 : Token :=
  { Token.empty with payload := lanes fun k => if k = 3 ∨ k = 9 then 0 else BitVec.ofNat 32 (k + 1), valid := 0xFDF7 }

theorem test_scan_lred :
    (emitted (.scan (toNext 0 .i32 0)) [(.a, [table5])]).map (fun t => (t.valid, [0, 1, 2, 4, 8, 10, 15].map t.at)) =
      some (0xFDF7, [1, 3, 6, 11, 41, 52, 122]) ∧
    (emitted (.lred (toNext 0 .i32 0)) [(.a, [table5])]).map (fun t => (t.valid, t.at 0)) = some (1, 122) := by
  and_intros <;> decide +kernel

/-- R140, R141: `shuf.xor` by 4 and `bcst.first`. -/
theorem test_lane_moves :
    (emitted (.shuf (toNext 1 .b32 4)) [(.a, [tok 16])]).map (fun t => [0, 3, 4, 15].map t.at) = some [5, 8, 1, 12] ∧
    (emitted (.bcst (toNext 1 .i32 0)) [(.a, [{ tok 16 with valid := 0xFFF0 }])]).map (fun t => [4, 15].map t.at) =
      some [5, 5] := by
  and_intros <;> decide +kernel

/-- Table 6-3 with RM = RNE; IV, DZ, OF, UF, IX are flags 0 to 4. -/
theorem test_float_borders :
    let on (l : List Lane) : List (Slot × Lane) := ([Slot.a, Slot.b, Slot.c]).zip l
    let f (fn : BitVec 6) (ty : ElemTy) : Fields := toNext fn ty 0
    emits (.fadd (f 0 .f32)) (on [0x7F800000, 0xFF800000]) = (0x7FC00000, Fl.iv) ∧
    emits (.fmul (f 0 .f32)) (on [0, 0xFF800000]) = (0x7FC00000, Fl.iv) ∧
    emits (.fma (f 0 .f32)) (on [0, 0x7F800000, 0x7FC00000]) = (0x7FC00000, Fl.iv) ∧
    emits (.fma (f 0 .f32)) (on [0x7F800001, 0x3F800000, 0x3F800000]) = (0x7FC00000, 0) ∧
    emits (.fadd (f 6 .f32)) (on [0x3F800000, 0xBF800000]) = (0x80000000, 0) ∧
    emits (.fsub (f 0 .f32)) (on [0x80000000, 0]) = (0x80000000, 0) ∧
    emits (.fmul (f 0 .f32)) (on [0x3F800001, 0x3F7FFFFE]) = (0x3F800000, Fl.ix) := by
  and_intros <;> decide +kernel

theorem test_float_fused :
    let on (l : List Lane) : List (Slot × Lane) := ([Slot.a, Slot.b, Slot.c]).zip l
    let f (fn : BitVec 6) (ty : ElemTy) : Fields := toNext fn ty 0
    emits (.fma (f 0 .f32)) (on [0x3F800001, 0x3F7FFFFE, 0xBF800000]) = (0xA8800000, 0) ∧
    emits (.fma (f 0x18 .f32)) (on [0x3F800001, 0x3F7FFFFE, 0xBF800000]) = (0x28800000, 0) ∧
    emits (.fmul (f 0 .bf16)) (on [0x7F7F, 0x4000]) = (0x7F80, Fl.ovf ||| Fl.ix) ∧
    emits (.fmul (f 5 .bf16)) (on [0x7F7F, 0x4000]) = (0x7F7F, Fl.ovf ||| Fl.ix) ∧
    emits (.fcmp (f 0 .f32)) (on [1, 0x80000000]) = (0, 0) ∧ emits (.frnd (f 0 .f32)) (on [0x40200000]) = (0x40000000, 0) ∧
    emits (.frnd (f 0 .f32)) (on [0xBF000000]) = (0x80000000, 0) := by
  and_intros <;> decide +kernel

/-- R163 to R167: the reciprocal of 3 and its refinement, and the special cases of Table 6-7. -/
theorem test_float_functions :
    emits (.frcp (toNext 0 .f32 0)) [(.a, 0x40400000)] = (0x3EAAA800, Fl.ix) ∧
    emits (.fref (toNext 4 .f32 0)) [(.a, 0x40400000), (.b, 0x3EAAA800)] = (0x3EAAAAAB, Fl.ix) ∧
    emits (.frcp (toNext 0 .f32 0)) [(.a, 0x80000000)] = (0xFF800000, Fl.dz) ∧
    emits (.frsq (toNext 0 .f32 0)) [(.a, 0xFF800000)] = (0x7FC00000, Fl.iv) ∧
    emits (.fex2 (toNext 0 .f32 0)) [(.a, 0xC0400000)] = (0x3E000000, 0) ∧
    emits (.fex2 (toNext 0 .f32 0)) [(.a, 0x43000000)] = (0x7F800000, Fl.ovf ||| Fl.ix) ∧
    emits (.flg2 (toNext 0 .f32 0)) [(.a, 0x3E000000)] = (0xC0400000, 0) ∧
    emits (.ftnh (toNext 0 .f32 0)) [(.a, 0x41100000)] = (0x3F800000, Fl.ix) := by
  and_intros <;> decide +kernel

/-- Table 7-2. -/
theorem test_cvt_borders :
    let c (fn : BitVec 6) (d : ElemTy) (src : BitVec 16) (x : Lane) : Lane × FFlags := emits (.cvt (toNext fn d src)) [(.a, x)]
    c 0 .i32 6 0x40200000 = (2, Fl.ix) ∧ c 0 .i32 6 0xC0200000 = (0xFFFFFFFE, Fl.ix) ∧
    c 6 .i32 6 0xBF000000 = (0xFFFFFFFF, Fl.ix) ∧ c 0 .i32 6 0x7FC00000 = (0, Fl.iv) ∧
    c 0 .i32 6 0x4F000000 = (0x7FFFFFFF, Fl.iv) ∧ c 0 .i32 6 0xCF000000 = (0x80000000, 0) ∧
    c 0 .bf16 0 16777217 = (0x4B80, Fl.ix) ∧ c 0 .e4m3 6 0x7F800000 = (0x7F, Fl.iv) ∧ c 8 .e4m3 6 0x7F800000 = (0x7E, 0) ∧
    c 0 .e5m2 6 0x47723000 = (0x7C, Fl.ovf ||| Fl.ix) ∧ c 8 .e5m2 6 0x47723000 = (0x7B, Fl.ovf ||| Fl.ix) := by
  and_intros <;> decide +kernel

theorem test_cvt_integers :
    let c (fn : BitVec 6) (d : ElemTy) (src : BitVec 16) (x : Lane) : Lane × FFlags := emits (.cvt (toNext fn d src)) [(.a, x)]
    c 0 .f32 12 0 = (0x00400000, 0) ∧ c 0 .f32 12 0xFF = (0x7FC00000, 0) ∧ c 0 .i8 0 300 = (0x2C, 0) ∧
    c 8 .i8 0 300 = (0x7F, 0) ∧ c 0 .u8 0 0xFFFFFFFF = (0xFF, 0) ∧ c 8 .u8 0 0xFFFFFFFF = (0, 0) := by
  and_intros <;> decide +kernel

/-- Table 7-3: the scale and the codes of a group's first token, and the flags of its records. -/
theorem test_bqnt_group :
    let records : List Lane := [0x41200000, 0x3F800000, 0x3E99999A, 0xBC23D70A, 0x38D1B717]
    let full (l : List Lane) : Token := { Token.empty with payload := lanes fun k => l.getD k 0, valid := 0xFFFF }
    let s := nodeState 3 { Node.fresh 0 with buf := [full records, full [], full [], full []] } [(.a, [])] Plane.empty
    (match exec (.bqnt (toNext 4 .e4m3 6)) s with
      | .next t => (Tab.find? (t.plane 0).nodes 3).map fun n =>
          ((((t.plane 0).links.find? fun l => l.src = 3).bind fun l => l.toks.head?).map fun x => (x.marker, x.at 0),
            ((n.pend[0]?).map fun e => (List.range 5).map e.1.at), (t.plane 0).flags)
      | _ => none) = some (some (Mk.scale, 0x7A), some [0x7A, 0x60, 0x52, 0xAA, 0x02], Fl.unf ||| Fl.ix) := by
  decide +kernel

/-! ### The sequencer -/

/-- What a register and the IP hold after an instruction at 0x1000. -/
def gives (i : Instr) (s : State) (r : SReg) : Word × Word := (((after i s).seq 0).read r, ((after i s).seq 0).ip)

/-- The values of R337 and R338. -/
theorem test_sequencer_constants :
    gives (.lui 9 0x91A2) (user0 []) 9 = (0x12344000, 0x1004) ∧
    gives (.ori 9 9 0x1678) (user0 [(9, 0x12344000)]) 9 = (0x12345678, 0x1004) ∧
    gives (.lui 9 0x40000) (user0 []) 9 = (0xFFFFFFFF80000000, 0x1004) ∧
    gives (.addi 0 1 5) (user0 [(1, 7)]) 0 = (0, 0x1004) ∧ gives (.slti 3 1 0x3FFF) (user0 [(1, -2)]) 3 = (1, 0x1004) := by
  and_intros <;> decide

theorem test_sequencer_division :
    let s := user0 [(1, -7), (2, 2), (3, 0), (4, 0x8000000000000000), (5, -1)]
    (gives (.div 6 1 2 false) s 6).1 = -3 ∧ (gives (.rem 6 1 2 false) s 6).1 = -1 ∧ (gives (.div 6 1 3 false) s 6).1 = -1 ∧
    (gives (.rem 6 1 3 true) s 6).1 = -7 ∧ (gives (.div 6 4 5 false) s 6).1 = 0x8000000000000000 ∧
    (gives (.rem 6 4 5 false) s 6).1 = 0 ∧ (gives (.mulh 6 5 5 true) s 6).1 = 0xFFFFFFFFFFFFFFFE ∧
    (gives (.mulh 6 5 5 false) s 6).1 = 0 ∧ (gives (.srai 6 4 63) s 6).1 = -1 := by
  and_intros <;> decide

/-- R344: a taken branch, one not taken, and a link. -/
theorem test_sequencer_branches :
    let s := user0 [(1, -1), (2, 1), (31, 0x2000)]
    ((after (.bcc .lt 0x7FFFC 1 2) s).seq 0).ip = 0xFF0 ∧ ((after (.bcc .ltu 4 1 2) s).seq 0).ip = 0x1008 ∧
    gives (.jal 5 2) s 5 = (0x1004, 0x1008) ∧ gives (.jalr 5 31 4) s 5 = (0x1004, 0x2004) := by
  and_intros <;> decide

/-- R383, R385, R401: `trap` saves IP + 4 and enters privileged mode at TVEC; `eret` returns. -/
theorem test_trap_eret :
    let s := withSeq (user0 []) 0 fun v => { v with tvec := 0x8000 }
    let t := (after (.trap 5) s).seq 0
    let u := withSeq (priv0 []) 0 fun v => { v with epc := 0x4444, estat := 2 }
    t.ip = 0x8000 ∧ t.priv = true ∧ EStat.inh t.estat = true ∧ EStat.pmode t.estat = false ∧
      ((after .eret u).seq 0).ip = 0x4444 ∧ ((after .eret u).seq 0).priv = false ∧
      EStat.inh ((after .eret u).seq 0).estat = false := by
  and_intros <;> decide

/-- R66: an instruction marked P raises PRIV in user mode. -/
theorem test_privilege :
    let t := (after .halt (user0 [])).seq 0
    t.fltcause.toNat = Cause.priv.code.toNat ∧ t.epc = 0x1000 ∧ t.run = .running ∧
      ((after .halt (priv0 [])).seq 0).run = .halted := by
  and_intros <;> decide

/-- R339: a store of eight bytes goes to sA + imm14, low byte first; one that is not aligned raises ALIGN. -/
theorem test_store :
    let s := user0 [(1, 0x10010), (2, 0x0102030405060708)]
    (((after (.sst 2 1 0x3FF8) s).agent 0).q.map fun e => e.pieces.map fun p => (p.key, p.value)) =
      [[(0x10008, 8), (0x10009, 7), (0x1000A, 6), (0x1000B, 5), (0x1000C, 4), (0x1000D, 3), (0x1000E, 2), (0x1000F, 1)]] ∧
    ((after (.sst 2 1 1) s).seq 0).fltcause.toNat = Cause.align.code.toNat ∧
      ((after (.sst 2 1 1) s).seq 0).fltaddr = 0x10011 := by
  and_intros <;> decide

/-- R341, R342: lane 3 of a side's head token, sign-extended, and a token pushed. -/
theorem test_ports :
    let w (x : Lane) : Token := { Token.empty with payload := vput Token.empty.payload 3 x, valid := 0xFFFF }
    let s := (user0 [(1, 5)]).setSide 0 2 false { Side.empty with toks := [w 0x80000000] }
    (gives (.qpop 4 2 3 true false true) s 4).1 = 0xFFFFFFFF80000000 ∧
      ((after (.qpop 4 2 3 true false true) s).side 0 2 false).toks = [] := by
  and_intros <;> decide

/-! ### A step from a program counter -/

theorem test_step_runs_add :
    let s := { turning (leBytes 4 0x01184400) 0x10000 with
      seqs := [(0, { seqAt 0 false [(1, 7), (2, 9)] with ip := 0x10000 })] }
    (match step s with | .next t => ((t.seq 0).read 3, (t.seq 0).ip) | _ => (0, 0)) = (16, 0x10004) := by
  decide +kernel

/-- A word placed at the next fetch is what the next step runs: `addi s3, s0, 5`, and a word that is no instruction. -/
theorem test_placed_word :
    (match step (State.reset.withFetchWord 32 0x02180005) with | .next t => (t.seq 0).read 3 | _ => 0) = 5 ∧
    (match step (State.reset.withFetchWord 32 0xFF000000) with | .next t => (t.seq 0).fltcause.toNat | _ => 0) =
      Cause.illop.code.toNat := by
  and_intros <;> decide +kernel

/-! ### Ill-formed terms and reserved words are refused -/

/-- Each check of the sequencer's instructions refuses a term. -/
theorem test_wellformed_sequencer :
    WellFormed (.shli 1 2 64) = false ∧ WellFormed (.qpush 1 2 3 false true .eot) = false ∧
    WellFormed (.bcc .tdone 0 1 2) = false ∧ WellFormed (.bcc .al 0 1 0) = false ∧ WellFormed (.sfence .ar .blk) = false ∧
    WellFormed (.bwld .blk 1 2 3 .ba0 0 0 0) = false ∧ WellFormed (.baccRd 1 2 .ba01) = false ∧
    WellFormed (.brate 1 2 10) = false ∧ WellFormed (.satom 1 2 3 4 .add false .none .blk .unsigned) = false ∧
    WellFormed (.satom 1 2 3 0 .add false .ar .blk .unsigned) = false ∧
    WellFormed (.satom 1 2 3 0 .add true .none .blk .float) = false ∧
    WellFormed (.waita 1 2 3 4 .tdone .dom true) = false ∧ WellFormed (.tsig .blk 1 2) = false ∧
    WellFormed (.wpt 0 true 1 0) = false ∧ WellFormed (.tlbi false .sys 1 2) = false ∧
    WellFormed (.tlbi true .mod 1 0) = false ∧ WellFormed (.add 1 2 3) = true := by
  and_intros <;> decide

/-- So does each check of the fabric's: FN, TY and IMM16 of an entry, its targets, its predication, the form of `pips`. -/
theorem test_wellformed_fabric :
    WellFormed (.fabAdd (toNext 0 .f32 0)) = false ∧ WellFormed (.fabAdd (toNext 0 .i32 1)) = false ∧
    WellFormed (.fadd (toNext 1 .f32 0)) = false ∧ WellFormed (.fadd (toNext 0 .i32 0)) = false ∧
    WellFormed (.cvt (toNext 0 .f32 13)) = false ∧ WellFormed (.ld (toNext 1 .f32 0)) = false ∧
    WellFormed (.outp (toNext 0 .f32 0)) = false ∧ WellFormed (.loop (toNext 0 .i32 0)) = false ∧
    WellFormed (.fabAdd { toNext 0 .i32 0 with dpb := 1 }) = false ∧
    WellFormed (.inp { toNext 0 .f32 0 with pm := .ifp }) = false ∧ WellFormed (.pipsRd (toNext 3 .i32 0)) = false ∧
    WellFormed (.fabAdd (toNext 0 .i32 0)) = true := by
  and_intros <;> decide

/-- Reserved words decode to no instruction, and the fabric decoder says which check refuses them (R55, R60, R61). -/
theorem test_reserved_refused :
    decodeSeq 0 0 = none ∧ decodeSeq 0x01184401 0 = none ∧ decodeSeq 0x0B088040 0 = none ∧ decodeSeq 0x9B000001 0 = none ∧
    decodeFabric 0x1000000000000000 = .error .opc ∧ decodeFabric 0x2003902000400000 = .error .fnty ∧
    (∃ e, decodeFabric 0x2000102000400001 = .error e) := by
  refine ⟨by decide, by decide, by decide, by decide, by decide, by decide, ⟨_, rfl⟩⟩

/-! ### Reset -/

theorem test_reset : State.reset.mem.wf = true ∧ (State.reset.seq 128).priv = true ∧ (State.reset.seq 0).priv = false := by
  decide

end Sys2Proof.Tests
end

section
/-!
PROOFS. Firing on data, once for every fabric instruction that has no marker rule of its own: what `asNode`, `stdNode`,
`fire` and `laneNode` answer at a node that meets data and has room.
-/

namespace Sys2Proof.Machine

/-! ### A node in its turn -/

/-- A node in its turn is not held back: it does what its instruction says (R105, R386). -/
theorem asNode_of_turn {s : State} {a : At} (h : NodeTurn s a) (F : At → Res) : asNode s F = F a := by
  obtain ⟨region, plane, slot, node, pl⟩ := a
  obtain ⟨⟨r, p, hactor, hplane⟩, hregion, hpl, hnode, hstopped, helder, hdraining, -⟩ := h
  dsimp only at *
  subst hplane hregion hpl
  simp only [asNode, hactor, hnode, hstopped, helder, hdraining, Bool.false_eq_true, if_false, Bool.false_and]

/-- A node that meets data goes by its data rule (R93). -/
theorem stdNode_of_data {s : State} {a : At} {f : Fields} {ins : List Slot} (h : NodeData s a f ins)
    (onMark : At → List Head → Slot → Token → Option Res) (data : At → List Head → Res) :
    stdNode s f ins onMark data = data a (a.heads (withPred f ins)) := by
  obtain ⟨hturn, hacc, hpend, hmeets⟩ := h
  obtain ⟨-, -, -, -, -, -, -, hphase⟩ := id hturn
  rw [stdNode, asNode_of_turn hturn]
  simp only [hphase, hacc, hpend, hmeets, Bool.false_eq_true, if_false]

/-! ### Taking and placing change links and accumulators only -/

theorem placeOut_keeps (pl : Plane) (n : Node) (slot : Nat) (f : Fields) (out : Nat) (t : Token) :
    (placeOut pl n slot f out t).nodes = pl.nodes ∧ (placeOut pl n slot f out t).flags = pl.flags := by
  unfold placeOut
  split
  · exact ⟨rfl, rfl⟩
  · split_ifs <;> exact ⟨rfl, rfl⟩
  · exact ⟨rfl, rfl⟩

theorem placeOuts_keep (outs : List (Nat × Token)) (pl : Plane) (n : Node) (slot : Nat) (f : Fields) :
    (outs.foldl (fun pl o => placeOut pl n slot f o.1 o.2) pl).nodes = pl.nodes ∧
      (outs.foldl (fun pl o => placeOut pl n slot f o.1 o.2) pl).flags = pl.flags := by
  induction outs generalizing pl with
  | nil => exact ⟨rfl, rfl⟩
  | cons o rest ih =>
    obtain ⟨hnodes, hflags⟩ := placeOut_keeps pl n slot f o.1 o.2
    exact ⟨(ih _).1.trans hnodes, (ih _).2.trans hflags⟩

theorem takeSlots_keeps (os : List Slot) (pl : Plane) (n : Node) (slot : Nat) :
    (takeSlots pl n slot os).nodes = pl.nodes ∧ (takeSlots pl n slot os).flags = pl.flags := by
  unfold takeSlots
  induction os generalizing pl with
  | nil => exact ⟨rfl, rfl⟩
  | cons o rest ih => exact ih _

/-! ### Firing -/

/-- With room at every target that is given a token, a firing does what R93 says. -/
theorem fire_of_ready {s : State} {a : At} {f : Fields} {outs : List (Nat × Token)}
    (hr : ∀ o ∈ outs, a.ready f o.1 = true) (taken : List Slot) (n : Node) (fl : FFlags) :
    fire s a f taken outs n fl =
      .next (if isMemorySlot a.slot then s.setPlane a.plane (a.fired f taken outs n fl)
        else (s.setPlane a.plane (a.fired f taken outs n fl)).charge a.region 19) := by
  obtain ⟨hnodes, hflags⟩ := placeOuts_keep outs (takeSlots a.pl a.node a.slot taken) a.node a.slot f
  obtain ⟨hnodes', hflags'⟩ := takeSlots_keeps taken a.pl a.node a.slot
  unfold fire At.fired
  simp only [List.all_eq_true.2 hr, if_true, hnodes, hflags, hnodes', hflags']

theorem At.room.ready {a : At} {f : Fields} (h : a.room f) {k : Nat} (hk : k < 3) : a.ready f k = true := by
  obtain ⟨h0, h1, h2⟩ := h
  match k, hk with
  | 0, _ => exact h0
  | 1, _ => exact h1
  | 2, _ => exact h2

/-- An instruction that comes down to `fire`, with room, fires. -/
theorem NodeFires.of_fire {i : Instr} {s : State} {a : At} {f : Fields} {taken : List Slot} {outs : List (Nat × Token)}
    {n : Node} {fl : FFlags} (h : exec i s = fire s a f taken outs n fl) (hr : ∀ o ∈ outs, a.ready f o.1 = true) :
    NodeFires i s s a f taken outs n fl := by
  have hf := fire_of_ready (s := s) hr taken n fl
  exact ⟨h.trans hf, (fire_bytes s _ a f taken outs n fl hf).1⟩

/-- R128: a lane-by-lane instruction that meets data and has room fires with the value of each live lane. -/
theorem LaneFires.of_laneNode {i : Instr} {s : State} {a : At} {f : Fields} {ins : List Slot}
    {G : At → (Slot → Lane) → Lane × FFlags} {g : (Slot → Lane) → Lane × FFlags} (he : exec i s = laneNode s f ins G)
    (hd : NodeData s a f ins) (hr : a.room f) (hg : ∀ v, G a v = g v) : LaneFires i s a f ins g := by
  obtain rfl : G a = g := funext hg
  refine NodeFires.of_fire ?_ ?_
  · rw [he, laneNode, stdNode_of_data hd]
    rfl
  · simp only [List.mem_cons, List.not_mem_nil, or_false, forall_eq_or_imp, forall_eq]
    exact ⟨hr.ready (by decide), hr.ready (by decide)⟩

end Sys2Proof.Machine
end

section
/-!
PROOFS. The integer formats: Wrap, Pat and Int of R127, in every type.
-/

namespace Sys2Proof.Machine

theorem ElemTy.ifmt_eq (ty : ElemTy) : ElemTy.ifmt ty = ⟨laneWidth ty, laneSigned ty⟩ := by
  cases ty <;> rfl

@[simp] theorem ElemTy.ifmt_width (ty : ElemTy) : (ElemTy.ifmt ty).width = laneWidth ty := by rw [ElemTy.ifmt_eq]
@[simp] theorem ElemTy.ifmt_signed (ty : ElemTy) : (ElemTy.ifmt ty).signed = laneSigned ty := by rw [ElemTy.ifmt_eq]

theorem ElemTy.ifmt_width_pos (ty : ElemTy) : 0 < (ElemTy.ifmt ty).width := by cases ty <;> decide
theorem ElemTy.ifmt_width_le (ty : ElemTy) : (ElemTy.ifmt ty).width ≤ 32 := by cases ty <;> decide

/-! ### Formats of any width up to that of a container -/

theorem IFmt.wrap_congr (t : IFmt) {u v : Int} (h : u ≡ v [ZMOD (2 ^ t.width : Nat)]) :
    t.wrap u = t.wrap v := by
  unfold IFmt.wrap; rw [h]

theorem IFmt.int_congr (t : IFmt) {x y : Lane} (h : t.pat x = t.pat y) : t.int x = t.int y := by
  unfold IFmt.int; rw [h]

theorem toNat_ofInt_mod {w : Nat} (hw : w ≤ 32) (v : Int) :
    (BitVec.ofInt 32 v).toNat % 2 ^ w = (v % (2 ^ w : Nat)).toNat := by
  have hd : ((2 ^ w : Nat) : Int) ∣ ((2 ^ 32 : Nat) : Int) := Int.natCast_dvd_natCast.2 (Nat.pow_dvd_pow 2 hw)
  apply Int.ofNat_inj.1
  rw [Int.natCast_mod, BitVec.toNat_ofInt, Int.toNat_of_nonneg (Int.emod_nonneg _ (by positivity)),
    Int.toNat_of_nonneg (Int.emod_nonneg _ (by positivity)), Int.emod_emod_of_dvd _ hd]

theorem IFmt.pat_lt (t : IFmt) (x : Lane) : t.pat x < 2 ^ t.width := Nat.mod_lt _ (by positivity)

theorem IFmt.pat_wrap (t : IFmt) (hw : t.width ≤ 32) (v : Int) : t.pat (t.wrap v) = (v % (2 ^ t.width : Nat)).toNat := by
  have hp : 0 ≤ v % (2 ^ t.width : Nat) := Int.emod_nonneg _ (by positivity)
  unfold IFmt.pat IFmt.wrap
  dsimp only
  split
  · rw [toNat_ofInt_mod hw, Int.toNat_of_nonneg hp, Int.sub_emod_right, Int.emod_emod]
  · rw [← BitVec.ofInt_natCast, toNat_ofInt_mod hw, Int.toNat_of_nonneg hp, Int.emod_emod]

theorem IFmt.int_emod (t : IFmt) (x : Lane) : t.int x % (2 ^ t.width : Nat) = t.pat x := by
  have hp : (t.pat x : Int) % (2 ^ t.width : Nat) = t.pat x := by
    rw [← Int.natCast_mod, IFmt.pat, Nat.mod_mod]
  unfold IFmt.int
  dsimp only
  split
  · rw [Int.sub_emod_right, hp]
  · exact hp

theorem IFmt.int_wrap_int (t : IFmt) (hw : t.width ≤ 32) (x : Lane) : t.int (t.wrap (t.int x)) = t.int x :=
  t.int_congr (by rw [t.pat_wrap hw, t.int_emod, Int.toNat_natCast])

/-- The signed remainder of a power of two, by the sign bit of the remainder. -/
theorem bmod_two_pow (v : Int) {w : Nat} (hw : 0 < w) :
    v.bmod (2 ^ w) =
      if 2 ^ (w - 1) ≤ (v % (2 ^ w : Nat)).toNat then v % (2 ^ w : Nat) - (2 ^ w : Nat) else v % (2 ^ w : Nat) := by
  obtain ⟨n, rfl⟩ := Nat.exists_eq_succ_of_ne_zero hw.ne'
  have hp : 0 ≤ v % (2 ^ (n + 1) : Nat) := Int.emod_nonneg _ (by positivity)
  have h2 : 2 ^ (n + 1) = 2 * 2 ^ n := by ring
  unfold Int.bmod
  simp only [Nat.succ_eq_add_one, Nat.add_sub_cancel]
  generalize v % (2 ^ (n + 1) : Nat) = r at hp ⊢
  split_ifs <;> omega

theorem IFmt.int_eq (t : IFmt) (hw : 0 < t.width) (x : Lane) :
    t.int x = if t.signed then (x.toNat : Int).bmod (2 ^ t.width) else t.pat x := by
  have hp : (x.toNat : Int) % (2 ^ t.width : Nat) = t.pat x := by rw [← Int.natCast_mod, IFmt.pat]
  rw [bmod_two_pow _ hw, hp, Int.toNat_natCast]
  cases h : t.signed <;> simp [IFmt.int, h]

theorem IFmt.wrap_eq (t : IFmt) (hw : 0 < t.width) (v : Int) :
    t.wrap v = BitVec.ofInt 32 (if t.signed then v.bmod (2 ^ t.width) else v % (2 ^ t.width : Nat)) := by
  have hp : ((v % (2 ^ t.width : Nat)).toNat : Int) = v % (2 ^ t.width : Nat) :=
    Int.toNat_of_nonneg (Int.emod_nonneg _ (by positivity))
  have hn : BitVec.ofNat 32 (v % (2 ^ t.width : Nat)).toNat = BitVec.ofInt 32 (v % (2 ^ t.width : Nat)) := by
    rw [← BitVec.ofInt_natCast, hp]
  rw [bmod_two_pow _ hw]
  cases h : t.signed
  · simp only [IFmt.wrap, h, Bool.false_and, Bool.false_eq_true, if_false, hn]
  · simp only [IFmt.wrap, h, Bool.true_and, decide_eq_true_eq, if_true, hp, hn]
    split_ifs <;> rfl

/-! ### Against Table 3-1 and R127 -/

theorem ElemTy.ifmt_pat (ty : ElemTy) (x : Lane) : (ElemTy.ifmt ty).pat x = x.toNat % 2 ^ laneWidth ty := by
  rw [IFmt.pat, ElemTy.ifmt_width]

theorem ElemTy.ifmt_int (ty : ElemTy) (x : Lane) : (ElemTy.ifmt ty).int x = intOf ty x := by
  rw [IFmt.int_eq _ (ElemTy.ifmt_width_pos ty)]
  cases ty
  case i32 => simp only [ElemTy.ifmt, intOf, if_true, BitVec.toInt_eq_toNat_bmod]
  case i16 | i8 =>
    simp only [ElemTy.ifmt, intOf, if_true, BitVec.toInt_eq_toNat_bmod, BitVec.toNat_setWidth, Int.natCast_mod,
      Int.emod_bmod]
  case u16 | u8 => rfl
  all_goals exact congrArg Nat.cast (Nat.mod_eq_of_lt x.isLt)

theorem ElemTy.ifmt_wrap (ty : ElemTy) (v : Int) : (ElemTy.ifmt ty).wrap v = wrapAs ty v := by
  have whole (u : Int) (h : u % (2 ^ 32 : Nat) = v % (2 ^ 32 : Nat)) : BitVec.ofInt 32 u = BitVec.ofInt 32 v := by
    apply BitVec.eq_of_toNat_eq
    rw [BitVec.toNat_ofInt, BitVec.toNat_ofInt, h]
  rw [IFmt.wrap_eq _ (ElemTy.ifmt_width_pos ty)]
  cases ty
  case i32 => exact whole _ (Int.bmod_emod ..)
  case i16 | i8 => simp [ElemTy.ifmt, wrapAs, BitVec.signExtend, BitVec.toInt_ofInt]
  case u16 | u8 =>
    apply BitVec.eq_of_toNat_eq
    simp only [ElemTy.ifmt, wrapAs, Bool.false_eq_true, if_false, BitVec.toNat_ofInt, BitVec.toNat_setWidth]
    omega
  all_goals exact whole _ (Int.emod_emod ..)

end Sys2Proof.Machine
end

section
/-!
PROOFS. The lane-wise integer instructions (R136 to R138): the model's value of a lane is that of Table 5-2, and each
instruction fires with it.
-/

namespace Sys2Proof.Machine

/-! ### Values of Table 5-2 -/

theorem IFmt.wrap_mod (t : IFmt) (n : Nat) : t.wrap (n % 2 ^ t.width : Nat) = t.wrap n :=
  t.wrap_congr (by rw [Int.natCast_mod]; exact Int.mod_modEq ..)

/-- A pattern operation that agrees with a container operation modulo 2^w gives what the latter gives under Wrap. -/
theorem bitwise_eq (t : IFmt) (hw : t.width ≤ 32) {g : Nat → Nat → Nat} {op : Lane → Lane → Lane}
    (h : ∀ x y, (op x y).toNat % 2 ^ t.width = g (x.toNat % 2 ^ t.width) (y.toNat % 2 ^ t.width)) (a b : Int) :
    bitwise t g a b = t.wrap (op (BitVec.ofInt 32 a) (BitVec.ofInt 32 b)).toNat := by
  rw [bitwise, t.pat_wrap hw, t.pat_wrap hw, ← toNat_ofInt_mod hw, ← toNat_ofInt_mod hw, ← h, t.wrap_mod]

theorem toNat_and_not_mod {w : Nat} (hw : w ≤ 32) (x y : Lane) :
    (x &&& ~~~y).toNat % 2 ^ w = x.toNat % 2 ^ w &&& (2 ^ w - 1 - y.toNat % 2 ^ w) := by
  rw [← BitVec.toNat_setWidth, BitVec.setWidth_and, BitVec.setWidth_not hw, BitVec.toNat_and, BitVec.toNat_not,
    BitVec.toNat_setWidth, BitVec.toNat_setWidth]

theorem lowOf_le_highOf (ty : ElemTy) : lowOf ty ≤ highOf ty := by cases ty <;> decide

/-- Sat clamps to the range of the type (R127). -/
theorem ElemTy.ifmt_sat (ty : ElemTy) (v : Int) : (ElemTy.ifmt ty).sat v = wrapAs ty (clampTo ty v) := by
  have hmin : (ElemTy.ifmt ty).min = lowOf ty := by rw [ElemTy.ifmt_eq]; rfl
  have hmax : (ElemTy.ifmt ty).max = highOf ty := by rw [ElemTy.ifmt_eq]; rfl
  have hle := lowOf_le_highOf ty
  rw [IFmt.sat, hmin, hmax, ElemTy.ifmt_wrap, clampTo]
  congr 1
  split_ifs <;> omega

/-- `clz` counts the zero bits before the first one bit from the top (R138). -/
theorem leadingZeros_eq {w p : Nat} (hp : p < 2 ^ w) :
    leadingZeros w p = ((List.range w).takeWhile fun k => !p.testBit (w - 1 - k)).length := by
  induction w with
  | zero => simp [leadingZeros, Nat.lt_one_iff.1 hp]
  | succ w ih =>
    have hshift : (List.takeWhile ((fun k => !p.testBit (w + 1 - 1 - k)) ∘ Nat.succ) (List.range w)) =
        (List.range w).takeWhile fun k => !p.testBit (w - 1 - k) := by
      congr 1; funext k; simp only [Function.comp]; congr 2; omega
    rw [List.range_succ_eq_map, List.takeWhile_cons, List.takeWhile_map, hshift]
    by_cases htop : p.testBit w
    · have hge : 2 ^ w ≤ p := Nat.ge_two_pow_of_testBit htop
      have hp0 : p ≠ 0 := by have := Nat.two_pow_pos w; omega
      have hlog : p.log2 = w := (Nat.log2_eq_iff hp0).2 ⟨hge, hp⟩
      rw [leadingZeros, if_neg hp0, hlog]
      simp [htop]
    · have hlt : p < 2 ^ w := by
        by_contra hge
        exact htop (Nat.testBit_of_two_pow_le_and_two_pow_add_one_gt (by omega) hp)
      have hhead : (!p.testBit (w + 1 - 1 - 0)) = true := by simpa using htop
      rw [if_pos hhead, List.length_cons, List.length_map, ← ih hlt, leadingZeros, leadingZeros]
      by_cases hp0 : p = 0
      · rw [if_pos hp0, if_pos hp0]
      · have hlog : p.log2 < w := (Nat.log2_lt hp0).2 hlt
        rw [if_neg hp0, if_neg hp0]
        omega

theorem foldl_add_if (l : List Nat) (c : Nat → Bool) (h : Nat → Nat) (v : Nat) :
    l.foldl (fun v k => if c k then v + h k else v) v = v + (l.map fun k => if c k then h k else 0).sum := by
  induction l generalizing v with
  | nil => rfl
  | cons k rest ih =>
    rw [List.foldl_cons, ih, List.map_cons, List.sum_cons]
    split_ifs <;> omega

/-- `brev` sums the bits of the pattern at their mirrored places (R138). -/
theorem reversed_eq (w p : Nat) :
    reversed w p = ((List.range w).map fun k => if p.testBit k then 2 ^ (w - 1 - k) else 0).sum := by
  rw [reversed, foldl_add_if, Nat.zero_add]

theorem shl_modEq (w p n : Nat) :
    ((if w ≤ n then 0 else p * 2 ^ n % 2 ^ w : Nat) : Int) ≡ if n < w then ((p * 2 ^ n : Nat) : Int) else 0
      [ZMOD (2 ^ w : Nat)] := by
  by_cases h : n < w
  · rw [if_neg (Nat.not_le.2 h), if_pos h, Int.natCast_mod]
    exact Int.mod_modEq ..
  · rw [if_pos (Nat.not_lt.1 h), if_neg h]
    rfl

theorem shr_modEq (w p n : Nat) :
    ((if w ≤ n then 0 else p / 2 ^ n : Nat) : Int) ≡ if n < w then ((p / 2 ^ n : Nat) : Int) else 0
      [ZMOD (2 ^ w : Nat)] := by
  by_cases h : n < w
  · rw [if_neg (Nat.not_le.2 h), if_pos h]
  · rw [if_pos (Nat.not_lt.1 h), if_neg h]
    rfl

/-- The pattern p of w bits read as a two's complement number. -/
def signedPattern (w p : Nat) : Int := if p < 2 ^ (w - 1) then p else p - (2 ^ w : Nat)

/-- `sra` divides the signed value, rounding down, and leaves the sign when all bits are shifted out (R137). -/
theorem sraPattern_modEq {w p : Nat} (hw : 0 < w) (hp : p < 2 ^ w) (n : Nat) :
    (sraPattern w p n : Int) ≡
      if n < w then signedPattern w p / (2 ^ n : Nat) else if signedPattern w p < 0 then -1 else 0
      [ZMOD (2 ^ w : Nat)] := by
  have h1 : 1 < 2 ^ w := Nat.one_lt_two_pow hw.ne'
  by_cases hs : p < 2 ^ (w - 1)
  · have hx : signedPattern w p = p := if_pos hs
    have hn : ¬ (p : Int) < 0 := by omega
    have hsra : sraPattern w p n = if w ≤ n then 0 else p / 2 ^ n := by simp [sraPattern, Nat.not_le.2 hs]
    rw [hx, hsra, if_neg hn]
    split_ifs
    · omega
    · rfl
    · rfl
    · omega
  · have hx : signedPattern w p = p - (2 ^ w : Nat) := if_neg hs
    have hn : (p : Int) - (2 ^ w : Nat) < 0 := by omega
    have hfill : sraPattern w p n = if w ≤ n then 2 ^ w - 1 else p / 2 ^ n + (2 ^ w - 2 ^ (w - n)) := by
      simp [sraPattern, Nat.not_lt.1 hs, show ¬ 2 ^ w - 1 = 0 by omega]
    rw [hx, hfill, if_pos hn]
    by_cases hnw : n < w
    · have hpow : 2 ^ w = 2 ^ (w - n) * 2 ^ n := by rw [← pow_add]; congr 1; omega
      have hle : 2 ^ (w - n) ≤ 2 ^ w := Nat.pow_le_pow_right (by decide) (by omega)
      have hdiv : ((p : Int) - (2 ^ w : Nat)) / (2 ^ n : Nat) = (p / 2 ^ n : Nat) - (2 ^ (w - n) : Nat) := by
        rw [hpow, Nat.cast_mul, sub_eq_add_neg, ← neg_mul, Int.add_mul_ediv_right _ _ (by positivity), Int.natCast_div]
        ring
      rw [if_pos hnw, if_neg (by omega), hdiv]
      refine (Int.modEq_iff_add_fac.2 ⟨-1, ?_⟩)
      omega
    · rw [if_neg hnw, if_pos (by omega)]
      exact Int.modEq_iff_add_fac.2 ⟨-1, by omega⟩

/-! ### The forms of the lane-wise integer instructions -/

theorem immInt_eq (f : Fields) : immInt f = immOf f := by
  simp only [immInt, immOf, ElemTy.ifmt_int, ElemTy.ifmt_wrap, ElemTy.ifmt_signed]

/-- The inputs of a form with an optional immediate in place of slot b (R130). -/
def slotsOrImm (f : Fields) : List Slot := if bitAt f.fn 5 then [.a] else [.a, .b]

/-- The second operand of such a form. -/
def valueOrImm (f : Fields) (v : Slot → Lane) : Int := if bitAt f.fn 5 then immOf f else intOf f.ty (v .b)

section
variable {i : Instr} {s : State} {a : At} {f : Fields}

theorem LaneFires.of_patternNode {G : Nat → Nat → Nat} (g : Nat → Nat → Nat)
    (he : exec i s = patternNode s f G) (hd : NodeData s a f [.a]) (hr : a.room f)
    (hg : ∀ w p, p < 2 ^ w → G w p = g w p) :
    LaneFires i s a f [.a] fun v =>
      (wrapAs f.ty (g (laneWidth f.ty) ((v .a).toNat % 2 ^ laneWidth f.ty) : Nat), 0) := by
  unfold patternNode at he
  refine .of_laneNode he hd hr fun v => ?_
  rw [← ElemTy.ifmt_wrap, ← ElemTy.ifmt_pat, ← ElemTy.ifmt_width, hg _ _ (IFmt.pat_lt ..)]

theorem LaneFires.of_shiftNode {G : Nat → Nat → Nat → Nat} (g : Nat → Nat → Nat → Int)
    (he : exec i s = shiftNode s f G) (hd : NodeData s a f (slotsOrImm f)) (hr : a.room f)
    (hg : ∀ w p n, 0 < w → p < 2 ^ w → (G w p n : Int) ≡ g w p n [ZMOD (2 ^ w : Nat)]) :
    LaneFires i s a f (slotsOrImm f) fun v =>
      (wrapAs f.ty (g (laneWidth f.ty) ((v .a).toNat % 2 ^ laneWidth f.ty)
        (if bitAt f.fn 5 then f.imm.toNat else (v .b).toNat % 2 ^ laneWidth f.ty)), 0) := by
  unfold shiftNode at he
  refine .of_laneNode he hd hr fun v => ?_
  rw [← ElemTy.ifmt_wrap, ← ElemTy.ifmt_pat, ← ElemTy.ifmt_pat, ← ElemTy.ifmt_width,
    IFmt.wrap_congr _ (hg _ _ _ (ElemTy.ifmt_width_pos f.ty) (IFmt.pat_lt ..))]
  rfl

theorem LaneFires.of_binaryNode {G : IFmt → Int → Int → Lane} (g : Int → Int → Lane)
    (he : exec i s = binaryNode s f G) (hd : NodeData s a f (slotsOrImm f)) (hr : a.room f)
    (hg : ∀ x y, G (ElemTy.ifmt f.ty) x y = g x y) :
    LaneFires i s a f (slotsOrImm f) fun v => (g (intOf f.ty (v .a)) (valueOrImm f v), 0) := by
  unfold binaryNode at he
  refine .of_laneNode he hd hr fun v => ?_
  simp only [hg, immInt_eq, ElemTy.ifmt_int, valueOrImm, Fields.isImm]

theorem LaneFires.of_wrapping {G : IFmt → Int → Int → Lane} (g : Int → Int → Int)
    (he : exec i s = binaryNode s f G) (hd : NodeData s a f (slotsOrImm f)) (hr : a.room f)
    (hg : ∀ x y, G (ElemTy.ifmt f.ty) x y = wrapAs f.ty (g x y)) :
    LaneFires i s a f (slotsOrImm f) fun v => (wrapAs f.ty (g (intOf f.ty (v .a)) (valueOrImm f v)), 0) :=
  .of_binaryNode (fun x y => wrapAs f.ty (g x y)) he hd hr hg

/-- A bitwise instruction acts on the containers, since its low w bits depend on their low w bits alone. -/
theorem LaneFires.of_bitwise {G : IFmt → Nat → Nat → Nat} (op : Lane → Lane → Lane)
    (he : exec i s = binaryNode s f fun t => bitwise t (G t)) (hd : NodeData s a f (slotsOrImm f)) (hr : a.room f)
    (hop : ∀ w x y, w ≤ 32 →
      (op x y).toNat % 2 ^ w = G ⟨w, (ElemTy.ifmt f.ty).signed⟩ (x.toNat % 2 ^ w) (y.toNat % 2 ^ w)) :
    LaneFires i s a f (slotsOrImm f) fun v =>
      (wrapAs f.ty (op (BitVec.ofInt 32 (intOf f.ty (v .a))) (BitVec.ofInt 32 (valueOrImm f v))).toNat, 0) := by
  refine .of_wrapping (fun x y => (op (BitVec.ofInt 32 x) (BitVec.ofInt 32 y)).toNat) he hd hr fun x y => ?_
  have hle := ElemTy.ifmt_width_le f.ty
  rw [← ElemTy.ifmt_wrap]
  exact bitwise_eq _ hle (fun x y => hop _ x y hle) x y

end

/-- What a code of FN compares (Table 5-2). -/
def intCompare (n : Nat) (x y : Int) : Bool :=
  match n with
  | 0 => decide (x = y) | 1 => decide (x ≠ y) | 2 => decide (x < y) | 3 => decide (x ≤ y) | 4 => decide (y < x)
  | _ => decide (y ≤ x)

/-- Each of the 20 lane-wise integer instructions fires with the value that its row of Table 5-2 gives. -/
theorem intLane_fires {i : Instr} {s : State} {a : At} {f : Fields} {ins : List Slot} {g : (Slot → Lane) → Lane}
    (h : intLane i = some (f, ins, g)) (hd : NodeData s a f ins) (hr : a.room f) :
    LaneFires i s a f ins fun v => (g v, 0) := by
  unfold intLane at h
  dsimp only at h
  split at h
  next f =>
    cases h
    exact .of_wrapping (· + ·) (show _ = execFabAdd f s from rfl) hd hr fun _ _ => ElemTy.ifmt_wrap ..
  next f =>
    cases h
    exact .of_wrapping (· - ·) (show _ = execFabSub f s from rfl) hd hr fun _ _ => ElemTy.ifmt_wrap ..
  next f =>
    cases h
    exact .of_wrapping (fun x y => clampTo f.ty (x + y)) (show _ = execAdds f s from rfl) hd hr
      fun _ _ => ElemTy.ifmt_sat ..
  next f =>
    cases h
    exact .of_wrapping (fun x y => clampTo f.ty (x - y)) (show _ = execSubs f s from rfl) hd hr
      fun _ _ => ElemTy.ifmt_sat ..
  next f =>
    cases h
    exact .of_wrapping (· * ·) (show _ = execFabMul f s from rfl) hd hr fun _ _ => ElemTy.ifmt_wrap ..
  next f =>
    cases h
    exact .of_wrapping (fun x y => x * y / (2 ^ laneWidth f.ty : Nat)) (show _ = execFabMulh f s from rfl) hd hr
      fun _ _ => by rw [ElemTy.ifmt_wrap, ElemTy.ifmt_width]
  next f =>
    cases h
    have he : exec (.mad f) s = execMad f s := rfl
    unfold execMad at he
    refine .of_laneNode he hd hr fun v => ?_
    simp only [ElemTy.ifmt_wrap, ElemTy.ifmt_int, immInt_eq, Fields.isImm]
  next f =>
    cases h
    exact .of_bitwise (· &&& ·) (show _ = execFabAnd f s from rfl) hd hr
      fun _ _ _ _ => by rw [BitVec.toNat_and, Nat.and_mod_two_pow]
  next f =>
    cases h
    exact .of_bitwise (· ||| ·) (show _ = execFabOr f s from rfl) hd hr
      fun _ _ _ _ => by rw [BitVec.toNat_or, Nat.or_mod_two_pow]
  next f =>
    cases h
    exact .of_bitwise (· ^^^ ·) (show _ = execFabXor f s from rfl) hd hr
      fun _ _ _ _ => by rw [BitVec.toNat_xor, Nat.xor_mod_two_pow]
  next f =>
    cases h
    exact .of_bitwise (fun x y => x &&& ~~~y) (show _ = execAndn f s from rfl) hd hr
      fun _ x y hw => toNat_and_not_mod hw x y
  next f =>
    cases h
    exact .of_wrapping (fun x y => min x y) (show _ = execFabMin f s from rfl) hd hr
      fun x y => by
        rw [ElemTy.ifmt_wrap, min_def]; congr 1; split_ifs <;> omega
  next f =>
    cases h
    exact .of_wrapping (fun x y => max x y) (show _ = execFabMax f s from rfl) hd hr
      fun x y => by
        rw [ElemTy.ifmt_wrap, max_def]; congr 1; split_ifs <;> omega
  next f =>
    cases h
    exact .of_binaryNode (fun x y => if intCompare (bits f.fn 0 5).toNat x y then 1 else 0)
      (show _ = execCmp f s from rfl) hd hr fun _ _ => rfl
  next f =>
    cases h
    exact .of_shiftNode (fun w p n => if n < w then ((p * 2 ^ n : Nat) : Int) else 0)
      (show _ = execFabShl f s from rfl) hd hr fun _ _ _ _ _ => shl_modEq ..
  next f =>
    cases h
    exact .of_shiftNode (fun w p n => if n < w then ((p / 2 ^ n : Nat) : Int) else 0)
      (show _ = execFabShr f s from rfl) hd hr fun _ _ _ _ _ => shr_modEq ..
  next f =>
    cases h
    exact .of_shiftNode (fun w p n =>
        if n < w then signedPattern w p / (2 ^ n : Nat) else if signedPattern w p < 0 then -1 else 0)
      (show _ = execFabSra f s from rfl) hd hr fun _ _ n hw hp => sraPattern_modEq hw hp n
  next f =>
    cases h
    exact .of_patternNode (fun w p => ((List.range w).takeWhile fun k => !p.testBit (w - 1 - k)).length)
      (show _ = execClz f s from rfl) hd hr fun _ _ hp => leadingZeros_eq hp
  next f =>
    cases h
    exact .of_patternNode oneBits (show _ = execPopc f s from rfl) hd hr fun _ _ _ => rfl
  next f =>
    cases h
    exact .of_patternNode (fun w p => ((List.range w).map fun k => if p.testBit k then 2 ^ (w - 1 - k) else 0).sum)
      (show _ = execBrev f s from rfl) hd hr fun w p _ => reversed_eq w p
  next => cases h

/-- Settles O31: every arm of the table is one of the node forms with the value of its lane, and Wrap, Int and Pat are the
spec's in every type. -/
theorem integerLanes : Obligations.IntegerLanes := by
  unfold Obligations.IntegerLanes
  refine ⟨fun i s a f ins g h hd hr => intLane_fires h hd hr, fun ty v x => ⟨?_, ?_, ?_, ?_⟩⟩
  · exact ElemTy.ifmt_wrap ty v
  · exact ElemTy.ifmt_int ty x
  · exact ElemTy.ifmt_pat ty x
  · rw [← ElemTy.ifmt_wrap, ← ElemTy.ifmt_int, ← ElemTy.ifmt_int]
    exact IFmt.int_wrap_int _ (ElemTy.ifmt_width_le ty) x

end Sys2Proof.Machine
end

section
/-!
PROOFS. The sequencer's ALU instructions (R336 to R338): each operation of the model gives the value that Table 13-5 writes
in naturals and integers, and an instruction that issues writes that value and nothing else.
-/

namespace Sys2Proof.Machine

/-! ### Issuing an instruction that writes a value -/

/-- An instruction of user mode that a slice may hold runs wherever its sequencer stands (R65, R335). -/
theorem issueAs_user {s : State} {q : Nat} (ha : s.actor = .sequencer q) (f : Nat → Res) :
    issueAs s .user true f = f q :=
  issueAs_runs s q .user true f ha (by simp) (by simp) (by simp)

/-- `finish` on the state as it is writes the register, moves the IP and changes nothing else. -/
theorem SeqWrites.of_finish {i : Instr} {s : State} {q : Nat} {d : SReg} {x : Word} {n : Nat}
    (h : exec i s = .next (s.finish q d x n)) : SeqWrites i s q d x n :=
  SeqGoesOn.of_finish h rfl rfl rfl rfl rfl rfl

section
variable {i : Instr} {s : State} {q : Nat} {d a b : SReg} {x : Word}

theorem SeqWrites.of_issueValue {l : List SReg} {n : Nat} {f : Nat → Seq → Word} (ha : s.actor = .sequencer q)
    (hr : (s.seq q).allReady (d :: l) = true) (he : exec i s = issueValue s .user true d l n f)
    (hx : f q (s.seq q) = x) : SeqWrites i s q d x n := by
  refine .of_finish (he.trans ?_)
  unfold issueValue
  rw [issueAs_user ha, if_pos hr, hx]

theorem SeqWrites.of_alu {f : Word → Word → Word} (ha : s.actor = .sequencer q)
    (hr : (s.seq q).allReady [d, a, b] = true) (he : exec i s = alu s d a b f)
    (hx : f ((s.seq q).read a) ((s.seq q).read b) = x) : SeqWrites i s q d x 4 :=
  .of_issueValue ha hr he hx

theorem SeqWrites.of_aluImm {y : Word} {f : Word → Word → Word} (ha : s.actor = .sequencer q)
    (hr : (s.seq q).allReady [d, a] = true) (he : exec i s = aluImm s d a y f)
    (hx : f ((s.seq q).read a) y = x) : SeqWrites i s q d x 4 :=
  .of_issueValue ha hr he hx

end

/-! ### Immediates (R62) -/

theorem zext14_eq (i : BitVec 14) : zext14 i = BitVec.ofNat 64 i.toNat := (BitVec.ofNat_toNat ..).symm

theorem toInt_sext14 (i : BitVec 14) : (sext14 i).toInt = i.toInt :=
  BitVec.toInt_signExtend_of_le (by decide)

theorem luiValue_eq (i : BitVec 19) : luiValue i = (BitVec.ofNat 32 (i.toNat * 2 ^ 13)).signExtend 64 := by
  have h : (i ++ (0 : BitVec 13) : BitVec 32) = BitVec.ofNat 32 (i.toNat * 2 ^ 13) := by
    apply BitVec.eq_of_toNat_eq
    rw [BitVec.toNat_append, BitVec.toNat_ofNat, Nat.shiftLeft_eq, Nat.mod_eq_of_lt (by omega)]
    exact Nat.or_zero _
  rw [luiValue, h]

/-! ### Values of Table 13-5 -/

theorem ofNat_toNat_add (x y : Word) : BitVec.ofNat 64 (x.toNat + y.toNat) = x + y := by
  rw [BitVec.ofNat_add, BitVec.ofNat_toNat, BitVec.ofNat_toNat, BitVec.setWidth_eq, BitVec.setWidth_eq]

theorem ofNat_toNat_mul (x y : Word) : BitVec.ofNat 64 (x.toNat * y.toNat) = x * y := by
  rw [BitVec.ofNat_mul, BitVec.ofNat_toNat, BitVec.ofNat_toNat, BitVec.setWidth_eq, BitVec.setWidth_eq]

theorem ofInt_toInt_add (x y : Word) : BitVec.ofInt 64 (x.toInt + y.toInt) = x + y := by
  rw [BitVec.ofInt_add, BitVec.ofInt_toInt, BitVec.ofInt_toInt]

theorem ofInt_toInt_sub (x y : Word) : BitVec.ofInt 64 (x.toInt - y.toInt) = x - y :=
  BitVec.eq_of_toInt_eq (by rw [BitVec.toInt_ofInt, BitVec.toInt_sub])

theorem shiftBy_eq (y : Word) : shiftBy y = y.toNat % 64 := by
  simp [shiftBy, bits]

/-- The count of an immediate shift is its low six bits. -/
theorem shiftBy_zext14 (i : BitVec 14) : shiftBy (zext14 i) = i.toNat % 64 := by
  rw [shiftBy_eq, zext14, BitVec.toNat_setWidth_of_le (by decide)]

theorem shiftLeft_eq_ofNat (x : Word) (n : Nat) : x <<< n = BitVec.ofNat 64 (x.toNat * 2 ^ n) := by
  apply BitVec.eq_of_toNat_eq
  rw [BitVec.toNat_shiftLeft, BitVec.toNat_ofNat, Nat.shiftLeft_eq]

theorem ushiftRight_eq_ofNat (x : Word) (n : Nat) : x >>> n = BitVec.ofNat 64 (x.toNat / 2 ^ n) := by
  apply BitVec.eq_of_toNat_eq
  have hlt : x.toNat / 2 ^ n < 2 ^ 64 := (Nat.div_le_self ..).trans_lt x.isLt
  rw [BitVec.toNat_ushiftRight, BitVec.toNat_ofNat, Nat.shiftRight_eq_div_pow, Nat.mod_eq_of_lt hlt]

theorem sshiftRight_eq_ofInt (x : Word) (n : Nat) : x.sshiftRight n = BitVec.ofInt 64 (x.toInt / (2 ^ n : Nat)) := by
  rw [BitVec.sshiftRight, Int.shiftRight_eq_div_pow]

theorem divide_eq (u : Bool) (x y : Word) :
    (if u then divU else divS) x y =
      if y = 0 then 0xFFFFFFFFFFFFFFFF
      else if u then BitVec.ofNat 64 (x.toNat / y.toNat) else BitVec.ofInt 64 (x.toInt.tdiv y.toInt) := by
  cases u <;> rfl

/-- The remainder is what the truncated quotient leaves. -/
theorem remainder_eq (u : Bool) (x y : Word) :
    (if u then remU else remS) x y =
      if y = 0 then x
      else if u then BitVec.ofNat 64 (x.toNat - y.toNat * (x.toNat / y.toNat))
      else BitVec.ofInt 64 (x.toInt - y.toInt * x.toInt.tdiv y.toInt) := by
  rw [← Nat.mod_eq_sub_mul_div, ← Int.tmod_def]
  cases u <;> rfl

theorem minWord_eq (u : Bool) (x y : Word) :
    minWord u x y = if u then BitVec.ofNat 64 (min x.toNat y.toNat) else BitVec.ofInt 64 (min x.toInt y.toInt) := by
  cases u
  case true =>
    simp only [minWord, if_true, BitVec.ult_eq_decide, decide_eq_true_eq]
    split_ifs with h
    · rw [min_eq_left h.le, BitVec.ofNat_toNat, BitVec.setWidth_eq]
    · rw [min_eq_right (not_lt.1 h), BitVec.ofNat_toNat, BitVec.setWidth_eq]
  case false =>
    simp only [minWord, Bool.false_eq_true, if_false, BitVec.slt_eq_decide, decide_eq_true_eq]
    split_ifs with h
    · rw [min_eq_left h.le, BitVec.ofInt_toInt]
    · rw [min_eq_right (not_lt.1 h), BitVec.ofInt_toInt]

theorem maxWord_eq (u : Bool) (x y : Word) :
    maxWord u x y = if u then BitVec.ofNat 64 (max x.toNat y.toNat) else BitVec.ofInt 64 (max x.toInt y.toInt) := by
  cases u
  case true =>
    simp only [maxWord, if_true, BitVec.ult_eq_decide, decide_eq_true_eq]
    split_ifs with h
    · rw [max_eq_right h.le, BitVec.ofNat_toNat, BitVec.setWidth_eq]
    · rw [max_eq_left (not_lt.1 h), BitVec.ofNat_toNat, BitVec.setWidth_eq]
  case false =>
    simp only [maxWord, Bool.false_eq_true, if_false, BitVec.slt_eq_decide, decide_eq_true_eq]
    split_ifs with h
    · rw [max_eq_right h.le, BitVec.ofInt_toInt]
    · rw [max_eq_left (not_lt.1 h), BitVec.ofInt_toInt]

/-! ### The 25 instructions -/

/-- Each ALU instruction writes the value that its row of Table 13-5 gives. -/
theorem alu_writes {i : Instr} {s : State} {q : Nat} {d : SReg} {l : List SReg} {y : Word}
    (h : aluResult i (s.seq q).read = some (d, l, y)) (ha : s.actor = .sequencer q)
    (hr : (s.seq q).allReady (d :: l) = true) : SeqWrites i s q d y 4 := by
  unfold aluResult at h
  dsimp only at h
  split at h <;> cases h
  next a b => exact .of_alu ha hr (show _ = execAdd d a b s from rfl) (ofNat_toNat_add ..).symm
  next a k =>
    refine .of_aluImm ha hr (show _ = execAddi d a k s from rfl) ?_
    rw [← toInt_sext14, ofInt_toInt_add]
  next a b => exact .of_alu ha hr (show _ = execSub d a b s from rfl) (ofInt_toInt_sub ..).symm
  next a b => exact .of_alu ha hr (show _ = execAnd d a b s from rfl) rfl
  next a k => exact .of_aluImm ha hr (show _ = execAndi d a k s from rfl) (by rw [zext14_eq])
  next a b => exact .of_alu ha hr (show _ = execOr d a b s from rfl) rfl
  next a k => exact .of_aluImm ha hr (show _ = execOri d a k s from rfl) (by rw [zext14_eq])
  next a b => exact .of_alu ha hr (show _ = execXor d a b s from rfl) rfl
  next a k => exact .of_aluImm ha hr (show _ = execXori d a k s from rfl) (by rw [zext14_eq])
  next a b => exact .of_alu ha hr (show _ = execShl d a b s from rfl) (by rw [shiftBy_eq, shiftLeft_eq_ofNat])
  next a k => exact .of_aluImm ha hr (show _ = execShli d a k s from rfl) (by rw [shiftBy_zext14, shiftLeft_eq_ofNat])
  next a b => exact .of_alu ha hr (show _ = execShr d a b s from rfl) (by rw [shiftBy_eq, ushiftRight_eq_ofNat])
  next a k => exact .of_aluImm ha hr (show _ = execShri d a k s from rfl) (by rw [shiftBy_zext14, ushiftRight_eq_ofNat])
  next a b => exact .of_alu ha hr (show _ = execSra d a b s from rfl) (by rw [shiftBy_eq, sshiftRight_eq_ofInt])
  next a k => exact .of_aluImm ha hr (show _ = execSrai d a k s from rfl) (by rw [shiftBy_zext14, sshiftRight_eq_ofInt])
  next a b => exact .of_alu ha hr (show _ = execMul d a b s from rfl) (ofNat_toNat_mul ..).symm
  next a b u => exact .of_alu ha hr (show _ = execMulh d a b u s from rfl) rfl
  next a b u => exact .of_alu ha hr (show _ = execDiv d a b u s from rfl) (divide_eq ..)
  next a b u => exact .of_alu ha hr (show _ = execRem d a b u s from rfl) (remainder_eq ..)
  next a b => exact .of_alu ha hr (show _ = execSlt d a b s from rfl) rfl
  next a k =>
    refine .of_aluImm ha hr (show _ = execSlti d a k s from rfl) ?_
    rw [← toInt_sext14]
    rfl
  next a b => exact .of_alu ha hr (show _ = execSltu d a b s from rfl) rfl
  next k => exact .of_issueValue ha hr (show _ = execLui d k s from rfl) (luiValue_eq k)
  next a b u => exact .of_alu ha hr (show _ = execMin d a b u s from rfl) (minWord_eq ..)
  next a b u => exact .of_alu ha hr (show _ = execMax d a b u s from rfl) (maxWord_eq ..)

/-- Settles O1: every row of the table is one of the issuing forms, with the value of the model's operation. -/
theorem aluResults : Obligations.AluResults := by
  unfold Obligations.AluResults
  intro i s q d l y h ha hr
  exact alu_writes h ha hr

end Sys2Proof.Machine
end

section
/-!
PROOFS. The port instructions (R334, R341 to R343): what each does on a plane's sequencer that the port rule lets through,
the fields of the word of Table 13-6, and the trap QPORT.
-/

namespace Sys2Proof.Machine

/-! ### One side of a port -/

@[simp] theorem State.seq_setSide (s : State) (r p : Nat) (wr : Bool) (v : Side) (q : Nat) :
    (s.setSide r p wr v).seq q = s.seq q := rfl

/-- A region sequencer whose context holds a plane has ports. -/
theorem withPlane_of_planeOf {s : State} {q k : Nat} (hq : q < 128) (hk : s.planeOf q = some k) (f : Nat → Res) :
    withPlane s q f = f k := by
  have hroot : isRoot q = false := by simpa [isRoot] using hq
  simp [withPlane, hroot, hk]

/-! ### What the instructions answer -/

/-- The staging token with sA[31:0] in lane L, the lane marked valid (R342). -/
def Token.staged (t : Token) (lane : BitVec 4) (x : Word) : Token :=
  { t with payload := vput t.payload lane.toNat (bits x 0 32), valid := setBit t.valid lane.toNat true }

section
variable {s : State} {q k : Nat} {p : QReg} {lane : BitVec 4} {x : Bool}
variable (hq : q < 128) (ha : s.actor = .sequencer q) (hk : s.planeOf q = some k)
include hq ha hk

/-- `qpop` where the port rule allows the access and a token has arrived (R341). -/
theorem execQpop_of_token {d : SReg} {pop sx : Bool} {tok : Token} {rest : List Token} (hr : (s.seq q).ready d = true)
    (hok : s.portOk (s.side q p.toNat x) k p.toNat x false x = true) (htoks : (s.side q p.toNat x).toks = tok :: rest) :
    execQpop d p lane pop x sx s =
      .next ((if pop then s.setSide q p.toNat x { s.side q p.toNat x with toks := rest } else s).finish q d
        (if sx then (vget tok.payload lane.toNat 0).signExtend 64 else (vget tok.payload lane.toNat 0).setWidth 64) 4) := by
  unfold execQpop
  rw [issueAs_user ha]
  simp only [hr, withPlane_of_planeOf hq hk, hok, htoks, Bool.not_true, Bool.false_eq_true, if_false]

theorem execQpop_qport {d : SReg} {pop sx : Bool} (hr : (s.seq q).ready d = true)
    (hno : s.portOk (s.side q p.toNat x) k p.toNat x false x = false) :
    execQpop d p lane pop x sx s = .next (s.raise q .qport 0) := by
  unfold execQpop
  rw [issueAs_user ha]
  simp only [hr, withPlane_of_planeOf hq hk, hno, Bool.not_true, Bool.not_false, Bool.false_eq_true, if_false, if_true]

theorem execQpush_qport {a : SReg} {push : Bool} {mk : PushMark} (hr : (s.seq q).ready a = true)
    (hno : s.portOk (s.side q p.toNat (!x)) k p.toNat x true (!x) = false) :
    execQpush p a lane push x mk s = .next (s.raise q .qport 0) := by
  unfold execQpush
  rw [issueAs_user ha]
  simp only [hr, withPlane_of_planeOf hq hk, hno, Bool.not_true, Bool.not_false, Bool.false_eq_true, if_false, if_true]

/-- `qpush` without .p where the port rule allows the access (R342). -/
theorem execQpush_stages {a : SReg} {mk : PushMark} (hr : (s.seq q).ready a = true)
    (hok : s.portOk (s.side q p.toNat (!x)) k p.toNat x true (!x) = true) :
    execQpush p a lane false x mk s =
      .next ((s.setSeq q { s.seq q with
        staging := vput (s.seq q).staging p.toNat
          ((vget (s.seq q).staging p.toNat Token.empty).staged lane ((s.seq q).read a)) }).advance q 4) := by
  unfold execQpush
  rw [issueAs_user ha]
  simp only [hr, withPlane_of_planeOf hq hk, hok, Bool.not_true, Bool.not_false, Bool.false_eq_true, if_false, if_true]
  rfl

/-- `qpush` with .p where the port rule allows the access and the side has room (R342). -/
theorem execQpush_pushes {a : SReg} {mk : PushMark} (hr : (s.seq q).ready a = true)
    (hok : s.portOk (s.side q p.toNat (!x)) k p.toNat x true (!x) = true)
    (hroom : (s.side q p.toNat (!x)).toks.length < 16) :
    execQpush p a lane true x mk s =
      .next (((s.setSide q p.toNat (!x) { s.side q p.toNat (!x) with
        toks := (s.side q p.toNat (!x)).toks ++
          [pushedToken mk ((vget (s.seq q).staging p.toNat Token.empty).staged lane ((s.seq q).read a))]
        plane := k % 4 }).setSeq q { s.seq q with
          staging := vput (s.seq q).staging p.toNat Token.empty }).advance q 4) := by
  unfold execQpush
  rw [issueAs_user ha]
  simp only [hr, withPlane_of_planeOf hq hk, hok, Nat.not_le.2 hroom, Bool.not_true, Bool.false_eq_true, if_false]
  rfl

/-- `qstat` writes the word of Table 13-6 (R343). -/
theorem execQstat_eq {d : SReg} (hr : (s.seq q).ready d = true) :
    execQstat d p x s =
      .next (s.finish q d (qstatValue (s.side q p.toNat x) (s.side q p.toNat (!x)) (s.side q p.toNat false)
        (s.side q p.toNat true) (s.usesPort k p.toNat false) (s.usesPort k p.toNat true)) 4) := by
  unfold execQstat
  rw [issueAs_user ha]
  simp only [hr, withPlane_of_planeOf hq hk, Bool.not_true, Bool.false_eq_true, if_false]
  cases x <;> rfl

end

/-! ### The fields of Table 13-6 -/

/-- A field above the last one of a word stands where it stands in what precedes the last one. A field of Table 13-6 is
reached by one use for each field below it. -/
theorem bits_append_high {v w lo n : Nat} {x : BitVec v} {y : BitVec w} {f : BitVec n} (h : w ≤ lo)
    (hx : bits x (lo - w) n = f) : bits (x ++ y) lo n = f :=
  (BitVec.extractLsb'_append_eq_of_le h).trans hx

theorem bits_append_last {v n : Nat} (x : BitVec v) (f : BitVec n) : bits (x ++ f) 0 n = f :=
  BitVec.extractLsb'_append_eq_right

theorem bitAt_of_bits {w i : Nat} {x : BitVec w} {b : Bool} (h : bits x i 1 = bit1 b) : bitAt x i = b := by
  have h0 := congrArg (fun f => f.getLsbD 0) h
  simpa using h0

section
variable {pops pushes rd wr : Side} {rfab wfab : Bool} {y : Word} (hy : y = qstatValue pops pushes rd wr rfab wfab)
include hy

theorem qstatValue_reserved : bits y 40 24 = 0 ∧ bits y 0 4 = 0 := by
  subst hy
  constructor
  · unfold qstatValue
    iterate 11 refine bits_append_high (by decide) ?_
    exact BitVec.extractLsb'_eq_self
  · exact bits_append_last ..

theorem qstatValue_head :
    bits y 36 4 = (pops.toks.head?.map Token.marker).getD 0 ∧
      bits y 20 16 = (pops.toks.head?.map Token.valid).getD 0 := by
  subst hy
  unfold qstatValue
  constructor
  · iterate 10 refine bits_append_high (by decide) ?_
    refine (bits_append_last ..).trans ?_
    cases pops.toks.head? <;> rfl
  · iterate 9 refine bits_append_high (by decide) ?_
    refine (bits_append_last ..).trans ?_
    cases pops.toks.head? <;> rfl

/-- Five bits hold the number of tokens and the room of a side of 16. -/
theorem qstatValue_counts (hpops : pops.toks.length ≤ 16) :
    (bits y 15 5).toNat = pops.toks.length ∧ (bits y 10 5).toNat = 16 - pushes.toks.length := by
  have hcount : bits y 15 5 = BitVec.ofNat 5 pops.toks.length := by
    subst hy
    unfold qstatValue
    iterate 8 refine bits_append_high (by decide) ?_
    exact bits_append_last ..
  have hroom : bits y 10 5 = BitVec.ofNat 5 (16 - pushes.toks.length) := by
    subst hy
    unfold qstatValue
    iterate 7 refine bits_append_high (by decide) ?_
    exact bits_append_last ..
  rw [hcount, hroom, BitVec.toNat_ofNat, BitVec.toNat_ofNat]
  omega

theorem qstatValue_sides :
    bitAt y 9 = rd.bind.isSome ∧ bitAt y 8 = rd.job.isSome ∧ bitAt y 7 = wr.bind.isSome ∧ bitAt y 6 = wr.job.isSome := by
  subst hy
  unfold qstatValue
  refine ⟨bitAt_of_bits ?_, bitAt_of_bits ?_, bitAt_of_bits ?_, bitAt_of_bits ?_⟩
  · iterate 6 refine bits_append_high (by decide) ?_
    exact bits_append_last ..
  · iterate 5 refine bits_append_high (by decide) ?_
    exact bits_append_last ..
  · iterate 4 refine bits_append_high (by decide) ?_
    exact bits_append_last ..
  · iterate 3 refine bits_append_high (by decide) ?_
    exact bits_append_last ..

theorem qstatValue_fabric : bitAt y 5 = rfab ∧ bitAt y 4 = wfab := by
  subst hy
  unfold qstatValue
  refine ⟨bitAt_of_bits ?_, bitAt_of_bits ?_⟩
  · iterate 2 refine bits_append_high (by decide) ?_
    exact bits_append_last ..
  · refine bits_append_high (by decide) ?_
    exact bits_append_last ..

end

/-! ### What the instructions change -/

section
variable {s : State} {q k : Nat} {p : QReg} {lane : BitVec 4} {x : Bool}
variable (hq : q < 128) (ha : s.actor = .sequencer q) (hk : s.planeOf q = some k)
include hq ha hk

theorem qpop_goesOn {d : SReg} {pop sx : Bool} {tok : Token} {rest : List Token} (hr : (s.seq q).ready d = true)
    (hok : s.portOk (s.side q p.toNat x) k p.toNat x false x = true) (htoks : (s.side q p.toNat x).toks = tok :: rest) :
    SeqGoesOn (.qpop d p lane pop x sx) s
      (if pop then s.setSide q p.toNat x { s.side q p.toNat x with toks := rest } else s) q d
      (if sx then (vget tok.payload lane.toNat 0).signExtend 64 else (vget tok.payload lane.toNat 0).setWidth 64) 4 := by
  refine .of_finish (execQpop_of_token hq ha hk hr hok htoks) ?_ ?_ ?_ ?_ ?_ ?_ <;> cases pop <;> rfl

theorem qpush_goesOn {a : SReg} {push : Bool} {mk : PushMark} (hr : (s.seq q).ready a = true)
    (hok : s.portOk (s.side q p.toNat (!x)) k p.toNat x true (!x) = true)
    (hroom : push = true → (s.side q p.toNat (!x)).toks.length < 16) :
    let new := (vget (s.seq q).staging p.toNat Token.empty).staged lane ((s.seq q).read a)
    let side := s.side q p.toNat (!x)
    let u := if push then s.setSide q p.toNat (!x) { side with toks := side.toks ++ [pushedToken mk new], plane := k % 4 }
      else s
    SeqGoesOn (.qpush p a lane push x mk) s
      (u.setSeq q { s.seq q with
        staging := vput (s.seq q).staging p.toNat (if push then Token.empty else new) }) q 0 0 4 := by
  cases push
  case false => exact .of_advance (execQpush_stages hq ha hk hr hok) (by simp) (by simp) (by simp) (by simp) rfl rfl
  case true =>
    exact .of_advance (execQpush_pushes hq ha hk hr hok (hroom rfl)) (by simp) (by simp) (by simp) (by simp) rfl rfl

end

/-- Settles O6: each instruction's equation under the port rule, with the fields of the word that `qstat` writes. -/
theorem portInstructions : Obligations.PortInstructions := by
  unfold Obligations.PortInstructions
  refine ⟨?_, ?_, ?_, ?_⟩
  · intro s q k d p lane pop x sx tok rest hq ha hk hr hok htoks
    exact qpop_goesOn hq ha hk hr hok htoks
  · intro s q k a p lane push x mk hq ha hk hr hok hroom
    cases mk <;> exact qpush_goesOn hq ha hk hr hok hroom
  · intro s q k d p x hq ha hk hr pops pushes hpops _
    obtain ⟨y, hy⟩ : ∃ y, y = qstatValue pops pushes (s.side q p.toNat false) (s.side q p.toNat true)
      (s.usesPort k p.toNat false) (s.usesPort k p.toNat true) := ⟨_, rfl⟩
    have hwrites : SeqWrites (.qstat d p x) s q d y 4 := .of_finish (hy ▸ execQstat_eq hq ha hk hr)
    obtain ⟨hhigh, hlow⟩ := qstatValue_reserved hy
    obtain ⟨hcount, hroom⟩ := qstatValue_counts hy hpops
    obtain ⟨hmarker, hvalid⟩ := qstatValue_head hy
    obtain ⟨hrdBind, hrdJob, hwrBind, hwrJob⟩ := qstatValue_sides hy
    obtain ⟨hinp, houtp⟩ := qstatValue_fabric hy
    exact ⟨y, hwrites, hhigh, hcount, hroom, hmarker, hvalid, hrdBind, hrdJob, hwrBind, hwrJob, hinp, houtp, hlow⟩
  · intro s q k p lane x hq ha hk hinh
    refine ⟨fun d pop sx hr hno => ?_, fun a push mk hr hno => ?_⟩
    · exact ⟨_, execQpop_qport hq ha hk hr hno, s.raise_trapped q .qport 0 hinh⟩
    · exact ⟨_, execQpush_qport hq ha hk hr hno, s.raise_trapped q .qport 0 hinh⟩

end Sys2Proof.Machine
end

section
/-!
PROOFS. Traps and their return (R383, R385): what a fault token leaves of the state, a trap inside a handler, and the two
instructions. A trap outside a handler is `State.takeTrap_trapped`.
-/

namespace Sys2Proof.Machine

/-! ### Fault tokens (R390, R391) -/

/-- A fault token goes last into its receiver's ring and changes nothing else of any sequencer. -/
theorem State.seq_sendToken (s : State) (root : Nat) (tok : List Word) (j : Nat) :
    (s.sendToken root tok).seq j =
      { s.seq j with ftoks := if j = root then (s.seq root).ftoks ++ [tok] else (s.seq j).ftoks } := by
  unfold State.sendToken
  by_cases h : j = root
  · subst h
    rw [State.seq_setSeq_self, if_pos rfl]
  · rw [State.seq_setSeq_ne _ _ _ _ h, if_neg h]

theorem BytesStay.sendToken (s : State) (root : Nat) (tok : List Word) : BytesStay s (s.sendToken root tok) :=
  .of_eq rfl rfl

/-- The low byte of a fault token's first word is its cause (Table 15-3). -/
theorem State.ownToken_cause (s : State) (q : Nat) (cause : BitVec 8) (aux : Word) :
    ((s.ownToken q cause aux).getD 0 0).toNat % 256 = cause.toNat := by
  unfold State.ownToken faultToken
  rw [List.getD_cons_zero, BitVec.toNat_append, Nat.shiftLeft_eq, Nat.mul_comm, ← Nat.two_pow_add_eq_or_of_lt cause.isLt]
  have hc := cause.isLt
  omega

/-! ### A trap inside a handler (R383) -/

/-- A sequencer that takes a trap inside a handler: halted, the rest as it is. -/
def Seq.stopped (v : Seq) : Seq := { v with run := .halted, fetching := none }

/-- Inside a handler a trap halts the sequencer and sends a DOUBLE token whose auxiliary word is the trap's cause. -/
theorem State.takeTrap_double {s : State} {q : Nat} (c : Cause) (addr resume : Word)
    (h : EStat.inh (s.seq q).estat = true) :
    s.takeTrap q c addr resume =
      (s.setSeq q (s.seq q).stopped).sendToken (ftokTarget q)
        ((s.setSeq q (s.seq q).stopped).ownToken q Cause.double.code (c.code.setWidth 64)) := by
  have haux : c.code.setWidth 64 = (0 : BitVec 56) ++ c.code := BitVec.setWidth_eq_append (by decide)
  rw [haux]
  exact if_pos h

/-- The sequencer that took the trap differs in what R383 stops, and in its ring where it is its own receiver. -/
theorem State.takeTrap_double_self {s : State} {q : Nat} (c : Cause) (addr resume : Word)
    (h : EStat.inh (s.seq q).estat = true) :
    ∃ ring, (s.takeTrap q c addr resume).seq q = { (s.seq q).stopped with ftoks := ring } := by
  rw [State.takeTrap_double c addr resume h, State.seq_sendToken, State.seq_setSeq_self]
  exact ⟨_, rfl⟩

/-- No sequencer but the halted one and the token's receiver changes. -/
theorem State.takeTrap_double_ne {s : State} {q j : Nat} (c : Cause) (addr resume : Word)
    (h : EStat.inh (s.seq q).estat = true) (hj : j ≠ q) (hup : j ≠ ftokTarget q) :
    (s.takeTrap q c addr resume).seq j = s.seq j := by
  rw [State.takeTrap_double c addr resume h, State.seq_sendToken, if_neg hup, State.seq_setSeq_ne _ _ _ _ hj]

theorem State.takeTrap_double_bytes {s : State} {q : Nat} (c : Cause) (addr resume : Word)
    (h : EStat.inh (s.seq q).estat = true) : BytesStay s (s.takeTrap q c addr resume) := by
  rw [State.takeTrap_double c addr resume h]
  exact (BytesStay.setSeq _ _ _).trans (.sendToken _ _ _)

/-- The receiver's ring gets one token, of eight words: cause DOUBLE, and in FLTAUX the cause of the trap. -/
theorem State.takeTrap_double_token {s : State} {q : Nat} (c : Cause) (addr resume : Word)
    (h : EStat.inh (s.seq q).estat = true) :
    ∃ tok : List Word,
      ((s.takeTrap q c addr resume).seq (ftokTarget q)).ftoks = (s.seq (ftokTarget q)).ftoks ++ [tok] ∧
        tok.length = 8 ∧ (tok.getD 0 0).toNat % 256 = 0x2E ∧ tok.getD 4 0 = c.code.setWidth 64 := by
  have hring : ((s.setSeq q (s.seq q).stopped).seq (ftokTarget q)).ftoks = (s.seq (ftokTarget q)).ftoks := by
    by_cases hup : ftokTarget q = q
    · rw [hup, State.seq_setSeq_self]
      rfl
    · rw [State.seq_setSeq_ne _ _ _ _ hup]
  rw [State.takeTrap_double c addr resume h, State.seq_sendToken]
  exact ⟨_, by rw [if_pos rfl, hring], rfl, State.ownToken_cause .., rfl⟩

/-! ### eret (R385) -/

/-- `&&& ~~~2` clears bit 1, ESTAT.INH, and leaves every other bit. -/
theorem bitAt_clear_inh (e : Word) (i : Nat) : bitAt (e &&& ~~~(2 : Word)) i = (bitAt e i && decide (i ≠ 1)) := by
  have htwo : (2 : Word) = BitVec.twoPow 64 1 := rfl
  rw [htwo, bitAt, BitVec.getLsbD_and, BitVec.getLsbD_not, BitVec.getLsbD_twoPow]
  by_cases hi : i < 64
  · simp [hi, eq_comm]
  · simp [BitVec.getLsbD_of_ge _ _ (Nat.le_of_not_lt hi)]

/-- Two records of a sequencer that differ in nothing but the waiting instructions of its levels. -/
def SameButWaits (v w : Seq) : Prop := ∃ h p u, w = { v with waitH := h, waitP := p, waitU := u }

theorem SameButWaits.refl (v : Seq) : SameButWaits v v := ⟨v.waitH, v.waitP, v.waitU, rfl⟩

theorem Seq.setWait_same (v : Seq) (w : Wait) : SameButWaits v (v.setWait w) := by
  unfold Seq.setWait
  split_ifs <;> exact ⟨_, _, _, rfl⟩

theorem Seq.wake_same (v : Seq) : SameButWaits v v.wake := by
  unfold Seq.wake
  split
  · exact v.setWait_same _
  · exact .refl v

theorem Seq.resumed_same (v : Seq) : SameButWaits v v.resumed := by
  unfold Seq.resumed
  split
  · split_ifs
    · exact v.wake_same
    · exact v.setWait_same _
  · exact v.setWait_same _

/-- A privileged sequencer's `eret` is the return of R385, after which the wait of the mode returned to looks again. -/
theorem execEret_eq {s : State} {q : Nat} (hi : IssuesPriv s q []) :
    execEret s = .next (s.setSeq q ((s.returnFromTrap q).seq q).resumed) := by
  obtain ⟨⟨-, ha, -, hslice⟩, hp⟩ := hi
  unfold execEret
  rw [issueAs_runs s q .privileged false _ ha (by simp) (fun _ => hp) (by simp [hslice])]
  simp [State.returnFromTrap]

/-- `trap` is of user mode and runs wherever no slice does. -/
theorem execTrap_eq {s : State} {q : Nat} (n : BitVec 19) (hi : Issues s q []) :
    execTrap n s = .next (s.takeTrap q .svc (n.setWidth 64) ((s.seq q).ip + 4)) := by
  obtain ⟨-, ha, -, hslice⟩ := hi
  exact issueAs_runs s q .user false _ ha (by simp) (by simp) (by simp [hslice])

/-- Settles O2: outside a handler by `State.takeTrap_trapped`; inside one by the equation of the DOUBLE case; the two
instructions by their equations, `eret` also by what its waits leave of the record. -/
theorem trapsAndReturns : Obligations.TrapsAndReturns := by
  unfold Obligations.TrapsAndReturns
  refine ⟨?_, ?_⟩
  · intro s q cause addr resume t up
    refine ⟨s.takeTrap_trapped q cause addr resume, fun h => ?_⟩
    obtain ⟨ring, hself⟩ : ∃ ring, t.seq q = { (s.seq q).stopped with ftoks := ring } :=
      State.takeTrap_double_self cause addr resume h
    have hothers : ∀ j, j ≠ q → j ≠ up → t.seq j = s.seq j := fun j =>
      State.takeTrap_double_ne cause addr resume h
    simp only [RegsStay, hself]
    exact ⟨rfl, ⟨rfl, rfl⟩, rfl, rfl, rfl, hothers, State.takeTrap_double_bytes cause addr resume h,
      State.takeTrap_double_token cause addr resume h⟩
  · intro s q
    refine ⟨fun n hi h => ⟨_, execTrap_eq n hi, s.takeTrap_trapped q .svc _ _ h⟩, fun hi => ?_⟩
    obtain ⟨wh, wp, wu, hwaits⟩ := ((s.returnFromTrap q).seq q).resumed_same
    refine ⟨_, execEret_eq hi, ⟨by rw [State.seq_setSeq_self], .setSeq _ _ _⟩, ?_⟩
    unfold RegsStay
    rw [State.seq_setSeq_self, hwaits, State.returnFromTrap, State.seq_setSeq_self]
    refine ⟨⟨rfl, rfl⟩, rfl, ?_, ?_, fun i hne => ?_⟩
    · simp [isRoot]
    · exact (bitAt_clear_inh _ 1).trans (by simp)
    · exact (bitAt_clear_inh _ i).trans (by simp [hne])

end Sys2Proof.Machine
end

section
/-!
PROOFS. The answers of the Arbiter (R414 to R416, R424, R426): the bytes of a completion entry, the checks before a command,
once for all ten, and what QUERY and ATTEST put into their answers.
-/

namespace Sys2Proof.Machine

/-! ### Numbers in bytes -/

@[simp] theorem length_leBytes (n v : Nat) : (leBytes n v).length = n := by
  induction n generalizing v with
  | zero => rfl
  | succ n ih => simp [leBytes, ih]

theorem leNat_leBytes (n v : Nat) : leNat (leBytes n v) = v % 256 ^ n := by
  induction n generalizing v with
  | zero => simp [leBytes, leNat, Nat.mod_one]
  | succ n ih =>
    rw [leBytes, leNat, ih, BitVec.toNat_ofNat, Nat.pow_succ' (n := n)]
    exact Nat.mod_mul.symm

theorem leNat_leBytes_of_lt {n v : Nat} (h : v < 256 ^ n) : leNat (leBytes n v) = v := by
  rw [leNat_leBytes, Nat.mod_eq_of_lt h]

/-- A number in Horner form has its lowest byte first (R3). -/
theorem leBytes_horner {b : Nat} (hb : b < 256) (n v : Nat) :
    leBytes (n + 1) (b + 256 * v) = BitVec.ofNat 8 b :: leBytes n v := by
  have hlow : BitVec.ofNat 8 (b + 256 * v) = BitVec.ofNat 8 b := BitVec.eq_of_toNat_eq (by simp)
  have hhigh : (b + 256 * v) / 256 = v := by omega
  rw [leBytes, hlow, hhigh]

theorem toNat_bits_ofNat (x lo n : Nat) :
    (bits (BitVec.ofNat 64 x) lo n).toNat = x % 2 ^ 64 / 2 ^ lo % 2 ^ n := by
  rw [BitVec.extractLsb'_toNat, BitVec.toNat_ofNat, Nat.shiftRight_eq_div_pow]

theorem bits_ofNat_eq_zero {x lo n : Nat} (h : x % 2 ^ 64 / 2 ^ lo % 2 ^ n = 0) : bits (BitVec.ofNat 64 x) lo n = 0 :=
  BitVec.eq_of_toNat_eq ((toNat_bits_ofNat x lo n).trans (h.trans BitVec.toNat_zero.symm))

/-! ### A command ends (R414) -/

theorem State.tag_lt_of_packet {s : State} {p : Packet} (hp : s.packet = some p) : p.tag < 2 ^ 16 := by
  obtain ⟨bs, -, rfl⟩ := Option.map_eq_some_iff.mp hp
  exact BitVec.isLt _

/-- The fields of a completion entry lie where Table 16-4 has them. -/
theorem Ends.of_complete {i : Instr} {s u : State} {p : Packet} {status : Nat} {result : Word}
    (hp : s.packet = some p) (h : exec i s = u.complete p status result) : Ends i s u p status result := by
  have htag : leNat (leBytes 2 p.tag) = p.tag := leNat_leBytes_of_lt (State.tag_lt_of_packet hp)
  have hresult : leNat (leBytes 8 (if status = 0 then result.toNat else 0)) = if status = 0 then result.toNat else 0 :=
    leNat_leBytes_of_lt (by split_ifs <;> omega)
  refine ⟨_, h, ?_, ?_, ?_, ?_, ?_⟩
  · simp
  · simpa [List.take_append] using htag
  · simp [leBytes]
  · simp [leBytes]
  · simpa [List.drop_append, List.drop_eq_nil_of_le] using hresult

/-- The head of the command ring always moves when a command completes. -/
theorem succ_index_ne (x : Word) : ((bits x 0 16 + 1).setWidth 64 : Word) ≠ x := by
  intro h
  have hlow : bits x 0 16 + 1 = bits x 0 16 := by
    conv_rhs => rw [← h]
    simp [BitVec.extractLsb'_setWidth_of_le]
  exact absurd hlow (by simp)

/-- A command that completes in its first turn leaves no packet behind. -/
theorem State.begun_complete {s u : State} (hu : u.host = s.host) (p : Packet) (status : Nat) (result : Word) :
    s.begun (u.complete p status result) = u.complete p status result := by
  have hhead : ((bits u.host.crhead 0 16 + 1).setWidth 64 : Word) ≠ s.host.crhead := hu ▸ succ_index_ne _
  exact congrArg Host.Outcome.next (if_neg hhead)

/-! ### The checks before every command (R415, R416) -/

theorem Packet.shapeOk_eq_unusedZero {p : Packet} (hrange : 1 ≤ p.cmd ∧ p.cmd ≤ 10) : p.shapeOk = p.unusedZero := by
  obtain ⟨cmd, tag, handle, arg0, arg1, arg2, buf, buflen, bad⟩ := p
  obtain ⟨hlo, hhi⟩ : 1 ≤ cmd ∧ cmd ≤ 10 := hrange
  interval_cases cmd <;> simp [Packet.shapeOk, Packet.unusedZero, Bool.and_assoc, beq_eq_decide]

/-- Each of the ten commands passes the checks of its packet first; seven of them then the checks of their virtual device. -/
theorem exec_eq_asCommand {i : Instr} {c : Nat} (h : commandCode i = some c) (s : State) :
    (1 ≤ c ∧ c ≤ 10) ∧ ∃ f, exec i s = asCommand c s f ∧
      (c ≠ 1 → c ≠ 9 → c ≠ 10 → ∀ p, ∃ g, f p = withVd s p (allowedIn c) g) := by
  unfold commandCode at h
  split at h <;> cases h <;> refine ⟨by decide, _, rfl, ?_⟩
  case h_1 => exact fun h => absurd rfl h
  case h_9 => exact fun _ h => absurd rfl h
  case h_10 => exact fun _ _ h => absurd rfl h
  all_goals exact fun _ _ _ _ => ⟨_, rfl⟩

section
variable {s : State} {p : Packet} {c : Nat} (hp : s.packet = some p)
include hp

theorem asCommand_other (hc : p.cmd ≠ c) (f : Packet → Res) : asCommand c s f = .next s := by
  simp [asCommand, hp, hc, stall]

theorem asCommand_unused (hc : p.cmd = c) (hrange : 1 ≤ c ∧ c ≤ 10) (hz : p.unusedZero = false) (f : Packet → Res) :
    asCommand c s f = s.complete p Status.badcmd 0 := by
  subst hc
  simp [asCommand, hp, Packet.shapeOk_eq_unusedZero hrange, hz]

/-- A packet that keeps to R415 goes to its command; an answer in that turn is what the turn comes to. -/
theorem asCommand_answers {u : State} {f : Packet → Res} {status : Nat} {result : Word} (hc : p.cmd = c)
    (hrange : 1 ≤ c ∧ c ≤ 10) (hz : p.unusedZero = true) (hu : u.host = s.host) (hf : f p = u.complete p status result) :
    asCommand c s f = u.complete p status result := by
  subst hc
  simp [asCommand, hp, Packet.shapeOk_eq_unusedZero hrange, hz, hf, State.begun_complete hu]

theorem Ends.of_answer {i : Instr} {u : State} {f : Packet → Res} {status : Nat} {result : Word} (hc : p.cmd = c)
    (hrange : 1 ≤ c ∧ c ≤ 10) (hz : p.unusedZero = true) (hexec : exec i s = asCommand c s f) (hu : u.host = s.host)
    (hf : f p = u.complete p status result) : Ends i s u p status result :=
  .of_complete hp (hexec.trans (asCommand_answers hp hc hrange hz hu hf))

/-- R415, R416: another command's packet leaves the state; a packet that breaks R415 is answered BADCMD. -/
theorem command_shape_answers {i : Instr} (hi : commandCode i = some c) :
    (p.cmd ≠ c → exec i s = .next s) ∧ (p.cmd = c → p.unusedZero = false → Ends i s s p 1 0) := by
  obtain ⟨hrange, f, hexec, -⟩ := exec_eq_asCommand hi s
  exact ⟨fun hc => hexec.trans (asCommand_other hp hc f),
    fun hc hz => .of_complete hp (hexec.trans (asCommand_unused hp hc hrange hz f))⟩

/-- R416, Table 16-5: the handle is looked up first, then CMDMASK, then the state. -/
theorem command_vd_answers {i : Instr} (hi : commandCode i = some c) (hc : p.cmd = c) (hz : p.unusedZero = true)
    (h1 : c ≠ 1) (h9 : c ≠ 9) (h10 : c ≠ 10) :
    (s.vdOf p.handle = none → Ends i s s p 2 0) ∧
    (∀ k v, s.vdOf p.handle = some (k, v) → bitAt v.cmdmask c = false → Ends i s s p 3 0) ∧
    (∀ k v, s.vdOf p.handle = some (k, v) → bitAt v.cmdmask c = true → v.state ∉ allowedIn c → Ends i s s p 5 0) := by
  obtain ⟨hrange, f, hexec, hvd⟩ := exec_eq_asCommand hi s
  obtain ⟨g, hg⟩ := hvd h1 h9 h10 p
  have answers {status : Nat} (hw : withVd s p (allowedIn c) g = s.complete p status 0) : Ends i s s p status 0 :=
    .of_answer hp hc hrange hz hexec rfl (hg.trans hw)
  refine ⟨fun hnone => answers ?_, fun k v hv hmask => answers ?_, fun k v hv hmask hstate => answers ?_⟩
  · simp [withVd, hnone, Status.badhandle]
  · simp [withVd, hv, hc, hmask, Status.denied]
  · simp [withVd, hv, hc, hmask, hstate, Status.state]

theorem badcmd_ends (hc : p.cmd = 0 ∨ 10 < p.cmd) : Ends .badcmd s s p 1 0 := by
  have hrange : ¬(1 ≤ p.cmd ∧ p.cmd ≤ 10) := by omega
  have hexec : execBadcmd s = s.complete p Status.badcmd 0 := by simp [execBadcmd, hp, ← Bool.decide_and, hrange]
  exact .of_complete hp hexec

end

/-! ### QUERY (R424) -/

theorem State.length_freePairs_le (s : State) : s.freePairs.length ≤ 64 :=
  (List.length_filter_le _ _).trans (by simp)

theorem State.length_freeChannels_le (s : State) : s.freeChannels.length ≤ 32 :=
  (List.length_filter_le _ _).trans (by simp)

/-- The numbers without a virtual device. -/
def State.freeVds (s : State) : List Nat := (List.range 256).filter fun k => (Tab.find? s.vds k).isNone

theorem State.length_freeVds_le (s : State) : s.freeVds.length ≤ 256 :=
  (List.length_filter_le _ _).trans (by simp)

theorem VdState.code_le (x : VdState) : x.code ≤ 2 := by cases x <;> decide

/-- The answer to QUERY kind 2. -/
def State.freeCountsWord (s : State) : Word :=
  BitVec.ofNat 64 (s.freePairs.length + 2 ^ 8 * s.freeChannels.length + 2 ^ 16 * s.freeVds.length)

theorem State.freeCountsWord_fields (s : State) :
    (bits s.freeCountsWord 0 8).toNat = s.freePairs.length ∧ (bits s.freeCountsWord 8 8).toNat = s.freeChannels.length ∧
      (bits s.freeCountsWord 16 9).toNat = s.freeVds.length ∧ bits s.freeCountsWord 25 39 = 0 := by
  have hpairs := s.length_freePairs_le
  have hchannels := s.length_freeChannels_le
  have hvds := s.length_freeVds_le
  refine ⟨?_, ?_, ?_, bits_ofNat_eq_zero (by omega)⟩ <;> rw [State.freeCountsWord, toNat_bits_ofNat] <;> omega

/-- The answer to QUERY kind 0 about virtual device k. -/
def Vd.infoWord (k : Nat) (v : Vd) : Word :=
  BitVec.ofNat 64 (v.state.code + 2 ^ 8 * k + 2 ^ 16 * v.regions.length + 2 ^ 24 * v.channels.length)

theorem Vd.infoWord_fields {k : Nat} {v : Vd} (hk : k < 256) (hr : v.regions.length < 256)
    (hc : v.channels.length < 256) :
    (bits (v.infoWord k) 0 2).toNat = v.state.code ∧ (bits (v.infoWord k) 8 8).toNat = k ∧
      (bits (v.infoWord k) 16 8).toNat = v.regions.length ∧ (bits (v.infoWord k) 24 8).toNat = v.channels.length ∧
      bits (v.infoWord k) 32 32 = 0 := by
  have hcode := v.state.code_le
  refine ⟨?_, ?_, ?_, ?_, bits_ofNat_eq_zero (by omega)⟩ <;> rw [Vd.infoWord, toNat_bits_ofNat] <;> omega

/-- The answer to QUERY kind 1. -/
def Vd.countWord (v : Vd) : Word := BitVec.ofNat 64 (v.rejected % 2 ^ 32 + 2 ^ 32 * (v.admitted % 2 ^ 32))

theorem Vd.countWord_fields (v : Vd) :
    (bits v.countWord 0 32).toNat = v.rejected % 2 ^ 32 ∧ (bits v.countWord 32 32).toNat = v.admitted % 2 ^ 32 := by
  constructor <;> rw [Vd.countWord, toNat_bits_ofNat] <;> omega

section
variable {s : State} {p : Packet} (hp : s.packet = some p) (hc : p.cmd = 9) (hz : p.unusedZero = true)
include hp hc hz

theorem query_unknown_kind (ha : 2 < p.arg0.toNat) : Ends .query s s p 1 0 := by
  refine .of_answer hp hc (by decide) hz rfl rfl ?_
  split
  case h_4 => rfl
  all_goals omega

theorem query_free_with_handle (ha : p.arg0 = 2) (hh : p.handle ≠ 0#64) : Ends .query s s p 1 0 :=
  .of_answer hp hc (by decide) hz rfl rfl (by simp [ha, hh, Status.badcmd])

theorem query_free (ha : p.arg0 = 2) (hh : p.handle = 0) : Ends .query s s p 0 s.freeCountsWord :=
  .of_answer hp hc (by decide) hz rfl rfl
    (by simp [ha, hh, Status.ok, State.freeCountsWord, State.freeVds])

theorem query_bad_handle (ha : p.arg0.toNat < 2) (hv : s.vdOf p.handle = none) : Ends .query s s p 2 0 := by
  refine .of_answer hp hc (by decide) hz rfl rfl ?_
  obtain hkind | hkind : p.arg0.toNat = 0 ∨ p.arg0.toNat = 1 := by omega
  · simp [hkind, hv, Status.badhandle]
  · simp [hkind, hv, Status.badhandle]

theorem query_info {k : Nat} {v : Vd} (ha : p.arg0 = 0) (hv : s.vdOf p.handle = some (k, v)) :
    Ends .query s s p 0 (v.infoWord k) :=
  .of_answer hp hc (by decide) hz rfl rfl (by simp [ha, hv, Status.ok, Vd.infoWord])

theorem query_counts {k : Nat} {v : Vd} (ha : p.arg0 = 1) (hv : s.vdOf p.handle = some (k, v)) :
    Ends .query s s p 0 v.countWord :=
  .of_answer hp hc (by decide) hz rfl rfl (by simp [ha, hv, Status.ok, Vd.countWord])

end

/-! ### ATTEST (R426) -/

/-- VDINFO of Table 16-8, byte by byte. -/
theorem leBytes_vdInfo {k : Nat} {v : Vd} (hk : k < 256) (hr : v.regions.length < 256) (hc : v.channels.length < 256) :
    leBytes 8 (k + 2 ^ 8 * k + 2 ^ 16 * v.state.code + 2 ^ 24 * v.regions.length + 2 ^ 32 * v.channels.length) =
      [BitVec.ofNat 8 k, BitVec.ofNat 8 k, BitVec.ofNat 8 v.state.code, BitVec.ofNat 8 v.regions.length,
        BitVec.ofNat 8 v.channels.length, 0, 0, 0] := by
  have hcode : v.state.code < 256 := v.state.code_le.trans_lt (by decide)
  have horner : k + 2 ^ 8 * k + 2 ^ 16 * v.state.code + 2 ^ 24 * v.regions.length + 2 ^ 32 * v.channels.length =
      k + 256 * (k + 256 * (v.state.code + 256 * (v.regions.length + 256 * (v.channels.length + 256 * 0)))) := by omega
  rw [horner, leBytes_horner hk, leBytes_horner hk, leBytes_horner hcode, leBytes_horner hr, leBytes_horner hc]
  rfl

/-- POLDIG, TPKH, IDH and VDINFO of Table 16-8: the part of a report that says whom it is about. -/
def reportWho : Option (Nat × Vd) → List Byte
  | some (k, v) =>
    Config.sha3 (v.policy.take 5504) ++ Config.sha3 ((v.policy.drop 1336).take 2592) ++ (Config.sha3 Config.idpk).take 8 ++
      leBytes 8 (k + 2 ^ 8 * k + 2 ^ 16 * v.state.code + 2 ^ 24 * v.regions.length + 2 ^ 32 * v.channels.length)
  | none => List.replicate 128 0 ++ (Config.sha3 Config.idpk).take 8 ++ List.replicate 8 0

theorem State.report0_eq (s : State) (nonce : List Byte) (x : Option (Nat × Vd)) :
    s.report0 nonce x =
      leBytes 8 1 ++ nonce ++ s.host.fwhash ++ reportWho x ++ Config.kempk ++ Config.idpk ++ List.replicate 40 0 := by
  cases x <;> rfl

/-- Whom an ATTEST packet asks about: the module, by handle 0, or the virtual device of its handle. -/
def AttestAbout (s : State) (p : Packet) (x : Option (Nat × Vd)) : Prop :=
  p.handle = 0#64 ∧ x = none ∨ p.handle ≠ 0#64 ∧ s.vdOf p.handle = x ∧ x ≠ none

theorem exists_attestAbout {s : State} {p : Packet} (h : p.handle = 0 ∨ ∃ x, s.vdOf p.handle = some x) :
    ∃ x, AttestAbout s p x := by
  by_cases h0 : p.handle = 0
  · exact ⟨none, .inl ⟨h0, rfl⟩⟩
  · obtain ⟨x, hx⟩ := h.resolve_left h0
    exact ⟨some x, .inr ⟨h0, hx, Option.some_ne_none x⟩⟩

theorem Packet.readable_iff (p : Packet) (n : Nat) : p.readable n = true ↔ p.buf ≠ 0 ∧ p.buf + n ≤ 2 ^ 64 := by
  simp [Packet.readable]

section
variable {s : State} {p : Packet} (hp : s.packet = some p) (hc : p.cmd = 10) (hz : p.unusedZero = true)
include hp hc hz

theorem attest_bad_handle (hh : p.handle ≠ 0#64) (hv : s.vdOf p.handle = none) : Ends .attest s s p 2 0 :=
  .of_answer hp hc (by decide) hz rfl rfl (by simp [hh, hv, Status.badhandle])

theorem attest_bad_buffer {x : Option (Nat × Vd)} (hx : AttestAbout s p x)
    (hbuf : ¬(9107 ≤ p.buflen ∧ p.readable 9107 = true)) : Ends .attest s s p 1 0 := by
  have hbad : (p.buflen < 9107 || !p.readable 9107) = true := by
    simpa [not_and_or, -not_and] using hbuf
  refine .of_answer hp hc (by decide) hz rfl rfl ?_
  obtain ⟨hh, rfl⟩ | ⟨hh, rfl, hsome⟩ := hx
  · simp [hh, hbad, Status.badcmd]
  · obtain ⟨y, hy⟩ := Option.ne_none_iff_exists'.mp hsome
    simp [hh, hy, hbad, Status.badcmd]

/-- The report and its signature go over the buffer, and the answer is their length. -/
theorem attest_reports {x : Option (Nat × Vd)} (hx : AttestAbout s p x) (hlen : 9107 ≤ p.buflen)
    (hbuf : p.readable 9107 = true) :
    let body := s.report0 (s.hostBytes p.buf 64) x
    Ends .attest s (s.arbiterWrite (hostStart + p.buf) (body ++ Config.mldsaSign (Config.sha3 body))) p 0 9107 := by
  refine .of_answer hp hc (by decide) hz rfl rfl ?_
  obtain ⟨hh, rfl⟩ | ⟨hh, rfl, hsome⟩ := hx
  · simp [hh, hbuf, hlen.not_gt, Status.ok]
  · obtain ⟨y, hy⟩ := Option.ne_none_iff_exists'.mp hsome
    simp [hh, hy, hbuf, hlen.not_gt, Status.ok]

end

/-- Settles O53: the checks are those of `asCommand` and `withVd`, by the equation that every command has with them; QUERY by
kind, with the fields of its three words; ATTEST by whom it is about. -/
theorem commandChecks : Obligations.CommandChecks := by
  unfold Obligations.CommandChecks
  intro s p hp
  refine ⟨fun i c hi => ?_, badcmd_ends hp, fun hc hz => ?_, fun hc hz => ?_⟩
  · obtain ⟨hother, hunused⟩ := command_shape_answers hp hi
    exact ⟨hother, hunused, command_vd_answers hp hi⟩
  · refine ⟨query_unknown_kind hp hc hz, query_free_with_handle hp hc hz,
      fun ha hh => ⟨_, query_free hp hc hz ha hh, s.freeCountsWord_fields⟩, query_bad_handle hp hc hz,
      fun k v ha hv hk hr hch => ?_, fun k v ha hv => ⟨_, query_counts hp hc hz ha hv, v.countWord_fields⟩⟩
    obtain ⟨hstate, hrest⟩ := Vd.infoWord_fields hk hr hch
    refine ⟨_, query_info hp hc hz ha hv, hstate.trans ?_, hrest⟩
    cases v.state <;> rfl
  · refine ⟨attest_bad_handle hp hc hz, fun hwho hbuf => ?_, fun x hx hlen hb hend => ?_⟩
    · obtain ⟨x, hx⟩ := exists_attestAbout hwho
      refine attest_bad_buffer hp hc hz hx ?_
      rw [Packet.readable_iff]
      omega
    · have hreport := attest_reports hp hc hz hx hlen ((p.readable_iff _).mpr ⟨hb, hend⟩)
      refine ⟨reportWho x, _, hreport, s.report0_eq _ x, ?_, ?_⟩
      · rintro rfl
        rfl
      · rintro k v rfl hk hr hch
        refine ⟨_, rfl, (leBytes_vdInfo hk hr hch).trans ?_⟩
        cases v.state <;> rfl

end Sys2Proof.Machine
end

