-- ==== Sys2Proof/Proofs/Encodings.lean ====
section
/-!
PROOFS. O47: the decoders give every well-formed instruction back from its words (Tables 2-4 to 2-14).
-/

namespace Sys2Proof

/-! ### Codes of the small tables -/

theorem scopeOfCode_code {sc : Scope} (h : sc.wide = true) : scopeOfCode sc.code = some sc := by
  cases sc <;> first | rfl | simp [Scope.wide] at h

theorem jobScopeOfCode_code {sc : Scope} (h : sc.wide = true) : jobScopeOfCode sc.code = some sc := by
  cases sc <;> first | rfl | simp [Scope.wide] at h

theorem jobScopeOfCode_isSome {c : BitVec 3} (h : c.toNat ≤ 5) : (jobScopeOfCode c).isSome = true := by
  revert c; decide +revert

@[simp] theorem Cond.ofCode_code (c : Cond) : Cond.ofCode c.code = some c := by cases c <;> rfl
theorem Cond.ofCode_low {c : Cond} (h : c.isCompare = true) :
    Cond.ofCode (0#1 ++ bits c.code 0 4) = some c := by
  cases c <;> rfl
@[simp] theorem PushMark.ofCode_code (m : PushMark) : PushMark.ofCode m.code = some m := by cases m <;> rfl
@[simp] theorem ArrSel.ofCode_code (x : ArrSel) : ArrSel.ofCode x.code = some x := by cases x <;> rfl
@[simp] theorem AtomOp.ofCode_code (o : AtomOp) : AtomOp.ofCode o.code = o := by cases o <;> rfl
@[simp] theorem AtomOrd.ofCode_code (o : AtomOrd) : AtomOrd.ofCode o.code = o := by cases o <;> rfl
@[simp] theorem SatomTy.ofCode_code (t : SatomTy) : SatomTy.ofCode t.code = some t := by cases t <;> rfl
@[simp] theorem FenceKind.ofCode_code (k : FenceKind) : FenceKind.ofCode k.code = k := by cases k <;> rfl

/-! ### OP of the three word forms -/

theorem seqOp_srWord (op : Nat) (d a b : BitVec 5) (f : BitVec 9) : seqOp (srWord op d a b f) = op % 256 := by
  rw [seqOp, srWord]
  simp (disch := omega) only [BitVec.extractLsb'_append_eq_of_le, Nat.reduceSub, BitVec.extractLsb'_eq_self,
    BitVec.toNat_ofNat, Nat.reducePow]

theorem seqOp_siWord (op : Nat) (d a : BitVec 5) (i : BitVec 14) : seqOp (siWord op d a i) = op % 256 := by
  rw [seqOp, siWord]
  simp (disch := omega) only [BitVec.extractLsb'_append_eq_of_le, Nat.reduceSub, BitVec.extractLsb'_eq_self,
    BitVec.toNat_ofNat, Nat.reducePow]

theorem seqOp_slWord (op : Nat) (d : BitVec 5) (l : BitVec 19) : seqOp (slWord op d l) = op % 256 := by
  rw [seqOp, slWord]
  simp (disch := omega) only [BitVec.extractLsb'_append_eq_of_le, Nat.reduceSub, BitVec.extractLsb'_eq_self,
    BitVec.toNat_ofNat, Nat.reducePow]



/-! ### Fields of the three word forms -/

section
variable (op : Nat) (d a b : BitVec 5) (f : BitVec 9) (i : BitVec 14) (l : BitVec 19)

theorem srWord_fields : bits (srWord op d a b f) 19 5 = d ∧ bits (srWord op d a b f) 14 5 = a ∧
    bits (srWord op d a b f) 9 5 = b ∧ bits (srWord op d a b f) 0 9 = f ∧ bits (srWord op d a b f) 19 3 = bits d 0 3 ∧
    bits (srWord op d a b f) 22 2 = bits d 3 2 ∧ bits (srWord op d a b f) 14 3 = bits a 0 3 ∧
    bits (srWord op d a b f) 14 4 = bits a 0 4 ∧ bits (srWord op d a b f) 9 4 = bits b 0 4 ∧
    bits (srWord op d a b f) 0 2 = bits f 0 2 := by
  unfold srWord
  simp (disch := omega) only [BitVec.extractLsb'_append_eq_of_le, BitVec.extractLsb'_append_eq_of_add_le, Nat.reduceSub,
    BitVec.extractLsb'_eq_self, and_self]

theorem siWord_fields : bits (siWord op d a i) 19 5 = d ∧ bits (siWord op d a i) 14 5 = a ∧
    bits (siWord op d a i) 0 14 = i ∧ bits (siWord op d a i) 19 4 = bits d 0 4 := by
  unfold siWord
  simp (disch := omega) only [BitVec.extractLsb'_append_eq_of_le, BitVec.extractLsb'_append_eq_of_add_le, Nat.reduceSub,
    BitVec.extractLsb'_eq_self, and_self]

theorem slWord_fields : bits (slWord op d l) 19 5 = d ∧ bits (slWord op d l) 0 19 = l := by
  unfold slWord
  simp (disch := omega) only [BitVec.extractLsb'_append_eq_of_le, BitVec.extractLsb'_append_eq_of_add_le, Nat.reduceSub,
    BitVec.extractLsb'_eq_self, and_self]

end

/-! ### Fields within D, A and F -/

@[simp] theorem q5_fields (q : BitVec 3) : bits (q5 q) 0 3 = q ∧ bits (q5 q) 3 2 = 0 := by decide +revert
@[simp] theorem g5_fields (g : BitVec 4) : bits (g5 g) 0 4 = g ∧ bitAt (g5 g) 4 = false := by decide +revert
@[simp] theorem uF_fields (u : Bool) : bits (uF u) 1 8 = 0 ∧ bitAt (uF u) 0 = u := by decide +revert
@[simp] theorem scF_fields (sc : Scope) (k : BitVec 2) :
    bits (scF sc k) 2 3 = sc.code ∧ bits (scF sc k) 5 4 = 0 ∧ bits (scF sc k) 0 2 = k := by
  cases sc <;> decide +revert

/-! ### Sequencer instructions (Tables 2-12 and 2-14) -/

/-- The scope field of `satom`: .blk where the ordering is none, and else a scope code. -/
theorem satomScope {ord : AtomOrd} {sc : Scope} (h : (ord == .none) = (sc == .blk)) :
    (if ord = .none then (if sc.code = 0#3 then some Scope.blk else none) else scopeOfCode sc.code) = some sc := by
  cases ord <;> cases sc <;> first | rfl | simp at h

/-! The one-word forms, by their chapters: chapter 13 and streams and ordering (OP below 0x50), arrays, steering and atomics
(below 0x80), tasks (below 0x90) and the system instructions. -/

theorem decodeRaw_core {i : Instr} {w : Lane} (hi : seqOk i = true) (he : encodeSeq i = some (w, none))
    (hop : seqOp w < 0x50) (x : Lane) : decodeRaw w x = some i := by
  cases i <;> cases he
  all_goals
    simp only [seqOp_srWord, seqOp_siWord, seqOp_slWord, Nat.reduceMod, Nat.reduceLT, Nat.reduceLeDiff, and_true,
      and_false] at hop
  all_goals
    simp (disch := omega) only [decodeRaw, seqOp_srWord, seqOp_siWord, seqOp_slWord, Nat.reduceMod, srWord_fields,
      siWord_fields, slWord_fields, q5_fields, g5_fields, uF_fields, scF_fields, BitVec.extractLsb'_append_eq_of_le,
      BitVec.extractLsb'_append_eq_of_add_le, Nat.reduceSub, BitVec.extractLsb'_eq_self, BitVec.getLsbD_append]
  all_goals simp [accept, bits]
  all_goals simp_all [seqOk, scopeOfCode_code, jobScopeOfCode_code]

theorem decodeRaw_arrays {i : Instr} {w : Lane} (hi : seqOk i = true) (he : encodeSeq i = some (w, none))
    (hop : 0x50 ≤ seqOp w ∧ seqOp w < 0x80) (x : Lane) : decodeRaw w x = some i := by
  cases i <;> cases he
  all_goals
    simp only [seqOp_srWord, seqOp_siWord, seqOp_slWord, Nat.reduceMod, Nat.reduceLT, Nat.reduceLeDiff, and_true,
      and_false] at hop
  all_goals
    simp (disch := omega) only [decodeRaw, seqOp_srWord, seqOp_siWord, seqOp_slWord, Nat.reduceMod, srWord_fields,
      siWord_fields, slWord_fields, q5_fields, g5_fields, uF_fields, scF_fields, BitVec.extractLsb'_append_eq_of_le,
      BitVec.extractLsb'_append_eq_of_add_le, Nat.reduceSub, BitVec.extractLsb'_eq_self, BitVec.getLsbD_append]
  all_goals simp [accept, bits]
  all_goals simp_all [seqOk, scopeOfCode_code, jobScopeOfCode_code]

theorem decodeRaw_tasks {i : Instr} {w : Lane} (hi : seqOk i = true) (he : encodeSeq i = some (w, none))
    (hop : 0x80 ≤ seqOp w ∧ seqOp w < 0x90) (x : Lane) : decodeRaw w x = some i := by
  cases i <;> cases he
  all_goals
    simp only [seqOp_srWord, seqOp_siWord, seqOp_slWord, Nat.reduceMod, Nat.reduceLT, Nat.reduceLeDiff, and_true,
      and_false] at hop
  all_goals
    simp (disch := omega) only [decodeRaw, seqOp_srWord, seqOp_siWord, seqOp_slWord, Nat.reduceMod, srWord_fields,
      siWord_fields, slWord_fields, q5_fields, g5_fields, uF_fields, scF_fields, BitVec.extractLsb'_append_eq_of_le,
      BitVec.extractLsb'_append_eq_of_add_le, Nat.reduceSub, BitVec.extractLsb'_eq_self, BitVec.getLsbD_append]
  all_goals simp [accept, bits]
  all_goals simp_all [seqOk, scopeOfCode_code, jobScopeOfCode_code]

theorem decodeRaw_system {i : Instr} {w : Lane} (hi : seqOk i = true) (he : encodeSeq i = some (w, none))
    (hop : 0x90 ≤ seqOp w) (x : Lane) : decodeRaw w x = some i := by
  cases i <;> cases he
  all_goals
    simp only [seqOp_srWord, seqOp_siWord, seqOp_slWord, Nat.reduceMod, Nat.reduceLT, Nat.reduceLeDiff, and_true,
      and_false] at hop
  all_goals
    simp (disch := omega) only [decodeRaw, seqOp_srWord, seqOp_siWord, seqOp_slWord, Nat.reduceMod, srWord_fields,
      siWord_fields, slWord_fields, q5_fields, g5_fields, uF_fields, scF_fields, BitVec.extractLsb'_append_eq_of_le,
      BitVec.extractLsb'_append_eq_of_add_le, Nat.reduceSub, BitVec.extractLsb'_eq_self, BitVec.getLsbD_append]
  all_goals simp [accept, bits]
  all_goals simp_all [seqOk, scopeOfCode_code, jobScopeOfCode_code]

theorem decodeRaw_oneWord {i : Instr} {w : Lane} (hi : seqOk i = true) (he : encodeSeq i = some (w, none))
    (x : Lane) : decodeRaw w x = some i := by
  by_cases h : seqOp w < 0x50
  · exact decodeRaw_core hi he h x
  by_cases h' : seqOp w < 0x80
  · exact decodeRaw_arrays hi he ⟨not_lt.1 h, h'⟩ x
  by_cases h'' : seqOp w < 0x90
  · exact decodeRaw_tasks hi he ⟨not_lt.1 h', h''⟩ x
  · exact decodeRaw_system hi he (not_lt.1 h'') x

theorem decodeRaw_twoWords {i : Instr} {w w2 : Lane} (hi : seqOk i = true) (he : encodeSeq i = some (w, some w2)) :
    decodeRaw w w2 = some i := by
  cases i <;> cases he
  all_goals
    simp (disch := omega) only [decodeRaw, seqOp_srWord, seqOp_siWord, seqOp_slWord, Nat.reduceMod, srWord_fields,
      siWord_fields, slWord_fields, q5, g5, uF, scF, BitVec.extractLsb'_append_eq_of_le,
      BitVec.extractLsb'_append_eq_of_add_le, Nat.reduceSub, BitVec.extractLsb'_eq_self, BitVec.getLsbD_append]
  case bchn sc d h b arr c0 gm1 =>
    obtain ⟨_, hs⟩ := Option.isSome_iff_exists.1 (jobScopeOfCode_isSome (of_decide_eq_true hi))
    simp [accept, hs]
  case satom d a b c op wide ord sc ty =>
    simp only [seqOk, Bool.and_eq_true, beq_iff_eq] at hi
    obtain ⟨⟨-, hs⟩, -⟩ := hi
    simp [accept, satomScope hs]
  case waita d a b c cond sc acq =>
    simp only [seqOk, Bool.and_eq_true] at hi
    obtain ⟨hc, hs⟩ := hi
    simp [accept, Cond.ofCode_low hc, scopeOfCode_code hs]
  all_goals simp_all [accept, seqOk, scopeOfCode_code, jobScopeOfCode_code]

theorem twoWords_encodeSeq {i : Instr} {w : Lane} {w2 : Option Lane} (he : encodeSeq i = some (w, w2)) :
    w2.isSome = twoWords (seqOp w) := by
  cases i <;> cases he <;> simp only [seqOp_srWord, seqOp_siWord, seqOp_slWord] <;> rfl

theorem decodeSeq_encodeSeq {i : Instr} {w : Lane} {w2 : Option Lane} (hi : seqOk i = true)
    (he : encodeSeq i = some (w, w2)) : decodeSeq w (w2.getD 0) = some i ∧ (w2 = none → ∀ x, decodeSeq w x = some i) := by
  cases w2 with
  | none => simp [decodeSeq, decodeRaw_oneWord hi he, hi]
  | some w2 => simp [decodeSeq, decodeRaw_twoWords hi he, hi]

/-! ### Fabric words (Tables 2-4 to 2-9) -/

@[simp] theorem ElemTy.ofCode_code (t : ElemTy) : ElemTy.ofCode t.code = some t := by cases t <;> rfl
@[simp] theorem Pred.ofCode_code (p : Pred) : Pred.ofCode p.code = some p := by cases p <;> rfl

theorem ElemTy.code_of_ofCode {c : BitVec 4} {t : ElemTy} (h : ElemTy.ofCode c = some t) : t.code = c := by
  revert t; decide +revert

theorem Pred.code_of_ofCode {c : BitVec 2} {p : Pred} (h : Pred.ofCode c = some p) : p.code = c := by
  cases p <;> (revert h; decide +revert)

@[simp] theorem decodeTarget_encodeTarget (t : Target) : decodeTarget (encodeTarget t) = some t := by
  cases t with
  | absent => rfl
  | operand i s =>
    simp (disch := omega) only [decodeTarget, encodeTarget, BitVec.extractLsb'_append_eq_of_le,
      BitVec.extractLsb'_append_eq_of_add_le, Nat.reduceSub, BitVec.extractLsb'_eq_self]
    cases s <;> rfl
  | port i =>
    simp (disch := omega) only [decodeTarget, encodeTarget, BitVec.extractLsb'_append_eq_of_le,
      BitVec.extractLsb'_append_eq_of_add_le, Nat.reduceSub, BitVec.extractLsb'_eq_self]
    rfl
  | acc r => decide +revert

/-- A target field is the one that encodes what it decodes to (Table 2-6). -/
theorem encodeTarget_of_decodeTarget_append {k slot : BitVec 2} {index : BitVec 7} {t : Target}
    (h : decodeTarget (k ++ index ++ slot) = some t) : encodeTarget t = k ++ index ++ slot := by
  simp (disch := omega) only [decodeTarget, BitVec.extractLsb'_append_eq_of_le,
    BitVec.extractLsb'_append_eq_of_add_le, Nat.reduceSub, BitVec.extractLsb'_eq_self] at h
  split at h
  next hk =>
    rw [show k = 0 from BitVec.eq_of_toNat_eq hk]
    split_ifs at h with hz
    cases h
    simp only [Bool.and_eq_true, beq_iff_eq] at hz
    rw [hz.1, hz.2]
    rfl
  next hk =>
    rw [show k = 1 from BitVec.eq_of_toNat_eq hk]
    cases h
    have hs : slot = 0 ∨ slot = 1 ∨ slot = 2 ∨ slot = 3 := by clear hk; decide +revert
    rcases hs with rfl | rfl | rfl | rfl <;> rfl
  next hk =>
    rw [show k = 2 from BitVec.eq_of_toNat_eq hk]
    split_ifs at h with hz
    cases h
    rw [eq_of_beq hz]
    rfl
  next h0 h1 h2 =>
    have hk : k = 3 := by clear h; decide +revert
    split_ifs at h with hz
    cases h
    simp only [Bool.and_eq_true, beq_iff_eq, decide_eq_true_eq] at hz
    obtain ⟨rfl, hi⟩ := hz
    have hc : ((3 : BitVec 2) ++ (0 : BitVec 1) ++ bits index 0 6 : BitVec 9) = (3 : BitVec 2) ++ index := by
      clear h0 h1 h2 hk; decide +revert
    rw [hk]
    exact congrArg (fun y : BitVec 9 => (y ++ (0 : BitVec 2) : BitVec 11)) hc

theorem encodeTarget_of_decodeTarget {x : BitVec 11} {t : Target} (h : decodeTarget x = some t) : encodeTarget t = x := by
  have hx : bits x 9 2 ++ bits x 2 7 ++ bits x 0 2 = x := by
    simp (disch := omega) only [BitVec.extractLsb'_append_extractLsb'_eq_extractLsb', BitVec.extractLsb'_eq_self]
  rw [← hx] at h
  rw [encodeTarget_of_decodeTarget_append h, hx]

section
variable (opc : Nat) (f : Fields)

theorem encodeFabric_fields : bits (encodeFabric opc f) 56 8 = BitVec.ofNat 8 opc ∧ bits (encodeFabric opc f) 50 6 = f.fn ∧
    bits (encodeFabric opc f) 46 4 = f.ty.code ∧ bits (encodeFabric opc f) 35 11 = encodeTarget f.tga ∧
    bits (encodeFabric opc f) 24 11 = encodeTarget f.tgb ∧ bits (encodeFabric opc f) 21 3 = f.dpa ∧
    bits (encodeFabric opc f) 18 3 = f.dpb ∧ bits (encodeFabric opc f) 16 2 = f.pm.code ∧
    bits (encodeFabric opc f) 0 16 = f.imm := by
  unfold encodeFabric
  simp (disch := omega) only [BitVec.extractLsb'_append_eq_of_le, BitVec.extractLsb'_append_eq_of_add_le, Nat.reduceSub,
    BitVec.extractLsb'_eq_self, and_self]

theorem fabricFields_encodeFabric : fabricFields (encodeFabric opc f) = some f := by
  simp [fabricFields, encodeFabric_fields]

variable {opc f}

theorem fabricOpc_encodeFabric (ha : opcodeAssigned opc = true) : fabricOpc (encodeFabric opc f) = opc := by
  have : opc < 256 := by simp [opcodeAssigned] at ha; omega
  simp [fabricOpc, encodeFabric_fields, Nat.mod_eq_of_lt this]

theorem fabricCause_eq_none (ha : opcodeAssigned opc = true) (hf : f.ok opc = true) :
    fabricCause (encodeFabric opc f) = none := by
  have ho := fabricOpc_encodeFabric (f := f) ha
  simp only [Fields.ok, Bool.and_eq_true] at hf
  obtain ⟨⟨hi, ht⟩, hp⟩ := hf
  have ht' : targetsOk opc { f with pm := .always } = true := ht
  simp [fabricCause, ho, ha, encodeFabric_fields, hi, hp, ht']

end

/-- The fields that a fabric word decodes to give the word back. -/
theorem encodeFabric_of_fabricFields {w : Word} {f : Fields} (h : fabricFields w = some f) :
    encodeFabric (fabricOpc w) f = w := by
  simp only [fabricFields, Option.bind_eq_bind, Option.bind_eq_some_iff, Option.pure_def, Option.some.injEq] at h
  obtain ⟨ty, hty, tga, hta, tgb, htb, pm, hpm, rfl⟩ := h
  simp only [encodeFabric, fabricOpc, BitVec.ofNat_toNat, BitVec.setWidth_eq, ElemTy.code_of_ofCode hty,
    encodeTarget_of_decodeTarget hta, encodeTarget_of_decodeTarget htb, Pred.code_of_ofCode hpm]
  simp (disch := omega) only [BitVec.extractLsb'_append_extractLsb'_eq_extractLsb', BitVec.extractLsb'_eq_self]

theorem ofFabric_fabric? {i : Instr} {opc : Nat} {f : Fields} (hp : pipsFn i = true) (h : i.fabric? = some (opc, f)) :
    Instr.ofFabric opc f = some i := by
  cases i <;> cases h
  case pipsEnt | pipsOut | pipsRd | pipsSet | pipsClr => rw [Instr.ofFabric, eq_of_beq hp]; rfl
  all_goals rfl

theorem fabric?_of_ofFabric {i : Instr} {opc : Nat} {f : Fields} (h : Instr.ofFabric opc f = some i) :
    i.fabric? = some (opc, f) ∧ pipsFn i = true ∧ seqOk i = true := by
  unfold Instr.ofFabric at h
  split at h
  case h_78 =>
    -- `pips`: FN tells the five instructions apart
    split at h <;> cases h
    all_goals exact ⟨rfl, beq_iff_eq.2 (BitVec.eq_of_toNat_eq ‹_›), rfl⟩
  all_goals cases h
  all_goals exact ⟨rfl, rfl, rfl⟩

theorem opcodeAssigned_of_fabric? {i : Instr} {opc : Nat} {f : Fields} (h : i.fabric? = some (opc, f)) :
    opcodeAssigned opc = true := by
  cases i <;> cases h <;> rfl

theorem decodeFabric_of_fields {w : Word} {i : Instr} {f : Fields} (hc : fabricCause w = none)
    (hf : fabricFields w = some f) (hi : Instr.ofFabric (fabricOpc w) f = some i) : decodeFabric w = .ok i := by
  unfold decodeFabric
  simp only [hc, hf, hi]

theorem decodeFabric_encodeFabric {i : Instr} {opc : Nat} {f : Fields} (hw : WellFormed i = true)
    (hf : i.fabric? = some (opc, f)) : decodeFabric (encodeFabric opc f) = .ok i := by
  rw [WellFormed, hf, Bool.and_eq_true, Bool.and_eq_true] at hw
  obtain ⟨⟨-, hp⟩, ho⟩ := hw
  have ha := opcodeAssigned_of_fabric? hf
  refine decodeFabric_of_fields (fabricCause_eq_none ha ho) (fabricFields_encodeFabric opc f) ?_
  rw [fabricOpc_encodeFabric ha]
  exact ofFabric_fabric? hp hf

theorem ok_of_fabricCause {w : Word} {f : Fields} (h : fabricCause w = none) (hf : fabricFields w = some f) :
    f.ok (fabricOpc w) = true := by
  simp only [fabricFields, Option.bind_eq_bind, Option.bind_eq_some_iff, Option.pure_def, Option.some.injEq] at hf
  obtain ⟨ty, hty, tga, hta, tgb, htb, pm, hpm, rfl⟩ := hf
  simp only [fabricCause, hty, hta, htb, hpm] at h
  split_ifs at h with h1 h2 h3 h4
  simp only [Bool.not_eq_true', Bool.not_eq_false] at h1 h2 h3
  simp only [Fields.ok, h2, h4, Bool.true_and, Bool.and_true]
  exact h3

theorem decodeFabric_ok {w : Word} {i : Instr} (h : decodeFabric w = .ok i) :
    WellFormed i = true ∧ ∃ opc f, i.fabric? = some (opc, f) ∧ encodeFabric opc f = w := by
  unfold decodeFabric at h
  split at h
  · cases h
  next hc =>
    split at h
    · cases h
    next f hf =>
      split at h
      next j hj =>
        cases h
        obtain ⟨hq, hp, hs⟩ := fabric?_of_ofFabric hj
        exact ⟨by simp [WellFormed, hq, hp, hs, ok_of_fabricCause hc hf], _, f, hq, encodeFabric_of_fabricFields hf⟩
      · cases h

/-- Settles O47: a sequencer instruction by the fields of its three word forms, arm by arm of the decoder; a fabric word by
the inverses of its code tables, and the table of opcodes read both ways. -/
theorem encodings : Obligations.Encodings :=
  ⟨fun i w w2 hw he => by
    simp only [WellFormed, Bool.and_eq_true] at hw
    obtain ⟨⟨hs, -⟩, -⟩ := hw
    exact ⟨(decodeSeq_encodeSeq hs he).1, (decodeSeq_encodeSeq hs he).2, twoWords_encodeSeq he⟩,
  fun _ _ _ hw hf => decodeFabric_encodeFabric hw hf, fun _ _ h => decodeFabric_ok h⟩

end Sys2Proof
end

