-- ==== Sys2Proof/Proofs/SeqControl.lean ====
section
/-!
PROOFS. O3, O4, O5, O7: loads, stores, branches, the privilege and slice checks, `bar`, `bst` and the slices.
-/

namespace Sys2Proof.Machine

/-! ### Who may issue (R65, R66, R335) -/

/-- The mark of Table 2-14 that an instruction is issued under. -/
def seqMark (i : Instr) : Mark :=
  match i with
  | .cfgw .. => .rootOnly
  | _ => if markedP i then .privileged else .user

/-- A slice may contain the instruction (R335). -/
def sliceHolds (i : Instr) : Bool := sliceMay i || (aluResult i fun _ => 0).isSome

/-- Every coded sequencer instruction but `sysr` and `sysw` is issued under its mark. -/
theorem exec_eq_issueAs {i : Instr} {w : Lane × Option Lane} (h : encodeSeq i = some w) (hr : ∀ d r, i ≠ .sysr d r)
    (hw : ∀ r a, i ≠ .sysw r a) : ∃ f : State → Nat → Res, ∀ s, exec i s = issueAs s (seqMark i) (sliceHolds i) (f s) := by
  cases i <;> cases h
  case sysr d r => exact absurd rfl (hr d r)
  case sysw r a => exact absurd rfl (hw r a)
  all_goals exact ⟨_, fun _ => rfl⟩

section
variable {s : State} {q : Nat} (ha : s.actor = .sequencer q)
include ha

theorem issueAs_illop (hq : q < 128) (ok : Bool) (f : Nat → Res) :
    issueAs s .rootOnly ok f = .next (s.raise q .illop 0) := by
  have hr : isRoot q = false := by simp [isRoot, hq]
  simp [issueAs, State.me, ha, hr]

theorem issueAs_priv (hp : (s.seq q).priv = false) (ok : Bool) (f : Nat → Res) :
    issueAs s .privileged ok f = .next (s.raise q .priv 0) := by
  simp [issueAs, State.me, ha, hp]

theorem issueAs_sliceop {m : Mark} (hs : (s.seq q).inSlice = true) (hr : m ≠ .rootOnly)
    (hp : m = .privileged → (s.seq q).priv = true) (f : Nat → Res) :
    issueAs s m false f = .next (s.raise q .sliceop (s.seq q).ip) := by
  cases m <;> simp_all [issueAs, State.me]

/-- An instruction of user mode that a slice may hold does what it says, in a slice or not. -/
theorem issueAs_sliceMay (f : Nat → Res) : issueAs s .user true f = f q :=
  issueAs_runs s q .user true f ha (by simp) (by simp) (by simp)

end

/-- An instruction that names ready registers outside a slice does what it says. -/
theorem Issues.runs {s : State} {q : Nat} {l : List SReg} (h : Issues s q l) (ok : Bool) (f : Nat → Res) :
    issueAs s .user ok f = f q :=
  issueAs_runs s q .user ok f h.2.1 (by simp) (by simp) (by simp [h.2.2.2])

theorem IssuesPriv.runs {s : State} {q : Nat} {l : List SReg} (h : IssuesPriv s q l) (ok : Bool) (f : Nat → Res) :
    issueAs s .privileged ok f = f q :=
  issueAs_runs s q .privileged ok f h.1.2.1 (by simp) (fun _ => h.2) (by simp [h.1.2.2.2])

theorem encodeSeq_of_markedP {i : Instr} (h : markedP i = true) : ∃ w, encodeSeq i = some w := by
  cases i <;> cases h <;> exact ⟨_, rfl⟩

theorem seqMark_of_markedP {i : Instr} (h : markedP i = true) : seqMark i = .privileged := by
  cases i <;> cases h <;> rfl

/-! ### Branches (R63, R344) -/

/-- A condition of `bcc` as the model decides it: of two registers, or of a token. -/
def condHolds (c : Cond) (x y token : Word) : Bool :=
  if c.isCompare then compareHolds c x y else tokenHolds c token

theorem condHolds_iff (c : Cond) (x y token : Word) : condHolds c x y token = true ↔ branchTaken c x y token := by
  cases c <;> simp [condHolds, branchTaken, Cond.isCompare, compareHolds, tokenHolds, BitVec.slt, BitVec.ult]

/-- What `bcc` does once its registers can be read. -/
theorem execBcc_eq {s : State} {q : Nat} {c : Cond} {off : BitVec 19} {a b : SReg} {token : Word}
    (ha : s.actor = .sequencer q) (hr : c.isCompare = true → (s.seq q).allReady [a, b] = true)
    (ho : c.isCompare = false → (s.seq q).outstanding a = false)
    (ht : (s.seq q).armed a = true → token = 0) (ht' : (s.seq q).armed a = false → token = (s.seq q).read a) :
    exec (.bcc c off a b) s =
      if condHolds c ((s.seq q).read a) ((s.seq q).read b) token then
        if (s.seq q).inSlice && !sliceTargetOk (s.seq q) ((s.seq q).ip + wordOffset off) then
          .next (s.raise q .sliceop (s.seq q).ip)
        else .next (s.jump q ((s.seq q).ip + wordOffset off))
      else .next (s.jump q ((s.seq q).ip + 8)) := by
  have htok : (s.seq q).token a = token := by
    cases h : (s.seq q).armed a <;> simp_all [Seq.token]
  change issueAs s .user true _ = _
  rw [issueAs_sliceMay ha]
  cases hc : c.isCompare
  · simp only [hc, ho hc, htok, condHolds, Bool.false_eq_true, if_false]
    cases tokenHolds c token <;> simp
  · simp only [hc, hr hc, condHolds, if_true, Bool.not_true, Bool.false_eq_true, if_false]
    cases compareHolds c ((s.seq q).read a) ((s.seq q).read b) <;> simp

/-- Settles O5: every instruction goes through `issueAs` under its mark; `bcc` by its equation. -/
theorem whoMayExecute : Obligations.WhoMayExecute := by
  refine ⟨fun i s q ha hi => ⟨fun hm hp => ?_, fun hq a b => ?_⟩, fun i s q ha hs hi ⟨w, hw⟩ => ⟨?_, ?_⟩⟩
  · obtain ⟨w, hw⟩ := encodeSeq_of_markedP hm
    obtain ⟨f, hf⟩ := exec_eq_issueAs hw (by rintro d r rfl; cases hm) (by rintro r a rfl; cases hm)
    refine ⟨_, ?_, s.raise_trapped q .priv 0 hi⟩
    rw [hf, seqMark_of_markedP hm, issueAs_priv ha hp]
  · exact ⟨_, issueAs_illop ha hq false _, s.raise_trapped q .illop 0 hi⟩
  · intro hmay halu hcfgw hsysr hsysw hp
    obtain ⟨f, hf⟩ := exec_eq_issueAs hw hsysr hsysw
    refine ⟨_, ?_, s.raise_trapped q .sliceop _ hi⟩
    have hm : seqMark i ≠ .rootOnly ∧ (seqMark i = .privileged → (s.seq q).priv = true) := by
      unfold seqMark
      split
      next => exact absurd rfl (hcfgw _ _)
      next => cases hmi : markedP i <;> simp_all
    rw [hf, sliceHolds, hmay, halu]
    exact issueAs_sliceop ha hs hm.1 hm.2 _
  · rintro c off a b token rfl hr ho ht ht' htaken hok
    refine ⟨_, ?_, s.raise_trapped q .sliceop _ hi⟩
    rw [execBcc_eq ha hr ho ht ht', if_pos ((condHolds_iff ..).2 htaken), if_pos]
    rw [hs, Bool.true_and, Bool.not_eq_true']
    exact hok

/-! ### Jumps (R344, R345) -/

/-- A write of a link register and a jump: nothing but the register and the IP changes. -/
theorem exec_link {i : Instr} {s : State} {q : Nat} {d : SReg} {x target : Word}
    (h : exec i s = .next ((s.setSeq q ((s.seq q).write d x)).jump q target)) :
    ∃ w : Seq, exec i s = .next (s.setSeq q w) ∧ w.ip = target ∧
      (∀ r, w.read r = if r = d ∧ d ≠ 0 then x else (s.seq q).read r) ∧
      SameButRegs (s.seq q) w ∧ OtherBankStays (s.seq q) w ∧ BytesStay s (s.setSeq q w) := by
  refine ⟨{ (s.seq q).write d x with ip := target }, ?_, rfl, ?_, ?_, ?_, .setSeq _ _ _⟩
  · simp [h, State.jump]
  · intro r
    change ((s.seq q).write d x).read r = _
    by_cases hd : d = 0
    · rw [hd, Seq.write_zero, if_neg fun h => h.2 rfl]
    · by_cases e : r = d
      · rw [e, Seq.read_write_self _ _ _ hd, if_pos ⟨rfl, hd⟩]
      · rw [Seq.read_write_ne _ _ _ _ e, if_neg fun h => e h.1]
  · unfold SameButRegs Seq.write Seq.writeBank
    split_ifs <;> rfl
  · unfold OtherBankStays
    split_ifs with hp
    · exact Seq.write_user_priv _ _ _ hp
    · exact Seq.write_bank_user _ _ _ (by simpa using hp)

theorem wordOffset_eq (off : BitVec 19) : wordOffset off = 4 * off.signExtend 64 := rfl

theorem Seq.allReady_cons {v : Seq} {r : SReg} {l : List SReg} :
    v.allReady (r :: l) = true ↔ v.ready r = true ∧ v.allReady l = true := by simp [Seq.allReady]

/-- `jal` and `jalr` once their registers can be read: the link and the jump, or ALIGN. -/
theorem execJump_eq {s : State} {q : Nat} {d a : SReg} {off : BitVec 19} {i : BitVec 14} {j : Instr} {target : Word}
    (hj : j = .jal d off ∧ target = (s.seq q).ip + 4 * off.signExtend 64 ∨
      j = .jalr d a i ∧ target = (s.seq q).read a + i.signExtend 64) (hi : Issues s q [d, a]) :
    exec j s = if target.toNat % 4 ≠ 0 then .next (s.raise q .align target)
      else .next ((s.setSeq q ((s.seq q).write d ((s.seq q).ip + 4))).jump q target) := by
  obtain ⟨hd, -⟩ := Seq.allReady_cons.1 hi.2.2.1
  obtain ⟨rfl, rfl⟩ | ⟨rfl, rfl⟩ := hj
  · refine (hi.runs false _).trans ?_
    simp [hd, wordOffset]
  · refine (hi.runs false _).trans ?_
    simp [hi.2.2.1, sext14]

/-- Settles O4: the equations of the jumps and of `bcc`; a jump changes nothing but the link register and the IP. -/
theorem branchesAndJumps : Obligations.BranchesAndJumps := by
  refine ⟨fun s q d a off i j target hj hi => ⟨fun h4 => ?_, fun h4 hinh => ?_⟩, ?_⟩
  · exact exec_link (by rw [execJump_eq hj hi, if_neg (by simpa using h4)])
  · exact ⟨_, by rw [execJump_eq hj hi, if_pos h4], s.raise_trapped q .align target hinh⟩
  · intro s q c off a b token ha hr hsl ho ht ht'
    by_cases hc : branchTaken c ((s.seq q).read a) ((s.seq q).read b) token
    · refine ⟨{ s.seq q with ip := (s.seq q).ip + 4 * off.signExtend 64 }, ?_, rfl, .setSeq _ _ _, fun _ => rfl,
        fun h => absurd hc h⟩
      rw [execBcc_eq ha hr ho ht ht', if_pos ((condHolds_iff ..).2 hc), if_neg]
      · rfl
      · cases h : (s.seq q).inSlice <;> simp_all [wordOffset]
    · refine ⟨{ s.seq q with ip := (s.seq q).ip + 8 }, ?_, rfl, .setSeq _ _ _, fun h => absurd h hc, fun _ => rfl⟩
      rw [execBcc_eq ha hr ho ht ht', if_neg (fun h => hc ((condHolds_iff ..).1 h))]
      rfl

/-! ### Loads and stores (R339) -/

theorem bitAt_setBit {n : Nat} (x : BitVec n) (i j : Nat) (hi : i < n) (b : Bool) :
    bitAt (setBit x i b) j = if j = i then b else bitAt x j := by
  unfold bitAt setBit
  cases b
  · simp only [Bool.false_eq_true, if_false, BitVec.getLsbD_and, BitVec.getLsbD_not, BitVec.getLsbD_shiftLeft,
      BitVec.getLsbD_one]
    by_cases e : j = i
    · subst e; simp [hi, Nat.zero_lt_of_lt hi]
    · by_cases hj : j < n
      · have : ¬ (j - i = 0 ∧ i ≤ j) := by omega
        simp [hj, e]; omega
      · simp [BitVec.getLsbD_of_ge x j (by omega), e]
  · simp only [if_true, BitVec.getLsbD_or, BitVec.getLsbD_shiftLeft, BitVec.getLsbD_one]
    by_cases e : j = i
    · subst e; simp [hi, Nat.zero_lt_of_lt hi]
    · simp [e]; omega

theorem Seq.outstanding_setOut (v : Seq) (d r : SReg) (b : Bool) :
    (v.setOut v.priv d b).outstanding r = if r = d ∧ d ≠ 0 then b else v.outstanding r := by
  have hn : r.toNat = d.toNat ↔ r = d := BitVec.toNat_inj
  by_cases hd : d = 0#5
  · simp [Seq.setOut, hd]
  · have hd' : (d = 0) = False := eq_false hd
    cases hp : v.priv <;>
      simp only [Seq.setOut, Seq.outstanding, hd', hp, if_false, if_true, bitAt_setBit _ _ _ d.isLt, hn, Bool.false_eq_true] <;>
      by_cases e : r = d <;> simp [e, hd]

/-- A setOut touches the marks of outstanding registers alone. -/
theorem Seq.setOut_same (v : Seq) (p : Bool) (d : SReg) (b : Bool) :
    (v.setOut p d b).user = v.user ∧ (v.setOut p d b).bank = v.bank ∧ (v.setOut p d b).ip = v.ip ∧
      (v.setOut p d b).priv = v.priv := by
  unfold Seq.setOut
  split_ifs <;> exact ⟨rfl, rfl, rfl, rfl⟩

/-- Placing an event leaves the sequencers, regions and planes. -/
theorem State.place_same (s : State) (a : Nat) (e : Ev) :
    (s.place a e).seqs = s.seqs ∧ (s.place a e).regions = s.regions ∧ (s.place a e).planes = s.planes := by
  unfold State.place
  split_ifs <;> exact ⟨rfl, rfl, rfl⟩

@[simp] theorem State.seq_place (s : State) (a : Nat) (e : Ev) (q : Nat) : (s.place a e).seq q = s.seq q := by
  simp [State.seq, State.place_same]

theorem isBlockKey_seq {q : Nat} (h : q < 132) : isBlockKey q = false := by
  simp [isBlockKey]; omega

/-- What is placed of a state stays placed when a sequencer's record changes before and after. -/
theorem Placed.setSeq {s u t : State} {a : Nat} {e : Ev} (h : Placed u t a e) (hn : u.nextId = s.nextId)
    (hm : u.mem = s.mem) (ha : u.agents = s.agents) (q : Nat) (v : Seq) : Placed s (t.setSeq q v) a e := by
  obtain ⟨h1, h2, h3, h4, h5, h6⟩ := h
  have hag : ∀ b, u.agent b = s.agent b := fun b => by simp [State.agent, ha]
  refine ⟨h1.trans hn, h2.trans (by rw [hn]), h3.trans hm, ?_, ?_, ?_⟩
  · rw [← hag]; exact h4
  · intro b hb; rw [← hag]; exact h5 b hb
  · exact (BytesStay.of_eq hm ha).trans (h6.trans (.of_eq rfl rfl))

theorem length_keysFrom (k n : Nat) : (keysFrom k n).length = n := by
  induction n generalizing k with
  | zero => rfl
  | succ n ih => simp [keysFrom, ih]

section
variable {s : State} {q : Nat} {va : Word} {n : Nat} {p : Phys} {k : EvKind}

theorem keys_seqEvent : (s.seqEvent q va n p k).pieces.map Piece.key = keysFrom p.key n := by
  simp [State.seqEvent, Function.comp_def]

/-- The bytes of a sequencer's write, each whole, at the keys of its access. -/
theorem pieces_withBytes {bs : List Byte} (h : bs.length = n) :
    let ps := ((s.seqEvent q va n p k).withBytes bs).pieces
    ps.map Piece.key = keysFrom p.key n ∧ ps.map Piece.value = bs ∧ ∀ x ∈ ps, x.mask = 0xFF := by
  have hl : (keysFrom p.key n).length = bs.length := (length_keysFrom ..).trans h.symm
  simp only [State.seqEvent, Ev.withBytes, List.zip_map_left, List.map_map, Function.comp_def, Prod.map_fst, Prod.map_snd, id]
  refine ⟨?_, ?_, ?_⟩
  · exact List.map_fst_zip hl.le
  · exact List.map_snd_zip hl.ge
  · intro x hx
    obtain ⟨y, -, rfl⟩ := List.mem_map.1 hx
    rfl

end

/-- From s to t a sequencer's instruction has placed event e and gone on by n bytes: its registers stay. -/
theorem placed_advance {s u : State} {q n : Nat} {e : Ev} (hq : q < 132) (hn : u.nextId = s.nextId) (hm : u.mem = s.mem)
    (ha : u.agents = s.agents) (hs : ∀ j, j ≠ q → u.seq j = s.seq j) (hu : (u.seq q).user = (s.seq q).user)
    (hb : (u.seq q).bank = (s.seq q).bank) (hi : (u.seq q).ip = (s.seq q).ip) :
    let t := (u.place q e).advance q n
    Placed s t q { e with id := u.nextId } ∧ RegsStay s t q ∧ (t.seq q).ip = (s.seq q).ip + BitVec.ofNat 64 n ∧
      (∀ j, j ≠ q → t.seq j = s.seq j) ∧ t.seq q = { u.seq q with ip := (t.seq q).ip } := by
  refine ⟨(State.place_placed u q e (isBlockKey_seq hq)).setSeq hn hm ha q _, ?_, ?_, ?_, ?_⟩
  · simp [RegsStay, State.advance, hu, hb]
  · simp [State.advance, hi]
  · intro j hj
    simp [State.advance, State.seq_setSeq_ne, hj, hs]
  · simp [State.advance]

/-- The read that `sld` places. -/
def State.loadEvent (s : State) (q : Nat) (d : SReg) (va : Word) (p : Phys) : Ev :=
  { s.seqEvent q va 8 p .read with dest := .sreg q (s.seq q).priv d false }

/-- R339: `sld` of a translated address places its read and goes on; its destination is outstanding. -/
theorem execSld_places {s : State} {q : Nat} {d a : SReg} {i : BitVec 14} {p : Phys}
    (ha : s.actor = .sequencer q) (hr : (s.seq q).allReady [d, a] = true) (hl : s.loadsHeld q < 8)
    (hp : s.reach q (reqLoad q) ((s.seq q).read a + i.signExtend 64) 8 .read = .to p) :
    exec (.sld d a i) s = .next (((s.setSeq q ((s.seq q).setOut (s.seq q).priv d true)).place q
      (s.loadEvent q d ((s.seq q).read a + i.signExtend 64) p)).advance q 4) := by
  refine (issueAs_sliceMay ha _).trans ?_
  simp only [hr, sext14, hp, Nat.not_le.2 hl, decide_false, Bool.or_false, Bool.not_true, Bool.false_eq_true, if_false]
  rfl

theorem execSst_places {s : State} {q : Nat} {d a : SReg} {i : BitVec 14} {p : Phys} (hi : Issues s q [d, a])
    (hl : s.storesHeld q < 16)
    (hp : s.reach q (reqLoad q) ((s.seq q).read a + i.signExtend 64) 8 .write = .to p)
    (hh : s.seqHit q ((s.seq q).read a + i.signExtend 64) 8 = none) :
    exec (.sst d a i) s = .next ((s.place q ((s.seqEvent q ((s.seq q).read a + i.signExtend 64) 8 p .write).withBytes
      (leBytes 8 ((s.seq q).read d).toNat))).advance q 4) := by
  refine (hi.runs false _).trans ?_
  simp only [hi.2.2.1, sext14, hp, hh, Nat.not_le.2 hl, decide_false, Bool.or_false, Bool.not_true, Bool.false_eq_true,
    if_false, State.afterStore]

/-- An access whose address cannot be reached is a trap. -/
theorem exec_reach_out {s t : State} {q : Nat} {d a : SReg} {i : BitVec 14} {j : Instr}
    (hj : j = .sld d a i ∧ s.loadsHeld q < 8 ∨ j = .sst d a i ∧ s.storesHeld q < 16) (hi : Issues s q [d, a])
    (ht : s.reach q (reqLoad q) ((s.seq q).read a + i.signExtend 64) 8 (if j = .sld d a i then .read else .write) = .out t) :
    exec j s = .next t := by
  obtain ⟨rfl, hl⟩ | ⟨rfl, hl⟩ := hj
  · rw [if_pos rfl] at ht
    refine (hi.runs true _).trans ?_
    simp [hi.2.2.1, sext14, ht, hl]
  · rw [if_neg (by simp)] at ht
    refine (hi.runs false _).trans ?_
    simp [hi.2.2.1, sext14, ht, hl]

/-- Settles O3: the equations of the two accesses, and `State.reach` for the addresses that fault. -/
theorem loadsAndStores : Obligations.LoadsAndStores := by
  refine ⟨?_, ?_, ?_⟩
  · intro s q d a i p hq ha hr hl hp
    obtain ⟨hu, hb, hip, -⟩ := Seq.setOut_same (s.seq q) (s.seq q).priv d true
    obtain ⟨h1, h2, h3, h4, h5⟩ := placed_advance (s := s) (u := s.setSeq q ((s.seq q).setOut (s.seq q).priv d true)) (n := 4)
      (e := s.loadEvent q d ((s.seq q).read a + i.signExtend 64) p) hq rfl rfl rfl
      (fun j hj => State.seq_setSeq_ne _ _ _ _ hj) (by simpa using hu) (by simpa using hb) (by simpa using hip)
    refine ⟨_, _, execSld_places ha hr hl hp, h1, rfl, rfl, rfl, keys_seqEvent (s := s) (q := q) (va := 0) (k := .read), rfl,
      rfl, rfl, ?_, ?_, h2, h3, h4⟩
    · intro hd
      rw [h5, State.seq_setSeq_self]
      exact (Seq.outstanding_setOut (s.seq q) d d true).trans (if_pos ⟨rfl, hd⟩)
    · intro r hr
      rw [h5, State.seq_setSeq_self]
      exact (Seq.outstanding_setOut (s.seq q) d r true).trans (if_neg fun h => hr h.1)
  · intro s q d a i p hi hl hp hh
    obtain ⟨h1, h2, h3, h4, -⟩ := placed_advance (s := s) (u := s) (n := 4)
      (e := (s.seqEvent q ((s.seq q).read a + i.signExtend 64) 8 p .write).withBytes (leBytes 8 ((s.seq q).read d).toNat)) hi.1
      rfl rfl rfl (fun _ _ => rfl) rfl rfl rfl
    obtain ⟨hk, hv, hm⟩ := pieces_withBytes (s := s) (q := q) (va := (s.seq q).read a + i.signExtend 64) (p := p) (k := .write)
      (length_leBytes 8 ((s.seq q).read d).toNat)
    exact ⟨_, _, execSst_places hi hl hp hh, h1, rfl, rfl, hk, hv, hm, rfl, rfl, h2, h3, h4⟩
  · intro s q d a i j hj hi hinh
    refine ⟨fun h => ?_, fun h h8 => ?_, ?_⟩
    · refine ⟨_, exec_reach_out hj hi ?_, s.raise_trapped q .varange _ hinh⟩
      rw [State.reach, if_pos h]
    · refine ⟨_, exec_reach_out hj hi ?_, s.raise_trapped q .align _ hinh⟩
      rw [State.reach, if_neg (by omega), if_pos (by simpa using h8)]
    · rintro use x rfl h h8 hx
      have ht := (s.dropBad (reqLoad q) (s.ctxNo q) (((s.seq q).read a + i.signExtend 64).toNat / 2 ^ 16)).raise_trapped q x
        ((s.seq q).read a + i.signExtend 64) hinh
      refine ⟨_, exec_reach_out hj hi ?_, ht.2, ?_, ?_, ?_, ?_⟩
      · rw [State.reach, if_neg (by omega), if_neg (by simpa using h8), hx]
      · exact BytesStay.trans (.of_eq rfl rfl) ht.1.2
      · rw [ht.1.1]; rfl
      · rw [ht.1.1]; rfl
      · intro r hr
        rw [ht.1.1]
        exact State.seq_setSeq_ne _ _ _ _ hr

/-! ### bar, bst and slices (R335, R347, R348) -/

theorem Seq.ready_iff {v : Seq} {r : SReg} : v.ready r = true ↔ v.armed r = false ∧ v.outstanding r = false := by
  simp [Seq.ready]

theorem Seq.tokenFinal_of_ready {v : Seq} {r : SReg} (h : v.ready r = true) : v.tokenFinal r = true := h

theorem Seq.tokenDone_iff {v : Seq} {r : SReg} : v.tokenDone r = true ↔ r = 0 ∨ v.read r = 1 := by
  simp [Seq.tokenDone]

/-- A jump is an advance by the distance. -/
theorem State.jump_eq_advance (s : State) (q n : Nat) : s.jump q ((s.seq q).ip + BitVec.ofNat 64 n) = s.advance q n := rfl

/-- An instruction that only moves the IP. -/
theorem SeqWrites.of_advance {i : Instr} {s : State} {q n : Nat} (h : exec i s = .next (s.advance q n)) :
    SeqWrites i s q 0 0 n := SeqGoesOn.of_advance h rfl rfl rfl rfl rfl rfl

theorem execBar_eq {s : State} {q : Nat} {a b : SReg} {jobs : Bool} {w : Lane} (hi : Issues s q [a, b])
    (hj : jobs = true → ∀ j ∈ (s.seq q).jobs, j.result ≠ none) (hw : s.fetchWord q ((s.seq q).ip + 4) = .word w) :
    exec (.bar a b jobs) s =
      if (s.seq q).tokenDone a && (s.seq q).tokenDone b && (!jobs || (s.seq q).jobsDone) then
        .next (s.advance q (4 + seqSize w)) else .next (s.advance q 4) := by
  have hf : ((s.seq q).tokenFinal a && (s.seq q).tokenFinal b && (!jobs || (s.seq q).jobsEnded)) = true := by
    obtain ⟨ha, hb⟩ := Seq.allReady_cons.1 hi.2.2.1
    obtain ⟨hb, -⟩ := Seq.allReady_cons.1 hb
    have he : jobs = true → (s.seq q).jobsEnded = true := fun h => by
      simpa [Seq.jobsEnded, Option.isSome_iff_ne_none] using hj h
    rw [Seq.tokenFinal_of_ready ha, Seq.tokenFinal_of_ready hb]
    cases jobs <;> simp_all
  refine (hi.runs false _).trans ?_
  simp only [hf, Bool.not_true, Bool.false_eq_true, if_false, hw]
  rw [← State.jump_eq_advance s q (4 + seqSize w), BitVec.ofNat_add, ← BitVec.add_assoc]
  rfl

/-- Settles O7: the equations of `bar` and `bst`; the two events of a slice are their own equations. -/
theorem barBstAndSlices : Obligations.BarBstAndSlices := by
  refine ⟨fun s q a b jobs w hi hj hw => ?_, fun s q d clr hi => ?_, fun s q => ⟨?_, ?_⟩⟩
  · have hok : ((s.seq q).tokenDone a && (s.seq q).tokenDone b && (!jobs || (s.seq q).jobsDone)) = true ↔
        (a = 0 ∨ (s.seq q).read a = 1) ∧ (b = 0 ∨ (s.seq q).read b = 1) ∧
          (jobs = true → ∀ j ∈ (s.seq q).jobs, j.result = some 1) := by
      cases jobs <;> simp [Seq.tokenDone_iff, Seq.jobsDone, and_assoc]
    have he := execBar_eq hi hj hw
    exact ⟨fun h => .of_advance (he.trans (if_pos (hok.2 h))), fun h => .of_advance (he.trans (if_neg fun g => h (hok.1 g)))⟩
  · obtain ⟨hd, -⟩ := Seq.allReady_cons.1 hi.2.2.1
    refine SeqGoesOn.of_finish ((hi.runs false _).trans ?_) ?_ ?_ ?_ ?_ ?_ ?_
    · simp only [hd, Bool.not_true, Bool.false_eq_true, if_false]
      rfl
    all_goals cases clr <;> simp
  · intro c x rest hc hx hr hs ha hip hres
    change execSliceStart q s = _
    simp [execSliceStart, hc, hx, hr, hs, ha, hip, hres]
  · intro n w hw
    change execBlkstReport q n s = _
    simp [execBlkstReport, hw, dropAt]

end Sys2Proof.Machine
end

