-- ==== Sys2Proof/Proofs/SystemRegisters.lean ====
section
/-!
PROOFS. O8: `sysr` and `sysw` over the system register map (R404, Tables 15-7 and 15-8).
-/

namespace Sys2Proof.Machine

theorem sysRegOf_ureg {n : Nat} (h : n < 32) : sysRegOf (BitVec.ofNat 14 (0x100 + n)).toNat = some (.ureg n) := by
  revert n; decide

theorem sysRegOf_ureg_of_range {r : BitVec 14} (h : 0x100 ≤ r.toNat ∧ r.toNat < 0x120) :
    sysRegOf r.toNat = some (.ureg (r.toNat - 0x100)) := by
  have hr : BitVec.ofNat 14 (0x100 + (r.toNat - 0x100)) = r := by
    rw [Nat.add_sub_cancel' h.1, BitVec.ofNat_toNat, BitVec.setWidth_eq]
  have hu := sysRegOf_ureg (n := r.toNat - 0x100) (by omega)
  rwa [hr] at hu

theorem sysRegOf_wpt {n : Nat} (h : n < 4) : sysRegOf (BitVec.ofNat 14 (0x014 + n)).toNat = some (.wpt n) := by
  revert n; decide

/-! ### sysr -/

section
variable {s : State} {q : Nat} {d : SReg} {r : BitVec 14} {x : SysReg}

/-- A register of the map that the mode may read goes to the destination. -/
theorem sysr_writes (hi : Issues s q [d]) (hx : sysRegOf r.toNat = some x) (hroot : x.rootOnly = true → 128 ≤ q)
    (hu : (s.seq q).priv = true ∨ x.userReads = true) (hb : (s.seq q).uregBusy x = false) :
    SeqWrites (.sysr d r) s q d (s.sysValue q x) 4 := by
  obtain ⟨hd, -⟩ := Seq.allReady_cons.1 hi.2.2.1
  refine SeqGoesOn.of_finish (u := s) ?_ rfl rfl rfl rfl rfl rfl
  have h1 : (x.rootOnly && !isRoot q) = false := by
    cases h : x.rootOnly <;> simp_all [isRoot]
  have h2 : (!(s.seq q).priv && !x.userReads) = false := by
    rcases hu with h | h <;> simp [h]
  change execSysr d r s = _
  simp only [execSysr, State.me, hi.2.1, hx, h1, h2, Bool.false_eq_true, if_false]
  rw [hi.runs]
  simp [hd, hb]

theorem Region.energy_fields (g : Region) :
    (bits g.energy 40 24).toNat = g.total / 1000 % 2 ^ 24 ∧ (bits g.energy 20 20).toNat = min g.used 0xFFFFF ∧
      (bits g.energy 0 20).toNat = g.allow % 2 ^ 20 := by
  have h : min g.used 0xFFFFF < 2 ^ 20 := by omega
  unfold Region.energy
  simp (disch := omega) only [BitVec.extractLsb'_append_eq_of_le, BitVec.extractLsb'_append_eq_of_add_le, Nat.reduceSub,
    BitVec.extractLsb'_eq_self, BitVec.toNat_ofNat, Nat.mod_eq_of_lt h, and_self]

theorem State.ctxidWord_fields {n k : Nat} {c : Ctx} (hn : s.ctxOf q = some n) (hc : s.ctx? n = some c)
    (hk : s.planeOf q = some k) :
    (bits (s.ctxidWord q) 0 16).toNat = n % 2 ^ 16 ∧ (bits (s.ctxidWord q) 16 8).toNat = c.vf % 2 ^ 8 ∧
      (bits (s.ctxidWord q) 24 8).toNat = c.key % 2 ^ 8 ∧ (bits (s.ctxidWord q) 32 2).toNat = k % 4 ∧
      bits (s.ctxidWord q) 34 30 = 0 := by
  simp only [State.ctxidWord, hn, hc, hk]
  simp (disch := omega) only [BitVec.extractLsb'_append_eq_of_le, BitVec.extractLsb'_append_eq_of_add_le, Nat.reduceSub,
    BitVec.extractLsb'_eq_self, BitVec.toNat_ofNat, Nat.reducePow, true_and]
  exact ⟨by omega, trivial⟩

/-- The registers that every mode reads. -/
theorem sysr_reads (hi : Issues s q [d]) :
    let v := s.seq q
    SeqWrites (.sysr d 0x001) s q d v.tstat 4 ∧
    SeqWrites (.sysr d 0x005) s q d (BitVec.ofNat 64 s.cycle) 4 ∧
    (∃ y : Word, SeqWrites (.sysr d 0x004) s q d y 4 ∧ (bits y 40 24).toNat = (s.region q).total / 1000 % 2 ^ 24 ∧
      (bits y 20 20).toNat = min (s.region q).used 0xFFFFF ∧ (bits y 0 20).toNat = (s.region q).allow % 2 ^ 20) ∧
    SeqWrites (.sysr d 0x018) s q d (s.region q).wwin 4 :=
  ⟨sysr_writes hi (x := .tstat) rfl nofun (.inr rfl) rfl, sysr_writes hi (x := .cycle) rfl nofun (.inr rfl) rfl,
    ⟨_, sysr_writes hi (x := .energy) rfl nofun (.inr rfl) rfl, (s.region q).energy_fields⟩,
    sysr_writes hi (x := .wwin) rfl nofun (.inr rfl) rfl⟩

/-- The registers of a context and its plane (Table 15-8). -/
theorem sysr_reads_context (hi : Issues s q [d]) {n k : Nat} {c : Ctx} (hn : s.ctxOf q = some n) (hc : s.ctx? n = some c)
    (hk : s.planeOf q = some k) :
    SeqWrites (.sysr d 0x000) s q d (c.fpc.setWidth 64) 4 ∧ SeqWrites (.sysr d 0x019) s q d c.kvw 4 ∧
      SeqWrites (.sysr d 0x01A) s q d c.pwin 4 ∧ SeqWrites (.sysr d 0x021) s q d c.ctxres 4 ∧
      (∃ y : Word, SeqWrites (.sysr d 0x002) s q d y 4 ∧ (bits y 0 16).toNat = n % 2 ^ 16 ∧
        (bits y 16 8).toNat = c.vf % 2 ^ 8 ∧ (bits y 24 8).toNat = c.key % 2 ^ 8 ∧ (bits y 32 2).toNat = k % 4 ∧
        bits y 34 30 = 0) ∧
      ((s.seq q).priv = true → ∀ i, i < 4 →
        SeqWrites (.sysr d (BitVec.ofNat 14 (0x014 + i))) s q d (vget (s.plane k).wpt i 0) 4) := by
  have hctx : ((s.ctxOf q).bind s.ctx?).getD Ctx.blank = c := by simp [hn, hc]
  refine ⟨?_, ?_, ?_, ?_, ⟨_, sysr_writes hi (x := .ctxid) rfl nofun (.inr rfl) rfl, s.ctxidWord_fields hn hc hk⟩,
    fun hp i h4 => ?_⟩
  · simpa [State.sysValue, hctx] using sysr_writes hi (r := 0x000) (x := .fpc) rfl nofun (.inr rfl) rfl
  · simpa [State.sysValue, hctx] using sysr_writes hi (r := 0x019) (x := .kvw) rfl nofun (.inr rfl) rfl
  · simpa [State.sysValue, hctx] using sysr_writes hi (r := 0x01A) (x := .pwin) rfl nofun (.inr rfl) rfl
  · simpa [State.sysValue, hctx] using sysr_writes hi (r := 0x021) (x := .ctxres) rfl nofun (.inr rfl) rfl
  · have h := sysr_writes hi (sysRegOf_wpt h4) nofun (.inl hp) rfl
    simpa [State.sysValue, hk] using h

end

/-! ### sysw -/

theorem low_bits_eq_zero {x : Word} (h : x.toNat % 4 = 0) : bits x 0 2 = 0#2 := by
  apply BitVec.eq_of_toNat_eq
  simpa using h

theorem low_bits_ne_zero {x : Word} (h : x.toNat % 4 ≠ 0) : bits x 0 2 ≠ 0#2 := fun e =>
  h (by simpa using congrArg BitVec.toNat e)

theorem low_bits_toWord (x : Word) (n : Nat) (h : n ≤ 64) : (bits x 0 n).setWidth 64 = BitVec.ofNat 64 (x.toNat % 2 ^ n) := by
  apply BitVec.eq_of_toNat_eq
  have : x.toNat % 2 ^ n < 2 ^ 64 := (Nat.mod_lt _ (by positivity)).trans_le (Nat.pow_le_pow_right (by omega) h)
  simp [Nat.mod_eq_of_lt this]

theorem masked_eflt (x : Word) : (bits x 0 48).setWidth 64 = x &&& 0xFFFFFFFFFFFF := by
  rw [low_bits_toWord x 48 (by omega)]
  apply BitVec.eq_of_toNat_eq
  have : x.toNat % 2 ^ 48 < 2 ^ 64 := by omega
  simp only [BitVec.toNat_ofNat, BitVec.toNat_and, Nat.mod_eq_of_lt this]
  exact (Nat.and_two_pow_sub_one_eq_mod x.toNat 48).symm

theorem masked_fqbase (x : Word) : (bits x 12 40 ++ (0 : BitVec 8) ++ bits x 0 4).setWidth 64 = x &&& 0xFFFFFFFFFF00F := by
  have hm : ∀ i, i < 64 → (0xFFFFFFFFFF00F : Word).getLsbD i = (decide (i < 4) || decide (12 ≤ i) && decide (i < 52)) := by
    decide
  apply BitVec.eq_of_getLsbD_eq
  intro i hi
  rw [BitVec.getLsbD_setWidth, BitVec.getLsbD_append, BitVec.getLsbD_append, BitVec.getLsbD_and, hm i hi]
  by_cases h4 : i < 4
  · simp [h4, hi]
  · by_cases h12 : i < 12
    · simp [h4, hi, show i - 4 < 8 by omega, Nat.not_le.2 h12]
    · have e : 12 + (i - 4 - 8) = i := by omega
      by_cases h52 : i < 52
      · simp [h4, hi, show ¬ i - 4 < 8 by omega, e, h52, show i - 4 - 8 < 40 by omega, Nat.not_lt.1 h12]
      · simp [h4, hi, show ¬ i - 4 < 8 by omega, h52, show ¬ i - 4 - 8 < 40 by omega]

theorem Seq.writeSys_eflt (v : Seq) (w : Word) :
    v.writeSys .eflt w = if bitAt w 63 then some { v with eflt := v.eflt &&& 0xFFFFFFFFFFFF, eflta := 0 } else some v := by
  rw [← masked_eflt]
  rfl

theorem Seq.writeSys_fqbase {v : Seq} {w : Word} (hl : (bits w 0 4).toNat ≤ 10) (hf : v.fqtail = v.fqhead) :
    v.writeSys .fqbase w = some { v with fqbase := w &&& 0xFFFFFFFFFF00F } := by
  rw [← masked_fqbase, Seq.writeSys, if_neg]
  simpa [hf] using hl

theorem Seq.writeSys_fqbase_none {v : Seq} {w : Word} (hl : 10 < (bits w 0 4).toNat) : v.writeSys .fqbase w = none := by
  rw [Seq.writeSys, if_pos]
  rw [Bool.or_eq_true, decide_eq_true_eq]
  exact .inl hl

section
variable {s u : State} {q : Nat} {a : SReg} {r : BitVec 14} {x : SysReg}

/-- `sysw` of a register that the sequencer may write: the write, or SYSVAL. -/
theorem execSysw_eq (hi : IssuesPriv s q [a]) (hx : sysRegOf r.toNat = some x) (hroot : x.rootOnly = true → 128 ≤ q)
    (hw : x.writable = true) (hb : (s.seq q).uregBusy x = false) :
    exec (.sysw r a) s = (s.sysWrite q x ((s.seq q).read a)).elim (.next (s.raise q .sysval 0)) fun t => .next (t.advance q 4) := by
  obtain ⟨ha, -⟩ := Seq.allReady_cons.1 hi.1.2.2.1
  have h1 : ((x.rootOnly && !isRoot q) || !x.writable) = false := by
    cases h : x.rootOnly <;> simp_all [isRoot]
  change execSysw r a s = _
  simp only [execSysw, State.me, hi.1.2.1, hx, h1, hi.2, Bool.not_true, Bool.false_and, Bool.false_eq_true, if_false]
  rw [hi.1.runs]
  simp only [ha, hb, Bool.not_true, Bool.or_self, Bool.false_eq_true, if_false]
  cases s.sysWrite q x ((s.seq q).read a) <;> rfl

/-- A register of the sequencer itself takes its value. -/
theorem sysw_goesOn {v : Seq} (hi : IssuesPriv s q [a]) (hx : sysRegOf r.toNat = some x)
    (hroot : x.rootOnly = true → 128 ≤ q) (hw : x.writable = true) (hb : (s.seq q).uregBusy x = false)
    (ht : s.sysWrite q x ((s.seq q).read a) = some (s.setSeq q v)) (hv : v.ip = (s.seq q).ip ∧ v.priv = (s.seq q).priv ∧
      v.user = (s.seq q).user ∧ v.bank = (s.seq q).bank) :
    SeqGoesOn (.sysw r a) s (s.setSeq q v) q 0 0 4 := by
  obtain ⟨h1, h2, h3, h4⟩ := hv
  exact .of_advance ((execSysw_eq hi hx hroot hw hb).trans (by rw [ht]; rfl)) (by simpa) (by simpa) (by simpa) (by simpa) rfl rfl

/-- A value that breaks a field's range raises SYSVAL. -/
theorem sysw_sysval (hi : IssuesPriv s q [a]) (hx : sysRegOf r.toNat = some x) (hroot : x.rootOnly = true → 128 ≤ q)
    (hw : x.writable = true) (hb : (s.seq q).uregBusy x = false) (ht : s.sysWrite q x ((s.seq q).read a) = none)
    (hinh : EStat.inh (s.seq q).estat = false) :
    ∃ t, exec (.sysw r a) s = .next t ∧ Trapped s t q .sysval 0 (s.seq q).ip :=
  ⟨_, (execSysw_eq hi hx hroot hw hb).trans (by rw [ht]; rfl), s.raise_trapped q .sysval 0 hinh⟩

end

/-! ### Traps of the numbers and modes (R66, R404) -/

section
variable {s : State} {q : Nat} {d a : SReg} {r : BitVec 14} (ha : s.actor = .sequencer q)
include ha

theorem sysr_illop (h : ∀ x, sysRegOf r.toNat = some x → x.rootOnly = true ∧ q < 128) :
    exec (.sysr d r) s = .next (s.raise q .illop 0) := by
  change execSysr d r s = _
  cases hx : sysRegOf r.toNat with
  | none => simp [execSysr, State.me, ha, hx]
  | some x =>
    have hr : isRoot q = false := by simp [isRoot, (h x hx).2]
    simp [execSysr, State.me, ha, hx, (h x hx).1, hr]

theorem sysw_illop (h : ∀ x, sysRegOf r.toNat = some x → x.rootOnly = true ∧ q < 128 ∨ x.writable = false) :
    exec (.sysw r a) s = .next (s.raise q .illop 0) := by
  change execSysw r a s = _
  cases hx : sysRegOf r.toNat with
  | none => simp [execSysw, State.me, ha, hx]
  | some x =>
    have hr : ((x.rootOnly && !isRoot q) || !x.writable) = true := by
      rcases h x hx with ⟨h1, h2⟩ | h1 <;> simp [isRoot, h1]
      omega
    simp [execSysw, State.me, ha, hx, hr]

theorem sysr_priv (hp : (s.seq q).priv = false) {x : SysReg} (hx : sysRegOf r.toNat = some x) (hr : x.rootOnly = false)
    (hu : x.userReads = false) : exec (.sysr d r) s = .next (s.raise q .priv 0) := by
  change execSysr d r s = _
  simp [execSysr, State.me, ha, hx, hr, hp, hu]

theorem sysw_priv (hp : (s.seq q).priv = false) {x : SysReg} (hx : sysRegOf r.toNat = some x) (hr : x.rootOnly = false)
    (hw : x.writable = true) (hu : x.userWrites = false) : exec (.sysw r a) s = .next (s.raise q .priv 0) := by
  change execSysw r a s = _
  simp [execSysw, State.me, ha, hx, hr, hp, hu, hw]

end

/-- Settles O8: `sysr` and `sysw` by their equations, the map of the numbers by evaluation. -/
theorem systemRegisters : Obligations.SystemRegisters := by
  refine ⟨fun s q d hi => ?_, fun s q a hi => ?_, fun s q d a ha hinh => ?_⟩
  · obtain ⟨h1, h2, h3, h4⟩ := sysr_reads hi
    refine ⟨h1, h2, h3, h4, fun n c k hn hc hk => sysr_reads_context hi hn hc hk, fun hp => ?_⟩
    have own {r : BitVec 14} {x : SysReg} (hx : sysRegOf r.toNat = some x) (hroot : x.rootOnly = true → 128 ≤ q)
        (hb : (s.seq q).uregBusy x = false) := sysr_writes hi hx hroot (.inl hp) hb
    refine ⟨own (x := .blkst) rfl nofun rfl, own (x := .fltcause) rfl nofun rfl, own (x := .fltaddr) rfl nofun rfl,
      own (x := .fltpos) rfl nofun rfl, own (x := .fltbpc) rfl nofun rfl, own (x := .fltaux) rfl nofun rfl,
      own (x := .epc) rfl nofun rfl, own (x := .estat) rfl nofun rfl, own (x := .tvec) rfl nofun rfl,
      own (x := .eflt) rfl nofun rfl, own (x := .eflta) rfl nofun rfl, own (x := .sctl) rfl nofun rfl,
      own (x := .ureg 0) rfl nofun rfl, fun n h0 h32 ho har => ?_, fun hq => ?_⟩
    · have h := own (sysRegOf_ureg h32) nofun (by simp [Seq.uregBusy, ho, har])
      simpa [State.sysValue, Nat.ne_of_gt h0] using h
    · exact ⟨own (x := .fqbase) rfl (fun _ => hq) rfl, own (x := .fqhead) rfl (fun _ => hq) rfl,
        own (x := .fqtail) rfl (fun _ => hq) rfl⟩
  · have goes {r : BitVec 14} {x : SysReg} {v : Seq} (hx : sysRegOf r.toNat = some x) (hroot : x.rootOnly = true → 128 ≤ q)
        (hw : x.writable = true) (hb : (s.seq q).uregBusy x = false)
        (ht : s.sysWrite q x ((s.seq q).read a) = some (s.setSeq q v)) := sysw_goesOn hi hx hroot hw hb ht
    have stays {r : BitVec 14} {x : SysReg} (hx : sysRegOf r.toNat = some x) (hroot : x.rootOnly = true → 128 ≤ q)
        (hw : x.writable = true) (hb : (s.seq q).uregBusy x = false)
        (ht : s.sysWrite q x ((s.seq q).read a) = some (s.setSeq q (s.seq q))) : SeqWrites (.sysw r a) s q 0 0 4 :=
      .of_advance ((execSysw_eq hi hx hroot hw hb).trans (by rw [ht]; simp [State.advance]))
    refine ⟨fun h4 => ⟨?_, ?_⟩, fun h4 hinh r hr => ?_, ?_, ?_, ?_, ?_, ?_, ?_, fun hq => ⟨?_, fun hl hf => ?_, fun hl hinh => ?_⟩,
      fun n hn ho har => ?_⟩
    · refine goes (x := .epc) rfl nofun rfl rfl ?_ ⟨rfl, rfl, rfl, rfl⟩
      simp [State.sysWrite, Seq.writeSys, low_bits_eq_zero h4, low_bits_toWord]
    · refine goes (x := .tvec) rfl nofun rfl rfl ?_ ⟨rfl, rfl, rfl, rfl⟩
      simp [State.sysWrite, Seq.writeSys, low_bits_eq_zero h4, low_bits_toWord]
    · have hl := low_bits_ne_zero h4
      rcases hr with rfl | rfl
      · exact sysw_sysval hi (x := .epc) rfl nofun rfl rfl (by simp [State.sysWrite, Seq.writeSys, hl]) hinh
      · exact sysw_sysval hi (x := .tvec) rfl nofun rfl rfl (by simp [State.sysWrite, Seq.writeSys, hl]) hinh
    · exact goes (x := .tstat) rfl nofun rfl rfl rfl ⟨rfl, rfl, rfl, rfl⟩
    · exact goes (x := .blkst) rfl nofun rfl rfl rfl ⟨rfl, rfl, rfl, rfl⟩
    · exact goes (x := .estat) rfl nofun rfl rfl rfl ⟨rfl, rfl, rfl, rfl⟩
    · exact goes (x := .sctl) rfl nofun rfl rfl rfl ⟨rfl, rfl, rfl, rfl⟩
    · have hw := Seq.writeSys_eflt (s.seq q) ((s.seq q).read a)
      cases h63 : bitAt ((s.seq q).read a) 63
      · rw [h63, if_neg (by simp)] at hw
        rw [if_neg (by simp)]
        exact stays (x := .eflt) rfl nofun rfl rfl (congrArg (Option.map (s.setSeq q)) hw)
      · rw [h63, if_pos rfl] at hw
        rw [if_pos rfl]
        exact goes (x := .eflt) rfl nofun rfl rfl (congrArg (Option.map (s.setSeq q)) hw) ⟨rfl, rfl, rfl, rfl⟩
    · exact stays (x := .ureg 0) rfl nofun rfl rfl rfl
    · refine goes (x := .fqhead) rfl (fun _ => hq) rfl rfl ?_ ⟨rfl, rfl, rfl, rfl⟩
      simp [State.sysWrite, Seq.writeSys, low_bits_toWord]
    · refine goes (x := .fqbase) rfl (fun _ => hq) rfl rfl ?_ ⟨rfl, rfl, rfl, rfl⟩
      exact congrArg (Option.map (s.setSeq q)) (Seq.writeSys_fqbase hl hf)
    · exact sysw_sysval hi (x := .fqbase) rfl (fun _ => hq) rfl rfl
        (congrArg (Option.map (s.setSeq q)) (Seq.writeSys_fqbase_none hl)) hinh
    · have hx := sysRegOf_ureg (n := n.toNat) n.isLt
      have hb : (s.seq q).uregBusy (.ureg n.toNat) = false := by simp only [Seq.uregBusy, ho, har, Bool.or_self, Bool.and_false]
      refine ⟨_, (execSysw_eq hi hx nofun rfl hb).trans ?_, rfl⟩
      have he : (s.seq q).writeSys (.ureg n.toNat) ((s.seq q).read a) =
          some { s.seq q with user := vput (s.seq q).user n.toNat ((s.seq q).read a) } := by
        simp only [Seq.writeSys, BitVec.ofNat_toNat, BitVec.setWidth_eq, Seq.writeBank]
        rw [if_neg hn, if_neg (by simp)]
      rw [show s.sysWrite q (.ureg n.toNat) ((s.seq q).read a) = _ from congrArg (Option.map (s.setSeq q)) he]
      simp [State.advance]
  · have number {r : BitVec 14} {x : SysReg} (hx : sysRegOf r.toNat = some x) {P : SysReg → Prop} (h : P x) :
        ∀ y, sysRegOf r.toNat = some y → P y := fun y hy => Option.some.inj (hx.symm.trans hy) ▸ h
    refine ⟨?_, ?_, ?_, fun hp => ⟨?_, ?_⟩⟩
    · rintro r hr i (rfl | rfl)
      · exact ⟨_, sysr_illop ha (by simp [hr]), s.raise_trapped q .illop 0 hinh⟩
      · exact ⟨_, sysw_illop ha (by simp [hr]), s.raise_trapped q .illop 0 hinh⟩
    · intro r hr
      refine ⟨_, sysw_illop ha ?_, s.raise_trapped q .illop 0 hinh⟩
      rcases hr with rfl | rfl | rfl | rfl | rfl | rfl | rfl | rfl | rfl | rfl | rfl | rfl | rfl <;>
        exact number rfl (.inr rfl)
    · intro hq r hr i hi
      have h : ∀ x, sysRegOf r.toNat = some x → x.rootOnly = true ∧ q < 128 := by
        rcases hr with rfl | rfl | rfl <;> exact number rfl ⟨rfl, hq⟩
      rcases hi with rfl | rfl
      · exact ⟨_, sysr_illop ha h, s.raise_trapped q .illop 0 hinh⟩
      · exact ⟨_, sysw_illop ha fun x hx => .inl (h x hx), s.raise_trapped q .illop 0 hinh⟩
    · intro r hr
      refine ⟨_, ?_, s.raise_trapped q .priv 0 hinh⟩
      rcases hr with rfl | rfl | rfl | rfl | rfl | rfl | rfl | rfl | rfl | rfl | rfl | rfl | rfl | rfl | rfl | rfl | hr
      case inr => exact sysr_priv ha hp (sysRegOf_ureg_of_range hr) rfl rfl
      all_goals exact sysr_priv ha hp rfl rfl rfl
    · intro r hr
      refine ⟨_, ?_, s.raise_trapped q .priv 0 hinh⟩
      rcases hr with rfl | rfl | rfl | rfl | rfl | rfl | rfl | rfl | rfl | rfl | hr
      case inr => exact sysw_priv ha hp (sysRegOf_ureg_of_range hr) rfl rfl rfl
      all_goals exact sysw_priv ha hp rfl rfl rfl rfl

end Sys2Proof.Machine
end

