-- ==== Sys2Proof/Proofs/Steps.lean ====
section
/-!
PROOFS. O48, O49, O50: words written out from the tables, what a turn runs, and the state after reset.
-/

namespace Sys2Proof.Machine

/-! ### Words written out (O48) -/

/-- Settles O48: each word is decoded by evaluation. -/
theorem decodesWritten : Obligations.DecodesWritten := by
  unfold Obligations.DecodesWritten
  and_intros <;> decide

/-! ### What a turn leaves (O49) -/

/-- What a turn of the machine leaves of what its agent has done: nothing where it would spend or send too much, and else the
marks and the bytes of branch areas with it (R399, R356, R390, R460). -/
def State.closed (r t : State) : State := if r.overspends t || r.overfills t then r else r.writeAreas (r.marked t)

/-- The same of an outcome. -/
def State.closes (r : State) : Res → Res
  | .next t => .next (r.closed t)
  | o => o

theorem step_agenda {s : State} {t : Turn} {rest : List Turn} (h : s.agenda = t :: rest) :
    step s = runTurn t { s with agenda := rest } := by
  simp only [step, h]

section
variable (r : State)

theorem runTurn_unpowered {t : Turn} (hp : r.powered = false) (ht : t ≠ .happening .powerOn) : runTurn t r = .next r := by
  simp [runTurn, hp, ht]

variable (hp : r.powered = true)
include hp

theorem runTurn_sequencer (q : Nat) :
    runTurn (.sequencer q) r = r.closes (State.seqTurn { r with actor := .sequencer q } q) := by
  simp only [runTurn, hp, Bool.not_true, Bool.false_and, Bool.false_eq_true, if_false]
  rfl

theorem runTurn_prefetch (q a : Nat) :
    runTurn (.prefetch q a) r =
      r.closes (.next (if (r.seq q).run == .running && !r.seqHeld q then r.fetchAhead q a else r)) := by
  simp only [runTurn, hp, Bool.not_true, Bool.false_and, Bool.false_eq_true, if_false]
  rfl

theorem runTurn_elapse (n : Nat) : runTurn (.elapse n) r = r.closes (.next (r.elapse n)) := by
  simp only [runTurn, hp, Bool.not_true, Bool.false_and, Bool.false_eq_true, if_false]
  rfl

theorem runTurn_node {p : Nat} (x slot : Nat) (h : p < 4) : runTurn (.node x p slot) r = r.closes (r.nodeTurn x p slot) := by
  simp only [runTurn, hp, Bool.not_true, Bool.false_and, Bool.false_eq_true, if_false, if_pos h]
  rfl

end

theorem runTurn_happening (r : State) {i : Instr} (hp : r.powered = true ∨ i = .powerOn) (hi : isHappening i = true)
    (hd : r.isDue i = true) : runTurn (.happening i) r = r.closes (exec i { r with actor := .device }) := by
  have : (!r.powered && Turn.happening i != .happening .powerOn) = false := by
    obtain h | rfl := hp <;> simp [*]
  simp only [runTurn, this, hi, hd, Bool.and_self, if_true, Bool.false_eq_true, if_false]
  rfl

/-! ### A sequencer's turn -/

/-- The energy of reading the words at the IP, once it has changed (R461, log 114). -/
def State.reads (u : State) (q : Nat) (t : State) : State := if (t.seq q).ip = (u.seq q).ip then t else u.chargeFetch t q

section
variable {s : State} {q : Nat}

theorem fetchCharged_next (s : State) (q : Nat) (t : State) : s.fetchCharged q (.next t) = .next (s.reads q t) := by
  by_cases h : (t.seq q).ip = (s.seq q).ip <;> simp [State.fetchCharged, State.reads, h]

/-- A sequencer that waits for no event executes what stands at its IP (R61). -/
theorem seqTurn_issues (hr : (s.seq q).run = .running) (hh : s.seqHeld q = false)
    (hw : ∀ ip n id hit got, (s.seq q).wait ≠ .event ip n id hit got) : s.seqTurn q = (s.endSlice q).issueAt q := by
  unfold State.seqTurn
  simp only [hr, hh, bne_self_eq_false, Bool.or_self, Bool.false_eq_true, if_false]

/-- A sequencer whose event has been performed goes on (R394). -/
theorem seqTurn_done {n id : Nat} {hit : Option (Nat × Word)} (hr : (s.seq q).run = .running) (hh : s.seqHeld q = false)
    (hw : (s.seq q).wait = .event (s.seq q).ip n id hit none) (hd : s.eventDone q id = true)
    (hwr : s.waitReads q = false) (hn : n ≠ 0) : s.seqTurn q = .next (s.doneWait q n hit) := by
  have hrmw : ((s.agent q).rmws.any fun e => decide (e.id = id)) = false := by
    simp only [State.eventDone, Bool.and_eq_true, List.all_eq_true, bne_iff_ne] at hd
    obtain ⟨-, hd⟩ := hd
    simpa using hd
  unfold State.seqTurn
  simp only [hr, hh, hw, bne_self_eq_false, Bool.or_self, Bool.false_eq_true, if_false, hrmw, hd, hwr, Bool.not_true, if_neg hn]

theorem issueAt_decoded {w w2 : Lane} {i : Instr} (hf : s.fetchInstr q = .words w w2) (hd : decodeSeq w w2 = some i) :
    s.issueAt q = s.fetchCharged q (exec i s) := by
  simp only [State.issueAt, hf, hd]

theorem issueAt_illegal {w w2 : Lane} (hf : s.fetchInstr q = .words w w2) (hd : decodeSeq w w2 = none) :
    s.issueAt q = s.fetchCharged q (exec .illop s) := by
  simp only [State.issueAt, hf, hd]

theorem issueAt_out {t : State} (hf : s.fetchInstr q = .out t) : s.issueAt q = exec .fetchFault s := by
  simp only [State.issueAt, hf]

theorem exec_fetchFault {t : State} (ha : s.actor = .sequencer q) (hf : s.fetchInstr q = .out t) :
    exec .fetchFault s = .next t := by
  show execFetchFault s = _
  simp only [execFetchFault, State.me, ha, hf]

theorem exec_illop (ha : s.actor = .sequencer q) : exec .illop s = .next (s.raise q .illop 0) := by
  show execIllop s = _
  simp only [execIllop, State.me, ha]

theorem fetchInstr_far (h : 2 ^ 52 ≤ (s.seq q).ip.toNat) : s.fetchInstr q = .out (s.raise q .varange (s.seq q).ip) := by
  simp only [State.fetchInstr, State.fetchWord, if_pos h]

@[simp] theorem endSlice_actor (s : State) (q : Nat) : (s.endSlice q).actor = s.actor := by
  unfold State.endSlice
  simp only
  repeat' split
  all_goals rfl

end

/-! ### A node's turn -/

section
variable {s : State} {x p slot : Nat} {n : Node}

theorem takesConfig_some {w : Word} (hn : Tab.find? (s.plane (planeKey x p)).nodes slot = some n) (hc : n.config = some w)
    (hu : n.underWay = false) :
    s.takesConfig x p slot = some (s.setPlane (planeKey x p) ((s.plane (planeKey x p)).configured slot n w)) := by
  simp only [State.takesConfig, hn, hu, hc, Bool.false_eq_true, if_false, Option.map_some]

theorem takesConfig_none (hn : Tab.find? (s.plane (planeKey x p)).nodes slot = some n)
    (hc : n.config = none ∨ n.underWay = true) : s.takesConfig x p slot = none := by
  simp only [State.takesConfig, hn]
  obtain hc | hc := hc <;> simp [hc]

theorem runNode_decoded {i : Instr} (hn : Tab.find? (s.plane (planeKey x p)).nodes slot = some n)
    (hd : decodeFabric n.word = .ok i) : s.runNode x p slot = exec i { s with actor := .node x p slot } := by
  simp only [State.runNode, hn, hd]

/-- Without a token in a zero-slot link of its own, a node fires alone (R46). -/
theorem fireTogether_alone {t : State} (hr : s.runNode x p slot = .next t) (hz : t.zeroSlots x p slot = []) :
    s.fireTogether 8 x p slot =
      .next (if t.plane (planeKey x p) ≠ s.plane (planeKey x p) then t.setServed x p slot else t) := by
  have hs : (t.setServed x p slot).zeroSlots x p slot = [] := hz
  by_cases h : t.plane (planeKey x p) = s.plane (planeKey x p) <;>
    simp [State.fireTogether, State.nodeFires, hr, h, hz, hs]

end

/-! ### Fairness (R29) -/

/-- The turn that stands at a place of `fairTurns` comes at the numbers that pair the place and its three numbers. -/
theorem fairTurn_pair (a b c i m : Nat) (t : Turn) (h : (fairTurns a b c)[i]? = some t) (hi : i < 36) :
    fairTurn (Nat.pair (36 * Nat.pair a (Nat.pair b c) + i) m) = t := by
  have hd : (36 * Nat.pair a (Nat.pair b c) + i) / 36 = Nat.pair a (Nat.pair b c) := by omega
  have hm : (36 * Nat.pair a (Nat.pair b c) + i) % 36 = i := by omega
  simp [fairTurn, hd, hm, h]

theorem nextTurn_fair (a b c m : Nat) (t : Turn) (h : t ∈ fairTurns a b c) : ∃ n, m ≤ n ∧ nextTurn n = t := by
  obtain ⟨i, hi, rfl⟩ := List.mem_iff_getElem.1 h
  refine ⟨2 * Nat.pair (36 * Nat.pair a (Nat.pair b c) + i) m + 1, ?_, ?_⟩
  · have := Nat.right_le_pair (36 * Nat.pair a (Nat.pair b c) + i) m
    omega
  · rw [nextTurn, if_neg (by omega), show (2 * Nat.pair (36 * Nat.pair a (Nat.pair b c) + i) m + 1) / 2 =
      Nat.pair (36 * Nat.pair a (Nat.pair b c) + i) m by omega]
    exact fairTurn_pair a b c i m _ (List.getElem?_eq_getElem hi) hi

/-- Settles O49: each kind of turn is taken apart once, and the turns of R29 are those of `nextTurn_fair`. -/
theorem stepRunsDecoded : Obligations.StepRunsDecoded := by
  unfold Obligations.StepRunsDecoded
  refine ⟨fun s rest => ?_, nextTurn_fair⟩
  intro r after
  have hafter : after = r.closed := rfl
  clear_value after
  subst hafter
  refine ⟨?_, ?_, ?_, ?_, ?_, ?_, ?_, ?_⟩
  · intro q h hp hr hh hw u read
    have hread : read = u.reads q := rfl
    clear_value read
    subst hread
    have ha : u.actor = .sequencer q := endSlice_actor _ q
    have hs : step s = r.closes (u.issueAt q) := by
      rw [step_agenda h, runTurn_sequencer r hp, seqTurn_issues (s := { r with actor := .sequencer q }) hr hh hw]
    clear_value u
    refine ⟨?_, ?_, ?_, ?_⟩
    · intro w w2 i hf hd
      rw [hs, issueAt_decoded hf hd]
      exact ⟨fun t ht => by rw [ht, fetchCharged_next]; rfl, fun f hf => by rw [hf]; rfl⟩
    · intro w w2 hf hd
      refine ⟨exec_illop ha, ?_⟩
      rw [hs, issueAt_illegal hf hd, exec_illop ha, fetchCharged_next]
      rfl
    · intro t hf
      refine ⟨exec_fetchFault ha hf, ?_⟩
      rw [hs, issueAt_out hf, exec_fetchFault ha hf]
      rfl
    · intro hfar hi
      exact ⟨_, exec_fetchFault ha (fetchInstr_far hfar), u.raise_trapped q _ _ hi⟩
  · intro q n id hit h hp hr hh hw hd hwr hn
    rw [step_agenda h, runTurn_sequencer r hp]
    rw [seqTurn_done (s := { r with actor := .sequencer q }) hr hh hw hd hwr hn]
    rfl
  · intro q a h hp hr hh
    rw [step_agenda h, runTurn_prefetch r hp]
    have : ((r.seq q).run == .running && !r.seqHeld q) = true := by
      rw [Bool.and_eq_true, beq_iff_eq, Bool.not_eq_true']
      exact ⟨hr, hh⟩
    rw [if_pos this]
    rfl
  · intro n h hp
    rw [step_agenda h, runTurn_elapse r hp]
    rfl
  · intro x p slot n w h hp hlt hn hc hu
    rw [step_agenda h, runTurn_node r hp x slot hlt, State.nodeTurn, takesConfig_some (s := r) hn hc hu]
    rfl
  · intro x p slot n i t h hp hlt hn hc hd hx hz ho
    rw [step_agenda h, runTurn_node r hp x slot hlt, State.nodeTurn, takesConfig_none (s := r) hn hc]
    simp only [ho, Bool.false_eq_true, if_false]
    rw [fireTogether_alone ((runNode_decoded (s := r) hn hd).trans hx) hz]
    rfl
  · intro i t h hp he hi hf hd hx
    rw [step_agenda h, runTurn_happening r hp (by simp [isHappening, he, hi, hf]) hd, hx]
    rfl
  · intro x h hp hx
    rw [step_agenda h, runTurn_unpowered r hp hx]

/-! ### Reset (O50) -/

/-- Settles O50: with empty tables every part reads as its reset value. -/
theorem resetState : Obligations.ResetState := by
  unfold Obligations.ResetState
  refine ⟨rfl, rfl, rfl, rfl, rfl, rfl, rfl, rfl, rfl, rfl, rfl, rfl, rfl, ?_, ?_, ?_, ?_, ?_⟩
  · intro ag key
    rfl
  · intro ag b
    rfl
  · intro q
    have hread (r : SReg) : vget (Vector.replicate 32 (0 : Word)) r.toNat 0 = 0 := by
      rw [vget, Vector.getElem?_replicate]
      split <;> rfl
    have hinh : EStat.inh (Seq.reset q).estat = false := show EStat.inh 0 = false by decide
    refine ⟨rfl, rfl, ?_, rfl, rfl, rfl, hinh, fun r => ?_, decide_eq_true_iff⟩
    · show (Seq.reset q).wait = .none
      simp only [Seq.wait, hinh, Bool.false_eq_true, if_false]
      exact ite_self _
    · show (if r = 0 then (0 : Word) else vget (if decide (128 ≤ q) then Vector.replicate 32 0 else Vector.replicate 32 0) _ 0) = 0
      rw [ite_self, hread, ite_self]
  · exact fun k => ⟨rfl, rfl, rfl, rfl⟩
  · intro r u hu
    show vget (Vector.replicate 10 Limiter.empty) u Limiter.empty = _
    rw [vget, Vector.getElem?_replicate, if_pos hu]
    rfl

end Sys2Proof.Machine
end

