-- ==== Sys2Proof/Proofs/EndsFreezeAndFaults.lean ====
section
/-!
PROOFS. O9 to O12: halting and the freeze, fault tokens and asynchronous events, watchpoints and `tlbi`, `cfgw`; and first
what the end of a block instance or a job leaves of memory (R222).
-/

namespace Sys2Proof.Machine

/-! ### The end of an agent (R222) -/

theorem Tab.getD_drop_ne {β : Type} (t : Tab β) {k j : Nat} (d : β) (h : j ≠ k) :
    Tab.getD (Tab.drop t k) j d = Tab.getD t j d := by
  rw [Tab.getD_eq, Tab.getD_eq, Tab.find?_drop, if_neg h]

/-- A block instance or a job, which ends. -/
def Agent.ends : Agent → Prop
  | .block r p => r < 128 ∧ p < 4
  | .job r e => r < 128 ∧ e < 16
  | _ => False

theorem Agent.ends.named {a : Agent} (h : a.ends) : a.named := by 
  cases a with
  | block r p => exact h
  | job r e => exact h
  | _ => exact h.elim

theorem Agent.ofKey_key {a : Agent} (h : a.named) : Agent.ofKey a.key = a := by
  cases a with
  | seq q =>
    have : q < 0x1000 := Nat.lt_trans (show q < 132 from h) (by decide)
    simp [Agent.key, Agent.ofKey, this]
  | block r p =>
    obtain ⟨hr, hp⟩ := h
    have h1 : (0x1000 + 4 * r + p - 0x1000) / 4 = r := by omega
    have h2 : (0x1000 + 4 * r + p - 0x1000) % 4 = p := by omega
    rw [Agent.key, Agent.ofKey, if_neg (by omega), if_pos (by omega), h1, h2]
  | job r e =>
    obtain ⟨hr, hp⟩ := h
    have h1 : (0x2000 + 16 * r + e - 0x2000) / 16 = r := by omega
    have h2 : (0x2000 + 16 * r + e - 0x2000) % 16 = e := by omega
    rw [Agent.key, Agent.ofKey, if_neg (by omega), if_neg (by omega), if_pos (by omega), h1, h2]
  | host t =>
    have h1 : (0x4000 + 2 * t - 0x4000) / 2 = t := by omega
    rw [Agent.key, Agent.ofKey, if_neg (by omega), if_neg (by omega), if_neg (by omega)]
    simp only [h1]
    rw [if_pos (by omega)]
  | gone r l n => exact h.elim

theorem Agent.ofKey_gone {r l : Nat} (n : Nat) (hr : r < 128) (hl : l < 2) :
    Agent.ofKey (Agent.gone r l n).key = .gone r l n := by
  rw [Agent.key, Agent.ofKey, if_neg (by omega), if_neg (by omega), if_neg (by omega)]
  simp only
  rw [if_neg (by omega)]
  congr 1 <;> omega

/-- No named agent has the key of one that has ended. -/
theorem Agent.key_ne_gone {a : Agent} (h : a.named) (r l n : Nat) : a.key ≠ (Agent.gone r l n).key := by
  cases a <;> simp only [Agent.key] <;> simp only [Agent.named] at h <;> omega

/-- The agent under which what has been issued goes on. -/
def Agent.after (a : Agent) (n : Nat) : Agent := .gone ((agentRegion a).getD 0) (narrowest a) n

theorem Agent.ofKey_after {a : Agent} (h : a.ends) (n : Nat) : Agent.ofKey (a.after n).key = a.after n := by
  cases a with
  | block r p => exact Agent.ofKey_gone n h.1 (l := narrowest _) (show 0 < 2 by decide)
  | job r e => exact Agent.ofKey_gone n h.1 (l := narrowest _) (show 1 < 2 by decide)
  | _ => exact h.elim

/-- What has ended stands where it stood for every other agent (R223). -/
theorem joinLevel_after {a b : Agent} (h : a.ends) (n : Nat) (hb : b.named) (hne : b ≠ a) :
    joinLevel (a.after n) b = joinLevel a b := by
  cases a with
  | block r p => cases b <;> simp_all [joinLevel, Agent.after, agentBoard, agentRegion, Ne.symm hne, Agent.named]
  | job r p => cases b <;> simp_all [joinLevel, Agent.after, agentBoard, agentRegion, Ne.symm hne, Agent.named]
  | _ => exact h.elim

/-- A write under the key of its origin's successor. -/
def MWrite.moved (a : Agent) (n : Nat) (w : MWrite) : MWrite := if w.org = a.key then { w with org := (a.after n).key } else w

@[simp] theorem MWrite.at_moved (a : Agent) (n : Nat) (w : MWrite) (key : Nat) : (w.moved a n).at? key = w.at? key := by
  unfold MWrite.moved
  split <;> rfl

theorem MWrite.visibleTo_moved {a b : Agent} (h : a.ends) (n : Nat) (w : MWrite) (hb : b.named) (hne : b ≠ a) :
    visibleTo b (w.moved a n) = visibleTo b w := by
  unfold MWrite.moved
  split
  · rename_i e
    rw [visibleTo, visibleTo, e, Agent.ofKey_key h.named, Agent.ofKey_after h, joinLevel_after h n hb hne]
  · rfl

theorem State.retire_eq {a : Agent} (h : a.ends) (s : State) :
    s.retire a.key =
      { s with
        agents := if (s.agent a.key).buf.isEmpty && (s.agent a.key).rmws.isEmpty then Tab.drop s.agents a.key
          else Tab.put (Tab.drop s.agents a.key) (a.after s.nextId).key
            { AgentSt.empty with buf := (s.agent a.key).buf, rmws := (s.agent a.key).rmws }
        mem := { s.mem with recent := s.mem.recent.map (MWrite.moved a s.nextId) }
        nextId := s.nextId + 1 } := by
  unfold State.retire
  simp only [Agent.ofKey_key h.named]
  rfl

/-- No other named agent's queue and buffer change. -/
theorem State.agent_retire {a b : Agent} (h : a.ends) (s : State) (hb : b.named) (hne : b.key ≠ a.key) :
    (s.retire a.key).agent b.key = s.agent b.key := by
  rw [State.retire_eq h]
  show Tab.getD (ite _ _ _) _ _ = Tab.getD _ _ _
  split
  · exact Tab.getD_drop_ne _ _ hne
  · exact (Tab.getD_put_ne _ _ _ _ _ (Agent.key_ne_gone hb _ _ _)).trans (Tab.getD_drop_ne _ _ hne)

/-- The end of an agent changes neither the coherence order nor what another agent reads (R222). -/
theorem State.retire_ended {a : Agent} (h : a.ends) (s : State) : Ended s (s.retire a.key) (· = a.key) := by
  have hm : (s.retire a.key).mem = { s.mem with recent := s.mem.recent.map (MWrite.moved a s.nextId) } := by
    rw [State.retire_eq h]
  refine ⟨⟨by rw [hm], fun key => ?_⟩, fun b key hb hne => ?_⟩
  · rw [hm]
    simp only [Memory.coLast, List.foldl_map, MWrite.at_moved]
  · have hba : b ≠ a := fun e => hne (by rw [e])
    rw [State.readByte, State.readByte, State.agent_retire h s hb hne, hm]
    simp only [Memory.coVisible, List.foldl_map, MWrite.at_moved, MWrite.visibleTo_moved h _ _ hb hba]

theorem Ended.refl (s : State) (left : Nat → Prop) : Ended s s left := ⟨⟨rfl, fun _ => rfl⟩, fun _ _ _ _ => rfl⟩

theorem Ended.trans {s t u : State} {left : Nat → Prop} (h : Ended s t left) (g : Ended t u left) : Ended s u left :=
  ⟨⟨g.1.1.trans h.1.1, fun key => (g.1.2 key).trans (h.1.2 key)⟩,
    fun ag key hn hl => (g.2 ag key hn hl).trans (h.2 ag key hn hl)⟩

theorem Ended.mono {s t : State} {left more : Nat → Prop} (h : Ended s t left) (hl : ∀ k, left k → more k) :
    Ended s t more := ⟨h.1, fun ag key hn hm => h.2 ag key hn fun hx => hm (hl _ hx)⟩

/-- What changes neither memory nor an agent. -/
theorem Ended.of_eq {s t : State} (left : Nat → Prop) (hm : t.mem = s.mem) (ha : t.agents = s.agents) : Ended s t left :=
  ⟨⟨by rw [hm], fun key => by rw [hm]⟩, fun ag key _ _ => BytesStay.of_eq hm ha ag key⟩

/-! ### halt and the freeze (O9) -/

section
variable {s : State} {q k : Nat}

theorem Seq.clearFltpos_eq (v : Seq) : v.clearFltpos = { v with fltpos := v.fltpos &&& 0x7FFFFFFFFFFFFFFF } := by
  have : (bits v.fltpos 0 63).setWidth 64 = v.fltpos &&& 0x7FFFFFFFFFFFFFFF := by
    rw [low_bits_toWord _ _ (by omega)]
    apply BitVec.eq_of_toNat_eq
    rw [BitVec.toNat_and, BitVec.toNat_ofNat, show (0x7FFFFFFFFFFFFFFF : Word).toNat = 2 ^ 63 - 1 from rfl,
      Nat.and_two_pow_sub_one_eq_mod]
    omega
  rw [Seq.clearFltpos, this]

theorem Issues.ready {l : List SReg} {r : SReg} (h : Issues s q l) (hr : r ∈ l) : (s.seq q).ready r = true :=
  List.all_eq_true.1 h.2.2.1 r hr

theorem planeQuiet_iff : s.planeQuiet k = true ↔ (s.agent (Agent.block (k / 4) (k % 4)).key).buf = [] ∧
    (s.agent (Agent.block (k / 4) (k % 4)).key).rmws = [] := by
  simp only [State.planeQuiet, Bool.and_eq_true, List.isEmpty_iff]

@[simp] theorem State.seq_raiseFlags (s : State) (n : Nat) (f : FFlags) (q : Nat) : (s.raiseFlags n f).seq q = s.seq q := by
  unfold State.raiseFlags
  split <;> rfl

@[simp] theorem State.mem_raiseFlags (s : State) (n : Nat) (f : FFlags) : (s.raiseFlags n f).mem = s.mem := by
  unfold State.raiseFlags
  split <;> rfl

@[simp] theorem State.agents_raiseFlags (s : State) (n : Nat) (f : FFlags) : (s.raiseFlags n f).agents = s.agents := by
  unfold State.raiseFlags
  split <;> rfl

@[simp] theorem State.seq_retire (s : State) (a q : Nat) : (s.retire a).seq q = s.seq q := rfl
@[simp] theorem State.plane_retire (s : State) (a k : Nat) : (s.retire a).plane k = s.plane k := rfl
@[simp] theorem State.region_retire (s : State) (a r : Nat) : (s.retire a).region r = s.region r := rfl
@[simp] theorem State.seq_advance_self (s : State) (q n : Nat) :
    (s.advance q n).seq q = { s.seq q with ip := (s.seq q).ip + BitVec.ofNat 64 n } := by simp [State.advance]
@[simp] theorem State.plane_advance (s : State) (q n k : Nat) : (s.advance q n).plane k = s.plane k := rfl

theorem exec_frzQ {d : SReg} (hi : IssuesPriv s q []) (hq : q < 128) (hk : s.planeOf q = some k)
    (hd : (s.seq q).ready d = true) :
    exec (.frzQ d) s = .next (s.finish q d ((bit1 (bitAt (s.seq q).fltpos 63) ++ bit1 (s.planeQuiet k) ++
      bit1 ((s.plane k).frozen != .none) : BitVec 3).setWidth 64) 4) := by
  refine (hi.runs false _).trans ?_
  simp only [hd, withPlane_of_planeOf hq hk, Bool.not_true, Bool.false_eq_true, if_false]

theorem exec_frzOn (hi : IssuesPriv s q []) (hq : q < 128) (hk : s.planeOf q = some k) :
    exec .frzOn s = .next ((if (s.plane k).frozen = .none then s.setPlane k { s.plane k with frozen := .frzOn }
      else s).advance q 4) := by
  refine (hi.runs false _).trans ?_
  simp only [withPlane_of_planeOf hq hk, beq_iff_eq]

theorem exec_frzGo (hi : IssuesPriv s q []) (hq : q < 128) (hk : s.planeOf q = some k) :
    exec .frzGo s = .next ((if (s.plane k).frozen = .fault ∨ (s.plane k).frozen = .frzOn then
        (s.setPlane k { s.plane k with frozen := .none, atRest := false, saver := none }).setSeq q (s.seq q).clearFltpos
      else s).advance q 4) := by
  refine (hi.runs false _).trans ?_
  simp only [withPlane_of_planeOf hq hk, Bool.or_eq_true, beq_iff_eq]

theorem exec_halt (hi : IssuesPriv s q []) :
    exec .halt s = .next ((s.setSeq q { s.seq q with run := .halted }).advance q 4) := hi.runs false _

/-- Nothing that the plane or its engines have issued is left: the chain ends. -/
theorem exec_frzKill {a : SReg} (hi : IssuesPriv s q [a]) (hq : q < 128) (hk : s.planeOf q = some k)
    (hf : (s.plane k).frozen ≠ .none) (hb : s.killBusy k = false) :
    exec (.frzKill a) s = .next ((s.killChain q k ((s.seq q).read a)).advance q 4) := by
  have ha : (s.seq q).ready a = true := hi.1.ready (by simp)
  refine (hi.runs false _).trans ?_
  simp only [ha, withPlane_of_planeOf hq hk, beq_iff_eq, hf, hb, Bool.not_true, Bool.false_eq_true, if_false]

/-- Without a stream job and an array the end of a chain is that of its plane, its agent and its sequencer's side. -/
theorem killChain_alone (q : Nat) (x : Word) (hj : s.portJobs k = []) (hc : s.chainArrays k = []) :
    s.killChain q k x =
      (((s.raiseFlags ((s.plane k).ctx.getD 65536) (s.plane k).flags).setPlane k (s.plane k).killed).retire
        (Agent.block (k / 4) (k % 4)).key).setSeq q ((s.seq q).chainKilled x) := by
  simp [State.killChain, hj, hc]

theorem Seq.chainKilled_user (v : Seq) (x : Word) : (v.chainKilled x).user = v.user ∧ (v.chainKilled x).bank = v.bank ∧
    (v.chainKilled x).ip = v.ip ∧ (v.chainKilled x).slice = none ∧ bitAt (v.chainKilled x).fltpos 63 = false ∧
    ∀ c, v.chain = some c → (v.chainKilled x).chain = some { c with result := some x } := by
  have hb (y : Word) : bitAt ((bits y 0 63).setWidth 64 : Word) 63 = false := by
    simp [bitAt, bits]
  unfold Seq.chainKilled Seq.clearFltpos
  cases hc : v.chain with
  | none => exact ⟨rfl, rfl, rfl, rfl, hb _, by simp⟩
  | some c => exact ⟨rfl, rfl, rfl, rfl, hb _, fun d hd => by cases hd; rfl⟩

end

/-- Settles O9. -/
theorem haltAndFreeze : Obligations.HaltAndFreeze := by
  unfold Obligations.HaltAndFreeze
  refine ⟨fun s q k hi => ⟨.of_advance (exec_halt hi) (by simp) (by simp) (by simp) (by simp) rfl rfl,
    fun hq hk => ⟨fun hf => ?_, fun hf => ?_, fun d hd => ?_⟩⟩, ?_⟩
  · have hon := exec_frzOn hi hq hk
    have hgo := exec_frzGo hi hq hk
    rw [if_pos hf] at hon
    rw [if_neg (by simp [hf])] at hgo
    exact ⟨.of_advance hon rfl rfl rfl rfl rfl rfl, .of_advance hgo⟩
  · have hon := exec_frzOn hi hq hk
    have hgo := exec_frzGo hi hq hk
    rw [if_neg (by obtain h | h := hf <;> simp [h])] at hon
    rw [if_pos hf, Seq.clearFltpos_eq] at hgo
    exact ⟨.of_advance hon, .of_advance hgo (by simp) (by simp) (by simp) (by simp) rfl rfl⟩
  · refine ⟨_, .of_finish (exec_frzQ hi hq hk hd), ?_, ?_, ?_, ?_⟩
    · rw [← bne_iff_ne]
      cases (s.plane k).frozen != .none <;> cases s.planeQuiet k <;> cases bitAt (s.seq q).fltpos 63 <;> decide
    · rw [← planeQuiet_iff]
      cases (s.plane k).frozen != .none <;> cases s.planeQuiet k <;> cases bitAt (s.seq q).fltpos 63 <;> decide
    · cases (s.plane k).frozen != .none <;> cases s.planeQuiet k <;> cases bitAt (s.seq q).fltpos 63 <;> rfl
    · cases (s.plane k).frozen != .none <;> cases s.planeQuiet k <;> cases bitAt (s.seq q).fltpos 63 <;> rfl
  · intro s q k a hi hq hk hlt hf hquiet hj hc
    have hb : s.killBusy k = false := by simp [State.killBusy, hquiet, hj, hc]
    obtain ⟨hu, hbk, hip, hsl, hv, hch⟩ := (s.seq q).chainKilled_user ((s.seq q).read a)
    refine ⟨_, exec_frzKill hi hq hk hf hb, ?_⟩
    rw [killChain_alone q _ hj hc]
    have hend : (Agent.block (k / 4) (k % 4)).ends := ⟨by omega, by omega⟩
    refine ⟨by simp [Plane.killed], by simp [Plane.killed], by simp [Plane.killed], by simp [Plane.killed],
      ⟨by simp [hu], by simp [hbk]⟩, by simp [hip], by simpa using hv, by simpa using hsl,
      fun c h => by simpa using hch c h, ?_⟩
    refine .trans ?_ (.trans (State.retire_ended hend _) (.of_eq _ rfl rfl))
    exact .of_eq _ (by simp) (by simp)


/-! ### Fault tokens and asynchronous events (O10) -/

section
variable {s : State} {q : Nat}

/-- `ftok` with A = 0 sends the token of the sequencer's own fault registers (R391). -/
theorem exec_ftok_own (hi : IssuesPriv s q []) (hq : q ≠ 128) (hs : (s.seq q).stage = .fresh)
    (hr : (s.seq (ftokTarget q)).ringRoom = true) :
    exec (.ftok 0) s = .next (s.sendUp q (s.ownToken q (bits (s.seq q).fltcause 0 8) (s.seq q).fltaux)) := by
  have h0 : (s.seq q).ready 0 = true := by simp [Seq.ready, Seq.armed, Seq.outstanding]
  refine (hi.runs false _).trans ?_
  have hroot : q ≠ rootOf 0 := hq
  simp only [hroot, hs, h0, hr, Bool.not_true, Bool.false_eq_true, if_false, if_true]

/-- The ring gets the token, and the sequencer moves on; every register stays. -/
theorem sendUp_spec (s : State) (q : Nat) (tok : List Word) :
    ((s.sendUp q tok).seq (ftokTarget q)).ftoks = (s.seq (ftokTarget q)).ftoks ++ [tok] ∧ RegsStay s (s.sendUp q tok) q ∧
      ((s.sendUp q tok).seq q).ip = (s.seq q).ip + 4 ∧ BytesStay s (s.sendUp q tok) := by
  have hself : ((s.sendUp q tok).seq q) = { (s.sendToken (ftokTarget q) tok).seq q with ip := (s.seq q).ip + 4 } := by
    rw [State.sendUp, State.seq_advance_self, State.seq_sendToken]
    rfl
  refine ⟨?_, ⟨?_, ?_⟩, ?_, .of_eq rfl rfl⟩
  · by_cases h : ftokTarget q = q
    · rw [h, hself, h, State.seq_sendToken, if_pos rfl]
    · rw [State.sendUp, State.advance, State.seq_setSeq_ne _ _ _ _ h, State.seq_sendToken, if_pos rfl]
  · rw [hself, State.seq_sendToken]
  · rw [hself, State.seq_sendToken]
  · rw [hself]

theorem exec_faultTokenEnqueue {board : Nat} {tok : List Word} {rest : List (List Word)}
    (h : (s.seq (128 + board)).ftoks = tok :: rest)
    (hr : (s.seq (128 + board)).ringUsed < (s.seq (128 + board)).ringSize) :
    let v := s.seq (128 + board)
    let place := (bits v.fqbase 12 40).toNat * 4096 + 64 * ((bits v.fqtail 0 32).toNat % v.ringSize)
    exec (.faultTokenEnqueue board) s =
      .next ((({ s with mem := s.mem.poke 0 (keyed place (tok.flatMap fun (w : Word) => leBytes 8 w.toNat)) }).chargeAt
        none place 1).setSeq (128 + board)
          { v with ftoks := rest, fqtail := (bits v.fqtail 0 32 + 1).setWidth 64 }) := by
  intro v place
  show execFaultTokenEnqueue board s = _
  simp only [execFaultTokenEnqueue, rootOf, h, Nat.not_le.2 hr, if_false]
  rfl

@[simp] theorem State.mem_charge (s : State) (r : Option Nat) (e n : Nat) : (s.chargeAt r e n).mem = s.mem := by
  unfold State.chargeAt
  dsimp only
  split
  case h_3 => cases r <;> rfl
  case h_4 => cases r <;> rfl
  all_goals rfl

/-- Words 1 to 5 of a sequencer's own token are its fault registers and EPC (Table 15-3). -/
theorem ownToken_words (s : State) (q : Nat) (cause : BitVec 8) (aux : Word) :
    ∃ w l, s.ownToken q cause aux =
      w :: (s.seq q).fltaddr :: (s.seq q).fltpos :: (s.seq q).fltbpc :: aux :: (s.seq q).epc :: l :=
  ⟨_, _, rfl⟩

theorem ringTail_toNat (x : Word) :
    ((bits x 0 32 + 1).setWidth 64 : Word).toNat = ((bits x 0 32).toNat + 1) % 2 ^ 32 := by
  rw [BitVec.toNat_setWidth, BitVec.toNat_add]
  have : (1 : BitVec 32).toNat = 1 := rfl
  omega

/-- Between instructions without a slice, all that `endSlice` may change is the sequencer's own record (R335). -/
theorem setSeq_endSlice (h : (s.seq q).slice = none) (w : Seq) : (s.endSlice q).setSeq q w = s.setSeq q w := by
  have hd : (s.seq q).dropResult.slice = none := h
  unfold State.endSlice
  simp only [hd]
  split <;> simp

theorem seq_endSlice (h : (s.seq q).slice = none) : (s.endSlice q).seq q = (s.seq q).dropResult := by
  have hd : (s.seq q).dropResult.slice = none := h
  unfold State.endSlice
  simp only [hd]
  split
  · rename_i e
    exact e.symm
  · simp

/-- What an asynchronous event leaves (R384): the trap of its cause, taken at the IP. -/
def EventTaken (s t : State) (q : Nat) (cause : Cause) (addr : Word) : Prop :=
  (t.seq q).epc = BitVec.ofNat 64 ((s.seq q).ip.toNat % 2 ^ 52) ∧ (t.seq q).ip = (s.seq q).tvec ∧
    (t.seq q).priv = true ∧ EStat.inh (t.seq q).estat = true ∧ EStat.pmode (t.seq q).estat = (s.seq q).priv ∧
    (t.seq q).fltcause.toNat = cause.code.toNat ∧ (t.seq q).fltaddr = addr ∧ RegsStay s t q ∧ OnlySeq s t q

/-- A trap taken from a state that differs in the sequencer's own record, at none of the fields that the trap reads. -/
theorem eventTaken_of_trap {u : State} {w : Seq} (hset : ∀ x, u.setSeq q x = s.setSeq q x) (hw : u.seq q = w)
    (hip : w.ip = (s.seq q).ip) (htv : w.tvec = (s.seq q).tvec) (hp : w.priv = (s.seq q).priv)
    (hu : w.user = (s.seq q).user) (hb : w.bank = (s.seq q).bank) (hinh : EStat.inh w.estat = false) (c : Cause) (addr : Word) :
    EventTaken s (u.takeTrap q c addr w.ip) q c addr := by
  subst hw
  obtain ⟨⟨honly, -⟩, ⟨huser, hbank⟩, hepc, hcause, haddr, hipt, hpriv, hpm, hin, -⟩ := u.takeTrap_trapped q c addr _ hinh
  rw [hset] at honly
  refine ⟨by rw [hepc, hip], by rw [hipt, htv], hpriv, hin, by rw [hpm, hp], hcause, haddr,
    ⟨by rw [huser, hu], by rw [hbank, hb]⟩, honly, ?_⟩
  rw [honly]
  exact .setSeq _ _ _

/-- The sequencer's record as the trap of a fabric fault of its chain finds it. -/
def Seq.faultTaken (v : Seq) : Seq := { v.dropResult with pendFault := none, estat := v.estat &&& ~~~(4 : Word) }

theorem Seq.inh_faultTaken {v : Seq} (h : EStat.inh v.estat = false) : EStat.inh v.faultTaken.estat = false := by
  show bitAt (v.estat &&& ~~~(4 : Word)) 1 = false
  have hb : bitAt v.estat 1 = false := h
  rw [bitAt] at hb ⊢
  rw [BitVec.getLsbD_and, hb, Bool.false_and]

/-- Between two instructions an event that stands is taken, in the order of R384. -/
theorem execAsyncEvent_eq (hr : (s.seq q).run = .running) (hi : EStat.inh (s.seq q).estat = false)
    (hh : s.seqHeld q = false) (hb : s.betweenInstrs q = true) (hs : (s.seq q).slice = none) :
    exec (.asyncEvent q) s =
      (s.seq q).pendFault.elim
        (if bitAt (s.seq q).sctl 0 && bitAt (s.seq q).eflt 63 then
            .next ((s.endSlice q).takeTrap q .engflt 0 (s.seq q).ip)
          else if isRoot q && bitAt (s.seq q).sctl 1 && (s.seq q).fqhead != (s.seq q).fqtail then
            .next ((s.endSlice q).takeTrap q .ftokin 0 (s.seq q).ip)
          else stall (s.endSlice q))
        fun e => .next (((s.endSlice q).setSeq q (s.seq q).faultTaken).takeTrap q e.1 e.2 (s.seq q).ip) := by
  show execAsyncEvent q s = _
  unfold execAsyncEvent
  simp only [hr, hi, hh, hb, bne_self_eq_false, Bool.not_true, Bool.or_self, Bool.false_eq_true, if_false, seq_endSlice hs]
  cases h : (s.seq q).dropResult.pendFault <;> rw [show (s.seq q).pendFault = _ from h] <;> rfl

variable (hr : (s.seq q).run = .running) (hi : EStat.inh (s.seq q).estat = false) (hh : s.seqHeld q = false)
  (hb : s.betweenInstrs q = true) (hs : (s.seq q).slice = none)
include hr hi hh hb hs

theorem asyncEvent_fault {c : Cause} {addr : Word} (h : (s.seq q).pendFault = some (c, addr)) :
    ∃ t, exec (.asyncEvent q) s = .next t ∧ EventTaken s t q c addr := by
  rw [execAsyncEvent_eq hr hi hh hb hs, h]
  refine ⟨_, rfl, ?_⟩
  have hset (x : Seq) : ((s.endSlice q).setSeq q (s.seq q).faultTaken).setSeq q x = s.setSeq q x := by
    rw [State.setSeq_setSeq, setSeq_endSlice hs]
  exact eventTaken_of_trap hset (State.seq_setSeq_self _ _ _) rfl rfl rfl rfl rfl (Seq.inh_faultTaken hi) c addr

theorem asyncEvent_engflt (h : (s.seq q).pendFault = none) (h0 : bitAt (s.seq q).sctl 0 = true)
    (he : bitAt (s.seq q).eflt 63 = true) :
    ∃ t, exec (.asyncEvent q) s = .next t ∧ EventTaken s t q .engflt 0 := by
  rw [execAsyncEvent_eq hr hi hh hb hs, h, Option.elim_none, if_pos (by rw [h0, he]; rfl)]
  exact ⟨_, rfl, eventTaken_of_trap (setSeq_endSlice hs) (seq_endSlice hs) rfl rfl rfl rfl rfl hi .engflt 0⟩

theorem asyncEvent_ftokin (h : (s.seq q).pendFault = none) (hno : bitAt (s.seq q).sctl 0 = false ∨ bitAt (s.seq q).eflt 63 = false)
    (hroot : 128 ≤ q) (h1 : bitAt (s.seq q).sctl 1 = true) (hf : (s.seq q).fqhead ≠ (s.seq q).fqtail) :
    ∃ t, exec (.asyncEvent q) s = .next t ∧ EventTaken s t q .ftokin 0 := by
  have hq : (isRoot q && bitAt (s.seq q).sctl 1 && (s.seq q).fqhead != (s.seq q).fqtail) = true := by
    simp only [isRoot, hroot, decide_true, Bool.true_and, Bool.and_eq_true, bne_iff_ne]
    exact ⟨h1, hf⟩
  rw [execAsyncEvent_eq hr hi hh hb hs, h, Option.elim_none,
    if_neg (by rw [Bool.not_eq_true, Bool.and_eq_false_iff]; exact hno), if_pos hq]
  exact ⟨_, rfl, eventTaken_of_trap (setSeq_endSlice hs) (seq_endSlice hs) rfl rfl rfl rfl rfl hi .ftokin 0⟩

end

/-- Settles O10. -/
theorem faultTokensAndEvents : Obligations.FaultTokensAndEvents := by
  unfold Obligations.FaultTokensAndEvents
  refine ⟨fun s q => ⟨fun hi hq hst hr => ?_, fun board tok rest h hr => ?_⟩, fun s q hr hi hh hb hs => ?_⟩
  · obtain ⟨hring, hregs, hip, hbytes⟩ := sendUp_spec s q (s.ownToken q (bits (s.seq q).fltcause 0 8) (s.seq q).fltaux)
    have hcause := State.ownToken_cause s q (bits (s.seq q).fltcause 0 8) (s.seq q).fltaux
    obtain ⟨w, l, htok⟩ := ownToken_words s q (bits (s.seq q).fltcause 0 8) (s.seq q).fltaux
    refine ⟨_, _, exec_ftok_own hi hq hst hr, hring, ?_⟩
    rw [htok] at hcause hregs hip hbytes ⊢
    clear hring
    refine ⟨rfl, rfl, rfl, rfl, rfl, ?_, hregs, hip, hbytes⟩
    rw [hcause]
    simp [bits]
  · refine ⟨_, exec_faultTokenEnqueue h hr, by simp, by simp, ?_⟩
    rw [State.seq_setSeq_self]
    exact ringTail_toNat _
  · exact ⟨fun c addr h => asyncEvent_fault hr hi hh hb hs h, fun h h0 he => asyncEvent_engflt hr hi hh hb hs h h0 he,
      fun h hno hroot h1 hf => asyncEvent_ftokin hr hi hh hb hs h hno hroot h1 hf⟩

/-! ### Watchpoints and tlbi (O11) -/

section
variable {s : State} {q k : Nat}

theorem withCtx_of_ctxOf {c : Nat} {cx : Ctx} (hc : s.ctxOf q = some c) (hx : s.ctx? c = some cx) (f : Nat → Ctx → Res) :
    withCtx s q f = f c cx := by
  simp only [withCtx, hc, hx]

/-- A watchpoint register written and its old home entry gone (R395). -/
def State.newWatch (s : State) (k : Nat) (n : BitVec 2) (x : Word) : State := (s.setWpt k n.toNat x).unwatch k n.toNat

theorem newWatch_wpt (n : BitVec 2) (x : Word) : vget ((s.newWatch k n x).plane k).wpt n.toNat 0 = x := by
  show vget ((s.setPlane k { s.plane k with wpt := vput (s.plane k).wpt n.toNat x }).plane k).wpt n.toNat 0 = x
  rw [State.plane_setPlane_self]
  exact vget_vput_self _ _ _ _ n.isLt

/-- The home entry of a page of MKIND 0, 1 or 3 (R393). -/
def State.addWatch (s : State) (m : Nat) (w : HomeWatch) : State :=
  { s with watches := s.watches ++ if m ∈ [0, 1, 3] then [w] else [] }

theorem addWatch_eq (m : Nat) (w : HomeWatch) :
    s.addWatch m w = if m = 0 || m = 1 || m = 3 then { s with watches := s.watches ++ [w] } else s := by
  have hm : (m = 0 || m = 1 || m = 3) = decide (m ∈ [0, 1, 3]) := by
    simp [Bool.or_assoc]
  rw [State.addWatch, hm]
  by_cases h : m ∈ [0, 1, 3]
  · simp only [h, decide_true, if_true]
  · simp only [h, decide_false, Bool.false_eq_true, if_false, List.append_nil]

variable {n : BitVec 2} {a : SReg} {mask : BitVec 16}

theorem exec_wpt_off (hi : IssuesPriv s q []) (hq : q < 128) (hk : s.planeOf q = some k) :
    exec (.wpt n true 0 0) s = .next ((s.newWatch k n 0).advance q 8) := by
  have h0 : (s.seq q).ready 0 = true := by simp [Seq.ready, Seq.armed, Seq.outstanding]
  refine (hi.runs false _).trans ?_
  simp only [h0, withPlane_of_planeOf hq hk, Bool.not_true, Bool.false_eq_true, if_false, if_true]
  rfl

theorem exec_wpt_align (hi : IssuesPriv s q [a]) (hq : q < 128) (hk : s.planeOf q = some k)
    (h : ((s.seq q).read a).toNat % 16 ≠ 0) :
    exec (.wpt n false a mask) s = .next (s.raise q .align ((s.seq q).read a)) := by
  refine (hi.runs false _).trans ?_
  simp only [hi.1.ready (List.mem_singleton_self a), withPlane_of_planeOf hq hk, Bool.not_true, Bool.false_eq_true,
    if_false, bne_iff_ne.2 h, if_true]

theorem exec_wpt_on {p : Phys} (hi : IssuesPriv s q [a]) (hq : q < 128) (hk : s.planeOf q = some k)
    (h : ((s.seq q).read a).toNat % 16 = 0) (hp : s.reach q (reqLoad q) ((s.seq q).read a) 16 .read = .to p) :
    exec (.wpt n false a mask) s =
      .next (((s.newWatch k n (bits ((s.seq q).read a) 4 48 ++ mask)).addWatch (Leaf.mkind p.leaf).toNat
        { line := p.key / 16, mask, plane := k, n := n.toNat }).advance q 8) := by
  refine (hi.runs false _).trans ?_
  simp only [hi.1.ready (List.mem_singleton_self a), withPlane_of_planeOf hq hk, Bool.not_true, Bool.false_eq_true,
    if_false, h, bne_self_eq_false, hp, addWatch_eq]
  rfl

/-- No entry of the range is left in a cache within the scope, nor in a unit of its boards (R401). -/
theorem dropEntries_clean (x : Inval) :
    (∀ e ∈ (s.dropEntries x).tlbs, x.near (.seq (reqSeq e.1)) = true →
      ∀ l ∈ e.2, x.meets l.ctx l.page (Leaf.lg l.leaf) = false) ∧
    (∀ e ∈ (s.dropEntries x).units, 2 ≤ x.level → x.near (.seq (rootOf e.1)) = true →
      ∀ l ∈ e.2, x.meets l.ctx l.page (Leaf.lg l.leaf) = false) := by
  refine ⟨fun e he hn l hl => ?_, fun e he hlev hn l hl => ?_⟩
  · obtain ⟨⟨r, old⟩, -, rfl⟩ := List.mem_map.1 he
    simp only [hn, if_true, List.mem_filter, Bool.not_eq_true'] at hl
    exact hl.2
  · obtain ⟨⟨b, old⟩, -, rfl⟩ := List.mem_map.1 he
    simp only [hn, hlev, decide_true, Bool.and_self, if_true, List.mem_filter, Bool.not_eq_true'] at hl
    exact hl.2

/-- The range of a `tlbi` of a context. -/
def Seq.inval (v : Seq) (q c : Nat) (all : Bool) (sc : Scope) (a b : SReg) : Inval :=
  { q, level := sc.level, ctx := c
    range := if all then none else some ((v.read a).toNat, (v.read a).toNat + (v.read b).toNat) }

theorem exec_tlbi {c : Nat} {cx : Ctx} {all : Bool} {sc : Scope} {b : SReg} (hi : IssuesPriv s q [a, b])
    (hc : s.ctxOf q = some c) (hx : s.ctx? c = some cx) {x : Inval} (hxi : x = (s.seq q).inval q c all sc a b)
    (hb : ((s.dropEntries x).reparkFrozen x).invalBusy x = false) :
    exec (.tlbi all sc a b) s = .next (((s.dropEntries x).reparkFrozen x).advance q 4) := by
  subst hxi
  refine (hi.runs false _).trans ?_
  simp only [hi.1.2.2.1, withCtx_of_ctxOf hc hx, Bool.not_true, Bool.false_eq_true, if_false]
  exact if_neg (by rw [← Bool.not_eq_false] at *; simpa [Seq.inval] using hb)

end

/-- Settles O11. -/
theorem watchpointsAndTlbi : Obligations.WatchpointsAndTlbi := by
  unfold Obligations.WatchpointsAndTlbi
  refine ⟨fun s q k n a mask hi hq hk => ⟨?_, fun p h hp => ?_, fun h hinh => ?_⟩, ?_⟩
  · have hi0 : IssuesPriv s q [] := ⟨⟨hi.1.1, hi.1.2.1, rfl, hi.1.2.2.2⟩, hi.2⟩
    exact ⟨_, exec_wpt_off hi0 hq hk, newWatch_wpt n 0, rfl, ⟨by simp; rfl, by simp; rfl⟩, by simp; rfl, .of_eq rfl rfl⟩
  · exact ⟨_, exec_wpt_on hi hq hk h hp, newWatch_wpt (s := s) n _, rfl, ⟨by simp; rfl, by simp; rfl⟩, by simp; rfl,
      .of_eq rfl rfl⟩
  · exact ⟨_, exec_wpt_align hi hq hk h, s.raise_trapped q .align _ hinh⟩
  · intro s q c cx all sc a b hi hc hx lo x hb
    exact ⟨_, exec_tlbi hi hc hx rfl hb, ⟨by simp; rfl, by simp; rfl⟩, by simp; rfl, rfl, dropEntries_clean x⟩

/-! ### cfgw (O12)

`cfgw` is marked K, and an instruction so marked raises PRIV in user mode as one marked P does (R65). The statement names a
root core, but not that it is privileged (R382): the state that refutes it holds a root core in user mode. -/

/-- A root core in user mode, whose s2 names a destination of kind 2 in region 0. -/
def userRoot : Seq := { Seq.reset 128 with priv := false, user := vput (Vector.replicate 32 0) 2 0x8000000000000000 }

/-- The machine after reset in the turn of such a root core. -/
def userRootState : State := { State.reset with seqs := [(128, userRoot)] }

theorem userRoot_issues : Issues userRootState 128 [1, 2] := by
  refine ⟨by decide, rfl, by decide, by decide⟩

theorem exec_cfgw_userRoot : exec (.cfgw 1 2) userRootState = .next (userRootState.raise 128 .priv 0) := rfl

/-- Refutes O12: on a root core in user mode `cfgw` takes the trap PRIV, and does not go on at the next instruction. -/
theorem not_cfgwReaches : ¬ Obligations.CfgwReaches := by
  unfold Obligations.CfgwReaches
  intro h
  obtain ⟨hresume, -⟩ := h userRootState 128 1 2 userRoot_issues (by decide)
  obtain ⟨-, hleaves⟩ := hresume (by decide) (by decide) (by decide)
  obtain ⟨w, hexec, -, hip, -⟩ := hleaves (by decide)
  have hw : userRootState.raise 128 .priv 0 = userRootState.setSeq 128 w := by
    rw [exec_cfgw_userRoot] at hexec
    exact Host.Outcome.next.inj hexec
  have hseq : w.ip = ((userRootState.raise 128 .priv 0).seq 128).ip := by rw [hw, State.seq_setSeq_self]
  rw [hip] at hseq
  exact absurd hseq (by decide)

end Sys2Proof.Machine
end

