-- ==== Sys2Proof/Proofs/SeqSync.lean ====
section
/-!
PROOFS. O13, O15: the sequencer's atomics and barriers, which stand at their IP until their event is performed; pattern and
codebook registers, and the binding of a port's side.
-/

namespace Sys2Proof.Machine

/-! ### The waiting instruction -/

@[simp] theorem Seq.setWait_user (v : Seq) (w : Wait) : (v.setWait w).user = v.user := by unfold Seq.setWait; split_ifs <;> rfl
@[simp] theorem Seq.setWait_bank (v : Seq) (w : Wait) : (v.setWait w).bank = v.bank := by unfold Seq.setWait; split_ifs <;> rfl
@[simp] theorem Seq.setWait_ip (v : Seq) (w : Wait) : (v.setWait w).ip = v.ip := by unfold Seq.setWait; split_ifs <;> rfl
@[simp] theorem Seq.setWait_priv (v : Seq) (w : Wait) : (v.setWait w).priv = v.priv := by unfold Seq.setWait; split_ifs <;> rfl
@[simp] theorem Seq.setWait_estat (v : Seq) (w : Wait) : (v.setWait w).estat = v.estat := by unfold Seq.setWait; split_ifs <;> rfl
@[simp] theorem Seq.setWait_tvec (v : Seq) (w : Wait) : (v.setWait w).tvec = v.tvec := by unfold Seq.setWait; split_ifs <;> rfl
@[simp] theorem Seq.setWait_read (v : Seq) (w : Wait) (r : SReg) : (v.setWait w).read r = v.read r := by
  simp [Seq.read, Seq.regs]

@[simp] theorem Seq.wait_setWait (v : Seq) (w : Wait) : (v.setWait w).wait = w := by
  unfold Seq.setWait
  split_ifs <;> simp [Seq.wait, *]

/-- Another IP leaves the wait of its level. -/
@[simp] theorem Seq.wait_ip (v : Seq) (a : Word) : ({ v with ip := a } : Seq).wait = v.wait := rfl
@[simp] theorem Seq.read_ip (v : Seq) (a : Word) (r : SReg) : ({ v with ip := a } : Seq).read r = v.read r := rfl

/-- A wait for an event that has not returned is the stage `pending`. -/
theorem Seq.stage_pending {v : Seq} {n id : Nat} {hit : Option (Nat × Word)} (h : v.wait = .event v.ip n id hit none) :
    v.stage = .pending := by
  simp [Seq.stage, h]

section
variable {s u : State} {q : Nat} {e : Ev}

/-- From s an event is placed, and the sequencer waits for it at its IP. -/
theorem placed_await (hq : q < 132) (n : Nat) (hit : Option (Nat × Word)) :
    let t := (s.place q e).await q n s.nextId hit
    Placed s t q { e with id := s.nextId } ∧ RegsStay s t q ∧ (t.seq q).ip = (s.seq q).ip ∧ (t.seq q).stage = .pending := by
  refine ⟨(State.place_placed s q e (isBlockKey_seq hq)).setSeq rfl rfl rfl q _, ?_, ?_, ?_⟩
  · simp [RegsStay, State.await]
  · simp [State.await]
  · refine Seq.stage_pending (n := n) (id := s.nextId) (hit := hit) ?_
    simp [State.await]

/-- Without a watchpoint hit the end of a wait moves the IP on. -/
theorem doneWait_eq (s : State) (q n : Nat) :
    s.doneWait q n none = s.setSeq q { (s.seq q).setWait .none with ip := (s.seq q).ip + BitVec.ofNat 64 n } := by
  simp [State.doneWait, State.advance]

theorem doneWait_spec (s : State) (q n : Nat) :
    let t := s.doneWait q n none
    OnlySeq s t q ∧ RegsStay s t q ∧ (t.seq q).ip = (s.seq q).ip + BitVec.ofNat 64 n ∧ (t.seq q).wait = .none := by
  rw [doneWait_eq]
  refine ⟨⟨by simp, .setSeq _ _ _⟩, by simp [RegsStay], by simp, ?_⟩
  rw [State.seq_setSeq_self]
  exact Seq.wait_setWait _ _

/-- A fault that the home has raised is a precise trap (R321). -/
theorem rmwTrap_spec (s : State) (q : Nat) (c : Cause) (addr : Word) (h : EStat.inh (s.seq q).estat = false) :
    let t := s.rmwTrap q c addr
    (t.seq q).epc = BitVec.ofNat 64 ((s.seq q).ip.toNat % 2 ^ 52) ∧ (t.seq q).fltcause.toNat = c.code.toNat ∧
      (t.seq q).fltaddr = addr ∧ (t.seq q).ip = (s.seq q).tvec ∧ RegsStay s t q ∧ OnlySeq s t q := by
  intro t
  obtain ⟨⟨honly, -⟩, ⟨hu, hb⟩, hepc, hcause, haddr, hip, -⟩ :=
    (s.setSeq q ((s.seq q).setWait .none)).raise_trapped q c addr (by simpa using h)
  have ht : t = s.setSeq q (t.seq q) := by
    refine Eq.trans honly ?_
    rw [State.setSeq_setSeq]
    rfl
  refine ⟨hepc.trans (by simp), hcause, haddr, hip.trans (by simp), ⟨hu.trans (by simp), hb.trans (by simp)⟩, ht, ?_⟩
  rw [ht]
  exact .setSeq _ _ _

end

/-- What a register reads after a write: its value, but for s0. -/
theorem Seq.read_write (v : Seq) (d r : SReg) (x : Word) :
    (v.write d x).read r = if r = d ∧ d ≠ 0 then x else v.read r := by
  by_cases hd : d = 0
  · subst hd
    rw [Seq.write_zero, if_neg fun e => e.2 rfl]
  · by_cases e : r = d
    · rw [e, Seq.read_write_self _ _ _ hd, if_pos ⟨rfl, hd⟩]
    · rw [Seq.read_write_ne _ _ _ _ e, if_neg fun x => e x.1]

/-! ### satom, bnew and sarrv (O13) -/

theorem leNat_lt (bs : List Byte) : leNat bs < 256 ^ bs.length := by
  induction bs with
  | nil => decide
  | cons b bs ih =>
    have hb := b.isLt
    simp only [leNat, List.length_cons, Nat.pow_succ]
    omega

/-- The old value of a `satom` extended from its own width (R315). -/
theorem satom_returned {bs : List Byte} {wide : Bool} {ty : SatomTy} (h : bs.length = if wide then 8 else 4) :
    execSatom.returned (ty == .signed) bs =
      if wide = false ∧ ty = .signed then (BitVec.ofNat 32 (leNat bs)).signExtend 64 else BitVec.ofNat 64 (leNat bs) := by
  have hlt := leNat_lt bs
  unfold execSatom.returned
  cases wide with
  | true => simp_all
  | false =>
    simp only [Bool.false_eq_true, if_false] at h
    rw [h] at hlt
    have hz : (BitVec.ofNat 32 (leNat bs)).setWidth 64 = BitVec.ofNat 64 (leNat bs) := by
      apply BitVec.eq_of_toNat_eq
      rw [BitVec.toNat_setWidth, BitVec.toNat_ofNat, BitVec.toNat_ofNat]
      omega
    simp [h, hz]

section
variable {s : State} {q : Nat} {d a b c : SReg}

/-- The event of an RMW at which an instruction of a sequencer waits. -/
def State.homeEvent (s : State) (q : Nat) (va : Word) (size : Nat) (p : Phys) (op : RmwOp) (acq rel : Bool) (sc : Scope) : Ev :=
  { s.seqEvent q va size p (.rmw op) with acq, rel, scope := sc, dest := .wait q }

theorem callHome_eq (n : Nat) (va : Word) (size : Nat) (p : Phys) (op : RmwOp) (acq rel : Bool) (sc : Scope) :
    s.callHome q n va size p op acq rel sc =
      (s.place q (s.homeEvent q va size p op acq rel sc)).await q n s.nextId (s.seqHit q va size) := rfl

theorem keys_homeEvent {va : Word} {size : Nat} {p : Phys} {op : RmwOp} {acq rel : Bool} {sc : Scope} :
    (s.homeEvent q va size p op acq rel sc).pieces.map Piece.key = keysFrom p.key size := 
  keys_seqEvent (s := s) (q := q) (va := va) (k := .rmw op)

variable {op : AtomOp} {wide : Bool} {ord : AtomOrd} {sc : Scope} {ty : SatomTy}

theorem exec_satom_fresh {p : Phys} (hi : Issues s q [d, a, b, c]) (hs : (s.seq q).stage = .fresh)
    (hp : s.reach q (reqLoad q) ((s.seq q).read a) (if wide then 8 else 4) .atomic = .to p) :
    exec (.satom d a b c op wide ord sc ty) s =
      .next (s.callHome q 8 ((s.seq q).read a) (if wide then 8 else 4) p
        (.atomic op (ty == .float) (ty == .signed) ((s.seq q).read b) ((s.seq q).read c)) (ord == .acq || ord == .ar)
        (ord == .rel || ord == .ar) sc) := by
  refine (hi.runs false _).trans ?_
  simp only [hs, hi.2.2.1, hp, Bool.not_true, Bool.false_eq_true, if_false]

theorem exec_satom_back {n : Nat} {bs : List Byte} {bad : Option Cause} (hi : Issues s q [d, a, b, c])
    (hs : (s.seq q).stage = .back n bs bad none) :
    exec (.satom d a b c op wide ord sc ty) s =
      .next ((s.setSeq q ((s.seq q).write d (execSatom.returned (ty == .signed) bs))).doneWait q 8 none) := by
  refine (hi.runs false _).trans ?_
  simp only [hs]

variable {i : Instr}

/-- The count with which an arrival comes (R324). -/
def Seq.arriveCount (v : Seq) (d : SReg) : Nat := if d = 0 then 1 else (v.read d).toNat

/-- The instruction creates an object, or arrives at one without release, with operands that R320 and R324 allow. -/
def AtObject (v : Seq) (d a b : SReg) (i : Instr) : Prop :=
  i = .bnew a b ∧ descriptorOk (v.read b) = true ∨ i = .sarrv d a b false ∧ v.arriveCount d < 2 ^ 32

/-- What the instruction asks of the object's home (R320, R324). -/
def State.objectOp (s : State) (q : Nat) (d b : SReg) (i : Instr) : RmwOp :=
  match i with
  | .bnew .. => .create (((s.seq q).read b).setWidth 256)
  | _ => .arrive (if b = 0 then none else some (bits ((s.seq q).read b) 0 16)) ((s.seq q).arriveCount d) (s.ctxNo q)
    (s.seq q).branch

theorem reachObject_aligned {va : Word} {use : Use} (h : va.toNat % 32 = 0) :
    s.reachObject q va use = s.reach q (reqLoad q) va 32 use := by
  simp [State.reachObject, h]

theorem exec_object_fresh {p : Phys} (hi : Issues s q [d, a, b]) (ho : AtObject (s.seq q) d a b i)
    (hs : (s.seq q).stage = .fresh) (h32 : ((s.seq q).read a).toNat % 32 = 0)
    (hp : s.reach q (reqLoad q) ((s.seq q).read a) 32 .atomic = .to p) :
    exec i s = .next (s.callHome q 4 ((s.seq q).read a) 32 p (s.objectOp q d b i) false false .rgn) := by
  have hall := hi.2.2.1
  obtain ⟨rfl, hd⟩ | ⟨rfl, hn⟩ := ho
  · have hab : (s.seq q).allReady [a, b] = true := by
      simp only [Seq.allReady, List.all_cons, Bool.and_eq_true] at hall ⊢
      exact hall.2
    have hi' : Issues s q [a, b] := ⟨hi.1, hi.2.1, hab, hi.2.2.2⟩
    refine (hi'.runs false _).trans ?_
    simp only [hs, hab, h32, hd, hp, Bool.not_true, bne_self_eq_false, Bool.or_self, Bool.and_false, Bool.false_eq_true, if_false]
    rfl
  · refine (hi.runs false _).trans ?_
    have hn' : ¬ 2 ^ 32 ≤ if d = 0 then 1 else ((s.seq q).read d).toNat := Nat.not_le.2 hn
    simp only [hs, hall, hn', reachObject_aligned h32, hp, Bool.not_true, Bool.not_false, Bool.false_eq_true, if_false, if_true]
    rfl

theorem exec_object_align (hi : Issues s q [d, a, b]) (ho : AtObject (s.seq q) d a b i)
    (hs : (s.seq q).stage = .fresh) (h52 : ((s.seq q).read a).toNat < 2 ^ 52) (h32 : ((s.seq q).read a).toNat % 32 ≠ 0) :
    exec i s = .next (s.raise q .barval ((s.seq q).read a)) := by
  have hall := hi.2.2.1
  have hbad : (decide (((s.seq q).read a).toNat < 2 ^ 52) && ((s.seq q).read a).toNat % 32 != 0) = true := by
    rw [decide_eq_true h52, Bool.true_and, bne_iff_ne]
    exact h32
  obtain ⟨rfl, hd⟩ | ⟨rfl, hn⟩ := ho
  · have hab : (s.seq q).allReady [a, b] = true := by
      simp only [Seq.allReady, List.all_cons, Bool.and_eq_true] at hall ⊢
      exact hall.2
    have hi' : Issues s q [a, b] := ⟨hi.1, hi.2.1, hab, hi.2.2.2⟩
    refine (hi'.runs false _).trans ?_
    simp only [hs, hab, h52, bne_iff_ne.2 h32, decide_true, Bool.true_or, Bool.and_self, Bool.not_true, Bool.false_eq_true,
      if_false, if_true]
  · refine (hi.runs false _).trans ?_
    have hn' : ¬ 2 ^ 32 ≤ if d = 0 then 1 else ((s.seq q).read d).toNat := Nat.not_le.2 hn
    simp only [hs, hall, hn', State.reachObject, hbad, Bool.not_true, Bool.not_false, Bool.false_eq_true, if_false, if_true]

theorem exec_object_done {n : Nat} {bs : List Byte} (hi : Issues s q [d, a, b]) (ho : AtObject (s.seq q) d a b i)
    (hn : n ≠ 0) (hs : (s.seq q).stage = .back n bs none none) : exec i s = .next (s.doneWait q 4 none) := by
  obtain ⟨rfl, -⟩ | ⟨rfl, -⟩ := ho
  · refine (hi.runs false _).trans ?_
    simp only [hs]
  · refine (hi.runs false _).trans ?_
    simp only [hs, hn, if_false]

theorem exec_object_fault {n : Nat} {bs : List Byte} {x : Cause} (hi : Issues s q [d, a, b])
    (ho : AtObject (s.seq q) d a b i) (hs : (s.seq q).stage = .back n bs (some x) none) :
    exec i s = .next (s.rmwTrap q x ((s.seq q).read a)) := by
  obtain ⟨rfl, -⟩ | ⟨rfl, -⟩ := ho
  all_goals
    refine (hi.runs false _).trans ?_
    simp only [hs]

/-- The arrival that the object takes goes on, its RMW still to be performed (log 17). -/
theorem exec_arrival {id : Nat} {e : Ev} {o : RmwOp} {x : List Byte × State} (hi : Issues s q [d, a, b])
    (hw : (s.seq q).wait = .event (s.seq q).ip 4 id none none) (hr : (s.agent q).rmws = [e]) (hd : e.dest = .wait q)
    (hk : e.kind = .rmw o) (ho : s.rmwResult e o (e.pieces.map fun p => s.mem.coLast p.key) = .ok x) :
    exec (.sarrv d a b false) s =
      .next ((s.setAgent q { s.agent q with rmws := [{ e with dest := .arrival q ((s.seq q).read a) }] }).doneWait q 4 none) := by
  have hiss : s.arrivalIssued q ((s.seq q).read a) =
      some (s.setAgent q { s.agent q with rmws := [{ e with dest := .arrival q ((s.seq q).read a) }] }) := by
    simp [State.arrivalIssued, hr, hd, hk, ho]
  refine (hi.runs false _).trans ?_
  simp only [Seq.stage_pending hw, hiss, hw]

end

/-- Settles O13. -/
theorem atomicsAndBarriers : Obligations.AtomicsAndBarriers := by
  unfold Obligations.AtomicsAndBarriers
  refine ⟨fun s q d a b c op wide ord sc ty hi => ⟨fun p hs hp => ?_, fun bs bad hs hl => ?_⟩, ?_⟩
  · obtain ⟨hpl, hregs, hip, hst⟩ := placed_await (s := s) (e := s.homeEvent q ((s.seq q).read a) (if wide then 8 else 4) p
      (.atomic op (ty == .float) (ty == .signed) ((s.seq q).read b) ((s.seq q).read c)) (ord == .acq || ord == .ar)
        (ord == .rel || ord == .ar) sc) hi.1 8 (s.seqHit q ((s.seq q).read a) (if wide then 8 else 4))
    have hkeys := keys_homeEvent (s := s) (q := q) (va := (s.seq q).read a) (size := if wide then 8 else 4) (p := p)
      (op := .atomic op (ty == .float) (ty == .signed) ((s.seq q).read b) ((s.seq q).read c)) (acq := false) (rel := false)
      (sc := sc)
    refine ⟨_, _, exec_satom_fresh hi hs hp, hpl, hregs, rfl, hkeys, rfl, ?_, ?_, hip, hst⟩
    · simp [State.homeEvent]
    · simp [State.homeEvent]
  · have hx := exec_satom_back (op := op) (wide := wide) (ord := ord) (sc := sc) (ty := ty) hi hs
    rw [doneWait_eq, State.setSeq_setSeq, State.seq_setSeq_self, satom_returned hl] at hx
    refine ⟨_, hx, ⟨by simp, .setSeq _ _ _⟩, fun r => ?_, by simp, ?_⟩
    · rw [State.seq_setSeq_self, Seq.read_ip, Seq.setWait_read, Seq.read_write]
    · rw [State.seq_setSeq_self]
      exact Seq.wait_setWait _ _
  · intro s q d a b i ho hi
    refine ⟨fun p hs h32 hp => ?_, fun n bs hn hs => ⟨_, exec_object_done hi ho hn hs, doneWait_spec s q 4⟩, ?_,
      fun n bs c hs hinh => ⟨_, exec_object_fault hi ho hs, rmwTrap_spec s q c _ hinh⟩,
      fun hs h52 h32 hinh => ⟨_, exec_object_align hi ho hs h52 h32, s.raise_trapped q .barval _ hinh⟩⟩
    · obtain ⟨hpl, hregs, hip, hst⟩ := placed_await (s := s) (e := s.homeEvent q ((s.seq q).read a) 32 p
        (s.objectOp q d b i) false false .rgn) hi.1 4 (s.seqHit q ((s.seq q).read a) 32)
      have hkeys := keys_homeEvent (s := s) (q := q) (va := (s.seq q).read a) (size := 32) (p := p)
        (op := s.objectOp q d b i) (acq := false) (rel := false) (sc := .rgn)
      refine ⟨_, _, _, exec_object_fresh hi ho hs h32 hp, hpl, hregs, rfl, hkeys, hip, hst, ?_, ?_⟩
      · rintro rfl
        rfl
      · rintro rfl
        rfl
    · rintro e op x id rfl hw hr hd hk hres
      obtain ⟨-, hregs, hip, hwt⟩ := doneWait_spec
        (s.setAgent q { s.agent q with rmws := [{ e with dest := .arrival q ((s.seq q).read a) }] }) q 4
      refine ⟨_, exec_arrival hi hw hr hd hk hres, hregs, hip, hwt, ?_, ?_⟩
      · rw [doneWait_eq, State.agent_setSeq, State.agent_setAgent_self]
      · intro ag key
        have hbuf (t : Nat) : ((s.setAgent q { s.agent q with
            rmws := [{ e with dest := .arrival q ((s.seq q).read a) }] }).agent t).buf = (s.agent t).buf := by
          by_cases h : t = q
          · rw [h, State.agent_setAgent_self]
          · rw [State.agent_setAgent_ne _ _ _ _ h]
        rw [doneWait_eq]
        exact congrArg (List.foldl _ _) (hbuf ag.key)

/-! ### The sides of a region's ports -/

section
variable {s : State} {r p : Nat} {w : Bool} {v : Side}

theorem State.side_setSide_self (hp : p < 8) : (s.setSide r p w v).side r p w = v := by
  unfold State.setSide State.side
  simp only [State.region_setRegion_self, vget_vput_self _ _ _ _ hp]
  cases w <;> rfl

theorem State.side_setSide_ne {r' p' : Nat} {w' : Bool} (h : r' ≠ r ∨ p' ≠ p ∨ w' ≠ w) (hp : p < 8) :
    (s.setSide r p w v).side r' p' w' = s.side r' p' w' := by
  unfold State.setSide State.side
  by_cases hr : r' = r
  · subst hr
    simp only [State.region_setRegion_self]
    by_cases hpp : p' = p
    · subst hpp
      simp only [vget_vput_self _ _ _ _ hp]
      cases w <;> cases w' <;> simp_all
    · rw [vget_vput_ne _ _ _ _ _ hpp]
  · simp only [State.region_setRegion_ne _ _ _ _ hr]

/-- A side's change is its region's alone. -/
theorem State.setSide_same (s : State) (r p : Nat) (w : Bool) (v : Side) :
    (s.setSide r p w v).seqs = s.seqs ∧ (s.setSide r p w v).planes = s.planes ∧ (s.setSide r p w v).mem = s.mem ∧
      (s.setSide r p w v).agents = s.agents := ⟨rfl, rfl, rfl, rfl⟩

/-- A side that the binding held, released. -/
def State.freeSide (s : State) (r o : Nat) (w : Bool) (p : Nat) (wr : Bool) : State :=
  if (s.side r p wr).heldBy == some o && holds o w p wr then s.setSide r p wr { s.side r p wr with heldBy := none, job := none }
  else s

theorem State.freeSide_same (s : State) (r o : Nat) (w : Bool) (p : Nat) (wr : Bool) :
    (s.freeSide r o w p wr).seqs = s.seqs ∧ (s.freeSide r o w p wr).planes = s.planes ∧
      (s.freeSide r o w p wr).mem = s.mem := by
  unfold State.freeSide
  split <;> exact ⟨rfl, rfl, rfl⟩

theorem State.release_eq (s : State) (r o : Nat) (w : Bool) :
    s.release r o w = (if o < 7 then s.freeSide r o w (o + 1) w else s).freeSide r o w o true := rfl

theorem State.release_same (s : State) (r o : Nat) (w : Bool) :
    (s.release r o w).seqs = s.seqs ∧ (s.release r o w).planes = s.planes ∧ (s.release r o w).mem = s.mem := by
  rw [State.release_eq]
  split
  · obtain ⟨h1, h2, h3⟩ := (s.freeSide r o w (o + 1) w).freeSide_same r o w o true
    obtain ⟨g1, g2, g3⟩ := s.freeSide_same r o w (o + 1) w
    exact ⟨h1.trans g1, h2.trans g2, h3.trans g3⟩
  · exact s.freeSide_same r o w o true

end

/-! ### lpat, spat and cbld (O15) -/

section
variable {s : State} {q k : Nat} {a : SReg} {g : GReg} {i : BitVec 14} {p : Phys}

/-- The 32-byte event of R217 with the destination of its value. -/
def State.wideEvent (s : State) (q : Nat) (va : Word) (p : Phys) (kind : EvKind) (dest : Dest) : Ev :=
  { s.seqEvent q va 32 p kind with dest }

variable (hi : Issues s q [a]) (hq : q < 128) (hk : s.planeOf q = some k)
include hi hq hk

theorem exec_lpat (hl : s.loadsHeld q < 8) (ho : bitAt (s.seq q).outG g.toNat = false)
    (hp : s.reach q (reqLoad q) ((s.seq q).read a + i.signExtend 64) 32 .read = .to p) :
    exec (.lpat g a i) s = .next (((s.setSeq q { s.seq q with outG := setBit (s.seq q).outG g.toNat true }).place q
      (s.wideEvent q ((s.seq q).read a + i.signExtend 64) p .read (.greg k g))).advance q 4) := by
  refine (hi.runs false _).trans ?_
  simp only [hi.ready (List.mem_singleton_self a), Seq.regBusy, ho, Nat.not_le.2 hl, withPlane_of_planeOf hq hk, sext14,
    State.wideReach, hp, decide_false, Bool.or_self, Bool.not_true, Bool.false_eq_true, if_false, if_true]
  rfl

theorem exec_cbld (hl : s.loadsHeld q < 8) (ho : bitAt (s.seq q).outC g.toNat = false)
    (hp : s.reach q (reqLoad q) ((s.seq q).read a + i.signExtend 64) 32 .read = .to p) :
    exec (.cbld g a i) s = .next (((s.setSeq q { s.seq q with outC := setBit (s.seq q).outC g.toNat true }).place q
      (s.wideEvent q ((s.seq q).read a + i.signExtend 64) p .read (.creg k g))).advance q 4) := by
  refine (hi.runs false _).trans ?_
  simp only [hi.ready (List.mem_singleton_self a), Seq.regBusy, ho, Nat.not_le.2 hl, withPlane_of_planeOf hq hk, sext14,
    State.wideReach, hp, decide_false, Bool.or_self, Bool.not_true, Bool.false_eq_true, if_false]
  rfl

theorem exec_spat (hl : s.storesHeld q < 16) (ho : bitAt (s.seq q).outG g.toNat = false)
    (hp : s.reach q (reqLoad q) ((s.seq q).read a + i.signExtend 64) 32 .write = .to p)
    (hh : s.seqHit q ((s.seq q).read a + i.signExtend 64) 32 = none) :
    exec (.spat g a i) s = .next ((s.place q ((s.seqEvent q ((s.seq q).read a + i.signExtend 64) 32 p .write).withBytes
      (leBytes 32 (vget (s.plane k).g g.toNat 0).toNat))).advance q 4) := by
  refine (hi.runs false _).trans ?_
  simp only [hi.ready (List.mem_singleton_self a), Seq.regBusy, ho, Nat.not_le.2 hl, withPlane_of_planeOf hq hk, sext14,
    State.wideReach, hp, hh, State.afterStore, decide_false, Bool.or_self, Bool.not_true, Bool.false_eq_true, if_false, if_true]

end

/-! ### sbind (O15) -/

section
variable {s : State} {q k : Nat} {p : QReg} {g : GReg} {w : Bool}

/-- The sides after a binding (R218): the port's own, and the second one that the pattern takes. -/
def State.bound (s : State) (q k d : Nat) (w : Bool) (pat : BitVec 256) : State :=
  let s := s.release q d w
  let s := s.setSide q d w { s.side q d w with bind := some pat, plane := k % 4 }
  ((Pat.of pat).second d).elim s fun x => s.setSide q x.1 x.2 { s.side q x.1 x.2 with heldBy := some d, plane := k % 4 }

theorem bound_same (d : Nat) (pat : BitVec 256) : (s.bound q k d w pat).seqs = s.seqs ∧
    (s.bound q k d w pat).planes = s.planes ∧ (s.bound q k d w pat).mem = s.mem := by
  have h := s.release_same q d w
  unfold State.bound
  cases (Pat.of pat).second d <;> exact h

/-- The port that a pattern's second side takes, within the region's eight. -/
theorem second_lt {f : Pat} {d p2 : Nat} {w2 : Bool} (hd : d < 8) (h : f.second d = some (p2, w2))
    (hf : f.isGather = true ∨ f.second d = none ∨ d % 2 = 0) : p2 < 8 := by
  obtain hg | hn | he := hf
  · simp only [Pat.second, hg, if_true, Option.some.injEq, Prod.mk.injEq] at h
    omega
  · rw [hn] at h
    exact absurd h (by simp)
  · unfold Pat.second at h
    split_ifs at h <;> simp only [Option.some.injEq, Prod.mk.injEq] at h <;> omega

theorem bound_sides {d : Nat} {pat : BitVec 256} (hd : d < 8)
    (hf : (Pat.of pat).isGather = true ∨ (Pat.of pat).second d = none ∨ d % 2 = 0) :
    ((s.bound q k d w pat).side q d w).bind = some pat ∧ ((s.bound q k d w pat).side q d w).plane = k % 4 ∧
      ∀ p2 w2, (Pat.of pat).second d = some (p2, w2) → ((s.bound q k d w pat).side q p2 w2).heldBy = some d := by
  unfold State.bound
  cases h : (Pat.of pat).second d with
  | none => simp [State.side_setSide_self hd]
  | some x =>
    obtain ⟨p2, w2⟩ := x
    have h2 : p2 < 8 := second_lt hd h hf
    simp only [Option.elim_some]
    refine ⟨?_, ?_, fun p3 w3 e => ?_⟩
    · by_cases e : d = p2 ∧ w = w2
      · obtain ⟨rfl, rfl⟩ := e
        rw [State.side_setSide_self hd, State.side_setSide_self hd]
      · rw [State.side_setSide_ne (by tauto) h2, State.side_setSide_self hd]
    · by_cases e : d = p2 ∧ w = w2
      · obtain ⟨rfl, rfl⟩ := e
        rw [State.side_setSide_self hd]
      · rw [State.side_setSide_ne (by tauto) h2, State.side_setSide_self hd]
    · cases e
      rw [State.side_setSide_self h2]

variable (hi : Issues s q []) (hq : q < 128) (hk : s.planeOf q = some k) (ho : bitAt (s.seq q).outG g.toNat = false)
include hi hq hk ho

theorem exec_sbind_bad (h : (Pat.of (vget (s.plane k).g g.toNat 0)).ok (if w then .wr else .rd) = false) :
    exec (.sbind p g w) s = .next (s.raise q .patbad 0) := by
  refine (hi.runs false _).trans ?_
  simp only [Seq.regBusy, ho, withPlane_of_planeOf hq hk, h, Bool.not_false, Bool.false_eq_true, if_false, if_true]

theorem exec_sbind (h : (Pat.of (vget (s.plane k).g g.toNat 0)).ok (if w then .wr else .rd) = true)
    (hf : (Pat.of (vget (s.plane k).g g.toNat 0)).isGather = true ∨
      (Pat.of (vget (s.plane k).g g.toNat 0)).second p.toNat = none ∨ p.toNat % 2 = 0)
    (hb : (s.side q p.toNat w).heldBy = none) (hj : (s.side q p.toNat w).job = none)
    (h2 : ∀ p2 w2, (Pat.of (vget (s.plane k).g g.toNat 0)).second p.toNat = some (p2, w2) →
      (s.side q p2 w2).bind = none ∧ (s.side q p2 w2).heldBy = none ∧ (s.side q p2 w2).job = none) :
    exec (.sbind p g w) s = .next ((s.bound q k p.toNat w (vget (s.plane k).g g.toNat 0)).advance q 4) := by
  refine (hi.runs false _).trans ?_
  simp only [Seq.regBusy, ho, withPlane_of_planeOf hq hk, h, Bool.not_true, Bool.false_eq_true, if_false, if_true, hb, hj,
    Option.isSome_none, Bool.false_or]
  cases hs : (Pat.of (vget (s.plane k).g g.toNat 0)).second p.toNat with
  | none =>
    simp only [State.bound, hs, Side.empty, Option.isSome_none, Option.elim_none, Bool.and_false, Bool.false_and,
      Bool.or_self, Bool.false_eq_true, if_false]
  | some x =>
    obtain ⟨p2, w2⟩ := x
    obtain ⟨hb2, hh2, hj2⟩ := h2 p2 w2 hs
    have he : (!(Pat.of (vget (s.plane k).g g.toNat 0)).isGather && decide (p.toNat % 2 = 1)) = false := by
      obtain hg | hn | he := hf
      · rw [hg]
        rfl
      · rw [hn] at hs
        exact absurd hs (by simp)
      · rw [he]
        exact Bool.and_false _
    simp only [State.bound, hs, hb2, hh2, hj2, he, Option.isSome_none, Option.isSome_some, Option.elim_some, Bool.and_true,
      Bool.false_and, Bool.or_self, Bool.false_eq_true, if_false]

end

/-- Settles O15. -/
theorem patternsAndBindings : Obligations.PatternsAndBindings := by
  unfold Obligations.PatternsAndBindings
  refine ⟨fun s q k g a i p hi hq hk => ?_, fun s q k p g wr hi hq hk ho => ?_⟩
  · intro va goes
    refine ⟨fun hp hl => ⟨fun ho => ?_, fun ho => ?_⟩, fun hp hl hh ho => ?_⟩
    · obtain ⟨h1, h2, h3, -⟩ := placed_advance (s := s)
        (u := s.setSeq q { s.seq q with outG := setBit (s.seq q).outG g.toNat true }) (n := 4)
        (e := s.wideEvent q va p .read (.greg k g)) hi.1 rfl rfl rfl (fun j hj => State.seq_setSeq_ne _ _ _ _ hj)
        (by simp) (by simp) (by simp)
      exact ⟨_, _, exec_lpat hi hq hk hl ho hp, h1, rfl, rfl, rfl, keys_seqEvent (s := s) (q := q) (va := 0) (k := .read),
        h2, h3, (State.place_same _ _ _).2.2, by simp⟩
    · obtain ⟨h1, h2, h3, -⟩ := placed_advance (s := s)
        (u := s.setSeq q { s.seq q with outC := setBit (s.seq q).outC g.toNat true }) (n := 4)
        (e := s.wideEvent q va p .read (.creg k g)) hi.1 rfl rfl rfl (fun j hj => State.seq_setSeq_ne _ _ _ _ hj)
        (by simp) (by simp) (by simp)
      exact ⟨_, _, exec_cbld hi hq hk hl ho hp, h1, rfl, rfl, rfl, keys_seqEvent (s := s) (q := q) (va := 0) (k := .read),
        h2, h3, (State.place_same _ _ _).2.2, by simp⟩
    · obtain ⟨h1, h2, h3, -⟩ := placed_advance (s := s) (u := s) (n := 4)
        (e := (s.seqEvent q va 32 p .write).withBytes (leBytes 32 (vget (s.plane k).g g.toNat 0).toNat)) hi.1
        rfl rfl rfl (fun _ _ => rfl) rfl rfl rfl
      obtain ⟨hkeys, hv, -⟩ := pieces_withBytes (s := s) (q := q) (va := va) (p := p) (k := .write)
        (length_leBytes 32 (vget (s.plane k).g g.toNat 0).toNat)
      exact ⟨_, _, exec_spat hi hq hk hl ho hp hh, h1, rfl, rfl, rfl, hkeys, h2, h3, (State.place_same _ _ _).2.2, fun _ => hv⟩
  · refine ⟨fun h hf hb hj h2 => ?_, fun h hinh => ⟨_, exec_sbind_bad hi hq hk ho h, s.raise_trapped q .patbad 0 hinh⟩⟩
    obtain ⟨hseq, hpl, hm⟩ := bound_same (s := s) (q := q) (k := k) (w := wr) p.toNat (vget (s.plane k).g g.toNat 0)
    obtain ⟨hbind, hplane, hheld⟩ := bound_sides (s := s) (q := q) (k := k) (w := wr) p.isLt hf
    have hs : (s.bound q k p.toNat wr (vget (s.plane k).g g.toNat 0)).seq q = s.seq q := by
      simp only [State.seq, hseq]
    exact ⟨_, exec_sbind hi hq hk ho h hf hb hj h2, hbind, hplane, hheld,
      ⟨by rw [State.seq_advance_self, hs], by rw [State.seq_advance_self, hs]⟩, by rw [State.seq_advance_self, hs]; rfl, hm, hpl⟩

end Sys2Proof.Machine
end

