-- ==== Sys2Proof/Proofs/Streams.lean ====
section
/-!
PROOFS. O16, O17: engine jobs enter the scoreboard, start and complete; the two sides of a port move their tokens.
-/

namespace Sys2Proof.Machine

/-! ### Tokens of jobs (R331) -/

theorem State.side_setSide_other {s : State} {r p r' p' : Nat} {w w' : Bool} {v : Side} (h : r' ≠ r ∨ p' ≠ p ∨ w' ≠ w)
    (hp : p' < 8) : (s.setSide r p w v).side r' p' w' = s.side r' p' w' := by
  by_cases hpp : p = p'
  · exact State.side_setSide_ne h (hpp ▸ hp)
  · unfold State.setSide State.side
    by_cases hr : r' = r
    · subst hr
      rw [State.region_setRegion_self]
      simp only [vget_vput_ne _ _ _ _ _ (Ne.symm hpp)]
    · simp only [State.region_setRegion_ne _ _ _ _ hr]

section
variable (v : Seq) (b : Bool) (d : SReg) (x : Word) (on : Bool)

/-- Register d of a bank with its value, armed or disarmed. -/
def Seq.setToken : Seq := (v.writeBank b d x).setArmed b d on

theorem Seq.setToken_rest : (v.setToken b d x on).ip = v.ip ∧ (v.setToken b d x on).priv = v.priv := by
  unfold Seq.setToken Seq.writeBank Seq.setArmed
  split_ifs <;> exact ⟨rfl, rfl⟩

variable {d}

/-- The token register holds the value and is armed as asked. -/
theorem Seq.setToken_self (hd : d ≠ 0) :
    vget (if b then (v.setToken b d x on).bank else (v.setToken b d x on).user) d.toNat 0 = x ∧
      bitAt (if b then (v.setToken b d x on).armedP else (v.setToken b d x on).armedU) d.toNat = on := by
  have hlt : d.toNat < 32 := d.isLt
  unfold Seq.setToken Seq.writeBank Seq.setArmed
  rw [if_neg hd, if_neg hd]
  cases b <;> exact ⟨vget_vput_self _ _ _ _ hlt, by simp [bitAt_setBit _ _ _ hlt]⟩

theorem Seq.setToken_read {r : SReg} (hr : r ≠ d) : (v.setToken b d x on).read r = v.read r := by
  have hn : r.toNat ≠ d.toNat := fun e => hr (BitVec.eq_of_toNat_eq e)
  unfold Seq.setToken Seq.writeBank Seq.setArmed Seq.read Seq.regs
  by_cases hd : d = 0
  · rw [if_pos hd, if_pos hd]
  · rw [if_neg hd, if_neg hd]
    cases b <;> cases hp : v.priv <;> simp [hp, vget_vput_ne _ _ _ _ _ hn]

/-- An armed register reads 0 as a token (R331). -/
theorem Seq.setToken_armed (hd : d ≠ 0) :
    (v.setToken v.priv d x true).armed d = true ∧ (v.setToken v.priv d x true).token d = 0 := by
  have ha : (v.setToken v.priv d x true).armed d = true := by
    have h := (v.setToken_self v.priv x true hd).2
    rw [Seq.armed, (v.setToken_rest v.priv d x true).2, h]
    simpa using hd
  exact ⟨ha, by rw [Seq.token, if_pos ha]⟩

end

/-! ### Entering a job (R212, R219, R220) -/

section
variable {s : State} {q k e : Nat} {d c : SReg} {j : Job} {ip : Word}

/-- A job with what the scoreboard gives it (R212, R213). -/
def enteredJob (s : State) (r e : Nat) (j : Job) (ip : Word) : Job :=
  { j with
    serial := (s.region r).serial + 1, card := bits ip 2 12 ++ BitVec.ofNat 4 e
    deps := ((s.region r).jobs.filter fun x => rangesClash x.2.ranges j.ranges).map fun x => x.2.serial }

/-- The sequencer that has issued a job, its token register armed. -/
def Seq.issued (v : Seq) (serial : Nat) (token : Option (Bool × SReg)) : Seq :=
  token.elim { v with jobs := v.jobs ++ [{ serial, result := none }] } fun x =>
    ({ v with jobs := v.jobs ++ [{ serial, result := none }] } : Seq).setToken x.1 x.2 0 true

theorem State.enterJob_eq (s : State) (r e : Nat) (j : Job) (ip : Word) :
    s.enterJob r e j ip =
      (s.setRegion r { s.region r with
        jobs := Tab.put (s.region r).jobs e (enteredJob s r e j ip), serial := (s.region r).serial + 1 }).setSeq j.seq
        ((s.seq j.seq).issued ((s.region r).serial + 1) j.token) := by
  cases j with
  | mk _ _ _ _ _ _ _ token =>
    cases token with
    | none => rfl
    | some x => rfl

/-- The registers of the sequencer that issues a job with token register d. -/
theorem Seq.issued_spec (v : Seq) (serial : Nat) (d : SReg) :
    (d ≠ 0 → (v.issued serial (tokenReg v d)).armed d = true ∧ (v.issued serial (tokenReg v d)).token d = 0) ∧
      (∀ r, r ≠ d → (v.issued serial (tokenReg v d)).read r = v.read r) ∧
      (v.issued serial (tokenReg v d)).ip = v.ip := by
  unfold Seq.issued tokenReg
  by_cases hd : d = 0
  · rw [if_pos hd]
    exact ⟨fun h => absurd hd h, fun _ _ => rfl, rfl⟩
  · rw [if_neg hd]
    exact ⟨fun h => Seq.setToken_armed _ _ h, fun r hr => Seq.setToken_read _ _ _ _ hr, (Seq.setToken_rest _ _ _ _ _).1⟩

theorem exec_acpy {ga gb : GReg} {sc : Scope} (hi : Issues s q [d, c]) (hq : q < 128) (hk : s.planeOf q = some k)
    (he : (s.region q).freeEntry = some e) (ha : bitAt (s.seq q).outG ga.toNat = false)
    (hb : bitAt (s.seq q).outG gb.toNat = false)
    (hok : acpyOk (Pat.of (vget (s.plane k).g gb.toNat 0)) (Pat.of (vget (s.plane k).g ga.toNat 0)) = true) :
    ∃ j : Job, exec (.acpy d ga gb c sc) s = .next ((s.enterJob q e j (s.seq q).ip).advance q 8) ∧
      j = Job.fresh (.acpy (vget (s.plane k).g ga.toNat 0) (vget (s.plane k).g gb.toNat 0)
          (if c = 0 then none else some ((s.seq q).read c).toNat))
        ((Pat.of (vget (s.plane k).g gb.toNat 0)).card false ++ (Pat.of (vget (s.plane k).g ga.toNat 0)).card true) q
        (tokenReg (s.seq q) d) sc (s.ctxNo q) (k % 4) (s.envOf (s.ctxNo q)) := by
  refine ⟨_, ?_, rfl⟩
  refine (hi.runs false _).trans ?_
  simp only [hi.2.2.1, Seq.regBusy, ha, hb, withPlane_of_planeOf hq hk, hok, he, Bool.or_self, Bool.not_true, Bool.false_eq_true,
    if_false, if_true]

theorem exec_sgo {p : QReg} {w : Bool} {sc : Scope} {pat : BitVec 256} (hi : Issues s q [d, c]) (hq : q < 128)
    (hk : s.planeOf q = some k) (he : (s.region q).freeEntry = some e) (hb : (s.side q p.toNat w).bind = some pat) :
    ∃ j : Job, exec (.sgo d p w sc) s = .next (((s.enterJob q e j (s.seq q).ip).beginSides q p.toNat w pat
        (s.region q).serial.succ).advance q 4) ∧
      j = Job.fresh (.sgo p.toNat w pat) ((Pat.of pat).card w) q (tokenReg (s.seq q) d) sc (s.ctxNo q) (k % 4)
        (s.envOf (s.ctxNo q)) := by
  have hd : (s.seq q).ready d = true := hi.ready (by simp)
  refine ⟨_, ?_, rfl⟩
  refine (hi.runs false _).trans ?_
  simp only [hd, withPlane_of_planeOf hq hk, hb, he, Bool.not_true, Bool.false_eq_true, if_false, State.enterJob_eq]
  simp

/-- Other regions' records, planes and memory stay when a job is entered; its own is at its entry. -/
theorem enterJob_spec (s : State) (r e : Nat) (j : Job) (ip : Word) :
    Tab.find? ((s.enterJob r e j ip).region r).jobs e = some (enteredJob s r e j ip) ∧
      (s.enterJob r e j ip).seq j.seq = (s.seq j.seq).issued ((s.region r).serial + 1) j.token ∧
      (s.enterJob r e j ip).mem = s.mem ∧ (s.enterJob r e j ip).planes = s.planes := by
  rw [State.enterJob_eq]
  exact ⟨by simp, by simp, rfl, rfl⟩

/-- The sides begin with their job: nothing of the scoreboard changes with them. -/
theorem beginSides_spec (s : State) {r p : Nat} (hp : p < 8) (w : Bool) (pat : BitVec 256) (serial : Nat) :
    let t := s.beginSides r p w pat serial
    t.seqs = s.seqs ∧ t.mem = s.mem ∧ t.planes = s.planes ∧ (t.region r).jobs = (s.region r).jobs ∧
      (t.side r p w).job = some serial ∧ (t.side r p w).bind = none := by
  unfold State.beginSides
  cases h : (Pat.of pat).second p with
  | none =>
    refine ⟨rfl, rfl, rfl, ?_, ?_, ?_⟩
    · simp [State.setSide]
    · simp only [State.side_setSide_self hp]; rfl
    · simp only [State.side_setSide_self hp]; rfl
  | some x =>
    obtain ⟨p2, w2⟩ := x
    refine ⟨rfl, rfl, rfl, ?_, ?_⟩
    · simp [State.setSide]
    · by_cases e : p = p2 ∧ w = w2
      · obtain ⟨rfl, rfl⟩ := e
        simp only [State.side_setSide_self hp]
        exact ⟨rfl, rfl⟩
      · simp only [State.side_setSide_other (show r ≠ r ∨ p ≠ p2 ∨ w ≠ w2 by tauto) hp, State.side_setSide_self hp]
        exact ⟨rfl, rfl⟩

end

/-! ### Start and completion of a job (R213, R219, R241) -/

section
variable {s : State} {r e : Nat} {j : Job}

theorem exec_engineJobStart (hj : Tab.find? (s.region r).jobs e = some j) (hs : j.started = false)
    (hd : ∀ x ∈ (s.region r).jobs, x.2.serial ∉ j.deps) :
    exec (.engineJobStart r e) s = .next ((s.setJob r e { j with started := true }).copyOn r e) := by
  have hany : ((s.region r).jobs.any fun x => j.deps.contains x.2.serial) = false := by
    rw [List.any_eq_false]
    intro x hx
    rw [List.contains_iff_mem]
    exact hd x hx
  show execEngineJobStart r e s = _
  simp only [execEngineJobStart, hj, hs, hany, Bool.or_self, Bool.false_eq_true, if_false]

theorem exec_engineJobStart_waits (hj : Tab.find? (s.region r).jobs e = some j)
    (hd : ∃ x ∈ (s.region r).jobs, x.2.serial ∈ j.deps) : exec (.engineJobStart r e) s = .next s := by
  have hany : ((s.region r).jobs.any fun x => j.deps.contains x.2.serial) = true := by
    obtain ⟨x, hx, hm⟩ := hd
    exact List.any_eq_true.2 ⟨x, hx, List.contains_iff_mem.2 hm⟩
  show execEngineJobStart r e s = _
  simp only [execEngineJobStart, hj, hany, Bool.or_true, if_true]
  rfl

/-- A stream job's data move at its sides: nothing is copied at its start. -/
theorem copyOn_stream {p : Nat} {w : Bool} {pat : BitVec 256} (hj : j.kind = .sgo p w pat) :
    (s.setJob r e j).copyOn r e = s.setJob r e j := by
  have hf : Tab.find? ((s.setJob r e j).region r).jobs e = some j := by simp [State.setJob]
  simp only [State.copyOn, hf, copyFuel, hj]
  rfl

/-- From s to t no more than the regions' records changes. -/
def SameButRegions (s t : State) : Prop := t = { s with regions := t.regions }

theorem SameButRegions.refl (s : State) : SameButRegions s s := rfl

theorem SameButRegions.trans {s t u : State} (h : SameButRegions s t) (g : SameButRegions t u) : SameButRegions s u := by
  unfold SameButRegions at *
  rw [g, h]

theorem SameButRegions.setRegion (s : State) (r : Nat) (g : Region) : SameButRegions s (s.setRegion r g) := rfl

/-- A chain of changes each of which changes regions alone does so too. -/
theorem SameButRegions.foldl {α : Type} {f : State → α → State} (hf : ∀ s a, SameButRegions s (f s a)) (l : List α)
    (s : State) : SameButRegions s (l.foldl f s) := by
  induction l generalizing s with
  | nil => rfl
  | cons a l ih => exact (hf s a).trans (ih _)

theorem SameButRegions.release (s : State) (r o : Nat) (w : Bool) : SameButRegions s (s.release r o w) := by
  have hfree (s : State) (p : Nat) (wr : Bool) : SameButRegions s (s.freeSide r o w p wr) := by
    unfold State.freeSide
    split
    · exact .setRegion _ _ _
    · exact .refl _
  rw [State.release_eq]
  refine .trans ?_ (hfree _ _ _)
  split
  · exact hfree _ _ _
  · exact .refl _

theorem SameButRegions.weightsLoaded (s : State) (r : Nat) (j : Job) : SameButRegions s (s.weightsLoaded r j) := by
  unfold State.weightsLoaded
  split
  · split
    · exact .refl _
    · exact .foldl (fun s a => .setRegion _ _ _) _ _
  · exact .refl _

@[simp] theorem State.jobs_setSide (s : State) (r p : Nat) (w : Bool) (v : Side) (i : Nat) :
    ((s.setSide r p w v).region i).jobs = (s.region i).jobs := by
  unfold State.setSide
  by_cases h : i = r
  · subst h
    simp
  · rw [State.region_setRegion_ne _ _ _ _ h]

@[simp] theorem State.jobs_release (s : State) (r o : Nat) (w : Bool) (i : Nat) :
    ((s.release r o w).region i).jobs = (s.region i).jobs := by
  have hfree (s : State) (p : Nat) (wr : Bool) : ((s.freeSide r o w p wr).region i).jobs = (s.region i).jobs := by
    unfold State.freeSide
    split
    · exact State.jobs_setSide _ _ _ _ _ _
    · rfl
  rw [State.release_eq, hfree]
  split
  · exact hfree _ _ _
  · rfl

/-- The sides of a job without a next pattern are free: the scoreboard stays as it is. -/
theorem endSides_spec (s : State) (r : Nat) (hb : ∀ a, j.kind ≠ .bchn a)
    (hn : ∀ p w pat, j.kind = .sgo p w pat → (s.side r p w).next = none) :
    SameButRegions s (s.endSides r j) ∧ ((s.endSides r j).region r).jobs = (s.region r).jobs := by
  unfold State.endSides
  cases hk : j.kind with
  | sgo p w pat =>
    simp only [hn p w pat hk]
    exact ⟨.trans (.setRegion _ _ _) (.release _ _ _ _), by rw [State.jobs_release, State.jobs_setSide]⟩
  | bchn a => exact absurd hk (hb a)
  | acpy _ _ _ => exact ⟨.refl _, rfl⟩
  | bwld _ _ _ _ _ _ _ => exact ⟨.refl _, rfl⟩

/-- The sequencer of a job that has ended: `bar.jobs` sees the result, and the token register holds it (R331). -/
def Seq.ended (v : Seq) (j : Job) : Seq :=
  let u := { v with jobs := v.jobs.map fun x => if x.serial = j.serial then { x with result := some j.result } else x }
  j.token.elim u fun x => u.setToken x.1 x.2 j.result false

theorem writeToken_eq (s : State) (j : Job) : s.writeToken j = s.setSeq j.seq ((s.seq j.seq).ended j) := by
  unfold State.writeToken Seq.ended
  cases j.token <;> rfl

theorem Seq.ended_spec (v : Seq) (j : Job) :
    (v.ended j).ip = v.ip ∧ ∀ b d, j.token = some (b, d) → d ≠ 0 →
      vget (if b then (v.ended j).bank else (v.ended j).user) d.toNat 0 = j.result ∧
      bitAt (if b then (v.ended j).armedP else (v.ended j).armedU) d.toNat = false := by
  unfold Seq.ended
  cases h : j.token with
  | none => exact ⟨rfl, fun b d h => absurd h (by simp)⟩
  | some x =>
    refine ⟨(Seq.setToken_rest _ _ _ _ _).1, fun b d hx hd => ?_⟩
    obtain rfl : x = (b, d) := Option.some.inj hx
    exact Seq.setToken_self _ _ _ _ hd

/-- An agent that has nothing under way leaves every agent's bytes as they are when it ends, a job's writes among them. -/
theorem retire_quiet_bytes (s : State) (hr : r < 128) (he : e < 16) (hb : (s.agent (jobAgent r e)).buf = [])
    (hm : (s.agent (jobAgent r e)).rmws = []) : BytesStay s (s.retire (jobAgent r e)) := by
  have hend : (Agent.job r e).ends := ⟨hr, he⟩
  have hlevel (n : Nat) (ag : Agent) : joinLevel ((Agent.job r e).after n) ag = joinLevel (.job r e) ag := by
    by_cases h1 : (Agent.job r e).after n = ag
    · subst h1
      simp [joinLevel, Agent.after, narrowest, agentBoard, agentRegion]
    · by_cases h2 : Agent.job r e = ag
      · subst h2
        simp [joinLevel, Agent.after, narrowest, agentBoard, agentRegion]
      · simp only [joinLevel, if_neg h1, if_neg h2]
        rfl
  have hvis (ag : Agent) (w : MWrite) : visibleTo ag (w.moved (.job r e) s.nextId) = visibleTo ag w := by
    unfold MWrite.moved
    split
    · rename_i h
      rw [visibleTo, visibleTo, h, Agent.ofKey_key hend.named, Agent.ofKey_after hend, hlevel]
    · rfl
  have hbuf (k : Nat) : ((s.retire (jobAgent r e)).agent k).buf = (s.agent k).buf := by
    have ha : (s.retire (Agent.job r e).key).agents = Tab.drop s.agents (Agent.job r e).key := by
      rw [State.retire_eq hend]
      have hb' : (s.agent (Agent.job r e).key).buf = [] := hb
      have hm' : (s.agent (Agent.job r e).key).rmws = [] := hm
      simp only [hb', hm', List.isEmpty_nil, Bool.and_self, if_true]
    have hag : (s.retire (jobAgent r e)).agent k = Tab.getD (Tab.drop s.agents (jobAgent r e)) k AgentSt.empty :=
      congrArg (fun t => Tab.getD t k AgentSt.empty) ha
    by_cases h : k = jobAgent r e
    · subst h
      rw [hag, hb, Tab.getD_eq, Tab.find?_drop, if_pos rfl]
      rfl
    · rw [hag, Tab.getD_drop_ne _ _ h]
      rfl
  intro ag key
  have hmem : (s.retire (jobAgent r e)).mem = { s.mem with recent := s.mem.recent.map (MWrite.moved (.job r e) s.nextId) } := by
    rw [show jobAgent r e = (Agent.job r e).key from rfl, State.retire_eq hend]
  rw [State.readByte, State.readByte, hbuf, hmem]
  simp only [Memory.coVisible, List.foldl_map, MWrite.at_moved, hvis]

theorem jobReleased_quiet {sc : Scope} (h : s.jobReleased r e sc = true) :
    (s.agent (jobAgent r e)).buf = [] ∧ (s.agent (jobAgent r e)).rmws = [] := by
  simp only [State.jobReleased, Bool.and_eq_true, List.isEmpty_iff] at h
  obtain ⟨⟨⟨⟨-, hb⟩, hm⟩, -⟩, -⟩ := h
  exact ⟨hb, hm⟩

theorem SameButRegions.fields {s t : State} (h : SameButRegions s t) :
    t.mem = s.mem ∧ t.agents = s.agents ∧ t.seqs = s.seqs ∧ t.planes = s.planes := by
  rw [h]
  exact ⟨rfl, rfl, rfl, rfl⟩

@[simp] theorem State.region_raiseFlags (s : State) (n : Nat) (f : FFlags) (i : Nat) :
    (s.raiseFlags n f).region i = s.region i := by
  unfold State.raiseFlags
  split <;> rfl

/-- A job that has ended, before its agent and its sides go: flags, weights and token are as they must be. -/
def State.reported (s : State) (r e : Nat) (j : Job) : State :=
  let s := ((s.raiseFlags j.ctx j.flags).weightsLoaded r j).writeToken j
  s.setRegion r { s.region r with jobs := Tab.drop (s.region r).jobs e }

theorem reported_spec (s : State) (r e : Nat) (j : Job) :
    (s.reported r e j).mem = s.mem ∧ (s.reported r e j).agents = s.agents ∧
      (s.reported r e j).seq j.seq = (s.seq j.seq).ended j ∧ Tab.find? ((s.reported r e j).region r).jobs e = none := by
  obtain ⟨hm, ha, hs, -⟩ := (SameButRegions.weightsLoaded (s.raiseFlags j.ctx j.flags) r j).fields
  have hseq : ((s.raiseFlags j.ctx j.flags).weightsLoaded r j).seq j.seq = s.seq j.seq := by
    rw [← State.seq_raiseFlags s j.ctx j.flags j.seq]
    simp only [State.seq, hs]
  unfold State.reported
  rw [writeToken_eq]
  refine ⟨?_, ?_, ?_, ?_⟩
  · exact hm.trans (State.mem_raiseFlags _ _ _)
  · exact ha.trans (State.agents_raiseFlags _ _ _)
  · simp [hseq]
  · simp [Tab.find?_drop]

/-- A stream job's end leaves its sides as they were until they are freed. -/
theorem reported_side {p' p : Nat} {w' w : Bool} {pat : BitVec 256} (hk : j.kind = .sgo p w pat) :
    (s.reported r e j).side r p' w' = s.side r p' w' := by
  have hw : (s.raiseFlags j.ctx j.flags).weightsLoaded r j = s.raiseFlags j.ctx j.flags := by
    simp only [State.weightsLoaded, hk]
  unfold State.reported
  rw [hw, writeToken_eq]
  simp [State.side]

theorem endJob_eq (s : State) (r e : Nat) (j : Job) :
    s.endJob r e j = ((s.reported r e j).retire (jobAgent r e)).endSides r j := rfl

theorem endJob_spec (hr : r < 128) (he : e < 16) (hrel : s.jobReleased r e j.scope = true) (hb : ∀ a, j.kind ≠ .bchn a)
    (hn : ∀ p w pat, j.kind = .sgo p w pat → (s.side r p w).next = none) :
    Tab.find? ((s.endJob r e j).region r).jobs e = none ∧ (s.endJob r e j).seq j.seq = (s.seq j.seq).ended j ∧
      BytesStay s (s.endJob r e j) ∧ OrderStays s (s.endJob r e j) := by
  obtain ⟨hm, ha, hseq, hjob⟩ := reported_spec s r e j
  obtain ⟨hbuf, hrmw⟩ := jobReleased_quiet hrel
  have hag : (s.reported r e j).agent (jobAgent r e) = s.agent (jobAgent r e) := by simp only [State.agent, ha]
  have hquiet := retire_quiet_bytes (s.reported r e j) hr he (by rw [hag, hbuf]) (by rw [hag, hrmw])
  have hend : Ended (s.reported r e j) ((s.reported r e j).retire (jobAgent r e)) _ :=
    State.retire_ended (a := .job r e) ⟨hr, he⟩ _
  obtain ⟨hsame, hjobs⟩ := endSides_spec ((s.reported r e j).retire (jobAgent r e)) r hb fun p w pat hk => by
    have hside : ((s.reported r e j).retire (jobAgent r e)).side r p w = s.side r p w := reported_side hk
    rw [hside]
    exact hn p w pat hk
  obtain ⟨hm', ha', hs', -⟩ := hsame.fields
  rw [endJob_eq]
  refine ⟨by rw [hjobs]; exact hjob, ?_, ?_, ?_⟩
  · rw [State.seq, hs']
    exact hseq
  · exact (BytesStay.of_eq hm ha).trans (hquiet.trans (.of_eq hm' ha'))
  · obtain ⟨⟨htags, hco⟩, -⟩ := hend
    refine ⟨by rw [hm', htags, hm], fun key => ?_⟩
    rw [hm', hco key, hm]

theorem exec_engineJobComplete (hj : Tab.find? (s.region r).jobs e = some j) (hs : j.started = true)
    (hd : s.sideDone r j = true) (hrel : s.jobReleased r e j.scope = true) (hb : ∀ a, j.kind ≠ .bchn a)
    (hn : ∀ p w pat, j.kind = .sgo p w pat →
      (s.plane (planeKey r j.plane)).atRest = false ∧ (s.side r p w).next = none) :
    exec (.engineJobComplete r e) s = .next (s.endJob r e j) := by
  show execEngineJobComplete r e s = _
  simp only [execEngineJobComplete, hj, hs, hd, hrel, Bool.not_true, Bool.or_self, Bool.false_eq_true, if_false]
  cases hk : j.kind with
  | sgo p w pat =>
    obtain ⟨hrest, hnext⟩ := hn p w pat hk
    simp only [hrest, State.nextFree, hk, hnext, Option.bind_none, Bool.not_true, Bool.or_self, Bool.false_eq_true, if_false]
  | bchn a => exact absurd hk (hb a)
  | acpy _ _ _ => rfl
  | bwld _ _ _ _ _ _ _ => rfl

end

/-- The registers of the sequencer that has issued a job and gone on. -/
theorem issued_advance {s u : State} {q serial n : Nat} {d : SReg}
    (hu : u.seq q = (s.seq q).issued serial (tokenReg (s.seq q) d)) :
    let t := u.advance q n
    (d ≠ 0 → (t.seq q).armed d = true ∧ (t.seq q).token d = 0) ∧ (∀ r, r ≠ d → (t.seq q).read r = (s.seq q).read r) ∧
      (t.seq q).ip = (s.seq q).ip + BitVec.ofNat 64 n := by
  obtain ⟨harm, hread, hip⟩ := (s.seq q).issued_spec serial d
  intro t
  have ht : t.seq q = { (s.seq q).issued serial (tokenReg (s.seq q) d) with ip := (s.seq q).ip + BitVec.ofNat 64 n } := by
    rw [State.seq_advance_self, hu, hip]
  rw [ht]
  exact ⟨harm, hread, rfl⟩

/-- Settles O16. -/
theorem jobsRun : Obligations.JobsRun := by
  unfold Obligations.JobsRun
  refine ⟨?_, fun s r e j hj hs => ⟨fun hd => ⟨exec_engineJobStart hj hs hd, ?_⟩, exec_engineJobStart_waits hj⟩, ?_⟩
  · intro s q k e d c ga gb p wr sc i kind ranges n hi hq hk he pa pb hcase
    obtain ⟨pat, rfl, hb, rfl, rfl, rfl⟩ | ⟨rfl, ha, hb, hok, rfl, rfl, rfl⟩ := hcase
    · obtain ⟨j, hx, hj⟩ := exec_sgo (w := wr) (sc := sc) hi hq hk he hb
      obtain ⟨hfind, hseq, hm, hpl⟩ := enterJob_spec s q e j (s.seq q).ip
      obtain ⟨bseq, bm, bpl, bjobs, bside, bbind⟩ := beginSides_spec (s.enterJob q e j (s.seq q).ip) (r := q) p.isLt wr pat
        (s.region q).serial.succ
      have hjs : j.seq = q := by rw [hj]; rfl
      have hjt : j.token = tokenReg (s.seq q) d := by rw [hj]; rfl
      rw [hjs, hjt] at hseq
      obtain ⟨harm, hread, hip⟩ := issued_advance (s := s) (d := d) (n := 4) (serial := (s.region q).serial + 1)
        (u := (s.enterJob q e j (s.seq q).ip).beginSides q p.toNat wr pat (s.region q).serial.succ)
        ((congrArg (fun t => Tab.getD t q (Seq.reset q)) bseq).trans hseq)
      refine ⟨_, enteredJob s q e j (s.seq q).ip, hx, ?_, ?_, ?_, ?_, hjs, ?_, rfl, ?_, harm, hread, hip, bm.trans hm,
        bpl.trans hpl, fun _ => ⟨bside, bbind⟩⟩
      · exact (congrArg (fun t => Tab.find? t e) bjobs).trans hfind
      all_goals rw [hj]; rfl
    · obtain ⟨j, hx, hj⟩ := exec_acpy (sc := sc) hi hq hk he ha hb hok
      obtain ⟨hfind, hseq, hm, hpl⟩ := enterJob_spec s q e j (s.seq q).ip
      have hjs : j.seq = q := by rw [hj]; rfl
      have hjt : j.token = tokenReg (s.seq q) d := by rw [hj]; rfl
      rw [hjs, hjt] at hseq
      obtain ⟨harm, hread, hip⟩ := issued_advance (s := s) (d := d) (n := 8) hseq
      refine ⟨_, enteredJob s q e j (s.seq q).ip, hx, hfind, ?_, ?_, ?_, hjs, ?_, rfl, ?_, harm, hread, hip, hm, hpl, by simp⟩
      all_goals rw [hj]; rfl
  · rintro ⟨p, w, pat, hk⟩
    rw [exec_engineJobStart hj hs hd]
    exact congrArg _ (copyOn_stream (j := { j with started := true }) hk)
  · intro s r e j hr he hj hs hd hrel hb hn
    obtain ⟨hgone, hseq, hbytes, horder⟩ := endJob_spec hr he hrel hb fun p w pat hk => (hn p w pat hk).2
    obtain ⟨hip, htok⟩ := (s.seq j.seq).ended_spec j
    refine ⟨_, exec_engineJobComplete hj hs hd hrel hb hn, hgone, fun b d ht hd => ?_, rfl, by rw [hseq, hip], hbytes, horder⟩
    rw [hseq]
    exact htok b d ht hd


/-! ### The two sides of a port (O17) -/

section
variable {s : State} {r p e : Nat} {j : Job} {pat : BitVec 256}

/-- A state that differs from s in the counts of limiters alone reads the same at every side and job. -/
def SameButLimits (s t : State) : Prop :=
  t.mem = s.mem ∧ (∀ i p w, t.side i p w = s.side i p w) ∧ (∀ i, (t.region i).jobs = (s.region i).jobs)

/-- A limiter that is off lets every token in (R269). -/
theorem letIn_off (h : (vget (s.region r).limits p Limiter.empty).a = 0) :
    ∃ t, s.letIn r p = some t ∧ SameButLimits s t := by
  refine ⟨s.setRegion r { s.region r with limits := vput (s.region r).limits p (vget (s.region r).limits p Limiter.empty) },
    ?_, rfl, fun i p' w => ?_, fun i => ?_⟩
  · simp [State.letIn, Limiter.letIn, h]
  · by_cases hi : i = r
    · subst hi
      simp [State.side]
    · simp [State.side, State.region_setRegion_ne _ _ _ _ hi]
  · by_cases hi : i = r
    · subst hi
      simp
    · rw [State.region_setRegion_ne _ _ _ _ hi]

theorem deliver_side (hp : p < 8) (t : Token) :
    (s.deliver r p t).side r p false = { s.side r p false with toks := (s.side r p false).toks ++ [t] } :=
  State.side_setSide_self hp

/-- What a delivered token and a changed record leave of a read side. -/
theorem setSide_deliver (hp : p < 8) (v : Side) (t : Token) :
    ((s.setSide r p false v).deliver r p t).side r p false = { v with toks := v.toks ++ [t] } := by
  rw [deliver_side hp, State.side_setSide_self hp]

@[simp] theorem limits_setSide (s : State) (r p : Nat) (w : Bool) (v : Side) (i : Nat) :
    ((s.setSide r p w v).region i).limits = (s.region i).limits := by
  unfold State.setSide
  by_cases h : i = r
  · subst h
    simp
  · rw [State.region_setRegion_ne _ _ _ _ h]

section
variable (hj : s.sideJob r p false = some (e, j, p, false, pat)) (hp : p < 8) (hk : (Pat.of pat).kind = 0)
  (hx : (Pat.of pat).xform = 0) (hl : (vget (s.region r).limits p Limiter.empty).a = 0)
  (hc : (s.side r p false).closed = false) (hf : (s.side r p false).fltDue = none) (hr : (s.side r p false).toks.length < 16)
include hj hp hk hx hl hc hf hr

omit hk in
theorem readSide_eor (he : (s.side r p false).eorDue = true) :
    ∃ t, exec (.readSideEmit r p) s = .next t ∧ (t.side r p false).toks = (s.side r p false).toks ++ [Token.mark Mk.eor] ∧
      (t.side r p false).eorDue = false ∧ t.mem = s.mem := by
  obtain ⟨u, hu, hm, hside, -⟩ := letIn_off hl
  refine ⟨(u.setSide r p false { s.side r p false with eorDue := false }).deliver r p (Token.mark Mk.eor), ?_, ?_, ?_, hm⟩
  · show execReadSideEmit r p s = _
    simp [execReadSideEmit, hj, hx, hu, hc, hf, he, Side.room, hr]
  · rw [setSide_deliver hp]
  · rw [setSide_deliver hp]

theorem readSide_eot (he : (s.side r p false).eorDue = false) (hv : (s.side r p false).vals = [])
    (hrun : (s.side r p false).runEnd = false) (hcnt : (Pat.of pat).count ≤ (s.side r p false).epos) :
    ∃ t, exec (.readSideEmit r p) s = .next t ∧ (t.side r p false).toks = (s.side r p false).toks ++ [Token.mark Mk.eot] ∧
      (t.side r p false).closed = true ∧ t.mem = s.mem := by
  obtain ⟨u, hu, hm, hside, -⟩ := letIn_off hl
  refine ⟨(u.setSide r p false { s.side r p false with eotDue := false, closed := true }).deliver r p (Token.mark Mk.eot),
    ?_, ?_, ?_, hm⟩
  · show execReadSideEmit r p s = _
    simp [execReadSideEmit, hj, hx, hu, hc, hf, he, Side.room, hr, hv, hrun, hcnt, Pat.isGather, hk]
  · rw [setSide_deliver hp]
  · rw [setSide_deliver hp]

end

/-- The first element of a token that has returned is in a run without a fault. -/
theorem runOf_of_returned {f : Pat} {fly : List Flight} {a n : Nat} {xs : List Nat} (hne : xs ≠ [])
    (h : returned f fly a n = xs.map some) : ∃ c, runOf fly a = some c ∧ c.fault = none := by
  cases n with
  | zero =>
    rw [returned] at h
    exact absurd (List.map_eq_nil_iff.1 h.symm) hne
  | succ n =>
    obtain ⟨x, xs, rfl⟩ := List.exists_cons_of_ne_nil hne
    rw [returned] at h
    cases hc : runOf fly a with
    | none => simp [hc] at h
    | some c =>
      cases hf : c.fault with
      | none => exact ⟨c, rfl, hf⟩
      | some y => simp [hc, hf] at h

/-- The read side once its next elements have left. -/
def Side.emitted (v : Side) (f : Pat) (n : Nat) : Side :=
  { v with epos := v.epos + n, fly := runsFrom v.fly (v.epos + n), eorDue := f.rowEnd (v.epos + n - 1) }

theorem plainEmit_elements {f : Pat} {xs : List Nat} (hne : xs ≠ []) (h1 : f.ty ≠ .e4m3) (h2 : f.ty ≠ .e5m2) (h3 : f.ty ≠ .cb4)
    (h : returned f (s.side r p false).fly (s.side r p false).epos (f.tokenLen (s.side r p false).epos) = xs.map some) :
    plainEmit s r e j p f = some ((s.setSide r p false ((s.side r p false).emitted f xs.length)).deliver r p
      (packToken (xs.map (containerOf f.ty)))) := by
  obtain ⟨c, hc, hfault⟩ := runOf_of_returned hne h
  have hcb : f.isCb4 = false := by simpa [Pat.isCb4] using h3
  simp [plainEmit, h, hc, hfault, h1, h2, hcb, Side.emitted, Function.comp_def]

theorem readSide_elements (hj : s.sideJob r p false = some (e, j, p, false, pat)) (hp : p < 8) (hk : (Pat.of pat).kind = 0)
    (hx : (Pat.of pat).xform = 0) (hl : (vget (s.region r).limits p Limiter.empty).a = 0)
    (hc : (s.side r p false).closed = false) (hf : (s.side r p false).fltDue = none)
    (hr : (s.side r p false).toks.length < 16) {xs : List Nat} (he : (s.side r p false).eorDue = false)
    (heot : (s.side r p false).eotDue = false) (hcnt : (s.side r p false).epos < (Pat.of pat).count) (hne : xs ≠ [])
    (h1 : (Pat.of pat).ty ≠ .e4m3) (h2 : (Pat.of pat).ty ≠ .e5m2) (h3 : (Pat.of pat).ty ≠ .cb4)
    (h : returned (Pat.of pat) (s.side r p false).fly (s.side r p false).epos
      ((Pat.of pat).tokenLen (s.side r p false).epos) = xs.map some) :
    ∃ t, exec (.readSideEmit r p) s = .next t ∧
      (t.side r p false).toks = (s.side r p false).toks ++ [packToken (xs.map (containerOf (Pat.of pat).ty))] ∧
      (t.side r p false).epos = (s.side r p false).epos + xs.length ∧ t.mem = s.mem := by
  have hstep := plainEmit_elements (s := s) (r := r) (p := p) (e := e) (j := j) hne h1 h2 h3 h
  have hl' : (vget (((s.setSide r p false ((s.side r p false).emitted (Pat.of pat) xs.length)).deliver r p
      (packToken (xs.map (containerOf (Pat.of pat).ty)))).region r).limits p Limiter.empty).a = 0 := by
    rw [State.deliver, limits_setSide, limits_setSide]
    exact hl
  obtain ⟨u, hu, hm, hside, -⟩ := letIn_off hl'
  have hlen := congrArg (fun v : Side => v.toks.length) (setSide_deliver (s := s) (r := r) hp
    ((s.side r p false).emitted (Pat.of pat) xs.length) (packToken (xs.map (containerOf (Pat.of pat).ty))))
  refine ⟨u, ?_, ?_, ?_, hm⟩
  · show execReadSideEmit r p s = _
    have hne' : ¬ (((s.setSide r p false ((s.side r p false).emitted (Pat.of pat) xs.length)).deliver r p
      (packToken (xs.map (containerOf (Pat.of pat).ty)))).side r p false).toks.length = (s.side r p false).toks.length := by
      rw [hlen]
      simp [Side.emitted]
    simp [execReadSideEmit, hj, hx, hc, hf, he, heot, Side.room, hr, hcnt, Pat.isGather, hk, Pat.converts, hstep, hne', hu,
      Nat.not_le.2 hcnt]
  · rw [hside, setSide_deliver hp]
    rfl
  · rw [hside, setSide_deliver hp]
    rfl

/-- How the job of a write side ends at EOT (R206). -/
def Side.endCode (v : Side) (n : Nat) : Word := if v.long then 2 else if v.pos < n then 3 else 1

theorem closeWrite_eq {out : Word} (hf : Tab.find? (s.region r).jobs e = some j) :
    s.closeWrite r e p out =
      (s.setSide r p true { s.side r p true with closed := true }).setJob r e { j with outcome := some out } := by
  have h : Tab.find? ((s.setSide r p true { s.side r p true with closed := true }).region r).jobs e = some j := by
    rw [State.jobs_setSide]
    exact hf
  simp only [State.closeWrite, h]

theorem side_setJob (s : State) (r e : Nat) (j : Job) (i p : Nat) (w : Bool) :
    (s.setJob r e j).side i p w = s.side i p w := by
  unfold State.setJob
  by_cases h : i = r
  · subst h
    simp [State.side]
  · simp [State.side, State.region_setRegion_ne _ _ _ _ h]

section
variable {tok : Token} {rest : List Token} (hj : s.sideJob r p true = some (e, j, p, true, pat)) (hp : p < 8)
  (hk : (Pat.of pat).kind = 0) (hx : (Pat.of pat).xform = 0) (hl : (vget (s.region r).limits p Limiter.empty).a = 0)
  (hc : (s.side r p true).closed = false) (hd : (s.side r p true).discard = false) (hrun : (s.side r p true).run = [])
  (hv : (s.side r p true).vals = []) (ht : (s.side r p true).toks = tok :: rest)
include hj hp hk hx hl hc hd hrun hv ht

theorem writeSide_data (hm : tok.marker = 0) :
    ∃ t, exec (.writeSideTake r p) s = .next t ∧ (t.side r p true).toks = rest ∧
      (t.side r p true).vals = ((List.range 16).filter tok.has).map (fun i => (i, tok.at i)) ∧ t.mem = s.mem := by
  obtain ⟨u, hu, hmem, hside, -⟩ := letIn_off hl
  refine ⟨(u.popWrite r p).setSide r p true
    { (u.popWrite r p).side r p true with vals := recordsOf tok fun i => i }, ?_, ?_, ?_, hmem⟩
  · show execWriteSideTake r p s = _
    simp [execWriteSideTake, hj, hd, hx, Pat.isScatter, hk, plainTake, hrun, hv, hc, ht, hu, hm, Mk.data]
  · rw [State.side_setSide_self hp, State.popWrite, State.side_setSide_self hp, hside, ht]
    rfl
  · rw [State.side_setSide_self hp]
    rfl

theorem writeSide_eot (hfj : Tab.find? (s.region r).jobs e = some j) (hm : tok.marker = 2) :
    ∃ t, exec (.writeSideTake r p) s = .next t ∧ (t.side r p true).toks = rest ∧ (t.side r p true).closed = true ∧
      (∃ j', Tab.find? (t.region r).jobs e = some j' ∧
        j'.outcome = some (if (s.side r p true).long then 2 else if (s.side r p true).pos < (Pat.of pat).count then 3 else 1)) ∧
      t.mem = s.mem := by
  obtain ⟨u, hu, hmem, hside, hjobs⟩ := letIn_off hl
  have hfu : Tab.find? ((u.popWrite r p).region r).jobs e = some j := by
    rw [State.popWrite, State.jobs_setSide, hjobs]
    exact hfj
  have hpop : (u.popWrite r p).side r p true = { s.side r p true with toks := rest } := by
    rw [State.popWrite, State.side_setSide_self hp, hside, ht]
    rfl
  refine ⟨((u.popWrite r p).setSide r p true { s.side r p true with toks := rest, closed := true }).setJob r e
    { j with outcome := some ((s.side r p true).endCode (Pat.of pat).count) }, ?_, ?_, ?_,
    ⟨{ j with outcome := some ((s.side r p true).endCode (Pat.of pat).count) }, ?_, rfl⟩, ?_⟩
  · show execWriteSideTake r p s = _
    simp [execWriteSideTake, hj, hd, hx, Pat.isScatter, hk, plainTake, hrun, hv, hc, ht, hu, hm, Mk.data, Mk.eot,
      closeWrite_eq hfu, hpop, Side.endCode]
  · rw [side_setJob, State.side_setSide_self hp]
  · rw [side_setJob, State.side_setSide_self hp]
  · simp [State.setJob]
  · exact hmem

end

end

/-- Settles O17. -/
theorem portSidesMove : Obligations.PortSidesMove := by
  unfold Obligations.PortSidesMove
  refine ⟨fun s r p e j pat hj hp hk hx hl => ?_, fun s r p e j pat tok rest hj hp hfj hk hx hl => ?_⟩
  · intro v hc hf hr
    exact ⟨readSide_eor hj hp hx hl hc hf hr, readSide_eot hj hp hk hx hl hc hf hr,
      fun xs he heot hcnt hne h1 h2 h3 h => readSide_elements hj hp hk hx hl hc hf hr he heot hcnt hne h1 h2 h3 h⟩
  · intro v hc hd hrun hv ht
    exact ⟨writeSide_data hj hp hk hx hl hc hd hrun hv ht, writeSide_eot hj hp hk hx hl hc hd hrun hv ht hfj⟩

end Sys2Proof.Machine
end

