-- ==== Sys2Proof/Proofs/Ordering.lean ====
section
/-!
PROOFS. O18 to O20: fences and ranges, the issue of an event and the commit of a buffered write, and what a write of the
coherence order makes each agent read.
-/

namespace Sys2Proof.Machine

/-! ### What a list of writes makes of a byte (R229) -/

/-- A byte under the writes of a list that a test lets through, oldest first. -/
def seen (p : MWrite → Bool) (key : Nat) (ws : List MWrite) (v : Byte) : Byte :=
  ws.foldl (fun v w => if p w then (w.at? key).getD v else v) v

theorem coVisible_eq_seen (m : Memory) (ag : Agent) (key : Nat) :
    m.coVisible ag key = seen (visibleTo ag) key m.recent (cellRead m.cells key) := rfl

theorem coLast_eq_seen (m : Memory) (key : Nat) : m.coLast key = seen (fun _ => true) key m.recent (cellRead m.cells key) := rfl

theorem seen_append (p : MWrite → Bool) (key : Nat) (a b : List MWrite) (v : Byte) :
    seen p key (a ++ b) v = seen p key b (seen p key a v) := List.foldl_append

theorem seen_singleton (p : MWrite → Bool) (key : Nat) (w : MWrite) (v : Byte) :
    seen p key [w] v = if p w then (w.at? key).getD v else v := rfl

/-- Writes that the test lets through alike, with the same bytes, make the same of a byte. -/
theorem seen_map {f : MWrite → MWrite} {p q : MWrite → Bool} {key : Nat} {ws : List MWrite}
    (hp : ∀ w ∈ ws, q (f w) = p w) (hat : ∀ w ∈ ws, (f w).at? key = w.at? key) (v : Byte) :
    seen q key (ws.map f) v = seen p key ws v := by
  induction ws generalizing v with
  | nil => rfl
  | cons w ws ih =>
    have hw := List.mem_cons_self (a := w) (l := ws)
    have htail := ih (fun x hx => hp x (List.mem_cons_of_mem _ hx)) (fun x hx => hat x (List.mem_cons_of_mem _ hx))
    simp only [seen, List.map_cons, List.foldl_cons, hp w hw, hat w hw] at htail ⊢
    exact htail _

theorem seen_untouched {p : MWrite → Bool} {key : Nat} {ws : List MWrite}
    (h : ∀ w ∈ ws, p w = true → w.at? key = none) (v : Byte) : seen p key ws v = v := by
  induction ws generalizing v with
  | nil => rfl
  | cons w ws ih =>
    have hw : (if p w then (w.at? key).getD v else v) = v := by
      by_cases hpw : p w = true
      · rw [if_pos hpw, h w (List.mem_cons_self ..) hpw]
        rfl
      · rw [if_neg hpw]
    rw [← List.singleton_append, seen_append, seen_singleton, hw]
    exact ih (fun x hx => h x (List.mem_cons_of_mem _ hx)) v

theorem MWrite.at_eq (w : MWrite) (key : Nat) : w.at? key = (w.cells.find? fun e => e.1 = key).map Prod.snd := by
  unfold MWrite.at?
  cases w.cells <;> rfl

theorem narrowest_ofKey (k : Nat) : narrowest (Agent.ofKey k) ≤ 5 := by
  by_cases h1 : k < 0x1000
  · rw [Agent.ofKey, if_pos h1, narrowest]
    split <;> omega
  by_cases h2 : k < 0x2000
  · rw [Agent.ofKey, if_neg h1, if_pos h2, narrowest]
    omega
  by_cases h3 : k < 0x4000
  · rw [Agent.ofKey, if_neg h1, if_neg h2, if_pos h3, narrowest]
    omega
  rw [Agent.ofKey, if_neg h1, if_neg h2, if_neg h3]
  simp only
  by_cases h4 : k % 2 = 0
  · rw [if_pos h4, narrowest]
  · rw [if_neg h4, narrowest]
    omega

/-- Every agent sees a write that has reached the widest level (R229). -/
theorem visibleTo_of_widest {w : MWrite} (ag : Agent) (h : 5 ≤ w.level) : visibleTo ag w = true := by
  have hn := narrowest_ofKey w.org
  have hj : joinLevel (Agent.ofKey w.org) ag ≤ 5 := by
    unfold joinLevel
    repeat' split
    all_goals omega
  rw [visibleTo, decide_eq_true_iff]
  omega

/-- The cells after a list of bytes at different keys. -/
theorem cellRead_cellsWrite {l : List (Nat × Byte)} (hl : (l.map Prod.fst).Nodup) (key : Nat) :
    ∀ {c : List Host.Cell}, cellsOk none c = true →
      cellRead (cellsWrite c l) key = ((l.find? fun e => e.1 = key).map Prod.snd).getD (cellRead c key) := by
  induction l with
  | nil => exact fun _ => rfl
  | cons e l ih =>
    intro c hc
    obtain ⟨hnot, hrest⟩ := List.nodup_cons.1 (show (e.1 :: l.map Prod.fst).Nodup from hl)
    show cellRead (cellsWrite (cellWrite c e.1 e.2) l) key = _
    rw [ih hrest (cellWrite_ok _ _ _ hc)]
    by_cases hk : e.1 = key
    · subst hk
      have hnone : (l.find? fun x => x.1 = e.1) = none := by
        rw [List.find?_eq_none]
        intro x hx
        simpa using fun heq : x.1 = e.1 => hnot (List.mem_map.2 ⟨x, hx, heq⟩)
      rw [hnone, List.find?_cons_of_pos (by simp), cellRead_write_self _ _ _ hc]
      rfl
    · rw [List.find?_cons_of_neg (by simpa using hk), cellRead_write_ne _ _ _ _ (Ne.symm hk) hc]

/-- Settling changes nothing that is read: it moves the oldest writes, which every agent sees, into the cells. -/
theorem seen_settle {p : MWrite → Bool} (hp : ∀ w, 5 ≤ w.level → p w = true) (key : Nat) {ws : List MWrite} :
    ∀ {c : List Host.Cell} {t : Tab (BitVec 16)}, cellsOk none c = true → (∀ w ∈ ws, (w.cells.map Prod.fst).Nodup) →
      seen p key (Memory.settle c t ws).recent (cellRead (Memory.settle c t ws).cells key) =
        seen p key ws (cellRead c key) := by
  induction ws with
  | nil => exact fun _ _ => rfl
  | cons w ws ih =>
    intro c t hc hn
    unfold Memory.settle
    split
    · rename_i h5
      rw [ih (cellsWrite_ok _ _ hc) fun x hx => hn x (List.mem_cons_of_mem _ hx),
        cellRead_cellsWrite (hn w (List.mem_cons_self ..)) key hc, ← MWrite.at_eq]
      rw [← List.singleton_append (x := w), seen_append, seen_singleton, if_pos (hp w h5)]
    · rfl

theorem coVisible_settle (ag : Agent) (key : Nat) {ws : List MWrite} {c : List Host.Cell} (t : Tab (BitVec 16))
    (hc : cellsOk none c = true) (hn : ∀ w ∈ ws, (w.cells.map Prod.fst).Nodup) :
    (Memory.settle c t ws).coVisible ag key = seen (visibleTo ag) key ws (cellRead c key) :=
  seen_settle (fun _ h => visibleTo_of_widest ag h) key hc hn

theorem coLast_settle (key : Nat) {ws : List MWrite} {c : List Host.Cell} (t : Tab (BitVec 16))
    (hc : cellsOk none c = true) (hn : ∀ w ∈ ws, (w.cells.map Prod.fst).Nodup) :
    (Memory.settle c t ws).coLast key = seen (fun _ => true) key ws (cellRead c key) :=
  seen_settle (fun _ _ => rfl) key hc hn

/-! ### Appending and spreading (O20) -/

section
variable {s : State} {n : Nat} {w : MWrite}

theorem exec_propagate (hw : s.mem.recent[n]? = some w) (hl : w.level < 5)
    (ho : ∀ x ∈ s.mem.recent.take n, ¬(x.org = w.org ∧ x.level ≤ w.level ∧
      (x.meets w = true ∨ (w.ord = .so ∧ x.ord = .so)))) :
    exec (.propagate n) s = .next { s with
      mem := Memory.settle s.mem.cells s.mem.tags (s.mem.recent.set n { w with level := w.level + 1 }) } := by
  have hheld : ((s.mem.recent.take n).any fun x =>
      x.org = w.org && x.level ≤ w.level && (x.meets w || (w.ord == .so && x.ord == .so))) = false := by
    rw [List.any_eq_false]
    intro x hx h
    refine ho x hx ?_
    simpa [and_assoc] using h
  show execPropagate n s = _
  simp only [execPropagate, hw, hheld, Nat.not_le.2 hl, decide_false, Bool.or_self, Bool.false_eq_true, if_false]
  rfl

/-- A list with its element at n replaced, taken apart there. -/
theorem set_eq_append {α : Type} {l : List α} {a b : α} (h : l[n]? = some a) :
    l = l.take n ++ a :: l.drop (n + 1) ∧ l.set n b = l.take n ++ b :: l.drop (n + 1) := by
  obtain ⟨hn, rfl⟩ := List.getElem?_eq_some_iff.1 h
  exact ⟨by rw [← List.drop_eq_getElem_cons hn, List.take_append_drop],
    by rw [List.set_eq_take_append_cons_drop, if_pos hn]⟩

theorem visibleTo_wider (ag : Agent) (w : MWrite) (h : joinLevel (Agent.ofKey w.org) ag ≠ w.level + 1) :
    visibleTo ag { w with level := w.level + 1 } = visibleTo ag w := by
  simp only [visibleTo, decide_eq_decide]
  omega

end

/-- Settles O20. -/
theorem coherenceOrder : Obligations.CoherenceOrder := by
  unfold Obligations.CoherenceOrder
  refine ⟨fun m w hwf hn => ⟨append_wf m w hwf, fun k => ?_, fun ag k hv => ?_, fun ag k hv => ?_⟩, ?_⟩
  · rw [Memory.append, coLast_settle k m.tags hwf hn, seen_append, seen_singleton, if_pos rfl]
    rfl
  · rw [Memory.append, coVisible_settle ag k m.tags hwf hn, seen_append, seen_singleton, if_pos hv]
    rfl
  · rw [Memory.append, coVisible_settle ag k m.tags hwf hn, seen_append, seen_singleton, hv]
    rfl
  · intro s n w hwf hn hw hl ho
    obtain ⟨hold, hnew⟩ := set_eq_append (b := { w with level := w.level + 1 }) hw
    have hn' : ∀ x ∈ s.mem.recent.set n { w with level := w.level + 1 }, (x.cells.map Prod.fst).Nodup := by
      intro x hx
      obtain hx | rfl := List.mem_or_eq_of_mem_set hx
      · exact hn x hx
      · exact hn w (List.mem_of_getElem? hw)
    refine ⟨_, exec_propagate hw hl ho, settle_wf _ _ _ hwf, fun k => ?_, rfl, rfl, fun ag k v hj hat hlater => ?_,
      fun ag k hj => ?_⟩
    · rw [coLast_settle k _ hwf hn', coLast_eq_seen, hnew]
      conv_rhs => rw [hold]
      rw [seen_append, seen_append]
      rfl
    · have hvis : visibleTo ag { w with level := w.level + 1 } = true := decide_eq_true hj
      have hat' : ({ w with level := w.level + 1 } : MWrite).at? k = some v := hat
      rw [coVisible_settle ag k _ hwf hn', hnew, seen_append, ← List.singleton_append, seen_append, seen_singleton,
        if_pos hvis, hat', seen_untouched hlater]
      rfl
    · rw [coVisible_settle ag k _ hwf hn', coVisible_eq_seen, hnew]
      conv_rhs => rw [hold]
      rw [seen_append, seen_append, ← List.singleton_append, seen_append, ← List.singleton_append (x := w), seen_append,
        seen_singleton, seen_singleton, visibleTo_wider ag w hj]
      rfl

/-! ### Fences and ranges (O18) -/

section
variable {s : State} {q : Nat}

theorem await_spec (s : State) (q n id : Nat) (hit : Option (Nat × Word)) :
    let t := s.await q n id hit
    (t.seq q).user = (s.seq q).user ∧ (t.seq q).bank = (s.seq q).bank ∧ (t.seq q).ip = (s.seq q).ip ∧
      (t.seq q).stage = .pending := by
  refine ⟨by simp [State.await], by simp [State.await], by simp [State.await],
    Seq.stage_pending (n := n) (id := id) (hit := hit) ?_⟩
  simp [State.await]

theorem State.agent_await (s : State) (q n id : Nat) (hit : Option (Nat × Word)) (a : Nat) :
    (s.await q n id hit).agent a = s.agent a := rfl

theorem exec_sfence {k : FenceKind} {sc : Scope} (hi : Issues s q []) :
    exec (.sfence k sc) s =
      .next ((s.placeFence q { Ev.blank with kind := .fence k, scope := sc, ctx := s.ctxNo q }).await q 4
        (s.placeFence q { Ev.blank with kind := .fence k, scope := sc, ctx := s.ctxNo q }).lastId none) := hi.runs false _

/-- Where a fence is placed: last in its agent's queue, ACQREL as two (Table 9-3). -/
def fenceParts (k : FenceKind) : List FenceKind := if k = .ar then [.acq, .rel] else [k]

/-- A sequencer's fence goes last in its queue and changes no other agent, nor any sequencer, nor memory. -/
theorem placeFence_spec (hq : q < 132) (k : FenceKind) (e : Ev) :
    let t := s.placeFence q { e with kind := .fence k }
    t.seqs = s.seqs ∧ t.mem = s.mem ∧ (∀ b, b ≠ q → t.agent b = s.agent b) ∧ (t.agent q).buf = (s.agent q).buf ∧
      ∃ l, (t.agent q).q = (s.agent q).q ++ l ∧
        l.map (fun e => (e.kind, e.scope)) = (fenceParts k).map fun k => (.fence k, e.scope) := by
  have hb := isBlockKey_seq hq
  unfold State.placeFence fenceParts
  by_cases hk : k = .ar
  · subst hk
    obtain ⟨-, hid, hm, hag, hne, -⟩ := State.place_placed s q { e with kind := .fence .acq } hb
    obtain ⟨-, -, hm2, hag2, hne2, -⟩ :=
      State.place_placed (s.place q { e with kind := .fence .acq }) q { e with kind := .fence .rel } hb
    simp only [beq_self_eq_true, if_true]
    refine ⟨(State.place_same _ _ _).1.trans (State.place_same _ _ _).1, hm2.trans hm,
      fun b h => (hne2 b h).trans (hne b h), by rw [hag2, hag],
      [{ e with kind := .fence .acq, id := s.nextId },
        { e with kind := .fence .rel, id := (s.place q { e with kind := .fence .acq }).nextId }], ?_, ?_⟩
    · rw [hag2, hag]
      exact List.append_assoc _ _ _
    · rfl
  · obtain ⟨-, hid, hm, hag, hne, -⟩ := State.place_placed s q { e with kind := .fence k } hb
    have hk' : (EvKind.fence k == .fence .ar) = false := by simpa using hk
    simp only [hk', Bool.false_eq_true, if_false, if_neg hk]
    exact ⟨(State.place_same _ _ _).1, hm, hne, by rw [hag], [{ e with kind := .fence k, id := s.nextId }], by rw [hag], rfl⟩

variable {sc : Scope} {a b : SReg} {i : Instr} {kind : EvKind}

/-- `wbk` and `inv` are one operation with two kinds (R251). -/
theorem exec_range (hx : i = .wbk sc a b ∧ kind = .wbk ∨ i = .inv sc a b ∧ kind = .inv) (s : State) :
    exec i s = rangeOp s kind sc a b := by
  obtain ⟨rfl, rfl⟩ | ⟨rfl, rfl⟩ := hx <;> rfl

/-- The event of a range within one page (R251). -/
def State.rangeEv (s : State) (q : Nat) (kind : EvKind) (sc : Scope) (lo hi : Nat) (p : Phys) : Ev :=
  { Ev.blank with
    kind, scope := sc, ctx := s.ctxNo q, va := lo, size := hi - lo
    pieces := (keysFrom p.key (hi - lo)).map fun k => { key := k, value := 0, mask := 0 }, ord := .rc }

variable (hi : Issues s q [a, b])
include hi

theorem rangeOp_empty (hn : ((s.seq q).read b).toNat = 0) (hlo : ((s.seq q).read a).toNat ≤ 2 ^ 52) :
    rangeOp s kind sc a b = .next (s.advance q 4) := by
  have h52 : ¬ 2 ^ 52 < ((s.seq q).read a).toNat + ((s.seq q).read b).toNat := by omega
  refine (hi.runs false _).trans ?_
  simp only [hi.2.2.1, if_neg h52, if_pos hn, Bool.not_true, Bool.false_eq_true, if_false]

theorem rangeOp_far (h : 2 ^ 52 < ((s.seq q).read a).toNat + ((s.seq q).read b).toNat) :
    rangeOp s kind sc a b = .next (s.raise q .varange ((s.seq q).read a)) := by
  refine (hi.runs false _).trans ?_
  simp only [hi.2.2.1, if_pos h, Bool.not_true, Bool.false_eq_true, if_false]

theorem rangeOp_page {p : Phys} {first last : Nat} (hf : first = ((s.seq q).read a).toNat / 64 * 64)
    (hl : last = (((s.seq q).read a).toNat + ((s.seq q).read b).toNat + 63) / 64 * 64) (hw : (s.seq q).wait = .none)
    (hn : 0 < ((s.seq q).read b).toNat) (h52 : ((s.seq q).read a).toNat + ((s.seq q).read b).toNat ≤ 2 ^ 52)
    (hpage : last ≤ (first / 2 ^ 16 + 1) * 2 ^ 16) (hp : s.seqTranslate q (reqLoad q) first .read = .ok p) :
    rangeOp s kind sc a b = .next (((s.place q (s.rangeEv q kind sc first last p)).setSeq q
      ((s.seq q).setWait .none)).advance q 4) := by
  subst hf hl
  refine (hi.runs false _).trans ?_
  simp only [hi.2.2.1, if_neg (Nat.not_lt.2 h52), if_neg (Nat.pos_iff_ne_zero.1 hn), hw, Nat.min_eq_left hpage,
    State.rangeEvent, hp, Nat.lt_irrefl, Bool.not_true, Bool.false_eq_true, if_false, State.seq_place]
  rfl

end

/-- Settles O18. -/
theorem fencesAndRanges : Obligations.FencesAndRanges := by
  unfold Obligations.FencesAndRanges
  refine ⟨fun s q k sc hi => ?_, fun s q sc a b i kind hx hi hw => ?_⟩
  · obtain ⟨hseq, hm, hne, hbuf, l, hq, hl⟩ := placeFence_spec (s := s) hi.1 k { Ev.blank with scope := sc, ctx := s.ctxNo q }
    have hv : (s.placeFence q { Ev.blank with kind := .fence k, scope := sc, ctx := s.ctxNo q }).seq q = s.seq q :=
      congrArg (fun t => Tab.getD t q (Seq.reset q)) hseq
    have hlen : l.length = (fenceParts k).length := by
      have := congrArg List.length hl
      simpa using this
    obtain ⟨hu, hb, hip, hst⟩ := await_spec (s.placeFence q { Ev.blank with kind := .fence k, scope := sc, ctx := s.ctxNo q })
      q 4 (s.placeFence q { Ev.blank with kind := .fence k, scope := sc, ctx := s.ctxNo q }).lastId none
    refine ⟨_, exec_sfence hi, ⟨hu.trans (by rw [hv]), hb.trans (by rw [hv])⟩, hip.trans (by rw [hv]), hst, hm, hne, hbuf,
      ?_, ?_, ?_⟩
    · have h : (fenceParts k).length = if k = .ar then 2 else 1 := by
        unfold fenceParts
        split <;> rfl
      rw [State.agent_await, hq, List.length_append, hlen, h]
    · rw [State.agent_await, hq, List.take_left]
    · rw [State.agent_await, hq, List.drop_left, hl]
      unfold fenceParts
      split <;> rfl
  · intro lo n first last
    rw [exec_range hx]
    refine ⟨fun hn hlo => .of_advance ((exec_range hx s).trans (rangeOp_empty hi hn hlo)),
      fun p hn h52 hpage hp => ?_, fun h hinh => ?_⟩
    · have hpl := (State.place_placed s q (s.rangeEv q kind sc first last p) (isBlockKey_seq hi.1)).setSeq rfl rfl rfl q
        { (s.seq q).setWait .none with ip := ((s.seq q).setWait .none).ip + BitVec.ofNat 64 4 }
      have hx := rangeOp_page (kind := kind) (sc := sc) hi rfl rfl hw hn h52 hpage hp
      rw [State.advance, State.seq_setSeq_self, State.setSeq_setSeq] at hx
      refine ⟨_, _, hx, hpl, rfl, rfl, rfl, ?_, ?_, ?_⟩
      · simp [State.rangeEv, Function.comp_def]
      · simp [RegsStay]
      · simp
    · exact ⟨_, rangeOp_far hi h, s.raise_trapped q .varange _ hinh⟩

/-! ### Issue and commit (O19) -/

section
variable {s : State} {a n : Nat} {e : Ev}

@[simp] theorem State.agents_chargeAt (s : State) (r : Option Nat) (k n : Nat) : (s.chargeAt r k n).agents = s.agents := by
  unfold State.chargeAt
  dsimp only
  split
  case h_3 => cases r <;> rfl
  case h_4 => cases r <;> rfl
  all_goals rfl

theorem chargeEvent_same (s : State) (a : Nat) (e : Ev) :
    (s.chargeEvent a e).mem = s.mem ∧ (s.chargeEvent a e).agents = s.agents := by
  unfold State.chargeEvent
  split
  · split
    · exact ⟨State.mem_charge _ _ _ _, State.agents_chargeAt _ _ _ _⟩
    · exact ⟨rfl, rfl⟩
  · exact ⟨rfl, rfl⟩

theorem dropFetched_same (s : State) (a : Nat) (test : Nat → Nat → Bool) :
    (s.dropFetched a test).mem = s.mem ∧ (s.dropFetched a test).agents = s.agents := by
  unfold State.dropFetched
  split
  · dsimp only
    split <;> exact ⟨rfl, rfl⟩
  · exact ⟨rfl, rfl⟩

/-- The state once an event has left its queue and its energy is charged (R228). -/
def State.leaving (s : State) (a n : Nat) (e : Ev) : State := (s.chargeEvent a e).unqueue a n

theorem leaving_spec (s : State) (a n : Nat) (e : Ev) :
    (s.leaving a n e).mem = s.mem ∧ (s.leaving a n e).agent a = { s.agent a with q := (s.agent a).q.eraseIdx n } ∧
      ∀ b, b ≠ a → (s.leaving a n e).agent b = s.agent b := by
  obtain ⟨hm, ha⟩ := chargeEvent_same s a e
  have hag (b : Nat) : (s.chargeEvent a e).agent b = s.agent b := by simp only [State.agent, ha]
  refine ⟨hm, ?_, fun b hb => ?_⟩
  · rw [State.leaving, State.unqueue, State.agent_setAgent_self, hag]
    rfl
  · rw [State.leaving, State.unqueue, State.agent_setAgent_ne _ _ _ _ hb, hag]

/-- A read takes what its agent sees when it leaves the queue (S2). -/
theorem readByte_leaving (s : State) (a n : Nat) (e : Ev) (ag : Agent) (key : Nat) :
    (s.leaving a n e).readByte ag key = s.readByte ag key := by
  obtain ⟨hm, hself, hne⟩ := leaving_spec s a n e
  have hbuf : ((s.leaving a n e).agent ag.key).buf = (s.agent ag.key).buf := by
    by_cases h : ag.key = a
    · rw [h, hself]
    · rw [hne _ h]
  rw [State.readByte, State.readByte, hbuf, hm]

/-- The value with which a read returns (S2). -/
def State.readRet (s : State) (a : Nat) (e : Ev) : Ret :=
  { dest := e.dest, bytes := e.pieces.map fun p => s.readByte (Agent.ofKey a) p.key
    tag := e.pieces.head?.elim 0 fun p => if e.tagRead then s.readTag (Agent.ofKey a) (p.key / 64) else 0, bad := none }

theorem issueNow_read (hk : e.kind = .read) (hd : e.dest ≠ .none) :
    s.issueNow a n e = (s.leaving a n e).setAgent a { (s.leaving a n e).agent a with
      rets := ((s.leaving a n e).agent a).rets ++ [(s.leaving a n e).readRet a e] } := by
  unfold State.issueNow State.readRet
  simp only [hk, beq_iff_eq, if_neg hd]
  cases e.pieces <;> rfl

theorem readRet_leaving (ht : e.tagRead = false) : (s.leaving a n e).readRet a e =
    { dest := e.dest, bytes := e.pieces.map (fun p => s.readByte (Agent.ofKey a) p.key), tag := 0, bad := none } := by
  unfold State.readRet
  simp only [readByte_leaving, ht, Bool.false_eq_true, if_false]
  cases e.pieces <;> rfl

/-- What the issue of an event leaves (S1): it has left its queue, and stands where its kind says. -/
theorem issueNow_spec (s : State) (a n : Nat) (e : Ev) :
    let t := s.issueNow a n e
    t.mem = s.mem ∧ (∀ b, b ≠ a → t.agent b = s.agent b) ∧ (t.agent a).q = (s.agent a).q.eraseIdx n ∧
      (e.kind = .write → (t.agent a).buf = (s.agent a).buf ++ [e] ∧ (t.agent a).rets = (s.agent a).rets) ∧
      (∀ op, e.kind = .rmw op → (t.agent a).rmws = (s.agent a).rmws ++ [e] ∧ (t.agent a).buf = (s.agent a).buf) ∧
      (e.kind = .read → e.dest ≠ .none → e.tagRead = false →
        (t.agent a).rets = (s.agent a).rets ++
          [{ dest := e.dest, bytes := e.pieces.map (fun p => s.readByte (Agent.ofKey a) p.key), tag := 0, bad := none }] ∧
        (t.agent a).buf = (s.agent a).buf) := by
  obtain ⟨hm, hself, hne⟩ := leaving_spec s a n e
  have hset (v : AgentSt) : ((s.leaving a n e).setAgent a v).mem = s.mem ∧
      (∀ b, b ≠ a → ((s.leaving a n e).setAgent a v).agent b = s.agent b) ∧
      ((s.leaving a n e).setAgent a v).agent a = v :=
    ⟨hm, fun b hb => (State.agent_setAgent_ne _ _ _ _ hb).trans (hne b hb), State.agent_setAgent_self _ _ _⟩
  have hdrop (test : Nat → Nat → Bool) (b : Nat) : ((s.leaving a n e).dropFetched a test).agent b = (s.leaving a n e).agent b := by
    simp only [State.agent, (dropFetched_same (s.leaving a n e) a test).2]
  have hl : (s.chargeEvent a e).unqueue a n = s.leaving a n e := rfl
  by_cases hr : e.kind = .read ∧ e.dest ≠ .none
  · obtain ⟨hk, hd⟩ := hr
    obtain ⟨h1, h2, h3⟩ := hset { (s.leaving a n e).agent a with
      rets := ((s.leaving a n e).agent a).rets ++ [(s.leaving a n e).readRet a e] }
    rw [issueNow_read hk hd]
    refine ⟨h1, h2, by rw [h3, hself], by simp [hk], by simp [hk], fun _ _ ht => ?_⟩
    rw [h3, hself, readRet_leaving ht]
    exact ⟨rfl, rfl⟩
  unfold State.issueNow
  simp only [hl]
  cases hk : e.kind with
  | read =>
    have hd : e.dest = .none := by
      by_contra h
      exact hr ⟨hk, h⟩
    simp only [hd, beq_self_eq_true, if_true]
    exact ⟨hm, hne, by rw [hself], by simp, by simp, by simp⟩
  | write =>
    obtain ⟨h1, h2, h3⟩ := hset { (s.leaving a n e).agent a with buf := ((s.leaving a n e).agent a).buf ++ [e] }
    exact ⟨h1, h2, by rw [h3, hself], fun _ => by rw [h3, hself]; exact ⟨rfl, rfl⟩, by simp, by simp⟩
  | rmw op =>
    obtain ⟨h1, h2, h3⟩ := hset { (s.leaving a n e).agent a with rmws := ((s.leaving a n e).agent a).rmws ++ [e] }
    exact ⟨h1, h2, by rw [h3, hself], by simp, fun _ _ => by rw [h3, hself]; exact ⟨rfl, rfl⟩, by simp⟩
  | fence k =>
    simp only
    split
    · exact ⟨(dropFetched_same _ _ _).1.trans hm, fun b hb => (hdrop _ b).trans (hne b hb), by rw [hdrop, hself], by simp,
        by simp, by simp⟩
    · exact ⟨hm, hne, by rw [hself], by simp, by simp, by simp⟩
  | wbk => exact ⟨hm, hne, by rw [hself], by simp, by simp, by simp⟩
  | inv =>
    exact ⟨(dropFetched_same _ _ _).1.trans hm, fun b hb => (hdrop _ b).trans (hne b hb), by rw [hdrop, hself], by simp,
      by simp, by simp⟩

variable (he : (s.agent a).q[n]? = some e) (hp : e.parked = false)
  (hf : ∀ k, blockPlane a = some k → (s.plane k).stopped = false)
include he hp hf

/-- What comes of an unparked event of a plane that is not stopped (S1, R244, R360). -/
theorem execIssue_eq :
    exec (.issue a n) s =
      if s.kvVoid a e then .next (s.voidParked a n e)
      else if s.orderAllows a e && s.blockAllows a e && (!e.isRead || s.linked e) then
        e.absent.elim (.next (s.issueNow a n e)) fun k => .fault (.absent k)
      else .next s := by
  show execIssue a n s = _
  unfold execIssue
  cases hab : e.absent with
  | none =>
    cases hb : blockPlane a with
    | none =>
      simp only [he, hb, hp, hab, Option.elim_none, Bool.false_eq_true, if_false]
      rfl
    | some k =>
      simp only [he, hb, hf k hb, hp, hab, Option.elim_none, Bool.false_eq_true, if_false]
      rfl
  | some x =>
    cases hb : blockPlane a with
    | none =>
      simp only [he, hb, hp, hab, Option.elim_some, Bool.false_eq_true, if_false]
      rfl
    | some k =>
      simp only [he, hb, hf k hb, hp, hab, Option.elim_some, Bool.false_eq_true, if_false]
      rfl

end

/-- A read of a dead branch's slot returns no bytes, and other accesses nothing (R360). -/
theorem voidParked_spec (s : State) (a n : Nat) (e : Ev) :
    let t := s.voidParked a n e
    t.mem = s.mem ∧ (t.agent a).q = (s.agent a).q.eraseIdx n ∧ (t.agent a).buf = (s.agent a).buf ∧
      (t.agent a).rmws = (s.agent a).rmws ∧
      ∀ r ∈ (t.agent a).rets, r ∉ (s.agent a).rets → r.bytes = [] ∧ r.bad = none := by
  have hu : (s.unqueue a n).agent a = { s.agent a with q := (s.agent a).q.eraseIdx n } := State.agent_setAgent_self _ _ _
  unfold State.voidParked
  dsimp only
  split
  · rw [hu]
    exact ⟨rfl, rfl, rfl, rfl, fun r h hn => absurd h hn⟩
  · rw [State.agent_setAgent_self, hu]
    refine ⟨rfl, rfl, rfl, rfl, fun r h hn => ?_⟩
    obtain h | h := List.mem_append.1 h
    · exact absurd h hn
    · obtain rfl := List.mem_singleton.1 h
      exact ⟨rfl, rfl⟩

/-- The state once a buffered write has joined the coherence order (S3). -/
def State.commits (s : State) (a n : Nat) (w : Ev) : State :=
  let s := s.setAgent a { s.agent a with buf := (s.agent a).buf.eraseIdx n }
  State.written { s with mem := s.mem.append (s.committed a w) } (w.pieces.map Piece.key)

section
variable {s : State} {a n : Nat} {w : Ev} (hw : (s.agent a).buf[n]? = some w)
include hw

/-- A write of a dead branch's slot leaves the buffer and is discarded (R360, R363). -/
theorem exec_commit_void (hv : s.kvVoid a w = true) :
    exec (.commit a n) s = .next (s.setAgent a { s.agent a with buf := (s.agent a).buf.eraseIdx n }) := by
  show execCommit a n s = _
  simp only [execCommit, hw, hv, if_true]
  rfl

/-- An older write of its agent to one of its bytes, or a port that is down, keeps a write in the buffer. -/
theorem exec_commit_waits (hv : s.kvVoid a w = false)
    (h : (∃ x ∈ (s.agent a).buf.take n, overlaps x w = true) ∨ s.linked w = false) : exec (.commit a n) s = .next s := by
  have hheld : (((s.agent a).buf.take n).any (fun x => overlaps x w) ||
      (w.ord == .so && ((s.agent a).buf.take n).any fun x => x.ord == .so) || !s.linked w) = true := by
    obtain ⟨x, hx, ho⟩ | hl := h
    · rw [List.any_eq_true.2 ⟨x, hx, ho⟩]
      rfl
    · rw [hl]
      simp
  show execCommit a n s = _
  simp only [execCommit, hw, hv, hheld, Bool.false_eq_true, if_false, if_true]
  rfl

theorem exec_commit (hv : s.kvVoid a w = false) (ho : ∀ x ∈ (s.agent a).buf.take n, overlaps x w = false)
    (hso : w.ord = .so → ∀ x ∈ (s.agent a).buf.take n, x.ord ≠ .so) (hl : s.linked w = true) :
    ∃ t, exec (.commit a n) s = .next t ∧
      t.mem = s.mem.append ((s.setAgent a { s.agent a with buf := (s.agent a).buf.eraseIdx n }).committed a w) ∧
      t.agents = (s.setAgent a { s.agent a with buf := (s.agent a).buf.eraseIdx n }).agents := by
  have hheld : (((s.agent a).buf.take n).any (fun x => overlaps x w) ||
      (w.ord == .so && ((s.agent a).buf.take n).any fun x => x.ord == .so) || !s.linked w) = false := by
    have h1 : ((s.agent a).buf.take n).any (fun x => overlaps x w) = false :=
      List.any_eq_false.2 fun x hx => by rw [ho x hx]; decide
    have h2 : (w.ord == .so && ((s.agent a).buf.take n).any fun x => x.ord == .so) = false := by
      by_cases h : w.ord = .so
      · rw [List.any_eq_false.2 fun x hx => by simpa using hso h x hx, Bool.and_false]
      · rw [beq_eq_false_iff_ne.2 h, Bool.false_and]
    rw [h1, h2, hl]
    rfl
  have hwatch (u : State) (r i : Nat) : (u.jobWatch r i w).mem = u.mem ∧ (u.jobWatch r i w).agents = u.agents := by
    unfold State.jobWatch
    split
    · exact ⟨rfl, rfl⟩
    · split <;> exact ⟨rfl, rfl⟩
  cases hk : Agent.ofKey a with
  | job r i =>
    refine ⟨(s.commits a n w).jobWatch r i w, ?_, hwatch _ _ _⟩
    show execCommit a n s = _
    simp only [execCommit, hw, hv, hheld, hk, Bool.false_eq_true, if_false]
    rfl
  | _ =>
    refine ⟨s.commits a n w, ?_, rfl, rfl⟩
    show execCommit a n s = _
    simp only [execCommit, hw, hv, hheld, hk, Bool.false_eq_true, if_false]
    rfl

end

/-- Settles O19. -/
theorem eventsIssueAndCommit : Obligations.EventsIssueAndCommit := by
  unfold Obligations.EventsIssueAndCommit
  refine ⟨fun s a n e he hp hf => ⟨fun hv => ?_, fun hv ho hb habs => ⟨fun hk hl => ?_, fun hl => ?_⟩⟩, fun s a n w hw => ?_⟩
  · rw [execIssue_eq he hp hf, if_pos hv]
    exact ⟨_, rfl, voidParked_spec s a n e⟩
  · rw [execIssue_eq he hp hf, if_neg (by rw [hv]; decide), if_neg (by rw [ho, hb, hl, Ev.isRead, hk]; decide)]
  · have hread : (!e.isRead || s.linked e) = true := by
      by_cases hk : e.kind = .read
      · rw [hl hk, Bool.or_true]
      · rw [Ev.isRead, beq_eq_false_iff_ne.2 hk]
        rfl
    rw [execIssue_eq he hp hf, if_neg (by rw [hv]; decide), if_pos (by rw [ho, hb, hread]; rfl), habs]
    exact ⟨_, rfl, issueNow_spec s a n e⟩
  · intro older
    refine ⟨exec_commit_void hw, fun hv ho hso hl => ?_, fun hv h => exec_commit_waits hw hv h⟩
    obtain ⟨t, hx, hm, ha⟩ := exec_commit hw hv ho hso hl
    have hag (b : Nat) : t.agent b = (s.setAgent a { s.agent a with buf := (s.agent a).buf.eraseIdx n }).agent b := by
      simp only [State.agent, ha]
    exact ⟨t, _, hx, hm, (hag a).trans (State.agent_setAgent_self _ _ _),
      fun b hb => (hag b).trans (State.agent_setAgent_ne _ _ _ _ hb), rfl, rfl, rfl, rfl, rfl, rfl⟩

end Sys2Proof.Machine
end

