-- ==== Sys2Proof/Proofs/HomeUnits.lean ====
section
/-!
PROOFS. O21: barrier objects as the 32 bytes of their home, the RMWs that home units perform, and values that return.
-/

namespace Sys2Proof.Machine

/-! ### Bytes of a barrier object (R319) -/

theorem leNat_append (a b : List Byte) : leNat (a ++ b) = leNat a + 256 ^ a.length * leNat b := by
  induction a with
  | nil => simp [leNat]
  | cons x a ih =>
    simp only [List.cons_append, leNat, ih, List.length_cons, Nat.pow_succ, Nat.mul_add]
    ring

theorem toNat_append_eq {m n : Nat} (x : BitVec m) (y : BitVec n) : (x ++ y).toNat = x.toNat * 2 ^ n + y.toNat := by
  rw [BitVec.toNat_append, Nat.shiftLeft_eq, Nat.mul_comm, ← Nat.two_pow_add_eq_or_of_lt y.isLt, Nat.mul_comm]

/-- Bits 127 to 16 of an object: all but its counts and DONE. -/
def BarObj.middle (o : BarObj) : BitVec 112 :=
  (0 : BitVec 16) ++ BitVec.ofNat 16 o.root ++ BitVec.ofNat 32 o.exp ++ (0 : BitVec 40) ++ bit1 o.exh ++ BitVec.ofNat 3 o.scope ++
    bit1 o.tree ++ (0 : BitVec 3)

/-- The counts of an object's four phases. -/
def BarObj.counts (o : BarObj) : BitVec 128 :=
  BitVec.ofNat 32 (vget o.rem 3 0) ++ BitVec.ofNat 32 (vget o.rem 2 0) ++ BitVec.ofNat 32 (vget o.rem 1 0) ++
    BitVec.ofNat 32 (vget o.rem 0 0)

/-- The 256 bits of an object. -/
def BarObj.bits256 (o : BarObj) : BitVec 256 := o.counts ++ o.middle ++ o.last

theorem BarObj.length_toBytes (o : BarObj) : o.toBytes.length = 32 := by
  simp [BarObj.toBytes]

theorem BarObj.ofNat_toBytes (o : BarObj) : BitVec.ofNat 256 (leNat o.toBytes) = o.bits256 := by
  apply BitVec.eq_of_toNat_eq
  unfold BarObj.toBytes BarObj.bits256 BarObj.counts BarObj.middle
  simp only [leNat_append, leNat_leBytes, length_leBytes, List.length_append, BitVec.toNat_ofNat, toNat_append_eq]
  omega

section
variable (o : BarObj)

theorem BarObj.bits256_last : bits o.bits256 0 16 = o.last := bits_append_last _ _

theorem BarObj.bits256_middle : bits o.bits256 16 112 = o.middle := by
  unfold BarObj.bits256
  simp (disch := omega) only [bits, BitVec.extractLsb'_append_eq_of_le, BitVec.extractLsb'_append_eq_of_add_le, Nat.reduceSub,
    BitVec.extractLsb'_eq_self]

theorem BarObj.bits256_count {i : Nat} (hi : i < 4) : bits o.bits256 (128 + 32 * i) 32 = BitVec.ofNat 32 (vget o.rem i 0) := by
  unfold BarObj.bits256 BarObj.counts
  obtain rfl | rfl | rfl | rfl : i = 0 ∨ i = 1 ∨ i = 2 ∨ i = 3 := by omega
  all_goals
    simp (disch := omega) only [bits, BitVec.extractLsb'_append_eq_of_le, BitVec.extractLsb'_append_eq_of_add_le, Nat.reduceMul,
      Nat.reduceSub]
    exact BitVec.extractLsb'_eq_self

end

/-- The object that 256 bits hold. -/
def BarObj.ofBits (x : BitVec 256) : BarObj :=
  { rem := #v[(bits x 128 32).toNat, (bits x 160 32).toNat, (bits x 192 32).toNat, (bits x 224 32).toNat]
    root := (bits x 96 16).toNat, exp := (bits x 64 32).toNat, exh := bitAt x 23, scope := (bits x 20 3).toNat
    tree := bitAt x 19, last := bits x 0 16 }

/-- The reserved bits of an object are 0 and its SCOPE is one of the five (R319). -/
def LegalObject (x : BitVec 256) : Prop :=
  bits x 112 16 = 0 ∧ bits x 24 40 = 0 ∧ bits x 16 3 = 0 ∧ 1 ≤ (bits x 20 3).toNat ∧ (bits x 20 3).toNat ≤ 5

section
variable {bs : List Byte} {x : BitVec 256} (hx : x = BitVec.ofNat 256 (leNat bs))
include hx

theorem BarObj.ofBytes_legal (h : LegalObject x) : BarObj.ofBytes bs = some (BarObj.ofBits x) := by
  subst hx
  obtain ⟨h1, h2, h3, h4, h5⟩ := h
  have h0 : ¬ (bits (BitVec.ofNat 256 (leNat bs)) 20 3).toNat = 0 := by omega
  unfold BarObj.ofBytes
  simp only [h1, h2, h3, h0, Nat.not_lt.2 h5, bne_self_eq_false, decide_false, Bool.or_self, Bool.false_eq_true, if_false]
  rfl

theorem BarObj.ofBytes_illegal (h : ¬ LegalObject x) : BarObj.ofBytes bs = none := by
  subst hx
  unfold BarObj.ofBytes
  refine if_pos ?_
  by_contra hc
  simp only [Bool.or_eq_true, bne_iff_ne, ne_eq, decide_eq_true_eq, not_or, not_not] at hc
  obtain ⟨⟨⟨⟨h1, h2⟩, h3⟩, h4⟩, h5⟩ := hc
  exact h ⟨h1, h2, h3, by omega, by omega⟩

end

section
variable {x : BitVec 256}

theorem bit1_bitAt {n : Nat} (x : BitVec n) (i : Nat) : bit1 (bitAt x i) = bits x i 1 := by
  ext j hj
  obtain rfl : j = 0 := by omega
  cases h : x.getLsbD i <;> simp [bit1, bitAt, bits, h]

/-- Two fields side by side are one. -/
theorem bits_join {n hi lo len m : Nat} (x : BitVec n) (h : hi = lo + m) :
    bits x hi len ++ bits x lo m = bits x lo (len + m) := BitVec.extractLsb'_append_extractLsb'_eq_extractLsb' h

theorem BarObj.middle_ofBits (h : LegalObject x) : (BarObj.ofBits x).middle = bits x 16 112 := by
  obtain ⟨h1, h2, h3, -⟩ := h
  have hm : (BarObj.ofBits x).middle = bits x 112 16 ++ bits x 96 16 ++ bits x 64 32 ++ bits x 24 40 ++ bits x 23 1 ++
      bits x 20 3 ++ bits x 19 1 ++ bits x 16 3 := by
    rw [h1, h2, h3, ← bit1_bitAt, ← bit1_bitAt, BarObj.middle, BarObj.ofBits]
    simp only [BitVec.ofNat_toNat, BitVec.setWidth_eq]
  rw [hm]
  simp (disch := omega) only [bits_join]

theorem BarObj.counts_ofBits : (BarObj.ofBits x).counts = bits x 128 128 := by
  have hc : (BarObj.ofBits x).counts = bits x 224 32 ++ bits x 192 32 ++ bits x 160 32 ++ bits x 128 32 := by
    have h0 : vget (BarObj.ofBits x).rem 0 0 = (bits x 128 32).toNat := rfl
    have h1 : vget (BarObj.ofBits x).rem 1 0 = (bits x 160 32).toNat := rfl
    have h2 : vget (BarObj.ofBits x).rem 2 0 = (bits x 192 32).toNat := rfl
    have h3 : vget (BarObj.ofBits x).rem 3 0 = (bits x 224 32).toNat := rfl
    rw [BarObj.counts, h0, h1, h2, h3]
    simp only [BitVec.ofNat_toNat, BitVec.setWidth_eq]
  rw [hc]
  simp (disch := omega) only [bits_join]

/-- A legal object's bits are those of the object that they hold. -/
theorem BarObj.bits256_ofBits (h : LegalObject x) : (BarObj.ofBits x).bits256 = x := by
  have hb : (BarObj.ofBits x).bits256 = bits x 128 128 ++ bits x 16 112 ++ bits x 0 16 := by
    rw [BarObj.bits256, BarObj.counts_ofBits, BarObj.middle_ofBits h]
    rfl
  rw [hb]
  simp (disch := omega) only [bits_join]
  exact BitVec.extractLsb'_eq_self

/-- The count of a phase is the field of its place (R319). -/
theorem BarObj.remOf_ofBits (q : BitVec 16) : (BarObj.ofBits x).remOf q = (bits x (128 + 32 * (q.toNat % 4)) 32).toNat := by
  have hq : q.toNat % 4 < 4 := Nat.mod_lt _ (by decide)
  unfold BarObj.remOf BarObj.ofBits
  generalize q.toNat % 4 = i at hq
  obtain rfl | rfl | rfl | rfl : i = 0 ∨ i = 1 ∨ i = 2 ∨ i = 3 := by omega
  all_goals rfl

end

/-! ### The counts of an object (R321) -/

section
variable (o : BarObj)

theorem BarObj.remOf_setRem (q r : BitVec 16) {x : Nat} (hx : x < 2 ^ 32) :
    (o.setRem q x).remOf r = if r.toNat % 4 = q.toNat % 4 then x else o.remOf r := by
  unfold BarObj.setRem BarObj.remOf
  rw [Nat.mod_eq_of_lt hx]
  by_cases h : r.toNat % 4 = q.toNat % 4
  · rw [if_pos h, h, vget_vput_self _ _ _ _ (Nat.mod_lt _ (by decide))]
  · rw [if_neg h, vget_vput_ne _ _ _ _ _ h]

@[simp] theorem BarObj.middle_setRem (q : BitVec 16) (x : Nat) : (o.setRem q x).middle = o.middle := rfl
@[simp] theorem BarObj.tree_setRem (q : BitVec 16) (x : Nat) : (o.setRem q x).tree = o.tree := rfl
@[simp] theorem BarObj.last_setRem (q : BitVec 16) (x : Nat) : (o.setRem q x).last = o.last := rfl

/-- The bits of an object at a phase's place are its count. -/
theorem BarObj.bits256_rem (r : BitVec 16) (h : o.remOf r < 2 ^ 32) :
    (bits o.bits256 (128 + 32 * (r.toNat % 4)) 32).toNat = o.remOf r := by
  rw [BarObj.bits256_count o (Nat.mod_lt _ (by decide)), BitVec.toNat_ofNat]
  exact Nat.mod_eq_of_lt h

/-- Where phase DONE + 1 is still open nothing completes. -/
theorem BarObj.complete_open (h : o.remOf (o.last + 1) ≠ 0) (n : Nat) : o.complete n = o := by
  cases n with
  | zero => rfl
  | succ n =>
    rw [BarObj.complete]
    exact if_pos (bne_iff_ne.2 h)

/-- The oldest phase of a flat object completes, and opens again with EXP; the next is still open. -/
theorem BarObj.complete_once (ht : o.tree = false) (h0 : o.remOf (o.last + 1) = 0) (he : o.exp < 2 ^ 32)
    (h1 : o.remOf (o.last + 1 + 1) ≠ 0) :
    o.complete 4 = { o with last := o.last + 1 }.setRem (o.last + 1) o.exp := by
  have hne : ¬ (o.last + 1 + 1).toNat % 4 = (o.last + 1).toNat % 4 := by
    rw [BitVec.toNat_add, BitVec.toNat_add]
    have : (1 : BitVec 16).toNat = 1 := rfl
    omega
  have hopen : ({ o with last := o.last + 1 }.setRem (o.last + 1) o.exp).remOf
      (({ o with last := o.last + 1 }.setRem (o.last + 1) o.exp).last + 1) ≠ 0 := by
    rw [BarObj.last_setRem, BarObj.remOf_setRem _ _ _ he, if_neg hne]
    exact h1
  rw [BarObj.complete]
  simp only [h0, bne_self_eq_false, Bool.false_eq_true, if_false]
  rw [if_neg (by rw [ht]; simp)]
  exact BarObj.complete_open _ hopen 3

end

/-! ### RMW_PERFORM (S5) -/

theorem Tab.find?_mapValue {β γ : Type} (t : Tab β) (f : Nat → β → γ) (k : Nat) :
    Tab.find? (t.map fun e => (e.1, f e.1 e.2)) k = (Tab.find? t k).map (f k) := by
  induction t with
  | nil => rfl
  | cons e t ih =>
    obtain ⟨j, v⟩ := e
    simp only [List.map_cons, Tab.find?]
    by_cases h : j = k
    · subst h
      simp
    · simp [h, ih]

/-- A write's triggers change nothing of a context's branches (R367). -/
theorem ctx_written {s : State} {keys : List Nat} {k : Nat} {c : Ctx} (h : s.ctx? k = some c) :
    ∃ c', (s.written keys).ctx? k = some c' ∧ c'.branches = c.branches := by
  have hm : (s.written keys).ctx? k = (s.ctx? k).map fun c =>
      c.fire fun t => t.port.isNone && keys.any fun k => decide (t.lo ≤ k) && decide (k < t.hi) :=
    Tab.find?_mapValue s.ctxs (fun _ c => c.fire _) k
  rw [hm, h]
  exact ⟨_, rfl, rfl⟩

/-- The reports of watchpoints change no more than sequencers. -/
theorem homeWatch_same (s : State) (a : Nat) (e : Ev) : ∃ qs, s.homeWatch a e = { s with seqs := qs } := by
  unfold State.homeWatch
  dsimp only
  split
  · exact ⟨s.seqs, rfl⟩
  · split
    · exact ⟨s.seqs, rfl⟩
    · exact ⟨_, rfl⟩

theorem jobWatch_same (s : State) (r j : Nat) (e : Ev) : ∃ qs, s.jobWatch r j e = { s with seqs := qs } := by
  unfold State.jobWatch
  split
  · exact ⟨s.seqs, rfl⟩
  · split
    · exact ⟨s.seqs, rfl⟩
    · exact ⟨_, rfl⟩

section
variable {s : State} {a n : Nat} {e : Ev} {op : RmwOp}

/-- The agent's record once its RMW has been taken from those under way. -/
def State.taken (s : State) (a n : Nat) : AgentSt := { s.agent a with rmws := (s.agent a).rmws.eraseIdx n }

theorem answer_agent (s : State) (a : Nat) (r : Ret) (hd : r.dest ≠ .none) :
    s.answer a r = s.setAgent a { s.agent a with rets := (s.agent a).rets ++ [r] } := by
  simp [State.answer, hd]

variable (he : (s.agent a).rmws[n]? = some e) (hk : e.kind = .rmw op)
include he hk

theorem exec_rmwPerform_void (hv : s.kvVoid a e = true) :
    ∃ t, exec (.rmwPerform a n) s = .next t ∧ t.mem = s.mem ∧ (t.agent a).rmws = (s.agent a).rmws.eraseIdx n := by
  let t := (s.setAgent a (s.taken a n)).answer a { dest := e.dest, bytes := [], tag := 0, bad := none }
  have ht : exec (.rmwPerform a n) s = .next t := by
    show execRmwPerform a n s = .next _
    simp only [execRmwPerform, he, hk, hv, if_true]
    rfl
  refine ⟨t, ht, ?_⟩
  by_cases hd : e.dest = .none
  · have h : t = s.setAgent a (s.taken a n) := by simp [t, State.answer, hd]
    rw [h]
    exact ⟨rfl, by rw [State.agent_setAgent_self]; rfl⟩
  · rw [show t = _ from answer_agent _ _ _ hd]
    exact ⟨rfl, by rw [State.agent_setAgent_self, State.agent_setAgent_self]; rfl⟩

theorem exec_rmwPerform_waits (hv : s.kvVoid a e = false)
    (h : (∃ w ∈ (s.agent a).buf ++ (s.agent a).rmws.take n, overlaps w e = true) ∨ s.linked e = false) :
    exec (.rmwPerform a n) s = .next s := by
  have hheld : ((s.agent a).buf.any (fun w => overlaps w e) || ((s.agent a).rmws.take n).any (fun x => overlaps x e) ||
      !s.linked e) = true := by
    rw [← List.any_append]
    obtain ⟨w, hw, ho⟩ | hl := h
    · rw [List.any_eq_true.2 ⟨w, hw, ho⟩]
      rfl
    · rw [hl]
      simp
  show execRmwPerform a n s = _
  simp only [execRmwPerform, he, hk, hv, hheld, Bool.false_eq_true, if_false, if_true]
  rfl

variable (hv : s.kvVoid a e = false) (hb : ∀ w ∈ (s.agent a).buf, overlaps w e = false)
  (ho : ∀ w ∈ (s.agent a).rmws.take n, overlaps w e = false) (hl : s.linked e = true) (hd : e.dest ≠ .none)
include hv hb ho hl hd

/-- An RMW that the home refuses answers its fault and changes no byte (R321). -/
theorem exec_rmwPerform_error {c : Cause}
    (hr : (s.setAgent a (s.taken a n)).rmwResult e op (e.pieces.map fun p => s.mem.coLast p.key) = .error c) :
    ∃ t, exec (.rmwPerform a n) s = .next t ∧ t.mem = s.mem ∧ (t.agent a).rmws = (s.agent a).rmws.eraseIdx n ∧
      (t.agent a).rets = (s.agent a).rets ++
        [{ dest := e.dest, bytes := e.pieces.map fun p => s.mem.coLast p.key, tag := 0, bad := some c }] := by
  have h1 : (s.agent a).buf.any (fun w => overlaps w e) = false := List.any_eq_false.2 fun w hw => by rw [hb w hw]; decide
  have h2 : ((s.agent a).rmws.take n).any (fun x => overlaps x e) = false :=
    List.any_eq_false.2 fun w hw => by rw [ho w hw]; decide
  have hx : exec (.rmwPerform a n) s = .next ((s.setAgent a (s.taken a n)).answer a
      { dest := e.dest, bytes := e.pieces.map fun p => s.mem.coLast p.key, tag := 0, bad := some c }) := by
    have hr' : (s.setAgent a { s.agent a with rmws := dropAt (s.agent a).rmws n }).rmwResult e op
      (e.pieces.map fun p => s.mem.coLast p.key) = .error c := hr
    show execRmwPerform a n s = _
    simp only [execRmwPerform, he, hk, hv, h1, h2, hl, List.map_map, Function.comp_def, hr', Bool.not_true, Bool.or_self,
      Bool.false_eq_true, if_false]
    rfl
  refine ⟨_, hx, ?_⟩
  rw [answer_agent _ _ _ (show Ret.dest _ ≠ _ from hd)]
  exact ⟨rfl, by simp; rfl, by simp; rfl⟩

/-- An RMW reads the last write in the coherence order and appends its result, which every agent sees, in one step
(R232). -/
theorem exec_rmwPerform_ok {new : List Byte} {u : State}
    (hr : (s.setAgent a (s.taken a n)).rmwResult e op (e.pieces.map fun p => s.mem.coLast p.key) = .ok (new, u))
    (hm : u.mem = s.mem) (ha : u.agents = (s.setAgent a (s.taken a n)).agents) :
    ∃ t, exec (.rmwPerform a n) s = .next t ∧
      t.mem = s.mem.append { id := e.id, org := a, cells := (e.pieces.map Piece.key).zip new, tag := none, level := 5
                             ord := e.ord, plain := false } ∧
      (t.agent a).rmws = (s.agent a).rmws.eraseIdx n ∧
      (t.agent a).rets = (s.agent a).rets ++
        [{ dest := e.dest, bytes := e.pieces.map fun p => s.mem.coLast p.key, tag := 0, bad := none }] ∧
      (∀ b, b ≠ a → t.agent b = s.agent b) ∧ t.ctxs = (u.written (e.pieces.map Piece.key)).ctxs := by
  have h1 : (s.agent a).buf.any (fun w => overlaps w e) = false := List.any_eq_false.2 fun w hw => by rw [hb w hw]; decide
  have h2 : ((s.agent a).rmws.take n).any (fun x => overlaps x e) = false :=
    List.any_eq_false.2 fun w hw => by rw [ho w hw]; decide
  have hr' : (s.setAgent a { s.agent a with rmws := dropAt (s.agent a).rmws n }).rmwResult e op
      (e.pieces.map fun p => s.mem.coLast p.key) = .ok (new, u) := hr
  let w : MWrite := { id := e.id, org := a, cells := (e.pieces.map Piece.key).zip new, tag := none, level := 5
                      ord := e.ord, plain := false }
  let r : Ret := { dest := e.dest, bytes := e.pieces.map fun p => s.mem.coLast p.key, tag := 0, bad := none }
  have hx : ∃ qs, exec (.rmwPerform a n) s =
      .next (State.answer { State.written { u with mem := u.mem.append w } (e.pieces.map Piece.key) with seqs := qs } a r) := by
    obtain ⟨qs, hqs⟩ := homeWatch_same (State.written { u with mem := u.mem.append w } (e.pieces.map Piece.key)) a e
    have hjw (r' j : Nat) : ∃ qs', ((State.written { u with mem := u.mem.append w } (e.pieces.map Piece.key)).homeWatch a e).jobWatch
        r' j e = { State.written { u with mem := u.mem.append w } (e.pieces.map Piece.key) with seqs := qs' } := by
      obtain ⟨qs', h⟩ := jobWatch_same ((State.written { u with mem := u.mem.append w }
        (e.pieces.map Piece.key)).homeWatch a e) r' j e
      exact ⟨qs', by rw [h, hqs]⟩
    cases hag : Agent.ofKey a with
    | job r' j =>
      obtain ⟨qs', h⟩ := hjw r' j
      refine ⟨qs', ?_⟩
      rw [← h]
      show execRmwPerform a n s = _
      simp only [execRmwPerform, he, hk, hv, h1, h2, hl, List.map_map, Function.comp_def, hr', hag, Bool.not_true, Bool.or_self,
        Bool.false_eq_true, if_false]
      rfl
    | _ =>
      refine ⟨qs, ?_⟩
      rw [← hqs]
      show execRmwPerform a n s = _
      simp only [execRmwPerform, he, hk, hv, h1, h2, hl, List.map_map, Function.comp_def, hr', hag, Bool.not_true, Bool.or_self,
        Bool.false_eq_true, if_false]
      rfl
  obtain ⟨qs, hx⟩ := hx
  have hag (b : Nat) : ({ State.written { u with mem := u.mem.append w } (e.pieces.map Piece.key) with seqs := qs } : State).agent b =
      (s.setAgent a (s.taken a n)).agent b := by
    show Tab.getD u.agents b AgentSt.empty = _
    rw [ha]
    rfl
  refine ⟨_, hx, ?_⟩
  rw [answer_agent _ _ _ (show r.dest ≠ .none from hd)]
  refine ⟨congrArg (fun m => m.append w) hm, ?_, ?_, fun b hne => ?_, rfl⟩
  · rw [State.agent_setAgent_self, hag, State.agent_setAgent_self]
    rfl
  · rw [State.agent_setAgent_self, hag, State.agent_setAgent_self]
    rfl
  · rw [State.agent_setAgent_ne _ _ _ _ hne, hag, State.agent_setAgent_ne _ _ _ _ hne]

end

/-! ### What an arrival makes of an object (R321) -/

theorem signedDiff16_outside (u v : BitVec 16) :
    (decide (signedDiff16 u v < 0) || decide (3 < signedDiff16 u v)) = decide (3 < (u - v).toNat) := by
  unfold signedDiff16
  rw [BitVec.toInt_eq_toNat_cond]
  have hn := (u - v).isLt
  generalize (u - v).toNat = n at *
  rw [← Bool.decide_or]
  congr 1
  split <;> apply propext <;> constructor <;> intro h <;> omega

section
variable (o : BarObj) (va : Nat) (y : Ctx) (v : Option (BitVec 16)) (c : Nat) (b : Option Nat)

/-- An arrival at an exhausted flat object. -/
theorem arrive_exhausted (ht : o.tree = false) (hx : o.exh = true) : arrive o va y v c b = .error .barrange := by
  simp only [arrive, ht, hx, Bool.false_and, Bool.false_eq_true, if_false, if_true]

theorem arrive_flat (ht : o.tree = false) (hx : o.exh = false) :
    arrive o va y v c b = if 3 < (v.getD (o.last + 1) - (o.last + 1)).toNat then .error .barrange
      else if o.remOf (v.getD (o.last + 1)) < c then .error .barcnt
      else .ok ((o.setRem (v.getD (o.last + 1)) (o.remOf (v.getD (o.last + 1)) - c)).complete 4, y) := by
  simp only [arrive, ht, hx, Bool.false_and, Bool.false_eq_true, if_false, signedDiff16_outside, decide_eq_true_eq,
    BarObj.tree_setRem]
  cases b <;> rfl

theorem arrive_dead {k : Nat} (ht : o.tree = true) (hd : y.isDead k = true) :
    arrive o va y v c (some k) = .ok (o, y) := by
  simp only [arrive, ht, hd, Bool.and_self, if_true]

theorem arrive_stranger {k : Nat} (ht : o.tree = true) (hx : o.exh = false) (hd : y.isDead k = false)
    (hb : (y.branch k).bar ≠ some va) : arrive o va y v c (some k) = .error .bartree := by
  have hm : ((y.branch k).bar == some va) = false := beq_eq_false_iff_ne.2 hb
  simp only [arrive, ht, hx, hd, hm, Bool.true_and, Bool.not_false, Bool.false_eq_true, if_false, if_true]

/-- A member arrives at its own next phase. -/
theorem arrive_member {k : Nat} (ht : o.tree = true) (hx : o.exh = false) (hd : y.isDead k = false)
    (hb : (y.branch k).bar = some va) (hv : v.getD (y.branch k).barph = (y.branch k).barph)
    (hq : ((y.branch k).barph - (o.last + 1)).toNat ≤ 3) (hr : 1 ≤ o.remOf (y.branch k).barph) :
    arrive o va y v 1 (some k) = .ok ((o.setRem (y.branch k).barph (o.remOf (y.branch k).barph - 1)).complete 4,
      y.setBranch k { y.branch k with barph := (y.branch k).barph + 1 }) := by
  have hm : ((y.branch k).bar == some va) = true := beq_iff_eq.2 hb
  simp only [arrive, ht, hx, hd, hm, hv, signedDiff16_outside, Nat.not_lt.2 hq, Nat.not_lt.2 hr, Bool.true_and, Bool.not_true,
    bne_self_eq_false, Bool.or_self, decide_false, Bool.false_eq_true, if_false, if_true, BarObj.tree_setRem]

end

/-- After a phase's count falls and phase DONE + 1 is still open, nothing completes. -/
theorem BarObj.complete_setRem (o : BarObj) (q : BitVec 16) {m : Nat} (hm : m < 2 ^ 32)
    (h0 : o.remOf (o.last + 1) ≠ 0) (hq : (q - (o.last + 1)).toNat ≤ 3) (h : ¬(q = o.last + 1 ∧ m = 0)) :
    (o.setRem q m).remOf ((o.setRem q m).last + 1) ≠ 0 := by
  rw [BarObj.last_setRem, BarObj.remOf_setRem _ _ _ hm]
  split
  next he =>
    have hqp : q = o.last + 1 := by
      generalize o.last + 1 = p at *
      bv_omega
    exact fun hz => h ⟨hqp, hz⟩
  next => exact h0

section
variable {s : State} {e : Ev} {v : Option (BitVec 16)} {c who : Nat} {b : Option Nat} {old : List Byte} {x : BitVec 256}
  (hx : x = BitVec.ofNat 256 (leNat old))
include hx

theorem rmwResult_illegal (h : ¬ LegalObject x) : s.rmwResult e (.arrive v c who b) old = .error .barval := by
  simp only [State.rmwResult, BarObj.ofBytes_illegal hx h]

theorem rmwResult_error (h : LegalObject x) {z : Cause}
    (ha : arrive (BarObj.ofBits x) e.va ((s.ctx? who).getD Ctx.blank) v c b = .error z) :
    s.rmwResult e (.arrive v c who b) old = .error z := by
  simp only [State.rmwResult, BarObj.ofBytes_legal hx h, ha]

theorem rmwResult_ok (h : LegalObject x) {o : BarObj} {y : Ctx}
    (ha : arrive (BarObj.ofBits x) e.va ((s.ctx? who).getD Ctx.blank) v c b = .ok (o, y)) (hn : o.endless = false) :
    ∃ u, s.rmwResult e (.arrive v c who b) old = .ok (o.toBytes, u) ∧ u.mem = s.mem ∧ u.agents = s.agents ∧
      ∀ y', s.ctx? who = some y' → u.ctx? who = some y := by
  cases hc : s.ctx? who with
  | none =>
    refine ⟨s, ?_, rfl, rfl, nofun⟩
    simp only [hc] at ha
    simp only [State.rmwResult, BarObj.ofBytes_legal hx h, hc, ha, hn, Bool.false_eq_true, if_false]
  | some y' =>
    refine ⟨s.setCtx who y, ?_, rfl, rfl, fun _ _ => by simp⟩
    simp only [hc] at ha
    simp only [State.rmwResult, BarObj.ofBytes_legal hx h, hc, ha, hn, Bool.false_eq_true, if_false]

end

/-- The object differs from 256 bits in the count of phase q, which is m, and in DONE, which is d. -/
def CountChanged (x z : BitVec 256) (q : BitVec 16) (m : Nat) (d : BitVec 16) : Prop :=
  bits z 16 112 = bits x 16 112 ∧ bits z 0 16 = d ∧
    ∀ r : BitVec 16, (bits z (128 + 32 * (r.toNat % 4)) 32).toNat =
      if r.toNat % 4 = q.toNat % 4 then m else (bits x (128 + 32 * (r.toNat % 4)) 32).toNat

theorem BarObj.countChanged {x : BitVec 256} (h : LegalObject x) {o : BarObj} {q : BitVec 16} {m : Nat} (hm : m < 2 ^ 32)
    (hmid : o.middle = (BarObj.ofBits x).middle)
    (hr : ∀ r, o.remOf r = if r.toNat % 4 = q.toNat % 4 then m else (BarObj.ofBits x).remOf r) :
    CountChanged x o.bits256 q m o.last := by
  refine ⟨?_, BarObj.bits256_last o, fun r => ?_⟩
  · rw [BarObj.bits256_middle, hmid, BarObj.middle_ofBits h]
  · have hlt : o.remOf r < 2 ^ 32 := by
      rw [hr, BarObj.remOf_ofBits]
      split
      · exact hm
      · exact BitVec.isLt _
    rw [BarObj.bits256_rem o r hlt, hr, BarObj.remOf_ofBits]

theorem BarObj.countChanged_setRem {x : BitVec 256} (h : LegalObject x) (q : BitVec 16) {m : Nat} (hm : m < 2 ^ 32) :
    CountChanged x ((BarObj.ofBits x).setRem q m).bits256 q m (bits x 0 16) :=
  BarObj.countChanged h hm rfl fun r => BarObj.remOf_setRem _ q r hm

/-- A field of a field. -/
theorem bits_bits {n a len i m : Nat} (x : BitVec n) (h : i + m ≤ len) : bits (bits x a len) i m = bits x (a + i) m := by
  ext j hj
  simp only [bits, BitVec.getElem_extractLsb', BitVec.getLsbD_extractLsb', Nat.add_assoc]
  rw [decide_eq_true (by omega), Bool.true_and]

/-- The fields of a flat object that is not exhausted. -/
theorem BarObj.bits256_flat (o : BarObj) (ht : o.tree = false) (hx : o.exh = false) (hr : o.root = 0) :
    bits o.bits256 16 4 = 0 ∧ bits o.bits256 20 3 = BitVec.ofNat 3 o.scope ∧ bits o.bits256 23 41 = 0 ∧
      bits o.bits256 64 32 = BitVec.ofNat 32 o.exp ∧ bits o.bits256 96 32 = 0 := by
  have hmid (i n : Nat) (h : i + n ≤ 112) : bits o.bits256 (16 + i) n = bits o.middle i n := by
    rw [← BarObj.bits256_middle, bits_bits _ h]
  have hm : o.middle = (0 : BitVec 32) ++ BitVec.ofNat 32 o.exp ++ (0 : BitVec 41) ++ BitVec.ofNat 3 o.scope ++ (0 : BitVec 4) := by
    rw [BarObj.middle, ht, hx, hr]
    apply BitVec.eq_of_toNat_eq
    simp only [toNat_append_eq]
    simp [bit1]
    omega
  refine ⟨(hmid 0 4 (by omega)).trans ?_, (hmid 4 3 (by omega)).trans ?_, (hmid 7 41 (by omega)).trans ?_,
    (hmid 48 32 (by omega)).trans ?_, (hmid 80 32 (by omega)).trans ?_⟩
  all_goals
    rw [hm]
    simp (disch := omega) only [bits, BitVec.extractLsb'_append_eq_of_le, BitVec.extractLsb'_append_eq_of_add_le, Nat.reduceSub]
    exact BitVec.extractLsb'_eq_self

/-- What `bnew` writes for a flat object (R320). -/
theorem BarObj.bits256_ofDescriptor {x : BitVec 256} (hf : bitAt x 19 = false) :
    let z := (BarObj.ofDescriptor (bits x 0 64)).bits256
    bits z 0 16 = bits x 0 16 - 1 ∧ bits z 16 4 = 0 ∧ bits z 20 3 = bits x 16 3 ∧ bits z 23 41 = 0 ∧
      bits z 64 32 = bits x 32 32 ∧ bits z 96 32 = 0 ∧
      ∀ r : BitVec 16, (bits z (128 + 32 * (r.toNat % 4)) 32).toNat = (bits x 32 32).toNat := by
  have hb (i n : Nat) (h : i + n ≤ 64) : bits (bits x 0 64) i n = bits x i n := by rw [bits_bits _ h, Nat.zero_add]
  have hf' : bitAt (bits x 0 64) 19 = false := by simpa [bitAt, bits] using hf
  have ho : BarObj.ofDescriptor (bits x 0 64) =
      { rem := #v[(bits x 32 32).toNat, (bits x 32 32).toNat, (bits x 32 32).toNat, (bits x 32 32).toNat], root := 0
        exp := (bits x 32 32).toNat, exh := false, scope := (bits x 16 3).toNat, tree := false, last := bits x 0 16 - 1 } := by
    simp only [BarObj.ofDescriptor, hf', Bool.false_eq_true, if_false, hb 32 32 (by omega), hb 16 3 (by omega),
      hb 0 16 (by omega)]
  rw [ho]
  intro z
  obtain ⟨h1, h2, h3, h4, h5⟩ := BarObj.bits256_flat (BarObj.mk _ _ _ _ _ _ _) rfl rfl rfl
  refine ⟨BarObj.bits256_last _, h1, h2.trans (by simp only [BitVec.ofNat_toNat, BitVec.setWidth_eq]), h3,
    h4.trans (by simp only [BitVec.ofNat_toNat, BitVec.setWidth_eq]), h5, fun r => ?_⟩
  have hq : r.toNat % 4 < 4 := Nat.mod_lt _ (by decide)
  rw [BarObj.bits256_count _ hq]
  generalize r.toNat % 4 = i at hq
  obtain rfl | rfl | rfl | rfl : i = 0 ∨ i = 1 ∨ i = 2 ∨ i = 3 := by omega
  all_goals simp [vget]

/-! ### LOAD_RETURN (R330) -/

section
variable {s : State} {a n : Nat} {r : Ret}

/-- The state when a value has left its agent and has not yet reached its destination. -/
def State.returned (s : State) (a n : Nat) : State := s.setAgent a { s.agent a with rets := (s.agent a).rets.eraseIdx n }

theorem exec_loadReturn (h : (s.agent a).rets[n]? = some r) :
    exec (.loadReturn a n) s = .next ((s.returned a n).giveTo r) := by
  show execLoadReturn a n s = _
  simp only [execLoadReturn, h]
  rfl

theorem rets_returned : ((s.returned a n).agent a).rets = (s.agent a).rets.eraseIdx n := by
  unfold State.returned
  rw [State.agent_setAgent_self]

end

theorem returned64_word (bs : List Byte) : returned64 false bs = BitVec.ofNat 64 (leNat bs) := by
  simp [returned64]

/-- A value written to a register of a bank, which is then no longer outstanding. -/
def Seq.received (v : Seq) (pv : Bool) (d : SReg) (x : Word) : Seq := (v.writeBank pv d x).setOut pv d false

section
variable (v : Seq) (d : SReg) (x : Word) (hd : d ≠ 0)
include hd

theorem Seq.received_user :
    (v.received false d x).user = vput v.user d.toNat x ∧ (v.received false d x).bank = v.bank ∧
      bitAt (v.received false d x).outU d.toNat = false := by
  simp only [Seq.received, Seq.writeBank, Seq.setOut, if_neg hd, if_false, Bool.false_eq_true]
  exact ⟨trivial, trivial, by rw [bitAt_setBit _ _ _ d.isLt, if_pos rfl]⟩

theorem Seq.received_bank :
    (v.received true d x).bank = vput v.bank d.toNat x ∧ (v.received true d x).user = v.user ∧
      bitAt (v.received true d x).outP d.toNat = false := by
  simp only [Seq.received, Seq.writeBank, Seq.setOut, if_neg hd, if_true]
  exact ⟨trivial, trivial, by rw [bitAt_setBit _ _ _ d.isLt, if_pos rfl]⟩

end

section
variable {s : State} {a n : Nat} {r : Ret}

theorem giveTo_sreg {q : Nat} {pv : Bool} {d : SReg} (hr : r.dest = .sreg q pv d false) :
    s.giveTo r = s.setSeq q ((s.seq q).received pv d (BitVec.ofNat 64 (leNat r.bytes))) := by
  simp only [State.giveTo, hr, returned64_word]
  rfl

theorem giveTo_greg {k : Nat} {g : BitVec 4} (hr : r.dest = .greg k g) :
    s.giveTo r = (s.setPlane k { s.plane k with g := vput (s.plane k).g g.toNat (BitVec.ofNat 256 (leNat r.bytes)) }).setSeq (k / 4)
      { s.seq (k / 4) with outG := setBit (s.seq (k / 4)).outG g.toNat false } := by
  simp only [State.giveTo, hr]

theorem giveTo_creg {k : Nat} {g : CReg} (hr : r.dest = .creg k g) :
    s.giveTo r = (s.setPlane k { s.plane k with c := vput (s.plane k).c g.toNat (BitVec.ofNat 256 (leNat r.bytes)) }).setSeq (k / 4)
      { s.seq (k / 4) with outC := setBit (s.seq (k / 4)).outC g.toNat false } := by
  simp only [State.giveTo, hr]

theorem giveTo_wait {q : Nat} (hr : r.dest = .wait q) : s.giveTo r = s.setSeq q ((s.seq q).waitReturn r) := by
  simp only [State.giveTo, hr]

end

/-! ### The obligation -/

/-- The clause of one RMW of `atom` or `satom`. -/
theorem rmwPerform_atomic (s : State) (a n : Nat) (e : Ev) (op : AtomOp) (fl sg : Bool) (x c : Word)
    (he : (s.agent a).rmws[n]? = some e) (hk : e.kind = .rmw (.atomic op fl sg x c)) (hv : s.kvVoid a e = false)
    (hb : ∀ w ∈ (s.agent a).buf, overlaps w e = false) (ho : ∀ w ∈ (s.agent a).rmws.take n, overlaps w e = false)
    (hd : e.dest ≠ .none) (hl : s.linked e = true) :
    let old := (e.pieces.map Piece.key).map s.mem.coLast
    let new := leBytes e.size (atomValue op fl sg (8 * e.size) (BitVec.ofNat 64 (leNat old)) x c).toNat
    ∃ t, exec (.rmwPerform a n) s = .next t ∧
      t.mem = s.mem.append
        { id := e.id, org := a, cells := (e.pieces.map Piece.key).zip new, tag := none, level := 5, ord := e.ord, plain := false } ∧
      (t.agent a).rmws = (s.agent a).rmws.eraseIdx n ∧
      (t.agent a).rets = (s.agent a).rets ++ [{ dest := e.dest, bytes := old, tag := 0, bad := none }] ∧
      (∀ b, b ≠ a → t.agent b = s.agent b) := by
  intro old new
  obtain ⟨t, ht, hm, hr, hs, hag, -⟩ := exec_rmwPerform_ok he hk hv hb ho hl hd (new := new)
    (u := s.setAgent a (s.taken a n)) (by simp only [State.rmwResult, new, old, List.map_map]; rfl) rfl rfl
  exact ⟨t, ht, hm, hr, by rw [hs]; simp only [old, List.map_map]; rfl, hag⟩

section
variable {s : State} {a n : Nat} {e : Ev} {op : RmwOp} (he : (s.agent a).rmws[n]? = some e) (hk : e.kind = .rmw op)
  (hv : s.kvVoid a e = false) (hb : ∀ w ∈ (s.agent a).buf, overlaps w e = false)
  (ho : ∀ w ∈ (s.agent a).rmws.take n, overlaps w e = false) (hl : s.linked e = true) (hd : e.dest ≠ .none)

/-- What home units read: the last writes in the coherence order. -/
def State.homeBytes (s : State) (e : Ev) : List Byte := (e.pieces.map Piece.key).map s.mem.coLast

/-- The RMW is performed with new bytes whose 256 bits satisfy `ok`. -/
def Performs (s : State) (a n : Nat) (e : Ev) (ok : State → BitVec 256 → Prop) : Prop :=
  ∃ t new, exec (.rmwPerform a n) s = .next t ∧
    t.mem = s.mem.append
      { id := e.id, org := a, cells := (e.pieces.map Piece.key).zip new, tag := none, level := 5, ord := e.ord, plain := false } ∧
    new.length = 32 ∧ ok t (BitVec.ofNat 256 (leNat new)) ∧ (t.agent a).rmws = (s.agent a).rmws.eraseIdx n ∧
    (t.agent a).rets = (s.agent a).rets ++ [{ dest := e.dest, bytes := s.homeBytes e, tag := 0, bad := none }]

include he hk hv hb ho hl hd

theorem performs_object {o : BarObj} {u : State} {ok : State → BitVec 256 → Prop}
    (hr : (s.setAgent a (s.taken a n)).rmwResult e op (s.homeBytes e) = .ok (o.toBytes, u))
    (hm : u.mem = s.mem) (ha : u.agents = (s.setAgent a (s.taken a n)).agents)
    (hok : ∀ t : State, t.ctxs = (u.written (e.pieces.map Piece.key)).ctxs → ok t o.bits256) : Performs s a n e ok := by
  obtain ⟨t, ht, h1, h2, h3, -, h5⟩ := exec_rmwPerform_ok he hk hv hb ho hl hd (new := o.toBytes) (u := u)
    (by rw [← hr, State.homeBytes, List.map_map]; rfl) hm ha
  refine ⟨t, o.toBytes, ht, h1, BarObj.length_toBytes o, ?_, h2, ?_⟩
  · rw [BarObj.ofNat_toBytes]
    exact hok t h5
  · rw [h3, State.homeBytes, List.map_map]
    rfl

theorem performs_arrive {v : Option (BitVec 16)} {c who : Nat} {b : Option Nat} {o : BarObj} {y : Ctx}
    {ok : State → BitVec 256 → Prop} (hop : op = .arrive v c who b)
    (h : LegalObject (BitVec.ofNat 256 (leNat (s.homeBytes e))))
    (ha : arrive (BarObj.ofBits (BitVec.ofNat 256 (leNat (s.homeBytes e)))) e.va ((s.ctx? who).getD Ctx.blank) v c b = .ok (o, y))
    (hn : o.endless = false)
    (hok : ∀ t : State, (∀ y', s.ctx? who = some y' → ∃ z, t.ctx? who = some z ∧ z.branches = y.branches) → ok t o.bits256) :
    Performs s a n e ok := by
  subst hop
  obtain ⟨u, hr, hm, hag, hc⟩ := rmwResult_ok (s := s.setAgent a (s.taken a n)) (e := e) rfl h ha hn
  refine performs_object he hk hv hb ho hl hd hr hm hag fun t ht => hok t fun y' hy => ?_
  obtain ⟨z, hz, hzb⟩ := ctx_written (keys := e.pieces.map Piece.key) (hc y' hy)
  exact ⟨z, by rw [← hz, State.ctx?, State.ctx?, ht], hzb⟩

/-- An object with an open phase DONE + 1 is not endless, and nothing completes there. -/
theorem performs_lowers {v : Option (BitVec 16)} {c who : Nat} {b : Option Nat} {o : BarObj} {y : Ctx}
    {ok : State → BitVec 256 → Prop} (hop : op = .arrive v c who b)
    (h : LegalObject (BitVec.ofNat 256 (leNat (s.homeBytes e)))) (h0 : o.remOf (o.last + 1) ≠ 0)
    (ha : arrive (BarObj.ofBits (BitVec.ofNat 256 (leNat (s.homeBytes e)))) e.va ((s.ctx? who).getD Ctx.blank) v c b =
      .ok (o.complete 4, y))
    (hok : ∀ t : State, (∀ y', s.ctx? who = some y' → ∃ z, t.ctx? who = some z ∧ z.branches = y.branches) → ok t o.bits256) :
    Performs s a n e ok := by
  rw [BarObj.complete_open _ h0] at ha
  refine performs_arrive he hk hv hb ho hl hd hop h ha ?_ hok
  simp only [BarObj.endless, h0, decide_false, Bool.and_false]

/-- What an arrival refuses. -/
def Faults (s : State) (a n : Nat) (e : Ev) (c : Cause) : Prop :=
  ∃ t, exec (.rmwPerform a n) s = .next t ∧ t.mem = s.mem ∧ (t.agent a).rmws = (s.agent a).rmws.eraseIdx n ∧
    (t.agent a).rets = (s.agent a).rets ++ [{ dest := e.dest, bytes := s.homeBytes e, tag := 0, bad := some c }]

theorem faults_arrive {z : Cause} (hr : (s.setAgent a (s.taken a n)).rmwResult e op (s.homeBytes e) = .error z) :
    Faults s a n e z := by
  obtain ⟨t, ht, h1, h2, h3⟩ := exec_rmwPerform_error he hk hv hb ho hl hd (c := z)
    (by rw [← hr, State.homeBytes, List.map_map]; rfl)
  exact ⟨t, ht, h1, h2, by rw [h3, State.homeBytes, List.map_map]; rfl⟩

/-- What arrivals at a flat object do. -/
theorem arrives_flat {v : Option (BitVec 16)} {c who : Nat} {b : Option Nat} {x : BitVec 256}
    (hop : op = .arrive v c who b) (hx : x = BitVec.ofNat 256 (leNat (s.homeBytes e))) (hleg : LegalObject x)
    (ht : bitAt x 19 = false) {p q : BitVec 16} (hp : p = bits x 0 16 + 1) (hq : q = v.getD p) :
    (bitAt x 23 = true → Faults s a n e .barrange) ∧
      (bitAt x 23 = false → 3 < (q - p).toNat → Faults s a n e .barrange) ∧
      (bitAt x 23 = false → (q - p).toNat ≤ 3 → (BarObj.ofBits x).remOf q < c → Faults s a n e .barcnt) ∧
      (bitAt x 23 = false → (q - p).toNat ≤ 3 → c ≤ (BarObj.ofBits x).remOf q →
        ¬(q = p ∧ c = (BarObj.ofBits x).remOf q) → (BarObj.ofBits x).remOf p ≠ 0 →
          Performs s a n e fun _ z => CountChanged x z q ((BarObj.ofBits x).remOf q - c) (bits x 0 16)) ∧
      (bitAt x 23 = false → q = p → c = (BarObj.ofBits x).remOf p → (BarObj.ofBits x).remOf (p + 1) ≠ 0 →
          Performs s a n e fun _ z => CountChanged x z p (bits x 64 32).toNat p) := by
  subst hop hp hq
  have hflat (hxh : bitAt x 23 = false) := arrive_flat (BarObj.ofBits x) e.va ((s.ctx? who).getD Ctx.blank) v c b ht hxh
  have hlt (r : BitVec 16) : (BarObj.ofBits x).remOf r < 2 ^ 32 := by
    rw [BarObj.remOf_ofBits]
    exact BitVec.isLt _
  have hexp : (BarObj.ofBits x).exp < 2 ^ 32 := BitVec.isLt _
  refine ⟨fun hxh => ?_, fun hxh h3 => ?_, fun hxh h3 hc => ?_, fun hxh h3 hc hn h0 => ?_, fun hxh hqp hc h0 => ?_⟩
  · exact faults_arrive he hk hv hb ho hl hd (rmwResult_error hx hleg (arrive_exhausted _ _ _ _ _ _ ht hxh))
  · exact faults_arrive he hk hv hb ho hl hd (rmwResult_error hx hleg ((hflat hxh).trans (if_pos h3)))
  · refine faults_arrive he hk hv hb ho hl hd (rmwResult_error hx hleg ((hflat hxh).trans ?_))
    exact (if_neg (Nat.not_lt.2 h3)).trans (if_pos hc)
  · have hm : (BarObj.ofBits x).remOf (v.getD (bits x 0 16 + 1)) - c < 2 ^ 32 := (Nat.sub_le _ _).trans_lt (hlt _)
    subst hx
    refine performs_lowers he hk hv hb ho hl hd rfl hleg ?_
      ((hflat hxh).trans ((if_neg (Nat.not_lt.2 h3)).trans (if_neg (Nat.not_lt.2 hc)))) fun _ _ => ?_
    · exact BarObj.complete_setRem _ _ hm h0 h3 fun h => hn ⟨h.1, Nat.le_antisymm hc (Nat.sub_eq_zero_iff_le.1 h.2)⟩
    · exact BarObj.countChanged_setRem hleg _ hm
  · have h3 : ¬ 3 < (v.getD (bits x 0 16 + 1) - (bits x 0 16 + 1)).toNat := by
      rw [hqp, BitVec.sub_self]
      decide
    obtain rfl := hx
    set x := BitVec.ofNat 256 (leNat (s.homeBytes e))
    let p := bits x 0 16 + 1
    let o := (BarObj.ofBits x).setRem p 0
    have hne : ¬ (p + 1).toNat % 4 = p.toNat % 4 := by
      generalize p = p
      bv_omega
    have hcomp : o.complete 4 = BarObj.setRem { o with last := p } p o.exp :=
      BarObj.complete_once o ht (by rw [BarObj.remOf_setRem _ _ _ (by decide)]; exact if_pos rfl) hexp (by
        rw [BarObj.remOf_setRem _ _ _ (by decide)]
        exact fun hz => h0 ((if_neg hne).symm.trans hz))
    have hqp' : v.getD ((BarObj.ofBits x).last + 1) = (BarObj.ofBits x).last + 1 := hqp
    have hc' : c = (BarObj.ofBits x).remOf ((BarObj.ofBits x).last + 1) := hc
    have hflat := (hflat hxh).trans ((if_neg h3).trans (if_neg (by rw [hqp']; exact Nat.not_lt.2 hc'.le)))
    rw [hqp', ← hc', Nat.sub_self] at hflat
    have hrem (r : BitVec 16) : (BarObj.setRem { o with last := p } p o.exp).remOf r =
        if r.toNat % 4 = p.toNat % 4 then (bits x 64 32).toNat else (BarObj.ofBits x).remOf r := by
      refine (BarObj.remOf_setRem _ _ _ hexp).trans ?_
      split
      · rfl
      next h => exact (BarObj.remOf_setRem _ _ _ (by decide)).trans (if_neg h)
    refine performs_arrive he hk hv hb ho hl hd rfl hleg (hflat.trans (congrArg (fun o => Except.ok (o, _)) hcomp)) ?_ fun _ _ =>
      BarObj.countChanged hleg (BitVec.isLt _) rfl hrem
    have hopen : (BarObj.setRem { o with last := p } p o.exp).remOf (p + 1) ≠ 0 := by
      rw [hrem, if_neg hne]
      exact h0
    simp only [BarObj.endless, BarObj.last_setRem, hopen, decide_false, Bool.and_false]

/-- What arrivals at a tree-bound object do. -/
theorem arrives_tree {v : Option (BitVec 16)} {c who k : Nat} {x : BitVec 256} {y : Ctx}
    (hop : op = .arrive v c who (some k)) (hx : x = BitVec.ofNat 256 (leNat (s.homeBytes e))) (hleg : LegalObject x)
    (ht : bitAt x 19 = true) (hy : s.ctx? who = some y) {p q : BitVec 16} (hp : p = bits x 0 16 + 1)
    (hq : q = (y.branch k).barph) :
    (y.isDead k = true → Performs s a n e fun _ z => z = x) ∧
      (y.isDead k = false → bitAt x 23 = false → (y.branch k).bar ≠ some e.va → Faults s a n e .bartree) ∧
      (y.isDead k = false → bitAt x 23 = false → (y.branch k).bar = some e.va → c = 1 → v.getD q = q → (q - p).toNat ≤ 3 →
        1 ≤ (BarObj.ofBits x).remOf q → (BarObj.ofBits x).remOf p ≠ 0 → ¬(q = p ∧ (BarObj.ofBits x).remOf q = 1) →
          Performs s a n e fun t z => CountChanged x z q ((BarObj.ofBits x).remOf q - 1) (bits x 0 16) ∧
            ∃ y, t.ctx? who = some y ∧ (y.branch k).barph = q + 1) := by
  subst hop hp hq
  have hgd : (s.ctx? who).getD Ctx.blank = y := by rw [hy]; rfl
  have hlt (r : BitVec 16) : (BarObj.ofBits x).remOf r < 2 ^ 32 := by
    rw [BarObj.remOf_ofBits]
    exact BitVec.isLt _
  refine ⟨fun hdead => ?_, fun hlive hxh hbar => ?_, fun hlive hxh hbar hc hvq h3 hr h0 hn => ?_⟩
  · subst hx
    refine performs_arrive he hk hv hb ho hl hd rfl hleg (o := BarObj.ofBits _)
      (by rw [hgd]; exact arrive_dead _ _ _ _ _ ht hdead) ?_ fun _ _ => BarObj.bits256_ofBits hleg
    have ht' : (BarObj.ofBits (BitVec.ofNat 256 (leNat (s.homeBytes e)))).tree = true := ht
    simp only [BarObj.endless, ht', Bool.not_true, Bool.false_and]
  · exact faults_arrive he hk hv hb ho hl hd (rmwResult_error hx hleg
      (by exact hgd ▸ arrive_stranger _ _ _ _ _ ht hxh hlive hbar))
  · have hm : (BarObj.ofBits x).remOf (y.branch k).barph - 1 < 2 ^ 32 := (Nat.sub_le _ _).trans_lt (hlt _)
    subst hx hc
    refine performs_lowers he hk hv hb ho hl hd rfl hleg ?_
      (by rw [hgd]; exact arrive_member _ _ _ _ ht hxh hlive hbar hvq h3 hr) fun t hz => ⟨?_, ?_⟩
    · exact BarObj.complete_setRem _ _ hm h0 h3 fun h => hn ⟨h.1, Nat.le_antisymm (Nat.sub_eq_zero_iff_le.1 h.2) hr⟩
    · exact BarObj.countChanged_setRem hleg _ hm
    · obtain ⟨z, hz, hzb⟩ := hz y hy
      refine ⟨z, hz, ?_⟩
      rw [Ctx.branch, hzb, Ctx.setBranch, Tab.getD_put_self]

/-- What `bnew`'s RMW makes of a flat descriptor. -/
theorem creates_flat {x : BitVec 256} (hop : op = .create x) (hf : bitAt x 19 = false) :
    Performs s a n e fun t z => bits z 0 16 = bits x 0 16 - 1 ∧ bits z 16 4 = 0 ∧ bits z 20 3 = bits x 16 3 ∧
      bits z 23 41 = 0 ∧ bits z 64 32 = bits x 32 32 ∧ bits z 96 32 = 0 ∧
      (∀ k y, s.ctx? k = some y → ∃ y', t.ctx? k = some y' ∧ y'.branches = y.branches) ∧
      ∀ r : BitVec 16, (bits z (128 + 32 * (r.toNat % 4)) 32).toNat = (bits x 32 32).toNat := by
  subst hop
  obtain ⟨h1, h2, h3, h4, h5, h6, h7⟩ := BarObj.bits256_ofDescriptor hf
  have hr : (s.setAgent a (s.taken a n)).rmwResult e (.create x) (s.homeBytes e) =
      .ok ((BarObj.ofDescriptor (bits x 0 64)).toBytes, s.setAgent a (s.taken a n)) := by
    have hf' : (BarObj.ofDescriptor (bits x 0 64)).tree = false := by
      simpa [BarObj.ofDescriptor, bitAt, bits] using hf
    simp only [State.rmwResult, State.createObject, hf', Bool.not_false, if_true]
  refine performs_object he hk hv hb ho hl hd hr rfl rfl fun t ht => ⟨h1, h2, h3, h4, h5, h6, fun k y hy => ?_, h7⟩
  obtain ⟨z, hz, hzb⟩ := ctx_written (s := s.setAgent a (s.taken a n)) (keys := e.pieces.map Piece.key) hy
  exact ⟨z, by rw [← hz, State.ctx?, State.ctx?, ht], hzb⟩

end

/-- A value that returns goes to its destination and nowhere else. -/
theorem loadReturn_gives (s : State) (a n : Nat) (r : Ret) (h : (s.agent a).rets[n]? = some r) :
    ∃ t, exec (.loadReturn a n) s = .next t ∧
      (∀ q pv d, r.dest = .sreg q pv d false → d ≠ 0 → r.bytes.length = 8 →
        t.mem = s.mem ∧ t.planes = s.planes ∧ (t.agent a).rets = (s.agent a).rets.eraseIdx n ∧
        vget (if pv then (t.seq q).bank else (t.seq q).user) d.toNat 0 = BitVec.ofNat 64 (leNat r.bytes) ∧
        bitAt (if pv then (t.seq q).outP else (t.seq q).outU) d.toNat = false ∧
        (if pv then (t.seq q).user = (s.seq q).user else (t.seq q).bank = (s.seq q).bank) ∧
        (∀ i, i < 32 → i ≠ d.toNat →
          vget (if pv then (t.seq q).bank else (t.seq q).user) i 0 =
            vget (if pv then (s.seq q).bank else (s.seq q).user) i 0)) ∧
      (∀ k g, r.dest = .greg k g → t.mem = s.mem ∧
        (t.plane k).g = vput (s.plane k).g g.toNat (BitVec.ofNat 256 (leNat r.bytes)) ∧
        bitAt (t.seq (k / 4)).outG g.toNat = false ∧ RegsStay s t (k / 4)) ∧
      (∀ k g, r.dest = .creg k g → t.mem = s.mem ∧
        (t.plane k).c = vput (s.plane k).c g.toNat (BitVec.ofNat 256 (leNat r.bytes)) ∧
        bitAt (t.seq (k / 4)).outC g.toNat = false ∧ RegsStay s t (k / 4)) ∧
      (∀ q ip m id hit got, r.dest = .wait q → (s.seq q).wait = .event ip m id hit got →
        t.mem = s.mem ∧ (t.seq q).wait = .event ip m id hit (some (r.bytes, r.bad)) ∧ RegsStay s t q) := by
  have hrets : ((s.returned a n).agent a).rets = (s.agent a).rets.eraseIdx n := rets_returned
  refine ⟨_, exec_loadReturn h, fun q pv d hr hd _ => ?_, fun k g hr => ?_, fun k g hr => ?_, fun q ip m id hit got hr hw => ?_⟩
  · rw [giveTo_sreg hr]
    refine ⟨rfl, rfl, hrets, ?_⟩
    rw [State.seq_setSeq_self]
    cases pv with
    | false =>
      obtain ⟨hu, hb, ho⟩ := Seq.received_user ((s.returned a n).seq q) d (BitVec.ofNat 64 (leNat r.bytes)) hd
      simp only [Bool.false_eq_true, if_false]
      exact ⟨by rw [hu, vget_vput_self _ _ _ _ d.isLt], ho, hb, fun i _ hne => by rw [hu, vget_vput_ne _ _ _ _ _ hne]; rfl⟩
    | true =>
      obtain ⟨hu, hb, ho⟩ := Seq.received_bank ((s.returned a n).seq q) d (BitVec.ofNat 64 (leNat r.bytes)) hd
      simp only [if_true]
      exact ⟨by rw [hu, vget_vput_self _ _ _ _ d.isLt], ho, hb, fun i _ hne => by rw [hu, vget_vput_ne _ _ _ _ _ hne]; rfl⟩
  · rw [giveTo_greg hr]
    refine ⟨rfl, by simp; rfl, ?_, ?_⟩
    · rw [State.seq_setSeq_self, bitAt_setBit _ _ _ g.isLt, if_pos rfl]
    · unfold RegsStay
      rw [State.seq_setSeq_self]
      exact ⟨rfl, rfl⟩
  · rw [giveTo_creg hr]
    refine ⟨rfl, by simp; rfl, ?_, ?_⟩
    · rw [State.seq_setSeq_self, bitAt_setBit _ _ _ (by have := g.isLt; omega), if_pos rfl]
    · unfold RegsStay
      rw [State.seq_setSeq_self]
      exact ⟨rfl, rfl⟩
  · rw [giveTo_wait hr]
    have hwr : ((s.returned a n).seq q).waitReturn r = (s.seq q).setWait (.event ip m id hit (some (r.bytes, r.bad))) := by
      have hw' : ((s.returned a n).seq q).wait = .event ip m id hit got := hw
      simp only [Seq.waitReturn, hw']
      rfl
    rw [hwr]
    unfold RegsStay
    rw [State.seq_setSeq_self, Seq.wait_setWait, Seq.setWait_user, Seq.setWait_bank]
    exact ⟨rfl, rfl, rfl, rfl⟩

/-- Settles O21: each RMW is one append of what `rmwResult` makes of the bytes it reads, and a value that returns is given to
its destination. -/
theorem rmwsAndReturns : Obligations.RmwsAndReturns := by
  unfold Obligations.RmwsAndReturns
  refine ⟨fun s a n e op fl sg x c he hk => ⟨exec_rmwPerform_void he hk, fun hv hb ho hd hl =>
    rmwPerform_atomic s a n e op fl sg x c he hk hv hb ho hd hl, exec_rmwPerform_waits he hk⟩,
    fun s a n e op he hk _ hd hv hb ho hl => ⟨fun x hop hf => creates_flat he hk hv hb ho hl hd hop hf,
      fun v c who b hop => ⟨fun hill => ?_, fun hleg ht => ?_, fun k y hleg ht hbk hwho => ?_⟩⟩,
    loadReturn_gives⟩
  · subst hop
    exact faults_arrive he hk hv hb ho hl hd (rmwResult_illegal rfl hill)
  · have h := arrives_flat he hk hv hb ho hl hd hop rfl hleg ht rfl rfl
    simp only [BarObj.remOf_ofBits] at h
    exact h
  · subst hbk
    have h := arrives_tree he hk hv hb ho hl hd hop rfl hleg ht hwho rfl rfl
    simp only [BarObj.remOf_ofBits] at h
    exact h

end Sys2Proof.Machine
end

