-- ==== Sys2Proof/Proofs/Translation.lean ====
section
/-!
PROOFS. O22: what translations answer, walks and copies of pages.
-/

namespace Sys2Proof.Machine

/-! ### What a translation answers (R196, R201, R252) -/

section
variable {s : State} {req board region ctx va : Nat} {c : Ctx} {use : Use} (hc : s.ctx? ctx = some c) (hkv : c.kvWindow = none)
include hc hkv

/-- Outside every KV window the tables answer. -/
theorem translate_tables : s.translate req board region ctx va use =
    State.translate.byTables s req board region ctx va use c (s.region region).wwin.toNat := by
  simp only [State.translate, hc, hkv]

theorem translate_weights (h : (s.region region).wwin.toNat ≠ 0 ∧ (s.region region).wwin.toNat ≤ va ∧
    va < (s.region region).wwin.toNat + 2 ^ 23) :
    s.translate req board region ctx va use = if use = .copyRead
      then .ok { key := weightStart + region * weightBytes + (va - (s.region region).wwin.toNat)
                 leaf := Leaf.make c.key 2 false false 1 false 0 0b0011 }
      else .fault .prot := by
  obtain ⟨h0, h1, h2⟩ := h
  rw [translate_tables hc hkv, State.translate.byTables]
  simp only [bne_iff_ne.2 h0, h1, h2, decide_true, Bool.and_self, if_true, beq_iff_eq]

/-- An address that no window and no mail slot holds: its entry decides. -/
theorem translate_entry (h : ¬((s.region region).wwin.toNat ≠ 0 ∧ (s.region region).wwin.toNat ≤ va ∧
    va < (s.region region).wwin.toNat + 2 ^ 23)) (hm : c.inMail ctx va = false) {e : Cached}
    (he : s.lookup req board ctx (va / 2 ^ 16) = some e) :
    s.translate req board region ctx va use =
      (e.bad <|> leafFault c.key use e.leaf).elim
        (if (use = .write ∨ use = .atomic) ∧ Leaf.cow e.leaf = true then .copy
          else if use = .fetch ∧ s.codeBarred c (leafKey e.leaf va) = true then .fault .prot
          else .ok { key := leafKey e.leaf va, leaf := e.leaf }) .fault := by
  have hw : ((s.region region).wwin.toNat != 0 && decide ((s.region region).wwin.toNat ≤ va) &&
      decide (va < (s.region region).wwin.toNat + 2 ^ 23)) = false := by
    by_contra hc
    simp only [Bool.not_eq_false, Bool.and_eq_true, bne_iff_ne, decide_eq_true_eq] at hc
    exact h ⟨hc.1.1, hc.1.2, hc.2⟩
  rw [translate_tables hc hkv, State.translate.byTables]
  simp only [hw, hm, he, Bool.false_eq_true, if_false]
  cases hb : e.bad with
  | some x => rfl
  | none =>
    cases hl : leafFault c.key use e.leaf with
    | some x => rfl
    | none =>
      simp only [Bool.and_eq_true, Bool.or_eq_true, beq_iff_eq]
      rfl

end

/-- A leaf lacks what an access needs: the context's key, a permission, or memory that is no weight SRAM (Table 8-4). -/
def Leaf.Lacks (key : Nat) (use : Use) (l : Word) : Prop :=
  (Leaf.key l).toNat ≠ key ∨ (Leaf.mkind l = 2 ∧ use ≠ .copyRead) ∨
    (match use with
      | .read | .copyRead => Leaf.r l = false
      | .write => Leaf.w l = false
      | .fetch => Leaf.x l = false
      | .atomic => Leaf.r l = false ∨ Leaf.w l = false)

section
variable {key : Nat} {use : Use} {l : Word}

theorem leafFault_lacks (h : Leaf.Lacks key use l) : leafFault key use l = some .prot := by
  unfold leafFault Leaf.Lacks at *
  by_cases hk : (Leaf.key l).toNat = key
  · by_cases hm : Leaf.mkind l = 2 <;> cases use <;> simp_all
  · simp [hk]

theorem leafFault_has (h : ¬ Leaf.Lacks key use l) :
    leafFault key use l = if use = .atomic ∧ Leaf.mkind l = 4 then some .hostatom else none := by
  unfold leafFault Leaf.Lacks at *
  by_cases hk : (Leaf.key l).toNat = key
  · cases use <;> simp_all
  · exact absurd (Or.inl hk) h

end

theorem leafKey_eq (l : Word) (va : Nat) : leafKey l va = physKey (Leaf.mkind l)
    (if Leaf.lg l then Leaf.frame l / 32 * 2 ^ 21 + va % 2 ^ 21 else Leaf.frame l * 2 ^ 16 + va % 2 ^ 16) := by
  unfold leafKey
  split <;> rfl

/-- R196, R201, R252, R309: what a translation answers. -/
theorem translate_answers (s : State) (req board region ctx va : Nat) (c : Ctx) (use : Use) (hc : s.ctx? ctx = some c)
    (hkv : c.kvWindow = none) (hm : c.inMail ctx va = false) :
    let answer := s.translate req board region ctx va use
    let ww := (s.region region).wwin.toNat
    let inWindow := ww ≠ 0 ∧ ww ≤ va ∧ va < ww + 2 ^ 23
    (inWindow → use ≠ .copyRead → answer = .fault .prot) ∧
    (inWindow → use = .copyRead → ∃ p, answer = .ok p ∧ p.key = weightStart + region * 2 ^ 23 + (va - ww)) ∧
    (¬inWindow → ∀ e, s.lookup req board ctx (va / 2 ^ 16) = some e →
      (∀ x, e.bad = some x → answer = .fault x) ∧
      (e.bad = none → Leaf.Lacks c.key use e.leaf → answer = .fault .prot) ∧
      (e.bad = none → ¬Leaf.Lacks c.key use e.leaf → use = .atomic → Leaf.mkind e.leaf = 4 → answer = .fault .hostatom) ∧
      (e.bad = none → ¬Leaf.Lacks c.key use e.leaf → (use = .write ∨ use = .atomic ∧ Leaf.mkind e.leaf ≠ 4) →
        Leaf.cow e.leaf = true → answer = .copy) ∧
      (e.bad = none → ¬Leaf.Lacks c.key use e.leaf → (use = .read ∨ use = .copyRead ∨
          (use = .write ∨ use = .atomic ∧ Leaf.mkind e.leaf ≠ 4) ∧ Leaf.cow e.leaf = false) →
        ∃ p, answer = .ok p ∧ p.leaf = e.leaf ∧ p.key = physKey (Leaf.mkind e.leaf)
          (if Leaf.lg e.leaf then Leaf.frame e.leaf / 32 * 2 ^ 21 + va % 2 ^ 21
            else Leaf.frame e.leaf * 2 ^ 16 + va % 2 ^ 16))) := by
  refine ⟨fun hw hu => (translate_weights hc hkv hw).trans (if_neg hu), fun hw hu =>
    ⟨_, (translate_weights hc hkv hw).trans (if_pos hu), rfl⟩, fun hw e he => ?_⟩
  have ht := translate_entry (use := use) hc hkv hw hm he
  refine ⟨fun x hx => ?_, fun hb hl => ?_, fun hb hl hu hk => ?_, fun hb hl hu hcow => ?_, fun hb hl hu => ?_⟩
  · rw [ht, hx]
    rfl
  · rw [ht, hb, leafFault_lacks hl]
    rfl
  · rw [ht, hb, leafFault_has hl, if_pos ⟨hu, hk⟩]
    rfl
  · have hnh : ¬(use = .atomic ∧ Leaf.mkind e.leaf = 4) := by
      rintro ⟨rfl, hk⟩
      exact hu.elim nofun fun h => h.2 hk
    rw [ht, hb, leafFault_has hl, if_neg hnh]
    exact if_pos ⟨hu.imp_right And.left, hcow⟩
  · have hnh : ¬(use = .atomic ∧ Leaf.mkind e.leaf = 4) := by
      rintro ⟨rfl, hk⟩
      simp [hk] at hu
    have hnc : ¬((use = .write ∨ use = .atomic) ∧ Leaf.cow e.leaf = true) := by
      rintro ⟨rfl | rfl, hcow⟩ <;> simp [hcow] at hu
    have hnf : ¬(use = .fetch ∧ s.codeBarred c (leafKey e.leaf va) = true) := by
      rintro ⟨rfl, -⟩
      simp at hu
    refine ⟨{ key := leafKey e.leaf va, leaf := e.leaf }, ?_, rfl, leafKey_eq _ _⟩
    rw [ht, hb, leafFault_has hl, if_neg hnh]
    exact (if_neg hnc).trans (if_neg hnf)

/-! ### Caches (R197) -/

/-- An entry just added is the one that its page finds. -/
theorem entryFor_cacheAdd (limit pick : Nat) (l : List Cached) (e : Cached) :
    entryFor (cacheAdd limit pick l e) e.ctx e.page = some e := by
  have hkeep (l' : List Cached) (h : ∀ x ∈ l', ¬(x.ctx = e.ctx ∧ x.page = e.page)) :
      entryFor (l' ++ [e]) e.ctx e.page = some e := by
    have hf : (l' ++ [e]).find? (fun x => decide (x.ctx = e.ctx) && decide (x.page = e.page)) = some e := by
      rw [List.find?_append, List.find?_eq_none.2 fun x hx hx' => h x hx (by simpa using hx')]
      simp
    unfold entryFor
    rw [hf]
  have hmem : ∀ x ∈ l.filter (fun x => !(decide (x.ctx = e.ctx) && decide (x.page = e.page))),
      ¬(x.ctx = e.ctx ∧ x.page = e.page) := fun x hx => by
      have := (List.mem_filter.1 hx).2
      simp only [Bool.not_eq_true', Bool.and_eq_false_iff, decide_eq_false_iff_not] at this
      exact not_and_or.2 this
  unfold cacheAdd
  dsimp only
  refine hkeep _ fun x hx => hmem x ?_
  split at hx
  · exact List.mem_of_mem_eraseIdx hx
  · exact hx

/-- What `fill` leaves, and what its requesters find then. -/
theorem fill_spec (e : Cached) (l : List Nat) (s : State) :
    s.fill l e = { s with tlbs := (s.fill l e).tlbs, frees := (s.fill l e).frees } ∧
      ∀ r, (r ∈ l ∨ entryFor (Tab.getD s.tlbs r []) e.ctx e.page = some e) →
        entryFor (Tab.getD (s.fill l e).tlbs r []) e.ctx e.page = some e := by
  induction l generalizing s with
  | nil => exact ⟨rfl, fun r h => h.resolve_left List.not_mem_nil⟩
  | cons q l ih =>
    obtain ⟨h1, h2⟩ := ih { s with
      tlbs := Tab.put s.tlbs q (cacheAdd 64 (Config.freeIndex s.frees) (Tab.getD s.tlbs q []) e), frees := s.frees + 1 }
    refine ⟨h1, fun r hr => h2 r ?_⟩
    by_cases hrq : r = q
    · subst hrq
      exact .inr (by rw [Tab.getD_put_self]; exact entryFor_cacheAdd _ _ _ _)
    · refine hr.imp (fun h => (List.mem_cons.1 h).resolve_left hrq) fun h => ?_
      rw [Tab.getD_put_ne _ _ _ _ _ hrq]
      exact h

theorem SameButRegions.chargeAt (s : State) (r : Option Nat) (k n : Nat) : SameButRegions s (s.chargeAt r k n) := by
  have hask (pj : Nat) : SameButRegions s (match r with | some r => s.charge r (pj * n) | none => s) := by cases r <;> rfl
  unfold State.chargeAt
  dsimp only
  split
  · rfl
  · rfl
  · exact hask 160
  · exact hask 300
  · rfl

theorem SameButRegions.chargeWalk (s : State) (w : Walk) : SameButRegions s (s.chargeWalk w) := by
  unfold State.chargeWalk
  split
  · rfl
  · exact SameButRegions.chargeAt _ _ _ _

theorem lookup_of_tlbs {s : State} {r board ctx page : Nat} {e : Cached}
    (h : entryFor (Tab.getD s.tlbs r []) ctx page = some e) : s.lookup r board ctx page = some e := by
  simp only [State.lookup, h]

/-- A walk's end enters its translation or fault into the caches of its requesters, and changes no byte. -/
theorem walkEnd_spec (s : State) (w : Walk) (leaf : Except Cause Word) :
    (s.walkEnd w leaf).walks = s.walks ∧ (s.walkEnd w leaf).mem = s.mem ∧
      ∀ r ∈ w.requesters, entryFor (Tab.getD (s.walkEnd w leaf).tlbs r []) w.ctx w.page =
        some (match leaf with
          | .error x => { ctx := w.ctx, page := w.page, leaf := 0, bad := some x }
          | .ok l => { ctx := w.ctx, page := w.page, leaf := l, bad := none }) := by
  cases leaf with
  | error x =>
    obtain ⟨h1, h2⟩ := fill_spec { ctx := w.ctx, page := w.page, leaf := 0, bad := some x } w.requesters s
    exact ⟨(congrArg State.walks h1 :), (congrArg State.mem h1 :), fun r hr => h2 r (.inl hr)⟩
  | ok l =>
    obtain ⟨h1, h2⟩ := fill_spec { ctx := w.ctx, page := w.page, leaf := l, bad := none } w.requesters s
    exact ⟨(congrArg State.walks h1 :), (congrArg State.mem h1 :), fun r hr => h2 r (.inl hr)⟩

/-! ### Walks (R197 to R200) -/

section
variable {s : State} {n : Nat} {w : Walk} {c : Ctx} (hw : s.walks[n]? = some w) (hcopy : w.copy = false)
  (hgrant : w.granted = true) (hdrop : w.dropped = false) (hc : s.ctx? w.ctx = some c)

/-- The walk goes on as x. -/
def WalkGoes (s : State) (n : Nat) (x : Walk) : Prop :=
  ∃ t, exec (.walkComplete n) s = .next t ∧ t.walks = s.walks.set n x ∧ t.mem = s.mem ∧ t.tlbs = s.tlbs ∧ t.units = s.units

/-- The walk ends with a leaf or a fault, which enters the caches of all who wait for it. -/
def WalkEnds (s : State) (n : Nat) (w : Walk) (l : Word) (bad : Option Cause) : Prop :=
  ∃ t, exec (.walkComplete n) s = .next t ∧ t.walks = s.walks.eraseIdx n ∧ t.mem = s.mem ∧
    ∀ r ∈ w.requesters, t.lookup r w.board w.ctx w.page = some { ctx := w.ctx, page := w.page, leaf := l, bad }

/-- What the leaf that decides a page makes of a walk (Table 8-5). -/
def WalkDecides (s : State) (n : Nat) (w : Walk) (l : Word) : Prop :=
  (Leaf.v l = false → WalkEnds s n w 0 (some .page)) ∧
  (Leaf.v l = true → Leaf.reserved l = true → WalkEnds s n w 0 (some .pteres)) ∧
  (Leaf.v l = true → Leaf.reserved l = false → WalkEnds s n w l none)

include hw hcopy hgrant hdrop hc

theorem walk_goes {x : Walk} (h : s.walkRead w = .on x) : WalkGoes s n x := by
  have hx : exec (.walkComplete n) s = .next ({ s with walks := putAt s.walks n x }.chargeWalk w) := by
    show execWalkComplete n s = _
    simp only [execWalkComplete, hw, hcopy, hgrant, hdrop, hc, h, Bool.not_true, Bool.or_self, Bool.false_eq_true, if_false,
      Option.isNone_some]
  refine ⟨_, hx, ?_⟩
  rw [show State.chargeWalk _ w = _ from SameButRegions.chargeWalk _ w]
  exact ⟨rfl, rfl, rfl, rfl⟩

theorem walk_done {leaf : Except Cause Word} (h : s.walkRead w = .done leaf) :
    exec (.walkComplete n) s = .next (({ s with walks := s.walks.eraseIdx n }.walkEnd w leaf).chargeWalk w) := by
  show execWalkComplete n s = _
  simp only [execWalkComplete, hw, hcopy, hgrant, hdrop, hc, h, Bool.not_true, Bool.or_self, Bool.false_eq_true, if_false,
    Option.isNone_some]
  rfl

theorem walk_ends {leaf : Except Cause Word} (h : s.walkRead w = .done leaf) :
    WalkEnds s n w (leaf.toOption.getD 0) (match leaf with | .error x => some x | .ok _ => none) := by
  refine ⟨_, walk_done hw hcopy hgrant hdrop hc h, ?_⟩
  obtain ⟨h1, h2, h3⟩ := walkEnd_spec { s with walks := s.walks.eraseIdx n } w leaf
  rw [show State.chargeWalk _ w = _ from SameButRegions.chargeWalk _ w]
  refine ⟨h1, h2, fun r hr => lookup_of_tlbs ((h3 r hr).trans ?_)⟩
  cases leaf <;> rfl

theorem walk_decides {l : Word} (h : s.walkRead w = .done (leafEnd l)) : WalkDecides s n w l := by
  refine ⟨fun hv => ?_, fun hv hr => ?_, fun hv hr => ?_⟩
  · have hl : leafEnd l = .error .page := by simp only [leafEnd, hv, Bool.not_false, if_true]
    exact walk_ends hw hcopy hgrant hdrop hc (h.trans (congrArg _ hl))
  · have hl : leafEnd l = .error .pteres := by simp only [leafEnd, hv, hr, Bool.not_true, Bool.false_eq_true, if_false, if_true]
    exact walk_ends hw hcopy hgrant hdrop hc (h.trans (congrArg _ hl))
  · have hl : leafEnd l = .ok l := by simp only [leafEnd, hv, hr, Bool.not_true, Bool.false_eq_true, if_false]
    exact walk_ends hw hcopy hgrant hdrop hc (h.trans (congrArg _ hl))

/-- The walk of an upper level. -/
theorem walk_upper (hf : w.found = none) (hl : w.level < 4) :
    let x := s.tableEntry w.table (w.page * 2 ^ 16 / 2 ^ (16 + 9 * (4 - w.level)) % 512)
    (bitAt x 0 = false → WalkEnds s n w 0 (some .page)) ∧
    (bitAt x 0 = true → (bits x 1 11 ≠ 0 ∨ bits x 48 16 ≠ 0) → WalkEnds s n w 0 (some .pteres)) ∧
    (bitAt x 0 = true → bits x 1 11 = 0 → bits x 48 16 = 0 →
      WalkGoes s n { w with level := w.level + 1, table := (bits x 12 36).toNat * 4096 }) := by
  intro x
  have herr {z : Cause} (hz : upperEntry x = .error z) : s.walkRead w = .done (.error z) := by
    simp only [State.walkRead, hf, if_pos hl, levelIndex]
    rw [show upperEntry _ = _ from hz]
  have hok {t : Nat} (hz : upperEntry x = .ok t) : s.walkRead w = .on { w with level := w.level + 1, table := t } := by
    simp only [State.walkRead, hf, if_pos hl, levelIndex]
    rw [show upperEntry _ = _ from hz]
  refine ⟨fun hv => ?_, fun hv hb => ?_, fun hv h1 h2 => ?_⟩
  · exact walk_ends hw hcopy hgrant hdrop hc (herr (by simp only [upperEntry, hv, Bool.not_false, if_true]))
  · refine walk_ends hw hcopy hgrant hdrop hc (herr (z := .pteres) ?_)
    simp only [upperEntry, hv, Bool.not_true, Bool.false_eq_true, if_false]
    exact if_pos (by simpa only [Bool.or_eq_true, bne_iff_ne] using hb.symm)
  · refine walk_goes hw hcopy hgrant hdrop hc (hok ?_)
    simp only [upperEntry, hv, h1, h2, Bool.not_true, bne_self_eq_false, Bool.or_self, Bool.false_eq_true, if_false]

/-- The first leaf of a page's group. -/
theorem walk_group (hf : w.found = none) (hl : w.level = 4) :
    let first := s.tableEntry w.table (w.page % 512 / 32 * 32)
    (Leaf.lg first = true → WalkGoes s n { w with found := some first }) ∧
    (Leaf.lg first = false → w.page % 512 % 32 ≠ 0 → WalkGoes s n { w with level := 5 }) ∧
    (Leaf.lg first = false → w.page % 512 % 32 = 0 → WalkDecides s n w first) := by
  intro first
  have hi : levelIndex (w.page * 2 ^ 16) 4 = w.page % 512 := by
    unfold levelIndex
    omega
  have hr : s.walkRead w = if Leaf.lg first then .on { w with found := some first }
      else if w.page % 512 % 32 = 0 then .done (leafEnd first) else .on { w with level := 5 } := by
    simp only [State.walkRead, hf, hl, hi, Nat.lt_irrefl, if_true, if_false]
    rfl
  refine ⟨fun h => ?_, fun h hm => ?_, fun h hm => ?_⟩
  · exact walk_goes hw hcopy hgrant hdrop hc (hr.trans (if_pos h))
  · exact walk_goes hw hcopy hgrant hdrop hc (hr.trans ((if_neg (by rw [h]; decide)).trans (if_neg hm)))
  · exact walk_decides hw hcopy hgrant hdrop hc (hr.trans ((if_neg (by rw [h]; decide)).trans (if_pos hm)))

theorem walk_own (hf : w.found = none) (hl : w.level = 5) :
    WalkDecides s n w (s.tableEntry w.table (w.page % 512) &&& ~~~((1 : Word) <<< 48)) := by
  have hi : levelIndex (w.page * 2 ^ 16) 4 = w.page % 512 := by
    unfold levelIndex
    omega
  refine walk_decides hw hcopy hgrant hdrop hc ?_
  simp only [State.walkRead, hf, hl, hi, Nat.reduceEqDiff, if_false]
  exact if_neg (by decide)

theorem walk_found {l : Word} (hf : w.found = some l) : WalkDecides s n w l := by
  refine walk_decides hw hcopy hgrant hdrop hc ?_
  simp only [State.walkRead, hf]

end

/-! ### Parking entries (R198) -/

/-- The first element that passes the test is changed, and no other. -/
theorem updateFirst_append {β : Type} {test : β → Bool} (g : β → β) {pre : List β} {x : β} (post : List β)
    (hpre : ∀ y ∈ pre, test y = false) (hx : test x = true) :
    updateFirst test g (pre ++ x :: post) = pre ++ g x :: post := by
  induction pre with
  | nil => simp only [List.nil_append, updateFirst, hx, if_true]
  | cons y pre ih =>
    simp only [List.cons_append, updateFirst, hpre y List.mem_cons_self, Bool.false_eq_true, if_false,
      ih fun z hz => hpre z (List.mem_cons_of_mem _ hz)]

theorem exec_parkingEntryGrant {s : State} {board : Nat} {w : Walk} {pre post : List Walk} (hs : s.walks = pre ++ w :: post)
    (hb : w.board = board) (hg : w.granted = false) (hpre : ∀ x ∈ pre, x.board = board → x.granted = true)
    (hroom : (s.walks.filter fun w => w.board = board && w.granted).length < 256) :
    exec (.parkingEntryGrant board) s = .next { s with walks := pre ++ ({ w with granted := true } :: post) } := by
  show execParkingEntryGrant board s = _
  unfold execParkingEntryGrant
  rw [if_neg (Nat.not_le.2 hroom), hs, updateFirst_append]
  · intro x hx
    by_cases hxb : x.board = board
    · simp [hxb, hpre x hx hxb]
    · simp [hxb]
  · simp [hb, hg]

/-! ### Copy on write (R198) -/

section
variable (key : Nat) (kind : BitVec 3) (bsh cow : Bool) (ord : BitVec 2) (lg : Bool) (frame : Nat) (perm : BitVec 4)

theorem Leaf.cow_make : Leaf.cow (Leaf.make key kind bsh cow ord lg frame perm) = cow := by
  unfold Leaf.cow Leaf.make bitAt
  simp only [BitVec.getLsbD_append]
  cases cow <;> rfl

theorem Leaf.lg_make : Leaf.lg (Leaf.make key kind bsh cow ord lg frame perm) = lg := by
  unfold Leaf.lg Leaf.make bitAt
  simp only [BitVec.getLsbD_append]
  cases lg <;> rfl

theorem Leaf.frame_make : Leaf.frame (Leaf.make key kind bsh cow ord lg frame perm) = frame % 2 ^ 32 := by
  unfold Leaf.frame Leaf.make
  simp (disch := omega) only [bits, BitVec.extractLsb'_append_eq_of_le, BitVec.extractLsb'_append_eq_of_add_le, Nat.reduceSub]
  rw [BitVec.extractLsb'_eq_self, BitVec.toNat_ofNat]

theorem Leaf.perm_make : bits (Leaf.make key kind bsh cow ord lg frame perm) 0 4 = perm := bits_append_last _ _

end

/-- An entry that `forget` has dropped is in no cache. -/
theorem lookup_forget (s : State) (ctx page r board : Nat) : (s.forget ctx page).lookup r board ctx page = none := by
  have hkeep (l : List Cached) : entryFor (l.filter fun e => !(e.covers ctx page || (decide (e.ctx = ctx) && decide (e.page = page))))
      ctx page = none := by
    have h (p : Cached → Bool) (hp : ∀ e, p e = true → (e.covers ctx page || (decide (e.ctx = ctx) && decide (e.page = page))) = true) :
        (l.filter fun e => !(e.covers ctx page || (decide (e.ctx = ctx) && decide (e.page = page)))).find? p = none := by
      refine List.find?_eq_none.2 fun e he hpe => ?_
      have := (List.mem_filter.1 he).2
      rw [hp e hpe] at this
      exact absurd this (by decide)
    unfold entryFor
    rw [h _ fun e he => by rw [he, Bool.or_true]]
    exact h _ fun e he => by rw [he, Bool.true_or]
  have hget (t : Tab (List Cached)) (k : Nat) : entryFor (Tab.getD (t.map fun (q, l) => (q, l.filter fun e =>
      !(e.covers ctx page || (decide (e.ctx = ctx) && decide (e.page = page))))) k []) ctx page = none := by
    have hm := Tab.find?_mapValue t (fun _ l => l.filter fun e =>
      !(e.covers ctx page || (decide (e.ctx = ctx) && decide (e.page = page)))) k
    rw [Tab.getD, show Tab.find? _ k = _ from hm]
    cases Tab.find? t k with
    | none => rfl
    | some l => exact hkeep l
  simp only [State.lookup, State.forget, hget]

theorem exec_copyOnWrite {s s' : State} {n f a : Nat} {w : Walk} {c c' : Ctx} {l : Word}
    (hw : s.walks[n]? = some w) (hcopy : w.copy = true) (hg : w.granted = true) (hr : s.copyReady w = true)
    (hc : s.ctx? w.ctx = some c) (hkv : c.kvWindow = none) (ht : s.walkTables c (w.page * 2 ^ 16) = .ok (a, l))
    (hcow : Leaf.cow l = true) (hf : ({ s with walks := s.walks.eraseIdx n }).takeFrame w.ctx c = some (f, c', s')) :
    let new := Leaf.make (Leaf.key l).toNat c'.poolKind false false (Leaf.ordc l) false (c'.poolBase + f) (bits l 0 4)
    let bytes := if Leaf.lg l then splitLeaves l new (w.page % 32) else leBytes 8 new.toNat
    let u := (s'.copyFor w.agent (leafKey l (w.page * 2 ^ 16)) (c'.frameKey f)).forget w.ctx w.page
    exec (.copyOnWrite n) s = .next
      ({ u with mem := u.mem.poke 0 (keyed a bytes) }.chargeAt (agentRegion (Agent.ofKey w.agent)) a 1) := by
  have hc' : ({ s with walks := dropAt s.walks n } : State).ctx? w.ctx = some c := hc
  have ht' : ({ s with walks := dropAt s.walks n } : State).walkTables c (w.page * 2 ^ 16) = .ok (a, l) := ht
  have hf' : ({ s with walks := dropAt s.walks n } : State).takeFrame w.ctx c = some (f, c', s') := hf
  show execCopyOnWrite n s = _
  simp only [execCopyOnWrite, hw, hcopy, hg, hr, hc', hkv, State.copyTablePage, ht', hcow, hf', Bool.not_true, Bool.or_self,
    Bool.false_eq_true, if_false]

/-- A frame taken from a pool changes the frame's own count. -/
theorem takeFrame_spec {s s' : State} {k f : Nat} {c c' : Ctx} (h : s.takeFrame k c = some (f, c', s')) :
    s'.mem = s.mem ∧ s'.agents = s.agents ∧ c'.poolBase = c.poolBase := by
  unfold State.takeFrame at h
  split at h
  · exact absurd h nofun
  · cases h
    exact ⟨rfl, rfl, rfl⟩

/-- A page is copied as an agent reads it, whatever else the state holds. -/
theorem copyPage_same {s t : State} (hm : t.mem = s.mem) (ha : t.agents = s.agents) (x : Agent) (src dst : Nat) :
    t.copyPage x src dst = s.copyPage x src dst := by
  have hag : t.agent x.key = s.agent x.key := congrArg (fun m => Tab.getD m x.key AgentSt.empty) ha
  have hb : t.readByte x = s.readByte x := by
    funext k
    unfold State.readByte
    rw [hm, hag]
  have htag : t.readTag x = s.readTag x := by
    funext k
    unfold State.readTag
    rw [hm, hag]
  unfold State.copyPage
  rw [hm, hb, htag]

theorem copyFor_mem (s : State) (agent src dst : Nat) :
    (s.copyFor agent src dst).mem = s.copyPage (Agent.ofKey agent) src dst := by
  unfold State.copyFor
  dsimp only
  rw [State.mem_charge, State.mem_charge]

/-- The leaves of a split 2 MiB page. -/
def splitLeaf (l new : Word) (i k : Nat) : Word :=
  if k = i then new
  else Leaf.make (Leaf.key l).toNat (Leaf.mkind l) (Leaf.bsh l) (Leaf.cow l) (Leaf.ordc l) false
    (Leaf.frame l / 32 * 32 + k) (bits l 0 4)

/-- R198: the page of a write has a frame of its own. -/
theorem copyOnWrite_copies {s s' : State} {n f a : Nat} {w : Walk} {c c' : Ctx} {l : Word}
    (hw : s.walks[n]? = some w) (hcopy : w.copy = true) (hg : w.granted = true) (hr : s.copyReady w = true)
    (hc : s.ctx? w.ctx = some c) (hkv : c.kvWindow = none) (ht : s.walkTables c (w.page * 2 ^ 16) = .ok (a, l))
    (hcow : Leaf.cow l = true) (hf : ({ s with walks := s.walks.eraseIdx n }).takeFrame w.ctx c = some (f, c', s')) :
    ∃ t new bytes, exec (.copyOnWrite n) s = .next t ∧
      t.mem = (s.copyPage (Agent.ofKey w.agent) (leafKey l (w.page * 2 ^ 16)) (c'.frameKey f)).poke 0 (keyed a bytes) ∧
      Leaf.cow new = false ∧ Leaf.frame new = (c'.poolBase + f) % 2 ^ 32 ∧ bits new 0 4 = bits l 0 4 ∧
      (Leaf.lg l = false → bytes = leBytes 8 new.toNat) ∧
      (Leaf.lg l = true → ∃ leaf : Nat → Word, bytes = (List.range 32).flatMap (fun k => leBytes 8 (leaf k).toNat) ∧
        leaf (w.page % 32) = new ∧
        ∀ k, k < 32 → k ≠ w.page % 32 → Leaf.lg (leaf k) = false ∧ Leaf.cow (leaf k) = true ∧
          Leaf.frame (leaf k) = (Leaf.frame l / 32 * 32 + k) % 2 ^ 32 ∧ bits (leaf k) 0 4 = bits l 0 4) ∧
      (∀ r board, t.lookup r board w.ctx w.page = none) := by
  obtain ⟨hm, ha, -⟩ := takeFrame_spec hf
  let new := Leaf.make (Leaf.key l).toNat c'.poolKind false false (Leaf.ordc l) false (c'.poolBase + f) (bits l 0 4)
  refine ⟨_, new, if Leaf.lg l then splitLeaves l new (w.page % 32) else leBytes 8 new.toNat,
    exec_copyOnWrite hw hcopy hg hr hc hkv ht hcow hf, ?_, Leaf.cow_make _ _ _ _ _ _ _ _, Leaf.frame_make _ _ _ _ _ _ _ _,
    Leaf.perm_make _ _ _ _ _ _ _ _, fun h => if_neg (Bool.eq_false_iff.1 h), fun h => ?_, fun r board => ?_⟩
  · rw [State.mem_charge]
    show Memory.poke (State.copyFor s' _ _ _).mem _ _ = _
    rw [copyFor_mem, copyPage_same hm ha]
    rfl
  · refine ⟨splitLeaf l new (w.page % 32), if_pos h, if_pos rfl, fun k _ hk => ?_⟩
    rw [splitLeaf, if_neg hk, Leaf.lg_make, Leaf.cow_make, Leaf.frame_make, Leaf.perm_make]
    exact ⟨rfl, hcow, rfl, rfl⟩
  · rw [show State.chargeAt _ _ _ _ = _ from SameButRegions.chargeAt _ _ _ _]
    exact lookup_forget (State.copyFor s' _ _ _) _ _ _ _

/-- Settles O22: the entry that a translation finds decides it; a walk's reads follow `walkRead`; a copy is `copyPage` and the
new leaves. -/
theorem walksAndCopies : Obligations.WalksAndCopies := by
  unfold Obligations.WalksAndCopies
  refine ⟨fun s req board region ctx va c use hc hkv hm => ?_, fun s n board w c =>
    ⟨fun hw hcopy hg hd hc => ?_, fun pre post hs hb hg hpre hroom => exec_parkingEntryGrant hs hb hg hpre hroom⟩,
    fun s s' n f a w c c' l hw hcopy hg hr hc hkv ht hcow hf => copyOnWrite_copies hw hcopy hg hr hc hkv ht hcow hf⟩
  · exact translate_answers s req board region ctx va c use hc hkv hm
  · exact ⟨walk_upper hw hcopy hg hd hc, walk_group hw hcopy hg hd hc, walk_own hw hcopy hg hd hc,
      fun l hf => walk_found hw hcopy hg hd hc hf⟩

end Sys2Proof.Machine
end

