-- ==== Sys2Proof/Proofs/Branches.lean ====
section
/-!
PROOFS. O23, O24, O25: the branch table under `fork`, `bwait`, `brinfo`, `resign` and the walker, and the page pool.
-/

namespace Sys2Proof.Machine

/-! ### What a context's tables hold after a change -/

theorem Ctx.branch_setBranch (c : Ctx) (b k : Nat) (e : Branch) :
    (c.setBranch b e).branch k = if k = b then e else c.branch k := by
  unfold Ctx.branch Ctx.setBranch
  split
  next h => rw [h, Tab.getD_put_self]
  next h => exact Tab.getD_put_ne _ _ _ _ _ h

theorem Ctx.frame_setFrame (c : Ctx) (f k : Nat) (x : Frame) :
    (c.setFrame f x).frame k = if k = f then x else c.frame k := by
  unfold Ctx.frame Ctx.setFrame
  split
  next h => rw [h, Tab.getD_put_self]
  next h => exact Tab.getD_put_ne _ _ _ _ _ h

@[simp] theorem Ctx.branch_setChunk (c : Ctx) (a : Nat) (x : Chunk) (k : Nat) : (c.setChunk a x).branch k = c.branch k := rfl
@[simp] theorem Ctx.branch_setFrame (c : Ctx) (f : Nat) (x : Frame) (k : Nat) : (c.setFrame f x).branch k = c.branch k := rfl

/-! ### Instructions that write a value after a change of their context -/

section
variable {s u : State} {q : Nat} {d : SReg} {x : Word} {n : Nat}

/-- An instruction that ends on a state with its sequencer's registers writes the one register. -/
theorem finish_writes (h : u.seq q = s.seq q) :
    (∀ r, ((u.finish q d x n).seq q).read r = if r = d ∧ d ≠ 0 then x else (s.seq q).read r) ∧
      ((u.finish q d x n).seq q).ip = (s.seq q).ip + BitVec.ofNat 64 n := by
  unfold State.finish
  rw [State.seq_setSeq_self, h]
  refine ⟨fun r => ?_, ?_⟩
  · exact (Seq.read_write (s.seq q) d r x)
  · unfold Seq.write Seq.writeBank
    split_ifs <;> rfl

/-- Bits of TSTAT that a failed operation sets. -/
theorem setTstat_eq (bit : Nat) (y : Word) (h : (1#64 <<< bit) = y) :
    s.setTstat q bit = s.setSeq q { s.seq q with tstat := (s.seq q).tstat ||| y } := by
  subst h
  rfl

/-- An operation that fails sets its bit of TSTAT and writes a value. -/
theorem SeqGoesOn.of_failed {i : Instr} {bit : Nat} (y : Word) (h : exec i s = .next ((s.setTstat q bit).finish q d x n))
    (hy : (1#64 <<< bit) = y) :
    SeqGoesOn i s (s.setSeq q { s.seq q with tstat := (s.seq q).tstat ||| y }) q d x n := by
  rw [setTstat_eq bit y hy] at h
  refine SeqGoesOn.of_finish h ?_ ?_ ?_ ?_ rfl rfl <;> rw [State.seq_setSeq_self]

end

/-! ### fork (R371) -/

section
variable {s : State} {q ctx : Nat} {x : Ctx} {d a b : SReg} (hi : Issues s q [d, a, b]) (hq : s.ctxOf q = some ctx)
  (hx : s.ctx? ctx = some x)

/-- The sequencer's own branch is live, or it has none. -/
def Seq.ownLive (v : Seq) (x : Ctx) : Bool := v.branch.elim true x.isLive

/-- `fork` has room for n children of branch p. -/
def State.forkOk (s : State) (q : Nat) (x : Ctx) (p n : Nat) : Prop :=
  x.isLive p = true ∧ (s.seq q).ownLive x = true ∧ s.liveBranches + n ≤ 1048576

include hi hq hx

theorem exec_fork : exec (.fork d a b) s =
    if 65536 ≤ ((s.seq q).read a).toNat ∨ ((s.seq q).read b).toNat < 1 ∨ 64 < ((s.seq q).read b).toNat
    then .next (s.raise q .brval 0)
    else (x.freeRun ((s.seq q).read b).toNat).elim (.next ((s.setTstat q forkf).finish q d allOnes 4)) fun c =>
      if x.isLive ((s.seq q).read a).toNat = true ∧ (s.seq q).ownLive x = true ∧
          s.liveBranches + ((s.seq q).read b).toNat ≤ 1048576
      then .next ((s.addChildren (agentRegion (.seq q)) ctx x ((s.seq q).read a).toNat c ((s.seq q).read b).toNat).finish q d
        (BitVec.ofNat 64 c) 4)
      else .next ((s.setTstat q forkf).finish q d allOnes 4) := by
  refine (hi.runs false _).trans ?_
  simp only [hi.2.2.1, Bool.not_true, Bool.false_eq_true, if_false]
  rw [withCtx_of_ctxOf hq hx]
  have hbad : ((!isBranchNo ((s.seq q).read a) || decide (((s.seq q).read b).toNat < 1) ||
      decide (64 < ((s.seq q).read b).toNat)) = true) ↔
      (65536 ≤ ((s.seq q).read a).toNat ∨ ((s.seq q).read b).toNat < 1 ∨ 64 < ((s.seq q).read b).toNat) := by
    simp [isBranchNo, or_assoc]
  simp only [hbad]
  refine if_congr Iff.rfl rfl ?_
  cases hr : x.freeRun ((s.seq q).read b).toNat with
  | none => rfl
  | some c =>
    simp only [Option.elim_some]
    by_cases hok : x.isLive ((s.seq q).read a).toNat = true ∧ (s.seq q).ownLive x = true ∧
        s.liveBranches + ((s.seq q).read b).toNat ≤ 1048576
    · rw [if_pos hok]
      obtain ⟨h1, h2, h3⟩ := hok
      unfold Seq.ownLive at h2
      cases hb : (s.seq q).branch with
      | none => simp [h1, Nat.not_lt.2 h3]
      | some o =>
        rw [hb] at h2
        simp only [Option.elim_some] at h2
        simp [h1, h2, Nat.not_lt.2 h3]
    · rw [if_neg hok]
      refine if_pos ?_
      by_contra hc
      refine hok ?_
      unfold Seq.ownLive
      cases hb : (s.seq q).branch <;> simp [hb] at hc <;> simp [hc]

end

theorem branch_foldl_setBranch (g : Branch) (bs : List Nat) (x : Ctx) (k : Nat) :
    (bs.foldl (fun x b => x.setBranch b g) x).branch k = if k ∈ bs then g else x.branch k := by
  induction bs generalizing x with
  | nil => simp
  | cons b bs ih =>
    rw [List.foldl_cons, ih, Ctx.branch_setBranch]
    by_cases h : k ∈ bs <;> by_cases hb : k = b <;> simp [h, hb]

theorem mem_childNumbers {c n k : Nat} : k ∈ (List.range n).map (c + ·) ↔ c ≤ k ∧ k < c + n := by
  simp only [List.mem_map, List.mem_range]
  constructor
  · rintro ⟨j, hj, rfl⟩
    omega
  · intro h
    exact ⟨k - c, by omega, by omega⟩

theorem freeRun_free {x : Ctx} {n c k : Nat} (h : x.freeRun n = some c) (hk : k < n) : (x.branch (c + k)).st = 0 := by
  have hc := List.find?_some h
  simp only [Bool.and_eq_true, List.all_eq_true, List.mem_range, decide_eq_true_eq] at hc
  exact (hc.2 k hk).2

/-- The branch table after `fork`. -/
theorem addChildren_spec {s : State} {who : Option Nat} {ctx : Nat} {x : Ctx} {p c n : Nat} (hp : x.isLive p = true)
    (hr : x.freeRun n = some c) (hb : (x.branch p).bar = none) (ho : (x.branch p).rootOf = none) :
    let t := s.addChildren who ctx x p c n
    t.mem = s.mem ∧ t.seqs = s.seqs ∧ ∃ y, t.ctx? ctx = some y ∧
      (∀ k, k < n → y.branch (c + k) = Branch.child p (x.branch p)) ∧
      y.branch p = { x.branch p with nch := (x.branch p).nch + n } ∧
      ∀ k, k ≠ p → ¬(c ≤ k ∧ k < c + n) → y.branch k = x.branch k := by
  have hpn : ∀ k, k < n → c + k ≠ p := by
    rintro k hk rfl
    have h0 := freeRun_free hr hk
    simp [Ctx.isLive, h0] at hp
  let z := ((List.range n).map (c + ·)).foldl (fun y b => y.setBranch b (Branch.child p (x.branch p))) x
  obtain ⟨w, hw, hbr⟩ : ∃ w : Ctx, s.addChildren who ctx x p c n = (s.undead ctx ((List.range n).map (c + ·))).setCtx ctx
      (w.setBranch p { x.branch p with nch := (x.branch p).nch + n }) ∧ ∀ k, w.branch k = z.branch k := by
    cases hk : (((List.range n).map (c + ·)).foldl (fun y b => y.setBranch b (Branch.child p (x.branch p))) x).chunk?
        (x.branch p).head with
    | none =>
      refine ⟨z, ?_, fun _ => rfl⟩
      simp only [State.addChildren, hb, ho, hk] <;> rfl
    | some k =>
      by_cases h0 : 0 < (x.branch p).len
      · refine ⟨z.setChunk (x.branch p).head { k with ref := k.ref + n }, ?_, fun _ => rfl⟩
        simp only [State.addChildren, hb, ho, hk, if_pos h0] <;> rfl
      · refine ⟨z, ?_, fun _ => rfl⟩
        simp only [State.addChildren, hb, ho, hk, if_neg h0] <;> rfl
  intro t
  let y := w.setBranch p { x.branch p with nch := (x.branch p).nch + n }
  have ht : t = (s.undead ctx ((List.range n).map (c + ·))).setCtx ctx y := hw
  refine ⟨by rw [ht]; rfl, by rw [ht]; rfl, y, by rw [ht, State.ctx_setCtx_self], ?_⟩
  have hz (k : Nat) := branch_foldl_setBranch (Branch.child p (x.branch p)) ((List.range n).map (c + ·)) x k
  refine ⟨fun k hk => ?_, ?_, fun k hkp hk => ?_⟩
  · rw [Ctx.branch_setBranch, if_neg (hpn k hk), hbr, hz, if_pos (mem_childNumbers.2 ⟨by omega, by omega⟩)]
  · rw [Ctx.branch_setBranch, if_pos rfl]
  · rw [Ctx.branch_setBranch, if_neg hkp, hbr, hz, if_neg fun h => hk (mem_childNumbers.1 h)]

/-! ### bwait and brinfo (R373, R374) -/

section
variable {s : State} {q ctx : Nat} {c : Ctx} {d a b : SReg} (hq : s.ctxOf q = some ctx) (hc : s.ctx? ctx = some c)
include hq hc

theorem exec_bwait (hi : Issues s q [d, a, b]) (hw : (s.seq q).wait = .none) :
    let limit := if (s.seq q).read b = 0xFFFFFFFFFFFFFFFF then none else some ((s.seq q).read b).toNat
    exec (.bwait d a b) s =
      if 65536 ≤ ((s.seq q).read a).toNat then .next (s.raise q .brval 0)
      else if c.childrenDone ((s.seq q).read a).toNat then .next ((s.setSeq q ((s.seq q).setWait .none)).finish q d 1 4)
      else if limit = some 0 then .next ((s.setSeq q ((s.seq q).setWait .none)).finish q d 0 4)
      else .next (s.setSeq q ((s.seq q).setWait (.timed (s.seq q).ip limit none true))) := by
  refine (hi.runs false _).trans ?_
  simp only [hi.2.2.1, Bool.not_true, Bool.false_eq_true, if_false]
  rw [withCtx_of_ctxOf hq hc]
  have hb : (!isBranchNo ((s.seq q).read a)) = true ↔ 65536 ≤ ((s.seq q).read a).toNat := by simp [isBranchNo]
  simp only [hb, hw]
  rfl

theorem exec_brinfo {n : BitVec 2} (hi : Issues s q [d, a]) :
    exec (.brinfo d a n) s =
      if 65536 ≤ ((s.seq q).read a).toNat then .next (s.raise q .brval 0)
      else .next (s.finish q d (if ((s.seq q).read a).toNat < c.nbr ∧ (c.branch ((s.seq q).read a).toNat).st ≠ 0
        then (c.branch ((s.seq q).read a).toNat).entryWord n.toNat else 0) 4) := by
  refine (hi.runs false _).trans ?_
  simp only [hi.2.2.1, Bool.not_true, Bool.false_eq_true, if_false]
  rw [withCtx_of_ctxOf hq hc]
  have hb : (!isBranchNo ((s.seq q).read a)) = true ↔ 65536 ≤ ((s.seq q).read a).toNat := by simp [isBranchNo]
  simp only [hb, Bool.and_eq_true, decide_eq_true_eq, bne_iff_ne]

end

/-- Word 0 of a branch's entry (Table 14-4). -/
theorem Branch.entryWord_zero (e : Branch) :
    bits (e.entryWord 0) 62 2 = BitVec.ofNat 2 e.st ∧ bitAt (e.entryWord 0) 61 = e.ran ∧
      bits (e.entryWord 0) 32 16 = BitVec.ofNat 16 e.parent ∧ bits (e.entryWord 0) 16 16 = BitVec.ofNat 16 e.nch ∧
      bits (e.entryWord 0) 0 16 = BitVec.ofNat 16 e.act := by
  unfold Branch.entryWord
  refine ⟨?_, ?_, ?_, ?_, ?_⟩
  case refine_2 =>
    unfold bitAt
    simp only [BitVec.getLsbD_append]
    cases e.ran <;> rfl
  all_goals
    simp (disch := omega) only [bits, BitVec.extractLsb'_append_eq_of_le, BitVec.extractLsb'_append_eq_of_add_le, Nat.reduceSub]
    exact BitVec.extractLsb'_eq_self

/-- Word 2 of a branch's entry. -/
theorem Branch.entryWord_two (e : Branch) :
    bits (e.entryWord 2) 48 16 = BitVec.ofNat 16 e.len ∧ bits (e.entryWord 2) 0 44 = BitVec.ofNat 44 (e.head / 256) := by
  unfold Branch.entryWord
  refine ⟨?_, ?_⟩
  all_goals
    simp (disch := omega) only [bits, BitVec.extractLsb'_append_eq_of_le, BitVec.extractLsb'_append_eq_of_add_le, Nat.reduceSub]
    exact BitVec.extractLsb'_eq_self

theorem ofNat_toNat_of_lt {n x : Nat} (h : x < 2 ^ n) : (BitVec.ofNat n x).toNat = x := by
  rw [BitVec.toNat_ofNat, Nat.mod_eq_of_lt h]

/-- Settles O23: `fork` makes its children by `addChildren`; `bwait` and `brinfo` by their equations. -/
theorem branchesForked : Obligations.BranchesForked := by
  unfold Obligations.BranchesForked
  refine ⟨fun s q ctx x d a b hi hq hx => ?_, fun s q ctx c d a b n hi hq hc => ?_⟩
  · have he := exec_fork hi hq hx
    have hown : (match (s.seq q).branch with | some o => x.isLive o | none => true) = (s.seq q).ownLive x := by
      unfold Seq.ownLive
      cases (s.seq q).branch <;> rfl
    refine ⟨fun c hp h1 h64 hok hr hb ho => ?_, fun hp h1 h64 hno => ?_, fun hbad hinh => ?_⟩
    · replace hok : s.forkOk q x _ _ := ⟨hok.1, hown.symm.trans hok.2.1, hok.2.2⟩
      rw [if_neg (by omega), hr] at he
      obtain ⟨hm, hs, y, hy, h1, h2, h3⟩ := addChildren_spec (s := s) (who := agentRegion (.seq q)) (ctx := ctx) hok.1 hr hb ho
      have hseq : (s.addChildren (agentRegion (.seq q)) ctx x ((s.seq q).read a).toNat c ((s.seq q).read b).toNat).seq q =
          s.seq q := congrArg (fun t => Tab.getD t q _) hs
      obtain ⟨hregs, hip⟩ := finish_writes (d := d) (x := BitVec.ofNat 64 c) (n := 4) hseq
      exact ⟨_, y, he.trans (if_pos hok), hy, h1, h2, h3, hregs, hip, hm⟩
    · replace hno : ¬s.forkOk q x ((s.seq q).read a).toNat ((s.seq q).read b).toNat ∨ x.freeRun ((s.seq q).read b).toNat = none :=
        hno.imp_left fun h hok => h ⟨hok.1, hown.trans hok.2.1, hok.2.2⟩
      refine SeqGoesOn.of_failed (bit := forkf) 2 (he.trans ?_) (by decide)
      rw [if_neg (by omega)]
      cases hr : x.freeRun ((s.seq q).read b).toNat with
      | none => rfl
      | some c => exact if_neg (hno.resolve_right (by rw [hr]; exact nofun))
    · exact ⟨_, he.trans (if_pos hbad), State.raise_trapped _ _ _ _ hinh⟩
  · have hi2 : Issues s q [d, a] := by
      obtain ⟨h1, h2, h3, h4⟩ := hi
      refine ⟨h1, h2, ?_, h4⟩
      simp only [Seq.allReady, List.all_cons, List.all_nil, Bool.and_eq_true] at h3 ⊢
      exact ⟨h3.1, h3.2.1, trivial⟩
    have hbr := exec_brinfo (n := n) hq hc hi2
    refine ⟨fun hx hw => ?_, fun hx => ⟨fun hin => ⟨?_, ?_⟩, fun hout => ?_⟩, fun hx hinh i hcase => ?_⟩
    · have hbw := (exec_bwait hq hc hi hw).trans (if_neg (Nat.not_le.2 hx))
      refine ⟨fun hd => ?_, fun hd h0 => ?_, fun hd h0 => ?_⟩
      · refine SeqGoesOn.of_finish (hbw.trans (if_pos hd)) ?_ ?_ ?_ ?_ rfl rfl <;> rw [State.seq_setSeq_self] <;> simp
      · refine SeqGoesOn.of_finish (hbw.trans ((if_neg (Bool.eq_false_iff.1 hd)).trans (if_pos h0))) ?_ ?_ ?_ ?_ rfl rfl <;>
          rw [State.seq_setSeq_self] <;> simp
      · exact hbw.trans ((if_neg (Bool.eq_false_iff.1 hd)).trans (if_neg h0))
    · rintro rfl h1 h2 h3 h4
      rw [if_neg (by omega), if_pos hin] at hbr
      obtain ⟨e1, e2, e3, e4, e5⟩ := Branch.entryWord_zero (c.branch ((s.seq q).read a).toNat)
      exact ⟨_, .of_finish hbr, (congrArg _ e1).trans (ofNat_toNat_of_lt h1), e2, (congrArg _ e3).trans (ofNat_toNat_of_lt h2),
        (congrArg _ e4).trans (ofNat_toNat_of_lt h3), (congrArg _ e5).trans (ofNat_toNat_of_lt h4)⟩
    · rintro rfl h1 h2
      rw [if_neg (by omega), if_pos hin] at hbr
      obtain ⟨e1, e2⟩ := Branch.entryWord_two (c.branch ((s.seq q).read a).toNat)
      exact ⟨_, .of_finish hbr, (congrArg _ e1).trans (ofNat_toNat_of_lt h1),
        (congrArg _ e2).trans (ofNat_toNat_of_lt (Nat.div_lt_of_lt_mul h2))⟩
    · rw [if_neg (by omega), if_neg hout] at hbr
      exact .of_finish hbr
    · have htrap : exec i s = .next (s.raise q .brval 0) := by
        obtain rfl | rfl := hcase
        · refine (hi.runs false _).trans ?_
          simp only [hi.2.2.1, Bool.not_true, Bool.false_eq_true, if_false]
          rw [withCtx_of_ctxOf hq hc]
          exact if_pos (by simp [isBranchNo, hx])
        · exact hbr.trans (if_pos hx)
      exact ⟨_, htrap, State.raise_trapped _ _ _ _ hinh⟩

/-! ### resign and the marking (R362, R372) -/

section
variable {s : State} {q ctx : Nat} {c : Ctx} {a : SReg} (hq : s.ctxOf q = some ctx) (hc : s.ctx? ctx = some c)
include hq hc

theorem exec_resign (hi : Issues s q [a]) :
    exec (.resign a) s =
      if ((s.seq q).read a).toNat = 0 ∨ 65536 ≤ ((s.seq q).read a).toNat then .next (s.raise q .brval 0)
      else if (s.seq q).wait = .marking (s.seq q).ip then
        if (ctx, ((s.seq q).read a).toNat) ∈ (s.region q).dead ∨ (c.branch ((s.seq q).read a).toNat).st ≠ 2
        then .next ((s.setSeq q ((s.seq q).setWait .none)).advance q 4) else .next s
      else if c.isLive ((s.seq q).read a).toNat
      then .next ((s.setCtx ctx (c.mark ((s.seq q).read a).toNat)).setSeq q ((s.seq q).setWait (.marking (s.seq q).ip)))
      else .next (s.advance q 4) := by
  refine (hi.runs false _).trans ?_
  simp only [Issues.ready hi List.mem_cons_self, Bool.not_true, Bool.false_eq_true, if_false]
  rw [withCtx_of_ctxOf hq hc]
  have hb : (decide ((s.seq q).read a = 0) || !isBranchNo ((s.seq q).read a)) = true ↔
      (((s.seq q).read a).toNat = 0 ∨ 65536 ≤ ((s.seq q).read a).toNat) := by
    simp [isBranchNo, ← BitVec.toNat_inj]
  have hm : s.markedIn q ctx ((s.seq q).read a).toNat c = true ↔
      ((ctx, ((s.seq q).read a).toNat) ∈ (s.region q).dead ∨ (c.branch ((s.seq q).read a).toNat).st ≠ 2) := by
    simp [State.markedIn]
  simp only [hb, hm]
  rfl

end

theorem branch_foldl_kill (bs : List Nat) (c : Ctx) (k : Nat) :
    (bs.foldl (fun c x => c.setBranch x { c.branch x with st := 2 }) c).branch k =
      if k ∈ bs then { c.branch k with st := 2 } else c.branch k := by
  induction bs generalizing c with
  | nil => simp
  | cons b bs ih =>
    rw [List.foldl_cons, ih, Ctx.branch_setBranch]
    by_cases hb : k = b
    · subst hb
      by_cases h : k ∈ bs <;> simp [h]
    · by_cases h : k ∈ bs <;> simp [h, hb]

theorem mem_liveBranches {c : Ctx} {k : Nat} : k ∈ c.liveBranches ↔ c.isLive k = true := by
  unfold Ctx.liveBranches
  rw [List.mem_filter]
  refine ⟨And.right, fun h => ⟨?_, h⟩⟩
  by_contra hk
  have hf : Tab.find? c.branches k = none := by
    generalize c.branches = t at hk
    induction t with
    | nil => rfl
    | cons e t ih =>
      obtain ⟨j, v⟩ := e
      simp only [List.map_cons, List.mem_cons, not_or] at hk
      simp only [Tab.find?, Ne.symm hk.1, if_false]
      exact ih hk.2
  simp [Ctx.isLive, Ctx.branch, Tab.getD, hf, Branch.free] at h

theorem Ctx.below_self (c : Ctx) (b : Nat) : c.below b b = true := by
  unfold Ctx.below
  cases (c.branch b).depth <;> simp [Ctx.within]

theorem mem_unionIds {l m : List Nat} {k : Nat} : k ∈ unionIds l m ↔ k ∈ l ∨ k ∈ m := by
  unfold unionIds
  induction m generalizing l with
  | nil => simp
  | cons x m ih =>
    rw [List.foldl_cons, ih]
    by_cases hx : x ∈ l
    · simp only [List.contains_iff_mem.2 hx, if_true, List.mem_cons]
      constructor
      · exact Or.imp_right .inr
      · rintro (h | rfl | h)
        · exact .inl h
        · exact .inl hx
        · exact .inr h
    · simp [hx, or_assoc]

/-- A branch and its live subtree are dead then, and every other live branch as it was. -/
theorem mark_spec {c : Ctx} {b : Nat} (hb : c.isLive b = true) :
    (c.mark b).isLive b = false ∧
      (∀ k ∈ c.liveBranches, c.below b k = true → (c.mark b).isLive k = false ∧ k ∈ (c.mark b).marked) ∧
      ∀ k, c.isLive k = true → c.below b k = false → (c.mark b).branch k = c.branch k := by
  have hbr (k : Nat) : (c.mark b).branch k =
      if k ∈ c.liveBranches.filter (c.below b) then { c.branch k with st := 2 } else c.branch k :=
    branch_foldl_kill (c.liveBranches.filter (c.below b)) c k
  have hdead : ∀ k ∈ c.liveBranches, c.below b k = true → (c.mark b).isLive k = false ∧ k ∈ (c.mark b).marked := by
    intro k hk hbk
    have hm : k ∈ c.liveBranches.filter (c.below b) := List.mem_filter.2 ⟨hk, hbk⟩
    refine ⟨?_, mem_unionIds.2 (.inr hm)⟩
    rw [Ctx.isLive, hbr, if_pos hm]
    exact Bool.and_false _
  refine ⟨(hdead b (mem_liveBranches.2 hb) (c.below_self b)).1, hdead, fun k _ hk => ?_⟩
  rw [hbr, if_neg fun h => by rw [(List.mem_filter.1 h).2] at hk; exact absurd hk (by decide)]

/-- A list with the members of another that are not in it yet. -/
def addNew {α : Type} [BEq α] (l m : List α) : List α := l ++ m.filter fun e => !l.contains e

theorem mem_addNew {α : Type} [BEq α] [LawfulBEq α] {l m : List α} {x : α} (h : x ∈ m) : x ∈ addNew l m := by
  by_cases hx : x ∈ l
  · exact List.mem_append_left _ hx
  · exact List.mem_append_right _ (List.mem_filter.2 ⟨h, by simp [hx]⟩)

theorem marking_propagates {s : State} {ctx : Nat} {c : Ctx} (hc : s.ctx? ctx = some c) (i : Nat) :
    ∃ t, exec (.markingPropagate ctx i) s = .next t ∧
      (∀ e ∈ c.branches, e.2.st = 2 →
        (i < 132 → (ctx, e.1) ∈ (t.region i).dead) ∧
        (132 ≤ i → (ctx, e.1) ∈ (Tab.getD t.disps (i - 132) Dispatcher.empty).dead)) ∧
      t.mem = s.mem ∧ t.ctxs = s.ctxs ∧ t.seqs = s.seqs := by
  have hdead : ∀ e ∈ c.branches, e.2.st = 2 → (ctx, e.1) ∈ c.deadPairs ctx := fun e he h2 =>
    List.mem_map.2 ⟨e, List.mem_filter.2 ⟨he, by simpa using h2⟩, rfl⟩
  by_cases hi : i < 132
  · have hx : exec (.markingPropagate ctx i) s =
        .next (s.setRegion i { s.region i with dead := addNew (s.region i).dead (c.deadPairs ctx) }) := by
      show execMarkingPropagate ctx i s = _
      simp only [execMarkingPropagate, hc, if_pos hi]
      rfl
    refine ⟨_, hx, fun e he h2 => ⟨fun _ => ?_, fun h => absurd hi (Nat.not_lt.2 h)⟩, rfl, rfl, rfl⟩
    rw [State.region_setRegion_self]
    exact mem_addNew (hdead e he h2)
  · let x := Tab.getD s.disps (i - 132) Dispatcher.empty
    let x' := { x with dead := addNew x.dead (c.deadPairs ctx) }
    have hx : exec (.markingPropagate ctx i) s = .next { s with disps := Tab.put s.disps (i - 132) x' } := by
      show execMarkingPropagate ctx i s = _
      simp only [execMarkingPropagate, hc, if_neg hi]
      rfl
    refine ⟨_, hx, fun e he h2 => ⟨fun h => absurd h hi, fun _ => ?_⟩, rfl, rfl, rfl⟩
    dsimp only
    rw [Tab.getD_put_self]
    exact mem_addNew (hdead e he h2)

/-! ### The walker (R362) -/

/-- From c to c' no branch has changed, nor what is marked. -/
def SameBranches (c c' : Ctx) : Prop := c'.branches = c.branches ∧ c'.marked = c.marked

theorem SameBranches.trans {c c' c'' : Ctx} (h : SameBranches c c') (g : SameBranches c' c'') : SameBranches c c'' :=
  ⟨g.1.trans h.1, g.2.trans h.2⟩

theorem unrefFrames_same (l : List Nat) (c : Ctx) : SameBranches c (l.foldl Ctx.unrefFrame c) := by
  induction l generalizing c with
  | nil => exact ⟨rfl, rfl⟩
  | cons f l ih => exact SameBranches.trans (c' := c.unrefFrame f) ⟨rfl, rfl⟩ (ih _)

theorem unrefChunk_same (n : Nat) (c : Ctx) (a : Nat) : SameBranches c (c.unrefChunk n a) := by
  induction n generalizing c a with
  | zero => exact ⟨rfl, rfl⟩
  | succ n ih =>
    unfold Ctx.unrefChunk
    split
    · exact ⟨rfl, rfl⟩
    · split
      · exact ⟨rfl, rfl⟩
      next k _ _ =>
        refine .trans ?_ (ih _ _)
        exact .trans (c' := { c with chunks := Tab.drop c.chunks a }) ⟨rfl, rfl⟩ (unrefFrames_same k.ptrs _)

/-- The walker drops a branch's list and lowers its parent's count. -/
theorem release_spec (c : Ctx) (j k : Nat) :
    (c.release j).marked = c.marked ∧ ((c.release j).branch k).parent = (c.branch k).parent ∧
      ((c.release j).branch k).len = (if k = j then 0 else (c.branch k).len) ∧
      ((c.release j).branch k).head = (if k = j then 0 else (c.branch k).head) ∧
      ((c.release j).branch k).nch = (c.branch k).nch - if (c.branch j).parent = k then 1 else 0 := by
  obtain ⟨c1, h1, hb1, hm1⟩ : ∃ c1 : Ctx, c.release j = ((c1.setBranch j { c.branch j with len := 0, head := 0 }).setBranch
      (c.branch j).parent { (c1.setBranch j { c.branch j with len := 0, head := 0 }).branch (c.branch j).parent with
        nch := ((c1.setBranch j { c.branch j with len := 0, head := 0 }).branch (c.branch j).parent).nch - 1 }) ∧
      c1.branches = c.branches ∧ c1.marked = c.marked := by
    by_cases h0 : (c.branch j).len = 0
    · exact ⟨c, by simp only [Ctx.release, h0, if_true], rfl, rfl⟩
    · exact ⟨c.unrefChunk (chunksOf (c.branch j).len) (c.branch j).head, by simp only [Ctx.release, h0, if_false],
        unrefChunk_same _ _ _⟩
  have hbr (k : Nat) : c1.branch k = c.branch k := by
    unfold Ctx.branch
    rw [hb1]
  rw [h1]
  refine ⟨hm1, ?_⟩
  simp only [Ctx.branch_setBranch, hbr]
  by_cases hp : k = (c.branch j).parent
  · rw [if_pos hp, if_pos hp.symm, ← hp]
    by_cases hk : k = j
    · subst hk
      simp only [if_true, if_pos hp]
      exact ⟨hp, trivial, trivial, trivial⟩
    · simp [hk]
  · rw [if_neg hp, if_neg (Ne.symm hp)]
    by_cases hk : k = j
    · subst hk
      simp
    · simp [hk]

theorem releases_spec (bs : List Nat) (c : Ctx) (k : Nat) :
    (bs.foldl Ctx.release c).marked = c.marked ∧ ((bs.foldl Ctx.release c).branch k).parent = (c.branch k).parent ∧
      ((k ∈ bs ∨ ((c.branch k).len = 0 ∧ (c.branch k).head = 0)) →
        ((bs.foldl Ctx.release c).branch k).len = 0 ∧ ((bs.foldl Ctx.release c).branch k).head = 0) ∧
      ((bs.foldl Ctx.release c).branch k).nch =
        (c.branch k).nch - (bs.filter fun j => decide ((c.branch j).parent = k)).length := by
  induction bs generalizing c with
  | nil => exact ⟨rfl, rfl, fun h => h.resolve_left List.not_mem_nil, rfl⟩
  | cons j bs ih =>
    obtain ⟨h1, h2, h3, h4⟩ := ih (c.release j)
    obtain ⟨g1, g2, g3, g4, g5⟩ := release_spec c j k
    refine ⟨h1.trans g1, h2.trans g2, fun h => h3 ?_, h4.trans ?_⟩
    · by_cases hk : k = j
      · exact .inr ⟨g3.trans (if_pos hk), g4.trans (if_pos hk)⟩
      · refine h.imp (fun h => (List.mem_cons.1 h).resolve_left hk) fun h => ?_
        rw [g3, g4, if_neg hk, if_neg hk]
        exact h
    · have hpar : (fun i => decide (((c.release j).branch i).parent = k)) = fun i => decide ((c.branch i).parent = k) := by
        funext i
        rw [(release_spec c j i).2.1]
      rw [g5, hpar, Nat.sub_sub, List.filter_cons]
      by_cases hp : (c.branch j).parent = k
      · simp [hp, Nat.add_comm]
      · simp [hp]

/-- An entry that becomes free has no list; other entries stay. -/
theorem settles_spec (bs : List Nat) (c : Ctx) :
    (bs.foldl Ctx.settleBranch c).marked = c.marked ∧
      ∀ k, (bs.foldl Ctx.settleBranch c).branch k = c.branch k ∨
        (k ∈ bs ∧ (bs.foldl Ctx.settleBranch c).branch k = Branch.free) := by
  induction bs generalizing c with
  | nil => exact ⟨rfl, fun k => .inl rfl⟩
  | cons j bs ih =>
    obtain ⟨h1, h2⟩ := ih (c.settleBranch j)
    have hj : (c.settleBranch j).marked = c.marked ∧
        ∀ k, (c.settleBranch j).branch k = c.branch k ∨ (k = j ∧ (c.settleBranch j).branch k = Branch.free) := by
      unfold Ctx.settleBranch
      dsimp only
      split
      · refine ⟨rfl, fun k => ?_⟩
        unfold Ctx.branch
        by_cases hk : k = j
        · exact .inr ⟨hk, by simp [Tab.getD, Tab.find?_drop, hk]⟩
        · exact .inl (Tab.getD_drop_ne _ _ hk)
      · exact ⟨rfl, fun k => .inl rfl⟩
    refine ⟨h1.trans hj.1, fun k => ?_⟩
    obtain h | ⟨hm, h⟩ := h2 k
    · obtain g | ⟨hk, g⟩ := hj.2 k
      · exact .inl (h.trans g)
      · exact .inr ⟨hk ▸ List.mem_cons_self, h.trans g⟩
    · exact .inr ⟨List.mem_cons_of_mem _ hm, h⟩

/-- From s to t the agents alone have changed. -/
def SameButAgents (s t : State) : Prop := t = { s with agents := t.agents }

theorem SameButAgents.foldl {α : Type} {f : State → α → State} (hf : ∀ s a, SameButAgents s (f s a)) (l : List α) (s : State) :
    SameButAgents s (l.foldl f s) := by
  induction l generalizing s with
  | nil => rfl
  | cons a l ih =>
    have h := ih (f s a)
    unfold SameButAgents at *
    rw [List.foldl_cons, h, hf s a]

theorem SameButAgents.answer (s : State) (a : Nat) (r : Ret) : SameButAgents s (s.answer a r) := by
  unfold State.answer
  dsimp only
  split <;> rfl

/-- What agents held for freed slots goes, and nothing else changes. -/
theorem voidBranches_same (s : State) (ctx : Nat) (c : Ctx) (bs : List Nat) : SameButAgents s (s.voidBranches ctx c bs) := by
  refine SameButAgents.foldl (fun t e => ?_) _ _
  have h := SameButAgents.foldl (fun t (e' : Ev) => SameButAgents.answer t e.1 { dest := e'.dest, bytes := [], tag := 0, bad := none })
  exact h _ (t.setAgent e.1 _)

theorem barriersOf_none {c : Ctx} {bs : List Nat} (h : ∀ k ∈ bs, (c.branch k).bar = none) : c.barriersOf bs = [] := by
  unfold Ctx.barriersOf
  generalize hl : ([] : List Nat) = l
  clear hl
  induction bs generalizing l with
  | nil => rfl
  | cons b bs ih =>
    rw [List.foldl_cons]
    simp only [h b List.mem_cons_self]
    exact ih (fun k hk => h k (List.mem_cons_of_mem _ hk)) l

/-- The context when the walker has been through a set of branches without barriers. -/
def Ctx.walked (c : Ctx) (bs : List Nat) : Ctx :=
  bs.foldl Ctx.settleBranch { bs.foldl Ctx.release c with marked := (bs.foldl Ctx.release c).marked.filter fun b => !bs.contains b }

/-- A plane's queues without the records of some branches, where it is the context's. -/
def Plane.walked (p : Plane) (ctx : Nat) (bs : List Nat) : Plane := if p.ctx = some ctx then p.squashQueues bs else p

theorem walkBranches_eq {s : State} {ctx : Nat} {c : Ctx} {bs : List Nat} (hb : ∀ k ∈ bs, (c.branch k).bar = none) :
    ∃ ags, s.walkBranches ctx c bs =
      { (({ s with agents := ags }).setCtx ctx (bs.foldl Ctx.release c)).setCtx ctx (c.walked bs) with
        planes := s.planes.map fun e => (e.1, e.2.walked ctx bs) } := by
  have ha : s.voidBranches ctx c bs = _ := voidBranches_same s ctx c bs
  refine ⟨(s.voidBranches ctx c bs).agents, ?_⟩
  simp only [State.walkBranches, barriersOf_none hb, List.foldl_nil, State.ctx_setCtx_self]
  rw [ha]
  rfl

theorem walked_spec (c : Ctx) (bs : List Nat) :
    (c.walked bs).marked = c.marked.filter (fun b => !bs.contains b) ∧
      (∀ k ∈ bs, ((c.walked bs).branch k).len = 0 ∧ ((c.walked bs).branch k).head = 0) ∧
      ∀ k, k ∉ bs → ((c.walked bs).branch k).nch =
        (c.branch k).nch - (bs.filter fun j => decide ((c.branch j).parent = k)).length := by
  let c1 : Ctx := { bs.foldl Ctx.release c with marked := (bs.foldl Ctx.release c).marked.filter fun b => !bs.contains b }
  obtain ⟨hm, hs⟩ := settles_spec bs c1
  have hbr (k : Nat) : c1.branch k = (bs.foldl Ctx.release c).branch k := rfl
  refine ⟨hm.trans ?_, fun k hk => ?_, fun k hk => ?_⟩
  · show (bs.foldl Ctx.release c).marked.filter _ = _
    rw [(releases_spec bs c 0).1]
  · obtain ⟨-, -, h0, -⟩ := releases_spec bs c k
    obtain h | ⟨-, h⟩ := hs k
    · rw [show (c.walked bs).branch k = _ from h, hbr]
      exact h0 (.inl hk)
    · rw [show (c.walked bs).branch k = _ from h]
      exact ⟨rfl, rfl⟩
  · obtain ⟨-, -, -, hn⟩ := releases_spec bs c k
    obtain h | ⟨hk', -⟩ := hs k
    · rw [show (c.walked bs).branch k = _ from h, hbr, hn]
    · exact absurd hk' hk

/-- A plane of the context has no record of the branches in its queues then. -/
theorem walkedPlane_spec {p : Plane} {ctx g : Nat} {bs : List Nat} {r : StRec} (hp : (p.walked ctx bs).ctx = some ctx) (hg : g < 4)
    (hr : r ∈ (vget (p.walked ctx bs).groups g StGroup.empty).queue ∨
      r ∈ (vget (p.walked ctx bs).groups g StGroup.empty).done) {n : Nat} (hn : r.branch = some n) : n ∉ bs := by
  have hctx : p.ctx = some ctx := by
    unfold Plane.walked at hp
    split at hp
    next h => exact h
    next => exact hp
  have hq : p.walked ctx bs = p.squashQueues bs := if_pos hctx
  rw [hq] at hr
  have hkeep : (match r.branch with | some b => !bs.contains b | none => true) = true := by
    simp only [Plane.squashQueues, vget, Vector.getElem?_map] at hr
    rw [Vector.getElem?_eq_getElem hg] at hr
    simp only [Option.map_some, Option.getD_some, List.mem_filter] at hr
    exact hr.elim And.right And.right
  rw [hn] at hkeep
  simpa using hkeep

theorem exec_resignWalk {s : State} {ctx b : Nat} {c : Ctx} (hc : s.ctx? ctx = some c) (hb : b ∈ c.marked)
    (hp : (c.branch b).parent ∉ c.marked) :
    exec (.resignWalk ctx b) s = .next (s.walkBranches ctx c (c.marked.filter (c.below b))) := by
  show execResignWalk ctx b s = _
  simp only [execResignWalk, hc, List.contains_iff_mem.2 hb, Bool.not_true, Bool.false_or]
  exact if_neg (by simpa using hp)

/-- Settles O24: `resign` by its equation and `mark_spec`, the marking by `addNew`, the walker by `walkBranches_eq`. -/
theorem branchesResigned : Obligations.BranchesResigned := by
  unfold Obligations.BranchesResigned
  refine ⟨fun s q ctx c a hc => ⟨fun hi hq => ?_, marking_propagates hc⟩, fun s ctx b c hc hb hp hbar => ?_⟩
  · have he := exec_resign hq hc hi
    have hpos (h0 : 0 < ((s.seq q).read a).toNat) (h1 : ((s.seq q).read a).toNat < 65536) :=
      he.trans (if_neg (not_or.2 ⟨Nat.pos_iff_ne_zero.1 h0, Nat.not_le.2 h1⟩))
    refine ⟨fun h0 h1 hw hl => ?_, fun h0 h1 hw hm => ?_, fun h0 h1 hw hl => ?_, fun hbad hinh => ?_⟩
    · obtain ⟨h2, h3, h4⟩ := mark_spec hl
      refine ⟨_, c.mark ((s.seq q).read a).toNat, (hpos h0 h1).trans ((if_neg hw).trans (if_pos hl)), State.ctx_setCtx_self _ _ _,
        h2, h3, h4, ?_, ?_, ?_, rfl⟩
      · unfold RegsStay
        rw [State.seq_setSeq_self, Seq.setWait_user, Seq.setWait_bank]
        exact ⟨rfl, rfl⟩
      · rw [State.seq_setSeq_self, Seq.setWait_ip]
      · rw [State.seq_setSeq_self, Seq.wait_setWait]
    · refine SeqGoesOn.of_advance ((hpos h0 h1).trans ((if_pos hw).trans (if_pos hm))) ?_ ?_ ?_ ?_ rfl rfl <;>
        rw [State.seq_setSeq_self] <;> simp
    · exact .of_advance ((hpos h0 h1).trans ((if_neg hw).trans (if_neg (Bool.eq_false_iff.1 hl))))
    · exact ⟨_, he.trans (if_pos hbad), State.raise_trapped _ _ _ _ hinh⟩
  · have hmem (k : Nat) : k ∈ c.marked.filter (c.below b) ↔ k ∈ c.marked ∧ c.below b k = true := List.mem_filter
    obtain ⟨ags, hw⟩ := walkBranches_eq (s := s) (ctx := ctx) (bs := c.marked.filter (c.below b)) fun k hk =>
      hbar k ((hmem k).1 hk).1
    obtain ⟨h1, h2, h3⟩ := walked_spec c (c.marked.filter (c.below b))
    have hx := exec_resignWalk hc hb hp
    rw [hw] at hx
    refine ⟨_, c.walked (c.marked.filter (c.below b)), hx, State.ctx_setCtx_self _ _ _, h1.trans ?_, rfl, rfl,
      fun k hk hbk => h2 k ((hmem k).2 ⟨hk, hbk⟩), fun k hk => (h3 k (fun h => hk ((hmem k).1 h))).trans ?_,
      fun k r hctx g hg hr n hn => ?_⟩
    · refine List.filter_congr fun k hk => ?_
      cases hbk : c.below b k <;> simp [hk, hbk]
    · rw [List.filter_filter]
      simp only [Bool.and_comm]
    · have hpl : Tab.find? (s.planes.map fun e => (e.1, e.2.walked ctx (c.marked.filter (c.below b)))) k =
          (Tab.find? s.planes k).map fun p => p.walked ctx (c.marked.filter (c.below b)) :=
        Tab.find?_mapValue s.planes (fun _ p => p.walked ctx _) k
      have hget : ∀ p, Tab.getD (s.planes.map fun e => (e.1, e.2.walked ctx (c.marked.filter (c.below b)))) k p =
          ((Tab.find? s.planes k).map fun p => p.walked ctx (c.marked.filter (c.below b))).getD p := fun p => by
        rw [Tab.getD, hpl]
      simp only [State.plane, hget] at hctx hr
      cases hf : Tab.find? s.planes k with
      | none =>
        rw [hf] at hctx
        exact absurd hctx nofun
      | some p =>
        rw [hf] at hctx hr
        exact walkedPlane_spec hctx hg hr hn

/-! ### The page pool (R375) -/

section
variable {s : State} {q ctx : Nat} {c : Ctx} {d a : SReg} (hq : s.ctxOf q = some ctx) (hc : s.ctx? ctx = some c)

/-- An address in the pool window of a frame that `free` takes back. -/
def Ctx.freeable (c : Ctx) (x : Nat) : Prop :=
  (bits c.pwin 16 36).toNat * 65536 ≤ x ∧ (x - (bits c.pwin 16 36).toNat * 65536) % 65536 = 0 ∧
    (x - (bits c.pwin 16 36).toNat * 65536) / 65536 < c.poolFrames ∧
    (c.frame ((x - (bits c.pwin 16 36).toNat * 65536) / 65536)).fref = 1 ∧
    c.inList ((x - (bits c.pwin 16 36).toNat * 65536) / 65536) = false

include hq hc

theorem exec_alloc_none (hi : Issues s q [d]) (h : s.takeFrame ctx c = none) :
    exec (.alloc d) s = .next ((s.setTstat q allocf).finish q d 0 4) := by
  refine (hi.runs false _).trans ?_
  simp only [Issues.ready hi List.mem_cons_self, Bool.not_true, Bool.false_eq_true, if_false]
  rw [withCtx_of_ctxOf hq hc]
  simp only [h]

theorem exec_alloc_some {f : Nat} {c' : Ctx} {s' : State} (hi : Issues s q [d]) (h : s.takeFrame ctx c = some (f, c', s')) :
    exec (.alloc d) s = .next ((s'.setCtx ctx (c'.setFrame f { fref := 1, held := true })).finish q d
      (BitVec.ofNat 64 (c'.frameVa f)) 4) := by
  refine (hi.runs false _).trans ?_
  simp only [Issues.ready hi List.mem_cons_self, Bool.not_true, Bool.false_eq_true, if_false]
  rw [withCtx_of_ctxOf hq hc]
  simp only [h]

theorem exec_free_mine (hi : Issues s q [d, a]) (h : c.freeable ((s.seq q).read a).toNat) :
    exec (.free d a) s = .next ((s.setCtx ctx (c.setFrame
      ((((s.seq q).read a).toNat - (bits c.pwin 16 36).toNat * 65536) / 65536) { fref := 0, held := false })).finish q d 0 4) := by
  refine (hi.runs false _).trans ?_
  simp only [hi.2.2.1, Bool.not_true, Bool.false_eq_true, if_false]
  rw [withCtx_of_ctxOf hq hc]
  simp only [Ctx.frameVa, Nat.zero_mul, Nat.add_zero]
  refine if_pos ?_
  obtain ⟨h1, h2, h3, h4, h5⟩ := h
  simp only [Bool.and_eq_true, decide_eq_true_eq, Bool.not_eq_true']
  exact ⟨⟨⟨⟨h1, h2⟩, h3⟩, h4⟩, h5⟩

theorem exec_free_other (hi : Issues s q [d, a]) (h : ¬ c.freeable ((s.seq q).read a).toNat) :
    exec (.free d a) s = .next (s.finish q d 1 4) := by
  refine (hi.runs false _).trans ?_
  simp only [hi.2.2.1, Bool.not_true, Bool.false_eq_true, if_false]
  rw [withCtx_of_ctxOf hq hc]
  simp only [Ctx.frameVa, Nat.zero_mul, Nat.add_zero]
  refine if_neg fun hc => h ?_
  simp only [Bool.and_eq_true, decide_eq_true_eq, Bool.not_eq_true'] at hc
  obtain ⟨⟨⟨⟨h1, h2⟩, h3⟩, h4⟩, h5⟩ := hc
  exact ⟨h1, h2, h3, h4, h5⟩

/-- The four cases of R375 in which `alloc.kv` fails. -/
theorem exec_allocKv_fails (hi : Issues s q [d, a])
    (h : c.kvWindow = none ∨ c.isLive ((s.seq q).read a).toNat = false ∨ c.freeChunks = [] ∨ s.takeFrame ctx c = none ∨
      ∃ base span, c.kvWindow = some (base, span) ∧ span / 65536 ≤ (c.branch ((s.seq q).read a).toNat).len) :
    exec (.allocKv d a) s = .next ((s.setTstat q allocf).finish q d 0 4) := by
  refine (hi.runs false _).trans ?_
  simp only [hi.2.2.1, Bool.not_true, Bool.false_eq_true, if_false]
  rw [withCtx_of_ctxOf hq hc]
  cases hk : c.kvWindow with
  | none => rfl
  | some w =>
    obtain ⟨base, span⟩ := w
    by_cases hg : (!c.isLive ((s.seq q).read a).toNat ||
        decide (span / 65536 ≤ (c.branch ((s.seq q).read a).toNat).len) || c.freeChunks.isEmpty) = true
    · exact if_pos hg
    · have hf : s.takeFrame ctx c = none := by
        simp only [Bool.or_eq_true, Bool.not_eq_true', decide_eq_true_eq, List.isEmpty_iff, not_or] at hg
        obtain ⟨⟨h1, h2⟩, h3⟩ := hg
        rcases h with h | h | h | h | ⟨b, sp, h, hl⟩
        · exact absurd (hk.symm.trans h) nofun
        · exact absurd h h1
        · exact absurd h h3
        · exact h
        · rw [hk] at h
          cases h
          exact absurd hl h2
      refine (if_neg hg).trans ?_
      simp only [hf]

theorem exec_allocKv {base span f n : Nat} {c' y : Ctx} {s' : State} (hi : Issues s q [d, a])
    (hk : c.kvWindow = some (base, span)) (hl : c.isLive ((s.seq q).read a).toNat = true) (hch : c.freeChunks ≠ [])
    (hlen : (c.branch ((s.seq q).read a).toNat).len < span / 65536) (hf : s.takeFrame ctx c = some (f, c', s'))
    (hp : c'.appendPage ((s.seq q).read a).toNat f s'.frees = some (y, n)) :
    exec (.allocKv d a) s = .next (({ s'.setCtx ctx y with frees := n } : State).finish q d
      (BitVec.ofNat 64 (base + ((s.seq q).read a).toNat * span + (c.branch ((s.seq q).read a).toNat).len * 65536)) 4) := by
  have hne : c.freeChunks.isEmpty = false := by
    rw [Bool.eq_false_iff]
    exact fun h => hch (List.isEmpty_iff.1 h)
  refine (hi.runs false _).trans ?_
  simp only [hi.2.2.1, Bool.not_true, Bool.false_eq_true, if_false]
  rw [withCtx_of_ctxOf hq hc]
  simp only [hk, hl, Nat.not_le.2 hlen, hne, hf, hp, Bool.not_true, decide_false, Bool.or_self, Bool.false_eq_true, if_false]

end

/-- A frame taken from a pool: the context's branches stay, and so does every sequencer. -/
theorem takeFrame_rest {s s' : State} {k f : Nat} {c c' : Ctx} (h : s.takeFrame k c = some (f, c', s')) :
    c'.branches = c.branches ∧ c'.pwin = c.pwin ∧ s'.seqs = s.seqs ∧ s'.mem = s.mem := by
  unfold State.takeFrame at h
  split at h
  · exact absurd h nofun
  · cases h
    exact ⟨rfl, rfl, rfl, rfl⟩

/-- An appended page makes the branch's list one longer. -/
theorem appendPage_len {c y : Ctx} {b f n m : Nat} (h : c.appendPage b f n = some (y, m)) :
    (y.branch b).len = (c.branch b).len + 1 := by
  have hgrow (z : Ctx) : ((z.setBranch b { z.branch b with len := (c.branch b).len + 1 }).branch b).len =
      (c.branch b).len + 1 := by rw [Ctx.branch_setBranch, if_pos rfl]
  unfold Ctx.appendPage at h
  dsimp only at h
  split at h
  · split at h
    · exact absurd h nofun
    · cases h
      exact hgrow _
  · split at h
    · cases h
      exact hgrow _
    · exact absurd h nofun

/-- Settles O25: each of the three instructions by its equation. -/
theorem framesAllocated : Obligations.FramesAllocated := by
  intro s q ctx c d a hi hq hc v failed writes b pool f mine
  have hi1 : Issues s q [d] := by
    obtain ⟨h1, h2, h3, h4⟩ := hi
    refine ⟨h1, h2, ?_, h4⟩
    simp only [Seq.allReady, List.all_cons, List.all_nil, Bool.and_eq_true] at h3 ⊢
    exact ⟨h3.1, trivial⟩
  refine ⟨fun h => .of_failed (bit := allocf) 1 (exec_alloc_none hq hc hi1 h) (by decide), fun f c' s' h => ?_,
    fun h => .of_failed (bit := allocf) 1 (exec_allocKv_fails hq hc hi h) (by decide),
    fun base span f c' s' y n hk hl hch hlen hf hp => ?_, fun h => ?_, fun h => .of_finish (exec_free_other hq hc hi h)⟩
  · obtain ⟨-, hw, hs, hm⟩ := takeFrame_rest h
    have hseq : (s'.setCtx ctx (c'.setFrame f { fref := 1, held := true })).seq q = s.seq q :=
      congrArg (fun t => Tab.getD t q _) hs
    obtain ⟨h1, h2⟩ := finish_writes (d := d) (x := BitVec.ofNat 64 (c'.frameVa f)) (n := 4) hseq
    have hva : c'.frameVa f = pool + f * 65536 := by
      unfold Ctx.frameVa
      rw [hw]
      rfl
    rw [hva] at h1 h2
    refine ⟨_, c'.setFrame f { fref := 1, held := true }, exec_alloc_some hq hc hi1 h, State.ctx_setCtx_self _ _ _, ?_, ?_⟩
    · rw [Ctx.frame_setFrame, if_pos rfl]
    · rw [hva]
      exact ⟨h1, h2, hm⟩
  · obtain ⟨hb, -, hs, hm⟩ := takeFrame_rest hf
    have hseq : ({ s'.setCtx ctx y with frees := n } : State).seq q = s.seq q := congrArg (fun t => Tab.getD t q _) hs
    refine ⟨?_, _, exec_allocKv hq hc hi hk hl hch hlen hf hp, State.ctx_setCtx_self _ _ _, (finish_writes hseq).1,
      (finish_writes hseq).2, hm⟩
    rw [appendPage_len hp, Ctx.branch, hb]
    rfl
  · have hseq : (s.setCtx ctx (c.setFrame f { fref := 0, held := false })).seq q = s.seq q := rfl
    refine ⟨_, c.setFrame f { fref := 0, held := false }, exec_free_mine hq hc hi h, State.ctx_setCtx_self _ _ _, ?_,
      (finish_writes hseq).1, (finish_writes hseq).2, rfl⟩
    rw [Ctx.frame_setFrame, if_pos rfl]

end Sys2Proof.Machine
end

