-- ==== Sys2Proof/Proofs/Tasks.lean ====
section
/-!
PROOFS. O26, O27: tasks queued, signalled and ended, and the dispatcher.
-/

namespace Sys2Proof.Machine

/-! ### tenq (R369) -/

section
variable {s : State} {q ctx : Nat} {c : Ctx} {d a : SReg} (hq : s.ctxOf q = some ctx) (hc : s.ctx? ctx = some c)

/-- The read of n bytes with which `tenq` goes on. -/
def State.tenqEvent (s : State) (q : Nat) (va : Word) (n : Nat) (p : Phys) : Ev :=
  { s.seqEvent q va n p .read with dest := .wait q, watched := false }

include hq hc

theorem exec_tenq_fresh {p : Phys} (hi : Issues s q [d, a]) (hs : (s.seq q).stage = .fresh)
    (h64 : ((s.seq q).read a).toNat % 64 = 0) (hp : s.reach q (reqLoad q) ((s.seq q).read a) 64 .read = .to p) :
    ∃ v, exec (.tenq d a) s = .next
      (((s.place q (s.tenqEvent q ((s.seq q).read a) 64 p)).await q 0 s.nextId none).setSeq q v) ∧
      v = { (((s.place q (s.tenqEvent q ((s.seq q).read a) 64 p)).await q 0 s.nextId none).seq q) with got := [] } := by
  refine ⟨_, (hi.runs false _).trans ?_, rfl⟩
  simp only [hs, hi.2.2.1, Bool.not_true, Bool.false_eq_true, if_false]
  rw [withCtx_of_ctxOf hq hc]
  simp only [h64, bne_self_eq_false, Bool.false_eq_true, if_false, State.tenqRead, hp]
  rfl

theorem exec_tenq_align (hi : Issues s q [d, a]) (hs : (s.seq q).stage = .fresh)
    (h64 : ((s.seq q).read a).toNat % 64 ≠ 0) :
    exec (.tenq d a) s = .next (s.raise q .align ((s.seq q).read a)) := by
  refine (hi.runs false _).trans ?_
  simp only [hs, hi.2.2.1, Bool.not_true, Bool.false_eq_true, if_false]
  rw [withCtx_of_ctxOf hq hc]
  exact if_pos (bne_iff_ne.2 h64)

theorem exec_tenq_back {n : Nat} {bs : List Byte} {bad : Option Cause} {hit : Option (Nat × Word)} (hi : Issues s q [d, a])
    (hs : (s.seq q).stage = .back n bs bad hit) :
    exec (.tenq d a) s = if (s.seq q).got.length < 64 then tenqImage q d ctx c s bs
      else if (s.seq q).got.length < 80 then tenqHeader q d ctx c s (s.seq q).got bs
      else tenqWrite q d ctx c s (s.seq q).got bs := by
  refine (hi.runs false _).trans ?_
  simp only [hs]
  rw [withCtx_of_ctxOf hq hc]

omit hq hc in
/-- A status with which `tenq` ends. -/
theorem tenq_ends {x : Word} (h : exec (.tenq d a) s = s.endTenq q d x) :
    SeqGoesOn (.tenq d a) s (s.setSeq q { (s.seq q).setWait .none with got := [] }) q d x 4 := by
  have h' : exec (.tenq d a) s = .next ((s.setSeq q { (s.seq q).setWait .none with got := [] }).finish q d x 4) := h
  refine SeqGoesOn.of_finish h' ?_ ?_ ?_ ?_ rfl rfl <;> rw [State.seq_setSeq_self] <;> simp

end

/-- An image with a reserved bit, or an address that is no multiple of its unit. -/
theorem DescImage.ofBytes_bad {bs : List Byte} {x : BitVec 512} (hx : x = BitVec.ofNat 512 (leNat bs))
    (h : bits x 52 12 ≠ 0 ∨ bits x 116 12 ≠ 0 ∨ bits x 180 12 ≠ 0 ∨ bits x 209 15 ≠ 0 ∨ bits x 227 285 ≠ 0 ∨
      (bits x 0 64).toNat % 4 ≠ 0 ∨ (bits x 128 64).toNat % 8 ≠ 0) : DescImage.ofBytes bs = none := by
  subst hx
  unfold DescImage.ofBytes
  refine if_pos ?_
  by_contra hc
  simp only [Bool.or_eq_true, bne_iff_ne, ne_eq, not_or, not_not] at hc
  obtain ⟨⟨⟨⟨⟨⟨h1, h2⟩, h3⟩, h4⟩, h5⟩, h6⟩, h7⟩ := hc
  rw [bits_bits _ (by omega)] at h1 h2 h3
  have hlow (n : Nat) (y : Word) (hy : bits y 0 n = 0) : y.toNat % 2 ^ n = 0 := by
    have := congrArg BitVec.toNat hy
    simpa [bits] using this
  rcases h with h | h | h | h | h | h | h
  · exact h h1
  · exact h h2
  · exact h h3
  · exact h h4
  · exact h h5
  · exact h (hlow 2 _ h6)
  · exact h (hlow 3 _ h7)

section
variable {s : State} {q ctx : Nat} {c : Ctx} {d a : SReg} {got levels : List Byte} {x : DescImage}
  (hx : DescImage.ofBytes (got.take 64) = some x)

/-- The task's branch is live, where its image names one. -/
def DescImage.live (x : DescImage) (c : Ctx) : Prop := x.bv = true → c.isLive x.branch = true

theorem tenqStatus_disabled (h : (s.queue c.vf).enabled = false) : s.tenqStatus c x = some 6 := by
  simp only [State.tenqStatus, h, Bool.not_false, if_true]

theorem tenqStatus_priority (h : (s.queue c.vf).enabled = true)
    (hp : x.prio < (s.queue c.vf).plo ∨ (s.queue c.vf).phi < x.prio) : s.tenqStatus c x = some 4 := by
  simp only [State.tenqStatus, h, Bool.not_true, Bool.false_eq_true, if_false]
  exact if_pos (by simpa using hp)

theorem tenqStatus_branch (h : (s.queue c.vf).enabled = true) (hlo : (s.queue c.vf).plo ≤ x.prio)
    (hhi : x.prio ≤ (s.queue c.vf).phi) (hl : ¬ x.live c) : s.tenqStatus c x = some 5 := by
  unfold DescImage.live at hl
  simp only [State.tenqStatus, h, Nat.not_lt.2 hlo, Nat.not_lt.2 hhi, Bool.not_true, Bool.false_eq_true, if_false, decide_false,
    Bool.or_self]
  refine if_pos ?_
  simpa using hl

theorem tenqStatus_ok (h : (s.queue c.vf).enabled = true) (hlo : (s.queue c.vf).plo ≤ x.prio)
    (hhi : x.prio ≤ (s.queue c.vf).phi) (hl : x.live c) : s.tenqStatus c x = none := by
  simp only [State.tenqStatus, h, Nat.not_lt.2 hlo, Nat.not_lt.2 hhi, Bool.not_true, Bool.false_eq_true, if_false, decide_false,
    Bool.or_self]
  refine if_neg ?_
  unfold DescImage.live at hl
  cases hb : x.bv <;> simp_all

include hx

theorem tenqWrite_status {r : Word} (h : s.tenqStatus c x = some r) :
    tenqWrite q d ctx c s got levels = s.endTenq q d r := by
  simp only [tenqWrite, hx, h]

theorem tenqWrite_launch (h : s.tenqStatus c x = none)
    (hl : launchOk (s.mostOnBoard c.partition) (wordsOf (levels.length / 8) levels) = false) :
    tenqWrite q d ctx c s got levels = s.endTenq q d 2 := by
  simp only [tenqWrite, hx, h, hl, Bool.not_false, if_true]

theorem tenqWrite_full (h : s.tenqStatus c x = none)
    (hl : launchOk (s.mostOnBoard c.partition) (wordsOf (levels.length / 8) levels) = true)
    (hf : 65536 ≤ (s.queue c.vf).descs.length) : tenqWrite q d ctx c s got levels = s.endTenq q d 1 := by
  simp only [tenqWrite, hx, h, hl, hf, Bool.not_true, Bool.false_eq_true, if_false, if_true]

theorem tenqWrite_writes (h : s.tenqStatus c x = none)
    (hl : launchOk (s.mostOnBoard c.partition) (wordsOf (levels.length / 8) levels) = true)
    (hf : (s.queue c.vf).descs.length < 65536) : tenqWrite q d ctx c s got levels =
      (s.writeDesc ctx c x (wordsOf (levels.length / 8) levels)).endTenq q d 0 := by
  simp only [tenqWrite, hx, h, hl, Nat.not_le.2 hf, Bool.not_true, Bool.false_eq_true, if_false]

end

/-- The descriptor that `tenq` writes stands last in the queue of its context's virtual device. -/
theorem writeDesc_spec (s : State) (ctx : Nat) (c : Ctx) (x : DescImage) (l : List Word) :
    (s.writeDesc ctx c x l).seqs = s.seqs ∧ (s.writeDesc ctx c x l).mem = s.mem ∧
      ∃ e, ((s.writeDesc ctx c x l).queue c.vf).descs = (s.queue c.vf).descs ++ [e] ∧ e.ip = x.ip ∧ e.lrec = x.lrec ∧
        e.cword = x.cword ∧ e.prio = x.prio ∧ e.ctx = ctx ∧ e.branch = if x.bv then some x.branch else none := by
  unfold State.writeDesc
  cases hb : x.bv <;>
    exact ⟨rfl, rfl, _, by simp [State.enqueue, State.queue, State.setQueue, Ctx.setBranch]; rfl, rfl, rfl, rfl, rfl, rfl, rfl⟩

/-! ### tsig (R370) -/

section
variable {s : State} {q : Nat} {sc : Scope} {a b : SReg} (hi : Issues s q [a, b])
include hi

theorem exec_tsig_fresh {p : Phys} (hs : (s.seq q).stage = .fresh) (h8 : ((s.seq q).read a).toNat % 8 = 0)
    (hp : s.reach q (reqLoad q) ((s.seq q).read a) 8 .read = .to p) :
    exec (.tsig sc a b) s = .next ((s.place q (s.tenqEvent q ((s.seq q).read a) 8 p)).await q 0 s.nextId none) := by
  refine (hi.runs false _).trans ?_
  simp only [hs, hi.2.2.1, h8, hp, bne_self_eq_false, Bool.not_true, Bool.false_eq_true, if_false]
  rfl

theorem exec_tsig_align (hs : (s.seq q).stage = .fresh) (h8 : ((s.seq q).read a).toNat % 8 ≠ 0) :
    exec (.tsig sc a b) s = .next (s.raise q .align ((s.seq q).read a)) := by
  refine (hi.runs false _).trans ?_
  simp only [hs, hi.2.2.1, bne_iff_ne.2 h8, Bool.not_true, Bool.false_eq_true, if_false, if_true]

/-- The release write with which `tsig` lowers the completion word from m. -/
def State.tsigEvent (s : State) (q : Nat) (sc : Scope) (va : Word) (p : Phys) (n : Nat) : Ev :=
  { (s.seqEvent q va 8 p .write).withBytes (leBytes 8 n) with rel := true, scope := sc }

/-- TSIGU set where the word held less than the count. -/
def State.tsigMark (s : State) (q : Nat) (short : Bool) : State := if short then s.setTstat q tsigu else s

omit hi in
/-- TSIGU and the IP are the sequencer's own. -/
theorem tsigMark_advance (t : State) (short : Bool) : (t.tsigMark q short).advance q 4 = t.setSeq q
    { t.seq q with tstat := if short then (t.seq q).tstat ||| 4 else (t.seq q).tstat, ip := (t.seq q).ip + 4 } := by
  cases short with
  | false => rfl
  | true =>
    show State.advance (t.setTstat q tsigu) q 4 = _
    rw [setTstat_eq tsigu 4 (by decide)]
    unfold State.advance
    rw [State.setSeq_setSeq, State.seq_setSeq_self]
    rfl

theorem exec_tsig_back {p : Phys} {bs : List Byte} {hit : Option (Nat × Word)} (hs : (s.seq q).stage = .back 0 bs none hit)
    (hst : s.storesHeld q < 16) (hp : s.reach q (reqLoad q) ((s.seq q).read a) 8 .write = .to p)
    (hh : s.seqHit q ((s.seq q).read a) 8 = none) :
    exec (.tsig sc a b) s = .next (State.advance
      ((State.place (s.setSeq q ((s.seq q).setWait .none)) q
        (s.tsigEvent q sc ((s.seq q).read a) p (leNat bs - ((s.seq q).read b).toNat))).tsigMark q
          (decide (leNat bs < ((s.seq q).read b).toNat))) q 4) := by
  refine (hi.runs false _).trans ?_
  have hn : (if decide (leNat bs < ((s.seq q).read b).toNat) = true then 0 else leNat bs - ((s.seq q).read b).toNat) =
      leNat bs - ((s.seq q).read b).toNat := by
    split
    next h => have := of_decide_eq_true h; omega
    next => rfl
  simp only [hs, if_true, State.tsigWrite, hn, Nat.not_le.2 hst, if_false, hp, hh, State.afterStore]
  rfl

end

/-! ### yield (R379) -/

section
variable {s : State} {q : Nat}

theorem taskEnd_same (s : State) (d : Desc) : (s.taskEnd d).seqs = s.seqs ∧ (s.taskEnd d).mem = s.mem ∧
    (s.taskEnd d).tasks = s.tasks ∧ (s.taskEnd d).planes = s.planes := by
  unfold State.taskEnd
  split <;> exact ⟨rfl, rfl, rfl, rfl⟩

/-- An instance's end changes its task, and with the last one the task's branch and message. -/
theorem instanceEnd_spec (s : State) (n : Nat) :
    (s.instanceEnd n).seqs = s.seqs ∧ (s.instanceEnd n).mem = s.mem ∧
      (∀ k, Tab.find? s.tasks n = some k → k.closed = false ∨ 2 ≤ k.live →
        Tab.find? (s.instanceEnd n).tasks n = some { k with live := k.live - 1 }) ∧
      (∀ k, Tab.find? s.tasks n = some k → k.closed = true → k.live ≤ 1 → ∀ y ∈ (s.instanceEnd n).tasks, y.1 ≠ n) := by
  unfold State.instanceEnd
  cases hf : Tab.find? s.tasks n with
  | none => exact ⟨rfl, rfl, nofun, nofun⟩
  | some k =>
    by_cases hl : (k.closed && decide (k.live ≤ 1)) = true
    · obtain ⟨h1, h2, h3, -⟩ := taskEnd_same { s with tasks := Tab.drop s.tasks n } k.desc
      simp only [hl, if_true]
      refine ⟨h1, h2, fun k' hk hn => ?_, fun k' hk _ _ y hy => ?_⟩
      · cases hk
        simp only [Bool.and_eq_true, decide_eq_true_eq] at hl
        rcases hn with hn | hn
        · rw [hl.1] at hn
          exact absurd hn (by decide)
        · omega
      · rw [h3] at hy
        simpa using (List.mem_filter.1 hy).2
    · simp only [hl, Bool.false_eq_true, if_false]
      refine ⟨trivial, trivial, fun k' hk _ => ?_, fun k' hk hc hl' => ?_⟩
      · cases hk
        exact Tab.find?_put_self _ _ _
      · cases hk
        exact absurd (by simp [hc, hl']) hl

theorem leaveContext_spec (s : State) (q : Nat) :
    (s.leaveContext q).seq q = Seq.released q (s.seq q) ∧ (∀ j, j ≠ q → (s.leaveContext q).seq j = s.seq j) ∧
      (s.leaveContext q).mem = s.mem ∧ (s.leaveContext q).tasks = s.tasks := by
  unfold State.leaveContext
  dsimp only
  refine ⟨State.seq_setSeq_self _ _ _, fun j hj => ?_, ?_, ?_⟩
  · rw [State.seq_setSeq_ne _ _ _ _ hj]
    split <;> rfl
  · split <;> rfl
  · split <;> rfl

/-- What the end of the instance's task changes. -/
def State.endsTask (s : State) (t : Option TaskRef) : State := t.elim s fun t => s.instanceEnd t.serial

theorem exec_yield (hi : Issues s q []) (hq : q < 128) (hj : ∀ j ∈ (s.seq q).jobs, j.result ≠ none)
    (hs : (s.seq q).settled = true) : exec .yield s = .next ((s.leaveContext q).endsTask (s.seq q).task) := by
  have hje : (s.seq q).jobsEnded = true := List.all_eq_true.2 fun j hm => Option.isSome_iff_ne_none.2 (hj j hm)
  have hr : isRoot q = false := decide_eq_false (Nat.not_le.2 hq)
  refine (hi.runs false _).trans ?_
  simp only [hr, hje, hs, Bool.not_true, Bool.or_self, Bool.false_eq_true, if_false]
  cases (s.seq q).task <;> rfl

theorem exec_yield_root (hi : Issues s q []) (hq : 128 ≤ q) : exec .yield s = .next (s.raise q .sysval 0) := by
  refine (hi.runs false _).trans ?_
  exact if_pos (decide_eq_true hq)

end

/-- Settles O26: `tenq` and `tsig` by what they do with each read that has returned, `yield` by what it leaves. -/
theorem tasksQueuedAndEnded : Obligations.TasksQueuedAndEnded := by
  unfold Obligations.TasksQueuedAndEnded
  refine ⟨fun s q ctx c d a hi hq hc => ?_, fun s q sc a b hi => ?_, fun s q hi => ⟨fun hlt hj h1 h2 h3 h4 => ?_, fun h hinh =>
    ⟨_, exec_yield_root hi h, State.raise_trapped _ _ _ _ hinh⟩⟩⟩
  · intro v u Q
    refine ⟨fun hs h64 p hp => ?_, fun hs h64 hinh => ⟨_, exec_tenq_align hq hc hi hs h64, State.raise_trapped _ _ _ _ hinh⟩,
      fun n bs bad hit hs hl hbad => ?_, fun n bs bad hit x hs hl hx => ?_⟩
    · obtain ⟨w, hx, hw⟩ := exec_tenq_fresh hq hc hi hs h64 hp
      obtain ⟨hpl, hregs, hip, hst⟩ := placed_await (s := s) (e := s.tenqEvent q ((s.seq q).read a) 64 p) hi.1 0 none
      refine ⟨_, _, hx, hpl.setSeq rfl rfl rfl q w, rfl, ?_, keys_seqEvent (s := s) (q := q) (va := (s.seq q).read a) (k := .read), ?_, ?_⟩
      · unfold RegsStay at hregs ⊢
        rw [State.seq_setSeq_self, hw]
        exact hregs
      · rw [State.seq_setSeq_self, hw]
        exact hip
      · rw [State.seq_setSeq_self, hw]
        exact hst
    · refine tenq_ends ((exec_tenq_back hq hc hi hs).trans ((if_pos hl).trans ?_))
      simp only [tenqImage, DescImage.ofBytes_bad rfl hbad]
    · have hb : exec (.tenq d a) s = tenqWrite q d ctx c s (s.seq q).got bs := by
        refine (exec_tenq_back hq hc hi hs).trans ?_
        have hl' : (s.seq q).got.length = 80 := hl
        rw [if_neg (by omega), if_neg (by omega)]
      refine ⟨fun he => ?_, fun he hp => ?_, fun he hlo hhi hn => ?_, fun he hlo hhi hn => ⟨fun hla => ?_, fun hla hf => ?_,
        fun hla hf => ?_⟩⟩
      · exact tenq_ends (hb.trans (tenqWrite_status hx (tenqStatus_disabled he)))
      · exact tenq_ends (hb.trans (tenqWrite_status hx (tenqStatus_priority he hp)))
      · exact tenq_ends (hb.trans (tenqWrite_status hx (tenqStatus_branch he hlo hhi hn)))
      · exact tenq_ends (hb.trans (tenqWrite_launch hx (tenqStatus_ok he hlo hhi hn) hla))
      · exact tenq_ends (hb.trans (tenqWrite_full hx (tenqStatus_ok he hlo hhi hn) hla hf))
      · obtain ⟨hs', hm, e, he1, he2, he3, he4, he5, he6, he7⟩ := writeDesc_spec s ctx c x (wordsOf (bs.length / 8) bs)
        let u' := s.writeDesc ctx c x (wordsOf (bs.length / 8) bs)
        have hseq : u'.seq q = s.seq q := congrArg (fun t => Tab.getD t q _) hs'
        have hxx : exec (.tenq d a) s = .next ((u'.setSeq q
            { (u'.seq q).setWait .none with got := [] }).finish q d 0 4) :=
          hb.trans (tenqWrite_writes hx (tenqStatus_ok he hlo hhi hn) hla hf)
        refine ⟨_, e, hxx, he1, he2, he3, he4, he5, he6, he7, fun r => ?_, ?_, hm⟩
        · unfold State.finish
          rw [State.seq_setSeq_self, State.seq_setSeq_self, hseq]
          exact (Seq.read_write _ d r 0).trans (by
            rw [show Seq.read { (s.seq q).setWait .none with got := [] } r = _ from Seq.setWait_read _ _ _])
        · unfold State.finish
          rw [State.seq_setSeq_self, State.seq_setSeq_self, hseq]
          unfold Seq.write Seq.writeBank
          split_ifs <;> exact congrArg (· + _) (Seq.setWait_ip _ _)
  · intro v va
    refine ⟨fun hs h8 p hp => ?_, fun hs h8 hinh => ⟨_, exec_tsig_align hi hs h8, State.raise_trapped _ _ _ _ hinh⟩,
      fun bs hit p hs hst hp hh => ?_⟩
    · obtain ⟨hpl, hregs, hip, -⟩ := placed_await (s := s) (e := s.tenqEvent q ((s.seq q).read a) 8 p) hi.1 0 none
      exact ⟨_, _, exec_tsig_fresh hi hs h8 hp, hpl, rfl, hregs, keys_seqEvent (s := s) (q := q) (va := (s.seq q).read a) (k := .read), hip⟩
    · have hx := exec_tsig_back (sc := sc) hi hs hst hp hh
      rw [tsigMark_advance] at hx
      obtain ⟨hkeys, hvals, -⟩ := pieces_withBytes (s := s) (q := q) (va := (s.seq q).read a) (p := p) (k := .write) (n := 8)
        (bs := leBytes 8 (leNat bs - ((s.seq q).read b).toNat)) (length_leBytes _ _)
      have hseq : (State.place (s.setSeq q ((s.seq q).setWait .none)) q (s.tsigEvent q sc ((s.seq q).read a) p
          (leNat bs - ((s.seq q).read b).toNat))).seq q = (s.seq q).setWait .none := by
        rw [State.seq_place, State.seq_setSeq_self]
      refine ⟨_, _, hx, (State.place_placed (s.setSeq q ((s.seq q).setWait .none)) q _ (isBlockKey_seq hi.1)).setSeq rfl rfl rfl q _,
        rfl, rfl, rfl, hkeys, hvals, ?_, ?_, ?_⟩
      · unfold RegsStay
        rw [State.seq_setSeq_self, hseq]
        exact ⟨Seq.setWait_user _ _, Seq.setWait_bank _ _⟩
      · rw [State.seq_setSeq_self, hseq]
        exact congrArg (· + 4) (Seq.setWait_ip _ _)
      · rw [State.seq_setSeq_self, hseq]
        have ht : ((s.seq q).setWait .none).tstat = (s.seq q).tstat := by
          unfold Seq.setWait
          split_ifs <;> rfl
        simp only [ht, decide_eq_true_eq]
        rfl
  · obtain ⟨g1, g2, g3, g4⟩ := leaveContext_spec s q
    have hset : (s.seq q).settled = true := by
      simp [Seq.settled, h1, h2, h3, h4]
    have hx := exec_yield hi hlt hj hset
    have hfields : ((s.leaveContext q).endsTask (s.seq q).task).seqs = (s.leaveContext q).seqs ∧
        ((s.leaveContext q).endsTask (s.seq q).task).mem = (s.leaveContext q).mem := by
      unfold State.endsTask
      cases (s.seq q).task with
      | none => exact ⟨rfl, rfl⟩
      | some t => exact ⟨(instanceEnd_spec _ _).1, (instanceEnd_spec _ _).2.1⟩
    have hseq (j : Nat) : ((s.leaveContext q).endsTask (s.seq q).task).seq j = (s.leaveContext q).seq j :=
      congrArg (fun t => Tab.getD t j _) hfields.1
    refine ⟨_, hx, ?_, ?_, ?_, ?_, ?_, fun j hj => (hseq j).trans (g2 j hj), hfields.2.trans g3, fun x k ht hk hn => ?_,
      fun x k ht hk hc hl => ?_⟩
    · rw [hseq, g1]
      rfl
    · rw [hseq, g1]
      rfl
    · rw [hseq, g1]
      exact decide_eq_false (Nat.not_le.2 hlt)
    · rw [hseq, g1]
      rfl
    · rw [hseq, g1]
      rfl
    · rw [ht]
      exact (instanceEnd_spec (s.leaveContext q) x.serial).2.2.1 k (g4 ▸ hk) hn
    · rw [ht]
      exact (instanceEnd_spec (s.leaveContext q) x.serial).2.2.2 k (g4 ▸ hk) hc hl

/-! ### The dispatcher (R24, R27, R32, R352) -/

/-- The sequencers that a task starts on are different, and belong to regions. -/
theorem placesFor_nodup (s : State) (d : Desc) (c : Ctx) : (s.placesFor d c).Sublist (s.freeSeqs d.ctx c) := by
  unfold State.placesFor
  split
  · exact List.take_sublist _ _
  · dsimp only
    split
    · exact List.nil_sublist _
    · exact (List.take_sublist _ _).trans List.filter_sublist

theorem freeSeqs_spec {s : State} {ctx : Nat} {c : Ctx} :
    (s.freeSeqs ctx c).Nodup ∧ ∀ r ∈ s.freeSeqs ctx c, r < 128 ∧ ∃ k, s.planeIn ctx r = some k := by
  refine ⟨((List.nodup_range).filter _).filter _, fun r hr => ?_⟩
  obtain ⟨hp, hk⟩ := List.mem_filter.1 hr
  simp only [Bool.and_eq_true] at hk
  exact ⟨List.mem_range.1 (List.mem_filter.1 hp).1, Option.isSome_iff_exists.1 hk.2⟩

/-- What the registers of a sequencer hold at the start of an instance (R24). -/
def Started (v : Seq) (plane : Option Nat) (vf : Nat) (d : Desc) (index : Nat) : Prop :=
  v.run = .running ∧ v.priv = false ∧ v.ip = d.ip ∧ v.plane = plane ∧ v.read 1 = d.lrec ∧
    v.read 2 = BitVec.ofNat 64 index ∧ (∀ n : SReg, n ≠ 1 → n ≠ 2 → v.read n = 0) ∧ v.tstat = startTstat vf d

/-- Every plane is of the same context in both states. -/
def SamePlanes (s t : State) : Prop := ∀ k, (t.plane k).ctx = (s.plane k).ctx

theorem SamePlanes.planeIn {s t : State} (h : SamePlanes s t) (ctx r : Nat) : t.planeIn ctx r = s.planeIn ctx r := by
  unfold State.planeIn
  simp only [h _]

/-- The plane on which an instance of a context starts on a region, where it holds one. -/
def State.startPlane (s : State) (d : Desc) (r : Nat) : Option Plane := (s.planeIn d.ctx r).map fun k => s.plane (planeKey r k)

/-- The sequencer of a region when an instance starts on it. -/
def State.startSeq (s : State) (serial vf : Nat) (d : Desc) (r index : Nat) : Seq :=
  let sys := ((s.startPlane d r).map Plane.sys).getD SysRegs.zero
  { (Seq.released r (s.seq r)).withSys sys with
    run := .running, ip := d.ip, user := Vector.replicate 32 0 |>.set 1 d.lrec |>.set 2 (BitVec.ofNat 64 index)
    plane := s.planeIn d.ctx r, task := some { serial, ctx := d.ctx }, tstat := startTstat vf d
    pendFault := sys.pending (((s.startPlane d r).map fun pl => pl.frozen == .fault).getD false) }

section
variable {vf : Nat} {d : Desc} {serial : Nat}

theorem startSeq_started (s : State) (r index : Nat) (hr : r < 128) :
    Started (s.startSeq serial vf d r index) (s.planeIn d.ctx r) vf d index := by
  have hp : (s.startSeq serial vf d r index).priv = false := decide_eq_false (Nat.not_le.2 hr)
  have hread (n : SReg) : (s.startSeq serial vf d r index).read n =
      if n = 0 then 0 else vget (Vector.replicate 32 0 |>.set 1 d.lrec |>.set 2 (BitVec.ofNat 64 index)) n.toNat 0 := by
    unfold Seq.read Seq.regs
    rw [hp]
    rfl
  refine ⟨rfl, hp, rfl, rfl, ?_, ?_, fun n h1 h2 => ?_, rfl⟩
  · simp [hread, vget]
  · simp [hread, vget]
  · have hn1 : ¬ 1 = n.toNat := fun h => h1 (BitVec.eq_of_toNat_eq h.symm)
    have hn2 : ¬ 2 = n.toNat := fun h => h2 (BitVec.eq_of_toNat_eq h.symm)
    have hn := n.isLt
    rw [hread]
    simp only [vget, Vector.getElem?_set, hn1, hn2, if_false, Vector.getElem?_replicate, hn, if_true, Option.getD_some, ite_self]

theorem startInstance_eq (s : State) (r index : Nat) :
    s.startInstance serial vf d r index = (s.planeIn d.ctx r).elim (s.setSeq r (s.startSeq serial vf d r index)) fun k =>
      (s.setSeq r (s.startSeq serial vf d r index)).setPlane (planeKey r k)
        { s.plane (planeKey r k) with a := Vector.replicate 64 (Vector.replicate 16 0) } := by
  unfold State.startInstance State.startSeq State.startPlane
  cases s.planeIn d.ctx r <;> rfl

theorem startInstance_spec (s : State) (r index : Nat) (hr : r < 128) :
    let t := s.startInstance serial vf d r index
    t.mem = s.mem ∧ t.ctxs = s.ctxs ∧ SamePlanes s t ∧ (∀ j, j ≠ r → t.seq j = s.seq j) ∧
      Started (t.seq r) (s.planeIn d.ctx r) vf d index := by
  have hv := startSeq_started (serial := serial) (vf := vf) (d := d) s r index hr
  intro t
  rw [show t = _ from startInstance_eq s r index]
  cases hp : s.planeIn d.ctx r with
  | none =>
    rw [hp] at hv
    exact ⟨rfl, rfl, fun k => rfl, fun j hj => State.seq_setSeq_ne _ _ _ _ hj, by
      rw [Option.elim_none, State.seq_setSeq_self]
      exact hv⟩
  | some k =>
    rw [hp] at hv
    refine ⟨rfl, rfl, fun k' => ?_, fun j hj => State.seq_setSeq_ne _ _ _ _ hj, ?_⟩
    · rw [Option.elim_some]
      by_cases hk : k' = planeKey r k
      · rw [hk, State.plane_setPlane_self]
      · rw [State.plane_setPlane_ne _ _ _ _ hk]
        rfl
    · rw [Option.elim_some, State.seq_setPlane, State.seq_setSeq_self]
      exact hv

/-- Instances started one after another on different regions. -/
theorem startInstances_spec (index : Nat → Nat) (l : List (Nat × Nat)) (s : State) (hnd : (l.map Prod.snd).Nodup)
    (hr : ∀ e ∈ l, e.2 < 128) :
    let t := l.foldl (fun s e => s.startInstance serial vf d e.2 (index e.1)) s
    t.mem = s.mem ∧ t.ctxs = s.ctxs ∧ SamePlanes s t ∧ (∀ j, j ∉ l.map Prod.snd → t.seq j = s.seq j) ∧
      ∀ e ∈ l, Started (t.seq e.2) (s.planeIn d.ctx e.2) vf d (index e.1) := by
  induction l generalizing s with
  | nil => exact ⟨rfl, rfl, fun _ => rfl, fun _ _ => rfl, nofun⟩
  | cons e l ih =>
    obtain ⟨hm, hc, hp, hs, hst⟩ := startInstance_spec (serial := serial) (vf := vf) (d := d) s e.2 (index e.1)
      (hr e List.mem_cons_self)
    rw [List.map_cons, List.nodup_cons] at hnd
    obtain ⟨im, ic, ip, is, ist⟩ := ih (s.startInstance serial vf d e.2 (index e.1)) hnd.2
      fun x hx => hr x (List.mem_cons_of_mem _ hx)
    refine ⟨im.trans hm, ic.trans hc, fun k => (ip k).trans (hp k), fun j hj => ?_, fun x hx => ?_⟩
    · rw [List.map_cons, List.mem_cons, not_or] at hj
      exact (is j hj.2).trans (hs j hj.1)
    · obtain rfl | hx := List.mem_cons.1 hx
      · rw [List.foldl_cons, is x.2 hnd.1]
        exact hst
      · rw [← hp.planeIn]
        exact ist x hx

end

/-- The fields of TSTAT at the start of an instance (Table 14-2). -/
theorem startTstat_fields (vf : Nat) (d : Desc) :
    (bits (startTstat vf d) 48 16).toNat = d.branch.getD 0 % 2 ^ 16 ∧ bitAt (startTstat vf d) 47 = d.branch.isSome ∧
      (bits (startTstat vf d) 32 8).toNat = vf % 2 ^ 8 ∧ (bits (startTstat vf d) 29 3).toNat = d.prio % 8 ∧
      bits (startTstat vf d) 0 29 = 0 := by
  unfold startTstat
  refine ⟨?_, ?_, ?_, ?_, bits_append_last _ _⟩
  case refine_2 =>
    unfold bitAt
    simp only [BitVec.getLsbD_append]
    cases d.branch.isSome <;> rfl
  all_goals
    simp (disch := omega) only [bits, BitVec.extractLsb'_append_eq_of_le, BitVec.extractLsb'_append_eq_of_add_le, Nat.reduceSub]
    rw [BitVec.extractLsb'_eq_self, BitVec.toNat_ofNat]

/-! ### The dispatcher's decision -/

section
variable {s : State} {p vf i : Nat} {d : Desc} {c : Ctx}

/-- The task that the dispatcher's turn selects (R32, R33). -/
def State.picked (s : State) (p : Nat) : Option (Nat × Nat × Desc) :=
  if ((Tab.getD s.disps p Dispatcher.empty).decisions + 1) % 64 = 0 then oldest (s.readyTasks p)
  else nextInTurn (Tab.getD s.disps p Dispatcher.empty) (s.readyTasks p)

/-- The state of a decision: the swap-in requests that are due have been made, and it is counted. -/
def State.decided (s : State) (p vf : Nat) (d : Desc) : State :=
  State.countDecision { s with swapReqs := s.swapReqs ++ s.swapWants p } p vf d.prio

/-- A task of the descriptor as the dispatcher sees it: its branch seems dead. -/
def State.seemsDead (s : State) (p : Nat) (d : Desc) (c : Ctx) : Bool :=
  d.branch.elim false fun b => !c.seemsLive b ((Tab.getD s.disps p Dispatcher.empty).dead.contains (d.ctx, b))

variable (hp : s.picked p = some (vf, i, d)) (hc : s.ctx? d.ctx = some c) (hst : c.state ≠ .dying)
include hp hc hst

theorem exec_dispatchDecision (seq : Nat) : exec (.dispatchDecision p seq) s =
    if s.seemsDead p d c then .next ((s.decided p vf d).dropTask vf i d)
    else if (s.placesFor d c).head? ≠ some seq then .next { s with swapReqs := s.swapReqs ++ s.swapWants p }
    else .next ((s.decided p vf d).startTask vf i d c (s.placesFor d c)) := by
  let s' : State := { s with swapReqs := s.swapReqs ++ s.swapWants p }
  have hpick : (if ((Tab.getD s'.disps p Dispatcher.empty).decisions + 1) % 64 = 0 then oldest (s'.readyTasks p)
      else nextInTurn (Tab.getD s'.disps p Dispatcher.empty) (s'.readyTasks p)) = some (vf, i, d) := hp
  have hc' : s'.ctx? d.ctx = some c := hc
  have hd : (c.state == .dying) = false := beq_eq_false_iff_ne.2 hst
  show execDispatchDecision p seq s = _
  unfold execDispatchDecision
  simp only [s'] at hpick hc'
  simp only [hpick, hc', hd, Bool.false_or, bne_iff_ne]
  unfold State.seemsDead
  cases d.branch <;> rfl

end

theorem setDesc_same (s : State) (vf i : Nat) (d : Option Desc) :
    (s.setDesc vf i d).seqs = s.seqs ∧ (s.setDesc vf i d).planes = s.planes ∧ (s.setDesc vf i d).mem = s.mem ∧
      (s.setDesc vf i d).ctxs = s.ctxs := ⟨rfl, rfl, rfl, rfl⟩

/-- The context when the first instance of a task starts: its branch has run. -/
def Ctx.ranFor (c : Ctx) (d : Desc) : Ctx := d.branch.elim c fun b => c.setBranch b { c.branch b with ran := true }

/-- A task's next instances start on their places. -/
theorem startTask_spec {s : State} {d : Desc} {c : Ctx} {places : List Nat} (vf i : Nat) (hnd : places.Nodup)
    (hr : ∀ r ∈ places, r < 128) :
    let t := s.startTask vf i d c places
    let before := ((Tab.find? s.tasks (d.task.getD s.taskSerial)).map Task.started).getD 0
    let inner := match d.levels with | (_, n) :: _ => n | [] => 1
    t.mem = s.mem ∧ t.ctx? d.ctx = some (c.ranFor d) ∧ (∀ j, j ∉ places → t.seq j = s.seq j) ∧
      ∀ j x, places[j]? = some x → Started (t.seq x) (s.planeIn d.ctx x) vf d
        (if (groupSize d.levels).isSome then j else before % inner) := by
  let u : State := { s.setCtx d.ctx (c.ranFor d) with taskSerial := if d.task.isSome then s.taskSerial else s.taskSerial + 1 }
  let before := ((Tab.find? s.tasks (d.task.getD s.taskSerial)).getD { desc := d, started := 0, live := 0, closed := false }).started
  let inner := match d.levels with | (_, n) :: _ => n | [] => 1
  let serial := d.task.getD s.taskSerial
  let l := (List.range places.length).zip places
  let t' := l.foldl (fun s e => s.startInstance serial vf d e.2 (if (groupSize d.levels).isSome then e.1 else before % inner)) u
  have hbefore : before = ((Tab.find? s.tasks (d.task.getD s.taskSerial)).map Task.started).getD 0 := by
    unfold before
    cases Tab.find? s.tasks (d.task.getD s.taskSerial) <;> rfl
  have hsnd : l.map Prod.snd = places := List.map_snd_zip (by simp)
  obtain ⟨hm, hc, -, hs, hst⟩ := startInstances_spec (serial := serial) (vf := vf) (d := d)
    (fun j => if (groupSize d.levels).isSome then j else before % inner) l u (by rw [hsnd]; exact hnd) fun e he =>
      hr _ (hsnd ▸ List.mem_map_of_mem he)
  have ht : ∃ tasks o, s.startTask vf i d c places = ({ t' with tasks } : State).setDesc vf i o := by
    have hran : c.ranFor d = match d.branch with
        | some b => c.setBranch b { c.branch b with ran := true }
        | none => c := by
      unfold Ctx.ranFor
      cases d.branch <;> rfl
    simp only [t', u, hran]
    exact ⟨_, _, rfl⟩
  obtain ⟨tasks, o, ht⟩ := ht
  intro t before' inner'
  have hseq (j : Nat) : t.seq j = t'.seq j := by rw [show t = _ from ht]; rfl
  refine ⟨by rw [show t = _ from ht]; exact hm, ?_, fun j hj => (hseq j).trans (hs j (by rw [hsnd]; exact hj)),
    fun j x hx => ?_⟩
  · rw [show t = _ from ht]
    show Tab.find? t'.ctxs d.ctx = _
    rw [hc]
    exact State.ctx_setCtx_self s d.ctx _
  · rw [hseq]
    have hlt : j < places.length := (List.getElem?_eq_some_iff.1 hx).1
    have he : (j, x) ∈ l := by
      refine List.mem_iff_getElem?.2 ⟨j, ?_⟩
      rw [List.getElem?_zip_eq_some]
      exact ⟨by simp [hlt], hx⟩
    rw [show before' = _ from hbefore.symm]
    exact hst (j, x) he

/-- A dead entry becomes free only where its ACT is 0. -/
theorem settleBranch_act (c : Ctx) (b : Nat) : ((c.settleBranch b).branch b).act = (c.branch b).act := by
  unfold Ctx.settleBranch
  dsimp only
  split
  next h =>
    simp only [Bool.and_eq_true, decide_eq_true_eq] at h
    rw [h.1.2]
    show (Tab.getD (Tab.drop c.branches b) b Branch.free).act = 0
    rw [Tab.getD, Tab.find?_drop, if_pos rfl]
    rfl
  next => rfl

/-- A branch's task less. -/
theorem dropTask_spec {s : State} {d : Desc} {c : Ctx} {b : Nat} (vf i : Nat) (hc : s.ctx? d.ctx = some c)
    (hb : d.branch = some b) (ht : d.task = none) :
    let t := s.dropTask vf i d
    t.seqs = s.seqs ∧ t.planes = s.planes ∧ t.mem = s.mem ∧
      ∃ y, t.ctx? d.ctx = some y ∧ (y.branch b).act = (c.branch b).act - 1 := by
  have hdrop : s.dropTask vf i d = (s.setDesc vf i none).taskEnd d := by
    simp only [State.dropTask, ht, Option.bind_none]
  have hend : (s.setDesc vf i none).taskEnd d =
      (s.setDesc vf i none).setCtx d.ctx ((c.endTask (some b)).freeMail d.mail) := by
    have hc' : (s.setDesc vf i none).ctx? d.ctx = some c := hc
    simp only [State.taskEnd, hc', hb]
  have hfree (y : Ctx) : (y.freeMail d.mail).branch b = y.branch b := by
    unfold Ctx.freeMail
    split <;> rfl
  intro t
  rw [show t = _ from hdrop.trans hend]
  refine ⟨rfl, rfl, rfl, _, State.ctx_setCtx_self _ _ _, ?_⟩
  rw [hfree]
  show ((Ctx.settleBranch _ b).branch b).act = _
  rw [settleBranch_act, Ctx.branch_setBranch, if_pos rfl]

/-- Settles O27: a decision starts its task's instances by `startTask`, or drops the task by `dropTask`. -/
theorem dispatchStarts : Obligations.DispatchStarts := by
  intro s p vf i d c disp hpick hc hst
  have hx := exec_dispatchDecision (s := s) (p := p) hpick hc hst
  refine ⟨fun r rest hpl hlive hnew => ?_, fun r b hb h1 hm ht => ?_⟩
  · have hsub := placesFor_nodup s d c
    obtain ⟨hnd, hin⟩ := freeSeqs_spec (s := s) (ctx := d.ctx) (c := c)
    have hseems : s.seemsDead p d c = false := by
      unfold State.seemsDead
      cases hb : d.branch with
      | none => rfl
      | some b =>
        have hl := hlive b hb
        simp only [Ctx.isLive, Bool.and_eq_true] at hl
        simp [Ctx.seemsLive, hl.1, hl.2]
    have hgo : exec (.dispatchDecision p r) s = .next ((s.decided p vf d).startTask vf i d c (s.placesFor d c)) := by
      rw [hx r, hseems, if_neg (by decide), if_neg (by rw [hpl]; simp)]
    obtain ⟨h1, h2, h3, h4⟩ := startTask_spec (s := s.decided p vf d) (d := d) (c := c) vf i (hnd.sublist hsub)
      fun x hx => (hin x (hsub.subset hx)).1
    rw [hpl] at hgo h1 h2 h3 h4
    refine ⟨_, hgo, h1, fun j x hj => ?_, h3, fun b hb => ⟨_, h2, ?_⟩⟩
    · obtain ⟨g1, g2, g3, g4, g5, g6, g7, g8⟩ := h4 j x hj
      obtain ⟨k, hk⟩ := (hin x (hsub.subset (hpl ▸ List.mem_of_getElem? hj))).2
      have hbefore : ((Tab.find? (s.decided p vf d).tasks (d.task.getD (s.decided p vf d).taskSerial)).map Task.started).getD 0 =
          ((d.task.bind fun n => Tab.find? s.tasks n).map Task.started).getD 0 := by
        cases ht : d.task with
        | none =>
          show ((Tab.find? s.tasks s.taskSerial).map Task.started).getD 0 = _
          rw [hnew ht]
          rfl
        | some n => rfl
      rw [hbefore] at g6
      refine ⟨g1, g2, g3, ⟨k, hk, g4.trans hk⟩, g5, g6, g7, ?_⟩
      rw [g8]
      exact startTstat_fields vf d
    · unfold Ctx.ranFor
      rw [hb, Option.elim_some, Ctx.branch_setBranch, if_pos rfl]
  · have hseems : s.seemsDead p d c = true := by
      unfold State.seemsDead
      rw [hb]
      have hne : ((c.branch b).st == 1) = false := beq_eq_false_iff_ne.2 h1
      have hnm : c.marked.contains b = false := by simpa using hm
      simp only [Option.elim_some, Ctx.seemsLive, hne, hnm, Bool.and_false, Bool.false_and, Bool.or_self, Bool.not_false]
    obtain ⟨g1, g2, g3, y, g4, g5⟩ := dropTask_spec (s := s.decided p vf d) vf i hc hb ht
    exact ⟨_, y, (hx r).trans (if_pos hseems), g1, g2, g3, g4, g5⟩

end Sys2Proof.Machine
end

