-- ==== Sys2Proof/Proofs/Messages.lean ====
section
/-!
PROOFS. O28: active messages, handlers and triggers.
-/

namespace Sys2Proof.Machine

/-! ### Messages in a mailbox (R365, R366) -/

theorem pickOf_mem {l : List Nat} (h : l ≠ []) (i : Nat) : ∃ x, pickOf l i = some x ∧ x ∈ l := by
  have hlt : i % l.length < l.length := Nat.mod_lt _ (List.length_pos_iff.2 h)
  exact ⟨l[i % l.length], List.getElem?_eq_getElem hlt, List.getElem_mem hlt⟩

/-- A message's task is queued while the queue has room. -/
theorem enqueueMail_spec (s : State) (vf : Nat) (d : Desc) :
    (s.enqueueMail vf d).seqs = s.seqs ∧ (s.enqueueMail vf d).ctxs = s.ctxs ∧
      ((s.queue vf).descs.length < 65536 → ((s.enqueueMail vf d).queue vf).descs = (s.queue vf).descs ++ [d]) := by
  unfold State.enqueueMail
  dsimp only
  split
  · exact ⟨rfl, rfl, fun _ => by simp [State.enqueue, State.queue, State.setQueue]⟩
  next hl => exact ⟨rfl, rfl, fun h => absurd h hl⟩

/-- What a message placed in a mailbox changes (R365, R366). -/
def MailPlaced (s t : State) (k : Nat) (c : Ctx) (m : Mail) : Prop :=
  t.ctx? k = some { c with mail := c.mail ++ [m] } ∧ m.entry ∈ c.freeMailEntries ∧
    (m.held = true ↔ c.resolve m.handler = none) ∧
    (∀ x, c.resolve m.handler = some x → (s.queue c.vf).descs.length < 65536 →
      ∃ e, (t.queue c.vf).descs = (s.queue c.vf).descs ++ [e] ∧ e.ip = x.ip ∧ e.prio = x.prio ∧ e.ctx = k ∧
        e.mail = some m.entry) ∧
    ∀ q, ∃ l, t.seq q = { s.seq q with ftoks := l }

theorem placeMail_spec (s : State) (k : Nat) (c : Ctx) (h sender : Nat) (w0 w1 : Word) (hf : c.freeMailEntries ≠ []) :
    ∃ m : Mail, MailPlaced s (s.placeMail k c h sender w0 w1).1 k c m ∧
      (s.placeMail k c h sender w0 w1).2 = some m.entry ∧ m.handler = h ∧ m.sender = sender ∧ m.w0 = w0 ∧ m.w1 = w1 := by
  obtain ⟨entry, hp, hm⟩ := pickOf_mem hf (Config.freeIndex s.frees)
  let u : State := { s with frees := s.frees + 1 }
  cases hr : c.resolve h with
  | some x =>
    let m : Mail := { entry, handler := h, sender, w0, w1, held := false }
    let c' : Ctx := { c with mail := c.mail ++ [m] }
    have heq : s.placeMail k c h sender w0 w1 = ((u.setCtx k c').deliverMail k c' m x, some entry) := by
      unfold State.placeMail
      rw [hp]
      dsimp only
      rw [hr]
    rw [heq]
    obtain ⟨h1, h2, h3⟩ := enqueueMail_spec
      { u.setCtx k c' with mem := (u.setCtx k c').mem.poke 0 (keyed (c'.mailKey m.entry) (mailBytes x.version.toNat m.sender m.w0 m.w1)) }
      c'.vf (mailDesc k x m.entry s.cycle)
    refine ⟨m, ⟨?_, hm, ⟨nofun, fun hn => absurd (hr.symm.trans hn) nofun⟩, fun y hy hl => ?_, fun q => ⟨(s.seq q).ftoks, ?_⟩⟩,
      rfl, rfl, rfl, rfl, rfl⟩
    · exact (congrArg (fun t => Tab.find? t k) h2).trans (State.ctx_setCtx_self u k c')
    · cases hr.symm.trans hy
      exact ⟨_, h3 hl, rfl, rfl, rfl, rfl⟩
    · exact congrArg (fun t => Tab.getD t q _) h1
  | none =>
    let m : Mail := { entry, handler := h, sender, w0, w1, held := true }
    let c' : Ctx := { c with mail := c.mail ++ [m] }
    have heq : s.placeMail k c h sender w0 w1 = ((u.setCtx k c').noHandler k h, some entry) := by
      unfold State.placeMail
      rw [hp]
      dsimp only
      rw [hr]
    rw [heq]
    refine ⟨m, ⟨?_, hm, ⟨fun _ => hr, fun _ => rfl⟩, fun y hy => absurd (hr.symm.trans hy) nofun, fun q =>
      ⟨(((u.setCtx k c').noHandler k h).seq q).ftoks, ?_⟩⟩,
      rfl, rfl, rfl, rfl, rfl⟩
    · exact State.ctx_setCtx_self u k c'
    · unfold State.noHandler
      rw [State.seq_sendToken]
      rfl

/-! ### amsg (R376) -/

section
variable {s : State} {q n : Nat} {x : Ctx} {d a b c : SReg} {h : BitVec 8} (hi : Issues s q [d, a, b, c])
  (hq : s.ctxOf q = some n) (hx : s.ctx? n = some x)
include hi

theorem exec_amsg_brval (hs : (s.seq q).stage = .fresh) (ha : bits ((s.seq q).read a) 16 48 ≠ 0) :
    exec (.amsg d a b c h) s = .next (s.raise q .brval 0) := by
  refine (hi.runs false _).trans ?_
  simp only [hs, hi.2.2.1, bne_iff_ne.2 ha, Bool.not_true, Bool.false_eq_true, if_false, if_true]

include hq hx

theorem exec_amsg_fresh (hs : (s.seq q).stage = .fresh) (ha : bits ((s.seq q).read a) 16 48 = 0) :
    exec (.amsg d a b c h) s = .next ((s.place q { Ev.blank with kind := .fence .rel, scope := .mod, ctx := n }).await q 0
      s.nextId none) := by
  refine (hi.runs false _).trans ?_
  simp only [hs, hi.2.2.1, ha, bne_self_eq_false, Bool.not_true, Bool.false_eq_true, if_false]
  rw [withCtx_of_ctxOf hq hx]

theorem exec_amsg_back {m : Nat} {bs : List Byte} {bad : Option Cause} {hit : Option (Nat × Word)}
    (hs : (s.seq q).stage = .back m bs bad hit) :
    exec (.amsg d a b c h) s = .next
      ((State.sendMail (s.setSeq q ((s.seq q).setWait .none)) n x.key (bits ((s.seq q).read a) 0 16).toNat h.toNat
        ((s.seq q).read b) ((s.seq q).read c)).2.finish q d
      (State.sendMail (s.setSeq q ((s.seq q).setWait .none)) n x.key (bits ((s.seq q).read a) 0 16).toNat h.toNat
        ((s.seq q).read b) ((s.seq q).read c)).1 8) := by
  refine (hi.runs false _).trans ?_
  simp only [hs]
  rw [withCtx_of_ctxOf hq hx]

end

section
variable {s : State} {n key tgt h : Nat} {w0 w1 : Word}

theorem sendMail_absent (hc : s.ctx? tgt = none) : s.sendMail n key tgt h w0 w1 = (3, s) := by
  simp only [State.sendMail, hc]

variable {y : Ctx} (hc : s.ctx? tgt = some y)
include hc

theorem sendMail_stranger (hk : y.key ≠ key) : s.sendMail n key tgt h w0 w1 = (3, s) := by
  simp only [State.sendMail, hc, bne_iff_ne.2 hk, if_true]

theorem sendMail_closed (hk : y.key = key) (hd : y.state = .dying ∨ y.mailClosed = true) :
    s.sendMail n key tgt h w0 w1 = (2, s) := by
  have hb : (y.state == .dying || y.mailClosed) = true := by
    obtain hd | hd := hd
    · rw [hd]
      rfl
    · rw [hd, Bool.or_true]
  simp only [State.sendMail, hc, hk, hb, bne_self_eq_false, Bool.false_eq_true, if_false, if_true]

variable (hk : y.key = key) (hd : y.state ≠ .dying) (hcl : y.mailClosed = false)
include hk hd hcl

theorem sendMail_full (hl : 4096 ≤ y.mail.length) : s.sendMail n key tgt h w0 w1 = (1, s) := by
  have hb : (y.state == .dying || y.mailClosed) = false := by rw [hcl, Bool.or_false, beq_eq_false_iff_ne.2 hd]
  simp only [State.sendMail, hc, hk, hb, hl, bne_self_eq_false, Bool.false_eq_true, if_false, if_true]

theorem sendMail_queued (hl : y.mail.length < 4096) :
    s.sendMail n key tgt h w0 w1 = (0, (s.placeMail tgt y h n w0 w1).1) := by
  have hb : (y.state == .dying || y.mailClosed) = false := by rw [hcl, Bool.or_false, beq_eq_false_iff_ne.2 hd]
  simp only [State.sendMail, hc, hk, hb, Nat.not_le.2 hl, bne_self_eq_false, Bool.false_eq_true, if_false]

end

/-! ### hbind (R377) -/

/-- A handler entry that `hbind` accepts (R377). -/
def LegalHandler (x : TaskQueue) (w : Word) : Prop :=
  bits w 55 9 = 0 ∧ bits w 0 2 = 0 ∧ x.plo ≤ (bits w 52 3).toNat ∧ (bits w 52 3).toNat ≤ x.phi

theorem handlerOk_iff {x : TaskQueue} {w : Word} : handlerOk x w = true ↔ LegalHandler x w := by
  simp only [handlerOk, LegalHandler, Bool.and_eq_true, beq_iff_eq, decide_eq_true_eq, and_assoc]

section
variable {s : State} {q ctx : Nat} {c : Ctx} {d a b : SReg} (hi : Issues s q [d, a, b])
  (hq : s.ctxOf q = some ctx) (hc : s.ctx? ctx = some c)

/-- The handler that `hbind` writes. -/
def Handler.bound (version : BitVec 16) (w : Word) : Handler :=
  { ip := (bits w 0 52).setWidth 64, prio := (bits w 52 3).toNat, valid := w != 0, version }

/-- The handlers of a context when index h has been bound. -/
def Ctx.bindings (c : Ctx) (h : Nat) (w : Word) : Tab Handler :=
  Tab.put c.handlers h (.bound ((c.handler h).version + 1) w)

include hi hq hc

theorem exec_hbind_brval (h : 256 ≤ ((s.seq q).read a).toNat ∨ ¬ LegalHandler (s.queue c.vf) ((s.seq q).read b)) :
    exec (.hbind d a b) s = .next (s.raise q .brval 0) := by
  refine (hi.runs false _).trans ?_
  simp only [hi.2.2.1, Bool.not_true, Bool.false_eq_true, if_false]
  rw [withCtx_of_ctxOf hq hc]
  refine if_pos ?_
  rw [← handlerOk_iff] at h
  simpa using h

theorem exec_hbind (h256 : ((s.seq q).read a).toNat < 256) (hl : LegalHandler (s.queue c.vf) ((s.seq q).read b))
    (hm : ∀ m ∈ c.mail, m.held = false) :
    exec (.hbind d a b) s = .next ((s.setCtx ctx { c with handlers := (c.bindings ((s.seq q).read a).toNat ((s.seq q).read b)) }).finish q d
        (((c.handler ((s.seq q).read a).toNat).version + 1).setWidth 64) 4) := by
  refine (hi.runs false _).trans ?_
  simp only [hi.2.2.1, Bool.not_true, Bool.false_eq_true, if_false]
  rw [withCtx_of_ctxOf hq hc]
  simp only [handlerOk_iff.2 hl, Nat.not_le.2 h256, decide_false, Bool.not_true, Bool.or_self, Bool.false_eq_true, if_false]
  split
  · rfl
  · have hnone (p : Mail → Bool) : c.mail.filter (fun m => m.held && p m) = [] :=
      List.filter_eq_nil_iff.2 fun m hm' => by rw [hm m hm']; simp
    simp only [State.bindHeld, State.ctx_setCtx_self, hnone, List.foldl_nil]
    rfl

end

/-! ### Triggers (R367, R378) -/

section
variable {s : State} {q ctx : Nat} {c : Ctx} {slot : BitVec 4} {h : BitVec 8} (hq : s.ctxOf q = some ctx)
  (hc : s.ctx? ctx = some c)
include hq hc

theorem exec_trigOff (hi : Issues s q []) : exec (.trigOff slot) s = .next ((s.setTrig ctx c slot
    { vget c.trigs slot.toNat Trig.empty with arm := false, pend := false, count := 0 }).advance q 8) := by
  refine (hi.runs false _).trans ?_
  rw [withCtx_of_ctxOf hq hc]

theorem exec_trigPort {port : QReg} (hi : Issues s q []) : exec (.trigPort slot h port) s = .next ((s.setTrig ctx c slot
    ((vget c.trigs slot.toNat Trig.empty).rearm (some (q, port.toNat)) 0 0 h.toNat)).advance q 8) := by
  refine (hi.runs false _).trans ?_
  rw [withCtx_of_ctxOf hq hc]

theorem exec_trigAdr {a b : SReg} {p : Phys} (hi : Issues s q [a, b]) (h0 : 0 < ((s.seq q).read b).toNat)
    (h20 : ((s.seq q).read b).toNat ≤ 2 ^ 20) (hp : s.reach q (reqLoad q) ((s.seq q).read a) 1 .copyRead = .to p)
    (hok : trigRangeOk p.leaf ((s.seq q).read a).toNat ((s.seq q).read b).toNat = true) :
    exec (.trigAdr a b slot h) s = .next ((s.setTrig ctx c slot ((vget c.trigs slot.toNat Trig.empty).rearm none p.key
      (p.key + ((s.seq q).read b).toNat) h.toNat)).advance q 8) := by
  refine (hi.runs false _).trans ?_
  simp only [hi.2.2.1, Bool.not_true, Bool.false_eq_true, if_false]
  rw [withCtx_of_ctxOf hq hc]
  have hn : (decide (((s.seq q).read b).toNat = 0) || decide (2 ^ 20 < ((s.seq q).read b).toNat)) = false := by
    rw [decide_eq_false (by omega), decide_eq_false (by omega)]
    rfl
  simp only [hn, hp, hok, Bool.not_true, Bool.false_eq_true, if_false]

theorem exec_trigRd {d : SReg} (hi : Issues s q [d]) : exec (.trigRd d slot) s = .next (s.finish q d
    (bit1 (vget c.trigs slot.toNat Trig.empty).arm ++ bit1 (vget c.trigs slot.toNat Trig.empty).pend ++ (0 : BitVec 30) ++
      BitVec.ofNat 32 (vget c.trigs slot.toNat Trig.empty).count) 8) := by
  refine (hi.runs false _).trans ?_
  simp only [Issues.ready hi List.mem_cons_self, Bool.not_true, Bool.false_eq_true, if_false]
  rw [withCtx_of_ctxOf hq hc]

omit hq hc in
/-- A slot replaced: the context's other slots, the registers and memory stay. -/
theorem setTrig_spec (s : State) (q ctx : Nat) (c : Ctx) (slot : BitVec 4) (t : Trig) :
    ∃ y, ((s.setTrig ctx c slot t).advance q 8).ctx? ctx = some y ∧ vget y.trigs slot.toNat Trig.empty = t ∧
      (∀ i, i ≠ slot.toNat → vget y.trigs i Trig.empty = vget c.trigs i Trig.empty) ∧
      RegsStay s ((s.setTrig ctx c slot t).advance q 8) q ∧
      (((s.setTrig ctx c slot t).advance q 8).seq q).ip = (s.seq q).ip + 8 ∧
      ((s.setTrig ctx c slot t).advance q 8).mem = s.mem := by
  refine ⟨{ c with trigs := vput c.trigs slot.toNat t }, State.ctx_setCtx_self _ _ _, vget_vput_self _ _ _ _ slot.isLt,
    fun i hi => vget_vput_ne _ _ _ _ _ hi, ?_, ?_, rfl⟩
  · unfold RegsStay State.advance
    rw [State.seq_setSeq_self]
    exact ⟨rfl, rfl⟩
  · unfold State.advance
    rw [State.seq_setSeq_self]
    rfl

end

/-- A slot armed from rest has neither fired nor counted. -/
theorem rearm_spec (t : Trig) (port : Option (Nat × Nat)) (lo hi h : Nat) :
    (t.rearm port lo hi h).arm = true ∧ (t.rearm port lo hi h).port = port ∧ (t.rearm port lo hi h).lo = lo ∧
      (t.rearm port lo hi h).hi = hi ∧ (t.rearm port lo hi h).handler = h ∧
      (t.arm = false → (t.rearm port lo hi h).pend = false ∧ (t.rearm port lo hi h).count = 0) := by
  unfold Trig.rearm
  cases ha : t.arm
  · exact ⟨rfl, rfl, rfl, rfl, rfl, fun _ => ⟨rfl, rfl⟩⟩
  · exact ⟨rfl, rfl, rfl, rfl, rfl, nofun⟩

/-- The word that `trig.rd` writes. -/
theorem trigWord_fields (x y : Bool) (n : Nat) :
    let w : Word := bit1 x ++ bit1 y ++ (0 : BitVec 30) ++ BitVec.ofNat 32 n
    bitAt w 63 = x ∧ bitAt w 62 = y ∧ bits w 0 32 = BitVec.ofNat 32 n := by
  refine ⟨?_, ?_, bits_append_last _ _⟩
  · unfold bitAt
    simp only [BitVec.getLsbD_append]
    cases x <;> rfl
  · unfold bitAt
    simp only [BitVec.getLsbD_append]
    cases y <;> rfl

theorem exec_triggerMessage {s : State} {ctx slot : Nat} {c : Ctx} {m : Mail} (hc : s.ctx? ctx = some c) (h16 : slot < 16)
    (hp : (vget c.trigs slot Trig.empty).pend = true)
    (hv : (c.handler (vget c.trigs slot Trig.empty).handler).valid = true) (hn : (vget c.trigs slot Trig.empty).mail = none)
    (hl : c.mail.length < 4096) (hcl : c.mailClosed = false) (hd : c.state ≠ .dying)
    (ht : (s.placeMail ctx c (vget c.trigs slot Trig.empty).handler ctx (BitVec.ofNat 64 slot)
      (BitVec.ofNat 64 (vget c.trigs slot Trig.empty).count)).1.ctx? ctx = some { c with mail := c.mail ++ [m] }) :
    exec (.triggerMessage ctx slot) s = .next
      ((s.placeMail ctx c (vget c.trigs slot Trig.empty).handler ctx (BitVec.ofNat 64 slot)
        (BitVec.ofNat 64 (vget c.trigs slot Trig.empty).count)).1.setCtx ctx { c with
          mail := c.mail ++ [m]
          trigs := vput c.trigs slot { vget c.trigs slot Trig.empty with
            pend := false, count := 0
            mail := (s.placeMail ctx c (vget c.trigs slot Trig.empty).handler ctx (BitVec.ofNat 64 slot)
              (BitVec.ofNat 64 (vget c.trigs slot Trig.empty).count)).2 } }) := by
  have hdy : (c.state != .dying) = true := bne_iff_ne.2 hd
  show execTriggerMessage ctx slot s = _
  simp only [execTriggerMessage, hc, h16, hp, hv, hn, hl, hcl, hdy, ht, decide_true, Option.isNone_none, Bool.not_false,
    Bool.and_self, if_true]

/-- Settles O28: messages by `placeMail`, `hbind` and the forms of `trig` by their equations. -/
theorem messagesAndHandlers : Obligations.MessagesAndHandlers := by
  unfold Obligations.MessagesAndHandlers
  refine ⟨fun s q n x d a b c h hi hq hx => ?_, fun s q ctx c d a b hi hq hc => ?_, fun s q ctx c slot hc => ?_⟩
  · intro v tgt u ends
    refine ⟨fun hs ha => ?_, fun hs ha hinh => ⟨_, exec_amsg_brval hi hs ha, State.raise_trapped _ _ _ _ hinh⟩,
      fun m bs bad hit hs => ?_⟩
    · obtain ⟨hpl, hregs, hip, -⟩ := placed_await (s := s)
        (e := { Ev.blank with kind := .fence .rel, scope := .mod, ctx := n }) hi.1 0 none
      exact ⟨_, _, exec_amsg_fresh hi hq hx hs ha, hpl, rfl, rfl, hregs, hip⟩
    · have hb := exec_amsg_back (h := h) hi hq hx hs
      have hend {z : Word} (hz : u.sendMail n x.key tgt h.toNat (v.read b) (v.read c) = (z, u)) : ends z := by
        rw [hz] at hb
        refine SeqGoesOn.of_finish hb ?_ ?_ ?_ ?_ rfl rfl <;> rw [State.seq_setSeq_self]
        · exact Seq.setWait_ip _ _
        · exact Seq.setWait_priv _ _
        · exact Seq.setWait_user _ _
        · exact Seq.setWait_bank _ _
      refine ⟨fun hn => hend (sendMail_absent hn), fun y hy => ⟨fun hk => hend (sendMail_stranger hy hk),
        fun hk hd => hend (sendMail_closed hy hk hd), fun hk hd hcl hl => hend (sendMail_full hy hk hd hcl hl),
        fun hk hd hcl hl hf => ?_⟩⟩
      obtain ⟨m, ⟨h1, h2, h3, h4, h5⟩, -, g1, g2, g3, g4⟩ := placeMail_spec u tgt y h.toNat n (v.read b) (v.read c) hf
      rw [sendMail_queued (s := u) hy hk hd hcl hl] at hb
      generalize (u.placeMail tgt y h.toNat n (v.read b) (v.read c)).1 = t at hb h1 h4 h5
      obtain ⟨l, hl⟩ := h5 q
      rw [g1] at h3 h4
      refine ⟨_, { y with mail := y.mail ++ [m] }, m, hb, h1, rfl, h2, g1, g2, g3, g4, h3, h4, fun r => ?_, ?_⟩
      · unfold State.finish
        rw [State.seq_setSeq_self, hl, State.seq_setSeq_self]
        exact (Seq.read_write _ d r 0).trans (by
          rw [show Seq.read { (s.seq q).setWait .none with ftoks := l } r = _ from Seq.setWait_read _ _ _])
      · unfold State.finish
        rw [State.seq_setSeq_self, hl, State.seq_setSeq_self]
        unfold Seq.write Seq.writeBank
        split_ifs <;> exact congrArg (· + _) (Seq.setWait_ip _ _)
  · intro v h w legal
    refine ⟨fun h256 hl hm => ?_, fun hbad hinh => ⟨_, exec_hbind_brval hi hq hc hbad, State.raise_trapped _ _ _ _ hinh⟩⟩
    let x := Handler.bound ((c.handler h).version + 1) w
    have hh : ({ c with handlers := Tab.put c.handlers h x } : Ctx).handler h = x := Tab.getD_put_self _ _ _ _
    obtain ⟨hr, hip⟩ := finish_writes (s := s) (u := s.setCtx ctx { c with handlers := Tab.put c.handlers h x }) (q := q) (d := d)
      (x := ((c.handler h).version + 1).setWidth 64) (n := 4) rfl
    refine ⟨_, _, exec_hbind hi hq hc h256 hl hm, State.ctx_setCtx_self _ _ _, ?_, ?_, ?_, ?_, hr, hip, rfl⟩
    · exact congrArg Handler.valid hh
    · refine (congrArg Handler.ip hh).trans ?_
      apply BitVec.eq_of_toNat_eq
      simp [x, Handler.bound, bits]
    · exact congrArg Handler.prio hh
    · exact congrArg Handler.version hh
  · intro v x
    refine ⟨fun hq => ⟨fun hi => ?_, fun h port hi => ?_, fun a b h p hi h0 h20 hp hok => ?_, fun d hi hn => ?_⟩,
      fun hp hv hn hl hf hcl hd => ?_⟩
    · obtain ⟨y, h1, h2, h3, h4, h5, h6⟩ := setTrig_spec s q ctx c slot { x with arm := false, pend := false, count := 0 }
      exact ⟨_, y, exec_trigOff hq hc hi, h1, h2, h3, h4, h5, h6⟩
    · obtain ⟨y, h1, h2, -, h4, h5, h6⟩ := setTrig_spec s q ctx c slot (x.rearm (some (q, port.toNat)) 0 0 h.toNat)
      obtain ⟨g1, g2, -, -, g3, g4⟩ := rearm_spec x (some (q, port.toNat)) 0 0 h.toNat
      exact ⟨_, y, _, exec_trigPort hq hc hi, h1, h2, g1, g2, g3, g4, h4, h5, h6⟩
    · obtain ⟨y, h1, h2, -, h4, h5, h6⟩ := setTrig_spec s q ctx c slot
        (x.rearm none p.key (p.key + ((s.seq q).read b).toNat) h.toNat)
      obtain ⟨g1, g2, g3, g4, g5, g6⟩ := rearm_spec x none p.key (p.key + ((s.seq q).read b).toNat) h.toNat
      exact ⟨_, y, _, exec_trigAdr hq hc hi h0 h20 hp hok, h1, h2, g1, g2, g3, g4, g5, g6, h4, h5, h6⟩
    · obtain ⟨g1, g2, g3⟩ := trigWord_fields x.arm x.pend x.count
      exact ⟨_, .of_finish (exec_trigRd hq hc hi), g1, g2, (congrArg _ g3).trans (ofNat_toNat_of_lt hn)⟩
    · obtain ⟨m, ⟨h1, h2, h3, h4, h5⟩, he, g1, g2, g3, g4⟩ := placeMail_spec s ctx c x.handler ctx (BitVec.ofNat 64 slot.toNat)
        (BitVec.ofNat 64 x.count) hf
      have hres : c.resolve x.handler = some (c.handler x.handler) := by
        simp only [Ctx.resolve, hv, if_true]
      refine ⟨_, _, m, exec_triggerMessage hc slot.isLt hp hv hn hl hcl hd h1, State.ctx_setCtx_self _ _ _, rfl, g1, g3, g4, ?_, ?_⟩
      · rw [g1, hres] at h3
        simpa using h3
      · rw [he]
        exact vget_vput_self _ _ _ _ slot.isLt

end Sys2Proof.Machine
end

