-- ==== Sys2Proof/Proofs/ImageCheck.lean ====
section
/-!
PROOFS. O29: the check of a block image finds no failure exactly where no cause of Tables 2-11 and 2-15 holds, and reports
the one that R467 picks.
-/

namespace Sys2Proof.Machine

/-! ### Lists with their indices -/

theorem getElem?_indexed {β : Type} (l : List β) (i : Nat) : (indexed l)[i]? = l[i]?.map fun x => (i, x) := by
  unfold indexed
  by_cases h : i < l.length
  · rw [List.getElem?_eq_getElem (by simpa using h), List.getElem?_eq_getElem h]
    simp
  · rw [List.getElem?_eq_none (by simpa using h), List.getElem?_eq_none (Nat.not_lt.1 h)]
    rfl

theorem mem_indexed {β : Type} {l : List β} {e : Nat × β} : e ∈ indexed l ↔ l[e.1]? = some e.2 := by
  rw [List.mem_iff_getElem?]
  constructor
  · rintro ⟨i, hi⟩
    rw [getElem?_indexed, Option.map_eq_some_iff] at hi
    obtain ⟨x, hx, rfl⟩ := hi
    exact hx
  · intro h
    exact ⟨e.1, by rw [getElem?_indexed, h]; rfl⟩

theorem findSome?_indexed_none {β γ : Type} {l : List β} {f : Nat × β → Option γ} :
    (indexed l).findSome? f = none ↔ ∀ i x, l[i]? = some x → f (i, x) = none := by
  rw [List.findSome?_eq_none_iff]
  exact ⟨fun h i x hx => h (i, x) (mem_indexed.2 hx), fun h e he => h e.1 e.2 (mem_indexed.1 he)⟩

/-- What the first index gives at which f has a value. -/
theorem findSome?_indexed_some {β γ : Type} {l : List β} {f : Nat × β → Option γ} {y : γ}
    (h : (indexed l).findSome? f = some y) :
    ∃ i x, l[i]? = some x ∧ f (i, x) = some y ∧ ∀ j z, j < i → l[j]? = some z → f (j, z) = none := by
  obtain ⟨l₁, a, l₂, hl, ha, hn⟩ := List.findSome?_eq_some_iff.1 h
  have hat : (indexed l)[l₁.length]? = some a := by rw [hl]; simp
  rw [getElem?_indexed, Option.map_eq_some_iff] at hat
  obtain ⟨x, hx, rfl⟩ := hat
  refine ⟨l₁.length, x, hx, ha, fun j z hj hz => hn _ ?_⟩
  have hj' : (indexed l)[j]? = some (j, z) := by rw [getElem?_indexed, hz]; rfl
  rw [hl, List.getElem?_append_left hj] at hj'
  exact List.mem_of_getElem? hj'

/-! ### The least of some values -/

/-- A running choice of the better of two. -/
def better {β : Type} (r : β → β → Bool) (m : Option β) (x : β) : Option β :=
  match m with
  | some y => if r x y then some x else some y
  | none => some x

theorem foldl_better_none {β : Type} {r : β → β → Bool} {l : List β} {m : Option β} :
    l.foldl (better r) m = none ↔ m = none ∧ l = [] := by
  induction l generalizing m with
  | nil => simp
  | cons x l ih =>
    rw [List.foldl_cons, ih]
    cases m with
    | none => simp [better]
    | some y =>
      unfold better
      dsimp only
      split <;> simp

/-- The choice is one of the values, and none is better. -/
theorem foldl_better_some {β : Type} {r : β → β → Bool} {le : β → β → Prop} (hrefl : ∀ x, le x x)
    (htr : ∀ x y z, le x y → le y z → le x z) (hr : ∀ x y, r x y = true → le x y) (hn : ∀ x y, r x y = false → le y x)
    {l : List β} {m : Option β} {y : β} (h : l.foldl (better r) m = some y) :
    (m = some y ∨ y ∈ l) ∧ (∀ x ∈ l, le y x) ∧ ∀ x, m = some x → le y x := by
  induction l generalizing m with
  | nil =>
    rw [List.foldl_nil] at h
    exact ⟨.inl h, nofun, fun x hx => by
      cases h.symm.trans hx
      exact hrefl _⟩
  | cons x l ih =>
    obtain ⟨h1, h2, h3⟩ := ih (m := better r m x) h
    cases m with
    | none =>
      refine ⟨.inr ?_, fun z hz => ?_, nofun⟩
      · obtain h1 | h1 := h1
        · cases h1
          exact List.mem_cons_self
        · exact List.mem_cons_of_mem _ h1
      · obtain rfl | hz := List.mem_cons.1 hz
        · exact h3 _ rfl
        · exact h2 z hz
    | some w =>
      by_cases hxw : r x w = true
      · have hb : better r (some w) x = some x := if_pos hxw
        rw [hb] at h1 h3
        have hyx := h3 x rfl
        refine ⟨.inr ?_, fun z hz => ?_, fun z hz => ?_⟩
        · obtain h1 | h1 := h1
          · cases h1
            exact List.mem_cons_self
          · exact List.mem_cons_of_mem _ h1
        · obtain rfl | hz := List.mem_cons.1 hz
          · exact hyx
          · exact h2 z hz
        · cases hz
          exact htr _ _ _ hyx (hr _ _ hxw)
      · have hb : better r (some w) x = some w := if_neg hxw
        rw [hb] at h1 h3
        have hyw := h3 w rfl
        refine ⟨?_, fun z hz => ?_, fun z hz => ?_⟩
        · exact h1.imp_right (List.mem_cons_of_mem _)
        · obtain rfl | hz := List.mem_cons.1 hz
          · exact htr _ _ _ hyw (hn _ _ (Bool.eq_false_iff.2 hxw))
          · exact h2 z hz
        · cases hz
          exact hyw

theorem leastCause_eq (l : List (BitVec 8)) : leastCause l = l.foldl (better fun c x => decide (c < x)) none := by
  unfold leastCause
  congr 1
  funext m c
  cases m with
  | none => rfl
  | some x => simp only [better, decide_eq_true_eq]

theorem leastCause_none {l : List (BitVec 8)} : leastCause l = none ↔ l = [] := by
  rw [leastCause_eq, foldl_better_none]
  simp

theorem leastCause_some {l : List (BitVec 8)} {c : BitVec 8} (h : leastCause l = some c) :
    c ∈ l ∧ ∀ x ∈ l, c.toNat ≤ x.toNat := by
  rw [leastCause_eq] at h
  obtain ⟨h1, h2, -⟩ := foldl_better_some (le := fun x y => x.toNat ≤ y.toNat) (fun x => Nat.le_refl _)
    (fun _ _ _ => Nat.le_trans) (fun x y hxy => (BitVec.lt_def.1 (of_decide_eq_true hxy)).le)
    (fun x y hxy => Nat.not_lt.1 fun hlt => of_decide_eq_false hxy (BitVec.lt_def.2 hlt)) h
  exact ⟨h1.resolve_left nofun, h2⟩

/-- Square e is not above square x, nor to its right on the same line. -/
def squareLe (e x : Nat × Nat) : Prop := e.2 < x.2 ∨ (e.2 = x.2 ∧ e.1 ≤ x.1)

theorem lowestSquare_eq (l : List (Nat × Nat)) :
    lowestSquare l = l.foldl (better fun e x => decide (e.2 < x.2) || (decide (e.2 = x.2) && decide (e.1 < x.1))) none := by
  unfold lowestSquare
  congr 1
  funext m c
  cases m <;> rfl

theorem lowestSquare_none {l : List (Nat × Nat)} : lowestSquare l = none ↔ l = [] := by
  rw [lowestSquare_eq, foldl_better_none]
  simp

theorem lowestSquare_some {l : List (Nat × Nat)} {e : Nat × Nat} (h : lowestSquare l = some e) :
    e ∈ l ∧ ∀ x ∈ l, squareLe e x := by
  rw [lowestSquare_eq] at h
  obtain ⟨h1, h2, -⟩ := foldl_better_some (le := squareLe) (fun x => .inr ⟨rfl, Nat.le_refl _⟩) (fun x y z hxy hyz => by
      unfold squareLe at *
      omega) (fun x y hxy => by
      simp only [Bool.or_eq_true, Bool.and_eq_true, decide_eq_true_eq] at hxy
      unfold squareLe
      omega) (fun x y hxy => by
      simp only [Bool.or_eq_false_iff, Bool.and_eq_false_iff, decide_eq_false_iff_not] at hxy
      unfold squareLe
      omega) h
  exact ⟨h1.resolve_left nofun, h2⟩

/-! ### Demand on squares (R53) -/

/-- The links that a square's pool serves. -/
def onSquare (links : List GLink) (slots : List Nat) (sq : Nat) : List GLink :=
  links.filter fun l => decide ((slots[l.dst]?).map squareOf = some sq)

/-- Keys rise strictly. -/
def Tab.Rising {β : Type} (t : Tab β) : Prop := List.Pairwise (fun a b => a.1 < b.1) t

theorem Tab.rising_put {β : Type} {t : Tab β} (k : Nat) (v : β) (h : t.Rising) :
    (Tab.put t k v).Rising ∧ ∀ m, m < k → (∀ e ∈ t, m < e.1) → ∀ e ∈ Tab.put t k v, m < e.1 := by
  induction t with
  | nil => exact ⟨List.pairwise_singleton _ _, fun m hm _ e he => by
      obtain rfl := List.mem_singleton.1 he
      exact hm⟩
  | cons x t ih =>
    obtain ⟨j, w⟩ := x
    obtain ⟨hx, ht⟩ := List.pairwise_cons.1 h
    obtain ⟨ih1, ih2⟩ := ih ht
    unfold Tab.put
    split
    · next hjk =>
      subst hjk
      refine ⟨List.pairwise_cons.2 ⟨hx, ht⟩, fun m hm hall e he => ?_⟩
      obtain rfl | he := List.mem_cons.1 he
      · exact hm
      · exact hall e (List.mem_cons_of_mem _ he)
    · split
      · next hkj =>
        refine ⟨List.pairwise_cons.2 ⟨fun e he => ?_, h⟩, fun m hm hall e he => ?_⟩
        · obtain rfl | he := List.mem_cons.1 he
          · exact hkj
          · exact Nat.lt_trans hkj (hx e he)
        · obtain rfl | he := List.mem_cons.1 he
          · exact hm
          · exact hall e he
      · next hne hkj =>
        have hjk : j < k := by omega
        refine ⟨List.pairwise_cons.2 ⟨ih2 j hjk hx, ih1⟩, fun m hm hall e he => ?_⟩
        obtain rfl | he := List.mem_cons.1 he
        · exact hall _ List.mem_cons_self
        · exact ih2 m hm (fun z hz => hall z (List.mem_cons_of_mem _ hz)) e he

theorem Tab.mem_iff_find? {β : Type} {t : Tab β} (h : t.Rising) {e : Nat × β} :
    e ∈ t ↔ Tab.find? t e.1 = some e.2 := by
  induction t with
  | nil => simp [Tab.find?]
  | cons x t ih =>
    obtain ⟨j, w⟩ := x
    obtain ⟨hx, ht⟩ := List.pairwise_cons.1 h
    unfold Tab.find?
    split
    · next hje =>
      rw [List.mem_cons]
      constructor
      · rintro (rfl | he)
        · rfl
        · exact absurd (hx e he) (by simp [hje])
      · intro hw
        left
        exact Prod.ext hje.symm (Option.some.inj hw).symm
    · next hje =>
      rw [List.mem_cons, ← ih ht]
      exact ⟨fun hd => hd.resolve_left fun heq => hje (congrArg Prod.fst heq).symm, .inr⟩

/-- One link more in a table of demands. -/
def addDemand (slots : List Nat) (t : Tab Nat) (l : GLink) : Tab Nat :=
  match slots[l.dst]? with
  | some y => Tab.put t (squareOf y) (Tab.getD t (squareOf y) 0 + slotsOfCode l.depth)
  | none => t

theorem addDemand_rising {slots : List Nat} {t : Tab Nat} (l : GLink) (h : t.Rising) : (addDemand slots t l).Rising := by
  unfold addDemand
  split
  · exact (Tab.rising_put _ _ h).1
  · exact h

theorem addDemand_find? (slots : List Nat) (t : Tab Nat) (l : GLink) (k : Nat) :
    Tab.find? (addDemand slots t l) k =
      if (slots[l.dst]?).map squareOf = some k then some (Tab.getD t k 0 + slotsOfCode l.depth) else Tab.find? t k := by
  unfold addDemand
  cases h : slots[l.dst]? with
  | none => rfl
  | some y =>
    by_cases hk : squareOf y = k
    · subst hk
      simp
    · have hne : ¬ (some y).map squareOf = some k := fun hc => hk (Option.some.inj hc)
      exact (Tab.find?_put_ne _ _ _ _ fun hc => hk hc.symm).trans (if_neg hne).symm

theorem foldl_addDemand (slots : List Nat) (links : List GLink) (t : Tab Nat) (ht : t.Rising) :
    (links.foldl (addDemand slots) t).Rising ∧ ∀ k, Tab.find? (links.foldl (addDemand slots) t) k =
      if onSquare links slots k = [] then Tab.find? t k
      else some (Tab.getD t k 0 + ((onSquare links slots k).map fun l => slotsOfCode l.depth).sum) := by
  induction links generalizing t with
  | nil => exact ⟨ht, fun k => rfl⟩
  | cons l links ih =>
    obtain ⟨h1, h2⟩ := ih (addDemand slots t l) (addDemand_rising l ht)
    refine ⟨h1, fun k => ?_⟩
    rw [List.foldl_cons, h2 k]
    unfold Tab.getD
    rw [addDemand_find?]
    by_cases hk : (slots[l.dst]?).map squareOf = some k
    · have hons : onSquare (l :: links) slots k = l :: onSquare links slots k :=
        List.filter_cons_of_pos (by simpa using hk)
      rw [hons, if_pos hk, if_neg (List.cons_ne_nil _ _)]
      split
      · next hn => rw [hn]; simp [Tab.getD]
      · simp [Tab.getD, Nat.add_assoc]
    · have hons : onSquare (l :: links) slots k = onSquare links slots k :=
        List.filter_cons_of_neg (by simpa using hk)
      rw [hons, if_neg hk]

theorem mem_squareDemand {links : List GLink} {slots : List Nat} {e : Nat × Nat} :
    e ∈ squareDemand links slots ↔ onSquare links slots e.1 ≠ [] ∧
      e.2 = ((onSquare links slots e.1).map fun l => slotsOfCode l.depth).sum := by
  obtain ⟨h1, h2⟩ := foldl_addDemand slots links [] List.Pairwise.nil
  have hd : squareDemand links slots = links.foldl (addDemand slots) [] := rfl
  rw [hd, Tab.mem_iff_find? h1, h2]
  by_cases hn : onSquare links slots e.1 = []
  · simp [hn, Tab.find?]
  · rw [if_neg hn]
    simp only [Tab.getD, Tab.find?, Option.getD_none, Nat.zero_add, Option.some.injEq]
    exact ⟨fun h => ⟨hn, h.symm⟩, fun h => h.2.symm⟩

theorem mem_fullSquares {s : State} {k : Nat} {img : Image} {e : Nat × Nat} :
    e ∈ s.fullSquares k (blockLinks img.words) (blockSlots img.head img.words img.place) ↔ squareFull s k img e.1 e.2 := by
  unfold State.fullSquares squareFull
  rw [List.mem_filterMap]
  constructor
  · rintro ⟨⟨sq, d⟩, hd, he⟩
    obtain ⟨hne, hsum⟩ := mem_squareDemand.1 hd
    dsimp only at he hne hsum
    split at he
    · next hfull =>
      obtain ⟨l, hl⟩ := List.exists_mem_of_ne_nil _ hne
      obtain ⟨hmem, hsq⟩ := List.mem_filter.1 hl
      obtain ⟨y, hy, rfl⟩ := Option.map_eq_some_iff.1 (of_decide_eq_true hsq)
      refine ⟨l, hmem, y, hy, Option.some.inj he, ?_⟩
      rw [Nat.add_comm]
      exact hsum ▸ hfull
    · cases he
  · rintro ⟨l, hl, d, hd, hxy, hfull⟩
    have hon : l ∈ onSquare (blockLinks img.words) (blockSlots img.head img.words img.place) (squareOf d) :=
      List.mem_filter.2 ⟨hl, by simp [hd]⟩
    refine ⟨(squareOf d, ((onSquare (blockLinks img.words) (blockSlots img.head img.words img.place)
      (squareOf d)).map fun l => slotsOfCode l.depth).sum), mem_squareDemand.2 ⟨List.ne_nil_of_mem hon, rfl⟩, ?_⟩
    rw [Nat.add_comm] at hfull
    exact (if_pos hfull).trans (congrArg some hxy)

/-! ### Causes at an instruction -/

theorem mem_ite_single {β : Type} {b : Bool} {c x : β} : x ∈ (if b then [c] else []) ↔ b = true ∧ x = c := by
  cases b <;> simp

theorem any_take {β : Type} {l : List β} {i : Nat} (d : β) (hi : i ≤ l.length) {f : β → Bool} :
    (l.take i).any f = true ↔ ∃ j, j < i ∧ f ((l[j]?).getD d) = true := by
  rw [List.any_eq_true]
  constructor
  · rintro ⟨x, hx, hf⟩
    obtain ⟨j, hj, rfl⟩ := List.mem_take_iff_getElem.1 hx
    refine ⟨j, by omega, ?_⟩
    rw [List.getElem?_eq_getElem (by omega)]
    exact hf
  · rintro ⟨j, hj, hf⟩
    have hlt : j < l.length := by omega
    rw [List.getElem?_eq_getElem hlt] at hf
    exact ⟨l[j], List.mem_take_iff_getElem.2 ⟨j, by omega, rfl⟩, hf⟩

/-- The word of instruction j of an image, and its placement byte. -/
def Image.word (img : Image) (j : Nat) : Word := (img.words[j]?).getD 0

def Image.byte (img : Image) (j : Nat) : Byte := (img.place[j]?).getD 0

def Image.slotNo (img : Image) (j : Nat) : Nat := ((blockSlots img.head img.words img.place)[j]?).getD 0

theorem getElem?_blockSlots {img : Image} (hlen : img.place.length = img.words.length) (j : Nat) :
    (blockSlots img.head img.words img.place)[j]? =
      if j < img.words.length then some (slotOf img.head j (img.word j) (img.byte j)) else none := by
  unfold blockSlots Image.word Image.byte
  rw [List.getElem?_map, getElem?_indexed]
  split
  · next h =>
    rw [List.getElem?_eq_getElem (by rw [List.length_zip]; omega)]
    simp [h, hlen]
  · next h =>
    rw [List.getElem?_eq_none (by rw [List.length_zip]; omega)]
    rfl

theorem mem_wordLinks {n i : Nat} {w : Word} {l : GLink} (h : l ∈ wordLinks n i w) : l.src = i ∧ l.dst < n := by
  unfold wordLinks at h
  dsimp only at h
  simp only [List.mem_append] at h
  have one : ∀ out t d, l ∈ (match decodeTarget t with
      | some (.operand j o) => if j.toNat < n then [{ src := i, out, dst := j.toNat, opd := o, depth := d : GLink }] else []
      | _ => []) → l.src = i ∧ l.dst < n := by
    intro out t d hl
    split at hl
    · split at hl
      · next hj =>
        obtain rfl := List.mem_singleton.1 hl
        exact ⟨rfl, hj⟩
      · exact absurd hl List.not_mem_nil
    · exact absurd hl List.not_mem_nil
  obtain (h | h) | h := h
  · exact one _ _ _ h
  · exact one _ _ _ h
  · split at h
    · exact one _ _ _ h
    · exact absurd h List.not_mem_nil

theorem mem_blockLinks {ws : List Word} {l : GLink} (h : l ∈ blockLinks ws) : l.src < ws.length ∧ l.dst < ws.length := by
  obtain ⟨e, he, hl⟩ := List.mem_flatMap.1 h
  obtain ⟨hs, hd⟩ := mem_wordLinks hl
  exact ⟨hs ▸ (List.getElem?_eq_some_iff.1 (mem_indexed.1 he)).1, hd⟩

theorem usedTwice_iff {names : Word → List Nat} {ws : List Word} {i : Nat} (hi : i ≤ ws.length) {w : Word} :
    usedTwice names (ws.take i) w = true ↔
      (∃ r, names w = [r, r]) ∨ ∃ r ∈ names w, ∃ j, j < i ∧ r ∈ names ((ws[j]?).getD 0) := by
  unfold usedTwice
  rw [Bool.or_eq_true]
  refine or_congr ?_ ?_
  · constructor
    · intro h
      dsimp only at h
      split at h
      · next x y hn => exact ⟨x, by rw [hn, eq_of_beq h]⟩
      · cases h
    · rintro ⟨r, hr⟩
      simp [hr]
  · rw [List.any_eq_true]
    refine exists_congr fun r => and_congr_right fun _ => ?_
    rw [any_take 0 hi]
    simp only [List.contains_iff_mem]

/-- A target names an instruction outside the block (R43). -/
def outsideTarget (n : Nat) (t : BitVec 11) : Bool :=
  match decodeTarget t with
  | some (.operand j _) => n ≤ j.toNat
  | _ => false

/-- A target of instruction i names one that is no further `rtree` (R318). -/
def treelessTarget (ws : List Word) (i : Nat) (t : BitVec 11) : Bool :=
  match decodeTarget t with
  | some (.operand j _) => j.toNat = i || fabricOpc ((ws[j.toNat]?).getD 0) != 0x92
  | _ => false

theorem outsideTarget_iff {n : Nat} {t : BitVec 11} :
    outsideTarget n t = true ↔ ∃ j o, decodeTarget t = some (.operand j o) ∧ n ≤ j.toNat := by
  unfold outsideTarget
  split
  · next j o h =>
    rw [decide_eq_true_eq]
    refine ⟨fun hn => ⟨j, o, h, hn⟩, ?_⟩
    rintro ⟨j', o', h', hn⟩
    cases h.symm.trans h'
    exact hn
  · next h =>
    refine ⟨nofun, ?_⟩
    rintro ⟨j', o', h', -⟩
    exact absurd h' (h _ _)

theorem treelessTarget_iff {ws : List Word} {i : Nat} {t : BitVec 11} :
    treelessTarget ws i t = true ↔ (∃ j o, decodeTarget t = some (.operand j o)) ∧
        ¬∃ j o, decodeTarget t = some (.operand j o) ∧ j.toNat ≠ i ∧ fabricOpc ((ws[j.toNat]?).getD 0) = 0x92 := by
  unfold treelessTarget
  split
  · next j o h =>
    rw [Bool.or_eq_true, decide_eq_true_eq, bne_iff_ne]
    constructor
    · intro hn
      refine ⟨⟨j, o, h⟩, ?_⟩
      rintro ⟨j', o', h', hne, hop⟩
      cases h.symm.trans h'
      exact hn.elim hne fun hc => hc hop
    · rintro ⟨-, hn⟩
      by_cases hji : j.toNat = i
      · exact .inl hji
      · exact .inr fun hop => hn ⟨j, o, h, hji, hop⟩
  · next h =>
    refine ⟨nofun, ?_⟩
    rintro ⟨⟨j', o', h'⟩, -⟩
    exact absurd h' (h _ _)

theorem targetsAway_iff {ws : List Word} {i : Nat} {w : Word} :
    targetsAway ws i w = true ↔
      (∃ t ∈ targetFields w, ∃ j o, decodeTarget t = some (.operand j o) ∧ ws.length ≤ j.toNat) ∨
      (fabricOpc w = 0x92 ∧ bits (wordFn w) 3 2 = 0 ∧ ∃ t ∈ targetFields w, (∃ j o, decodeTarget t = some (.operand j o)) ∧
        ¬∃ j o, decodeTarget t = some (.operand j o) ∧ j.toNat ≠ i ∧ fabricOpc ((ws[j.toNat]?).getD 0) = 0x92) := by
  have h : targetsAway ws i w =
      (outsideTarget ws.length (bits w 35 11) || outsideTarget ws.length (bits w 24 11) ||
        (fabricOpc w = 0x03 && outsideTarget ws.length (bits w 0 11)) ||
        (fabricOpc w = 0x92 && bits (wordFn w) 3 2 == 0 &&
          (treelessTarget ws i (bits w 35 11) || treelessTarget ws i (bits w 24 11)))) := rfl
  have hf (P : BitVec 11 → Prop) : (∃ t ∈ targetFields w, P t) ↔
      (P (bits w 35 11) ∨ P (bits w 24 11)) ∨ (fabricOpc w = 0x03 ∧ P (bits w 0 11)) := by
    unfold targetFields
    by_cases h3 : fabricOpc w = 0x03 <;> simp [h3, or_assoc]
  rw [h, hf, hf]
  simp only [Bool.or_eq_true, Bool.and_eq_true, outsideTarget_iff, treelessTarget_iff, decide_eq_true_eq, beq_iff_eq]
  refine or_congr_right ⟨fun ⟨⟨h1, h2⟩, h3⟩ => ⟨h1, h2, .inl h3⟩, fun ⟨h1, h2, h3⟩ => ⟨⟨h1, h2⟩, ?_⟩⟩
  exact h3.resolve_right fun hc => absurd (h1.symm.trans hc.1) (by decide)

theorem feedBad_iff {ws : List Word} {links : List GLink} {i : Nat} {w : Word} :
    feedBad ws links i w = true ↔
      (∃ o ∈ [Slot.a, .b, .p, .c],
        (links.filter fun l => l.dst = i && l.opd == o).length ≠ if o ∈ wordInputs w then 1 else 0) ∨
      (fabricOpc w = 0x05 ∧ wordFn w = 2 ∧ ∃ l ∈ links, l.dst = i ∧ l.opd = .a ∧
        fabricOpc ((ws[l.src]?).getD 0) ≠ 0x05) := by
  unfold feedBad
  dsimp only
  rw [Bool.or_eq_true, List.any_eq_true]
  refine or_congr ?_ ?_
  · refine exists_congr fun o => and_congr_right fun _ => ?_
    rw [bne_iff_ne]
    simp only [List.contains_iff_mem]
  · rw [Bool.and_eq_true, Bool.and_eq_true, List.any_eq_true]
    simp only [List.mem_filter, Bool.and_eq_true, decide_eq_true_eq, beq_iff_eq, and_assoc, bne_iff_ne]

/-- An instruction whose zero-slot links R46 allows. -/
def Image.inStage (img : Image) (j : Nat) : Prop :=
  isMemoryWord (img.word j) = false ∧ placeOk (img.word j) (img.byte j) = true

theorem zlinkBad_iff {img : Image} (hlen : img.place.length = img.words.length) {links : List GLink} {l : GLink}
    (hs : l.src < img.words.length) (hd : l.dst < img.words.length) :
    zlinkBad links img.words img.place (blockSlots img.head img.words img.place) l = true ↔ l.depth = 0 ∧
      (¬(img.inStage l.src ∧ img.inStage l.dst ∧ squareOf (img.slotNo l.src) = squareOf (img.slotNo l.dst) ∧
          img.slotNo l.dst = img.slotNo l.src + 1) ∨ l.src ∈ reachFrom links img.words.length [l.dst]) := by
  have hword (j : Nat) (hj : j < img.words.length) : img.words[j]? = some (img.word j) := by
    simp [Image.word, hj]
  have hbyte (j : Nat) (hj : j < img.words.length) : img.place[j]? = some (img.byte j) := by
    simp [Image.byte, hlen, hj]
  have hslot (j : Nat) (hj : j < img.words.length) :
      (blockSlots img.head img.words img.place)[j]? = some (img.slotNo j) := by
    unfold Image.slotNo
    rw [getElem?_blockSlots hlen, if_pos hj]
    rfl
  unfold zlinkBad Image.inStage
  dsimp only
  rw [hslot _ hs, hslot _ hd, hword _ hs, hword _ hd, hbyte _ hs, hbyte _ hd]
  simp only [Bool.and_eq_true, Bool.or_eq_true, Bool.not_eq_true', beq_iff_eq, List.contains_iff_mem,
    ← Bool.not_eq_true, decide_eq_true_eq, and_assoc]

theorem collide_iff {img : Image} (hlen : img.place.length = img.words.length) {i : Nat} (hi : i < img.words.length) :
    ((List.range i).any fun j =>
      match img.words[j]?, img.place[j]? with
      | some v, some o => placeOk v o &&
          (blockSlots img.head img.words img.place)[j]? == (blockSlots img.head img.words img.place)[i]?
      | _, _ => false) = true ↔
      ∃ j, j < i ∧ placeOk (img.word j) (img.byte j) = true ∧ img.slotNo j = img.slotNo i := by
  rw [List.any_eq_true]
  refine exists_congr fun j => ?_
  rw [List.mem_range]
  refine and_congr_right fun hj => ?_
  have hjl : j < img.words.length := Nat.lt_trans hj hi
  unfold Image.slotNo
  rw [getElem?_blockSlots hlen, getElem?_blockSlots hlen, if_pos hi, if_pos hjl]
  simp [Image.word, Image.byte, hlen, hjl]

theorem exists_code {P : Prop} {k : BitVec 8} {n : Nat} :
    (∃ c : BitVec 8, (P ∧ c = k) ∧ c.toNat = n) ↔ n = k.toNat ∧ P :=
  ⟨fun ⟨_, ⟨hp, hk⟩, hn⟩ => ⟨hk ▸ hn.symm, hp⟩, fun ⟨hn, hp⟩ => ⟨k, ⟨hp, rfl⟩, hn.symm⟩⟩

theorem exists_optCode {o : Option WordCause} {n : Nat} :
    (∃ c ∈ ((match o with | some x => [x.code] | none => []) : List (BitVec 8)), c.toNat = n) ↔ ∃ x, o = some x ∧ x.code.toNat = n := by
  cases o <;> simp

theorem soleCause_iff {w : Word} {n : Nat} {P : Prop} :
    (n = (soleCause w).toNat ∧ P) ↔ (n = 3 ∧ fabricOpc w ≤ 2 ∧ P) ∨ (n = 8 ∧ 2 < fabricOpc w ∧ P) := by
  unfold soleCause
  by_cases h : fabricOpc w ≤ 0x02
  · rw [if_pos h]
    exact ⟨fun ⟨hn, hp⟩ => .inl ⟨hn, h, hp⟩, fun hd => hd.elim (fun ⟨hn, _, hp⟩ => ⟨hn, hp⟩)
      fun ⟨_, hlt, _⟩ => absurd h (Nat.not_le.2 hlt)⟩
  · rw [if_neg h]
    exact ⟨fun ⟨hn, hp⟩ => .inr ⟨hn, Nat.not_le.1 h, hp⟩, fun hd => hd.elim (fun ⟨_, hle, _⟩ => absurd hle h)
      fun ⟨hn, _, hp⟩ => ⟨hn, hp⟩⟩

/-- The causes of an instruction's failures are those of Table 2-11. -/
theorem nodeFault_iff {img : Image} (hlen : img.place.length = img.words.length) {i : Nat} (hi : i < img.words.length)
    (n : Nat) :
    nodeFault img i n ↔ ∃ c ∈ nodeCauses img (blockLinks img.words) (blockSlots img.head img.words img.place) i
      (img.word i) (img.byte i), c.toNat = n := by
  have hagain : ((soleName (img.word i)).isSome &&
      (img.words.take i).any fun v => soleName v == soleName (img.word i)) = true ↔
      soleName (img.word i) ≠ none ∧ ∃ j, j < i ∧ soleName (img.word j) = soleName (img.word i) := by
    rw [Bool.and_eq_true, any_take 0 hi.le, Option.isSome_iff_ne_none]
    simp only [beq_iff_eq]
    rfl
  have hseq : (hasSeqNo (img.word i) && (decide ((img.words.filter hasSeqNo).length ≤ seqNoOf (img.word i)) ||
      (img.words.take i).any fun v => hasSeqNo v && decide (seqNoOf v = seqNoOf (img.word i)))) = true ↔
      hasSeqNo (img.word i) = true ∧ ((img.words.filter hasSeqNo).length ≤ seqNoOf (img.word i) ∨
        ∃ j, j < i ∧ hasSeqNo (img.word j) = true ∧ seqNoOf (img.word j) = seqNoOf (img.word i)) := by
    rw [Bool.and_eq_true, Bool.or_eq_true, any_take 0 hi.le]
    simp only [Bool.and_eq_true, decide_eq_true_eq]
    rfl
  have hz : ((blockLinks img.words).any fun l => decide (l.src = i) &&
      zlinkBad (blockLinks img.words) img.words img.place (blockSlots img.head img.words img.place) l) = true ↔
      ∃ l ∈ blockLinks img.words, l.src = i ∧ l.depth = 0 ∧
        (¬(img.inStage i ∧ img.inStage l.dst ∧ squareOf (img.slotNo i) = squareOf (img.slotNo l.dst) ∧
          img.slotNo l.dst = img.slotNo i + 1) ∨ i ∈ reachFrom (blockLinks img.words) img.words.length [l.dst]) := by
    rw [List.any_eq_true]
    refine exists_congr fun l => and_congr_right fun hl => ?_
    rw [Bool.and_eq_true, decide_eq_true_eq]
    refine and_congr_right fun hs => ?_
    subst hs
    exact zlinkBad_iff hlen (mem_blockLinks hl).1 (mem_blockLinks hl).2
  unfold nodeCauses nodeFault
  simp only [List.mem_append, or_and_right, exists_or, mem_ite_single, exists_code]
  rw [hagain, hseq, hz, Bool.or_eq_true, targetsAway_iff, usedTwice_iff hi.le, feedBad_iff, Bool.not_eq_true',
    Bool.and_eq_true, soleCause_iff, and_iff_right hi]
  constructor
  · rintro (h | h | h | ⟨h, ha | ha | ha | ha | ha⟩ | h | h | ⟨h, hp, hc⟩ | h)
    · exact .inl (.inl (.inl (.inl (.inl (.inl (.inl (exists_optCode.2 h)))))))
    · exact .inl (.inl (.inl (.inl (.inl (.inl (.inr (.inl h)))))))
    · exact .inl (.inl (.inl (.inl (.inl (.inr h)))))
    · exact .inl (.inl (.inl (.inl (.inr ⟨h, .inl (.inl ha)⟩))))
    · exact .inl (.inl (.inl (.inl (.inr ⟨h, .inl (.inr ha)⟩))))
    · exact .inl (.inl (.inl (.inl (.inl (.inl (.inr (.inr ⟨h, ha⟩)))))))
    · exact .inl (.inl (.inl (.inl (.inr ⟨h, .inr (.inl ha)⟩))))
    · exact .inl (.inl (.inl (.inl (.inr ⟨h, .inr (.inr ha)⟩))))
    · exact .inl (.inl (.inl (.inr h)))
    · exact .inl (.inl (.inr h))
    · exact .inl (.inr ⟨h, hp, (collide_iff hlen hi).2 hc⟩)
    · exact .inr h
  · rintro (((((((h | h | ⟨h, ha⟩) | h) | ⟨h, (ha | ha) | ha | ha⟩) | h) | h) | ⟨h, hp, hc⟩) | h)
    · exact .inl (exists_optCode.1 h)
    · exact .inr (.inl h)
    · exact .inr (.inr (.inr (.inl ⟨h, .inr (.inr (.inl ha))⟩)))
    · exact .inr (.inr (.inl h))
    · exact .inr (.inr (.inr (.inl ⟨h, .inl ha⟩)))
    · exact .inr (.inr (.inr (.inl ⟨h, .inr (.inl ha)⟩)))
    · exact .inr (.inr (.inr (.inl ⟨h, .inr (.inr (.inr (.inl ha)))⟩)))
    · exact .inr (.inr (.inr (.inl ⟨h, .inr (.inr (.inr (.inr ha)))⟩)))
    · exact .inr (.inr (.inr (.inr (.inl h))))
    · exact .inr (.inr (.inr (.inr (.inr (.inl h)))))
    · exact .inr (.inr (.inr (.inr (.inr (.inr (.inl ⟨h, hp, (collide_iff hlen hi).1 hc⟩))))))
    · exact .inr (.inr (.inr (.inr (.inr (.inr (.inr h))))))

/-! ### Failures of the header -/

/-- A failure of the header without an element, where it holds. -/
def plainFail (b : Bool) (c : BitVec 8) : List CheckFail := if b then [{ cause := c, node := 255, element := none }] else []

/-- The failure of the square that Table 2-15 names. -/
def squareFail : Option (Nat × Nat) → List CheckFail
  | some (x, y) => [{ cause := Fail.pool, node := 255, element := some (x, y, 0) }]
  | none => []

theorem mem_plainFail {b : Bool} {c : BitVec 8} {f : CheckFail} :
    f ∈ plainFail b c ↔ b = true ∧ f = { cause := c, node := 255, element := none } := mem_ite_single

theorem mem_squareFail {o : Option (Nat × Nat)} {f : CheckFail} :
    f ∈ squareFail o ↔ ∃ x y, o = some (x, y) ∧ f = { cause := Fail.pool, node := 255, element := some (x, y, 0) } := by
  unfold squareFail
  cases o with
  | none => simp
  | some e =>
    obtain ⟨x, y⟩ := e
    simp

/-- An instruction of the image lies in a range of opcodes. -/
def Image.uses (img : Image) (lo hi : Nat) : Bool := img.words.any fun w => lo ≤ fabricOpc w && fabricOpc w ≤ hi

def Image.count (img : Image) (o : Nat) : Nat := (img.words.filter fun w => fabricOpc w = o).length

def badVersion (img : Image) : Bool := Head128.hver img.head != 0b1010

def badHeader (img : Image) : Bool :=
  Head128.reserved img.head || Head128.memn img.head != img.uses 0x80 0x9F || Head128.bap img.head != img.uses 0xA0 0xA1 ||
    Head128.strg img.head != img.uses 0xB0 0xBF ||
    (Head128.ras img.head && (match img.slice with | some (_, sl) => !sliceOk (sl.length + 1) sl | none => true))

def badPorts (img : Image) : Bool :=
  8 < Head128.nin img.head || 8 < Head128.nout img.head || Head128.nin img.head != img.count 0x01 ||
    Head128.nout img.head != img.count 0x02

def badShape (s : State) (k : Nat) (img : Image) : Bool :=
  1 < Head128.shape img.head || (Head128.shape img.head = 1 && s.pairUnavailable k)

theorem foldl_add_sum {β : Type} (l : List β) (g : β → Nat) (n : Nat) :
    l.foldl (fun n x => n + g x) n = n + (l.map g).sum := by
  induction l generalizing n with
  | nil => rfl
  | cons x l ih =>
    rw [List.foldl_cons, ih, List.map_cons, List.sum_cons, Nat.add_assoc]

theorem headerFails_eq (s : State) (k : Nat) (user : Bool) (img : Image) :
    s.headerFails k user img (blockLinks img.words) (blockSlots img.head img.words img.place) =
      plainFail (badVersion img) Fail.hver ++ plainFail (badHeader img) Fail.hres ++ plainFail (badPorts img) Fail.ports ++
        plainFail (badShape s k img) Fail.shape ++
        plainFail (4 * Head128.pool img.head < img.demand) Fail.pool ++
        squareFail (lowestSquare (s.fullSquares k (blockLinks img.words) (blockSlots img.head img.words img.place))) ++
        plainFail (Head128.priv img.head && user) Fail.privblk := by
  have hd : img.demand = (blockLinks img.words).foldl (fun n l => n + slotsOfCode l.depth) 0 := by
    rw [foldl_add_sum, Nat.zero_add]
    rfl
  rw [hd]
  unfold State.headerFails squareFail
  rfl

theorem badHeader_iff {img : Image} :
    badHeader img = true ↔ Head128.reserved img.head = true ∨
      ¬(Head128.memn img.head = true ↔ ∃ w ∈ img.words, 0x80 ≤ fabricOpc w ∧ fabricOpc w ≤ 0x9F) ∨
      ¬(Head128.bap img.head = true ↔ ∃ w ∈ img.words, 0xA0 ≤ fabricOpc w ∧ fabricOpc w ≤ 0xA1) ∨
      ¬(Head128.strg img.head = true ↔ ∃ w ∈ img.words, 0xB0 ≤ fabricOpc w ∧ fabricOpc w ≤ 0xBF) ∨
      (Head128.ras img.head = true ∧ ∀ a sl, img.slice = some (a, sl) → sliceOk (sl.length + 1) sl = false) := by
  have huse (lo hi : Nat) : (∃ w ∈ img.words, lo ≤ fabricOpc w ∧ fabricOpc w ≤ hi) ↔ img.uses lo hi = true := by
    unfold Image.uses
    rw [List.any_eq_true]
    simp only [Bool.and_eq_true, decide_eq_true_eq]
  have hsl : (match img.slice with | some (_, sl) => !sliceOk (sl.length + 1) sl | none => true) = true ↔
      ∀ a sl, img.slice = some (a, sl) → sliceOk (sl.length + 1) sl = false := by
    cases img.slice with
    | none => simp
    | some e =>
      obtain ⟨a, sl⟩ := e
      simp
  unfold badHeader
  rw [Bool.or_eq_true, Bool.or_eq_true, Bool.or_eq_true, Bool.or_eq_true, Bool.and_eq_true, hsl, huse, huse, huse,
    or_assoc, or_assoc, or_assoc, bne_iff_ne, bne_iff_ne, bne_iff_ne, ← Bool.eq_iff_iff, ← Bool.eq_iff_iff, ← Bool.eq_iff_iff]

theorem badShape_iff {s : State} {k : Nat} {img : Image} :
    badShape s k img = true ↔ 1 < Head128.shape img.head ∨ (Head128.shape img.head = 1 ∧ (k / 4 % 2 = 1 ∨
      s.partitionOf (k / 4) ≠ s.partitionOf (k / 4 + 1) ∨ ∃ x, (s.plane (k + 4)).ctx = some x ∧ (s.plane k).ctx ≠ some x)) := by
  unfold badShape State.pairUnavailable
  dsimp only
  rw [Bool.or_eq_true, Bool.and_eq_true, Bool.or_eq_true, Bool.or_eq_true, or_assoc]
  cases (s.plane (k + 4)).ctx with
  | none => simp
  | some c => simp

theorem badPorts_iff {img : Image} :
    badPorts img = true ↔ 8 < Head128.nin img.head ∨ 8 < Head128.nout img.head ∨ Head128.nin img.head ≠ img.count 0x01 ∨
      Head128.nout img.head ≠ img.count 0x02 := by
  unfold badPorts
  simp only [Bool.or_eq_true, decide_eq_true_eq, bne_iff_ne, or_assoc]

theorem headerFault_iff (s : State) (k : Nat) (user : Bool) (img : Image) (n : Nat) :
    headerFault s k user img n ↔ ∃ f ∈ s.headerFails k user img (blockLinks img.words)
      (blockSlots img.head img.words img.place), f.cause.toNat = n := by
  have hplain (b : Bool) (c : BitVec 8) : (∃ f ∈ plainFail b c, f.cause.toNat = n) ↔ n = c.toNat ∧ b = true := by
    simp only [mem_plainFail]
    exact ⟨fun ⟨f, ⟨hb, hf⟩, hn⟩ => ⟨by rw [← hn, hf], hb⟩, fun ⟨hn, hb⟩ => ⟨_, ⟨hb, rfl⟩, hn.symm⟩⟩
  have hsq : (∃ f ∈ squareFail (lowestSquare (s.fullSquares k (blockLinks img.words)
      (blockSlots img.head img.words img.place))), f.cause.toNat = n) ↔ n = 5 ∧ ∃ x y, squareFull s k img x y := by
    simp only [mem_squareFail]
    constructor
    · rintro ⟨f, ⟨x, y, hl, rfl⟩, rfl⟩
      exact ⟨rfl, x, y, mem_fullSquares.1 (lowestSquare_some hl).1⟩
    · rintro ⟨rfl, x, y, hf⟩
      cases hl : lowestSquare (s.fullSquares k (blockLinks img.words) (blockSlots img.head img.words img.place)) with
      | none =>
        rw [lowestSquare_none] at hl
        exact absurd (mem_fullSquares.2 hf : (x, y) ∈ _) (hl ▸ List.not_mem_nil)
      | some e => exact ⟨_, ⟨e.1, e.2, rfl, rfl⟩, rfl⟩
  rw [headerFails_eq]
  simp only [List.mem_append, or_and_right, exists_or, hplain, hsq]
  rw [badHeader_iff, badPorts_iff, badShape_iff, Bool.and_eq_true, decide_eq_true_eq]
  have hv : badVersion img = true ↔ Head128.hver img.head ≠ 0xA := bne_iff_ne
  rw [hv]
  unfold headerFault
  constructor
  · rintro (h | h | h | h | ⟨h, ha | ha⟩ | h)
    · exact .inl (.inl (.inl (.inl (.inl (.inl h)))))
    · exact .inl (.inl (.inl (.inl (.inl (.inr h)))))
    · exact .inl (.inl (.inl (.inl (.inr h))))
    · exact .inl (.inl (.inl (.inr h)))
    · exact .inl (.inl (.inr ⟨h, ha⟩))
    · exact .inl (.inr ⟨h, ha⟩)
    · exact .inr h
  · rintro ((((((h | h) | h) | h) | ⟨h, ha⟩) | ⟨h, ha⟩) | h)
    · exact .inl h
    · exact .inr (.inl h)
    · exact .inr (.inr (.inl h))
    · exact .inr (.inr (.inr (.inl h)))
    · exact .inr (.inr (.inr (.inr (.inl ⟨h, .inl ha⟩))))
    · exact .inr (.inr (.inr (.inr (.inl ⟨h, .inr ha⟩))))
    · exact .inr (.inr (.inr (.inr (.inr h))))

/-- The order of the failures of a header: by their causes, and of one cause the one without an element first. -/
def CheckFail.before (f g : CheckFail) : Prop :=
  f.cause.toNat < g.cause.toNat ∨ (f.cause.toNat = g.cause.toNat ∧ f.element = none)

/-- Failures in that order, with no cause above n. -/
def InOrder (n : Nat) (l : List CheckFail) : Prop := l.Pairwise CheckFail.before ∧ ∀ f ∈ l, f.cause.toNat ≤ n

theorem InOrder.plain {n : Nat} {l : List CheckFail} (h : InOrder n l) (b : Bool) {c : BitVec 8} (hc : n < c.toNat) :
    InOrder c.toNat (l ++ plainFail b c) := by
  obtain ⟨h1, h2⟩ := h
  refine ⟨List.pairwise_append.2 ⟨h1, ?_, fun f hf g hg => ?_⟩, fun f hf => ?_⟩
  · unfold plainFail
    split
    · exact List.pairwise_singleton _ _
    · exact List.Pairwise.nil
  · obtain ⟨-, rfl⟩ := mem_plainFail.1 hg
    exact .inl (Nat.lt_of_le_of_lt (h2 f hf) hc)
  · obtain hf | hf := List.mem_append.1 hf
    · exact Nat.le_trans (h2 f hf) hc.le
    · obtain ⟨-, rfl⟩ := mem_plainFail.1 hf
      exact Nat.le_refl _

theorem InOrder.square {l : List CheckFail} (h : InOrder 5 l) (he : ∀ f ∈ l, f.element = none) (o : Option (Nat × Nat)) :
    InOrder 5 (l ++ squareFail o) := by
  obtain ⟨h1, h2⟩ := h
  refine ⟨List.pairwise_append.2 ⟨h1, ?_, fun f hf g hg => ?_⟩, fun f hf => ?_⟩
  · cases o with
    | none => exact List.Pairwise.nil
    | some e => exact List.pairwise_singleton _ _
  · obtain ⟨x, y, -, rfl⟩ := mem_squareFail.1 hg
    exact (Nat.lt_or_eq_of_le (h2 f hf)).imp_right fun heq => ⟨heq, he f hf⟩
  · obtain hf | hf := List.mem_append.1 hf
    · exact h2 f hf
    · obtain ⟨x, y, -, rfl⟩ := mem_squareFail.1 hf
      exact Nat.le_refl _

theorem headerFails_inOrder (s : State) (k : Nat) (user : Bool) (img : Image) :
    InOrder 14 (s.headerFails k user img (blockLinks img.words) (blockSlots img.head img.words img.place)) := by
  rw [headerFails_eq]
  have h0 : InOrder 0 [] := ⟨List.Pairwise.nil, nofun⟩
  have h5 := ((((h0.plain (badVersion img) (c := Fail.hver) (by decide)).plain (badHeader img) (c := Fail.hres)
    (by decide)).plain (badPorts img) (c := Fail.ports) (by decide)).plain (badShape s k img) (c := Fail.shape)
    (by decide)).plain (4 * Head128.pool img.head < img.demand) (c := Fail.pool) (by decide)
  refine (h5.square ?_ _).plain _ (c := Fail.privblk) (by decide)
  intro f hf
  simp only [List.mem_append, mem_plainFail, List.not_mem_nil, false_or] at hf
  obtain (((⟨-, rfl⟩ | ⟨-, rfl⟩) | ⟨-, rfl⟩) | ⟨-, rfl⟩) | ⟨-, rfl⟩ := hf <;> rfl

/-- A failure of the header is one of the plain ones, or that of the lowest full square. -/
theorem of_mem_headerFails {s : State} {k : Nat} {user : Bool} {img : Image} {f : CheckFail}
    (h : f ∈ s.headerFails k user img (blockLinks img.words) (blockSlots img.head img.words img.place)) :
    f.node = 255 ∧ ((f.element = none ∧ (f.cause.toNat = 5 → 4 * Head128.pool img.head < img.demand)) ∨
      (f.cause.toNat = 5 ∧ ∃ x y, f.element = some (x, y, 0) ∧
        lowestSquare (s.fullSquares k (blockLinks img.words) (blockSlots img.head img.words img.place)) = some (x, y))) := by
  rw [headerFails_eq] at h
  simp only [List.mem_append, mem_plainFail, mem_squareFail] at h
  obtain (((((⟨-, rfl⟩ | ⟨-, rfl⟩) | ⟨-, rfl⟩) | ⟨-, rfl⟩) | ⟨hd, rfl⟩) | ⟨x, y, hl, rfl⟩) | ⟨-, rfl⟩ := h
  · exact ⟨rfl, .inl ⟨rfl, fun hc => absurd hc (by decide)⟩⟩
  · exact ⟨rfl, .inl ⟨rfl, fun hc => absurd hc (by decide)⟩⟩
  · exact ⟨rfl, .inl ⟨rfl, fun hc => absurd hc (by decide)⟩⟩
  · exact ⟨rfl, .inl ⟨rfl, fun hc => absurd hc (by decide)⟩⟩
  · exact ⟨rfl, .inl ⟨rfl, fun _ => of_decide_eq_true hd⟩⟩
  · exact ⟨rfl, .inr ⟨rfl, x, y, rfl, hl⟩⟩
  · exact ⟨rfl, .inl ⟨rfl, fun hc => absurd hc (by decide)⟩⟩

/-- What the check reports of a header that fails (R467, Table 2-15). -/
theorem headerFails_head {s : State} {k : Nat} {user : Bool} {img : Image} {f : CheckFail} {l : List CheckFail}
    (h : s.headerFails k user img (blockLinks img.words) (blockSlots img.head img.words img.place) = f :: l) :
    f.node = 255 ∧ headerFault s k user img f.cause.toNat ∧ (∀ c, headerFault s k user img c → f.cause.toNat ≤ c) ∧
      (f.cause.toNat ≠ 5 ∨ 4 * Head128.pool img.head < img.demand → f.element = none) ∧
      (f.cause.toNat = 5 → img.demand ≤ 4 * Head128.pool img.head → ∃ x y, f.element = some (x, y, 0) ∧
        squareFull s k img x y ∧ ∀ u v, squareFull s k img u v → y < v ∨ (y = v ∧ x ≤ u)) := by
  have hord := (headerFails_inOrder s k user img).1
  rw [h] at hord
  have hbefore (g : CheckFail) (hg : g ∈ f :: l) : g = f ∨ f.before g :=
    (List.mem_cons.1 hg).imp_right fun hm => (List.pairwise_cons.1 hord).1 g hm
  have hmem : f ∈ s.headerFails k user img (blockLinks img.words) (blockSlots img.head img.words img.place) :=
    h ▸ List.mem_cons_self
  obtain ⟨hnode, hel⟩ := of_mem_headerFails hmem
  refine ⟨hnode, (headerFault_iff s k user img _).2 ⟨f, hmem, rfl⟩, fun c hc => ?_, ?_, fun h5 hd => ?_⟩
  · obtain ⟨g, hg, rfl⟩ := (headerFault_iff s k user img c).1 hc
    obtain rfl | hb | hb := hbefore g (h ▸ hg)
    · exact Nat.le_refl _
    · exact hb.le
    · exact hb.1.le
  · rintro (hne | hd)
    · exact hel.elim And.left fun hc => absurd hc.1 hne
    · obtain ⟨he, -⟩ | ⟨h5, -⟩ := hel
      · exact he
      · have hg : ({ cause := Fail.pool, node := 255, element := none } : CheckFail) ∈ f :: l := by
          rw [← h, headerFails_eq]
          simp only [List.mem_append, mem_plainFail]
          exact .inl (.inl (.inr ⟨decide_eq_true hd, trivial⟩))
        obtain hg | hb | hb := hbefore _ hg
        · rw [← hg]
        · exact absurd hb (by rw [h5]; decide)
        · exact hb.2
  · obtain ⟨-, hp⟩ | ⟨-, x, y, he, hl⟩ := hel
    · exact absurd (hp h5) (Nat.not_lt.2 hd)
    · exact ⟨x, y, he, mem_fullSquares.1 (lowestSquare_some hl).1,
        fun u v hf => (lowestSquare_some hl).2 (u, v) (mem_fullSquares.2 hf)⟩

/-! ### The check -/

/-- The failure that the check reports of an instruction. -/
def nodeFail (img : Image) (k : Nat) (e : Nat × Word × Byte) : Option CheckFail :=
  (leastCause (nodeCauses img (blockLinks img.words) (blockSlots img.head img.words img.place) e.1 e.2.1 e.2.2)).map fun c =>
    { cause := c, node := e.1
      element := if !placeOk e.2.1 e.2.2 then none
        else some (slotElement (regionOfSlot k (slotOf img.head e.1 e.2.1 e.2.2)) (slotOf img.head e.1 e.2.1 e.2.2)) }

theorem checkImage_eq (s : State) (k : Nat) (user : Bool) (img : Image) :
    s.checkImage k user img =
      ((s.headerFails k user img (blockLinks img.words) (blockSlots img.head img.words img.place)).head?).or
        ((indexed (img.words.zip img.place)).findSome? (nodeFail img k)) := by
  unfold State.checkImage
  dsimp only
  split <;> next h => rw [h]; rfl

theorem getElem?_zip_words {img : Image} (hlen : img.place.length = img.words.length) (i : Nat) :
    (img.words.zip img.place)[i]? = if i < img.words.length then some (img.word i, img.byte i) else none := by
  unfold Image.word Image.byte
  split
  · next h =>
    rw [List.getElem?_eq_getElem (by rw [List.length_zip]; omega)]
    simp [h, hlen]
  · next h => exact List.getElem?_eq_none (by rw [List.length_zip]; omega)

theorem nodeFail_none {img : Image} (hlen : img.place.length = img.words.length) {i k : Nat} (hi : i < img.words.length) :
    nodeFail img k (i, img.word i, img.byte i) = none ↔ ∀ c, ¬nodeFault img i c := by
  unfold nodeFail
  rw [Option.map_eq_none_iff, leastCause_none]
  simp only [nodeFault_iff hlen hi]
  exact ⟨fun h c => by rw [h]; exact fun ⟨x, hx, _⟩ => absurd hx List.not_mem_nil,
    fun h => List.eq_nil_iff_forall_not_mem.2 fun x hx => h x.toNat ⟨x, hx, rfl⟩⟩

/-- What the check of R55 reports, with R467's choice. -/
theorem checkImage_spec (s : State) (k : Nat) (user : Bool) (img : Image) (hlen : img.place.length = img.words.length) :
    (s.checkImage k user img = none ↔ (∀ c, ¬headerFault s k user img c) ∧ ∀ i c, ¬nodeFault img i c) ∧
      ∀ f, s.checkImage k user img = some f →
        ((∃ c, headerFault s k user img c) → f.node = 255 ∧ headerFault s k user img f.cause.toNat ∧
          (∀ c, headerFault s k user img c → f.cause.toNat ≤ c) ∧
          (f.cause.toNat ≠ 5 ∨ 4 * Head128.pool img.head < img.demand → f.element = none) ∧
          (f.cause.toNat = 5 → img.demand ≤ 4 * Head128.pool img.head → ∃ x y, f.element = some (x, y, 0) ∧
            squareFull s k img x y ∧ ∀ u v, squareFull s k img u v → y < v ∨ (y = v ∧ x ≤ u))) ∧
        ((∀ c, ¬headerFault s k user img c) → nodeFault img f.node f.cause.toNat ∧
          (∀ i c, nodeFault img i c → f.node ≤ i) ∧ (∀ c, nodeFault img f.node c → f.cause.toNat ≤ c) ∧
          f.element = if placeOk (img.word f.node) (img.byte f.node) then
            some (slotElement (regionOfSlot k (slotOf img.head f.node (img.word f.node) (img.byte f.node)))
              (slotOf img.head f.node (img.word f.node) (img.byte f.node))) else none) := by
  have hnone : (indexed (img.words.zip img.place)).findSome? (nodeFail img k) = none ↔ ∀ i c, ¬nodeFault img i c := by
    rw [findSome?_indexed_none]
    constructor
    · intro h i c hf
      have hi : i < img.words.length := hf.1
      exact (nodeFail_none hlen hi).1 (h i _ ((getElem?_zip_words hlen i).trans (if_pos hi))) c hf
    · intro h i x hx
      rw [getElem?_zip_words hlen] at hx
      split at hx
      · next hi =>
        cases hx
        exact (nodeFail_none hlen hi).2 (h i)
      · cases hx
  rw [checkImage_eq]
  cases hh : s.headerFails k user img (blockLinks img.words) (blockSlots img.head img.words img.place) with
  | cons g l =>
    have hg := headerFails_head hh
    refine ⟨⟨nofun, fun h => absurd hg.2.1 (h.1 _)⟩, fun f hf => ?_⟩
    cases hf
    exact ⟨fun _ => hg, fun h => absurd hg.2.1 (h _)⟩
  | nil =>
    have hno (c : Nat) : ¬headerFault s k user img c := by
      rw [headerFault_iff, hh]
      exact fun ⟨x, hx, _⟩ => absurd hx List.not_mem_nil
    refine ⟨hnone.trans ⟨fun h => ⟨hno, h⟩, fun h => h.2⟩, fun f hf => ⟨fun ⟨c, hc⟩ => absurd hc (hno c), fun _ => ?_⟩⟩
    obtain ⟨i, x, hx, hfx, hbefore⟩ := findSome?_indexed_some hf
    rw [getElem?_zip_words hlen] at hx
    split at hx
    · next hi =>
      cases hx
      obtain ⟨c, hc, rfl⟩ := Option.map_eq_some_iff.1 hfx
      obtain ⟨hmem, hleast⟩ := leastCause_some hc
      refine ⟨(nodeFault_iff hlen hi _).2 ⟨c, hmem, rfl⟩, fun j d hj => ?_, fun d hd => ?_, ?_⟩
      · refine Nat.not_lt.1 fun hlt => ?_
        exact (nodeFail_none hlen hj.1).1 (hbefore j _ hlt ((getElem?_zip_words hlen j).trans (if_pos hj.1))) d hj
      · obtain ⟨x, hx, rfl⟩ := (nodeFault_iff hlen hi d).1 hd
        exact hleast x hx
      · dsimp only
        cases placeOk (img.word i) (img.byte i) <;> rfl
    · cases hx

end Sys2Proof.Machine
end

