-- ==== Sys2Proof/Proofs/Chains.lean ====
section
/-!
PROOFS. O29 and O30: `blk` launches chains of blocks, which take successors, commit and reconfigure their nodes.
-/

namespace Sys2Proof.Machine

/-! ### Pieces of an image -/

theorem State.nextPiece_mem (s : State) {l : List Nat} (h : l ≠ []) : s.nextPiece l ∈ l := by
  unfold State.nextPiece
  rw [List.getElem?_eq_getElem (Nat.mod_lt _ (List.length_pos_iff.2 h))]
  exact List.getElem_mem _

theorem SameButRegions.chargePiece (s : State) (q : Nat) (key : Option Nat) : SameButRegions s (s.chargePiece q key) := by
  unfold State.chargePiece
  split
  · exact .chargeAt s _ _ _
  · exact .refl s

/-! ### `blk` -/

/-- A `blk` that no other chain holds back. -/
def BlkFree (s : State) (q k : Nat) : Prop :=
  (s.seq q).outG = 0 ∧ (s.seq q).outC = 0 ∧ (s.plane k).draining = false ∧ (s.plane k).atRest = false ∧
    (s.plane k).chain = none

section
variable {s : State} {q k : Nat} {d a : SReg}

theorem blkStart_block (hr : (s.seq q).allReady [d, a] = true) (hf : BlkFree s q k) {img : Image}
    (h : s.fetchAndCheck k (!(s.seq q).priv) ((s.seq q).read a).toNat (s.seq q).pieces = .block img) :
    s.blkStart q k d a = .next (s.launch q k d img) := by
  obtain ⟨hg, hc, hd, hrest, hch⟩ := hf
  unfold State.blkStart
  simp only [hr, hg, hc, hd, hrest, hch, h]
  rfl

theorem blkStart_bad (hr : (s.seq q).allReady [d, a] = true) (hf : BlkFree s q k) {f : CheckFail}
    (h : s.fetchAndCheck k (!(s.seq q).priv) ((s.seq q).read a).toNat (s.seq q).pieces = .bad f) :
    s.blkStart q k d a =
      .next (((s.setSeq q { s.seq q with fetching := none }).failCheck q k f).finish q d f.status 4) := by
  obtain ⟨hg, hc, hd, hrest, hch⟩ := hf
  unfold State.blkStart
  simp only [hr, hg, hc, hd, hrest, hch, h]
  rfl

theorem blkStart_need (hr : (s.seq q).allReady [d, a] = true) (hf : BlkFree s q k) {l : List Nat} {b : List Byte}
    {key : Option Nat} (h : s.fetchAndCheck k (!(s.seq q).priv) ((s.seq q).read a).toNat (s.seq q).pieces = .need l)
    (hp : s.codePiece q ((s.plane k).ctx.getD 65536) (s.nextPiece l) = .got b key) :
    s.blkStart q k d a = .next { (s.setSeq q { s.seq q with
      fetching := some ((s.seq q).ip, (s.seq q).priv, (s.nextPiece l, b) :: (s.seq q).pieces) }).chargePiece q key with
        frees := s.frees + 1 } := by
  obtain ⟨hg, hc, hd, hrest, hch⟩ := hf
  unfold State.blkStart
  simp only [hr, hg, hc, hd, hrest, hch, h, hp]
  rfl

end

theorem blk_runs {s : State} {q k : Nat} {d a : SReg} (hi : Issues s q [d, a]) (hq : q < 128) (hk : s.planeOf q = some k) :
    exec (.blk d a) s = (match (s.seq q).chain with
      | some c =>
        (match c.result with
          | some r =>
            if c.here (s.seq q) then s.blkDone q d r { s.seq q with chain := none }
            else (s.setSeq q { s.seq q with chain := none, parked := some c }).blkStart q k d a
          | none => stall s)
      | none =>
        match (s.seq q).parked with
        | some c =>
          if c.here (s.seq q) then s.blkDone q d (c.result.getD 0) { s.seq q with parked := none } else s.blkStart q k d a
        | none => s.blkStart q k d a) :=
  (hi.runs false _).trans (withPlane_of_planeOf hq hk _)

theorem addSlice_same (v : Seq) (i : Image) (era : Nat) : ∃ l, v.addSlice i era = { v with slices := l } := by
  unfold Seq.addSlice
  split
  · exact ⟨_, rfl⟩
  · exact ⟨v.slices, rfl⟩

/-- `blk` with its sequencer free of chains (R346, R55, R58). -/
theorem blk_starts {s : State} {q k : Nat} {d a : SReg} (hi : Issues s q [d, a]) (hq : q < 128) (hk : s.planeOf q = some k)
    (hc : (s.seq q).chain = none) (hp : (s.seq q).parked = none) :
    exec (.blk d a) s = s.blkStart q k d a := by
  rw [blk_runs hi hq hk, hc, hp]

/-- `blk` whose chain has ended while a handler ran a chain of its own (R388). -/
theorem blk_parked {s : State} {q k : Nat} {d a : SReg} {c : BlkWait} {x : Word} (hi : Issues s q [d, a]) (hq : q < 128)
    (hk : s.planeOf q = some k) (hc : (s.seq q).chain = none) (hp : (s.seq q).parked = some c)
    (hh : c.here (s.seq q) = true) (hx : c.result = some x) :
    exec (.blk d a) s = s.blkDone q d x { s.seq q with parked := none } := by
  rw [blk_runs hi hq hk, hc, hp]
  dsimp only
  rw [if_pos hh, hx, Option.getD_some, hc]

theorem launch_spec {s : State} {q k : Nat} {d : SReg} (img : Image) :
    let t := s.launch q k d img
    let v := s.seq q
    ∃ ch w, (t.plane k).chain = some ch ∧ ch.seq = q ∧ ch.before = s.nextId ∧
      ch.era = 0 ∧ ch.cur = s.instanceOf k img ∧ ch.next = none ∧ ch.ret = none ∧ (t.seq q).chain = some w ∧
      w.ip = v.ip ∧ w.priv = v.priv ∧ w.d = d ∧ w.result = none ∧ RegsStay s t q ∧ (t.seq q).ip = v.ip ∧
      t.mem = s.mem := by
  intro t v
  let w : BlkWait := { ip := v.ip, priv := v.priv, inh := EStat.inh v.estat, d, result := none }
  let ch : Chain :=
    { seq := q, before := s.nextId, era := 0, cur := s.instanceOf k img, next := none, pieces := [], ret := none }
  obtain ⟨l, hl⟩ := addSlice_same { v with fetching := none, chain := some w } img 0
  have hseq : t.seq q = { v with fetching := none, chain := some w, slices := l } :=
    (State.seq_setSeq_self _ _ _).trans hl
  have hplane : (t.plane k).chain = some ch :=
    congrArg Plane.chain (State.plane_setPlane_self s k _ :)
  refine ⟨ch, w, hplane, rfl, rfl, rfl, rfl, rfl, rfl, congrArg Seq.chain hseq, rfl, rfl, rfl, rfl, ⟨?_, ?_⟩, ?_, rfl⟩
  · exact (congrArg Seq.user hseq :)
  · exact (congrArg Seq.bank hseq :)
  · exact (congrArg Seq.ip hseq :)

/-- The pieces that a `blk` has read, with one more. -/
theorem pieceRead_spec (s : State) (q : Nat) (f : Option (Word × Bool × Pieces)) (key : Option Nat) :
    let t : State := { (s.setSeq q { s.seq q with fetching := f }).chargePiece q key with frees := s.frees + 1 }
    (t.seq q).fetching = f ∧ RegsStay s t q ∧ (t.seq q).ip = (s.seq q).ip ∧ t.mem = s.mem ∧ t.planes = s.planes := by
  intro t
  obtain ⟨hm, -, hs, hp⟩ := (SameButRegions.chargePiece (s.setSeq q { s.seq q with fetching := f }) q key).fields
  have hseq : t.seq q = { s.seq q with fetching := f } :=
    (congrArg (fun l => Tab.getD l q (Seq.reset q)) hs).trans (State.seq_setSeq_self _ _ _)
  exact ⟨congrArg Seq.fetching hseq, ⟨(congrArg Seq.user hseq :), (congrArg Seq.bank hseq :)⟩, (congrArg Seq.ip hseq :), hm, hp⟩

theorem blkDone_goesOn {s : State} {q : Nat} {d a : SReg} {r : Word} {v : Seq} (hd : v.ready d = true)
    (h : exec (.blk d a) s = s.blkDone q d r v) (hip : v.ip = (s.seq q).ip) (hp : v.priv = (s.seq q).priv)
    (hu : v.user = (s.seq q).user) (hb : v.bank = (s.seq q).bank) :
    SeqGoesOn (.blk d a) s (s.setSeq q v) q d r 4 := by
  refine .of_finish (h.trans (if_pos hd)) ?_ ?_ ?_ ?_ rfl rfl
  · rw [State.seq_setSeq_self, hip]
  · rw [State.seq_setSeq_self, hp]
  · rw [State.seq_setSeq_self, hu]
  · rw [State.seq_setSeq_self, hb]

theorem blk_bad {s : State} {q k : Nat} {d a : SReg} {f : CheckFail}
    (h : exec (.blk d a) s =
      .next (((s.setSeq q { s.seq q with fetching := none }).failCheck q k f).finish q d f.status 4)) :
    SeqGoesOn (.blk d a) s
      (s.setSeq q { s.seq q with fetching := none, reports := (s.seq q).reports ++ [f.record k] }) q d f.status 4 := by
  have hu : (s.setSeq q { s.seq q with fetching := none }).failCheck q k f =
      s.setSeq q { s.seq q with fetching := none, reports := (s.seq q).reports ++ [f.record k] } := by
    unfold State.failCheck State.report
    simp only [State.seq_setSeq_self, State.setSeq_setSeq]
  rw [hu] at h
  exact .of_finish h (by rw [State.seq_setSeq_self]) (by rw [State.seq_setSeq_self]) (by rw [State.seq_setSeq_self])
    (by rw [State.seq_setSeq_self]) rfl rfl

/-! ### Successors (R39, R101) -/

section
variable {s : State} {r p i : Nat} {c : Chain}

/-- A chain whose successor is to be fetched, with the index i. -/
def Decided (s : State) (k : Nat) (c : Chain) (i : Nat) : Prop :=
  (s.plane k).chain = some c ∧ (s.plane k).draining = false ∧ (s.plane k).atRest = false ∧ c.next = none ∧ c.ret = none ∧
    (s.plane k).settling c.era = false ∧ (s.plane k).decision c.era = some i

/-- What the successor's image gives. -/
def Chain.found (c : Chain) (s : State) (k i : Nat) : Checked :=
  s.fetchAndCheck k (s.chainUser c.seq) ((c.cur.header : Int) + 16 * Head128.succ c.cur.head i) c.pieces

theorem successorFetch_last (h : Decided s (planeKey r p) c i) (h3 : i = 3) (hoff : Head128.succ c.cur.head i = 0) :
    exec (.successorFetch r p) s = .next (s.setPlane (planeKey r p)
      { s.plane (planeKey r p) with chain := some { c with ret := some 0, pieces := [] } }) := by
  obtain ⟨h1, h2, hrest, hn, hret, hset, hdec⟩ := h
  show execSuccessorFetch r p s = _
  unfold execSuccessorFetch
  dsimp only
  rw [h1]
  dsimp only
  refine (if_neg (by simp [h2, hrest, hn, hret, hset])).trans ?_
  rw [hdec]
  subst h3
  exact if_pos (by simp [hoff])

section
variable (h : Decided s (planeKey r p) c i) (hx : ¬(i = 3 ∧ Head128.succ c.cur.head i = 0))
include h hx

theorem successorFetch_block {img : Image} (hf : c.found s (planeKey r p) i = .block img) :
    exec (.successorFetch r p) s = .next ((s.setPlane (planeKey r p) { s.plane (planeKey r p) with
      chain := some { c with next := some (s.instanceOf (planeKey r p) img), pieces := [] }
      nodes := (s.instanceOf (planeKey r p) img).shadows (c.era + 1) (s.plane (planeKey r p)).nodes }).setSeq c.seq
        ((s.seq c.seq).addSlice img (c.era + 1))) := by
  obtain ⟨h1, h2, hrest, hn, hret, hset, hdec⟩ := h
  unfold Chain.found at hf
  show execSuccessorFetch r p s = _
  unfold execSuccessorFetch
  dsimp only
  rw [h1]
  dsimp only
  refine (if_neg (by simp [h2, hrest, hn, hret, hset])).trans ?_
  rw [hdec]
  refine (if_neg (by simpa using hx)).trans ?_
  rw [hf]
  rfl

theorem successorFetch_bad {f : CheckFail} (hf : c.found s (planeKey r p) i = .bad f) :
    exec (.successorFetch r p) s = .next ((s.failCheck c.seq (planeKey r p) f).setPlane (planeKey r p)
      { s.plane (planeKey r p) with chain := some { c with ret := some f.status, pieces := [] } }) := by
  obtain ⟨h1, h2, hrest, hn, hret, hset, hdec⟩ := h
  unfold Chain.found at hf
  show execSuccessorFetch r p s = _
  unfold execSuccessorFetch
  dsimp only
  rw [h1]
  dsimp only
  refine (if_neg (by simp [h2, hrest, hn, hret, hset])).trans ?_
  rw [hdec]
  refine (if_neg (by simpa using hx)).trans ?_
  rw [hf]
  rfl

theorem successorFetch_need {l : List Nat} {b : List Byte} {key : Option Nat} (hf : c.found s (planeKey r p) i = .need l)
    (hp : s.codePiece c.seq ((s.plane (planeKey r p)).ctx.getD 65536) (s.nextPiece l) = .got b key) :
    exec (.successorFetch r p) s = .next { (s.setPlane (planeKey r p) { s.plane (planeKey r p) with
      chain := some { c with pieces := (s.nextPiece l, b) :: c.pieces } }).chargePiece c.seq key with
        frees := s.frees + 1 } := by
  obtain ⟨h1, h2, hrest, hn, hret, hset, hdec⟩ := h
  unfold Chain.found at hf
  show execSuccessorFetch r p s = _
  unfold execSuccessorFetch
  dsimp only
  rw [h1]
  dsimp only
  refine (if_neg (by simp [h2, hrest, hn, hret, hset])).trans ?_
  rw [hdec]
  refine (if_neg (by simpa using hx)).trans ?_
  rw [hf]
  dsimp only
  rw [hp]
  rfl

end

end

/-- Settles O29: the launch and the successor's fetch step by step, and the check against Tables 2-11 and 2-15. -/
theorem blkRunsChains : Obligations.BlkRunsChains := by
  unfold Obligations.BlkRunsChains
  refine ⟨fun s q k d a hi hq hk => ?_, fun s r p i c => ?_, fun s k user img hlen => checkImage_spec s k user img hlen⟩
  · intro v pl
    have hr := hi.2.2.1
    have hd : v.ready d = true := (List.all_eq_true.1 hr) d List.mem_cons_self
    refine ⟨fun hc hp hg hcb hdr hat hch => ?_, fun c hc hres => ?_, fun c x hc hip hat hres => ?_,
      fun c x hc hp hhere hres => ?_⟩
    · have hf : BlkFree s q k := ⟨hg, hcb, hdr, hat, hch⟩
      have hrun := blk_starts hi hq hk hc hp
      refine ⟨fun img h => ?_, fun f h => blk_bad (hrun.trans (blkStart_bad hr hf h)), fun l h hl hall => ?_⟩
      · obtain ⟨ch, w, hspec⟩ := launch_spec (s := s) (q := q) (k := k) (d := d) img
        exact ⟨_, ch, w, hrun.trans (blkStart_block hr hf h), hspec⟩
      · obtain ⟨b, key, hgot⟩ := hall _ (s.nextPiece_mem hl)
        obtain ⟨h1, h2, h3, h4, h5⟩ := pieceRead_spec s q
          (some (v.ip, v.priv, (s.nextPiece l, b) :: v.pieces)) key
        exact ⟨_, _, b, key, hrun.trans (blkStart_need hr hf h hgot), s.nextPiece_mem hl, hgot, h1, h2, h3, h4, h5⟩
    · rw [blk_runs hi hq hk, hc]
      dsimp only
      rw [hres]
      rfl
    · refine blkDone_goesOn hd ?_ rfl rfl rfl rfl
      have hhere : c.here v = true := by
        unfold Seq.atChain at hat
        rw [hc] at hat
        obtain ⟨h1, h2⟩ := Bool.and_eq_true_iff.1 hat
        unfold BlkWait.here
        rw [decide_eq_true hip, eq_of_beq h1, eq_of_beq h2]
        simp
      rw [blk_runs hi hq hk, hc]
      dsimp only
      rw [hres]
      exact if_pos hhere
    · exact blkDone_goesOn hd (blk_parked hi hq hk hc hp hhere hres) rfl rfl rfl rfl
  · intro k pl h1 h2 h3 h4 h5 h6 h7 off found
    have h : Decided s k c i := ⟨h1, h2, h3, h4, h5, h6, h7⟩
    refine ⟨fun hi ho => successorFetch_last h hi ho, fun hx => ⟨fun img hf => ?_, fun f hf => ?_, fun l hf hl hall => ?_⟩⟩
    · refine ⟨_, _, successorFetch_block h hx hf, ?_, rfl, ?_, rfl⟩
      · exact congrArg Plane.chain (State.plane_setPlane_self _ _ _ :)
      · exact congrArg Plane.nodes (State.plane_setPlane_self _ _ _ :)
    · refine ⟨_, successorFetch_bad h hx hf, ?_, ?_, rfl⟩
      · exact congrArg Plane.chain (State.plane_setPlane_self _ _ _ :)
      · exact congrArg Seq.reports (State.seq_setSeq_self s c.seq _ :)
    · obtain ⟨b, key, hgot⟩ := hall _ (s.nextPiece_mem hl)
      obtain ⟨hm, -, -, hp⟩ := (SameButRegions.chargePiece (s.setPlane k { pl with
        chain := some { c with pieces := (s.nextPiece l, b) :: c.pieces } }) c.seq key).fields
      refine ⟨_, _, b, key, successorFetch_need h hx hf hgot, s.nextPiece_mem hl, hgot, ?_, hm⟩
      have hplane := congrArg (fun t => (Tab.getD t k (Plane.empty)).chain) hp
      exact hplane.trans (congrArg Plane.chain (State.plane_setPlane_self _ _ _ :))

/-! ### Commit (R22, R103) -/

section
variable {s : State} {r p : Nat} {c : Chain}

/-- A state whose running instance has committed: its flags are in FPC and its agent has ended. -/
def State.blockEnded (s : State) (r p : Nat) : State :=
  (s.raiseFlags ((s.plane (planeKey r p)).ctx.getD 65536) (s.plane (planeKey r p)).flags).retire (Agent.block r p).key

theorem State.blockEnded_ended (s : State) (hr : r < 128) (hp : p < 4) :
    Ended s (s.blockEnded r p) (· = (Agent.block r p).key) := by
  have hend : (Agent.block r p).ends := ⟨hr, hp⟩
  exact (Ended.of_eq _ (by simp) (by simp)).trans (State.retire_ended hend _)

theorem blockCommit_next (hc : (s.plane (planeKey r p)).chain = some c) (h : s.canCommit (planeKey r p) c = true) {n : Inst}
    (hn : c.next = some n) :
    exec (.blockCommit r p) s = .next ((s.blockEnded r p).setPlane (planeKey r p) { s.plane (planeKey r p) with
      flags := 0, chain := some { c with era := c.era + 1, cur := n, next := none } }) := by
  show execBlockCommit r p s = _
  unfold execBlockCommit
  dsimp only
  rw [hc]
  dsimp only
  rw [h, hn]
  rfl

theorem blockCommit_end (hc : (s.plane (planeKey r p)).chain = some c) (h : s.canCommit (planeKey r p) c = true) {x : Word}
    (hn : c.next = none) (hx : c.ret = some x) :
    exec (.blockCommit r p) s = .next (((s.blockEnded r p).setPlane (planeKey r p)
      { (s.plane (planeKey r p)).idled with flags := 0 }).setSeq c.seq { s.seq c.seq with
        chain := (s.seq c.seq).chain.map fun w => { w with result := some x } }) := by
  have hseq : ((s.blockEnded r p).setPlane (planeKey r p)
      { (s.plane (planeKey r p)).idled with flags := 0 }).seq c.seq = s.seq c.seq := by
    simp [State.blockEnded]
  rw [← hseq]
  show execBlockCommit r p s = _
  unfold execBlockCommit
  dsimp only
  rw [hc]
  dsimp only
  rw [h, hn, hx]
  rfl

end

/-! ### The wavefront (R104, R105, R31) -/

section
variable {s : State} {r p slot : Nat} {c : Chain} {i : Inst} {n : Node}

/-- A node of a plane whose chain has a successor. -/
def Succeeded (s : State) (k slot : Nat) (c : Chain) (i : Inst) (n : Node) : Prop :=
  (s.plane k).chain = some c ∧ c.next = some i ∧ Tab.find? (s.plane k).nodes slot = some n ∧ (s.plane k).stopped = false

/-- A running source of the old instance. -/
def OldSource (s : State) (k slot : Nat) (c : Chain) (n : Node) : Prop :=
  (s.plane k).draining = false ∧ n.era = c.era ∧ n.phase = .run ∧ (s.plane k).isSource slot n = true

/-- The plane with another state of one node. -/
def State.withNode (s : State) (k slot : Nat) (n : Node) : State :=
  s.setPlane k { s.plane k with nodes := Tab.put (s.plane k).nodes slot n }

theorem State.find?_withNode (s : State) (k slot : Nat) (n : Node) :
    Tab.find? ((s.withNode k slot n).plane k).nodes slot = some n := by
  unfold State.withNode
  rw [State.plane_setPlane_self]
  exact Tab.find?_put_self _ _ _

theorem switchInject_runs (h : Succeeded s (planeKey r p) slot c i n) (ho : OldSource s (planeKey r p) slot c n) :
    exec (.switchInject r p slot) s =
      if fabricOpc n.word = 0x05 then
        if n.fired then .next (s.withNode (planeKey r p) slot { n with phase := .reconf }) else stall s
      else if n.ended || (s.plane (planeKey r p)).endless slot n then
        .next (s.withNode (planeKey r p) slot
          { n with phase := if isMemorySlot slot then .held else .emit, emitting := Mk.switch, sent := [] })
      else stall s := by
  obtain ⟨hc, hi, hn, hs⟩ := h
  obtain ⟨hd, he, hp, hsrc⟩ := ho
  show execSwitchInject r p slot s = _
  unfold execSwitchInject State.withNode
  dsimp only
  rw [hc, hn]
  dsimp only
  rw [hi]
  refine if_neg ?_
  simp [hs, hd, he, hp, hsrc]

/-- What is granted or asked lies in the regions' records. -/
theorem SameButRegions.grant (s : State) (k slot : Nat) (l : List (Nat × Nat)) : SameButRegions s (s.grant k slot l) := by
  unfold State.grant
  exact .foldl (fun s e => .setRegion s e.1 _) l s

theorem SameButRegions.ask (s : State) (k slot : Nat) (l : List (Nat × Nat)) : SameButRegions s (s.ask k slot l) := by
  unfold State.ask
  refine .foldl (fun s e => ?_) l s
  dsimp only
  split
  · exact .refl s
  · exact .setRegion s e.1 _

/-- The links that a slot drives once it has its instance's word, and the squares that they need. -/
def newLinks (s : State) (k slot : Nat) (c : Chain) (i : Inst) (n : Node) : List Link :=
  ((s.plane k).reconfigured slot (c.era + 1) i n).links.filter fun l => l.src = slot

def squaresOf (k : Nat) (l : List Link) : List (Nat × Nat) :=
  l.map fun l => (regionOfSlot k l.dst, squareOf l.dst % 512)

/-- The state in which the slot has its instance's word. -/
def State.reconfigure (s : State) (k slot : Nat) (c : Chain) (i : Inst) (n : Node) : State :=
  s.setPlane k ((s.plane k).reconfigured slot (c.era + 1) i n)

/-- Squares whose shared entries the links take. -/
def sharedSquares (s : State) (k slot : Nat) (c : Chain) (i : Inst) (n : Node) : List (Nat × Nat) :=
  (squaresOf k (newLinks s k slot c i n)).filter fun (r, q) => !(s.reconfigure k slot c i n).inReservation r q k

theorem nodeReconfigure_runs (h : Succeeded s (planeKey r p) slot c i n) (hp : n.phase = .reconf)
    (hj : s.isJammed (planeKey r p) slot = false) :
    exec (.nodeReconfigure r p slot) s =
      if ((squaresOf (planeKey r p) (newLinks s (planeKey r p) slot c i n)).all fun (r', q) =>
          (s.reconfigure (planeKey r p) slot c i n).poolHolds r' q) &&
        (sharedSquares s (planeKey r p) slot c i n).all fun (r', q) =>
          s.hasAsked r' q (planeKey r p) slot && !s.outAsked r' q (planeKey r p) slot
      then .next ((s.reconfigure (planeKey r p) slot c i n).grant (planeKey r p) slot
        (sharedSquares s (planeKey r p) slot c i n))
      else .next (s.ask (planeKey r p) slot (sharedSquares s (planeKey r p) slot c i n)) := by
  obtain ⟨hc, hi, hn, hs⟩ := h
  have hlinks : newLinks s (planeKey r p) slot c i n =
      ((s.reconfigure (planeKey r p) slot c i n).plane (planeKey r p)).links.filter fun l => l.src = slot := by
    unfold State.reconfigure
    rw [State.plane_setPlane_self]
    rfl
  unfold sharedSquares
  rw [hlinks]
  show execNodeReconfigure r p slot s = _
  unfold execNodeReconfigure
  dsimp only
  rw [hc, hn]
  dsimp only
  rw [hi]
  dsimp only
  refine (if_neg (by simp [hs, hp])).trans ((if_neg (by simp [hj])).trans ?_)
  rfl

/-- The slot has its instance's word, and runs. -/
theorem reconfigured_node {pl : Plane} {era : Nat} {w : Word} {x : Nat × Word} (hw : n.shadow = some w)
    (hx : i.at? slot = some x) :
    Tab.find? (pl.reconfigured slot era i n).nodes slot =
      some { Node.fresh w with index := x.1, era, config := n.config } := by
  unfold Plane.reconfigured
  rw [hw, hx]
  exact Tab.find?_put_self _ _ _

theorem nodeReconfigure_takes (h : Succeeded s (planeKey r p) slot c i n) (hp : n.phase = .reconf)
    (hj : s.isJammed (planeKey r p) slot = false)
    (hall : ∀ l ∈ newLinks s (planeKey r p) slot c i n,
      let u := s.reconfigure (planeKey r p) slot c i n
      let r' := regionOfSlot (planeKey r p) l.dst
      let q := squareOf l.dst % 512
      u.poolHolds r' q = true ∧ (u.inReservation r' q (planeKey r p) = true ∨
        (s.hasAsked r' q (planeKey r p) slot = true ∧ s.outAsked r' q (planeKey r p) slot = false))) :
    exec (.nodeReconfigure r p slot) s = .next ((s.reconfigure (planeKey r p) slot c i n).grant (planeKey r p) slot
      (sharedSquares s (planeKey r p) slot c i n)) := by
  refine (nodeReconfigure_runs h hp hj).trans (if_pos ?_)
  rw [Bool.and_eq_true, List.all_eq_true, List.all_eq_true]
  constructor
  · intro e he
    obtain ⟨l, hl, rfl⟩ := List.mem_map.1 he
    exact (hall l hl).1
  · intro e he
    obtain ⟨hm, hres⟩ := List.mem_filter.1 he
    obtain ⟨l, hl, rfl⟩ := List.mem_map.1 hm
    obtain ⟨h1, h2⟩ := (hall l hl).2.resolve_left (by simpa using hres)
    exact Bool.and_eq_true_iff.2 ⟨h1, by simpa using h2⟩

theorem nodeReconfigure_asks (h : Succeeded s (planeKey r p) slot c i n) (hp : n.phase = .reconf)
    (hj : s.isJammed (planeKey r p) slot = false) {l : Link} (hl : l ∈ newLinks s (planeKey r p) slot c i n)
    (hres : (s.reconfigure (planeKey r p) slot c i n).inReservation (regionOfSlot (planeKey r p) l.dst)
      (squareOf l.dst % 512) (planeKey r p) = false)
    (hask : s.hasAsked (regionOfSlot (planeKey r p) l.dst) (squareOf l.dst % 512) (planeKey r p) slot = false) :
    exec (.nodeReconfigure r p slot) s =
      .next (s.ask (planeKey r p) slot (sharedSquares s (planeKey r p) slot c i n)) := by
  refine (nodeReconfigure_runs h hp hj).trans (if_neg fun hall => ?_)
  have hmem : (regionOfSlot (planeKey r p) l.dst, squareOf l.dst % 512) ∈ sharedSquares s (planeKey r p) slot c i n :=
    List.mem_filter.2 ⟨List.mem_map.2 ⟨l, hl, rfl⟩, by simpa using hres⟩
  have hasked := (Bool.and_eq_true_iff.1 (List.all_eq_true.1 (Bool.and_eq_true_iff.1 hall).2 _ hmem)).1
  exact Bool.noConfusion (hask.symm.trans hasked)

end

/-- Settles O30, step by step. -/
theorem blocksCommit : Obligations.BlocksCommit := by
  unfold Obligations.BlocksCommit
  refine ⟨fun s r p c => ?_, fun s r p slot c i n => ?_⟩
  · intro k left hr hp hc hcan
    have hend := s.blockEnded_ended hr hp
    refine ⟨fun n hn => ⟨_, blockCommit_next hc hcan hn, hend.trans (.of_eq _ rfl rfl), ?_, ?_, ?_, ?_⟩,
      fun x hn hx => ⟨_, blockCommit_end hc hcan hn hx, hend.trans (.of_eq _ rfl rfl), ?_, ?_, ?_, fun w hw => ?_⟩⟩
    · rw [State.plane_setPlane_self]
    · rw [State.plane_setPlane_self]
    · rw [State.plane_setPlane_self]
    · rw [State.plane_setPlane_self]
    · rw [State.plane_setSeq, State.plane_setPlane_self]; rfl
    · rw [State.plane_setSeq, State.plane_setPlane_self]; rfl
    · rw [State.plane_setSeq, State.plane_setPlane_self]; rfl
    · rw [State.seq_setSeq_self, hw]
      rfl
  · intro k pl hc hi hn hs
    have h : Succeeded s k slot c i n := ⟨hc, hi, hn, hs⟩
    refine ⟨fun hd he hp hsrc => ?_, fun w x hp hw hx hj hall => ?_, fun w l hp hw hj hl => ?_⟩
    · have hrun := switchInject_runs h ⟨hd, he, hp, hsrc⟩
      refine ⟨fun h5 hf => ?_, fun h5 hf => ?_, fun h5 hend => ?_⟩
      · rw [if_pos h5, if_pos hf] at hrun
        exact ⟨_, hrun, State.find?_withNode _ _ _ _, rfl⟩
      · rw [if_pos h5, hf] at hrun
        exact hrun
      · rw [if_neg h5, if_pos (by simpa using hend)] at hrun
        exact ⟨_, hrun, rfl, State.find?_withNode _ _ _ _⟩
    · have hrun := nodeReconfigure_takes h hp hj fun l hl => by
        obtain ⟨hm, hsrc⟩ := List.mem_filter.1 hl
        exact hall l hm (of_decide_eq_true hsrc)
      obtain ⟨hm, -, -, hplanes⟩ := (SameButRegions.grant (s.reconfigure k slot c i n) k slot
        (sharedSquares s k slot c i n)).fields
      have hplane := congrArg (fun t => Tab.getD t k Plane.empty) hplanes
      have hnode := reconfigured_node (pl := pl) (era := c.era + 1) hw hx
      refine ⟨_, { Node.fresh w with index := x.1, era := c.era + 1, config := n.config }, hrun, ?_, rfl, rfl, rfl, rfl,
        rfl, hm⟩
      refine (congrArg (fun x : Plane => Tab.find? x.nodes slot) (hplane.trans (State.plane_setPlane_self s k _))).trans ?_
      exact hnode
    · obtain ⟨hm, hsrc, hres, hask⟩ := hl
      have hrun := nodeReconfigure_asks h hp hj (List.mem_filter.2 ⟨hm, decide_eq_true hsrc⟩) hres hask
      obtain ⟨h1, -, h3, h4⟩ := (SameButRegions.ask s k slot (sharedSquares s k slot c i n)).fields
      exact ⟨_, hrun, h4, h1, h3⟩

end Sys2Proof.Machine
end

