-- ==== Sys2Proof/Proofs/Markers.lean ====
section
/-!
PROOFS. O33 and the node forms: a node of the lane-wise form at a marker, a fault at a node, links as queues.
-/

namespace Sys2Proof.Machine

/-! ### Nodes of the standard form -/

/-- A node in its turn that no accumulator and no token of an earlier firing holds back. -/
def NodeFree (s : State) (a : At) : Prop := NodeTurn s a ∧ a.accWaits = false ∧ a.node.pend = []

section
variable {s : State} {a : At} {f : Fields} {ins : List Slot}
  {onMark : At → List Head → Slot → Token → Option Res} {data : At → List Head → Res}

theorem stdNode_of_meets (h : NodeFree s a) :
    stdNode s f ins onMark data =
      match meets (a.heads (withPred f ins)) with
      | .nothing => stall s
      | .reserved _ => .next (a.block s 0x10)
      | .misaligned => .next (a.fault s .mkalign 0 a.node.pos)
      | .free o t =>
        (match onMark a (a.heads (withPred f ins)) o t with
          | some r => r
          | none => fire s a f [o] (toAll t) a.node 0)
      | .positional t =>
        (match onMark { a with node := { a.node with ended := a.node.ended || t.marker = Mk.eot } }
            (a.heads (withPred f ins)) .a t with
          | some r => r
          | none => fire s a f (a.moving f ins) (toAll t) { a.node with ended := a.node.ended || t.marker = Mk.eot } 0)
      | .wave m => wave s a (a.moving f ins) m
      | .data => data a (a.heads (withPred f ins)) := by
  obtain ⟨hturn, hacc, hpend⟩ := h
  obtain ⟨-, -, -, -, -, -, -, hphase⟩ := id hturn
  rw [stdNode, asNode_of_turn hturn]
  simp only [hphase, hacc, hpend, Bool.false_eq_true, if_false]
  cases meets (a.heads (withPred f ins)) <;> rfl

end

/-- A node of the standard form with the plain rule for markers (R99). -/
def PlainNode (s : State) (f : Fields) (ins : List Slot) (r : Res) : Prop := ∃ data, r = stdNode s f ins plainMarks data

section
variable {s : State} {f : Fields}

theorem PlainNode.of_lane {ins : List Slot} {r : Res} {G : At → (Slot → Lane) → Lane × FFlags} (h : r = laneNode s f ins G) :
    PlainNode s f ins r := ⟨_, h⟩

theorem PlainNode.of_binary {r : Res} {G : IFmt → Int → Int → Lane} (h : r = binaryNode s f G) :
    PlainNode s f (slotsOrImm f) r := by
  unfold binaryNode at h
  exact .of_lane h

theorem PlainNode.of_shift {r : Res} {G : Nat → Nat → Nat → Nat} (h : r = shiftNode s f G) :
    PlainNode s f (slotsOrImm f) r := by
  unfold shiftNode at h
  exact .of_lane h

theorem PlainNode.of_pattern {r : Res} {G : Nat → Nat → Nat} (h : r = patternNode s f G) :
    PlainNode s f [.a] r := by
  unfold patternNode at h
  exact .of_lane h

end

/-- Each lane-wise integer instruction is of the standard form, with the plain rule for markers. -/
theorem intLane_plainNode {i : Instr} {s : State} {f : Fields} {ins : List Slot} {g : (Slot → Lane) → Lane}
    (h : intLane i = some (f, ins, g)) : PlainNode s f ins (exec i s) := by
  unfold intLane at h
  dsimp only at h
  split at h
  next f =>
    cases h
    exact .of_binary (show _ = execFabAdd f s from rfl)
  next f =>
    cases h
    exact .of_binary (show _ = execFabSub f s from rfl)
  next f =>
    cases h
    exact .of_binary (show _ = execAdds f s from rfl)
  next f =>
    cases h
    exact .of_binary (show _ = execSubs f s from rfl)
  next f =>
    cases h
    exact .of_binary (show _ = execFabMul f s from rfl)
  next f =>
    cases h
    exact .of_binary (show _ = execFabMulh f s from rfl)
  next f =>
    cases h
    have he : exec (.mad f) s = execMad f s := rfl
    unfold execMad at he
    exact .of_lane he
  next f =>
    cases h
    exact .of_binary (show _ = execFabAnd f s from rfl)
  next f =>
    cases h
    exact .of_binary (show _ = execFabOr f s from rfl)
  next f =>
    cases h
    exact .of_binary (show _ = execFabXor f s from rfl)
  next f =>
    cases h
    exact .of_binary (show _ = execAndn f s from rfl)
  next f =>
    cases h
    exact .of_binary (show _ = execFabMin f s from rfl)
  next f =>
    cases h
    exact .of_binary (show _ = execFabMax f s from rfl)
  next f =>
    cases h
    exact .of_binary (show _ = execCmp f s from rfl)
  next f =>
    cases h
    exact .of_shift (show _ = execFabShl f s from rfl)
  next f =>
    cases h
    exact .of_shift (show _ = execFabShr f s from rfl)
  next f =>
    cases h
    exact .of_shift (show _ = execFabSra f s from rfl)
  next f =>
    cases h
    exact .of_pattern (show _ = execClz f s from rfl)
  next f =>
    cases h
    exact .of_pattern (show _ = execPopc f s from rfl)
  next f =>
    cases h
    exact .of_pattern (show _ = execBrev f s from rfl)
  next => cases h

/-! ### Faults of a node (R386, R387) -/

@[simp] theorem Seq.plane_withSys (v : Seq) (x : SysRegs) : (v.withSys x).plane = v.plane := rfl

/-- A fabric fault freezes its plane and writes the registers of its context; no byte of memory changes. -/
theorem fabricFault_spec (s : State) (k bpc node pos : Nat) (cause : Cause) (addr aux : Word) :
    let t := s.fabricFault k bpc node pos cause addr aux
    (t.plane k).frozen = .fault ∧ t.mem = s.mem ∧ t.agents = s.agents ∧
      t.sysOf k = (s.sysOf k).fabric k bpc node pos cause addr aux := by
  intro t
  by_cases h : s.planeOf (k / 4) = some k
  · have ht : t = (s.setPlane k { s.plane k with frozen := .fault }).setSeq (k / 4)
        { (s.seq (k / 4)).withSys ((s.sysOf k).fabric k bpc node pos cause addr aux) with
          estat := if EStat.inh (s.seq (k / 4)).estat then (s.seq (k / 4)).estat ||| 4 else (s.seq (k / 4)).estat
          pendFault := some (cause, addr) } := if_pos h
    have hplane : t.planeOf (k / 4) = some k := by
      rw [← h, ht]
      unfold State.planeOf
      rw [State.seq_setSeq_self]
      rfl
    refine ⟨?_, by rw [ht]; rfl, by rw [ht]; rfl, ?_⟩
    · rw [ht, State.plane_setSeq, State.plane_setPlane_self]
    · unfold State.sysOf
      rw [if_pos hplane, ht, State.seq_setSeq_self]
      rfl
  · have ht : t = s.setPlane k { s.plane k with
        frozen := .fault, sys := (s.sysOf k).fabric k bpc node pos cause addr aux } := if_neg h
    refine ⟨?_, by rw [ht]; rfl, by rw [ht]; rfl, ?_⟩
    · rw [ht, State.plane_setPlane_self]
    · have hplane : ¬t.planeOf (k / 4) = some k := by
        rw [ht]
        exact h
      refine (if_neg hplane).trans ?_
      rw [ht, State.plane_setPlane_self]

/-- The word of a fault's position (Table 15-4). -/
theorem positionWord_fields (node plane pos : Nat) :
    bits (positionWord node plane pos) 0 48 = BitVec.ofNat 48 pos ∧
      bits (positionWord node plane pos) 54 2 = BitVec.ofNat 2 plane ∧
      bits (positionWord node plane pos) 56 7 = BitVec.ofNat 7 node ∧ bitAt (positionWord node plane pos) 63 = true := by
  unfold positionWord
  refine ⟨?_, ?_, ?_, ?_⟩
  · simp (disch := omega) only [bits, BitVec.extractLsb'_append_eq_of_le, BitVec.extractLsb'_append_eq_of_add_le,
      Nat.reduceSub]
    exact BitVec.extractLsb'_eq_self
  · simp (disch := omega) only [bits, BitVec.extractLsb'_append_eq_of_le, BitVec.extractLsb'_append_eq_of_add_le,
      Nat.reduceSub]
    exact BitVec.extractLsb'_eq_self
  · simp (disch := omega) only [bits, BitVec.extractLsb'_append_eq_of_le, BitVec.extractLsb'_append_eq_of_add_le,
      Nat.reduceSub]
    exact BitVec.extractLsb'_eq_self
  · unfold bitAt
    simp only [BitVec.getLsbD_append]
    rfl

/-- A step that ends in a node's fault freezes its plane and says which fault, and where. -/
theorem NodeFaults.of_fault {i : Instr} {s : State} {a : At} {cause : Cause} {addr aux : Word} {bpc pos : Nat}
    (h : exec i s = .next (s.fabricFault a.plane bpc a.node.index pos cause addr aux)) : NodeFaults i s a cause pos := by
  obtain ⟨hfr, hm, ha, hsys⟩ := fabricFault_spec s a.plane bpc a.node.index pos cause addr aux
  obtain ⟨h1, h2, h3, h4⟩ := positionWord_fields a.node.index (a.plane % 4) pos
  refine ⟨_, h, hfr, .of_eq hm ha, ?_⟩
  dsimp only
  rw [hsys]
  refine ⟨?_, h1, h2, h3, h4⟩
  show ((0 : BitVec 56) ++ cause.code).toNat = _
  rw [toNat_append_eq]
  simp

/-! ### Lane-wise nodes at markers (R99, R106, R129) -/

section
variable {i : Instr} {s : State} {a : At} {f : Fields} {ins : List Slot}

theorem toAll_ready (h : a.room f) (t : Token) : ∀ o ∈ toAll t, a.ready f o.1 = true := by
  simp only [toAll, List.mem_cons, List.not_mem_nil, or_false, forall_eq_or_imp, forall_eq]
  exact h

variable (hp : PlainNode s f ins (exec i s)) (h : NodeFree s a)
include hp h

theorem PlainNode.positional {t : Token} (hm : meets (a.heads (withPred f ins)) = .positional t) (hr : a.room f) :
    NodeFires i s s a f (a.moving f ins) (toAll t) { a.node with ended := a.node.ended || t.marker = Mk.eot } 0 := by
  obtain ⟨data, hd⟩ := hp
  refine .of_fire (hd.trans ((stdNode_of_meets h).trans ?_)) (toAll_ready hr t)
  rw [hm]
  rfl

theorem PlainNode.free {o : Slot} {t : Token} (hm : meets (a.heads (withPred f ins)) = .free o t) (hr : a.room f) :
    NodeFires i s s a f [o] (toAll t) a.node 0 := by
  obtain ⟨data, hd⟩ := hp
  refine .of_fire (hd.trans ((stdNode_of_meets h).trans ?_)) (toAll_ready hr t)
  rw [hm]
  rfl

theorem PlainNode.misaligned (hm : meets (a.heads (withPred f ins)) = .misaligned) :
    NodeFaults i s a .mkalign a.node.pos := by
  obtain ⟨data, hd⟩ := hp
  refine .of_fault (addr := 0) (aux := 0) (bpc := (a.inst.map Inst.header).getD 0)
    (hd.trans ((stdNode_of_meets h).trans ?_))
  rw [hm]
  rfl

theorem PlainNode.wave {w : Marker} (hm : meets (a.heads (withPred f ins)) = .wave w) :
    exec i s = Machine.wave s a (a.moving f ins) w := by
  obtain ⟨data, hd⟩ := hp
  refine hd.trans ((stdNode_of_meets h).trans ?_)
  rw [hm]

end

/-- A wavefront marker taken: the node begins its EMIT. -/
theorem wave_spec {s : State} {a : At} (os : List Slot) (w : Marker) (hm : isMemorySlot a.slot = false) :
    ∃ t n, wave s a os w = .next t ∧ Tab.find? (t.plane a.plane).nodes a.slot = some n ∧ n.phase = .emit ∧
      n.emitting = w ∧ (t.plane a.plane).links = (takeSlots a.pl a.node a.slot os).links ∧ BytesStay s t := by
  refine ⟨_, { a.node with phase := .emit, emitting := w, sent := [] }, rfl, ?_, rfl, rfl, ?_, .of_eq rfl rfl⟩
  · rw [State.plane_setPlane_self, hm]
    exact Tab.find?_put_self _ _ _
  · rw [State.plane_setPlane_self]

/-! ### Links as queues (R93, R46, R131) -/

theorem updateFirst_found {β : Type} {test : β → Bool} (g : β → β) {before after : List β} {x : β} (hx : test x = true)
    (hb : ∀ y ∈ before, test y = false) : updateFirst test g (before ++ x :: after) = before ++ g x :: after := by
  induction before with
  | nil => exact if_pos hx
  | cons y before ih =>
    refine (if_neg (by simp [hb y List.mem_cons_self])).trans ?_
    exact congrArg (y :: ·) (ih fun z hz => hb z (List.mem_cons_of_mem _ hz))

theorem Link.take_plain {l : Link} (hs : l.sticky = false) (hr : l.renew = none) :
    l.take = { l with toks := l.toks.drop 1 } := by
  obtain ⟨src, out, dst, opd, cap, toks, sticky, era, renew⟩ := l
  dsimp only at hs hr
  subst hs hr
  cases toks <;> rfl

theorem vget_accReplace (old : Vector Lane 16) (t : Token) {i : Nat} (hi : i < 16) :
    vget (accReplace old t) i 0 = if bitAt t.valid i then vget t.payload i 0 else vget old i 0 := by
  have key (l : List Nat) (v : Vector Lane 16) (hnd : l.Nodup) :
      vget (l.foldl (fun v i => if bitAt t.valid i then vput v i (vget t.payload i 0) else v) v) i 0 =
        if i ∈ l ∧ bitAt t.valid i = true then vget t.payload i 0 else vget v i 0 := by
    induction l generalizing v with
    | nil => simp
    | cons j l ih =>
      obtain ⟨hj, hnd⟩ := List.nodup_cons.1 hnd
      rw [List.foldl_cons, ih _ hnd]
      by_cases hji : j = i
      · subst hji
        by_cases hb : bitAt t.valid j = true
        · simp [hj, hb, vget, vput, hi]
        · simp [hj, hb]
      · have hij : ¬i = j := fun h => hji h.symm
        have hv : vget (if bitAt t.valid j = true then vput v j (vget t.payload j 0) else v) i 0 = vget v i 0 := by
          split
          · simp [vget, vput, Vector.getElem?_setIfInBounds, hji]
          · rfl
        rw [hv]
        simp [hij]
  unfold accReplace
  rw [key _ _ List.nodup_range]
  simp [hi]

/-- Settles O33: the plain rule for markers, and what taking and placing do to one link. -/
theorem markersAndLinks : Obligations.MarkersAndLinks := by
  unfold Obligations.MarkersAndLinks
  refine ⟨fun i s a f ins g hl hturn hacc hpend => ?_, fun pl n slot l before after hlinks => ⟨?_, ?_, ?_⟩⟩
  · intro m
    have hp := intLane_plainNode (s := s) hl
    have h : NodeFree s a := ⟨hturn, hacc, hpend⟩
    refine ⟨fun t hm hr => hp.positional h hm hr, fun o t hm hr => hp.free h hm hr, fun hm => ?_, fun w hm hslot => ?_⟩
    · obtain ⟨t, he, hfr, hb, hc, -⟩ := hp.misaligned h hm
      exact ⟨t, he, hfr, hc, hb⟩
    · rw [hp.wave h hm]
      exact wave_spec _ _ hslot
  · intro o hd ho he hs hr hb
    refine congrArg (fun x => { pl with links := x }) ?_
    rw [hlinks, updateFirst_found _ (by simp [hd, ho, he]), Link.take_plain hs hr]
    intro k hk
    have := hb k hk
    simpa [and_assoc] using this
  · intro f out t i o ht hl hb
    unfold placeOut
    rw [ht, hlinks]
    exact congrArg (fun x => { pl with links := x })
      (updateFirst_found (test := fun l => l.isOut n slot out) (fun l => { l with toks := l.toks ++ [t] }) hl hb)
  · intro f out t r ht hdata k i hk hi
    unfold placeOut
    rw [ht]
    dsimp only
    rw [if_pos hdata]
    by_cases hkr : k = r.toNat
    · subst hkr
      have hv : vget (vput pl.a r.toNat (accReplace (vget pl.a r.toNat (Vector.replicate 16 0)) t)) r.toNat
          (Vector.replicate 16 0) = accReplace (vget pl.a r.toNat (Vector.replicate 16 0)) t := by
        simp [vget, vput, hk]
      rw [hv, vget_accReplace _ _ hi]
      simp
    · have hv : vget (vput pl.a r.toNat (accReplace (vget pl.a r.toNat (Vector.replicate 16 0)) t)) k
          (Vector.replicate 16 0) = vget pl.a k (Vector.replicate 16 0) := by
        have hrk : ¬r.toNat = k := fun h => hkr h.symm
        simp [vget, vput, Vector.getElem?_setIfInBounds, hrk]
      rw [hv, if_neg fun h => hkr h.1]

end Sys2Proof.Machine
end

