-- ==== Sys2Proof/Proofs/LaneMoves.lean ====
section
/-!
PROOFS. O34: values moved across lanes, and `scan` and `lred` as combinations of the live lanes.
-/

namespace Sys2Proof.Machine

/-! ### Lanes of the tokens that a node makes -/

theorem vget_lanes {β : Type} (g : Nat → β) (d : β) {k : Nat} (hk : k < 16) : vget (lanes g) k d = g k := by
  unfold vget lanes
  interval_cases k <;> rfl

theorem bitAt_validBits (g : Nat → Bool) {k : Nat} (hk : k < 16) : bitAt (validBits g) k = g k := by
  have key (l : List Nat) (v : BitVec 16) :
      bitAt (l.foldl (fun v i => if g i then v ||| (1#16 <<< i) else v) v) k = (bitAt v k || (decide (k ∈ l) && g k)) := by
    induction l generalizing v with
    | nil => simp
    | cons j l ih =>
      rw [List.foldl_cons, ih]
      by_cases hj : k = j
      · subst hj
        cases hg : g k
        · simp
        · simp [bitAt, hk]
      · have hv : bitAt (if g j = true then v ||| (1#16 <<< j) else v) k = bitAt v k := by
          split
          · unfold bitAt
            rw [BitVec.getLsbD_or, BitVec.getLsbD_shiftLeft]
            by_cases hlt : k < j
            · simp [hlt]
            · have hsub : k - j ≠ 0 := by omega
              simp [hsub]
          · rfl
        rw [hv]
        simp [hj]
  unfold validBits
  rw [key]
  simp [bitAt, hk]

section
variable {t : Token} {g : Nat → Option Lane} {k : Nat}

theorem has_laneToken (hk : k < 16) : (laneToken t g).has k = (g k).isSome := bitAt_validBits _ hk

theorem at_laneToken (hk : k < 16) : (laneToken t g).at k = (g k).getD 0 := vget_lanes _ _ hk

/-- A token of the lanes on which a condition holds, each with its value. -/
theorem laneToken_ite {c : Nat → Bool} {x : Nat → Lane} (hk : k < 16) :
    (laneToken t fun i => if c i then some (x i) else none).has k = c k ∧
      (laneToken t fun i => if c i then some (x i) else none).at k = if c k then x k else 0 := by
  rw [has_laneToken hk, at_laneToken hk]
  cases c k <;> exact ⟨rfl, rfl⟩

end

theorem bothOut_ready {a : At} {f : Fields} (h : a.room f) (t u : Token) :
    ∀ o ∈ [(0, t), (1, u)], a.ready f o.1 = true := by
  simp only [List.mem_cons, List.not_mem_nil, or_false, forall_eq_or_imp, forall_eq]
  exact ⟨h.1, h.2.1⟩

/-- A node of the standard form that meets data does what its data rule says. -/
theorem NodeFires.of_stdNode {i : Instr} {s : State} {a : At} {f : Fields} {ins taken : List Slot} {n : Node} {fl : FFlags}
    {onMark : At → List Head → Slot → Token → Option Res} {data : At → List Head → Res} {outs : List (Nat × Token)}
    (he : exec i s = stdNode s f ins onMark data) (h : NodeData s a f ins)
    (hd : data a (a.heads (withPred f ins)) = fire s a f taken outs n fl) (hr : ∀ o ∈ outs, a.ready f o.1 = true) :
    NodeFires i s s a f taken outs n fl :=
  .of_fire (he.trans ((stdNode_of_data h _ _).trans hd)) hr

/-! ### Moves across lanes -/

section
variable {s : State} {a : At} {f : Fields} (hr : a.room f)
include hr

theorem fan_fires (h : NodeData s a f [.a]) :
    NodeFires (.fan f) s s a f (a.moving f [.a]) (toAll ((a.at f [.a] .a).restrict fun k => predOk f (a.at f [.a] .p) k))
      (a.node.took (a.at f [.a] .a)) 0 :=
  .of_stdNode (show _ = execFan f s from rfl) h rfl (toAll_ready hr _)

theorem filt_fires (h : NodeData s a f [.a, .b]) (hf : f.fn = 0) :
    let x := a.at f [.a, .b] .a
    let y := a.at f [.a, .b] .b
    let on (k : Nat) : Bool := predOk f (a.at f [.a, .b] .p) k
    NodeFires (.filt f) s s a f (a.moving f [.a, .b])
      [(0, x.restrict fun k => on k && y.has k && decide (y.at k ≠ 0)),
        (1, x.restrict fun k => on k && !(y.has k && decide (y.at k ≠ 0)))] (a.node.took x) 0 := by
  intro x y on
  refine .of_stdNode (show _ = execFilt f s from rfl) h ?_ (bothOut_ready hr _ _)
  have hb (v : Lane) : (v != 0) = decide (v ≠ 0) := by rw [Bool.eq_iff_iff, bne_iff_ne, decide_eq_true_eq]
  simp only [hf, hb]
  rfl

theorem sel_fires (h : NodeData s a f [.a, .b, .c]) :
    let ins : List Slot := [.a, .b, .c]
    ∃ out : Token, NodeFires (.sel f) s s a f (a.moving f ins) [(0, out), (1, out)] (a.node.took (a.at f ins .a)) 0 ∧
      ∀ k, k < 16 →
        let z := if (a.at f ins .c).has k = true ∧ (a.at f ins .c).at k ≠ 0 then a.at f ins .a else a.at f ins .b
        out.at k = z.at k ∧ out.has k = (z.has k && predOk f (a.at f ins .p) k) := by
  intro ins
  refine ⟨_, .of_stdNode (show _ = execSel f s from rfl) h rfl (bothOut_ready hr _ _), fun k hk => ?_⟩
  intro z
  have hz : (if (a.at f ins .c).has k && (a.at f ins .c).at k != 0 then a.at f ins .a else a.at f ins .b) = z := by
    simp only [Bool.and_eq_true, bne_iff_ne]
    rfl
  refine ⟨(vget_lanes _ _ hk).trans (congrArg (fun x : Token => x.at k) hz), (bitAt_validBits _ hk).trans ?_⟩
  exact congrArg (fun x : Token => x.has k && predOk f (a.at f ins .p) k) hz

theorem shuf_fires {ins : List Slot} (h : NodeData s a f ins) (hins : ins = if f.fn = 0 then [.a, .b] else [.a]) :
    let x := a.at f ins .a
    let y := a.at f ins .b
    let on (k : Nat) : Bool := predOk f (a.at f ins .p) k
    ∃ out : Token, NodeFires (.shuf f) s s a f (a.moving f ins) [(0, out), (1, out)] (a.node.took x) 0 ∧
      ∀ k, k < 16 →
        let n := (bits f.imm 0 4).toNat
        let j := match f.fn.toNat with
          | 0 => (y.at k).toNat % 16
          | 1 => k ^^^ n
          | 2 => if k < n then k else k - n
          | 3 => if 15 < k + n then k else k + n
          | _ => (k + n) % 16
        out.has k = (on k && x.has k && (decide (f.fn ≠ 0) || y.has k)) ∧
          out.at k = if out.has k ∧ x.has j then x.at j else 0 := by
  intro x y on
  have hi : ins = if f.fn == 0 then [.a, .b] else [.a] := by
    rw [hins]
    simp only [beq_iff_eq]
  subst hi
  have he : exec (.shuf f) s = execShuf f s := rfl
  unfold execShuf at he
  dsimp only at he
  refine ⟨_, .of_stdNode he h rfl (bothOut_ready hr _ _), fun k hk => ?_⟩
  intro n j
  have hb : (!(f.fn == 0)) = decide (f.fn ≠ 0) := by
    rw [Bool.eq_iff_iff, Bool.not_eq_true', beq_eq_false_iff_ne, decide_eq_true_eq]
  refine ⟨(has_laneToken hk).trans ?_, (at_laneToken hk).trans ?_⟩
  · rw [← hb]
    show (if on k && x.has k && (!(f.fn == 0) || y.has k) then some _ else none).isSome = _
    split <;> simp_all
  · rw [has_laneToken hk]
    show (if on k && x.has k && (!(f.fn == 0) || y.has k) then some (if x.has j then x.at j else 0) else none).getD 0 =
      if (if on k && x.has k && (!(f.fn == 0) || y.has k) then some (if x.has j then x.at j else 0) else none).isSome = true ∧
        x.has j = true then x.at j else 0
    generalize (on k && x.has k && (!(f.fn == 0) || y.has k)) = c
    cases c <;> simp

theorem bcst_fires (h : NodeData s a f [.a]) (hf : f.fn.toNat ≤ 1) :
    let x := a.at f [.a] .a
    let on (k : Nat) : Bool := predOk f (a.at f [.a] .p) k
    ∃ out : Token, NodeFires (.bcst f) s s a f (a.moving f [.a]) [(0, out), (1, out)] (a.node.took x) 0 ∧
      ∀ k, k < 16 → out.has k = (on k && x.has k) ∧ (out.has k = true →
        ∀ j, j < 16 → (if f.fn = 0 then j = (bits f.imm 0 4).toNat else ∀ m, m < j → x.has m = false) →
          (f.fn = 1 → x.has j = true) → out.at k = if x.has j then x.at j else 0) := by
  intro x on
  let v : Lane :=
    if f.fn == 0 then (if x.has (bits f.imm 0 4).toNat then x.at (bits f.imm 0 4).toNat else 0)
    else match (List.range 16).find? fun i => x.has i with
      | some i => x.at i
      | none => 0
  refine ⟨laneToken x fun i => if x.has i && on i then some v else none,
    .of_stdNode (show _ = execBcst f s from rfl) h rfl (bothOut_ready hr _ _), fun k hk => ?_⟩
  obtain ⟨h1, h2⟩ := laneToken_ite (t := x) (c := fun i => x.has i && on i) (x := fun _ => v) hk
  rw [h1, h2]
  refine ⟨Bool.and_comm _ _, fun hon j hj hfirst hlive => ?_⟩
  rw [if_pos hon]
  by_cases h0 : f.fn = 0
  · rw [if_pos h0] at hfirst
    subst hfirst
    exact if_pos (beq_iff_eq.2 h0)
  · rw [if_neg h0] at hfirst
    have hone : f.fn = 1 := by
      have hne : f.fn.toNat ≠ 0 := fun h => h0 (BitVec.eq_of_toNat_eq h)
      exact BitVec.eq_of_toNat_eq (show f.fn.toNat = 1 by omega)
    have hx := hlive hone
    have hfind : (List.range 16).find? (fun i => x.has i) = some j :=
      List.find?_range_eq_some.2 ⟨hx, List.mem_range.2 hj, fun m hm => by simp [hfirst m hm]⟩
    refine (if_neg (by simpa using h0)).trans ?_
    rw [hfind, hx]
    rfl

/-- The byte offset of a lane (R139), and whether its limit allows it. -/
def addrValue (a : At) (f : Fields) (ins : List Slot) (k : Nat) : Int :=
  ((a.at f ins .a).at k).toNat +
    (if f.ty = .i32 then ((a.at f ins .b).at k).toInt else ((a.at f ins .b).at k).toNat) *
      (2 ^ (bits f.fn 0 3).toNat : Nat) + f.imm.toInt

def addrInside (a : At) (f : Fields) (ins : List Slot) (k : Nat) : Bool :=
  (bits f.fn 3 2).toNat = 0 ||
    (decide (0 ≤ addrValue a f ins k) && decide (addrValue a f ins k < ((a.at f ins .c).at k).toNat))

/-- What `addr` gives a lane. -/
def addrLane (a : At) (f : Fields) (ins : List Slot) (k : Nat) : Option Lane :=
  if a.live f ins k && addrInside a f ins k then some (BitVec.ofInt 32 (addrValue a f ins k)) else none

omit hr in
theorem addr_runs {ins : List Slot} (h : NodeData s a f ins)
    (hins : ins = if (bits f.fn 3 2).toNat = 0 then [.a, .b] else [.a, .b, .c]) :
    exec (.addr f) s =
      match (List.range 16).find? fun i =>
          a.live f ins i && decide ((bits f.fn 3 2).toNat = 2) && !addrInside a f ins i with
      | some k => faultAtLane s a f (a.moving f ins) (a.at f ins .a)
          (laneToken (a.at f ins .a) fun i => if i < k then addrLane a f ins i else none) k .addrrng 0
      | none => fire s a f (a.moving f ins) [(0, laneToken (a.at f ins .a) (addrLane a f ins)),
          (1, laneToken (a.at f ins .a) (addrLane a f ins))] (a.node.took (a.at f ins .a)) 0 := by
  subst hins
  have he : exec (.addr f) s = execAddr f s := rfl
  unfold execAddr at he
  dsimp only at he
  rw [he, stdNode_of_data h]
  simp only [beq_iff_eq]
  rfl

end

/-- A fault in the middle of a firing freezes the plane at its lane's record. -/
theorem faultAtLane_faults {i : Instr} {s : State} {a : At} {f : Fields} {taken : List Slot} {t out : Token} {k : Nat}
    {cause : Cause} {addr : Word} (h : exec i s = faultAtLane s a f taken t out k cause addr) (hr : a.room f) :
    ∃ u, exec i s = .next u ∧ (u.plane a.plane).frozen = .fault ∧
      (u.sysOf a.plane).fltcause.toNat = cause.code.toNat ∧
      bits (u.sysOf a.plane).fltpos 0 48 = BitVec.ofNat 48 (lanePos t.valid a.node.pos k) ∧ BytesStay s u := by
  unfold faultAtLane at h
  rw [if_pos (by rw [hr.1, hr.2.1]; rfl)] at h
  dsimp only at h
  unfold At.fault at h
  obtain ⟨hfr, hm, ha, hsys⟩ := fabricFault_spec _ _ _ _ _ _ _ _
  refine ⟨_, h, hfr, ?_, ?_, .of_eq hm ha⟩
  · rw [hsys]
    show ((0 : BitVec 56) ++ cause.code).toNat = _
    rw [toNat_append_eq]
    simp
  · rw [hsys]
    exact (positionWord_fields _ _ _).1

theorem addr_fires {s : State} {a : At} {f : Fields} {ins : List Slot} (hr : a.room f) (h : NodeData s a f ins)
    (hins : ins = if (bits f.fn 3 2).toNat = 0 then [.a, .b] else [.a, .b, .c])
    (hin : ∀ k, k < 16 → a.live f ins k = true → (bits f.fn 3 2).toNat = 2 → addrInside a f ins k = true) :
    ∃ out : Token, NodeFires (.addr f) s s a f (a.moving f ins) [(0, out), (1, out)] (a.node.took (a.at f ins .a)) 0 ∧
      ∀ k, k < 16 → out.has k = (a.live f ins k && addrInside a f ins k) ∧
        out.at k = if out.has k then BitVec.ofInt 32 (addrValue a f ins k) else 0 := by
  refine ⟨laneToken (a.at f ins .a) (addrLane a f ins), .of_fire ((addr_runs h hins).trans ?_) (bothOut_ready hr _ _),
    fun k hk => ?_⟩
  · have hnone : (List.range 16).find? (fun i =>
        a.live f ins i && decide ((bits f.fn 3 2).toNat = 2) && !addrInside a f ins i) = none := by
      rw [List.find?_eq_none]
      intro k hk hc
      simp only [Bool.and_eq_true, decide_eq_true_eq, Bool.not_eq_true'] at hc
      obtain ⟨⟨h1, h2⟩, h3⟩ := hc
      rw [hin k (List.mem_range.1 hk) h1 h2] at h3
      cases h3
    rw [hnone]
  · obtain ⟨h1, h2⟩ := laneToken_ite (t := a.at f ins .a) (c := fun i => a.live f ins i && addrInside a f ins i)
      (x := fun i => BitVec.ofInt 32 (addrValue a f ins i)) hk
    exact ⟨h1, h2.trans (by rw [← h1]; rfl)⟩

theorem addr_faults {s : State} {a : At} {f : Fields} {ins : List Slot} (hr : a.room f) (h : NodeData s a f ins)
    (hins : ins = if (bits f.fn 3 2).toNat = 0 then [.a, .b] else [.a, .b, .c]) {k : Nat} (hk : k < 16)
    (hl : a.live f ins k = true) (hm : (bits f.fn 3 2).toNat = 2) (hout : addrInside a f ins k = false)
    (hbefore : ∀ j, j < k → a.live f ins j = true → addrInside a f ins j = true) :
    ∃ t, exec (.addr f) s = .next t ∧ (t.plane a.plane).frozen = .fault ∧
      (t.sysOf a.plane).fltcause.toNat = Cause.addrrng.code.toNat ∧
      bits (t.sysOf a.plane).fltpos 0 48 = BitVec.ofNat 48 (lanePos (a.at f ins .a).valid a.node.pos k) ∧
      BytesStay s t := by
  have hfind : (List.range 16).find? (fun i =>
      a.live f ins i && decide ((bits f.fn 3 2).toNat = 2) && !addrInside a f ins i) = some k := by
    refine List.find?_range_eq_some.2 ⟨by simp [hl, hm, hout], List.mem_range.2 hk, fun j hj => ?_⟩
    cases hlj : a.live f ins j
    · simp
    · simp [hbefore j hj hlj]
  have he := addr_runs h hins
  rw [hfind] at he
  exact faultAtLane_faults he hr

/-! ### Combining lanes (R142, R144) -/

/-- The combination of what two groups of lanes give, of which each may be empty. -/
def joinLane (F : Lane → Lane → Lane) : Option Lane → Option Lane → Option Lane
  | some x, some y => some (F x y)
  | some x, none => some x
  | none, y => y

/-- The combination of n lanes from lo on. -/
def foldLanes (F : Lane → Lane → Lane) (xs : Nat → Option Lane) (lo n : Nat) : Option Lane :=
  (List.range' lo n).foldl (fun r j => joinLane F r (xs j)) none

section
variable {F : Lane → Lane → Lane} (hF : ∀ x y z, F (F x y) z = F x (F y z))
include hF

theorem joinLane_assoc (x y z : Option Lane) : joinLane F (joinLane F x y) z = joinLane F x (joinLane F y z) := by
  cases x <;> cases y <;> cases z <;> simp [joinLane, hF]

theorem foldLanes_add (xs : Nat → Option Lane) (lo m n : Nat) :
    foldLanes F xs lo (m + n) = joinLane F (foldLanes F xs lo m) (foldLanes F xs (lo + m) n) := by
  have key (l : List Nat) (r : Option Lane) : l.foldl (fun r j => joinLane F r (xs j)) r =
      joinLane F r (l.foldl (fun r j => joinLane F r (xs j)) none) := by
    induction l generalizing r with
    | nil => cases r <;> rfl
    | cons j l ih =>
      rw [List.foldl_cons, List.foldl_cons, ih, ih (joinLane F none (xs j)), ← joinLane_assoc hF]
      cases r <;> rfl
  unfold foldLanes
  rw [← List.range'_append_1, List.foldl_append, key]

variable {g : Lane → Lane → Lane × FFlags} (hg : ∀ x y, g x y = (F x y, 0))
include hg

omit hF in
theorem joinVal_eq (x y : Option Lane) : joinVal g (x, 0) (y, 0) = (joinLane F x y, 0) := by
  cases x <;> cases y <;> simp [joinVal, joinLane, hg]

theorem treeNode_eq (xs : Nat → Option Lane) (k lo : Nat) : treeNode g xs k lo = (foldLanes F xs lo (2 ^ k), 0) := by
  induction k generalizing lo with
  | zero => simp [treeNode, foldLanes, List.range', joinLane]
  | succ k ih =>
    rw [treeNode, ih, ih, joinVal_eq hg, ← foldLanes_add hF]
    congr 2
    omega

/-- One step of the prefix: bit k of the lane's number adds its group. -/
def prefixStep (g : Lane → Lane → Lane × FFlags) (xs : Nat → Option Lane) (i : Nat) (acc : TreeVal × Nat) (k : Nat) :
    TreeVal × Nat :=
  if (i + 1).testBit k then (joinVal g acc.1 (treeNode g xs k acc.2), acc.2 + 2 ^ k) else acc

/-- What the steps down to bit k have combined. -/
def prefixState (F : Lane → Lane → Lane) (xs : Nat → Option Lane) (i k : Nat) : TreeVal × Nat :=
  ((foldLanes F xs 0 ((i + 1) / 2 ^ k * 2 ^ k), 0), (i + 1) / 2 ^ k * 2 ^ k)

theorem prefixStep_eq (xs : Nat → Option Lane) (i k : Nat) :
    prefixStep g xs i (prefixState F xs i (k + 1)) k = prefixState F xs i k := by
  have hdiv : (i + 1) / 2 ^ (k + 1) = (i + 1) / 2 ^ k / 2 := by rw [pow_succ, Nat.div_div_eq_div_mul]
  have hbit : (i + 1).testBit k = decide ((i + 1) / 2 ^ k % 2 = 1) := Nat.testBit_eq_decide_div_mod_eq
  have hmul : (i + 1) / 2 ^ (k + 1) * 2 ^ (k + 1) = (i + 1) / 2 ^ k / 2 * 2 * 2 ^ k := by
    rw [hdiv, pow_succ]
    ring
  unfold prefixStep prefixState
  dsimp only
  rw [hmul, hbit]
  by_cases hb : (i + 1) / 2 ^ k % 2 = 1
  · have hsum : (i + 1) / 2 ^ k / 2 * 2 * 2 ^ k + 2 ^ k = (i + 1) / 2 ^ k * 2 ^ k := by
      rw [← Nat.succ_mul]
      congr 1
      omega
    have hjoin := foldLanes_add hF xs 0 ((i + 1) / 2 ^ k / 2 * 2 * 2 ^ k) (2 ^ k)
    rw [hsum, Nat.zero_add] at hjoin
    rw [if_pos (decide_eq_true hb), treeNode_eq hF hg, joinVal_eq hg, hsum, hjoin]
  · have hsum : (i + 1) / 2 ^ k / 2 * 2 = (i + 1) / 2 ^ k := by omega
    rw [if_neg (by simpa using hb), hsum]

/-- The prefix value of a lane combines the lanes up to it. -/
theorem prefixVal_eq (xs : Nat → Option Lane) {i : Nat} (hi : i < 16) :
    prefixVal g xs i = (foldLanes F xs 0 (i + 1), 0) := by
  have h5 : prefixState F xs i 5 = ((none, 0), 0) := by
    have h0 : (i + 1) / 2 ^ 5 * 2 ^ 5 = 0 := by omega
    unfold prefixState
    rw [h0]
    rfl
  have hrun : prefixVal g xs i = ([4, 3, 2, 1, 0].foldl (prefixStep g xs i) (prefixState F xs i 5)).1 := by
    rw [h5]
    rfl
  rw [hrun]
  simp only [List.foldl_cons, List.foldl_nil, prefixStep_eq hF hg]
  unfold prefixState
  simp

end

/-! ### The operations of the integer types -/

/-- What op (FN[5:3]) makes of two lanes (R143), for integer types and but for the saturating one. -/
def scanOp (f : Fields) (u v : Lane) : Lane :=
  match (bits f.fn 3 3).toNat with
  | 0 => wrapAs f.ty (intOf f.ty u + intOf f.ty v)
  | 2 => wrapAs f.ty (min (intOf f.ty u) (intOf f.ty v))
  | 3 => wrapAs f.ty (max (intOf f.ty u) (intOf f.ty v))
  | 4 => wrapAs f.ty (u &&& v).toNat
  | 5 => wrapAs f.ty (u ||| v).toNat
  | _ => wrapAs f.ty (u ^^^ v).toNat

/-- An operation of the form Wrap (h (μ u) (μ v)) that is associative, and to which an element is its value alone. -/
structure Combines (t : IFmt) (F : Lane → Lane → Lane) : Prop where
  assoc : ∀ x y z, F (F x y) z = F x (F y z)
  left : ∀ x y, F (t.wrap (t.int x)) y = F x y
  right : ∀ x y, F x (t.wrap (t.int y)) = F x y

section
variable {t : IFmt} (hw : t.width ≤ 32)
include hw

theorem IFmt.int_wrap_modEq (v : Int) : t.int (t.wrap v) ≡ v [ZMOD (2 ^ t.width : Nat)] := by
  unfold Int.ModEq
  rw [t.int_emod, t.pat_wrap hw, Int.toNat_of_nonneg (Int.emod_nonneg _ (by positivity))]

theorem combines_add : Combines t fun u v => t.wrap (t.int u + t.int v) where
  assoc x y z := t.wrap_congr <|
    calc t.int (t.wrap (t.int x + t.int y)) + t.int z
      _ ≡ t.int x + t.int y + t.int z [ZMOD (2 ^ t.width : Nat)] := (IFmt.int_wrap_modEq hw _).add_right _
      _ = t.int x + (t.int y + t.int z) := Int.add_assoc _ _ _
      _ ≡ t.int x + t.int (t.wrap (t.int y + t.int z)) [ZMOD (2 ^ t.width : Nat)] :=
        ((IFmt.int_wrap_modEq hw _).symm).add_left _
  left x y := by rw [t.int_wrap_int hw]
  right x y := by rw [t.int_wrap_int hw]

/-- A choice between two values is the value of the element that it gives. -/
theorem combines_choice {h : Int → Int → Int} (hc : ∀ x y, h x y = x ∨ h x y = y)
    (ha : ∀ x y z, h (h x y) z = h x (h y z)) : Combines t fun u v => t.wrap (h (t.int u) (t.int v)) := by
  have hint (x y : Lane) : t.int (t.wrap (h (t.int x) (t.int y))) = h (t.int x) (t.int y) := by
    obtain e | e := hc (t.int x) (t.int y) <;> rw [e, t.int_wrap_int hw]
  exact ⟨fun x y z => by rw [hint, hint, ha], fun x y => by rw [t.int_wrap_int hw], fun x y => by rw [t.int_wrap_int hw]⟩

/-- A bitwise operation works on patterns. -/
theorem combines_bitwise {op : Lane → Lane → Lane} {h : Nat → Nat → Nat}
    (hop : ∀ x y, (op x y).toNat % 2 ^ t.width = h (t.pat x) (t.pat y)) (ha : ∀ x y z, h (h x y) z = h x (h y z)) :
    Combines t fun u v => t.wrap (op u v).toNat := by
  have hpat (x y : Lane) : t.wrap (op x y).toNat = t.wrap (h (t.pat x) (t.pat y) : Nat) := by
    rw [← hop, t.wrap_mod]
  have hres (x y : Lane) : t.pat (t.wrap (op x y).toNat) = h (t.pat x) (t.pat y) := by
    rw [t.pat_wrap hw, ← hop, ← Int.natCast_mod, Int.toNat_natCast]
  have hel (x : Lane) : t.pat (t.wrap (t.int x)) = t.pat x := by
    rw [t.pat_wrap hw, t.int_emod, Int.toNat_natCast]
  exact ⟨fun x y z => by rw [hpat, hres, ha, ← hres, ← hpat], fun x y => by rw [hpat, hel, ← hpat],
    fun x y => by rw [hpat, hel, ← hpat]⟩

end

theorem scanOp_combines {f : Fields} : Combines (ElemTy.ifmt f.ty) (scanOp f) := by
  have hw := ElemTy.ifmt_width_le f.ty
  unfold scanOp
  simp only [← ElemTy.ifmt_wrap, ← ElemTy.ifmt_int]
  split
  · exact combines_add hw
  · exact combines_choice hw (fun x y => min_choice x y) fun x y z => min_assoc x y z
  · exact combines_choice hw (fun x y => max_choice x y) fun x y z => max_assoc x y z
  · exact combines_bitwise hw (fun x y => by rw [BitVec.toNat_and, Nat.and_mod_two_pow]; rfl) Nat.and_assoc
  · exact combines_bitwise hw (fun x y => by rw [BitVec.toNat_or, Nat.or_mod_two_pow]; rfl) Nat.or_assoc
  · exact combines_bitwise hw (fun x y => by rw [BitVec.toNat_xor, Nat.xor_mod_two_pow]; rfl) Nat.xor_assoc

/-- The model's combination of two lanes of an integer type is that of R143, without a flag. -/
theorem combine_int {f : Fields} (e : FpEnv) (hty : f.ty.isInt = true) (h1 : (bits f.fn 3 3).toNat ≠ 1)
    (h6 : (bits f.fn 3 3).toNat ≤ 6) (x y : Lane) : combine e f.fn f.ty x y = (scanOp f x y, 0) := by
  have hf : (f.ty == .f32) = false := by
    rw [beq_eq_false_iff_ne]
    intro hc
    rw [hc] at hty
    cases hty
  have hle := ElemTy.ifmt_width_le f.ty
  unfold combine scanOp
  rw [hf]
  simp only [← ElemTy.ifmt_wrap, ← ElemTy.ifmt_int]
  refine Prod.ext ?_ rfl
  dsimp only
  generalize (bits f.fn 3 3).toNat = n at *
  have hmin : (if (ElemTy.ifmt f.ty).int y < (ElemTy.ifmt f.ty).int x then (ElemTy.ifmt f.ty).int y
      else (ElemTy.ifmt f.ty).int x) = min ((ElemTy.ifmt f.ty).int x) ((ElemTy.ifmt f.ty).int y) := by
    rw [min_def]
    split_ifs <;> omega
  have hmax : (if (ElemTy.ifmt f.ty).int x < (ElemTy.ifmt f.ty).int y then (ElemTy.ifmt f.ty).int y
      else (ElemTy.ifmt f.ty).int x) = max ((ElemTy.ifmt f.ty).int x) ((ElemTy.ifmt f.ty).int y) := by
    rw [max_def]
    split_ifs <;> omega
  interval_cases n
  · rfl
  · exact absurd rfl h1
  · simp only [Bool.false_eq_true, if_false, hmin]
  · simp only [Bool.false_eq_true, if_false, hmax]
  · simp only [Bool.false_eq_true, if_false, IFmt.pat, ← Nat.and_mod_two_pow, ← BitVec.toNat_and, IFmt.wrap_mod]
  · simp only [Bool.false_eq_true, if_false, IFmt.pat, ← Nat.or_mod_two_pow, ← BitVec.toNat_or, IFmt.wrap_mod]
  · simp only [Bool.false_eq_true, if_false, IFmt.pat, ← Nat.xor_mod_two_pow, ← BitVec.toNat_xor, IFmt.wrap_mod]

/-! ### `scan` and `lred` (R142 to R147) -/

/-- The live lanes as elements of the type. -/
def liveElement (f : Fields) (x : Token) (live : Nat → Bool) (k : Nat) : Option Lane :=
  if live k then some (asElement f.ty (x.at k)) else none

/-- The combination of the live lanes up to k, one after another. -/
def upToLane (f : Fields) (x : Token) (live : Nat → Bool) (k : Nat) : Option Lane :=
  ((List.range (k + 1)).filter live).foldl
    (fun (r : Option Lane) j => some (match r with
      | some u => scanOp f u (x.at j)
      | none => wrapAs f.ty (intOf f.ty (x.at j)))) none

theorem upToLane_eq (f : Fields) (x : Token) (live : Nat → Bool) (k : Nat) :
    upToLane f x live k = foldLanes (scanOp f) (liveElement f x live) 0 (k + 1) := by
  unfold upToLane foldLanes
  rw [List.foldl_filter, List.range_eq_range']
  congr 1
  funext r j
  unfold liveElement
  cases live j
  · cases r <;> rfl
  · cases r with
    | none =>
      show some (wrapAs f.ty (intOf f.ty (x.at j))) = some (asElement f.ty (x.at j))
      rw [asElement, ElemTy.ifmt_wrap, ElemTy.ifmt_int]
    | some u => exact congrArg some (scanOp_combines.right u (x.at j)).symm

/-- A live lane among those that are combined leaves a value. -/
theorem upToLane_isSome {f : Fields} {x : Token} {live : Nat → Bool} {k : Nat} (h : live k = true) :
    (upToLane f x live k).isSome = true := by
  unfold upToLane
  rw [List.range_succ, List.filter_append, List.foldl_append, List.filter_cons_of_pos (by simpa using h)]
  rfl

/-- The accumulator registers that are targets combine their lane 0 with the total. -/
def combinedPlane (f : Fields) (pl : Plane) (total : Option Lane) : Plane :=
  (accTargets f).foldl
    (fun pl r =>
      let old := vget pl.a r (Vector.replicate 16 0)
      match total with
      | some z => { pl with a := vput pl.a r (vput old 0 (scanOp f (vget old 0 0) z)) }
      | none => pl)
    pl

theorem foldl_pair {α β γ : Type} {g : α × γ → β → α × γ} {h : α → β → α} {c : γ}
    (hg : ∀ a b, g (a, c) b = (h a b, c)) (l : List β) (a : α) : l.foldl g (a, c) = (l.foldl h a, c) := by
  induction l generalizing a with
  | nil => rfl
  | cons b l ih => rw [List.foldl_cons, hg, ih, List.foldl_cons]

theorem foldl_same {α β : Type} (l : List β) (a : α) : l.foldl (fun a _ => a) a = a := by
  induction l with
  | nil => rfl
  | cons b l ih => exact ih

section
variable {f : Fields} (hty : f.ty.isInt = true) (h1 : (bits f.fn 3 3).toNat ≠ 1) (h6 : (bits f.fn 3 3).toNat ≤ 6)
include hty h1 h6

theorem combineAcc_eq (e : FpEnv) (pl : Plane) (total : Option Lane) :
    combineAcc e f pl total = (combinedPlane f pl total, 0) := by
  unfold combineAcc combinedPlane
  cases total with
  | none => exact congrArg (·, (0 : FFlags)) (foldl_same _ _).symm
  | some z =>
    refine foldl_pair (fun pl r => ?_) _ _
    dsimp only
    rw [combine_int e hty h1 h6]
    exact Prod.ext rfl BitVec.or_self

theorem prefix_int (e : FpEnv) (x : Token) (live : Nat → Bool) {k : Nat} (hk : k < 16) :
    prefixVal (combine e f.fn f.ty) (liveElement f x live) k = (upToLane f x live k, 0) := by
  rw [upToLane_eq]
  exact prefixVal_eq scanOp_combines.assoc (combine_int e hty h1 h6) _ hk

theorem total_int (e : FpEnv) (x : Token) (live : Nat → Bool) :
    treeNode (combine e f.fn f.ty) (liveElement f x live) 4 0 = (upToLane f x live 15, 0) := by
  rw [upToLane_eq]
  exact treeNode_eq scanOp_combines.assoc (combine_int e hty h1 h6) _ 4 0

end

theorem orFlags_zero {g : Nat → FFlags} (h : ∀ k, k < 16 → g k = 0) : orFlags g = 0 := by
  have key (l : List Nat) (hl : ∀ k ∈ l, g k = 0) : l.foldl (fun v i => v ||| g i) (0 : FFlags) = 0 := by
    induction l with
    | nil => rfl
    | cons j l ih =>
      rw [List.foldl_cons, hl j List.mem_cons_self]
      exact ih fun k hk => hl k (List.mem_cons_of_mem _ hk)
  exact key _ fun k hk => h k (List.mem_range.1 hk)

/-- What `lred` emits: the total in lane 0, or a token without a record. -/
def totalToken (x : Token) (first : Nat) (total : Option Lane) : Token :=
  match total with
  | none => Token.empty
  | some z =>
    { Token.empty with
      payload := vput Token.empty.payload 0 z, valid := 1
      pips := vput Token.empty.pips 0 (vget x.pips first 0), rids := vput Token.empty.rids 0 (vget x.rids first 0) }

theorem totalToken_spec (x : Token) (first : Nat) (total : Option Lane) :
    (totalToken x first total).valid = (if total.isSome then 1 else 0) ∧
      (totalToken x first total).at 0 = total.getD 0 ∧ ∀ k, 0 < k → k < 16 → (totalToken x first total).at k = 0 := by
  have hempty (k : Nat) (hk : k < 16) : vget Token.empty.payload k 0 = 0 := by
    simp [vget, Token.empty, hk]
  cases total with
  | none => exact ⟨rfl, hempty 0 (by decide), fun k _ hk => hempty k hk⟩
  | some z =>
    refine ⟨rfl, ?_, fun k h0 hk => ?_⟩
    · simp [totalToken, Token.at, vget, vput, Token.empty]
    · have hne : ¬0 = k := by omega
      refine Eq.trans ?_ (hempty k hk)
      simp [totalToken, Token.at, vget, vput, Vector.getElem?_setIfInBounds, hne]

section
variable {s : State} {a : At} {f : Fields} (h : NodeData s a f [.a]) (hr : a.room f) (hty : f.ty.isInt = true)
  (h1 : (bits f.fn 3 3).toNat ≠ 1) (h6 : (bits f.fn 3 3).toNat ≤ 6)
include h hr hty h1 h6

/-- A lane's record that combines. -/
def liveAt (a : At) (f : Fields) (k : Nat) : Bool := (a.at f [.a] .a).has k && predOk f (a.at f [.a] .p) k

omit h hr hty h1 h6 in
theorem linkOuts_ready {b : At} (hr : b.room f) (t : Token) : ∀ o ∈ linkOuts f t, b.ready f o.1 = true := by
  intro o ho
  unfold linkOuts at ho
  obtain ho | ho := List.mem_append.1 ho
  · split at ho
    · cases ho
    · obtain rfl := List.mem_singleton.1 ho
      exact hr.1
  · split at ho
    · cases ho
    · obtain rfl := List.mem_singleton.1 ho
      exact hr.2.1

omit h hty h1 h6 in
/-- The combined accumulators leave the links. -/
theorem combined_room (total : Option Lane) : ({ a with pl := combinedPlane f a.pl total } : At).room f := by
  have hlinks : (combinedPlane f a.pl total).links = a.pl.links := by
    unfold combinedPlane
    generalize accTargets f = l
    generalize a.pl = pl
    induction l generalizing pl with
    | nil => rfl
    | cons r l ih =>
      rw [List.foldl_cons, ih]
      cases total <;> rfl
  have hready (k : Nat) : ({ a with pl := combinedPlane f a.pl total } : At).ready f k = a.ready f k := by
    unfold At.ready outLink
    rw [hlinks]
  unfold At.room
  rw [hready, hready, hready]
  exact hr

theorem scan_fires :
    let x := a.at f [.a] .a
    ∃ out : Token, NodeFires (.scan f) s s { a with pl := combinedPlane f a.pl (upToLane f x (liveAt a f) 15) } f
        (a.moving f [.a]) (linkOuts f out) (a.node.took x) 0 ∧
      ∀ k, k < 16 → out.has k = liveAt a f k ∧
        out.at k = if liveAt a f k then (upToLane f x (liveAt a f) k).getD 0 else 0 := by
  intro x
  have hroom := combined_room hr (upToLane f x (liveAt a f) 15)
  refine ⟨laneToken x fun k => if liveAt a f k then
      (prefixVal (combine a.env f.fn f.ty) (liveElement f x (liveAt a f)) k).1 else none, ?_, fun k hk => ?_⟩
  · have he : exec (.scan f) s = execScan f s := rfl
    unfold execScan at he
    refine .of_fire (he.trans ((stdNode_of_data h _ _).trans ?_)) (linkOuts_ready hroom _)
    have htot := total_int hty h1 h6 a.env x (liveAt a f)
    have hflags : orFlags (fun k => if liveAt a f k then
        (prefixVal (combine a.env f.fn f.ty) (liveElement f x (liveAt a f)) k).2 else 0) = 0 := by
      refine orFlags_zero fun k hk => ?_
      rw [prefix_int hty h1 h6 a.env x _ hk]
      split <;> rfl
    show fire s { a with pl := (combineAcc a.env f a.pl (treeNode (combine a.env f.fn f.ty)
        (liveElement f x (liveAt a f)) 4 0).1).1 } f (a.moving f [.a])
      (linkOuts f (laneToken x fun k => if liveAt a f k then
        (prefixVal (combine a.env f.fn f.ty) (liveElement f x (liveAt a f)) k).1 else none)) (a.node.took x)
      (orFlags (fun k => if liveAt a f k then
        (prefixVal (combine a.env f.fn f.ty) (liveElement f x (liveAt a f)) k).2 else 0) |||
        (combineAcc a.env f a.pl (treeNode (combine a.env f.fn f.ty) (liveElement f x (liveAt a f)) 4 0).1).2 |||
        (if (accTargets f).isEmpty then 0 else
          (treeNode (combine a.env f.fn f.ty) (liveElement f x (liveAt a f)) 4 0).2)) = _
    rw [hflags, htot, combineAcc_eq hty h1 h6]
    refine congrArg (fire s _ f _ _ _) ?_
    simp
  · have hp := prefix_int hty h1 h6 a.env x (liveAt a f) hk
    rw [has_laneToken hk, at_laneToken hk, hp]
    cases hl : liveAt a f k
    · exact ⟨rfl, rfl⟩
    · exact ⟨upToLane_isSome hl, rfl⟩

theorem lred_fires :
    let x := a.at f [.a] .a
    let total := upToLane f x (liveAt a f) 15
    ∃ out : Token, NodeFires (.lred f) s s { a with pl := combinedPlane f a.pl total } f
        (a.moving f [.a]) (linkOuts f out) (a.node.took x) 0 ∧
      out.valid = (if total.isSome then 1 else 0) ∧ out.at 0 = total.getD 0 ∧ ∀ k, 0 < k → k < 16 → out.at k = 0 := by
  intro x total
  have hroom := combined_room hr total
  let first := ((List.range 16).find? fun k => (liveElement f x (liveAt a f) k).isSome).getD 0
  refine ⟨totalToken x first total, ?_, totalToken_spec x first total⟩
  have he : exec (.lred f) s = execLred f s := rfl
  unfold execLred at he
  refine .of_fire (he.trans ((stdNode_of_data h _ _).trans ?_)) (linkOuts_ready hroom _)
  have htot := total_int hty h1 h6 a.env x (liveAt a f)
  show fire s { a with pl := (combineAcc a.env f a.pl (treeNode (combine a.env f.fn f.ty)
      (liveElement f x (liveAt a f)) 4 0).1).1 } f (a.moving f [.a])
    (linkOuts f (totalToken x first (treeNode (combine a.env f.fn f.ty) (liveElement f x (liveAt a f)) 4 0).1))
    (a.node.took x)
    ((treeNode (combine a.env f.fn f.ty) (liveElement f x (liveAt a f)) 4 0).2 |||
      (combineAcc a.env f a.pl (treeNode (combine a.env f.fn f.ty) (liveElement f x (liveAt a f)) 4 0).1).2) = _
  rw [htot, combineAcc_eq hty h1 h6]
  exact congrArg (fire s _ f _ _ _) BitVec.or_self

end

/-- Settles O34: the moves lane by lane, and `scan` and `lred` by the associativity of the integer operations. -/
theorem laneMovesAndReductions : Obligations.LaneMovesAndReductions := by
  unfold Obligations.LaneMovesAndReductions
  refine ⟨fun s a f ins h hr => ⟨?_, ?_, ?_, ?_, ?_, ?_⟩, fun s a f h hr hty h1 h6 => ⟨?_, ?_⟩⟩
  · rintro rfl
    exact fan_fires hr h
  · rintro rfl hf
    exact filt_fires hr h hf
  · rintro rfl
    exact sel_fires hr h
  · intro hins hf
    exact shuf_fires hr h hins
  · rintro rfl hf
    exact bcst_fires hr h hf
  · exact fun hins => ⟨fun hin => addr_fires hr h hins hin,
      fun k hk hl hm hout hb => addr_faults hr h hins hk hl hm hout hb⟩
  · exact scan_fires h hr hty h1 h6
  · exact lred_fires h hr hty h1 h6

end Sys2Proof.Machine
end

