-- ==== Sys2Proof/Proofs/PlainNodes.lean ====
section
/-!
PROOFS. O35, O36 and O37: ports, sources, `mrg`, `loop`, `hold` and the nodes of markers.
-/

namespace Sys2Proof.Machine

/-- A firing on a state in which, beside the node's own, neither memory nor an agent has changed. -/
theorem NodeFires.of_fireOn {i : Instr} {s u : State} {a : At} {f : Fields} {taken : List Slot} {outs : List (Nat × Token)}
    {n : Node} {fl : FFlags} (h : exec i s = fire u a f taken outs n fl) (hm : u.mem = s.mem) (ha : u.agents = s.agents)
    (hr : ∀ o ∈ outs, a.ready f o.1 = true) : NodeFires i s u a f taken outs n fl := by
  have hf := fire_of_ready (s := u) hr taken n fl
  exact ⟨h.trans hf, (BytesStay.of_eq hm ha).trans (fire_bytes u _ a f taken outs n fl hf).1⟩

theorem noOuts_ready {a : At} {f : Fields} : ∀ o ∈ ([] : List (Nat × Token)), a.ready f o.1 = true := nofun

theorem oneOut_ready {a : At} {f : Fields} (h : a.room f) {k : Nat} (hk : k < 3) (t : Token) :
    ∀ o ∈ [(k, t)], a.ready f o.1 = true := by
  simp only [List.mem_cons, List.not_mem_nil, or_false, forall_eq]
  exact h.ready hk

/-! ### Ports (R112) -/

section
variable {s : State} {a : At} {f : Fields} (ht : NodeTurn s a)
include ht

theorem NodeTurn.running : a.node.phase = .run := ht.2.2.2.2.2.2.2

theorem inp_runs {t : Token} {rest : List Token} (hend : a.node.ended = false)
    (hplane : (s.side a.region (bits f.imm 0 3).toNat false).plane = a.plane % 4)
    (htoks : (s.side a.region (bits f.imm 0 3).toNat false).toks = t :: rest) :
    exec (.inp f) s =
      if portTypeBad s a.region (bits f.imm 0 3).toNat false f.ty then .next (a.fault s .portty 0 0)
      else if 10 ≤ t.marker.toNat then .next (a.block s 0x10)
      else if a.ready f 0 && a.ready f 1 then
        fire (s.setSide a.region (bits f.imm 0 3).toNat false
          { s.side a.region (bits f.imm 0 3).toNat false with toks := rest }).tookIds a f [] (toAll (t.fresh s.nextId))
          { a.node.took t with ended := t.marker = Mk.eot } 0
      else stall s := by
  refine (show _ = execInp f s from rfl).trans ((asNode_of_turn ht _).trans ?_)
  dsimp only
  rw [ht.running]
  dsimp only
  rw [hend, hplane, htoks]
  simp

theorem inp_fires {t : Token} {rest : List Token} (hend : a.node.ended = false)
    (hplane : (s.side a.region (bits f.imm 0 3).toNat false).plane = a.plane % 4)
    (htoks : (s.side a.region (bits f.imm 0 3).toNat false).toks = t :: rest)
    (hbad : portTypeBad s a.region (bits f.imm 0 3).toNat false f.ty = false) (hm : t.marker.toNat < 10) (hr : a.room f) :
    NodeFires (.inp f) s (s.setSide a.region (bits f.imm 0 3).toNat false
      { s.side a.region (bits f.imm 0 3).toNat false with toks := rest }).tookIds a f [] (toAll (t.fresh s.nextId))
      { a.node with pos := a.node.pos + records t.valid, ended := t.marker = Mk.eot } 0 := by
  refine .of_fireOn ((inp_runs ht hend hplane htoks).trans ?_) rfl rfl (toAll_ready hr _)
  rw [hbad, if_neg Bool.false_ne_true, if_neg (Nat.not_le.2 hm), hr.1, hr.2.1]
  rfl

end

section
variable {s : State} {a : At} {f : Fields}

theorem outp_fires {q : QReg} (htga : f.tga = .port (q.setWidth 7)) (h : NodeData s a f [.a]) (hahead : a.ahead = false)
    (hroom : (s.side a.region q.toNat true).toks.length < min 16 (slotsOfCode f.dpa))
    (hbad : portTypeBad s a.region q.toNat true f.ty = false) :
    let out := s.side a.region q.toNat true
    let t := a.at f [.a] .a
    NodeFires (.outp f) s (s.setSide a.region q.toNat true { out with
      toks := out.toks ++ [{ t with pips := Token.empty.pips, rids := Token.empty.rids }], plane := a.plane % 4 })
      a f [.a] [] (a.node.took t) 0 := by
  intro out t
  have hq : (q.setWidth 7).toNat = q.toNat := BitVec.toNat_setWidth_of_le (by omega)
  have he : exec (.outp f) s = execOutp f s := rfl
  unfold execOutp at he
  dsimp only at he
  refine .of_fireOn (he.trans ((stdNode_of_data h _ _).trans ?_)) rfl rfl noOuts_ready
  simp only [htga, hq, hahead, hbad]
  exact if_neg (by simpa using hroom)

end

/-! ### Sources (R114, R115) -/

theorem Token.lowest_eq {t : Token} {k : Nat} (hk : k < 16) (h : t.has k = true) (hb : ∀ j, j < k → t.has j = false) :
    t.lowest = some k :=
  List.find?_range_eq_some.2 ⟨h, List.mem_range.2 hk, fun j hj => by
    have hbj : bitAt t.valid j = false := hb j hj
    rw [hbj]
    rfl⟩

/-- The value that `ext` emits (R115), with the low half of a fed one. -/
def extValue (f : Fields) (low : Lane) : Lane :=
  match f.fn.toNat with
  | 0 => f.imm.setWidth 32
  | 1 => f.imm.signExtend 32
  | 2 => f.imm ++ bits low 0 16
  | _ => f.imm ++ (0 : BitVec 16)

theorem extValue_of_ne {f : Fields} (h : f.fn ≠ 2) (x y : Lane) : extValue f x = extValue f y := by
  unfold extValue
  split
  · rfl
  · rfl
  · next h2 => exact absurd (BitVec.eq_of_toNat_eq h2) h
  · rfl

section
variable {s : State} {a : At} {f : Fields} (ht : NodeTurn s a) (hr : a.room f)
include ht

/-- `gen` in its turn, without the cases in which markers come in at slot c. -/
theorem gen_runs (he : (a.node.ended && f.fn == 0) = false) :
    exec (.gen f) s =
      if f.fn == 0 then genStep s a f f.imm.toNat Mk.eot { a.node with fired := false, count := 0, ended := true }
      else if a.node.fired then
        genStep s a f a.node.limit (if (a.heads [.c]).any fun h => h.sticky then Mk.eot else Mk.eor)
          (if (a.heads [.c]).any fun h => h.sticky then { a.node with fired := false, count := 0, ended := true }
            else { a.node with fired := false, count := 0 })
      else if ((a.heads [.c]).any fun h => h.sticky) && a.node.ended then stall s
      else
        match meets (a.heads [.c]) with
        | .reserved _ => .next (a.block s 0x10)
        | .free o t => fire s a f [o] (toAll t) a.node 0
        | .positional t =>
          if t.marker = Mk.eot then fire s a f [.c] (toAll t) { a.node with fired := false, count := 0, ended := true } 0
          else fire s a f [.c] [] a.node 0
        | .wave m => wave s a [.c] m
        | .data =>
          (match (headOf (a.heads [.c]) .c).lowest with
            | some i => fire s a f (movingSlots (a.heads [.c])) []
              { a.node with fired := true, count := 0, limit := ((headOf (a.heads [.c]) .c).at i).toNat } 0
            | none => fire s a f (movingSlots (a.heads [.c])) [] a.node 0)
        | _ => stall s := by
  refine (show _ = execGen f s from rfl).trans ((asNode_of_turn ht _).trans ?_)
  dsimp only
  rw [ht.running]
  dsimp only
  rw [he]
  rfl

include hr

omit ht in
theorem genStep_emits {i : Instr} {limit : Nat} {close : Marker} {closed : Node} (hc : a.node.count < limit)
    (he : exec i s = genStep s a f limit close closed) :
    ∃ x : Token, NodeFires i s s.tookIds a f [] (toAll x) { a.node.took x with count := a.node.count + 16 } 0 ∧
      x.marker = Mk.data ∧ ∀ k, k < 16 → x.has k = decide (a.node.count + k < limit) ∧
        x.at k = if a.node.count + k < limit then BitVec.ofNat 32 (a.node.count + k) else 0 := by
  refine ⟨(sequenceToken a.node.count limit).fresh s.nextId, .of_fireOn (he.trans ?_) rfl rfl (toAll_ready hr _), rfl,
    fun k hk => ⟨bitAt_validBits _ hk, vget_lanes _ _ hk⟩⟩
  unfold genStep
  rw [if_pos hc, hr.1, hr.2.1]
  rfl

omit ht in
theorem genStep_closes {i : Instr} {limit : Nat} {close : Marker} {closed : Node} (hc : limit ≤ a.node.count)
    (he : exec i s = genStep s a f limit close closed) :
    NodeFires i s s a f [] (toAll (Token.mark close)) closed 0 := by
  refine .of_fire (he.trans ?_) (toAll_ready hr _)
  unfold genStep
  exact if_neg (Nat.not_lt.2 hc)

omit hr in
/-- The limit of `gen.c` comes in at slot c (R114). -/
theorem gen_limit {t : Token} {k : Nat} (hf : f.fn ≠ 0) (hfired : a.node.fired = false)
    (hh : a.heads [.c] = [{ slot := .c, sticky := false, tok := some t }]) (hm : t.marker = Mk.data) (hk : k < 16)
    (hl : t.has k = true) (hb : ∀ j, j < k → t.has j = false) :
    NodeFires (.gen f) s s a f [.c] [] { a.node with fired := true, count := 0, limit := (t.at k).toNat } 0 := by
  refine .of_fire ((gen_runs ht (by rw [beq_eq_false_iff_ne.2 hf, Bool.and_false])).trans ?_) noOuts_ready
  have hmeets : meets (a.heads [.c]) = .data := by
    rw [hh]
    simp [meets, firstMark, hm, isFree, isPositional, isWave, Mk.data, Mk.eor, Mk.eot, Mk.drain, Mk.switch]
  rw [if_neg (by simpa using hf), hfired, hmeets, hh]
  have hlow : (headOf [{ slot := Slot.c, sticky := false, tok := some t }] .c).lowest = some k := Token.lowest_eq hk hl hb
  dsimp only
  rw [hlow]
  rfl

/-- The end of a row of `gen.c`. -/
theorem gen_row {t : Option Token} (hf : f.fn ≠ 0) (hfired : a.node.fired = true) (hc : a.node.limit ≤ a.node.count)
    (hh : a.heads [.c] = [{ slot := .c, sticky := false, tok := t }]) :
    NodeFires (.gen f) s s a f [] (toAll (Token.mark Mk.eor)) { a.node with fired := false, count := 0 } 0 := by
  refine genStep_closes hr hc ((gen_runs ht (by rw [beq_eq_false_iff_ne.2 hf, Bool.and_false])).trans ?_)
  rw [if_neg (by simpa using hf), hfired, hh]
  rfl

omit hr in
theorem ext_runs :
    exec (.ext f) s =
      if a.node.fired then stall s
      else if (a.heads (if f.fn == 2 then [.a] else [])).any fun h => h.tok.isNone then stall s
      else fire s a f [] (toAll { Token.empty with
        payload := Vector.replicate 16 (extValue f ((headOf (a.heads (if f.fn == 2 then [.a] else [])) .a).at 0)),
        valid := 0xFFFF }) { a.node with fired := true } 0 := by
  refine (show _ = execExt f s from rfl).trans ((asNode_of_turn ht _).trans ?_)
  dsimp only
  rw [ht.running]
  rfl

theorem ext_fires (hfired : a.node.fired = false) (hh : f.fn = 2 → ∃ h, a.heads [.a] = [h] ∧ h.tok.isSome) :
    NodeFires (.ext f) s s a f [] (toAll { Token.empty with
      payload := Vector.replicate 16 (extValue f ((headOf (a.heads [.a]) .a).at 0)), valid := 0xFFFF })
      { a.node with fired := true } 0 := by
  refine .of_fire ((ext_runs ht).trans ?_) (toAll_ready hr _)
  rw [hfired, if_neg Bool.false_ne_true]
  by_cases h2 : f.fn = 2
  · obtain ⟨h, hheads, hsome⟩ := hh h2
    obtain ⟨t, ht⟩ := Option.isSome_iff_exists.1 hsome
    rw [if_pos (beq_iff_eq.2 h2)]
    exact if_neg (by simp [hheads, ht])
  · have hi : (if f.fn == 2 then [Slot.a] else []) = [] := if_neg (by simpa using h2)
    rw [hi, extValue_of_ne h2 _ ((headOf (a.heads [.a]) .a).at 0)]
    rfl

end

/-- Settles O35: each node's run in its turn, case by case. -/
theorem portAndSourceNodes : Obligations.PortAndSourceNodes := by
  unfold Obligations.PortAndSourceNodes
  refine ⟨fun s a f ht => ⟨fun t rest hend hplane htoks => ⟨fun hbad => ?_, fun hbad hm hr => ?_⟩,
    fun q htga hd hahead => ?_⟩, fun s a f ht hr => ⟨?_, ?_, ?_, ?_, ?_, ?_⟩⟩
  · have he := inp_runs ht hend hplane htoks
    rw [if_pos hbad] at he
    obtain ⟨u, he, hfr, hb, hc, -⟩ := NodeFaults.of_fault he
    exact ⟨u, he, hfr, hc, hb⟩
  · exact ⟨t.fresh s.nextId, rfl, rfl, rfl, rfl, inp_fires ht hend hplane htoks hbad hm hr⟩
  · intro out t hroom hbad
    exact ⟨{ t with pips := Token.empty.pips, rids := Token.empty.rids }, rfl, rfl, rfl,
      outp_fires htga hd hahead hroom hbad⟩
  · intro hf hend hc
    exact genStep_emits hr hc ((gen_runs ht (by rw [hend]; rfl)).trans (if_pos (beq_iff_eq.2 hf)))
  · intro hf hend hc
    exact genStep_closes hr hc ((gen_runs ht (by rw [hend]; rfl)).trans (if_pos (beq_iff_eq.2 hf)))
  · exact fun t k hf hfired hh hm hk hl hb => gen_limit ht hf hfired hh hm hk hl hb
  · exact fun t hf hfired hc hh => gen_row ht hr hf hfired hc hh
  · exact fun hfired _ hh => ext_fires ht hr hfired hh
  · intro hfired
    rw [ext_runs ht, hfired]
    rfl

/-! ### `mrg` (R118) -/

/-- The two inputs of a node, neither of them sticky, and what waits at each. -/
def twoHeads (x y : Option Token) : List Head :=
  [{ slot := .a, sticky := false, tok := x }, { slot := .b, sticky := false, tok := y }]

/-- What `mrg` does with heads of which none is a wavefront marker or a reserved one. -/
def mrgStep (s : State) (a : At) (f : Fields) (x y : Option Token) : Res :=
  let pos (t : Option Token) : Bool := match t with | some x => isPositional x.marker | none => false
  if f.fn == 2 then
    if !a.node.turn then
      if markOf x == some Mk.eot then fire s a f [.a] [] { a.node with turn := true } 0
      else if pos x || takable x then mrgTake s a f .a x false
      else stall s
    else if markOf y == some Mk.eot then fire s a f [.b] (toAll (Token.mark Mk.eot)) { a.node with ended := true } 0
    else if pos y || takable y then mrgTake s a f .b y true
    else stall s
  else if pos x && pos y then
    if markOf x == markOf y then
      fire s a f [.a, .b] (toAll (x.getD Token.empty))
        { a.node with turn := false, ended := a.node.ended || markOf x == some Mk.eot } 0
    else .next (a.fault s .mkalign 0 a.node.pos)
  else if f.fn == 1 then
    if takable (if a.node.turn then y else x) then
      mrgTake s a f (if a.node.turn then .b else .a) (if a.node.turn then y else x)
        (if markOf (if a.node.turn then y else x) == some Mk.data then !a.node.turn else a.node.turn)
    else if (if a.node.turn then y else x).isSome && takable (if a.node.turn then x else y) then
      mrgTake s a f (if a.node.turn then .a else .b) (if a.node.turn then x else y) a.node.turn
    else stall s
  else if takable x && takable y then
    if a.ready f 0 && a.ready f 1 then
      if Config.mergeFirst s.frees then mrgTake { s with frees := s.frees + 1 } a f .a x a.node.turn
      else mrgTake { s with frees := s.frees + 1 } a f .b y a.node.turn
    else stall s
  else if takable x then mrgTake s a f .a x a.node.turn
  else if takable y then mrgTake s a f .b y a.node.turn
  else stall s

/-- A reserved marker waits (R99). -/
def reservedAt (t : Option Token) : Bool := match t with | some x => 10 ≤ x.marker.toNat | none => false

/-- A token that `mrg` takes as data or as the end of a row or stream. -/
def Plain (t : Option Token) : Prop := ∀ u, t = some u → u.marker = Mk.data ∨ u.marker = Mk.eor ∨ u.marker = Mk.eot

theorem Plain.not_wave {t : Option Token} (h : Plain t) :
    (markOf t == some Mk.drain) = false ∧ (markOf t == some Mk.switch) = false ∧
      reservedAt t = false := by
  cases t with
  | none => exact ⟨rfl, rfl, rfl⟩
  | some u =>
    unfold markOf reservedAt
    dsimp only [Option.map]
    obtain hm | hm | hm := h u rfl <;> rw [hm] <;> exact ⟨by decide, by decide, by decide⟩

theorem mrg_runs {s : State} {a : At} {f : Fields} (ht : NodeTurn s a) {x y : Option Token}
    (hh : a.heads [.a, .b] = twoHeads x y) (hx : Plain x) (hy : Plain y) :
    exec (.mrg f) s = mrgStep s a f x y := by
  refine (show _ = execMrg f s from rfl).trans ((asNode_of_turn ht _).trans ?_)
  dsimp only
  rw [ht.running, hh]
  obtain ⟨hxd, hxs, hxr⟩ := hx.not_wave
  obtain ⟨hyd, hys, hyr⟩ := hy.not_wave
  have hnot : ¬((twoHeads x y).any fun h => reservedAt h.tok) = true := by
    unfold twoHeads
    simp only [List.any_cons, List.any_nil, hxr, hyr]
    decide
  have hta : ((twoHeads x y).find? fun h => h.slot == .a).bind Head.tok = x := rfl
  have htb : ((twoHeads x y).find? fun h => h.slot == .b).bind Head.tok = y := rfl
  have hsa : ((twoHeads x y).any fun h => h.slot == .a && h.sticky) = false := rfl
  have hsb : ((twoHeads x y).any fun h => h.slot == .b && h.sticky) = false := rfl
  dsimp only
  refine (if_neg hnot).trans ?_
  simp only [hta, htb, hsa, hsb, hxd, hyd, hxs, hys, Bool.false_eq_true, if_false, Bool.and_false, Bool.false_and, Bool.or_false, Bool.false_or]
  rw [← ht.running]
  rfl

section
variable {s : State} {a : At} {f : Fields} {i : Instr} {x y : Option Token} {t u : Token}

theorem takable_none : takable none = false := rfl

theorem plain_none : Plain none := nofun

theorem plain_data (h : t.marker = Mk.data) : Plain (some t) := fun u hu => by
  cases hu
  exact .inl h

theorem plain_end (h : t.marker = Mk.eor ∨ t.marker = Mk.eot) : Plain (some t) := fun u hu => by
  cases hu
  exact .inr h

/-- Data is neither the end of a row nor of a stream, and `mrg` can take it. -/
theorem data_facts (h : t.marker = Mk.data) : isPositional t.marker = false ∧ takable (some t) = true ∧
    (markOf (some t) == some Mk.eot) = false ∧ (markOf (some t) == some Mk.data) = true := by
  unfold takable markOf
  dsimp only [Option.map]
  rw [h]
  decide

theorem end_facts (h : t.marker = Mk.eor ∨ t.marker = Mk.eot) :
    isPositional t.marker = true ∧ (markOf (some t) == some Mk.eot) = decide (t.marker = Mk.eot) := by
  unfold markOf
  dsimp only [Option.map]
  obtain h | h := h <;> rw [h] <;> decide

theorem mrgTake_fires (hr : a.room f) {v : State} (hm : v.mem = s.mem) (ha : v.agents = s.agents) (ht : t.marker = Mk.data)
    {o : Slot} {turn : Bool} (he : exec i s = mrgTake v a f o (some t) turn) :
    NodeFires i s v a f [o] (toAll t) { a.node.took t with turn } 0 := by
  refine .of_fireOn (he.trans ?_) hm ha (toAll_ready hr t)
  unfold mrgTake
  dsimp only
  rw [if_pos ht]

end

section
variable {s : State} {a : At} {f : Fields} (ht : NodeTurn s a) (hr : a.room f) {x y : Option Token}
  (hh : a.heads [.a, .b] = twoHeads x y)
include ht hr hh

/-- `mrg.any` (R118). -/
theorem mrg_any (hf : f.fn = 0) :
    (∀ t, x = some t → t.marker = Mk.data → y = none →
      NodeFires (.mrg f) s s a f [.a] (toAll t) { a.node.took t with turn := a.node.turn } 0) ∧
    (∀ t, y = some t → t.marker = Mk.data → x = none →
      NodeFires (.mrg f) s s a f [.b] (toAll t) { a.node.took t with turn := a.node.turn } 0) ∧
    (∀ t u, x = some t → t.marker = Mk.data → y = some u → u.marker = Mk.data →
      let s' := { s with frees := s.frees + 1 }
      NodeFires (.mrg f) s s' a f [.a] (toAll t) { a.node.took t with turn := a.node.turn } 0 ∨
        NodeFires (.mrg f) s s' a f [.b] (toAll u) { a.node.took u with turn := a.node.turn } 0) := by
  have h2 : (f.fn == 2) = false := by rw [hf]; rfl
  have h1 : (f.fn == 1) = false := by rw [hf]; rfl
  refine ⟨?_, ?_, ?_⟩
  · rintro t rfl hm rfl
    obtain ⟨hp, htk, -, -⟩ := data_facts hm
    refine mrgTake_fires hr rfl rfl hm ((mrg_runs ht hh (plain_data hm) plain_none).trans ?_)
    simp only [mrgStep, h2, h1, hp, htk, takable_none, Bool.false_eq_true, if_false, if_true, Bool.false_and, Bool.and_false,
      Bool.true_and, Bool.or_true, Bool.false_or, Bool.not_false, Bool.not_true]
  · rintro t rfl hm rfl
    obtain ⟨hp, htk, -, -⟩ := data_facts hm
    refine mrgTake_fires hr rfl rfl hm ((mrg_runs ht hh plain_none (plain_data hm)).trans ?_)
    simp only [mrgStep, h2, h1, htk, takable_none, Bool.false_eq_true, if_false, if_true, Bool.false_and, Bool.and_false,
      Bool.true_and, Bool.or_true, Bool.false_or, Bool.not_false, Bool.not_true]
  · rintro t u rfl hm rfl hu s'
    obtain ⟨hp, htk, -, -⟩ := data_facts hm
    obtain ⟨-, htu, -, -⟩ := data_facts hu
    have he := mrg_runs (f := f) ht hh (plain_data hm) (plain_data hu)
    simp only [mrgStep, h2, h1, hp, htk, htu, hr.1, hr.2.1, Bool.false_eq_true, if_false, Bool.false_and, Bool.and_self,
      if_true] at he
    cases hfree : Config.mergeFirst s.frees
    · rw [hfree] at he
      exact .inr (mrgTake_fires (s := s) (v := s') hr rfl rfl hu he)
    · rw [hfree] at he
      exact .inl (mrgTake_fires (s := s) (v := s') hr rfl rfl hm he)

/-- `mrg.alt` with data at the input whose turn it is (R118). -/
theorem mrg_alt (hf : f.fn = 1) :
    (∀ t, Plain y → (∀ u, y = some u → u.marker = Mk.data) → x = some t → t.marker = Mk.data → a.node.turn = false →
      NodeFires (.mrg f) s s a f [.a] (toAll t) { a.node.took t with turn := true } 0) ∧
    (∀ t, Plain x → (∀ u, x = some u → u.marker = Mk.data) → y = some t → t.marker = Mk.data → a.node.turn = true →
      NodeFires (.mrg f) s s a f [.b] (toAll t) { a.node.took t with turn := false } 0) := by
  have h2 : (f.fn == 2) = false := by rw [hf]; rfl
  have h1 : (f.fn == 1) = true := by rw [hf]; rfl
  refine ⟨?_, ?_⟩
  · rintro t hy - rfl hm hturn
    obtain ⟨hp, htk, -, hd⟩ := data_facts hm
    refine mrgTake_fires hr rfl rfl hm ((mrg_runs ht hh (plain_data hm) hy).trans ?_)
    simp only [mrgStep, h2, h1, hp, htk, hturn, hd, takable_none, Bool.false_eq_true, if_false, if_true, Bool.false_and, Bool.and_false,
      Bool.true_and, Bool.or_true, Bool.false_or, Bool.not_false, Bool.not_true]
  · rintro t hx hdata rfl hm hturn
    obtain ⟨hp, htk, -, hd⟩ := data_facts hm
    refine mrgTake_fires hr rfl rfl hm ((mrg_runs ht hh hx (plain_data hm)).trans ?_)
    simp only [mrgStep, h2, h1, hp, htk, hturn, hd, takable_none, Bool.false_eq_true, if_false, if_true, Bool.false_and, Bool.and_false,
      Bool.true_and, Bool.or_true, Bool.false_or, Bool.not_false, Bool.not_true]

/-- `mrg.cat` (R118). -/
theorem mrg_cat (hf : f.fn = 2) :
    (∀ t, Plain y → x = some t → t.marker = Mk.data → a.node.turn = false →
      NodeFires (.mrg f) s s a f [.a] (toAll t) { a.node.took t with turn := false } 0) ∧
    (∀ t, Plain y → x = some t → t.marker = Mk.eot → a.node.turn = false →
      NodeFires (.mrg f) s s a f [.a] [] { a.node with turn := true } 0) ∧
    (∀ t, x = none → y = some t → t.marker = Mk.data → a.node.turn = true →
      NodeFires (.mrg f) s s a f [.b] (toAll t) { a.node.took t with turn := true } 0) := by
  have h2 : (f.fn == 2) = true := by rw [hf]; rfl
  refine ⟨?_, ?_, ?_⟩
  · rintro t hy rfl hm hturn
    obtain ⟨hp, htk, he, -⟩ := data_facts hm
    refine mrgTake_fires hr rfl rfl hm ((mrg_runs ht hh (plain_data hm) hy).trans ?_)
    simp only [mrgStep, h2, hp, htk, hturn, he, takable_none, Bool.false_eq_true, if_false, if_true, Bool.false_and, Bool.and_false,
      Bool.true_and, Bool.or_true, Bool.false_or, Bool.not_false, Bool.not_true]
  · rintro t hy rfl hm hturn
    obtain ⟨-, he⟩ := end_facts (.inr hm)
    refine .of_fire ((mrg_runs ht hh (plain_end (.inr hm)) hy).trans ?_) noOuts_ready
    simp only [mrgStep, h2, hturn, he, hm, takable_none, Bool.false_eq_true, if_false, if_true, Bool.false_and, Bool.and_false,
      Bool.true_and, Bool.or_true, Bool.false_or, Bool.not_false, Bool.not_true]
    exact if_pos (decide_eq_true trivial)
  · rintro t rfl rfl hm hturn
    obtain ⟨hp, htk, he, -⟩ := data_facts hm
    refine mrgTake_fires hr rfl rfl hm ((mrg_runs ht hh plain_none (plain_data hm)).trans ?_)
    simp only [mrgStep, h2, hp, htk, hturn, he, takable_none, Bool.false_eq_true, if_false, if_true, Bool.false_and, Bool.and_false,
      Bool.true_and, Bool.or_true, Bool.false_or, Bool.not_false, Bool.not_true]

/-- Positional markers at both inputs of `.any` and `.alt` (R118). -/
theorem mrg_ends (hf : f.fn ≠ 2) {t u : Token} (hx : x = some t) (hy : y = some u)
    (hm : t.marker = Mk.eor ∨ t.marker = Mk.eot) (hu : u.marker = Mk.eor ∨ u.marker = Mk.eot) :
    (t.marker = u.marker → NodeFires (.mrg f) s s a f [.a, .b] (toAll t)
      { a.node with turn := false, ended := a.node.ended || decide (t.marker = Mk.eot) } 0) ∧
    (t.marker ≠ u.marker → NodeFaults (.mrg f) s a .mkalign a.node.pos) := by
  subst hx hy
  have h2 : (f.fn == 2) = false := beq_eq_false_iff_ne.2 hf
  obtain ⟨hp, he⟩ := end_facts hm
  obtain ⟨hp', -⟩ := end_facts hu
  have hrun := mrg_runs (f := f) ht hh (plain_end hm) (plain_end hu)
  simp only [mrgStep, h2, hp, hp', he, Bool.false_eq_true, if_false, Bool.and_self, if_true] at hrun
  refine ⟨fun heq => .of_fire (hrun.trans (if_pos ?_)) (toAll_ready hr t), fun hne => .of_fault (hrun.trans (if_neg ?_))⟩
  · simp [markOf, heq]
  · simpa [markOf] using hne

end

/-! ### `loop` and `hold` (R119, R120) -/

section
variable {s : State} {a : At} {f : Fields} {x y z : Option Token}

/-- What `loop` does with an entry (R119). -/
def loopEnter (s : State) (a : At) (f : Fields) (x : Option Token) : Res :=
  match x with
  | none => stall s
  | some t =>
    if 10 ≤ t.marker.toNat then .next (a.block s 0x10)
    else if t.marker = Mk.data then
      if a.node.count ≤ f.imm.toNat then fire s a f [.a] [(0, t)] { a.node.took t with count := a.node.count + 1 } 0
      else stall s
    else if a.node.count != 0 then stall s
    else if isWave t.marker then wave s a [.a] t.marker
    else fire s a f [.a] [(1, t)] { a.node with ended := a.node.ended || t.marker = Mk.eot } 0

theorem findSome?_heads (hx : a.heads [.a] = [{ slot := .a, sticky := false, tok := x }]) :
    (a.heads [.a]).findSome? Head.tok = x := by
  rw [hx]
  cases x <;> rfl

theorem loop_enters (ht : NodeTurn s a) (hx : a.heads [.a] = [{ slot := .a, sticky := false, tok := x }])
    (hb : meets (a.heads [.b, .c]) = .nothing) : exec (.loop f) s = loopEnter s a f x := by
  refine (show _ = execLoop f s from rfl).trans ((asNode_of_turn ht _).trans ?_)
  dsimp only
  rw [ht.running, hb, findSome?_heads hx]
  dsimp only
  rw [← ht.running]
  rfl

theorem loop_back (ht : NodeTurn s a) (hb : meets (a.heads [.b, .c]) = .data) :
    exec (.loop f) s =
      if a.node.count = 0 then .next (a.fault s .loopcnt 0 a.node.pos)
      else
        let t := headOf (a.heads [.b, .c]) .b
        let c := headOf (a.heads [.b, .c]) .c
        let again := t.restrict fun i => c.has i && c.at i != 0
        let done := t.restrict fun i => !(c.has i && c.at i != 0)
        fire s a f (movingSlots (a.heads [.b, .c]))
          ((if again.valid != 0 then [(0, again)] else []) ++ (if done.valid != 0 then [(1, done)] else []))
          (if again.valid != 0 then a.node else { a.node with count := a.node.count - 1 }) 0 := by
  refine (show _ = execLoop f s from rfl).trans ((asNode_of_turn ht _).trans ?_)
  dsimp only
  rw [ht.running, hb]

/-- The two returning inputs of `loop`. -/
def backHeads (y z : Option Token) : List Head :=
  [{ slot := .b, sticky := false, tok := y }, { slot := .c, sticky := false, tok := z }]

theorem meets_backHeads_none : meets (backHeads none none) = .nothing := rfl

theorem meets_backHeads_data {t c : Token} (ht : t.marker = Mk.data) (hc : c.marker = Mk.data) :
    meets (backHeads (some t) (some c)) = .data := by
  simp [meets, backHeads, firstMark, ht, hc, isFree, isPositional, isWave, Mk.data, Mk.eor, Mk.eot, Mk.drain, Mk.switch]

section
variable (ht : NodeTurn s a) (hr : a.room f) (hx : a.heads [.a] = [{ slot := .a, sticky := false, tok := x }])
include ht

/-- An entry token while at most IMM16 are in the body, and one that waits for a place there (R119). -/
theorem loop_entry (hx : a.heads [.a] = [{ slot := .a, sticky := false, tok := x }])
    (hb : a.heads [.b, .c] = backHeads none none) {t : Token} (h : x = some t) (hm : t.marker = Mk.data) (hr : a.room f) :
    (a.node.count ≤ f.imm.toNat →
      NodeFires (.loop f) s s a f [.a] [(0, t)] { a.node.took t with count := a.node.count + 1 } 0) ∧
    (f.imm.toNat < a.node.count → exec (.loop f) s = .next s) := by
  have hrun := loop_enters (f := f) ht hx (by rw [hb, meets_backHeads_none])
  have h10 : ¬10 ≤ t.marker.toNat := by rw [hm]; decide
  rw [h] at hrun
  unfold loopEnter at hrun
  dsimp only at hrun
  rw [if_neg h10, if_pos hm] at hrun
  exact ⟨fun hc => .of_fire (hrun.trans (if_pos hc)) (oneOut_ready hr (by decide) t),
    fun hc => hrun.trans (if_neg (Nat.not_le.2 hc))⟩

theorem loop_marker (hx : a.heads [.a] = [{ slot := .a, sticky := false, tok := x }])
    (hb : a.heads [.b, .c] = backHeads none none) {t : Token} (h : x = some t)
    (hm : t.marker = Mk.eor ∨ t.marker = Mk.eot) (hr : a.room f) (hc : a.node.count = 0) :
    NodeFires (.loop f) s s a f [.a] [(1, t)] { a.node with ended := a.node.ended || decide (t.marker = Mk.eot) } 0 := by
  have hrun := loop_enters (f := f) ht hx (by rw [hb, meets_backHeads_none])
  have hfacts : ¬10 ≤ t.marker.toNat ∧ t.marker ≠ Mk.data ∧ isWave t.marker = false := by
    obtain hm | hm := hm <;> rw [hm] <;> exact ⟨by decide, by decide, by decide⟩
  obtain ⟨h10, hd, hw⟩ := hfacts
  rw [h] at hrun
  unfold loopEnter at hrun
  dsimp only at hrun
  rw [if_neg h10, if_neg hd, if_neg (by simp [hc]), if_neg (by simp [hw])] at hrun
  exact .of_fire hrun (oneOut_ready hr (by decide) t)

/-- A token that comes back goes on to the body where its lane of slot c is not 0, and is finished elsewhere (R119). -/
theorem loop_returns {t c : Token} (hb : a.heads [.b, .c] = backHeads (some t) (some c)) (hm : t.marker = Mk.data)
    (hc : c.marker = Mk.data) (hr : a.room f) (hn : a.node.count ≠ 0) :
    let go := t.restrict fun k => c.has k && decide (c.at k ≠ 0)
    let out := t.restrict fun k => !(c.has k && decide (c.at k ≠ 0))
    NodeFires (.loop f) s s a f [.b, .c]
      ((if go.valid ≠ 0 then [(0, go)] else []) ++ (if out.valid ≠ 0 then [(1, out)] else []))
      (if go.valid ≠ 0 then a.node else { a.node with count := a.node.count - 1 }) 0 := by
  intro go out
  have hrun := loop_back (f := f) ht (by rw [hb, meets_backHeads_data hm hc])
  have hne (v : Lane) : (v != 0) = decide (v ≠ 0) := by rw [Bool.eq_iff_iff, bne_iff_ne, decide_eq_true_eq]
  rw [if_neg hn, hb] at hrun
  simp only [hne, bne_iff_ne] at hrun
  refine .of_fire hrun fun o ho => ?_
  obtain ho | ho := List.mem_append.1 ho
  · split at ho
    · obtain rfl := List.mem_singleton.1 ho
      exact hr.1
    · cases ho
  · split at ho
    · obtain rfl := List.mem_singleton.1 ho
      exact hr.2.1
    · cases ho

theorem loop_empty {t c : Token} (hb : a.heads [.b, .c] = backHeads (some t) (some c)) (hm : t.marker = Mk.data)
    (hc : c.marker = Mk.data) (hn : a.node.count = 0) : NodeFaults (.loop f) s a .loopcnt a.node.pos :=
  .of_fault ((loop_back (f := f) ht (by rw [hb, meets_backHeads_data hm hc])).trans (if_pos hn))

end

/-- What `hold` does with the data token or the end of a row that waits at slot a, and no marker at slot b (R120). -/
def holdStep (s : State) (a : At) (f : Fields) (t : Token) (y : Option Token) : Res :=
  if t.marker = Mk.data then
    match a.node.held with
    | some h =>
      fire s a f [.a] (toAll { laneToken t (fun i => if t.has i then some (h.at i) else none) with payload := h.payload })
        (a.node.took t) 0
    | none =>
      match y with
      | none => stall s
      | some b =>
        if b.marker = Mk.data then
          fire s a f [.b] [] { a.node with held := some { b with payload := lanes fun i => if b.has i then b.at i else 0 } } 0
        else .next (a.fault s .mkalign 0 a.node.pos)
  else fire s a f [.a] (toAll t) { a.node with held := if f.fn == 0 then none else a.node.held } 0

theorem hold_runs (ht : NodeTurn s a) (hpm : f.pm = .always) {t : Token} (hh : a.heads [.a, .b] = twoHeads (some t) y)
    (hm : t.marker = Mk.data ∨ t.marker = Mk.eor) (hy : ∀ u, y = some u → u.marker = Mk.data) :
    exec (.hold f) s = holdStep s a f t y := by
  have hw : withPred f [.a, .b] = [.a, .b] := by
    unfold withPred
    rw [hpm]
    rfl
  have hp (k : Nat) : predOk f (headOf (twoHeads (some t) y) .p) k = true := by
    unfold predOk
    rw [hpm]
  refine (show _ = execHold f s from rfl).trans ((asNode_of_turn ht _).trans ?_)
  dsimp only
  rw [ht.running, hw, hh]
  have hplain : Plain (some t) := fun u hu => by
    cases hu
    exact hm.imp_right .inl
  have hyplain : Plain y := fun u hu => .inl (hy u hu)
  have hany : ¬((twoHeads (some t) y).any fun h => reservedAt h.tok) = true := by
    unfold twoHeads
    simp only [List.any_cons, List.any_nil, hplain.not_wave.2.2, hyplain.not_wave.2.2]
    decide
  have hfree : firstMark ((twoHeads (some t) y).filter fun h => !h.sticky) isFree = none := by
    have hnot (u : Token) (h : u.marker = Mk.data ∨ u.marker = Mk.eor) : isFree u.marker = false := by
      obtain h | h := h <;> rw [h] <;> decide
    unfold firstMark twoHeads
    cases y with
    | none => simp [hnot t hm]
    | some u => simp [hnot t hm, hnot u (.inl (hy u rfl))]
  have htb : ((twoHeads (some t) y).find? fun h => h.slot == .b).bind Head.tok = y := rfl
  have hleads : (twoHeads (some t) y).filter (fun h => h.slot != .b && !h.sticky) =
      [{ slot := .a, sticky := false, tok := some t }] := rfl
  have hhead : headOf (twoHeads (some t) y) .a = t := rfl
  have hnone : ((twoHeads (some t) y).any fun h => h.slot != .b && h.tok.isNone) = false := rfl
  have heor : (markOf y == some Mk.eor) = false := by
    cases y with
    | none => rfl
    | some u =>
      unfold markOf
      dsimp only [Option.map]
      rw [hy u rfl]
      decide
  dsimp only
  refine (if_neg hany).trans ?_
  rw [hfree]
  simp only [htb, hleads, hyplain.not_wave.1, heor, hhead, hnone, hp, Bool.and_true, Bool.false_eq_true, if_false,
    List.map_cons, List.map_nil, List.any_nil]
  rw [← ht.running]
  unfold holdStep
  obtain hm | hm := hm
  · rw [if_pos hm]
    exact (if_pos hm).symm
  · have hd : t.marker ≠ Mk.data := by rw [hm]; decide
    have hdr : t.marker ≠ Mk.drain := by rw [hm]; decide
    rw [if_neg hd, if_neg hdr, if_pos hm, if_neg hd]

end

/-- Settles O36: the three nodes' steps, case by case. -/
theorem mergeLoopHold : Obligations.MergeLoopHold := by
  unfold Obligations.MergeLoopHold
  refine ⟨fun s a f ht hr x y hh => ?_, fun s a f x y z ht hr hx hb => ?_, fun s a f t y ht hr hpm hh => ?_⟩
  · intro n data took
    have hplain (v : Option Token) (h : v = none ∨ ∃ u, data v u) : Plain v := by
      rintro u rfl
      obtain h | ⟨w, h, hw⟩ := h
      · cases h
      · cases h
        exact .inl hw
    have hdata (v : Option Token) (h : v = none ∨ ∃ u, data v u) (u : Token) (hu : v = some u) : u.marker = Mk.data := by
      subst hu
      obtain h | ⟨w, h, hw⟩ := h
      · cases h
      · cases h
        exact hw
    refine ⟨fun hf => ?_, fun hf t hy h hturn => ?_, fun hf t hx h hturn => ?_, fun hf t hy h hturn => ?_,
      fun hf t hy h hm hturn => ?_, fun hf t hx h hturn => ?_, fun hf t u hx hy heq hm => ?_,
      fun hf t u hx hy hne hm hu => ?_⟩
    · obtain ⟨h1, h2, h3⟩ := mrg_any ht hr hh hf
      exact ⟨fun t h hy => h1 t h.1 h.2 hy, fun t h hx => h2 t h.1 h.2 hx, fun t u h g => h3 t u h.1 h.2 g.1 g.2⟩
    · exact (mrg_alt ht hr hh hf).1 t (hplain y hy) (hdata y hy) h.1 h.2 hturn
    · exact (mrg_alt ht hr hh hf).2 t (hplain x hx) (hdata x hx) h.1 h.2 hturn
    · exact (mrg_cat ht hr hh hf).1 t (hplain y hy) h.1 h.2 hturn
    · exact (mrg_cat ht hr hh hf).2.1 t (hplain y hy) h hm hturn
    · exact (mrg_cat ht hr hh hf).2.2 t hx h.1 h.2 hturn
    · exact (mrg_ends ht hr hh hf hx hy hm (heq ▸ hm)).1 heq
    · obtain ⟨v, he, hfr, hbytes, hc, -⟩ := (mrg_ends ht hr hh hf hx hy hm hu).2 hne
      exact ⟨v, he, hfr, hc, hbytes⟩
  · refine ⟨?_, ?_, ?_, ?_, ?_⟩
    · rintro t h hm rfl rfl hc
      exact (loop_entry ht hx hb h hm hr).1 hc
    · rintro t h hm rfl rfl hc
      exact (loop_entry ht hx hb h hm hr).2 hc
    · rintro t h hm rfl rfl hc
      exact loop_marker ht hx hb h hm hr hc
    · rintro t c rfl rfl hm hc hn
      exact loop_returns ht hb hm hc hr hn
    · rintro t c rfl rfl hm hc hn
      obtain ⟨v, he, hfr, hbytes, hcause, -⟩ := loop_empty (f := f) ht hb hm hc hn
      exact ⟨v, he, hfr, hcause, hbytes⟩
  · have hready := toAll_ready hr
    refine ⟨fun b hm hheld hy hb => ?_, fun h hm hheld hy => ?_, fun hm hy => ?_⟩
    · have hrun := hold_runs ht hpm hh (.inl hm) fun u hu => by
        cases hy.symm.trans hu
        exact hb
      unfold holdStep at hrun
      rw [if_pos hm, hheld, hy] at hrun
      dsimp only at hrun
      rw [if_pos hb] at hrun
      exact ⟨_, .of_fire hrun noOuts_ready, fun k hk => vget_lanes _ _ hk⟩
    · have hrun := hold_runs ht hpm hh (.inl hm) (by rw [hy]; nofun)
      unfold holdStep at hrun
      rw [if_pos hm, hheld] at hrun
      refine ⟨_, .of_fire hrun (hready _), rfl, fun k hk => ?_⟩
      exact (laneToken_ite (t := t) (c := fun i => t.has i) (x := fun i => h.at i) hk).1
    · have hrun := hold_runs ht hpm hh (.inr hm) (by rw [hy]; nofun)
      unfold holdStep at hrun
      rw [if_neg (by rw [hm]; decide)] at hrun
      simp only [beq_iff_eq] at hrun
      exact .of_fire hrun (hready t)

/-! ### Nodes of markers (R121 to R125) -/

section
variable {s : State} {a : At} {f : Fields}

theorem withPred_always (hpm : f.pm = .always) (ins : List Slot) : withPred f ins = ins := by
  unfold withPred
  rw [hpm]
  rfl

/-- A node of the form in its turn, by what its heads are. -/
theorem markerNode_data (h : NodeFree s a) (hpm : f.pm = .always) (hm : meets (a.heads [.a]) = .data) :
    NodeData s a f [.a] := ⟨h.1, h.2.1, h.2.2, by rw [withPred_always hpm]; exact hm⟩

/-- The end of a row at a node of the form. -/
theorem stdNode_eor {onMark : At → List Head → Slot → Token → Option Res} {data : At → List Head → Res} {x : Token}
    (h : NodeFree s a) (hpm : f.pm = .always) (hm : meets (a.heads [.a]) = .positional x) (hx : x.marker = Mk.eor) {r : Res}
    (hon : onMark a (a.heads [.a]) .a x = some r) : stdNode s f [.a] onMark data = r := by
  have hnode : ({ a with node := { a.node with ended := a.node.ended || decide (x.marker = Mk.eot) } } : At) = a := by
    have hne : decide (x.marker = Mk.eot) = false := by rw [hx]; decide
    rw [hne, Bool.or_false]
  rw [stdNode_of_meets h, withPred_always hpm, hm]
  dsimp only
  rw [hnode, hon]

theorem stdNode_free {onMark : At → List Head → Slot → Token → Option Res} {data : At → List Head → Res} {o : Slot}
    {x : Token} (h : NodeFree s a) (hpm : f.pm = .always) (hm : meets (a.heads [.a]) = .free o x) {r : Res}
    (hon : onMark a (a.heads [.a]) o x = some r) : stdNode s f [.a] onMark data = r := by
  rw [stdNode_of_meets h, withPred_always hpm, hm]
  dsimp only
  rw [hon]

theorem Token.highest_eq {t : Token} {k : Nat} (hk : k < 16) (h : t.has k = true)
    (hb : ∀ j, k < j → j < 16 → t.has j = false) : t.highest = some k := by
  unfold Token.highest
  rw [List.find?_eq_some_iff_getElem]
  refine ⟨h, 15 - k, by simp; omega, by simp; omega, fun j hj => ?_⟩
  have hbj : bitAt t.valid (15 - j) = false := hb (15 - j) (by omega) (by omega)
  simp [hbj]

section
variable (h : NodeFree s a) (hpm : f.pm = .always)
include h hpm

theorem exit_data (hm : meets (a.heads [.a]) = .data) {k : Nat} (hk : k < 16)
    (hl : (headOf (a.heads [.a]) .a).has k = true)
    (hb : ∀ j, k < j → j < 16 → (headOf (a.heads [.a]) .a).has j = false) :
    (((headOf (a.heads [.a]) .a).at k).toNat ≤ 3 →
      NodeFires (.exit f) s s a f (movingSlots (a.heads [.a])) []
        { a.node.took (headOf (a.heads [.a]) .a) with decision := some ((headOf (a.heads [.a]) .a).at k).toNat } 0) ∧
    (3 < ((headOf (a.heads [.a]) .a).at k).toNat →
      NodeFaults (.exit f) s a .exitidx (lanePos (headOf (a.heads [.a]) .a).valid a.node.pos k)) := by
  have he : exec (.exit f) s = execExit f s := rfl
  unfold execExit at he
  have hrun := he.trans (stdNode_of_data (markerNode_data h hpm hm) _ _)
  rw [withPred_always hpm] at hrun
  dsimp only at hrun
  rw [Token.highest_eq hk hl hb] at hrun
  dsimp only at hrun
  exact ⟨fun hv => .of_fire (hrun.trans (if_neg (Nat.not_lt.2 hv))) noOuts_ready,
    fun hv => .of_fault (hrun.trans (if_pos hv))⟩

theorem streamFault {i : Instr} {o : Slot} {x : Token} (hm : meets (a.heads [.a]) = .free o x) (hx : x.marker = Mk.fault)
    {data : At → List Head → Res} (he : exec i s = stdNode s f [.a] (endMarks s f) data) :
    NodeFaults i s a .streamflt a.node.pos :=
  .of_fault (he.trans (stdNode_free h hpm hm (if_pos hx)))

end

end

/-- Settles O37, node by node. -/
theorem markerNodes : Obligations.MarkerNodes := by
  unfold Obligations.MarkerNodes
  intro s a f ht hacc hpend hr hpm n m t taken mk
  have h : NodeFree s a := ⟨ht, hacc, hpend⟩
  have hw := withPred_always hpm [.a]
  refine ⟨fun hm => ?_, fun x hm hx => ?_, fun o x hm hx i hi => ?_⟩
  · have hd := markerNode_data h hpm hm
    have run {i : Instr} {onMark : At → List Head → Slot → Token → Option Res} {data : At → List Head → Res}
        (he : exec i s = stdNode s f [.a] onMark data) : exec i s = data a (a.heads [.a]) := by
      rw [he, stdNode_of_data hd, hw]
    refine ⟨?_, ?_, ?_, ?_, fun k hk hl hb => ?_⟩
    · have he : exec (.mark f) s = execMark f s := rfl
      unfold execMark at he
      exact .of_fire (run he) (toAll_ready hr t)
    · have he : exec (.mtst f) s = execMtst f s := rfl
      unfold execMtst at he
      exact .of_fire (run he) (oneOut_ready hr (by decide) t)
    · have he : exec (.cnt f) s = execCnt f s := rfl
      unfold execCnt at he
      simp only [beq_iff_eq] at he
      exact .of_fire (run he) noOuts_ready
    · have he : exec (.sink f) s = execSink f s := rfl
      unfold execSink at he
      exact .of_fire (run he) noOuts_ready
    · obtain ⟨h1, h2⟩ := exit_data h hpm hm hk hl hb
      refine ⟨h1, fun hv => ?_⟩
      obtain ⟨u, he, hfr, hbytes, hc, -⟩ := h2 hv
      exact ⟨u, he, hfr, hc, hbytes⟩
  · have hpos : isPositional x.marker = true := by rw [hx]; decide
    have hne : x.marker ≠ Mk.eot := by rw [hx]; decide
    refine ⟨?_, ?_, fun hf => ?_, fun hf => ?_⟩
    · have he : exec (.cnt f) s = execCnt f s := rfl
      unfold execCnt at he
      refine .of_fireOn (he.trans (stdNode_eor h hpm hm hx ?_)) rfl rfl (bothOut_ready hr _ _)
      dsimp only
      rw [if_pos hpos, hr.1, hr.2.1]
      rfl
    · have he : exec (.mark f) s = execMark f s := rfl
      unfold execMark at he
      exact .of_fire (he.trans (stdNode_eor h hpm hm hx (if_pos hx))) (toAll_ready hr x)
    · have he : exec (.mtst f) s = execMtst f s := rfl
      unfold execMtst at he
      refine .of_fireOn (he.trans (stdNode_eor h hpm hm hx ?_)) rfl rfl (bothOut_ready hr _ _)
      dsimp only
      rw [hr.1, hr.2.1]
      refine (if_neg (by decide)).trans ((if_neg hne).trans (if_pos ?_))
      exact hx.trans hf.symm
    · have he : exec (.mtst f) s = execMtst f s := rfl
      unfold execMtst at he
      refine .of_fire (he.trans (stdNode_eor h hpm hm hx ?_)) (oneOut_ready hr (by decide) x)
      dsimp only
      rw [hr.1, hr.2.1]
      refine (if_neg (by decide)).trans ((if_neg hne).trans (if_neg ?_))
      simpa [fnMarker, hx] using fun hc => hf hc.symm
  · have hfault : NodeFaults i s a .streamflt a.node.pos := by
      obtain rfl | rfl := hi
      · have he : exec (.exit f) s = execExit f s := rfl
        unfold execExit at he
        exact streamFault h hpm hm hx he
      · have he : exec (.sink f) s = execSink f s := rfl
        unfold execSink at he
        exact streamFault h hpm hm hx he
    obtain ⟨u, he, hfr, hbytes, hc, -⟩ := hfault
    exact ⟨u, he, hfr, hc, hbytes⟩

end Sys2Proof.Machine
end

