-- ==== Sys2Proof/Proofs/Groups.lean ====
section
/-!
PROOFS. O38: groups of quantised tokens, scales, and the stage of a Hadamard transform.
-/

namespace Sys2Proof.Machine

/-! ### Groups of `bqnt` (R174 to R177) -/

theorem groupLength_eq (ty : ElemTy) : groupLength ty = if ty = .cb4 then 8 else 4 := by
  unfold groupLength
  simp only [beq_iff_eq]

/-- A group without a marker has as many tokens as `buf`. -/
theorem groupTokens_plain {l : List Token} (h : ∀ u ∈ l, u.marker = Mk.data) : groupTokens l = l.length := by
  unfold groupTokens
  rw [List.filter_eq_self.2 fun u hu => decide_eq_true (h u hu)]

/-- A record's value in a group. -/
def groupValue (a : At) (f : Fields) (x : Lane) : Num := a.env.value (fmtOf (sourceTy f)) x

/-- The scale of the group in `buf`. -/
def At.scaleOf (a : At) (f : Fields) : Nat :=
  groupScale a.env f.ty (a.codebook f) (a.node.buf.flatMap (recordValues (groupValue a f)))

/-- The value of a group's record, narrowed. -/
def narrowed (a : At) (f : Fields) (x : Lane) : Lane × FFlags :=
  narrowValue a.env (modeOf a.env f) f.ty (a.codebook f) (a.scaleOf f) (groupValue a f x)

/-- The narrowed tokens of the group in `buf`, filled up with empty ones. -/
def narrowTokens (a : At) (f : Fields) : List Token :=
  a.node.buf.map (fun t =>
      if t.marker = Mk.data then laneToken t fun i => if t.has i then some (narrowed a f (t.at i)).1 else none else t) ++
    List.replicate (groupLength f.ty - groupTokens a.node.buf) Token.empty

/-- The flags of the group in `buf`. -/
def groupFlags (a : At) (f : Fields) : FFlags :=
  a.node.buf.foldl (fun v t => v ||| orFlags fun i => if t.has i then (narrowed a f (t.at i)).2 else 0) 0

theorem closeGroup_eq (a : At) (f : Fields) (last : List Token) {m : Node} (hm : m.buf = a.node.buf) :
    a.closeGroup f last m = (scaleToken (a.scaleOf f),
      { m with buf := [], pend := (narrowTokens a f ++ last).map fun t => (t, t) }, groupFlags a f) := by
  unfold At.closeGroup quantGroup
  rw [hm]
  rfl

theorem getD_of_lt {l : List Token} {j : Nat} (h : j < l.length) (d : Token) : l.getD j d = l[j] := by
  simp [h]

theorem has_empty (k : Nat) : Token.empty.has k = false := by
  simp [Token.has, Token.empty, bitAt]

section
variable {a : At} {f : Fields} (hplain : ∀ u ∈ a.node.buf, u.marker = Mk.data)
  (hlen : a.node.buf.length ≤ if f.ty = .cb4 then 8 else 4)
include hplain hlen

theorem length_narrowTokens : (narrowTokens a f).length = if f.ty = .cb4 then 8 else 4 := by
  unfold narrowTokens
  rw [List.length_append, List.length_map, List.length_replicate, groupTokens_plain hplain, groupLength_eq]
  omega

omit hlen in
theorem narrowTokens_lanes {j k : Nat} (hk : k < 16) :
    ((narrowTokens a f).getD j Token.empty).has k = (a.node.buf.getD j Token.empty).has k ∧
      ((a.node.buf.getD j Token.empty).has k = true → ((narrowTokens a f).getD j Token.empty).at k =
        (narrowed a f ((a.node.buf.getD j Token.empty).at k)).1) := by
  unfold narrowTokens
  by_cases hj : j < a.node.buf.length
  · rw [List.getD_append _ _ _ _ (by simpa using hj), getD_of_lt (by simpa using hj), getD_of_lt hj, List.getElem_map,
      if_pos (hplain _ (List.getElem_mem hj))]
    obtain ⟨h1, h2⟩ := laneToken_ite (t := a.node.buf[j]) (c := fun i => (a.node.buf[j]).has i)
      (x := fun i => (narrowed a f ((a.node.buf[j]).at i)).1) hk
    exact ⟨h1, fun h => h2.trans (if_pos h)⟩
  · have hnone : a.node.buf.getD j Token.empty = Token.empty := by
      simp [Nat.not_lt.1 hj]
    have hempty : (List.map (fun t : Token => if t.marker = Mk.data then
        laneToken t fun i => if t.has i then some (narrowed a f (t.at i)).1 else none else t) a.node.buf ++
        List.replicate (groupLength f.ty - groupTokens a.node.buf) Token.empty).getD j Token.empty = Token.empty := by
      rw [List.getD_append_right _ _ _ _ (by simpa using Nat.not_lt.1 hj)]
      simp [List.getD_replicate]
    rw [hnone, hempty, has_empty]
    exact ⟨rfl, nofun⟩

end

/-- `bqnt` in its turn. -/
def bqntStep (s : State) (a : At) (f : Fields) : Res :=
  let n := a.node
  let hs := a.heads (withPred f [.a])
  let due := a.groupDue f
  let emit (x : Token × Node × FFlags) (taken : List Slot) : Res := fire s a f taken (toAll x.1) x.2.1 x.2.2
  match meets hs with
  | .nothing => (match due with | some x => emit x [] | none => stall s)
  | .reserved _ => .next (a.block s 0x10)
  | .misaligned => .next (a.fault s .mkalign 0 n.pos)
  | .wave m => if n.pend.isEmpty then wave s a (movingSlots hs) m else match due with | some x => emit x [] | none => stall s
  | .free o t =>
    if o == .a && t.marker = Mk.scale then fire s a f [o] [] n 0
    else
      (match due with
        | some x => emit x []
        | none =>
          if n.buf.isEmpty then fire s a f [o] (toAll t) n 0
          else if o == .a then emit (a.closeGroup f [t] n) [o]
          else fire s a f [o] [] { n with buf := n.buf ++ [t] } 0)
  | .positional t =>
    let m := { n with ended := n.ended || t.marker = Mk.eot }
    (match due with
      | some x => emit x []
      | none =>
        if n.buf.isEmpty then fire s a f (movingSlots hs) (toAll t) m 0
        else emit (a.closeGroup f [t] m) (movingSlots hs))
  | .data =>
    let t := headOf hs .a
    let r := laneToken t fun i => if t.has i && predOk f (headOf hs .p) i then some (t.at i) else none
    let take (m : Node) : Node := { m.took t with buf := m.buf ++ [r] }
    match due with
    | some x =>
      if groupLength f.ty ≤ groupTokens x.2.1.buf then emit x []
      else fire s a f (movingSlots hs) (toAll x.1) (take x.2.1) x.2.2
    | none => fire s a f (movingSlots hs) [] (take n) 0

theorem bqnt_runs {s : State} {a : At} {f : Fields} (ht : NodeTurn s a) : exec (.bqnt f) s = bqntStep s a f := by
  refine (show _ = execBqnt f s from rfl).trans ((asNode_of_turn ht _).trans ?_)
  dsimp only
  split
  · next h => exact absurd (ht.running.symm.trans h) (by decide)
  · rfl
  · next h => exact absurd ht.running h

/-- What the node's next firing emits. -/
theorem groupDue_pend {a : At} {f : Fields} {u v : Token} {rest : List (Token × Token)} (h : a.node.pend = (u, v) :: rest) :
    a.groupDue f = some (u, { a.node with pend := rest }, 0) := by
  unfold At.groupDue
  dsimp only
  rw [h]

theorem groupDue_nil {a : At} {f : Fields} (h : a.node.pend = []) (hplain : ∀ u ∈ a.node.buf, u.marker = Mk.data) :
    a.groupDue f = if (if f.ty = .cb4 then 8 else 4) ≤ a.node.buf.length then some (a.closeGroup f [] a.node) else none := by
  unfold At.groupDue
  dsimp only
  rw [h]
  dsimp only
  rw [groupTokens_plain hplain, groupLength_eq]

/-- A firing that closes the group: its SCALE leaves, and its narrowed tokens wait, with `last` behind them. -/
def BqntCloses (s : State) (a : At) (f : Fields) (m : Node) (gone : List Slot) (last next : List Token) : Prop :=
  ∃ (toks : List Token) (fl : FFlags),
    NodeFires (.bqnt f) s s a f gone (toAll (scaleToken (a.scaleOf f)))
      { m with buf := next, pend := (toks ++ last).map fun u => (u, u) } fl ∧
    toks.length = (if f.ty = .cb4 then 8 else 4) ∧
    ∀ j k, j < (if f.ty = .cb4 then 8 else 4) → k < 16 →
      (toks.getD j Token.empty).has k = (a.node.buf.getD j Token.empty).has k ∧
        ((a.node.buf.getD j Token.empty).has k = true → (toks.getD j Token.empty).at k =
          (narrowed a f ((a.node.buf.getD j Token.empty).at k)).1)

section
variable {s : State} {a : At} {f : Fields} (ht : NodeTurn s a) (hr : a.room f)
  (hplain : ∀ u ∈ a.node.buf, u.marker = Mk.data)

theorem BqntCloses.of_fire (hr : a.room f) (hplain : ∀ u ∈ a.node.buf, u.marker = Mk.data)
    (hlen : a.node.buf.length ≤ if f.ty = .cb4 then 8 else 4) {m : Node} {gone : List Slot} {last next : List Token}
    (he : bqntStep s a f = fire s a f gone (toAll (scaleToken (a.scaleOf f)))
      { m with buf := next, pend := (narrowTokens a f ++ last).map fun u => (u, u) } (groupFlags a f))
    (ht : NodeTurn s a) : BqntCloses s a f m gone last next :=
  ⟨narrowTokens a f, groupFlags a f, .of_fire ((bqnt_runs ht).trans he) (toAll_ready hr _),
    length_narrowTokens hplain hlen, fun _ _ _ hk => narrowTokens_lanes hplain hk⟩

include ht hr hplain

/-- The lanes of a token that stand under the predicate. -/
def liveToken (a : At) (f : Fields) : Token :=
  let t := headOf (a.heads (withPred f [.a])) .a
  laneToken t fun k => if t.has k && predOk f (headOf (a.heads (withPred f [.a])) .p) k then some (t.at k) else none

omit hr in
/-- A token joins a group that is not full. -/
theorem bqnt_gathers (hm : meets (a.heads (withPred f [.a])) = .data)
    (hlen : a.node.buf.length < if f.ty = .cb4 then 8 else 4) (hp : a.node.pend = []) :
    NodeFires (.bqnt f) s s a f (movingSlots (a.heads (withPred f [.a]))) []
      { a.node.took (headOf (a.heads (withPred f [.a])) .a) with buf := a.node.buf ++ [liveToken a f] } 0 := by
  refine .of_fire ((bqnt_runs ht).trans ?_) noOuts_ready
  unfold bqntStep
  dsimp only
  rw [hm, groupDue_nil hp hplain, if_neg (Nat.not_le.2 hlen)]
  rfl

/-- A full group closes. -/
theorem bqnt_closes (hlen : a.node.buf.length = if f.ty = .cb4 then 8 else 4) (hp : a.node.pend = []) :
    (meets (a.heads (withPred f [.a])) = .nothing → BqntCloses s a f a.node [] [] []) ∧
    (meets (a.heads (withPred f [.a])) = .data →
      BqntCloses s a f (a.node.took (headOf (a.heads (withPred f [.a])) .a)) (movingSlots (a.heads (withPred f [.a]))) []
        [liveToken a f]) := by
  have hdue : a.groupDue f = some (a.closeGroup f [] a.node) :=
    (groupDue_nil hp hplain).trans (if_pos hlen.ge)
  refine ⟨fun hm => .of_fire hr hplain hlen.le ?_ ht, fun hm => .of_fire hr hplain hlen.le ?_ ht⟩
  · unfold bqntStep
    dsimp only
    rw [hm, hdue, closeGroup_eq a f [] rfl]
  · unfold bqntStep
    dsimp only
    rw [hm, hdue, closeGroup_eq a f [] rfl]
    dsimp only
    rw [if_neg]
    · rfl
    · rw [groupLength_eq]
      show ¬(if f.ty = .cb4 then 8 else 4) ≤ 0
      split <;> omega

/-- A marker closes a shorter group. -/
theorem bqnt_closes_short (h0 : 0 < a.node.buf.length) (hlen : a.node.buf.length < if f.ty = .cb4 then 8 else 4)
    (hp : a.node.pend = []) (x : Token) :
    (meets (a.heads (withPred f [.a])) = .positional x →
      BqntCloses s a f { a.node with ended := a.node.ended || decide (x.marker = Mk.eot) }
        (movingSlots (a.heads (withPred f [.a]))) [x] []) ∧
    (meets (a.heads (withPred f [.a])) = .free .a x → x.marker ≠ Mk.scale → BqntCloses s a f a.node [.a] [x] []) := by
  have hdue : a.groupDue f = none := (groupDue_nil hp hplain).trans (if_neg (Nat.not_le.2 hlen))
  have hne : a.node.buf.isEmpty = false := by
    rw [List.isEmpty_eq_false_iff]
    exact List.ne_nil_of_length_pos h0
  refine ⟨fun hm => .of_fire hr hplain hlen.le ?_ ht, fun hm hx => .of_fire hr hplain hlen.le ?_ ht⟩
  · unfold bqntStep
    dsimp only
    rw [hm, hdue]
    dsimp only
    rw [hne, closeGroup_eq a f [x] (m := { a.node with ended := a.node.ended || decide (x.marker = Mk.eot) }) rfl]
    rfl
  · unfold bqntStep
    dsimp only
    rw [hm, hdue]
    dsimp only
    rw [hne, closeGroup_eq a f [x] rfl]
    exact if_neg (by simpa using hx)

/-- The next token of a closed group leaves, beside a token that joins the next group if that has room. -/
theorem bqnt_emits {u v : Token} {rest : List (Token × Token)} (hp : a.node.pend = (u, v) :: rest) :
    (meets (a.heads (withPred f [.a])) = .nothing ∨
        (meets (a.heads (withPred f [.a])) = .data ∧ a.node.buf.length = if f.ty = .cb4 then 8 else 4) →
      NodeFires (.bqnt f) s s a f [] (toAll u) { a.node with pend := rest } 0) ∧
    (meets (a.heads (withPred f [.a])) = .data → a.node.buf.length < (if f.ty = .cb4 then 8 else 4) →
      NodeFires (.bqnt f) s s a f (movingSlots (a.heads (withPred f [.a]))) (toAll u)
        { a.node.took (headOf (a.heads (withPred f [.a])) .a) with
          buf := a.node.buf ++ [liveToken a f], pend := rest } 0) := by
  have hdue := groupDue_pend (f := f) hp
  refine ⟨fun hm => .of_fire ((bqnt_runs ht).trans ?_) (toAll_ready hr _),
    fun hm hlen => .of_fire ((bqnt_runs ht).trans ?_) (toAll_ready hr _)⟩
  · unfold bqntStep
    dsimp only
    rw [hdue]
    obtain hm | ⟨hm, hlen⟩ := hm
    · rw [hm]
    · rw [hm]
      refine if_pos ?_
      show groupLength f.ty ≤ groupTokens a.node.buf
      rw [groupTokens_plain hplain, groupLength_eq, hlen]
  · unfold bqntStep
    dsimp only
    rw [hdue, hm]
    refine if_neg ?_
    show ¬groupLength f.ty ≤ groupTokens a.node.buf
    rw [groupTokens_plain hplain, groupLength_eq]
    exact Nat.not_le.2 hlen

omit hr hplain in
theorem bqnt_scale {x : Token} (hm : meets (a.heads (withPred f [.a])) = .free .a x) (hx : x.marker = Mk.scale) :
    NodeFires (.bqnt f) s s a f [.a] [] a.node 0 := by
  refine .of_fire ((bqnt_runs ht).trans ?_) noOuts_ready
  unfold bqntStep
  dsimp only
  rw [hm]
  exact if_pos (by simp [hx])

end

/-! ### The current scale (R178, R179, R184) -/

section
variable {i : Instr} {s : State} {a : At} {f : Fields} {g : At → Lane → Lane × FFlags} (h : NodeFree s a) (hr : a.room f)
  (he : exec i s = scaledNode s f g)
include h he

omit h in
theorem scaledNode_runs : exec i s = stdNode s f [.a] (scaleMarks s f) fun a hs =>
    fire s a f (movingSlots hs)
      [(0, laneToken (headOf hs .a) fun k =>
          if (headOf hs .a).has k && predOk f (headOf hs .p) k then some (g a ((headOf hs .a).at k)).1 else none),
        (1, laneToken (headOf hs .a) fun k =>
          if (headOf hs .a).has k && predOk f (headOf hs .p) k then some (g a ((headOf hs .a).at k)).1 else none)]
      (a.node.took (headOf hs .a))
      (orFlags fun k => if (headOf hs .a).has k && predOk f (headOf hs .p) k then (g a ((headOf hs .a).at k)).2 else 0) := he

theorem scaled_free {o : Slot} {x : Token} (hm : meets (a.heads (withPred f [.a])) = .free o x) :
    (o = .a → x.marker = Mk.scale → NodeFires i s s a f [.a] [] { a.node with scale := bits (x.at 0) 0 8 } 0) ∧
    (o = .p → a.room f → x.marker ≠ Mk.eot → NodeFires i s s a f [.p] (toAll x) a.node 0) := by
  have hrun := (scaledNode_runs he).trans (stdNode_of_meets h)
  rw [hm] at hrun
  refine ⟨?_, ?_⟩
  · rintro rfl hx
    have hon : scaleMarks s f a (a.heads (withPred f [.a])) .a x =
        some (fire s a f [.a] [] { a.node with scale := bits (x.at 0) 0 8 } 0) := if_pos (by simp [hx])
    dsimp only at hrun
    rw [hon] at hrun
    exact .of_fire hrun noOuts_ready
  · rintro rfl hr hx
    have hon : scaleMarks s f a (a.heads (withPred f [.a])) .p x = none := (if_neg (by simp)).trans (if_neg hx)
    dsimp only at hrun
    rw [hon] at hrun
    exact .of_fire hrun (toAll_ready hr x)

include hr

theorem scaled_end {x : Token} (hm : meets (a.heads (withPred f [.a])) = .positional x) (hx : x.marker = Mk.eot) :
    ∃ m : Node, NodeFires i s s a f (movingSlots (a.heads (withPred f [.a]))) (toAll x) m 0 ∧ m.scale = 0x7F ∧
      m.ended = true := by
  have hrun := (scaledNode_runs he).trans (stdNode_of_meets h)
  rw [hm] at hrun
  let n : Node := { a.node with ended := a.node.ended || x.marker = Mk.eot }
  have hne : (Slot.a == Slot.a && decide (x.marker = Mk.scale)) = false := by rw [hx]; decide
  have hon : scaleMarks s f { a with node := n } (a.heads (withPred f [.a])) .a x =
      some (fire s { a with node := n } f (movingSlots (a.heads (withPred f [.a]))) (toAll x) { n with scale := 0x7F } 0) :=
    (if_neg (by rw [hne]; decide)).trans (if_pos hx)
  dsimp only at hrun
  rw [hon] at hrun
  refine ⟨{ n with scale := 0x7F }, .of_fire hrun (toAll_ready hr x), rfl, ?_⟩
  show (a.node.ended || decide (x.marker = Mk.eot)) = true
  simp [hx]

theorem scaled_data (hm : meets (a.heads (withPred f [.a])) = .data) {g' : Lane → Lane × FFlags}
    (hg : ∀ x, g a x = g' x) :
    let t := headOf (a.heads (withPred f [.a])) .a
    let on (k : Nat) : Bool := t.has k && predOk f (headOf (a.heads (withPred f [.a])) .p) k
    let out := laneToken t fun k => if on k then some (g' (t.at k)).1 else none
    NodeFires i s s a f (movingSlots (a.heads (withPred f [.a]))) [(0, out), (1, out)] (a.node.took t)
      (orFlags fun k => if on k then (g' (t.at k)).2 else 0) := by
  have hrun := (scaledNode_runs he).trans (stdNode_of_meets h)
  rw [hm] at hrun
  obtain rfl : g a = g' := funext hg
  exact .of_fire hrun (bothOut_ready hr _ _)

end

/-- The exponent of a scale's code within the range of a lane's values. -/
theorem scaleBy_e8m0 (e : FpEnv) (f : Fields) (x : Lane) (c : Byte) :
    scaleBy e f x (e8m0Exponent c) = rounded e (fmtOf f.ty) (modeOf e f)
      (if c = 0xFF then .nan else (e.value (fmtOf f.ty) x).scale ((c.toNat : Int) - 127), 0) := by
  have hlt := c.isLt
  unfold e8m0Exponent scaleBy rounded FpEnv.finish
  by_cases hc : c = 0xFF
  · simp [hc]
  · have hclamp : max (-4096) (min 4096 ((c.toNat : Int) - 127)) = (c.toNat : Int) - 127 := by omega
    rw [if_neg (by simpa using hc), if_neg hc]
    dsimp only
    rw [hclamp]
    simp

theorem scaled_code (v : Num) (c : Byte) : scaled v c.toNat = if c = 0xFF then .nan else v.scale ((c.toNat : Int) - 127) := by
  unfold scaled
  by_cases hc : c = 0xFF
  · subst hc
    rfl
  · have hne : c.toNat ≠ 0xFF := fun h => hc (BitVec.eq_of_toNat_eq h)
    rw [if_neg hne, if_neg hc]

theorem finish_rounded (e : FpEnv) (t : Fmt) (rm : RMode) (v : Num) : e.finish t rm v = rounded e t rm (v, 0) := by
  unfold rounded FpEnv.finish
  simp

/-! ### `hads` (R183) -/

/-- The partner of a lane 2^m away. -/
theorem hads_partner : ∀ m, m < 4 → ∀ k, k < 16 →
    (k &&& 2 ^ m = 0 ↔ k / 2 ^ m % 2 = 0) ∧ (k / 2 ^ m % 2 = 0 → k ^^^ 2 ^ m = k + 2 ^ m) ∧
      (k / 2 ^ m % 2 ≠ 0 → k ^^^ 2 ^ m = k - 2 ^ m) := by
  decide

/-- A lane that is not one of the sixteen carries no record. -/
theorem has_of_le {t : Token} {k : Nat} (hk : 16 ≤ k) : t.has k = false := by
  unfold Token.has bitAt
  exact BitVec.getLsbD_of_ge _ _ hk

theorem hads_fires {s : State} {a : At} {f : Fields} (h : NodeData s a f [.a]) (hr : a.room f) :
    let t := a.at f [.a] .a
    let e := a.env
    let on (k : Nat) : Bool := t.has k && predOk f (a.at f [.a] .p) k
    let x (k : Nat) : Num := if on k then e.value (fmtOf f.ty) (t.at k) else Num.zero false
    let d := 2 ^ (bits f.fn 3 2).toNat
    let g (k : Nat) : Lane × FFlags :=
      let p := if k / d % 2 = 0 then x k else x (k - d)
      let q := if k / d % 2 = 0 then x (k + d) else (x k).negate
      let v := Num.add (modeOf e f) p q
      rounded e (fmtOf f.ty) (modeOf e f) (if bitAt f.fn 5 then v.scale (-1) else v, invalid p q v)
    let out := laneToken t fun k => if on k then some (g k).1 else none
    NodeFires (.hads f) s s a f (a.moving f [.a]) [(0, out), (1, out)] (a.node.took t)
      (orFlags fun k => if on k then (g k).2 else 0) := by
  intro t e on x d g out
  let r (i : Nat) : Lane × FFlags :=
    let v := if (i &&& d) = 0 then sumIv (modeOf e f) (x i) (x (i ^^^ d)) else sumIv (modeOf e f) (x (i ^^^ d)) (x i).negate
    e.done (fmtOf f.ty) (modeOf e f) (if bitAt f.fn 5 then v.1.scale (-1) else v.1, v.2)
  have hrg (k : Nat) (hk : on k = true) : r k = g k := by
    have h16 : k < 16 := by
      refine Nat.not_le.1 fun hle => ?_
      have hhas : t.has k = true := (Bool.and_eq_true_iff.1 hk).1
      rw [has_of_le hle] at hhas
      cases hhas
    have hm : (bits f.fn 3 2).toNat < 4 := (bits f.fn 3 2).isLt
    obtain ⟨h0, h1, h2⟩ := hads_partner _ hm k h16
    show e.done _ _ _ = rounded e _ _ _
    by_cases hb : k / d % 2 = 0
    · have hx : k ^^^ d = k + d := h1 hb
      simp only [h0.2 hb, hb, hx, if_true, r, g, d] at *
      rfl
    · have hx : k ^^^ d = k - d := h2 hb
      have hnz : ¬(k &&& d) = 0 := fun hz => hb (h0.1 hz)
      rw [if_neg hnz, if_neg hb, if_neg hb, hx]
      rfl
  have hlane : (fun k => if on k then some (r k).1 else none) = fun k => if on k then some (g k).1 else none := by
    funext k
    split
    · next hk => rw [hrg k hk]
    · rfl
  have hflag : (fun k => if on k then (r k).2 else (0 : FFlags)) = fun k => if on k then (g k).2 else 0 := by
    funext k
    split
    · next hk => rw [hrg k hk]
    · rfl
  refine .of_stdNode (show _ = execHads f s from rfl) h ?_ (bothOut_ready hr _ _)
  show fire s a f (a.moving f [.a]) [(0, laneToken t fun k => if on k then some (r k).1 else none),
    (1, laneToken t fun k => if on k then some (r k).1 else none)] (a.node.took t)
    (orFlags fun k => if on k then (r k).2 else 0) = _
  rw [hlane, hflag]

/-- A marker that goes first is a free one. -/
theorem isFree_of_meets {hs : List Head} {o : Slot} {x : Token} (h : meets hs = .free o x) : isFree x.marker = true := by
  unfold meets at h
  dsimp only at h
  split at h
  · cases h
  · split at h
    · next o' t' ht' =>
      cases h
      unfold firstMark at ht'
      obtain ⟨hd, -, hb⟩ := List.exists_of_findSome?_eq_some ht'
      obtain ⟨t, -, ht⟩ := Option.bind_eq_some_iff.1 hb
      split at ht
      · next hf =>
        cases ht
        exact hf
      · cases ht
    · split at h
      · split_ifs at h
      · split_ifs at h

theorem sclx_ne_bdq {f g : Fields} : Instr.sclx f ≠ Instr.bdq g := nofun

/-- Settles O38: the groups of `bqnt`, the nodes with a scale, and one stage of a transform. -/
theorem scalesAndHadamard : Obligations.ScalesAndHadamard := by
  unfold Obligations.ScalesAndHadamard
  refine ⟨fun s a f ht hacc hr => ?_, fun s a f h hr => hads_fires h hr⟩
  intro n hs t taken e r size value xs scale plain closes
  refine ⟨fun hp hm hlen hpend => bqnt_gathers ht hp hm hlen hpend,
    fun hp hm hlen hpend => (bqnt_closes ht hr hp hlen hpend).1 hm,
    fun hp hm hlen hpend => (bqnt_closes ht hr hp hlen hpend).2 hm,
    fun hp x hm h0 hlen hpend => (bqnt_closes_short ht hr hp h0 hlen hpend x).1 hm,
    fun hp x hm hx h0 hlen hpend => (bqnt_closes_short ht hr hp h0 hlen hpend x).2 hm hx,
    fun hp u v rest hm hpend => (bqnt_emits ht hr hp hpend).1 hm,
    fun hp u v rest hm hlen hpend => (bqnt_emits ht hr hp hpend).2 hm hlen,
    fun x hm hx => bqnt_scale ht hm hx, fun i hpend hi => ?_⟩
  have h : NodeFree s a := ⟨ht, hacc, hpend⟩
  have marks {g : At → Lane → Lane × FFlags} (he : exec i s = scaledNode s f g) :
      (∀ x, meets hs = .free .a x → x.marker = Mk.scale →
        NodeFires i s s a f [.a] [] { n with scale := bits (x.at 0) 0 8 } 0) ∧
      (∀ x, meets hs = .free .p x → NodeFires i s s a f [.p] (toAll x) n 0) ∧
      (∀ x, meets hs = .positional x → x.marker = Mk.eot →
        ∃ m : Node, NodeFires i s s a f taken (toAll x) m 0 ∧ m.scale = 0x7F ∧ m.ended = true) := by
    refine ⟨fun x hm hx => (scaled_free h he hm).1 rfl hx, fun x hm => (scaled_free h he hm).2 rfl hr fun hx => ?_,
      fun x hm hx => scaled_end h hr he hm hx⟩
    have hfree := isFree_of_meets hm
    rw [hx] at hfree
    revert hfree
    decide
  obtain rfl | ⟨rfl, hfn⟩ := hi
  · have he : exec (.bdq f) s = execBdq f s := rfl
    unfold execBdq at he
    obtain ⟨m1, m2, m3⟩ := marks he
    refine ⟨m1, m2, m3, fun hm => ?_⟩
    intro g out
    refine scaled_data (g' := g) h hr he hm fun x => ?_
    refine (finish_rounded _ _ _ _).trans ?_
    rw [scaled_code]
    exact congrArg (fun v : Num => rounded a.env (fmtOf f.ty) (modeOf a.env f)
      (if a.node.scale = 0xFF then .nan else v.scale ((a.node.scale.toNat : Int) - 127), 0)) (if_pos rfl).symm
  · have he : exec (.sclx f) s = execSclx f s := rfl
    have hn : (bits f.fn 3 2).toNat = 3 := by rw [hfn]; rfl
    unfold execSclx at he
    rw [hn] at he
    obtain ⟨m1, m2, m3⟩ := marks he
    refine ⟨m1, m2, m3, fun hm => ?_⟩
    intro g out
    refine scaled_data (g' := g) h hr he hm fun x => ?_
    exact (scaleBy_e8m0 _ _ _ _).trans (congrArg (fun v : Num => rounded a.env (fmtOf f.ty) (modeOf a.env f)
      (if a.node.scale = 0xFF then .nan else v.scale ((a.node.scale.toNat : Int) - 127), 0)) (if_neg sclx_ne_bdq).symm)

end Sys2Proof.Machine
end

