-- ==== Sys2Proof/Proofs/NodeAccesses.lean ====
section
/-!
PROOFS. O39: the events that memory nodes place, from the lanes of their flights.
-/

namespace Sys2Proof.Machine

/-! ### Placing an event of any agent -/

/-- An event that is placed stands last in its agent's queue, under the next identity; the agent's earlier events change in
nothing but their order, and no byte that an agent reads changes. -/
theorem State.place_event (s : State) (ag : Nat) (e : Ev) :
    ∃ ps, ((s.place ag e).agent ag).q.getLast? = some { e with id := s.nextId, preds := ps } ∧
      ((s.place ag e).agent ag).q.length = (s.agent ag).q.length + 1 ∧
      (∀ b, b ≠ ag → (s.place ag e).agent b = s.agent b) ∧ (s.place ag e).mem = s.mem ∧
      (s.place ag e).nextId = s.nextId + 1 ∧ BytesStay s (s.place ag e) := by
  cases hb : isBlockKey ag with
  | false =>
    obtain ⟨h1, h2, h3, h4, h5, h6⟩ := State.place_placed s ag e hb
    refine ⟨e.preds, ?_, ?_, h5, h3, h2, h6⟩
    · rw [h4, List.getLast?_concat]
    · rw [h4, List.length_append]
      rfl
  | true =>
    unfold State.place
    dsimp only
    rw [if_pos hb]
    generalize addPast _ _ _ = x
    refine ⟨x.2, ?_, ?_, fun b hne => ?_, rfl, rfl, fun b key => ?_⟩
    · simp only [State.agent, State.setAgent, Tab.getD_put_self, List.getLast?_concat]
    · simp only [State.agent, State.setAgent, Tab.getD_put_self, List.length_append, List.length_map]
      rfl
    · exact State.agent_setAgent_ne _ _ _ _ hne
    · unfold State.readByte
      by_cases hag : b.key = ag
      · rw [hag]
        simp only [State.agent, State.setAgent, Tab.getD_put_self, List.foldl_map]
        congr 1
        funext v ev
        cases x.1.find? fun p => p.id = ev.id <;> rfl
      · exact congrArg (fun g : AgentSt => g.buf.foldl _ _) (State.agent_setAgent_ne s _ _ _ hag)

/-! ### A memory node takes a token -/

theorem takeSlots_links (os : List Slot) (pl : Plane) (n : Node) (slot : Nat) :
    takeSlots pl n slot os = { pl with links := (takeSlots pl n slot os).links } := by
  unfold takeSlots
  induction os generalizing pl with
  | nil => rfl
  | cons o rest ih =>
    rw [List.foldl_cons, ih]

/-- The node with the token that it has taken as the flight c. -/
def At.taken (a : At) (f : Fields) (ins : List Slot) (c : Flight) : At :=
  let pl := takeSlots a.pl a.node a.slot (a.moving f ins)
  let n := { a.node with cur := some c }
  { a with node := n, pl := { pl with nodes := Tab.put pl.nodes a.slot n } }

/-- The state in which it performs the flight's lanes. -/
def State.taking (s : State) (a : At) (f : Fields) (ins : List Slot) (c : Flight) : State :=
  { s with nextId := s.nextId + 1 }.setPlane a.plane (a.taken f ins c).pl

/-- The flight that a node begins from its heads, under the next identity. -/
def At.begins (a : At) (s : State) (f : Fields) (ins : List Slot) (begin_ : At → List Head → Flight) : Flight :=
  { begin_ a (a.heads (withPred f ins)) with id := s.nextId }

section
variable {s : State} {a : At} {f : Fields} {ins : List Slot}

theorem MemTurn.turn (h : MemTurn s a f ins) : NodeTurn s a := h.1

theorem MemTurn.fly (h : MemTurn s a f ins) : a.node.fly = [] := by
  obtain ⟨-, -, -, -, -, hfly, -, -⟩ := h
  exact hfly

/-- A memory node that can take a token of data begins a flight and performs its lanes (R188, R189). -/
theorem memNode_takes (h : MemTurn s a f ins) (rule : At → MemRule)
    (onMark : At → List Head → Slot → Token → Option Res) (begin_ : At → List Head → Flight) {hold : At → State → Bool}
    (hh : hold a s = false) :
    memNode s f ins rule onMark begin_ hold =
      (a.taken f ins (a.begins s f ins begin_)).goOn (s.taking a f ins (a.begins s f ins begin_)) (rule a)
        (a.begins s f ins begin_) := by
  obtain ⟨ht, hahead, hconfig, hcur, hwait, hfly, hload, hmeets⟩ := h
  have hphase := ht.running
  unfold memNode
  rw [asNode_of_turn ht]
  have hroom : decide (32 ≤ a.load s) = false := decide_eq_false (by omega)
  unfold State.taking At.taken At.begins
  simp only [hphase, hfly, hcur, hwait, hmeets, hconfig, hahead, hh, hroom, bne_self_eq_false, Option.isSome_none,
    Bool.or_self, Bool.false_eq_true, if_false, beq_iff_eq, reduceCtorEq, State.plane_setPlane_self]
  rfl

theorem At.ctx_taken (c : Flight) : (a.taken f ins c).ctx = a.ctx := by
  unfold At.taken At.ctx
  dsimp only
  rw [takeSlots_links]

theorem At.hit_taken (c : Flight) (va : Nat) (cells : List CellAt) (use : Use) :
    (a.taken f ins c).hit va cells use = a.hit va cells use := by
  unfold At.taken At.hit
  dsimp only
  rw [takeSlots_links]

/-- The event of an access whose translation is p. -/
def At.landing (a : At) (va : Nat) (p : Phys) (cells : List CellAt) (use : Use) (e : Ev) : Ev :=
  { e with
    va, ctx := a.ctx, req := a.req, slot := a.slot, watched := use == Use.write || use == Use.atomic
    pieces := cells.map fun c => { key := p.key + c.off, value := c.value, mask := c.mask }
    base := p.key, ord := Leaf.ord p.leaf, mkind := Leaf.mkind p.leaf, large := Leaf.lg p.leaf }

theorem translate_taking (c : Flight) (req board region ctx va : Nat) (use : Use) :
    (s.taking a f ins c).translate req board region ctx va use = s.translate req board region ctx va use := rfl

/-- An access that reaches p places its event. -/
theorem land_taking {va : Nat} {use : Use} {p : Phys} (hp : a.reaches s va use p) (c : Flight) (cells : List CellAt)
    (e : Ev) :
    (a.taken f ins c).land (s.taking a f ins c) va cells use e =
      .placed ((s.taking a f ins c).place a.agent (a.landing va p cells use e)) (s.nextId + 1) := by
  unfold At.reaches at hp
  have ht : (s.taking a f ins c).translate (a.taken f ins c).req ((a.taken f ins c).region / 32) (a.taken f ins c).region
      a.ctx va use = .ok p := hp
  unfold At.land
  rw [At.ctx_taken, ht]
  rfl

/-! ### The lanes of a flight -/

/-- Lanes at which nothing is done are passed. -/
theorem runLanes_skips (serial : Bool) (g : Flight → Nat → LaneStep) (k : Nat) (hk : k ≤ 16) (n fuel : Nat) (c : Flight)
    (hn : c.lane + n = k) (hskip : ∀ j, c.lane ≤ j → j < k → g { c with lane := j } j = .skip) :
    a.runLanes serial g (fuel + n) s c = a.runLanes serial g fuel s { c with lane := k } := by
  induction n generalizing c with
  | zero =>
    subst hn
    rfl
  | succ n ih =>
    have hlt : c.lane < k := by omega
    have h0 : g c c.lane = .skip := hskip c.lane (Nat.le_refl _) hlt
    have hstep : a.runLanes serial g (fuel + n + 1) s c = a.runLanes serial g (fuel + n) s { c with lane := c.lane + 1 } := by
      rw [At.runLanes, if_neg (by omega), h0]
    refine hstep.trans (ih _ ?_ fun j hj hjk => ?_)
    · dsimp only
      omega
    · dsimp only at hj
      exact hskip j (by omega) hjk

/-- Past the last lane the flight has run. -/
theorem runLanes_past (serial : Bool) (g : Flight → Nat → LaneStep) (fuel : Nat) (c : Flight) (h : 16 ≤ c.lane) :
    a.runLanes serial g fuel s c = (s, c, .done) := by
  cases fuel with
  | zero => rfl
  | succ fuel => rw [At.runLanes, if_pos h]

/-- A flight without a lane that does anything has run. -/
theorem runLanes_idle (serial : Bool) (g : Flight → Nat → LaneStep) (fuel : Nat) (c : Flight) (hf : 16 ≤ c.lane + fuel)
    (hskip : ∀ j, c.lane ≤ j → j < 16 → g { c with lane := j } j = .skip) :
    a.runLanes serial g fuel s c = (s, { c with lane := max c.lane 16 }, .done) := by
  by_cases h : 16 ≤ c.lane
  · rw [runLanes_past serial g fuel c h, max_eq_left h]
  · obtain ⟨m, rfl⟩ : ∃ m, fuel = m + (16 - c.lane) := ⟨fuel - (16 - c.lane), by omega⟩
    rw [runLanes_skips serial g 16 (Nat.le_refl _) _ m c (by omega) hskip, runLanes_past _ _ _ _ (Nat.le_refl 16),
      max_eq_right (by omega)]

/-- The event that a lane's access hands to the memory interface. -/
def At.laneEvent (a : At) (c : Flight) (size : Nat) (e : Ev) : Ev :=
  { e with
    size, pos := lanePos c.src.valid a.node.pos c.lane
    rids := if e.rids.isEmpty then c.laneIds c.lane else e.rids }

/-- A lane that places its access, and no watchpoint that it hits: the flight goes on. -/
theorem runLanes_places {serial : Bool} {g : Flight → Nat → LaneStep} {fuel : Nat} {c : Flight} (hl : c.lane < 16)
    {addr va size align : Nat} {cells : List CellAt} {use : Use} {e : Ev} {fill : Bool} {next : Nat}
    (hg : g c c.lane = .access addr va size align cells use e fill next) (hva : va < 2 ^ 52) (hal : va % align = 0)
    {t : State} {id : Nat} (hp : a.land s va cells use (a.laneEvent c size e) = .placed t id)
    (hhit : serial = true ∨ a.hit va cells use = false) :
    a.runLanes serial g (fuel + 1) s c =
      a.runLanes serial g fuel t
        { c with lane := next, waiting := if fill then setBit c.waiting c.lane true else c.waiting } := by
  have hw : (!serial && a.hit va cells use) = false := by
    obtain h | h := hhit <;> simp [h]
  unfold At.laneEvent at hp
  rw [At.runLanes, if_neg (by omega), hg]
  dsimp only
  rw [if_neg (by omega), if_neg (by simp [hal]), hp]
  dsimp only
  rw [hw]
  rfl

/-- The flight after the lanes of which only k had something to do. -/
def Flight.ran (c : Flight) (k next : Nat) (fill : Bool) : Flight :=
  { c with lane := max next 16, waiting := if fill then setBit c.waiting k true else c.waiting }

/-- A flight of which only lane k has something to do, an access that reaches its place, has run after it. -/
theorem runLanes_single {serial : Bool} {g : Flight → Nat → LaneStep} {c : Flight} {k : Nat} (hk : k < 16)
    (hc : c.lane = 0) (hbefore : ∀ j, j < k → g { c with lane := j } j = .skip)
    {addr va size align : Nat} {cells : List CellAt} {use : Use} {e : Ev} {fill : Bool} {next : Nat} (hnext : k < next)
    (hg : g { c with lane := k } k = .access addr va size align cells use e fill next) (hva : va < 2 ^ 52)
    (hal : va % align = 0) {t : State} {id : Nat}
    (hp : a.land s va cells use (a.laneEvent { c with lane := k } size e) = .placed t id)
    (hhit : serial = true ∨ a.hit va cells use = false)
    (hafter : ∀ w j, next ≤ j → j < 16 → g { c with lane := j, waiting := w } j = .skip) :
    a.runLanes serial g 16 s c = (t, c.ran k next fill, .done) := by
  obtain ⟨m, hm⟩ : ∃ m, 16 = m + 1 + k := ⟨15 - k, by omega⟩
  rw [hm, runLanes_skips serial g k (by omega) k (m + 1) c (by omega) fun j _ hj => hbefore j hj,
    runLanes_places (c := { c with lane := k }) hk hg hva hal hp hhit]
  refine runLanes_idle serial g m _ ?_ fun j hj hj' => hafter _ j hj hj'
  dsimp only
  omega

/-! ### The place of a flight that has run -/

theorem goOn_ran {r : MemRule} {c c' : Flight} {t : State} (hf : c.fault = none) (hl : c.lane = 0)
    (h : a.runLanes r.serial r.step 16 s c = (t, c', .done)) :
    a.goOn s r c =
      if r.serial && (c'.waiting != 0 || c'.got.isSome) then .next (t.setNode a { a.node with cur := some c' })
      else .next (t.setNode a { a.node.closed c' with cur := none, fly := a.node.fly ++ [c'] }) := by
  unfold At.goOn
  rw [hf]
  dsimp only
  rw [if_neg (by omega), h]

theorem setBit_ne_zero {x : BitVec 16} {k : Nat} (hk : k < 16) : (setBit x k true != 0) = true := by
  rw [bne_iff_ne]
  intro h
  have := bitAt_setBit x k k hk true
  rw [h] at this
  simp [bitAt] at this

theorem setBit_zero (k : Nat) : setBit 0#16 k true = 1#16 <<< k := by
  simp [setBit]

/-- A memory node that takes a token of which only lane k has an access, which reaches its place, places its event. The
flight is on its way then; where a value of its has to return and be judged first, it stays in work. -/
theorem memPlaces_of_lane {i : Instr} {onMark : At → List Head → Slot → Token → Option Res}
    {begin_ : At → List Head → Flight} {hold : At → State → Bool} {rule : At → MemRule} (h : MemTurn s a f ins)
    (he : exec i s = memNode s f ins rule onMark begin_ hold) (hh : hold a s = false) {c : Flight}
    (hc : a.begins s f ins begin_ = c) (hlane : c.lane = 0) (hfault : c.fault = none) (hgot : c.got = none)
    {k : Nat} (hk : k < 16) (hbefore : ∀ j, j < k → (rule a).step { c with lane := j } j = .skip)
    {addr va size align : Nat} {cells : List CellAt} {use : Use} {e : Ev} {fill : Bool} {next : Nat} (hnext : k < next)
    (hg : (rule a).step { c with lane := k } k = .access addr va size align cells use e fill next) (hva : va < 2 ^ 52)
    (hal : va % align = 0) {p : Phys} (hp : a.reaches s va use p)
    (hhit : (rule a).serial = true ∨ a.hit va cells use = false)
    (hafter : ∀ w j, next ≤ j → j < 16 → (rule a).step { c with lane := j, waiting := w } j = .skip)
    (hfill : c.waiting = 0) {ok : Ev → Flight → Prop} (hseq : e.seqNo = seqOf f)
    (hpark : e.parked = false)
    (hok : ∀ ps, ok { a.landing va p cells use ((a.taken f ins c).laneEvent { c with lane := k } size e) with
      id := s.nextId + 1, preds := ps } (c.ran k next fill)) :
    MemPlaces i s a f ins p va cells ((rule a).serial && fill) ok := by
  have hland := land_taking (f := f) (ins := ins) hp c cells ((a.taken f ins c).laneEvent { c with lane := k } size e)
  have hrun := runLanes_single (a := a.taken f ins c) hk hlane hbefore hnext hg hva hal hland
    (hhit.imp_right (At.hit_taken c va cells use).trans) hafter
  obtain ⟨ps, hlast, hlen, hother, hmem, -, hbytes⟩ := State.place_event (s.taking a f ins c) a.agent
    (a.landing va p cells use ((a.taken f ins c).laneEvent { c with lane := k } size e))
  obtain ⟨-, -, hplanes⟩ := State.place_same (s.taking a f ins c) a.agent
    (a.landing va p cells use ((a.taken f ins c).laneEvent { c with lane := k } size e))
  generalize (s.taking a f ins c).place a.agent _ = t at *
  have hpl : t.plane a.plane = (a.taken f ins c).pl := by
    rw [State.plane, hplanes]
    exact State.plane_setPlane_self _ _ _
  have hstays : BytesStay s t := (BytesStay.of_eq rfl rfl).trans hbytes
  have hid : c.id = s.nextId := by
    rw [← hc]
    rfl
  have hkept (n : Node) (hn : if ((rule a).serial && fill) = true then n.cur = some (c.ran k next fill) ∧ n.fly = []
      else n.cur = none ∧ n.fly = [c.ran k next fill])
      (hex : exec i s = .next (t.setNode (a.taken f ins c) n)) :
      MemPlaces i s a f ins p va cells ((rule a).serial && fill) ok := by
    refine ⟨_, _, c.ran k next fill, n, hex, hmem, hstays.trans (.of_eq rfl rfl), hother, hlast, hlen, rfl, rfl, rfl,
      rfl, hseq, hpark, rfl, rfl, ?_, hn, hid, hfault, ?_, hok ps⟩
    · refine (congrArg (fun x : Plane => Tab.find? x.nodes a.slot) (State.plane_setPlane_self _ _ _)).trans ?_
      exact Tab.find?_put_self _ _ _
    · refine (congrArg Plane.links (State.plane_setPlane_self t a.plane _)).trans ?_
      show (t.plane a.plane).links = _
      rw [hpl]
      rfl
  have hgo := he.trans (memNode_takes h rule onMark begin_ hh)
  rw [hc, goOn_ran hfault hlane hrun] at hgo
  have hwaits : ((rule a).serial && ((c.ran k next fill).waiting != 0 || (c.ran k next fill).got.isSome)) =
      ((rule a).serial && fill) := by
    unfold Flight.ran
    dsimp only
    rw [hgot]
    cases fill with
    | true => rw [if_pos rfl, setBit_ne_zero hk]; rfl
    | false => rw [if_neg (by decide), hfill]; rfl
  rw [hwaits] at hgo
  split at hgo
  · exact hkept _ (by rw [if_pos ‹_›]; exact ⟨rfl, h.fly⟩) hgo
  · refine hkept _ ?_ hgo
    rw [if_neg ‹_›]
    exact ⟨rfl, congrArg (· ++ [_]) h.fly⟩


/-! ### Live lanes of a new flight -/

theorem onlyLane.lt {g : Nat → Bool} {k : Nat} (h : onlyLane g k) : k < 16 := h.1

theorem onlyLane.live {g : Nat → Bool} {k : Nat} (h : onlyLane g k) : g k = true := by
  rw [h.2 k h.lt]
  simp

theorem onlyLane.dead {g : Nat → Bool} {j k : Nat} (h : onlyLane g k) (hj : j < 16) (hne : j ≠ k) : g j = false := by
  rw [h.2 j hj]
  simpa using hne

theorem onlyLane.bit_live {g : Nat → Bool} {k : Nat} (h : onlyLane g k) : bitAt (validBits g) k = true :=
  (bitAt_validBits g h.lt).trans h.live

theorem onlyLane.bit_dead {g : Nat → Bool} {j k : Nat} (h : onlyLane g k) (hj : j < 16) (hne : j ≠ k) :
    ¬bitAt (validBits g) j = true := by
  rw [bitAt_validBits g hj, h.dead hj hne]
  decide

theorem validBits_only {g : Nat → Bool} {k : Nat} (h : onlyLane g k) : validBits g = 1#16 <<< k := by
  refine BitVec.eq_of_getLsbD_eq fun j hj => ?_
  refine (bitAt_validBits g hj).trans ?_
  rw [h.2 j hj, BitVec.getLsbD_shiftLeft]
  by_cases hjk : j = k
  · subst hjk
    simp [hj]
  · by_cases hlt : j < k
    · simp [hjk, hlt]
    · have hsub : j - k ≠ 0 := by omega
      simp [hjk, hsub]

/-- The lowest live lane of a flight. -/
theorem Flight.low_eq {c : Flight} {g : Nat → Bool} {k : Nat} (hc : c.live = validBits g) (h : lowestLane g k) :
    c.low = k := by
  obtain ⟨hk, hgk, hbelow⟩ := h
  have hfind : (List.range 16).find? (fun i => bitAt c.live i) = some k := by
    rw [hc]
    refine List.find?_range_eq_some.2 ⟨(bitAt_validBits g hk).trans hgk, List.mem_range.2 hk, fun j hj => ?_⟩
    rw [bitAt_validBits g (by omega), hbelow j hj]
    rfl
  unfold Flight.low
  rw [hfind]
  rfl

/-- Only the lowest live lane of a span access has something to do. -/
theorem lowestLane.ne {g : Nat → Bool} {j k : Nat} {c : Flight} (hc : c.live = validBits g) (h : lowestLane g k)
    (hj : j ≠ k) : ¬j = c.low := by
  rwa [Flight.low_eq hc h]

/-- The lanes of a token of the lanes on which a condition holds. -/
theorem valid_laneToken_ite (t : Token) (g : Nat → Bool) (x : Nat → Lane) :
    (laneToken t fun j => if g j = true then some (x j) else none).valid = validBits g := by
  show validBits (fun j => (if g j = true then some (x j) else none).isSome) = validBits g
  congr 1
  funext j
  cases g j <;> rfl

/-! ### Accesses of single lanes (R189, R313) -/

theorem ld_places {k : Nat} {p : Phys} (h : MemTurn s a f [.a]) (hk : onlyLane (a.live f [.a]) k)
    (hva : a.base f + ((a.at f [.a] .a).at k).toNat < 2 ^ 52)
    (hal : (a.base f + ((a.at f [.a] .a).at k).toNat) % elemBytes f.ty = 0)
    (hp : a.reaches s (a.base f + ((a.at f [.a] .a).at k).toNat) .read p) :
    MemPlaces (.ld f) s a f [.a] p (a.base f + ((a.at f [.a] .a).at k).toNat) (readCells (elemBytes f.ty)) false
      fun e c =>
        e.kind = .read ∧ e.size = elemBytes f.ty ∧ e.acq = bitAt f.fn 2 ∧ e.tagRead = false ∧
          e.dest = .lane a.plane a.slot c.id k ∧ c.waiting = 1#16 <<< k ∧ c.hold = none ∧ c.tok.valid = 1#16 <<< k := by
  have he : exec (.ld f) s = execLd f s := rfl
  unfold execLd at he
  refine memPlaces_of_lane (k := k) (fill := true) (next := k + 1) h he rfl rfl rfl rfl rfl hk.lt
    (fun j hj => if_neg (hk.bit_dead (hj.trans hk.lt) hj.ne)) (Nat.lt_succ_self k)
    (if_pos hk.bit_live) hva hal hp (.inr rfl) (fun w j hj hj' => if_neg (hk.bit_dead hj' (by omega))) rfl
    rfl rfl fun ps => ⟨rfl, rfl, rfl, rfl, rfl, setBit_zero k, rfl, ?_⟩
  exact (valid_laneToken_ite _ _ _).trans (validBits_only hk)


theorem st_places {k : Nat} {p : Phys} (h : MemTurn s a f [.a, .b]) (hk : onlyLane (a.live f [.a, .b]) k)
    (hva : a.base f + ((a.at f [.a, .b] .a).at k).toNat < 2 ^ 52)
    (hal : (a.base f + ((a.at f [.a, .b] .a).at k).toNat) % elemBytes f.ty = 0)
    (hp : a.reaches s (a.base f + ((a.at f [.a, .b] .a).at k).toNat) .write p)
    (hhit : a.hit (a.base f + ((a.at f [.a, .b] .a).at k).toNat)
      (wholeCells (leBytes (elemBytes f.ty) ((a.at f [.a, .b] .b).at k).toNat)) .write = false) :
    MemPlaces (.st f) s a f [.a, .b] p (a.base f + ((a.at f [.a, .b] .a).at k).toNat)
      (wholeCells (leBytes (elemBytes f.ty) ((a.at f [.a, .b] .b).at k).toNat)) false
      fun e c =>
        e.kind = .write ∧ e.size = elemBytes f.ty ∧ e.rel = bitAt f.fn 2 ∧ e.tagWrite = none ∧ c.waiting = 0 ∧
          c.hold = none ∧ c.tok.valid = 1#16 <<< k ∧ c.tok.at k = (a.at f [.a, .b] .b).at k := by
  have he : exec (.st f) s = execSt f s := rfl
  unfold execSt at he
  refine memPlaces_of_lane (k := k) (fill := false) (next := k + 1) h he rfl rfl rfl rfl rfl hk.lt
    (fun j hj => if_neg (hk.bit_dead (hj.trans hk.lt) hj.ne)) (Nat.lt_succ_self k)
    (if_pos hk.bit_live) hva hal hp (.inr hhit) (fun w j hj hj' => if_neg (hk.bit_dead hj' (by omega))) rfl
    rfl rfl fun ps => ⟨rfl, rfl, rfl, rfl, rfl, rfl, ?_, ?_⟩
  · exact (valid_laneToken_ite _ _ _).trans (validBits_only hk)
  · exact (laneToken_ite (c := a.live f [.a, .b]) (x := (a.at f [.a, .b] .b).at) hk.lt).2.trans (if_pos hk.live)

theorem atom_places {k : Nat} {p : Phys}
    (hins : ins = if AtomOp.ofCode (bits f.fn 0 3) = .cas then [.a, .b, .c] else [.a, .b]) (h : MemTurn s a f ins)
    (hk : onlyLane (a.live f ins) k) (hva : a.base f + ((a.at f ins .a).at k).toNat < 2 ^ 52)
    (hal : (a.base f + ((a.at f ins .a).at k).toNat) % 4 = 0)
    (hp : a.reaches s (a.base f + ((a.at f ins .a).at k).toNat) .atomic p)
    (hhit : a.hit (a.base f + ((a.at f ins .a).at k).toNat) (readCells 4) .atomic = false) :
    MemPlaces (.atom f) s a f ins p (a.base f + ((a.at f ins .a).at k).toNat) (readCells 4) false
      fun e c =>
        e.kind = .rmw (.atomic (AtomOp.ofCode (bits f.fn 0 3)) (f.ty == .f32) (f.ty == .i32)
            (((a.at f ins .b).at k).setWidth 64) (((a.at f ins .c).at k).setWidth 64)) ∧
          e.size = 4 ∧ e.acq = bitAt f.fn 3 ∧ e.rel = bitAt f.fn 4 ∧ e.dest = .lane a.plane a.slot c.id k ∧
          c.waiting = 1#16 <<< k ∧ c.hold = none ∧ c.tok.valid = 1#16 <<< k := by
  have hcode (j : Nat) (hj : j < 2) : bitAt (bits f.fn 3 2) j = bitAt f.fn (3 + j) := by
    simp [bitAt, bits, hj]
  have he : exec (.atom f) s = execAtom f s := rfl
  unfold execAtom at he
  simp only [beq_iff_eq, ← hins] at he
  refine memPlaces_of_lane (k := k) (fill := true) (next := k + 1) h he rfl rfl rfl rfl rfl hk.lt
    (fun j hj => if_neg (hk.bit_dead (hj.trans hk.lt) hj.ne)) (Nat.lt_succ_self k)
    (if_pos hk.bit_live) hva hal hp (.inr hhit) (fun w j hj hj' => if_neg (hk.bit_dead hj' (by omega))) rfl
    rfl rfl fun ps => ⟨rfl, rfl, hcode 0 (by decide), hcode 1 (by decide), rfl, setBit_zero k, rfl, ?_⟩
  exact (valid_laneToken_ite _ _ _).trans (validBits_only hk)

/-! ### Accesses of spans (R190, R193, R325) -/

/-- The lanes at which a span access counts. -/
def At.spans (a : At) (f : Fields) (ins : List Slot) (j : Nat) : Bool :=
  predOk f (a.at f ins .p) j && (a.at f ins .a).has j

theorem liveLane_a (f : Fields) (ins : List Slot) (a : At) :
    liveLane f [.a] (a.heads (withPred f ins)) = a.spans f ins := by
  funext j
  simp only [liveLane, At.spans, List.all_cons, List.all_nil, Bool.and_true]
  rfl

theorem lds_places {k : Nat} {p : Phys} (h : MemTurn s a f [.a]) (hk : lowestLane (a.spans f [.a]) k)
    (hform : bits f.fn 0 2 = 0) (hva : a.base f + ((a.at f [.a] .a).at k).toNat < 2 ^ 52)
    (hal : (a.base f + ((a.at f [.a] .a).at k).toNat) % spanBytes f.ty = 0)
    (hp : a.reaches s (a.base f + ((a.at f [.a] .a).at k).toNat) .read p) :
    MemPlaces (.lds f) s a f [.a] p (a.base f + ((a.at f [.a] .a).at k).toNat) (readCells (spanBytes f.ty)) false
      fun e c =>
        e.kind = .read ∧ e.size = spanBytes f.ty ∧ e.dest = .span a.plane a.slot c.id ∧ c.waiting = 1#16 <<< k ∧
          c.hold = none := by
  have hacc : (bits f.fn 0 2 == 2) = false := by rw [hform]; decide
  have he : exec (.lds f) s = execLds f s := rfl
  unfold execLds at he
  simp only [hacc] at he
  refine memPlaces_of_lane (k := k) (fill := true) (next := 16) h he rfl rfl rfl rfl rfl hk.1
    (fun j hj => if_neg (hk.ne (congrArg validBits (liveLane_a f [.a] a)) hj.ne)) hk.1
    (if_pos (Flight.low_eq (congrArg validBits (liveLane_a f [.a] a)) hk).symm) hva hal hp (.inr rfl)
    (fun w j hj hj' => absurd hj' (by omega)) rfl rfl rfl fun ps => ⟨rfl, rfl, ?_, setBit_zero k, rfl⟩
  rfl

/-- A span access: its flight, its lowest live lane, and its address. -/
def At.spanFlight (a : At) (s : State) (f : Fields) (ins : List Slot) (tok : List Head → Token) : Flight :=
  a.begins s f ins fun _ hs => beginFlight hs (liveLane f [.a] hs) (tok hs)

theorem At.spanFlight_low {k : Nat} (tok : List Head → Token) (hk : lowestLane (a.spans f ins) k) :
    (a.spanFlight s f ins tok).low = k :=
  Flight.low_eq (congrArg validBits (liveLane_a f ins a)) hk

theorem At.spanFlight_address {k : Nat} (tok : List Head → Token) (hk : lowestLane (a.spans f ins) k) :
    a.base f + ((a.at f ins .a).at k).toNat =
      a.base f + ((a.spanFlight s f ins tok).src.at (a.spanFlight s f ins tok).low).toNat := by
  rw [At.spanFlight_low tok hk]
  rfl

/-- Below the lowest live lane a span access does nothing. -/
theorem At.spanFlight_below {j k : Nat} (tok : List Head → Token) (hk : lowestLane (a.spans f ins) k) (hj : j < k) :
    ¬j = (a.spanFlight s f ins tok).low := by
  rw [At.spanFlight_low tok hk]
  exact hj.ne

theorem ldt_places {k : Nat} {p : Phys} (h : MemTurn s a f [.a]) (hk : lowestLane (a.spans f [.a]) k)
    (hva : a.base f + ((a.at f [.a] .a).at k).toNat < 2 ^ 52)
    (hp : a.reaches s ((a.base f + ((a.at f [.a] .a).at k).toNat) / 64 * 64) .read p) :
    MemPlaces (.ldt f) s a f [.a] p ((a.base f + ((a.at f [.a] .a).at k).toNat) / 64 * 64) (readCells 64) true
      fun e c =>
        e.kind = .read ∧ e.size = 64 ∧ e.tagRead = true ∧ e.dest = .span a.plane a.slot c.id ∧
          c.waiting = 1#16 <<< k := by
  have he : exec (.ldt f) s = execLdt f s := rfl
  unfold execLdt at he
  let tok (hs : List Head) : Token := laneToken (headOf hs .a) fun i => if liveLane f [.a] hs i then some 0 else none
  rw [At.spanFlight_address (s := s) tok hk] at hva hp ⊢
  exact memPlaces_of_lane (k := k) (fill := true) (next := 16) h he rfl rfl rfl rfl rfl hk.1
    (fun j hj => if_neg (At.spanFlight_below (s := s) tok hk hj)) hk.1 (if_pos (At.spanFlight_low (s := s) tok hk).symm)
    ((Nat.div_mul_le_self _ 64).trans_lt hva) (Nat.mod_one _) hp (.inl rfl) (fun w j hj hj' => absurd hj' (by omega)) rfl rfl rfl
    fun ps => ⟨rfl, rfl, rfl, rfl, setBit_zero k⟩

theorem spanCells_congr {ty : ElemTy} {g g' : Nat → Bool} {x : Nat → Lane} (h : ∀ j, j < 16 → g j = g' j) :
    spanCells ty g x = spanCells ty g' x := by
  unfold spanCells
  split
  · refine List.filterMap_congr fun o ho => ?_
    have ho' : o < 8 := List.mem_range.1 ho
    dsimp only
    simp only [h (2 * o) (by omega), h (2 * o + 1) (by omega)]
  · rw [List.filter_congr fun j hj => h j (List.mem_range.1 hj)]

theorem sts_places {k : Nat} {p : Phys} (h : MemTurn s a f [.a, .b]) (hk : lowestLane (a.spans f [.a, .b]) k)
    (hform : bits f.fn 0 2 = 0) (hva : a.base f + ((a.at f [.a, .b] .a).at k).toNat < 2 ^ 52)
    (hal : (a.base f + ((a.at f [.a, .b] .a).at k).toNat) % spanBytes f.ty = 0)
    (hp : a.reaches s (a.base f + ((a.at f [.a, .b] .a).at k).toNat) .write p) {cells : List CellAt}
    (hcells : cells = spanCells f.ty (fun j => a.spans f [.a, .b] j && (a.at f [.a, .b] .b).has j)
      fun j => (a.at f [.a, .b] .b).at j)
    (hsome : ∃ j, j < 16 ∧ (a.spans f [.a, .b] j && (a.at f [.a, .b] .b).has j) = true)
    (hhit : a.hit (a.base f + ((a.at f [.a, .b] .a).at k).toNat) cells .write = false) :
    MemPlaces (.sts f) s a f [.a, .b] p (a.base f + ((a.at f [.a, .b] .a).at k).toNat) cells false
      fun e c =>
        e.kind = .write ∧ e.size = spanBytes f.ty ∧ e.rel = bitAt f.fn 2 ∧ e.tagWrite = none ∧ c.waiting = 0 ∧
          c.hold = none := by
  have he : exec (.sts f) s = execSts f s := rfl
  unfold execSts at he
  have hform0 : (bits f.fn 0 2).toNat = 0 := by rw [hform]; rfl
  simp only [hform0, OfNat.zero_ne_ofNat, if_false, decide_false, Bool.false_or, zero_ne_one] at he
  let tok (hs : List Head) : Token := (headOf hs .b).restrict (predOk f (headOf hs .p))
  have hput (j : Nat) (hj : j < 16) : (bitAt (a.spanFlight s f [.a, .b] tok).live j &&
      (a.spanFlight s f [.a, .b] tok).srcB.has j) = (a.spans f [.a, .b] j && (a.at f [.a, .b] .b).has j) := by
    refine congrArg (· && _) ?_
    exact (bitAt_validBits (liveLane f [.a] _) hj).trans (congrFun (liveLane_a f [.a, .b] a) j)
  have hany : ((List.range 16).any fun j => bitAt (a.spanFlight s f [.a, .b] tok).live j &&
      (a.spanFlight s f [.a, .b] tok).srcB.has j) = true := by
    obtain ⟨j, hj, hput'⟩ := hsome
    exact List.any_eq_true.2 ⟨j, List.mem_range.2 hj, (hput j hj).trans hput'⟩
  subst hcells
  rw [← spanCells_congr hput] at hhit ⊢
  refine memPlaces_of_lane (k := k) (fill := false) (next := 16) h he rfl rfl rfl rfl rfl hk.1
    (fun j hj => if_neg ?_) hk.1 (if_pos ?_)
    hva hal hp (.inr hhit) (fun w j hj hj' => absurd hj' (by omega)) rfl rfl rfl
    fun ps => ⟨rfl, rfl, rfl, rfl, rfl, rfl⟩
  · rw [Bool.and_eq_true, decide_eq_true_eq]
    exact fun hlow => At.spanFlight_below (s := s) tok hk hj hlow.1
  · rw [Bool.and_eq_true, decide_eq_true_eq]
    exact ⟨(At.spanFlight_low (s := s) tok hk).symm, hany⟩

/-- R325: an arrival makes its RMW at the barrier. -/
theorem arrv_arrives {k : Nat} {p : Phys} (hins : ins = if bitAt f.fn 2 then [.a, .b] else [.a]) (h : MemTurn s a f ins)
    (hk : lowestLane (a.spans f ins) k) (hform : bits f.fn 0 2 = 0)
    (hva : a.base f + ((a.at f ins .a).at k).toNat < 2 ^ 52)
    (hal : (a.base f + ((a.at f ins .a).at k).toNat) % 32 = 0)
    (hp : a.reaches s (a.base f + ((a.at f ins .a).at k).toNat) .atomic p) :
    MemPlaces (.arrv f) s a f ins p (a.base f + ((a.at f ins .a).at k).toNat) (readCells 32) true
      fun e c =>
        e.kind = .rmw (.arrive (if bitAt f.fn 2 then some (bits ((a.at f ins .b).at k) 0 16) else none)
            (if bitAt f.fn 3 then 1 else records c.live) a.ctx (s.seq (launcher a.plane a.pl)).branch) ∧
          e.size = 32 ∧ e.rel = false ∧ e.dest = .span a.plane a.slot c.id := by
  have he : exec (.arrv f) s = execArrv f s := rfl
  unfold execArrv at he
  have hrel : (bits f.fn 0 2 == 1) = false := by rw [hform]; decide
  have hwt : (bits f.fn 0 2 == 2) = false := by rw [hform]; decide
  simp only [hrel, hwt, ← hins, Bool.false_and, Bool.or_self, Bool.false_eq_true, if_false] at he
  let tok (hs : List Head) : Token := (headOf hs .a).restrict (predOk f (headOf hs .p))
  have hb : (a.at f ins .b).at k = (a.spanFlight s f ins tok).srcB.at (a.spanFlight s f ins tok).low := by
    rw [At.spanFlight_low tok hk]
    rfl
  rw [At.spanFlight_address (s := s) tok hk] at hva hal hp ⊢
  have hlow : ¬(k != (a.spanFlight s f ins tok).low) = true := by simp [At.spanFlight_low tok hk]
  have hplace (x : Bool) : ¬((a.base f + ((a.spanFlight s f ins tok).src.at (a.spanFlight s f ins tok).low).toNat) % 32 !=
      0 && x) = true := by
    rw [hal]
    exact Bool.false_ne_true
  rw [hb]
  exact memPlaces_of_lane (k := k) (fill := true) (next := 17) h he rfl rfl rfl rfl rfl hk.1
    (fun j hj => if_pos (bne_iff_ne.2 (At.spanFlight_below (s := s) tok hk hj))) (by have := hk.1; omega)
    ((if_neg hlow).trans (if_neg (hplace _)))
    hva hal hp (.inl rfl) (fun w j hj hj' => absurd hj' (by omega)) rfl rfl rfl fun ps => ⟨rfl, rfl, rfl, rfl⟩

/-- R325: `.wait` reads the barrier. -/
theorem arrv_waits {k : Nat} {p : Phys} (hins : ins = if bitAt f.fn 2 then [.a, .b] else [.a]) (h : MemTurn s a f ins)
    (hk : lowestLane (a.spans f ins) k) (hform : bits f.fn 0 2 = 2)
    (hva : a.base f + ((a.at f ins .a).at k).toNat < 2 ^ 52)
    (hal : (a.base f + ((a.at f ins .a).at k).toNat) % 32 = 0)
    (hp : a.reaches s (a.base f + ((a.at f ins .a).at k).toNat) .read p) :
    MemPlaces (.arrv f) s a f ins p (a.base f + ((a.at f ins .a).at k).toNat) (readCells 32) true
      fun e c => e.kind = .read ∧ e.size = 32 ∧ e.acq = true ∧ e.dest = .span a.plane a.slot c.id := by
  have he : exec (.arrv f) s = execArrv f s := rfl
  unfold execArrv at he
  have hwt : (bits f.fn 0 2 == 2) = true := by rw [hform]; decide
  simp only [hwt, ← hins, Bool.true_or, if_true] at he
  let tok (hs : List Head) : Token := (headOf hs .a).restrict (predOk f (headOf hs .p))
  rw [At.spanFlight_address (s := s) tok hk] at hva hal hp ⊢
  have hlow : ¬(k != (a.spanFlight s f ins tok).low) = true := by simp [At.spanFlight_low tok hk]
  have hplace (x : Bool) : ¬((a.base f + ((a.spanFlight s f ins tok).src.at (a.spanFlight s f ins tok).low).toNat) % 32 !=
      0 && x) = true := by
    rw [hal]
    exact Bool.false_ne_true
  exact memPlaces_of_lane (k := k) (fill := true) (next := 16) h he rfl rfl rfl rfl rfl hk.1
    (fun j hj => if_pos (bne_iff_ne.2 (At.spanFlight_below (s := s) tok hk hj))) hk.1
    ((if_neg hlow).trans (if_neg (hplace _)))
    hva hal hp (.inl rfl) (fun w j hj hj' => absurd hj' (by omega)) rfl rfl rfl fun ps => ⟨rfl, rfl, rfl, rfl⟩

end

/-- Settles O39: the access of each node's one lane, placed. -/
theorem nodeAccesses : Obligations.NodeAccesses := by
  unfold Obligations.NodeAccesses
  constructor
  · intro s a f ins k p h hk va n y z hva
    refine ⟨?_, ?_, ?_⟩
    · rintro rfl hal hp
      exact ld_places h hk hva hal hp
    · rintro rfl hal hp hhit
      exact st_places h hk hva hal hp hhit
    · rintro hins hal hp hhit
      exact atom_places hins h hk hva hal hp hhit
  · intro s a f ins k p h va n hk hva
    refine ⟨?_, ?_, ?_, ?_⟩
    · rintro rfl hform hal hp
      exact lds_places h hk hform hva hal hp
    · rintro rfl hform hal hp live cells hsome hhit
      exact sts_places h hk hform hva hal hp rfl hsome hhit
    · rintro rfl hp
      exact ldt_places h hk hva hp
    · rintro hins hal v
      exact ⟨fun hform hp => arrv_arrives hins h hk hform hva hal hp, fun hform hp => arrv_waits hins h hk hform hva hal hp⟩

end Sys2Proof.Machine
end

