-- ==== Sys2Proof/Proofs/Prefetch.lean ====
section
/-!
PROOFS. O40 is refuted: a walk that has found the leaf of a 2 MiB page serves the misses of other pages of its group.
-/

namespace Sys2Proof.Machine

/-! ### prf (O40)

An address that misses joins a walk of its group of 32 pages whose leaf has been found to be that of a 2 MiB page
(`Walk.serves`). The statement asks for a walk of the address's own page: the state that refutes it holds a walk of page 1
which has found its leaf, and a `prf` whose record has an address in page 2. -/

/-- A walk of page 1 of context 0, which has found the leaf of its group, for the M-square at slot 256. -/
def groupWalk : Walk :=
  { board := 0, ctx := 0, page := 1, granted := true, level := 5, table := 0, found := some 0, requesters := [reqMsq 0 0]
    dropped := false, copy := false, agent := 0 }

/-- A link into slot 256 with a token of one record, whose lane 0 holds an address in page 2. -/
def pageTwoLink : Link :=
  { src := 9, out := 0, dst := 256, opd := .a, cap := 2
    toks := [{ Token.empty with payload := vput Token.empty.payload 0 0x20000, valid := 1 }]
    sticky := false, era := 0, renew := none }

/-- The machine in the turn of a memory node at slot 256, while the walk is under way. -/
def joinState : State :=
  { State.reset with
    planes := [(0, { Plane.empty with ctx := some 0, nodes := [(256, Node.fresh 0)], links := [pageTwoLink] })]
    ctxs := [(0, Ctx.blank)], walks := [groupWalk], actor := .node 0 0 256 }

def joinNode : At := { region := 0, plane := 0, slot := 256, node := Node.fresh 0, pl := joinState.plane 0 }

/-- A `prf` without targets. -/
def joinFields : Fields :=
  { fn := 0, ty := .i32, tga := .absent, tgb := .absent, dpa := 0, dpb := 0, pm := .always, imm := 0 }

/-- The walks after an instruction. -/
def walksAfter : Res → List Walk
  | .next t => t.walks
  | _ => []

theorem joinNode_data : NodeData joinState joinNode joinFields [.a] := by
  refine ⟨⟨⟨0, 0, rfl, rfl⟩, rfl, rfl, rfl, rfl, rfl, rfl, rfl⟩, rfl, rfl, rfl⟩

theorem joinNode_room : joinNode.room joinFields := ⟨rfl, rfl, rfl⟩

theorem joinNode_walks : walksAfter (exec (.prf joinFields) joinState) = [groupWalk] := by
  decide

theorem joinNode_misses : joinState.translate joinNode.req (joinNode.region / 32) joinNode.region joinNode.ctx
    (joinNode.base joinFields + ((joinNode.at joinFields [.a] .a).at 0).toNat) .read = .miss := by
  decide

/-- Refutes O40: `prf` of an address whose page's group has a walk with its leaf found joins that walk, and no walk of the
address's own page is under way then. -/
theorem not_flightsLeave : ¬ Obligations.FlightsLeave := by
  unfold Obligations.FlightsLeave
  intro h
  obtain ⟨-, h⟩ := h
  obtain ⟨hprf, -⟩ := h joinState joinNode joinFields joinNode_room
  obtain ⟨u, t, ids, hfires, -, -, hmiss⟩ := hprf joinNode_data rfl
  obtain ⟨hexec, -⟩ := hfires
  obtain ⟨w, hw, -, hpage, -⟩ := hmiss 0 (by decide) (by decide) (by decide) joinNode_misses
  have hwalks : u.walks = [groupWalk] := by
    rw [← joinNode_walks, hexec, if_pos (by decide)]
    rfl
  rw [hwalks, List.mem_singleton] at hw
  rw [hw] at hpage
  exact absurd hpage (by decide)

end Sys2Proof.Machine
end

