-- ==== Sys2Proof/Proofs/ArrayRegisters.lean ====
section
/-!
PROOFS. O41: the instructions over the butterfly arrays' registers.
-/

namespace Sys2Proof.Machine

/-! ### The arrays of a region -/

section
variable (s : State) (r : Nat)

theorem State.arr_setArr_self {a : Nat} (h : a < 2) (b : BArray) : (s.setArr r a b).arr r a = b := by
  unfold State.arr State.setArr
  rw [State.region_setRegion_self]
  exact vget_vput_self _ _ _ _ h

theorem State.arr_setArr_ne {a c : Nat} (h : c ≠ a) (b : BArray) : (s.setArr r a b).arr r c = s.arr r c := by
  unfold State.arr State.setArr
  rw [State.region_setRegion_self]
  exact vget_vput_ne _ _ _ _ _ h

theorem SameButRegions.setArr (a : Nat) (b : BArray) : SameButRegions s (s.setArr r a b) := rfl

theorem ArrSel.lt_two {arr : ArrSel} {n : Nat} (h : n ∈ ArrSel.list arr) : n < 2 := by
  cases arr <;> simp [ArrSel.list] at h <;> omega

theorem ArrSel.nodup (arr : ArrSel) : (ArrSel.list arr).Nodup := by
  cases arr <;> decide

/-- Each of some arrays changed by g. -/
def State.mapArrs (g : BArray → BArray) (l : List Nat) : State :=
  l.foldl (fun s a => s.setArr r a (g (s.arr r a))) s

theorem SameButRegions.mapArrs (g : BArray → BArray) (l : List Nat) : SameButRegions s (s.mapArrs r g l) :=
  .foldl (fun s a => .setArr s r a (g (s.arr r a))) l s

/-- Their arrays change, and nothing else of the region. -/
theorem State.region_mapArrs (g : BArray → BArray) (l : List Nat) :
    (s.mapArrs r g l).region r = { s.region r with arrays := ((s.mapArrs r g l).region r).arrays } := by
  unfold State.mapArrs
  induction l generalizing s with
  | nil => rfl
  | cons a l ih =>
    rw [List.foldl_cons, ih]
    unfold State.setArr
    rw [State.region_setRegion_self]

theorem State.arr_mapArrs_other (g : BArray → BArray) {l : List Nat} {n : Nat} (h : n ∉ l) :
    (s.mapArrs r g l).arr r n = s.arr r n := by
  unfold State.mapArrs
  induction l generalizing s with
  | nil => rfl
  | cons a l ih =>
    rw [List.mem_cons, not_or] at h
    rw [List.foldl_cons, ih _ h.2, State.arr_setArr_ne s r h.1]

theorem State.arr_mapArrs (g : BArray → BArray) {l : List Nat} (hd : l.Nodup) (hl : ∀ a ∈ l, a < 2) {n : Nat} (h : n ∈ l) :
    (s.mapArrs r g l).arr r n = g (s.arr r n) := by
  induction l generalizing s with
  | nil => cases h
  | cons a l ih =>
    obtain ⟨ha, hd⟩ := List.nodup_cons.1 hd
    have hstep : s.mapArrs r g (a :: l) = (s.setArr r a (g (s.arr r a))).mapArrs r g l := rfl
    rw [hstep]
    by_cases hna : n = a
    · subst hna
      rw [State.arr_mapArrs_other _ r g ha, State.arr_setArr_self s r (hl n (by simp))]
    · have hn : n ∈ l := (List.mem_cons.1 h).resolve_left hna
      rw [ih _ hd (fun b hb => hl b (List.mem_cons_of_mem a hb)) hn, State.arr_setArr_ne s r hna]

end

/-! ### Columns -/

section
variable (b : BArray) (i : Nat) (x : Column)

theorem BArray.col_setCol_self : (b.setCol i x).col i = x := Tab.getD_put_self ..

theorem BArray.col_setCol_ne {j : Nat} (h : j ≠ i) : (b.setCol i x).col j = b.col j := Tab.getD_put_ne _ _ _ _ _ h

/-- A change that is marked for the image: the marks aside, it is the change. -/
theorem BArray.col_touch_self : (b.touch i x).col i =
    { x with
      dirty := ((b.touch i x).col i).dirty, dirtyAcc := ((b.touch i x).col i).dirtyAcc
      dirtyPair := ((b.touch i x).col i).dirtyPair } := by
  unfold BArray.touch
  dsimp only
  rw [BArray.col_setCol_self]

theorem BArray.col_touch_ne {j : Nat} (h : j ≠ i) : (b.touch i x).col j = b.col j := by
  unfold BArray.touch
  exact BArray.col_setCol_ne _ _ _ h

end

/-! ### bstg, bacc and brate (R259, R279, R282, R283) -/

section
variable {s : State} {q k : Nat} {a b : SReg}

theorem exec_bstg_legal {h : HReg} (hi : Issues s q [a, b]) (hq : q < 128) (hk : s.planeOf q = some k)
    (hw : Stage.legal ((s.seq q).read a) = true) :
    exec (.bstg h a) s =
      .next ((s.setPlane k { s.plane k with h := vput (s.plane k).h h.toNat ((s.seq q).read a) }).advance q 4) := by
  have ha : (s.seq q).ready a = true := hi.ready (by simp)
  refine (hi.runs false _).trans ?_
  simp only [ha, withPlane_of_planeOf hq hk, hw, Bool.not_true, Bool.false_eq_true, if_false]

theorem exec_bstg_illegal {h : HReg} (hi : Issues s q [a, b]) (hq : q < 128) (hk : s.planeOf q = some k)
    (hw : Stage.legal ((s.seq q).read a) = false) : exec (.bstg h a) s = .next (s.raise q .baval 0) := by
  have ha : (s.seq q).ready a = true := hi.ready (by simp)
  refine (hi.runs false _).trans ?_
  simp only [ha, withPlane_of_planeOf hq hk, hw, Bool.not_true, Bool.not_false, Bool.false_eq_true, if_false, if_true]

/-- Arrays that are not stopped and run no chain take what an instruction does to them. -/
theorem withArrays_idle {arr : ArrSel} (h : ∀ n ∈ ArrSel.list arr, (s.arr q n).stopped = false ∧ (s.arr q n).bind = none)
    (f : Res) : withArrays s q arr f = f := by
  have hstop : ((ArrSel.list arr).map (s.arr q)).any (·.stopped) = false := by
    rw [List.any_map, List.any_eq_false]
    exact fun n hn => by simp [(h n hn).1]
  have hbind : ((ArrSel.list arr).map (s.arr q)).any (·.bind.isSome) = false := by
    rw [List.any_map, List.any_eq_false]
    exact fun n hn => by simp [(h n hn).2]
  unfold withArrays
  dsimp only
  rw [hstop, hbind, if_neg Bool.false_ne_true, if_neg Bool.false_ne_true]

/-- An array with the accumulators of a column zero. -/
def BArray.zeroed (b : BArray) (c : Nat) : BArray :=
  b.touch c { b.col c with acc := Vector.replicate 64 (Vector.replicate 16 0) }

theorem exec_baccClr {arr : ArrSel} (hi : Issues s q [a, b]) (hq : q < 128) (hk : s.planeOf q = some k)
    (h : ∀ n ∈ ArrSel.list arr, (s.arr q n).stopped = false ∧ (s.arr q n).bind = none) (hc : ((s.seq q).read b).toNat < 64) :
    exec (.baccClr b arr) s =
      .next ((s.mapArrs q (fun x => x.zeroed ((s.seq q).read b).toNat) (ArrSel.list arr)).advance q 4) := by
  have hb : (s.seq q).ready b = true := hi.ready (by simp)
  refine (hi.runs false _).trans ?_
  simp only [hb, withPlane_of_planeOf hq hk, Nat.not_le.2 hc, withArrays_idle h, Bool.not_true, Bool.false_eq_true, if_false]
  rfl

theorem length_laneBytes (v : Vector Lane 16) : (laneBytes v).length = 64 := by
  unfold laneBytes
  simp [List.length_flatMap, length_leBytes]

/-- One line of `bacc.rd` is written: the sequencer stands, or goes on after the last. -/
theorem exec_baccRd {arr : ArrSel} {n i : Nat} {p : Phys} (hi : Issues s q [a, b]) (hq : q < 128) (hk : s.planeOf q = some k)
    (h : ∀ n ∈ ArrSel.list arr, (s.arr q n).stopped = false ∧ (s.arr q n).bind = none) (hn : ArrSel.list arr = [n])
    (hc : ((s.seq q).read b).toNat < 64) (ha : ((s.seq q).read a).toNat % 64 = 0) (hr : (s.seq q).rangeAt 0 = i)
    (hl : s.storesHeld q < 16)
    (hp : s.reach q (reqLoad q) (BitVec.ofNat 64 (((s.seq q).read a).toNat + 64 * i)) 64 .write = .to p) :
    let u := s.place q ((s.seqEvent q (BitVec.ofNat 64 (((s.seq q).read a).toNat + 64 * i)) 64 p .write).withBytes
      (laneBytes (vget ((s.arr q n).col ((s.seq q).read b).toNat).acc i Token.empty.payload)))
    exec (.baccRd a b arr) s = .next (if i < 63 then u.setSeq q ((s.seq q).setWait (.range (s.seq q).ip (i + 1)))
      else (u.setSeq q ((s.seq q).setWait .none)).advance q 4) := by
  intro u
  have hready : (s.seq q).allReady [a, b] = true := hi.2.2.1
  refine (hi.runs false _).trans ?_
  simp only [hready, withPlane_of_planeOf hq hk, ha, Nat.not_le.2 hc, withArrays_idle h, hr, hn, State.writeLine,
    Nat.not_le.2 hl, hp, Bool.not_true, Bool.false_eq_true, if_false, bne_self_eq_false, decide_false, Bool.or_self,
    List.head?_cons, Option.getD_some, State.seq_place]
  split <;> rfl

theorem exec_brate_user {unit : BitVec 4} (hi : Issues s q [a, b]) (hv : (s.seq q).priv = false) :
    exec (.brate a b unit) s = .next (s.raise q .priv 0) := by
  exact issueAs_priv hi.2.1 hv false _

theorem exec_brate {unit : BitVec 4} (hi : IssuesPriv s q [a, b]) (hn : ((s.seq q).read a).toNat ≤ 65535)
    (h256 : 256 ≤ ((s.seq q).read b).toNat) (hw : ((s.seq q).read b).toNat ≤ 65536) (hh : (s.region q).held = false) :
    exec (.brate a b unit) s =
      .next ((s.setRegion q { s.region q with
        limits := vput (s.region q).limits unit.toNat
          { a := ((s.seq q).read a).toNat, w := ((s.seq q).read b).toNat, admitted := 0
            set := (((s.seq q).read a).toNat, ((s.seq q).read b).toNat) } }).advance q 4) := by
  have hready : (s.seq q).allReady [a, b] = true := hi.1.2.2.1
  refine (hi.runs false _).trans ?_
  simp only [hready, Nat.not_lt.2 hn, Nat.not_lt.2 h256, Nat.not_lt.2 hw, hh, Bool.not_true, Bool.false_eq_true, if_false,
    decide_false, Bool.or_self]

/-! ### bwld and bchn (R260, R280, R281) -/

variable {e : Nat} {d : SReg} {arr : ArrSel} {sc : Scope}

theorem exec_bwld {col : BitVec 6} {off : BitVec 10} {n : CReg} (hi : Issues s q [d, a, b]) (hq : q < 128)
    (hk : s.planeOf q = some k) (he : (s.region q).freeEntry = some e) (hs : ((s.seq q).read a).toNat % 64 = 0)
    (hl : ((s.seq q).read b).toNat % 64 = 0) (hfit : 64 * off.toNat + ((s.seq q).read b).toNat ≤ 65536)
    (h0 : 0 < ((s.seq q).read b).toNat) (hn : (s.seq q).regBusy false n.toNat = false) :
    let src := ((s.seq q).read a).toNat
    let len := ((s.seq q).read b).toNat
    let slice (x : Nat) : Nat := sliceAddr (s.region q).wwin x col.toNat + 64 * off.toNat
    exec (.bwld sc d a b arr col off n) s = .next ((s.enterJob q e
      (Job.fresh (.bwld src len arr col.toNat off.toNat n.toNat (vget (s.plane k).c n.toNat 0))
        ({ lo := src, hi := src + len, wr := false } ::
          (ArrSel.list arr).map fun x => { lo := slice x, hi := slice x + len, wr := true })
        q (tokenReg (s.seq q) d) sc (s.ctxNo q) (k % 4) (s.envOf (s.ctxNo q))) (s.seq q).ip).advance q 8) := by
  intro src len slice
  refine (hi.runs false _).trans ?_
  simp only [hi.2.2.1, hn, withPlane_of_planeOf hq hk, hs, hl, Nat.not_lt.2 hfit, he, h0.ne', Bool.or_self, Bool.not_true,
    Bool.false_eq_true, if_false, bne_self_eq_false, decide_false]
  rfl

theorem exec_bchn {code : BitVec 3} {h : HReg} {c0 gm1 : BitVec 6} {ws : List Word} (hi : Issues s q [d, a, b]) (hq : q < 128)
    (hk : s.planeOf q = some k) (he : (s.region q).freeEntry = some e) (hsc : jobScopeOfCode code = some sc)
    (hidle : ∀ n ∈ ArrSel.list arr, (s.arr q n).stopped = false ∧ (s.arr q n).bind = none ∧
      chainFits (s.arr q n) c0.toNat ws = true)
    (hws : buildChain (s.plane k).h 65 h.toNat c0.toNat = some ws)
    (hspan : ∀ w ∈ ws, Stage.unit w = true → Stage.span w (gm1.toNat + 1) ≤ 64) :
    exec (.bchn code d h b arr c0 gm1) s =
      .next ((s.bindChain q e k (tokenReg (s.seq q) d) (bchnWords code d h b arr c0 gm1) arr sc c0.toNat (gm1.toNat + 1)
        (if b = 0 then none else some ((s.seq q).read b).toNat) ws).advance q 8) := by
  have hready : (s.seq q).allReady [d, b] = true := by
    have hd := hi.ready (r := d) (by simp)
    have hb := hi.ready (r := b) (by simp)
    simp [Seq.allReady, hd, hb]
  have hstop : ((ArrSel.list arr).map (s.arr q)).any (·.stopped) = false := by
    rw [List.any_map, List.any_eq_false]
    exact fun n hn => by simp [(hidle n hn).1]
  have hbind : ((ArrSel.list arr).map (s.arr q)).any (·.bind.isSome) = false := by
    rw [List.any_map, List.any_eq_false]
    exact fun n hn => by simp [(hidle n hn).2.1]
  have hfit : ((ArrSel.list arr).map (s.arr q)).any (fun x => !chainFits x c0.toNat ws) = false := by
    rw [List.any_map, List.any_eq_false]
    exact fun n hn => by simp [(hidle n hn).2.2]
  have hmost (m : Nat) (hm : 64 ≤ m) :
      (((ws.filter Stage.unit).map fun w => Stage.span w (gm1.toNat + 1)).any fun n => decide (m < n)) = false := by
    rw [List.any_map, List.any_eq_false]
    intro w hw
    obtain ⟨hw, hu⟩ := List.mem_filter.1 hw
    have := hspan w hw hu
    simpa using this.trans hm
  refine (hi.runs false _).trans ?_
  simp only [hready, withPlane_of_planeOf hq hk, hstop, hbind, hfit, hws, he, hsc, hmost 64 (Nat.le_refl _),
    hmost 8192 (by decide), Bool.not_true, Bool.false_and, Bool.or_self, Bool.false_eq_true, if_false, Option.getD_some]

end

/-- The columns of a chain with their words. -/
def BArray.wordsAt (b : BArray) (c0 : Nat) (l : List (Nat × Word)) : BArray :=
  l.foldl (fun b e => b.touch (c0 + e.1) { (b.col (c0 + e.1)).empties with word := e.2 }) b

theorem BArray.col_wordsAt_other (b : BArray) (c0 : Nat) {l : List (Nat × Word)} {j : Nat} (h : j ∉ l.map Prod.fst) :
    (b.wordsAt c0 l).col (c0 + j) = b.col (c0 + j) := by
  unfold BArray.wordsAt
  induction l generalizing b with
  | nil => rfl
  | cons e l ih =>
    rw [List.map_cons, List.mem_cons, not_or] at h
    rw [List.foldl_cons, ih _ h.2, BArray.col_touch_ne]
    omega

theorem BArray.col_wordsAt (b : BArray) (c0 : Nat) {l : List (Nat × Word)} (hd : (l.map Prod.fst).Nodup) {j : Nat} {w : Word}
    (h : (j, w) ∈ l) : ((b.wordsAt c0 l).col (c0 + j)).word = w ∧ ((b.wordsAt c0 l).col (c0 + j)).recv = 0 := by
  induction l generalizing b with
  | nil => cases h
  | cons e l ih =>
    rw [List.map_cons, List.nodup_cons] at hd
    obtain ⟨he, hd⟩ := hd
    have hstep : b.wordsAt c0 (e :: l) =
        (b.touch (c0 + e.1) { (b.col (c0 + e.1)).empties with word := e.2 }).wordsAt c0 l := rfl
    rw [hstep]
    obtain rfl | hl := List.mem_cons.1 h
    · rw [BArray.col_wordsAt_other _ c0 he, BArray.col_touch_self]
      exact ⟨rfl, rfl⟩
    · exact ih _ hd hl

/-- An array to which a chain has been bound holds its words, and no tokens. -/
theorem BArray.bindTo_spec (b : BArray) (k : BaBind) (ws : List Word) :
    (b.bindTo k ws).bind = some k ∧ (b.bindTo k ws).inq = [] ∧ (b.bindTo k ws).outq = [] ∧
      ∀ i w, ws[i]? = some w → ((b.bindTo k ws).col (k.c0 + i)).word = w ∧ ((b.bindTo k ws).col (k.c0 + i)).recv = 0 := by
  refine ⟨rfl, rfl, rfl, fun i w hw => ?_⟩
  have hcol : (b.bindTo k ws).col (k.c0 + i) = (b.wordsAt k.c0 ((List.range ws.length).zip ws)).col (k.c0 + i) := rfl
  rw [hcol]
  refine BArray.col_wordsAt b k.c0 ?_ ?_
  · rw [List.map_fst_zip (by simp)]
    exact List.nodup_range
  · exact mem_indexed.2 hw

/-! ### What the statement asks for -/

section
variable {s : State} {q k e : Nat} {d : SReg}

/-- A job that an instruction of 8 bytes enters, with the arrays changed after it. -/
theorem entered_mapArrs {j : Job} (hj : j.seq = q) (ht : j.token = tokenReg (s.seq q) d) (g : BArray → BArray) (l : List Nat) :
    let t := (((s.enterJob q e j (s.seq q).ip).mapArrs q g l).advance q 8)
    Tab.find? (t.region q).jobs e = some (enteredJob s q e j (s.seq q).ip) ∧
      (d ≠ 0 → (t.seq q).armed d = true) ∧ (∀ r, r ≠ d → (t.seq q).read r = (s.seq q).read r) ∧
      (t.seq q).ip = (s.seq q).ip + 8 ∧ t.mem = s.mem ∧ t.planes = s.planes := by
  intro t
  obtain ⟨hfind, hseq, hm, hpl⟩ := enterJob_spec s q e j (s.seq q).ip
  rw [hj, ht] at hseq
  obtain ⟨fm, -, fs, fpl⟩ := (SameButRegions.mapArrs (s.enterJob q e j (s.seq q).ip) q g l).fields
  have hregion := State.region_mapArrs (s.enterJob q e j (s.seq q).ip) q g l
  obtain ⟨harm, hread, hip⟩ := issued_advance (s := s) (d := d) (n := 8)
    (u := (s.enterJob q e j (s.seq q).ip).mapArrs q g l) ((congrArg (fun x => Tab.getD x q (Seq.reset q)) fs).trans hseq)
  refine ⟨?_, fun hd => (harm hd).1, hread, hip, fm.trans hm, fpl.trans hpl⟩
  exact (congrArg (fun x : Region => Tab.find? x.jobs e) hregion).trans hfind

/-- The instruction that binds a chain has entered its job, and its arrays hold the chain's words. -/
theorem bchn_enters {i : Instr} {sc : Scope} {words : Lane × Lane} {arr : ArrSel} {c0 g : Nat} {spill : Option Nat}
    {ws : List Word}
    (hx : exec i s = .next ((s.bindChain q e k (tokenReg (s.seq q) d) words arr sc c0 g spill ws).advance q 8)) :
    ∃ t j, exec i s = .next t ∧
      (Tab.find? (t.region q).jobs e = some j ∧ j.started = false ∧ j.seq = q ∧ j.scope = sc ∧
        j.serial = (s.region q).serial + 1 ∧ (d ≠ 0 → (t.seq q).armed d = true) ∧
        (∀ r, r ≠ d → (t.seq q).read r = (s.seq q).read r) ∧ (t.seq q).ip = (s.seq q).ip + 8 ∧ t.mem = s.mem ∧
        t.planes = s.planes) ∧ j.kind = .bchn arr ∧
      ∀ n ∈ ArrSel.list arr, (∃ x : BaBind, (t.arr q n).bind = some x ∧ x.c0 = c0 ∧ x.n = ws.length ∧
          x.g = g ∧ x.job = j.serial ∧ x.both = decide (arr = .ba01)) ∧
        (t.arr q n).inq = [] ∧ (t.arr q n).outq = [] ∧
        ∀ i w, ws[i]? = some w → ((t.arr q n).col (c0 + i)).word = w ∧ ((t.arr q n).col (c0 + i)).recv = 0 := by
  let j := Job.fresh (.bchn arr) (chainRanges (s.region q).wwin arr c0 g (spillSize ws g) spill ws) q (tokenReg (s.seq q) d) sc
    (s.ctxNo q) (k % 4) (s.envOf (s.ctxNo q))
  let b : BaBind :=
    { w1 := words.1, w2 := words.2, c0, n := ws.length, g, spill, z := spillSize ws g, both := arr == .ba01
      sfl := (s.envOf (s.ctxNo q)).sfl, rfl := (s.envOf (s.ctxNo q)).rfl
      job := ((s.enterJob q e j (s.seq q).ip).region q).serial, plane := k % 4, scope := sc }
  have hbind : s.bindChain q e k (tokenReg (s.seq q) d) words arr sc c0 g spill ws =
      (s.enterJob q e j (s.seq q).ip).mapArrs q (fun x => x.bindTo b ws) (ArrSel.list arr) := rfl
  rw [hbind] at hx
  obtain ⟨hfind, hrest⟩ := entered_mapArrs (s := s) (q := q) (e := e) (d := d) (j := j) rfl rfl (fun x => x.bindTo b ws)
    (ArrSel.list arr)
  refine ⟨_, _, hx, ⟨hfind, rfl, rfl, rfl, rfl, hrest⟩, rfl, fun n hn => ?_⟩
  have harr : ((((s.enterJob q e j (s.seq q).ip).mapArrs q (fun x => x.bindTo b ws) (ArrSel.list arr)).advance q 8).arr q n) =
      ((s.enterJob q e j (s.seq q).ip).arr q n).bindTo b ws :=
    State.arr_mapArrs _ q _ (ArrSel.nodup arr) (fun a ha => ArrSel.lt_two ha) hn
  rw [harr]
  obtain ⟨hb, hin, hout, hwords⟩ := BArray.bindTo_spec ((s.enterJob q e j (s.seq q).ip).arr q n) b ws
  refine ⟨⟨b, hb, rfl, rfl, rfl, ?_, rfl⟩, hin, hout, hwords⟩
  show ((s.enterJob q e j (s.seq q).ip).region q).serial = (s.region q).serial + 1
  rw [State.enterJob_eq]
  simp

end

/-- Settles O41. -/
theorem arrayRegisters : Obligations.ArrayRegisters := by
  unfold Obligations.ArrayRegisters
  constructor
  · intro s q k a b hi hq hk v x y
    refine ⟨fun h hw => ?_, fun h hw hinh => ?_, fun arr hidle => ⟨fun hc => ?_, ?_⟩, fun unit hp hinh => ?_, ?_⟩
    · exact .of_advance (exec_bstg_legal hi hq hk hw) rfl rfl rfl rfl rfl rfl
    · exact ⟨_, exec_bstg_illegal hi hq hk hw, s.raise_trapped q .baval 0 hinh⟩
    · obtain ⟨fm, fa, fs, fpl⟩ := (SameButRegions.mapArrs s q (fun x => x.zeroed y.toNat) (ArrSel.list arr)).fields
      have hseq : (s.mapArrs q (fun x => x.zeroed y.toNat) (ArrSel.list arr)).seq q = s.seq q :=
        congrArg (fun x => Tab.getD x q (Seq.reset q)) fs
      refine ⟨_, .of_advance (exec_baccClr hi hq hk hidle hc) ?_ ?_ ?_ ?_ fm fa, fpl, fs, fun n hn => ?_⟩
      · exact congrArg Seq.ip hseq
      · exact congrArg Seq.priv hseq
      · exact congrArg Seq.user hseq
      · exact congrArg Seq.bank hseq
      · rw [State.arr_mapArrs s q _ (ArrSel.nodup arr) (fun a ha => ArrSel.lt_two ha) hn]
        refine ⟨fun t j ht hj => ?_, fun c hc => BArray.col_touch_ne _ _ _ hc⟩
        unfold BArray.zeroed
        rw [BArray.col_touch_self]
        simp [vget, ht, hj]
    · intro i n p hn hc ha hr hi64 hl hp
      have hx := exec_baccRd hi hq hk hidle hn hc ha hr hl hp
      dsimp only at hx
      obtain ⟨hkeys, hvalues, -⟩ := pieces_withBytes (s := s) (q := q) (va := BitVec.ofNat 64 (x.toNat + 64 * i)) (p := p)
        (k := .write) (length_laneBytes (vget ((s.arr q n).col y.toNat).acc i Token.empty.payload))
      have hplaced := State.place_placed s q ((s.seqEvent q (BitVec.ofNat 64 (x.toNat + 64 * i)) 64 p .write).withBytes
        (laneBytes (vget ((s.arr q n).col y.toNat).acc i Token.empty.payload))) (isBlockKey_seq hi.1)
      by_cases h63 : i = 63
      · rw [if_neg (by omega)] at hx
        refine ⟨_, _, hx, (hplaced.setSeq rfl rfl rfl q _).setSeq rfl rfl rfl q _, rfl, hkeys, hvalues, ?_, ?_⟩
        · simp [RegsStay, State.advance]
        · rw [if_pos h63]
          simp only [State.advance, State.seq_setSeq_self, Seq.setWait_ip]
          exact ⟨rfl, Seq.wait_setWait _ _⟩
      · rw [if_pos (by omega)] at hx
        refine ⟨_, _, hx, hplaced.setSeq rfl rfl rfl q _, rfl, hkeys, hvalues, ?_, ?_⟩
        · simp [RegsStay]
        · rw [if_neg h63, State.seq_setSeq_self]
          exact ⟨Seq.setWait_ip _ _, Seq.wait_setWait _ _⟩
    · exact ⟨_, exec_brate_user hi hp, s.raise_trapped q .priv 0 hinh⟩
    · intro unit _ hn h256 hw hh hp
      exact .of_advance (exec_brate ⟨hi, hp⟩ hn h256 hw hh) rfl rfl rfl rfl rfl rfl
  · intro s q k e d a b arr sc hi hq hk he v src len entered
    refine ⟨?_, fun code h c0 gm1 ws hsc hidle hws hspan => ?_⟩
    · intro col off n hs hl hfit h0 hn slice
      obtain ⟨hfind, hrest⟩ := entered_mapArrs (s := s) (q := q) (e := e) (d := d)
        (j := Job.fresh (.bwld src len arr col.toNat off.toNat n.toNat (vget (s.plane k).c n.toNat 0))
          ({ lo := src, hi := src + len, wr := false } ::
            (ArrSel.list arr).map fun x => { lo := slice x, hi := slice x + len, wr := true })
          q (tokenReg v d) sc (s.ctxNo q) (k % 4) (s.envOf (s.ctxNo q))) rfl rfl id []
      exact ⟨_, _, exec_bwld hi hq hk he hs hl hfit h0 hn, ⟨hfind, rfl, rfl, rfl, rfl, hrest⟩, rfl, rfl⟩
    · exact bchn_enters (exec_bchn hi hq hk he hsc hidle hws hspan)

end Sys2Proof.Machine
end

