-- ==== Sys2Proof/Proofs/SteeringRouter.lean ====
section
/-!
PROOFS. O44: the steering instructions and the router.
-/

namespace Sys2Proof.Machine

/-! ### steer, stcnt and smenu (R304 to R307) -/

section
variable {s : State} {q k : Nat} {d a b : SReg} {grp : BitVec 2}

theorem exec_steer_fresh {win : BitVec 13} {batch : Bool} {en jn : BitVec 8} {p : Phys} (hi : Issues s q [d, a, b])
    (hq : q < 128) (hk : s.planeOf q = some k) (hs : (s.seq q).stage = .fresh)
    (he : ((s.plane k).group grp.toNat).ended = true) (h16 : ((s.seq q).read a).toNat % 16 = 0) (h4 : 4 ≤ win.toNat)
    (hw : win.toNat ≤ 4096) (hj : jn &&& ~~~en = 0) (hp : s.reach q (reqLoad q) ((s.seq q).read a) 16 .read = .to p) :
    exec (.steer grp a win batch en jn) s =
      .next ((s.place q { s.seqEvent q ((s.seq q).read a) 16 p .read with dest := .wait q, watched := false }).await q 8
        s.nextId none) := by
  have ha : (s.seq q).ready a = true := hi.ready (by simp)
  refine (hi.runs false _).trans ?_
  rw [withPlane_of_planeOf hq hk]
  simp only [hs, ha, he, h16, hj, hp, Nat.not_lt.2 h4, Nat.not_lt.2 hw, Bool.not_true, Bool.or_self, Bool.false_eq_true, if_false,
    bne_self_eq_false, decide_false]

/-- The trap of a `steer` whose operands or descriptor R305 excludes. -/
def State.steerTrap (s : State) (q : Nat) (a : SReg) : State :=
  (s.setSeq q ((s.seq q).setWait .none)).raise q .stval ((s.seq q).read a)

theorem exec_steer_refuses {win : BitVec 13} {batch : Bool} {en jn : BitVec 8} (hi : Issues s q [d, a, b])
    (hq : q < 128) (hk : s.planeOf q = some k) (hs : (s.seq q).stage = .fresh)
    (he : ((s.plane k).group grp.toNat).ended = true)
    (hbad : ((s.seq q).read a).toNat % 16 ≠ 0 ∨ win.toNat < 4 ∨ 4096 < win.toNat ∨ jn &&& ~~~en ≠ 0) :
    exec (.steer grp a win batch en jn) s = .next (s.steerTrap q a) := by
  have ha : (s.seq q).ready a = true := hi.ready (by simp)
  have hb : (((s.seq q).read a).toNat % 16 != 0 || decide (win.toNat < 4) || decide (4096 < win.toNat) ||
      jn &&& ~~~en != 0) = true := by
    simp only [Bool.or_eq_true, bne_iff_ne, decide_eq_true_eq, or_assoc]
    exact hbad
  refine (hi.runs false _).trans ?_
  rw [withPlane_of_planeOf hq hk]
  simp only [hs, ha, he, Bool.not_true, Bool.or_self, Bool.false_eq_true, if_false]
  rw [hb]
  rfl

theorem exec_steer_back {win : BitVec 13} {batch : Bool} {en jn : BitVec 8} {n : Nat} {bs : List Byte} {bad : Option Cause}
    {hit : Option (Nat × Word)} (hi : Issues s q [d, a, b])
    (hq : q < 128) (hk : s.planeOf q = some k) (hs : (s.seq q).stage = .back n bs bad hit) :
    exec (.steer grp a win batch en jn) s = .next (if steerOk en bs then
      (s.setPlane k ((s.plane k).setGroup grp.toNat (((s.plane k).group grp.toNat).steered win.toNat batch en jn bs))).doneWait
        q 8 hit else s.steerTrap q a) := by
  refine (hi.runs false _).trans ?_
  rw [withPlane_of_planeOf hq hk]
  simp only [hs]
  split <;> rfl

theorem steerTrap_spec (s : State) (q : Nat) (a : SReg) (hinh : EStat.inh (s.seq q).estat = false) :
    let t := s.steerTrap q a
    (t.seq q).fltcause.toNat = Cause.stval.code.toNat ∧ (t.seq q).fltaddr = (s.seq q).read a ∧
      (t.seq q).epc = BitVec.ofNat 64 ((s.seq q).ip.toNat % 2 ^ 52) ∧ t.planes = s.planes := by
  intro t
  obtain ⟨⟨hsame, -⟩, hregs⟩ := State.raise_trapped (s.setSeq q ((s.seq q).setWait .none)) q .stval ((s.seq q).read a)
    (by rw [State.seq_setSeq_self, Seq.setWait_estat]; exact hinh)
  obtain ⟨-, hepc, hcause, haddr, -⟩ := hregs
  rw [State.seq_setSeq_self, Seq.setWait_ip] at hepc
  exact ⟨hcause, haddr, hepc, (congrArg State.planes hsame).trans rfl⟩

/-- The group that a descriptor sets (R305). -/
theorem steered_spec (g : StGroup) (w : Nat) (batch : Bool) (en jn : BitVec 8) (bs : List Byte) {n : Nat} (hn : n < 8) :
    vget (g.steered w batch en jn bs).cost n 0 = ((bs[2 * n]?).getD 0).toNat ∧
      vget (g.steered w batch en jn bs).aft n 0 = (bs[2 * n + 1]?).getD 0 ∧ vget (g.steered w batch en jn bs).seen n 0 = 2 ∧
      vget (g.steered w batch en jn bs).drop n 0 = 1 ∧ vget (g.steered w batch en jn bs).out n 0 = 0 := by
  unfold StGroup.steered
  interval_cases n <;> exact ⟨rfl, rfl, rfl, rfl, rfl⟩

theorem exec_stcnt {j : BitVec 3} (hi : Issues s q [d, a, b]) (hq : q < 128) (hk : s.planeOf q = some k) :
    exec (.stcnt d grp j) s = .next (s.finish q d
      (BitVec.ofNat 32 (if bitAt ((s.plane k).group grp.toNat).en j.toNat then ((s.plane k).group grp.toNat).score j.toNat
          else 0) ++ BitVec.ofNat 16 (vget ((s.plane k).group grp.toNat).seen j.toNat 0) ++
        BitVec.ofNat 16 (vget ((s.plane k).group grp.toNat).drop j.toNat 0)) 4) := by
  have hd : (s.seq q).ready d = true := hi.ready (by simp)
  refine (hi.runs false _).trans ?_
  rw [withPlane_of_planeOf hq hk]
  simp only [hd, Bool.not_true, Bool.false_eq_true, if_false]

/-- The three fields of a word of counters. -/
theorem counters_fields (x : BitVec 32) (y z : BitVec 16) :
    bits (x ++ y ++ z : Word) 16 16 = y ∧ bits (x ++ y ++ z : Word) 0 16 = z ∧ bits (x ++ y ++ z : Word) 32 32 = x := by
  refine ⟨?_, ?_, ?_⟩
  · simp (disch := omega) only [bits, BitVec.extractLsb'_append_eq_of_le, BitVec.extractLsb'_append_eq_of_add_le,
      Nat.reduceSub]
    exact BitVec.extractLsb'_eq_self
  · simp (disch := omega) only [bits, BitVec.extractLsb'_append_eq_of_add_le]
    exact BitVec.extractLsb'_eq_self
  · simp (disch := omega) only [bits, BitVec.extractLsb'_append_eq_of_le, Nat.reduceSub]
    exact BitVec.extractLsb'_eq_self

theorem exec_stcntWr {j : BitVec 3} (hi : Issues s q [d, a, b]) (hq : q < 128) (hk : s.planeOf q = some k) :
    let x := (s.seq q).read a
    let g := (s.plane k).group grp.toNat
    exec (.stcntWr a grp j) s = .next
      (if (bits x 16 16).toNat = 0 ∨ g.w ≤ (bits x 16 16).toNat ∨ (bits x 16 16).toNat < (bits x 0 16).toNat then
        s.raise q .stval 0
      else (s.setPlane k ((s.plane k).setGroup grp.toNat
        { g with
          seen := vput g.seen j.toNat (bits x 16 16).toNat
          drop := vput g.drop j.toNat (bits x 0 16).toNat })).advance q 4) := by
  intro x g
  have ha : (s.seq q).ready a = true := hi.ready (by simp)
  refine (hi.runs false _).trans ?_
  rw [withPlane_of_planeOf hq hk]
  simp only [ha, Bool.not_true, Bool.false_eq_true, if_false, Nat.lt_one_iff, Bool.or_eq_true, decide_eq_true_eq, or_assoc]
  split <;> rfl

theorem exec_smenu {m : BitVec 2} (hi : Issues s q [d, a, b]) (hq : q < 128) (hk : s.planeOf q = some k) :
    let x := (s.seq q).read a
    exec (.smenu a b m) s = .next
      (if bits x 48 16 ≠ 0 ∨ (bits x 16 16).toNat < (bits x 0 16).toNat ∨ (bits x 32 16).toNat < (bits x 16 16).toNat then
        s.raise q .stval 0
      else (s.setPlane k { s.plane k with
        menus := vput (s.plane k).menus m.toNat (bits x 0 48, (s.seq q).read b) }).advance q 4) := by
  intro x
  have hready : (s.seq q).allReady [a, b] = true := by
    have ha := hi.ready (r := a) (by simp)
    have hb := hi.ready (r := b) (by simp)
    simp [Seq.allReady, ha, hb]
  refine (hi.runs false _).trans ?_
  rw [withPlane_of_planeOf hq hk]
  simp only [hready, Bool.not_true, Bool.false_eq_true, if_false, Bool.or_eq_true, decide_eq_true_eq, or_assoc, bne_iff_ne]
  split <;> rfl

end

/-! ### The router (R287 to R290, R294) -/

theorem foldl_put_getD {β : Type} (g : Nat → β → β) (d : β) {l : List Nat} (hl : l.Nodup) (m : Tab β) (j : Nat) :
    Tab.getD (l.foldl (fun m i => Tab.put m i (g i (Tab.getD m i d))) m) j d =
      if j ∈ l then g j (Tab.getD m j d) else Tab.getD m j d := by
  induction l generalizing m with
  | nil => rfl
  | cons i l ih =>
    obtain ⟨hi, hl⟩ := List.nodup_cons.1 hl
    rw [List.foldl_cons, ih hl]
    by_cases hj : j = i
    · subst hj
      simp [hi, Tab.getD_put_self]
    · simp [hj, Tab.getD_put_ne _ _ _ _ _ hj]

section
variable {s : State} {r p gi : Nat}

/-- One record of a batch group leaves for the operator that the router picks. -/
theorem exec_routerDispatch {x : StRec} {rest : List StRec} {j : Nat} (hstop : (s.plane (planeKey r p)).stopped = false)
    (hq : ((s.plane (planeKey r p)).group gi).queue = x :: rest) (hd : ((s.plane (planeKey r p)).group gi).draining = false)
    (hb : ((s.plane (planeKey r p)).group gi).batch = true) (ho : ((s.plane (planeKey r p)).group gi).outSum = 0)
    (hp : ((s.plane (planeKey r p)).group gi).pick x.pips = some j) (hop : (s.plane (planeKey r p)).hasOperator gi j = true) :
    let g := (s.plane (planeKey r p)).group gi
    exec (.routerDispatch r p gi) s = .next (s.setPlane (planeKey r p) ((s.plane (planeKey r p)).setGroup gi
      { g with
        queue := rest
        routed := (List.range 8).foldl
          (fun m i =>
            let l := ([(x, j)].filter fun y => y.2 = i).map Prod.fst
            if l.isEmpty then m else Tab.put m i (Tab.getD m i [] ++ [packRecords l]))
          g.routed
        out := vput g.out j (vget g.out j 0 + 1), away := g.away ++ [(x.rid, x.entry)] })) := by
  intro g
  change g.queue = _ at hq
  change g.pick _ = _ at hp
  have hready : ((s.plane (planeKey r p)).stopped || g.draining || (g.batch && g.outSum != 0)) = false := by
    rw [hstop, show g.draining = false from hd, show g.outSum = 0 from ho]
    simp
  have he : exec (.routerDispatch r p gi) s = execRouterDispatch r p gi s := rfl
  have hsent : (s.plane (planeKey r p)).decide gi g (g.queue.take (if g.batch then 1 else 16)) = [(x, j)] := by
    rw [show g.batch = true from hb, if_pos rfl, hq]
    simp only [List.take_succ_cons, List.take_zero, Plane.decide, hp, hop, if_true]
  unfold execRouterDispatch at he
  dsimp only at he
  rw [show ((s.plane (planeKey r p)).group gi) = g from rfl, hsent, hq, hready] at he
  exact he

theorem foldl_at {α β : Type} (f : Tab β → α → Tab β) (G : β → β) (d : β) (k : Nat) {i : α} {l : List α} (hl : l.Nodup)
    (hi : i ∈ l) (hne : ∀ m j, j ≠ i → f m j = m) (heq : ∀ m, Tab.getD (f m i) k d = G (Tab.getD m k d)) (m : Tab β) :
    Tab.getD (l.foldl f m) k d = G (Tab.getD m k d) := by
  induction l generalizing m with
  | nil => cases hi
  | cons j l ih =>
    obtain ⟨hj, hl⟩ := List.nodup_cons.1 hl
    rw [List.foldl_cons]
    by_cases hij : j = i
    · subst hij
      have hrest : ∀ (l : List α) m, j ∉ l → l.foldl f m = m := by
        intro l m hm
        induction l generalizing m with
        | nil => rfl
        | cons x l ih =>
          rw [List.mem_cons, not_or] at hm
          rw [List.foldl_cons, hne m x (Ne.symm hm.1), ih m hm.2]
      rw [hrest l _ hj, heq]
    · rw [hne m j hij, ih hl ((List.mem_cons.1 hi).resolve_left (Ne.symm hij))]

/-! ### Reports -/

/-- The record that a report gives back at a lane. -/
def StReport.record (x : StReport) (i : Nat) : StRec :=
  { value := x.tok.at i, pips := vget x.tok.pips i 0 ||| pip x.op, branch := x.branch
    entry := x.entry.lane x.tok i, rid := vget x.tok.rids i 0 }

theorem reportLanes_none (g : StGroup) (x : StReport) {l : List Nat} (h : ∀ j ∈ l, x.tok.has j = false) :
    g.reportLanes x l = (g, none) := by
  induction l with
  | nil => rfl
  | cons j l ih =>
    rw [StGroup.reportLanes, h j (by simp)]
    exact ih fun i hi => h i (List.mem_cons_of_mem j hi)

/-- A report of one record is that record's. -/
theorem reportLanes_only (g : StGroup) (x : StReport) {i : Nat} {l : List Nat} (hl : l.Nodup) (hi : i ∈ l)
    (hx : ∀ j ∈ l, x.tok.has j = decide (j = i)) :
    g.reportLanes x l = (g.report x (x.record i) (bitAt x.keep i)).elim (g, some i) fun h =>
      (if x.kind = 1 then h else h.back (x.record i).rid, none) := by
  induction l with
  | nil => cases hi
  | cons j l ih =>
    obtain ⟨hj, hl⟩ := List.nodup_cons.1 hl
    have hrest : ∀ n ∈ l, x.tok.has n = decide (n = i) := fun n hn => hx n (List.mem_cons_of_mem j hn)
    rw [StGroup.reportLanes]
    by_cases hij : j = i
    · subst hij
      have hthis : x.tok.has j = true := by
        rw [hx j (by simp)]
        simp
      have hnone (g : StGroup) : g.reportLanes x l = (g, none) := reportLanes_none g x fun n hn => by
        rw [hrest n hn]
        exact decide_eq_false fun h => hj (h ▸ hn)
      rw [hthis, if_neg (by decide)]
      simp only [hnone]
      show _ = (g.report x (x.record j) (bitAt x.keep j)).elim _ _
      unfold StReport.record
      cases g.report x _ (bitAt x.keep j) <;> rfl
    · have hthis : x.tok.has j = false := by
        rw [hx j (by simp)]
        exact decide_eq_false hij
      rw [hthis]
      exact ih hl ((List.mem_cons.1 hi).resolve_left (Ne.symm hij)) hrest

theorem range_only {t : Token} {i : Nat} (h : onlyLane t.has i) : ∀ j ∈ List.range 16, t.has j = decide (j = i) :=
  fun j hj => h.2 j (List.mem_range.1 hj)

/-- A plain report that the group owes is counted (R289). -/
theorem report_counted (g : StGroup) {x : StReport} (y : StRec) (keep : Bool) (hk : x.kind = 0) (ho : vget g.out x.op 0 ≠ 0) :
    g.report x y keep =
      some ((if keep then (g.counted x.op !keep).enqueue y else g.counted x.op !keep).halve x.op) := by
  unfold StGroup.report
  simp [hk, ho]

theorem report_owes_nothing (g : StGroup) {x : StReport} (y : StRec) (keep : Bool) (hk : x.kind = 0)
    (ho : vget g.out x.op 0 = 0) : g.report x y keep = none := by
  unfold StGroup.report
  simp [hk, ho]

/-- The counters after a report. -/
theorem counted_spec (g : StGroup) {j : Nat} (hj : j < 8) (y : StRec) (keep : Bool) :
    let h := (if keep then (g.counted j !keep).enqueue y else g.counted j !keep).halve j
    let seen := vget g.seen j 0 + 1
    let drop := vget g.drop j 0 + if keep then 0 else 1
    h.out = vput g.out j (vget g.out j 0 - 1) ∧ vget h.seen j 0 = (if seen = g.w then seen / 2 else seen) ∧
      vget h.drop j 0 = (if seen = g.w then drop / 2 else drop) := by
  intro h seen drop
  have hq (g : StGroup) : (g.enqueue y).out = g.out ∧ (g.enqueue y).seen = g.seen ∧ (g.enqueue y).drop = g.drop ∧
      (g.enqueue y).w = g.w := by
    unfold StGroup.enqueue
    dsimp only
    split <;> exact ⟨rfl, rfl, rfl, rfl⟩
  have hhalve (g : StGroup) : (g.halve j).out = g.out ∧
      vget (g.halve j).seen j 0 = (if vget g.seen j 0 = g.w then vget g.seen j 0 / 2 else vget g.seen j 0) ∧
      vget (g.halve j).drop j 0 = (if vget g.seen j 0 = g.w then vget g.drop j 0 / 2 else vget g.drop j 0) := by
    unfold StGroup.halve
    split
    · exact ⟨rfl, vget_vput_self _ _ _ _ hj, vget_vput_self _ _ _ _ hj⟩
    · exact ⟨rfl, rfl, rfl⟩
  have hseen : vget (g.counted j !keep).seen j 0 = seen := vget_vput_self _ _ _ _ hj
  have hdrop : vget (g.counted j !keep).drop j 0 = drop := by
    cases keep with
    | true => rfl
    | false => exact vget_vput_self _ _ _ _ hj
  obtain ⟨h1, h2, h3⟩ := hhalve (if keep then (g.counted j !keep).enqueue y else g.counted j !keep)
  have hkept : (if keep then (g.counted j !keep).enqueue y else g.counted j !keep).out = (g.counted j !keep).out ∧
      (if keep then (g.counted j !keep).enqueue y else g.counted j !keep).seen = (g.counted j !keep).seen ∧
      (if keep then (g.counted j !keep).enqueue y else g.counted j !keep).drop = (g.counted j !keep).drop ∧
      (if keep then (g.counted j !keep).enqueue y else g.counted j !keep).w = g.w := by
    cases keep with
    | true => exact hq _
    | false => exact ⟨rfl, rfl, rfl, rfl⟩
  obtain ⟨k1, k2, k3, k4⟩ := hkept
  rw [k2, k4, hseen] at h2
  rw [k2, k4, k3, hseen, hdrop] at h3
  exact ⟨h1.trans k1, h2, h3⟩

theorem exec_routerReport {x : StReport} {rest : List StReport} {i : Nat} (hstop : (s.plane (planeKey r p)).stopped = false)
    (hr : (s.plane (planeKey r p)).reports = x :: rest) (hx : onlyLane x.tok.has i) (hk : x.kind = 0) :
    let pl := s.plane (planeKey r p)
    let g := pl.group x.group
    let x' := { x with tok := x.tok.restrict fun j => decide (i ≤ j), entry := x.entry.lane x.tok i }
    exec (.routerReport r p) s = .next ((g.report x (x.record i) (bitAt x.keep i)).elim
      ((s.setPlane (planeKey r p) ({ pl with reports := x' :: rest }.setGroup x.group g)).routerFault (planeKey r p)
        (g.entered x i))
      fun h => s.setPlane (planeKey r p) ({ pl with reports := rest }.setGroup x.group (h.back (x.record i).rid))) := by
  intro pl g x'
  have he : exec (.routerReport r p) s = execRouterReport r p s := rfl
  unfold execRouterReport at he
  dsimp only at he
  rw [hr, hstop] at he
  rw [he]
  dsimp only
  have hkind : ¬x.kind = 1 := by omega
  rw [if_neg Bool.false_ne_true, reportLanes_only _ x List.nodup_range (List.mem_range.2 hx.1) (range_only hx)]
  simp only [hkind, if_false]
  show _ = Host.Outcome.next ((((s.plane (planeKey r p)).group x.group).report x (x.record i) (bitAt x.keep i)).elim _ _)
  cases ((s.plane (planeKey r p)).group x.group).report x (x.record i) (bitAt x.keep i) <;> rfl

theorem exec_groupEnd (hstop : (s.plane (planeKey r p)).stopped = false)
    (hd : ((s.plane (planeKey r p)).group gi).draining = false) (ho : (s.plane (planeKey r p)).groupOver gi = true) :
    let pl := s.plane (planeKey r p)
    let g := pl.group gi
    exec (.groupEnd r p gi) s = .next (s.setPlane (planeKey r p) (pl.setGroup gi
      { g.routeMark (pl.operators gi) (Token.mark Mk.eot) with
        outMarks := if pl.hasOutlet gi g.era then g.outMarks ++ [Token.mark Mk.eot] else g.outMarks
        entEot := false, ended := true, away := [] })) := by
  intro pl g
  have he : exec (.groupEnd r p gi) s = execGroupEnd r p gi s := rfl
  unfold execGroupEnd at he
  dsimp only at he
  rw [hstop, hd, ho] at he
  exact he

/-- The mark that the end of a group gives each of its operators. -/
theorem getD_routeMark (g : StGroup) (pl : Plane) (t : Token) {j : Nat} (hj : j < 8) (hop : pl.hasOperator gi j = true) :
    Tab.getD (g.routeMark (pl.operators gi) t).routed j [] = Tab.getD g.routed j [] ++ [t] := by
  have hmem : j ∈ pl.operators gi := List.mem_filter.2 ⟨List.mem_range.2 hj, hop⟩
  exact (foldl_put_getD (fun _ l => l ++ [t]) [] (List.nodup_range.filter _) g.routed j).trans (if_pos hmem)

end

/-- Settles O44: the instructions, and the router's three steps. -/
theorem steeringAndRouter : Obligations.SteeringAndRouter := by
  unfold Obligations.SteeringAndRouter
  constructor
  · intro s q k d a b grp j hi hq hk v x g
    refine ⟨fun win batch en jn => ⟨?_, ?_, ?_, ?_⟩, ?_, ?_, ?_, ?_⟩
    · intro p hs he h16 h4 hw hj hp
      obtain ⟨hpl, hregs, hip, -⟩ := placed_await (s := s)
        (e := { s.seqEvent q x 16 p .read with dest := .wait q, watched := false }) hi.1 8 none
      refine ⟨_, _, exec_steer_fresh hi hq hk hs he h16 h4 hw hj hp, hpl, rfl,
        keys_seqEvent (s := s) (q := q) (va := x) (k := .read), rfl, ?_⟩
      simp [State.await]
      rfl
    · intro n bs bad hs hok
      have hx := exec_steer_back (grp := grp) (win := win) (batch := batch) (en := en) (jn := jn) hi hq hk hs
      rw [if_pos hok] at hx
      obtain ⟨⟨honly, hbytes⟩, hregs, hip, hwait⟩ := doneWait_spec (s.setPlane k ((s.plane k).setGroup grp.toNat
        (((s.plane k).group grp.toNat).steered win.toNat batch en jn bs))) q 8
      have hpl : ∀ t : State, t.planes = (s.setPlane k ((s.plane k).setGroup grp.toNat
          (((s.plane k).group grp.toNat).steered win.toNat batch en jn bs))).planes →
          (t.plane k).group grp.toNat = ((s.plane k).group grp.toNat).steered win.toNat batch en jn bs := by
        intro t ht
        unfold State.plane
        rw [ht]
        unfold State.setPlane
        rw [Tab.getD_put_self]
        exact vget_vput_self _ _ _ _ grp.isLt
      refine ⟨_, hx, hip, hwait, hregs, (BytesStay.of_eq rfl rfl).trans hbytes, ?_⟩
      rw [hpl _ ((congrArg State.planes honly).trans rfl)]
      exact ⟨rfl, rfl, rfl, rfl, fun n hn => steered_spec _ _ _ _ _ _ hn, rfl, rfl, rfl⟩
    · intro hs he hinh hbad
      exact ⟨_, exec_steer_refuses hi hq hk hs he hbad, steerTrap_spec s q a hinh⟩
    · intro n bs bad hit hs hok hinh
      have hx := exec_steer_back (grp := grp) (win := win) (batch := batch) (en := en) (jn := jn) hi hq hk hs
      rw [if_neg (by rw [hok]; decide)] at hx
      exact ⟨_, hx, steerTrap_spec s q a hinh⟩
    · obtain ⟨h1, h2, h3⟩ := counters_fields (BitVec.ofNat 32 (if bitAt g.en j.toNat then g.score j.toNat else 0))
        (BitVec.ofNat 16 (vget g.seen j.toNat 0)) (BitVec.ofNat 16 (vget g.drop j.toNat 0))
      refine ⟨_, .of_finish (exec_stcnt hi hq hk), ?_, ?_, ?_⟩
      · exact (congrArg BitVec.toNat h1).trans (BitVec.toNat_ofNat _ _)
      · exact (congrArg BitVec.toNat h2).trans (BitVec.toNat_ofNat _ _)
      · exact (congrArg BitVec.toNat h3).trans (BitVec.toNat_ofNat _ _)
    · intro seen drop
      have hx := exec_stcntWr (grp := grp) (j := j) hi hq hk
      dsimp only at hx
      refine ⟨fun h1 hw hd => ?_, fun hbad hinh => ?_⟩
      · have hok : ¬(seen = 0 ∨ g.w ≤ seen ∨ seen < drop) := by omega
        exact .of_advance (hx.trans (congrArg _ (if_neg hok))) rfl rfl rfl rfl rfl rfl
      · exact ⟨_, hx.trans (congrArg _ (if_pos hbad)), s.raise_trapped q .stval 0 hinh⟩
    · intro m h0 h1 h2
      have hok : ¬(bits x 48 16 ≠ 0 ∨ (bits x 16 16).toNat < (bits x 0 16).toNat ∨
          (bits x 32 16).toNat < (bits x 16 16).toNat) := by
        rw [not_or, not_or]
        exact ⟨not_not.2 h0, Nat.not_lt.2 h1, Nat.not_lt.2 h2⟩
      exact .of_advance ((exec_smenu hi hq hk).trans (congrArg _ (if_neg hok))) rfl rfl rfl rfl rfl rfl
    · intro m hinh hbad
      exact ⟨_, (exec_smenu hi hq hk).trans (congrArg _ (if_pos hbad)), s.raise_trapped q .stval 0 hinh⟩
  · intro s r p gi hgi hstop k pl g
    refine ⟨?_, ?_, ?_⟩
    · intro x rest j hq hd hb ho hp hj hop
      refine ⟨_, _, exec_routerDispatch hstop hq hd hb ho hp hop, rfl, rfl, rfl, rfl, rfl, ?_, .of_eq rfl rfl⟩
      dsimp only
      refine foldl_at _ (· ++ [packRecords [x]]) [] j List.nodup_range (List.mem_range.2 hj) (fun m i hi => ?_) (fun m => ?_) _
      · simp [Ne.symm hi]
      · simp [Tab.getD_put_self]
    · intro x rest i hr hg hk hop hx
      have hx := exec_routerReport hstop hr hx hk
      dsimp only at hx
      subst hg
      refine ⟨fun ho => ?_, fun ho => ?_⟩
      · rw [report_counted _ _ _ hk ho] at hx
        obtain ⟨h1, h2, h3⟩ := counted_spec g hop (x.record i) (bitAt x.keep i)
        exact ⟨_, _, hx, rfl, h1, .of_eq rfl rfl, h2, h3⟩
      · rw [report_owes_nothing _ _ _ hk ho] at hx
        obtain ⟨hfr, -, -, hsys⟩ := fabricFault_spec (s.setPlane k ({ pl with
          reports := { x with tok := x.tok.restrict fun j => decide (i ≤ j), entry := x.entry.lane x.tok i } :: rest }.setGroup
            x.group g)) k (g.entered x i).bpc (g.entered x i).node (g.entered x i).pos .stgrp 0 0
        refine ⟨_, hx, hfr, ?_, fun e he => ?_⟩
        · refine (congrArg (fun v : SysRegs => v.fltcause.toNat) hsys).trans ?_
          rfl
        · have hent : g.entered x i = e.2 := by
            unfold StGroup.entered
            rw [hk, he]
            rfl
          rw [hent] at hsys ⊢
          exact ⟨congrArg SysRegs.fltpos hsys, congrArg SysRegs.fltbpc hsys⟩
    · intro hd ho
      refine ⟨_, _, exec_groupEnd hstop hd ho, rfl, rfl, rfl, rfl, fun j hj hop => ?_⟩
      exact getD_routeMark g pl (Token.mark Mk.eot) hj hop

end Sys2Proof.Machine
end

