-- ==== Sys2Proof/Proofs/RecordNodes.lean ====
section
/-!
PROOFS. O45: the nodes of steering, and the nodes over records.
-/

namespace Sys2Proof.Machine

/-! ### Nodes of the router (R287, R289, R297 to R299) -/

section
variable {s : State} {a : At} {f : Fields} {ins : List Slot}

/-- The node with a steering group changed in its plane. -/
def At.withGroup (a : At) (gi : Nat) (x : StGroup) : At := { a with pl := a.pl.setGroup gi x }

theorem foldl_enqueue_spec (l : List StRec) (g : StGroup) :
    (l.foldl StGroup.enqueue g).queue.length + (l.foldl StGroup.enqueue g).done.length =
        g.queue.length + g.done.length + l.length ∧
      (l.foldl StGroup.enqueue g).out = g.out ∧ (l.foldl StGroup.enqueue g).seen = g.seen ∧
      (l.foldl StGroup.enqueue g).en = g.en ∧ (∀ r ∈ g.queue, r ∈ (l.foldl StGroup.enqueue g).queue) ∧
      (∀ r ∈ g.done, r ∈ (l.foldl StGroup.enqueue g).done) ∧
      ∀ r ∈ l, if r.pips &&& g.en = g.en then r ∈ (l.foldl StGroup.enqueue g).done
        else r ∈ (l.foldl StGroup.enqueue g).queue := by
  induction l generalizing g with
  | nil => exact ⟨rfl, rfl, rfl, rfl, fun _ h => h, fun _ h => h, nofun⟩
  | cons x l ih =>
    have hone : (g.enqueue x).queue.length + (g.enqueue x).done.length = g.queue.length + g.done.length + 1 ∧
        (g.enqueue x).out = g.out ∧ (g.enqueue x).seen = g.seen ∧ (g.enqueue x).en = g.en ∧
        (∀ r ∈ g.queue, r ∈ (g.enqueue x).queue) ∧ (∀ r ∈ g.done, r ∈ (g.enqueue x).done) ∧
        if x.pips &&& g.en = g.en then x ∈ (g.enqueue x).done else x ∈ (g.enqueue x).queue := by
      unfold StGroup.enqueue
      dsimp only
      split
      · refine ⟨?_, rfl, rfl, rfl, fun _ h => h, fun r h => List.mem_append_left _ h, by simp⟩
        rw [List.length_append]
        rfl
      · refine ⟨?_, rfl, rfl, rfl, fun r h => List.mem_append_left _ h, fun _ h => h, by simp⟩
        rw [List.length_append, List.length_singleton]
        exact Nat.add_right_comm _ _ _
    obtain ⟨hlen, hout, hseen, hen, hq, hd, hx⟩ := hone
    obtain ⟨ilen, iout, iseen, ien, iq, id', ix⟩ := ih (g.enqueue x)
    rw [List.foldl_cons]
    refine ⟨?_, iout.trans hout, iseen.trans hseen, ien.trans hen, fun r h => iq r (hq r h), fun r h => id' r (hd r h), ?_⟩
    · rw [ilen, hlen, List.length_cons]
      omega
    · rw [hen] at ix
      intro r hr
      obtain rfl | hr := List.mem_cons.1 hr
      · split
        · exact id' r (by rwa [if_pos ‹_›] at hx)
        · exact iq r (by rwa [if_neg ‹_›] at hx)
      · exact ix r hr

/-- The records of a token as the router takes them. -/
theorem stRecords_spec (t : Token) (branch : Option Nat) (e : Entry) :
    (stRecords t branch e 0 fun _ => true).length = records t.valid ∧
      ∀ k, k < 16 → t.has k = true →
        ∃ r ∈ stRecords t branch e 0 fun _ => true, r.value = t.at k ∧ r.pips = vget t.pips k 0 := by
  unfold stRecords
  simp only [Bool.and_true]
  refine ⟨?_, fun k hk ht => ?_⟩
  · rw [List.length_map]
    exact (Nat.zero_add _).symm
  · refine ⟨_, List.mem_map_of_mem (List.mem_filter.2 ⟨List.mem_range.2 hk, ht⟩), rfl, ?_⟩
    simp

theorem exec_pipsEnt (hp : f.pm = .always) (h : NodeData s a f [.a]) (ha : a.pl.admits (groupOf f) = true)
    (hc : (a.pl.group (groupOf f)).closing = false) :
    exec (.pipsEnt f) s = fire s (a.withGroup (groupOf f)
        ((stRecords (a.at f [.a] .a) (a.branch s) a.entry 0 fun _ => true).foldl StGroup.enqueue
          ((a.pl.group (groupOf f)).opened a.node.era))) f [.a] [] (a.node.took (a.at f [.a] .a)) 0 := by
  obtain ⟨ht, -, -, hm⟩ := id h
  have hw : withPred f [.a] = [.a] := withPred_always hp _
  have he : exec (.pipsEnt f) s = execPipsEnt f s := rfl
  unfold execPipsEnt at he
  rw [asNode_of_turn ht] at he
  rw [hw] at hm
  dsimp only at he
  rw [ht.running, hm] at he
  dsimp only at he
  rw [stdNode_of_data h] at he
  rw [ha, hc] at he
  exact he

/-- What a source of the router emits. -/
theorem routerSource_emits {next : StGroup → Option (Token × StGroup)} {t : Token} {g : StGroup} (ht : NodeTurn s a)
    (he : a.node.ended = false) (hn : next (a.pl.group (groupOf f)) = some (t, g)) (hm : t.marker = Mk.data) :
    routerSource s f next = fire s (a.withGroup (groupOf f) g) f [] (toAll t) { a.node.took t with ended := false } 0 := by
  unfold routerSource
  rw [asNode_of_turn ht]
  have hd : ¬t.marker = Mk.drain := by rw [hm]; decide
  have hend : ¬t.marker = Mk.eot := by rw [hm]; decide
  simp only [ht.running, hn, hd, hend, he, if_false, decide_false, Bool.false_eq_true]
  rfl

theorem exec_sroute {y : Token} {rest : List Token} (ht : NodeTurn s a) (he : a.node.ended = false)
    (hr : Tab.getD (a.pl.group (groupOf f)).routed (operatorOf f) [] = y :: rest) (hm : y.marker = Mk.data) :
    exec (.sroute f) s = fire s (a.withGroup (groupOf f) { a.pl.group (groupOf f) with
        routed := Tab.put (a.pl.group (groupOf f)).routed (operatorOf f) rest }) f [] (toAll y)
      { a.node.took y with ended := false } 0 := by
  have hx : exec (.sroute f) s = execSroute f s := rfl
  unfold execSroute at hx
  refine hx.trans (routerSource_emits ht he ?_ hm)
  rw [hr]

theorem exec_pipsOut (ht : NodeTurn s a) (he : a.node.ended = false) (hm : (a.pl.group (groupOf f)).outMarks = [])
    (hd : (a.pl.group (groupOf f)).draining = false) (hne : (a.pl.group (groupOf f)).done ≠ []) :
    exec (.pipsOut f) s = fire s (a.withGroup (groupOf f) { a.pl.group (groupOf f) with
        done := (a.pl.group (groupOf f)).done.drop 16 }) f []
      (toAll (packRecords ((a.pl.group (groupOf f)).done.take 16)))
      { a.node.took (packRecords ((a.pl.group (groupOf f)).done.take 16)) with ended := false } 0 := by
  have hx : exec (.pipsOut f) s = execPipsOut f s := rfl
  unfold execPipsOut at hx
  refine hx.trans (routerSource_emits ht he ?_ rfl)
  generalize a.pl.group (groupOf f) = g at hm hd hne
  cases g
  dsimp only at hm hd hne
  subst hm hd
  obtain ⟨x, l, rfl⟩ := List.exists_cons_of_ne_nil hne
  rfl

theorem packRecords_spec (l : List StRec) {k : Nat} (hk : k < 16) :
    (packRecords (l.take 16)).has k = decide (k < l.length) ∧
      ∀ r, l[k]? = some r → (packRecords (l.take 16)).at k = r.value ∧ vget (packRecords (l.take 16)).pips k 0 = r.pips := by
  have htake : (l.take 16)[k]? = l[k]? := List.getElem?_take_of_lt hk
  refine ⟨?_, fun r hr => ⟨?_, ?_⟩⟩
  · refine (bitAt_validBits _ hk).trans ?_
    rw [List.length_take]
    congr 1
    rw [eq_iff_iff]
    omega
  · refine (vget_lanes _ _ hk).trans ?_
    rw [htake, hr]
  · refine (vget_lanes _ _ hk).trans ?_
    rw [htake, hr]

/-- The report that `sret` hands to the router. -/
def At.report (a : At) (s : State) (f : Fields) (ins : List Slot) (kind : Nat) : StReport :=
  { group := groupOf f, op := operatorOf f, kind, tok := a.at f ins .a
    keep := validBits fun i => (a.at f ins .b).has i && (a.at f ins .b).at i != 0, slot := a.slot, entry := a.entry
    branch := a.branch s, count := 0 }

theorem exec_sret (h : NodeData s a f ins) (hroom : a.pl.reportRoom a.slot f.dpa = true)
    (hc : f.fn = 0 ∧ ins = [.a, .b] ∨ f.fn = 1 ∧ ins = [.a] ∧ a.pl.admits (groupOf f) = true) :
    exec (.sret f) s = fire s { a with pl := { a.pl with reports := a.pl.reports ++ [a.report s f ins f.fn.toNat] } } f
      (a.moving f ins) [] (a.node.took (a.at f ins .a)) 0 := by
  have he : exec (.sret f) s = execSret f s := rfl
  unfold execSret at he
  obtain ⟨hf, rfl⟩ | ⟨hf, rfl, ha⟩ := hc
  · have hb : (f.fn == 1) = false := by rw [hf]; decide
    simp only [hb, Bool.false_eq_true, if_false, stdNode_of_data h, hroom, Bool.not_true, Bool.false_and, Bool.or_self] at he
    rw [he, hf]
    rfl
  · have hb : (f.fn == 1) = true := by rw [hf]; decide
    simp only [hb, if_true, stdNode_of_data h, hroom, ha, Bool.not_true, Bool.and_false, Bool.or_self, Bool.false_eq_true,
      if_false] at he
    rw [he, hf]
    rfl

/-! ### pips (R299) -/

/-- What a `pips` form makes of its token. -/
def pipsToken (a : At) (f : Fields) (value : Lane → Byte → Lane) (set : Byte → Byte) : Token :=
  let t := a.at f [.a] .a
  let on (k : Nat) : Bool := t.has k && predOk f (a.at f [.a] .p) k
  { t with
    payload := lanes fun k => if on k then value (t.at k) (vget t.pips k 0) else t.at k
    pips := lanes fun k => if on k then set (vget t.pips k 0) else vget t.pips k 0 }

theorem pipsForm_fires (h : NodeData s a f [.a]) (value : Lane → Byte → Lane) (set : Byte → Byte) :
    pipsForm s f value set = fire s a f (a.moving f [.a]) [(0, pipsToken a f value set), (1, pipsToken a f value set)]
      (a.node.took (a.at f [.a] .a)) 0 := by
  unfold pipsForm
  rw [stdNode_of_data h]
  rfl

theorem pipsToken_spec (value : Lane → Byte → Lane) (set : Byte → Byte) {k : Nat} (hk : k < 16) :
    let t := a.at f [.a] .a
    let on := t.has k && predOk f (a.at f [.a] .p) k
    (pipsToken a f value set).at k = (if on then value (t.at k) (vget t.pips k 0) else t.at k) ∧
      vget (pipsToken a f value set).pips k 0 = if on then set (vget t.pips k 0) else vget t.pips k 0 :=
  ⟨vget_lanes _ _ hk, vget_lanes _ _ hk⟩

/-! ### clsc (R300) -/

/-- The values of the records that `clsc` takes. -/
def At.closes (a : At) (f : Fields) : List Lane :=
  ((List.range 16).filter fun k => (a.at f [.a] .a).has k && predOk f (a.at f [.a] .p) k).map fun k => (a.at f [.a] .a).at k

theorem toRecords_values (t : Token) (g : Nat → Bool) :
    (t.restrict g).toRecords.map Record.value = ((List.range 16).filter fun k => t.has k && g k).map t.at := by
  unfold Token.toRecords
  rw [List.map_map]
  have hfilter : (List.range 16).filter (t.restrict g).has = (List.range 16).filter fun k => t.has k && g k :=
    List.filter_congr fun k hk => bitAt_validBits _ (List.mem_range.1 hk)
  rw [hfilter]
  rfl

theorem tokenOf_spec (l : List Record) {k : Nat} (hk : k < 16) :
    (tokenOf l).has k = decide (k < l.length) ∧ (tokenOf l).at k = (l.map Record.value).getD k 0 := by
  refine ⟨bitAt_validBits _ hk, (vget_lanes _ _ hk).trans ?_⟩
  rw [List.getD_eq_getElem?_getD, List.getElem?_map]
  cases l[k]? <;> rfl

/-- Without records of earlier tokens `clsc` packs those of its own. -/
theorem exec_clsc (h : NodeData s a f [.a]) (hb : a.node.buf = []) :
    ∃ l : List Record, l.map Record.value = a.closes f ∧ exec (.clsc f) s =
      if 16 ≤ l.length then
        fire s a f (a.moving f [.a]) (toAll (tokenOf (l.take 16)))
          { a.node.took (a.at f [.a] .a) with buf := if (l.drop 16).isEmpty then [] else [tokenOf (l.drop 16)] } 0
      else fire s a f (a.moving f [.a]) []
        { a.node.took (a.at f [.a] .a) with buf := if l.isEmpty then [] else [tokenOf l] } 0 := by
  refine ⟨((a.at f [.a] .a).restrict (predOk f (a.at f [.a] .p))).toRecords, toRecords_values _ _, ?_⟩
  have he : exec (.clsc f) s = execClsc f s := rfl
  unfold execClsc at he
  rw [asNode_of_turn h.1] at he
  dsimp only at he
  rw [h.1.running, hb] at he
  rw [he]
  dsimp only [List.head?]
  unfold execClsc.go
  rw [stdNode_of_data h]
  dsimp only
  rw [hb]
  rfl

/-! ### live (R380) -/

/-- A branch is live as a region knows it. -/
theorem liveIn_iff {c : Ctx} (hc : s.ctx? a.ctx = some c) (n : Nat) :
    s.liveIn a.region a.ctx n = true ↔ n < c.nbr ∧ ((c.branch n).st = 1 ∨
      ((c.branch n).st = 2 ∧ n ∈ c.marked ∧ (a.ctx, n) ∉ (s.region a.region).dead)) := by
  unfold State.liveIn Ctx.seemsLive
  rw [hc]
  simp only [Bool.and_eq_true, Bool.or_eq_true, decide_eq_true_eq, beq_iff_eq, List.contains_eq_mem, Bool.not_eq_true',
    decide_eq_false_iff_not, and_assoc]

/-- The lanes that `live` keeps. -/
def At.keeps (a : At) (s : State) (f : Fields) (ins : List Slot) (k : Nat) : Bool :=
  let n : Lane := if f.fn == 1 then (a.at f ins .a).at k &&& 0xFFFF else (a.at f ins .b).at k
  (a.at f ins .a).has k && predOk f (a.at f ins .p) k && (f.fn == 1 || (a.at f ins .b).has k) && bits n 16 16 == 0 &&
    s.liveIn a.region a.ctx (bits n 0 16).toNat

theorem At.keeps_iff (a : At) {c : Ctx} (hctx : s.ctx? a.ctx = some c)
    (hc : f.fn = 0 ∧ ins = [.a, .b] ∨ f.fn = 1 ∧ ins = [.a]) (k : Nat) :
    let x := a.at f ins .a
    let w := a.at f ins .b
    let alive (n : Nat) : Prop := n < c.nbr ∧ n < 2 ^ 16 ∧ ((c.branch n).st = 1 ∨
      ((c.branch n).st = 2 ∧ n ∈ c.marked ∧ (a.ctx, n) ∉ (s.region a.region).dead))
    a.keeps s f ins k = true ↔ x.has k = true ∧ predOk f (a.at f ins .p) k = true ∧
      (if f.fn = 1 then alive ((x.at k).toNat % 2 ^ 16) else w.has k = true ∧ alive (w.at k).toNat) := by
  intro x w alive
  have halive (n : Lane) : (bits n 16 16 == 0 && s.liveIn a.region a.ctx (bits n 0 16).toNat) = true ↔ alive n.toNat := by
    rw [Bool.and_eq_true, beq_iff_eq, liveIn_iff hctx]
    have hlow : (bits n 0 16).toNat = n.toNat % 2 ^ 16 := by simp [bits]
    have hhigh : bits n 16 16 = 0 ↔ n.toNat < 2 ^ 16 := by
      rw [← BitVec.toNat_inj]
      simp [bits, Nat.shiftRight_eq_div_pow]
      omega
    rw [hhigh, hlow]
    constructor
    · rintro ⟨h16, hn, hst⟩
      rw [Nat.mod_eq_of_lt h16] at hn hst
      exact ⟨hn, h16, hst⟩
    · rintro ⟨hn, h16, hst⟩
      rw [Nat.mod_eq_of_lt h16]
      exact ⟨h16, hn, hst⟩
  have hsplit (p q r : Bool) (n : Lane) : (p && q && r && bits n 16 16 == 0 &&
      s.liveIn a.region a.ctx (bits n 0 16).toNat) = true ↔ p = true ∧ q = true ∧ r = true ∧ alive n.toNat := by
    rw [Bool.and_assoc, Bool.and_eq_true, halive, Bool.and_eq_true, Bool.and_eq_true, and_assoc, and_assoc]
  unfold At.keeps
  obtain ⟨hf, -⟩ | ⟨hf, -⟩ := hc
  · have hb : (f.fn == 1) = false := by rw [hf]; decide
    have hne : ¬f.fn = 1 := by rw [hf]; decide
    dsimp only
    rw [hb, if_neg Bool.false_ne_true, hsplit, if_neg hne, Bool.false_or]
  · have hb : (f.fn == 1) = true := by rw [hf]; decide
    dsimp only
    rw [hb, if_pos rfl, hsplit, if_pos hf, Bool.true_or]
    have hlow : ((x.at k) &&& 0xFFFF).toNat = (x.at k).toNat % 2 ^ 16 := by
      rw [BitVec.toNat_and]
      exact Nat.and_two_pow_sub_one_eq_mod _ 16
    rw [hlow]
    simp [x]

theorem exec_live (h : NodeData s a f ins) (hc : f.fn = 0 ∧ ins = [.a, .b] ∨ f.fn = 1 ∧ ins = [.a]) (hr : a.room f) :
    let t := a.at f ins .a
    let out := laneToken t fun k => if a.keeps s f ins k then some (t.at k) else none
    let lost := records t.valid - records out.valid
    let v := a.fired f (a.moving f ins) [(0, out), (1, out)] (a.node.took t) 0
    ∃ u, exec (.live f) s = .next u ∧ BytesStay s u ∧
      u.plane a.plane = if lost = 0 then v else v.squashed a.node.era a.slot lost := by
  intro t out lost v
  have hready : ∀ o ∈ [(0, out), (1, out)], a.ready f o.1 = true := bothOut_ready hr out out
  obtain ⟨r0, r1, -⟩ := id hr
  have hfire := fire_of_ready (s := s) hready (a.moving f ins) (a.node.took t) 0
  have he : exec (.live f) s = execLive f s := rfl
  have hins : (if f.fn == 1 then [Slot.a] else [Slot.a, Slot.b]) = ins := by
    obtain ⟨hf, rfl⟩ | ⟨hf, rfl⟩ := hc
    · rw [hf]
      rfl
    · rw [hf]
      rfl
  unfold execLive at he
  dsimp only at he
  rw [hins, stdNode_of_data h] at he
  replace he : exec (.live f) s = if (lost != 0 && a.ready f 0 && a.ready f 1) = true then
      (match fire s a f (a.moving f ins) [(0, out), (1, out)] (a.node.took t) 0 with
        | .next u => .next (u.setPlane a.plane ((u.plane a.plane).squashed a.node.era a.slot lost))
        | x => x)
      else fire s a f (a.moving f ins) [(0, out), (1, out)] (a.node.took t) 0 := he
  rw [hfire] at he
  set w := if isMemorySlot a.slot then s.setPlane a.plane v else (s.setPlane a.plane v).charge a.region 19 with hw
  have hplane : w.plane a.plane = v := by
    rw [hw]
    split
    · exact State.plane_setPlane_self _ _ _
    · exact State.plane_setPlane_self _ _ _
  have hbytes : BytesStay s w := (fire_bytes s w a f _ _ _ _ hfire).1
  by_cases hl : lost = 0
  · rw [if_pos hl]
    rw [if_neg (by rw [hl]; simp)] at he
    exact ⟨w, he, hbytes, hplane⟩
  · rw [if_neg hl]
    rw [if_pos (by rw [r0, r1]; simpa using hl)] at he
    refine ⟨_, he, hbytes.trans (.of_eq rfl rfl), ?_⟩
    rw [State.plane_setPlane_self, hplane]

/-- Squashing records changes the groups alone, and OUT of the operator around the node falls. -/
theorem squashed_spec (pl : Plane) (era slot n : Nat) :
    (∃ gs, pl.squashed era slot n = { pl with groups := gs }) ∧
      ∀ g j rest, pl.within era (pl.nodes.length + 1) [(slot, false)] = (g, j, false) :: rest →
        vget ((pl.squashed era slot n).group g).out j 0 = vget (pl.group g).out j 0 - n := by
  have hput {β : Type} {m : Nat} (v : Vector β m) (i : Nat) (x d : β) : vget (vput v i x) i d = if i < m then x else d := by
    split
    · exact vget_vput_self _ _ _ _ ‹_›
    · simp [vget, *]
  refine ⟨?_, fun g j rest h => ?_⟩
  · unfold Plane.squashed
    split
    · exact ⟨_, rfl⟩
    · exact ⟨_, rfl⟩
  · unfold Plane.squashed
    rw [h]
    dsimp only
    rw [if_neg Bool.false_ne_true]
    unfold Plane.setGroup Plane.group
    dsimp only
    rw [hput]
    split
    · rw [hput]
      split
      · rfl
      · simp [vget, *]
    · have hg : vget pl.groups g StGroup.empty = StGroup.empty := by simp [vget, *]
      rw [hg]
      have hz : vget StGroup.empty.out j 0 = 0 := by
        by_cases hj : j < 8 <;> simp [StGroup.empty, vget, hj]
      rw [hz, Nat.zero_sub]

/-- Records of a token less those of a part of it. -/
theorem records_sub {t o : Token} (h : ∀ k, k < 16 → o.has k = true → t.has k = true) :
    records t.valid - records o.valid = ((List.range 16).filter fun k => t.has k && !o.has k).length := by
  have hcount (x : Token) : records x.valid = ((List.range 16).filter x.has).length := Nat.zero_add _
  rw [hcount, hcount, List.length_eq_length_filter_add (l := (List.range 16).filter t.has) o.has, List.filter_filter,
    List.filter_filter]
  have hpart : (List.range 16).filter (fun k => o.has k && t.has k) = (List.range 16).filter o.has :=
    List.filter_congr fun k hk => by
      cases ho : o.has k with
      | false => rfl
      | true => rw [h k (List.mem_range.1 hk) ho]; rfl
  have hrest : (List.range 16).filter (fun k => !o.has k && t.has k) = (List.range 16).filter fun k => t.has k && !o.has k :=
    List.filter_congr fun k _ => Bool.and_comm _ _
  rw [hpart, hrest, Nat.add_sub_cancel_left]

end

/-- Settles O45: each node's rule of data. -/
theorem steeringAndRecordNodes : Obligations.SteeringAndRecordNodes := by
  unfold Obligations.SteeringAndRecordNodes
  constructor
  · intro s a f ins hr gi op g t withGroup
    refine ⟨?_, ?_, ?_, ?_⟩
    · rintro rfl hp h ha hc
      obtain ⟨hlen, hout, hseen, -, -, -, hin⟩ := foldl_enqueue_spec
        (stRecords (a.at f [.a] .a) (a.branch s) a.entry 0 fun _ => true) ((a.pl.group (groupOf f)).opened a.node.era)
      obtain ⟨hrec, hrecs⟩ := stRecords_spec (a.at f [.a] .a) (a.branch s) a.entry
      refine ⟨_, .of_fire (exec_pipsEnt hp h ha hc) noOuts_ready, ?_, hout, hseen, fun k hk ht => ?_⟩
      · rw [hlen, hrec]
        rfl
      · obtain ⟨r, hr, hv, hpips⟩ := hrecs k hk ht
        exact ⟨r, hv, hpips, hin r hr⟩
    · intro y rest ht he hrouted hm
      exact .of_fire (exec_sroute ht he hrouted hm) (toAll_ready (a := withGroup _) hr y)
    · intro ht he hm hd hne
      exact ⟨_, .of_fire (exec_pipsOut ht he hm hd hne) (toAll_ready (a := withGroup _) hr _),
        fun k hk => packRecords_spec g.done hk⟩
    · rintro i h hroom hc
      have hi : i = .sret f ∧ (f.fn = 0 ∧ ins = [.a, .b] ∨ f.fn = 1 ∧ ins = [.a] ∧ a.pl.admits (groupOf f) = true) := by
        obtain ⟨hi, hc⟩ | ⟨hi, hc⟩ := hc
        · exact ⟨hi, .inl hc⟩
        · exact ⟨hi, .inr hc⟩
      clear hc
      obtain ⟨rfl, hc⟩ := hi
      refine ⟨_, .of_fire (exec_sret h hroom hc) noOuts_ready, rfl, rfl, rfl, rfl, fun k hk => ?_⟩
      refine (bitAt_validBits _ hk).trans ?_
      rw [Bool.eq_iff_iff]
      simp
  · intro s a f hr t on taken
    refine ⟨?_, ?_, ?_⟩
    · intro h i hi
      have hspec (value : Lane → Byte → Lane) (set : Byte → Byte) {k : Nat} (hk : k < 16) :=
        pipsToken_spec (a := a) (f := f) value set hk
      obtain rfl | rfl | rfl := hi
      · refine ⟨_, .of_fire (pipsForm_fires h (fun _ p => p.setWidth 32) id) (bothOut_ready hr _ _), rfl, rfl, fun k hk => ?_⟩
        obtain ⟨h1, h2⟩ := hspec (fun _ p => p.setWidth 32) id hk
        refine ⟨h1.trans ?_, h2.trans ?_⟩
        · simp [on, t]
        · simp [t]
      · refine ⟨_, .of_fire (pipsForm_fires h (fun x _ => x) (fun p => p ||| bits f.imm 0 8)) (bothOut_ready hr _ _), rfl, rfl,
          fun k hk => ?_⟩
        obtain ⟨h1, h2⟩ := hspec (fun x _ => x) (fun p => p ||| bits f.imm 0 8) hk
        refine ⟨h1.trans ?_, h2.trans ?_⟩
        · simp [t]
        · show (if on k = true then _ else _) = _
          cases on k <;> simp [t]
      · refine ⟨_, .of_fire (pipsForm_fires h (fun x _ => x) (fun p => p &&& ~~~(bits f.imm 0 8))) (bothOut_ready hr _ _),
          rfl, rfl, fun k hk => ?_⟩
        obtain ⟨h1, h2⟩ := hspec (fun x _ => x) (fun p => p &&& ~~~(bits f.imm 0 8)) hk
        refine ⟨h1.trans ?_, h2.trans ?_⟩
        · simp [t]
        · show (if on k = true then _ else _) = _
          cases on k <;> simp [t]
    · intro c ins h hctx hc x w alive keep
      have hc' : f.fn = 0 ∧ ins = [.a, .b] ∨ f.fn = 1 ∧ ins = [.a] := hc
      obtain ⟨u, hx, hbytes, hplane⟩ := exec_live h hc' hr
      have hkeep (k : Nat) : a.keeps s f ins k = true ↔ keep k := a.keeps_iff hctx hc' k
      have hout {k : Nat} (hk : k < 16) := laneToken_ite (t := x) (c := a.keeps s f ins) (x := x.at) hk
      have hsub : ∀ k, k < 16 → (laneToken x fun k => if a.keeps s f ins k then some (x.at k) else none).has k = true →
          x.has k = true := by
        intro k hk hk'
        rw [(hout hk).1, hkeep] at hk'
        exact hk'.1
      have hlost := records_sub hsub
      refine ⟨u, laneToken x fun k => if a.keeps s f ins k then some (x.at k) else none, hx, hbytes, fun k hk => ?_, ?_⟩
      · obtain ⟨h1, h2⟩ := hout hk
        rw [h1, h2]
        exact ⟨hkeep k, rfl⟩
      · intro v u'
        have hu : u' = _ := hplane
        obtain ⟨⟨gs, hgs⟩, hfalls⟩ := squashed_spec v a.node.era a.slot (records x.valid -
          records (laneToken x fun k => if a.keeps s f ins k then some (x.at k) else none).valid)
        refine ⟨?_, fun hall => ?_, fun g j rest hw => ?_⟩
        · rw [hu]
          split
          · exact ⟨v.groups, rfl⟩
          · exact ⟨gs, hgs⟩
        · rw [hu]
          refine if_pos (hlost.trans ?_)
          rw [List.length_eq_zero_iff, List.filter_eq_nil_iff]
          intro k hk
          have hk := List.mem_range.1 hk
          rw [(hout hk).1]
          cases hx : x.has k with
          | false => simp
          | true => simp [(hkeep k).2 (hall k hk hx)]
        · rw [hu, ← hlost]
          split
          · rename_i h0
            rw [h0, Nat.sub_zero]
          · exact hfalls g j rest hw
    · intro h hb mine
      obtain ⟨l, hl, hx⟩ := exec_clsc h hb
      have hlen : l.length = mine.length := by rw [← List.length_map (f := Record.value), hl]; rfl
      refine ⟨fun hlt hne => ?_, fun h16 => ?_⟩
      · rw [if_neg (by omega), if_neg (by
          rw [List.isEmpty_iff]
          rintro rfl
          exact hne (List.length_eq_zero_iff.1 hlen.symm))] at hx
        refine ⟨_, .of_fire hx noOuts_ready, fun k hk => ?_⟩
        obtain ⟨h1, h2⟩ := tokenOf_spec l hk
        rw [hlen] at h1
        rw [hl] at h2
        exact ⟨h1, h2⟩
      · rw [if_pos (by omega), List.drop_eq_nil_of_le (by omega), List.take_of_length_le (by omega)] at hx
        refine ⟨_, .of_fire hx (toAll_ready hr _), fun k hk => ?_⟩
        obtain ⟨h1, h2⟩ := tokenOf_spec l hk
        rw [hlen, h16] at h1
        rw [hl] at h2
        exact ⟨h1.trans (decide_eq_true hk), h2⟩

end Sys2Proof.Machine
end

