-- ==== Sys2Proof/Proofs/SetsAndJoins.lean ====
section
/-!
PROOFS. O46: a cycle of the comparators of the set instructions, and the join.
-/

namespace Sys2Proof.Machine

/-! ### A token whose one record stands in lane 0 -/

theorem has_of_valid_one {t : Token} (h : t.valid = 1) {k : Nat} (hk : k < 16) : t.has k = decide (k = 0) := by
  unfold Token.has
  rw [h]
  interval_cases k <;> rfl

/-- Of sixteen lanes only lane 0 changes anything. -/
theorem foldl_range_first {α : Type} {f : α → Nat → α} (h : ∀ x i, 0 < i → i < 16 → f x i = x) (x : α) :
    (List.range 16).foldl f x = f x 0 := by
  have hrest : ∀ (l : List Nat) (x : α), (∀ i ∈ l, 0 < i ∧ i < 16) → l.foldl f x = x := by
    intro l
    induction l with
    | nil => exact fun _ _ => rfl
    | cons i l ih =>
      intro x hl
      obtain ⟨h0, h16⟩ := hl i List.mem_cons_self
      rw [List.foldl_cons, h x i h0 h16]
      exact ih x fun j hj => hl j (List.mem_cons_of_mem i hj)
  rw [List.range_succ_eq_map, List.foldl_cons]
  refine hrest _ _ fun i hi => ?_
  obtain ⟨j, hj, rfl⟩ := List.mem_map.1 hi
  have := List.mem_range.1 hj
  exact ⟨Nat.succ_pos j, by omega⟩

theorem validBits_first {g : Nat → Bool} (h : ∀ i, 0 < i → i < 16 → g i = false) :
    validBits g = if g 0 then 1 else 0 := by
  unfold validBits
  rw [foldl_range_first fun x i h0 h16 => by rw [h i h0 h16]; rfl]
  cases g 0 <;> rfl

/-! ### One side with one token (R301) -/

section
variable {v : FibreSide} {x : Token} (ht : v.toks = [x]) (hm : x.marker = Mk.data) (hv : x.valid = 1)
  (hp : vget v.taken 0 0 = vget v.passed 0 0)
include ht hm

theorem rowOf_side : rowOf v.toks = [x] := by
  rw [ht]
  unfold rowOf
  simp [hm]

include hv

theorem laneTok_side {i : Nat} (hi : i < 16) (k : Nat) :
    laneTok (rowOf v.toks) i k = if i = 0 ∧ k = 0 then some (0, x) else none := by
  rw [rowOf_side ht hm]
  have hx : indexed [x] = [(0, x)] := rfl
  unfold laneTok
  rw [hx]
  have hhas := has_of_valid_one hv hi
  by_cases h0 : i = 0
  · rw [List.filter_cons_of_pos (by rw [hhas]; exact decide_eq_true h0), List.filter_nil]
    cases k with
    | zero => rw [if_pos ⟨h0, rfl⟩]; rfl
    | succ k => rw [if_neg (by simp)]; rfl
  · rw [List.filter_cons_of_neg (by rw [hhas]; simpa using h0), List.filter_nil, if_neg (by simp [h0])]
    rfl

theorem next_other {i : Nat} (h0 : 0 < i) (hi : i < 16) : v.next i = none := by
  unfold FibreSide.next
  rw [laneTok_side ht hm hv hi, if_neg (by omega)]
  rfl

include hp

theorem next_first : v.next 0 = some (x.record 0) := by
  unfold FibreSide.next
  rw [laneTok_side ht hm hv (by decide), if_pos ⟨rfl, by omega⟩]
  rfl

omit ht hm in
theorem holdsHead_first : v.holdsHead x = true := by
  refine List.any_eq_true.2 ⟨0, by decide, ?_⟩
  rw [has_of_valid_one hv (by decide), hp]
  simp

theorem bad_none {ty : ElemTy} (hl : vget v.passed 0 0 < 65534)
    (hs : vget v.passed 0 0 = 0 ∨ setLess ty (vget v.last 0 0) (x.at 0) = true) :
    ((List.range 16).findSome? fun i => (v.bad ty i).map fun c => (i, c)) = none := by
  rw [List.findSome?_eq_none_iff]
  intro i hi
  have hi := List.mem_range.1 hi
  unfold FibreSide.bad
  by_cases h0 : i = 0
  · subst h0
    rw [next_first ht hm hv hp]
    dsimp only
    have hval : (x.record 0).value = x.at 0 := rfl
    rw [if_neg ?_, if_neg (by omega)]
    · rfl
    · rw [hval]
      rw [Bool.and_eq_true, bne_iff_ne, Bool.not_eq_true']
      rintro ⟨hne, hless⟩
      obtain h | h := hs
      · exact hne h
      · exact Bool.false_ne_true (hless.symm.trans h)
  · rw [next_other ht hm hv (by omega) hi]
    rfl

end

/-! ### What passing a record leaves of the links -/

/-- A link apart from its tokens, and the tokens apart from the identities of their records. -/
def Link.bare (l : Link) : Link × List Token :=
  ({ l with toks := [] }, l.toks.map fun t => { t with rids := Token.empty.rids })

theorem passLane_bare (i k : Nat) (l : List Token) :
    (passLane i k l).map (fun t => { t with rids := Token.empty.rids }) =
      l.map fun t => { t with rids := Token.empty.rids } := by
  induction l generalizing k with
  | nil => rfl
  | cons t l ih =>
    unfold passLane
    split
    · cases k with
      | zero => rfl
      | succ k =>
        dsimp only
        rw [List.map_cons, ih, List.map_cons]
    · rw [List.map_cons, ih, List.map_cons]

/-- The tokens at an input changed in nothing but the identities of their records. -/
theorem mapInput_bare (pl : Plane) (n : Node) (slot : Nat) (o : Slot) {g : List Token → List Token}
    (hg : ∀ l : List Token, (g l).map (fun t => { t with rids := Token.empty.rids }) =
      l.map fun t => { t with rids := Token.empty.rids }) :
    mapInput pl n slot o g = { pl with links := (mapInput pl n slot o g).links } ∧
      (mapInput pl n slot o g).links.map Link.bare = pl.links.map Link.bare := by
  refine ⟨rfl, ?_⟩
  unfold mapInput
  dsimp only
  induction pl.links with
  | nil => rfl
  | cons l ls ih =>
    unfold updateFirst
    split
    · rw [List.map_cons, List.map_cons]
      congr 1
      exact congrArg (Prod.mk { l with toks := [] }) (hg l.toks)
    · rw [List.map_cons, ih, List.map_cons]

/-- Whether a target has room is seen of the links apart from their tokens' identities. -/
theorem ready_of_bare {a : At} {pl : Plane} {f : Fields} (h : pl.links.map Link.bare = a.pl.links.map Link.bare) (k : Nat) :
    At.ready { a with pl } f k = a.ready f k := by
  have hroom (l : Link) : l.hasRoom = decide (l.bare.2.length < max l.bare.1.cap 1) := by
    unfold Link.hasRoom Link.bare
    rw [List.length_map]
  have hout (l : Link) (n : Node) (slot out : Nat) : l.isOut n slot out = l.bare.1.isOut n slot out := rfl
  have hfind (q : Plane) : (outLink q a.node a.slot k).map Link.bare =
      (q.links.map Link.bare).find? fun l => l.1.isOut a.node a.slot k := by
    unfold outLink
    rw [List.find?_map]
    rfl
  have heq := (hfind pl).trans ((congrArg _ h).trans (hfind a.pl).symm)
  unfold At.ready
  dsimp only
  cases outTarget f a.node.word k with
  | operand _ _ =>
    dsimp only
    cases hp : outLink pl a.node a.slot k with
    | none =>
      cases hq : outLink a.pl a.node a.slot k with
      | none => rfl
      | some m =>
        rw [hp, hq] at heq
        cases heq
    | some l =>
      cases hq : outLink a.pl a.node a.slot k with
      | none =>
        rw [hp, hq] at heq
        cases heq
      | some m =>
        rw [hp, hq] at heq
        dsimp only
        rw [hroom, hroom, Option.some.inj heq]
  | _ => rfl

/-! ### A cycle of the comparators (R301) -/

/-- The lanes of a set instruction's firing: lane 0 acts, and the others wait. -/
def FirstActs (act : Nat → LaneAct) (pa pb : Bool) (out : Option (Record × Lane)) : Prop :=
  act 0 = .step pa pb out ∧ ∀ i, 0 < i → i < 16 → act i = .wait

section
variable {act : Nat → LaneAct} {pa pb : Bool} {out : Option (Record × Lane)} (h : FirstActs act pa pb out)
include h

theorem setTokens_first :
    (setTokens act).1.valid = (if out.isSome then 1 else 0) ∧ (setTokens act).2.valid = (setTokens act).1.valid ∧
      ∀ r w, out = some (r, w) → (setTokens act).1.at 0 = r.value ∧ (setTokens act).2.at 0 = w ∧
        vget (setTokens act).1.pips 0 0 = r.pips := by
  obtain ⟨h0, hrest⟩ := h
  refine ⟨?_, rfl, ?_⟩
  · unfold setTokens
    dsimp only
    rw [validBits_first fun i hi h16 => by rw [hrest i hi h16]; rfl, h0]
  · rintro r w rfl
    unfold setTokens Token.at
    dsimp only
    rw [vget_lanes _ _ (by decide), vget_lanes _ _ (by decide), vget_lanes _ _ (by decide), h0]
    exact ⟨rfl, rfl, rfl⟩

theorem acted_first (fb : Fibres) (x y : Nat → Option Record) :
    vget (fb.acted x y act).passedA 0 0 = vget fb.passedA 0 0 + (if pa then 1 else 0) ∧
      vget (fb.acted x y act).passedB 0 0 = vget fb.passedB 0 0 + if pb then 1 else 0 := by
  obtain ⟨h0, hrest⟩ := h
  unfold Fibres.acted
  rw [foldl_range_first fun fb i hi h16 => by rw [hrest i hi h16], h0]
  cases pa <;> cases pb
  · exact ⟨rfl, rfl⟩
  · exact ⟨rfl, vget_vput_self _ _ _ _ (by decide)⟩
  · exact ⟨vget_vput_self _ _ _ _ (by decide), rfl⟩
  · exact ⟨vget_vput_self _ _ _ _ (by decide), vget_vput_self _ _ _ _ (by decide)⟩

end

/-- Passing records leaves the plane but for the identities at its inputs. -/
theorem setActed_bare (a : At) (act : Nat → LaneAct) :
    { (a.setActed act).1 with links := a.pl.links } = a.pl ∧
      (a.setActed act).1.links.map Link.bare = a.pl.links.map Link.bare := by
  have hpass (b : Bool) (taken passed : Vector Nat 16) (l : List Token) :
      ((List.range 16).foldl
        (fun l i => match act i with
          | .step pa pb _ => if (if b then pb else pa) then passLane i (vget passed i 0 - vget taken i 0) l else l
          | _ => l) l).map (fun t => { t with rids := Token.empty.rids }) = l.map fun t => { t with rids := Token.empty.rids } := by
    induction List.range 16 generalizing l with
    | nil => rfl
    | cons i is ih =>
      rw [List.foldl_cons, ih]
      cases act i with
      | step pa pb o =>
        dsimp only
        generalize (if b = true then pb else pa) = c
        cases c with
        | true => exact passLane_bare _ _ _
        | false => rfl
      | _ => rfl
  obtain ⟨h1, h2⟩ := mapInput_bare a.pl a.node a.slot .a (hpass false a.node.fibres.takenA a.node.fibres.passedA)
  obtain ⟨-, h4⟩ := mapInput_bare (mapInput a.pl a.node a.slot .a _) a.node a.slot .b
    (hpass true a.node.fibres.takenB a.node.fibres.passedB)
  exact ⟨rfl, h4.trans h2⟩

section
variable {s : State} {a : At} {f : Fields} {op : SetOp} {x y : Token} (ht : NodeTurn s a)
  (hxt : a.sideA.toks = [x]) (hyt : a.sideB.toks = [y]) (hxm : x.marker = Mk.data) (hym : y.marker = Mk.data)
  (hxv : x.valid = 1) (hyv : y.valid = 1) (hfin : a.node.fibres.finished = 0xFFFE)
  (hxp : vget a.node.fibres.takenA 0 0 = vget a.node.fibres.passedA 0 0)
  (hyp : vget a.node.fibres.takenB 0 0 = vget a.node.fibres.passedB 0 0)
include hfin

theorem finished_other {i : Nat} (h0 : 0 < i) (h16 : i < 16) : bitAt a.node.fibres.finished i = true := by
  rw [hfin]
  interval_cases i <;> rfl

include hxt hyt hxm hym hxv hyv

theorem skipAct_waits {i : Nat} (h16 : i < 16) : a.skipAct i = .wait := by
  unfold At.skipAct
  by_cases h0 : i = 0
  · rw [h0, hfin]
    rfl
  · rw [next_other hxt hxm hxv (by omega) h16, next_other hyt hym hyv (by omega) h16]
    simp

include hxp hyp

/-- Lane 0 compares its two records, and the others have finished. -/
theorem setAct_first {pa pb : Bool} {out : Option (Record × Lane)}
    (h : setStep op f.ty (some (x.record 0)) (some (y.record 0)) (rowClosed a.sideA.toks) (rowClosed a.sideB.toks)
      (vget a.node.fibres.passedA 0 0) (vget a.node.fibres.passedB 0 0) = .step pa pb out) :
    FirstActs (a.setAct op f.ty) pa pb out := by
  refine ⟨?_, fun i h0 h16 => ?_⟩
  · unfold At.setAct
    dsimp only
    rw [next_first hxt hxm hxv hxp, next_first hyt hym hyv hyp, h, hfin]
    rfl
  · unfold At.setAct
    dsimp only
    rw [finished_other hfin h0 h16]
    rfl

include ht

/-- A set instruction whose lane 0 acts fires with what the lanes emit. -/
theorem setNode_fires {pa pb : Bool} {out : Option (Record × Lane)} (h : FirstActs (a.setAct op f.ty) pa pb out)
    (hxl : vget a.node.fibres.passedA 0 0 < 65534) (hyl : vget a.node.fibres.passedB 0 0 < 65534)
    (hxs : vget a.node.fibres.passedA 0 0 = 0 ∨ setLess f.ty (vget a.node.fibres.lastA 0 0) (x.at 0) = true)
    (hys : vget a.node.fibres.passedB 0 0 = 0 ∨ setLess f.ty (vget a.node.fibres.lastB 0 0) (y.at 0) = true) :
    setNode op f s = fire s { a with pl := (a.setActed (a.setAct op f.ty)).1 } f []
      [(0, (setTokens (a.setAct op f.ty)).1), (1, (setTokens (a.setAct op f.ty)).2)] (a.setActed (a.setAct op f.ty)).2 0 := by
  obtain ⟨h0, hrest⟩ := h
  have hskip : ((List.range 16).any fun i => a.skipAct i != .wait) = false := by
    rw [List.any_eq_false]
    intro i hi
    rw [skipAct_waits hxt hyt hxm hym hxv hyv hfin (List.mem_range.1 hi)]
    decide
  have hfinish : ((List.range 16).any fun i => a.setAct op f.ty i == .finish) = false := by
    rw [List.any_eq_false]
    intro i hi
    by_cases hi0 : i = 0
    · rw [hi0, h0]
      simp
    · rw [hrest i (by omega) (List.mem_range.1 hi)]
      decide
  have hbx := bad_none (ty := f.ty) hxt hxm hxv hxp hxl hxs
  have hby := bad_none (ty := f.ty) hyt hym hyv hyp hyl hys
  have hhx := holdsHead_first (v := a.sideA) hxv hxp
  have hhy := holdsHead_first (v := a.sideB) hyv hyp
  unfold setNode
  rw [asNode_of_turn ht]
  dsimp only
  rw [ht.running, hxt, hyt]
  have hspent (v : FibreSide) (t : Token) (hh : v.holdsHead t = true) :
      (some t).filter (fun t => decide (t.marker = Mk.data) && !v.holdsHead t) = none := by
    simp [Option.filter, hh]
  have hfree (t : Token) (hm : t.marker = Mk.data) : (some t).filter (fun t => isFree t.marker) = none := by
    simp [Option.filter, hm, isFree, Mk.data]
  have hsteps : ((List.range 16).any fun i => match a.setAct op f.ty i with | .step .. => true | _ => false) = true := by
    refine List.any_eq_true.2 ⟨0, by decide, ?_⟩
    rw [h0]
  simp only [List.head?_cons]
  refine (if_neg (by simp [hxm, hym, Mk.data])).trans ?_
  rw [hspent _ _ hhx, hspent _ _ hhy, hfree _ hxm, hfree _ hym, hbx, hby]
  dsimp only
  rw [hskip, hfinish, if_neg Bool.false_ne_true, if_neg Bool.false_ne_true]
  exact if_pos hsteps

/-- What one cycle does when lane 0 acts: the firing, what it leaves of the plane, and what it emits and counts. -/
theorem setCycle (hr : a.room f) {i : Instr} (hexec : exec i s = setNode op f s) {pa pb : Bool} {out : Option (Record × Lane)}
    (hxl : vget a.node.fibres.passedA 0 0 < 65534) (hyl : vget a.node.fibres.passedB 0 0 < 65534)
    (hxs : vget a.node.fibres.passedA 0 0 = 0 ∨ setLess f.ty (vget a.node.fibres.lastA 0 0) (x.at 0) = true)
    (hys : vget a.node.fibres.passedB 0 0 = 0 ∨ setLess f.ty (vget a.node.fibres.lastB 0 0) (y.at 0) = true)
    (h : setStep op f.ty (some (x.record 0)) (some (y.record 0)) (rowClosed a.sideA.toks) (rowClosed a.sideB.toks)
      (vget a.node.fibres.passedA 0 0) (vget a.node.fibres.passedB 0 0) = .step pa pb out) :
    ∃ (o w : Token) (n : Node) (pl : Plane), NodeFires i s s { a with pl } f [] [(0, o), (1, w)] n 0 ∧
      { pl with links := a.pl.links } = a.pl ∧ pl.links.map Link.bare = a.pl.links.map Link.bare ∧ o.valid = w.valid ∧
      o.valid = (if out.isSome then 1 else 0) ∧
      (∀ r z, out = some (r, z) → o.at 0 = r.value ∧ w.at 0 = z ∧ vget o.pips 0 0 = r.pips) ∧
      vget n.fibres.passedA 0 0 = vget a.node.fibres.passedA 0 0 + (if pa then 1 else 0) ∧
      vget n.fibres.passedB 0 0 = vget a.node.fibres.passedB 0 0 + if pb then 1 else 0 := by
  have hfirst := setAct_first hxt hyt hxm hym hxv hyv hfin hxp hyp h
  have hfire := setNode_fires ht hxt hyt hxm hym hxv hyv hfin hxp hyp hfirst hxl hyl hxs hys
  obtain ⟨hrest, hbare⟩ := setActed_bare a (a.setAct op f.ty)
  obtain ⟨hval, hsame, hout⟩ := setTokens_first hfirst
  obtain ⟨hpa, hpb⟩ := acted_first hfirst a.node.fibres a.sideA.next a.sideB.next
  refine ⟨_, _, _, _, NodeFires.of_fire (hexec.trans hfire) ?_, hrest, hbare, hsame.symm, hval, hout, hpa, hpb⟩
  intro o ho
  have hk : o.1 < 3 := by
    simp only [List.mem_cons, List.not_mem_nil, or_false] at ho
    obtain rfl | rfl := ho <;> simp
  exact (ready_of_bare hbare o.1).trans (hr.ready hk)

end

theorem setLess_iff (ty : ElemTy) (u v : Lane) : setLess ty u v = true ↔ setBelow ty u v := by
  unfold setLess setBelow
  by_cases h : ty = .i32
  · subst h
    simp [BitVec.slt]
  · simp [h, BitVec.ult]

/-- Two orders of coordinates, or neither. -/
theorem setBelow_asymm {ty : ElemTy} {u v : Lane} (h : setBelow ty u v) : ¬setBelow ty v u := by
  unfold setBelow at *
  split at h
  · rw [if_pos ‹_›]
    omega
  · rw [if_neg ‹_›]
    omega

theorem setBelow_irrefl (ty : ElemTy) (u : Lane) : ¬setBelow ty u u := fun h => setBelow_asymm h h

theorem setBelow_total {ty : ElemTy} {u v : Lane} (h : ¬setBelow ty u v) (h' : ¬setBelow ty v u) : u = v := by
  unfold setBelow at *
  split at h
  · rw [if_pos ‹_›] at h'
    exact BitVec.eq_of_toInt_eq (by omega)
  · rw [if_neg ‹_›] at h'
    exact BitVec.eq_of_toNat_eq (by omega)

theorem setBelow_ne {ty : ElemTy} {u v : Lane} (h : u = v) : ¬setBelow ty u v ∧ ¬setBelow ty v u := by
  subst h
  exact ⟨setBelow_irrefl _ _, setBelow_irrefl _ _⟩

/-- The index word of the records that a lane passes. -/
def setIndex (i j : Nat) : Lane := BitVec.ofNat 16 i ++ BitVec.ofNat 16 j

/-- The three ways in which the comparator finds two records. -/
theorem setStep_cases (op : SetOp) (ty : ElemTy) (r t : Record) (ca cb : Bool) (na nb : Nat) :
    (setBelow ty r.value t.value ∧ setStep op ty (some r) (some t) ca cb na nb =
      .step true false (if op = .isect then none else some (r, setIndex na 0xFFFF))) ∨
    (setBelow ty t.value r.value ∧ setStep op ty (some r) (some t) ca cb na nb =
      .step false true (if op = .isect then none else some (t, setIndex 0xFFFF nb))) ∨
    (r.value = t.value ∧ setStep op ty (some r) (some t) ca cb na nb =
      if op = .mrgk then .step true false (some (r, setIndex na 0xFFFF))
      else .step true true (some ({ r with pips := r.pips ||| t.pips }, setIndex na nb))) := by
  unfold setStep
  dsimp only
  by_cases hrt : setBelow ty r.value t.value
  · refine .inl ⟨hrt, (if_pos ((setLess_iff _ _ _).2 hrt)).trans ?_⟩
    cases op <;> rfl
  have hrt' : ¬setLess ty r.value t.value = true := fun h => hrt ((setLess_iff _ _ _).1 h)
  by_cases htr : setBelow ty t.value r.value
  · refine .inr (.inl ⟨htr, (if_neg hrt').trans ((if_pos ((setLess_iff _ _ _).2 htr)).trans ?_)⟩)
    cases op <;> rfl
  · refine .inr (.inr ⟨setBelow_total hrt htr, (if_neg hrt').trans
      ((if_neg fun h => htr ((setLess_iff _ _ _).1 h)).trans ?_)⟩)
    cases op <;> rfl

/-- Which instruction a comparator works for. -/
theorem setOp_of_instr {i : Instr} {f : Fields} (hi : i = .isect f ∨ i = .unio f ∨ i = .mrgk f) (s : State) :
    ∃ op, exec i s = setNode op f s ∧ (i = .isect f ↔ op = .isect) ∧ (i = .mrgk f ↔ op = .mrgk) := by
  obtain rfl | rfl | rfl := hi
  · exact ⟨.isect, rfl, by simp, by simp⟩
  · exact ⟨.unio, rfl, by simp, by simp⟩
  · exact ⟨.mrgk, rfl, by simp, by simp⟩

/-! ### sjoin (R302) -/

/-- The entry that a record at slot a makes. -/
def At.joinEntry (a : At) (t : Token) : JoinEntry :=
  { left := true, key := bits (t.at 0) 16 16, payload := bits (t.at 0) 0 16, stamp := a.node.count + 1, pips := vget t.pips 0 0 }

/-- The tokens of its matches. -/
def At.joinTokens (a : At) (s : State) (t : Token) : List Token :=
  freshTokens s.nextId (matchTokens (joinMatches a.node.join (a.joinEntry t)).length (joinMatches a.node.join (a.joinEntry t)))

section
variable {s : State} {a : At} {f : Fields} {t : Token} {hb : Head}

/-- A join with a record at slot a alone inserts it. -/
theorem exec_sjoin (ht : NodeTurn s a) (hp : a.node.pend = [])
    (hh : a.heads [.a, .b] = [{ slot := .a, sticky := false, tok := some t }, hb]) (hn : hb.tok = none)
    (hm : t.marker = Mk.data) (hv : t.valid = 1) (hl : a.node.limit = 0) : exec (.sjoin f) s = joinRecord s a f .a t 0 := by
  have he : exec (.sjoin f) s = execSjoin f s := rfl
  have hlow : t.lowest = some 0 := Token.lowest_eq (by decide) (by rw [has_of_valid_one hv (by decide)]; rfl) (by simp)
  have hw : isWave Mk.data = false := by decide
  unfold execSjoin at he
  rw [asNode_of_turn ht] at he
  dsimp only at he
  rw [ht.running, hp, hh, hl] at he
  rw [he]
  dsimp only
  have hfa : ([{ slot := Slot.a, sticky := false, tok := some t }, hb].find? fun h => h.slot == .a).bind Head.tok = some t := rfl
  have hfb : ([{ slot := Slot.a, sticky := false, tok := some t }, hb].find? fun h => h.slot == .b).bind Head.tok = none := by
    show ([hb].find? fun h => h.slot == .b).bind Head.tok = none
    cases hs : hb.slot == .b <;> simp [List.find?, hs, hn]
  refine (if_neg ?_).trans ?_
  · simp [hn, hm, Mk.data]
  · simp only [hfa, hfb, hw, hm, hlow, OfNat.zero_ne_ofNat, zero_ne_one, if_false, if_true, Bool.false_eq_true]

/-- A record that finds room is inserted, and its matches are to be emitted. -/
theorem joinRecord_inserts (hv : t.valid = 1) (hf : f.fn = 0) (hc : a.node.count ≠ 0) (hs : a.node.spoiled = false)
    (hp : a.node.pend = []) (hroom : a.node.count + 1 < 2 ^ 24)
    (hfit : (a.node.join.filter fun e => e.left).length < (a.joinPat f).cnt0) :
    ∃ u n, joinRecord s a f .a t 0 = .next u ∧ Tab.find? (u.plane a.plane).nodes a.slot = some n ∧
      n.join = a.node.join ++ [a.joinEntry t] ∧ n.count = a.node.count + 1 ∧ n.pos = a.node.pos + 1 ∧
      n.pend = (a.joinTokens s t).map (fun t => (t, t)) ∧
      (u.plane a.plane).links = (takeSlots a.pl a.node a.slot [.a]).links := by
  have hlast : ((List.range 16).any fun k => decide (0 < k) && t.has k) = false := by
    rw [List.any_eq_false]
    intro k hk
    rw [has_of_valid_one hv (List.mem_range.1 hk)]
    by_cases h0 : k = 0 <;> simp [h0]
  have hfn : (f.fn == 1) = false := by rw [hf]; decide
  have hmine : (a.node.join.filter fun e => e.left == true) = a.node.join.filter fun e => e.left :=
    List.filter_congr fun e _ => by simp
  have hplane (v : State) (q : Plane) : ((v.setPlane a.plane q).charge a.region 19).plane a.plane = q :=
    State.plane_setPlane_self v a.plane q
  unfold joinRecord
  dsimp only
  rw [if_pos (bne_iff_ne.2 hc), show (Slot.a == Slot.a) = true from rfl, hmine, if_neg (by simp; omega), hlast, hs, hfn]
  simp only [Bool.false_eq_true, if_false, Bool.not_false, if_true, Bool.false_and]
  refine ⟨_, { a.node with
      range := a.node.range, join := a.node.join ++ [a.joinEntry t], count := a.node.count + 1, pos := a.node.pos + 1
      limit := 0, spoiled := false, pend := a.node.pend ++ (a.joinTokens s t).map fun t => (t, t) }, rfl, ?_, rfl, rfl, rfl, ?_, ?_⟩
  · rw [hplane]
    exact Tab.find?_put_self _ _ _
  · rw [hp]
    rfl
  · rw [hplane]

theorem joinRecord_full (hc : a.node.count ≠ 0)
    (hfull : (a.joinPat f).cnt0 ≤ (a.node.join.filter fun e => e.left).length) :
    joinRecord s a f .a t 0 = .next (a.fault s .joinfull 0 a.node.pos) := by
  have hmine : (a.node.join.filter fun e => e.left == true) = a.node.join.filter fun e => e.left :=
    List.filter_congr fun e _ => by simp
  unfold joinRecord
  dsimp only
  rw [if_pos (bne_iff_ne.2 hc), show (Slot.a == Slot.a) = true from rfl, hmine, if_pos (by simp; omega)]

/-- Up to sixteen records make one token. -/
theorem matchTokens_single {l : List Record} (hne : l ≠ []) (h16 : l.length ≤ 16) : matchTokens l.length l = [tokenOf l] := by
  cases l with
  | nil => exact absurd rfl hne
  | cons r l =>
    rw [List.length_cons, matchTokens, List.take_of_length_le h16, List.drop_of_length_le h16]
    · cases l.length <;> rfl
    · simp

/-- Up to sixteen matches leave as one token, in the order of their stamps. -/
theorem joinTokens_spec (hne : (a.node.join.filter fun z => !z.left && z.key == (a.joinEntry t).key) ≠ [])
    (h16 : (a.node.join.filter fun z => !z.left && z.key == (a.joinEntry t).key).length ≤ 16) :
    ∃ o, a.joinTokens s t = [o] ∧ ∀ k z, k < 16 →
      (a.node.join.filter fun z => !z.left && z.key == (a.joinEntry t).key)[k]? = some z →
      o.has k = true ∧ o.at k = (a.joinEntry t).payload ++ z.payload ∧ vget o.pips k 0 = (a.joinEntry t).pips ||| z.pips := by
  have hms : joinMatches a.node.join (a.joinEntry t) =
      (a.node.join.filter fun z => !z.left && z.key == (a.joinEntry t).key).map fun z =>
        { value := (a.joinEntry t).payload ++ z.payload, pips := (a.joinEntry t).pips ||| z.pips, rid := 0 } := by
    unfold joinMatches
    have hfilter : (a.node.join.filter fun z => z.left != (a.joinEntry t).left && z.key == (a.joinEntry t).key) =
        a.node.join.filter fun z => !z.left && z.key == (a.joinEntry t).key :=
      List.filter_congr fun z _ => by cases z.left <;> rfl
    rw [hfilter]
    rfl
  unfold At.joinTokens
  rw [hms]
  generalize (a.node.join.filter fun z => !z.left && z.key == (a.joinEntry t).key) = ms at *
  rw [matchTokens_single (by simpa using hne) (by simpa using h16)]
  refine ⟨_, rfl, fun k z hk hz => ?_⟩
  have hlt := (List.getElem?_eq_some_iff.1 hz).1
  obtain ⟨hhas, hat⟩ := tokenOf_spec (ms.map fun z =>
    ({ value := (a.joinEntry t).payload ++ z.payload, pips := (a.joinEntry t).pips ||| z.pips, rid := 0 } : Record)) hk
  refine ⟨hhas.trans ?_, hat.trans ?_, (vget_lanes _ _ hk).trans ?_⟩
  · rw [List.length_map]
    exact decide_eq_true hlt
  · rw [List.getD_eq_getElem?_getD, List.getElem?_map, List.getElem?_map, hz]
    rfl
  · rw [List.getElem?_map, hz]
    rfl

end

/-- Settles O46. -/
theorem setAndJoinNodes : Obligations.SetAndJoinNodes := by
  unfold Obligations.SetAndJoinNodes
  constructor
  · intro s a f i x y la lb ht hr hi hla hlb hxl hyl hxm hym hxv hyv hfin hxp hxn hyp hyn hxs hys lt p q na nb
    obtain ⟨op, hexec, hisect, hmrgk⟩ := setOp_of_instr hi s
    have hxt : a.sideA.toks = [x] := by unfold At.sideA; rw [hla]; exact hxl
    have hyt : a.sideB.toks = [y] := by unfold At.sideB; rw [hlb]; exact hyl
    have hfires {pa pb : Bool} {out : Option (Record × Lane)} (hstep : setStep op f.ty (some (x.record 0)) (some (y.record 0))
        (rowClosed a.sideA.toks) (rowClosed a.sideB.toks) na nb = .step pa pb out) :=
      setCycle ht hxt hyt hxm hym hxv hyv hfin hxp hyp hr hexec hxn hyn (hxs.imp_right (setLess_iff _ _ _).2)
        (hys.imp_right (setLess_iff _ _ _).2) hstep
    obtain ⟨hlt, hstep⟩ | ⟨hlt, hstep⟩ | ⟨heq, hstep⟩ :=
      setStep_cases op f.ty (x.record 0) (y.record 0) (rowClosed a.sideA.toks) (rowClosed a.sideB.toks) na nb
    · obtain ⟨o, w, n, pl, hf, hrest, hbare, hvalid, hval, hout, hpa, hpb⟩ := hfires hstep
      refine ⟨o, w, n, pl, hf, hrest, hbare, hvalid, fun _ => ⟨hpa, hpb, fun hi => ?_, fun hi => ?_⟩,
        fun h => absurd h (setBelow_asymm hlt), fun h => absurd hlt (setBelow_ne h).1⟩
      · rw [hval, if_pos (hisect.1 hi)]
        rfl
      · have hne : ¬op = .isect := fun h => hi (hisect.2 h)
        obtain ⟨ho, hw, -⟩ := hout _ _ (if_neg hne)
        rw [hval, if_neg hne]
        exact ⟨rfl, ho, hw⟩
    · obtain ⟨o, w, n, pl, hf, hrest, hbare, hvalid, hval, hout, hpa, hpb⟩ := hfires hstep
      refine ⟨o, w, n, pl, hf, hrest, hbare, hvalid, fun h => absurd h (setBelow_asymm hlt),
        fun _ => ⟨hpb, hpa, fun hi => ?_, fun hi => ?_⟩, fun h => absurd hlt (setBelow_ne h).2⟩
      · rw [hval, if_pos (hisect.1 hi)]
        rfl
      · have hne : ¬op = .isect := fun h => hi (hisect.2 h)
        obtain ⟨ho, hw, -⟩ := hout _ _ (if_neg hne)
        rw [hval, if_neg hne]
        exact ⟨rfl, ho, hw⟩
    · have hne : ¬lt p q ∧ ¬lt q p := setBelow_ne heq
      by_cases hop : op = .mrgk
      · rw [if_pos hop] at hstep
        obtain ⟨o, w, n, pl, hf, hrest, hbare, hvalid, hval, hout, hpa, hpb⟩ := hfires hstep
        obtain ⟨ho, hw, hpips⟩ := hout _ _ rfl
        exact ⟨o, w, n, pl, hf, hrest, hbare, hvalid, fun h => absurd h hne.1, fun h => absurd h hne.2,
          fun _ => ⟨hval, ho, hpa, fun _ => ⟨hpb, hw, hpips⟩, fun hi => absurd (hmrgk.2 hop) hi⟩⟩
      · rw [if_neg hop] at hstep
        obtain ⟨o, w, n, pl, hf, hrest, hbare, hvalid, hval, hout, hpa, hpb⟩ := hfires hstep
        obtain ⟨ho, hw, hpips⟩ := hout _ _ rfl
        exact ⟨o, w, n, pl, hf, hrest, hbare, hvalid, fun h => absurd h hne.1, fun h => absurd h hne.2,
          fun _ => ⟨hval, ho, hpa, fun hi => absurd (hmrgk.1 hi) hop, fun _ => ⟨hpb, hw, hpips⟩⟩⟩
  · intro s a f t hb ht hp hh hn hm hv hf hc hl hs p mine
    have hx := exec_sjoin (f := f) ht hp hh hn hm hv hl
    refine ⟨fun hroom hfit => ?_, fun hfull => ?_⟩
    · obtain ⟨u, n, hj, hnode, hjoin, hcount, hpos, hpend, hlinks⟩ := joinRecord_inserts (s := s) hv hf hc hs hp hroom hfit
      refine ⟨u, n, a.joinEntry t, hx.trans hj, hnode, hjoin, hcount, rfl, rfl, rfl, rfl, hpos, hlinks, ?_⟩
      intro ms h16 hne
      obtain ⟨o, ho, hspec⟩ := joinTokens_spec (s := s) hne h16
      rw [ho] at hpend
      exact ⟨o, hpend, hspec⟩
    · exact .of_fault (hx.trans (joinRecord_full hc hfull))

end Sys2Proof.Machine
end

