-- ==== Sys2Proof/Proofs/MemoryFormTerms.lean ====
section
/-!
PROOFS. O51, first part: what it means of a result, a branch, a fold or an option that memory keeps its form in its states.
-/

namespace Sys2Proof.Machine

/-- Memory keeps its form in the state that a step goes on in. -/
def ResOk (r : Res) : Prop := ∀ t, r = .next t → t.memOk

/-- What there is has the property. -/
def Opt {α : Type} (P : α → Prop) (o : Option α) : Prop := ∀ a, o = some a → P a

/-- Memory keeps its form in the state of a pair; so in the three after. -/
def FstOk {α : Type} (x : State × α) : Prop := x.1.memOk
def SndOk {α : Type} (x : α × State) : Prop := x.2.memOk
def TrdOk {α β : Type} (x : α × β × State) : Prop := x.2.2.memOk

def OptOk (o : Option State) : Prop := Opt State.memOk o
def OptSnd {α : Type} (o : Option (α × State)) : Prop := Opt SndOk o
def OptFst {α : Type} (o : Option (State × α)) : Prop := Opt FstOk o
def OptTrd {α β : Type} (o : Option (α × β × State)) : Prop := Opt TrdOk o
def OptRes (o : Option Res) : Prop := Opt ResOk o

/-- Memory keeps its form in either state. -/
def SumOk (x : State ⊕ State) : Prop := ∀ t, x = .inl t ∨ x = .inr t → t.memOk

def ExSnd {ε α : Type} (x : Except ε (α × State)) : Prop := ∀ y, x = .ok y → y.2.memOk

/-- Memory keeps its form in the state that reaching for an address ends in; so for the other ends of an access. -/
def Reach.Ok (x : Reach) : Prop := ∀ t, x = .out t → t.memOk
def Fetched.Ok (x : Fetched) : Prop := ∀ t, x = .out t → t.memOk
def FetchedInstr.Ok (x : FetchedInstr) : Prop := ∀ t, x = .out t → t.memOk
def Landed.Ok (x : Landed) : Prop := ∀ t, (∃ id, x = .placed t id) ∨ x = .parked t ∨ (∃ c, x = .fault t c) → t.memOk
def JoinReach.Ok (x : JoinReach) : Prop := ∀ t, (∃ c a, x = .fault t c a) ∨ x = .out t → t.memOk

theorem Opt.some {α : Type} {P : α → Prop} {a : α} (h : P a) : Opt P (some a) := fun _ he => Option.some.inj he ▸ h

theorem Opt.none {α : Type} {P : α → Prop} : Opt P (none : Option α) := fun _ he => nomatch he

/-! ### Branches, folds and options -/

theorem bind_ok {α β : Type} {P : α → Prop} {Q : β → Prop} {o : Option α} {f : α → Option β} (h : Opt P o)
    (hf : ∀ {a}, P a → Opt Q (f a)) : Opt Q (o.bind f) := by
  cases o with
  | none => exact .none
  | some a => exact hf (h a rfl)

theorem bind_any {α β : Type} {Q : β → Prop} {o : Option α} {f : α → Option β} (hf : ∀ {a}, Opt Q (f a)) :
    Opt Q (o.bind f) := by
  cases o with
  | none => exact .none
  | some a => exact hf

theorem map_ok {α β : Type} {P : α → Prop} {Q : β → Prop} {o : Option α} {f : α → β} (h : Opt P o)
    (hf : ∀ {a}, P a → Q (f a)) : Opt Q (o.map f) := by
  cases o with
  | none => exact .none
  | some a => exact .some (hf (h a rfl))

theorem map_any {α β : Type} {Q : β → Prop} {o : Option α} {f : α → β} (hf : ∀ {a}, Q (f a)) : Opt Q (o.map f) := by
  cases o with
  | none => exact .none
  | some a => exact .some hf

theorem ite_ok {α : Type} {P : α → Prop} {c : Prop} {_ : Decidable c} {x y : α} (hx : P x) (hy : P y) :
    P (if c then x else y) := by
  split
  · exact hx
  · exact hy

theorem foldl_ok {α β : Type} {P : β → Prop} {f : β → α → β} {l : List α} {b : β} (hf : ∀ {b a}, P b → P (f b a)) (h : P b) :
    P (l.foldl f b) := by
  induction l generalizing b with
  | nil => exact h
  | cons a l ih => exact ih (hf h)

/-! ### The state out of a result -/

theorem OptOk.get {o : Option State} {t : State} (he : o = some t) (h : OptOk o) : t.memOk := h t he

theorem OptSnd.get {α : Type} {o : Option (α × State)} {a : α} {t : State} (he : o = some (a, t)) (h : OptSnd o) :
    t.memOk := h _ he

theorem OptTrd.get {α β : Type} {o : Option (α × β × State)} {a : α} {b : β} {t : State} (he : o = some (a, b, t))
    (h : OptTrd o) : t.memOk := h _ he

theorem OptRes.get {o : Option Res} {r : Res} (he : o = some r) (h : OptRes o) : ResOk r := h r he

theorem SumOk.inl {x : State ⊕ State} {t : State} (he : x = .inl t) (h : SumOk x) : t.memOk := h t (.inl he)

theorem SumOk.inr {x : State ⊕ State} {t : State} (he : x = .inr t) (h : SumOk x) : t.memOk := h t (.inr he)

theorem ExSnd.get {ε α : Type} {x : Except ε (α × State)} {t : State} {a : α} (he : x = .ok (a, t)) (h : ExSnd x) :
    t.memOk := h _ he

theorem ResOk.get {r : Res} {t : State} (he : r = .next t) (h : ResOk r) : t.memOk := h t he

theorem FstOk.get {α : Type} {x : State × α} {t : State} {a : α} (he : x = (t, a)) (h : FstOk x) : t.memOk := by
  rw [he] at h
  exact h

theorem Reach.Ok.out {x : Reach} {t : State} (he : x = .out t) (h : x.Ok) : t.memOk := h t he

theorem Fetched.Ok.out {x : Fetched} {t : State} (he : x = .out t) (h : x.Ok) : t.memOk := h t he

theorem FetchedInstr.Ok.out {x : FetchedInstr} {t : State} (he : x = .out t) (h : x.Ok) : t.memOk := h t he

theorem Landed.Ok.placed {x : Landed} {t : State} {id : Nat} (he : x = .placed t id) (h : x.Ok) : t.memOk :=
  h t (.inl ⟨id, he⟩)

theorem Landed.Ok.parked {x : Landed} {t : State} (he : x = .parked t) (h : x.Ok) : t.memOk := h t (.inr (.inl he))

theorem Landed.Ok.fault {x : Landed} {t : State} {c : Cause} (he : x = .fault t c) (h : x.Ok) : t.memOk :=
  h t (.inr (.inr ⟨c, he⟩))

theorem JoinReach.Ok.fault {x : JoinReach} {t : State} {c : Cause} {a : Nat} (he : x = .fault t c a) (h : x.Ok) :
    t.memOk := h t (.inl ⟨c, a, he⟩)

theorem JoinReach.Ok.out {x : JoinReach} {t : State} (he : x = .out t) (h : x.Ok) : t.memOk := h t (.inr he)

/-! ### A result of a state -/

theorem next_ok {t : State} (h : t.memOk) : ResOk (.next t) := fun _ he => Host.Outcome.next.inj he ▸ h

theorem refused_ok {r : Refusal} : ResOk (.refused r) := fun _ he => nomatch he

theorem fault_ok {r : Fault} : ResOk (.fault r) := fun _ he => nomatch he

theorem some_state {t : State} (h : t.memOk) : OptOk (some t) := .some h

theorem some_res {r : Res} (h : ResOk r) : OptRes (some r) := .some h

theorem some_fst {α : Type} {x : State × α} (h : FstOk x) : OptFst (some x) := .some h

theorem some_snd {α : Type} {x : α × State} (h : SndOk x) : OptSnd (some x) := .some h

theorem some_trd {α β : Type} {x : α × β × State} (h : TrdOk x) : OptTrd (some x) := .some h

theorem none_state : OptOk none := .none

theorem none_res : OptRes none := .none

theorem none_snd {α : Type} : OptSnd (none : Option (α × State)) := .none

theorem none_trd {α β : Type} : OptTrd (none : Option (α × β × State)) := .none

theorem pair_fst {α : Type} {t : State} {a : α} (h : t.memOk) : FstOk (t, a) := h

theorem pair_snd {α : Type} {t : State} {a : α} (h : t.memOk) : SndOk (a, t) := h

theorem pair_trd {α β : Type} {x : β × State} {a : α} (h : SndOk x) : TrdOk (a, x) := h

theorem FstOk.fst {α : Type} {x : State × α} (h : FstOk x) : x.1.memOk := h

theorem SndOk.snd {α : Type} {x : α × State} (h : SndOk x) : x.2.memOk := h

theorem SumOk.of_inl {t : State} (h : t.memOk) : SumOk (.inl t) := by
  rintro u (he | he)
  · exact Sum.inl.inj he ▸ h
  · exact nomatch he

theorem SumOk.of_inr {t : State} (h : t.memOk) : SumOk (.inr t) := by
  rintro u (he | he)
  · exact nomatch he
  · exact Sum.inr.inj he ▸ h

theorem ExSnd.of_ok {ε α : Type} {x : α × State} (h : SndOk x) : ExSnd (.ok x : Except ε (α × State)) :=
  fun _ he => Except.ok.inj he ▸ h

theorem ExSnd.of_error {ε α : Type} {e : ε} : ExSnd (.error e : Except ε (α × State)) := fun _ he => nomatch he

theorem Reach.Ok.of_out {t : State} (h : t.memOk) : Reach.Ok (.out t) := fun _ he => Reach.out.inj he ▸ h

theorem Reach.Ok.of_to {p : Phys} : Reach.Ok (.to p) := fun _ he => nomatch he

theorem Reach.Ok.of_void : Reach.Ok .void := fun _ he => nomatch he

theorem Fetched.Ok.of_out {t : State} (h : t.memOk) : Fetched.Ok (.out t) := fun _ he => Fetched.out.inj he ▸ h

theorem Fetched.Ok.of_word {w : Lane} : Fetched.Ok (.word w) := fun _ he => nomatch he

theorem FetchedInstr.Ok.of_out {t : State} (h : t.memOk) : FetchedInstr.Ok (.out t) :=
  fun _ he => FetchedInstr.out.inj he ▸ h

theorem FetchedInstr.Ok.of_words {w w2 : Lane} : FetchedInstr.Ok (.words w w2) := fun _ he => nomatch he

theorem Landed.Ok.of_placed {t : State} {id : Nat} (h : t.memOk) : Landed.Ok (.placed t id) := by
  rintro u (⟨i, he⟩ | he | ⟨c, he⟩)
  · exact (Landed.placed.inj he).1 ▸ h
  · exact nomatch he
  · exact nomatch he

theorem Landed.Ok.of_parked {t : State} (h : t.memOk) : Landed.Ok (.parked t) := by
  rintro u (⟨i, he⟩ | he | ⟨c, he⟩)
  · exact nomatch he
  · exact Landed.parked.inj he ▸ h
  · exact nomatch he

theorem Landed.Ok.of_fault {t : State} {c : Cause} (h : t.memOk) : Landed.Ok (.fault t c) := by
  rintro u (⟨i, he⟩ | he | ⟨c, he⟩)
  · exact nomatch he
  · exact nomatch he
  · exact (Landed.fault.inj he).1 ▸ h

theorem Landed.Ok.of_void : Landed.Ok .void := by
  rintro u (⟨i, he⟩ | he | ⟨c, he⟩)
  · exact nomatch he
  · exact nomatch he
  · exact nomatch he

theorem JoinReach.Ok.of_out {t : State} (h : t.memOk) : JoinReach.Ok (.out t) := by
  rintro u (⟨c, a, he⟩ | he)
  · exact nomatch he
  · exact JoinReach.out.inj he ▸ h

theorem JoinReach.Ok.of_fault {t : State} {c : Cause} {a : Nat} (h : t.memOk) : JoinReach.Ok (.fault t c a) := by
  rintro u (⟨c, a, he⟩ | he)
  · exact (JoinReach.fault.inj he).1 ▸ h
  · exact nomatch he

theorem JoinReach.Ok.of_range {l : List (Nat × Nat)} : JoinReach.Ok (.range l) := by
  rintro u (⟨c, a, he⟩ | he)
  · exact nomatch he
  · exact nomatch he

/-! ### A state of its fields -/

/-- Fields other than memory do not touch its form. -/
theorem State.with_memOk {s : State} {seqs regions planes ctxs agents tlbs units rootPages walks
      watches queues disps tasks taskSerial swapReqs saved imaging vds vdGen host powered hot aknan cycle agenda
      actor turns frees nextId} (h : s.memOk) :
    (State.mk seqs regions planes ctxs s.mem agents tlbs units rootPages walks watches queues disps tasks taskSerial
      swapReqs saved imaging vds vdGen host powered hot aknan cycle agenda actor turns frees nextId).memOk :=
  h

/-- Bytes that the model writes keep memory's form. -/
theorem State.poke_memOk {s : State} {seqs regions planes ctxs agents tlbs units rootPages walks
      watches queues disps tasks taskSerial swapReqs saved imaging vds vdGen host powered hot aknan cycle agenda
      actor turns frees nextId id l} (h : s.memOk) :
    (State.mk seqs regions planes ctxs (s.mem.poke id l) agents tlbs units rootPages walks watches queues disps tasks
      taskSerial swapReqs saved imaging vds vdGen host powered hot aknan cycle agenda actor turns frees nextId).memOk
      :=
  poke_wf _ _ _ h

theorem State.append_memOk {s : State} {seqs regions planes ctxs agents tlbs units rootPages walks
      watches queues disps tasks taskSerial swapReqs saved imaging vds vdGen host powered hot aknan cycle agenda
      actor turns frees nextId w} (h : s.memOk) :
    (State.mk seqs regions planes ctxs (s.mem.append w) agents tlbs units rootPages walks watches queues disps tasks
      taskSerial swapReqs saved imaging vds vdGen host powered hot aknan cycle agenda actor turns frees nextId).memOk
      :=
  append_wf _ _ h

theorem State.mk_memOk {seqs regions planes ctxs mem agents tlbs units rootPages walks watches queues disps tasks
      taskSerial swapReqs saved imaging vds vdGen host powered hot aknan cycle agenda actor turns frees nextId}
    (h : Memory.wf mem = true) : (State.mk seqs regions planes ctxs mem agents tlbs units rootPages walks watches
      queues disps tasks taskSerial swapReqs saved imaging vds vdGen host powered hot aknan cycle agenda actor turns
      frees nextId).memOk :=
  h

end Sys2Proof.Machine
end

