-- ==== Sys2Proof/Proofs/MemoryForm.lean ====
section
/-!
PROOFS. O51: one lemma for each function of the model that makes a state, in the order in which the functions use one
another; the last are the instructions and events, the turns and the step. A proof follows its function's branches: memory is
that of a state whose form is known, or a write's.
-/

namespace Sys2Proof.Machine

/-- Dropping cells keeps the order of the rest. -/
theorem cellsOk_filter (p : Nat → Bool) {b : Option Nat} {c : List Host.Cell} (h : cellsOk b c = true) :
    cellsOk b (c.filter fun c => p c.1) = true := by
  induction c generalizing b with
  | nil => cases b <;> rfl
  | cons e rest ih =>
    obtain ⟨k, v⟩ := e
    have hrest : cellsOk (some k) rest = true := by
      cases b with
      | none => exact (Bool.and_eq_true_iff.1 h).2
      | some b => exact (Bool.and_eq_true_iff.1 h).2
    rw [List.filter_cons]
    split
    · cases b with
      | none => exact Bool.and_eq_true_iff.2 ⟨(Bool.and_eq_true_iff.1 h).1, ih hrest⟩
      | some b => exact Bool.and_eq_true_iff.2 ⟨(Bool.and_eq_true_iff.1 h).1, ih hrest⟩
    · cases b with
      | none => exact cellsOk_none _ (ih hrest)
      | some b =>
        obtain ⟨hk, -⟩ := Bool.and_eq_true_iff.1 (Bool.and_eq_true_iff.1 h).1
        exact cellsOk_mono _ (Nat.le_of_lt (of_decide_eq_true hk)) (ih hrest)

theorem copyRead_wf {m : Memory} {byte : Nat → Byte} {tag : Nat → BitVec 16} {id src dst : Nat} (h : m.wf = true) :
    (m.copyRead byte tag id src dst).wf = true := by
  unfold Memory.copyRead
  exact foldl_ok (P := fun m => Memory.wf m = true) (fun h => append_wf _ _ h) h

theorem copyPage_wf (m : Memory) (id src dst : Nat) (h : m.wf = true) :
    (m.copyPage id src dst).wf = true := copyRead_wf h

theorem State.setQueue_memOk {s : State} {vf x} (h : s.memOk) : (s.setQueue vf x).memOk :=
  h

theorem State.arbiterWrite_memOk {s : State} {key bs} (h : s.memOk) : (s.arbiterWrite key bs).memOk := by
  unfold State.arbiterWrite
  exact State.poke_memOk h

theorem State.setVd_memOk {s : State} {k v} (h : s.memOk) : (s.setVd k v).memOk :=
  h

theorem State.takeNew_memOk {s : State} {k n} (h : s.memOk) : OptSnd (s.takeNew k n) := by
  unfold State.takeNew
  dsimp only
  split
  · exact none_snd
  · split
    · exact none_snd
    · exact some_snd h

theorem State.moveTable_memOk {s : State} {k regions n table} (h : s.memOk) :
    OptSnd (s.moveTable k regions n table) := by
  induction n generalizing s table with
  | zero =>
    unfold State.moveTable
    dsimp only
    exact bind_ok (some_state h) fun h =>
      ite_ok (map_ok (State.takeNew_memOk h) fun h => pair_snd (State.arbiterWrite_memOk h)) (some_snd (pair_snd h))
  | succ n ih =>
    unfold State.moveTable
    dsimp only
    refine bind_ok (foldl_ok (P := OptOk) (fun {_} {_} ho => bind_ok ho fun {_} h => ?_) (some_state h)) fun h =>
      ite_ok (map_ok (State.takeNew_memOk h) fun h => pair_snd (State.arbiterWrite_memOk h)) (some_snd (pair_snd h))
    split
    · exact map_ok (ih h) fun h => ite_ok h (State.arbiterWrite_memOk h)
    · exact some_state h

theorem State.resetModule_memOk {s : State} {powered} (h : s.memOk) : (s.resetModule powered).memOk :=
  cellsWrite_ok _ _ (cellsOk_filter (fun k => decide (hostStart ≤ k) && decide (k < hostStart + 2 ^ 64)) h)

theorem execThermalTrip_memOk {board} {s : State} (h : s.memOk) : ResOk (execThermalTrip board s) := by
  unfold execThermalTrip
  exact next_ok (State.resetModule_memOk h)

theorem State.setRegion_memOk {s : State} {r v} (h : s.memOk) : (s.setRegion r v).memOk :=
  h

theorem State.setSide_memOk {s : State} {r p wr v} (h : s.memOk) : (s.setSide r p wr v).memOk :=
  h

theorem State.setJob_memOk {s : State} {r e j} (h : s.memOk) : (s.setJob r e j).memOk :=
  h

theorem State.setSeq_memOk {s : State} {q v} (h : s.memOk) : (s.setSeq q v).memOk :=
  h

theorem State.jobFault_memOk {s : State} {r e j cause addr engine} (h : s.memOk) :
    (s.jobFault r e j cause addr engine).memOk :=
  h

theorem State.writeFault_memOk {s : State} {r e j p c addr} (h : s.memOk) : (s.writeFault r e j p c addr).memOk :=
  h

theorem State.letIn_memOk {s : State} {r unit} (h : s.memOk) : OptOk (s.letIn r unit) := by
  unfold State.letIn
  dsimp only
  exact map_any h

theorem State.setCtx_memOk {s : State} {c v} (h : s.memOk) : (s.setCtx c v).memOk :=
  h

theorem State.firePort_memOk {s : State} {ctx r p} (h : s.memOk) : (s.firePort ctx r p).memOk := by
  unfold State.firePort
  split <;> exact h

theorem State.setAgent_memOk {s : State} {a v} (h : s.memOk) : (s.setAgent a v).memOk :=
  h

theorem State.place_memOk {s : State} {a e} (h : s.memOk) : (s.place a e).memOk := by
  unfold State.place
  dsimp only
  exact ite_ok h h

theorem State.sideMark_memOk {s : State} {r e j q p f t} (h : s.memOk) : OptOk (s.sideMark r e j q p f t) := by
  unfold State.sideMark
  dsimp only
  refine ite_ok none_state ?_
  refine ite_ok (some_state h) ?_
  refine ite_ok (some_state (State.firePort_memOk h)) ?_
  refine ite_ok (ite_ok (some_state h) (some_state h)) ?_
  refine ite_ok ?_ (some_state h)
  refine some_state ?_
  split
  · exact State.place_memOk (State.place_memOk h)
  · exact State.place_memOk h

theorem pairTake_memOk {s : State} {r e j q p} {flush : Option State} {data} {eot : State → State} (h : s.memOk)
    (hflush : OptOk flush) (heot : ∀ {x0}, State.memOk x0 → State.memOk (eot x0)) :
    OptOk (pairTake s r e j q p flush data eot) := by
  unfold pairTake
  dsimp only
  split
  · exact none_state
  · exact ite_ok (some_state h) hflush
  · exact ite_ok hflush (bind_ok (State.letIn_memOk h) (fun h1 => (State.sideMark_memOk h1)))
  · exact bind_ok (State.letIn_memOk h) (fun h2 => (bind_ok (State.letIn_memOk h2) (fun h3 => (some_state (ite_ok h3
      (ite_ok (heot h3) h3))))))

theorem State.closeWrite_memOk {s : State} {r e p out} (h : s.memOk) : (s.closeWrite r e p out).memOk := by
  unfold State.closeWrite
  dsimp only
  split <;> exact h

theorem State.takeTrap_memOk {s : State} {q cause addr resume} (h : s.memOk) :
    (s.takeTrap q cause addr resume).memOk := by
  unfold State.takeTrap
  dsimp only
  exact ite_ok h h

theorem State.raise_memOk {s : State} {q cause addr} (h : s.memOk) : (s.raise q cause addr).memOk := by
  unfold State.raise
  exact State.takeTrap_memOk h

theorem issueAs_memOk {s : State} {mark sliceOk} {f : ℕ → Res} (h : s.memOk) (hf : ∀ {x0}, ResOk (f x0)) :
    ResOk (issueAs s mark sliceOk f) := by
  unfold issueAs
  dsimp only
  split
  · exact refused_ok
  · exact ite_ok (next_ok (State.raise_memOk h)) (ite_ok (next_ok (State.raise_memOk h)) (ite_ok (next_ok
      (State.raise_memOk h)) hf))

theorem stall_memOk {s : State} (h : s.memOk) : ResOk (stall s) := by
  unfold stall
  exact next_ok h

theorem withCtx_memOk {s : State} {q} {f : ℕ → Ctx → Res} (h : s.memOk) (hf : ∀ {x0 x1}, ResOk (f x0 x1)) :
    ResOk (withCtx s q f) := by
  unfold withCtx
  split
  · split
    · exact hf
    · exact next_ok (State.raise_memOk h)
  · exact next_ok (State.raise_memOk h)

theorem State.finish_memOk {s : State} {q d x n} (h : s.memOk) : (s.finish q d x n).memOk :=
  h

theorem execFree_memOk {d a} {s : State} (h : s.memOk) : ResOk (execFree d a s) := by
  unfold execFree
  dsimp only
  exact issueAs_memOk h (ite_ok (stall_memOk h) (withCtx_memOk h (ite_ok (next_ok h) (next_ok h))))

theorem State.placeFence_memOk {s : State} {a e} (h : s.memOk) : (s.placeFence a e).memOk := by
  unfold State.placeFence
  exact ite_ok (State.place_memOk (State.place_memOk h)) (State.place_memOk h)

theorem State.await_memOk {s : State} {q n id hit} (h : s.memOk) : (s.await q n id hit).memOk :=
  h

theorem execSfence_memOk {k sc} {s : State} (h : s.memOk) : ResOk (execSfence k sc s) := by
  unfold execSfence
  dsimp only
  exact issueAs_memOk h (next_ok (State.await_memOk (State.placeFence_memOk h)))

theorem State.closeSecond_memOk {s : State} {r p} (h : s.memOk) : (s.closeSecond r p).memOk :=
  h

theorem State.setPlane_memOk {s : State} {k v} (h : s.memOk) : (s.setPlane k v).memOk :=
  h

theorem State.setArr_memOk {s : State} {r a b} (h : s.memOk) : (s.setArr r a b).memOk :=
  h

theorem State.cleanArrays_memOk {s : State} {r p} (h : s.memOk) : (s.cleanArrays r p).memOk := by
  unfold State.cleanArrays
  dsimp only
  exact foldl_ok (fun h2 => h2) h

theorem State.startDrain_memOk {s : State} {r p} (h : s.memOk) : (s.startDrain r p).memOk := by
  unfold State.startDrain
  dsimp only
  exact foldl_ok (fun h2 => (ite_ok h2 h2)) h

theorem State.bringToRest_memOk {s : State} {who r p} (h : s.memOk) : FstOk (s.bringToRest who r p) := by
  unfold State.bringToRest
  dsimp only
  exact ite_ok (ite_ok h h) (ite_ok (ite_ok (ite_ok (pair_fst (State.cleanArrays_memOk h)) h) (ite_ok (ite_ok h
      (pair_fst (State.startDrain_memOk h))) (ite_ok (pair_fst (State.cleanArrays_memOk h)) h))) h)

theorem State.nextSeal_memOk {s : State} {ctx c} (h : s.memOk) : (s.nextSeal ctx c).memOk :=
  h

theorem State.retire_memOk {s : State} {a} (h : s.memOk) : (s.retire a).memOk := h

theorem State.leaveContext_memOk {s : State} {q} (h : s.memOk) : (s.leaveContext q).memOk := by
  unfold State.leaveContext
  dsimp only
  refine State.setSeq_memOk ?_
  split <;> exact h

theorem State.vacate_memOk {s : State} {r p} (h : s.memOk) : (s.vacate r p).memOk := by
  unfold State.vacate
  dsimp only
  exact State.setPlane_memOk (ite_ok (State.leaveContext_memOk (State.with_memOk (foldl_ok (fun h16 => h16)
      (State.setRegion_memOk (foldl_ok (fun h15 => h15) (foldl_ok (fun h14 => (ite_ok h14 h14)) h))))))
      (State.with_memOk (foldl_ok (fun h21 => h21) (State.setRegion_memOk (foldl_ok (fun h20 => h20) (foldl_ok (fun
      h19 => (ite_ok h19 h19)) h))))))

theorem State.imageDone_memOk {s : State} {x addr} (h : s.memOk) : (s.imageDone x addr).memOk := by
  unfold State.imageDone
  dsimp only
  split
  · exact State.setCtx_memOk (State.vacate_memOk h)
  · exact State.vacate_memOk h

theorem State.dropBad_memOk {s : State} {req ctx page} (h : s.memOk) : (s.dropBad req ctx page).memOk :=
  h

theorem State.startWalk_memOk {s : State} {req board ctx va copy agent} (h : s.memOk) :
    (s.startWalk req board ctx va copy agent).memOk := by
  unfold State.startWalk
  dsimp only
  exact ite_ok h h

theorem State.reach_memOk {s : State} {q req va n use} (h : s.memOk) : Reach.Ok (s.reach q req va n use) := by
  unfold State.reach
  refine ite_ok (Reach.Ok.of_out (State.raise_memOk h)) ?_
  refine ite_ok (Reach.Ok.of_out (State.raise_memOk h)) ?_
  split
  · exact Reach.Ok.of_to
  · exact Reach.Ok.of_void
  · exact Reach.Ok.of_out (State.raise_memOk h)
  · exact Reach.Ok.of_out (State.startWalk_memOk h)
  · exact Reach.Ok.of_out (State.startWalk_memOk h)

theorem State.writeLine_memOk {s : State} {q va bs} (h : s.memOk) : SumOk (s.writeLine q va bs) := by
  unfold State.writeLine
  refine ite_ok (SumOk.of_inr h) ?_
  split
  · rename_i hq1
    have hu := Reach.Ok.out hq1 (State.reach_memOk h)
    exact SumOk.of_inr hu
  · exact SumOk.of_inl h
  · exact SumOk.of_inl (State.place_memOk h)

theorem execSave_memOk {d a b inc} {s : State} (h : s.memOk) : ResOk (execSave d a b inc s) := by
  unfold execSave
  dsimp only
  refine issueAs_memOk h (fun {_} => ?_)
  refine ite_ok (stall_memOk h) ?_
  split
  · exact next_ok (State.raise_memOk h)
  · refine ite_ok (next_ok (State.raise_memOk h)) ?_
    refine ite_ok (next_ok (State.raise_memOk h)) ?_
    refine ite_ok (next_ok (FstOk.fst (State.bringToRest_memOk h))) ?_
    split
    · exact next_ok (State.setSeq_memOk (State.with_memOk (State.nextSeal_memOk (FstOk.fst (State.bringToRest_memOk
        h)))))
    · refine ite_ok (ite_ok (next_ok (State.setSeq_memOk (FstOk.fst (State.bringToRest_memOk h)))) (next_ok
        (State.imageDone_memOk (State.finish_memOk (State.setSeq_memOk (FstOk.fst (State.bringToRest_memOk h))))))) ?_
      split
      · rename_i hq8
        have hu := SumOk.inr hq8 (State.writeLine_memOk (FstOk.fst (State.bringToRest_memOk h)))
        exact next_ok hu
      · rename_i hq8
        have hu := SumOk.inl hq8 (State.writeLine_memOk (FstOk.fst (State.bringToRest_memOk h)))
        exact ite_ok (next_ok hu) (next_ok (State.imageDone_memOk hu))

theorem State.jobLand_memOk {s : State} {r e j req cells use ev} (h : s.memOk) :
    Landed.Ok (s.jobLand r e j req cells use ev) := by
  unfold State.jobLand
  dsimp only
  split
  · exact Landed.Ok.of_fault h
  · exact Landed.Ok.of_void
  · exact Landed.Ok.of_parked (State.place_memOk (State.startWalk_memOk h))
  · exact Landed.Ok.of_parked (State.place_memOk (State.startWalk_memOk h))
  · exact Landed.Ok.of_placed (State.place_memOk h)

theorem State.fill_memOk {s : State} {requesters e} (h : s.memOk) : (s.fill requesters e).memOk := by
  unfold State.fill
  exact foldl_ok (fun h2 => h2) h

theorem State.poolFault_memOk {s : State} {w} (h : s.memOk) : (s.poolFault w).memOk := by
  unfold State.poolFault
  exact State.fill_memOk h

theorem State.takeFrame_memOk {s : State} {n c} (h : s.memOk) : OptTrd (s.takeFrame n c) := by
  unfold State.takeFrame
  dsimp only
  split
  · exact none_trd
  · exact some_trd (pair_trd h)

theorem State.charge_memOk {s : State} {region pj} (h : s.memOk) : (s.charge region pj).memOk :=
  h

theorem State.chargeAt_memOk {s : State} {requester key n} (h : s.memOk) : (s.chargeAt requester key n).memOk := by
  unfold State.chargeAt
  dsimp only
  split
  · exact h
  · exact h
  · split <;> exact h
  · split <;> exact h
  · exact h

theorem State.copyFor_memOk {s : State} {agent src dst} (h : s.memOk) : (s.copyFor agent src dst).memOk := by
  unfold State.copyFor
  exact State.chargeAt_memOk (State.chargeAt_memOk (State.mk_memOk (copyRead_wf h)))

theorem State.copyBranchPage_memOk {s : State} {w c b k} (h : s.memOk) : (s.copyBranchPage w c b k).memOk := by
  unfold State.copyBranchPage
  dsimp only
  refine ite_ok h ?_
  refine ite_ok (State.poolFault_memOk h) ?_
  split
  · exact h
  · refine ite_ok h ?_
    split
    · exact State.poolFault_memOk h
    · rename_i hq4
      have hu := OptTrd.get hq4 (State.takeFrame_memOk h)
      exact State.setCtx_memOk (State.copyFor_memOk hu)

theorem State.forget_memOk {s : State} {ctx page} (h : s.memOk) : (s.forget ctx page).memOk :=
  h

theorem State.copyTablePage_memOk {s : State} {w c} (h : s.memOk) : (s.copyTablePage w c).memOk := by
  unfold State.copyTablePage
  dsimp only
  split
  · exact State.fill_memOk h
  · refine ite_ok h ?_
    split
    · exact State.poolFault_memOk h
    · rename_i hq2
      have hu := OptTrd.get hq2 (State.takeFrame_memOk h)
      exact State.chargeAt_memOk (State.poke_memOk (State.forget_memOk (State.copyFor_memOk hu)))

theorem State.notifyCopy_memOk {s : State} {n va} (h : s.memOk) : (s.notifyCopy n va).memOk := by
  unfold State.notifyCopy
  dsimp only
  split
  · exact h
  · split
    · exact ite_ok (State.copyBranchPage_memOk h) (State.copyTablePage_memOk h)
    · exact State.copyTablePage_memOk h

theorem State.notifyKey_memOk {s : State} {n va} (h : s.memOk) : OptSnd (s.notifyKey n va) := by
  unfold State.notifyKey
  dsimp only
  split
  · exact none_snd
  · refine ite_ok (some_snd h) ?_
    split
    · exact ite_ok none_snd (some_snd (pair_snd (State.notifyCopy_memOk h)))
    · exact none_snd

theorem State.notifyAll_memOk {s : State} {v} (h : s.memOk) : (s.notifyAll v).memOk :=
  h

theorem State.written_memOk {s : State} {keys} (h : s.memOk) : (s.written keys).memOk :=
  h

theorem State.hostWrite_memOk {s : State} {key bs} (h : s.memOk) : (s.hostWrite key bs).memOk := by
  unfold State.hostWrite
  exact State.written_memOk (State.arbiterWrite_memOk h)

theorem execNotifyWrite_memOk {vf reg value} {s : State} (h : s.memOk) : ResOk (execNotifyWrite vf reg value s) := by
  unfold execNotifyWrite
  dsimp only
  refine ite_ok (stall_memOk h) ?_
  split
  · exact stall_memOk h
  · refine ite_ok (next_ok h) ?_
    split
    · exact next_ok h
    · rename_i hq3
      have hu := OptSnd.get hq3 (State.notifyKey_memOk h)
      exact next_ok (State.notifyAll_memOk (State.hostWrite_memOk hu))

theorem issueValue_memOk {s : State} {mark sliceOk d srcs n f} (h : s.memOk) :
    ResOk (issueValue s mark sliceOk d srcs n f) := by
  unfold issueValue
  dsimp only
  exact issueAs_memOk h (ite_ok (next_ok h) (stall_memOk h))

theorem aluImm_memOk {s : State} {d a y f} (h : s.memOk) : ResOk (aluImm s d a y f) := by
  unfold aluImm
  exact issueValue_memOk h

theorem execShri_memOk {d a i} {s : State} (h : s.memOk) : ResOk (execShri d a i s) := by
  unfold execShri
  exact aluImm_memOk h

theorem State.chargeEvent_memOk {s : State} {a e} (h : s.memOk) : (s.chargeEvent a e).memOk := by
  unfold State.chargeEvent
  split
  · exact ite_ok (State.chargeAt_memOk h) h
  · exact h

theorem asNode_memOk {s : State} {f : At → Res} (h : s.memOk) (hf : ∀ {x0}, ResOk (f x0)) : ResOk (asNode s f) := by
  unfold asNode
  dsimp only
  split
  · split
    · exact stall_memOk h
    · exact ite_ok (stall_memOk h) (ite_ok (ite_ok (next_ok h) (stall_memOk h)) (ite_ok (stall_memOk h) hf))
  · exact refused_ok

theorem emitTo_memOk {s : State} {a f done} (h : s.memOk) : ResOk (emitTo s a f done) := by
  unfold emitTo
  dsimp only
  exact next_ok h

theorem emitStep_memOk {s : State} {a f} (h : s.memOk) : ResOk (emitStep s a f) := by
  unfold emitStep
  exact emitTo_memOk h

theorem fire_memOk {s : State} {a f taken outs n fl} (h : s.memOk) : ResOk (fire s a f taken outs n fl) := by
  unfold fire
  dsimp only
  exact ite_ok (next_ok (ite_ok h h)) (stall_memOk h)

theorem State.setNode_memOk {s : State} {a n} (h : s.memOk) : (s.setNode a n).memOk :=
  h

theorem State.fabricFault_memOk {s : State} {plane bpc node pos cause addr aux} (h : s.memOk) :
    (s.fabricFault plane bpc node pos cause addr aux).memOk := by
  unfold State.fabricFault
  dsimp only
  exact ite_ok h h

theorem At.fault_memOk {a} {s : State} {cause addr pos} (h : s.memOk) : (At.fault a s cause addr pos).memOk := by
  unfold At.fault
  exact State.fabricFault_memOk h

theorem At.block_memOk {a} {s : State} {cause} (h : s.memOk) : (At.block a s cause).memOk := by
  unfold At.block
  dsimp only
  split
  · exact At.fault_memOk h
  · exact h

theorem wave_memOk {s : State} {a taken m} (h : s.memOk) : ResOk (wave s a taken m) := by
  unfold wave
  dsimp only
  exact next_ok h

theorem stdNode_memOk {s : State} {f ins} {onMark : At → List Head → Slot → Token → Option Res} {data : At → List
    Head → Res} (h : s.memOk) (honMark : ∀ {x0 x1 x2 x3}, OptRes (onMark x0 x1 x2 x3)) (hdata : ∀ {x0 x1}, ResOk
    (data x0 x1)) :
    ResOk (stdNode s f ins onMark data) := by
  unfold stdNode
  dsimp only
  refine asNode_memOk h (fun {_} => ?_)
  split
  · exact emitStep_memOk h
  · refine ite_ok (stall_memOk h) ?_
    split
    · exact fire_memOk h
    · split
      · exact stall_memOk h
      · exact next_ok (At.block_memOk h)
      · exact next_ok (At.fault_memOk h)
      · split
        · rename_i hq5
          have hu := OptRes.get hq5 honMark
          exact hu
        · exact fire_memOk h
      · split
        · rename_i hq5
          have hu := OptRes.get hq5 honMark
          exact hu
        · exact fire_memOk h
      · exact wave_memOk h
      · exact hdata
  · exact stall_memOk h

theorem execSret_memOk {f} {s : State} (h : s.memOk) : ResOk (execSret f s) := by
  unfold execSret
  dsimp only
  exact stdNode_memOk h (ite_ok (some_res (next_ok (At.fault_memOk h))) (some_res (fire_memOk h))) (ite_ok
      (stall_memOk h) (fire_memOk h))

theorem alu_memOk {s : State} {d a b f} (h : s.memOk) : ResOk (alu s d a b f) := by
  unfold alu
  exact issueValue_memOk h

theorem execSltu_memOk {d a b} {s : State} (h : s.memOk) : ResOk (execSltu d a b s) := by
  unfold execSltu
  exact alu_memOk h

theorem State.endTenq_memOk {s : State} {q d x} (h : s.memOk) : ResOk (s.endTenq q d x) := by
  unfold State.endTenq
  dsimp only
  exact next_ok h

theorem State.tenqRead_memOk {s : State} {q va n align got} {andThen : State → List Byte → Res} (h : s.memOk)
    (handThen : ∀ {x0 x1}, State.memOk x0 → ResOk (andThen x0 x1)) :
    ResOk (s.tenqRead q va n align got andThen) := by
  unfold State.tenqRead
  dsimp only
  split
  · rename_i hq
    have hu := Reach.Ok.out hq (State.reach_memOk h)
    exact next_ok hu
  · exact handThen h
  · exact next_ok (State.setSeq_memOk (State.await_memOk (State.place_memOk h)))

theorem tenqWrite_memOk {q d ctx c} {s : State} {got levels} (h : s.memOk) :
    ResOk (tenqWrite q d ctx c s got levels) := by
  unfold tenqWrite
  dsimp only
  split
  · exact State.endTenq_memOk h
  · split
    · exact State.endTenq_memOk h
    · exact ite_ok (State.endTenq_memOk h) (ite_ok (State.endTenq_memOk h) (State.endTenq_memOk h))

theorem tenqHeader_memOk {q d ctx c} {s : State} {got header} (h : s.memOk) :
    ResOk (tenqHeader q d ctx c s got header) := by
  unfold tenqHeader
  dsimp only
  split
  · exact State.endTenq_memOk h
  · exact ite_ok (State.endTenq_memOk h) (State.tenqRead_memOk h (fun h1 => (tenqWrite_memOk h1)))

theorem execMtst_memOk {f} {s : State} (h : s.memOk) : ResOk (execMtst f s) := by
  unfold execMtst
  dsimp only
  exact stdNode_memOk h (ite_ok (some_res (stall_memOk h)) (ite_ok (ite_ok (some_res (fire_memOk h)) (some_res
      (fire_memOk h))) (ite_ok (some_res (fire_memOk h)) (some_res (fire_memOk h))))) (fire_memOk h)

theorem State.chainFault_memOk {s : State} {r a j cause addr} (h : s.memOk) :
    (s.chainFault r a j cause addr).memOk := by
  unfold State.chainFault
  dsimp only
  split
  · exact h
  · split
    · exact h
    · exact ite_ok h h

theorem State.askSpill_memOk {s : State} {r e j va id} (h : s.memOk) : (s.askSpill r e j va id).memOk := by
  unfold State.askSpill
  dsimp only
  refine ite_ok ?_ ?_
  · split <;> exact h
  · split
    · rename_i hq1
      split
      · have hu := Landed.Ok.placed hq1 (State.jobLand_memOk h)
        exact hu
      · have hu := Landed.Ok.placed hq1 (State.jobLand_memOk h)
        exact hu
    · rename_i hq1
      split
      · have hu := Landed.Ok.parked hq1 (State.jobLand_memOk h)
        exact hu
      · have hu := Landed.Ok.parked hq1 (State.jobLand_memOk h)
        exact hu
    · split <;> exact h
    · rename_i hq1
      split
      · have hu := Landed.Ok.fault hq1 (State.jobLand_memOk h)
        exact hu
      · have hu := Landed.Ok.fault hq1 (State.jobLand_memOk h)
        exact hu

theorem State.emitSums_memOk {s : State} {x m} (h : s.memOk) : (s.emitSums x m).memOk := by
  unfold State.emitSums
  dsimp only
  exact ite_ok h h

theorem State.emitPlace_memOk {s : State} {x m} (h : s.memOk) : (s.emitPlace x m).memOk := by
  unfold State.emitPlace
  dsimp only
  split
  · exact State.setJob_memOk (State.charge_memOk (State.setArr_memOk (State.emitSums_memOk h)))
  · exact State.charge_memOk (State.setArr_memOk (State.emitSums_memOk h))

theorem State.tryEmit_memOk {s : State} {x} (h : s.memOk) : OptOk (s.tryEmit x) := by
  unfold State.tryEmit
  dsimp only
  refine ite_ok none_state ?_
  refine ite_ok ?_ ?_
  · split
    · exact some_state (State.emitPlace_memOk h)
    · exact some_state (State.chainFault_memOk h)
    · exact ite_ok none_state (some_state (State.askSpill_memOk h))
    · exact none_state
  · refine ite_ok none_state ?_
    split
    · exact some_state (State.chainFault_memOk h)
    · exact some_state (State.chainFault_memOk h)
    · exact ite_ok none_state (some_state (State.askSpill_memOk h))
    · exact ite_ok none_state (some_state (State.askSpill_memOk h))
    · exact some_state (State.emitPlace_memOk h)
    · exact none_state

theorem State.receive_memOk {s : State} {x t} (h : s.memOk) : OptOk (s.receive x t) := by
  unfold State.receive
  dsimp only
  refine ite_ok (some_state h) ?_
  refine ite_ok none_state ?_
  refine ite_ok (some_state (State.chainFault_memOk h)) ?_
  split
  · rename_i hq3
    have hu := Landed.Ok.placed hq3 (State.jobLand_memOk h)
    exact some_state hu
  · rename_i hq3
    have hu := Landed.Ok.parked hq3 (State.jobLand_memOk h)
    exact some_state hu
  · exact some_state h
  · rename_i hq3
    have hu := Landed.Ok.fault hq3 (State.jobLand_memOk h)
    exact some_state (State.chainFault_memOk hu)

theorem State.takeAt_memOk {s : State} {x t} {s' : State} (h : s.memOk) (hs' : s'.memOk) :
    OptOk (s.takeAt x t s') := by
  unfold State.takeAt
  dsimp only
  exact ite_ok (State.receive_memOk hs') (ite_ok (ite_ok (some_state hs') (some_state hs')) (ite_ok (some_state hs')
      (ite_ok (ite_ok (some_state hs') (ite_ok (some_state hs') (ite_ok (some_state (State.chainFault_memOk h))
      (some_state hs')))) (some_state hs'))))

theorem State.columnStep.go_memOk {x} {head : Option (Token × State)} {s : State} {b c} (hhead : OptSnd head) (h :
    s.memOk) :
    OptOk (State.columnStep.go x head s b c) := by
  unfold State.columnStep.go
  split
  · rename_i hq
    have hu := OptOk.get hq (State.tryEmit_memOk h)
    exact some_state hu
  · refine ite_ok none_state ?_
    refine ite_ok none_state ?_
    split
    · exact State.takeAt_memOk h (OptSnd.get rfl hhead)
    · exact none_state

theorem State.columnStep_memOk {s : State} {x} {head : Option (Token × State)} (h : s.memOk) (hhead : OptSnd head) :
    OptOk (s.columnStep x head) := by
  unfold State.columnStep
  dsimp only
  refine ite_ok none_state ?_
  split
  · exact ite_ok (some_state h) (State.columnStep.go_memOk hhead h)
  · exact State.columnStep.go_memOk hhead h

theorem State.discardInput_memOk {s : State} {r a k} (h : s.memOk) : OptOk (s.discardInput r a k) := by
  unfold State.discardInput
  dsimp only
  refine ite_ok none_state ?_
  split
  · exact none_state
  · exact ite_ok none_state (some_state h)

theorem State.portHead_memOk {s : State} {r a k} (h : s.memOk) : OptSnd (s.portHead r a k) := by
  unfold State.portHead
  dsimp only
  refine ite_ok none_snd ?_
  split
  · exact none_snd
  · exact ite_ok none_snd (ite_ok (some_snd h) (some_snd h))

theorem State.columnFire_memOk {s : State} {r a c} (h : s.memOk) : OptOk (s.columnFire r a c) := by
  unfold State.columnFire
  dsimp only
  refine bind_any (fun {_} => ?_)
  refine ite_ok none_state ?_
  refine bind_any (fun {_} => ?_)
  refine ite_ok none_state ?_
  split
  · exact State.columnStep_memOk h (some_snd h)
  · refine ite_ok (State.columnStep_memOk h none_snd) ?_
    split
    · rename_i hq6
      have hu := OptOk.get hq6 (State.discardInput_memOk h)
      exact some_state hu
    · split
      · exact State.columnStep_memOk h none_snd
      · rename_i hq7
        have hu := OptSnd.get hq7 (State.portHead_memOk h)
        refine ite_ok ?_ (State.columnStep_memOk h (some_snd hu))
        split
        · rename_i hq9
          have hu := OptOk.get hq9 (State.columnStep_memOk h none_snd)
          exact some_state hu
        · have hu := OptSnd.get hq7 (State.portHead_memOk h)
          exact some_state (State.chainFault_memOk hu)

theorem State.chargePiece_memOk {s : State} {q key} (h : s.memOk) : (s.chargePiece q key).memOk := by
  unfold State.chargePiece
  split
  · exact State.chargeAt_memOk h
  · exact h

theorem State.codeMiss_memOk {s : State} {q plane va} (h : s.memOk) : (s.codeMiss q plane va).memOk := by
  unfold State.codeMiss
  exact State.startWalk_memOk h

theorem State.blkStart_memOk {s : State} {q k d a} (h : s.memOk) : ResOk (s.blkStart q k d a) := by
  unfold State.blkStart
  dsimp only
  refine ite_ok (stall_memOk h) ?_
  split
  · exact next_ok h
  · exact next_ok h
  · split
    · exact next_ok (State.with_memOk (State.chargePiece_memOk h))
    · exact next_ok (State.codeMiss_memOk h)
    · exact next_ok h
    · exact stall_memOk h

theorem State.endSlice_memOk {s : State} {q} (h : s.memOk) : (s.endSlice q).memOk := by
  unfold State.endSlice
  dsimp only
  split
  · exact ite_ok (State.setSeq_memOk (State.setPlane_memOk (ite_ok h h))) (ite_ok h h)
  · exact ite_ok h h

theorem plainMarks_memOk {y0 y1 y2 y3} : OptRes (plainMarks y0 y1 y2 y3) :=
  none_res

theorem laneNode_memOk {s : State} {f ins g} (h : s.memOk) : ResOk (laneNode s f ins g) := by
  unfold laneNode
  dsimp only
  exact stdNode_memOk h plainMarks_memOk (fire_memOk h)

theorem State.reachObject_memOk {s : State} {q va use} (h : s.memOk) : Reach.Ok (s.reachObject q va use) := by
  unfold State.reachObject
  exact ite_ok (Reach.Ok.of_out (State.raise_memOk h)) (State.reach_memOk h)

theorem State.writeAreas_memOk {old : State} {new : State} (hnew : new.memOk) : (old.writeAreas new).memOk := by
  unfold State.writeAreas
  refine foldl_ok (fun {_} {_} h4 => ?_) hnew
  split
  · split
    · exact State.poke_memOk h4
    · exact h4

theorem State.startInstance_memOk {s : State} {serial vf d r index} (h : s.memOk) :
    (s.startInstance serial vf d r index).memOk := by
  unfold State.startInstance
  dsimp only
  split <;> exact h

theorem State.advance_memOk {s : State} {q n} (h : s.memOk) : (s.advance q n).memOk :=
  h

theorem execBrate_memOk {a b unit} {s : State} (h : s.memOk) : ResOk (execBrate a b unit s) := by
  unfold execBrate
  dsimp only
  exact issueAs_memOk h (ite_ok (stall_memOk h) (ite_ok (next_ok (State.raise_memOk h)) (next_ok h)))

theorem State.watchTrap_memOk {s : State} {q n i addr} (h : s.memOk) : (s.watchTrap q n i addr).memOk := by
  unfold State.watchTrap
  dsimp only
  exact State.takeTrap_memOk h

theorem State.doneWait_memOk {s : State} {q n hit} (h : s.memOk) : (s.doneWait q n hit).memOk := by
  unfold State.doneWait
  dsimp only
  split
  · exact State.watchTrap_memOk h
  · exact h

theorem State.callHome_memOk {s : State} {q n va size p op acq rel sc} (h : s.memOk) :
    (s.callHome q n va size p op acq rel sc).memOk := by
  unfold State.callHome
  dsimp only
  exact State.await_memOk (State.place_memOk h)

theorem State.freeWord_memOk {s : State} (h : s.memOk) : SndOk (s.freeWord) :=
  h

theorem State.createObject_memOk {s : State} {e w} (h : s.memOk) : ExSnd (s.createObject e w) := by
  unfold State.createObject
  dsimp only
  refine ite_ok (ExSnd.of_ok h) ?_
  split
  · exact ExSnd.of_error
  · exact ite_ok ExSnd.of_error (ExSnd.of_ok h)

theorem State.rmwResult_memOk {s : State} {e op old} (h : s.memOk) : ExSnd (s.rmwResult e op old) := by
  unfold State.rmwResult
  dsimp only
  split
  · exact ExSnd.of_ok h
  · split
    · exact ExSnd.of_error
    · split
      · exact ExSnd.of_error
      · refine ite_ok ?_ ?_
        · refine ExSnd.of_ok ?_
          refine pair_snd ?_
          refine SndOk.snd ?_
          refine State.freeWord_memOk ?_
          split <;> exact h
        · refine ExSnd.of_ok ?_
          refine pair_snd ?_
          split <;> exact h
  · exact State.createObject_memOk h

theorem State.arrivalIssued_memOk {s : State} {q va} (h : s.memOk) : OptOk (s.arrivalIssued q va) := by
  unfold State.arrivalIssued
  dsimp only
  refine bind_any (fun {_} => ?_)
  refine bind_any (fun {_} => ?_)
  split
  · refine ite_ok none_state ?_
    split
    · exact some_state h
    · exact none_state
  · exact none_state

theorem State.rmwTrap_memOk {s : State} {q c addr} (h : s.memOk) : (s.rmwTrap q c addr).memOk := by
  unfold State.rmwTrap
  exact State.raise_memOk h

theorem execSarrv_memOk {d a b rel} {s : State} (h : s.memOk) : ResOk (execSarrv d a b rel s) := by
  unfold execSarrv
  dsimp only
  refine issueAs_memOk h (fun {_} => ?_)
  split
  · split
    · have hu := OptOk.get ‹_› (State.arrivalIssued_memOk h)
      exact next_ok (State.doneWait_memOk hu)
    · exact stall_memOk h
  · split
    · exact next_ok (State.rmwTrap_memOk h)
    · refine ite_ok ?_ (next_ok (State.doneWait_memOk h))
      split
      · rename_i hq4
        have hu := Reach.Ok.out hq4 (State.reachObject_memOk h)
        exact next_ok hu
      · exact next_ok (State.doneWait_memOk h)
      · exact next_ok (State.callHome_memOk h)
  · refine ite_ok (stall_memOk h) ?_
    refine ite_ok ?_ ?_
    · refine ite_ok (next_ok (State.raise_memOk h)) ?_
      split
      · rename_i hq5
        have hu := Reach.Ok.out hq5 (State.reachObject_memOk h)
        exact next_ok hu
      · exact next_ok (State.doneWait_memOk h)
      · exact next_ok (State.callHome_memOk h)
    · split
      · rename_i hq4
        have hu := Reach.Ok.out hq4 (State.reachObject_memOk h)
        exact next_ok hu
      · exact next_ok h
      · exact ite_ok (next_ok (State.raise_memOk h)) (next_ok (State.await_memOk (State.place_memOk h)))

theorem State.fetchWord_memOk {s : State} {q addr} (h : s.memOk) : Fetched.Ok (s.fetchWord q addr) := by
  unfold State.fetchWord
  refine ite_ok (Fetched.Ok.of_out (State.raise_memOk h)) ?_
  refine ite_ok (Fetched.Ok.of_out h) ?_
  split
  · exact Fetched.Ok.of_word
  · split
    · exact ite_ok Fetched.Ok.of_word (Fetched.Ok.of_out h)
    · exact Fetched.Ok.of_word
    · exact Fetched.Ok.of_out (State.raise_memOk h)
    · exact Fetched.Ok.of_out (State.startWalk_memOk h)

theorem At.takeMark_memOk {a} {s : State} {f taken t n} (h : s.memOk) : ResOk (At.takeMark a s f taken t n) := by
  unfold At.takeMark
  dsimp only
  exact ite_ok (next_ok (State.setNode_memOk (State.placeFence_memOk h))) (next_ok h)

theorem execPrf_memOk {f} {s : State} (h : s.memOk) : ResOk (execPrf f s) := by
  unfold execPrf
  dsimp only
  refine asNode_memOk h (fun {_} => ?_)
  split
  · exact ite_ok (fire_memOk h) (stall_memOk h)
  · refine ite_ok (ite_ok (stall_memOk h) (next_ok h)) ?_
    refine stdNode_memOk ?_ (ite_ok none_res (ite_ok (some_res (stall_memOk h)) (some_res (At.takeMark_memOk h))))
        (fun {_} {_} => ?_)
    · split
      · refine ite_ok ?_ h
        refine foldl_ok (fun {_} {_} h5 => ?_) h
        refine ite_ok ?_ h5
        split
        · exact State.startWalk_memOk h5
        · exact h5
      · exact h
    · refine fire_memOk ?_
      split
      · refine ite_ok ?_ h
        refine foldl_ok (fun {_} {_} h10 => ?_) h
        refine ite_ok ?_ h10
        split
        · exact State.startWalk_memOk h10
        · exact h10
      · exact h

theorem State.unmapRoot_memOk {s : State} {b page} (h : s.memOk) : (s.unmapRoot b page).memOk := by
  unfold State.unmapRoot
  exact ite_ok h h

theorem At.joinPages_memOk {a} {s : State} {fuel va top l} (h : s.memOk) :
    JoinReach.Ok (At.joinPages a s fuel va top l) := by
  induction fuel generalizing va l with
  | zero => exact JoinReach.Ok.of_range
  | succ fuel ih =>
    unfold At.joinPages
    dsimp only
    refine ite_ok JoinReach.Ok.of_range ?_
    split
    · exact JoinReach.Ok.of_fault (State.dropBad_memOk h)
    · exact JoinReach.Ok.of_out (State.startWalk_memOk h)
    · exact JoinReach.Ok.of_out (State.startWalk_memOk h)
    · exact ih
    · split
      · exact JoinReach.Ok.of_fault (State.dropBad_memOk h)
      · exact JoinReach.Ok.of_out (State.startWalk_memOk h)
      · exact JoinReach.Ok.of_out (State.startWalk_memOk h)
      · exact ih
      · exact ih

theorem At.joinRange_memOk {a} {s : State} {p} (h : s.memOk) : JoinReach.Ok (At.joinRange a s p) := by
  unfold At.joinRange
  dsimp only
  exact ite_ok (JoinReach.Ok.of_fault h) (ite_ok (JoinReach.Ok.of_fault h) (At.joinPages_memOk h))

theorem rtForward_memOk {s : State} {f} (h : s.memOk) : ResOk (rtForward s f) := by
  unfold rtForward
  dsimp only
  exact stdNode_memOk h (ite_ok (some_res (fire_memOk h)) none_res) (fire_memOk h)

theorem At.rtFault_memOk {a} {s : State} {cause addr pos} (h : s.memOk) : ResOk (At.rtFault a s cause addr pos) := by
  unfold At.rtFault
  exact next_ok (State.fabricFault_memOk h)

theorem At.land_memOk {a} {s : State} {va cells use e} (h : s.memOk) : Landed.Ok (At.land a s va cells use e) := by
  unfold At.land
  dsimp only
  split
  · exact Landed.Ok.of_fault h
  · exact Landed.Ok.of_void
  · exact Landed.Ok.of_parked (State.place_memOk (State.startWalk_memOk h))
  · exact Landed.Ok.of_parked (State.place_memOk (State.startWalk_memOk h))
  · exact Landed.Ok.of_placed (State.place_memOk h)

theorem At.rtEvict_memOk {a} {s : State} {f rids mark} (h : s.memOk) : ResOk (At.rtEvict a s f rids mark) := by
  unfold At.rtEvict
  dsimp only
  split
  · exact stall_memOk h
  · refine ite_ok (stall_memOk h) ?_
    refine ite_ok (At.rtFault_memOk h) ?_
    refine ite_ok (At.rtFault_memOk h) ?_
    split
    · exact next_ok (State.startWalk_memOk h)
    · exact next_ok (State.startWalk_memOk h)
    · split
      · rename_i hq5
        have hu := Landed.Ok.fault hq5 (At.land_memOk h)
        exact At.rtFault_memOk hu
      · rename_i hq5
        have hu := Landed.Ok.placed hq5 (At.land_memOk h)
        exact ite_ok (next_ok hu) (next_ok hu)
      · exact next_ok h

theorem At.rtMakeRoom_memOk {a} {s : State} (h : s.memOk) : ResOk (At.rtMakeRoom a s) := by
  unfold At.rtMakeRoom
  dsimp only
  split
  · exact ite_ok (stall_memOk h) (next_ok h)
  · exact stall_memOk h

theorem At.rtRecord_memOk {a} {s : State} {f c} (h : s.memOk) : ResOk (At.rtRecord a s f c) := by
  unfold At.rtRecord
  dsimp only
  refine ite_ok (next_ok h) ?_
  refine ite_ok (ite_ok (At.rtMakeRoom_memOk h) (At.rtFault_memOk h)) ?_
  refine ite_ok (next_ok h) ?_
  refine ite_ok (At.rtFault_memOk h) ?_
  refine ite_ok (At.rtFault_memOk h) ?_
  split
  · rename_i hq5
    have hu := Landed.Ok.fault hq5 (At.land_memOk h)
    exact At.rtFault_memOk hu
  · exact next_ok h
  · rename_i hq5
    have hu := Landed.Ok.parked hq5 (At.land_memOk h)
    exact next_ok hu
  · rename_i hq5
    have hu := Landed.Ok.placed hq5 (At.land_memOk h)
    exact next_ok hu

theorem rtRoot_memOk {s : State} {f} (h : s.memOk) : ResOk (rtRoot s f) := by
  unfold rtRoot
  dsimp only
  refine asNode_memOk h (fun {_} => ?_)
  split
  · exact emitStep_memOk h
  · exact ite_ok (next_ok h) (stall_memOk h)
  · split
    · refine ite_ok (stall_memOk h) ?_
      split
      · exact next_ok (State.fabricFault_memOk h)
      · exact next_ok h
    · exact ite_ok (stall_memOk h) (ite_ok (ite_ok (next_ok h) (At.rtEvict_memOk h)) (ite_ok (next_ok h) (ite_ok
        (next_ok h) (At.rtRecord_memOk h))))
    · refine ite_ok (stall_memOk h) ?_
      split
      · exact stall_memOk h
      · exact next_ok (At.block_memOk h)
      · exact next_ok (At.fault_memOk h)
      · exact wave_memOk h
      · exact At.takeMark_memOk h
      · exact ite_ok (fire_memOk h) (fire_memOk h)
      · exact fire_memOk h
  · exact stall_memOk h

theorem execRtree_memOk {f} {s : State} (h : s.memOk) : ResOk (execRtree f s) := by
  unfold execRtree
  dsimp only
  exact ite_ok (asNode_memOk h (ite_ok (next_ok h) (rtForward_memOk h))) (rtRoot_memOk h)

theorem State.release_memOk {s : State} {r o w} (h : s.memOk) : (s.release r o w).memOk := by
  unfold State.release
  dsimp only
  exact ite_ok (State.setSide_memOk (ite_ok (ite_ok h h) h)) (ite_ok (ite_ok h h) h)

theorem pipsForm_memOk {s : State} {f value set} (h : s.memOk) : ResOk (pipsForm s f value set) := by
  unfold pipsForm
  dsimp only
  exact stdNode_memOk h plainMarks_memOk (fire_memOk h)

theorem execPipsRd_memOk {f} {s : State} (h : s.memOk) : ResOk (execPipsRd f s) := by
  unfold execPipsRd
  exact pipsForm_memOk h

theorem endMarks_memOk {s : State} {f y2 y3 y4 y5} (h : s.memOk) : OptRes (endMarks s f y2 y3 y4 y5) := by
  unfold endMarks
  exact ite_ok (some_res (next_ok (At.fault_memOk h))) (some_res (fire_memOk h))

theorem State.ask_memOk {s : State} {k slot squares} (h : s.memOk) : (s.ask k slot squares).memOk := by
  unfold State.ask
  dsimp only
  exact foldl_ok (fun h2 => (ite_ok h2 h2)) h

theorem State.complete_memOk {s : State} {p status result} (h : s.memOk) : ResOk (s.complete p status result) := by
  unfold State.complete
  dsimp only
  exact next_ok (State.with_memOk (State.arbiterWrite_memOk h))

theorem State.begun_memOk {old : State} {o : Res} (ho : ResOk o) : ResOk (old.begun o) := by
  unfold State.begun
  dsimp only
  split
  · exact next_ok (ite_ok (State.with_memOk (ResOk.get rfl ho)) (ResOk.get rfl ho))
  · exact ho

theorem asCommand_memOk {cmd} {s : State} {f : Packet → Res} (h : s.memOk) (hf : ∀ {x0}, ResOk (f x0)) :
    ResOk (asCommand cmd s f) := by
  unfold asCommand
  split
  · exact stall_memOk h
  · exact ite_ok (stall_memOk h) (ite_ok (State.complete_memOk h) (State.begun_memOk hf))

theorem execAttest_memOk {s : State} (h : s.memOk) : ResOk (execAttest s) := by
  unfold execAttest
  dsimp only
  refine asCommand_memOk h (fun {_} => ?_)
  refine ite_ok (ite_ok (State.complete_memOk h) (State.complete_memOk (State.arbiterWrite_memOk h))) ?_
  split
  · exact State.complete_memOk h
  · exact ite_ok (State.complete_memOk h) (State.complete_memOk (State.arbiterWrite_memOk h))

theorem State.answer_memOk {s : State} {a r} (h : s.memOk) : (s.answer a r).memOk := by
  unfold State.answer
  dsimp only
  exact ite_ok h h

theorem State.voidBranches_memOk {s : State} {ctx c bs} (h : s.memOk) : (s.voidBranches ctx c bs).memOk := by
  unfold State.voidBranches
  dsimp only
  exact foldl_ok (fun h2 => (foldl_ok (fun h3 => (State.answer_memOk h3)) h2)) h

theorem State.changeMembers_memOk {s : State} {who n va join bs} (h : s.memOk) :
    (s.changeMembers who n va join bs).memOk := by
  unfold State.changeMembers
  dsimp only
  split
  · exact h
  · split
    · exact h
    · split
      · exact h
      · exact State.chargeAt_memOk (State.written_memOk (State.poke_memOk h))

theorem State.walkBranches_memOk {s : State} {ctx c bs} (h : s.memOk) : (s.walkBranches ctx c bs).memOk := by
  unfold State.walkBranches
  dsimp only
  split
  · exact foldl_ok (fun h1 => (State.changeMembers_memOk h1)) (State.setCtx_memOk (State.voidBranches_memOk h))
  · exact State.with_memOk (State.setCtx_memOk (foldl_ok (fun h3 => (State.changeMembers_memOk h3))
      (State.setCtx_memOk (State.voidBranches_memOk h))))

theorem execResignWalk_memOk {ctx branch} {s : State} (h : s.memOk) : ResOk (execResignWalk ctx branch s) := by
  unfold execResignWalk
  split
  · exact stall_memOk h
  · exact ite_ok (stall_memOk h) (next_ok (State.walkBranches_memOk h))

theorem writeRun_memOk {s : State} {r e j req run tag} (h : s.memOk) : FstOk (writeRun s r e j req run tag) := by
  unfold writeRun
  dsimp only
  refine ite_ok h ?_
  split
  · rename_i hq1
    have hu := Landed.Ok.placed hq1 (State.jobLand_memOk h)
    exact hu
  · rename_i hq1
    have hu := Landed.Ok.parked hq1 (State.jobLand_memOk h)
    exact hu
  · exact h
  · rename_i hq1
    have hu := Landed.Ok.fault hq1 (State.jobLand_memOk h)
    exact hu

theorem acpyStep.arrival_memOk {r e dst bar} {s : State} {j} (h : s.memOk) :
    OptOk (acpyStep.arrival r e dst bar s j) := by
  unfold acpyStep.arrival
  dsimp only
  split
  · exact none_state
  · refine ite_ok none_state ?_
    refine ite_ok (some_state h) ?_
    refine ite_ok (some_state h) ?_
    split
    · rename_i hq4
      have hu := Landed.Ok.placed hq4 (State.jobLand_memOk h)
      exact some_state hu
    · rename_i hq4
      have hu := Landed.Ok.parked hq4 (State.jobLand_memOk h)
      exact some_state hu
    · exact some_state h
    · rename_i hq4
      have hu := Landed.Ok.fault hq4 (State.jobLand_memOk h)
      exact some_state hu

theorem readRun_memOk {s : State} {r e j req p use tagged first} (h : s.memOk) :
    FstOk (readRun s r e j req p use tagged first) := by
  unfold readRun
  dsimp only
  refine ite_ok h ?_
  split
  · rename_i hq1
    have hu := Landed.Ok.placed hq1 (State.jobLand_memOk h)
    exact hu
  · rename_i hq1
    have hu := Landed.Ok.parked hq1 (State.jobLand_memOk h)
    exact hu
  · exact h
  · rename_i hq1
    have hu := Landed.Ok.fault hq1 (State.jobLand_memOk h)
    exact hu

theorem acpyStep.fetch_memOk {r e} {s : State} {j p} (h : s.memOk) : OptOk (acpyStep.fetch r e s j p) := by
  unfold acpyStep.fetch
  split
  · rename_i hq
    have hu := FstOk.get hq (readRun_memOk h)
    exact some_state hu

theorem acpyStep_memOk {s : State} {r e j dst src bar} (h : s.memOk) : OptOk (acpyStep s r e j dst src bar) := by
  unfold acpyStep
  dsimp only
  refine ite_ok none_state ?_
  refine ite_ok ?_ ?_
  · refine ite_ok none_state ?_
    split
    · exact some_state (State.setJob_memOk (FstOk.fst (writeRun_memOk h)))
    · exact some_state (State.jobFault_memOk (FstOk.fst (writeRun_memOk h)))
  · split
    · exact ite_ok (some_state h) (ite_ok (some_state h) (ite_ok (some_state h) (acpyStep.arrival_memOk h)))
    · refine ite_ok (some_state h) ?_
      refine ite_ok (some_state h) ?_
      split
      · split
        · exact some_state h
        · split <;> exact some_state h
        · exact ite_ok (acpyStep.fetch_memOk h) none_state
      · exact ite_ok (acpyStep.fetch_memOk h) (ite_ok none_state (ite_ok (some_state h) (ite_ok (some_state h)
          (acpyStep.arrival_memOk h))))

theorem State.setColumn_memOk {s : State} {r a c x} (h : s.memOk) : (s.setColumn r a c x).memOk :=
  h

theorem loadBlock_memOk {s : State} {r e j a col off cb k bs tag} (h : s.memOk) :
    (loadBlock s r e j a col off cb k bs tag).memOk := by
  unfold loadBlock
  dsimp only
  exact State.setColumn_memOk (State.place_memOk h)

theorem bwldStep_memOk {s : State} {r e j src len arr col off slot cb} (h : s.memOk) :
    OptOk (bwldStep s r e j src len arr col off slot cb) := by
  unfold bwldStep
  dsimp only
  refine ite_ok none_state ?_
  split
  · split
    · exact some_state h
    · exact ite_ok (some_state h) (some_state (State.setJob_memOk (foldl_ok (fun h2 => (loadBlock_memOk h2)) h)))
    · refine ite_ok ?_ none_state
      refine ite_ok (some_state h) ?_
      split
      · rename_i hq5
        have hu := Landed.Ok.placed hq5 (State.jobLand_memOk h)
        exact some_state hu
      · rename_i hq5
        have hu := Landed.Ok.parked hq5 (State.jobLand_memOk h)
        exact some_state hu
      · exact some_state h
      · rename_i hq5
        have hu := Landed.Ok.fault hq5 (State.jobLand_memOk h)
        exact some_state hu
  · refine ite_ok ?_ (ite_ok (some_state h) none_state)
    refine ite_ok ?_ none_state
    refine ite_ok (some_state h) ?_
    split
    · rename_i hq5
      have hu := Landed.Ok.placed hq5 (State.jobLand_memOk h)
      exact some_state hu
    · rename_i hq5
      have hu := Landed.Ok.parked hq5 (State.jobLand_memOk h)
      exact some_state hu
    · exact some_state h
    · rename_i hq5
      have hu := Landed.Ok.fault hq5 (State.jobLand_memOk h)
      exact some_state hu

theorem copyStep_memOk {s : State} {r e} (h : s.memOk) : OptOk (copyStep s r e) := by
  unfold copyStep
  split
  · exact none_state
  · refine ite_ok none_state ?_
    split
    · exact acpyStep_memOk h
    · exact bwldStep_memOk h
    · exact none_state

theorem copyRun_memOk {r e fuel} {s : State} (h : s.memOk) : (copyRun r e fuel s).memOk := by
  induction fuel generalizing s with
  | zero => exact h
  | succ fuel ih =>
    unfold copyRun
    split
    · exact ih (OptOk.get ‹_› (copyStep_memOk h))
    · exact h

theorem State.copyOn_memOk {s : State} {r e} (h : s.memOk) : (s.copyOn r e).memOk := by
  unfold State.copyOn
  split
  · exact copyRun_memOk h
  · exact h

theorem State.unqueue_memOk {s : State} {a index} (h : s.memOk) : (s.unqueue a index).memOk :=
  h

theorem State.voidParked_memOk {s : State} {a index e} (h : s.memOk) : (s.voidParked a index e).memOk := by
  unfold State.voidParked
  dsimp only
  exact ite_ok h h

theorem State.parkedNodeFault_memOk {s : State} {a index plane e c} (h : s.memOk) :
    (s.parkedNodeFault a index plane e c).memOk := by
  unfold State.parkedNodeFault
  dsimp only
  split <;> exact h

theorem State.jobFlight_memOk {s : State} {r e index g} (h : s.memOk) : (s.jobFlight r e index g).memOk := by
  unfold State.jobFlight
  dsimp only
  split
  · exact h
  · split
    · exact ite_ok h h
    · exact h

theorem State.spillFault_memOk {s : State} {r arrs va c} (h : s.memOk) : (s.spillFault r arrs va c).memOk := by
  unfold State.spillFault
  dsimp only
  refine foldl_ok (fun {_} {_} h4 => ?_) h
  split
  · exact ite_ok (State.chainFault_memOk h4) h4
  · exact h4

theorem State.parkedJobFault_memOk {s : State} {a index r e ev c} (h : s.memOk) :
    (s.parkedJobFault a index r e ev c).memOk := by
  unfold State.parkedJobFault
  dsimp only
  split
  · refine ite_ok ?_ (State.copyOn_memOk (State.jobFlight_memOk h))
    split <;> exact h
  · split
    · exact h
    · split
      · exact h
      · exact State.spillFault_memOk h
      · exact h

theorem State.unpark_memOk {s : State} {a index e} (h : s.memOk) : (s.unpark a index e).memOk := by
  unfold State.unpark
  dsimp only
  split
  · split
    · exact State.copyOn_memOk h
    · exact h
  · exact State.voidParked_memOk h
  · exact State.startWalk_memOk h
  · exact State.startWalk_memOk h
  · split
    · exact State.parkedNodeFault_memOk h
    · exact State.parkedJobFault_memOk h
    · exact h

theorem setNode_memOk {op f} {s : State} (h : s.memOk) : ResOk (setNode op f s) := by
  unfold setNode
  dsimp only
  refine asNode_memOk h (fun {_} => ?_)
  split
  · exact emitStep_memOk h
  · refine ite_ok (next_ok (At.block_memOk h)) ?_
    split
    · exact next_ok h
    · exact next_ok h
    · exact fire_memOk h
    · exact fire_memOk h
    · exact next_ok (At.fault_memOk h)
    · exact next_ok (At.fault_memOk h)
    · refine ite_ok (next_ok h) ?_
      refine ite_ok (next_ok h) ?_
      refine ite_ok (fire_memOk h) ?_
      split
      · exact ite_ok (ite_ok (fire_memOk h) (stall_memOk h)) (ite_ok (wave_memOk h) (ite_ok (next_ok (At.fault_memOk
          h)) (stall_memOk h)))
      · exact stall_memOk h
  · exact stall_memOk h

theorem execUnio_memOk {f} {s : State} (h : s.memOk) : ResOk (execUnio f s) := by
  unfold execUnio
  exact setNode_memOk h

theorem scaleMarks_memOk {s : State} {f y2 y3 y4 y5} (h : s.memOk) : OptRes (scaleMarks s f y2 y3 y4 y5) := by
  unfold scaleMarks
  dsimp only
  exact ite_ok (some_res (fire_memOk h)) (ite_ok (some_res (fire_memOk h)) none_res)

theorem scaledNode_memOk {s : State} {f g} (h : s.memOk) : ResOk (scaledNode s f g) := by
  unfold scaledNode
  dsimp only
  exact stdNode_memOk h (scaleMarks_memOk h) (fire_memOk h)

theorem execBdq_memOk {f} {s : State} (h : s.memOk) : ResOk (execBdq f s) := by
  unfold execBdq
  dsimp only
  exact scaledNode_memOk h

theorem withPlane_memOk {s : State} {q} {f : ℕ → Res} (h : s.memOk) (hf : ∀ {x0}, ResOk (f x0)) :
    ResOk (withPlane s q f) := by
  unfold withPlane
  refine ite_ok (next_ok (State.raise_memOk h)) ?_
  split
  · exact hf
  · exact next_ok (State.raise_memOk h)

theorem State.wideReach_memOk {s : State} {q va use} (h : s.memOk) : Reach.Ok (s.wideReach q va use) := by
  unfold State.wideReach
  exact State.reach_memOk h

theorem execCbld_memOk {n a i} {s : State} (h : s.memOk) : ResOk (execCbld n a i s) := by
  unfold execCbld
  dsimp only
  refine issueAs_memOk h (fun {_} => ?_)
  refine ite_ok (stall_memOk h) ?_
  refine withPlane_memOk h (fun {_} => ?_)
  split
  · rename_i hq3
    have hu := Reach.Ok.out hq3 (State.wideReach_memOk h)
    exact next_ok hu
  · exact next_ok h
  · exact next_ok (State.advance_memOk (State.place_memOk h))

theorem State.takeImages_memOk {s : State} {k n} (h : s.memOk) : OptSnd (s.takeImages k n) := by
  induction n generalizing s with
  | zero => exact some_snd h
  | succ n ih => exact bind_ok (State.takeNew_memOk h) fun h => map_ok (ih h) fun h => h

theorem execSuccessorFetch_memOk {region plane} {s : State} (h : s.memOk) :
    ResOk (execSuccessorFetch region plane s) := by
  unfold execSuccessorFetch
  dsimp only
  split
  · exact stall_memOk h
  · refine ite_ok (stall_memOk h) ?_
    split
    · exact stall_memOk h
    · refine ite_ok (next_ok h) ?_
      split
      · exact next_ok h
      · split
        · exact next_ok (State.with_memOk (State.chargePiece_memOk h))
        · exact next_ok (State.codeMiss_memOk h)
        · exact next_ok h
        · exact stall_memOk h
      · exact next_ok h

theorem State.freePick_memOk {s : State} {n} (h : s.memOk) : SndOk (s.freePick n) :=
  h

theorem execFrzOn_memOk {s : State} (h : s.memOk) : ResOk (execFrzOn s) := by
  unfold execFrzOn
  dsimp only
  exact issueAs_memOk h (withPlane_memOk h (next_ok (State.advance_memOk (ite_ok h h))))

theorem State.routerFault_memOk {s : State} {k e} (h : s.memOk) : (s.routerFault k e).memOk := by
  unfold State.routerFault
  exact State.fabricFault_memOk h

theorem execEret_memOk {s : State} (h : s.memOk) : ResOk (execEret s) := by
  unfold execEret
  dsimp only
  exact issueAs_memOk h (next_ok h)

theorem State.zeroAcc_memOk {s : State} {d} (h : s.memOk) : (s.zeroAcc d).memOk := by
  unfold State.zeroAcc
  dsimp only
  split <;> exact h

theorem At.runLanes_memOk {a serial g fuel} {s : State} {c} (h : s.memOk) :
    FstOk (At.runLanes a serial g fuel s c) := by
  induction fuel generalizing s c with
  | zero => exact h
  | succ fuel ih =>
    unfold At.runLanes
    dsimp only
    refine ite_ok h ?_
    split
    · exact ih h
    · exact State.placeFence_memOk h
    · exact h
    · refine ite_ok h (ite_ok h ?_)
      split
      · exact Landed.Ok.fault ‹_› (At.land_memOk h)
      · exact ih (State.zeroAcc_memOk h)
      · exact Landed.Ok.parked ‹_› (At.land_memOk h)
      · have hu := Landed.Ok.placed ‹_› (At.land_memOk h)
        exact ite_ok hu (ih hu)

theorem At.goOn_memOk {a} {s : State} {r c} (h : s.memOk) : ResOk (At.goOn a s r c) := by
  unfold At.goOn
  dsimp only
  split
  · exact next_ok h
  · refine ite_ok ?_ ?_
    · refine ite_ok (stall_memOk h) ?_
      split <;> exact next_ok h
    · split
      · rename_i hq2
        have hu := FstOk.get hq2 (At.runLanes_memOk h)
        exact next_ok hu
      · rename_i hq2
        have hu := FstOk.get hq2 (At.runLanes_memOk h)
        exact next_ok hu
      · rename_i hq2
        have hu := FstOk.get hq2 (At.runLanes_memOk h)
        exact ite_ok (next_ok hu) (next_ok hu)

theorem At.parkAhead_memOk {a} {s : State} {r c} (h : s.memOk) : (At.parkAhead a s r c).memOk := by
  unfold At.parkAhead
  refine foldl_ok (fun {_} {_} h4 => ?_) h
  refine ite_ok h4 ?_
  split
  · refine ite_ok h4 ?_
    split
    · exact State.startWalk_memOk h4
    · exact h4
  · exact h4

theorem At.startWaiting_memOk {a} {s : State} {r c rest} (h : s.memOk) : ResOk (At.startWaiting a s r c rest) := by
  unfold At.startWaiting
  dsimp only
  exact At.goOn_memOk h

theorem At.leave_memOk {a} {s : State} {f r c rest} (h : s.memOk) : ResOk (At.leave a s f r c rest) := by
  unfold At.leave
  dsimp only
  split
  · exact fire_memOk h
  · split
    · rename_i hq1
      have hu := ResOk.get hq1 (fire_memOk h)
      exact ite_ok (next_ok (State.fabricFault_memOk hu)) (next_ok hu)
    · exact fire_memOk h

theorem memNode_memOk {s : State} {f ins rule} {onMark : At → List Head → Slot → Token → Option Res} {begin_ hold} (h
    : s.memOk) (honMark : ∀ {x0 x1 x2 x3}, OptRes (onMark x0 x1 x2 x3)) :
    ResOk (memNode s f ins rule onMark begin_ hold) := by
  unfold memNode
  dsimp only
  refine asNode_memOk h (fun {_} => ?_)
  split
  · exact emitStep_memOk h
  · split
    · refine ite_ok (At.leave_memOk h) ?_
      split
      · exact ite_ok (stall_memOk h) (ite_ok (ite_ok (next_ok (foldl_ok (fun h1 => (At.parkAhead_memOk h1)) h))
          (ite_ok (stall_memOk h) (next_ok h))) (At.goOn_memOk h))
      · split
        · exact ite_ok (stall_memOk h) (At.startWaiting_memOk h)
        · refine ite_ok (ite_ok (next_ok h) (stall_memOk h)) ?_
          refine ite_ok (stall_memOk h) ?_
          split
          · exact stall_memOk h
          · exact next_ok (At.block_memOk h)
          · exact next_ok (At.fault_memOk h)
          · exact wave_memOk h
          · split
            · rename_i hq9
              have hu := OptRes.get hq9 honMark
              exact hu
            · exact At.takeMark_memOk h
          · split
            · rename_i hq9
              have hu := OptRes.get hq9 honMark
              exact hu
            · exact At.takeMark_memOk h
          · exact At.goOn_memOk h
    · split
      · exact ite_ok (stall_memOk h) (ite_ok (ite_ok (next_ok (foldl_ok (fun h2 => (At.parkAhead_memOk h2)) h))
          (ite_ok (stall_memOk h) (next_ok h))) (At.goOn_memOk h))
      · split
        · exact ite_ok (stall_memOk h) (At.startWaiting_memOk h)
        · refine ite_ok (ite_ok (next_ok h) (stall_memOk h)) ?_
          refine ite_ok (stall_memOk h) ?_
          split
          · exact stall_memOk h
          · exact next_ok (At.block_memOk h)
          · exact next_ok (At.fault_memOk h)
          · exact wave_memOk h
          · split
            · rename_i hq8
              have hu := OptRes.get hq8 honMark
              exact hu
            · exact At.takeMark_memOk h
          · split
            · rename_i hq8
              have hu := OptRes.get hq8 honMark
              exact hu
            · exact At.takeMark_memOk h
          · exact At.goOn_memOk h
  · split
    · refine ite_ok (At.leave_memOk h) ?_
      split
      · exact ite_ok (stall_memOk h) (ite_ok (ite_ok (next_ok (foldl_ok (fun h3 => (At.parkAhead_memOk h3)) h))
          (ite_ok (stall_memOk h) (next_ok h))) (At.goOn_memOk h))
      · split
        · exact ite_ok (stall_memOk h) (At.startWaiting_memOk h)
        · refine ite_ok (ite_ok (next_ok h) (stall_memOk h)) ?_
          refine ite_ok (stall_memOk h) ?_
          split
          · exact stall_memOk h
          · exact next_ok (At.block_memOk h)
          · exact next_ok (At.fault_memOk h)
          · exact wave_memOk h
          · split
            · rename_i hq9
              have hu := OptRes.get hq9 honMark
              exact hu
            · exact At.takeMark_memOk h
          · split
            · rename_i hq9
              have hu := OptRes.get hq9 honMark
              exact hu
            · exact At.takeMark_memOk h
          · exact At.goOn_memOk h
    · split
      · exact ite_ok (stall_memOk h) (ite_ok (ite_ok (next_ok (foldl_ok (fun h4 => (At.parkAhead_memOk h4)) h))
          (ite_ok (stall_memOk h) (next_ok h))) (At.goOn_memOk h))
      · split
        · exact ite_ok (stall_memOk h) (At.startWaiting_memOk h)
        · refine ite_ok (ite_ok (next_ok h) (stall_memOk h)) ?_
          refine ite_ok (stall_memOk h) ?_
          split
          · exact stall_memOk h
          · exact next_ok (At.block_memOk h)
          · exact next_ok (At.fault_memOk h)
          · exact wave_memOk h
          · split
            · rename_i hq8
              have hu := OptRes.get hq8 honMark
              exact hu
            · exact At.takeMark_memOk h
          · split
            · rename_i hq8
              have hu := OptRes.get hq8 honMark
              exact hu
            · exact At.takeMark_memOk h
          · exact At.goOn_memOk h
  · exact stall_memOk h

theorem execFence_memOk {f} {s : State} (h : s.memOk) : ResOk (execFence f s) := by
  unfold execFence
  dsimp only
  exact memNode_memOk h (ite_ok (some_res (next_ok (State.setNode_memOk (State.with_memOk (State.placeFence_memOk
      h))))) none_res)

theorem execSysr_memOk {d r} {s : State} (h : s.memOk) : ResOk (execSysr d r s) := by
  unfold execSysr
  dsimp only
  split
  · exact refused_ok
  · split
    · exact next_ok (State.raise_memOk h)
    · exact ite_ok (next_ok (State.raise_memOk h)) (ite_ok (next_ok (State.raise_memOk h)) (issueAs_memOk h (ite_ok
        (stall_memOk h) (next_ok h))))

theorem execLds_memOk {f} {s : State} (h : s.memOk) : ResOk (execLds f s) := by
  unfold execLds
  dsimp only
  exact memNode_memOk h plainMarks_memOk

theorem binaryNode_memOk {s : State} {f g} (h : s.memOk) : ResOk (binaryNode s f g) := by
  unfold binaryNode
  dsimp only
  exact laneNode_memOk h

theorem execFabMulh_memOk {f} {s : State} (h : s.memOk) : ResOk (execFabMulh f s) := by
  unfold execFabMulh
  exact binaryNode_memOk h

theorem execTrigOff_memOk {slot} {s : State} (h : s.memOk) : ResOk (execTrigOff slot s) := by
  unfold execTrigOff
  dsimp only
  exact issueAs_memOk h (withCtx_memOk h (next_ok h))

theorem execCbq_memOk {f} {s : State} (h : s.memOk) : ResOk (execCbq f s) := by
  unfold execCbq
  exact laneNode_memOk h

theorem execClsc.go_memOk {f} {s : State} (h : s.memOk) : ResOk (execClsc.go f s) := by
  unfold execClsc.go
  dsimp only
  exact stdNode_memOk h plainMarks_memOk (ite_ok (fire_memOk h) (fire_memOk h))

theorem execClsc_memOk {f} {s : State} (h : s.memOk) : ResOk (execClsc f s) := by
  unfold execClsc
  dsimp only
  refine asNode_memOk h (fun {_} => ?_)
  split
  · exact ite_ok (fire_memOk h) (execClsc.go_memOk h)
  · exact execClsc.go_memOk h

theorem execAdds_memOk {f} {s : State} (h : s.memOk) : ResOk (execAdds f s) := by
  unfold execAdds
  exact binaryNode_memOk h

theorem execPipsSet_memOk {f} {s : State} (h : s.memOk) : ResOk (execPipsSet f s) := by
  unfold execPipsSet
  exact pipsForm_memOk h

theorem selectNode_memOk {s : State} {f isMax} (h : s.memOk) : ResOk (selectNode s f isMax) := by
  unfold selectNode
  dsimp only
  exact laneNode_memOk h

theorem execFmax_memOk {f} {s : State} (h : s.memOk) : ResOk (execFmax f s) := by
  unfold execFmax
  exact selectNode_memOk h

theorem State.joinWrite_memOk {s : State} {region l cnt0 left} (h : s.memOk) :
    (s.joinWrite region l cnt0 left).memOk := by
  unfold State.joinWrite
  refine poke_wf _ _ _ ?_
  split
  · exact State.chargeAt_memOk h
  · exact h

theorem joinRecord_memOk {s : State} {a f o t i} (h : s.memOk) : ResOk (joinRecord s a f o t i) := by
  unfold joinRecord
  dsimp only
  refine ite_ok (ite_ok (next_ok (At.fault_memOk h)) (next_ok (ite_ok (State.charge_memOk (State.setPlane_memOk
      (State.joinWrite_memOk (State.with_memOk (ite_ok h h))))) (State.setPlane_memOk (State.joinWrite_memOk
      (State.with_memOk (ite_ok h h))))))) ?_
  split
  · rename_i hq1
    have hu := JoinReach.Ok.out hq1 (At.joinRange_memOk h)
    exact next_ok hu
  · rename_i hq1
    have hu := JoinReach.Ok.fault hq1 (At.joinRange_memOk h)
    exact next_ok (At.fault_memOk hu)
  · exact ite_ok (next_ok (At.fault_memOk h)) (next_ok (ite_ok (State.charge_memOk (State.setPlane_memOk
      (State.joinWrite_memOk (State.with_memOk (ite_ok h h))))) (State.setPlane_memOk (State.joinWrite_memOk
      (State.with_memOk (ite_ok h h))))))

theorem execSjoin_memOk {f} {s : State} (h : s.memOk) : ResOk (execSjoin f s) := by
  unfold execSjoin
  dsimp only
  refine asNode_memOk h (fun {_} => ?_)
  split
  · exact emitStep_memOk h
  · split
    · exact fire_memOk h
    · refine ite_ok (next_ok (At.block_memOk h)) ?_
      split
      · split
        · exact ite_ok (wave_memOk h) (stall_memOk h)
        · refine ite_ok ?_ (ite_ok (fire_memOk h) (ite_ok (ite_ok (fire_memOk h) (fire_memOk h)) (fire_memOk h)))
          split
          · exact joinRecord_memOk h
          · exact fire_memOk h
        · refine ite_ok ?_ (ite_ok (fire_memOk h) (ite_ok (ite_ok (fire_memOk h) (fire_memOk h)) (fire_memOk h)))
          split
          · exact joinRecord_memOk h
          · exact fire_memOk h
      · refine ite_ok (stall_memOk h) ?_
        refine ite_ok ?_ (ite_ok (fire_memOk h) (ite_ok (ite_ok (fire_memOk h) (fire_memOk h)) (fire_memOk h)))
        split
        · exact joinRecord_memOk h
        · exact fire_memOk h
      · refine ite_ok (stall_memOk h) ?_
        refine ite_ok ?_ (ite_ok (fire_memOk h) (ite_ok (ite_ok (fire_memOk h) (fire_memOk h)) (fire_memOk h)))
        split
        · exact joinRecord_memOk h
        · exact fire_memOk h
      · exact stall_memOk h
  · exact stall_memOk h

theorem execStcnt_memOk {d grp op} {s : State} (h : s.memOk) : ResOk (execStcnt d grp op s) := by
  unfold execStcnt
  dsimp only
  exact issueAs_memOk h (withPlane_memOk h (ite_ok (stall_memOk h) (next_ok h)))

theorem execAdd_memOk {d a b} {s : State} (h : s.memOk) : ResOk (execAdd d a b s) := by
  unfold execAdd
  exact alu_memOk h

theorem execAddi_memOk {d a i} {s : State} (h : s.memOk) : ResOk (execAddi d a i s) := by
  unfold execAddi
  exact aluImm_memOk h

theorem execSub_memOk {d a b} {s : State} (h : s.memOk) : ResOk (execSub d a b s) := by
  unfold execSub
  exact alu_memOk h

theorem execAnd_memOk {d a b} {s : State} (h : s.memOk) : ResOk (execAnd d a b s) := by
  unfold execAnd
  exact alu_memOk h

theorem execAndi_memOk {d a i} {s : State} (h : s.memOk) : ResOk (execAndi d a i s) := by
  unfold execAndi
  exact aluImm_memOk h

theorem execOr_memOk {d a b} {s : State} (h : s.memOk) : ResOk (execOr d a b s) := by
  unfold execOr
  exact alu_memOk h

theorem execOri_memOk {d a i} {s : State} (h : s.memOk) : ResOk (execOri d a i s) := by
  unfold execOri
  exact aluImm_memOk h

theorem execXor_memOk {d a b} {s : State} (h : s.memOk) : ResOk (execXor d a b s) := by
  unfold execXor
  exact alu_memOk h

theorem execXori_memOk {d a i} {s : State} (h : s.memOk) : ResOk (execXori d a i s) := by
  unfold execXori
  exact aluImm_memOk h

theorem execShl_memOk {d a b} {s : State} (h : s.memOk) : ResOk (execShl d a b s) := by
  unfold execShl
  exact alu_memOk h

theorem execShli_memOk {d a i} {s : State} (h : s.memOk) : ResOk (execShli d a i s) := by
  unfold execShli
  exact aluImm_memOk h

theorem execShr_memOk {d a b} {s : State} (h : s.memOk) : ResOk (execShr d a b s) := by
  unfold execShr
  exact alu_memOk h

theorem execSra_memOk {d a b} {s : State} (h : s.memOk) : ResOk (execSra d a b s) := by
  unfold execSra
  exact alu_memOk h

theorem execSrai_memOk {d a i} {s : State} (h : s.memOk) : ResOk (execSrai d a i s) := by
  unfold execSrai
  exact aluImm_memOk h

theorem execMul_memOk {d a b} {s : State} (h : s.memOk) : ResOk (execMul d a b s) := by
  unfold execMul
  exact alu_memOk h

theorem execMulh_memOk {d a b u} {s : State} (h : s.memOk) : ResOk (execMulh d a b u s) := by
  unfold execMulh
  exact alu_memOk h

theorem execDiv_memOk {d a b u} {s : State} (h : s.memOk) : ResOk (execDiv d a b u s) := by
  unfold execDiv
  exact alu_memOk h

theorem execRem_memOk {d a b u} {s : State} (h : s.memOk) : ResOk (execRem d a b u s) := by
  unfold execRem
  exact alu_memOk h

theorem execSlt_memOk {d a b} {s : State} (h : s.memOk) : ResOk (execSlt d a b s) := by
  unfold execSlt
  exact alu_memOk h

theorem execSlti_memOk {d a i} {s : State} (h : s.memOk) : ResOk (execSlti d a i s) := by
  unfold execSlti
  exact aluImm_memOk h

theorem execLui_memOk {d i} {s : State} (h : s.memOk) : ResOk (execLui d i s) := by
  unfold execLui
  exact issueValue_memOk h

theorem execMin_memOk {d a b u} {s : State} (h : s.memOk) : ResOk (execMin d a b u s) := by
  unfold execMin
  exact alu_memOk h

theorem execMax_memOk {d a b u} {s : State} (h : s.memOk) : ResOk (execMax d a b u s) := by
  unfold execMax
  exact alu_memOk h

theorem execSld_memOk {d a i} {s : State} (h : s.memOk) : ResOk (execSld d a i s) := by
  unfold execSld
  dsimp only
  refine issueAs_memOk h (fun {_} => ?_)
  refine ite_ok (stall_memOk h) ?_
  split
  · rename_i hq2
    have hu := Reach.Ok.out hq2 (State.reach_memOk h)
    exact next_ok hu
  · exact next_ok h
  · exact next_ok (State.advance_memOk (State.place_memOk h))

theorem State.afterStore_memOk {s : State} {q n id hit} (h : s.memOk) : (s.afterStore q n id hit).memOk := by
  unfold State.afterStore
  split <;> exact h

theorem execSst_memOk {d a i} {s : State} (h : s.memOk) : ResOk (execSst d a i s) := by
  unfold execSst
  dsimp only
  refine issueAs_memOk h (fun {_} => ?_)
  refine ite_ok (stall_memOk h) ?_
  split
  · rename_i hq2
    have hu := Reach.Ok.out hq2 (State.reach_memOk h)
    exact next_ok hu
  · exact next_ok h
  · exact next_ok (State.afterStore_memOk (State.place_memOk h))

theorem execQpop_memOk {d p lane pop x sx} {s : State} (h : s.memOk) : ResOk (execQpop d p lane pop x sx s) := by
  unfold execQpop
  dsimp only
  refine issueAs_memOk h (fun {_} => ?_)
  refine ite_ok (stall_memOk h) ?_
  refine withPlane_memOk h (fun {_} => ?_)
  refine ite_ok (next_ok (State.raise_memOk h)) ?_
  split
  · exact stall_memOk h
  · exact next_ok (State.finish_memOk (ite_ok h h))

theorem execQpush_memOk {p a lane push x mk} {s : State} (h : s.memOk) : ResOk (execQpush p a lane push x mk s) := by
  unfold execQpush
  dsimp only
  exact issueAs_memOk h (ite_ok (stall_memOk h) (withPlane_memOk h (ite_ok (next_ok (State.raise_memOk h)) (ite_ok
      (next_ok h) (ite_ok (stall_memOk h) (next_ok h))))))

theorem execQstat_memOk {d p x} {s : State} (h : s.memOk) : ResOk (execQstat d p x s) := by
  unfold execQstat
  dsimp only
  exact issueAs_memOk h (ite_ok (stall_memOk h) (withPlane_memOk h (next_ok h)))

theorem execBcc_memOk {c off a b} {s : State} (h : s.memOk) : ResOk (execBcc c off a b s) := by
  unfold execBcc
  dsimp only
  exact issueAs_memOk h (ite_ok (ite_ok (stall_memOk h) (ite_ok (next_ok h) (ite_ok (next_ok (State.raise_memOk h))
      (next_ok h)))) (ite_ok (stall_memOk h) (ite_ok (next_ok h) (ite_ok (next_ok (State.raise_memOk h)) (next_ok
      h)))))

theorem execJal_memOk {d off} {s : State} (h : s.memOk) : ResOk (execJal d off s) := by
  unfold execJal
  dsimp only
  exact issueAs_memOk h (ite_ok (stall_memOk h) (ite_ok (next_ok (State.raise_memOk h)) (next_ok h)))

theorem execJalr_memOk {d a i} {s : State} (h : s.memOk) : ResOk (execJalr d a i s) := by
  unfold execJalr
  dsimp only
  exact issueAs_memOk h (ite_ok (stall_memOk h) (ite_ok (next_ok (State.raise_memOk h)) (next_ok h)))

theorem State.blkDone_memOk {s : State} {q d r v} (h : s.memOk) : ResOk (s.blkDone q d r v) := by
  unfold State.blkDone
  exact ite_ok (next_ok h) (stall_memOk h)

theorem execBlk_memOk {d a} {s : State} (h : s.memOk) : ResOk (execBlk d a s) := by
  unfold execBlk
  dsimp only
  refine issueAs_memOk h (fun {_} => ?_)
  refine withPlane_memOk h (fun {_} => ?_)
  split
  · split
    · exact ite_ok (State.blkDone_memOk h) (State.blkStart_memOk h)
    · exact stall_memOk h
  · split
    · exact ite_ok (State.blkDone_memOk h) (State.blkStart_memOk h)
    · exact State.blkStart_memOk h

theorem execBar_memOk {a b jobs} {s : State} (h : s.memOk) : ResOk (execBar a b jobs s) := by
  unfold execBar
  dsimp only
  refine issueAs_memOk h (fun {_} => ?_)
  refine ite_ok (stall_memOk h) ?_
  refine ite_ok ?_ (next_ok h)
  split
  · rename_i hq3
    have hu := Fetched.Ok.out hq3 (State.fetchWord_memOk h)
    exact next_ok hu
  · exact next_ok h

theorem execBst_memOk {d clr} {s : State} (h : s.memOk) : ResOk (execBst d clr s) := by
  unfold execBst
  dsimp only
  exact issueAs_memOk h (ite_ok (stall_memOk h) (next_ok (State.finish_memOk (ite_ok h h))))

theorem execLpat_memOk {g a i} {s : State} (h : s.memOk) : ResOk (execLpat g a i s) := by
  unfold execLpat
  dsimp only
  refine issueAs_memOk h (fun {_} => ?_)
  refine ite_ok (stall_memOk h) ?_
  refine withPlane_memOk h (fun {_} => ?_)
  split
  · rename_i hq3
    have hu := Reach.Ok.out hq3 (State.wideReach_memOk h)
    exact next_ok hu
  · exact next_ok h
  · exact next_ok (State.advance_memOk (State.place_memOk h))

theorem execSpat_memOk {g a i} {s : State} (h : s.memOk) : ResOk (execSpat g a i s) := by
  unfold execSpat
  dsimp only
  refine issueAs_memOk h (fun {_} => ?_)
  refine ite_ok (stall_memOk h) ?_
  refine withPlane_memOk h (fun {_} => ?_)
  split
  · rename_i hq3
    have hu := Reach.Ok.out hq3 (State.wideReach_memOk h)
    exact next_ok hu
  · exact next_ok h
  · exact next_ok (State.afterStore_memOk (State.place_memOk h))

theorem execSbind_memOk {p g wr} {s : State} (h : s.memOk) : ResOk (execSbind p g wr s) := by
  unfold execSbind
  dsimp only
  refine issueAs_memOk h (fun {_} => ?_)
  refine ite_ok (stall_memOk h) ?_
  refine withPlane_memOk h (fun {_} => ?_)
  refine ite_ok (next_ok (State.raise_memOk h)) ?_
  refine ite_ok (next_ok (State.raise_memOk h)) ?_
  refine ite_ok (next_ok (State.raise_memOk h)) ?_
  refine ite_ok (next_ok (State.raise_memOk h)) ?_
  refine ite_ok (stall_memOk h) ?_
  refine next_ok ?_
  refine State.advance_memOk ?_
  split
  · exact State.setSide_memOk (State.setSide_memOk (State.release_memOk h))
  · exact State.setSide_memOk (State.release_memOk h)

theorem State.enterJob_memOk {s : State} {r e j ip} (h : s.memOk) : (s.enterJob r e j ip).memOk := by
  unfold State.enterJob
  dsimp only
  split <;> exact h

theorem State.beginSides_memOk {s : State} {r p wr pat serial} (h : s.memOk) :
    (s.beginSides r p wr pat serial).memOk := by
  unfold State.beginSides
  dsimp only
  split <;> exact h

theorem execSgo_memOk {d p wr sc} {s : State} (h : s.memOk) : ResOk (execSgo d p wr sc s) := by
  unfold execSgo
  dsimp only
  refine issueAs_memOk h (fun {_} => ?_)
  refine ite_ok (stall_memOk h) ?_
  refine withPlane_memOk h (fun {_} => ?_)
  split
  · exact next_ok (State.raise_memOk h)
  · split
    · exact stall_memOk h
    · exact next_ok (State.advance_memOk (State.beginSides_memOk (State.enterJob_memOk h)))

theorem execAcpy_memOk {d ga gb c sc} {s : State} (h : s.memOk) : ResOk (execAcpy d ga gb c sc s) := by
  unfold execAcpy
  dsimp only
  refine issueAs_memOk h (fun {_} => ?_)
  refine ite_ok (stall_memOk h) ?_
  refine withPlane_memOk h (fun {_} => ?_)
  refine ite_ok (next_ok (State.raise_memOk h)) ?_
  split
  · exact stall_memOk h
  · exact next_ok (State.advance_memOk (State.enterJob_memOk h))

theorem State.rangeEvent_memOk {s : State} {q kind sc lo hi} (h : s.memOk) :
    OptOk (s.rangeEvent q kind sc lo hi) := by
  unfold State.rangeEvent
  dsimp only
  split
  · exact some_state (State.place_memOk h)
  · exact none_state
  · exact none_state
  · exact some_state h
  · exact some_state h

theorem rangeOp_memOk {s : State} {kind sc a b} (h : s.memOk) : ResOk (rangeOp s kind sc a b) := by
  unfold rangeOp
  dsimp only
  refine issueAs_memOk h (fun {_} => ?_)
  refine ite_ok (stall_memOk h) ?_
  refine ite_ok (next_ok (State.raise_memOk h)) ?_
  refine ite_ok (next_ok h) ?_
  split
  · exact next_ok (State.startWalk_memOk h)
  · rename_i hq4
    have hu := OptOk.get hq4 (State.rangeEvent_memOk h)
    exact ite_ok (next_ok hu) (next_ok hu)

theorem execWbk_memOk {sc a b} {s : State} (h : s.memOk) : ResOk (execWbk sc a b s) := by
  unfold execWbk
  exact rangeOp_memOk h

theorem execInv_memOk {sc a b} {s : State} (h : s.memOk) : ResOk (execInv sc a b s) := by
  unfold execInv
  exact rangeOp_memOk h

theorem execBstg_memOk {y0 a} {s : State} (h : s.memOk) : ResOk (execBstg y0 a s) := by
  unfold execBstg
  dsimp only
  exact issueAs_memOk h (ite_ok (stall_memOk h) (withPlane_memOk h (ite_ok (next_ok (State.raise_memOk h)) (next_ok
      h))))

theorem execBwld_memOk {sc d a b arr col off n} {s : State} (h : s.memOk) :
    ResOk (execBwld sc d a b arr col off n s) := by
  unfold execBwld
  dsimp only
  refine issueAs_memOk h (fun {_} => ?_)
  refine ite_ok (stall_memOk h) ?_
  refine withPlane_memOk h (fun {_} => ?_)
  refine ite_ok (next_ok (State.raise_memOk h)) ?_
  split
  · exact stall_memOk h
  · exact next_ok (State.advance_memOk (State.enterJob_memOk h))

theorem State.bindChain_memOk {s : State} {q e k token words arr sc c0 g spill ws} (h : s.memOk) :
    (s.bindChain q e k token words arr sc c0 g spill ws).memOk := by
  unfold State.bindChain
  dsimp only
  exact foldl_ok (fun h2 => h2) (State.enterJob_memOk h)

theorem execBchn_memOk {sc d y2 b arr c0 gm1} {s : State} (h : s.memOk) :
    ResOk (execBchn sc d y2 b arr c0 gm1 s) := by
  unfold execBchn
  dsimp only
  refine issueAs_memOk h (fun {_} => ?_)
  refine ite_ok (stall_memOk h) ?_
  refine withPlane_memOk h (fun {_} => ?_)
  refine ite_ok (next_ok (State.raise_memOk h)) ?_
  refine ite_ok (stall_memOk h) ?_
  split
  · exact next_ok (State.raise_memOk h)
  · refine ite_ok (next_ok (State.raise_memOk h)) ?_
    split
    · exact stall_memOk h
    · exact next_ok (State.advance_memOk (State.bindChain_memOk h))

theorem withArrays_memOk {s : State} {q arr} {f : Res} (h : s.memOk) (hf : ResOk f) :
    ResOk (withArrays s q arr f) := by
  unfold withArrays
  dsimp only
  exact ite_ok (next_ok (State.raise_memOk h)) (ite_ok (stall_memOk h) hf)

theorem execBaccClr_memOk {b arr} {s : State} (h : s.memOk) : ResOk (execBaccClr b arr s) := by
  unfold execBaccClr
  dsimp only
  exact issueAs_memOk h (ite_ok (stall_memOk h) (withPlane_memOk h (ite_ok (next_ok (State.raise_memOk h))
      (withArrays_memOk h (next_ok (State.advance_memOk (foldl_ok (fun h4 => h4) h)))))))

theorem execBaccRd_memOk {a b arr} {s : State} (h : s.memOk) : ResOk (execBaccRd a b arr s) := by
  unfold execBaccRd
  dsimp only
  refine issueAs_memOk h (fun {_} => ?_)
  refine ite_ok (stall_memOk h) ?_
  refine withPlane_memOk h (fun {_} => ?_)
  refine ite_ok (next_ok (State.raise_memOk h)) ?_
  refine withArrays_memOk h ?_
  split
  · rename_i hq5
    have hu := SumOk.inr hq5 (State.writeLine_memOk h)
    exact next_ok hu
  · rename_i hq5
    have hu := SumOk.inl hq5 (State.writeLine_memOk h)
    exact ite_ok (next_ok hu) (next_ok hu)

theorem State.injectDrain_memOk {s : State} {q arrs} (h : s.memOk) : (s.injectDrain q arrs).memOk := by
  unfold State.injectDrain
  dsimp only
  refine foldl_ok (fun {_} {_} h4 => ?_) h
  split
  · exact h4
  · exact ite_ok (ite_ok h4 h4) (State.setArr_memOk (ite_ok h4 h4))

theorem State.stopArray_memOk {s : State} {q base y} (h : s.memOk) : (s.stopArray q base y).memOk := by
  unfold State.stopArray
  dsimp only
  split
  · exact ite_ok h h
  · exact h

theorem execBdrnSv_memOk {a arr inc} {s : State} (h : s.memOk) : ResOk (execBdrnSv a arr inc s) := by
  unfold execBdrnSv
  dsimp only
  refine issueAs_memOk h (fun {_} => ?_)
  refine ite_ok (stall_memOk h) ?_
  refine withPlane_memOk h (fun {_} => ?_)
  split
  · exact stall_memOk h
  · exact stall_memOk h
  · refine ite_ok (next_ok (State.raise_memOk h)) ?_
    refine ite_ok (next_ok (State.injectDrain_memOk h)) ?_
    refine ite_ok (stall_memOk h) ?_
    refine ite_ok (ite_ok (next_ok h) (next_ok (State.await_memOk (State.setSeq_memOk (foldl_ok (fun h32 =>
        (State.stopArray_memOk h32)) h))))) ?_
    split
    · rename_i hq8
      have hu := SumOk.inr hq8 (State.writeLine_memOk h)
      exact next_ok hu
    · rename_i hq8
      have hu := SumOk.inl hq8 (State.writeLine_memOk h)
      exact ite_ok (next_ok hu) (next_ok (State.await_memOk (State.setSeq_memOk (foldl_ok (fun h36 =>
          (State.stopArray_memOk h36)) hu))))

theorem State.restartArray_memOk {s : State} {q a} (h : s.memOk) : (s.restartArray q a).memOk := by
  unfold State.restartArray
  dsimp only
  split <;> exact h

theorem State.revive_memOk {s : State} {q k a} (h : s.memOk) : (s.revive q k a).memOk := by
  unfold State.revive
  dsimp only
  split
  · refine ite_ok h ?_
    split
    · exact h
    · exact State.setArr_memOk (State.enterJob_memOk h)
  · exact h

theorem execBdrnLd_memOk {a arr} {s : State} (h : s.memOk) : ResOk (execBdrnLd a arr s) := by
  unfold execBdrnLd
  dsimp only
  refine issueAs_memOk h (fun {_} => ?_)
  refine ite_ok (stall_memOk h) ?_
  refine withPlane_memOk h (fun {_} => ?_)
  split
  · exact stall_memOk h
  · refine ite_ok (next_ok (State.raise_memOk h)) ?_
    split
    · rename_i hq5
      have hu := Reach.Ok.out hq5 (State.reach_memOk h)
      exact next_ok hu
    · exact next_ok h
    · exact next_ok (State.await_memOk (State.place_memOk h))
  · refine ite_ok ?_ (ite_ok (stall_memOk h) (next_ok (State.advance_memOk (State.setSeq_memOk (foldl_ok (fun h8 =>
      (ite_ok (State.revive_memOk h8) h8)) (foldl_ok (fun h7 => (State.restartArray_memOk h7)) h))))))
    split
    · rename_i hq5
      have hu := Reach.Ok.out hq5 (State.reach_memOk h)
      exact next_ok hu
    · exact next_ok h
    · exact next_ok (State.await_memOk (State.place_memOk h))

theorem execSteer_memOk {grp a win batch en jn} {s : State} (h : s.memOk) :
    ResOk (execSteer grp a win batch en jn s) := by
  unfold execSteer
  dsimp only
  refine issueAs_memOk h (fun {_} => ?_)
  refine withPlane_memOk h (fun {_} => ?_)
  split
  · exact stall_memOk h
  · exact ite_ok (next_ok (State.doneWait_memOk h)) (next_ok (State.raise_memOk h))
  · refine ite_ok (stall_memOk h) ?_
    refine ite_ok (next_ok (State.raise_memOk h)) ?_
    split
    · rename_i hq5
      have hu := Reach.Ok.out hq5 (State.reach_memOk h)
      exact next_ok hu
    · exact ite_ok (next_ok h) (next_ok (State.raise_memOk h))
    · exact next_ok (State.await_memOk (State.place_memOk h))

theorem execStcntWr_memOk {a grp op} {s : State} (h : s.memOk) : ResOk (execStcntWr a grp op s) := by
  unfold execStcntWr
  dsimp only
  exact issueAs_memOk h (withPlane_memOk h (ite_ok (stall_memOk h) (ite_ok (next_ok (State.raise_memOk h)) (next_ok
      h))))

theorem execSmenu_memOk {a b menu} {s : State} (h : s.memOk) : ResOk (execSmenu a b menu s) := by
  unfold execSmenu
  dsimp only
  exact issueAs_memOk h (withPlane_memOk h (ite_ok (stall_memOk h) (ite_ok (next_ok (State.raise_memOk h)) (next_ok
      h))))

theorem execSatom_memOk {d a b c op wide ord sc ty} {s : State} (h : s.memOk) :
    ResOk (execSatom d a b c op wide ord sc ty s) := by
  unfold execSatom
  dsimp only
  refine issueAs_memOk h (fun {_} => ?_)
  split
  · exact stall_memOk h
  · exact next_ok (State.doneWait_memOk h)
  · refine ite_ok (stall_memOk h) ?_
    split
    · rename_i hq3
      have hu := Reach.Ok.out hq3 (State.reach_memOk h)
      exact next_ok hu
    · exact next_ok h
    · exact next_ok (State.callHome_memOk h)

theorem waitRead_memOk {s : State} {q va n acq sc limit} {reach : Reach} {ends} {done : State → Bool → Res} (h :
    s.memOk) (hreach : Reach.Ok reach) (hdone : ∀ {x0 x1}, State.memOk x0 → ResOk (done x0 x1)) :
    ResOk (waitRead s q va n acq sc limit reach ends done) := by
  unfold waitRead
  dsimp only
  split
  · refine ite_ok ?_ ?_
    · split
      · exact next_ok (Reach.Ok.out rfl hreach)
      · exact next_ok h
      · exact next_ok (State.place_memOk h)
    · refine ite_ok (stall_memOk h) ?_
      split
      · split
        · exact next_ok (Reach.Ok.out rfl hreach)
        · exact next_ok h
        · exact next_ok (State.place_memOk h)
      · exact ite_ok (hdone h) (ite_ok (hdone h) (next_ok h))
  · refine ite_ok (stall_memOk h) ?_
    split
    · exact next_ok (Reach.Ok.out rfl hreach)
    · exact next_ok h
    · exact next_ok (State.place_memOk h)

theorem execSwaitp_memOk {a b} {s : State} (h : s.memOk) : ResOk (execSwaitp a b s) := by
  unfold execSwaitp
  dsimp only
  exact issueAs_memOk h (ite_ok (stall_memOk h) (waitRead_memOk h (State.reachObject_memOk h) (fun h2 => (next_ok
      h2))))

theorem execWaita_memOk {d a b c cond sc acq} {s : State} (h : s.memOk) :
    ResOk (execWaita d a b c cond sc acq s) := by
  unfold execWaita
  dsimp only
  exact issueAs_memOk h (ite_ok (stall_memOk h) (ite_ok (next_ok (State.raise_memOk h)) (waitRead_memOk h
      (State.reach_memOk h) (fun h2 => (next_ok h2)))))

theorem execBnew_memOk {a b} {s : State} (h : s.memOk) : ResOk (execBnew a b s) := by
  unfold execBnew
  dsimp only
  refine issueAs_memOk h (fun {_} => ?_)
  split
  · exact stall_memOk h
  · split
    · exact next_ok (State.rmwTrap_memOk h)
    · exact next_ok (State.doneWait_memOk h)
  · refine ite_ok (stall_memOk h) ?_
    refine ite_ok (next_ok (State.raise_memOk h)) ?_
    split
    · rename_i hq4
      have hu := Reach.Ok.out hq4 (State.reach_memOk h)
      exact next_ok hu
    · exact next_ok h
    · exact next_ok (State.callHome_memOk h)

theorem tenqImage_memOk {q d ctx c} {s : State} {image} (h : s.memOk) : ResOk (tenqImage q d ctx c s image) := by
  unfold tenqImage
  split
  · exact State.endTenq_memOk h
  · split
    · exact State.endTenq_memOk h
    · exact ite_ok (State.endTenq_memOk h) (State.tenqRead_memOk h (fun h1 => (tenqHeader_memOk h1)))

theorem execTenq_memOk {d a} {s : State} (h : s.memOk) : ResOk (execTenq d a s) := by
  unfold execTenq
  dsimp only
  refine issueAs_memOk h (fun {_} => ?_)
  split
  · exact stall_memOk h
  · exact withCtx_memOk h (ite_ok (tenqImage_memOk h) (ite_ok (tenqHeader_memOk h) (tenqWrite_memOk h)))
  · exact ite_ok (stall_memOk h) (withCtx_memOk h (ite_ok (next_ok (State.raise_memOk h)) (State.tenqRead_memOk h
      (fun h1 => (tenqImage_memOk h1)))))

theorem State.setTstat_memOk {s : State} {q bit} (h : s.memOk) : (s.setTstat q bit).memOk :=
  h

theorem State.tsigWrite_memOk {s : State} {q sc va count m} (h : s.memOk) : ResOk (s.tsigWrite q sc va count m) := by
  unfold State.tsigWrite
  dsimp only
  refine ite_ok (stall_memOk h) ?_
  split
  · rename_i hq1
    have hu := Reach.Ok.out hq1 (State.reach_memOk h)
    exact next_ok hu
  · exact next_ok (State.advance_memOk (ite_ok h h))
  · exact next_ok (State.afterStore_memOk (ite_ok (State.setTstat_memOk (State.place_memOk h)) (State.place_memOk h)))

theorem execTsig_memOk {sc a b} {s : State} (h : s.memOk) : ResOk (execTsig sc a b s) := by
  unfold execTsig
  dsimp only
  refine issueAs_memOk h (fun {_} => ?_)
  split
  · exact stall_memOk h
  · exact ite_ok (State.tsigWrite_memOk h) (next_ok (State.doneWait_memOk h))
  · refine ite_ok (stall_memOk h) ?_
    refine ite_ok (next_ok (State.raise_memOk h)) ?_
    split
    · rename_i hq4
      have hu := Reach.Ok.out hq4 (State.reach_memOk h)
      exact next_ok hu
    · exact State.tsigWrite_memOk h
    · exact next_ok (State.await_memOk (State.place_memOk h))

theorem State.addChildren_memOk {s : State} {who ctx x p c n} (h : s.memOk) :
    (s.addChildren who ctx x p c n).memOk := by
  unfold State.addChildren
  dsimp only
  split
  · refine ite_ok ?_ ?_
    · split
      · exact State.changeMembers_memOk h
      · exact h
    · refine State.changeMembers_memOk ?_
      split
      · exact State.changeMembers_memOk h
      · exact h
  · split
    · exact State.changeMembers_memOk h
    · exact h

theorem execFork_memOk {d a b} {s : State} (h : s.memOk) : ResOk (execFork d a b s) := by
  unfold execFork
  dsimp only
  refine issueAs_memOk h (fun {_} => ?_)
  refine ite_ok (stall_memOk h) ?_
  refine withCtx_memOk h (fun {_} {_} => ?_)
  refine ite_ok (next_ok (State.raise_memOk h)) ?_
  split
  · exact ite_ok (next_ok h) (next_ok (State.finish_memOk (State.addChildren_memOk h)))
  · exact next_ok h

theorem execResign_memOk {a} {s : State} (h : s.memOk) : ResOk (execResign a s) := by
  unfold execResign
  dsimp only
  exact issueAs_memOk h (ite_ok (stall_memOk h) (withCtx_memOk h (ite_ok (next_ok (State.raise_memOk h)) (ite_ok
      (ite_ok (next_ok h) (stall_memOk h)) (ite_ok (next_ok h) (next_ok h))))))

theorem execBwait_memOk {d a b} {s : State} (h : s.memOk) : ResOk (execBwait d a b s) := by
  unfold execBwait
  dsimp only
  refine issueAs_memOk h (fun {_} => ?_)
  refine ite_ok (stall_memOk h) ?_
  refine withCtx_memOk h (fun {_} {_} => ?_)
  refine ite_ok (next_ok (State.raise_memOk h)) ?_
  split
  · exact ite_ok (ite_ok (next_ok h) (ite_ok (next_ok h) (next_ok h))) (ite_ok (stall_memOk h) (ite_ok (next_ok h)
      (ite_ok (next_ok h) (next_ok h))))
  · exact ite_ok (next_ok h) (ite_ok (next_ok h) (next_ok h))

theorem execBrinfo_memOk {d a n} {s : State} (h : s.memOk) : ResOk (execBrinfo d a n s) := by
  unfold execBrinfo
  dsimp only
  exact issueAs_memOk h (ite_ok (stall_memOk h) (withCtx_memOk h (ite_ok (next_ok (State.raise_memOk h)) (next_ok
      h))))

theorem execAlloc_memOk {d} {s : State} (h : s.memOk) : ResOk (execAlloc d s) := by
  unfold execAlloc
  dsimp only
  refine issueAs_memOk h (fun {_} => ?_)
  refine ite_ok (stall_memOk h) ?_
  refine withCtx_memOk h (fun {_} {_} => ?_)
  split
  · exact next_ok h
  · rename_i hq3
    have hu := OptTrd.get hq3 (State.takeFrame_memOk h)
    exact next_ok hu

theorem execAllocKv_memOk {d a} {s : State} (h : s.memOk) : ResOk (execAllocKv d a s) := by
  unfold execAllocKv
  dsimp only
  refine issueAs_memOk h (fun {_} => ?_)
  refine ite_ok (stall_memOk h) ?_
  refine withCtx_memOk h (fun {_} {_} => ?_)
  split
  · exact next_ok h
  · refine ite_ok (next_ok h) ?_
    split
    · exact next_ok h
    · rename_i hq5
      split
      · exact next_ok h
      · have hu := OptTrd.get hq5 (State.takeFrame_memOk h)
        exact next_ok hu

theorem State.enqueueMail_memOk {s : State} {vf d} (h : s.memOk) : (s.enqueueMail vf d).memOk := by
  unfold State.enqueueMail
  dsimp only
  exact ite_ok h h

theorem State.deliverMail_memOk {s : State} {ctx c m y4} (h : s.memOk) : (s.deliverMail ctx c m y4).memOk := by
  unfold State.deliverMail
  dsimp only
  exact State.enqueueMail_memOk (State.poke_memOk h)

theorem State.placeMail_memOk {s : State} {ctx c y3 sender w0 w1} (h : s.memOk) :
    FstOk (s.placeMail ctx c y3 sender w0 w1) := by
  unfold State.placeMail
  dsimp only
  split
  · exact h
  · split
    · exact pair_fst (State.deliverMail_memOk h)
    · exact h

theorem State.sendMail_memOk {s : State} {from_ key target y4 w0 w1} (h : s.memOk) :
    SndOk (s.sendMail from_ key target y4 w0 w1) := by
  unfold State.sendMail
  split
  · exact h
  · exact ite_ok h (ite_ok h (ite_ok h (pair_snd (FstOk.fst (State.placeMail_memOk h)))))

theorem execAmsg_memOk {d a b c y4} {s : State} (h : s.memOk) : ResOk (execAmsg d a b c y4 s) := by
  unfold execAmsg
  dsimp only
  refine issueAs_memOk h (fun {_} => ?_)
  split
  · exact stall_memOk h
  · exact withCtx_memOk h (next_ok (State.finish_memOk (SndOk.snd (State.sendMail_memOk h))))
  · exact ite_ok (stall_memOk h) (ite_ok (next_ok (State.raise_memOk h)) (withCtx_memOk h (next_ok (State.await_memOk
      (State.place_memOk h)))))

theorem State.bindHeld_memOk {s : State} {ctx y2} (h : s.memOk) : (s.bindHeld ctx y2).memOk := by
  unfold State.bindHeld
  dsimp only
  split
  · exact h
  · refine foldl_ok (fun {_} {_} h3 => ?_) h
    split
    · exact h3
    · split
      · exact h3
      · exact State.deliverMail_memOk h3

theorem execHbind_memOk {d a b} {s : State} (h : s.memOk) : ResOk (execHbind d a b s) := by
  unfold execHbind
  dsimp only
  exact issueAs_memOk h (ite_ok (stall_memOk h) (withCtx_memOk h (ite_ok (next_ok (State.raise_memOk h)) (next_ok
      (State.finish_memOk (ite_ok h (State.bindHeld_memOk h)))))))

theorem execTrigAdr_memOk {a b slot y3} {s : State} (h : s.memOk) : ResOk (execTrigAdr a b slot y3 s) := by
  unfold execTrigAdr
  dsimp only
  refine issueAs_memOk h (fun {_} => ?_)
  refine ite_ok (stall_memOk h) ?_
  refine withCtx_memOk h (fun {_} {_} => ?_)
  refine ite_ok (next_ok (State.raise_memOk h)) ?_
  split
  · rename_i hq4
    have hu := Reach.Ok.out hq4 (State.reach_memOk h)
    exact next_ok hu
  · exact next_ok h
  · exact ite_ok (next_ok (State.raise_memOk h)) (next_ok h)

theorem execTrigPort_memOk {slot y1 port} {s : State} (h : s.memOk) : ResOk (execTrigPort slot y1 port s) := by
  unfold execTrigPort
  dsimp only
  exact issueAs_memOk h (withCtx_memOk h (next_ok h))

theorem execTrigRd_memOk {d slot} {s : State} (h : s.memOk) : ResOk (execTrigRd d slot s) := by
  unfold execTrigRd
  dsimp only
  exact issueAs_memOk h (ite_ok (stall_memOk h) (withCtx_memOk h (next_ok h)))

theorem State.taskEnd_memOk {s : State} {d} (h : s.memOk) : (s.taskEnd d).memOk := by
  unfold State.taskEnd
  split <;> exact h

theorem State.instanceEnd_memOk {s : State} {serial} (h : s.memOk) : (s.instanceEnd serial).memOk := by
  unfold State.instanceEnd
  split
  · exact h
  · exact ite_ok (State.taskEnd_memOk h) h

theorem execYield_memOk {s : State} (h : s.memOk) : ResOk (execYield s) := by
  unfold execYield
  dsimp only
  refine issueAs_memOk h (fun {_} => ?_)
  refine ite_ok (next_ok (State.raise_memOk h)) ?_
  refine ite_ok (stall_memOk h) ?_
  refine next_ok ?_
  split
  · exact State.instanceEnd_memOk (State.leaveContext_memOk h)
  · exact State.leaveContext_memOk h

theorem execTrap_memOk {n} {s : State} (h : s.memOk) : ResOk (execTrap n s) := by
  unfold execTrap
  exact issueAs_memOk h (next_ok (State.takeTrap_memOk h))

theorem State.sysWrite_memOk {s : State} {q x w} (h : s.memOk) : OptOk (s.sysWrite q x w) := by
  unfold State.sysWrite
  dsimp only
  split
  · split
    · exact none_state
    · exact bind_any (map_any h)
  · split
    · exact none_state
    · exact bind_any (map_any h)
  · split
    · exact none_state
    · exact bind_any (map_any h)
  · split
    · exact none_state
    · exact bind_any (map_any h)
  · exact ite_ok none_state (some_state h)
  · exact map_any h

theorem execSysw_memOk {r a} {s : State} (h : s.memOk) : ResOk (execSysw r a s) := by
  unfold execSysw
  dsimp only
  split
  · exact refused_ok
  · split
    · exact next_ok (State.raise_memOk h)
    · refine ite_ok (next_ok (State.raise_memOk h)) ?_
      refine ite_ok (next_ok (State.raise_memOk h)) ?_
      refine issueAs_memOk h (fun {_} => ?_)
      refine ite_ok (stall_memOk h) ?_
      split
      · exact next_ok (State.raise_memOk h)
      · rename_i hq6
        have hu := OptOk.get hq6 (State.sysWrite_memOk h)
        exact next_ok hu

theorem execFrzQ_memOk {d} {s : State} (h : s.memOk) : ResOk (execFrzQ d s) := by
  unfold execFrzQ
  dsimp only
  exact issueAs_memOk h (ite_ok (stall_memOk h) (withPlane_memOk h (next_ok h)))

theorem execFrzGo_memOk {s : State} (h : s.memOk) : ResOk (execFrzGo s) := by
  unfold execFrzGo
  dsimp only
  exact issueAs_memOk h (withPlane_memOk h (next_ok (State.advance_memOk (ite_ok h h))))

theorem State.raiseFlags_memOk {s : State} {ctx fl} (h : s.memOk) : (s.raiseFlags ctx fl).memOk := by
  unfold State.raiseFlags
  split <;> exact h

theorem State.weightsLoaded_memOk {s : State} {r j} (h : s.memOk) : (s.weightsLoaded r j).memOk := by
  unfold State.weightsLoaded
  dsimp only
  split
  · exact ite_ok h (foldl_ok (fun h1 => h1) h)
  · exact h

theorem State.writeToken_memOk {s : State} {j} (h : s.memOk) : (s.writeToken j).memOk := by
  unfold State.writeToken
  dsimp only
  split <;> exact h

theorem State.endSides_memOk {s : State} {r j} (h : s.memOk) : (s.endSides r j).memOk := by
  unfold State.endSides
  dsimp only
  split
  · split
    · refine State.beginSides_memOk ?_
      split
      · refine State.setJob_memOk ?_
        refine State.enterJob_memOk ?_
        split
        · exact State.setSide_memOk (State.release_memOk h)
        · exact State.release_memOk h
      · refine State.enterJob_memOk ?_
        split
        · exact State.setSide_memOk (State.release_memOk h)
        · exact State.release_memOk h
    · exact State.release_memOk h
  · exact foldl_ok (fun h1 => h1) h
  · exact h

theorem State.endJob_memOk {s : State} {r e j} (h : s.memOk) : (s.endJob r e j).memOk := by
  unfold State.endJob
  dsimp only
  exact State.endSides_memOk (State.retire_memOk (State.setRegion_memOk (State.writeToken_memOk
      (State.weightsLoaded_memOk (State.raiseFlags_memOk h)))))

theorem State.killStream_memOk {s : State} {r e j} (h : s.memOk) : (s.killStream r e j).memOk := by
  unfold State.killStream
  dsimp only
  refine State.endJob_memOk ?_
  split <;> exact h

theorem State.killArray_memOk {s : State} {r a b} (h : s.memOk) : (s.killArray r a b).memOk := by
  unfold State.killArray
  dsimp only
  split
  · exact ite_ok h (State.endJob_memOk h)
  · exact h

theorem State.killChain_memOk {s : State} {q k x} (h : s.memOk) : (s.killChain q k x).memOk := by
  unfold State.killChain
  dsimp only
  exact State.setSeq_memOk (State.retire_memOk (State.setPlane_memOk (State.raiseFlags_memOk (foldl_ok (fun h17 =>
      (State.killArray_memOk h17)) (foldl_ok (fun h16 => (State.killStream_memOk h16)) h)))))

theorem execFrzKill_memOk {a} {s : State} (h : s.memOk) : ResOk (execFrzKill a s) := by
  unfold execFrzKill
  dsimp only
  exact issueAs_memOk h (ite_ok (stall_memOk h) (withPlane_memOk h (ite_ok (next_ok h) (ite_ok (stall_memOk h)
      (next_ok (State.advance_memOk (State.killChain_memOk h)))))))

theorem execFtok_memOk {a} {s : State} (h : s.memOk) : ResOk (execFtok a s) := by
  unfold execFtok
  dsimp only
  refine issueAs_memOk h (fun {_} => ?_)
  refine ite_ok (next_ok (State.raise_memOk h)) ?_
  split
  · exact stall_memOk h
  · exact ite_ok (stall_memOk h) (next_ok h)
  · refine ite_ok (stall_memOk h) ?_
    refine ite_ok (ite_ok (stall_memOk h) (next_ok h)) ?_
    split
    · rename_i hq5
      have hu := Reach.Ok.out hq5 (State.reach_memOk h)
      exact next_ok hu
    · exact ite_ok (stall_memOk h) (next_ok h)
    · exact next_ok (State.await_memOk (State.place_memOk h))

theorem State.loadImage_memOk {s : State} {r p x} (h : s.memOk) : (s.loadImage r p x).memOk := by
  unfold State.loadImage
  dsimp only
  split
  · refine State.setCtx_memOk ?_
    split
    · refine State.setSeq_memOk ?_
      refine State.with_memOk ?_
      refine State.setAgent_memOk ?_
      refine State.setPlane_memOk ?_
      refine foldl_ok (fun {_} {_} h26 => ?_) (foldl_ok (fun h28 => h28) (foldl_ok (fun h27 => h27) h))
      split <;> exact h26
    · refine State.with_memOk ?_
      refine State.setAgent_memOk ?_
      refine State.setPlane_memOk ?_
      refine foldl_ok (fun {_} {_} h48 => ?_) (foldl_ok (fun h50 => h50) (foldl_ok (fun h49 => h49) h))
      split <;> exact h48
  · split
    · refine State.setSeq_memOk ?_
      refine State.with_memOk ?_
      refine State.setAgent_memOk ?_
      refine State.setPlane_memOk ?_
      refine foldl_ok (fun {_} {_} h76 => ?_) (foldl_ok (fun h78 => h78) (foldl_ok (fun h77 => h77) h))
      split <;> exact h76
    · refine State.with_memOk ?_
      refine State.setAgent_memOk ?_
      refine State.setPlane_memOk ?_
      refine foldl_ok (fun {_} {_} h98 => ?_) (foldl_ok (fun h100 => h100) (foldl_ok (fun h99 => h99) h))
      split <;> exact h98

theorem execRest_memOk {d a b} {s : State} (h : s.memOk) : ResOk (execRest d a b s) := by
  unfold execRest
  dsimp only
  refine issueAs_memOk h (fun {_} => ?_)
  refine ite_ok (stall_memOk h) ?_
  split
  · exact stall_memOk h
  · refine ite_ok (next_ok (State.raise_memOk h)) ?_
    refine ite_ok (next_ok (State.raise_memOk h)) ?_
    split
    · rename_i hq5
      have hu := Reach.Ok.out hq5 (State.reach_memOk h)
      exact next_ok hu
    · exact next_ok h
    · exact next_ok (State.await_memOk (State.place_memOk h))
  · refine ite_ok ?_ ?_
    · split
      · rename_i hq4
        have hu := Reach.Ok.out hq4 (State.reach_memOk h)
        exact next_ok hu
      · exact next_ok h
      · exact next_ok (State.await_memOk (State.place_memOk h))
    · split
      · exact next_ok h
      · exact ite_ok (next_ok h) (ite_ok (stall_memOk h) (next_ok (State.loadImage_memOk h)))

theorem execWpt_memOk {n off a mask} {s : State} (h : s.memOk) : ResOk (execWpt n off a mask s) := by
  unfold execWpt
  dsimp only
  refine issueAs_memOk h (fun {_} => ?_)
  refine ite_ok (stall_memOk h) ?_
  refine withPlane_memOk h (fun {_} => ?_)
  refine ite_ok (next_ok h) ?_
  refine ite_ok (next_ok (State.raise_memOk h)) ?_
  split
  · rename_i hq5
    have hu := Reach.Ok.out hq5 (State.reach_memOk h)
    exact next_ok hu
  · exact next_ok h
  · exact next_ok (State.advance_memOk (ite_ok h h))

theorem execTlbi_memOk {all sc a b} {s : State} (h : s.memOk) : ResOk (execTlbi all sc a b s) := by
  unfold execTlbi
  dsimp only
  exact issueAs_memOk h (ite_ok (stall_memOk h) (withCtx_memOk h (ite_ok (next_ok h) (next_ok h))))

theorem State.configNode_memOk {s : State} {k slot w} (h : s.memOk) : (s.configNode k slot w).memOk := by
  unfold State.configNode
  dsimp only
  split
  · exact ite_ok h (At.block_memOk h)
  · exact h

theorem State.applyConfig_memOk {s : State} {k slot w} (h : s.memOk) : (s.applyConfig k slot w).memOk := by
  unfold State.applyConfig
  dsimp only
  exact ite_ok (foldl_ok (fun h2 => (State.configNode_memOk h2)) h) (ite_ok h h)

theorem State.resetRegion_memOk {s : State} {r} (h : s.memOk) : (s.resetRegion r).memOk := by
  unfold State.resetRegion
  dsimp only
  exact State.setSeq_memOk (State.setRegion_memOk (State.setPlane_memOk (ite_ok (State.setPlane_memOk
      (State.retire_memOk (State.setPlane_memOk (ite_ok (State.setPlane_memOk (State.retire_memOk
      (State.setPlane_memOk (ite_ok (State.setPlane_memOk (State.retire_memOk (State.setPlane_memOk (ite_ok h h))))
      (State.retire_memOk (State.setPlane_memOk (ite_ok h h))))))) (State.retire_memOk (State.setPlane_memOk (ite_ok
      (State.setPlane_memOk (State.retire_memOk (State.setPlane_memOk (ite_ok h h)))) (State.retire_memOk
      (State.setPlane_memOk (ite_ok h h)))))))))) (State.retire_memOk (State.setPlane_memOk (ite_ok
      (State.setPlane_memOk (State.retire_memOk (State.setPlane_memOk (ite_ok (State.setPlane_memOk
      (State.retire_memOk (State.setPlane_memOk (ite_ok h h)))) (State.retire_memOk (State.setPlane_memOk (ite_ok h
      h))))))) (State.retire_memOk (State.setPlane_memOk (ite_ok (State.setPlane_memOk (State.retire_memOk
      (State.setPlane_memOk (ite_ok h h)))) (State.retire_memOk (State.setPlane_memOk (ite_ok h h))))))))))))

theorem execCfgw_memOk {a b} {s : State} (h : s.memOk) : ResOk (execCfgw a b s) := by
  unfold execCfgw
  dsimp only
  refine issueAs_memOk h (fun {_} => ?_)
  refine ite_ok (stall_memOk h) ?_
  refine ite_ok (next_ok (State.raise_memOk h)) ?_
  refine next_ok ?_
  refine State.advance_memOk ?_
  split
  · exact State.applyConfig_memOk h
  · exact State.applyConfig_memOk h
  · exact ite_ok h h
  · exact State.resetRegion_memOk h

theorem execHalt_memOk {s : State} (h : s.memOk) : ResOk (execHalt s) := by
  unfold execHalt
  dsimp only
  exact issueAs_memOk h (next_ok h)

theorem execInp_memOk {f} {s : State} (h : s.memOk) : ResOk (execInp f s) := by
  unfold execInp
  dsimp only
  refine asNode_memOk h (fun {_} => ?_)
  split
  · exact emitStep_memOk h
  · refine ite_ok (stall_memOk h) ?_
    split
    · exact stall_memOk h
    · exact ite_ok (next_ok (At.fault_memOk h)) (ite_ok (next_ok (At.block_memOk h)) (ite_ok (fire_memOk h)
        (stall_memOk h)))
  · exact stall_memOk h

theorem execOutp_memOk {f} {s : State} (h : s.memOk) : ResOk (execOutp f s) := by
  unfold execOutp
  dsimp only
  exact stdNode_memOk h (ite_ok (some_res (next_ok (At.fault_memOk h))) (some_res (ite_ok (stall_memOk h) (ite_ok
      (next_ok (At.fault_memOk h)) (fire_memOk h))))) (ite_ok (stall_memOk h) (ite_ok (next_ok (At.fault_memOk h))
      (fire_memOk h)))

theorem execFan_memOk {f} {s : State} (h : s.memOk) : ResOk (execFan f s) := by
  unfold execFan
  dsimp only
  exact stdNode_memOk h plainMarks_memOk (fire_memOk h)

theorem genStep_memOk {s : State} {a f limit close closed} (h : s.memOk) :
    ResOk (genStep s a f limit close closed) := by
  unfold genStep
  dsimp only
  exact ite_ok (ite_ok (fire_memOk h) (stall_memOk h)) (fire_memOk h)

theorem execGen_memOk {f} {s : State} (h : s.memOk) : ResOk (execGen f s) := by
  unfold execGen
  dsimp only
  refine asNode_memOk h (fun {_} => ?_)
  split
  · exact emitStep_memOk h
  · refine ite_ok (stall_memOk h) ?_
    refine ite_ok (genStep_memOk h) ?_
    refine ite_ok (genStep_memOk h) ?_
    refine ite_ok (stall_memOk h) ?_
    split
    · exact next_ok (At.block_memOk h)
    · exact fire_memOk h
    · exact ite_ok (fire_memOk h) (fire_memOk h)
    · exact wave_memOk h
    · split <;> exact fire_memOk h
    · exact stall_memOk h
  · exact stall_memOk h

theorem execExt_memOk {f} {s : State} (h : s.memOk) : ResOk (execExt f s) := by
  unfold execExt
  dsimp only
  refine asNode_memOk h (fun {_} => ?_)
  split
  · exact ite_ok (stall_memOk h) (ite_ok (stall_memOk h) (fire_memOk h))
  · exact stall_memOk h

theorem execFilt_memOk {f} {s : State} (h : s.memOk) : ResOk (execFilt f s) := by
  unfold execFilt
  dsimp only
  exact stdNode_memOk h plainMarks_memOk (fire_memOk h)

theorem execSel_memOk {f} {s : State} (h : s.memOk) : ResOk (execSel f s) := by
  unfold execSel
  dsimp only
  exact stdNode_memOk h plainMarks_memOk (fire_memOk h)

theorem owedDrain_memOk {s : State} {a taken atB} (h : s.memOk) : ResOk (owedDrain s a taken atB) := by
  unfold owedDrain
  dsimp only
  exact next_ok h

theorem mrgTake_memOk {s : State} {a f o t turn} (h : s.memOk) : ResOk (mrgTake s a f o t turn) := by
  unfold mrgTake
  dsimp only
  split
  · exact fire_memOk h
  · exact stall_memOk h

theorem execMrg_memOk {f} {s : State} (h : s.memOk) : ResOk (execMrg f s) := by
  unfold execMrg
  dsimp only
  refine asNode_memOk h (fun {_} => ?_)
  split
  · exact emitStep_memOk h
  · exact ite_ok (next_ok (At.block_memOk h)) (ite_ok (owedDrain_memOk h) (ite_ok (owedDrain_memOk h) (ite_ok
      (wave_memOk h) (ite_ok (ite_ok (ite_ok (fire_memOk h) (ite_ok (mrgTake_memOk h) (stall_memOk h))) (ite_ok
      (fire_memOk h) (ite_ok (mrgTake_memOk h) (stall_memOk h)))) (ite_ok (fire_memOk h) (ite_ok (ite_ok (fire_memOk
      h) (next_ok (At.fault_memOk h))) (ite_ok (ite_ok (mrgTake_memOk h) (ite_ok (mrgTake_memOk h) (stall_memOk h)))
      (ite_ok (ite_ok (ite_ok (mrgTake_memOk h) (mrgTake_memOk h)) (stall_memOk h)) (ite_ok (mrgTake_memOk h) (ite_ok
      (mrgTake_memOk h) (stall_memOk h)))))))))))
  · exact stall_memOk h

theorem execLoop_memOk {f} {s : State} (h : s.memOk) : ResOk (execLoop f s) := by
  unfold execLoop
  dsimp only
  refine asNode_memOk h (fun {_} => ?_)
  split
  · exact emitTo_memOk h
  · exact ite_ok (next_ok h) (stall_memOk h)
  · split
    · exact next_ok (At.block_memOk h)
    · exact next_ok (At.fault_memOk h)
    · refine ite_ok (fire_memOk h) ?_
      refine ite_ok ?_ (ite_ok (next_ok (At.fault_memOk h)) (fire_memOk h))
      split
      · exact stall_memOk h
      · exact ite_ok (next_ok (At.block_memOk h)) (ite_ok (ite_ok (fire_memOk h) (stall_memOk h)) (ite_ok
          (stall_memOk h) (ite_ok (wave_memOk h) (fire_memOk h))))
    · exact ite_ok (next_ok (At.fault_memOk h)) (fire_memOk h)
    · exact ite_ok (next_ok (At.fault_memOk h)) (fire_memOk h)
    · split
      · exact stall_memOk h
      · exact ite_ok (next_ok (At.block_memOk h)) (ite_ok (ite_ok (fire_memOk h) (stall_memOk h)) (ite_ok
          (stall_memOk h) (ite_ok (wave_memOk h) (fire_memOk h))))
  · exact stall_memOk h

theorem execHold_memOk {f} {s : State} (h : s.memOk) : ResOk (execHold f s) := by
  unfold execHold
  dsimp only
  refine asNode_memOk h (fun {_} => ?_)
  split
  · exact emitStep_memOk h
  · refine ite_ok (next_ok (At.block_memOk h)) ?_
    split
    · exact fire_memOk h
    · refine ite_ok (owedDrain_memOk h) ?_
      refine ite_ok (fire_memOk h) ?_
      split
      · split
        · refine ite_ok (stall_memOk h) ?_
          refine ite_ok (stall_memOk h) ?_
          split
          · exact fire_memOk h
          · split
            · exact stall_memOk h
            · exact ite_ok (fire_memOk h) (next_ok (At.fault_memOk h))
        · refine ite_ok ?_ (ite_ok (next_ok (At.fault_memOk h)) (ite_ok (fire_memOk h) (wave_memOk h)))
          refine ite_ok (stall_memOk h) ?_
          refine ite_ok (stall_memOk h) ?_
          split
          · exact fire_memOk h
          · split
            · exact stall_memOk h
            · exact ite_ok (fire_memOk h) (next_ok (At.fault_memOk h))
      · split
        · exact stall_memOk h
        · refine ite_ok (stall_memOk h) ?_
          refine ite_ok (next_ok (At.fault_memOk h)) ?_
          refine ite_ok ?_ ?_
          · refine ite_ok (stall_memOk h) ?_
            split
            · exact fire_memOk h
            · split
              · exact stall_memOk h
              · exact ite_ok (fire_memOk h) (next_ok (At.fault_memOk h))
          · refine ite_ok (owedDrain_memOk h) ?_
            refine ite_ok (fire_memOk h) ?_
            refine ite_ok (ite_ok (fire_memOk h) (wave_memOk h)) ?_
            split
            · exact stall_memOk h
            · exact ite_ok (next_ok (At.fault_memOk h)) (ite_ok (stall_memOk h) (ite_ok (fire_memOk h) (wave_memOk
                h)))
  · exact stall_memOk h

theorem execMark_memOk {f} {s : State} (h : s.memOk) : ResOk (execMark f s) := by
  unfold execMark
  dsimp only
  exact stdNode_memOk h (ite_ok (some_res (fire_memOk h)) (ite_ok (some_res (fire_memOk h)) none_res)) (fire_memOk h)

theorem execCnt_memOk {f} {s : State} (h : s.memOk) : ResOk (execCnt f s) := by
  unfold execCnt
  dsimp only
  exact stdNode_memOk h (ite_ok (ite_ok (some_res (fire_memOk h)) (some_res (stall_memOk h))) none_res) (fire_memOk h)

theorem execExit_memOk {f} {s : State} (h : s.memOk) : ResOk (execExit f s) := by
  unfold execExit
  dsimp only
  refine stdNode_memOk h (endMarks_memOk h) (fun {_} {_} => ?_)
  split
  · exact fire_memOk h
  · exact ite_ok (next_ok (At.fault_memOk h)) (fire_memOk h)

theorem execSink_memOk {f} {s : State} (h : s.memOk) : ResOk (execSink f s) := by
  unfold execSink
  exact stdNode_memOk h (endMarks_memOk h) (fire_memOk h)

theorem execFabAdd_memOk {f} {s : State} (h : s.memOk) : ResOk (execFabAdd f s) := by
  unfold execFabAdd
  exact binaryNode_memOk h

theorem execFabSub_memOk {f} {s : State} (h : s.memOk) : ResOk (execFabSub f s) := by
  unfold execFabSub
  exact binaryNode_memOk h

theorem execSubs_memOk {f} {s : State} (h : s.memOk) : ResOk (execSubs f s) := by
  unfold execSubs
  exact binaryNode_memOk h

theorem execFabMul_memOk {f} {s : State} (h : s.memOk) : ResOk (execFabMul f s) := by
  unfold execFabMul
  exact binaryNode_memOk h

theorem execMad_memOk {f} {s : State} (h : s.memOk) : ResOk (execMad f s) := by
  unfold execMad
  dsimp only
  exact laneNode_memOk h

theorem shiftNode_memOk {s : State} {f g} (h : s.memOk) : ResOk (shiftNode s f g) := by
  unfold shiftNode
  dsimp only
  exact laneNode_memOk h

theorem execFabShl_memOk {f} {s : State} (h : s.memOk) : ResOk (execFabShl f s) := by
  unfold execFabShl
  exact shiftNode_memOk h

theorem execFabShr_memOk {f} {s : State} (h : s.memOk) : ResOk (execFabShr f s) := by
  unfold execFabShr
  exact shiftNode_memOk h

theorem execFabSra_memOk {f} {s : State} (h : s.memOk) : ResOk (execFabSra f s) := by
  unfold execFabSra
  exact shiftNode_memOk h

theorem execFabAnd_memOk {f} {s : State} (h : s.memOk) : ResOk (execFabAnd f s) := by
  unfold execFabAnd
  exact binaryNode_memOk h

theorem execFabOr_memOk {f} {s : State} (h : s.memOk) : ResOk (execFabOr f s) := by
  unfold execFabOr
  exact binaryNode_memOk h

theorem execFabXor_memOk {f} {s : State} (h : s.memOk) : ResOk (execFabXor f s) := by
  unfold execFabXor
  exact binaryNode_memOk h

theorem execAndn_memOk {f} {s : State} (h : s.memOk) : ResOk (execAndn f s) := by
  unfold execAndn
  exact binaryNode_memOk h

theorem execFabMin_memOk {f} {s : State} (h : s.memOk) : ResOk (execFabMin f s) := by
  unfold execFabMin
  exact binaryNode_memOk h

theorem execFabMax_memOk {f} {s : State} (h : s.memOk) : ResOk (execFabMax f s) := by
  unfold execFabMax
  exact binaryNode_memOk h

theorem execCmp_memOk {f} {s : State} (h : s.memOk) : ResOk (execCmp f s) := by
  unfold execCmp
  dsimp only
  exact binaryNode_memOk h

theorem patternNode_memOk {s : State} {f g} (h : s.memOk) : ResOk (patternNode s f g) := by
  unfold patternNode
  dsimp only
  exact laneNode_memOk h

theorem execClz_memOk {f} {s : State} (h : s.memOk) : ResOk (execClz f s) := by
  unfold execClz
  exact patternNode_memOk h

theorem execPopc_memOk {f} {s : State} (h : s.memOk) : ResOk (execPopc f s) := by
  unfold execPopc
  exact patternNode_memOk h

theorem execBrev_memOk {f} {s : State} (h : s.memOk) : ResOk (execBrev f s) := by
  unfold execBrev
  exact patternNode_memOk h

theorem faultAtLane_memOk {s : State} {a f taken t out k cause addr} (h : s.memOk) :
    ResOk (faultAtLane s a f taken t out k cause addr) := by
  unfold faultAtLane
  dsimp only
  exact ite_ok (next_ok (At.fault_memOk h)) (stall_memOk h)

theorem execAddr_memOk {f} {s : State} (h : s.memOk) : ResOk (execAddr f s) := by
  unfold execAddr
  dsimp only
  refine stdNode_memOk h plainMarks_memOk (fun {_} {_} => ?_)
  split
  · exact faultAtLane_memOk h
  · exact fire_memOk h

theorem execShuf_memOk {f} {s : State} (h : s.memOk) : ResOk (execShuf f s) := by
  unfold execShuf
  dsimp only
  exact stdNode_memOk h plainMarks_memOk (fire_memOk h)

theorem execBcst_memOk {f} {s : State} (h : s.memOk) : ResOk (execBcst f s) := by
  unfold execBcst
  dsimp only
  exact stdNode_memOk h plainMarks_memOk (fire_memOk h)

theorem execScan_memOk {f} {s : State} (h : s.memOk) : ResOk (execScan f s) := by
  unfold execScan
  dsimp only
  exact stdNode_memOk h plainMarks_memOk (fire_memOk h)

theorem execLred_memOk {f} {s : State} (h : s.memOk) : ResOk (execLred f s) := by
  unfold execLred
  dsimp only
  exact stdNode_memOk h plainMarks_memOk (fire_memOk h)

theorem floatNode_memOk {s : State} {f g} (h : s.memOk) : ResOk (floatNode s f g) := by
  unfold floatNode
  dsimp only
  exact laneNode_memOk h

theorem execFadd_memOk {f} {s : State} (h : s.memOk) : ResOk (execFadd f s) := by
  unfold execFadd
  exact floatNode_memOk h

theorem execFsub_memOk {f} {s : State} (h : s.memOk) : ResOk (execFsub f s) := by
  unfold execFsub
  exact floatNode_memOk h

theorem execFmul_memOk {f} {s : State} (h : s.memOk) : ResOk (execFmul f s) := by
  unfold execFmul
  exact floatNode_memOk h

theorem execFma_memOk {f} {s : State} (h : s.memOk) : ResOk (execFma f s) := by
  unfold execFma
  dsimp only
  exact laneNode_memOk h

theorem execFmin_memOk {f} {s : State} (h : s.memOk) : ResOk (execFmin f s) := by
  unfold execFmin
  exact selectNode_memOk h

theorem execFcmp_memOk {f} {s : State} (h : s.memOk) : ResOk (execFcmp f s) := by
  unfold execFcmp
  exact laneNode_memOk h

theorem execFsgn_memOk {f} {s : State} (h : s.memOk) : ResOk (execFsgn f s) := by
  unfold execFsgn
  exact laneNode_memOk h

theorem functionNode_memOk {s : State} {f g} (h : s.memOk) : ResOk (functionNode s f g) := by
  unfold functionNode
  exact laneNode_memOk h

theorem execFrcp_memOk {f} {s : State} (h : s.memOk) : ResOk (execFrcp f s) := by
  unfold execFrcp
  exact functionNode_memOk h

theorem execFrsq_memOk {f} {s : State} (h : s.memOk) : ResOk (execFrsq f s) := by
  unfold execFrsq
  exact functionNode_memOk h

theorem execFref_memOk {f} {s : State} (h : s.memOk) : ResOk (execFref f s) := by
  unfold execFref
  exact laneNode_memOk h

theorem execFex2_memOk {f} {s : State} (h : s.memOk) : ResOk (execFex2 f s) := by
  unfold execFex2
  exact functionNode_memOk h

theorem execFlg2_memOk {f} {s : State} (h : s.memOk) : ResOk (execFlg2 f s) := by
  unfold execFlg2
  exact functionNode_memOk h

theorem execFtnh_memOk {f} {s : State} (h : s.memOk) : ResOk (execFtnh f s) := by
  unfold execFtnh
  exact functionNode_memOk h

theorem execFcls_memOk {f} {s : State} (h : s.memOk) : ResOk (execFcls f s) := by
  unfold execFcls
  dsimp only
  exact laneNode_memOk h

theorem execFrnd_memOk {f} {s : State} (h : s.memOk) : ResOk (execFrnd f s) := by
  unfold execFrnd
  exact laneNode_memOk h

theorem execCvt_memOk {f} {s : State} (h : s.memOk) : ResOk (execCvt f s) := by
  unfold execCvt
  exact laneNode_memOk h

theorem execBqnt_memOk {f} {s : State} (h : s.memOk) : ResOk (execBqnt f s) := by
  unfold execBqnt
  dsimp only
  refine asNode_memOk h (fun {_} => ?_)
  split
  · exact emitStep_memOk h
  · split
    · split
      · exact fire_memOk h
      · exact stall_memOk h
    · exact next_ok (At.block_memOk h)
    · exact next_ok (At.fault_memOk h)
    · refine ite_ok (wave_memOk h) ?_
      split
      · exact fire_memOk h
      · exact stall_memOk h
    · refine ite_ok (fire_memOk h) ?_
      split
      · exact fire_memOk h
      · exact ite_ok (fire_memOk h) (ite_ok (fire_memOk h) (fire_memOk h))
    · split
      · exact fire_memOk h
      · exact ite_ok (fire_memOk h) (fire_memOk h)
    · split
      · exact ite_ok (fire_memOk h) (fire_memOk h)
      · exact fire_memOk h
  · exact stall_memOk h

theorem execCbx_memOk {f} {s : State} (h : s.memOk) : ResOk (execCbx f s) := by
  unfold execCbx
  exact laneNode_memOk h

theorem execHads_memOk {f} {s : State} (h : s.memOk) : ResOk (execHads f s) := by
  unfold execHads
  dsimp only
  exact stdNode_memOk h plainMarks_memOk (fire_memOk h)

theorem execSclx_memOk {f} {s : State} (h : s.memOk) : ResOk (execSclx f s) := by
  unfold execSclx
  split
  · exact laneNode_memOk h
  · exact laneNode_memOk h
  · exact laneNode_memOk h
  · exact scaledNode_memOk h

theorem execLd_memOk {f} {s : State} (h : s.memOk) : ResOk (execLd f s) := by
  unfold execLd
  dsimp only
  exact memNode_memOk h plainMarks_memOk

theorem execSt_memOk {f} {s : State} (h : s.memOk) : ResOk (execSt f s) := by
  unfold execSt
  dsimp only
  exact memNode_memOk h plainMarks_memOk

theorem execSts_memOk {f} {s : State} (h : s.memOk) : ResOk (execSts f s) := by
  unfold execSts
  dsimp only
  exact memNode_memOk h (ite_ok (some_res (fire_memOk h)) (ite_ok (some_res (At.takeMark_memOk h)) none_res))

theorem execLdt_memOk {f} {s : State} (h : s.memOk) : ResOk (execLdt f s) := by
  unfold execLdt
  dsimp only
  exact memNode_memOk h plainMarks_memOk

theorem execAtom_memOk {f} {s : State} (h : s.memOk) : ResOk (execAtom f s) := by
  unfold execAtom
  dsimp only
  exact memNode_memOk h plainMarks_memOk

theorem execArrv_memOk {f} {s : State} (h : s.memOk) : ResOk (execArrv f s) := by
  unfold execArrv
  dsimp only
  exact memNode_memOk h plainMarks_memOk

theorem State.feedArray_memOk {s : State} {r a plane depth ty ts} (h : s.memOk) :
    OptOk (s.feedArray r a plane depth ty ts) := by
  unfold State.feedArray
  dsimp only
  split
  · exact none_state
  · exact ite_ok none_state (foldl_ok (fun h1 => (bind_ok h1 (fun h2 => (map_ok (State.letIn_memOk h2) (fun h3 =>
      h3))))) (some_state h))

theorem execBfin_memOk {f} {s : State} (h : s.memOk) : ResOk (execBfin f s) := by
  unfold execBfin
  dsimp only
  refine asNode_memOk h (fun {_} => ?_)
  split
  · refine ite_ok ?_ (wave_memOk h)
    refine ite_ok (fire_memOk h) ?_
    split
    · rename_i hq4
      have hu := OptOk.get hq4 (State.feedArray_memOk h)
      exact fire_memOk hu
    · exact stall_memOk h
  · refine stdNode_memOk h (fun {_} {_} {_} {_} => ?_) (fun {_} {_} => ?_)
    · refine some_res ?_
      split
      · rename_i hq4
        have hu := OptOk.get hq4 (State.feedArray_memOk h)
        exact fire_memOk hu
      · exact stall_memOk h
    · split
      · rename_i hq3
        have hu := OptOk.get hq3 (State.feedArray_memOk h)
        exact fire_memOk hu
      · refine ite_ok (stall_memOk h) ?_
        split
        · rename_i hq5
          have hu := OptOk.get hq5 (State.feedArray_memOk h)
          exact next_ok hu
        · exact stall_memOk h

theorem State.outputFault_memOk {s : State} {r a} (h : s.memOk) : (s.outputFault r a).memOk := by
  unfold State.outputFault
  dsimp only
  split
  · exact h
  · exact State.chainFault_memOk (ite_ok h h)

theorem execBfout_memOk {f} {s : State} (h : s.memOk) : ResOk (execBfout f s) := by
  unfold execBfout
  dsimp only
  refine asNode_memOk h (fun {_} => ?_)
  split
  · exact emitStep_memOk h
  · split
    · exact stall_memOk h
    · refine ite_ok (stall_memOk h) ?_
      split
      · exact stall_memOk h
      · exact ite_ok (ite_ok (stall_memOk h) (ite_ok (next_ok (State.setNode_memOk (State.outputFault_memOk h)))
          (ite_ok (next_ok h) (ite_ok (fire_memOk h) (stall_memOk h))))) (ite_ok (ite_ok (stall_memOk h) (ite_ok
          (next_ok (ite_ok h h)) (next_ok (State.setNode_memOk (ite_ok h h))))) (ite_ok (next_ok (State.setNode_memOk
          (State.outputFault_memOk h))) (ite_ok (fire_memOk h) (stall_memOk h))))
  · exact stall_memOk h

theorem routerSource_memOk {s : State} {f next} (h : s.memOk) : ResOk (routerSource s f next) := by
  unfold routerSource
  dsimp only
  refine asNode_memOk h (fun {_} => ?_)
  split
  · exact emitStep_memOk h
  · split
    · exact stall_memOk h
    · exact ite_ok (ite_ok (stall_memOk h) (next_ok h)) (ite_ok (stall_memOk h) (fire_memOk h))
  · exact stall_memOk h

theorem execSroute_memOk {f} {s : State} (h : s.memOk) : ResOk (execSroute f s) := by
  unfold execSroute
  exact routerSource_memOk h

theorem execPipsEnt_memOk {f} {s : State} (h : s.memOk) : ResOk (execPipsEnt f s) := by
  unfold execPipsEnt
  dsimp only
  refine asNode_memOk h (fun {_} => ?_)
  split
  · exact ite_ok (fire_memOk h) (wave_memOk h)
  · exact stdNode_memOk h (ite_ok (some_res (stall_memOk h)) (ite_ok (some_res (fire_memOk h)) (ite_ok (some_res
      (fire_memOk h)) (some_res (fire_memOk h))))) (ite_ok (stall_memOk h) (fire_memOk h))

theorem execPipsOut_memOk {f} {s : State} (h : s.memOk) : ResOk (execPipsOut f s) := by
  unfold execPipsOut
  exact routerSource_memOk h

theorem execPipsClr_memOk {f} {s : State} (h : s.memOk) : ResOk (execPipsClr f s) := by
  unfold execPipsClr
  exact pipsForm_memOk h

theorem execIsect_memOk {f} {s : State} (h : s.memOk) : ResOk (execIsect f s) := by
  unfold execIsect
  exact setNode_memOk h

theorem execMrgk_memOk {f} {s : State} (h : s.memOk) : ResOk (execMrgk f s) := by
  unfold execMrgk
  exact setNode_memOk h

theorem execTmenu_memOk {f} {s : State} (h : s.memOk) : ResOk (execTmenu f s) := by
  unfold execTmenu
  dsimp only
  exact laneNode_memOk h

theorem execLive_memOk {f} {s : State} (h : s.memOk) : ResOk (execLive f s) := by
  unfold execLive
  dsimp only
  refine stdNode_memOk h plainMarks_memOk (fun {_} {_} => ?_)
  refine ite_ok ?_ (fire_memOk h)
  split
  · rename_i hq2
    have hu := ResOk.get hq2 (fire_memOk h)
    exact next_ok hu
  · exact fire_memOk h

theorem execBlockCommit_memOk {region plane} {s : State} (h : s.memOk) : ResOk (execBlockCommit region plane s) := by
  unfold execBlockCommit
  dsimp only
  split
  · exact stall_memOk h
  · refine ite_ok (stall_memOk h) ?_
    split
    · exact next_ok (State.setPlane_memOk (State.retire_memOk (State.raiseFlags_memOk h)))
    · exact next_ok (State.setSeq_memOk (State.setPlane_memOk (State.retire_memOk (State.raiseFlags_memOk h))))
    · exact stall_memOk (State.retire_memOk (State.raiseFlags_memOk h))

theorem execSliceStart_memOk {seq} {s : State} (h : s.memOk) : ResOk (execSliceStart seq s) := by
  unfold execSliceStart
  dsimp only
  split
  · exact ite_ok (next_ok h) (stall_memOk h)
  · exact stall_memOk h

theorem execSwitchInject_memOk {region plane slot} {s : State} (h : s.memOk) :
    ResOk (execSwitchInject region plane slot s) := by
  unfold execSwitchInject
  dsimp only
  split
  · exact ite_ok (stall_memOk h) (ite_ok (ite_ok (next_ok h) (stall_memOk h)) (ite_ok (next_ok h) (stall_memOk h)))
  · exact stall_memOk h

theorem State.grant_memOk {s : State} {k slot squares} (h : s.memOk) : (s.grant k slot squares).memOk := by
  unfold State.grant
  dsimp only
  exact foldl_ok (fun h2 => h2) h

theorem execNodeReconfigure_memOk {region plane slot} {s : State} (h : s.memOk) :
    ResOk (execNodeReconfigure region plane slot s) := by
  unfold execNodeReconfigure
  dsimp only
  split
  · exact ite_ok (stall_memOk h) (ite_ok (next_ok (State.fabricFault_memOk h)) (ite_ok (next_ok (State.grant_memOk
      h)) (next_ok (State.ask_memOk h))))
  · exact stall_memOk h

theorem execBlkstReport_memOk {seq index} {s : State} (h : s.memOk) : ResOk (execBlkstReport seq index s) := by
  unfold execBlkstReport
  dsimp only
  split
  · exact next_ok h
  · exact stall_memOk h

theorem State.setDesc_memOk {s : State} {vf i d} (h : s.memOk) : (s.setDesc vf i d).memOk :=
  h

theorem State.dropTask_memOk {s : State} {vf i d} (h : s.memOk) : (s.dropTask vf i d).memOk := by
  unfold State.dropTask
  dsimp only
  split
  · exact ite_ok (State.taskEnd_memOk h) h
  · exact State.taskEnd_memOk h

theorem State.startTask_memOk {s : State} {vf i d c places} (h : s.memOk) : (s.startTask vf i d c places).memOk := by
  unfold State.startTask
  dsimp only
  exact State.setDesc_memOk (State.with_memOk (foldl_ok (fun h3 => (State.startInstance_memOk h3)) h))

theorem execDispatchDecision_memOk {partition seq} {s : State} (h : s.memOk) :
    ResOk (execDispatchDecision partition seq s) := by
  unfold execDispatchDecision
  dsimp only
  split
  · exact next_ok h
  · split
    · exact next_ok h
    · exact ite_ok (next_ok (State.dropTask_memOk h)) (ite_ok (next_ok h) (next_ok (State.startTask_memOk h)))

theorem State.dropFetched_memOk {s : State} {a test} (h : s.memOk) : (s.dropFetched a test).memOk := by
  unfold State.dropFetched
  dsimp only
  split
  · split <;> exact h
  · exact h

theorem State.issueNow_memOk {s : State} {a index e} (h : s.memOk) : (s.issueNow a index e).memOk := by
  unfold State.issueNow
  dsimp only
  split
  · exact ite_ok (State.unqueue_memOk (State.chargeEvent_memOk h)) (State.setAgent_memOk (State.unqueue_memOk
      (State.chargeEvent_memOk h)))
  · exact State.setAgent_memOk (State.unqueue_memOk (State.chargeEvent_memOk h))
  · exact State.setAgent_memOk (State.unqueue_memOk (State.chargeEvent_memOk h))
  · exact ite_ok (State.dropFetched_memOk (State.unqueue_memOk (State.chargeEvent_memOk h))) (State.unqueue_memOk
      (State.chargeEvent_memOk h))
  · exact State.unqueue_memOk (State.chargeEvent_memOk h)
  · exact State.dropFetched_memOk (State.unqueue_memOk (State.chargeEvent_memOk h))

theorem execIssue_memOk {agent index} {s : State} (h : s.memOk) : ResOk (execIssue agent index s) := by
  unfold execIssue
  dsimp only
  split
  · exact stall_memOk h
  · refine ite_ok (stall_memOk h) ?_
    refine ite_ok (ite_ok (next_ok (State.unpark_memOk h)) (stall_memOk h)) ?_
    refine ite_ok (next_ok (State.voidParked_memOk h)) ?_
    refine ite_ok ?_ (stall_memOk h)
    split
    · exact fault_ok
    · exact next_ok (State.issueNow_memOk h)

theorem State.jobWatch_memOk {s : State} {r e w} (h : s.memOk) : (s.jobWatch r e w).memOk := by
  unfold State.jobWatch
  dsimp only
  refine ite_ok h ?_
  split <;> exact h

theorem execCommit_memOk {agent index} {s : State} (h : s.memOk) : ResOk (execCommit agent index s) := by
  unfold execCommit
  dsimp only
  split
  · exact stall_memOk h
  · refine ite_ok (next_ok h) ?_
    refine ite_ok (stall_memOk h) ?_
    refine next_ok ?_
    split
    · exact State.jobWatch_memOk (State.written_memOk (State.append_memOk h))
    · exact State.written_memOk (State.append_memOk h)

theorem execPropagate_memOk {index} {s : State} (h : s.memOk) : ResOk (execPropagate index s) := by
  unfold execPropagate
  split
  · exact stall_memOk h
  · exact ite_ok (stall_memOk h) (next_ok (State.mk_memOk (resettle_wf { s.mem with recent := _ } h)))

theorem State.homeWatch_memOk {s : State} {a e} (h : s.memOk) : (s.homeWatch a e).memOk := by
  unfold State.homeWatch
  dsimp only
  refine ite_ok h ?_
  split <;> exact h

theorem execRmwPerform_memOk {agent index} {s : State} (h : s.memOk) : ResOk (execRmwPerform agent index s) := by
  unfold execRmwPerform
  dsimp only
  split
  · exact stall_memOk h
  · split
    · refine ite_ok (next_ok (State.answer_memOk h)) ?_
      refine ite_ok (stall_memOk h) ?_
      split
      · exact next_ok (State.answer_memOk h)
      · rename_i hq4
        refine next_ok ?_
        refine State.answer_memOk ?_
        split
        · have hu := ExSnd.get hq4 (State.rmwResult_memOk h)
          exact State.jobWatch_memOk (State.homeWatch_memOk (State.written_memOk (State.append_memOk hu)))
        · have hu := ExSnd.get hq4 (State.rmwResult_memOk h)
          exact State.homeWatch_memOk (State.written_memOk (State.append_memOk hu))
    · exact stall_memOk h

theorem State.mapNode_memOk {s : State} {plane slot g} (h : s.memOk) : (s.mapNode plane slot g).memOk := by
  unfold State.mapNode
  dsimp only
  split <;> exact h

theorem State.jobReturn_memOk {s : State} {r e index x} (h : s.memOk) : (s.jobReturn r e index x).memOk := by
  unfold State.jobReturn
  dsimp only
  refine ite_ok ?_ (State.copyOn_memOk (State.jobFlight_memOk h))
  split <;> exact h

theorem State.giveTo_memOk {s : State} {r} (h : s.memOk) : (s.giveTo r).memOk := by
  unfold State.giveTo
  dsimp only
  split
  · exact h
  · exact h
  · exact h
  · exact h
  · exact State.mapNode_memOk h
  · split
    · exact State.with_memOk (State.mapNode_memOk h)
    · exact State.mapNode_memOk h
  · exact State.mapNode_memOk h
  · exact State.mapNode_memOk h
  · exact h
  · split <;> exact h
  · exact State.jobReturn_memOk h

theorem execLoadReturn_memOk {agent index} {s : State} (h : s.memOk) : ResOk (execLoadReturn agent index s) := by
  unfold execLoadReturn
  dsimp only
  split
  · exact stall_memOk h
  · exact next_ok (State.giveTo_memOk h)

theorem State.walkEnd_memOk {s : State} {w leaf} (h : s.memOk) : (s.walkEnd w leaf).memOk := by
  unfold State.walkEnd
  dsimp only
  split
  · exact State.fill_memOk h
  · exact State.with_memOk (State.fill_memOk h)

theorem State.chargeWalk_memOk {s : State} {w} (h : s.memOk) : (s.chargeWalk w).memOk := by
  unfold State.chargeWalk
  split
  · exact h
  · exact State.chargeAt_memOk h

theorem execWalkComplete_memOk {index} {s : State} (h : s.memOk) : ResOk (execWalkComplete index s) := by
  unfold execWalkComplete
  dsimp only
  split
  · exact stall_memOk h
  · refine ite_ok (stall_memOk h) ?_
    refine ite_ok (next_ok h) ?_
    refine ite_ok (next_ok (State.walkEnd_memOk h)) ?_
    split
    · exact next_ok (State.chargeWalk_memOk h)
    · exact next_ok (State.chargeWalk_memOk (State.walkEnd_memOk h))

theorem execParkingEntryGrant_memOk {board} {s : State} (h : s.memOk) : ResOk (execParkingEntryGrant board s) := by
  unfold execParkingEntryGrant
  exact ite_ok (stall_memOk h) (next_ok h)

theorem execCopyOnWrite_memOk {index} {s : State} (h : s.memOk) : ResOk (execCopyOnWrite index s) := by
  unfold execCopyOnWrite
  dsimp only
  split
  · exact stall_memOk h
  · refine ite_ok (stall_memOk h) ?_
    split
    · exact next_ok h
    · split
      · exact ite_ok (next_ok (State.copyBranchPage_memOk h)) (next_ok (State.copyTablePage_memOk h))
      · exact next_ok (State.copyTablePage_memOk h)

theorem execEngineJobStart_memOk {region job} {s : State} (h : s.memOk) :
    ResOk (execEngineJobStart region job s) := by
  unfold execEngineJobStart
  dsimp only
  split
  · exact stall_memOk h
  · exact ite_ok (stall_memOk h) (next_ok (State.copyOn_memOk h))

theorem State.deliver_memOk {s : State} {r p t} (h : s.memOk) : (s.deliver r p t).memOk :=
  h

theorem gatherEmit_memOk {s : State} {r e j q} (h : s.memOk) : OptOk (gatherEmit s r e j q) := by
  unfold gatherEmit
  dsimp only
  split
  · exact none_state
  · refine ite_ok none_state ?_
    split
    · exact some_state (State.setSide_memOk (State.jobFault_memOk (ite_ok h h)))
    · exact some_state (ite_ok h h)

theorem taggedEmit_memOk {s : State} {r e j q p} (h : s.memOk) : OptOk (taggedEmit s r e j q p) := by
  unfold taggedEmit
  dsimp only
  split
  · exact none_state
  · split
    · exact some_state h
    · exact none_state
    · exact ite_ok (some_state h) (some_state h)

theorem sparseEmit_memOk {s : State} {r e j q p} (h : s.memOk) : OptOk (sparseEmit s r e j q p) := by
  unfold sparseEmit
  dsimp only
  refine ite_ok (some_state h) ?_
  refine ite_ok (some_state h) ?_
  split
  · exact none_state
  · split
    · exact some_state h
    · exact none_state
    · exact some_state h

theorem plainEmit_memOk {s : State} {r e j q p} (h : s.memOk) : OptOk (plainEmit s r e j q p) := by
  unfold plainEmit
  dsimp only
  split
  · exact none_state
  · split
    · exact some_state h
    · exact ite_ok none_state (ite_ok (some_state h) (some_state h))

theorem fetchNext_memOk {s : State} {r e j q p} (h : s.memOk) : OptOk (fetchNext s r e j q p) := by
  unfold fetchNext
  dsimp only
  exact ite_ok (some_state (State.setSide_memOk (FstOk.fst (readRun_memOk h)))) none_state

theorem execReadSideEmit_memOk {region port} {s : State} (h : s.memOk) : ResOk (execReadSideEmit region port s) := by
  unfold execReadSideEmit
  dsimp only
  split
  · exact stall_memOk h
  · refine ite_ok (stall_memOk h) ?_
    split
    · split
      · rename_i hq3
        have hu := OptOk.get hq3 (ite_ok (bind_ok (State.letIn_memOk h) (fun h1 => (ite_ok (State.letIn_memOk h1)
            (some_state h1)))) none_state)
        have hu1 := OptOk.get hq3 (ite_ok (bind_ok (State.letIn_memOk h) (fun h2 => (ite_ok (State.letIn_memOk h2)
            (some_state h2)))) none_state)
        exact next_ok (ite_ok hu hu1)
      · exact stall_memOk h
    · refine ite_ok ?_ ?_
      · split
        · rename_i hq4
          have hu := OptOk.get hq4 (ite_ok (bind_ok (State.letIn_memOk h) (fun h3 => (ite_ok (State.letIn_memOk h3)
              (some_state h3)))) none_state)
          have hu1 := OptOk.get hq4 (ite_ok (bind_ok (State.letIn_memOk h) (fun h4 => (ite_ok (State.letIn_memOk h4)
              (some_state h4)))) none_state)
          exact next_ok (ite_ok hu hu1)
        · exact stall_memOk h
      · refine ite_ok ?_ ?_
        · split
          · rename_i hq5
            have hu := OptOk.get hq5 (ite_ok (bind_ok (State.letIn_memOk h) (fun h5 => (ite_ok (State.letIn_memOk h5)
                (some_state h5)))) none_state)
            have hu1 := OptOk.get hq5 (ite_ok (bind_ok (State.letIn_memOk h) (fun h6 => (ite_ok (State.letIn_memOk
                h6) (some_state h6)))) none_state)
            have hu2 := OptOk.get hq5 (ite_ok (bind_ok (State.letIn_memOk h) (fun h7 => (ite_ok (State.letIn_memOk
                h7) (some_state h7)))) none_state)
            have hu3 := OptOk.get hq5 (ite_ok (bind_ok (State.letIn_memOk h) (fun h8 => (ite_ok (State.letIn_memOk
                h8) (some_state h8)))) none_state)
            have hu4 := OptOk.get hq5 (ite_ok (bind_ok (State.letIn_memOk h) (fun h9 => (ite_ok (State.letIn_memOk
                h9) (some_state h9)))) none_state)
            have hu5 := OptOk.get hq5 (ite_ok (bind_ok (State.letIn_memOk h) (fun h10 => (ite_ok (State.letIn_memOk
                h10) (some_state h10)))) none_state)
            have hu6 := OptOk.get hq5 (ite_ok (bind_ok (State.letIn_memOk h) (fun h11 => (ite_ok (State.letIn_memOk
                h11) (some_state h11)))) none_state)
            have hu7 := OptOk.get hq5 (ite_ok (bind_ok (State.letIn_memOk h) (fun h12 => (ite_ok (State.letIn_memOk
                h12) (some_state h12)))) none_state)
            have hu8 := OptOk.get hq5 (ite_ok (bind_ok (State.letIn_memOk h) (fun h13 => (ite_ok (State.letIn_memOk
                h13) (some_state h13)))) none_state)
            have hu9 := OptOk.get hq5 (ite_ok (bind_ok (State.letIn_memOk h) (fun h14 => (ite_ok (State.letIn_memOk
                h14) (some_state h14)))) none_state)
            have hu10 := OptOk.get hq5 (ite_ok (bind_ok (State.letIn_memOk h) (fun h15 => (ite_ok (State.letIn_memOk
                h15) (some_state h15)))) none_state)
            have hu11 := OptOk.get hq5 (ite_ok (bind_ok (State.letIn_memOk h) (fun h16 => (ite_ok (State.letIn_memOk
                h16) (some_state h16)))) none_state)
            exact next_ok (ite_ok (State.deliver_memOk (State.deliver_memOk (ite_ok hu6 hu7))) (State.deliver_memOk
                (ite_ok hu10 hu11)))
          · exact stall_memOk h
        · split
          · rename_i hq5
            have hu := OptOk.get hq5 (bind_ok (ite_ok (gatherEmit_memOk h) (ite_ok (taggedEmit_memOk h) (ite_ok
                (sparseEmit_memOk h) (plainEmit_memOk h)))) (fun h17 => (ite_ok (some_state h17) (ite_ok (bind_ok
                (State.letIn_memOk h17) (fun h18 => (ite_ok (State.letIn_memOk h18) (some_state h18)))) none_state))))
            exact next_ok hu
          · rename_i hq5
            have hu := OptOk.get hq5 (ite_ok none_state (fetchNext_memOk h))
            exact next_ok hu
          · exact stall_memOk h

theorem gatherLane_memOk {s : State} {r e j q p fly c} (h : s.memOk) : (gatherLane s r e j q p fly c).memOk := by
  unfold gatherLane
  dsimp only
  refine ite_ok h ?_
  refine ite_ok h ?_
  refine ite_ok h ?_
  split
  · rename_i hq3
    have hu := Landed.Ok.placed hq3 (State.jobLand_memOk h)
    exact hu
  · rename_i hq3
    have hu := Landed.Ok.parked hq3 (State.jobLand_memOk h)
    exact hu
  · exact h
  · rename_i hq3
    have hu := Landed.Ok.fault hq3 (State.jobLand_memOk h)
    exact hu

theorem gatherTake.newToken_memOk {r e j q p} {s : State} {v w} {fresh : State → Token → ℕ → Token → Option NodeFault
    → State} (h : s.memOk) (hfresh : ∀ {x0 x1 x2 x3 x4}, State.memOk x0 → State.memOk (fresh x0 x1 x2 x3 x4)) :
    OptOk (gatherTake.newToken r e j q p s v w fresh) := by
  unfold gatherTake.newToken
  dsimp only
  split
  · exact none_state
  · exact ite_ok none_state (bind_ok (State.letIn_memOk h) (fun h1 => (ite_ok (some_state (hfresh h1)) (ite_ok
      (some_state (hfresh h1)) (ite_ok (some_state (ite_ok (State.closeSecond_memOk (hfresh h1)) (hfresh h1)))
      (State.sideMark_memOk h1))))))

theorem gatherTake_memOk {s : State} {r e j q p} (h : s.memOk) : OptOk (gatherTake s r e j q p) := by
  unfold gatherTake
  dsimp only
  refine ite_ok none_state ?_
  refine ite_ok ?_ ?_
  · split
    · exact none_state
    · exact map_ok (State.letIn_memOk h) (fun h1 => (ite_ok h1 h1))
  · split
    · exact ite_ok (ite_ok none_state (some_state (gatherLane_memOk h))) (gatherTake.newToken_memOk h (fun h2 => h2))
    · exact gatherTake.newToken_memOk h (fun h3 => h3)

theorem State.discardToken_memOk {s : State} {r e p} (h : s.memOk) : OptOk (s.discardToken r e p) := by
  unfold State.discardToken
  dsimp only
  split
  · exact none_state
  · exact map_ok (State.letIn_memOk h) (fun h1 => (ite_ok (State.closeWrite_memOk h1) h1))

theorem State.flushSide_memOk {s : State} {r e j q p} (h : s.memOk) : (s.flushSide r e j q p).memOk := by
  unfold State.flushSide
  dsimp only
  split
  · exact State.setSide_memOk (FstOk.fst (writeRun_memOk h))
  · exact State.writeFault_memOk (State.setSide_memOk (FstOk.fst (writeRun_memOk h)))

theorem densifyTake_memOk {s : State} {r e j q p} (h : s.memOk) : OptOk (densifyTake s r e j q p) := by
  unfold densifyTake
  dsimp only
  refine ite_ok (ite_ok none_state (some_state (State.flushSide_memOk h))) ?_
  split
  · exact ite_ok (ite_ok (some_state h) (ite_ok none_state (some_state (State.flushSide_memOk h)))) (ite_ok
      (some_state h) (some_state h))
  · exact ite_ok none_state (ite_ok (ite_ok (some_state (State.closeSecond_memOk (State.closeWrite_memOk h)))
      (some_state h)) (pairTake_memOk h (ite_ok none_state (some_state (State.flushSide_memOk h))) (fun h1 => h1)))

theorem scatterTake_memOk {s : State} {r e j q p} (h : s.memOk) : OptOk (scatterTake s r e j q p) := by
  unfold scatterTake
  dsimp only
  split
  · refine ite_ok none_state ?_
    refine ite_ok (some_state h) ?_
    split
    · exact some_state (State.setSide_memOk (FstOk.fst (writeRun_memOk h)))
    · exact some_state (State.writeFault_memOk (FstOk.fst (writeRun_memOk h)))
  · exact ite_ok none_state (pairTake_memOk h none_state (fun h1 => (State.closeSecond_memOk (State.closeWrite_memOk
      h1))))

theorem plainTake_memOk {s : State} {r e j q p} (h : s.memOk) : OptOk (plainTake s r e j q p) := by
  unfold plainTake
  dsimp only
  refine ite_ok (ite_ok none_state (some_state (State.flushSide_memOk h))) ?_
  split
  · exact ite_ok (some_state h) (some_state h)
  · refine ite_ok none_state ?_
    split
    · exact none_state
    · exact ite_ok (ite_ok none_state (some_state (State.flushSide_memOk h))) (bind_ok (State.letIn_memOk h) (fun h1
        => (ite_ok (some_state h1) (ite_ok (some_state (State.closeWrite_memOk h1)) (State.sideMark_memOk h1)))))

theorem execWriteSideTake_memOk {region port} {s : State} (h : s.memOk) :
    ResOk (execWriteSideTake region port s) := by
  unfold execWriteSideTake
  dsimp only
  split
  · exact stall_memOk h
  · split
    · rename_i hq1
      have hu := OptOk.get hq1 (ite_ok (gatherTake_memOk h) (ite_ok (ite_ok none_state (State.discardToken_memOk h))
          (ite_ok (densifyTake_memOk h) (ite_ok (scatterTake_memOk h) (plainTake_memOk h)))))
      exact next_ok hu
    · exact stall_memOk h

theorem execEngineJobComplete_memOk {region job} {s : State} (h : s.memOk) :
    ResOk (execEngineJobComplete region job s) := by
  unfold execEngineJobComplete
  split
  · exact stall_memOk h
  · refine ite_ok (stall_memOk h) ?_
    split
    · exact stall_memOk h
    · exact ite_ok (stall_memOk h) (next_ok (State.endJob_memOk h))
    · exact next_ok (State.endJob_memOk h)

theorem execAsyncEvent_memOk {seq} {s : State} (h : s.memOk) : ResOk (execAsyncEvent seq s) := by
  unfold execAsyncEvent
  dsimp only
  refine ite_ok (stall_memOk h) ?_
  split
  · exact next_ok (State.takeTrap_memOk (State.setSeq_memOk (State.endSlice_memOk h)))
  · exact ite_ok (next_ok (State.takeTrap_memOk (State.endSlice_memOk h))) (ite_ok (next_ok (State.takeTrap_memOk
      (State.endSlice_memOk h))) (stall_memOk (State.endSlice_memOk h)))

theorem execFaultTokenEnqueue_memOk {board} {s : State} (h : s.memOk) : ResOk (execFaultTokenEnqueue board s) := by
  unfold execFaultTokenEnqueue
  dsimp only
  split
  · exact stall_memOk h
  · exact ite_ok (stall_memOk h) (next_ok (State.setSeq_memOk (State.chargeAt_memOk (State.poke_memOk h))))

theorem execTriggerMessage_memOk {ctx slot} {s : State} (h : s.memOk) : ResOk (execTriggerMessage ctx slot s) := by
  unfold execTriggerMessage
  dsimp only
  split
  · exact stall_memOk h
  · refine ite_ok ?_ (stall_memOk h)
    split
    · exact next_ok (FstOk.fst (State.placeMail_memOk h))
    · exact next_ok (State.setCtx_memOk (FstOk.fst (State.placeMail_memOk h)))

theorem execMarkingPropagate_memOk {ctx index} {s : State} (h : s.memOk) :
    ResOk (execMarkingPropagate ctx index s) := by
  unfold execMarkingPropagate
  dsimp only
  split
  · exact stall_memOk h
  · exact ite_ok (next_ok h) (next_ok h)

theorem execWaitWake_memOk {q} {s : State} (h : s.memOk) : ResOk (execWaitWake q s) := by
  unfold execWaitWake
  exact next_ok h

theorem execWaitTimeout_memOk {q} {s : State} (h : s.memOk) : ResOk (execWaitTimeout q s) := by
  unfold execWaitTimeout
  exact next_ok h

theorem execRouterDispatch_memOk {region plane group} {s : State} (h : s.memOk) :
    ResOk (execRouterDispatch region plane group s) := by
  unfold execRouterDispatch
  dsimp only
  split
  · exact stall_memOk h
  · exact ite_ok (stall_memOk h) (ite_ok (next_ok (State.routerFault_memOk h)) (next_ok h))

theorem execRouterReport_memOk {region plane} {s : State} (h : s.memOk) :
    ResOk (execRouterReport region plane s) := by
  unfold execRouterReport
  dsimp only
  split
  · exact stall_memOk h
  · refine ite_ok (stall_memOk h) ?_
    split
    · exact next_ok h
    · exact next_ok (State.routerFault_memOk h)

theorem execGroupEnd_memOk {region plane group} {s : State} (h : s.memOk) :
    ResOk (execGroupEnd region plane group s) := by
  unfold execGroupEnd
  dsimp only
  exact ite_ok (stall_memOk h) (next_ok h)

theorem execColumnFire_memOk {region array col} {s : State} (h : s.memOk) :
    ResOk (execColumnFire region array col s) := by
  unfold execColumnFire
  split
  · rename_i hq
    have hu := OptOk.get hq (State.columnFire_memOk h)
    exact next_ok hu
  · exact stall_memOk h

theorem execArrayDrain_memOk {region array} {s : State} (h : s.memOk) : ResOk (execArrayDrain region array s) := by
  unfold execArrayDrain
  dsimp only
  split
  · exact stall_memOk h
  · exact ite_ok (stall_memOk h) (next_ok (ite_ok (State.setArr_memOk (State.setArr_memOk (ite_ok h h)))
      (State.setArr_memOk (ite_ok h h))))

theorem execChainComplete_memOk {region array} {s : State} (h : s.memOk) :
    ResOk (execChainComplete region array s) := by
  unfold execChainComplete
  dsimp only
  split
  · exact stall_memOk h
  · refine ite_ok (stall_memOk h) ?_
    split
    · exact stall_memOk h
    · exact ite_ok (next_ok (State.endJob_memOk h)) (stall_memOk h)

theorem execRateWindow_memOk {region unit} {s : State} (h : s.memOk) : ResOk (execRateWindow region unit s) := by
  unfold execRateWindow
  dsimp only
  exact next_ok h

theorem execEnergyWindow_memOk {region} {s : State} (h : s.memOk) : ResOk (execEnergyWindow region s) := by
  unfold execEnergyWindow
  exact next_ok h

theorem execThermalThrottle_memOk {board} {s : State} (h : s.memOk) : ResOk (execThermalThrottle board s) := by
  unfold execThermalThrottle
  exact ite_ok (next_ok h) (stall_memOk h)

theorem State.pickMany_memOk {s : State} {l n} (h : s.memOk) : SndOk (s.pickMany l n) := by
  induction n generalizing s l with
  | zero => exact h
  | succ n ih => exact ite_ok h (ih (State.freePick_memOk h))

theorem State.zeroWhere_memOk {s : State} {gone} (h : s.memOk) : (s.zeroWhere gone).memOk :=
  cellsOk_filter (fun k => !gone k) h

theorem State.zeroSram_memOk {s : State} {regions} (h : s.memOk) : (s.zeroSram regions).memOk := by
  unfold State.zeroSram
  dsimp only
  exact foldl_ok (fun h2 => h2) (State.zeroWhere_memOk h)

theorem State.makeResident_memOk {s : State} {n regions} (h : s.memOk) : (s.makeResident n regions).memOk := by
  unfold State.makeResident
  dsimp only
  split
  · refine ite_ok ?_ ?_
    · refine State.setCtx_memOk ?_
      refine foldl_ok (fun {_} {_} h8 => ?_) h
      split <;> exact h8
    · refine foldl_ok (fun {_} {_} h11 => ?_) h
      split <;> exact h11
  · refine foldl_ok (fun {_} {_} h14 => ?_) h
    split <;> exact h14

theorem State.createCtx_memOk {s : State} {k v} (h : s.memOk) : OptSnd (s.createCtx k v) := by
  unfold State.createCtx
  dsimp only
  split
  · exact none_snd
  · exact ite_ok none_snd (some_snd (pair_snd (State.makeResident_memOk h)))

theorem execCreateVd_memOk {s : State} (h : s.memOk) : ResOk (execCreateVd s) := by
  unfold execCreateVd
  dsimp only
  refine asCommand_memOk h (fun {_} => ?_)
  refine ite_ok (State.complete_memOk h) ?_
  refine ite_ok (State.complete_memOk h) ?_
  refine ite_ok (State.complete_memOk h) ?_
  refine ite_ok (State.complete_memOk h) ?_
  refine ite_ok (State.complete_memOk h) ?_
  split
  · exact State.complete_memOk h
  · rename_i hq6
    have hu := OptSnd.get hq6 (State.createCtx_memOk (State.zeroSram_memOk (State.with_memOk (SndOk.snd
        (State.pickMany_memOk (SndOk.snd (State.pickMany_memOk h)))))))
    exact State.complete_memOk hu

theorem withVd_memOk {s : State} {p states} {f : ℕ → Vd → Res} (h : s.memOk) (hf : ∀ {x0 x1}, ResOk (f x0 x1)) :
    ResOk (withVd s p states f) := by
  unfold withVd
  split
  · exact State.complete_memOk h
  · exact ite_ok (State.complete_memOk h) (ite_ok (State.complete_memOk h) hf)

theorem State.condemn_memOk {s : State} {v} (h : s.memOk) : (s.condemn v).memOk := by
  unfold State.condemn
  dsimp only
  refine foldl_ok (fun h3 => h3) ?_
  refine foldl_ok (fun {_} {_} h7 => ?_) h
  split <;> exact h7

theorem State.tearDown_memOk {s : State} {r p} (h : s.memOk) : (s.tearDown r p).memOk := by
  unfold State.tearDown
  dsimp only
  exact ite_ok h (State.vacate_memOk (State.killChain_memOk h))

theorem State.scramble_memOk {s : State} {v} (h : s.memOk) : (s.scramble v).memOk := by
  unfold State.scramble
  dsimp only
  exact State.poke_memOk h

theorem State.removeVd_memOk {s : State} {k v} (h : s.memOk) : (s.removeVd k v).memOk := by
  unfold State.removeVd
  dsimp only
  exact State.with_memOk (State.setQueue_memOk (State.zeroSram_memOk (State.scramble_memOk h)))

theorem execDestroyVd_memOk {s : State} (h : s.memOk) : ResOk (execDestroyVd s) := by
  unfold execDestroyVd
  dsimp only
  refine asCommand_memOk h (fun {_} => ?_)
  refine withVd_memOk h (fun {_} {_} => ?_)
  split
  · exact next_ok (State.tearDown_memOk (State.condemn_memOk h))
  · exact State.complete_memOk (State.removeVd_memOk (State.condemn_memOk h))

theorem State.suspend_memOk {s : State} {v} (h : s.memOk) : (s.suspend v).memOk := by
  unfold State.suspend
  dsimp only
  refine foldl_ok (fun h3 => (ite_ok h3 h3)) ?_
  refine foldl_ok (fun {_} {_} h7 => ?_) h
  split <;> exact h7

theorem execPause_memOk {s : State} (h : s.memOk) : ResOk (execPause s) := by
  unfold execPause
  exact asCommand_memOk h (withVd_memOk h (ite_ok (State.complete_memOk h) (next_ok (State.suspend_memOk h))))

theorem execResume_memOk {s : State} (h : s.memOk) : ResOk (execResume s) := by
  unfold execResume
  dsimp only
  refine asCommand_memOk h (fun {_} => ?_)
  refine withVd_memOk h (fun {_} {_} => ?_)
  refine State.complete_memOk ?_
  refine State.setVd_memOk ?_
  refine foldl_ok (fun {_} {_} h21 => ?_) (foldl_ok (fun h22 => (ite_ok h22 h22)) h)
  split
  · exact ite_ok h21 h21
  · exact h21

theorem State.mapVd_memOk {s : State} {k f} (h : s.memOk) : (s.mapVd k f).memOk := by
  unfold State.mapVd
  split <;> exact h

theorem State.copyFrames_memOk {s : State} {src dst n} (h : s.memOk) : (s.copyFrames src dst n).memOk := by
  unfold State.copyFrames
  exact foldl_ok (fun h2 => (State.mk_memOk (copyPage_wf _ _ _ _ h2))) h

theorem moveLeaf_memOk {k} {st : State × List (ℕ × ℕ)} {e} (h : FstOk st) : OptFst (moveLeaf k st e) := by
  have hmoved {o : Option (Nat × State × List (Nat × Nat))} (ho : Opt (fun x => x.2.1.memOk) o) :
      OptFst (o.map fun (new, s, done) =>
        let l := bits e.2 56 8 ++ (3 : BitVec 3) ++ bits e.2 48 5 ++ BitVec.ofNat 32 (new / 65536) ++ bits e.2 0 16
        (s.arbiterWrite e.1 (leBytes 8 l.toNat), done)) :=
    map_ok ho fun h => State.arbiterWrite_memOk h
  unfold moveLeaf
  refine hmoved ?_
  split
  · exact .some h
  · exact map_ok (State.takeNew_memOk h) fun h => State.copyFrames_memOk h

theorem State.moveArea_memOk {s : State} {n f kind} (h : s.memOk) : (s.moveArea n f kind).memOk := by
  unfold State.moveArea
  dsimp only
  split
  · exact h
  · exact State.setCtx_memOk (State.arbiterWrite_memOk h)

theorem State.moveCtx_memOk {s : State} {k regions n} (h : s.memOk) : OptOk (s.moveCtx k regions n) := by
  unfold State.moveCtx
  dsimp only
  split
  · exact some_state h
  · refine bind_ok (State.moveTable_memOk h) (fun {_} h9 => ?_)
    refine bind_ok (ite_ok (map_ok (State.takeNew_memOk h9) (fun h13 => (State.moveArea_memOk h13))) (some_state h9))
        (fun {_} h16 => ?_)
    refine ite_ok ?_ (some_state h16)
    refine map_ok (State.takeNew_memOk h16) (fun {_} h21 => ?_)
    split
    · exact h21
    · exact State.setCtx_memOk (State.copyFrames_memOk h21)

theorem State.movePages_memOk {s : State} {k v regions} (h : s.memOk) : OptOk (s.movePages k v regions) := by
  unfold State.movePages
  dsimp only
  exact bind_ok (foldl_ok (fun h4 => (bind_ok h4 (fun h5 => (moveLeaf_memOk h5)))) (some_fst h)) (fun h6 => (map_ok
      (foldl_ok (fun h7 => (bind_ok h7 (fun h8 => (State.moveCtx_memOk h8)))) (some_state h6)) (fun h9 => h9)))

theorem State.roomFor_memOk {s : State} {k v regions n} (h : s.memOk) : OptOk (s.roomFor k v regions n) :=
  bind_ok (State.takeImages_memOk h) fun h => map_ok (P := State.memOk) (State.movePages_memOk h) fun _ =>
    State.mapVd_memOk h

theorem State.slotFor_memOk {s : State} {v ctx} (h : s.memOk) : SndOk (s.slotFor v ctx) := by
  unfold State.slotFor
  dsimp only
  exact h

theorem State.saveFor_memOk {s : State} {k v r p} (h : s.memOk) : (s.saveFor k v r p).memOk := by
  unfold State.saveFor
  dsimp only
  split
  · exact h
  · split
    · exact SndOk.snd (State.slotFor_memOk h)
    · exact State.mapVd_memOk (State.imageDone_memOk (State.arbiterWrite_memOk (State.nextSeal_memOk (SndOk.snd
        (State.slotFor_memOk h)))))

theorem State.movePlanned_memOk {s : State} {k v regions} (h : s.memOk) : OptOk (s.movePlanned k v regions) := by
  unfold State.movePlanned
  exact map_ok (State.movePages_memOk h) (fun h2 => h2)

theorem State.giveBack_memOk {s : State} {v regions channels} (h : s.memOk) :
    (s.giveBack v regions channels).memOk := by
  unfold State.giveBack
  exact State.zeroSram_memOk (State.scramble_memOk h)

theorem execEvict_memOk {s : State} (h : s.memOk) : ResOk (execEvict s) := by
  unfold execEvict
  dsimp only
  refine asCommand_memOk h (fun {_} => ?_)
  refine withVd_memOk h (fun {_} {_} => ?_)
  refine ite_ok (ite_ok (next_ok h) (next_ok (State.suspend_memOk h))) ?_
  refine ite_ok ?_ ?_
  · split
    · rename_i hq4
      have hu := OptOk.get hq4 (State.roomFor_memOk h)
      exact next_ok (State.mapVd_memOk hu)
    · exact State.complete_memOk h
  · split
    · exact ite_ok (next_ok (State.saveFor_memOk (FstOk.fst (State.bringToRest_memOk h)))) (next_ok (FstOk.fst
        (State.bringToRest_memOk h)))
    · split
      · exact stall_memOk h
      · rename_i hq5
        refine State.complete_memOk ?_
        refine State.mapVd_memOk ?_
        have hu := OptOk.get hq5 (State.movePlanned_memOk h)
        refine foldl_ok (fun {_} {_} h7 => ?_) (State.giveBack_memOk hu)
        split <;> exact h7

theorem State.channelsTo_memOk {s : State} {v n} (h : s.memOk) : OptSnd (s.channelsTo v n) := by
  unfold State.channelsTo
  dsimp only
  exact ite_ok (ite_ok none_snd (some_snd (pair_snd (SndOk.snd (State.pickMany_memOk h))))) (ite_ok none_snd
      (some_snd (pair_snd (SndOk.snd (State.pickMany_memOk h)))))

theorem State.areaHome_memOk {s : State} {v n} (h : s.memOk) : OptOk (s.areaHome v n) := by
  unfold State.areaHome
  dsimp only
  split
  · exact some_state h
  · split
    · exact none_state
    · exact some_state (State.moveArea_memOk h)

theorem State.loadAll_memOk {s : State} {v l} (h : s.memOk) : OptOk (s.loadAll v l) := by
  induction l generalizing s with
  | nil => exact some_state h
  | cons e rest ih =>
    unfold State.loadAll
    split
    · exact none_state
    · dsimp only
      split
      · exact none_state
      · exact ih (State.loadImage_memOk (State.freePick_memOk h))

theorem execRestore_memOk {s : State} (h : s.memOk) : ResOk (execRestore s) := by
  unfold execRestore
  dsimp only
  refine asCommand_memOk h (fun {_} => ?_)
  refine withVd_memOk h (fun {_} {_} => ?_)
  refine ite_ok (State.complete_memOk h) ?_
  refine ite_ok (State.complete_memOk h) ?_
  split
  · exact State.complete_memOk h
  · split
    · exact State.complete_memOk h
    · rename_i hq5
      split
      · exact State.complete_memOk h
      · rename_i hq6
        refine State.complete_memOk ?_
        have hu := OptSnd.get hq5 (State.channelsTo_memOk h)
        have hu1 := OptOk.get hq6 (bind_ok (foldl_ok (fun h15 => (bind_ok h15 (fun h16 => (State.areaHome_memOk
            h16)))) (some_state (State.setVd_memOk (State.zeroSram_memOk (State.giveBack_memOk (SndOk.snd
            (State.pickMany_memOk hu))))))) (fun h17 => (State.loadAll_memOk h17)))
        refine foldl_ok (fun {_} {_} h14 => ?_) hu1
        split <;> exact h14

theorem execSetShare_memOk {s : State} (h : s.memOk) : ResOk (execSetShare s) := by
  unfold execSetShare
  dsimp only
  refine asCommand_memOk h (fun {_} => ?_)
  refine withVd_memOk h (fun {_} {_} => ?_)
  refine ite_ok (State.complete_memOk h) ?_
  refine ite_ok (State.complete_memOk h) ?_
  refine ite_ok ?_ ?_
  · split
    · exact State.complete_memOk h
    · rename_i hq5
      have hu := OptSnd.get hq5 (State.channelsTo_memOk h)
      refine ite_ok (ite_ok (State.complete_memOk h) (State.complete_memOk (State.setVd_memOk (State.zeroSram_memOk
          (SndOk.snd (State.pickMany_memOk (State.giveBack_memOk hu))))))) ?_
      split
      · rename_i hq7
        have hu := OptSnd.get hq5 (State.channelsTo_memOk h)
        have hu1 := OptOk.get hq7 (State.roomFor_memOk (State.setVd_memOk (SndOk.snd (State.pickMany_memOk
            (State.giveBack_memOk hu)))))
        exact next_ok hu1
      · exact State.complete_memOk h
  · split
    · refine ite_ok (next_ok (FstOk.fst (State.bringToRest_memOk h))) ?_
      split
      · exact next_ok (ite_ok (State.saveFor_memOk (FstOk.fst (State.bringToRest_memOk h))) (State.setCtx_memOk
          (State.saveFor_memOk (FstOk.fst (State.bringToRest_memOk h)))))
      · exact next_ok (State.saveFor_memOk (FstOk.fst (State.bringToRest_memOk h)))
    · split
      · exact stall_memOk h
      · rename_i hq6
        have hu := OptOk.get hq6 (State.movePlanned_memOk h)
        exact State.complete_memOk (State.mapVd_memOk (State.giveBack_memOk hu))

theorem State.nextTable_memOk {s : State} {k table i} (h : s.memOk) : OptSnd (s.nextTable k table i) := by
  unfold State.nextTable
  dsimp only
  split
  · exact some_snd h
  · exact map_ok (State.takeNew_memOk h) (fun h1 => (pair_snd (State.arbiterWrite_memOk (State.arbiterWrite_memOk
      h1))))

theorem State.mapPage_memOk {s : State} {k n c va l} (h : s.memOk) : OptOk (s.mapPage k n c va l) :=
  bind_ok (State.nextTable_memOk h) fun h => bind_ok (State.nextTable_memOk h) fun h =>
    map_ok (State.nextTable_memOk h) fun h => State.forget_memOk (State.arbiterWrite_memOk h)

theorem State.mapRange_memOk {s : State} {k n c x kind base perm} (h : s.memOk) :
    OptOk (s.mapRange k n c x kind base perm) := by
  unfold State.mapRange
  exact foldl_ok (fun h3 => (bind_ok h3 (fun h4 => (State.mapPage_memOk h4)))) (some_state h)

theorem State.startCode_memOk {s : State} {n v va off code} (h : s.memOk) : OptOk (s.startCode n v va off code) := by
  unfold State.startCode
  dsimp only
  split
  · exact none_state
  · exact ite_ok none_state (some_state h)

theorem mapCode_memOk {s : State} {p k n i v c x} (h : s.memOk) : ResOk (mapCode s p k n i v c x) := by
  unfold mapCode
  dsimp only
  split
  · exact State.complete_memOk h
  · refine ite_ok (State.complete_memOk h) ?_
    split
    · exact State.complete_memOk h
    · rename_i hq2
      have hu := OptSnd.get hq2 (bind_ok (State.takeNew_memOk h) (fun h3 => (map_ok (State.mapRange_memOk
          (State.arbiterWrite_memOk h3)) (fun h4 => h4))))
      refine ite_ok (State.complete_memOk (State.mapVd_memOk hu)) ?_
      split
      · rename_i hq4
        have hu := OptSnd.get hq2 (bind_ok (State.takeNew_memOk h) (fun h5 => (map_ok (State.mapRange_memOk
            (State.arbiterWrite_memOk h5)) (fun h6 => h6))))
        have hu1 := OptOk.get hq4 (State.startCode_memOk (State.mapVd_memOk hu))
        exact State.complete_memOk hu1
      · have hu := OptSnd.get hq2 (bind_ok (State.takeNew_memOk h) (fun h7 => (map_ok (State.mapRange_memOk
          (State.arbiterWrite_memOk h7)) (fun h8 => h8))))
        exact State.complete_memOk (State.mapVd_memOk hu)

theorem execMapWindow_memOk {s : State} (h : s.memOk) : ResOk (execMapWindow s) := by
  unfold execMapWindow
  dsimp only
  refine asCommand_memOk h (fun {_} => ?_)
  refine withVd_memOk h (fun {_} {_} => ?_)
  split
  · refine ite_ok (State.complete_memOk h) ?_
    refine ite_ok (State.complete_memOk h) ?_
    refine ite_ok ?_ ?_
    · refine ite_ok (State.complete_memOk h) ?_
      split
      · exact State.complete_memOk h
      · rename_i hq7
        have hu := OptOk.get hq7 (State.mapRange_memOk h)
        exact State.complete_memOk (State.mapVd_memOk hu)
    · refine ite_ok ?_ (ite_ok (State.complete_memOk h) (mapCode_memOk h))
      refine ite_ok (State.complete_memOk h) ?_
      split
      · exact State.complete_memOk h
      · rename_i hq8
        have hu := OptOk.get hq8 (State.mapRange_memOk h)
        exact State.complete_memOk (State.mapVd_memOk hu)
  · exact State.complete_memOk h

theorem execQuery_memOk {s : State} (h : s.memOk) : ResOk (execQuery s) := by
  unfold execQuery
  dsimp only
  refine asCommand_memOk h (fun {_} => ?_)
  split
  · exact ite_ok (State.complete_memOk h) (State.complete_memOk h)
  · split
    · exact State.complete_memOk h
    · exact ite_ok (State.complete_memOk h) (State.complete_memOk h)
  · split
    · exact State.complete_memOk h
    · exact ite_ok (State.complete_memOk h) (State.complete_memOk h)
  · exact State.complete_memOk h

theorem State.hdmBlock_memOk {s : State} {o bs} (h : s.memOk) : (s.hdmBlock o bs).memOk := by
  unfold State.hdmBlock
  dsimp only
  split
  · exact h
  · exact State.hostWrite_memOk h

theorem State.hdmWrite_memOk {s : State} {o fuel bs} (h : s.memOk) : (s.hdmWrite o fuel bs).memOk := by
  induction fuel generalizing s o bs with
  | zero => exact h
  | succ fuel ih => exact ite_ok h (ih (State.hdmBlock_memOk h))

theorem execHostThreadWrite_memOk {thread address bytes} {s : State} (h : s.memOk) :
    ResOk (execHostThreadWrite thread address bytes s) := by
  unfold execHostThreadWrite
  exact ite_ok (stall_memOk h) (ite_ok (next_ok (State.hostWrite_memOk h)) (ite_ok (next_ok (State.hdmWrite_memOk h))
      (stall_memOk h)))

theorem execHdmAccess_memOk {thread address count store} {s : State} (h : s.memOk) :
    ResOk (execHdmAccess thread address count store s) := by
  unfold execHdmAccess
  dsimp only
  refine ite_ok fault_ok ?_
  split
  · exact ite_ok (next_ok (State.hdmWrite_memOk h)) (next_ok h)
  · exact next_ok h

theorem State.writeBootst_memOk {s : State} {value} (h : s.memOk) : (s.writeBootst value).memOk := by
  unfold State.writeBootst
  dsimp only
  exact ite_ok h h

theorem State.trainLink_memOk {s : State} (h : s.memOk) : (s.trainLink).memOk := by
  unfold State.trainLink
  dsimp only
  exact ite_ok h h

theorem State.restart_memOk {s : State} (h : s.memOk) : (s.restart).memOk := by
  unfold State.restart
  exact State.trainLink_memOk (State.resetModule_memOk h)

theorem State.writeBar0_memOk {s : State} {offset x} (h : s.memOk) : (s.writeBar0 offset x).memOk := by
  unfold State.writeBar0
  dsimp only
  refine ite_ok h ?_
  split
  · exact ite_ok h h
  · exact ite_ok h (ite_ok h h)
  · exact ite_ok h h
  · exact ite_ok h h
  · exact h
  · exact State.writeBootst_memOk h
  · exact ite_ok (State.restart_memOk h) h
  · exact h

theorem execRegisterWrite_memOk {address value} {s : State} (h : s.memOk) :
    ResOk (execRegisterWrite address value s) := by
  unfold execRegisterWrite
  exact ite_ok (next_ok (State.writeBar0_memOk h)) (stall_memOk h)

theorem execRst_memOk {value} {s : State} (h : s.memOk) : ResOk (execRst value s) := by
  unfold execRst
  exact ite_ok (next_ok (State.restart_memOk h)) (stall_memOk h)

theorem execPowerOn_memOk {s : State} (h : s.memOk) : ResOk (execPowerOn s) := by
  unfold execPowerOn
  exact ite_ok (stall_memOk h) (next_ok (State.restart_memOk h))

theorem execPowerOff_memOk {s : State} (h : s.memOk) : ResOk (execPowerOff s) := by
  unfold execPowerOff
  exact next_ok (State.resetModule_memOk h)

theorem execBootstGo_memOk {value} {s : State} (h : s.memOk) : ResOk (execBootstGo value s) := by
  unfold execBootstGo
  exact ite_ok (stall_memOk h) (next_ok (State.writeBootst_memOk h))

theorem execFirmwareBringup_memOk {channels ports} {s : State} (h : s.memOk) :
    ResOk (execFirmwareBringup channels ports s) := by
  unfold execFirmwareBringup
  dsimp only
  exact ite_ok (stall_memOk h) (ite_ok (next_ok h) (ite_ok (next_ok h) (next_ok (foldl_ok (fun h4 => h4) (foldl_ok
      (fun h3 => h3) (State.with_memOk (State.zeroWhere_memOk (State.zeroSram_memOk h))))))))

theorem execAknanPortTrain_memOk {port up} {s : State} (h : s.memOk) : ResOk (execAknanPortTrain port up s) := by
  unfold execAknanPortTrain
  dsimp only
  exact ite_ok (stall_memOk h) (next_ok h)

theorem execIllop_memOk {s : State} (h : s.memOk) : ResOk (execIllop s) := by
  unfold execIllop
  split
  · exact refused_ok
  · exact next_ok (State.raise_memOk h)

theorem State.fetchInstr_memOk {s : State} {q} (h : s.memOk) : FetchedInstr.Ok (s.fetchInstr q) := by
  unfold State.fetchInstr
  dsimp only
  split
  · rename_i hq
    have hu := Fetched.Ok.out hq (State.fetchWord_memOk h)
    exact FetchedInstr.Ok.of_out hu
  · rename_i hq
    refine ite_ok ?_ FetchedInstr.Ok.of_words
    split
    · rename_i hq2
      have hu := Fetched.Ok.out hq2 (State.fetchWord_memOk h)
      exact FetchedInstr.Ok.of_out hu
    · exact FetchedInstr.Ok.of_words

theorem execFetchFault_memOk {s : State} (h : s.memOk) : ResOk (execFetchFault s) := by
  unfold execFetchFault
  split
  · exact refused_ok
  · split
    · rename_i hq1
      have hu := FetchedInstr.Ok.out hq1 (State.fetchInstr_memOk h)
      exact next_ok hu
    · exact stall_memOk h

theorem execBadcmd_memOk {s : State} (h : s.memOk) : ResOk (execBadcmd s) := by
  unfold execBadcmd
  split
  · exact stall_memOk h
  · exact ite_ok (stall_memOk h) (State.complete_memOk h)

theorem execPfBar2Write_memOk {offset bytes} {s : State} (h : s.memOk) : ResOk (execPfBar2Write offset bytes s) := by
  unfold execPfBar2Write
  dsimp only
  exact ite_ok (stall_memOk h) (next_ok h)

theorem execSensorReadsBelow95_memOk {board} {s : State} (h : s.memOk) : ResOk (execSensorReadsBelow95 board s) := by
  unfold execSensorReadsBelow95
  exact ite_ok (next_ok h) (stall_memOk h)

theorem execContextCreation_memOk {vd} {s : State} (h : s.memOk) : ResOk (execContextCreation vd s) := by
  unfold execContextCreation
  split
  · exact stall_memOk h
  · refine ite_ok (stall_memOk h) ?_
    split
    · exact stall_memOk h
    · rename_i hq2
      have hu := OptSnd.get hq2 (State.createCtx_memOk h)
      exact next_ok hu

/-- Whatever the instruction or event, memory keeps its form. -/
theorem exec_memOk {i} {s : State} (h : s.memOk) : ResOk (exec i s) := by
  unfold exec
  cases i with
  | add => exact execAdd_memOk h
  | addi => exact execAddi_memOk h
  | sub => exact execSub_memOk h
  | and => exact execAnd_memOk h
  | andi => exact execAndi_memOk h
  | or => exact execOr_memOk h
  | ori => exact execOri_memOk h
  | xor => exact execXor_memOk h
  | xori => exact execXori_memOk h
  | shl => exact execShl_memOk h
  | shli => exact execShli_memOk h
  | shr => exact execShr_memOk h
  | shri => exact execShri_memOk h
  | sra => exact execSra_memOk h
  | srai => exact execSrai_memOk h
  | mul => exact execMul_memOk h
  | mulh => exact execMulh_memOk h
  | div => exact execDiv_memOk h
  | rem => exact execRem_memOk h
  | slt => exact execSlt_memOk h
  | slti => exact execSlti_memOk h
  | sltu => exact execSltu_memOk h
  | lui => exact execLui_memOk h
  | min => exact execMin_memOk h
  | max => exact execMax_memOk h
  | sld => exact execSld_memOk h
  | sst => exact execSst_memOk h
  | qpop => exact execQpop_memOk h
  | qpush => exact execQpush_memOk h
  | qstat => exact execQstat_memOk h
  | bcc => exact execBcc_memOk h
  | jal => exact execJal_memOk h
  | jalr => exact execJalr_memOk h
  | blk => exact execBlk_memOk h
  | bar => exact execBar_memOk h
  | bst => exact execBst_memOk h
  | lpat => exact execLpat_memOk h
  | spat => exact execSpat_memOk h
  | sbind => exact execSbind_memOk h
  | sgo => exact execSgo_memOk h
  | acpy => exact execAcpy_memOk h
  | cbld => exact execCbld_memOk h
  | sfence => exact execSfence_memOk h
  | wbk => exact execWbk_memOk h
  | inv => exact execInv_memOk h
  | bstg => exact execBstg_memOk h
  | bwld => exact execBwld_memOk h
  | bchn => exact execBchn_memOk h
  | baccClr => exact execBaccClr_memOk h
  | baccRd => exact execBaccRd_memOk h
  | brate => exact execBrate_memOk h
  | bdrnSv => exact execBdrnSv_memOk h
  | bdrnLd => exact execBdrnLd_memOk h
  | steer => exact execSteer_memOk h
  | stcnt => exact execStcnt_memOk h
  | stcntWr => exact execStcntWr_memOk h
  | smenu => exact execSmenu_memOk h
  | satom => exact execSatom_memOk h
  | sarrv => exact execSarrv_memOk h
  | swaitp => exact execSwaitp_memOk h
  | waita => exact execWaita_memOk h
  | bnew => exact execBnew_memOk h
  | tenq => exact execTenq_memOk h
  | tsig => exact execTsig_memOk h
  | fork => exact execFork_memOk h
  | resign => exact execResign_memOk h
  | bwait => exact execBwait_memOk h
  | brinfo => exact execBrinfo_memOk h
  | alloc => exact execAlloc_memOk h
  | allocKv => exact execAllocKv_memOk h
  | free => exact execFree_memOk h
  | amsg => exact execAmsg_memOk h
  | hbind => exact execHbind_memOk h
  | trigOff => exact execTrigOff_memOk h
  | trigAdr => exact execTrigAdr_memOk h
  | trigPort => exact execTrigPort_memOk h
  | trigRd => exact execTrigRd_memOk h
  | yield => exact execYield_memOk h
  | trap => exact execTrap_memOk h
  | eret => exact execEret_memOk h
  | sysr => exact execSysr_memOk h
  | sysw => exact execSysw_memOk h
  | frzQ => exact execFrzQ_memOk h
  | frzGo => exact execFrzGo_memOk h
  | frzKill => exact execFrzKill_memOk h
  | frzOn => exact execFrzOn_memOk h
  | ftok => exact execFtok_memOk h
  | save => exact execSave_memOk h
  | rest => exact execRest_memOk h
  | wpt => exact execWpt_memOk h
  | tlbi => exact execTlbi_memOk h
  | cfgw => exact execCfgw_memOk h
  | halt => exact execHalt_memOk h
  | inp => exact execInp_memOk h
  | outp => exact execOutp_memOk h
  | fan => exact execFan_memOk h
  | gen => exact execGen_memOk h
  | ext => exact execExt_memOk h
  | filt => exact execFilt_memOk h
  | sel => exact execSel_memOk h
  | mrg => exact execMrg_memOk h
  | loop => exact execLoop_memOk h
  | hold => exact execHold_memOk h
  | mark => exact execMark_memOk h
  | mtst => exact execMtst_memOk h
  | cnt => exact execCnt_memOk h
  | exit => exact execExit_memOk h
  | sink => exact execSink_memOk h
  | fabAdd => exact execFabAdd_memOk h
  | fabSub => exact execFabSub_memOk h
  | adds => exact execAdds_memOk h
  | subs => exact execSubs_memOk h
  | fabMul => exact execFabMul_memOk h
  | fabMulh => exact execFabMulh_memOk h
  | mad => exact execMad_memOk h
  | fabShl => exact execFabShl_memOk h
  | fabShr => exact execFabShr_memOk h
  | fabSra => exact execFabSra_memOk h
  | fabAnd => exact execFabAnd_memOk h
  | fabOr => exact execFabOr_memOk h
  | fabXor => exact execFabXor_memOk h
  | andn => exact execAndn_memOk h
  | fabMin => exact execFabMin_memOk h
  | fabMax => exact execFabMax_memOk h
  | cmp => exact execCmp_memOk h
  | clz => exact execClz_memOk h
  | popc => exact execPopc_memOk h
  | brev => exact execBrev_memOk h
  | addr => exact execAddr_memOk h
  | shuf => exact execShuf_memOk h
  | bcst => exact execBcst_memOk h
  | scan => exact execScan_memOk h
  | lred => exact execLred_memOk h
  | fadd => exact execFadd_memOk h
  | fsub => exact execFsub_memOk h
  | fmul => exact execFmul_memOk h
  | fma => exact execFma_memOk h
  | fmin => exact execFmin_memOk h
  | fmax => exact execFmax_memOk h
  | fcmp => exact execFcmp_memOk h
  | fsgn => exact execFsgn_memOk h
  | frcp => exact execFrcp_memOk h
  | frsq => exact execFrsq_memOk h
  | fref => exact execFref_memOk h
  | fex2 => exact execFex2_memOk h
  | flg2 => exact execFlg2_memOk h
  | ftnh => exact execFtnh_memOk h
  | fcls => exact execFcls_memOk h
  | frnd => exact execFrnd_memOk h
  | cvt => exact execCvt_memOk h
  | bqnt => exact execBqnt_memOk h
  | bdq => exact execBdq_memOk h
  | cbx => exact execCbx_memOk h
  | cbq => exact execCbq_memOk h
  | hads => exact execHads_memOk h
  | sclx => exact execSclx_memOk h
  | ld => exact execLd_memOk h
  | st => exact execSt_memOk h
  | lds => exact execLds_memOk h
  | sts => exact execSts_memOk h
  | ldt => exact execLdt_memOk h
  | prf => exact execPrf_memOk h
  | fence => exact execFence_memOk h
  | atom => exact execAtom_memOk h
  | rtree => exact execRtree_memOk h
  | arrv => exact execArrv_memOk h
  | bfin => exact execBfin_memOk h
  | bfout => exact execBfout_memOk h
  | sroute => exact execSroute_memOk h
  | sret => exact execSret_memOk h
  | pipsEnt => exact execPipsEnt_memOk h
  | pipsOut => exact execPipsOut_memOk h
  | pipsRd => exact execPipsRd_memOk h
  | pipsSet => exact execPipsSet_memOk h
  | pipsClr => exact execPipsClr_memOk h
  | clsc => exact execClsc_memOk h
  | isect => exact execIsect_memOk h
  | unio => exact execUnio_memOk h
  | mrgk => exact execMrgk_memOk h
  | sjoin => exact execSjoin_memOk h
  | tmenu => exact execTmenu_memOk h
  | live => exact execLive_memOk h
  | successorFetch => exact execSuccessorFetch_memOk h
  | blockCommit => exact execBlockCommit_memOk h
  | sliceStart => exact execSliceStart_memOk h
  | switchInject => exact execSwitchInject_memOk h
  | nodeReconfigure => exact execNodeReconfigure_memOk h
  | blkstReport => exact execBlkstReport_memOk h
  | dispatchDecision => exact execDispatchDecision_memOk h
  | issue => exact execIssue_memOk h
  | commit => exact execCommit_memOk h
  | propagate => exact execPropagate_memOk h
  | rmwPerform => exact execRmwPerform_memOk h
  | loadReturn => exact execLoadReturn_memOk h
  | walkComplete => exact execWalkComplete_memOk h
  | parkingEntryGrant => exact execParkingEntryGrant_memOk h
  | copyOnWrite => exact execCopyOnWrite_memOk h
  | engineJobStart => exact execEngineJobStart_memOk h
  | readSideEmit => exact execReadSideEmit_memOk h
  | writeSideTake => exact execWriteSideTake_memOk h
  | engineJobComplete => exact execEngineJobComplete_memOk h
  | asyncEvent => exact execAsyncEvent_memOk h
  | faultTokenEnqueue => exact execFaultTokenEnqueue_memOk h
  | triggerMessage => exact execTriggerMessage_memOk h
  | markingPropagate => exact execMarkingPropagate_memOk h
  | resignWalk => exact execResignWalk_memOk h
  | waitWake => exact execWaitWake_memOk h
  | waitTimeout => exact execWaitTimeout_memOk h
  | routerDispatch => exact execRouterDispatch_memOk h
  | routerReport => exact execRouterReport_memOk h
  | groupEnd => exact execGroupEnd_memOk h
  | columnFire => exact execColumnFire_memOk h
  | arrayDrain => exact execArrayDrain_memOk h
  | chainComplete => exact execChainComplete_memOk h
  | rateWindow => exact execRateWindow_memOk h
  | energyWindow => exact execEnergyWindow_memOk h
  | thermalThrottle => exact execThermalThrottle_memOk h
  | thermalTrip => exact execThermalTrip_memOk h
  | createVd => exact execCreateVd_memOk h
  | destroyVd => exact execDestroyVd_memOk h
  | pause => exact execPause_memOk h
  | resume => exact execResume_memOk h
  | evict => exact execEvict_memOk h
  | restore => exact execRestore_memOk h
  | setShare => exact execSetShare_memOk h
  | mapWindow => exact execMapWindow_memOk h
  | query => exact execQuery_memOk h
  | attest => exact execAttest_memOk h
  | notifyWrite => exact execNotifyWrite_memOk h
  | hostThreadWrite => exact execHostThreadWrite_memOk h
  | hdmAccess => exact execHdmAccess_memOk h
  | registerWrite => exact execRegisterWrite_memOk h
  | rst => exact execRst_memOk h
  | powerOn => exact execPowerOn_memOk h
  | powerOff => exact execPowerOff_memOk h
  | bootstGo => exact execBootstGo_memOk h
  | firmwareBringup => exact execFirmwareBringup_memOk h
  | aknanPortTrain => exact execAknanPortTrain_memOk h
  | illop => exact execIllop_memOk h
  | fetchFault => exact execFetchFault_memOk h
  | badcmd => exact execBadcmd_memOk h
  | pfBar2Write => exact execPfBar2Write_memOk h
  | sensorReadsBelow95 => exact execSensorReadsBelow95_memOk h
  | contextCreation => exact execContextCreation_memOk h

theorem State.runNode_memOk {s : State} {r p slot} (h : s.memOk) : ResOk (s.runNode r p slot) := by
  unfold State.runNode
  split
  · exact next_ok h
  · split
    · exact exec_memOk (State.with_memOk h)
    · exact next_ok h

theorem State.nodeFires_memOk {s : State} {r p slot} (h : s.memOk) : ResOk (s.nodeFires r p slot) := by
  unfold State.nodeFires
  split
  · rename_i hq
    have hu := ResOk.get hq (State.runNode_memOk h)
    exact next_ok (ite_ok hu hu)
  · exact State.runNode_memOk h

theorem State.fireTogether_memOk {s : State} {fuel r p slot} (h : s.memOk) :
    ResOk (s.fireTogether fuel r p slot) := by
  induction fuel generalizing s slot with
  | zero => exact next_ok h
  | succ fuel ih =>
    unfold State.fireTogether
    dsimp only
    split
    · rename_i hq
      have ht := ResOk.get hq (State.nodeFires_memOk h)
      refine ite_ok (next_ok ht) ?_
      split
      · rename_i hy
        refine ite_ok (next_ok (OptOk.get hy (foldl_ok (P := OptOk) (fun {_} {_} ho => bind_ok ho fun {_} hx => ?_)
          (some_state ht)))) (next_ok h)
        split
        · rename_i hz
          exact some_state (ResOk.get hz (ih hx))
        · exact none_state
      · exact next_ok h
    · exact State.nodeFires_memOk h

theorem State.chargeFetch_memOk {s : State} {t : State} {q} (ht : t.memOk) : (s.chargeFetch t q).memOk := by
  unfold State.chargeFetch
  dsimp only
  refine ite_ok ?_ ?_
  · refine ite_ok ?_ ?_
    · refine ite_ok ht ?_
      split
      · exact State.chargeAt_memOk ht
      · exact ht
    · split
      · refine State.chargeAt_memOk ?_
        refine ite_ok ht ?_
        split
        · exact State.chargeAt_memOk ht
        · exact ht
      · refine ite_ok ht ?_
        split
        · exact State.chargeAt_memOk ht
        · exact ht
  · refine ite_ok ht ?_
    split
    · exact State.chargeAt_memOk ht
    · exact ht

theorem State.fetchCharged_memOk {s : State} {q} {o : Res} (ho : ResOk o) : ResOk (s.fetchCharged q o) := by
  unfold State.fetchCharged
  split
  · exact next_ok (ite_ok (State.chargeFetch_memOk (ResOk.get rfl ho)) (ResOk.get rfl ho))
  · exact ho

theorem State.issueAt_memOk {s : State} {q} (h : s.memOk) : ResOk (s.issueAt q) := by
  unfold State.issueAt
  split
  · exact exec_memOk h
  · refine State.fetchCharged_memOk ?_
    split
    · exact exec_memOk h
    · exact exec_memOk h

theorem State.issueAgain_memOk {s : State} {q} (h : s.memOk) : ResOk (s.issueAgain q) := by
  unfold State.issueAgain
  split
  · exact next_ok h
  · exact State.issueAt_memOk h

theorem State.seqTurn_memOk {s : State} {q} (h : s.memOk) : ResOk (s.seqTurn q) := by
  unfold State.seqTurn
  dsimp only
  refine ite_ok (next_ok h) ?_
  split
  · refine ite_ok (State.issueAt_memOk h) ?_
    split
    · exact State.issueAt_memOk h
    · exact ite_ok (State.issueAgain_memOk h) (ite_ok (next_ok h) (ite_ok (next_ok h) (next_ok (State.doneWait_memOk
        h))))
  · exact State.issueAt_memOk (State.endSlice_memOk h)

theorem State.fetchAhead_memOk {s : State} {q addr} (h : s.memOk) : (s.fetchAhead q addr).memOk := by
  unfold State.fetchAhead
  dsimp only
  refine ite_ok h ?_
  split
  · exact ite_ok h (State.chargeAt_memOk h)
  · exact h

theorem State.takesConfig_memOk {s : State} {r p slot} (h : s.memOk) : OptOk (s.takesConfig r p slot) := by
  unfold State.takesConfig
  dsimp only
  split
  · exact none_state
  · exact ite_ok none_state (map_any h)

theorem State.nodeTurn_memOk {s : State} {r p slot} (h : s.memOk) : ResOk (s.nodeTurn r p slot) := by
  unfold State.nodeTurn
  split
  · rename_i hq
    have hu := OptOk.get hq (State.takesConfig_memOk h)
    exact next_ok hu
  · exact ite_ok (next_ok h) (State.fireTogether_memOk h)

theorem State.mapRoot_memOk {s : State} {b page n va} (h : s.memOk) : (s.mapRoot b page n va).memOk := by
  unfold State.mapRoot
  dsimp only
  refine ite_ok h ?_
  split
  · exact h
  · split
    · exact ite_ok h h
    · exact h

theorem State.elapse_memOk {s : State} {n} (h : s.memOk) : (s.elapse n).memOk := by
  unfold State.elapse
  dsimp only
  exact ite_ok h h

theorem runTurn_memOk {t} {s : State} (h : s.memOk) : ResOk (runTurn t s) := by
  unfold runTurn
  dsimp only
  refine ite_ok (next_ok h) ?_
  split
  · rename_i u hq
    have hu : u.memOk := by
      refine ResOk.get hq ?_
      split
      · exact State.seqTurn_memOk (State.with_memOk h)
      · exact next_ok (ite_ok (State.fetchAhead_memOk h) h)
      · exact ite_ok (State.nodeTurn_memOk h) (next_ok h)
      · exact next_ok (State.mapRoot_memOk h)
      · exact next_ok (State.unmapRoot_memOk h)
      · exact ite_ok (exec_memOk (State.with_memOk h)) (next_ok h)
      · exact next_ok (State.elapse_memOk h)
    exact next_ok (ite_ok h (State.writeAreas_memOk hu))
  · rename_i hne
    exact fun t he => absurd he (hne t)

/-- A step keeps the form of memory. -/
theorem step_memOk {s : State} (h : s.memOk) : ResOk (step s) := by
  unfold step
  split
  · exact runTurn_memOk (State.with_memOk h)
  · exact runTurn_memOk (State.with_memOk h)

/-- Settles O51, by a lemma for each function that makes a state: what writes memory keeps its form, and the rest
leaves it. -/
theorem memoryKeepsForm : Obligations.MemoryKeepsForm := by
  unfold Obligations.MemoryKeepsForm
  exact ⟨fun s t h hs => step_memOk h t hs, append_wf, copyPage_wf⟩

end Sys2Proof.Machine
end

