-- ==== Sys2Proof/Proofs/Power.lean ====
section
/-!
PROOFS. O60: reset and power, Aknan ports, and the energy window.
-/

namespace Sys2Proof.Machine

/-! ### Memory after a reset (R464) -/

theorem mem_cellWrite {c : List Host.Cell} {a : Nat} {v : Byte} {e : Host.Cell} (h : e ∈ cellWrite c a v) :
    e ∈ c ∨ e.1 = a := by
  induction c with
  | nil =>
    unfold cellWrite at h
    split at h
    · exact nomatch h
    · exact .inr (congrArg Prod.fst (List.mem_singleton.1 h))
  | cons d rest ih =>
    obtain ⟨k, w⟩ := d
    unfold cellWrite at h
    split at h
    · split at h
      · exact .inl (List.mem_cons_of_mem _ h)
      · obtain rfl | h := List.mem_cons.1 h
        · exact .inr rfl
        · exact .inl (List.mem_cons_of_mem _ h)
    · split at h
      · split at h
        · exact .inl h
        · obtain rfl | h := List.mem_cons.1 h
          · exact .inr rfl
          · exact .inl h
      · obtain rfl | h := List.mem_cons.1 h
        · exact .inl List.mem_cons_self
        · exact (ih h).imp_left (List.mem_cons_of_mem _)

theorem mem_cellsWrite {l : List (Nat × Byte)} {c : List Host.Cell} {e : Host.Cell} (h : e ∈ cellsWrite c l) :
    e ∈ c ∨ ∃ x ∈ l, e.1 = x.1 := by
  induction l generalizing c with
  | nil => exact .inl h
  | cons x l ih =>
    obtain h | ⟨y, hy, he⟩ := ih h
    · exact (mem_cellWrite h).imp_right fun he => ⟨x, List.mem_cons_self, he⟩
    · exact .inr ⟨y, List.mem_cons_of_mem _ hy, he⟩

/-- Cells that are dropped do not change what the others read. -/
theorem cellRead_filter {p : Nat → Bool} {a : Nat} (ha : p a = true) {b : Option Nat} {c : List Host.Cell}
    (h : cellsOk b c = true) : cellRead (c.filter fun c => p c.1) a = cellRead c a := by
  induction c generalizing b with
  | nil => rfl
  | cons e rest ih =>
    obtain ⟨k, v⟩ := e
    have hrest : cellsOk (some k) rest = true := by
      cases b with
      | none => exact (Bool.and_eq_true_iff.1 h).2
      | some b => exact (Bool.and_eq_true_iff.1 h).2
    have hread : cellRead ((k, v) :: rest) a = if k = a then v else if a < k then blankByte else cellRead rest a := rfl
    rw [hread, List.filter_cons]
    by_cases hp : p k = true
    · rw [if_pos hp]
      refine Eq.trans (b := if k = a then v else if a < k then blankByte else
        cellRead (rest.filter fun c => p c.1) a) rfl ?_
      rw [ih hrest]
    · have hne : k ≠ a := fun he => hp (he ▸ ha)
      rw [if_neg hp, ih hrest, if_neg hne]
      split
      · exact cellRead_above rest a (cellsOk_mono rest (Nat.le_of_lt ‹_›) hrest)
      · rfl

theorem hostOnly_inside {m : Memory} {e : Host.Cell} (he : e ∈ m.hostOnly.cells) :
    hostStart ≤ e.1 ∧ e.1 < hostStart + 2 ^ 64 := by
  have hhere {l : List Host.Cell} {x : Host.Cell}
      (hx : x ∈ l.filter fun c => decide (hostStart ≤ c.1) && decide (c.1 < hostStart + 2 ^ 64)) :
      hostStart ≤ x.1 ∧ x.1 < hostStart + 2 ^ 64 := by
    obtain ⟨h1, h2⟩ := Bool.and_eq_true_iff.1 (List.mem_filter.1 hx).2
    exact ⟨of_decide_eq_true h1, of_decide_eq_true h2⟩
  obtain h | ⟨x, hx, heq⟩ := mem_cellsWrite he
  · exact hhere h
  · obtain ⟨w, -, hw⟩ := List.mem_flatMap.1 hx
    rw [heq]
    exact hhere hw

theorem hostOnly_read {m : Memory} (h : m.wf = true) (hr : m.recent = []) {k : Nat} (h1 : hostStart ≤ k)
    (h2 : k < hostStart + 2 ^ 64) : m.hostOnly.coLast k = m.coLast k := by
  have hm : m.coLast k = cellRead m.cells k := by
    unfold Memory.coLast
    rw [hr]
    rfl
  have hh : m.hostOnly.coLast k =
      cellRead (m.cells.filter fun c => decide (hostStart ≤ c.1) && decide (c.1 < hostStart + 2 ^ 64)) k := by
    unfold Memory.coLast Memory.hostOnly
    dsimp only
    rw [hr]
    rfl
  rw [hm, hh]
  exact cellRead_filter (p := fun k => decide (hostStart ≤ k) && decide (k < hostStart + 2 ^ 64))
    (Bool.and_eq_true_iff.2 ⟨decide_eq_true h1, decide_eq_true h2⟩) h

theorem resetModule_fresh (s : State) (powered : Bool) : FreshModule s (s.resetModule powered) powered :=
  ⟨rfl, .inl rfl, rfl, rfl, fun _ => hostOnly_inside, fun h hr _ => hostOnly_read h hr⟩

theorem restart_fresh (s : State) : FreshModule s s.restart true := by
  have hdown : bootstWord 0 false 3 false = 0x30 := by decide
  unfold State.restart State.trainLink
  dsimp only
  split
  · exact ⟨rfl, .inr ⟨rfl, hdown⟩, rfl, rfl, fun _ => hostOnly_inside, fun h hr _ => hostOnly_read h hr⟩
  · exact ⟨rfl, .inl rfl, rfl, rfl, fun _ => hostOnly_inside, fun h hr _ => hostOnly_read h hr⟩

/-! ### The energy window (R460) -/

theorem occupied_iff {s : State} {r : Nat} (h : ∀ p, p < 4 → (s.plane (planeKey r p)).ctx = none) : s.occupied r = false := by
  unfold State.occupied
  rw [List.any_eq_false]
  intro p hp
  have hp4 : p < 4 := by
    simp only [List.mem_cons, List.not_mem_nil, or_false] at hp
    omega
  rw [h p hp4]
  exact Bool.false_ne_true

/-- What a region's next window allows, before a throttled board halves it. -/
def State.fullAllowance (s : State) (r : Nat) : Nat :=
  if !s.present r then 0
  else if !s.occupied r then 8192
  else max 8192 (min (min (8192 + Config.grant r s.turns) 0xFFFFF) (4400000 - s.otherAllowances r))

theorem nextAllowance_eq (s : State) (r : Nat) :
    s.nextAllowance r = if s.hot.contains (r / 32) then s.fullAllowance r / 2 else s.fullAllowance r := rfl

section
variable {s : State} {r : Nat}

theorem fullAllowance_absent (h : s.present r = false) : s.fullAllowance r = 0 := by
  unfold State.fullAllowance
  rw [h]
  rfl

theorem fullAllowance_vacant (h : s.present r = true) (ho : s.occupied r = false) : s.fullAllowance r = 8192 := by
  unfold State.fullAllowance
  rw [h, ho]
  rfl

theorem fullAllowance_min (h : s.present r = true) : 8192 ≤ s.fullAllowance r := by
  unfold State.fullAllowance
  rw [h]
  split
  · contradiction
  · split <;> omega

theorem fullAllowance_max : s.fullAllowance r ≤ max 8192 (4400000 - s.otherAllowances r) ∧ s.fullAllowance r < 2 ^ 20 := by
  unfold State.fullAllowance
  split
  · omega
  · split <;> omega

theorem nextAllowance_cool (h : r / 32 ∉ s.hot) : s.nextAllowance r = s.fullAllowance r := by
  rw [nextAllowance_eq, if_neg (by simpa using h)]

theorem nextAllowance_hot (h : r / 32 ∈ s.hot) : s.nextAllowance r = s.fullAllowance r / 2 := by
  rw [nextAllowance_eq, if_pos (by simpa using h)]

theorem nextAllowance_le : s.nextAllowance r ≤ s.fullAllowance r := by
  by_cases h : r / 32 ∈ s.hot
  · rw [nextAllowance_hot h]
    exact Nat.div_le_self _ _
  · exact (nextAllowance_cool h).le

end

/-- Settles O60. -/
theorem powerAndEnergy : Obligations.PowerAndEnergy := by
  unfold Obligations.PowerAndEnergy
  intro s
  refine ⟨fun value hp => ⟨fun hv => ⟨_, ?_, restart_fresh s⟩, fun hv => ?_⟩, fun hp => ⟨_, ?_, restart_fresh s⟩,
    ⟨_, rfl, resetModule_fresh s false⟩, fun _ => ⟨_, rfl, resetModule_fresh s false⟩, fun port hp hu hlt up => ?_,
    fun board hp => ⟨if_pos hp, if_pos hp⟩, fun r => ?_⟩
  · exact if_pos (by rw [hp, hv]; rfl)
  · exact if_neg (by rw [hv, Bool.and_false]; exact Bool.false_ne_true)
  · exact if_neg (by rw [hp]; exact Bool.false_ne_true)
  · refine ⟨if up then (s.aknan.filter fun p => p != port) ++ [port] else s.aknan.filter fun p => p != port,
      if_neg (by simp [hp, hu, hlt]), ?_, fun x hx => ?_⟩
    · cases up <;> simp
    · cases up <;> simp [hx]
  · refine ⟨_, rfl, ?_⟩
    unfold State.beginWindow
    dsimp only
    rw [State.region_setRegion_self]
    refine ⟨rfl, rfl, rfl, rfl, rfl, rfl, fun h => ?_, fun h hc => ?_, ?_, ?_, fun h hc hv => ?_, fun h hc hv => ?_,
      fun u hu => ?_⟩
    · exact Nat.le_zero.1 (nextAllowance_le.trans (fullAllowance_absent h).le)
    · exact (fullAllowance_min h).trans (nextAllowance_cool hc).ge
    · exact nextAllowance_le.trans fullAllowance_max.1
    · exact nextAllowance_le.trans_lt fullAllowance_max.2
    · exact (nextAllowance_cool hc).trans (fullAllowance_vacant h (occupied_iff hv))
    · exact (nextAllowance_hot hc).trans (congrArg (· / 2) (fullAllowance_vacant h (occupied_iff hv)))
    · interval_cases u <;> rfl

end Sys2Proof.Machine
end

