-- ==== Sys2Proof/Proofs/HostAccesses.lean ====
section
/-!
PROOFS. O58: notify writes, host threads' writes and the HDM window.
-/

namespace Sys2Proof.Machine

/-! ### A copy for a notify write keeps the sequencers and the planes (R428, R198) -/

/-- The sequencers and the planes stay. -/
def SameRuns (s t : State) : Prop := t.seqs = s.seqs ∧ t.planes = s.planes

theorem SameRuns.refl (s : State) : SameRuns s s := ⟨rfl, rfl⟩

theorem SameRuns.trans {s t u : State} (h : SameRuns s t) (g : SameRuns t u) : SameRuns s u :=
  ⟨g.1.trans h.1, g.2.trans h.2⟩

theorem SameRuns.of_regions {s t : State} (h : SameButRegions s t) : SameRuns s t := by
  obtain ⟨-, -, hs, hp⟩ := h.fields
  exact ⟨hs, hp⟩

theorem SameRuns.fill (s : State) (l : List Nat) (e : Cached) : SameRuns s (s.fill l e) := by
  induction l generalizing s with
  | nil => exact .refl s
  | cons q l ih => exact SameRuns.trans (t := { s with tlbs := _, frees := _ }) ⟨rfl, rfl⟩ (ih _)

theorem SameRuns.takeFrame {s s' : State} {n f : Nat} {c c' : Ctx} (h : s.takeFrame n c = some (f, c', s')) :
    SameRuns s s' := by
  unfold State.takeFrame at h
  split at h
  · exact absurd h nofun
  · cases h
    exact ⟨rfl, rfl⟩

theorem SameRuns.copyFor (s : State) (a src dst : Nat) : SameRuns s (s.copyFor a src dst) := by
  have hmem : SameRuns s { s with mem := s.copyPage (Agent.ofKey a) src dst } := ⟨rfl, rfl⟩
  unfold State.copyFor
  exact hmem.trans ((SameRuns.of_regions (.chargeAt _ _ _ _)).trans (.of_regions (.chargeAt _ _ _ _)))

theorem SameRuns.copyBranchPage (s : State) (w : Walk) (c : Ctx) (b k : Nat) : SameRuns s (s.copyBranchPage w c b k) := by
  unfold State.copyBranchPage
  dsimp only
  split
  · exact .refl s
  · split
    · exact SameRuns.trans (t := { s.setCtx w.ctx _ with frees := _ }) ⟨rfl, rfl⟩ (.fill _ _ _)
    · split
      · exact ⟨rfl, rfl⟩
      · split
        · exact ⟨rfl, rfl⟩
        · split
          · exact SameRuns.trans (t := { s.setCtx w.ctx _ with frees := _ }) ⟨rfl, rfl⟩ (.fill _ _ _)
          · rename_i hf
            exact SameRuns.trans (t := { s.setCtx w.ctx _ with frees := _ }) ⟨rfl, rfl⟩
              ((SameRuns.takeFrame hf).trans ((SameRuns.copyFor _ _ _ _).trans ⟨rfl, rfl⟩))

theorem SameRuns.copyTablePage (s : State) (w : Walk) (c : Ctx) : SameRuns s (s.copyTablePage w c) := by
  unfold State.copyTablePage
  split
  · exact .fill _ _ _
  · split
    · exact ⟨rfl, rfl⟩
    · split
      · exact .fill _ _ _
      · rename_i hf
        exact (SameRuns.takeFrame hf).trans ((SameRuns.copyFor _ _ _ _).trans
          (SameRuns.trans (t := { State.forget _ _ _ with mem := _ }) ⟨rfl, rfl⟩ (.of_regions (.chargeAt _ _ _ _))))

theorem SameRuns.notifyCopy (s : State) (n va : Nat) : SameRuns s (s.notifyCopy n va) := by
  unfold State.notifyCopy
  split
  · exact .refl s
  · dsimp only
    split
    · split
      · exact .copyBranchPage _ _ _ _ _
      · exact .copyTablePage _ _ _
    · exact .copyTablePage _ _ _

theorem SameRuns.notifyKey {s own : State} {n va key : Nat} (h : s.notifyKey n va = some (key, own)) : SameRuns s own := by
  unfold State.notifyKey at h
  split at h
  · exact absurd h nofun
  · split at h
    · cases h
      exact .refl s
    · dsimp only at h
      split at h
      · split at h
        · exact absurd h nofun
        · cases h
          exact .notifyCopy s n va
      · exact absurd h nofun

/-! ### Every wait looks again -/

theorem Tab.find?_of_mem {β : Type} {t : Tab β} {e : Nat × β} (h : e ∈ t) : ∃ v, Tab.find? t e.1 = some v := by
  induction t with
  | nil => exact nomatch h
  | cons d t ih =>
    obtain ⟨j, v⟩ := d
    unfold Tab.find?
    split
    · exact ⟨v, rfl⟩
    · rename_i hne
      obtain rfl | h := List.mem_cons.1 h
      · exact absurd rfl hne
      · exact ih h

/-- What a notified sequencer is: it looks again where its context is the device's. -/
def State.notified (s : State) (v : Vd) (q : Nat) (x : Seq) : Seq :=
  match s.ctxOf q with
  | some n => if v.ctxs.contains n then x.wake else x
  | none => x

theorem seq_notifyAll (s : State) (v : Vd) (q : Nat) :
    (s.notifyAll v).seq q = match Tab.find? s.seqs q with | some x => s.notified v q x | none => Seq.reset q := by
  have hfind : Tab.find? (s.notifyAll v).seqs q = (Tab.find? s.seqs q).map (s.notified v q) :=
    Tab.find?_mapValue s.seqs (s.notified v) q
  refine (congrArg (fun o => o.getD (Seq.reset q)) hfind).trans ?_
  cases Tab.find? s.seqs q <;> rfl

theorem seq_notifyAll_same (s : State) (v : Vd) (q : Nat) : SameButWaits (s.seq q) ((s.notifyAll v).seq q) := by
  have hseq : s.seq q = (Tab.find? s.seqs q).getD (Seq.reset q) := rfl
  rw [seq_notifyAll, hseq]
  cases Tab.find? s.seqs q with
  | none => exact .refl _
  | some x =>
    dsimp only
    unfold State.notified
    split
    · split
      · exact x.wake_same
      · exact .refl x
    · exact .refl x

/-- Looking again keeps the registers and the place. -/
theorem notifyAll_keeps {s t : State} (h : t.seqs = s.seqs) (v : Vd) (q : Nat) :
    ((t.notifyAll v).seq q).user = (s.seq q).user ∧ ((t.notifyAll v).seq q).bank = (s.seq q).bank ∧
      ((t.notifyAll v).seq q).ip = (s.seq q).ip := by
  obtain ⟨_, _, _, hsame⟩ := seq_notifyAll_same t v q
  have hseq : t.seq q = s.seq q := congrArg (fun l => Tab.getD l q (Seq.reset q)) h
  rw [hsame, hseq]
  exact ⟨rfl, rfl, rfl⟩

theorem wait_wake {x : Seq} {ip : Word} {left : Option Nat} {seen : Option Word} (h : x.wait = .timed ip left seen true) :
    x.wake.wait = .timed ip left seen false := by
  unfold Seq.wake
  rw [h]
  exact Seq.wait_setWait _ _

/-- A wait of a context of the device looks again. -/
theorem notifyAll_looks {s : State} {v : Vd} {e : Nat × Seq} {n : Nat} {ip : Word} {left : Option Nat} {seen : Option Word} (he : e ∈ s.seqs)
    (hn : s.ctxOf e.1 = some n) (hv : n ∈ v.ctxs) (hw : (s.seq e.1).wait = .timed ip left seen true) :
    ((s.notifyAll v).seq e.1).wait = .timed ip left seen false := by
  obtain ⟨x, hx⟩ := Tab.find?_of_mem he
  have hseq : s.seq e.1 = x := congrArg (fun o => o.getD (Seq.reset e.1)) hx
  rw [seq_notifyAll, hx]
  dsimp only
  unfold State.notified
  rw [hn]
  dsimp only
  rw [if_pos (by simpa using hv)]
  exact wait_wake (hseq ▸ hw)

/-- A plane whose join tables some bytes are written into. -/
def Plane.spoilt (p : Plane) (keys : List Nat) : Plane := { p with nodes := p.nodes.map fun (i, n) => (i, n.spoil keys) }

theorem hostWrite_ctxOf (s : State) (key : Nat) (bs : List Byte) (q : Nat) : (s.hostWrite key bs).ctxOf q = s.ctxOf q := by
  have hplane (k : Nat) : ((s.hostWrite key bs).plane k).ctx = (s.plane k).ctx := by
    have hfind : Tab.find? (s.hostWrite key bs).planes k =
        (Tab.find? s.planes k).map fun p => p.spoilt (keysFrom key bs.length) :=
      Tab.find?_mapValue s.planes (fun _ p => p.spoilt (keysFrom key bs.length)) k
    refine (congrArg (fun o => (Option.getD o Plane.empty).ctx) hfind).trans ?_
    show _ = ((Tab.find? s.planes k).getD Plane.empty).ctx
    cases Tab.find? s.planes k <;> rfl
  have hplaneOf : (s.hostWrite key bs).planeOf q = s.planeOf q := rfl
  unfold State.ctxOf
  rw [hplaneOf]
  cases s.planeOf q with
  | none => rfl
  | some k => exact hplane k

theorem ctxOf_of_runs {s t : State} (h : SameRuns s t) (q : Nat) : t.ctxOf q = s.ctxOf q := by
  unfold State.ctxOf State.planeOf State.seq State.plane
  rw [h.1, h.2]

/-! ### The mirror word and the ciphertext -/

theorem leBytes_append (n m v : Nat) : leBytes (n + m) v = leBytes n v ++ leBytes m (v / 256 ^ n) := by
  induction n generalizing v with
  | zero => simp [leBytes]
  | succ n ih =>
    rw [Nat.add_right_comm, leBytes, leBytes, ih, Nat.div_div_eq_div_mul, ← pow_succ']
    rfl

theorem leBytes_mod {n k : Nat} (h : n ≤ k) (v : Nat) : leBytes n (v % 256 ^ k) = leBytes n v := by
  induction n generalizing v k with
  | zero => rfl
  | succ n ih =>
    obtain ⟨k, rfl⟩ : ∃ j, k = j + 1 := ⟨k - 1, by omega⟩
    have hdiv : v % 256 ^ (k + 1) / 256 = v / 256 % 256 ^ k := by
      rw [pow_succ', Nat.mod_mul_right_div_self]
    have hlow : BitVec.ofNat 8 (v % 256 ^ (k + 1)) = BitVec.ofNat 8 v := by
      apply BitVec.eq_of_toNat_eq
      rw [BitVec.toNat_ofNat, BitVec.toNat_ofNat, Nat.mod_mod_of_dvd _ (dvd_pow_self 256 (Nat.succ_ne_zero k))]
    rw [leBytes, leBytes, hdiv, ih (by omega), hlow]

/-- The word of a notify register: the value, the count and two zero bytes. -/
theorem mirror_bytes (c : BitVec 16) (x : BitVec 32) :
    leBytes 8 ((0 : BitVec 16) ++ c ++ x).toNat = leBytes 4 x.toNat ++ leBytes 2 c.toNat ++ [0, 0] := by
  have hval : ((0 : BitVec 16) ++ c ++ x).toNat = c.toNat * 2 ^ 32 + x.toNat := by
    rw [toNat_append_eq, toNat_append_eq]
    simp
  have hx := x.isLt
  have hc := c.isLt
  have h4 : leBytes 4 (c.toNat * 2 ^ 32 + x.toNat) = leBytes 4 x.toNat := by
    rw [← leBytes_mod (le_refl 4)]
    congr 1
    omega
  have hdiv : (c.toNat * 2 ^ 32 + x.toNat) / 256 ^ 4 = c.toNat := by omega
  have hzero : c.toNat / 256 ^ 2 = 0 := by omega
  calc leBytes 8 ((0 : BitVec 16) ++ c ++ x).toNat
      = leBytes 4 x.toNat ++ leBytes 4 c.toNat := by rw [hval, leBytes_append 4 4, h4, hdiv]
    _ = leBytes 4 x.toNat ++ (leBytes 2 c.toNat ++ leBytes 2 0) := by rw [leBytes_append 2 2 c.toNat, hzero]
    _ = leBytes 4 x.toNat ++ leBytes 2 c.toNat ++ [0, 0] := by rw [List.append_assoc]; rfl

theorem leBytes_leNat (bs : List Byte) : leBytes bs.length (leNat bs) = bs := by
  induction bs with
  | nil => rfl
  | cons b bs ih =>
    have hb := b.isLt
    have hdiv : (b.toNat + 256 * leNat bs) / 256 = leNat bs := by omega
    have hlow : BitVec.ofNat 8 (b.toNat + 256 * leNat bs) = b := by
      apply BitVec.eq_of_toNat_eq
      rw [BitVec.toNat_ofNat]
      omega
    rw [List.length_cons, leBytes, leNat, hdiv, ih, hlow]

/-- Deciphered and enciphered again, a block is what it was. -/
theorem encipher_decipher (v : Vd) (block : Nat) {bs : List Byte} (h : bs.length = 64) :
    v.encipher block (v.decipher block bs) = bs := by
  unfold Vd.encipher Vd.decipher
  have hround (x : BitVec 512) : BitVec.ofNat 512 (leNat (leBytes 64 x.toNat)) = x := by
    rw [leNat_leBytes_of_lt (by have := x.isLt; omega), BitVec.ofNat_toNat, BitVec.setWidth_eq]
  have hpow : 2 ^ 512 = 256 ^ 64 := (congrArg (fun n => 2 ^ n) (rfl : 512 = 8 * 64)).trans (pow_mul 2 8 64)
  rw [hround, Equiv.apply_symm_apply, BitVec.toNat_ofNat, hpow, leBytes_mod (le_refl 64), ← h, leBytes_leNat]

/-! ### The HDM window (R409) -/

theorem hdmBase_lt : hdmBase + 2 ^ 36 < hostStart := by
  have hframe : Config.hdmFrame % (3 * 2 ^ 20 + 1) < 3 * 2 ^ 20 + 1 := Nat.mod_lt _ (by omega)
  unfold hdmBase hostStart gddrStart
  generalize Config.hdmFrame % (3 * 2 ^ 20 + 1) = m at *
  omega

/-- A store within one block is the block's own. -/
theorem hdmWrite_block {s : State} {o : Nat} {bs : List Byte} (hne : bs ≠ []) (hfit : (hdmBase + o) % 64 + bs.length ≤ 64) :
    s.hdmWrite o (bs.length + 1) bs = s.hdmBlock o bs := by
  have hempty : bs.isEmpty = false := by
    cases bs with
    | nil => exact absurd rfl hne
    | cons _ _ => rfl
  have hend (t : State) (o : Nat) : t.hdmWrite o bs.length [] = t := by
    cases bs.length <;> rfl
  rw [State.hdmWrite, if_neg (by rw [hempty]; exact Bool.false_ne_true)]
  dsimp only
  rw [List.take_of_length_le (by omega), List.drop_of_length_le (by omega), hend]

section
variable {s : State} {thread address : Nat}

theorem exec_hdmStore (hp : s.powered = true) (hu : s.host.up = true) {count : Nat} {bs : List Byte}
    (hfit : address + bs.length ≤ 2 ^ 36) :
    exec (.hdmAccess thread address count (some bs)) s = .next (s.hdmWrite address (bs.length + 1) bs) := by
  have he : exec (.hdmAccess thread address count (some bs)) s = execHdmAccess thread address count (some bs) s := rfl
  rw [he]
  unfold execHdmAccess
  dsimp only
  rw [if_neg (by omega), hp, hu]
  rfl

theorem exec_hdmRead (hp : s.powered = true) (hu : s.host.up = true) {count : Nat} (hfit : address + count ≤ 2 ^ 36) :
    exec (.hdmAccess thread address count none) s =
      .next { s with host := { s.host with hdm := (List.range count).map fun i => s.hdmByte (address + i) } } := by
  have he : exec (.hdmAccess thread address count none) s = execHdmAccess thread address count none s := rfl
  rw [he]
  unfold execHdmAccess
  dsimp only
  rw [if_neg (by omega), hp, hu]
  rfl

theorem exec_hostThreadWrite (hp : s.powered = true) (bs : List Byte) :
    exec (.hostThreadWrite thread address bs) s =
      if hostStart ≤ address && decide (address + bs.length ≤ hostStart + 2 ^ 64) then .next (s.hostWrite address bs)
      else if s.host.up && hdmBase ≤ address && decide (address + bs.length ≤ hdmBase + 2 ^ 36) then
        .next (s.hdmWrite (address - hdmBase) (bs.length + 1) bs)
      else stall s := by
  have he : exec (.hostThreadWrite thread address bs) s = execHostThreadWrite thread address bs s := rfl
  rw [he]
  unfold execHostThreadWrite
  exact if_neg (by rw [hp]; exact Bool.false_ne_true)

end

/-! ### A notify write (R428) -/

/-- What admits a notify write. -/
def NotifyOk (s : State) (v : Vd) (reg : Nat) (value : Word) : Prop :=
  v.state ≠ .evicted ∧ reg < v.nnot ∧ bits value 32 32 = 0 ∧
    (v.nrate ≠ 0 → (if v.window = s.cycle / 2000 then v.inWindow else 0) < v.nrate)

/-- The device after an admitted notify write. -/
def Vd.admits (v : Vd) (window reg : Nat) : Vd :=
  { v with
    cnt := vput v.cnt reg (vget v.cnt reg 0 + 1), admitted := v.admitted + 1, window
    inWindow := (if v.window = window then v.inWindow else 0) + 1 }

/-- The condition under which the write is refused. -/
theorem notifyOk_iff {s : State} {v : Vd} {reg : Nat} {value : Word} :
    (v.state == .evicted || decide (v.nnot ≤ reg) || bits value 32 32 != 0 ||
      (v.nrate != 0 && decide (v.nrate ≤ if v.window = s.cycle / 2000 then v.inWindow else 0))) = true ↔
      ¬NotifyOk s v reg value := by
  unfold NotifyOk
  generalize (if v.window = s.cycle / 2000 then v.inWindow else 0) = sofar
  simp only [Bool.or_eq_true, beq_iff_eq, decide_eq_true_eq, bne_iff_ne, Bool.and_eq_true, not_and_or, not_not, not_lt,
    Classical.not_imp, or_assoc, ne_eq]

section
variable {s : State} {vf reg : Nat} {value : Word} {v : Vd} (hp : s.powered = true) (hu : s.host.up = true)
  (hv : Tab.find? s.vds vf = some v) (hr : reg < 8)
include hp hu hv hr

theorem exec_notifyWrite_refused (h : ¬NotifyOk s v reg value ∨ s.notifyKey v.firstCtx (v.nva + 8 * reg) = none) :
    exec (.notifyWrite vf reg value) s = .next { s with vds := Tab.put s.vds vf { v with rejected := v.rejected + 1 } } := by
  have he : exec (.notifyWrite vf reg value) s = execNotifyWrite vf reg value s := rfl
  rw [he]
  unfold execNotifyWrite
  rw [if_neg (by simp [hp, hu]; omega), hv]
  by_cases hok : NotifyOk s v reg value
  · obtain h | h := h
    · exact absurd hok h
    · refine (if_neg (not_not_intro hok ∘ notifyOk_iff.1)).trans ?_
      rw [h]
      rfl
  · exact if_pos (notifyOk_iff.2 hok)

theorem exec_notifyWrite_admitted (h : NotifyOk s v reg value) {key : Nat} {own : State}
    (hk : s.notifyKey v.firstCtx (v.nva + 8 * reg) = some (key, own)) :
    exec (.notifyWrite vf reg value) s =
      .next (((own.setVd vf (v.admits (s.cycle / 2000) reg)).hostWrite key
        (leBytes 8 ((0 : BitVec 16) ++ (vget v.cnt reg 0 + 1) ++ bits value 0 32).toNat)).notifyAll
        (v.admits (s.cycle / 2000) reg)) := by
  have he : exec (.notifyWrite vf reg value) s = execNotifyWrite vf reg value s := rfl
  rw [he]
  unfold execNotifyWrite
  rw [if_neg (by simp [hp, hu]; omega), hv]
  refine (if_neg (not_not_intro h ∘ notifyOk_iff.1)).trans ?_
  rw [hk]
  rfl

end

/-- Settles O58. -/
theorem hostAccesses : Obligations.HostAccesses := by
  unfold Obligations.HostAccesses
  intro s
  refine ⟨fun vf reg value h => ?_, fun vf reg value v hp hu hv hr => ?_, fun thread address bytes hp => ⟨fun h1 h2 => ?_,
    fun hu h1 h2 => ?_, fun h1 h2 => ?_⟩, fun thread address count hp hu hfit => ?_,
    fun thread address bs hp hu hfit hne hblock => ⟨fun ho => ?_, fun v ho => ?_⟩, fun thread address count h => if_pos h⟩
  · exact if_pos (by simp [h])
  · refine ⟨fun h => exec_notifyWrite_refused hp hu hv hr h, fun key own hok hk => ?_, fun ph hl hc => ?_⟩
    · have hruns := SameRuns.notifyKey hk
      refine ⟨_, _, _, exec_notifyWrite_admitted hp hu hv hr hok hk, Tab.find?_put_self _ _ _, rfl, rfl,
        vget_vput_self _ _ _ _ hr, rfl, rfl, rfl, mirror_bytes _ _, fun e he n ip left seen hn hin hw hseq => ?_, fun q => ?_⟩
      · refine notifyAll_looks (s := (own.setVd vf _).hostWrite key _) (hruns.1.symm ▸ he : e ∈ own.seqs) ?_ hin ?_
        · exact (hostWrite_ctxOf _ _ _ _).trans ((ctxOf_of_runs hruns e.1).trans hn)
        · exact (congrArg (fun l => (Tab.getD l e.1 (Seq.reset e.1)).wait) hruns.1).trans hw
      · exact notifyAll_keeps (t := (own.setVd vf _).hostWrite key _) hruns.1 _ q
    · unfold State.notifyKey
      rw [hl]
      dsimp only
      rw [hc]
      rfl
  · exact ⟨_, (exec_hostThreadWrite hp bytes).trans (if_pos (by simpa using ⟨h1, h2⟩)), rfl, rfl⟩
  · have hhost := hdmBase_lt
    rw [exec_hostThreadWrite hp, if_neg (by simp; omega), if_pos (by simpa [hu] using ⟨h1, h2⟩), exec_hdmStore hp hu (by omega)]
  · rw [exec_hostThreadWrite hp, if_neg (by simp; omega), if_neg (by simp; omega)]
    rfl
  · refine ⟨_, exec_hdmRead hp hu hfit, by simp, fun i hi ho => ?_, fun i v hi ho => ?_⟩
    · rw [List.getElem?_map, List.getElem?_range hi]
      refine congrArg some ?_
      show s.hdmByte (address + i) = 0
      unfold State.hdmByte
      rw [ho]
    · rw [List.getElem?_map, List.getElem?_range hi]
      refine congrArg some ?_
      show s.hdmByte (address + i) = _
      unfold State.hdmByte
      rw [ho, Nat.add_assoc]
      rfl
  · rw [exec_hdmStore hp hu hfit, hdmWrite_block hne hblock]
    unfold State.hdmBlock
    rw [ho]
  · refine ⟨_, _, (exec_hdmStore hp hu hfit).trans (congrArg _ (hdmWrite_block hne hblock)), rfl, ?_, ?_⟩
    · unfold State.hdmBlock
      rw [ho]
      rfl
    · refine encipher_decipher v _ ?_
      have hold : (v.encipher ((hdmBase + address) / 64)
          (s.readBytes (.host 0) (64 * ((hdmBase + address) / 64)) 64)).length = 64 := length_leBytes _ _
      rw [List.length_append, List.length_append, List.length_take, List.length_drop, hold]
      omega

end Sys2Proof.Machine
end

