-- ==== Sys2Proof/Proofs/HostRegisters.lean ====
section
/-!
PROOFS. O59: the registers of PF BAR0, the firmware image and bring-up.
-/

namespace Sys2Proof.Machine

/-! ### The fields of a register -/

/-- A base address is a multiple of 4 KiB. -/
theorem base_of_bits (x : Word) : bits x 12 52 ++ (0 : BitVec 12) = x &&& 0xFFFFFFFFFFFFF000 := by
  have hx : x = bits x 12 52 ++ bits x 0 12 :=
    ((bits_join (hi := 12) (lo := 0) (len := 52) (m := 12) x rfl).trans BitVec.extractLsb'_eq_self).symm
  have hmask : (0xFFFFFFFFFFFFF000 : Word) = BitVec.allOnes 52 ++ (0 : BitVec 12) := by decide
  rw [hmask]
  conv_rhs => rw [hx]
  rw [BitVec.and_append, BitVec.and_allOnes]
  congr 1
  exact (BitVec.and_zero).symm

theorem between_eq (x y : Word) :
    between x y = ((bits x 0 16).toNat + 2 ^ 16 - (bits y 0 16).toNat) % 2 ^ 16 := by
  have hy := (bits y 0 16).isLt
  unfold between
  rw [BitVec.toNat_sub]
  congr 1
  omega

section
variable (len : BitVec 32) (ready : Bool) (err : BitVec 3) (go : Bool)

theorem bootstWord_len : bits (bootstWord len ready err go) 32 32 = len := by
  unfold bootstWord
  simp (disch := omega) only [bits, BitVec.extractLsb'_append_eq_of_le, Nat.reduceSub]
  exact BitVec.extractLsb'_eq_self

theorem bootstWord_err : bits (bootstWord len ready err go) 4 3 = err := by
  unfold bootstWord
  simp (disch := omega) only [bits, BitVec.extractLsb'_append_eq_of_le, BitVec.extractLsb'_append_eq_of_add_le, Nat.reduceSub]
  exact BitVec.extractLsb'_eq_self

theorem bootstWord_go : bitAt (bootstWord len ready err go) 0 = go := by
  unfold bootstWord bitAt
  simp only [BitVec.getLsbD_append]
  cases go <;> rfl

theorem bootstWord_ready : bitAt (bootstWord len ready err go) 7 = ready := by
  unfold bootstWord bitAt
  simp only [BitVec.getLsbD_append]
  cases ready <;> rfl

end

/-! ### A write of a register (R413) -/

section
variable {s : State} {x : Word}

theorem exec_registerWrite (hp : s.powered = true) (n : Nat) : exec (.registerWrite n x) s = .next (s.writeBar0 n x) :=
  if_pos hp

/-- A port that is down brings RST alone. -/
theorem writeBar0_down (h : s.host.linkDown = true) {n : Nat} (hn : n ≠ 0x50) : s.writeBar0 n x = s :=
  if_pos (by rw [h]; simpa using hn)

/-- On a port that is up a write does what its register says. -/
theorem writeBar0_up (h : s.host.linkDown = false) (n : Nat) : s.writeBar0 n x =
    match n with
    | 0x00 => if bitAt s.host.crcfg 4 then s else { s with host := { s.host with crbase := bits x 12 52 ++ (0 : BitVec 12) } }
    | 0x08 =>
      if !s.host.up || 8 < (bits x 0 4).toNat then s
      else if bitAt s.host.crcfg 4 then
        { s with host := { s.host with crcfg := ((bits x 4 1) ++ bits s.host.crcfg 0 4).setWidth 64 } }
      else { s with host := { s.host with crcfg := (bits x 0 5).setWidth 64 } }
    | 0x10 =>
      if s.host.ringSize < between x s.host.crhead then s
      else { s with host := { s.host with crtail := (bits x 0 16).setWidth 64 } }
    | 0x20 => if bitAt s.host.crcfg 4 then s else { s with host := { s.host with cpbase := bits x 12 52 ++ (0 : BitVec 12) } }
    | 0x30 => { s with host := { s.host with cphead := (bits x 0 16).setWidth 64 } }
    | 0x40 => s.writeBootst x
    | 0x50 => if bitAt x 0 then s.restart else s
    | _ => s := by
  unfold State.writeBar0
  dsimp only
  refine (if_neg ?_).trans ?_
  · rw [h]
    exact Bool.false_ne_true
  · rfl

/-- A write that its register's own rule drops. -/
theorem writeBar0_keeps {n : Nat} (hn : n ≠ 0x50) (h : s.host.linkDown = false → s.writeBar0 n x = s) : s.writeBar0 n x = s := by
  cases hd : s.host.linkDown with
  | true => exact writeBar0_down hd hn
  | false => exact h hd

/-- CRCFG takes the enable bit, and the size while the ring is not enabled. -/
theorem crcfg_fields (e : BitVec 1) (n : BitVec 4) :
    bitAt ((e ++ n).setWidth 64 : Word) 4 = e.getLsbD 0 ∧ bits ((e ++ n).setWidth 64 : Word) 0 4 = n := by
  constructor
  · unfold bitAt
    rw [BitVec.getLsbD_setWidth, BitVec.getLsbD_append]
    rfl
  · apply BitVec.eq_of_getLsbD_eq
    intro i hi
    rw [BitVec.getLsbD_extractLsb', BitVec.getLsbD_setWidth, BitVec.getLsbD_append]
    simp [hi]
    omega

end

/-! ### The image window (R464) -/

theorem image_getD (offset : Nat) (bs : List Byte) (t : Tab Byte) (j : Nat) (n : Nat) :
    Tab.getD (((List.range' n bs.length).zip bs).foldl (fun t (i, b) => Tab.put t (offset + i) b) t) j 0 =
      if offset + n ≤ j ∧ j < offset + n + bs.length then (bs[j - (offset + n)]?).getD 0 else Tab.getD t j 0 := by
  induction bs generalizing t n with
  | nil =>
    rw [if_neg (by simp)]
    rfl
  | cons b bs ih =>
    rw [List.length_cons, List.range'_succ, List.zip_cons_cons, List.foldl_cons, ih]
    by_cases hj : j = offset + n
    · subst hj
      rw [if_neg (by omega), if_pos (by omega), Tab.getD_put_self, Nat.sub_self]
      rfl
    · rw [Tab.getD_put_ne _ _ _ _ _ hj]
      by_cases hin : offset + (n + 1) ≤ j ∧ j < offset + (n + 1) + bs.length
      · rw [if_pos hin, if_pos (by omega), show j - (offset + n) = j - (offset + (n + 1)) + 1 by omega, List.getElem?_cons_succ]
      · rw [if_neg hin, if_neg (by omega)]

/-! ### Bring-up (R464, R465) -/

/-- A pair of regions is present when both are. -/
theorem presentRegions_bit (x : BitVec 128) {j : Nat} (hj : j < 128) :
    bitAt (presentRegions x) j = (bitAt x (j / 2 * 2) && bitAt x (j / 2 * 2 + 1)) := by
  have hstep (l : List Nat) (v : BitVec 128) (hl : ∀ i ∈ l, i < 64) :
      bitAt (l.foldl (fun v i =>
        if bitAt x (2 * i) && bitAt x (2 * i + 1) then setBit (setBit v (2 * i) true) (2 * i + 1) true else v) v) j =
        (bitAt v j || (decide (j / 2 ∈ l) && (bitAt x (j / 2 * 2) && bitAt x (j / 2 * 2 + 1)))) := by
    induction l generalizing v with
    | nil => simp
    | cons i l ih =>
      have hi := hl i List.mem_cons_self
      rw [List.foldl_cons, ih _ fun k hk => hl k (List.mem_cons_of_mem _ hk)]
      by_cases hji : j / 2 = i
      · subst hji
        rw [Nat.mul_comm 2]
        cases hc : bitAt x (j / 2 * 2) && bitAt x (j / 2 * 2 + 1) with
        | false => simp
        | true =>
          rw [if_pos rfl, bitAt_setBit _ _ _ (by omega), bitAt_setBit _ _ _ (by omega)]
          have h2 : j = j / 2 * 2 + 1 ∨ j = j / 2 * 2 := by omega
          obtain h | h := h2
          · rw [if_pos h]
            simp
          · rw [if_neg (by omega), if_pos h]
            simp
      · have hkeep : bitAt (if bitAt x (2 * i) && bitAt x (2 * i + 1) then
            setBit (setBit v (2 * i) true) (2 * i + 1) true else v) j = bitAt v j := by
          split
          · rw [bitAt_setBit _ _ _ (by omega), bitAt_setBit _ _ _ (by omega), if_neg (by omega), if_neg (by omega)]
          · rfl
        rw [hkeep]
        simp [hji]
  have hmem : j / 2 ∈ List.range 64 := List.mem_range.2 (by omega)
  refine (hstep (List.range 64) 0 fun i hi => List.mem_range.1 hi).trans ?_
  simp [hmem, bitAt]

theorem present_of_bits {s : State} {x : BitVec 128} (h0 : s.host.caprg0 = bits x 0 64) (h1 : s.host.caprg1 = bits x 64 64)
    {r : Nat} (hr : r < 128) : s.present r = bitAt x r := by
  unfold State.present
  split
  · rw [h0]
    unfold bitAt
    rw [BitVec.getLsbD_extractLsb', Nat.zero_add, decide_eq_true ‹r < 64›, Bool.true_and]
  · rw [h1]
    unfold bitAt
    rw [BitVec.getLsbD_extractLsb', Nat.add_sub_cancel' (by omega), decide_eq_true (by omega : r - 64 < 64), Bool.true_and]

/-- No write of a byte is left in memory. -/
def Memory.Unwritten (m : Memory) (k : Nat) : Prop :=
  (∀ e ∈ m.cells, e.1 ≠ k) ∧ ∀ w ∈ m.recent, ∀ e ∈ w.cells, e.1 ≠ k

theorem coLast_unwritten {m : Memory} {k : Nat} (h : m.Unwritten k) : m.coLast k = 0 := by
  obtain ⟨hcells, hrecent⟩ := h
  have hread (c : List Host.Cell) (hc : ∀ e ∈ c, e.1 ≠ k) : cellRead c k = 0 := by
    induction c with
    | nil => rfl
    | cons e c ih =>
      rw [cellRead, if_neg (hc e List.mem_cons_self), ih fun d hd => hc d (List.mem_cons_of_mem _ hd)]
      exact ite_self _
  have hat (w : MWrite) (hw : ∀ e ∈ w.cells, e.1 ≠ k) : w.at? k = none := by
    have hfind : (w.cells.find? fun e => e.1 = k) = none :=
      List.find?_eq_none.2 fun e he hek => hw e he (of_decide_eq_true hek)
    unfold MWrite.at?
    split
    · rfl
    · rw [hfind]
      rfl
  unfold Memory.coLast
  rw [hread _ hcells]
  generalize m.recent = l at hrecent
  induction l with
  | nil => rfl
  | cons w l ih =>
    rw [List.foldl_cons, hat w (hrecent w List.mem_cons_self)]
    exact ih fun x hx => hrecent x (List.mem_cons_of_mem _ hx)

theorem zeroWhere_unwritten (s : State) {gone : Nat → Bool} {k : Nat} (h : gone k = true ∨ s.mem.Unwritten k) :
    (s.zeroWhere gone).mem.Unwritten k := by
  have hgone {c : List Host.Cell} (hc : gone k = true ∨ ∀ e ∈ c, e.1 ≠ k) : ∀ e ∈ c.filter fun c => !gone c.1, e.1 ≠ k := by
    rintro e he rfl
    obtain ⟨hin, hkeep⟩ := List.mem_filter.1 he
    obtain hg | hc := hc
    · rw [hg] at hkeep
      exact absurd hkeep (by decide)
    · exact hc e hin rfl
  refine ⟨hgone (h.imp_right And.left), fun w hw => ?_⟩
  obtain ⟨x, hx, rfl⟩ := List.mem_map.1 hw
  exact hgone (h.imp_right fun h => h.2 x hx)

/-- A byte that reads zero does so when further bytes are dropped. -/
theorem zeroSram_rest (s : State) (l : List Nat) : SameButRegions (s.zeroWhere (inSram l)) (s.zeroSram l) :=
  SameButRegions.foldl (fun s r => .setRegion s r _) l _

theorem SameButRegions.host {s t : State} (h : SameButRegions s t) : t.host = s.host := by
  rw [h]

theorem SameButRegions.clock {s t : State} (h : SameButRegions s t) : t.cycle = s.cycle ∧ t.hot = s.hot := by
  rw [h]
  exact ⟨rfl, rfl⟩

theorem zeroWhere_fields (s : State) (gone : Nat → Bool) : (s.zeroWhere gone).host = s.host ∧
    (s.zeroWhere gone).cycle = s.cycle ∧ (s.zeroWhere gone).hot = s.hot := ⟨rfl, rfl, rfl⟩

/-- The windows of some regions begin one after another: each region's as it stands then. -/
theorem region_beginWindows {l : List Nat} (hl : l.Nodup) (s : State) {r : Nat} (hr : r ∈ l) :
    ∃ u, SameButRegions s u ∧ (l.foldl State.beginWindow s).region r = (u.beginWindow r).region r := by
  have hrest (l : List Nat) (s : State) (hr : r ∉ l) : (l.foldl State.beginWindow s).region r = s.region r := by
    induction l generalizing s with
    | nil => rfl
    | cons x l ih =>
      obtain ⟨hx, hl⟩ := not_or.1 (mt List.mem_cons.2 hr)
      rw [List.foldl_cons, ih _ hl]
      exact State.region_setRegion_ne _ _ _ _ hx
  induction l generalizing s with
  | nil => exact nomatch hr
  | cons x l ih =>
    obtain ⟨hx, hl⟩ := List.nodup_cons.1 hl
    obtain rfl | hr := List.mem_cons.1 hr
    · exact ⟨s, .refl s, hrest l _ hx⟩
    · obtain ⟨u, hu, heq⟩ := ih hl (s.beginWindow x) hr
      exact ⟨u, SameButRegions.trans (.setRegion s x _) hu, heq⟩

section
variable {s : State} {channels ports : Nat} (hp : s.powered = true) (hu : s.host.up = false) (hg : s.host.go = true)
include hp hu hg

/-- Bring-up of a bad length ends in ERR 1. -/
theorem exec_bringup_length (h : (bits s.host.bootst 32 32).toNat < 4628 ∨ 67108864 < (bits s.host.bootst 32 32).toNat) :
    exec (.firmwareBringup channels ports) s =
      .next { s with host := { s.host with bootst := bootstWord (bits s.host.bootst 32 32) false 1 false } } := by
  have he : exec (.firmwareBringup channels ports) s = execFirmwareBringup channels ports s := rfl
  rw [he]
  unfold execFirmwareBringup
  dsimp only
  refine (if_neg (by simp [hp, hu, hg])).trans (if_pos ?_)
  simpa using h

variable (h1 : 4628 ≤ (bits s.host.bootst 32 32).toNat) (h2 : (bits s.host.bootst 32 32).toNat ≤ 67108864)
include h1 h2

/-- The image that bring-up checks. -/
def State.bootImage (s : State) : List Byte :=
  (List.range (bits s.host.bootst 32 32).toNat).map fun i => Tab.getD s.host.image i 0

/-- The digest that it keeps. -/
def State.bootHash (s : State) := Config.sha3 (s.bootImage.take ((bits s.host.bootst 32 32).toNat - 4627))

/-- The signature of the image is the vendor's. -/
def State.bootSigned (s : State) : Bool :=
  Config.mldsaVerify Config.vendorKey s.bootHash (s.bootImage.drop ((bits s.host.bootst 32 32).toNat - 4627))

theorem exec_bringup_signature (hs : ¬s.bootSigned = true) :
    exec (.firmwareBringup channels ports) s =
      .next { s with host := { s.host with bootst := bootstWord (bits s.host.bootst 32 32) false 2 false } } := by
  have he : exec (.firmwareBringup channels ports) s = execFirmwareBringup channels ports s := rfl
  rw [he]
  unfold execFirmwareBringup
  dsimp only
  have hlen : ¬((bits s.host.bootst 32 32).toNat < 4628 || decide (67108864 < (bits s.host.bootst 32 32).toNat)) = true := by
    simp only [Bool.or_eq_true, decide_eq_true_eq, not_or]
    omega
  refine (if_neg (by simp [hp, hu, hg])).trans ((if_neg hlen).trans (if_pos ?_))
  unfold State.bootSigned State.bootHash State.bootImage at hs
  rw [Bool.eq_false_of_not_eq_true hs]
  rfl

/-- The module whose image bring-up has accepted, before the sequencers and the windows begin. -/
def State.booted (s : State) (channels ports : Nat) : State :=
  { (s.zeroSram (List.range 128)).zeroWhere inBase with
    host := { s.host with
      bootst := bootstWord (bits s.host.bootst 32 32) true 0 false, rst := 0, fwhash := s.bootHash
      caprg0 := bits (presentRegions Config.regionsPresent) 0 64, caprg1 := bits (presentRegions Config.regionsPresent) 64 64
      capch := BitVec.ofNat 64 (channels % 2 ^ 32), capak := BitVec.ofNat 64 (ports % 2 ^ 48) }
    aknan := (List.range 24).filter fun p => ports / 2 ^ p % 2 = 1 }

/-- Bring-up ends with the windows of all regions begun and the root cores running. -/
def State.ready (s : State) (channels ports : Nat) : State :=
  (List.range 128).foldl State.beginWindow ([0, 1, 2, 3].foldl State.startService (s.booted channels ports))

theorem exec_bringup_ready (hs : s.bootSigned = true) :
    exec (.firmwareBringup channels ports) s = .next (s.ready channels ports) := by
  have he : exec (.firmwareBringup channels ports) s = execFirmwareBringup channels ports s := rfl
  have hhost : ((s.zeroSram (List.range 128)).zeroWhere inBase).host = s.host :=
    (zeroWhere_fields _ inBase).1.trans ((zeroSram_rest s (List.range 128)).host.trans (zeroWhere_fields s _).1)
  have hlen : ¬((bits s.host.bootst 32 32).toNat < 4628 || decide (67108864 < (bits s.host.bootst 32 32).toNat)) = true := by
    simp only [Bool.or_eq_true, decide_eq_true_eq, not_or]
    omega
  unfold State.bootSigned State.bootHash State.bootImage at hs
  rw [he]
  unfold execFirmwareBringup
  dsimp only
  refine (if_neg (by simp [hp, hu, hg])).trans ((if_neg hlen).trans ((if_neg ?_).trans ?_))
  · rw [hs]
    decide
  · rw [hhost]
    rfl

end

/-! ### The module that is ready -/

/-- The root cores start, and nothing but them changes. -/
theorem startServices_rest (s : State) : [0, 1, 2, 3].foldl State.startService s =
    { s with seqs := ([0, 1, 2, 3].foldl State.startService s).seqs } := rfl

theorem withSeqs_fields (s : State) (l : Tab Seq) : { s with seqs := l }.host = s.host ∧ { s with seqs := l }.mem = s.mem ∧
    { s with seqs := l }.cycle = s.cycle ∧ { s with seqs := l }.hot = s.hot := ⟨rfl, rfl, rfl, rfl⟩

/-- A root core that has started runs the service code. -/
theorem startServices_root (s : State) {b : Nat} (hb : b < 4) :
    (([0, 1, 2, 3].foldl State.startService s).seq (128 + b)).run = .running ∧
      (([0, 1, 2, 3].foldl State.startService s).seq (128 + b)).priv = true ∧
      (([0, 1, 2, 3].foldl State.startService s).seq (128 + b)).ip.toNat % 4 = 0 := by
  have hstart (t : State) : (t.startService b).seq (128 + b) = { t.seq (rootOf b) with
      run := .running, ip := (bits (Config.serviceEntry b) 2 50 ++ (0 : BitVec 2)).setWidth 64, priv := true } :=
    State.seq_setSeq_self _ _ _
  have hother (t : State) {j : Nat} (hj : 128 + b ≠ 128 + j) : (t.startService j).seq (128 + b) = t.seq (128 + b) :=
    State.seq_setSeq_ne _ _ _ _ hj
  have hip (x : BitVec 50) : ((x ++ (0 : BitVec 2)).setWidth 64 : Word).toNat % 4 = 0 := by
    have hx := x.isLt
    rw [BitVec.toNat_setWidth, toNat_append_eq]
    simp
  have hall : ∃ t : State, ([0, 1, 2, 3].foldl State.startService s).seq (128 + b) =
      (State.startService t b).seq (128 + b) := by
    simp only [List.foldl_cons, List.foldl_nil]
    interval_cases b
    · exact ⟨_, (hother _ (by omega)).trans ((hother _ (by omega)).trans (hother _ (by omega)))⟩
    · exact ⟨_, (hother _ (by omega)).trans (hother _ (by omega))⟩
    · exact ⟨_, hother _ (by omega)⟩
    · exact ⟨_, rfl⟩
  obtain ⟨t, ht⟩ := hall
  rw [ht, hstart]
  exact ⟨rfl, rfl, hip _⟩

section
variable (s : State) (channels ports : Nat)

/-- The root cores of a booted module have started. -/
def State.served : State := [0, 1, 2, 3].foldl State.startService (s.booted channels ports)

theorem served_rest : s.served channels ports = { s.booted channels ports with seqs := (s.served channels ports).seqs } :=
  startServices_rest _

theorem ready_rest : SameButRegions (s.served channels ports) (s.ready channels ports) :=
  SameButRegions.foldl (fun s r => .setRegion s r _) _ _

theorem served_fields : (s.served channels ports).host = (s.booted channels ports).host ∧
    (s.served channels ports).mem = (s.booted channels ports).mem ∧
    (s.served channels ports).cycle = (s.booted channels ports).cycle ∧
    (s.served channels ports).hot = (s.booted channels ports).hot := by
  rw [served_rest]
  exact withSeqs_fields _ _

theorem booted_fields : (s.booted channels ports).mem = ((s.zeroSram (List.range 128)).zeroWhere inBase).mem ∧
    (s.booted channels ports).cycle = s.cycle ∧ (s.booted channels ports).hot = s.hot := by
  obtain ⟨hc, hh⟩ := (zeroSram_rest s (List.range 128)).clock
  obtain ⟨-, hc', hh'⟩ := zeroWhere_fields (s.zeroSram (List.range 128)) inBase
  unfold State.booted
  dsimp only
  exact ⟨rfl, hc'.trans (hc.trans (zeroWhere_fields s _).2.1), hh'.trans (hh.trans (zeroWhere_fields s _).2.2)⟩

theorem ready_host : (s.ready channels ports).host = (s.booted channels ports).host :=
  (ready_rest s channels ports).host.trans (served_fields s channels ports).1

theorem ready_present {r : Nat} (hr : r < 128) : (s.ready channels ports).present r =
    (bitAt Config.regionsPresent (r / 2 * 2) && bitAt Config.regionsPresent (r / 2 * 2 + 1)) := by
  rw [← presentRegions_bit _ hr]
  refine present_of_bits ?_ ?_ hr
  · rw [ready_host]
    rfl
  · rw [ready_host]
    rfl

theorem ready_sram : SramZero (s.ready channels ports) (List.range 128) := by
  intro key hkey
  have hmem : (s.ready channels ports).mem = ((s.zeroSram (List.range 128)).zeroWhere inBase).mem :=
    (ready_rest s channels ports).fields.1.trans
      ((served_fields s channels ports).2.1.trans (booted_fields s channels ports).1)
  have hzero : (s.zeroSram (List.range 128)).mem.Unwritten key := by
    rw [(zeroSram_rest s (List.range 128)).fields.1]
    exact zeroWhere_unwritten s (.inl hkey)
  rw [hmem]
  exact coLast_unwritten (zeroWhere_unwritten _ (.inr hzero))

theorem ready_window {r : Nat} (hr : r < 128) : ((s.ready channels ports).region r).window = s.cycle / 2000 ∧
    ((s.ready channels ports).present r = true → r / 32 ∉ s.hot → 8192 ≤ ((s.ready channels ports).region r).allow) := by
  obtain ⟨u, hu, hregion⟩ := region_beginWindows List.nodup_range (s.served channels ports) (List.mem_range.2 hr)
  obtain ⟨hcycle, hhot⟩ := hu.clock
  obtain ⟨-, -, hsc, hsh⟩ := served_fields s channels ports
  obtain ⟨-, hzc, hzh⟩ := booted_fields s channels ports
  have hc : u.cycle = s.cycle := hcycle.trans (hsc.trans hzc)
  have hh : u.hot = s.hot := hhot.trans (hsh.trans hzh)
  have hhost : u.host = (s.ready channels ports).host := hu.host.trans (ready_rest s channels ports).host.symm
  have heq : (s.ready channels ports).region r = (u.beginWindow r).region r := hregion
  rw [heq]
  unfold State.beginWindow
  dsimp only
  rw [State.region_setRegion_self]
  refine ⟨congrArg (· / 2000) hc, fun hp hcool => ?_⟩
  have hpresent : u.present r = true := by
    unfold State.present at *
    rw [hhost]
    exact hp
  exact (fullAllowance_min hpresent).trans (nextAllowance_cool (hh ▸ hcool)).ge

theorem ready_roots {b : Nat} (hb : b < 4) : ((s.ready channels ports).seq (128 + b)).run = .running ∧
    ((s.ready channels ports).seq (128 + b)).priv = true ∧ ((s.ready channels ports).seq (128 + b)).ip.toNat % 4 = 0 := by
  have hseq : (s.ready channels ports).seq (128 + b) = (s.served channels ports).seq (128 + b) :=
    congrArg (fun l => Tab.getD l (128 + b) (Seq.reset (128 + b))) (ready_rest s channels ports).fields.2.2.1
  rw [hseq]
  exact startServices_root _ hb

end

/-- Settles O59. -/
theorem hostRegisters : Obligations.HostRegisters := by
  unfold Obligations.HostRegisters
  intro s x hp h wr en
  have hwr (n : Nat) : wr n = .next (s.writeBar0 n x) := exec_registerWrite hp n
  have hsame {n : Nat} (hn : s.writeBar0 n x = s) : wr n = .next s := (hwr n).trans (congrArg _ hn)
  have hkeeps {n : Nat} (hne : n ≠ 0x50) (hn : s.host.linkDown = false → s.writeBar0 n x = s) : wr n = .next s :=
    hsame (writeBar0_keeps hne hn)
  have hsplit : bits x 0 5 = bits x 4 1 ++ bits x 0 4 := (bits_join (hi := 4) (lo := 0) (len := 1) (m := 4) x rfl).symm
  have hfour : (bits x 4 1).getLsbD 0 = bitAt x 4 := (BitVec.getLsbD_extractLsb' ..).trans (by simp)
  refine ⟨fun he => ⟨hkeeps (by decide) fun hd => (writeBar0_up hd _).trans (if_pos he),
      hkeeps (by decide) fun hd => (writeBar0_up hd _).trans (if_pos he)⟩,
    fun n hd hn => hsame (writeBar0_down hd hn), fun hd he => ⟨?_, ?_⟩, fun hc => ?_, fun hd hu hc => ?_,
    ⟨fun hr => ?_, fun hd hr => ?_⟩, fun hd => ?_,
    hkeeps (by decide) fun hd => writeBar0_up hd _, hkeeps (by decide) fun hd => writeBar0_up hd _,
    hkeeps (by decide) fun hd => writeBar0_up hd _, hkeeps (by decide) fun hd => writeBar0_up hd _,
    hkeeps (by decide) fun hd => writeBar0_up hd _, hkeeps (by decide) fun hd => writeBar0_up hd _,
    hkeeps (by decide) fun hd => writeBar0_up hd _, rfl, rfl, rfl, rfl, fun o ho => ?_, fun hb => ?_, fun hd hu hg => ?_,
    fun offset bs hb => ?_, fun offset bs hd hu hg hfit => ?_, fun channels ports hu hg => ?_⟩
  · rw [← base_of_bits]
    exact (hwr 0x00).trans (congrArg _ ((writeBar0_up hd 0x00).trans (if_neg (Bool.eq_false_iff.1 he))))
  · rw [← base_of_bits]
    exact (hwr 0x20).trans (congrArg _ ((writeBar0_up hd 0x20).trans (if_neg (Bool.eq_false_iff.1 he))))
  · refine hkeeps (by decide) fun hd => (writeBar0_up hd _).trans (if_pos ?_)
    obtain hc | hc := hc
    · rw [show s.host.up = false from hc]
      rfl
    · exact Bool.or_eq_true_iff.2 (.inr (decide_eq_true hc))
  · have hroom : ¬(!s.host.up || decide (8 < (bits x 0 4).toNat)) = true := by
      rw [show s.host.up = true from hu, decide_eq_false (by omega : ¬8 < (bits x 0 4).toNat)]
      decide
    have h8 := (hwr 0x08).trans (congrArg Host.Outcome.next ((writeBar0_up hd 0x08).trans (if_neg hroom)))
    cases he : bitAt s.host.crcfg 4 with
    | true =>
      obtain ⟨h4, hlow⟩ := crcfg_fields (bits x 4 1) (bits s.host.crcfg 0 4)
      exact ⟨_, h8.trans (congrArg Host.Outcome.next (if_pos he)), h4.trans hfour, hlow.trans (if_pos he).symm⟩
    | false =>
      have hen : ¬bitAt s.host.crcfg 4 = true := by rw [he]; exact Bool.false_ne_true
      obtain ⟨h4, hlow⟩ := crcfg_fields (bits x 4 1) (bits x 0 4)
      refine ⟨_, h8.trans (congrArg Host.Outcome.next (if_neg hen)), ?_, ?_⟩
      · rw [hsplit]
        exact h4.trans hfour
      · rw [hsplit]
        exact hlow.trans (if_neg hen).symm
  · refine hkeeps (by decide) fun hd => (writeBar0_up hd _).trans (if_pos ?_)
    rw [between_eq]
    exact hr
  · refine (hwr 0x10).trans (congrArg _ ((writeBar0_up hd 0x10).trans (if_neg ?_)))
    rw [between_eq]
    exact Nat.not_lt.2 hr
  · exact (hwr 0x30).trans (congrArg _ (writeBar0_up hd 0x30))
  · unfold State.readBar0
    dsimp only
    split <;> simp at ho ⊢
  · refine hkeeps (by decide) fun hd => (writeBar0_up hd _).trans (if_pos ?_)
    obtain hb | hb := hb
    · rw [show s.host.up = true from hb]
      rfl
    · rw [show s.host.go = true from hb, Bool.or_true]
      rfl
  · have hboot : s.writeBootst x =
        { s with host := { h with bootst := bootstWord (bits x 32 32) false (bits h.bootst 4 3) (bitAt x 0) } } :=
      if_neg (by rw [show s.host.up = false from hu, show s.host.go = false from hg, hd]; exact Bool.false_ne_true)
    refine ⟨_, ?_, bootstWord_len _ _ _ _, bootstWord_go _ _ _ _, bootstWord_ready _ _ _ _, bootstWord_err _ _ _ _,
      fun hx => ?_⟩
    · exact (hwr 0x40).trans (congrArg _ ((writeBar0_up hd 0x40).trans hboot))
    · exact (if_neg (by rw [hp, hx]; exact Bool.false_ne_true)).trans (congrArg _ hboot)
  · refine if_pos ?_
    obtain hb | hb | hb := hb
    · simp [show s.host.up = true from hb]
    · simp [show s.host.go = true from hb]
    · simp [show s.host.linkDown = true from hb]
  · refine ⟨_, if_neg ?_, fun j => ?_⟩
    · simp only [hp, show s.host.up = false from hu, show s.host.go = false from hg, show s.host.linkDown = false from hd,
        Bool.not_true, Bool.false_or, decide_eq_true_eq]
      omega
    · have hrange : List.range bs.length = List.range' 0 bs.length := List.range_eq_range'
      rw [hrange, image_getD]
      rfl
  · refine ⟨fun hl => ⟨_, exec_bringup_length hp hu hg hl, bootstWord_err _ _ _ _, bootstWord_go _ _ _ _,
      bootstWord_ready _ _ _ _⟩, fun h1 h2 hs => ⟨_, exec_bringup_signature hp hu hg h1 h2 hs, bootstWord_err _ _ _ _,
      bootstWord_go _ _ _ _, bootstWord_ready _ _ _ _⟩, fun h1 h2 hs => ⟨_, exec_bringup_ready hp hu hg h1 h2 hs, ?_, ?_, ?_,
      ?_, ?_, ?_, fun r hr => ready_present s channels ports hr, ready_sram s channels ports,
      fun r hr => ready_window s channels ports hr, fun b hb => ready_roots s channels ports hb⟩⟩
    · rw [ready_host]
      exact bootstWord_ready _ _ _ _
    · rw [ready_host]
      exact bootstWord_go _ _ _ _
    · rw [ready_host]
      rfl
    · rw [ready_host]
      rfl
    · rw [ready_host]
      exact (toNat_bits_ofNat _ 0 32).trans (by omega)
    · rw [ready_host]
      exact (toNat_bits_ofNat _ 0 48).trans (by omega)

end Sys2Proof.Machine
end

