-- ==== Sys2Proof/Proofs/VdStops.lean ====
section
/-!
PROOFS. O55: PAUSE, RESUME and DESTROY_VD.
-/

namespace Sys2Proof.Machine

/-! ### A command that its device allows (R414, R416) -/

/-- A command that its virtual device and its state allow does what it says. -/
theorem Commands.exec {s : State} {p : Packet} {c k : Nat} {v : Vd} {i : Instr} {g : Packet → Nat → Vd → Res}
    (h : Commands s p c k v) (hrange : 1 ≤ c ∧ c ≤ 10)
    (he : exec i s = asCommand c s fun p => withVd s p (allowedIn c) (g p)) : exec i s = s.begun (g p k v) := by
  obtain ⟨hp, rfl, hz, hv, hmask, hstate⟩ := h
  rw [he]
  simp [asCommand, hp, Packet.shapeOk_eq_unusedZero hrange, hz, withVd, hv, hmask, hstate]

theorem Commands.packet {s : State} {p : Packet} {c k : Nat} {v : Vd} (h : Commands s p c k v) : s.packet = some p := h.1

/-- A command that answers in its turn. -/
theorem Commands.ends {s u : State} {p : Packet} {c k status : Nat} {result : Word} {v : Vd} {i : Instr}
    {g : Packet → Nat → Vd → Res} (h : Commands s p c k v) (hrange : 1 ≤ c ∧ c ≤ 10)
    (he : Machine.exec i s = asCommand c s fun p => withVd s p (allowedIn c) (g p))
    (hg : g p k v = u.complete p status result) (hu : u.host = s.host) : Ends i s u p status result :=
  .of_complete h.packet ((h.exec hrange he).trans (by rw [hg, State.begun_complete hu]))

/-- The command that the Arbiter has begun, kept beside the ring. -/
def State.holding (t s : State) : State := { t with host := { t.host with command := s.commandBytes } }

/-- A command that takes another turn keeps its packet. -/
theorem Commands.goes {s t : State} {p : Packet} {c k : Nat} {v : Vd} {i : Instr} {g : Packet → Nat → Vd → Res}
    (h : Commands s p c k v) (hrange : 1 ≤ c ∧ c ≤ 10)
    (he : Machine.exec i s = asCommand c s fun p => withVd s p (allowedIn c) (g p))
    (hg : g p k v = .next t) (hh : t.host = s.host) : Machine.exec i s = .next (t.holding s) := by
  refine (h.exec hrange he).trans ?_
  rw [hg]
  exact congrArg Host.Outcome.next (if_pos (congrArg HostRegs.crhead hh))

theorem commandBytes_begun {s : State} {bs : List Byte} (hpow : s.powered = true) (hup : s.host.up = true)
    (hc : s.host.command = some bs) : s.commandBytes = some bs := by
  simp [State.commandBytes, hpow, hup, hc]

theorem up_of_commandBytes {s : State} {bs : List Byte} (h : s.commandBytes = some bs) :
    s.powered = true ∧ s.host.up = true := by
  by_contra hn
  rw [State.commandBytes, if_pos] at h
  · cases h
  · simpa [or_iff_not_imp_left] using hn

/-- As long as the command stands, no other begins, whatever memory holds. -/
theorem keeps_holding {s t : State} {p : Packet} (hp : s.packet = some p) (hh : t.host = s.host)
    (hpow : t.powered = s.powered) : (t.holding s).keeps p := by
  intro m
  obtain ⟨bs, hb, hbs⟩ := Option.map_eq_some_iff.mp hp
  obtain ⟨hs, hu⟩ := up_of_commandBytes hb
  rw [State.packet, commandBytes_begun (s := { t.holding s with mem := m }) (bs := bs) (hpow.trans hs) ((congrArg HostRegs.up hh).trans hu) hb,
    ← hbs]
  rfl

/-! ### Chains of changes -/

/-- What one member of the list establishes, from what all keep, holds at the end where none undoes it. -/
theorem foldl_establishes {α β : Type} {f : β → α → β} {I P : β → Prop} {l : List α} {a : α} (ha : a ∈ l)
    (hI : ∀ b x, I b → I (f b x)) (hP : ∀ b x, P b → P (f b x)) (hset : ∀ b, I b → P (f b a)) {b : β} (h : I b) :
    P (l.foldl f b) := by
  induction l generalizing b with
  | nil => cases ha
  | cons x l ih =>
    rw [List.foldl_cons]
    obtain rfl | ha := List.mem_cons.1 ha
    · exact foldl_ok (fun {_ _} hb => hP _ _ hb) (hset b h)
    · exact ih ha (hI b x h)

/-! ### PAUSE (R416) -/

/-- The context of a number made another, where there is one. -/
def State.mapCtx (g : Ctx → Ctx) (s : State) (n : Nat) : State :=
  match s.ctx? n with
  | some c => s.setCtx n (g c)
  | none => s

theorem ctx_mapCtx (g : Ctx → Ctx) (s : State) (n i : Nat) :
    (s.mapCtx g n).ctx? i = if i = n then (s.ctx? i).map g else s.ctx? i := by
  unfold State.mapCtx
  by_cases hi : i = n
  · subst hi
    cases h : s.ctx? i with
    | none => rw [if_pos rfl]; exact h
    | some c => rw [if_pos rfl]; exact State.ctx_setCtx_self _ _ _
  · rw [if_neg hi]
    cases s.ctx? n with
    | none => rfl
    | some c => exact State.ctx_setCtx_ne _ _ _ _ hi

/-- All contexts of a list changed once, by a change that does nothing a second time. -/
theorem ctx_mapCtxs {g : Ctx → Ctx} (hg : ∀ c, g (g c) = g c) {l : List Nat} {n : Nat} (hn : n ∈ l) {s : State} {c : Ctx}
    (hc : s.ctx? n = some c) : (l.foldl (State.mapCtx g) s).ctx? n = some (g c) := by
  refine foldl_establishes (I := fun b : State => b.ctx? n = some c ∨ b.ctx? n = some (g c))
    (P := fun b : State => b.ctx? n = some (g c)) hn (fun b x hb => ?_)
    (fun b x hb => ?_) (fun b hb => ?_) (.inl hc)
  · rw [ctx_mapCtx]
    split
    · obtain hb | hb := hb <;> simp [hb, hg]
    · exact hb
  · rw [ctx_mapCtx, hb]
    simp [hg]
  · rw [ctx_mapCtx, if_pos rfl]
    obtain hb | hb := hb <;> simp [hb, hg]

/-- Contexts alone change. -/
theorem mapCtxs_rest (g : Ctx → Ctx) (l : List Nat) (s : State) :
    l.foldl (State.mapCtx g) s = { s with ctxs := (l.foldl (State.mapCtx g) s).ctxs } := by
  induction l generalizing s with
  | nil => rfl
  | cons n l ih =>
    have hstep : s.mapCtx g n = { s with ctxs := (s.mapCtx g n).ctxs } := by
      unfold State.mapCtx
      split <;> rfl
    rw [List.foldl_cons, ih, hstep]

theorem vdPlanes_congr {s t : State} (h : t.planes = s.planes) (v : Vd) : t.vdPlanes v = s.vdPlanes v := by
  simp only [State.vdPlanes, State.plane, h]

/-- Which planes a device has, their contexts say. -/
theorem vdPlanes_ctx {s t : State} (h : ∀ k, (t.plane k).ctx = (s.plane k).ctx) (v : Vd) : t.vdPlanes v = s.vdPlanes v := by
  simp only [State.vdPlanes, h]

/-- From s to t no more than planes changes. -/
def SameButPlanes (s t : State) : Prop := t = { s with planes := t.planes }

theorem SameButPlanes.foldl {α : Type} {f : State → α → State} (hf : ∀ s a, SameButPlanes s (f s a)) (l : List α)
    (s : State) : SameButPlanes s (l.foldl f s) := by
  induction l generalizing s with
  | nil => rfl
  | cons a l ih =>
    have := ih (f s a)
    unfold SameButPlanes at *
    rw [List.foldl_cons, this, hf s a]

theorem SameButPlanes.fields {s t : State} (h : SameButPlanes s t) : t.mem = s.mem ∧ t.ctxs = s.ctxs ∧ t.vds = s.vds ∧
    t.host = s.host ∧ t.powered = s.powered := by
  rw [h]
  exact ⟨rfl, rfl, rfl, rfl, rfl⟩

/-- What one plane of the list becomes is kept by the others' changes, and by its own again. -/
theorem plane_foldl {f : State → Nat × Nat → State} {I P : Plane → Prop} {l : List (Nat × Nat)} {e : Nat × Nat} (he : e ∈ l)
    (hf : ∀ s x, (f s x).plane (planeKey e.1 e.2) = s.plane (planeKey e.1 e.2) ∨
      ∃ y, (f s x).plane (planeKey e.1 e.2) = y ∧ P y)
    (hset : ∀ s, I (s.plane (planeKey e.1 e.2)) → P ((f s e).plane (planeKey e.1 e.2)))
    (hIP : ∀ y, P y → I y) (s : State) (h : I (s.plane (planeKey e.1 e.2))) :
    P ((l.foldl f s).plane (planeKey e.1 e.2)) := by
  refine foldl_establishes (I := fun b : State => I (b.plane (planeKey e.1 e.2)))
    (P := fun b : State => P (b.plane (planeKey e.1 e.2))) he (fun b x hb => ?_) (fun b x hb => ?_) (fun b hb => hset b hb) h
  · obtain h | ⟨y, h, hy⟩ := hf b x
    · rw [h]; exact hb
    · rw [h]; exact hIP y hy
  · obtain h | ⟨y, h, hy⟩ := hf b x
    · rw [h]; exact hb
    · rw [h]; exact hy

theorem suspend_eq (s : State) (v : Vd) :
    s.suspend v = (let t := v.ctxs.foldl (State.mapCtx fun c => { c with state := .suspended }) s
      (t.vdPlanes v).foldl (fun s (r, p) =>
        let pl := s.plane (planeKey r p)
        if pl.frozen == .none then s.setPlane (planeKey r p) { pl with frozen := .pause } else s) t) := rfl

/-- R416: the contexts are suspended and the planes frozen; nothing else changes. -/
theorem suspend_spec (s : State) (v : Vd) :
    (s.suspend v).mem = s.mem ∧ (s.suspend v).vds = s.vds ∧ (s.suspend v).host = s.host ∧
      (s.suspend v).powered = s.powered ∧
      (∀ n ∈ v.ctxs, ∀ c, s.ctx? n = some c → (s.suspend v).ctx? n = some { c with state := .suspended }) ∧
      ∀ e ∈ s.vdPlanes v, ((s.suspend v).plane (planeKey e.1 e.2)).frozen ≠ .none := by
  rw [suspend_eq]
  have hctxs (n : Nat) (hn : n ∈ v.ctxs) (c : Ctx) (hc : s.ctx? n = some c) :=
    ctx_mapCtxs (g := fun c => { c with state := .suspended }) (fun _ => rfl) hn hc
  have hrest := mapCtxs_rest (fun c => { c with state := .suspended }) v.ctxs s
  generalize v.ctxs.foldl (State.mapCtx fun c => { c with state := .suspended }) s = t at hctxs hrest
  have hv : t.vdPlanes v = s.vdPlanes v := vdPlanes_congr (by rw [hrest]) v
  dsimp only
  rw [hv]
  have hall := SameButPlanes.foldl (f := fun s (r, p) =>
    if (s.plane (planeKey r p)).frozen == .none then
      s.setPlane (planeKey r p) { s.plane (planeKey r p) with frozen := .pause } else s)
    (fun s _ => by dsimp only; split <;> rfl) (s.vdPlanes v) t
  obtain ⟨hm, hc, hvd, hh, hp⟩ := hall.fields
  refine ⟨hm.trans (by rw [hrest]), hvd.trans (by rw [hrest]), hh.trans (by rw [hrest]), hp.trans (by rw [hrest]),
    fun n hn c hcn => ?_, fun e he => ?_⟩
  · rw [State.ctx?, hc]
    exact hctxs n hn c hcn
  · refine plane_foldl (I := fun _ => True) (P := fun y => y.frozen ≠ .none) he (fun s x => ?_) (fun s _ => ?_)
      (fun _ _ => trivial) _ trivial
    · split
      · by_cases hk : planeKey e.1 e.2 = planeKey x.1 x.2
        · exact .inr ⟨_, rfl, by rw [hk, State.plane_setPlane_self]; exact nofun⟩
        · exact .inl (State.plane_setPlane_ne _ _ _ _ hk)
      · exact .inl rfl
    · split
      · rw [State.plane_setPlane_self]
        exact nofun
      · rename_i h
        simpa using h

theorem exec_pause {s : State} {p : Packet} {k : Nat} {v : Vd} (h : Commands s p 3 k v) :
    (s.suspended v = true → Ends .pause s (s.setVd k { v with state := .paused }) p 0 0) ∧
    (s.suspended v = false → exec .pause s = .next ((s.suspend v).holding s)) := by
  obtain ⟨-, -, hh, -⟩ := suspend_spec s v
  exact ⟨fun hs => h.ends (by decide) rfl (if_pos hs) rfl,
    fun hs => h.goes (by decide) rfl (if_neg (by rw [hs]; decide)) hh⟩

/-! ### RESUME (R416) -/

/-- The planes of a device as RESUME leaves them. -/
def State.thaw (s : State) (l : List (Nat × Nat)) : State :=
  l.foldl (fun s (r, q) =>
    if (s.plane (planeKey r q)).frozen == .pause then
      s.setPlane (planeKey r q) { s.plane (planeKey r q) with frozen := .none, atRest := false, saver := none }
    else s) s

theorem thaw_rest (s : State) (l : List (Nat × Nat)) : SameButPlanes s (s.thaw l) :=
  SameButPlanes.foldl (fun s _ => by dsimp only; split <;> rfl) l s

theorem thaw_plane (s : State) {l : List (Nat × Nat)} {e : Nat × Nat} (he : e ∈ l)
    (h : (s.plane (planeKey e.1 e.2)).frozen = .pause) : ((s.thaw l).plane (planeKey e.1 e.2)).frozen = .none := by
  refine plane_foldl (I := fun y => y.frozen = .pause ∨ y.frozen = .none) (P := fun y => y.frozen = .none) he
    (fun s x => ?_) (fun s hs => ?_) (fun _ => .inr) _ (.inl h)
  · dsimp only
    split
    · by_cases hk : planeKey e.1 e.2 = planeKey x.1 x.2
      · exact .inr ⟨_, rfl, by rw [hk, State.plane_setPlane_self]⟩
      · exact .inl (State.plane_setPlane_ne _ _ _ _ hk)
    · exact .inl rfl
  · dsimp only
    split
    · rw [State.plane_setPlane_self]
    · rename_i hn
      exact hs.resolve_left (by simpa using hn)

/-- The contexts of a device as RESUME leaves them. -/
def State.unsuspend (s : State) (l : List Nat) : State :=
  l.foldl (fun s n => match s.ctx? n with
    | some c => if c.state == .suspended then s.setCtx n { c with state := if s.placed n then .resident else .swapped } else s
    | none => s) s

theorem unsuspend_rest (s : State) (l : List Nat) : s.unsuspend l = { s with ctxs := (s.unsuspend l).ctxs } := by
  unfold State.unsuspend
  induction l generalizing s with
  | nil => rfl
  | cons n l ih =>
    rw [List.foldl_cons]
    refine (ih _).trans ?_
    cases s.ctx? n with
    | none => rfl
    | some c => dsimp only; split <;> rfl

theorem unsuspend_ctx (s : State) {l : List Nat} {n : Nat} (hn : n ∈ l) {c : Ctx} (hc : (s.unsuspend l).ctx? n = some c) :
    c.state ≠ .suspended := by
  have hstep (b : State) (x i : Nat) (hi : x = i ∨ ∀ c, b.ctx? i = some c → c.state ≠ .suspended) :
      ∀ d, (match b.ctx? x with
        | some c => if c.state == CtxState.suspended then b.setCtx x { c with state := if b.placed x then CtxState.resident else .swapped } else b
        | none => b).ctx? i = some d → d.state ≠ .suspended := by
    intro d hd
    by_cases hxi : x = i
    · subst hxi
      cases hx : b.ctx? x with
      | none => rw [hx] at hd; exact absurd (hx.symm.trans hd) nofun
      | some c =>
        rw [hx] at hd
        dsimp only at hd
        split at hd
        · rw [State.ctx_setCtx_self] at hd
          cases hd
          dsimp only
          split <;> decide
        · rename_i hs
          cases hx.symm.trans hd
          simpa using hs
    · refine hi.resolve_left hxi d ?_
      cases hx : b.ctx? x with
      | none => rw [hx] at hd; exact hd
      | some c =>
        rw [hx] at hd
        dsimp only at hd
        split at hd
        · rwa [State.ctx_setCtx_ne _ _ _ _ (Ne.symm hxi)] at hd
        · exact hd
  exact foldl_establishes (I := fun _ => True) (P := fun b : State => ∀ c, b.ctx? n = some c → c.state ≠ .suspended) hn
    (fun _ _ _ => trivial) (fun b x hb => hstep b x n (.inr hb)) (fun b _ => hstep b n n (.inl rfl)) trivial c hc

theorem exec_resume {s : State} {p : Packet} {k : Nat} {v : Vd} (h : Commands s p 4 k v) :
    Ends .resume s (((s.thaw (s.vdPlanes v)).unsuspend v.ctxs).setVd k { v with state := .running }) p 0 0 := by
  refine h.ends (by decide) rfl rfl ?_
  have hh : ((s.thaw (s.vdPlanes v)).unsuspend v.ctxs).host = (s.thaw (s.vdPlanes v)).host := by rw [unsuspend_rest]
  exact hh.trans (thaw_rest s _).fields.2.2.2.1

/-! ### DESTROY_VD (R420) -/

/-- What the end of a plane leaves: the host's registers, the coherence order, and of each context what makes it the same. -/
def KeepsContexts (s t : State) : Prop :=
  t.host = s.host ∧ t.powered = s.powered ∧ OrderStays s t ∧ ∀ n c, s.ctx? n = some c →
    ∃ x, t.ctx? n = some x ∧ x.state = c.state ∧ x.mailClosed = c.mailClosed ∧ x.uid = c.uid

theorem KeepsContexts.of_eq {s t : State} (hh : t.host = s.host) (hp : t.powered = s.powered) (hm : t.mem = s.mem)
    (hc : t.ctxs = s.ctxs) : KeepsContexts s t :=
  ⟨hh, hp, ⟨by rw [hm], fun _ => by rw [hm]⟩, fun n c h => ⟨c, by rw [State.ctx?, hc]; exact h, rfl, rfl, rfl⟩⟩

theorem KeepsContexts.refl (s : State) : KeepsContexts s s := .of_eq rfl rfl rfl rfl

theorem KeepsContexts.trans {s t u : State} (h : KeepsContexts s t) (g : KeepsContexts t u) : KeepsContexts s u := by
  obtain ⟨hh, hp, ⟨ht, hl⟩, hc⟩ := h
  obtain ⟨gh, gp, ⟨gt, gl⟩, gc⟩ := g
  refine ⟨gh.trans hh, gp.trans hp, ⟨gt.trans ht, fun key => (gl key).trans (hl key)⟩, fun n c h => ?_⟩
  obtain ⟨x, hx, h1, h2, h3⟩ := hc n c h
  obtain ⟨y, hy, g1, g2, g3⟩ := gc n x hx
  exact ⟨y, hy, g1.trans h1, g2.trans h2, g3.trans h3⟩

theorem KeepsContexts.foldl {α : Type} {f : State → α → State} (hf : ∀ s a, KeepsContexts s (f s a)) (l : List α)
    (s : State) : KeepsContexts s (l.foldl f s) := by
  induction l generalizing s with
  | nil => exact .refl _
  | cons a l ih => exact (hf s a).trans (ih _)

theorem KeepsContexts.of_regions {s t : State} (h : SameButRegions s t) : KeepsContexts s t := by
  rw [h]
  exact .of_eq rfl rfl rfl rfl

theorem KeepsContexts.raiseFlags (s : State) (n : Nat) (f : FFlags) : KeepsContexts s (s.raiseFlags n f) := by
  unfold State.raiseFlags
  split
  · rename_i c hc
    refine ⟨rfl, rfl, ⟨rfl, fun _ => rfl⟩, fun i d hd => ?_⟩
    by_cases hi : i = n
    · subst hi
      cases hc.symm.trans hd
      exact ⟨_, State.ctx_setCtx_self _ _ _, rfl, rfl, rfl⟩
    · exact ⟨d, (State.ctx_setCtx_ne _ _ _ _ hi).trans hd, rfl, rfl, rfl⟩
  · exact .refl _

theorem KeepsContexts.retire (s : State) (a : Nat) : KeepsContexts s (s.retire a) := by
  refine ⟨rfl, rfl, ⟨rfl, fun key => ?_⟩, fun n c h => ⟨c, h, rfl, rfl, rfl⟩⟩
  show Memory.coLast { s.mem with recent := s.mem.recent.map _ } key = _
  unfold Memory.coLast
  rw [List.foldl_map]
  refine congrArg (fun f => s.mem.recent.foldl f _) (funext fun b => funext fun w => ?_)
  split <;> rfl

theorem KeepsContexts.endSides (s : State) (r : Nat) (j : Job) : KeepsContexts s (s.endSides r j) := by
  unfold State.endSides
  split
  · rename_i p wr _ _
    dsimp only
    refine .trans (t := (s.setSide r p wr { s.side r p wr with job := none, bind := none, next := none }).release r p wr)
      (.of_regions ((SameButRegions.setRegion _ _ _).trans (.release _ _ _ _))) ?_
    split
    · have hjob (u : State) (e : Nat) (ip : BitVec 12) : SameButRegions u (match Tab.find? (u.region r).jobs e with
          | some x => u.setJob r e { x with card := ip ++ BitVec.ofNat 4 e }
          | none => u) := by
        split
        · exact .setRegion _ _ _
        · exact .refl _
      have hbegin (u : State) (p : Nat) (wr : Bool) (pat : BitVec 256) (n : Nat) : SameButRegions u (u.beginSides r p wr pat n) := by
        unfold State.beginSides
        dsimp only
        split
        · exact .trans (.setRegion _ _ _) (.setRegion _ _ _)
        · exact .setRegion _ _ _
      have henter (u : State) (e : Nat) (n : Job) (x : Word) : KeepsContexts u (u.enterJob r e n x) := by
        unfold State.enterJob
        dsimp only
        split <;> exact .of_eq rfl rfl rfl rfl
      refine .trans ?_ (.trans (henter _ _ _ _) (.of_regions ((hjob _ _ _).trans (hbegin _ _ _ _ _))))
      split
      · exact .of_regions (.setRegion _ _ _)
      · exact .refl _
    · exact .refl _
  · exact .foldl (fun s a => .of_regions (.setRegion _ _ _)) _ _
  · exact .refl _

theorem KeepsContexts.endJob (s : State) (r e : Nat) (j : Job) : KeepsContexts s (s.endJob r e j) := by
  rw [endJob_eq]
  refine .trans ?_ (.trans (.retire _ _) (.endSides _ _ _))
  unfold State.reported
  rw [writeToken_eq]
  exact .trans (.trans (.raiseFlags _ _ _) (.of_regions (.weightsLoaded _ _ _))) (.of_eq rfl rfl rfl rfl)

theorem KeepsContexts.killStream (s : State) (r e : Nat) (j : Job) : KeepsContexts s (s.killStream r e j) := by
  unfold State.killStream
  refine .trans ?_ (.endJob _ _ _ _)
  split
  · exact .of_regions (.setRegion _ _ _)
  · exact .refl _

theorem KeepsContexts.killArray (s : State) (r a : Nat) (b : BaBind) : KeepsContexts s (s.killArray r a b) := by
  unfold State.killArray
  dsimp only
  split
  · split
    · exact .of_regions (.setRegion _ _ _)
    · exact .trans (.of_regions (.setRegion _ _ _)) (.endJob _ _ _ _)
  · exact .trans (.of_regions (.setRegion _ _ _)) (.of_regions (.setRegion _ _ _))

theorem KeepsContexts.killChain (s : State) (q k : Nat) (x : Word) : KeepsContexts s (s.killChain q k x) := by
  unfold State.killChain
  dsimp only
  have hjobs := KeepsContexts.foldl (f := fun s (x : Nat × Nat × Job) => s.killStream x.1 x.2.1 x.2.2)
    (fun _ _ => .killStream _ _ _ _) (s.portJobs k) s
  have harrs (u : State) := KeepsContexts.foldl (f := fun s (x : Nat × Nat × BaBind) => s.killArray x.1 x.2.1 x.2.2)
    (fun _ _ => .killArray _ _ _ _) (s.chainArrays k) u
  refine hjobs.trans ((harrs _).trans ?_)
  generalize List.foldl _ (List.foldl _ s _) _ = u
  generalize u.plane k = pl
  have hplane (w : State) : KeepsContexts w (w.setPlane k pl.killed) := .of_eq rfl rfl rfl rfl
  have hseq (w : State) (y : Seq) : KeepsContexts w (w.setSeq q y) := .of_eq rfl rfl rfl rfl
  exact .trans (.raiseFlags u _ _) (.trans (hplane _) (.trans (.retire _ _) (hseq _ _)))

theorem KeepsContexts.leaveContext (s : State) (q : Nat) : KeepsContexts s (s.leaveContext q) := by
  unfold State.leaveContext
  dsimp only
  split <;> exact .of_eq rfl rfl rfl rfl

theorem KeepsContexts.vacate (s : State) (r p : Nat) : KeepsContexts s (s.vacate r p) := by
  unfold State.vacate
  dsimp only
  have hsides := SameButRegions.foldl
    (f := fun s (x : Nat × Bool) => if (s.side r x.1 x.2).used p then s.setSide r x.1 x.2 Side.empty else s)
    (fun s _ => by split <;> rfl) allSides s
  refine .trans (.of_regions hsides) ?_
  generalize allSides.foldl _ s = u
  have harrs := SameButRegions.foldl (f := fun s (x : Nat × BaBind) => s.setArr r x.1 (s.arr r x.1).vacated)
    (fun _ _ => .setRegion _ _ _) (u.boundArrays r p) u
  refine .trans (.of_regions harrs) ?_
  generalize List.foldl _ u _ = u
  have hretire (l : List Nat) (w : State) := KeepsContexts.foldl (f := State.retire) .retire l w
  refine .trans (.of_regions (.setRegion u r { u.region r with
    jobs := (u.region r).jobs.filter fun e => !((s.planeJobs r p).map Prod.fst).contains e.1 })) ?_
  refine .trans (hretire ((Agent.block r p).key :: ((s.planeJobs r p).map Prod.fst).map (jobAgent r)) _) ?_
  generalize List.foldl State.retire _ _ = w
  have hwatch : KeepsContexts w { w with watches := w.watches.filter fun x => x.plane != planeKey r p } :=
    .of_eq rfl rfl rfl rfl
  have hempty (x : State) : KeepsContexts x (x.setPlane (planeKey r p) Plane.empty) := .of_eq rfl rfl rfl rfl
  refine hwatch.trans (.trans ?_ (hempty _))
  split
  · exact .leaveContext _ _
  · exact .refl _

theorem KeepsContexts.tearDown (s : State) (r p : Nat) : KeepsContexts s (s.tearDown r p) := by
  unfold State.tearDown
  dsimp only
  split
  · exact .refl _
  · exact .trans (.killChain _ _ _ _) (.vacate _ _ _)

theorem condemn_eq (s : State) (v : Vd) :
    s.condemn v = (let t := v.ctxs.foldl (State.mapCtx fun c => { c with state := .dying, mailClosed := true }) s
      (t.vdPlanes v).foldl (fun s (r, p) =>
        let pl := s.plane (planeKey r p)
        s.setPlane (planeKey r p)
          { pl with frozen := if pl.frozen == .none then .frzOn else pl.frozen, saver := some 1000 }) t) := rfl

/-- R420: the contexts are under teardown with their mailboxes closed; the device has the planes that it had. -/
theorem condemn_spec (s : State) (v : Vd) :
    (s.condemn v).mem = s.mem ∧ (s.condemn v).host = s.host ∧ (s.condemn v).powered = s.powered ∧
      (s.condemn v).vdPlanes v = s.vdPlanes v ∧
      ∀ n ∈ v.ctxs, ∀ c, s.ctx? n = some c →
        (s.condemn v).ctx? n = some { c with state := .dying, mailClosed := true } := by
  rw [condemn_eq]
  have hctxs (n : Nat) (hn : n ∈ v.ctxs) (c : Ctx) (hc : s.ctx? n = some c) :=
    ctx_mapCtxs (g := fun c => { c with state := .dying, mailClosed := true }) (fun _ => rfl) hn hc
  have hrest := mapCtxs_rest (fun c => { c with state := .dying, mailClosed := true }) v.ctxs s
  generalize v.ctxs.foldl (State.mapCtx fun c => { c with state := .dying, mailClosed := true }) s = t at hctxs hrest
  have hv : t.vdPlanes v = s.vdPlanes v := vdPlanes_congr (by rw [hrest]) v
  dsimp only
  rw [hv]
  have hall := SameButPlanes.foldl (f := fun s (r, p) => s.setPlane (planeKey r p) { s.plane (planeKey r p) with
      frozen := if (s.plane (planeKey r p)).frozen == .none then .frzOn else (s.plane (planeKey r p)).frozen
      saver := some 1000 }) (fun _ _ => by dsimp only; exact rfl) (s.vdPlanes v) t
  obtain ⟨hm, hc, -, hh, hp⟩ := hall.fields
  refine ⟨hm.trans (by rw [hrest]), hh.trans (by rw [hrest]), hp.trans (by rw [hrest]), ?_, fun n hn c hcn => ?_⟩
  · rw [← hv]
    refine vdPlanes_ctx (fun k => ?_) v
    refine foldl_ok (P := fun u : State => (u.plane k).ctx = (t.plane k).ctx) (fun {u x} hu => ?_) rfl
    by_cases hk : k = planeKey x.1 x.2
    · rw [hk] at hu ⊢
      rw [State.plane_setPlane_self]
      exact hu
    · rw [State.plane_setPlane_ne _ _ _ _ hk]
      exact hu
  · rw [State.ctx?, hc]
    exact hctxs n hn c hcn

theorem Tab.find?_none {β : Type} {t : Tab β} {k : Nat} (h : ∀ e ∈ t, e.1 ≠ k) : Tab.find? t k = none := by
  induction t with
  | nil => rfl
  | cons e t ih =>
    rw [Tab.find?, if_neg (h e List.mem_cons_self)]
    exact ih fun d hd => h d (List.mem_cons_of_mem _ hd)

theorem zeroSram_spec (s : State) (l : List Nat) : SramZero (s.zeroSram l) l := by
  intro key hkey
  rw [(zeroSram_rest s l).fields.1]
  exact coLast_unwritten (zeroWhere_unwritten s (.inl hkey))

/-- R420, steps 3 to 7: what is left once a device is gone. -/
theorem removeVd_spec (s : State) (k : Nat) (v : Vd) :
    (s.removeVd k v).host = s.host ∧ (∀ n ∈ v.ctxs, (s.removeVd k v).ctx? n = none) ∧
      (s.removeVd k v).queue k = TaskQueue.empty ∧ SramZero (s.removeVd k v) v.regions ∧
      (∀ e ∈ (s.removeVd k v).tlbs, ∀ x ∈ e.2, x.ctx ∉ v.ctxs) ∧
      (∀ e ∈ (s.removeVd k v).units, ∀ x ∈ e.2, x.ctx ∉ v.ctxs) ∧
      (∀ w ∈ (s.removeVd k v).walks, w.ctx ∉ v.ctxs) ∧ Tab.drop (s.removeVd k v).vds k = (s.removeVd k v).vds := by
  unfold State.removeVd
  have hzero := zeroSram_spec (s.scramble v) v.regions
  have hhost : ((s.scramble v).zeroSram v.regions).host = s.host := (zeroSram_rest (s.scramble v) v.regions).host.trans rfl
  dsimp only
  generalize (s.scramble v).zeroSram v.regions = t at hzero hhost ⊢
  have hmine (x : Nat) : (!v.ctxs.contains x) = true → x ∉ v.ctxs := by simp
  refine ⟨hhost, fun n hn => ?_, ?_, hzero, fun e he x hx => ?_, fun e he x hx => ?_, fun w hw => ?_, ?_⟩
  · refine Tab.find?_none fun e he hen => ?_
    obtain ⟨-, hkeep⟩ := List.mem_filter.1 he
    exact hmine _ hkeep (hen ▸ hn)
  · exact Tab.getD_put_self _ _ _ _
  · obtain ⟨y, -, rfl⟩ := List.mem_map.1 he
    exact hmine _ (List.mem_filter.1 hx).2
  · obtain ⟨y, -, rfl⟩ := List.mem_map.1 he
    exact hmine _ (List.mem_filter.1 hx).2
  · exact hmine _ (List.mem_filter.1 hw).2
  · simp [Tab.drop]

theorem exec_destroyVd_tearsDown {s : State} {p : Packet} {k : Nat} {v : Vd} (h : Commands s p 2 k v) {e : Nat × Nat}
    {rest : List (Nat × Nat)} (hv : s.vdPlanes v = e :: rest) :
    exec .destroyVd s = .next (((s.condemn v).tearDown e.1 e.2).holding s) := by
  obtain ⟨-, hh, -, hp, -⟩ := condemn_spec s v
  refine h.goes (g := fun p k v => match (s.condemn v).vdPlanes v with
      | (r, q) :: _ => .next ((s.condemn v).tearDown r q)
      | [] => ((s.condemn v).removeVd k v).complete p Status.ok 0) (by decide) rfl ?_
    ((KeepsContexts.tearDown _ _ _).1.trans hh)
  rw [hp, hv]

theorem exec_destroyVd_ends {s : State} {p : Packet} {k : Nat} {v : Vd} (h : Commands s p 2 k v) (hv : s.vdPlanes v = []) :
    Ends .destroyVd s ((s.condemn v).removeVd k v) p 0 0 := by
  obtain ⟨-, hh, -, hp, -⟩ := condemn_spec s v
  refine h.ends (g := fun p k v => match (s.condemn v).vdPlanes v with
      | (r, q) :: _ => .next ((s.condemn v).tearDown r q)
      | [] => ((s.condemn v).removeVd k v).complete p Status.ok 0) (by decide) rfl ?_
    ((removeVd_spec _ _ _).1.trans hh)
  rw [hp, hv]
  rfl

/-- Settles O55. -/
theorem vdStops : Obligations.VdStops := by
  unfold Obligations.VdStops
  refine fun s p k v => ⟨fun h => ?_, fun h => ?_, fun h => ⟨fun hv => ?_, fun hv => ?_⟩⟩
  · obtain ⟨hends, hgoes⟩ := exec_pause h
    obtain ⟨hm, hvd, hh, hp, hc, hpl⟩ := suspend_spec s v
    exact ⟨hends, fun hs => ⟨_, hgoes hs, keeps_holding h.packet hh hp, hm, hvd, hc, hpl⟩⟩
  · refine ⟨_, exec_resume h, ?_, Tab.find?_put_self _ _ _, fun e he hf => ?_, fun n hn c hc => unsuspend_ctx _ hn hc⟩
    · show ((s.thaw (s.vdPlanes v)).unsuspend v.ctxs).mem = _
      rw [unsuspend_rest]
      exact (thaw_rest s _).fields.1
    · have hpl : (((s.thaw (s.vdPlanes v)).unsuspend v.ctxs).setVd k { v with state := .running }).planes =
          (s.thaw (s.vdPlanes v)).planes := by
        show ((s.thaw (s.vdPlanes v)).unsuspend v.ctxs).planes = _
        rw [unsuspend_rest]
      rw [State.plane, hpl]
      exact thaw_plane s he hf
  · obtain ⟨e, rest, he⟩ := List.exists_cons_of_ne_nil hv
    obtain ⟨hm, hh, hp, -, hc⟩ := condemn_spec s v
    obtain ⟨kh, kp, ⟨kt, kl⟩, kc⟩ := KeepsContexts.tearDown (s.condemn v) e.1 e.2
    refine ⟨_, exec_destroyVd_tearsDown h he, keeps_holding h.packet (kh.trans hh) (kp.trans hp),
      ⟨kt.trans (by rw [hm]), fun key => (kl key).trans (by rw [hm])⟩, fun n hn c hcn => ?_⟩
    exact kc n _ (hc n hn c hcn)
  · obtain ⟨-, hc, hq, hz, ht, hu, hw, hvd⟩ := removeVd_spec (s.condemn v) k v
    exact ⟨_, exec_destroyVd_ends h hv, hc, by rw [hq]; rfl, by rw [hq]; rfl, hz, ht, hu, hw, hvd⟩

end Sys2Proof.Machine
end

