-- ==== Sys2Proof/Proofs/VdCreation.lean ====
section
/-!
PROOFS. O54: CREATE_VD and the creation of a further context.
-/

namespace Sys2Proof.Machine

/-! ### Handles (R412) -/

/-- A VD number and a generation count, as they stand under a handle. -/
def handleInput (k g : Nat) : Word := BitVec.ofNat 32 g ++ (0 : BitVec 24) ++ BitVec.ofNat 8 k

theorem handleInput_toNat {k g : Nat} (hk : k < 256) (hg : g < 2 ^ 32) : (handleInput k g).toNat = 2 ^ 32 * g + k := by
  unfold handleInput
  rw [toNat_append_eq, toNat_append_eq, BitVec.toNat_ofNat, BitVec.toNat_ofNat, Nat.mod_eq_of_lt hk, Nat.mod_eq_of_lt hg]
  show (g * 2 ^ 24 + 0) * 2 ^ 8 + k = _
  omega

/-- The cipher is a permutation, so that its handle of 0, which no pair has, is free for the pair whose own would be 0. -/
theorem handleOf_eq (k g : Nat) : handleOf k g = if Config.handleCipher (handleInput k g) = 0 then Config.handleCipher 0
    else Config.handleCipher (handleInput k g) := rfl

theorem handleInput_ne_zero {k g : Nat} (hk : k < 256) (hg : 1 ≤ g) (hg' : g < 2 ^ 32) : handleInput k g ≠ 0 := by
  intro h
  have := handleInput_toNat hk hg'
  rw [h] at this
  simp at this
  omega

theorem handleOf_ne_zero {k g : Nat} (hk : k < 256) (hg : 1 ≤ g) (hg' : g < 2 ^ 32) : handleOf k g ≠ 0 := by
  have hne := handleInput_ne_zero hk hg hg'
  rw [handleOf_eq]
  split
  · rename_i h
    exact fun h0 => hne (Config.handleCipher.injective (h.trans h0.symm))
  · assumption

theorem handleOf_injective {k g k' g' : Nat} (hk : k < 256) (hk' : k' < 256) (hg : 1 ≤ g) (hg' : 1 ≤ g') (hl : g < 2 ^ 32)
    (hl' : g' < 2 ^ 32) (h : handleOf k g = handleOf k' g') : k = k' ∧ g = g' := by
  have hne := handleInput_ne_zero hk hg hl
  have hne' := handleInput_ne_zero hk' hg' hl'
  have hin : handleInput k g = handleInput k' g' := by
    rw [handleOf_eq, handleOf_eq] at h
    split at h <;> split at h
    · rename_i h1 h2
      exact Config.handleCipher.injective (h1.trans h2.symm)
    · exact absurd (Config.handleCipher.injective h).symm hne'
    · exact absurd (Config.handleCipher.injective h) hne
    · exact Config.handleCipher.injective h
  have := congrArg BitVec.toNat hin
  rw [handleInput_toNat hk hl, handleInput_toNat hk' hl'] at this
  omega

/-! ### What the Arbiter takes in an order of its own (R410) -/

/-- Taking many elements changes nothing but the count of free choices. -/
theorem pickMany_rest (s : State) (l : List Nat) (n : Nat) :
    (s.pickMany l n).2 = { s with frees := (s.pickMany l n).2.frees } := by
  induction n generalizing s l with
  | zero => rfl
  | succ n ih =>
    unfold State.pickMany
    split
    · rfl
    · exact ih (s.freePick l.length).2 _

/-- From a list without repetitions, which has enough of them, as many different ones are taken as are asked for. -/
theorem pickMany_spec {s : State} {l : List Nat} {n : Nat} (hl : l.Nodup) (hn : n ≤ l.length) :
    (s.pickMany l n).1.length = n ∧ (s.pickMany l n).1 ⊆ l ∧ (s.pickMany l n).1.Nodup := by
  induction n generalizing s l with
  | zero => exact ⟨rfl, List.nil_subset _, List.nodup_nil⟩
  | succ n ih =>
    have hne : l ≠ [] := by
      rintro rfl
      exact absurd hn (by simp)
    have hpos := List.length_pos_iff.2 hne
    have hi : Config.freeIndex s.frees % l.length < l.length := Nat.mod_lt _ hpos
    unfold State.pickMany
    rw [if_neg (by simpa using hne)]
    dsimp only [State.freePick]
    rw [List.getElem?_eq_getElem hi, Option.getD_some]
    have hx : l[Config.freeIndex s.frees % l.length] ∈ l := List.getElem_mem hi
    generalize l[Config.freeIndex s.frees % l.length] = x at hx
    have hfilter : l.filter (· != x) = l.erase x := (hl.erase_eq_filter x).symm
    have hlen : (l.filter (· != x)).length = l.length - 1 := by rw [hfilter, List.length_erase_of_mem hx]
    obtain ⟨h1, h2, h3⟩ := ih (s := { s with frees := s.frees + 1 }) (hl.filter _) (by omega : n ≤ (l.filter (· != x)).length)
    refine ⟨by simp [h1], ?_, List.nodup_cons.2 ⟨fun h => ?_, h3⟩⟩
    · exact List.cons_subset.2 ⟨hx, fun y hy => (List.mem_filter.1 (h2 hy)).1⟩
    · simpa using (List.mem_filter.1 (h2 h)).2

theorem freePairs_nodup (s : State) : s.freePairs.Nodup := by
  unfold State.freePairs
  refine List.Nodup.filter _ (List.Nodup.map ?_ List.nodup_range)
  intro a b h
  simpa using h

theorem freeChannels_nodup (s : State) : s.freeChannels.Nodup := List.nodup_range.filter _

theorem present_of_freePairs {s : State} {r : Nat} (h : r ∈ s.freePairs) : s.present r = true ∧ s.present (r + 1) = true := by
  unfold State.freePairs at h
  simp only [List.mem_filter, Bool.and_eq_true] at h
  obtain ⟨-, ⟨⟨h1, h2⟩, -⟩, -⟩ := h
  exact ⟨h1, h2⟩

theorem lt_of_freeChannels {s : State} {c : Nat} (h : c ∈ s.freeChannels) : c < 32 :=
  List.mem_range.1 (List.mem_filter.1 h).1

theorem length_pairRegions (l : List Nat) : (pairRegions l).length = 2 * l.length := by
  unfold pairRegions
  induction l with
  | nil => rfl
  | cons r l ih =>
    rw [List.flatMap_cons, List.length_append, ih]
    simp
    omega

theorem present_of_pairRegions {s : State} {l : List Nat} (hl : l ⊆ s.freePairs) {r : Nat} (hr : r ∈ pairRegions l) :
    s.present r = true := by
  obtain ⟨x, hx, hr⟩ := List.mem_flatMap.1 hr
  obtain ⟨h1, h2⟩ := present_of_freePairs (hl hx)
  simp only [List.mem_cons, List.not_mem_nil, or_false] at hr
  obtain rfl | rfl := hr
  · exact h1
  · exact h2

/-! ### Where a new context's memory lies (R410) -/

theorem channelOf_channelFrame {c j : Nat} (hc : c < 32) (hj : j < 2 ^ 17) :
    channelOf (65536 * channelFrame c j) = some c := by
  have hg : gddrStart = 2 ^ 38 := rfl
  have hb : channelBytes = 2 ^ 33 := rfl
  have hf : 65536 * channelFrame c j = 2 ^ 38 + 2 ^ 33 * c + 65536 * j := by
    unfold channelFrame
    rw [hg, hb]
    omega
  have hst : storeOf (65536 * channelFrame c j) = some (.gddr c) := by
    rw [hf]
    unfold storeOf
    rw [if_neg, if_neg, if_neg, if_neg, if_pos, hg, hb]
    · congr 2
      omega
    · rw [hg, hb]
      show _ < 2 ^ 38 + 32 * 2 ^ 33
      omega
    · rw [hg]
      omega
    · show ¬_ < sliceStart + squareCount * sliceBytes
      have : sliceStart + squareCount * sliceBytes ≤ 2 ^ 38 := by decide
      omega
    · have : sliceStart ≤ 2 ^ 38 := by decide
      omega
    · have : squareCount * squareBytes ≤ 2 ^ 38 := by decide
      omega
  rw [channelOf, hst]

theorem anyOf_mem {l : List Nat} (hl : l ≠ []) (n : Nat) : anyOf l n ∈ l := by
  have hi : n % l.length < l.length := Nat.mod_lt _ (List.length_pos_iff.2 hl)
  rw [anyOf, List.getElem?_eq_getElem hi]
  exact List.getElem_mem hi

/-- The context is its device's: key, function and tables are; its root branch lives. -/
theorem created_spec (uid k : Nat) (v : Vd) : (Ctx.created uid k v).key = k ∧ (Ctx.created uid k v).vf = k ∧
    (Ctx.created uid k v).isLive 0 = true ∧
    (Ctx.created uid k v).ptRoot = 65536 * channelFrame (anyOf v.channels (Config.ctxField uid 8))
      (Config.ctxField uid 0 % 2 ^ 15) := by
  refine ⟨rfl, rfl, ?_, rfl⟩
  have hpos : 0 < (Ctx.created uid k v).nbr := Nat.two_pow_pos _
  simp [Ctx.isLive, hpos, Ctx.created, Ctx.branch, Tab.getD, Tab.find?]

/-- A context loaded on a region's free plane, where there is one. -/
def State.loadCtx (n : Nat) (s : State) (r : Nat) : State :=
  match s.openPlane r with
  | some p => s.setPlane (planeKey r p) { Plane.empty with ctx := some n }
  | none => s

/-- The context is resident where a plane holds it. -/
def State.settleCtx (n : Nat) (s : State) : State :=
  match s.ctx? n with
  | some c => if s.placed n then s.setCtx n { c with state := .resident } else s
  | none => s

theorem makeResident_eq (s : State) (n : Nat) (l : List Nat) :
    s.makeResident n l = (l.foldl (State.loadCtx n) s).settleCtx n := rfl

/-- A context is loaded on planes: planes change, and of the contexts its state alone. -/
theorem makeResident_spec (s : State) {n : Nat} {c : Ctx} (l : List Nat) (h : s.ctx? n = some c) :
    s.makeResident n l = { s with planes := (s.makeResident n l).planes, ctxs := (s.makeResident n l).ctxs } ∧
      ∃ y, (s.makeResident n l).ctx? n = some { c with state := y } := by
  have hload := SameButPlanes.foldl (f := State.loadCtx n)
    (fun s r => by unfold State.loadCtx; split <;> rfl) l s
  rw [makeResident_eq]
  generalize List.foldl _ s l = t at hload
  have hc : t.ctx? n = some c := by
    rw [State.ctx?, hload.fields.2.1]
    exact h
  unfold State.settleCtx
  rw [hc]
  dsimp only
  unfold SameButPlanes at hload
  split
  · refine ⟨?_, _, State.ctx_setCtx_self _ _ _⟩
    rw [hload]
    rfl
  · refine ⟨?_, c.state, hc⟩
    rw [hload]

/-- R356, R411: with room for a live branch and a free number the context comes into being at the place that the service code
gives it. -/
theorem createCtx_spec {s : State} {k : Nat} {v : Vd} (hclash : s.rangesClash v (Ctx.created s.nextId k v) = false)
    (hlive : s.liveBranches < 1048576) (hfree : ∃ n, n < 65536 ∧ s.ctx? n = none) :
    ∃ n u y, s.createCtx k v = some (n, u) ∧ s.ctx? n = none ∧
      u.ctx? n = some { Ctx.created s.nextId k v with state := y } ∧
      u = { s with planes := u.planes, ctxs := u.ctxs, frees := u.frees, nextId := u.nextId } := by
  obtain ⟨m, hm, hm0⟩ := hfree
  have hmem : m ∈ (List.range 65536).filter fun n => (s.ctx? n).isNone :=
    List.mem_filter.2 ⟨List.mem_range.2 hm, by simp [hm0]⟩
  have hnone (n : Nat) (h : n ∈ (List.range 65536).filter fun n => (s.ctx? n).isNone) : s.ctx? n = none := by
    simpa using (List.mem_filter.1 h).2
  unfold State.createCtx
  dsimp only [State.freePick]
  generalize (List.range 65536).filter (fun n => (s.ctx? n).isNone) = l at hmem hnone
  have hi : Config.freeIndex s.frees % l.length < l.length := Nat.mod_lt _ (List.length_pos_of_mem hmem)
  have hn := hnone _ (List.getElem_mem hi)
  rw [List.getElem?_eq_getElem hi]
  generalize l[Config.freeIndex s.frees % l.length] = n at hn
  have hno : ¬(({ s with frees := s.frees + 1, nextId := s.nextId + 1 } : State).rangesClash v (Ctx.created s.nextId k v) ||
      decide (1048576 ≤ ({ s with frees := s.frees + 1, nextId := s.nextId + 1 } : State).liveBranches)) = true := by
    rw [Bool.or_eq_true, not_or]
    exact ⟨by rw [Bool.not_eq_true]; exact hclash, by rw [decide_eq_true_iff, not_le]; exact hlive⟩
  obtain ⟨hrest, y, hy⟩ := makeResident_spec (({ s with frees := s.frees + 1, nextId := s.nextId + 1 } : State).setCtx n
    (Ctx.created s.nextId k v)) v.regions (State.ctx_setCtx_self _ _ _)
  refine ⟨n, _, y, if_neg hno, hn, hy, ?_⟩
  rw [hrest]
  rfl

/-- R411: a running device with a context to come gets it. -/
theorem exec_contextCreation {s : State} {vd : Nat} {v : Vd} (h : Tab.find? s.vds vd = some v) (hrun : v.state = .running)
    (hroom : v.ctxs.length < v.nctx) {n : Nat} {u : State} (hc : s.createCtx vd v = some (n, u)) :
    exec (.contextCreation vd) s = .next (u.setVd vd { v with ctxs := v.ctxs ++ [n] }) := by
  show execContextCreation vd s = _
  have hno : ¬(v.state != .running || decide (v.nctx ≤ v.ctxs.length)) = true := by
    rw [hrun]
    simpa using hroom
  unfold execContextCreation
  simp only [h, if_neg hno, hc]

theorem exec_contextCreation_full {s : State} {vd : Nat} {v : Vd} (h : Tab.find? s.vds vd = some v)
    (hfull : v.nctx ≤ v.ctxs.length) : exec (.contextCreation vd) s = .next s := by
  show execContextCreation vd s = _
  unfold execContextCreation
  simp only [h]
  exact if_pos (by simp [hfull])

/-! ### CREATE_VD (R418, R419) -/

/-- A byte of a number that lies lowest byte first (R3). -/
theorem leNat_byte (l : List Byte) (i : Nat) : leNat l / 2 ^ (8 * i) % 2 ^ 8 = ((l[i]?).getD 0).toNat := by
  induction l generalizing i with
  | nil => simp [leNat]
  | cons b l ih =>
    have hb := b.isLt
    cases i with
    | zero =>
      simp only [leNat, List.getElem?_cons_zero, Option.getD_some]
      omega
    | succ i =>
      rw [List.getElem?_cons_succ, ← ih i, show 8 * (i + 1) = 8 + 8 * i by omega, Nat.pow_add, ← Nat.div_div_eq_div_mul]
      congr 2
      show (b.toNat + 256 * leNat l) / 256 = _
      omega

/-- A byte of eight in a list, read as a number. -/
theorem bits_numAt (bs : List Byte) (off : Nat) {i : Nat} (hi : i < 8) :
    (bits (BitVec.ofNat 64 (numAt bs off 8)) (8 * i) 8).toNat = ((bs[off + i]?).getD 0).toNat := by
  have hlt : numAt bs off 8 < 2 ^ 64 := by
    refine lt_of_lt_of_le (leNat_lt _) ?_
    rw [show (2 : Nat) ^ 64 = 256 ^ 8 by norm_num]
    exact Nat.pow_le_pow_right (by decide) (by simp)
  rw [toNat_bits_ofNat, Nat.mod_eq_of_lt hlt, numAt, leNat_byte, List.getElem?_take_of_lt hi, List.getElem?_drop]

/-- CREATE_VD's buffer has a policy's length and lies in host memory (R418). -/
def Packet.holdsPolicy (p : Packet) : Prop := p.buflen = 10131 ∧ p.buf ≠ 0 ∧ p.buf + 10131 ≤ 2 ^ 64

theorem holdsPolicy_iff {p : Packet} : (p.buflen != 10131 || !p.readable 10131) = true ↔ ¬p.holdsPolicy := by
  rw [← not_iff_not, not_not]
  simp [Packet.readable, Packet.holdsPolicy]

/-- The number is free and the counts lie within the policy's limits (R418). -/
def inPolicy (s : State) (bs : List Byte) (k nr nc : Nat) : Prop :=
  k ≤ 255 ∧ Tab.find? s.vds k = none ∧ ((bs[24]?).getD 0).toNat ≤ nr ∧ nr ≤ ((bs[25]?).getD 0).toNat ∧ nr % 2 = 0 ∧
    1 ≤ nc ∧ nc ≤ ((bs[26]?).getD 0).toNat

theorem inPolicy_iff {s : State} {bs : List Byte} {k nr nc : Nat} :
    (decide (255 < k) || (Tab.find? s.vds k).isSome ||
      decide (nr < (bits (BitVec.ofNat 64 (numAt bs 24 8)) 0 8).toNat) ||
      decide ((bits (BitVec.ofNat 64 (numAt bs 24 8)) 8 8).toNat < nr) || decide (nr % 2 = 1) || decide (nc = 0) ||
      decide ((bits (BitVec.ofNat 64 (numAt bs 24 8)) 16 8).toNat < nc)) = true ↔ ¬inPolicy s bs k nr nc := by
  rw [bits_numAt bs 24 (i := 0) (by decide), bits_numAt bs 24 (i := 1) (by decide), bits_numAt bs 24 (i := 2) (by decide),
    ← not_iff_not, not_not]
  simp only [Bool.or_eq_true, decide_eq_true_iff, not_or, Option.isSome_iff_ne_none, not_not, not_lt, inPolicy, Nat.add_zero]
  have h2 : ¬nr % 2 = 1 ↔ nr % 2 = 0 := by omega
  have h3 : ¬nc = 0 ↔ 1 ≤ nc := by omega
  rw [h2, h3]
  tauto

/-- The module with a device's regions and channels taken for it. -/
def State.pickedVd (s : State) (p : Packet) : State :=
  let t := (s.pickMany s.freePairs (p.arg1.toNat / 2)).2
  (t.pickMany t.freeChannels p.arg2.toNat).2

/-- The device that a policy describes, with the resources that are taken for it. -/
def State.policyVd (s : State) (p : Packet) : Vd :=
  let t := (s.pickMany s.freePairs (p.arg1.toNat / 2)).2
  vdOfPolicy (s.hostBytes p.buf 10131) p.arg0.toNat (handleOf p.arg0.toNat ((s.pickedVd p).vdGen + 1))
    (pairRegions (s.pickMany s.freePairs (p.arg1.toNat / 2)).1) (t.pickMany t.freeChannels p.arg2.toNat).1

/-- The module before the device's first context: its SRAM is zero. -/
def State.granted (s : State) (p : Packet) : State :=
  let t := s.pickedVd p
  ({ t with vdGen := t.vdGen + 1, disps := Tab.drop t.disps p.arg0.toNat } : State).zeroSram (s.policyVd p).regions

/-- The device with its first context and its queue. -/
def State.withVd (u : State) (k n : Nat) (v : Vd) : State :=
  (u.setVd k { v with firstCtx := n, ctxs := [n] }).setQueue k
    { enabled := true, plo := v.plo, phi := v.phi, descs := [], late := [] }

section
variable {s : State} {p : Packet} (hp : s.packet = some p) (hcmd : p.cmd = 1) (hz : p.unusedZero = true)
include hp hcmd hz

theorem createVd_badcmd (h : ¬p.holdsPolicy) : Ends .createVd s s p 1 0 :=
  .of_answer hp hcmd (by decide) hz rfl rfl (if_pos (holdsPolicy_iff.2 h))

theorem createVd_sig (h : p.holdsPolicy)
    (hs : ¬Config.mldsaVerify (((s.hostBytes p.buf 10131).drop 1336).take 2592)
      (Config.sha3 ((s.hostBytes p.buf 10131).take 5504)) ((s.hostBytes p.buf 10131).drop 5504) = true) :
    Ends .createVd s s p 4 0 :=
  .of_answer hp hcmd (by decide) hz rfl rfl
    ((if_neg (mt holdsPolicy_iff.1 (not_not.2 h))).trans (if_pos (by rw [Bool.not_eq_true']; simpa using hs)))

variable (h : p.holdsPolicy)
  (hs : Config.mldsaVerify (((s.hostBytes p.buf 10131).drop 1336).take 2592)
    (Config.sha3 ((s.hostBytes p.buf 10131).take 5504)) ((s.hostBytes p.buf 10131).drop 5504) = true)
include h hs

theorem createVd_denied (hd : policyOk (s.hostBytes p.buf 10131) = false ∨
    ¬inPolicy s (s.hostBytes p.buf 10131) p.arg0.toNat p.arg1.toNat p.arg2.toNat) : Ends .createVd s s p 3 0 := by
  refine .of_answer hp hcmd (by decide) hz rfl rfl
    ((if_neg (mt holdsPolicy_iff.1 (not_not.2 h))).trans ((if_neg (by rw [hs]; decide)).trans ?_))
  cases hok : policyOk (s.hostBytes p.buf 10131) with
  | false => exact if_pos rfl
  | true =>
    exact (if_neg (by decide)).trans (if_pos (inPolicy_iff.2 (hd.resolve_left (by rw [hok]; decide))))

variable (hok : policyOk (s.hostBytes p.buf 10131) = true)
  (hin : inPolicy s (s.hostBytes p.buf 10131) p.arg0.toNat p.arg1.toNat p.arg2.toNat)
include hok hin

theorem createVd_nores (hn : 2 * s.freePairs.length < p.arg1.toNat ∨ s.freeChannels.length < p.arg2.toNat) :
    Ends .createVd s s p 6 0 := by
  refine .of_answer hp hcmd (by decide) hz rfl rfl
    ((if_neg (mt holdsPolicy_iff.1 (not_not.2 h))).trans ((if_neg (by rw [hs]; decide)).trans
      ((if_neg (by rw [hok]; decide)).trans ((if_neg (mt inPolicy_iff.1 (not_not.2 hin))).trans (if_pos ?_)))))
  simp only [Bool.or_eq_true, decide_eq_true_iff]
  exact .inl hn

theorem createVd_ends (hr : p.arg1.toNat ≤ 2 * s.freePairs.length) (hc : p.arg2.toNat ≤ s.freeChannels.length)
    (hg : s.vdGen < 2 ^ 32 - 1) {n : Nat} {u : State}
    (hctx : (s.granted p).createCtx p.arg0.toNat (s.policyVd p) = some (n, u)) (hh : u.host = s.host) :
    Ends .createVd s (u.withVd p.arg0.toNat n (s.policyVd p)) p 0 (s.policyVd p).handle := by
  refine .of_answer hp hcmd (by decide) hz rfl hh
    ((if_neg (mt holdsPolicy_iff.1 (not_not.2 h))).trans ((if_neg (by rw [hs]; decide)).trans
      ((if_neg (by rw [hok]; decide)).trans ((if_neg (mt inPolicy_iff.1 (not_not.2 hin))).trans ((if_neg ?_).trans ?_)))))
  · simp only [Bool.or_eq_true, decide_eq_true_iff]
    omega
  · unfold State.granted State.policyVd State.pickedVd at hctx
    unfold State.policyVd State.pickedVd
    generalize s.pickMany s.freePairs (p.arg1.toNat / 2) = x at hctx ⊢
    obtain ⟨pairs, t⟩ := x
    dsimp only at hctx ⊢
    generalize t.pickMany t.freeChannels p.arg2.toNat = x at hctx ⊢
    obtain ⟨channels, t⟩ := x
    dsimp only at hctx ⊢
    rw [hctx]
    rfl

end

theorem pickedVd_rest (s : State) (p : Packet) : s.pickedVd p = { s with frees := (s.pickedVd p).frees } := by
  unfold State.pickedVd
  dsimp only
  rw [pickMany_rest, pickMany_rest]

/-- The device has what it asks for: regions that are present, and channels. -/
theorem policyVd_spec {s : State} {p : Packet} (hr : p.arg1.toNat ≤ 2 * s.freePairs.length) (heven : p.arg1.toNat % 2 = 0)
    (hc : p.arg2.toNat ≤ s.freeChannels.length) : (s.policyVd p).regions.length = p.arg1.toNat ∧
      (s.policyVd p).channels.length = p.arg2.toNat ∧ (∀ r ∈ (s.policyVd p).regions, s.present r = true) ∧
      (∀ c ∈ (s.policyVd p).channels, c < 32) ∧
      (s.policyVd p).handle = handleOf p.arg0.toNat (s.vdGen + 1) := by
  have hfree : (s.pickMany s.freePairs (p.arg1.toNat / 2)).2.freeChannels = s.freeChannels := by rw [pickMany_rest]; rfl
  obtain ⟨h1, h2, -⟩ := pickMany_spec (s := s) (freePairs_nodup s) (by omega : p.arg1.toNat / 2 ≤ s.freePairs.length)
  obtain ⟨h3, h4, -⟩ := pickMany_spec (s := (s.pickMany s.freePairs (p.arg1.toNat / 2)).2) (freeChannels_nodup s) hc
  rw [← hfree] at h3 h4
  refine ⟨?_, h3, fun r hr => present_of_pairRegions h2 hr, fun c hc => lt_of_freeChannels (h4 hc), ?_⟩
  · show (pairRegions _).length = _
    rw [length_pairRegions, h1]
    omega
  · show handleOf _ ((s.pickedVd p).vdGen + 1) = _
    rw [pickedVd_rest]

theorem granted_spec (s : State) (p : Packet) : (s.granted p).host = s.host ∧ (s.granted p).vdGen = s.vdGen + 1 ∧
    (s.granted p).ctxs = s.ctxs ∧ (s.granted p).vds = s.vds ∧
    SramZero (s.granted p) (s.policyVd p).regions := by
  unfold State.granted
  refine ⟨(zeroSram_rest _ _).host.trans ?_, ?_, ?_, ?_, zeroSram_spec _ _⟩
  · show (s.pickedVd p).host = _
    rw [pickedVd_rest]
  · rw [zeroSram_rest _ _]
    show (s.pickedVd p).vdGen + 1 = _
    rw [pickedVd_rest]
  · rw [zeroSram_rest _ _]
    show (s.pickedVd p).ctxs = _
    rw [pickedVd_rest]
  · rw [zeroSram_rest _ _]
    show (s.pickedVd p).vds = _
    rw [pickedVd_rest]

/-- R419: the new device, its context and its queue. -/
theorem createVd_made {s : State} {p : Packet} (hp : s.packet = some p) (hcmd : p.cmd = 1) (hz : p.unusedZero = true)
    (h : p.holdsPolicy)
    (hs : Config.mldsaVerify (((s.hostBytes p.buf 10131).drop 1336).take 2592)
      (Config.sha3 ((s.hostBytes p.buf 10131).take 5504)) ((s.hostBytes p.buf 10131).drop 5504) = true)
    (hok : policyOk (s.hostBytes p.buf 10131) = true)
    (hin : inPolicy s (s.hostBytes p.buf 10131) p.arg0.toNat p.arg1.toNat p.arg2.toNat)
    (hr : p.arg1.toNat ≤ 2 * s.freePairs.length) (hc : p.arg2.toNat ≤ s.freeChannels.length)
    (hg : s.vdGen < 2 ^ 32 - 1) (hlive : s.liveBranches < 1048576) (hfree : ∃ n, n < 65536 ∧ s.ctx? n = none) :
    ∃ (n : Nat) (u : State) (y : CtxState), Ends .createVd s (u.withVd p.arg0.toNat n (s.policyVd p)) p 0 (s.policyVd p).handle ∧ s.ctx? n = none ∧
      u.ctx? n = some { Ctx.created (s.granted p).nextId p.arg0.toNat (s.policyVd p) with state := y } ∧
      u.mem = (s.granted p).mem ∧ u.vdGen = s.vdGen + 1 := by
  obtain ⟨hhost, hgen, hctxs, -, -⟩ := granted_spec s p
  have hno : (s.granted p).rangesClash (s.policyVd p)
      (Ctx.created (s.granted p).nextId p.arg0.toNat (s.policyVd p)) = false := rfl
  have hctx (n : Nat) : (s.granted p).ctx? n = s.ctx? n := by rw [State.ctx?, hctxs]; rfl
  have hlive' : (s.granted p).liveBranches < 1048576 := by rw [State.liveBranches, hctxs]; exact hlive
  obtain ⟨n, u, y, hmk, hn, hun, hu⟩ := createCtx_spec hno hlive' (by simpa only [hctx] using hfree)
  refine ⟨n, u, y, createVd_ends hp hcmd hz h hs hok hin hr hc hg hmk ?_, (hctx n).symm.trans hn, hun, ?_, ?_⟩
  · rw [hu]; exact hhost
  · rw [hu]
  · rw [hu]; exact hgen

theorem withVd_spec (u : State) (k n : Nat) (v : Vd) :
    Tab.find? (u.withVd k n v).vds k = some { v with firstCtx := n, ctxs := [n] } ∧
      (u.withVd k n v).queue k = { enabled := true, plo := v.plo, phi := v.phi, descs := [], late := [] } ∧
      (u.withVd k n v).mem = u.mem ∧ (u.withVd k n v).vdGen = u.vdGen ∧ (u.withVd k n v).ctxs = u.ctxs :=
  ⟨Tab.find?_put_self _ _ _, Tab.getD_put_self _ _ _ _, rfl, rfl, rfl⟩

/-- What a policy says of its device before the device has anything. -/
theorem policyVd_fields (s : State) (p : Packet) : (s.policyVd p).state = .running ∧
    (s.policyVd p).policy = s.hostBytes p.buf 10131 ∧ ∀ i, i < 8 → vget (s.policyVd p).cnt i 0 = 0 := by
  unfold State.policyVd vdOfPolicy
  refine ⟨rfl, rfl, fun i hi => ?_⟩
  unfold vget
  simp [hi]

/-- The root of the first context's tables lies on one of the device's channels. -/
theorem policyVd_root {s : State} {p : Packet} (hr : p.arg1.toNat ≤ 2 * s.freePairs.length) (heven : p.arg1.toNat % 2 = 0)
    (hc : p.arg2.toNat ≤ s.freeChannels.length) (hpos : 1 ≤ p.arg2.toNat) (uid : Nat) :
    ∃ ch ∈ (s.policyVd p).channels, channelOf (Ctx.created uid p.arg0.toNat (s.policyVd p)).ptRoot = some ch := by
  obtain ⟨-, h2, -, h4, -⟩ := policyVd_spec hr heven hc
  have hne : (s.policyVd p).channels ≠ [] := by
    intro h0
    rw [h0, List.length_nil] at h2
    omega
  obtain ⟨-, -, -, hroot⟩ := created_spec uid p.arg0.toNat (s.policyVd p)
  refine ⟨anyOf (s.policyVd p).channels (Config.ctxField uid 8), anyOf_mem hne _, ?_⟩
  rw [hroot]
  exact channelOf_channelFrame (h4 _ (anyOf_mem hne _)) ((Nat.mod_lt _ (Nat.two_pow_pos _)).trans (by decide))

/-- Settles O54. -/
theorem vdCreation : Obligations.VdCreation := by
  unfold Obligations.VdCreation
  refine ⟨fun s p hp hcmd hz => ⟨createVd_badcmd hp hcmd hz, createVd_sig hp hcmd hz, fun h hs hd =>
    createVd_denied hp hcmd hz h hs hd, fun h hs hok hin => ⟨createVd_nores hp hcmd hz h hs hok hin,
      fun hr hc hg hlive hfree => ?_⟩⟩, fun s vd v hv => ⟨fun hrun hroom hclash hlive hfree => ?_,
        exec_contextCreation_full hv⟩, fun k g k' g' hk hk' hg hg' hl hl' =>
          ⟨handleOf_ne_zero hk hg hl, handleOf_injective hk hk' hg hg' hl hl'⟩⟩
  · obtain ⟨n, u, y, hends, hn, hun, hmem, hgen⟩ := createVd_made hp hcmd hz h hs hok hin hr hc hg hlive hfree
    obtain ⟨-, -, -, -, heven, hpos, -⟩ := hin
    obtain ⟨hregions, hchannels, hpresent, -, hhandle⟩ := policyVd_spec hr heven hc
    obtain ⟨hstate, hpolicy, hcnt⟩ := policyVd_fields s p
    have hroot := policyVd_root hr heven hc hpos (s.granted p).nextId
    obtain ⟨-, -, -, -, hsram⟩ := granted_spec s p
    obtain ⟨hvd, hqueue, hm, hg', hctxs⟩ := withVd_spec u p.arg0.toNat n (s.policyVd p)
    obtain ⟨hkey, hvf, hroot0, -⟩ := created_spec (s.granted p).nextId p.arg0.toNat (s.policyVd p)
    have hzero : SramZero (u.withVd p.arg0.toNat n (s.policyVd p)) (s.policyVd p).regions := by
      intro key hin
      rw [hm, hmem]
      exact hsram key hin
    generalize u.withVd p.arg0.toNat n (s.policyVd p) = w at hends hvd hqueue hg' hctxs hzero
    have hctx : w.ctx? n = u.ctx? n := by rw [State.ctx?, hctxs]; rfl
    rw [hun] at hctx
    generalize Ctx.created (s.granted p).nextId p.arg0.toNat (s.policyVd p) = c at hctx hkey hvf hroot0 hroot
    generalize s.policyVd p = v at *
    exact ⟨w, { v with firstCtx := n, ctxs := [n] }, n, { c with state := y }, hends, hvd, hstate, hpolicy, hregions, hchannels,
      hpresent, hhandle, hg'.trans hgen, rfl, rfl, hn, hctx, hkey, hvf, hroot0, hroot, by rw [hqueue], by rw [hqueue],
      by rw [hqueue], hcnt, hzero⟩
  · obtain ⟨n, u, y, hmk, hn, hun, hu⟩ := createCtx_spec hclash hlive hfree
    obtain ⟨c1, c2, c3, -⟩ := created_spec s.nextId vd v
    refine ⟨_, n, _, exec_contextCreation hv hrun hroom hmk, Tab.find?_put_self _ _ _, hn, hun, c1, c2, c3, ?_⟩
    show u.mem = s.mem
    rw [hu]

end Sys2Proof.Machine
end

