-- ==== Sys2Proof/Proofs/WindowsMapped.lean ====
section
/-!
PROOFS. O57: MAP_WINDOW.
-/

namespace Sys2Proof.Machine

/-! ### Tables grow on a device's own frames -/

/-- The device stands with the windows, the state and the resources that it had, and so do the host's registers. -/
def StandsFor (k : Nat) (v : Vd) (h : HostRegs) (s : State) : Prop :=
  s.host = h ∧ ∃ w, Tab.find? s.vds k = some w ∧ w.wins = v.wins ∧ w.state = v.state ∧ w.regions = v.regions ∧
    w.channels = v.channels

section
variable {k : Nat} {v : Vd} {h : HostRegs} {s : State}

theorem StandsFor.arbiterWrite (hs : StandsFor k v h s) (key : Nat) (bs : List Byte) :
    StandsFor k v h (s.arbiterWrite key bs) := hs

theorem StandsFor.forget (hs : StandsFor k v h s) (n page : Nat) : StandsFor k v h (s.forget n page) := hs

theorem StandsFor.takeNew (hs : StandsFor k v h s) {n f : Nat} {t : State} (ht : s.takeNew k n = some (f, t)) :
    StandsFor k v h t := by
  obtain ⟨hh, w, hw, h1, h2, h3, h4⟩ := hs
  unfold State.takeNew at ht
  rw [hw] at ht
  dsimp only at ht
  split at ht
  · cases ht
  · cases ht
    exact ⟨hh, _, Tab.find?_put_self _ _ _, h1, h2, h3, h4⟩

theorem StandsFor.nextTable (hs : StandsFor k v h s) {table i x : Nat} {t : State}
    (ht : s.nextTable k table i = some (x, t)) : StandsFor k v h t := by
  unfold State.nextTable at ht
  split at ht
  · cases ht
    exact hs
  · obtain ⟨⟨f, u⟩, hu, he⟩ := Option.map_eq_some_iff.1 ht
    cases he
    exact ((hs.takeNew hu).arbiterWrite _ _).arbiterWrite _ _

theorem StandsFor.mapPage (hs : StandsFor k v h s) {n va : Nat} {c : Ctx} {l : Word} {t : State}
    (ht : s.mapPage k n c va l = some t) : StandsFor k v h t := by
  unfold State.mapPage at ht
  obtain ⟨⟨t1, u1⟩, h1, ht⟩ := Option.bind_eq_some_iff.1 ht
  obtain ⟨⟨t2, u2⟩, h2, ht⟩ := Option.bind_eq_some_iff.1 ht
  obtain ⟨⟨t3, u3⟩, h3, he⟩ := Option.map_eq_some_iff.1 ht
  cases he
  exact ((((hs.nextTable h1).nextTable h2).nextTable h3).arbiterWrite _ _).forget _ _

theorem StandsFor.mapRange (hs : StandsFor k v h s) {n base : Nat} {c : Ctx} {x : PolWin} {kind : BitVec 3} {perm : BitVec 4}
    {t : State} (ht : s.mapRange k n c x kind base perm = some t) : StandsFor k v h t := by
  unfold State.mapRange at ht
  refine foldl_ok (P := fun o : Option State => ∀ t, o = some t → StandsFor k v h t) (fun {o i} ho t ht => ?_)
    (fun t ht => ?_) t ht
  · obtain ⟨u, hu, ht⟩ := Option.bind_eq_some_iff.1 ht
    exact (ho u hu).mapPage ht
  · cases ht
    exact hs

end

/-! ### A window is mapped (R423) -/

/-- Marking a window changes the device's list of windows alone. -/
theorem mapped_spec {w : Vd} {i : Nat} {x : PolWin} (h : w.wins[i]? = some x) (start : Nat) :
    w.mapped i start = { w with wins := putAt w.wins i { x with mapped := true, start } } := by
  rw [Vd.mapped, h]

theorem getElem?_putAt {β : Type} {l : List β} {i : Nat} {x : β} (h : l[i]? = some x) (y : β) :
    (putAt l i y)[i]? = some y := by
  obtain ⟨hi, -⟩ := List.getElem?_eq_some_iff.1 h
  exact List.getElem?_set_self hi

/-- Where the tables are written, a window that is marked is the device's, which has else what it had. -/
theorem StandsFor.mapVd {k i : Nat} {v : Vd} {h : HostRegs} {t : State} {x : PolWin} (ht : StandsFor k v h t)
    (hx : v.wins[i]? = some x) (start : Nat) (more : Vd → List Nat) :
    ∃ w y, Tab.find? (t.mapVd k fun v => { v.mapped i start with codeFrames := more v }).vds k = some w ∧
      w.wins[i]? = some y ∧ y.mapped = true ∧ y.start = start ∧ w.state = v.state ∧ w.regions = v.regions ∧
      w.channels = v.channels ∧ (t.mapVd k fun v => { v.mapped i start with codeFrames := more v }).host = h := by
  obtain ⟨hh, w, hw, h1, h2, h3, h4⟩ := ht
  have hx' : w.wins[i]? = some x := by rw [h1]; exact hx
  refine ⟨{ w.mapped i start with codeFrames := more w }, { x with mapped := true, start }, ?_, ?_, rfl, rfl, ?_, ?_, ?_, ?_⟩
  · unfold State.mapVd
    rw [hw]
    exact Tab.find?_put_self _ _ _
  · rw [mapped_spec hx']
    exact getElem?_putAt hx' _
  · rw [mapped_spec hx']
    exact h2
  · rw [mapped_spec hx']
    exact h3
  · rw [mapped_spec hx']
    exact h4
  · unfold State.mapVd
    rw [hw]
    exact hh

/-- What MAP_WINDOW answers once the window's operands are in order: by kind HOST, DEV and CODE. -/
def State.mapAnswer (s : State) (p : Packet) (k i : Nat) (v : Vd) (c : Ctx) (x : PolWin) : Res :=
  let base := p.arg1.toNat
  let perm : BitVec 4 := (0 : BitVec 1) ++ bit1 x.w ++ bit1 x.r ++ (1 : BitVec 1)
  let onto (kind : BitVec 3) (start : Nat) (result : Word) : Res :=
    match s.mapRange k v.firstCtx c x kind start perm with
    | none => s.complete p Status.nores 0
    | some t => (t.mapVd k fun v => v.mapped i base).complete p Status.ok result
  if x.kind = 0 then
    if base % 65536 != 0 || 2 ^ 48 < base + x.size then s.complete p Status.denied 0 else onto 4 base 0
  else if x.kind = 1 then
    if base % 65536 != 0 || !s.devFree v base x.size || 2 ^ 36 < base + x.size || !v.ownsRange base x.size then
      s.complete p Status.denied 0
    else onto 3 (hdmBase + base) (BitVec.ofNat 64 (hdmBase + base))
  else if v.nhash = 0 then s.complete p Status.denied 0
  else mapCode s p k v.firstCtx i v c x

section
variable {s : State} {p : Packet} {k : Nat} {v : Vd} {c : Ctx} (h : Commands s p 8 k v) (hc : s.ctx? v.firstCtx = some c)
include h

theorem mapWindow_none (hx : v.wins[p.arg0.toNat]? = none) : Ends .mapWindow s s p 3 0 := by
  refine h.ends (by decide) rfl ?_ rfl
  simp only [hx]
  rfl

variable {x : PolWin} (hx : v.wins[p.arg0.toNat]? = some x)
include hc hx

theorem mapWindow_twice (hm : x.mapped = true) : Ends .mapWindow s s p 5 0 := by
  refine h.ends (by decide) rfl ?_ rfl
  simp only [hx, hc]
  exact if_pos hm

theorem mapWindow_badcmd (hm : x.mapped = false) (hb : x.kind ≠ 2 ∧ p.arg2 ≠ 0 ∨ bits p.arg2 32 31 ≠ 0) :
    Ends .mapWindow s s p 1 0 := by
  refine h.ends (by decide) rfl ?_ rfl
  simp only [hx, hc]
  exact (if_neg (by rw [hm]; decide)).trans (if_pos (by simpa using hb))

theorem mapWindow_answer (hm : x.mapped = false) (hb : ¬(x.kind ≠ 2 ∧ p.arg2 ≠ 0 ∨ bits p.arg2 32 31 ≠ 0)) {u : State}
    {status : Nat} {result : Word} (ha : s.mapAnswer p k p.arg0.toNat v c x = u.complete p status result)
    (hu : u.host = s.host) : Ends .mapWindow s u p status result := by
  refine h.ends (by decide) rfl ?_ hu
  simp only [hx, hc]
  exact (if_neg (by rw [hm]; decide)).trans ((if_neg (by simpa using hb)).trans ha)

/-- The tables of a HOST or DEV window are written and the window marked. -/
theorem mapWindow_onto (hm : x.mapped = false) (hb : ¬(x.kind ≠ 2 ∧ p.arg2 ≠ 0 ∨ bits p.arg2 32 31 ≠ 0))
    (hv : Tab.find? s.vds k = some v) {kind : BitVec 3} {start : Nat} {perm : BitVec 4} {result : Word}
    (ha : s.mapAnswer p k p.arg0.toNat v c x = match s.mapRange k v.firstCtx c x kind start perm with
      | none => s.complete p Status.nores 0
      | some t => (t.mapVd k fun v => v.mapped p.arg0.toNat p.arg1.toNat).complete p Status.ok result) :
    (s.mapRange k v.firstCtx c x kind start perm = none → Ends .mapWindow s s p 6 0) ∧
    ((s.mapRange k v.firstCtx c x kind start perm).isSome = true → ∃ u w y, Ends .mapWindow s u p 0 result ∧
      Tab.find? u.vds k = some w ∧ w.wins[p.arg0.toNat]? = some y ∧ y.mapped = true ∧ y.start = p.arg1.toNat ∧
      w.state = v.state ∧ w.regions = v.regions ∧ w.channels = v.channels) := by
  refine ⟨fun hn => mapWindow_answer h hc hx hm hb (by rw [ha, hn]; rfl) rfl, fun hs => ?_⟩
  obtain ⟨t, ht⟩ := Option.isSome_iff_exists.1 hs
  have stands : StandsFor k v s.host t := StandsFor.mapRange ⟨rfl, v, hv, rfl, rfl, rfl, rfl⟩ ht
  obtain ⟨w, y, hw, h1, h2, h3, h4, h5, h6, hh⟩ := stands.mapVd hx p.arg1.toNat
    fun v => (v.mapped p.arg0.toNat p.arg1.toNat).codeFrames
  exact ⟨_, w, y, mapWindow_answer h hc hx hm hb (ha.trans (by rw [ht]; rfl)) hh, hw, h1, h2, h3, h4, h5, h6⟩

end

/-- What the operands of a HOST or DEV window may not be. -/
theorem plain_operands {p : Packet} {x : PolWin} (h2 : p.arg2 = 0) :
    ¬(x.kind ≠ 2 ∧ p.arg2 ≠ 0 ∨ bits p.arg2 32 31 ≠ 0) := by
  rw [h2]
  simp [bits]

theorem devFree_iff {s : State} {v : Vd} {base size : Nat} : s.devFree v base size = true ↔
    ¬((∃ w ∈ s.devWindows, hdmBase + w.2.1 < hdmBase + base + size ∧ hdmBase + base < hdmBase + w.2.1 + w.2.2) ∨
      (∃ f ∈ v.frames, 65536 * f < hdmBase + base + size ∧ hdmBase + base < 65536 * f + 65536) ∨
      ∃ n ∈ v.ctxs, ∃ y, s.ctx? n = some y ∧ ∃ m ∈ s.ctxMemory y, m.1 < hdmBase + base + size ∧ hdmBase + base < m.1 + m.2) := by
  have hown : (∃ x ∈ (v.ctxs.flatMap fun n => match s.ctx? n with | some c => s.ctxMemory c | none => []) ++
        v.frames.map fun f => (65536 * f, 65536), x.1 < hdmBase + base + size ∧ hdmBase + base < x.1 + x.2) ↔
      (∃ f ∈ v.frames, 65536 * f < hdmBase + base + size ∧ hdmBase + base < 65536 * f + 65536) ∨
      ∃ n ∈ v.ctxs, ∃ y, s.ctx? n = some y ∧ ∃ m ∈ s.ctxMemory y, m.1 < hdmBase + base + size ∧ hdmBase + base < m.1 + m.2 := by
    constructor
    · rintro ⟨x, hx, hlt⟩
      obtain hx | hx := List.mem_append.1 hx
      · obtain ⟨n, hn, hx⟩ := List.mem_flatMap.1 hx
        cases hc : s.ctx? n with
        | none => rw [hc] at hx; cases hx
        | some y => rw [hc] at hx; exact .inr ⟨n, hn, y, hc, x, hx, hlt⟩
      · obtain ⟨f, hf, rfl⟩ := List.mem_map.1 hx
        exact .inl ⟨f, hf, hlt⟩
    · rintro (⟨f, hf, hlt⟩ | ⟨n, hn, y, hc, m, hm, hlt⟩)
      · exact ⟨_, List.mem_append.2 (.inr (List.mem_map.2 ⟨f, hf, rfl⟩)), hlt⟩
      · exact ⟨m, List.mem_append.2 (.inl (List.mem_flatMap.2 ⟨n, hn, by rw [hc]; exact hm⟩)), hlt⟩
  have hdev : (∃ w ∈ s.devWindows, w.2.1 < base + size ∧ base < w.2.1 + w.2.2) ↔
      ∃ w ∈ s.devWindows, hdmBase + w.2.1 < hdmBase + base + size ∧ hdmBase + base < hdmBase + w.2.1 + w.2.2 := by
    refine exists_congr fun w => and_congr_right fun _ => ?_
    omega
  unfold State.devFree
  rw [← hown, ← hdev, not_or, Bool.and_eq_true]
  simp only [Bool.not_eq_true', List.any_eq_false, Bool.and_eq_true, decide_eq_true_iff, not_exists, not_and] <;>
    exact Iff.rfl

section
variable {s : State} {p : Packet} {k : Nat} {v : Vd} {c : Ctx} {x : PolWin}

/-- The answer for a CODE window is what its image comes to (R423). -/
theorem mapAnswer_code (hk : x.kind = 2) (i : Nat) : s.mapAnswer p k i v c x =
    if v.nhash = 0 then s.complete p Status.denied 0 else mapCode s p k v.firstCtx i v c x :=
  (if_neg (by omega)).trans (if_neg (by omega))

/-- The image of a CODE window as its VD's key opens it. -/
def State.openedCode (s : State) (p : Packet) (v : Vd) (x : PolWin) : Option (List Byte) :=
  Config.gcmOpen v.imageKey ((s.hostBytes p.arg1.toNat (x.size + 28)).take 12) []
    (((s.hostBytes p.arg1.toNat (x.size + 28)).drop 12).take x.size)
    ((s.hostBytes p.arg1.toNat (x.size + 28)).drop (12 + x.size))

/-- The policy lists the code's digest. -/
def Vd.lists (v : Vd) (code : List Byte) : Prop :=
  ∃ j, j < v.nhash ∧ (v.policy.drop (312 + 64 * j)).take 64 = Config.sha3 code

theorem lists_iff {code : List Byte} :
    ((List.range v.nhash).any fun j => (v.policy.drop (312 + 64 * j)).take 64 == Config.sha3 code) = true ↔ v.lists code := by
  simp [Vd.lists]

theorem mapCode_auth (ho : s.openedCode p v x = none) (n i : Nat) :
    mapCode s p k n i v c x = s.complete p Status.auth 0 := by
  unfold mapCode
  dsimp only
  rw [← State.openedCode, ho]

variable {code : List Byte} (ho : s.openedCode p v x = some code)
include ho

theorem mapCode_denied (hl : ¬v.lists code) (n i : Nat) : mapCode s p k n i v c x = s.complete p Status.denied 0 := by
  unfold mapCode
  dsimp only
  rw [← State.openedCode, ho]
  exact if_pos (by rw [Bool.not_eq_true', Bool.eq_false_iff]; exact mt lists_iff.1 hl)

theorem mapCode_nores (hl : v.lists code) (ht : s.takeNew k (x.size / 65536) = none) (n i : Nat) :
    mapCode s p k n i v c x = s.complete p Status.nores 0 := by
  unfold mapCode
  dsimp only
  rw [← State.openedCode, ho]
  refine (if_neg (by rw [lists_iff.2 hl]; decide)).trans ?_
  rw [ht]
  rfl

theorem mapCode_ok (hl : v.lists code) {f n : Nat} {t u : State} (ht : s.takeNew k (x.size / 65536) = some (f, t))
    (hu : (t.arbiterWrite (f * 65536) code).mapRange k n c x 3 (f * 65536) 0b1011 = some u)
    (hs : bitAt p.arg2 63 = false) (i : Nat) :
    mapCode s p k n i v c x = (u.mapVd k fun v => { v.mapped i p.arg1.toNat with
      codeFrames := v.codeFrames ++ (List.range (x.size / 65536)).map (f + ·) }).complete p Status.ok 0 := by
  unfold mapCode
  dsimp only
  rw [← State.openedCode, ho]
  refine (if_neg (by rw [lists_iff.2 hl]; decide)).trans ?_
  rw [ht]
  dsimp only [Option.bind_some]
  rw [hu]
  exact if_pos (by rw [hs]; rfl)

end

/-- Settles O57: each clause is a branch of the answer, and writing the tables leaves the device as it is but for the frames
that it takes. -/
theorem windowsMapped : Obligations.WindowsMapped := by
  unfold Obligations.WindowsMapped
  intro s p k v c h hv hc
  refine ⟨mapWindow_none h, fun x hx => ⟨mapWindow_twice h hc hx, mapWindow_badcmd h hc hx, fun hm hk h2 => ?_,
    fun hm hk h2 => ?_, fun hm hk h2 => ?_⟩⟩
  · have hb := plain_operands (x := x) h2
    have ha : s.mapAnswer p k p.arg0.toNat v c x = _ := if_pos hk
    refine ⟨fun hd => mapWindow_answer h hc hx hm hb (ha.trans (if_pos ?_)) rfl, fun hbase hsize =>
      mapWindow_onto h hc hx hm hb hv (ha.trans (if_neg ?_))⟩
    · simpa using hd
    · simp only [Bool.or_eq_true, bne_iff_ne, decide_eq_true_iff]
      omega
  · have hb := plain_operands (x := x) h2
    have ha : s.mapAnswer p k p.arg0.toNat v c x = _ := (if_neg (by omega)).trans (if_pos hk)
    have denied (hd : p.arg1.toNat % 65536 ≠ 0 ∨ s.devFree v p.arg1.toNat x.size ≠ true ∨
        2 ^ 36 < p.arg1.toNat + x.size ∨ v.ownsRange p.arg1.toNat x.size = false) : Ends .mapWindow s s p 3 0 := by
      refine mapWindow_answer h hc hx hm hb (ha.trans (if_pos ?_)) rfl
      rw [Bool.or_eq_true, Bool.or_eq_true, Bool.or_eq_true, bne_iff_ne, decide_eq_true_iff, Bool.not_eq_true',
        Bool.not_eq_true', ← Bool.not_eq_true (s.devFree _ _ _)]
      tauto
    refine ⟨fun hd => denied ?_, fun hbase hfree hsize => ⟨fun ho => denied (.inr (.inr (.inr ho))), fun ho =>
      mapWindow_onto h hc hx hm hb hv (ha.trans (if_neg ?_))⟩⟩
    · obtain hd | hd | hd := hd
      · exact .inl hd
      · exact .inr (.inl fun hf => devFree_iff.1 hf hd)
      · exact .inr (.inr (.inl hd))
    · rw [devFree_iff.2 hfree, ho]
      simp only [Bool.or_eq_true, bne_iff_ne, decide_eq_true_iff, Bool.not_true, Bool.false_eq_true, or_false, not_or]
      omega
  · have hb : ¬(x.kind ≠ 2 ∧ p.arg2 ≠ 0 ∨ bits p.arg2 32 31 ≠ 0) := by tauto
    have ha := mapAnswer_code (s := s) (p := p) (k := k) (v := v) (c := c) hk p.arg0.toNat
    have listed {code : List Byte} (hl : v.lists code) : v.nhash ≠ 0 := by
      obtain ⟨j, hj, -⟩ := hl
      omega
    have answer (hn : v.nhash ≠ 0) {u : State} {status : Nat} {result : Word}
        (hm' : mapCode s p k v.firstCtx p.arg0.toNat v c x = u.complete p status result) (hu : u.host = s.host) :
        Ends .mapWindow s u p status result :=
      mapWindow_answer h hc hx hm hb (ha.trans ((if_neg hn).trans hm')) hu
    refine ⟨fun hn => mapWindow_answer h hc hx hm hb (ha.trans (if_pos hn)) rfl, fun hn ho => answer hn (mapCode_auth ho _ _) rfl,
      fun code hn ho hl => answer hn (mapCode_denied ho hl _ _) rfl,
      fun code ho hl ht => answer (listed hl) (mapCode_nores ho hl ht _ _) rfl, fun code f t ho hl hs ht hu => ?_⟩
    obtain ⟨u, hu⟩ := Option.isSome_iff_exists.1 hu
    have stands : StandsFor k v s.host u :=
      ((StandsFor.takeNew ⟨rfl, v, hv, rfl, rfl, rfl, rfl⟩ ht).arbiterWrite _ _).mapRange hu
    obtain ⟨w, y, hw, h1, h2, h3, h4, h5, h6, hh⟩ := stands.mapVd hx p.arg1.toNat
      fun v => v.codeFrames ++ (List.range (x.size / 65536)).map (f + ·)
    exact ⟨_, w, y, answer (listed hl) (mapCode_ok ho hl ht hu hs _) hh, hw, h1, h2, h3, h4, h5, h6⟩

end Sys2Proof.Machine
end

