-- ==== Sys2Proof/Proofs/NotImages.lean ====
section
/-!
PROOFS. O52 is refuted: with the last line of an image the agents of the context's jobs end, one of which may be named as a
host thread is.
-/

namespace Sys2Proof.Machine

/-! ### save (O52)

When `save` has written the last line, it ends the agents of the jobs of its context, and a write of such an agent that still
spreads goes to the agent that takes its place on the region. The statement says of every state that no other agent then reads
another byte. In a state whose scoreboard holds a job at entry 0x2000 of region 0, the job's agent has the key of host thread
0: the thread's write, which no agent of the module sees yet, becomes one of region 0, which is seen within the module. -/

/-- A stream job of context 0 on plane 0. -/
def strayJob : Job := Job.fresh (.sgo 0 false 0) [] 0 none .rgn 0 0 { rm := .rne, sfl := false, rfl := false }

/-- A write of host thread 0 to byte 0x100 that has reached the module, but not every agent. -/
def strayWrite : MWrite := { id := 0, org := 0x4000, cells := [(0x100, 7)], tag := none, level := 3, ord := .rc, plain := false }

/-- The image that is being written: it writes no sector, and so not its last line. -/
def strayImage : SavedImage :=
  { uid := 0, imgid := 0, baseid := 0, ctx := 0, key := 0, plane := 0, slot := 0, frozen := false, inc := true, seals := []
    region := 0, fpc := 0, ctxres := 0, pl := Plane.empty, agent := AgentSt.empty, sides := [], jobs := [], arrays := []
    seq := none }

/-- Region 0's sequencer at the last line of the image of plane 0, which is at rest. -/
def straySave : State :=
  { State.reset with
    seqs := [(0, { Seq.reset 0 with priv := true, run := .running }.setWait (.range 0 20863))]
    regions := [(0, { Region.empty with jobs := [(0x2000, strayJob)] })]
    planes := [(0, { Plane.empty with ctx := some 0, saver := some 0, atRest := true })]
    ctxs := [(0, Ctx.blank)], imaging := [(0, strayImage)]
    mem := { Memory.reset with recent := [strayWrite] }, actor := .sequencer 0 }

/-- A byte as another sequencer reads it after an instruction. -/
def byteAfter : Res → Byte
  | .next t => t.readByte (.seq 1) 0x100
  | _ => 0

theorem straySave_issues : IssuesPriv straySave 0 [0, 0, 0] := by
  refine ⟨⟨by decide, rfl, ?_, ?_⟩, ?_⟩ <;> decide

theorem straySave_rests : straySave.bringToRest 0 0 0 = (straySave, true) := by
  decide +kernel

theorem straySave_written : ((Tab.find? straySave.imaging 0).filter fun y =>
    y.uid = Ctx.blank.uid && y.imgid = (straySave.seq 0).rangeAt 0 / 20864) = some strayImage := by
  decide

/-- Sequencer 1's key is no job's. -/
theorem one_ne_jobAgent (e : Nat) : (1 : Nat) ≠ jobAgent 0 e := by
  have : jobAgent 0 e = 0x2000 + 16 * 0 + e := rfl
  omega

theorem straySave_before : straySave.readByte (.seq 1) 0x100 = 0 := by
  decide

theorem straySave_after : byteAfter (exec (.save 0 0 0 false) straySave) = 7 := by
  decide +kernel

/-- Refutes O52: with the last line of the image sequencer 1 reads another byte than before, though its agent is neither the
plane's nor that of the context's job. -/
theorem not_images : ¬ Obligations.Images := by
  unfold Obligations.Images
  intro h
  obtain ⟨-, hsave, -⟩ := h straySave 0 0 0 0 false straySave_issues
  obtain ⟨-, hlines⟩ := hsave 0 Ctx.blank rfl rfl (by decide)
  obtain ⟨-, -, hlast⟩ := hlines (by decide) straySave_rests
  obtain ⟨t, m, hexec, -, -, -, -, -, -, -, -, -, hreads⟩ :=
    hlast strayImage straySave_written rfl rfl rfl (by decide) (.inl (by decide))
  have hsame : t.readByte (.seq 1) 0x100 = straySave.readByte (.seq 1) 0x100 := by
    refine hreads (.seq 1) 0x100 (by decide : 1 < 132) ?_
    rintro (h | ⟨e, -, h⟩)
    · exact absurd h (by decide)
    · exact one_ne_jobAgent e h
  have hafter := straySave_after
  rw [hexec, byteAfter, hsame, straySave_before] at hafter
  exact absurd hafter (by decide)

end Sys2Proof.Machine
end

