-- ==== Sys2Proof/Proofs/Columns.lean ====
section
/-!
PROOFS. O43: columns of a butterfly array fire, chains complete, drains and limiter windows pass.
-/

namespace Sys2Proof.Machine

/-! ### Arrays of a region -/

theorem vput_vput {β : Type} {n : Nat} (v : Vector β n) (i : Nat) (x y : β) : vput (vput v i x) i y = vput v i y := by
  apply Vector.ext
  intro j hj
  simp only [vput, Vector.getElem_setIfInBounds]
  split <;> rfl

theorem State.setArr_setArr (s : State) (r a : Nat) (b c : BArray) : (s.setArr r a b).setArr r a c = s.setArr r a c := by
  unfold State.setArr
  rw [State.region_setRegion_self]
  simp only [State.setRegion, Tab.put_put, vput_vput]

/-- An array that is bound is one of the two. -/
theorem lt_two_of_bind {s : State} {r a : Nat} {k : BaBind} (h : (s.arr r a).bind = some k) : a < 2 := by
  by_contra hn
  have harr : s.arr r a = BArray.empty := by
    unfold State.arr vget
    rw [Vector.getElem?_eq_none (by omega)]
    rfl
  rw [harr] at h
  cases h

/-! ### A column's steps (R263, R264) -/

section
variable {s : State} {r a c e : Nat} {k : BaBind} {job : Job}

/-- The column of a chain that a turn is about. -/
def colAt (r a c e : Nat) (k : BaBind) (job : Job) : AtCol := { r, a, j := c - k.c0, k, e, job }

theorem colAt_col (h : k.c0 ≤ c) : (colAt r a c e k job).col = c := Nat.add_sub_cancel' h

/-- The array when a token has left the column's input. -/
def State.popCol (s : State) (r a c : Nat) (rest : List Token) : State :=
  s.setArr r a ((s.arr r a).setCol c { (s.arr r a).col c with inq := rest })

theorem columnFire_own (hb : (s.arr r a).bind = some k) (hs : (s.arr r a).stopped = false) (hlo : k.c0 ≤ c)
    (hhi : c < k.c0 + k.n) (hrest : (s.plane (planeKey r k.plane)).atRest = false) (hj : s.chainJob r k = some (e, job))
    (hst : job.started = true) {t : Token} {rest : List Token} (hq : ((s.arr r a).col c).inq = t :: rest) :
    s.columnFire r a c = s.columnStep (colAt r a c e k job) (some (t, s.popCol r a c rest)) := by
  have h1 : ¬c < k.c0 := by omega
  have h2 : ¬k.c0 + k.n ≤ c := by omega
  unfold State.columnFire
  simp only [hb, Option.bind_some, hs, h1, h2, hrest, hj, hst, hq, decide_false, Bool.or_self, Bool.false_eq_true, if_false,
    Bool.not_true]
  rfl

theorem columnFire_room (hlo : k.c0 ≤ c) (hhi : c < k.c0 + k.n) {b : BArray}
    (h : if c + 1 < k.c0 + k.n then (b.col (c + 1)).inq.length < 2
      else b.outq.length < 2 ∨ ∀ o ∈ b.outq, isPositional o.tok.marker = false) :
    (colAt r a c e k job).room b = true := by
  unfold AtCol.room
  rw [colAt_col hlo]
  have hiff : (colAt r a c e k job).j + 1 < (colAt r a c e k job).k.n ↔ c + 1 < k.c0 + k.n := by
    show c - k.c0 + 1 < k.n ↔ _
    omega
  by_cases hn : c + 1 < k.c0 + k.n
  · rw [if_pos hn] at h
    rw [if_pos (hiff.2 hn)]
    exact decide_eq_true h
  · rw [if_neg hn] at h
    rw [if_neg (mt hiff.1 hn)]
    simpa using h

/-- Where the column has room ahead and no marker waits, it does what its tokens let it. -/
theorem columnStep_go {x : AtCol} (hroom : x.room (s.arr x.r x.a) = true) (hm : ((s.arr x.r x.a).col x.col).marks = [])
    (head : Option (Token × State)) :
    s.columnStep x head = State.columnStep.go x head s (s.arr x.r x.a) ((s.arr x.r x.a).col x.col) := by
  unfold State.columnStep
  dsimp only
  rw [hroom, hm]
  exact if_neg (by decide)

/-- The column holds a data token at the next place. -/
def State.holdAt (s : State) (x : AtCol) (t : Token) : State :=
  let b := s.arr x.r x.a
  let c := b.col x.col
  s.setArr x.r x.a (b.touch x.col { c with recv := c.recv + 1, pairs := Tab.put c.pairs c.recv t })

/-- With nothing to emit, an element-unit stage takes the data token at its head. -/
theorem go_takes {x : AtCol} (hm : ((s.arr x.r x.a).col x.col).marks = [])
    (hsent : ((s.arr x.r x.a).col x.col).sent = ((s.arr x.r x.a).col x.col).recv) {t : Token} (ht : t.marker = Mk.data)
    {s' : State} (hunit : Stage.unit ((s'.arr x.r x.a).col x.col).word = false) :
    State.columnStep.go x (some (t, s')) s (s.arr x.r x.a) ((s.arr x.r x.a).col x.col) = some (s'.holdAt x t) := by
  have hno : s.tryEmit x = none := by
    unfold State.tryEmit
    dsimp only
    exact if_pos (by rw [hsent]; simp)
  have hlt : ¬((s.arr x.r x.a).col x.col).sent < ((s.arr x.r x.a).col x.col).recv := by omega
  unfold State.columnStep.go
  simp only [hno, hlt, hm, decide_false, Bool.false_and, Bool.false_eq_true, if_false, List.any_nil]
  unfold State.takeAt
  dsimp only
  rw [if_pos ht]
  unfold State.receive
  dsimp only
  exact if_pos (by rw [hunit]; rfl)

/-- An element-unit stage that holds the token of its next place emits it. -/
theorem go_emits {x : AtCol} (hsent : ((s.arr x.r x.a).col x.col).sent < ((s.arr x.r x.a).col x.col).recv) (hlast : ¬x.j + 1 < x.k.n)
    (hunit : Stage.unit ((s.arr x.r x.a).col x.col).word = false) {y : Token}
    (hy : Tab.find? ((s.arr x.r x.a).col x.col).pairs ((s.arr x.r x.a).col x.col).sent = some y)
    (head : Option (Token × State)) :
    State.columnStep.go x head s (s.arr x.r x.a) ((s.arr x.r x.a).col x.col) =
      some (s.emitPlace x (makeElements (s.weight x.r x.a x.col ((s.arr x.r x.a).col x.col) x.k.env) x.k.env
        ((s.arr x.r x.a).col x.col).word (((s.arr x.r x.a).col x.col).sent / x.k.g) y)) := by
  have hemit : s.tryEmit x = some (s.emitPlace x (makeElements (s.weight x.r x.a x.col ((s.arr x.r x.a).col x.col) x.k.env)
      x.k.env ((s.arr x.r x.a).col x.col).word (((s.arr x.r x.a).col x.col).sent / x.k.g) y)) := by
    have hcfg : x.nextHasCfg (s.arr x.r x.a) = false := by simp [AtCol.nextHasCfg, hlast]
    unfold State.tryEmit
    dsimp only
    refine (if_neg (by rw [hcfg]; simp; omega)).trans ((if_pos (by rw [hunit]; rfl)).trans ?_)
    rw [Column.operand, hy]
  unfold State.columnStep.go
  rw [hemit]

/-- What holding a token changes of the array. -/
theorem holdAt_spec {x : AtCol} (ha : x.a < 2) (t : Token) :
    ((s.holdAt x t).arr x.r x.a).col x.col = { (s.arr x.r x.a).col x.col with
      recv := ((s.arr x.r x.a).col x.col).recv + 1
      pairs := Tab.put ((s.arr x.r x.a).col x.col).pairs ((s.arr x.r x.a).col x.col).recv t
      dirty := (((s.holdAt x t).arr x.r x.a).col x.col).dirty
      dirtyAcc := (((s.holdAt x t).arr x.r x.a).col x.col).dirtyAcc
      dirtyPair := (((s.holdAt x t).arr x.r x.a).col x.col).dirtyPair } ∧
    (∀ d, d ≠ x.col → ((s.holdAt x t).arr x.r x.a).col d = (s.arr x.r x.a).col d) ∧ (s.holdAt x t).mem = s.mem := by
  unfold State.holdAt
  dsimp only
  rw [State.arr_setArr_self _ _ ha]
  exact ⟨BArray.col_touch_self _ _ _, fun d hd => BArray.col_touch_ne _ _ _ hd, rfl⟩

theorem arr_charge (s : State) (r n i a : Nat) : (s.charge r n).arr i a = s.arr i a := by
  unfold State.arr State.charge
  by_cases hi : i = r
  · subst hi
    rw [State.region_setRegion_self]
    unfold Region.hold
    split <;> rfl
  · rw [State.region_setRegion_ne _ _ _ _ hi]

theorem arr_setJob (s : State) (r e : Nat) (j : Job) (i a : Nat) : (s.setJob r e j).arr i a = s.arr i a := by
  unfold State.arr State.setJob
  by_cases hi : i = r
  · subst hi
    rw [State.region_setRegion_self]
  · rw [State.region_setRegion_ne _ _ _ _ hi]

/-- The chain's flags, in whichever array keeps them, are no part of the column's work. -/
theorem chainFlags_spec (s : State) (x : AtCol) (f : FFlags) (ha : x.a < 2) :
    ∃ g, (s.chainFlags x f).arr x.r x.a = { s.arr x.r x.a with flags := g } ∧ (s.chainFlags x f).mem = s.mem := by
  unfold State.chainFlags
  dsimp only
  by_cases hp : x.k.port x.a = x.a
  · rw [hp, State.arr_setArr_self _ _ ha]
    exact ⟨_, rfl, rfl⟩
  · rw [State.arr_setArr_ne _ _ (Ne.symm hp)]
    exact ⟨_, rfl, rfl⟩

/-- The column once it has emitted its next place. -/
def Column.emitted (c : Column) (g : Nat) (m : Made) : Column :=
  { c with
    sent := c.sent + 1
    pairs := c.pairs.filter fun p => stillNeeded c.word g (c.sent + 1) p.1
    spilled := c.spilled.filter (stillNeeded c.word g (c.sent + 1))
    acc := match m.acc with | some (i, v) => vput c.acc i v | none => c.acc }

/-- The chain's job without the runs that the column needs no more. -/
def State.trimRuns (s : State) (x : AtCol) (c : Column) : State :=
  match Tab.find? (s.region x.r).jobs x.e with
  | some j =>
    s.setJob x.r x.e { j with fly := j.fly.filter fun f =>
      !(f.id / 2 ^ 50 = spillId x.a x.col 0 / 2 ^ 50 && !stillNeeded c.word x.k.g c.sent (f.id % 2 ^ 50)) }
  | none => s

theorem emitPlace_eq (s : State) (x : AtCol) (m : Made) : s.emitPlace x m =
    (let t := s.emitSums x m
     let c := ((t.arr x.r x.a).col x.col).emitted x.k.g m
     ((t.setArr x.r x.a ((t.arr x.r x.a).touch x.col c)).charge x.r (76 * m.cycles)).trimRuns x c) := rfl

theorem trimRuns_spec (s : State) (x : AtCol) (c : Column) (i a : Nat) :
    (s.trimRuns x c).arr i a = s.arr i a ∧ (s.trimRuns x c).mem = s.mem := by
  unfold State.trimRuns
  split
  · exact ⟨arr_setJob _ _ _ _ _ _, rfl⟩
  · exact ⟨rfl, rfl⟩

/-- The last column of a chain gives its exact sums to the output port. -/
theorem emitPlace_last {x : AtCol} (ha : x.a < 2) (hlast : ¬x.j + 1 < x.k.n) (m : Made) :
    ∃ o : OutTok, o.sums = m.sums ∧ ((s.emitPlace x m).arr x.r x.a).outq = (s.arr x.r x.a).outq ++ [o] ∧
      (((s.emitPlace x m).arr x.r x.a).col x.col).sent = ((s.arr x.r x.a).col x.col).sent + 1 ∧
      (((s.emitPlace x m).arr x.r x.a).col x.col).recv = ((s.arr x.r x.a).col x.col).recv ∧
      (((s.emitPlace x m).arr x.r x.a).col x.col).inq = ((s.arr x.r x.a).col x.col).inq ∧
      (∀ d, d ≠ x.col → ((s.emitPlace x m).arr x.r x.a).col d = (s.arr x.r x.a).col d) ∧
      (s.emitPlace x m).mem = s.mem := by
  have hsums : s.emitSums x m = (s.setArr x.r x.a { s.arr x.r x.a with outq := (s.arr x.r x.a).outq ++
      [{ tok := { Token.empty with valid := 0xFFFF }, sums := m.sums }] }).chainFlags x m.fl := if_neg hlast
  obtain ⟨g, harr, hmem⟩ := chainFlags_spec (s.setArr x.r x.a { s.arr x.r x.a with outq := (s.arr x.r x.a).outq ++
      [{ tok := { Token.empty with valid := 0xFFFF }, sums := m.sums }] }) x m.fl ha
  rw [← hsums, State.arr_setArr_self _ _ ha] at harr
  rw [← hsums] at hmem
  rw [emitPlace_eq]
  generalize s.emitSums x m = t at harr hmem
  dsimp only
  obtain ⟨htrim, hmtrim⟩ := trimRuns_spec ((t.setArr x.r x.a ((t.arr x.r x.a).touch x.col
    (((t.arr x.r x.a).col x.col).emitted x.k.g m))).charge x.r (76 * m.cycles)) x
    (((t.arr x.r x.a).col x.col).emitted x.k.g m) x.r x.a
  rw [htrim, hmtrim, arr_charge, State.arr_setArr_self _ _ ha, BArray.col_touch_self]
  have hcol (d : Nat) : (t.arr x.r x.a).col d = (s.arr x.r x.a).col d := by rw [harr]; rfl
  refine ⟨_, rfl, congrArg BArray.outq harr, ?_, ?_, ?_, fun d hd => (BArray.col_touch_ne _ _ _ hd).trans (hcol d), hmem⟩
  · exact congrArg (fun y => Column.sent y + 1) (hcol _)
  · show ((t.arr x.r x.a).col x.col).recv = _
    rw [hcol]
  · show ((t.arr x.r x.a).col x.col).inq = _
    rw [hcol]

end

/-- COLUMN_FIRE is what the column does. -/
theorem exec_columnFire {s t : State} {r a c : Nat} (h : s.columnFire r a c = some t) :
    exec (.columnFire r a c) s = .next t := by
  show execColumnFire r a c s = _
  unfold execColumnFire
  rw [h]

/-! ### Chains complete (R266, R268, R281) -/

section
variable {s : State} {r a e : Nat} {k : BaBind}

theorem exec_chainComplete (hb : (s.arr r a).bind = some k) (hboth : k.both = false) {j : Job}
    (hout : (s.arr r a).eotOut = true) (hin : (s.arr r a).eotIn = true) (hs : (s.arr r a).stopped = false)
    (hrest : (s.plane (planeKey r k.plane)).atRest = false) (hj : s.chainJob r k = some (e, j))
    (hrel : s.jobReleased r e j.scope = true) :
    exec (.chainComplete r a) s = .next (s.endJob r e { j with flags := j.flags ||| (s.arr r a).flags }) := by
  have hp : k.port a = a := by simp [BaBind.port, hboth]
  show execChainComplete r a s = _
  unfold execChainComplete
  simp only [hb, hp, hout, hin, hs, hrest, hj, hrel, Bool.not_true, Bool.or_self, Bool.false_eq_true, if_false, if_true]

/-- An array that a chain leaves. -/
def BArray.unbound (b : BArray) : BArray :=
  { b with
    bind := none, inq := [], outq := [], eotIn := false, eotOut := false, groupIn := 0, groupOut := 0, turnIn := 0
    turnOut := 0, faulted := false, flags := 0, drained := false }

/-- The end of a chain's job leaves its arrays without a binding. -/
theorem endSides_chain {j : Job} {arr : ArrSel} (hk : j.kind = .bchn arr) :
    s.endSides r j = s.mapArrs r BArray.unbound (ArrSel.list arr) := by
  unfold State.endSides
  simp only [hk]
  rfl

/-- CHAIN_COMPLETE: the binding, the array's tokens and the job are gone. -/
theorem endJob_chain {j : Job} (ha : a ≤ 1) (hk : j.kind = .bchn (if a = 0 then .ba0 else .ba1)) (hr : r < 128)
    (he : e < 16) (hrel : s.jobReleased r e j.scope = true) :
    ((s.endJob r e j).arr r a).bind = none ∧ ((s.endJob r e j).arr r a).inq = [] ∧ ((s.endJob r e j).arr r a).outq = [] ∧
      Tab.find? ((s.endJob r e j).region r).jobs e = none ∧ BytesStay s (s.endJob r e j) ∧ OrderStays s (s.endJob r e j) := by
  have hlist : ArrSel.list (if a = 0 then .ba0 else .ba1) = [a] := by
    obtain rfl | rfl : a = 0 ∨ a = 1 := by omega
    · rfl
    · rfl
  obtain ⟨hm, hag, -, hjobs⟩ := reported_spec s r e j
  have heq : s.endJob r e j = ((s.reported r e j).retire (jobAgent r e)).mapArrs r BArray.unbound [a] := by
    rw [endJob_eq, endSides_chain hk, hlist]
  have harr := State.arr_mapArrs ((s.reported r e j).retire (jobAgent r e)) r BArray.unbound (List.nodup_singleton a)
    (fun b hb => by rw [List.mem_singleton.1 hb]; omega) (List.mem_singleton.2 rfl)
  obtain ⟨hqb, hqm⟩ := jobReleased_quiet hrel
  have hagent : (s.reported r e j).agent (jobAgent r e) = s.agent (jobAgent r e) := by rw [State.agent, hag]; rfl
  obtain ⟨mm, mag, -, -⟩ := (SameButRegions.mapArrs ((s.reported r e j).retire (jobAgent r e)) r BArray.unbound [a]).fields
  rw [heq, harr, State.region_mapArrs]
  refine ⟨rfl, rfl, rfl, hjobs, ?_, ?_⟩
  · exact .trans (.of_eq hm hag) (.trans (retire_quiet_bytes _ hr he (by rw [hagent]; exact hqb) (by rw [hagent]; exact hqm))
      (.of_eq mm mag))
  · obtain ⟨-, -, horder, -⟩ := KeepsContexts.endJob s r e j
    rwa [heq] at horder

end

/-! ### A DRAIN at the output port (R284, log 20) -/

theorem findIdx_append {α : Type} {p : α → Bool} {pre : List α} {t : α} (hpre : ∀ x ∈ pre, p x = false) (ht : p t = true)
    (rest : List α) : (pre ++ t :: rest).findIdx? p = some pre.length := by
  induction pre with
  | nil => simp [List.findIdx?_cons, ht]
  | cons x pre ih =>
    rw [List.cons_append, List.findIdx?_cons, hpre x List.mem_cons_self,
      ih fun y hy => hpre y (List.mem_cons_of_mem _ hy)]
    rfl

section
variable {s : State} {r a : Nat} {k : BaBind} {pre rest : List OutTok} {t : OutTok}
  (hq : (s.arr r a).outq = pre ++ t :: rest) (ht : t.tok.marker = Mk.drain) (hpre : ∀ x ∈ pre, x.tok.marker ≠ Mk.drain)
include hq ht hpre

theorem drain_index : ((s.arr r a).outq.findIdx? fun t => t.tok.marker = Mk.drain) = some pre.length := by
  rw [hq]
  exact findIdx_append (fun x hx => by simpa using hpre x hx) (by simpa using ht) rest

theorem givesDrain_of {halves none_ : Bool} (h : pre = [] ∨ none_ = true ∨ halves = true ∧ ∀ x ∈ pre, x.tok.marker = Mk.data) :
    (s.arr r a).givesDrain halves none_ = true := by
  unfold BArray.givesDrain
  rw [drain_index hq ht hpre]
  dsimp only
  obtain rfl | h | ⟨h, hd⟩ := h
  · rfl
  · rw [h]
    simp
  · rw [h, hq, List.take_left]
    simp only [Bool.true_and, Bool.or_eq_true]
    exact .inr (List.all_eq_true.2 fun x hx => decide_eq_true (hd x hx))

theorem popDrain_eq : s.popDrain r a = s.setArr r a { s.arr r a with outq := pre ++ rest } := by
  unfold State.popDrain
  dsimp only
  rw [drain_index hq ht hpre]
  dsimp only
  rw [hq, dropAt, List.eraseIdx_append_of_length_le (Nat.le_refl _), Nat.sub_self, List.eraseIdx_cons_zero]

/-- ARRAY_DRAIN: the port gives the DRAIN up, and the array has been drained if `bdrn.sv` drains it. -/
theorem exec_arrayDrain (hb : (s.arr r a).bind = some k) (hboth : k.both = false)
    (hgive : pre = [] ∨ (s.plane (planeKey r k.plane)).hasBfout a = false ∨
      ((s.plane (planeKey r k.plane)).halvesAt a = true ∧ ∀ x ∈ pre, x.tok.marker = Mk.data))
    (hdrain : (s.arr r a).draining = true ∨ (s.plane (planeKey r k.plane)).hasBfout a = false) :
    exec (.arrayDrain r a) s =
      .next (s.setArr r a { s.arr r a with outq := pre ++ rest, drained := (s.arr r a).draining }) := by
  have ha := lt_two_of_bind hb
  have hsrc : s.outSource r a = some (a, k) := by simp [State.outSource, hb, hboth]
  have hp : k.port a = a := by simp [BaBind.port, hboth]
  have hg := givesDrain_of hq ht hpre (halves := (s.plane (planeKey r k.plane)).halvesAt a)
    (none_ := !(s.plane (planeKey r k.plane)).hasBfout a) (hgive.imp_right (Or.imp_left fun h => by rw [h]; rfl))
  have hd : ((s.arr r a).draining || !(s.plane (planeKey r k.plane)).hasBfout a) = true := by
    obtain h | h := hdrain <;> simp [h]
  show execArrayDrain r a s = _
  unfold execArrayDrain
  rw [hsrc]
  dsimp only
  rw [← planeKey, hp]
  refine (if_neg (by rw [hg, hd, hboth]; simp)).trans ?_
  simp only [hboth, Bool.false_eq_true, if_false]
  rw [popDrain_eq hq ht hpre, State.arr_setArr_self _ _ ha, State.setArr_setArr]

end

/-! ### A limiter's window (R259, R269) -/

theorem exec_rateWindow (s : State) (r unit : Nat) : exec (.rateWindow r unit) s = .next (s.setRegion r
    { s.region r with
      limits := vput (s.region r).limits unit ({ vget (s.region r).limits unit Limiter.empty with admitted := 0 }) }) := rfl

/-- Settles O43. -/
theorem columnsFire : Obligations.ColumnsFire := by
  unfold Obligations.ColumnsFire
  refine ⟨fun s r a c e k job t rest hb hs hlo hhi hrest hj hst => ?_, fun s r a e k => ⟨fun hb hboth => ⟨?_, ?_⟩, ?_⟩⟩
  · intro b x hq hm hu hroom
    have ha := lt_two_of_bind hb
    have hroom' := columnFire_room (r := r) (a := a) (e := e) (job := job) hlo hhi hroom
    have hcol : (colAt r a c e k job).col = c := colAt_col hlo
    have hmarks : ((s.arr (colAt r a c e k job).r (colAt r a c e k job).a).col (colAt r a c e k job).col).marks = [] := by
      rw [hcol]; exact hm
    have hfire := columnFire_own hb hs hlo hhi hrest hj hst hq
    rw [columnStep_go hroom' hmarks] at hfire
    have hpop : (s.popCol r a c rest).arr r a = (s.arr r a).setCol c { (s.arr r a).col c with inq := rest } :=
      State.arr_setArr_self _ _ ha _
    refine ⟨fun hsent ht => ?_, fun y hsent hlast hy => ?_⟩
    · rw [go_takes hmarks (by rw [hcol]; exact hsent) ht (by
        rw [hcol]
        show Stage.unit (((s.popCol r a c rest).arr r a).col c).word = false
        rw [hpop, BArray.col_setCol_self]
        exact hu)] at hfire
      obtain ⟨h1, h2, h3⟩ := holdAt_spec (s := s.popCol r a c rest) (x := colAt r a c e k job) ha t
      rw [hcol] at h1 h2
      change (((s.popCol r a c rest).holdAt (colAt r a c e k job) t).arr r a).col c = _ at h1
      have hself : ((s.popCol r a c rest).arr r a).col c = { (s.arr r a).col c with inq := rest } := by
        rw [hpop, BArray.col_setCol_self]
      refine ⟨_, exec_columnFire hfire, ?_, ?_, ?_, ?_, fun d hd => (h2 d hd).trans ?_, h3.trans rfl⟩
      · refine (congrArg Column.inq h1).trans ?_
        show (((s.popCol r a c rest).arr r a).col c).inq = _
        rw [hself]
      · refine (congrArg Column.recv h1).trans ?_
        show (((s.popCol r a c rest).arr r a).col c).recv + 1 = _
        rw [hself]
      · refine (congrArg (fun y => Tab.find? (Column.pairs y) _) h1).trans ?_
        show Tab.find? (Tab.put (((s.popCol r a c rest).arr r a).col c).pairs (((s.popCol r a c rest).arr r a).col c).recv t) _ = _
        rw [hself]
        exact Tab.find?_put_self _ _ _
      · refine (congrArg Column.sent h1).trans ?_
        show (((s.popCol r a c rest).arr r a).col c).sent = _
        rw [hself]
      · show ((s.popCol r a c rest).arr r a).col d = _
        rw [hpop, BArray.col_setCol_ne _ _ _ hd]
    · have hj' : ¬(colAt r a c e k job).j + 1 < (colAt r a c e k job).k.n := by
        show ¬c - k.c0 + 1 < k.n
        omega
      rw [go_emits (by rw [hcol]; exact hsent) hj' (by rw [hcol]; exact hu) (y := y) (by rw [hcol]; exact hy), hcol] at hfire
      obtain ⟨o, ho, h1, h2, h3, h4, h5, h6⟩ := emitPlace_last (s := s) (x := colAt r a c e k job) ha hj'
        (makeElements (s.weight r a c ((s.arr r a).col c) k.env) k.env ((s.arr r a).col c).word
          (((s.arr r a).col c).sent / k.g) y)
      rw [hcol] at h2 h3 h4 h5
      exact ⟨_, o, exec_columnFire hfire, h1, ho, h2, h3, h4, h5, h6⟩
  · intro j hout hin hs hrest hj hrel hk ha hr he
    obtain ⟨h1, h2, h3, h4, h5, h6⟩ := endJob_chain (s := s) (a := a) (j := { j with flags := j.flags ||| (s.arr r a).flags })
      ha hk hr he hrel
    exact ⟨_, exec_chainComplete hb hboth hout hin hs hrest hj hrel, h1, h2, h3, h4, h5, h6⟩
  · intro pre t rest _ hq ht hpre hgive hdrain
    exact exec_arrayDrain hq ht hpre hb hboth hgive hdrain
  · intro unit hunit
    refine ⟨_, exec_rateWindow s r unit, ?_, fun n hn => ?_⟩
    · rw [State.region_setRegion_self]
    · rw [State.region_setRegion_self]
      by_cases h : n = unit
      · subst h
        rw [if_pos rfl]
        exact vget_vput_self _ _ _ _ hn
      · rw [if_neg h]
        exact vget_vput_ne _ _ _ _ _ h

end Sys2Proof.Machine
end

