-- ==== Sys2Proof/Proofs/NotArrayPorts.lean ====
section
/-!
PROOFS. O42 is refuted: a `bfin` whose link at slot a is sticky and holds a marker puts that marker into its array.
-/

namespace Sys2Proof.Machine

/-! ### bfin (O42)

The inputs of a node meet as data when no link that is not sticky brings a marker. A sticky link's token is not asked for its
marker: where the link at slot a of a `bfin` is sticky and its token is an EOR, the node fires, and the EOR goes into the array
as it stands, where the statement wants a data token with 16 records. -/

/-- A chain of one column on plane 0. -/
def stickyBind : BaBind :=
  { w1 := 0, w2 := 0, c0 := 0, n := 1, g := 1, spill := none, z := 0, both := false, sfl := false, rfl := false, job := 0
    plane := 0, scope := .rgn }

/-- A sticky link into slot a of the node at slot 3, with an EOR at its head. -/
def stickyLink : Link :=
  { src := 9, out := 0, dst := 3, opd := .a, cap := 2, toks := [Token.mark Mk.eor], sticky := true, era := 0, renew := none }

/-- The machine in the turn of the node. -/
def stickyState : State :=
  { State.reset with
    planes := [(0, { Plane.empty with nodes := [(3, Node.fresh 0)], links := [stickyLink] })]
    regions := [(0, { Region.empty with arrays := #v[{ BArray.empty with bind := some stickyBind }, BArray.empty] })]
    actor := .node 0 0 3 }

def stickyNode : At := { region := 0, plane := 0, slot := 3, node := Node.fresh 0, pl := stickyState.plane 0 }

/-- A `bfin` into array 0. -/
def stickyFields : Fields :=
  { fn := 0, ty := .f32, tga := .port 0x10, tgb := .absent, dpa := 1, dpb := 0, pm := .always, imm := 0 }

/-- The tokens at array 0's input after an instruction. -/
def inputAfter : Res → List Token
  | .next t => (t.arr 0 0).inq
  | _ => []

theorem stickyNode_room : stickyNode.room stickyFields := ⟨rfl, rfl, rfl⟩

theorem stickyNode_data : NodeData stickyState stickyNode stickyFields [.a] := by
  refine ⟨⟨⟨0, 0, rfl, rfl⟩, rfl, rfl, rfl, rfl, rfl, rfl, rfl⟩, rfl, rfl, rfl⟩

theorem stickyNode_input : (inputAfter (exec (.bfin stickyFields) stickyState)).map Token.marker = [Mk.eor] := by
  decide

/-- What is left of a firing, once the node's plane and its energy are aside, is the array. -/
theorem inputAfter_fires {i : Instr} {s u : State} {a : At} {f : Fields} {taken : List Slot} {outs : List (Nat × Token)} {n : Node}
    {fl : FFlags} (h : NodeFires i s u a f taken outs n fl) : inputAfter (exec i s) = (u.arr 0 0).inq := by
  obtain ⟨hexec, -⟩ := h
  rw [hexec]
  show BArray.inq (State.arr _ 0 0) = _
  split
  · rfl
  · rw [arr_charge]
    rfl

/-- Refutes O42: the token that this `bfin` has put into the array is an EOR. -/
theorem not_arrayImagesAndPorts : ¬ Obligations.ArrayImagesAndPorts := by
  unfold Obligations.ArrayImagesAndPorts
  intro h
  obtain ⟨-, h⟩ := h
  obtain ⟨hbfin, -⟩ := h stickyState stickyNode stickyFields stickyBind stickyNode_room rfl rfl
  obtain ⟨u, xs, hfires, hinq, hlen, htok⟩ := hbfin 0 [.a] (by decide) rfl rfl stickyNode_data rfl rfl rfl rfl rfl
    (by decide) (by decide) (by decide) (by decide)
  obtain ⟨x, hx⟩ := List.length_eq_one_iff.1 hlen
  obtain ⟨hmark, -⟩ := htok 0 .a x rfl (by rw [hx]; rfl)
  have hmarks := stickyNode_input
  have hinput : (u.arr 0 0).inq = [x] := hinq.trans (by rw [hx]; rfl)
  rw [inputAfter_fires hfires, hinput, List.map_singleton, hmark] at hmarks
  exact absurd hmarks (by decide)

end Sys2Proof.Machine
end

