-- ==== Sys2Proof/Proofs/FloatValues.lean ====
section
/-!
PROOFS. The number formats (R71 to R85): the order of exact values and rounding to an integer are those of the
rationals.
-/

namespace Sys2Proof.Machine

/-! ### Exact values as rationals -/

/-- 1 or -1, by a sign bit. -/
def unitOf (neg : Bool) : ℚ := if neg then -1 else 1

theorem exactQ_fin (neg : Bool) (m : Nat) (e : Int) :
    exactQ (.fin neg m e) = unitOf neg * ((m : ℚ) * (2 : ℚ) ^ e) := by
  simp only [exactQ, unitOf, mul_assoc]

/-- A significand over a smaller exponent. -/
theorem aligned_cast (neg : Bool) (m : Nat) {e lo : Int} (h : lo ≤ e) :
    ((if neg then -((m * 2 ^ (e - lo).toNat : Nat) : Int) else ((m * 2 ^ (e - lo).toNat : Nat) : Int) : Int) : ℚ) =
      exactQ (.fin neg m e) * (2 : ℚ) ^ (-lo) := by
  have he : (2 : ℚ) ^ e * (2 : ℚ) ^ (-lo) = (2 : ℚ) ^ (e - lo).toNat := by
    rw [← zpow_add₀ two_ne_zero, ← zpow_natCast, Int.toNat_of_nonneg (by omega)]
    rfl
  rw [exactQ_fin, unitOf, mul_assoc, mul_assoc, he]
  cases neg <;> simp

/-- The model's order of values is that of the extended reals. -/
theorem lt_eq_less (p q : Num) : p.lt q = less p q := by
  cases p with
  | nan => rfl
  | inf a => cases q with
    | nan => cases a <;> rfl
    | inf b => cases a <;> cases b <;> rfl
    | fin => cases a <;> rfl
  | fin n1 m1 e1 => cases q with
    | nan => rfl
    | inf b => cases b <;> rfl
    | fin n2 m2 e2 =>
      have hpos : (0 : ℚ) < (2 : ℚ) ^ (-min e1 e2) := by positivity
      simp only [Num.lt, alignPair, less]
      refine decide_eq_decide.2 ?_
      rw [← mul_lt_mul_iff_left₀ hpos, ← aligned_cast n1 m1 (min_le_left e1 e2),
        ← aligned_cast n2 m2 (min_le_right e1 e2), Int.cast_lt]

theorem below_eq (p q : Num) :
    below p q = (less p q || (p.isZero && q.isZero && p.isNeg && !q.isNeg)) := by
  rw [below, lt_eq_less]

theorem selectValue_eq (larger : Bool) (p q : Num) : selectValue larger p q = smallerOf larger p q := by
  simp only [selectValue, smallerOf, below_eq]

/-! ### Rounding to an integer (R83) -/

/-- The magnitude to which a positive rational rounds. -/
def roundedUpTo (rm : RMode) (neg : Bool) (x : ℚ) : Nat :=
  if !decide (x = ⌊x⌋₊) && roundsUp rm neg ⌊x⌋₊ (compare (x - ⌊x⌋₊) (1 / 2)) then ⌊x⌋₊ + 1 else ⌊x⌋₊

theorem quot_zero (m : Nat) (e : Int) :
    Appr.quot ⟨m, e, false⟩ 0 = (⌊(m : ℚ) * (2 : ℚ) ^ e⌋₊, decide ((m : ℚ) * (2 : ℚ) ^ e = ⌊(m : ℚ) * (2 : ℚ) ^ e⌋₊),
      compare ((m : ℚ) * (2 : ℚ) ^ e - ⌊(m : ℚ) * (2 : ℚ) ^ e⌋₊) (1 / 2)) := by
  unfold Appr.quot
  by_cases he : 0 ≤ e
  · have hx : (m : ℚ) * (2 : ℚ) ^ e = ((m * 2 ^ e.toNat : Nat) : ℚ) := by
      conv_lhs => rw [← Int.toNat_of_nonneg he]
      push_cast
      rw [zpow_natCast]
    have hc : compare (0 : ℚ) (1 / 2) = .lt := by rw [compare_lt_iff_lt]; norm_num
    simp only [sub_zero, he, if_true, hx, Nat.floor_natCast, sub_self, hc, Bool.not_false, decide_true]
  · obtain ⟨j, hj⟩ : ∃ j : Nat, (-e).toNat = j ∧ e = -(j : Int) := ⟨(-e).toNat, rfl, by omega⟩
    obtain ⟨hj, rfl⟩ := hj
    have hd : (0 : ℚ) < ((2 ^ j : Nat) : ℚ) := by positivity
    have hx : (m : ℚ) * (2 : ℚ) ^ (-(j : Int)) = (m : ℚ) / ((2 ^ j : Nat) : ℚ) := by
      rw [zpow_neg, zpow_natCast, div_eq_mul_inv]
      push_cast
      rfl
    have hm : (m : ℚ) = ((2 ^ j : Nat) : ℚ) * ((m / 2 ^ j : Nat) : ℚ) + ((m % 2 ^ j : Nat) : ℚ) := by
      exact_mod_cast (Nat.div_add_mod m (2 ^ j)).symm
    have hr : (m : ℚ) / ((2 ^ j : Nat) : ℚ) - ((m / 2 ^ j : Nat) : ℚ) =
        ((m % 2 ^ j : Nat) : ℚ) / ((2 ^ j : Nat) : ℚ) := by
      rw [eq_div_iff hd.ne', sub_mul, div_mul_cancel₀ _ hd.ne']
      linarith
    have hex : (m : ℚ) / ((2 ^ j : Nat) : ℚ) = ((m / 2 ^ j : Nat) : ℚ) ↔ m % 2 ^ j = 0 := by
      rw [← sub_eq_zero, hr, div_eq_zero_iff, or_iff_left hd.ne', Nat.cast_eq_zero]
    have hlt : ((m % 2 ^ j : Nat) : ℚ) / ((2 ^ j : Nat) : ℚ) < 1 / 2 ↔ 2 * (m % 2 ^ j) < 2 ^ j := by
      rw [div_lt_div_iff₀ hd two_pos, one_mul, mul_comm]
      exact_mod_cast Iff.rfl
    have heq : ((m % 2 ^ j : Nat) : ℚ) / ((2 ^ j : Nat) : ℚ) = 1 / 2 ↔ 2 * (m % 2 ^ j) = 2 ^ j := by
      rw [div_eq_div_iff hd.ne' two_ne_zero, one_mul, mul_comm]
      exact_mod_cast Iff.rfl
    simp only [sub_zero, he, if_false, hx, hj, Nat.floor_div_natCast, Nat.floor_natCast, hr, hex, Bool.not_false,
      Bool.and_true, decide_eq_true_eq, Prod.mk.injEq, true_and]
    split_ifs with h1 h2
    · exact ((compare_lt_iff_lt).2 (hlt.2 h1)).symm
    · exact ((compare_eq_iff_eq).2 (heq.2 h2)).symm
    · refine ((compare_gt_iff_gt).2 (lt_of_le_of_ne (not_lt.1 fun h => h1 (hlt.1 h)) fun h => h2 (heq.1 h.symm))).symm

theorem roundRat_int (rm : RMode) (k : Int) : roundRat rm (k : ℚ) = k := by
  cases rm <;> simp [roundRat]

theorem roundedUpTo_nat (rm : RMode) (neg : Bool) (n : Nat) : roundedUpTo rm neg (n : ℚ) = n := by
  simp [roundedUpTo]

/-- A rational between n and n + 1 rounds to the one that its direction names. -/
theorem roundedUpTo_between (rm : RMode) (neg : Bool) (n : Nat) {r : ℚ} (h0 : 0 < r) (h1 : r < 1) :
    roundedUpTo rm neg (n + r) = if roundsUp rm neg n (compare r (1 / 2)) then n + 1 else n := by
  have hf : ⌊(n : ℚ) + r⌋₊ = n := (Nat.floor_eq_iff (by positivity)).2 ⟨by linarith, by linarith⟩
  have hne : ¬((n : ℚ) + r = n) := by linarith
  simp [roundedUpTo, hf, hne, h0.ne']

theorem floor_between (k : Int) {r : ℚ} (h0 : 0 < r) (h1 : r < 1) : ⌊(k : ℚ) + r⌋ = k :=
  Int.floor_eq_iff.2 ⟨by linarith, by linarith⟩

theorem ceil_between (k : Int) {r : ℚ} (h0 : 0 < r) (h1 : r < 1) : ⌈(k : ℚ) + r⌉ = k + 1 :=
  Int.ceil_eq_iff.2 ⟨by push_cast; linarith, by push_cast; linarith⟩

/-- The nearest of two integers, the even one at a tie. -/
theorem roundsUp_rne (neg : Bool) (n : Nat) (r : ℚ) :
    roundsUp .rne neg n (compare r (1 / 2)) = decide (1 / 2 < r ∨ r = 1 / 2 ∧ n % 2 = 1) := by
  have hg : compare r (1 / 2) = .gt ↔ 1 / 2 < r := compare_gt_iff_gt
  have he : compare r (1 / 2) = .eq ↔ r = 1 / 2 := compare_eq_iff_eq
  simp only [roundsUp, Bool.decide_or, Bool.decide_and, ← hg, ← he, beq_eq_decide]

/-- A positive rational that is no integer. -/
theorem roundRat_between (rm : RMode) (n : Nat) {r : ℚ} (h0 : 0 < r) (h1 : r < 1) :
    roundRat rm ((n : ℚ) + r) = (if roundsUp rm false n (compare r (1 / 2)) then n + 1 else n : Nat) := by
  have hf : ⌊(n : ℚ) + r⌋ = n := floor_between n h0 h1
  have hc : ⌈(n : ℚ) + r⌉ = n + 1 := ceil_between n h0 h1
  have hn : ¬((n : ℚ) + r < 0) := not_lt.2 (by positivity)
  cases rm with
  | rz => simp [roundRat, roundsUp, hn, hf]
  | rd => simp [roundRat, roundsUp, hf]
  | ru => simp [roundRat, roundsUp, hc]
  | rne =>
    have hup : (r < 1 / 2 ∨ r = 1 / 2 ∧ (n : Int) % 2 = 0) ↔ ¬(1 / 2 < r ∨ r = 1 / 2 ∧ n % 2 = 1) := by
      rcases lt_trichotomy r (1 / 2) with h | h | h
      · exact iff_of_true (.inl h) (by rintro (h' | h') <;> linarith)
      · simp only [h, lt_irrefl, true_and, false_or]
        omega
      · exact iff_of_false (by rintro (h' | h') <;> linarith) (not_not_intro (.inl h))
    simp only [roundRat, hf, Int.cast_natCast, add_sub_cancel_left, hup, roundsUp_rne, decide_eq_true_eq, ite_not]
    push_cast
    rfl

/-- A negative one. -/
theorem roundRat_neg_between (rm : RMode) (n : Nat) {r : ℚ} (h0 : 0 < r) (h1 : r < 1) :
    roundRat rm (-((n : ℚ) + r)) = -((if roundsUp rm true n (compare r (1 / 2)) then n + 1 else n : Nat) : Int) := by
  have hx : -((n : ℚ) + r) = ((-(n : Int) - 1 : Int) : ℚ) + (1 - r) := by push_cast; ring
  have hf : ⌊-((n : ℚ) + r)⌋ = -(n : Int) - 1 := by rw [hx]; exact floor_between _ (by linarith) (by linarith)
  have hc : ⌈-((n : ℚ) + r)⌉ = -(n : Int) := by rw [hx, ceil_between _ (by linarith) (by linarith)]; ring
  have hn : -((n : ℚ) + r) < 0 := neg_neg_of_pos (by positivity)
  cases rm with
  | rz => simp only [roundRat, roundsUp, hn, hc, if_true]; rfl
  | rd => simp only [roundRat, roundsUp, hf, if_true]; push_cast; ring
  | ru => simp only [roundRat, roundsUp, hc]; rfl
  | rne =>
    have hrest : -((n : ℚ) + r) - ((-(n : Int) - 1 : Int) : ℚ) = 1 - r := by push_cast; ring
    have hup : (1 - r < 1 / 2 ∨ 1 - r = 1 / 2 ∧ (-(n : Int) - 1) % 2 = 0) ↔ (1 / 2 < r ∨ r = 1 / 2 ∧ n % 2 = 1) := by
      have h1 : 1 - r < 1 / 2 ↔ 1 / 2 < r := by constructor <;> intro h <;> linarith
      have h2 : 1 - r = 1 / 2 ↔ r = 1 / 2 := by constructor <;> intro h <;> linarith
      have h3 : (-(n : Int) - 1) % 2 = 0 ↔ n % 2 = 1 := by omega
      rw [h1, h2, h3]
    simp only [roundRat, hf, hrest, hup, roundsUp_rne, decide_eq_true_eq]
    split_ifs
    · push_cast
      ring
    · ring

/-- Round of a signed value to an integer: the magnitude rounds, and the sign stays. -/
theorem roundRat_signed (rm : RMode) (neg : Bool) {x : ℚ} (hx : 0 ≤ x) :
    roundRat rm (unitOf neg * x) = if neg then -(roundedUpTo rm neg x : Int) else (roundedUpTo rm neg x : Int) := by
  obtain ⟨n, r, rfl, h0, h1⟩ : ∃ (n : Nat) (r : ℚ), x = n + r ∧ 0 ≤ r ∧ r < 1 :=
    ⟨⌊x⌋₊, x - ⌊x⌋₊, by ring, sub_nonneg.2 (Nat.floor_le hx), by linarith [Nat.lt_floor_add_one x]⟩
  rcases h0.eq_or_lt with rfl | h0
  · cases neg
    · simpa [unitOf, roundedUpTo_nat] using roundRat_int rm n
    · simpa [unitOf, roundedUpTo_nat] using roundRat_int rm (-n)
  · rw [roundedUpTo_between rm neg n h0 h1]
    cases neg
    · simpa [unitOf] using roundRat_between rm n h0 h1
    · simpa [unitOf] using roundRat_neg_between rm n h0 h1

/-- R162: `frnd` of a finite value. -/
theorem roundIntegral_eq (rm : RMode) (neg : Bool) (m : Nat) (e : Int) :
    roundIntegral rm neg m e = .fin neg (roundRat rm (exactQ (.fin neg m e))).natAbs 0 := by
  have hform : roundIntegral rm neg m e = .fin neg (roundedUpTo rm neg ((m : ℚ) * (2 : ℚ) ^ e)) 0 := by
    simp only [roundIntegral, quot_zero, roundedUpTo]
  rw [hform, exactQ_fin, roundRat_signed rm neg (by positivity)]
  cases neg <;> simp

/-- A value rounds to itself exactly where it is an integer. -/
theorem roundRat_eq_self (rm : RMode) (neg : Bool) {x : ℚ} (hx : 0 ≤ x) :
    ((roundRat rm (unitOf neg * x) : Int) : ℚ) = unitOf neg * x ↔ x = ⌊x⌋₊ := by
  constructor
  · intro h
    rw [roundRat_signed rm neg hx] at h
    have hn : (roundedUpTo rm neg x : ℚ) = x := by
      cases neg <;> simpa [unitOf] using h
    rw [← hn, Nat.floor_natCast]
  · intro h
    rw [h]
    cases neg
    · simpa [unitOf] using congrArg (Int.cast (R := ℚ)) (roundRat_int rm ⌊x⌋₊)
    · simpa [unitOf] using congrArg (Int.cast (R := ℚ)) (roundRat_int rm (-⌊x⌋₊))

theorem ElemTy.ifmt_min (ty : ElemTy) : (ElemTy.ifmt ty).min = lowOf ty := by cases ty <;> rfl
theorem ElemTy.ifmt_max (ty : ElemTy) : (ElemTy.ifmt ty).max = highOf ty := by cases ty <;> rfl

/-- R83: a finite value rounded to an integer type. -/
theorem roundInt_fin (ty : ElemTy) (rm : RMode) (neg : Bool) (m : Nat) (e : Int) :
    let q := exactQ (.fin neg m e)
    let y := roundRat rm q
    roundInt (ElemTy.ifmt ty) rm (.fin neg m e) =
      (wrapAs ty (clampTo ty y), if clampTo ty y ≠ y then Fl.iv else if (y : ℚ) = q then 0 else Fl.ix) := by
  intro q y
  have hx : (0 : ℚ) ≤ (m : ℚ) * (2 : ℚ) ^ e := by positivity
  have hq : q = unitOf neg * ((m : ℚ) * (2 : ℚ) ^ e) := exactQ_fin neg m e
  have hself : (y : ℚ) = q ↔ (m : ℚ) * (2 : ℚ) ^ e = ⌊(m : ℚ) * (2 : ℚ) ^ e⌋₊ := by
    rw [hq, ← roundRat_eq_self rm neg hx, ← hq]
  have hy : y = if neg then -(roundedUpTo rm neg ((m : ℚ) * (2 : ℚ) ^ e) : Int)
      else (roundedUpTo rm neg ((m : ℚ) * (2 : ℚ) ^ e) : Int) := by
    rw [← roundRat_signed rm neg hx, ← hq]
  have hle := lowOf_le_highOf ty
  have hform : roundInt (ElemTy.ifmt ty) rm (.fin neg m e) =
      if y < lowOf ty then (wrapAs ty (lowOf ty), Fl.iv)
      else if highOf ty < y then (wrapAs ty (highOf ty), Fl.iv)
      else (wrapAs ty y, if (y : ℚ) = q then 0 else Fl.ix) := by
    unfold roundedUpTo at hy
    simp only [roundInt, quot_zero, ElemTy.ifmt_min, ElemTy.ifmt_max, ElemTy.ifmt_wrap, decide_eq_true_eq, ← hy, hself]
  have hlow : y < lowOf ty → clampTo ty y = lowOf ty := by unfold clampTo; omega
  have hhigh : highOf ty < y → clampTo ty y = highOf ty := by unfold clampTo; omega
  have hin : ¬y < lowOf ty → ¬highOf ty < y → clampTo ty y = y := by unfold clampTo; omega
  rw [hform]
  by_cases h1 : y < lowOf ty
  · rw [if_pos h1, hlow h1, if_pos h1.ne']
  · rw [if_neg h1]
    by_cases h2 : highOf ty < y
    · rw [if_pos h2, hhigh h2, if_pos h2.ne]
    · rw [if_neg h2, hin h1 h2, if_neg (not_not_intro rfl)]

end Sys2Proof.Machine
end

