-- ==== Sys2Proof/Proofs/FloatRounding.lean ====
section
/-!
PROOFS. Round into a floating format (R83): where a significand fits it is exact, above the format it overflows, and far
below it everything rounds alike; so Round leaves the value of a code as it is, and a scale beyond 2^±4096 rounds as
there.
-/

namespace Sys2Proof.Machine

/-- What Round gives for a magnitude above the format's largest. -/
def overflowed (f : Fmt) (rm : RMode) (neg : Bool) : Lane × FFlags :=
  let toInf := match rm with
    | .rne => true
    | .rz => false
    | .rd => neg
    | .ru => !neg
  (if toInf && !f.noInf then f.inf neg else f.signed neg f.maxCode, Fl.ovf ||| Fl.ix)

theorem quot_nonneg (m : Nat) {e qe : Int} (h : qe ≤ e) :
    Appr.quot ⟨m, e, false⟩ qe = (m * 2 ^ (e - qe).toNat, true, .lt) := by
  simp only [Appr.quot, Bool.not_false]
  exact if_pos (by omega)

theorem log2_mul_two_pow {m : Nat} (hm : m ≠ 0) (k : Nat) : (m * 2 ^ k).log2 = m.log2 + k := by
  refine (Nat.log2_eq_iff (Nat.mul_ne_zero hm (by positivity))).2 ⟨?_, ?_⟩
  · rw [pow_add]
    exact Nat.mul_le_mul_right _ (Nat.log2_self_le hm)
  · rw [show m.log2 + k + 1 = (m.log2 + 1) + k by omega, pow_add]
    exact Nat.mul_lt_mul_of_pos_right Nat.lt_log2_self (by positivity)

/-- The magnitude code of m * 2^e, for a significand that fits and an exponent in range. -/
def normalMag (f : Fmt) (m : Nat) (e : Int) : Nat :=
  (m.log2 + e - f.emin + 1).toNat * 2 ^ f.frac + (m * 2 ^ (f.frac - m.log2) - 2 ^ f.frac)

/-- A significand that fits the format rounds to its own code, unless it overflows. -/
theorem round_normal (f : Fmt) (rm : RMode) (neg : Bool) {m : Nat} {e : Int} (hm : m ≠ 0) (hl : m.log2 ≤ f.frac)
    (he : f.emin ≤ m.log2 + e) :
    roundNum f rm (.fin neg m e) =
      if f.maxCode < normalMag f m e then overflowed f rm neg else (f.signed neg (normalMag f m e), 0) := by
  have hk : (e - ((m.log2 : Int) + e - (f.frac + 1 : Nat) + 1)).toNat = f.frac - m.log2 := by omega
  have hlog : (m * 2 ^ (f.frac - m.log2)).log2 = f.frac := by rw [log2_mul_two_pow hm]; omega
  have hne : m * 2 ^ (f.frac - m.log2) ≠ 0 := Nat.mul_ne_zero hm (by positivity)
  have hmag : f.encodeMag (m * 2 ^ (f.frac - m.log2)) ((m.log2 : Int) + e - (f.frac + 1 : Nat) + 1) =
      normalMag f m e := by
    have hexp : (f.frac : Int) + ((m.log2 : Int) + e - (f.frac + 1 : Nat) + 1) = m.log2 + e := by omega
    simp only [Fmt.encodeMag, hne, if_false, hlog, hexp, not_lt.2 he, le_refl, if_true, Nat.sub_self, pow_zero, mul_one,
      normalMag]
  simp only [roundNum, hm, if_false, roundApprP, max_eq_left he]
  rw [quot_nonneg m (by omega), hk]
  simp only [Bool.not_true, Bool.false_and, Bool.false_eq_true, if_false, if_true, hmag]
  rfl

/-- A subnormal significand rounds to itself. -/
theorem round_subnormal (f : Fmt) (rm : RMode) (neg : Bool) {m : Nat} (hm : m ≠ 0) (hl : m < 2 ^ f.frac)
    (hc : m ≤ f.maxCode) : roundNum f rm (.fin neg m (f.emin - f.frac)) = (f.signed neg m, 0) := by
  have hlog : m.log2 < f.frac := (Nat.log2_lt hm).2 hl
  have hmag : f.encodeMag m (f.emin - (f.frac + 1 : Nat) + 1) = m := by
    have hexp : (m.log2 : Int) + (f.emin - (f.frac + 1 : Nat) + 1) < f.emin := by omega
    have hz : (f.emin - (f.frac + 1 : Nat) + 1 - (f.emin - f.frac)).toNat = 0 := by omega
    simp only [Fmt.encodeMag, hm, if_false, hexp, if_true, hz, pow_zero, mul_one]
  have hz : (f.emin - f.frac - (f.emin - (f.frac + 1 : Nat) + 1)).toNat = 0 := by omega
  simp only [roundNum, hm, if_false, roundApprP, show max ((m.log2 : Int) + (f.emin - f.frac)) f.emin = f.emin by omega]
  rw [quot_nonneg m (by omega), hz]
  simp only [Bool.not_true, Bool.false_and, Bool.false_eq_true, if_false, if_true, pow_zero, mul_one, hmag, not_lt.2 hc]

theorem quot_tiny {m : Nat} {e qe : Int} (hm : m ≠ 0) (h : m.log2 + e + 2 ≤ qe) :
    Appr.quot ⟨m, e, false⟩ qe = (0, false, .lt) := by
  have hlt : 2 * m < 2 ^ (-(e - qe)).toNat :=
    calc 2 * m < 2 * 2 ^ (m.log2 + 1) := Nat.mul_lt_mul_of_pos_left Nat.lt_log2_self two_pos
      _ = 2 ^ (m.log2 + 2) := by ring
      _ ≤ 2 ^ (-(e - qe)).toNat := Nat.pow_le_pow_right two_pos (by omega)
  have hlt' : m < 2 ^ (-(e - qe)).toNat := by omega
  simp only [Appr.quot, show ¬(0 ≤ e - qe) by omega, if_false, Nat.div_eq_of_lt hlt', Nat.mod_eq_of_lt hlt', hm, hlt,
    if_true, decide_false, Bool.false_and]

/-- Everything far enough below the least subnormal rounds alike. -/
theorem round_tiny (f : Fmt) (rm : RMode) (neg : Bool) {m : Nat} {e : Int} (hm : m ≠ 0) (hf : 0 < f.frac)
    (he : m.log2 + e + 2 ≤ f.emin - f.frac) (hc : 1 ≤ f.maxCode) :
    roundNum f rm (.fin neg m e) = (f.signed neg (if roundsUp rm neg 0 .lt then 1 else 0), Fl.unf ||| Fl.ix) := by
  have hone : f.encodeMag 1 (f.emin - (f.frac + 1 : Nat) + 1) = 1 := by
    have hlog : Nat.log2 1 = 0 := (Nat.log2_eq_iff one_ne_zero).2 (by omega)
    have hexp : ((0 : Nat) : Int) + (f.emin - (f.frac + 1 : Nat) + 1) < f.emin := by omega
    have hz : (f.emin - (f.frac + 1 : Nat) + 1 - (f.emin - f.frac)).toNat = 0 := by omega
    simp only [Fmt.encodeMag, one_ne_zero, if_false, hlog, hexp, if_true, hz, pow_zero, mul_one]
  have hzero : f.encodeMag 0 (f.emin - (f.frac + 1 : Nat) + 1) = 0 := if_pos rfl
  have htiny : (m.log2 : Int) + e < f.emin := by omega
  simp only [roundNum, hm, if_false, roundApprP, max_eq_right htiny.le]
  rw [quot_tiny hm (by omega)]
  cases hr : roundsUp rm neg 0 .lt
  · simp only [hr, Bool.not_false, Bool.and_false, Bool.false_eq_true, if_false, hzero, Nat.not_lt_zero, htiny, if_true]
  · simp only [hr, Bool.not_false, Bool.and_true, if_true, zero_add, hone, not_lt.2 hc, if_false, Bool.false_eq_true,
      htiny]

/-! ### The five formats -/

/-- The five floating formats (Table 3-2). -/
def Fmt.listed (t : Fmt) : Prop := t = fp32 ∨ t = bf16 ∨ t = fp16 ∨ t = e4m3 ∨ t = e5m2

theorem fmtOf_listed (ty : ElemTy) : (fmtOf ty).listed := by
  cases ty <;> simp [fmtOf, ElemTy.fmt?, Fmt.listed]

theorem Fmt.listed.shape {t : Fmt} (h : t.listed) : 0 < t.frac ∧ t.frac ≤ 23 ∧ t.ebits ≤ 8 ∧ 1 ≤ t.bias ∧ t.bias ≤ 127 ∧
    2 ^ t.frac ≤ t.maxCode ∧ t.maxCode < 2 ^ t.ebits * 2 ^ t.frac ∧ t.width ≤ 32 := by
  rcases h with rfl | rfl | rfl | rfl | rfl <;> decide

/-- The value of a code is nothing, or a significand that fits with an exponent of the format. -/
theorem Fmt.decode_cases (t : Fmt) (x : Lane) : t.decode x = .nan ∨ (∃ n, t.decode x = .inf n) ∨
    ∃ n m e, t.decode x = .fin n m e ∧ m < 2 ^ (t.frac + 1) ∧ t.emin - t.frac ≤ e ∧ e ≤ 2 ^ t.ebits := by
  have hm : x.toNat % 2 ^ t.frac < 2 ^ t.frac := Nat.mod_lt _ (by positivity)
  have he : x.toNat / 2 ^ t.frac % 2 ^ t.ebits < 2 ^ t.ebits := Nat.mod_lt _ (by positivity)
  have hpow : 2 ^ (t.frac + 1) = 2 ^ t.frac + 2 ^ t.frac := by ring
  have he' : ((x.toNat / 2 ^ t.frac % 2 ^ t.ebits : Nat) : Int) < 2 ^ t.ebits := by exact_mod_cast he
  unfold Fmt.decode
  dsimp only
  split_ifs with h1 h2 h3 h4
  · exact .inl rfl
  · exact .inr (.inl ⟨_, rfl⟩)
  · exact .inl rfl
  · exact .inr (.inr ⟨_, _, _, rfl, by omega, by unfold Fmt.emin; omega, by omega⟩)
  · exact .inr (.inr ⟨_, _, _, rfl, by omega, by unfold Fmt.emin; omega, by omega⟩)

/-- Above every exponent of the format a value overflows. -/
theorem round_huge {t : Fmt} (h : t.listed) (rm : RMode) (neg : Bool) {m : Nat} {e : Int} (hm : m ≠ 0)
    (hl : m.log2 ≤ t.frac) (he : 2 ^ t.ebits ≤ e) : roundNum t rm (.fin neg m e) = overflowed t rm neg := by
  obtain ⟨-, -, -, hb, -, -, hmax, -⟩ := h.shape
  have he' : ((2 ^ t.ebits : Nat) : Int) ≤ e := by exact_mod_cast he
  have hpos : 0 ≤ e := le_trans (by positivity) he
  rw [round_normal t rm neg hm hl (by unfold Fmt.emin; omega), if_pos]
  calc t.maxCode < 2 ^ t.ebits * 2 ^ t.frac := hmax
    _ ≤ (m.log2 + e - t.emin + 1).toNat * 2 ^ t.frac := Nat.mul_le_mul_right _ (by unfold Fmt.emin; omega)
    _ ≤ normalMag t m e := Nat.le_add_right ..

/-- R184: the value of a code times 2^k rounds as it does times 2^±4096, beyond that. -/
theorem round_scale_clamped {t : Fmt} (h : t.listed) (rm : RMode) (x : Lane) (k : Int) :
    roundNum t rm ((t.decode x).scale (max (-4096) (min 4096 k))) = roundNum t rm ((t.decode x).scale k) := by
  obtain ⟨hf, hfrac, hebits, hb, hbias, hmax, -⟩ := h.shape
  rcases t.decode_cases x with hx | ⟨n, hx⟩ | ⟨n, m, e, hx, hm, hlo, hhi⟩
  · rw [hx]; rfl
  · rw [hx]; rfl
  rw [hx]
  simp only [Num.scale]
  by_cases hz : m = 0
  · subst hz; rfl
  have hl : m.log2 ≤ t.frac := Nat.lt_succ_iff.1 ((Nat.log2_lt hz).2 hm)
  have hpow : (2 : Int) ^ t.ebits ≤ 256 := by
    calc (2 : Int) ^ t.ebits ≤ 2 ^ 8 := pow_le_pow_right₀ (by norm_num) hebits
      _ = 256 := by norm_num
  unfold Fmt.emin at hlo
  rcases lt_or_ge k (-4096) with hk | hk
  · rw [round_tiny t rm n hz hf (by unfold Fmt.emin; omega) (le_trans Nat.one_le_two_pow hmax),
      round_tiny t rm n hz hf (by unfold Fmt.emin; omega) (le_trans Nat.one_le_two_pow hmax)]
  rcases lt_or_ge 4096 k with hk' | hk'
  · rw [round_huge h rm n hz hl (by omega), round_huge h rm n hz hl (by omega)]
  · rw [min_eq_right hk', max_eq_right hk]

/-! ### Round of the value of a code (R72, R83) -/

/-- The fields of a code make it up. -/
theorem Fmt.code_fields (t : Fmt) {c : Lane} (hw : c.toNat < 2 ^ t.width) :
    t.signed (c.getLsbD (t.width - 1))
      (c.toNat / 2 ^ t.frac % 2 ^ t.ebits * 2 ^ t.frac + c.toNat % 2 ^ t.frac) = c := by
  have hwidth : t.width - 1 = t.frac + t.ebits := by unfold Fmt.width; omega
  have hfields : c.toNat / 2 ^ t.frac % 2 ^ t.ebits * 2 ^ t.frac + c.toNat % 2 ^ t.frac =
      c.toNat % 2 ^ (t.frac + t.ebits) := by
    rw [pow_add, Nat.mod_mul, mul_comm, add_comm]
  have htop : c.toNat / 2 ^ (t.frac + t.ebits) < 2 := by
    refine Nat.div_lt_of_lt_mul ?_
    rw [← pow_succ]
    convert hw using 2
    unfold Fmt.width
    omega
  have hsign : c.toNat / 2 ^ (t.frac + t.ebits) = if c.getLsbD (t.frac + t.ebits) then 1 else 0 := by
    rw [← BitVec.testBit_toNat, Nat.testBit_eq_decide_div_mod_eq]
    generalize c.toNat / 2 ^ (t.frac + t.ebits) = q at htop
    split_ifs with h <;> simp only [decide_eq_true_eq] at h <;> omega
  have hsum : c.toNat % 2 ^ (t.frac + t.ebits) + (if c.getLsbD (t.frac + t.ebits) then 2 ^ (t.frac + t.ebits) else 0) =
      c.toNat := by
    have hdiv := Nat.mod_add_div c.toNat (2 ^ (t.frac + t.ebits))
    rw [hsign] at hdiv
    cases hb : c.getLsbD (t.frac + t.ebits) <;> simpa [hb] using hdiv
  rw [Fmt.signed, hwidth, hfields, hsum]
  exact BitVec.ofNat_toNat .. |>.trans (BitVec.setWidth_eq c)

theorem Fmt.listed.maxCode_eq {t : Fmt} (h : t.listed) :
    t.maxCode =
      if t.noInf then (2 ^ t.ebits - 1) * 2 ^ t.frac + 2 ^ t.frac - 2 else (2 ^ t.ebits - 1) * 2 ^ t.frac - 1 := by
  rcases h with rfl | rfl | rfl | rfl | rfl <;> rfl

/-- A finite code is no larger than the largest. -/
theorem Fmt.listed.le_maxCode {t : Fmt} (h : t.listed) {e m : Nat} (he : e < 2 ^ t.ebits) (hm : m < 2 ^ t.frac)
    (hn : t.noInf = true → ¬(e = 2 ^ t.ebits - 1 ∧ m = 2 ^ t.frac - 1)) (hi : t.noInf = false → e ≠ 2 ^ t.ebits - 1) :
    e * 2 ^ t.frac + m ≤ t.maxCode := by
  have hstep : e + 1 ≤ 2 ^ t.ebits - 1 → e * 2 ^ t.frac + 2 ^ t.frac ≤ (2 ^ t.ebits - 1) * 2 ^ t.frac := fun hlt => by
    rw [← Nat.succ_mul]
    exact Nat.mul_le_mul_right _ hlt
  have hpos : 2 ≤ 2 ^ t.frac := Nat.pow_le_pow_right two_pos h.shape.1
  rw [h.maxCode_eq]
  rcases eq_or_ne e (2 ^ t.ebits - 1) with htop | htop
  · cases hno : t.noInf
    · exact absurd htop (hi hno)
    · have := hn hno
      rw [if_pos rfl, htop]
      omega
  · have := hstep (by omega)
    split_ifs <;> omega

/-- Round leaves the value of a code as it is, in every mode and without a flag. -/
theorem round_decode {t : Fmt} (h : t.listed) (rm : RMode) {c : Lane} (hw : c.toNat < 2 ^ t.width)
    (hn : t.decode c ≠ .nan) : roundNum t rm (t.decode c) = (c, 0) := by
  have hc := t.code_fields hw
  have hm : c.toNat % 2 ^ t.frac < 2 ^ t.frac := Nat.mod_lt _ (by positivity)
  have he : c.toNat / 2 ^ t.frac % 2 ^ t.ebits < 2 ^ t.ebits := Nat.mod_lt _ (by positivity)
  unfold Fmt.decode at hn ⊢
  dsimp only at hn ⊢
  generalize c.toNat / 2 ^ t.frac % 2 ^ t.ebits = e at *
  generalize c.toNat % 2 ^ t.frac = m at *
  generalize c.getLsbD (t.width - 1) = neg at *
  have hmax := h.le_maxCode he hm
  split_ifs at hn ⊢ with h1 h2 h3 h4
  · exact absurd rfl hn
  · simp only [Bool.and_eq_true, Bool.not_eq_true', decide_eq_true_eq] at h2
    obtain ⟨hno, rfl⟩ := h2
    simp only [roundNum, hno, Bool.false_eq_true, if_false, Fmt.inf]
    rw [h3, add_zero] at hc
    rw [hc]
  · exact absurd rfl hn
  all_goals
    replace hmax := hmax (by simpa using h1) (by simpa using h2)
  · rw [h4, zero_mul, zero_add] at hc hmax
    by_cases hz : m = 0
    · subst hz
      simp only [roundNum, if_true, hc]
    · exact (round_subnormal t rm neg hz hm hmax).trans (by rw [hc])
  · have hlog : (2 ^ t.frac + m).log2 = t.frac := (Nat.log2_eq_iff (by omega)).2 ⟨by omega, by rw [pow_succ]; omega⟩
    have hmag : normalMag t (2 ^ t.frac + m) (e - t.bias - t.frac) = e * 2 ^ t.frac + m := by
      have hexp : ((t.frac : Int) + (e - t.bias - t.frac) - t.emin + 1).toNat = e := by unfold Fmt.emin; omega
      rw [normalMag, hlog, hexp, Nat.sub_self, pow_zero, mul_one, Nat.add_sub_cancel_left]
    rw [round_normal t rm neg (by omega) hlog.le (by rw [hlog]; unfold Fmt.emin; omega), hmag,
      if_neg (not_lt.2 hmax), hc]

end Sys2Proof.Machine
end

