-- ==== Sys2Proof/Proofs/FloatLanes.lean ====
section
/-!
PROOFS. The lane-wise floating-point instructions and conversions (R152 to R184, R303): the model's function of each lane
is the one that the tables over the reals give, and each instruction fires with it.
-/

namespace Sys2Proof.Machine

/-! ### Values of a lane -/

/-- `fma`: IV of the product or of the sum, and NaN with it (R153, R157). -/
theorem fmaValue_eq (rm : RMode) (negP negC : Bool) (x y c : Num) :
    let p := Num.mul x y
    let p' := if negP then p.negate else p
    let c' := if negC then c.negate else c
    let z := Num.add rm p' c'
    fmaValue rm negP negC x y c = (z, invalid x y p ||| invalid p' c' z) := by
  intro p p' c' z
  have hz : invalid x y p ≠ 0 → z = .nan := by
    intro h
    have hp : p.isNan = true := by
      by_contra hp
      exact h (if_neg (by simp [hp]))
    have hp' : p' = .nan := by
      cases hpn : p with
      | nan => simp only [p', hpn, Num.negate, ite_self]
      | inf => rw [hpn] at hp; cases hp
      | fin => rw [hpn] at hp; cases hp
    simp only [z, hp']
    rfl
  have hform : fmaValue rm negP negC x y c =
      (if invalid x y p != 0 then Num.nan else z, invalid x y p ||| invalid p' c' z) := rfl
  rw [hform]
  by_cases h : invalid x y p = 0
  · rw [if_neg (by simp [h])]
  · rw [if_pos (bne_iff_ne.2 h), hz h]

/-- Table 6-4. -/
theorem fcmpValue_eq (c : Nat) (hc : c < 8) (x y : Num) : fcmpValue c x y = comparison c x y := by
  unfold fcmpValue comparison
  by_cases hn : (x.isNan || y.isNan) = true
  · simp only [hn, if_true, Bool.true_and]
    interval_cases c <;> rfl
  · simp only [hn, if_false, Bool.false_eq_true, Bool.false_and]
    have heqv : x.eqv y = (!less x y && !less y x) := by
      rw [Bool.not_eq_true, Bool.or_eq_false_iff] at hn
      simp only [Num.eqv, hn.1, hn.2, lt_eq_less, Bool.not_false, Bool.true_and]
    interval_cases c <;> simp [heqv, lt_eq_less]

/-- The low k bits of a container with bit k set or clear. -/
theorem signed_bits {k : Nat} (hk : k < 32) (x : Lane) (neg : Bool) {top : Lane} (htop : top.toNat = 2 ^ k) :
    BitVec.ofNat 32 (x.toNat % 2 ^ k + if neg then 2 ^ k else 0) =
      (x &&& (top - 1)) ||| (if neg then top else 0) := by
  have hpos : 0 < 2 ^ k := by positivity
  have hpow : 2 ^ k ≤ 2 ^ 31 := Nat.pow_le_pow_right two_pos (by omega)
  have hmod : x.toNat % 2 ^ k < 2 ^ k := Nat.mod_lt _ hpos
  have hlow : (top - 1).toNat = 2 ^ k - 1 := by
    rw [BitVec.toNat_sub_of_le (by rw [BitVec.le_def, htop]; exact hpos), htop]
    rfl
  apply BitVec.eq_of_toNat_eq
  rw [BitVec.toNat_or, BitVec.toNat_and, hlow, Nat.and_two_pow_sub_one_eq_mod, BitVec.toNat_ofNat]
  cases neg
  · exact (Nat.mod_eq_of_lt (by simpa using lt_trans hmod (by omega))).trans (Nat.or_zero _).symm
  · rw [if_pos rfl, if_pos rfl, htop, Nat.mod_eq_of_lt (by omega), Nat.or_comm, add_comm]
    simpa using Nat.two_pow_add_eq_or_of_lt hmod 1

/-- R160. -/
theorem fsgnValue_eq {t : Fmt} (h : t.listed) (fn : Nat) (x y : Lane) :
    fsgnValue t fn x y = resigned t.width fn x y := by
  have hw : t.width - 1 < 32 := by
    have := h.shape
    omega
  have htop : ((1 <<< (t.width - 1) : Nat) : Lane).toNat = 2 ^ (t.width - 1) := by
    rw [Nat.one_shiftLeft]
    exact Nat.mod_eq_of_lt (Nat.pow_lt_pow_right (by omega) hw)
  unfold fsgnValue resigned Fmt.signed
  refine (signed_bits hw x _ htop).trans ?_
  rcases fn with _ | _ | _ | _ | n <;> rfl

/-- R162. -/
theorem frndValue_eq (t : Fmt) (rm : RMode) (p : Num) : frndValue t rm p = (roundNum t rm (integral rm p)).1 := by
  cases p with
  | nan => rfl
  | inf => rfl
  | fin neg m e =>
    simp only [frndValue, integral, roundIntegral_eq]

theorem e8m0Value_eq (x : Lane) :
    e8m0Value (x.extractLsb' 0 8) =
      if x.toNat % 256 = 255 then .nan else .fin false 1 ((x.toNat % 256 : Nat) - 127) := by
  have hx : (x.extractLsb' 0 8 : Byte).toNat = x.toNat % 256 := by simp
  have hc : ((x.extractLsb' 0 8 : Byte) == 0xFF) = decide (x.toNat % 256 = 255) := by
    rw [← hx, beq_eq_decide]
    exact decide_eq_decide.2 ⟨fun h => congrArg BitVec.toNat h, fun h => BitVec.eq_of_toNat_eq h⟩
  simp only [e8m0Value, hc, decide_eq_true_eq, hx]

theorem Fmt.listed.signed_ne_inf {t : Fmt} (h : t.listed) (neg : Bool) :
    (t.decode (t.signed neg t.maxCode)).isInf = false := by
  rcases h with rfl | rfl | rfl | rfl | rfl <;> cases neg <;> decide

theorem ElemTy.fmt?_listed {ty : ElemTy} {t : Fmt} (h : ElemTy.fmt? ty = some t) : t.listed := by
  have := fmtOf_listed ty
  rwa [fmtOf, h] at this

/-- The exact value that `cvt` converts. -/
def cvtSource (e : FpEnv) (src : ElemTy) (x : Lane) : Num :=
  if ElemTy.isInt src then .fin (decide (intOf src x < 0)) (intOf src x).natAbs 0
  else if src = .e8m0 then
    if x.toNat % 256 = 255 then .nan else .fin false 1 ((x.toNat % 256 : Nat) - 127)
  else match ElemTy.fmt? src with
    | some t => e.value t x
    | none => .nan

/-- R172: `cvt` to an integer type. -/
theorem roundInt_eq (ty : ElemTy) (rm : RMode) (p : Num) :
    roundInt (ElemTy.ifmt ty) rm p =
      match p with
      | .nan => (0, Fl.iv)
      | .inf neg => (wrapAs ty (if neg then lowOf ty else highOf ty), Fl.iv)
      | .fin .. =>
        let y := roundRat rm (exactQ p)
        (wrapAs ty (clampTo ty y), if clampTo ty y ≠ y then Fl.iv else if (y : ℚ) = exactQ p then 0 else Fl.ix) := by
  cases p with
  | nan => rfl
  | inf neg => simp only [roundInt, ElemTy.ifmt_min, ElemTy.ifmt_max, ElemTy.ifmt_wrap]
  | fin neg m e => exact roundInt_fin ty rm neg m e

/-- What `cvt` makes of an exact value. -/
def cvtRounded (e : FpEnv) (rm : RMode) (sat : Bool) (dst : ElemTy) (p : Num) : Lane × FFlags :=
  match ElemTy.fmt? dst, p with
  | none, .nan => (0, Fl.iv)
  | none, .inf neg => (wrapAs dst (if neg then lowOf dst else highOf dst), Fl.iv)
  | none, _ =>
    let y := roundRat rm (exactQ p)
    (wrapAs dst (clampTo dst y), if clampTo dst y ≠ y then Fl.iv else if (y : ℚ) = exactQ p then 0 else Fl.ix)
  | some t, _ =>
    let most : Lane := t.signed p.isNeg t.maxCode
    let y := if sat && p.isInf then (most, 0) else roundNum t rm p
    resultFlush t e.rfl (if sat && (t.decode y.1).isInf then (most, y.2) else y)

theorem converted_of_float (e : FpEnv) (rm : RMode) (sat : Bool) {src dst : ElemTy}
    (hi : ¬(ElemTy.isInt src && ElemTy.isInt dst) = true) (x : Lane) :
    converted e rm sat src dst x = cvtRounded e rm sat dst (cvtSource e src x) :=
  if_neg hi

theorem cvtRounded_int (e : FpEnv) (rm : RMode) (sat : Bool) {dst : ElemTy} (hd : ElemTy.fmt? dst = none) (p : Num) :
    cvtRounded e rm sat dst p = roundInt (ElemTy.ifmt dst) rm p := by
  unfold cvtRounded
  rw [roundInt_eq, hd]
  cases p <;> rfl

/-- An infinity under .sat is already the largest value, which is none itself. -/
theorem cvtRounded_float (e : FpEnv) (rm : RMode) (sat : Bool) {dst : ElemTy} {t : Fmt} (hd : ElemTy.fmt? dst = some t)
    (p : Num) :
    cvtRounded e rm sat dst p =
      if sat && p.isInf then resultFlush t e.rfl (t.signed p.isNeg t.maxCode, 0)
      else
        let y := roundNum t rm p
        resultFlush t e.rfl (if sat && (t.decode y.1).isInf then (t.signed p.isNeg t.maxCode, y.2) else y) := by
  have hmost := (ElemTy.fmt?_listed hd).signed_ne_inf p.isNeg
  unfold cvtRounded
  rw [hd]
  dsimp only
  by_cases hs : (sat && p.isInf) = true
  · simp only [hs, if_true, hmost, Bool.and_false, Bool.false_eq_true, if_false]
  · simp only [hs, if_false, Bool.false_eq_true]

/-- R172. -/
theorem cvtValue_eq (e : FpEnv) (rm : RMode) (sat : Bool) (src dst : ElemTy) (x : Lane) :
    cvtValue e rm sat src dst x = converted e rm sat src dst x := by
  by_cases hi : (ElemTy.isInt src && ElemTy.isInt dst) = true
  · simp only [cvtValue, converted, hi, if_true, ElemTy.ifmt_int, ElemTy.ifmt_sat, ElemTy.ifmt_wrap]
    cases sat <;> rfl
  · rw [converted_of_float e rm sat hi]
    unfold cvtValue
    simp only [hi, if_false, Bool.false_eq_true, ElemTy.ifmt_int, e8m0Value_eq, beq_iff_eq, Num.ofInt]
    cases hd : ElemTy.fmt? dst with
    | none => exact (cvtRounded_int e rm sat hd _).symm
    | some t => exact (cvtRounded_float e rm sat hd _).symm

/-- R184. -/
theorem scaleBy_eq (e : FpEnv) (f : Fields) (x : Lane) (k : Int) :
    scaleBy e f x (some k) =
      rounded e (fmtOf f.ty) (e.select (bits f.fn 0 3)) ((e.value (fmtOf f.ty) x).scale k, 0) := by
  rw [← finish_rounded]
  simp only [scaleBy, FpEnv.finish, FpEnv.value, round_scale_clamped (fmtOf_listed f.ty)]
  rfl

/-! ### The instructions -/

section
variable {i : Instr} {s : State} {a : At} {f : Fields}

/-- The second operand of the floating-point forms (R150). -/
def floatB (a : At) (f : Fields) (v : Slot → Lane) : Num :=
  if bitAt f.fn 5 then a.env.value bf16 (f.imm.setWidth 32) else a.env.value (fmtOf f.ty) (v .b)

/-- R156: a form with two operands, whose exact value rounds once. -/
theorem LaneFires.of_floatNode {G : RMode → Num → Num → Num × FFlags} (g : RMode → Num → Num → Num)
    (he : exec i s = floatNode s f G) (hd : NodeData s a f (slotsOrImm f)) (hr : a.room f)
    (hg : ∀ rm x y, G rm x y = (g rm x y, invalid x y (g rm x y))) :
    LaneFires i s a f (slotsOrImm f) fun v =>
      let z := g (modeOf a.env f) (a.env.value (fmtOf f.ty) (v .a)) (floatB a f v)
      rounded a.env (fmtOf f.ty) (modeOf a.env f)
        (z, invalid (a.env.value (fmtOf f.ty) (v .a)) (floatB a f v) z) := by
  unfold floatNode at he
  refine .of_laneNode he hd hr fun v => ?_
  simp only [hg]
  rfl

/-- R158: `fmin` and `fmax`. -/
theorem LaneFires.of_selectNode {larger : Bool} (he : exec i s = selectNode s f larger)
    (hd : NodeData s a f (slotsOrImm f)) (hr : a.room f) :
    LaneFires i s a f (slotsOrImm f) fun v =>
      rounded a.env (fmtOf f.ty) a.env.rm (smallerOf larger (a.env.value (fmtOf f.ty) (v .a)) (floatB a f v), 0) := by
  unfold selectNode at he
  refine .of_laneNode he hd hr fun v => ?_
  rw [← selectValue_eq, ← finish_rounded]
  rfl

/-- R163, R166: the functions of one FP32 operand. -/
theorem LaneFires.of_functionNode {g : Num → Lane × FFlags} (he : exec i s = functionNode s f g)
    (hd : NodeData s a f [.a]) (hr : a.room f) :
    LaneFires i s a f [.a] fun v => resultFlush fp32 a.env.rfl (g (a.env.value fp32 (v .a))) :=
  .of_laneNode he hd hr fun _ => rfl

end

theorem sumIv_negate (rm : RMode) (x y : Num) :
    sumIv rm x y.negate = (Num.add rm x y.negate, invalid x y (Num.add rm x y.negate)) := by
  cases y <;> rfl

/-- Each lane-wise floating-point instruction and conversion, and `tmenu`, fires with the value of its entry. -/
theorem floatLane_fires {i : Instr} {s : State} {a : At} {f : Fields} {ins : List Slot}
    {g : (Slot → Lane) → Lane × FFlags} (h : floatLane i a = some (f, ins, g)) (hd : NodeData s a f ins)
    (hr : a.room f) : LaneFires i s a f ins g := by
  unfold floatLane at h
  dsimp only at h
  split at h
  next f =>
    cases h
    exact .of_floatNode Num.add (show _ = execFadd f s from rfl) hd hr fun _ _ _ => rfl
  next f =>
    cases h
    exact .of_floatNode (fun rm x y => Num.add rm x y.negate) (show _ = execFsub f s from rfl) hd hr sumIv_negate
  next f =>
    cases h
    exact .of_floatNode (fun _ => Num.mul) (show _ = execFmul f s from rfl) hd hr fun _ _ _ => rfl
  next f =>
    cases h
    have he : exec (.fma f) s = execFma f s := rfl
    unfold execFma at he
    exact .of_laneNode he hd hr fun v =>
      congrArg (a.env.done (fmtOf f.ty) (modeOf a.env f)) (fmaValue_eq ..)
  next f =>
    cases h
    exact .of_selectNode (show _ = execFmin f s from rfl) hd hr
  next f =>
    cases h
    exact .of_selectNode (show _ = execFmax f s from rfl) hd hr
  next f =>
    cases h
    have he : exec (.fcmp f) s = execFcmp f s := rfl
    unfold execFcmp at he
    exact .of_laneNode he hd hr fun v => fcmpValue_eq _ (BitVec.isLt (w := 3) _) _ _
  next f =>
    cases h
    have he : exec (.fsgn f) s = execFsgn f s := rfl
    unfold execFsgn at he
    exact .of_laneNode he hd hr fun v => congrArg (·, (0 : FFlags)) (fsgnValue_eq (fmtOf_listed f.ty) ..)
  next f =>
    cases h
    exact .of_functionNode (show _ = execFrcp f s from rfl) hd hr
  next f =>
    cases h
    exact .of_functionNode (show _ = execFrsq f s from rfl) hd hr
  next f =>
    cases h
    exact .of_functionNode (show _ = execFex2 f s from rfl) hd hr
  next f =>
    cases h
    exact .of_functionNode (show _ = execFlg2 f s from rfl) hd hr
  next f =>
    cases h
    exact .of_functionNode (show _ = execFtnh f s from rfl) hd hr
  next f =>
    cases h
    exact .of_laneNode (show _ = execFref f s from rfl) hd hr fun _ => rfl
  next f =>
    cases h
    have he : exec (.fcls f) s = execFcls f s := rfl
    unfold execFcls at he
    refine .of_laneNode he hd hr fun v => ?_
    simp only [beq_iff_eq]
    rfl
  next f =>
    cases h
    have he : exec (.frnd f) s = execFrnd f s := rfl
    unfold execFrnd at he
    exact .of_laneNode he hd hr fun v => congrArg (·, (0 : FFlags)) (frndValue_eq ..)
  next f =>
    cases h
    have he : exec (.cvt f) s = execCvt f s := rfl
    unfold execCvt at he
    exact .of_laneNode he hd hr fun v => cvtValue_eq ..
  next f =>
    cases h
    exact .of_laneNode (show _ = execCbx f s from rfl) hd hr fun _ => rfl
  next f =>
    cases h
    exact .of_laneNode (show _ = execCbq f s from rfl) hd hr fun _ => rfl
  next f =>
    cases h
    have he : exec (.tmenu f) s = execTmenu f s := rfl
    unfold execTmenu at he
    refine .of_laneNode he hd hr fun v => ?_
    simp only [beq_iff_eq] <;> rfl
  next f =>
    have he : exec (.sclx f) s = execSclx f s := rfl
    unfold execSclx at he
    split_ifs at h with h0 h1 h2
    · cases h
      rw [h0] at he
      exact .of_laneNode he hd hr fun v => scaleBy_eq ..
    · cases h
      rw [h1] at he
      exact .of_laneNode he hd hr fun v => scaleBy_eq ..
    · cases h
      rw [h2] at he
      exact .of_laneNode he hd hr fun v => scaleBy_e8m0 ..
  next => cases h

/-- Settles O32: each instruction of the table fires with the value of its lane, and Round gives each code back from its
value. -/
theorem floatLanes : Obligations.FloatLanes := by
  unfold Obligations.FloatLanes
  exact ⟨fun i s a f ins g h hd hr => floatLane_fires h hd hr, fun t rm c ht hw hn => round_decode ht rm hw hn⟩

end Sys2Proof.Machine
end
